-- ==== Sys2Proof/Word.lean ====
section
/-!
DEFINITION. The word types of the Fjolar (00 R3): byte, half, word, double, and the mask of a weave's 32 threads.
-/

namespace Sys2Proof

/-- A byte of memory (R3). -/
abbrev Byte := BitVec 8
/-- A half, 16 bits (R3). -/
abbrev Half := BitVec 16
/-- A word, 32 bits (R3). -/
abbrev Word := BitVec 32
/-- A double, 64 bits (R3). -/
abbrev Double := BitVec 64
/-- A mask over the 32 threads of a weave; bit t is thread t. -/
abbrev Mask := BitVec 32
/-- The six sticky flags of one thread, laid out as `$flags` bits 5:0 (R220). -/
abbrev Flags := BitVec 6

end Sys2Proof
end

