-- ==== Sys2Proof/Syntax.lean ====
section
/-!
DEFINITION. The instruction set of the Fjolar as syntax: operand fields (03 R31 to R45), the shapes of the formats, and
one constructor of Instr for every row of spec/opcode_table.json, the event rows (steps without an encoding) among them.
-/

namespace Sys2Proof

/-- A lane source field (R31). `v n` is a register (n below 120), `lit` the literal of the extension word. -/
inductive LSrc
  | v (n : BitVec 7)
  | latch (k : BitVec 2)
  | zero
  | lit
  | tid
deriving DecidableEq, Repr, Inhabited

/-- The special registers a source field can name (R33). -/
inductive Special
  | wid | inst | role | lsn | mode | flags | ninst | nwv | shape0 | shape1 | shape2 | vf | clk | rng
deriving DecidableEq, Repr, Inhabited

/-- A uniform source field (R33), and the source of `movs` (R280). -/
inductive USrc
  | s (n : BitVec 6)
  | sp (x : Special)
  | zero
  | lit
deriving DecidableEq, Repr, Inhabited

/-- A uniform destination field (R33): s0 to s63, `$mode` (68) or `$flags` (69). -/
inductive UDst
  | s (n : BitVec 6)
  | mode
  | flags
deriving DecidableEq, Repr, Inhabited

/-- Compare conditions (R35). -/
inductive Cond
  | eq | ne | lt | le | gt | ge | un | ord
deriving DecidableEq, Repr, Inhabited

/-- Neighbour selector of a source (R40, R304). -/
inductive Nbr
  | self | left | right
deriving DecidableEq, Repr, Inhabited

/-- Edge mode (R40, R304); `fill f` names the uniform fill register. -/
inductive Edge
  | zero | wrap | clamp | fill (f : BitVec 6)
deriving DecidableEq, Repr, Inhabited

/-- A round field: `$mode`, or one of the five modes (R40, R223). -/
inductive Round
  | dflt | rn | rz | ru | rd | rs
deriving DecidableEq, Repr, Inhabited

/-- Guard predicate and polarity (R40, R42): the thread acts where the predicate differs from gpol. -/
structure Guard where
  p : BitVec 3
  pol : Bool
deriving DecidableEq, Repr, Inhabited

/-- The modifier fields of an ALU form other than vc and reuse (R40). -/
structure Modif where
  na : Nbr
  nb : Nbr
  edge : Edge
  round : Round
  guard : Guard
deriving DecidableEq, Repr, Inhabited

/-- An extension word of an LM form (R37): literal layout with its payload, or modifier layout. -/
inductive Ext
  | lit (payload : BitVec 28)
  | mod (m : Modif)
deriving DecidableEq, Repr, Inhabited

/-- Scopes (R156), in code order. -/
inductive Scope
  | th | wv | cl | co | pt | tn | dv | sy
deriving DecidableEq, Repr, Inhabited

/-- Widths of memory accesses (R161). -/
inductive MemW
  | n8 | i8 | n16 | i16 | b32 | b64
deriving DecidableEq, Repr, Inhabited

/-- Order field of a qualified access (R161). -/
inductive Order
  | none | acq | rel
deriving DecidableEq, Repr, Inhabited

/-- Full/empty field of a qualified access (R161): `fe` is .fe on loads and .sf on stores, `fec` is .fec. -/
inductive FullEmpty
  | none | fe | fec
deriving DecidableEq, Repr, Inhabited

/-- Cache hint of a qualified access (R161). -/
inductive CacheHint
  | dflt | nl1 | str
deriving DecidableEq, Repr, Inhabited

/-- The payload of a qualified access (R161). -/
structure Qual where
  width : MemW
  order : Order
  scope : Scope
  fe : FullEmpty
  cache : CacheHint
deriving DecidableEq, Repr, Inhabited

/-- Atomic operations (R170). -/
inductive AtomOp
  | add | and | or | xor | min | max | exch | fadd | cas
deriving DecidableEq, Repr, Inhabited

/-- Atomic types (R170). -/
inductive AtomTy
  | n32 | i32 | n64 | i64 | f32 | f64
deriving DecidableEq, Repr, Inhabited

/-- Order field of an atomic (R170). -/
inductive AtomOrd
  | relaxed | acq | rel | ar
deriving DecidableEq, Repr, Inhabited

/-- The payload of an atomic (R170) without its operation. -/
structure AtomQ where
  ty : AtomTy
  order : AtomOrd
  scope : Scope
  circle : Bool
  ret : Bool
deriving DecidableEq, Repr, Inhabited

/-- Fence kinds (R172). -/
inductive FenceKind
  | ar | acq | rel
deriving DecidableEq, Repr, Inhabited

/-- The queue field of `cpy.g` (R179). -/
inductive CpyQ
  | copy0 | copy1 | fabric
deriving DecidableEq, Repr, Inhabited

/-- The operand of a conversion (R298): kind and types. -/
inductive CvtOp
  | std (dst src : BitVec 4)
  | toNarrow (src : BitVec 4) (code : BitVec 16)
  | fromNarrow (dst : BitVec 4) (code : BitVec 16)
deriving DecidableEq, Repr, Inhabited

/-! ## Shapes of the lane forms -/

/-- Format R, two sources (R43). -/
structure LaneR where
  s : Bool
  c : Bool
  d : BitVec 7
  a : LSrc
  b : LSrc
deriving DecidableEq, Repr, Inhabited

/-- Format R, one source in field a (R43). -/
structure LaneR1 where
  s : Bool
  c : Bool
  d : BitVec 7
  a : LSrc
deriving DecidableEq, Repr, Inhabited

/-- Format P (R35). -/
structure LaneP where
  c : Bool
  cond : Cond
  p : BitVec 3
  a : LSrc
  b : LSrc
deriving DecidableEq, Repr, Inhabited

/-- `plog` (R35, R282). -/
structure LanePlog where
  c : Bool
  t : BitVec 4
  p : BitVec 3
  a : BitVec 3
  b : BitVec 3
deriving DecidableEq, Repr, Inhabited

/-- Format X, two sources, literal or modifier layout. -/
structure LaneX where
  s : Bool
  c : Bool
  d : BitVec 7
  a : LSrc
  b : LSrc
  ext : Ext
deriving DecidableEq, Repr, Inhabited

/-- Format X, one source. -/
structure LaneX1 where
  s : Bool
  c : Bool
  d : BitVec 7
  a : LSrc
  ext : Ext
deriving DecidableEq, Repr, Inhabited

/-- Format P with an extension word. -/
structure LaneXP where
  c : Bool
  cond : Cond
  p : BitVec 3
  a : LSrc
  b : LSrc
  ext : Ext
deriving DecidableEq, Repr, Inhabited

/-- Format X, three sources, modifier layout. -/
structure LaneX3 where
  s : Bool
  c : Bool
  d : BitVec 7
  a : LSrc
  b : LSrc
  vc : LSrc
  m : Modif
deriving DecidableEq, Repr, Inhabited

/-- `sel` (R279): the predicate k stands in vc. -/
structure LaneSel where
  s : Bool
  c : Bool
  d : BitVec 7
  a : LSrc
  b : LSrc
  k : BitVec 3
  m : Modif
deriving DecidableEq, Repr, Inhabited

/-- A plain load (R44): destination, base, offset. -/
structure LaneLd where
  d : BitVec 7
  a : LSrc
  b : LSrc
deriving DecidableEq, Repr, Inhabited

/-- A plain store (R44): data, base, offset. -/
structure LaneSt where
  t : LSrc
  a : LSrc
  b : LSrc
deriving DecidableEq, Repr, Inhabited

/-- A conversion (R298). -/
structure LaneCvt where
  s : Bool
  c : Bool
  d : BitVec 7
  a : LSrc
  op : CvtOp
  round : Round
deriving DecidableEq, Repr, Inhabited

/-- A box copy (R178): counter, coordinates, circle offset, tensor, extents, queue. -/
structure LaneBox where
  ctr : Option (BitVec 7 × Scope)
  x : BitVec 7
  o : LSrc
  tx : BitVec 8
  n : BitVec 3
  e0 : BitVec 4
  e1 : BitVec 4
  q : Bool
deriving DecidableEq, Repr, Inhabited

/-- `cpy.g` (R179). -/
structure LaneCpyG where
  ctr : Option (BitVec 7 × Scope)
  a : LSrc
  b : LSrc
  len : BitVec 20
  q : CpyQ
deriving DecidableEq, Repr, Inhabited

/-- `rim.ld` and `rim.st` (R325). -/
structure LaneRim where
  ctr : Option (BitVec 7 × Scope)
  x : LSrc
  o : LSrc
  tile : BitVec 3
  tx : BitVec 8
  n : BitVec 3
  er : BitVec 3
  ec : BitVec 3
  round : Round
  circle : Bool
deriving DecidableEq, Repr, Inhabited

/-- `mtile` (R313). -/
structure LaneMtile where
  rim : BitVec 3
  sa : BitVec 5
  sb : BitVec 5
  ctr : Option (BitVec 7 × Scope)
  guard : Guard
  reuse : Bool
deriving DecidableEq, Repr, Inhabited

/-- Format B (R45). -/
structure Branch where
  prio : BitVec 16
  p : BitVec 3
  pol : Bool
  off : BitVec 28
deriving DecidableEq, Repr, Inhabited

/-! ## Shapes of the uniform forms -/

/-- Format R of the uniform set. -/
structure UniR where
  c : Bool
  d : UDst
  a : USrc
  b : USrc
deriving DecidableEq, Repr, Inhabited

/-- Format R of the uniform set, one source. -/
structure UniR1 where
  c : Bool
  d : UDst
  a : USrc
deriving DecidableEq, Repr, Inhabited

/-- Format P of the uniform set; q0 to q3. -/
structure UniP where
  c : Bool
  cond : Cond
  p : BitVec 2
  a : USrc
  b : USrc
deriving DecidableEq, Repr, Inhabited

/-- Uniform `plog`. -/
structure UniPlog where
  c : Bool
  t : BitVec 4
  p : BitVec 2
  a : BitVec 3
  b : BitVec 3
deriving DecidableEq, Repr, Inhabited

/-- Format X of the uniform set. -/
structure UniX where
  c : Bool
  d : UDst
  a : USrc
  b : USrc
  ext : Ext
deriving DecidableEq, Repr, Inhabited

/-- Format X of the uniform set, one source. -/
structure UniX1 where
  c : Bool
  d : UDst
  a : USrc
  ext : Ext
deriving DecidableEq, Repr, Inhabited

/-- Format P of the uniform set with an extension word. -/
structure UniXP where
  c : Bool
  cond : Cond
  p : BitVec 2
  a : USrc
  b : USrc
  ext : Ext
deriving DecidableEq, Repr, Inhabited

/-- Format X of the uniform set, three sources. -/
structure UniX3 where
  c : Bool
  d : UDst
  a : USrc
  b : USrc
  vc : USrc
  m : Modif
deriving DecidableEq, Repr, Inhabited

/-- Uniform `sel`. -/
structure UniSel where
  c : Bool
  d : UDst
  a : USrc
  b : USrc
  k : BitVec 3
  m : Modif
deriving DecidableEq, Repr, Inhabited

/-- A uniform load. -/
structure UniLd where
  d : UDst
  a : USrc
  b : USrc
deriving DecidableEq, Repr, Inhabited

/-- A uniform store. -/
structure UniSt where
  t : USrc
  a : USrc
  b : USrc
deriving DecidableEq, Repr, Inhabited

/-- A uniform conversion. -/
structure UniCvt where
  c : Bool
  d : UDst
  a : USrc
  op : CvtOp
  round : Round
deriving DecidableEq, Repr, Inhabited

/-- A box copy issued from uniform registers. -/
structure UniBox where
  ctr : Option (BitVec 6 × Scope)
  x : BitVec 6
  o : USrc
  tx : BitVec 8
  n : BitVec 3
  e0 : BitVec 4
  e1 : BitVec 4
  q : Bool
deriving DecidableEq, Repr, Inhabited

/-- `cpy.g` issued from uniform registers. -/
structure UniCpyG where
  ctr : Option (BitVec 6 × Scope)
  a : USrc
  b : USrc
  len : BitVec 20
  q : CpyQ
deriving DecidableEq, Repr, Inhabited

/-! ## Parameters of the event rows -/

/-- An agent that issues instructions: the weave in a slot of a core, a steer thread of a core, a core's handler slot (R185) (DESIGN CHOICE, log entry 3). -/
inductive Agent
  | weave (core slot : Nat)
  | steer (core k : Nat)
  | handler (core : Nat)
deriving DecidableEq, Repr, Inhabited

/-- A write of virtual function record fields (R348); an absent field is not written. -/
structure VfWrite where
  weight : Option Byte
  endpoint : Option Half
  scope : Option Byte
  root : Option Double
  tvec : Option Double
  cpol : Option Word
  cores : Option (List (BitVec 16))
  reserved : Bool
deriving DecidableEq, Repr, Inhabited

/-- A watchpoint (R419). -/
structure Watch where
  addr : Double
  len : Nat
  load : Bool
  store : Bool
  enable : Bool
deriving DecidableEq, Repr, Inhabited

/-- An operation another Fjolar performs at this home device (R203, R371). -/
inductive RemoteOp
  | read (n : Nat)
  | write (data : List Byte)
  | atomic (op : AtomOp) (ty : AtomTy) (operand comparand : Double)
deriving DecidableEq, Repr, Inhabited

/-- Where a soft error strikes (R395). -/
inductive ErrorSite
  | vreg (core slot thread reg : Nat)
  | sreg (core slot reg : Nat)
  | latch (core lane thread n : Nat)
  | circle (core inst : Nat) (isRole : Bool) (tag granule : Nat)
  | stake (core slot : Nat)
  | rim (core tile : Nat)
  | valueStore (core serial : Nat)
  | ownerEntry (a : Agent)
  | cleanLine (core : Nat)
  | dirtyLine (core line : Nat)
  | memory (unit : Nat)
  | link (a : Agent)
  | port (n : Nat)
deriving DecidableEq, Repr, Inhabited

/-- What a start meets first: the input in millivolts (01 R20) and whether the firmware's own signature verifies (20 R413). -/
structure PowerOn where
  mv         : Nat
  firmwareOk : Bool
  deriving DecidableEq, Repr

/-- One constructor for every row of spec/opcode_table.json, in its order. -/
inductive Instr
  /-- ADD_32 (R268). Lane one-word 32-bit wrapping add of two register sources. -/
  | add32 (f : LaneR)
  /-- SUB_32 (R268). Lane one-word 32-bit wrapping subtract. -/
  | sub32 (f : LaneR)
  /-- MUL_32 (R268). Lane one-word 32-bit wrapping multiply. -/
  | mul32 (f : LaneR)
  /-- MULHI_N32 (R269). Lane high 32 bits of the unsigned 64-bit product. -/
  | mulhiN32 (f : LaneR)
  /-- MULHI_I32 (R269). Lane high 32 bits of the signed 64-bit product. -/
  | mulhiI32 (f : LaneR)
  /-- IDIV_N32 (R271). Lane unsigned 32-bit division truncating, DZ on zero divisor. -/
  | idivN32 (f : LaneR)
  /-- IDIV_I32 (R271). Lane signed 32-bit division with stated borderline results. -/
  | idivI32 (f : LaneR)
  /-- REM_N32 (R271). Lane unsigned 32-bit remainder. -/
  | remN32 (f : LaneR)
  /-- REM_I32 (R271). Lane signed 32-bit remainder with the dividend's sign. -/
  | remI32 (f : LaneR)
  /-- ADD_SAT_N32 (R270). Lane unsigned saturating add, sets SAT when clamped. -/
  | addSatN32 (f : LaneR)
  /-- ADD_SAT_I32 (R270). Lane signed saturating add. -/
  | addSatI32 (f : LaneR)
  /-- SUB_SAT_N32 (R270). Lane unsigned saturating subtract. -/
  | subSatN32 (f : LaneR)
  /-- SUB_SAT_I32 (R270). Lane signed saturating subtract. -/
  | subSatI32 (f : LaneR)
  /-- MIN_N32 (R272). Lane unsigned minimum. -/
  | minN32 (f : LaneR)
  /-- MIN_I32 (R272). Lane signed minimum. -/
  | minI32 (f : LaneR)
  /-- MAX_N32 (R272). Lane unsigned maximum. -/
  | maxN32 (f : LaneR)
  /-- MAX_I32 (R272). Lane signed maximum. -/
  | maxI32 (f : LaneR)
  /-- AND_B32 (R273). Lane bitwise and, 32 bits. -/
  | andB32 (f : LaneR)
  /-- OR_B32 (R273). Lane bitwise or, 32 bits. -/
  | orB32 (f : LaneR)
  /-- XOR_B32 (R273). Lane bitwise xor, 32 bits. -/
  | xorB32 (f : LaneR)
  /-- ANDN_B32 (R273). Lane a and not b, 32 bits. -/
  | andnB32 (f : LaneR)
  /-- SHL_B32 (R274). Lane 32-bit shift left by an unsigned count. -/
  | shlB32 (f : LaneR)
  /-- SHR_B32 (R274). Lane 32-bit logical shift right. -/
  | shrB32 (f : LaneR)
  /-- SAR_B32 (R274). Lane 32-bit arithmetic shift right. -/
  | sarB32 (f : LaneR)
  /-- ADD_64 (R268). Lane 64-bit wrapping add of pairs. -/
  | add64 (f : LaneR)
  /-- SUB_64 (R268). Lane 64-bit wrapping subtract. -/
  | sub64 (f : LaneR)
  /-- MUL_64 (R268). Lane 64-bit wrapping multiply. -/
  | mul64 (f : LaneR)
  /-- IDIV_N64 (R271). Lane unsigned 64-bit division. -/
  | idivN64 (f : LaneR)
  /-- IDIV_I64 (R271). Lane signed 64-bit division. -/
  | idivI64 (f : LaneR)
  /-- AND_B64 (R273). Lane bitwise and, 64 bits. -/
  | andB64 (f : LaneR)
  /-- OR_B64 (R273). Lane bitwise or, 64 bits. -/
  | orB64 (f : LaneR)
  /-- XOR_B64 (R273). Lane bitwise xor, 64 bits. -/
  | xorB64 (f : LaneR)
  /-- SHL_B64 (R274). Lane 64-bit shift left. -/
  | shlB64 (f : LaneR)
  /-- SHR_B64 (R274). Lane 64-bit logical shift right. -/
  | shrB64 (f : LaneR)
  /-- SAR_B64 (R274). Lane 64-bit arithmetic shift right. -/
  | sarB64 (f : LaneR)
  /-- CMP_N32 (R281). Lane unsigned 32-bit compare writing a predicate. -/
  | cmpN32 (f : LaneP)
  /-- CMP_I32 (R281). Lane signed 32-bit compare. -/
  | cmpI32 (f : LaneP)
  /-- CMP_N64 (R281). Lane unsigned 64-bit compare. -/
  | cmpN64 (f : LaneP)
  /-- CMP_I64 (R281). Lane signed 64-bit compare. -/
  | cmpI64 (f : LaneP)
  /-- PLOG (R282). Lane predicate logic by a 4-bit truth table. -/
  | plog (f : LanePlog)
  /-- FADD_F32 (R292). Lane FP32 add rounded by $mode. -/
  | faddF32 (f : LaneR)
  /-- FSUB_F32 (R292). Lane FP32 subtract. -/
  | fsubF32 (f : LaneR)
  /-- FMUL_F32 (R292). Lane FP32 multiply. -/
  | fmulF32 (f : LaneR)
  /-- FMIN_F32 (R293). Lane FP32 minimum. -/
  | fminF32 (f : LaneR)
  /-- FMAX_F32 (R293). Lane FP32 maximum. -/
  | fmaxF32 (f : LaneR)
  /-- FCMP_F32 (R294). Lane FP32 compare writing a predicate. -/
  | fcmpF32 (f : LaneP)
  /-- FDIV_F32 (R296). Lane FP32 correctly rounded division. -/
  | fdivF32 (f : LaneR)
  /-- FSQRT_F32 (R296). Lane FP32 correctly rounded square root. -/
  | fsqrtF32 (f : LaneR1)
  /-- FADD_F64 (R292). Lane FP64 add. -/
  | faddF64 (f : LaneR)
  /-- FSUB_F64 (R292). Lane FP64 subtract. -/
  | fsubF64 (f : LaneR)
  /-- FMUL_F64 (R292). Lane FP64 multiply. -/
  | fmulF64 (f : LaneR)
  /-- FMIN_F64 (R293). Lane FP64 minimum. -/
  | fminF64 (f : LaneR)
  /-- FMAX_F64 (R293). Lane FP64 maximum. -/
  | fmaxF64 (f : LaneR)
  /-- FCMP_F64 (R294). Lane FP64 compare writing a predicate. -/
  | fcmpF64 (f : LaneP)
  /-- FDIV_F64 (R296). Lane FP64 division. -/
  | fdivF64 (f : LaneR)
  /-- FSQRT_F64 (R296). Lane FP64 square root. -/
  | fsqrtF64 (f : LaneR1)
  /-- POPC_B32 (R275). Lane population count. -/
  | popcB32 (f : LaneR1)
  /-- CLZ_B32 (R275). Lane count of leading zeros. -/
  | clzB32 (f : LaneR1)
  /-- BREV_B32 (R275). Lane bit reversal. -/
  | brevB32 (f : LaneR1)
  /-- MOV_B32 (R278). Lane 32-bit move, binding a tagged source. -/
  | movB32 (f : LaneR1)
  /-- MOV_B64 (R278). Lane 64-bit move. -/
  | movB64 (f : LaneR1)
  /-- FCLASS_F32 (R295). Lane FP32 class mask. -/
  | fclassF32 (f : LaneR1)
  /-- FCLASS_F64 (R295). Lane FP64 class mask. -/
  | fclassF64 (f : LaneR1)
  /-- ADD_32_X (R268). Lane two-word add with literal or modifiers. -/
  | add32X (f : LaneX)
  /-- SUB_32_X (R268). Lane two-word subtract. -/
  | sub32X (f : LaneX)
  /-- MUL_32_X (R268). Lane two-word multiply. -/
  | mul32X (f : LaneX)
  /-- AND_B32_X (R273). Lane two-word and. -/
  | andB32X (f : LaneX)
  /-- OR_B32_X (R273). Lane two-word or. -/
  | orB32X (f : LaneX)
  /-- XOR_B32_X (R273). Lane two-word xor. -/
  | xorB32X (f : LaneX)
  /-- ANDN_B32_X (R273). Lane two-word andn. -/
  | andnB32X (f : LaneX)
  /-- SHL_B32_X (R274). Lane two-word shift left. -/
  | shlB32X (f : LaneX)
  /-- SHR_B32_X (R274). Lane two-word logical shift right. -/
  | shrB32X (f : LaneX)
  /-- SAR_B32_X (R274). Lane two-word arithmetic shift right. -/
  | sarB32X (f : LaneX)
  /-- MIN_N32_X (R272). Lane two-word unsigned minimum. -/
  | minN32X (f : LaneX)
  /-- MIN_I32_X (R272). Lane two-word signed minimum. -/
  | minI32X (f : LaneX)
  /-- MAX_N32_X (R272). Lane two-word unsigned maximum. -/
  | maxN32X (f : LaneX)
  /-- MAX_I32_X (R272). Lane two-word signed maximum. -/
  | maxI32X (f : LaneX)
  /-- ADD_SAT_N32_X (R270). Lane two-word unsigned saturating add. -/
  | addSatN32X (f : LaneX)
  /-- ADD_SAT_I32_X (R270). Lane two-word signed saturating add. -/
  | addSatI32X (f : LaneX)
  /-- CMP_N32_X (R281). Lane two-word unsigned compare. -/
  | cmpN32X (f : LaneXP)
  /-- CMP_I32_X (R281). Lane two-word signed compare. -/
  | cmpI32X (f : LaneXP)
  /-- MOV_B32_X (R278). Lane two-word move of a literal or guarded source. -/
  | movB32X (f : LaneX1)
  /-- ADD_64_X (R268). Lane two-word 64-bit add. -/
  | add64X (f : LaneX)
  /-- SUB_64_X (R268). Lane two-word 64-bit subtract. -/
  | sub64X (f : LaneX)
  /-- CMP_N64_X (R281). Lane two-word unsigned 64-bit compare. -/
  | cmpN64X (f : LaneXP)
  /-- CMP_I64_X (R281). Lane two-word signed 64-bit compare. -/
  | cmpI64X (f : LaneXP)
  /-- MOV_B64_X (R278). Lane two-word 64-bit move. -/
  | movB64X (f : LaneX1)
  /-- SEL_B32 (R279). Lane select by predicate, 32 bits. -/
  | selB32 (f : LaneSel)
  /-- SEL_B64 (R279). Lane select by predicate, 64 bits. -/
  | selB64 (f : LaneSel)
  /-- BFE_N32 (R276). Lane unsigned bit-field extract. -/
  | bfeN32 (f : LaneX)
  /-- BFE_I32 (R276). Lane signed bit-field extract. -/
  | bfeI32 (f : LaneX)
  /-- BFI_B32 (R277). Lane bit-field insert. -/
  | bfiB32 (f : LaneX3)
  /-- MAD_32 (R268). Lane 32-bit wrapping multiply-add. -/
  | mad32 (f : LaneX3)
  /-- MAD_64 (R268). Lane 64-bit wrapping multiply-add. -/
  | mad64 (f : LaneX3)
  /-- SHRR_I32 (R286). Lane rounding shift right. -/
  | shrrI32 (f : LaneX)
  /-- ADD_I16X2 (R283). Lane packed 16-bit wrapping add. -/
  | addI16x2 (f : LaneX)
  /-- SUB_I16X2 (R283). Lane packed 16-bit wrapping subtract. -/
  | subI16x2 (f : LaneX)
  /-- ADD_SAT_I16X2 (R283). Lane packed 16-bit saturating add. -/
  | addSatI16x2 (f : LaneX)
  /-- SUB_SAT_I16X2 (R283). Lane packed 16-bit saturating subtract. -/
  | subSatI16x2 (f : LaneX)
  /-- MUL_I16X2 (R283). Lane packed 16-bit wrapping multiply. -/
  | mulI16x2 (f : LaneX)
  /-- MIN_I16X2 (R283). Lane packed 16-bit signed minimum. -/
  | minI16x2 (f : LaneX)
  /-- MAX_I16X2 (R283). Lane packed 16-bit signed maximum. -/
  | maxI16x2 (f : LaneX)
  /-- PACK_I16X2 (R284). Lane saturating pack of two 32-bit values. -/
  | packI16x2 (f : LaneX)
  /-- PDOT2_I16X2 (R285). Lane two-way dot product into a saturating 32-bit accumulator. -/
  | pdot2I16x2 (f : LaneX3)
  /-- SHRR_SAT_I16 (R286). Lane rounding shift right saturated to 16 bits. -/
  | shrrSatI16 (f : LaneX)
  /-- ADD_N8X4 (R283). Lane packed byte wrapping add. -/
  | addN8x4 (f : LaneX)
  /-- SUB_N8X4 (R283). Lane packed byte wrapping subtract. -/
  | subN8x4 (f : LaneX)
  /-- ADD_SAT_N8X4 (R283). Lane packed byte saturating add. -/
  | addSatN8x4 (f : LaneX)
  /-- SUB_SAT_N8X4 (R283). Lane packed byte saturating subtract. -/
  | subSatN8x4 (f : LaneX)
  /-- MIN_N8X4 (R283). Lane packed byte minimum. -/
  | minN8x4 (f : LaneX)
  /-- MAX_N8X4 (R283). Lane packed byte maximum. -/
  | maxN8x4 (f : LaneX)
  /-- FADD_F32_X (R292). Lane two-word FP32 add with rounding field. -/
  | faddF32X (f : LaneX)
  /-- FMUL_F32_X (R292). Lane two-word FP32 multiply. -/
  | fmulF32X (f : LaneX)
  /-- FFMA_F32 (R292). Lane FP32 fused multiply-add, one rounding. -/
  | ffmaF32 (f : LaneX3)
  /-- FCMP_F32_X (R294). Lane two-word FP32 compare. -/
  | fcmpF32X (f : LaneXP)
  /-- FADD_F64_X (R292). Lane two-word FP64 add. -/
  | faddF64X (f : LaneX)
  /-- FMUL_F64_X (R292). Lane two-word FP64 multiply. -/
  | fmulF64X (f : LaneX)
  /-- FFMA_F64 (R292). Lane FP64 fused multiply-add. -/
  | ffmaF64 (f : LaneX3)
  /-- FCMP_F64_X (R294). Lane two-word FP64 compare. -/
  | fcmpF64X (f : LaneXP)
  /-- FADD_F16X2 (R292). Lane packed f16 add. -/
  | faddF16x2 (f : LaneX)
  /-- FMUL_F16X2 (R292). Lane packed f16 multiply. -/
  | fmulF16x2 (f : LaneX)
  /-- FFMA_F16X2 (R292). Lane packed f16 fused multiply-add. -/
  | ffmaF16x2 (f : LaneX3)
  /-- FADD_BF16X2 (R292). Lane packed bf16 add. -/
  | faddBf16x2 (f : LaneX)
  /-- FMUL_BF16X2 (R292). Lane packed bf16 multiply. -/
  | fmulBf16x2 (f : LaneX)
  /-- FFMA_BF16X2 (R292). Lane packed bf16 fused multiply-add. -/
  | ffmaBf16x2 (f : LaneX3)
  /-- FSUB_F32_X (R292). Lane two-word FP32 subtract. -/
  | fsubF32X (f : LaneX)
  /-- FSUB_F64_X (R292). Lane two-word FP64 subtract. -/
  | fsubF64X (f : LaneX)
  /-- LD_G_N8 (R158). Lane global load of a zero-extended byte. -/
  | ldGN8 (f : LaneLd)
  /-- LD_G_I8 (R158). Lane global load of a sign-extended byte. -/
  | ldGI8 (f : LaneLd)
  /-- LD_G_N16 (R158). Lane global load of a zero-extended half. -/
  | ldGN16 (f : LaneLd)
  /-- LD_G_I16 (R158). Lane global load of a sign-extended half. -/
  | ldGI16 (f : LaneLd)
  /-- LD_G_B32 (R158). Lane global load of a word. -/
  | ldGB32 (f : LaneLd)
  /-- LD_G_B64 (R158). Lane global load of a double. -/
  | ldGB64 (f : LaneLd)
  /-- LD_G_QUAL (R163). Lane qualified global load (acquire, scope, cache). -/
  | ldGQual (f : LaneLd) (q : Qual)
  /-- ST_G_B8 (R158). Lane global store of a byte into the store queue. -/
  | stGB8 (f : LaneSt)
  /-- ST_G_B16 (R158). Lane global store of a half. -/
  | stGB16 (f : LaneSt)
  /-- ST_G_B32 (R158). Lane global store of a word. -/
  | stGB32 (f : LaneSt)
  /-- ST_G_B64 (R158). Lane global store of a double. -/
  | stGB64 (f : LaneSt)
  /-- ST_G_QUAL (R163). Lane qualified global store (release, scope, cache). -/
  | stGQual (f : LaneSt) (q : Qual)
  /-- LDK_B32 (R166). Lane constant-bank word load, tagged by generation. -/
  | ldkB32 (f : LaneLd) (k : BitVec 28)
  /-- LDK_B64 (R166). Lane constant-bank double load. -/
  | ldkB64 (f : LaneLd) (k : BitVec 28)
  /-- LDT (R168). Lane tensor element load, raw or as FP32. -/
  | ldt (d x : BitVec 7) (tx : BitVec 8) (n : BitVec 3) (f32 : Bool)
  /-- STT (R168). Lane tensor element store by masked read-modify-write. -/
  | stt (t : LSrc) (x : BitVec 7) (tx : BitVec 8) (n : BitVec 3) (f32 : Bool) (round : Round)
  /-- LD_CM_N8 (R158). Lane circle-memory byte load, zero-extended. -/
  | ldCmN8 (f : LaneLd)
  /-- LD_CM_I8 (R158). Lane circle-memory byte load, sign-extended. -/
  | ldCmI8 (f : LaneLd)
  /-- LD_CM_N16 (R158). Lane circle-memory half load, zero-extended. -/
  | ldCmN16 (f : LaneLd)
  /-- LD_CM_I16 (R158). Lane circle-memory half load, sign-extended. -/
  | ldCmI16 (f : LaneLd)
  /-- LD_CM_B32 (R158). Lane circle-memory word load. -/
  | ldCmB32 (f : LaneLd)
  /-- LD_CM_B64 (R158). Lane circle-memory double load. -/
  | ldCmB64 (f : LaneLd)
  /-- LD_CM_QUAL (R164). Lane qualified circle load, including .fe and .fec full/empty waits. -/
  | ldCmQual (f : LaneLd) (q : Qual)
  /-- ST_CM_B8 (R158). Lane circle-memory byte store. -/
  | stCmB8 (f : LaneSt)
  /-- ST_CM_B16 (R158). Lane circle-memory half store. -/
  | stCmB16 (f : LaneSt)
  /-- ST_CM_B32 (R158). Lane circle-memory word store. -/
  | stCmB32 (f : LaneSt)
  /-- ST_CM_B64 (R158). Lane circle-memory double store. -/
  | stCmB64 (f : LaneSt)
  /-- ST_CM_QUAL (R164). Lane qualified circle store, including .sf setting full bits. -/
  | stCmQual (f : LaneSt) (q : Qual)
  /-- ATOM (R171). Lane atomic read-modify-write per active thread. -/
  | atom (f : LaneLd) (op : AtomOp) (q : AtomQ)
  /-- ATOM_CAS (R171). Lane atomic compare-and-swap. -/
  | atomCas (f : LaneLd) (q : AtomQ)
  /-- FENCE (R172). Lane memory fence of the issuing weave at a kind and scope. -/
  | fence (k : FenceKind) (sc : Scope)
  /-- ALLOC (R174). Lane skein allocation of one block per active thread. -/
  | alloc (d : BitVec 7) (a : LSrc) (t : Bool) (p : BitVec 3)
  /-- FREE (R175). Lane return of skein blocks. -/
  | free (a : LSrc)
  /-- CPY_IN (R178). Lane issue of a tensor-to-circle box copy command. -/
  | cpyIn (f : LaneBox)
  /-- CPY_OUT (R178). Lane issue of a circle-to-tensor box copy command. -/
  | cpyOut (f : LaneBox)
  /-- CPY_G (R179). Lane issue of a global byte copy command. -/
  | cpyG (f : LaneCpyG)
  /-- WAITC (R181). Lane wait until a 64-bit counter reaches a count. -/
  | waitc (a b : LSrc) (k : BitVec 28)
  /-- QFENCE (R182). Lane join of the named engine queues. -/
  | qfence (m : BitVec 4)
  /-- SCLAIM (R315). Claim of stake slots or rim tiles. -/
  | sclaim (u : BitVec 7) (n : BitVec 6)
  /-- SREL (R316). Release of stake slots or rim tiles into release pending. -/
  | srel (u : BitVec 7) (n : BitVec 6)
  /-- STK_LD (R318). Issue of a load of a tensor box into a stake slot. -/
  | stkLd (ctr : Option (BitVec 7 × Scope)) (x : BitVec 7) (slot : BitVec 5) (tx : BitVec 8) (n : BitVec 3)
  /-- MTILE (R321). Issue of a slath tile multiply-accumulate into a rim tile. -/
  | mtile (f : LaneMtile)
  /-- RZERO (R324). Issue of zeroing a rim tile. -/
  | rzero (rim : BitVec 3)
  /-- RIM_LD (R326). Issue of a load of a window into a rim tile. -/
  | rimLd (f : LaneRim)
  /-- RIM_ST (R326). Issue of a store of a rim window to a tensor or circle. -/
  | rimSt (f : LaneRim)
  /-- TERMRD (R327). Read (and optionally clear) a core term counter. -/
  | termrd (d : BitVec 7) (clr : Bool) (k : BitVec 3)
  /-- BRA (R126). Lane conditional branch setting block priority on taken threads. -/
  | bra (f : Branch)
  /-- BRX (R127). Lane indirect branch per thread. -/
  | brx (a b : LSrc) (k : BitVec 28)
  /-- SWITCH (R131). Lane multiway branch by table of up to eight cases. -/
  | switch (a : LSrc) (n : BitVec 4)
  /-- CALL (R126). Lane call writing link to v14.d. -/
  | call (f : Branch)
  /-- RET (R128). Lane return to each thread's link; zero link raises RET_EMPTY. -/
  | ret (a : LSrc)
  /-- EXIT (R132). End the active threads of the issuing entry. -/
  | exit
  /-- EXITTO (R133). End threads marking them for restart at a successor entry. -/
  | exitto (a : LSrc) (k : BitVec 28)
  /-- RCB (R135). Set the entry waiting at a reconvergence barrier. -/
  | rcb
  /-- BAR (R136). Set the entry waiting at the current circle's barrier. -/
  | bar
  /-- JOIN (R138). Push a tagged circle onto the weave's stack, creating it if needed. -/
  | join (a b : LSrc)
  /-- LEAVE (R139). Pop the current circle, dissolving it with its last member. -/
  | leave
  /-- RGN_OPEN (R140). Open an idempotent region recording the restart entry. -/
  | rgnOpen
  /-- RGN_CLOSE (R140). Close the region, releasing buffered stores to the store queue. -/
  | rgnClose
  /-- SCOPE (R141). Request a register scope enlarging the allotment. -/
  | scope (n : BitVec 28)
  /-- ENDSCOPE (R141). Return the registers of the innermost scope. -/
  | endscope
  /-- WPUSH (R143). Append a record to the outgoing wale. -/
  | wpush (a : LSrc)
  /-- WPOP (R143). Take the oldest record of the incoming wale. -/
  | wpop (d : BitVec 7) (p : BitVec 3)
  /-- SLEEP (R137). Set the entry sleeping for a number of cycles. -/
  | sleep (a : LSrc) (k : BitVec 28)
  /-- BRK (R148). Raise BRK for every active thread. -/
  | brk
  /-- TRAP (R149). Raise SOFT with a trap number. -/
  | trap (n : BitVec 16)
  /-- NOP (R150). Lane no-operation. -/
  | nop
  /-- CALLE (R429). Emulation call saving scratch pair and link in the window save area. -/
  | calle (r : BitVec 7) (off : BitVec 14) (x : Bool) (orig : BitVec 21)
  /-- CALLE_RET (R429). Return from an emulation routine restoring the scratch pair. -/
  | calleRet (r : BitVec 7)
  /-- LMODE (R261). Set the weave's lineage mode. -/
  | lmode (m : BitVec 2)
  /-- LSTAT (R262). Read (and optionally clear) a lineage counter. -/
  | lstat (d : BitVec 7) (clr : Bool) (k : BitVec 3)
  /-- SHUF (R306). Read a register of another thread indexed per thread. -/
  | shuf (d a : BitVec 7) (b : LSrc)
  /-- VOTE (R308). Predicate vote over active threads. -/
  | vote (d : BitVec 7) (m : BitVec 2) (k : BitVec 3)
  /-- RED (R309). Reduction over active threads in thread order. -/
  | red (d a : BitVec 7) (o : BitVec 4)
  /-- BCAST (R307). Broadcast one thread's register to all active threads. -/
  | bcast (d a : BitVec 7) (b : LSrc)
  /-- MOVS (R280). Move a uniform or special register into every active thread. -/
  | movs (s c : Bool) (d : BitVec 7) (a : USrc)
  /-- CVT (R299). Lane conversion between formats, rounded once. -/
  | cvt (f : LaneCvt)
  /-- RCP_F32 (R297). FP32 reciprocal correctly rounded to nearest. -/
  | rcpF32 (f : LaneR1)
  /-- RCP_F64 (R297). FP64 reciprocal. -/
  | rcpF64 (f : LaneR1)
  /-- RSQ_F32 (R297). FP32 reciprocal square root. -/
  | rsqF32 (f : LaneR1)
  /-- RSQ_F64 (R297). FP64 reciprocal square root. -/
  | rsqF64 (f : LaneR1)
  /-- EXP2_F32 (R297). FP32 base-2 exponential. -/
  | exp2F32 (f : LaneR1)
  /-- LOG2_F32 (R297). FP32 base-2 logarithm. -/
  | log2F32 (f : LaneR1)
  /-- SIN_F32 (R297). FP32 sine. -/
  | sinF32 (f : LaneR1)
  /-- COS_F32 (R297). FP32 cosine. -/
  | cosF32 (f : LaneR1)
  /-- FMIN_F16X2 (R293). Packed f16 minimum. -/
  | fminF16x2 (f : LaneR)
  /-- FMAX_F16X2 (R293). Packed f16 maximum. -/
  | fmaxF16x2 (f : LaneR)
  /-- FMIN_BF16X2 (R293). Packed bf16 minimum. -/
  | fminBf16x2 (f : LaneR)
  /-- FMAX_BF16X2 (R293). Packed bf16 maximum. -/
  | fmaxBf16x2 (f : LaneR)
  /-- FCMP_F16X2 (R294). Packed f16 compare writing pd and pd+1. -/
  | fcmpF16x2 (cond : Cond) (p : BitVec 3) (a b : LSrc)
  /-- FCMP_BF16X2 (R294). Packed bf16 compare writing pd and pd+1. -/
  | fcmpBf16x2 (cond : Cond) (p : BitVec 3) (a b : LSrc)
  /-- FCLASS_F16X2 (R295). Packed f16 class masks. -/
  | fclassF16x2 (f : LaneR1)
  /-- FCLASS_BF16X2 (R295). Packed bf16 class masks. -/
  | fclassBf16x2 (f : LaneR1)
  /-- HCLR (R302). Clear a hoop and set its base. -/
  | hclr (h : BitVec 3) (a : LSrc) (k : BitVec 28)
  /-- HFMA (R302). Add an exact FP64 product into a hoop. -/
  | hfma (h : BitVec 3) (n : Bool) (a b : LSrc)
  /-- HFMA3 (R302). Add an exact triple product into a hoop. -/
  | hfma3 (h : BitVec 3) (n : Bool) (a b vc : LSrc) (g : Guard)
  /-- HADD (R302). Add an FP64 value into a hoop. -/
  | hadd (h : BitVec 3) (n : Bool) (a : LSrc)
  /-- HSGN (R303). Write the hoop's sign and an exactness predicate. -/
  | hsgn (d : BitVec 7) (h : BitVec 3) (p : BitVec 3)
  /-- HRND (R303). Round the hoop to FP64. -/
  | hrnd (d : BitVec 7) (h : BitVec 3)
  /-- U_ADD_32 (R268). Uniform 32-bit add. -/
  | uAdd32 (f : UniR)
  /-- U_SUB_32 (R268). Uniform 32-bit subtract. -/
  | uSub32 (f : UniR)
  /-- U_MUL_32 (R268). Uniform 32-bit multiply. -/
  | uMul32 (f : UniR)
  /-- U_MULHI_N32 (R269). Uniform unsigned high product. -/
  | uMulhiN32 (f : UniR)
  /-- U_MULHI_I32 (R269). Uniform signed high product. -/
  | uMulhiI32 (f : UniR)
  /-- U_IDIV_N32 (R271). Uniform unsigned division. -/
  | uIdivN32 (f : UniR)
  /-- U_IDIV_I32 (R271). Uniform signed division. -/
  | uIdivI32 (f : UniR)
  /-- U_REM_N32 (R271). Uniform unsigned remainder. -/
  | uRemN32 (f : UniR)
  /-- U_REM_I32 (R271). Uniform signed remainder. -/
  | uRemI32 (f : UniR)
  /-- U_AND_B32 (R273). Uniform and. -/
  | uAndB32 (f : UniR)
  /-- U_OR_B32 (R273). Uniform or. -/
  | uOrB32 (f : UniR)
  /-- U_XOR_B32 (R273). Uniform xor. -/
  | uXorB32 (f : UniR)
  /-- U_SHL_B32 (R274). Uniform shift left. -/
  | uShlB32 (f : UniR)
  /-- U_SHR_B32 (R274). Uniform logical shift right. -/
  | uShrB32 (f : UniR)
  /-- U_SAR_B32 (R274). Uniform arithmetic shift right. -/
  | uSarB32 (f : UniR)
  /-- U_MIN_N32 (R272). Uniform unsigned minimum. -/
  | uMinN32 (f : UniR)
  /-- U_MIN_I32 (R272). Uniform signed minimum. -/
  | uMinI32 (f : UniR)
  /-- U_MAX_N32 (R272). Uniform unsigned maximum. -/
  | uMaxN32 (f : UniR)
  /-- U_MAX_I32 (R272). Uniform signed maximum. -/
  | uMaxI32 (f : UniR)
  /-- U_ADD_64 (R268). Uniform 64-bit add. -/
  | uAdd64 (f : UniR)
  /-- U_SUB_64 (R268). Uniform 64-bit subtract. -/
  | uSub64 (f : UniR)
  /-- U_MUL_64 (R268). Uniform 64-bit multiply. -/
  | uMul64 (f : UniR)
  /-- U_SHL_B64 (R274). Uniform 64-bit shift left. -/
  | uShlB64 (f : UniR)
  /-- U_SHR_B64 (R274). Uniform 64-bit logical shift right. -/
  | uShrB64 (f : UniR)
  /-- U_CMP_N32 (R281). Uniform unsigned compare writing q. -/
  | uCmpN32 (f : UniP)
  /-- U_CMP_I32 (R281). Uniform signed compare. -/
  | uCmpI32 (f : UniP)
  /-- U_CMP_N64 (R281). Uniform unsigned 64-bit compare. -/
  | uCmpN64 (f : UniP)
  /-- U_CMP_I64 (R281). Uniform signed 64-bit compare. -/
  | uCmpI64 (f : UniP)
  /-- U_PLOG (R282). Uniform predicate logic on q registers. -/
  | uPlog (f : UniPlog)
  /-- U_MOV_B32 (R278). Uniform 32-bit move, also to $mode or $flags. -/
  | uMovB32 (f : UniR1)
  /-- U_MOV_B64 (R278). Uniform 64-bit move. -/
  | uMovB64 (f : UniR1)
  /-- U_POPC_B32 (R275). Uniform population count. -/
  | uPopcB32 (f : UniR1)
  /-- U_ADD_32_X (R268). Uniform two-word add. -/
  | uAdd32X (f : UniX)
  /-- U_SUB_32_X (R268). Uniform two-word subtract. -/
  | uSub32X (f : UniX)
  /-- U_MUL_32_X (R268). Uniform two-word multiply. -/
  | uMul32X (f : UniX)
  /-- U_AND_B32_X (R273). Uniform two-word and. -/
  | uAndB32X (f : UniX)
  /-- U_OR_B32_X (R273). Uniform two-word or. -/
  | uOrB32X (f : UniX)
  /-- U_XOR_B32_X (R273). Uniform two-word xor. -/
  | uXorB32X (f : UniX)
  /-- U_SHL_B32_X (R274). Uniform two-word shift left. -/
  | uShlB32X (f : UniX)
  /-- U_SHR_B32_X (R274). Uniform two-word logical shift right. -/
  | uShrB32X (f : UniX)
  /-- U_SAR_B32_X (R274). Uniform two-word arithmetic shift right. -/
  | uSarB32X (f : UniX)
  /-- U_MIN_N32_X (R272). Uniform two-word unsigned minimum. -/
  | uMinN32X (f : UniX)
  /-- U_MIN_I32_X (R272). Uniform two-word signed minimum. -/
  | uMinI32X (f : UniX)
  /-- U_MAX_N32_X (R272). Uniform two-word unsigned maximum. -/
  | uMaxN32X (f : UniX)
  /-- U_MAX_I32_X (R272). Uniform two-word signed maximum. -/
  | uMaxI32X (f : UniX)
  /-- U_ADD_64_X (R268). Uniform two-word 64-bit add. -/
  | uAdd64X (f : UniX)
  /-- U_CMP_N32_X (R281). Uniform two-word unsigned compare. -/
  | uCmpN32X (f : UniXP)
  /-- U_CMP_I32_X (R281). Uniform two-word signed compare. -/
  | uCmpI32X (f : UniXP)
  /-- U_CMP_N64_X (R281). Uniform two-word unsigned 64-bit compare. -/
  | uCmpN64X (f : UniXP)
  /-- U_CMP_I64_X (R281). Uniform two-word signed 64-bit compare. -/
  | uCmpI64X (f : UniXP)
  /-- U_MOV_B32_X (R278). Uniform two-word move of a literal. -/
  | uMovB32X (f : UniX1)
  /-- U_MOV_B64_X (R278). Uniform two-word 64-bit move of a literal. -/
  | uMovB64X (f : UniX1)
  /-- U_SEL_B32 (R279). Uniform select by q predicate. -/
  | uSelB32 (f : UniSel)
  /-- U_SEL_B64 (R279). Uniform 64-bit select. -/
  | uSelB64 (f : UniSel)
  /-- U_BFE_N32 (R276). Uniform unsigned bit-field extract. -/
  | uBfeN32 (f : UniX)
  /-- U_MAD_32 (R268). Uniform multiply-add. -/
  | uMad32 (f : UniX3)
  /-- U_FADD_F32 (R292). Uniform FP32 add. -/
  | uFaddF32 (f : UniX)
  /-- U_FMUL_F32 (R292). Uniform FP32 multiply. -/
  | uFmulF32 (f : UniX)
  /-- U_FFMA_F32 (R292). Uniform FP32 fused multiply-add. -/
  | uFfmaF32 (f : UniX3)
  /-- U_FCMP_F32 (R294). Uniform FP32 compare. -/
  | uFcmpF32 (f : UniXP)
  /-- U_FADD_F64 (R292). Uniform FP64 add. -/
  | uFaddF64 (f : UniX)
  /-- U_FMUL_F64 (R292). Uniform FP64 multiply. -/
  | uFmulF64 (f : UniX)
  /-- U_FFMA_F64 (R292). Uniform FP64 fused multiply-add. -/
  | uFfmaF64 (f : UniX3)
  /-- U_CVT (R299). Uniform conversion. -/
  | uCvt (f : UniCvt)
  /-- S_BRA (R126). Uniform branch moving the whole entry or steer thread. -/
  | sBra (f : Branch)
  /-- S_BRX (R127). Uniform indirect branch. -/
  | sBrx (a b : USrc) (k : BitVec 28)
  /-- S_CALL (R126). Uniform call writing link to s62.d. -/
  | sCall (f : Branch)
  /-- S_RET (R128). Uniform return through a link pair. -/
  | sRet (a : USrc)
  /-- S_EXIT (R134). End the steer thread. -/
  | sExit
  /-- DPUSH (R144). Append to the decision queue, waiting while full. -/
  | dpush (a : USrc) (w : Bool)
  /-- DPOP (R144). Take the oldest decision-queue entry, waiting while empty. -/
  | dpop (d : UDst) (w : Bool)
  /-- BUCKET (R145). Choose a bucket entry and set the true-shape window. -/
  | bucket (d a : BitVec 6) (n : BitVec 2)
  /-- NODEPUT (R146). Post a node record from a program. -/
  | nodeput (d : UDst) (a : USrc)
  /-- WAITN (R147). Wait for a node's status to reach done, failed or frozen. -/
  | waitn (d : UDst) (a b : USrc) (k : BitVec 28)
  /-- CKPT (R388). Close the region; in a paired launch record a checkpoint. -/
  | ckpt
  /-- YIELD (R142). Wait for quiescence and let a pending yield demand take the instance. -/
  | yield
  /-- S_NOP (R150). Uniform no-operation. -/
  | sNop
  /-- U_LD_G_B32 (R158). Uniform global word load. -/
  | uLdGB32 (f : UniLd)
  /-- U_LD_G_B64 (R158). Uniform global double load. -/
  | uLdGB64 (f : UniLd)
  /-- U_ST_G_B32 (R158). Uniform global word store. -/
  | uStGB32 (f : UniSt)
  /-- U_ST_G_B64 (R158). Uniform global double store. -/
  | uStGB64 (f : UniSt)
  /-- U_LD_CM_B32 (R158). Uniform circle word load. -/
  | uLdCmB32 (f : UniLd)
  /-- U_LD_CM_B64 (R158). Uniform circle double load. -/
  | uLdCmB64 (f : UniLd)
  /-- U_ST_CM_B32 (R158). Uniform circle word store. -/
  | uStCmB32 (f : UniSt)
  /-- U_ST_CM_B64 (R158). Uniform circle double store. -/
  | uStCmB64 (f : UniSt)
  /-- U_LD_G_QUAL (R163). Uniform qualified global load. -/
  | uLdGQual (f : UniLd) (q : Qual)
  /-- U_ST_G_QUAL (R163). Uniform qualified global store. -/
  | uStGQual (f : UniSt) (q : Qual)
  /-- U_LD_CM_QUAL (R164). Uniform qualified circle load. -/
  | uLdCmQual (f : UniLd) (q : Qual)
  /-- U_ST_CM_QUAL (R164). Uniform qualified circle store. -/
  | uStCmQual (f : UniSt) (q : Qual)
  /-- U_LDK_B32 (R166). Uniform constant-bank word load. -/
  | uLdkB32 (f : UniLd) (k : BitVec 28)
  /-- U_LDK_B64 (R166). Uniform constant-bank double load. -/
  | uLdkB64 (f : UniLd) (k : BitVec 28)
  /-- U_ATOM (R171). Uniform atomic, op 8 being compare-and-swap. -/
  | uAtom (f : UniLd) (op : AtomOp) (q : AtomQ)
  /-- U_FENCE (R172). Uniform fence. -/
  | uFence (k : FenceKind) (sc : Scope)
  /-- U_ALLOC (R174). Uniform skein allocation for the entry. -/
  | uAlloc (d : BitVec 6) (a : USrc) (t : Bool) (p : BitVec 3)
  /-- U_FREE (R175). Uniform skein free. -/
  | uFree (a : USrc)
  /-- U_CPY_IN (R178). Uniform issue of a tensor-to-circle copy. -/
  | uCpyIn (f : UniBox)
  /-- U_CPY_OUT (R178). Uniform issue of a circle-to-tensor copy. -/
  | uCpyOut (f : UniBox)
  /-- U_CPY_G (R179). Uniform issue of a global copy. -/
  | uCpyG (f : UniCpyG)
  /-- U_WAITC (R181). Uniform counter wait. -/
  | uWaitc (a b : USrc) (k : BitVec 28)
  /-- U_QFENCE (R182). Uniform queue fence. -/
  | uQfence (m : BitVec 4)
  /-- RDCNT (R386). Read a 64-bit counter by number, blurred for shared resources. -/
  | rdcnt (d : BitVec 6) (a : USrc)
  /-- CSRR (R379). Handler read of a control register. -/
  | csrr (d : UDst) (n : BitVec 12)
  /-- CSRW (R381). Handler write of a control register ($tvec). -/
  | csrw (b : USrc) (n : BitVec 12)
  /-- RFT (R385). End the delivery, making the parked entry ready. -/
  | rft
  /-- FGET_PC (R384). Read the parked entry's pc. -/
  | fgetPc (d : BitVec 6)
  /-- FGET_MASK (R384). Read the parked entry's mask. -/
  | fgetMask (d : UDst)
  /-- FGET_PRIO (R384). Read the parked entry's priority. -/
  | fgetPrio (d : UDst)
  /-- FGET_REG (R384). Read a register of a thread of the parked weave. -/
  | fgetReg (d : UDst) (t : BitVec 5) (r : BitVec 7)
  /-- FSET_PC (R384). Set the parked entry's pc. -/
  | fsetPc (a : USrc)
  /-- FSET_MASK (R384). Clear threads from the parked entry, ending them. -/
  | fsetMask (a : USrc)
  /-- FSET_REG (R384). Write a register of a thread of the parked weave. -/
  | fsetReg (a : USrc) (t : BitVec 5) (r : BitVec 7)
  /-- XLINV (R387). Shoot down translations of a range at a scope and wait. -/
  | xlinv (a b : USrc) (sc : Scope)
  /-- INJSET_SEED (R389). Write the injector generator seed. -/
  | injsetSeed (a : USrc)
  /-- INJSET_RATE (R389). Write the injector rate exponent. -/
  | injsetRate (a : USrc)
  /-- INJSET_CLASSES (R389). Write the injector target-class mask. -/
  | injsetClasses (a : USrc)
  /-- INJSET_SHOT (R389). Write the injector shot count. -/
  | injsetShot (a : USrc)
  /-- INJSET_ARM (R389). Arm or disarm the injector, loading the generator. -/
  | injsetArm (a : USrc)
  /-- NODE_POST (R95). Host node-post message posts a node record by its status. -/
  | nodePost (vf : BitVec 8) (addr : Double) (part : BitVec 5)
  /-- NODEPUT_DONE (R146). A waiting nodeput receives its result once checks are done. -/
  | nodeputDone (a : Agent)
  /-- INSTANCE_ADMIT (R101). A core admits the next instance of a node, dispatching it on the first. -/
  | instanceAdmit (part : Nat)
  /-- WEAVE_ADMIT (R105). A stage admits a further weave below its target as space allows. -/
  | weaveAdmit (core inst role : Nat)
  /-- ADMISSION_STARVATION (R101). An instance finding no core for 2^22 fabric cycles blocks lower nodes. -/
  | admissionStarvation (part : Nat)
  /-- NODE_AGING (R100). A ready node gains one priority level per 2^22 fabric cycles. -/
  | nodeAging (part : Nat)
  /-- BALANCER_SAMPLE (R104). Every 1,024 cycles the balancer adjusts stage targets and shares from wales. -/
  | balancerSample (core : Nat)
  /-- INSTANCE_YIELD (R112). A yieldable instance is saved to its context save area and leaves the core. -/
  | instanceYield (core inst : Nat)
  /-- INSTANCE_READMIT (R113). A yielded instance is readmitted from its saved state. -/
  | instanceReadmit (part : Nat)
  /-- KERNEL_NODE_COMPLETE (R96). A finished launch completes: status 3, successors decremented, notice sent. -/
  | kernelNodeComplete (serial : Nat)
  /-- TILE_NODE_RUN (R329). A free slath runs a ready tile node's microsequence. -/
  | tileNodeRun (part : Nat)
  /-- TRAP_DELIVERY (R107). The handler slot starts the next pending delivery at $tvec. -/
  | trapDelivery (core : Nat)
  /-- POISON_CONTAINMENT (R397). Consumed POISON stops the launch and re-queues or fails the node. -/
  | poisonContainment (serial : Nat)
  /-- FREEZE (R115). Management freeze stops a launch and writes its Ngaec image. -/
  | freeze (lsn dest : Nat) (base : Option Nat)
  /-- RESUME (R120). An Ngaec image is checked and its launch requeued on the target. -/
  | resume (image : Nat) (vf : BitVec 8)
  /-- WEAVE_RESTART (R76). A weave whose last thread ended with exitto restarts at its successor entry. -/
  | weaveRestart (core slot : Nat)
  /-- RCB_RELEASE (R72). An entry waiting at rcb becomes ready when no lower-priority entry remains. -/
  | rcbRelease (core slot : Nat)
  /-- SLEEP_EXPIRE (R137). A sleeping entry's cycle count runs out and it becomes ready. -/
  | sleepExpire (core slot : Nat)
  /-- FE_LOAD_WAKE (R164). A waiting .fe or .fec load performs once its granules are full. -/
  | feLoadWake (core slot : Nat)
  /-- JOIN_GRANT (R138). A join waiting for pool space completes. -/
  | joinGrant (core slot : Nat)
  /-- SCOPE_GRANT (R91). A pending grow request is granted in age order. -/
  | scopeGrant (core : Nat)
  /-- SCLAIM_GRANT (R315). A waiting slot claim is granted in issue order. -/
  | sclaimGrant (core : Nat)
  /-- DPUSH_APPEND (R86). A dpush waiting on a full queue appends. -/
  | dpushAppend (core k : Nat)
  /-- DPOP_TAKE (R86). A waiting dpop takes an entry or the all-ones end value. -/
  | dpopTake (core slot : Nat)
  /-- WPUSH_APPEND (R84). A wpush waiting on a full wale appends. -/
  | wpushAppend (core slot : Nat)
  /-- WPOP_TAKE (R84). A waiting wpop takes a record or ends with zero. -/
  | wpopTake (core slot : Nat)
  /-- WAITC_COMPLETE (R181). A waitc observes its count and completes. -/
  | waitcComplete (a : Agent)
  /-- WAITN_COMPLETE (R147). A waitn sees status 3, 4 or 5. -/
  | waitnComplete (a : Agent)
  /-- WAITN_LIMIT (R147). A waitn's limit of lim × 1,024 cycles expires. -/
  | waitnLimit (a : Agent)
  /-- YIELD_COMPLETE (R142). A yield's weave becomes quiescent and yield proceeds. -/
  | yieldComplete (core slot : Nat)
  /-- CKPT_RECORD (R407). Both copies reach ckpt and the checkpoint is compared and recorded. -/
  | ckptRecord (core slot : Nat)
  /-- PAIRED_EXIT_RELEASE (R415). A paired weave's final exit proceeds once its groups are released. -/
  | pairedExitRelease (core slot : Nat)
  /-- MEMORY_RESULT_ARRIVE (R444). The result of a load, atomic or other open-latency operation arrives. -/
  | memoryResultArrive (a : Agent)
  /-- STORE_QUEUE_DRAIN (R159). A store leaves its issuer's store queue and enters the core order. -/
  | storeQueueDrain (a : Agent)
  /-- CPY_IN_PERFORM (R178). A copy queue performs a tensor-to-circle copy. -/
  | cpyInPerform (core q : Nat)
  /-- CPY_OUT_PERFORM (R178). A copy queue performs a circle-to-tensor copy. -/
  | cpyOutPerform (core q : Nat)
  /-- CPY_G_PERFORM (R179). A copy or fabric queue performs a global byte copy. -/
  | cpyGPerform (core q : Nat)
  /-- STK_LD_PERFORM (R318). The slath queue writes a box's codes and side store into a slot. -/
  | stkLdPerform (core : Nat)
  /-- MTILE_START (R323). The slath queue starts an mtile when earlier commands complete. -/
  | mtileStart (core : Nat)
  /-- MTILE_COMPLETE (R323). After T cycles the tile completes, updating term counters then the counter. -/
  | mtileComplete (core : Nat)
  /-- RZERO_PERFORM (R324). The slath zeroes a rim tile in 32 cycles. -/
  | rzeroPerform (core : Nat)
  /-- RIM_LD_PERFORM (R326). The slath loads a window into a rim tile. -/
  | rimLdPerform (core : Nat)
  /-- RIM_ST_PERFORM (R326). The slath stores a rim window, rounding once. -/
  | rimStPerform (core : Nat)
  /-- SREL_PERFORM (R316). The slath queue reaches an srel and the units become free. -/
  | srelPerform (core : Nat)
  /-- VALUE_STORE_EPOCH_FLUSH (R255). Serial counter reaching 2^40 ends the core's epoch and nulls all tags. -/
  | valueStoreEpochFlush (core : Nat)
  /-- PAIR_COMPARE (R405). A trailing signature arrives and the group is released or mismatches. -/
  | pairCompare (core slot : Nat)
  /-- INJECTOR_FIRE (R411). The injector's count or draw fires on an eligible event. -/
  | injectorFire (part : Nat) (cls : BitVec 5) (site : ErrorSite)
  /-- CORE_ERROR_WINDOW (R412). A 1 s corrected-error window ends; a core past threshold is re-binned. -/
  | coreErrorWindow (core : Nat)
  /-- PATTERN_TEST_DONE (R412). Built-in pattern test at the new bin ends with readmission or retirement. -/
  | patternTestDone (core : Nat) (pass : Bool)
  /-- CHANNEL_RETIRE (R358). A memory channel past its error threshold is retired and copied. -/
  | channelRetire (part chan : Nat)
  /-- CORE_LEND (R346). An idle margin core is lent to a borrowing partition. -/
  | coreLend (core part : Nat)
  /-- REVOKE (R347). A lent core is revoked through yield, drain and scrub. -/
  | revoke (core : Nat)
  /-- REVOKE_FREEZE_TIMEOUT (R114). An instance not yieldable within 30 µs of revocation is frozen alone. -/
  | revokeFreezeTimeout (core inst : Nat)
  /-- CORE_SCRUB (R351). A core is cleared within 8 µs before passing to another virtual function. -/
  | coreScrub (core : Nat)
  /-- START (R413). Device start through five stages, minimal after three failures. -/
  | start (power : PowerOn) (stageOk : List Nat) (element : Half)
  /-- START_WATCHDOG_EXPIRE (R413). The 60 s start watchdog expires and the start fails. -/
  | startWatchdogExpire
  /-- FIRMWARE_LOAD (R413). Management message loads firmware in minimal mode. -/
  | firmwareLoad (digest : BitVec 512) (sig : List Byte)
  /-- FULL_START_REQUEST (R413). Management message requests a full start. -/
  | fullStartRequest
  /-- UNDERVOLTAGE_STOP (R20). Input below 44 V for over 2 ms stops all partitions. -/
  | undervoltageStop
  /-- THERMAL_STEP (R21). Each millisecond the clock is stepped by the die temperature, or partitions stop. -/
  | thermalStep (temp : Int)
  /-- POWER_CAP_WINDOW (R22). Each 1 ms window the power cap lowers clocks or inserts slath idle cycles. -/
  | powerCapWindow (watts : Nat)
  /-- SET_POWER_CAP (R22). Management sets the power cap. -/
  | setPowerCap (watts : Nat)
  /-- PARTITION_CONFIG_WRITE (R345). Hypervisor write of a partition configuration register. -/
  | partitionConfigWrite (part : Nat) (value : Double)
  /-- VF_RECORD_WRITE (R348). Hypervisor write of a virtual function record. -/
  | vfRecordWrite (vf : BitVec 8) (w : VfWrite)
  /-- VF_STATE_WRITE (R349). Write of a virtual function's state: bind, suspend or absent. -/
  | vfStateWrite (vf : BitVec 8) (st : Byte)
  /-- HEAP_WRITE (R354). Write of heap or heapsz, clearing skein bookkeeping. -/
  | heapWrite (vf : BitVec 8) (heap : Option Double) (heapsz : Option Word)
  /-- SCOPE_POLICY_WRITE (R216). Write of a scope policy entry. -/
  | scopePolicyWrite (vf : BitVec 8) (v : Byte)
  /-- MGMT_REGISTER_WRITE (R379). Management write of a control register without a row of its own. -/
  | mgmtRegisterWrite (vf : BitVec 8) (part : Nat) (num : BitVec 12) (value : Double)
  /-- COUNTER_LOW_READ (R369). 32-bit management read of a counter's low half, latching its high half. -/
  | counterLowRead (vf : BitVec 8) (core : Nat) (num : BitVec 12)
  /-- COUNTER_HIGH_READ (R369). 32-bit management read returning the latched high half. -/
  | counterHighRead (vf : BitVec 8)
  /-- GRANULE_TAKE_BACK (R353). Hypervisor marks a granule unscrubbed and invalidates its L2 lines. -/
  | granuleTakeBack (granule : Nat)
  /-- BACKGROUND_SCRUB (R353). Background scrub zeroes an unscrubbed granule and clears its bit. -/
  | backgroundScrub (granule : Nat)
  /-- SHOOTDOWN_MESSAGE (R365). Hypervisor management message starts a shootdown. -/
  | shootdownMessage (vf : BitVec 8) (addr : Double) (pages : Nat) (sc : Scope)
  /-- SHOOTDOWN_COMPLETE (R365). A shootdown's conditions hold and it is acknowledged. -/
  | shootdownComplete (id : Nat)
  /-- WRITE_TRAP_ACK (R364). Hypervisor acknowledges a diverted write, releasing held posts. -/
  | writeTrapAck (vf : BitVec 8)
  /-- RMA_WRITE (R371). Host RMA write through the shadow table, diverted on P pages. -/
  | rmaWrite (vf : BitVec 8) (addr : Double) (data : List Byte)
  /-- RMA_READ (R371). Host RMA read through the shadow table. -/
  | rmaRead (vf : BitVec 8) (addr : Double) (n : Nat)
  /-- RMA_ATOMIC (R371). Host atomic refused with a negative response. -/
  | rmaAtomic (vf : BitVec 8) (addr : Double)
  /-- REMOTE_ACCESS (R203). RMA read, write or atomic from another Fjolar performed at the home. -/
  | remoteAccess (dev : BitVec 8) (phys : Nat) (op : RemoteOp)
  /-- ATTESTATION_REQUEST (R374). Nonce request answered with a signed attestation report. -/
  | attestationRequest (vf : Option (BitVec 8)) (nonce : BitVec 256)
  /-- WATCHPOINT_WRITE (R419). Hypervisor sets one of a virtual function's watchpoints. -/
  | watchpointWrite (vf : BitVec 8) (k : BitVec 2) (w : Watch)
  /-- SAMPLING_EXPONENT_WRITE (R421). Hypervisor sets the memory sampling exponent. -/
  | samplingExponentWrite (vf : BitVec 8) (k : Nat)
  /-- TRACE_MESSAGE_SEND (R422). A sampled request's trace message is sent after its delay. -/
  | traceMessageSend (part : Nat)
  /-- ERROR_THRESHOLD_WRITE (R412). Management sets the corrected-error threshold. -/
  | errorThresholdWrite (n : Nat)
  /-- CORE_BIN_RESET (R412). Management returns a core to bin 0 at next start. -/
  | coreBinReset (core : Nat)
  /-- WORD_NOT_INSTRUCTION (R56). Issue of a word that is no instruction (an unassigned opcode, an extension word reached in sequence, a misplaced two-word form) raises ILLEGAL_ENCODING and parks the entry. -/
  | wordNotInstruction
  /-- L1_EVICTION (R199). A line leaves a core's L1, possibly a stale line, after which loads no longer return its old value. -/
  | l1Eviction (core line : Nat)
  /-- SOFT_ERROR (R395). A storage array, line or link word suffers a soft error, correctable or uncorrectable, that later reads correct or turn into POISON. -/
  | softError (site : ErrorSite) (correctable : Bool)
  /-- INPUT_BELOW_40V (R20). The 48 V input falls below 40 V, and the management endpoint ceases to be reachable. -/
  | inputBelow40v
  /-- UNIMPLEMENTED_MODE_PACKET (R370). A packet requesting an unimplemented delivery mode or operation is dropped and counted in the port's management counters. -/
  | unimplementedModePacket (port : Nat)
  /-- TRUST_LIST_INSTALL (R373). The hypervisor installs identity public keys of other Fjolars in the trust list used to verify signed images. -/
  | trustListInstall (key : List Byte)
deriving DecidableEq, Repr, Inhabited

/-- What one step of the machine does: an agent issues its next instruction, or an event of the table takes place (DESIGN CHOICE, log entry 3). -/
inductive Turn
  | issue (a : Agent)
  | event (i : Instr)
deriving DecidableEq, Repr, Inhabited

end Sys2Proof
end

