-- ==== Sys2Proof/WellFormed.lean ====
section
/-!
DEFINITION. Static legality: what the words of an instruction alone decide (03 R31 to R46, and the legal field values of
each form's entry in 06, 07, 10, 11, 12, 13, 18 and 23). What depends on the issuing weave or place stands in Machine/Ops.
-/

namespace Sys2Proof

/-- The operand types that decide a field's width and how a literal is read (R38). -/
inductive OpTy
  | w32 | w64 | f32 | f64 | h2 | b4
deriving DecidableEq, Repr, Inhabited

/-- A 64-bit operand type uses a register pair (R32, R33). -/
def OpTy.wide : OpTy → Bool
  | .w64 | .f64 => true
  | _ => false

/-- A literal payload a type can hold: the packed types need their upper payload bits 0 (R38). -/
def OpTy.litOk (t : OpTy) (p : BitVec 28) : Bool :=
  match t with
  | .h2 => decide (p.toNat < 65536)
  | .b4 => decide (p.toNat < 256)
  | _ => true

/-- A pair number is even (R32, R33). -/
def evenIf {n : Nat} (wide : Bool) (v : BitVec n) : Bool := !wide || decide (v.toNat % 2 = 0)

/-- A lane destination field names v0 to v119, even for a pair (R32). -/
def dstOk (wide : Bool) (d : BitVec 7) : Bool := decide (d.toNat < 120) && evenIf wide d

/-- A uniform pair names an even s register (R33). -/
def sPairOk (d : BitVec 6) : Bool := evenIf true d

/-- S = 1 requires vd = 0 (R46). -/
def sOk (s : Bool) (d : BitVec 7) : Bool := !s || decide (d = 0#7)

/-- A uniform predicate number is 0 to 3 or 7 (R35, R40). -/
def uPredOk (p : BitVec 3) : Bool := decide (p.toNat < 4) || decide (p = 7#3)

/-- A lane source of 32 or 64 bits; `lit` says whether 125 is legal here (R31, R32). -/
def LSrc.ok (wide lit : Bool) : LSrc → Bool
  | .v n => dstOk wide n
  | .lit => lit
  | _ => true

/-- The base of a memory access and the hoop sources: register or pair, latch or 124 (R157, R301). -/
def LSrc.baseOk (wide : Bool) : LSrc → Bool
  | .v n => dstOk wide n
  | .latch _ => true
  | .zero => true
  | _ => false

/-- A 64-bit source of a control form: the values of R31, a register even, but no literal (R123, R127, R128) (DEDUCED, log entry 66). -/
def LSrc.pairOk (a : LSrc) : Bool := a.ok true false

/-- A field that must name a register. -/
def LSrc.regOk (wide : Bool) : LSrc → Bool
  | .v n => dstOk wide n
  | _ => false

/-- `join`: 125 and 126 are illegal (R138). -/
def LSrc.joinOk : LSrc → Bool
  | .v n => dstOk false n
  | .latch _ => true
  | .zero => true
  | _ => false

/-- The base of `hclr`: a register, a latch, zero, or the literal (R301, R302). -/
def LSrc.hclrOk : LSrc → Bool
  | .lit => true
  | a => a.baseOk false

def LSrc.isReg : LSrc → Bool
  | .v _ => true
  | _ => false

/-- A special register that a uniform source may read (R34). -/
def Special.uniform : Special → Bool
  | .flags | .rng => false
  | _ => true

/-- A uniform source of 32 or 64 bits (R33, R34). -/
def USrc.ok (wide lit : Bool) : USrc → Bool
  | .s n => evenIf wide n
  | .sp x => x.uniform
  | .zero => true
  | .lit => lit

/-- The base of a uniform memory access: a register or pair, or 124 (R157). -/
def USrc.baseOk (wide : Bool) : USrc → Bool
  | .s n => evenIf wide n
  | .zero => true
  | _ => false

/-- A 64-bit uniform source that takes no literal: the values of R33 (R123, R127, R128, R387) (DEDUCED, log entry 66). -/
def USrc.pairOk (a : USrc) : Bool := a.ok true false

def USrc.regOk (wide : Bool) : USrc → Bool
  | .s n => evenIf wide n
  | _ => false

/-- The source of `movs`: values 0 to 77 (R280). -/
def USrc.movsOk : USrc → Bool
  | .s _ => true
  | .sp _ => true
  | _ => false

/-- A uniform destination: 68 and 69 are illegal for a pair (R33). -/
def UDst.ok (wide : Bool) : UDst → Bool
  | .s n => evenIf wide n
  | _ => !wide

/-- In a literal layout the payload of a field that may hold 125 must be 0 when it does not (R38, R125). -/
def litUse (b : LSrc) (k : BitVec 28) : Bool := decide (b = .lit) || decide (k = 0#28)

/-- The same for a uniform source. -/
def uLitUse (b : USrc) (k : BitVec 28) : Bool := decide (b = .lit) || decide (k = 0#28)

/-- The conditions un and ord exist only for `fcmp` (R35). -/
def Cond.ok (fp : Bool) (c : Cond) : Bool := fp || decide (c ≠ .un ∧ c ≠ .ord)

/-- The modifier fields of a lane ALU form: selectors on register sources only, an even fill register for a 64-bit
neighbour source, and a round only on floating point (R41, R304). -/
def Modif.laneOk (fp : Bool) (a : LSrc) (ta : OpTy) (b : LSrc) (tb : OpTy) (m : Modif) : Bool :=
  (decide (m.na = .self) || a.isReg) && (decide (m.nb = .self) || b.isReg) &&
  (match m.edge with
   | .fill f => evenIf ((decide (m.na ≠ .self) && ta.wide) || (decide (m.nb ≠ .self) && tb.wide)) f
   | _ => true) &&
  (fp || decide (m.round = .dflt))

/-- The modifier fields of a uniform ALU form (R41). -/
def Modif.uniOk (fp : Bool) (m : Modif) : Bool :=
  decide (m.na = .self) && decide (m.nb = .self) && decide (m.edge = .zero) && uPredOk m.guard.p &&
  (fp || decide (m.round = .dflt))

/-- An LM extension word beside two lane sources (R37, R38). -/
def Ext.laneOk (fp : Bool) (a : LSrc) (ta : OpTy) (b : LSrc) (tb : OpTy) (e : Ext) : Bool :=
  match e with
  | .lit p =>
    a.ok ta.wide true && b.ok tb.wide true &&
    (if a = .lit ∨ b = .lit then (decide (a ≠ .lit) || ta.litOk p) && (decide (b ≠ .lit) || tb.litOk p) else decide (p = 0#28))
  | .mod m => a.ok ta.wide false && b.ok tb.wide false && m.laneOk fp a ta b tb

/-- The same beside two uniform sources. -/
def Ext.uniOk (fp : Bool) (a : USrc) (ta : OpTy) (b : USrc) (tb : OpTy) (e : Ext) : Bool :=
  match e with
  | .lit p => a.ok ta.wide true && b.ok tb.wide true && (decide (a = .lit ∨ b = .lit) || decide (p = 0#28))
  | .mod m => a.ok ta.wide false && b.ok tb.wide false && m.uniOk fp

def LaneR.wf (td ta tb : OpTy) (f : LaneR) : Bool :=
  dstOk td.wide f.d && sOk f.s f.d && f.a.ok ta.wide false && f.b.ok tb.wide false

def LaneR1.wf (td ta : OpTy) (f : LaneR1) : Bool :=
  dstOk td.wide f.d && sOk f.s f.d && f.a.ok ta.wide false

def LaneP.wf (t : OpTy) (fp : Bool) (f : LaneP) : Bool :=
  f.cond.ok fp && decide (f.p ≠ 7#3) && f.a.ok t.wide false && f.b.ok t.wide false

def LanePlog.wf (f : LanePlog) : Bool := decide (f.p ≠ 7#3)

def LaneX.wf (td ta tb : OpTy) (fp : Bool) (f : LaneX) : Bool :=
  dstOk td.wide f.d && sOk f.s f.d && f.ext.laneOk fp f.a ta f.b tb

def LaneX1.wf (td ta : OpTy) (f : LaneX1) : Bool :=
  dstOk td.wide f.d && sOk f.s f.d && f.ext.laneOk false f.a ta .zero .w32

def LaneXP.wf (t : OpTy) (fp : Bool) (f : LaneXP) : Bool :=
  f.cond.ok fp && decide (f.p ≠ 7#3) && f.ext.laneOk fp f.a t f.b t

def LaneX3.wf (t : OpTy) (fp : Bool) (f : LaneX3) : Bool :=
  dstOk t.wide f.d && sOk f.s f.d && f.a.ok t.wide false && f.b.ok t.wide false && f.vc.ok t.wide false &&
  f.m.laneOk fp f.a t f.b t

def LaneSel.wf (t : OpTy) (f : LaneSel) : Bool :=
  dstOk t.wide f.d && sOk f.s f.d && f.a.ok t.wide false && f.b.ok t.wide false && f.m.laneOk false f.a t f.b t

/-- A load: `wide` for .b64, `pair` for a global base (R157). -/
def LaneLd.wf (wide pair : Bool) (f : LaneLd) : Bool :=
  dstOk wide f.d && f.a.baseOk pair && f.b.ok false false

/-- `ldk` (R166). -/
def LaneLd.wfK (wide : Bool) (k : BitVec 28) (f : LaneLd) : Bool :=
  dstOk wide f.d && f.a.baseOk false && f.b.ok false true && litUse f.b k

def LaneSt.wf (wide pair : Bool) (f : LaneSt) : Bool :=
  f.t.ok wide false && f.a.baseOk pair && f.b.ok false false

def UniLd.wf (wide pair : Bool) (f : UniLd) : Bool :=
  f.d.ok wide && f.a.baseOk pair && f.b.ok false false

def UniLd.wfK (wide : Bool) (k : BitVec 28) (f : UniLd) : Bool :=
  f.d.ok wide && f.a.baseOk false && f.b.ok false true && uLitUse f.b k

def UniSt.wf (wide pair : Bool) (f : UniSt) : Bool :=
  f.t.ok wide false && f.a.baseOk pair && f.b.ok false false

/-- .b64 accesses use a pair. -/
def MemW.wide : MemW → Bool
  | .b64 => true
  | _ => false

def MemW.signed : MemW → Bool
  | .i8 | .i16 => true
  | _ => false

/-- Scopes at or below .co are the only ones of circle forms (R162, R170). -/
def Scope.local : Scope → Bool
  | .th | .wv | .cl | .co => true
  | _ => false

/-- The combinations of R161 and R162. -/
def Qual.wf (uni glob store : Bool) (q : Qual) : Bool :=
  (decide (q.order ≠ .none) || decide (q.scope = .th)) &&
  (if store then decide (q.order ≠ .acq) && !q.width.signed && decide (q.fe ≠ .fec) else decide (q.order ≠ .rel)) &&
  (!uni || decide (q.width = .b32 ∨ q.width = .b64)) &&
  (if glob then decide (q.fe = .none) else q.scope.local && decide (q.cache = .dflt))

def AtomTy.wide : AtomTy → Bool
  | .n64 | .i64 | .f64 => true
  | _ => false

def AtomTy.float : AtomTy → Bool
  | .f32 | .f64 => true
  | _ => false

/-- The pairings of operation, type, scope and ret of R170. -/
def AtomQ.wf (op : AtomOp) (q : AtomQ) : Bool :=
  (!q.circle || q.scope.local) &&
  (match op with
   | .cas => q.ret
   | .fadd => q.ty.float
   | _ => !q.ty.float)

/-- A lane atomic: the address names a register, or a pair for global; with ret = 0 the field vd is 0 (R169, R170). -/
def LaneLd.wfAtom (op : AtomOp) (q : AtomQ) (f : LaneLd) : Bool :=
  q.wf op && f.a.regOk (!q.circle) && f.b.ok q.ty.wide false &&
  (if q.ret then dstOk q.ty.wide f.d else decide (f.d = 0#7))

/-- A uniform atomic; a cas destination holds the comparand, so it is one that reads: a register, or `$mode` (R33, R34). -/
def UniLd.wfAtom (op : AtomOp) (q : AtomQ) (f : UniLd) : Bool :=
  q.wf op && f.a.regOk (!q.circle) && f.b.ok q.ty.wide false &&
  (if q.ret then f.d.ok q.ty.wide else decide (f.d = .s 0#6)) &&
  (decide (op ≠ .cas) || (match f.d with | .flags => false | _ => true))

/-- c consecutive coordinate registers, 1 to 5 of them (R167). -/
def coordsOk (x : BitVec 7) (n : BitVec 3) : Bool :=
  decide (1 ≤ n.toNat) && decide (n.toNat ≤ 5) && decide (x.toNat + n.toNat ≤ 120)

/-- The same in uniform registers. -/
def uCoordsOk (x : BitVec 6) (n : BitVec 3) : Bool :=
  decide (1 ≤ n.toNat) && decide (n.toNat ≤ 5) && decide (x.toNat + n.toNat ≤ 64)

/-- A counter operand: an even register, with a scope from .co to .sy (R178, R313). -/
def ctrOk (c : Option (BitVec 7 × Scope)) : Bool :=
  match c with
  | none => true
  | some (r, sc) => dstOk true r && decide (sc ≠ .th ∧ sc ≠ .wv ∧ sc ≠ .cl)

def uCtrOk (c : Option (BitVec 6 × Scope)) : Bool :=
  match c with
  | none => true
  | some (r, sc) => evenIf true r && decide (sc ≠ .th ∧ sc ≠ .wv ∧ sc ≠ .cl)

/-- Box extents are log2 values 0 to 8 (R178). -/
def boxOk (e0 e1 : BitVec 4) : Bool := decide (e0.toNat ≤ 8) && decide (e1.toNat ≤ 8)

def LaneBox.wf (f : LaneBox) : Bool := ctrOk f.ctr && coordsOk f.x f.n && f.o.ok false false && boxOk f.e0 f.e1
def UniBox.wf (f : UniBox) : Bool := uCtrOk f.ctr && uCoordsOk f.x f.n && f.o.ok false false && boxOk f.e0 f.e1
def LaneCpyG.wf (f : LaneCpyG) : Bool := ctrOk f.ctr && f.a.ok true false && f.b.ok true false
def UniCpyG.wf (f : UniCpyG) : Bool := uCtrOk f.ctr && f.a.ok true false && f.b.ok true false

/-- `rim.ld` and `rim.st` (R325); a circle window has no coordinates. -/
def LaneRim.wf (f : LaneRim) : Bool :=
  ctrOk f.ctr && f.o.ok false false && decide (f.round ≠ .rs) &&
  (if f.circle then f.x.ok false false && decide (f.n = 0#3)
   else match f.x with | .v x => coordsOk x f.n | _ => false)

def LaneMtile.wf (f : LaneMtile) : Bool := ctrOk f.ctr

/-- The units of `sclaim` and `srel`: wholly slots 0 to 31, or wholly rim tiles 32 to 39 (R313). -/
def unitsOk (u : BitVec 7) (n : BitVec 6) : Bool :=
  decide (1 ≤ n.toNat) && decide (n.toNat ≤ 32) &&
  (decide (u.toNat + n.toNat ≤ 32) || (decide (32 ≤ u.toNat) && decide (u.toNat + n.toNat ≤ 40)))

/-- A hoop lies in v0 to v119: H from 0 to 96 in steps of 16 (R300). -/
def hOk (h : BitVec 3) : Bool := decide (h ≠ 7#3)

/-- A narrow format code that R227 allows. E = 0 names a standard format by bias 1 to 4. -/
def narrowOk (code : BitVec 16) : Bool :=
  let s := (code.extractLsb' 15 1).toNat
  let e := (code.extractLsb' 11 4).toNat
  let m := (code.extractLsb' 8 3).toNat
  let b := (code.extractLsb' 0 8).toNat
  if e = 0 then decide (s = 0) && decide (m = 0) && decide (1 ≤ b) && decide (b ≤ 4)
  else decide (s + e + m ≤ 8) && !(decide (e = 1) && decide (m = 0))

/-- The conversion type codes of R298. -/
def cvtWide (t : BitVec 4) : Bool := decide (t = 2#4 ∨ t = 3#4 ∨ t = 7#4)
def cvtX2 (t : BitVec 4) : Bool := decide (t = 8#4 ∨ t = 9#4)

/-- A code with E = 0 names a standard format (R227, R298): f16, bf16, f32, f64 as type codes 4 to 7. -/
def narrowStd (code : BitVec 16) : Option (BitVec 4) :=
  if code.extractLsb' 11 4 = 0#4 then some (BitVec.ofNat 4 ((code.extractLsb' 0 8).toNat + 3)) else none

/-- The destination type of a conversion, when it is a standard type. -/
def CvtOp.dst : CvtOp → Option (BitVec 4)
  | .std d _ => some d
  | .toNarrow _ code => narrowStd code
  | .fromNarrow d _ => some d

def CvtOp.src : CvtOp → Option (BitVec 4)
  | .std _ s => some s
  | .toNarrow s _ => some s
  | .fromNarrow _ code => narrowStd code

def cvtTyOk (t : Option (BitVec 4)) : Bool := match t with | none => true | some t => decide (t.toNat ≤ 9)
def cvtTyX2 (t : Option (BitVec 4)) : Bool := match t with | none => false | some t => cvtX2 t
def cvtTyWide (t : Option (BitVec 4)) : Bool := match t with | none => false | some t => cvtWide t

/-- The pairings of R298. -/
def CvtOp.wf (o : CvtOp) : Bool :=
  cvtTyOk o.dst && cvtTyOk o.src && decide (cvtTyX2 o.dst = cvtTyX2 o.src) &&
  (match o with
   | .std _ _ => true
   | .toNarrow _ code => narrowOk code
   | .fromNarrow _ code => narrowOk code)

def LaneCvt.wf (f : LaneCvt) : Bool :=
  f.op.wf && dstOk (cvtTyWide f.op.dst) f.d && sOk f.s f.d && f.a.ok (cvtTyWide f.op.src) false

def UniR.wf (td ta tb : OpTy) (f : UniR) : Bool := f.d.ok td.wide && f.a.ok ta.wide false && f.b.ok tb.wide false
def UniR1.wf (td ta : OpTy) (f : UniR1) : Bool := f.d.ok td.wide && f.a.ok ta.wide false
def UniP.wf (t : OpTy) (fp : Bool) (f : UniP) : Bool := f.cond.ok fp && f.a.ok t.wide false && f.b.ok t.wide false
def UniPlog.wf (f : UniPlog) : Bool := uPredOk f.a && uPredOk f.b
def UniX.wf (td ta tb : OpTy) (fp : Bool) (f : UniX) : Bool := f.d.ok td.wide && f.ext.uniOk fp f.a ta f.b tb
def UniX1.wf (td ta : OpTy) (f : UniX1) : Bool := f.d.ok td.wide && f.ext.uniOk false f.a ta .zero .w32
def UniXP.wf (t : OpTy) (fp : Bool) (f : UniXP) : Bool := f.cond.ok fp && f.ext.uniOk fp f.a t f.b t
def UniX3.wf (t : OpTy) (fp : Bool) (f : UniX3) : Bool :=
  f.d.ok t.wide && f.a.ok t.wide false && f.b.ok t.wide false && f.vc.ok t.wide false && f.m.uniOk fp
def UniSel.wf (t : OpTy) (f : UniSel) : Bool :=
  f.d.ok t.wide && f.a.ok t.wide false && f.b.ok t.wide false && uPredOk f.k && f.m.uniOk false
def UniCvt.wf (f : UniCvt) : Bool :=
  f.op.wf && f.d.ok (cvtTyWide f.op.dst) && f.a.ok (cvtTyWide f.op.src) false

/-- The control register numbers of R379. -/
def csrListed (n : BitVec 12) : Bool :=
  decide (n.toNat ≤ 6) || (decide (16 ≤ n.toNat) && decide (n.toNat ≤ 24)) ||
  (decide (32 ≤ n.toNat) && decide (n.toNat < 48)) || (decide (64 ≤ n.toNat) && decide (n.toNat ≤ 68))

/-- The 64-bit control registers of R379. -/
def csrWide (n : BitVec 12) : Bool :=
  decide (n = 1#12 ∨ n = 5#12 ∨ n = 16#12 ∨ n = 18#12 ∨ n = 19#12) || (decide (32 ≤ n.toNat) && decide (n.toNat < 48)) ||
  (decide (64 ≤ n.toNat) && decide (n.toNat ≤ 68))

/-- The static legality of an instruction: the conditions of R31 to R46 and of each form's entry that its words alone
decide. An event has no words and is always well formed. -/
def Instr.wf : Instr → Bool
  | .add32 f => f.wf .w32 .w32 .w32
  | .sub32 f => f.wf .w32 .w32 .w32
  | .mul32 f => f.wf .w32 .w32 .w32
  | .mulhiN32 f => f.wf .w32 .w32 .w32
  | .mulhiI32 f => f.wf .w32 .w32 .w32
  | .idivN32 f => f.wf .w32 .w32 .w32
  | .idivI32 f => f.wf .w32 .w32 .w32
  | .remN32 f => f.wf .w32 .w32 .w32
  | .remI32 f => f.wf .w32 .w32 .w32
  | .addSatN32 f => f.wf .w32 .w32 .w32
  | .addSatI32 f => f.wf .w32 .w32 .w32
  | .subSatN32 f => f.wf .w32 .w32 .w32
  | .subSatI32 f => f.wf .w32 .w32 .w32
  | .minN32 f => f.wf .w32 .w32 .w32
  | .minI32 f => f.wf .w32 .w32 .w32
  | .maxN32 f => f.wf .w32 .w32 .w32
  | .maxI32 f => f.wf .w32 .w32 .w32
  | .andB32 f => f.wf .w32 .w32 .w32
  | .orB32 f => f.wf .w32 .w32 .w32
  | .xorB32 f => f.wf .w32 .w32 .w32
  | .andnB32 f => f.wf .w32 .w32 .w32
  | .shlB32 f => f.wf .w32 .w32 .w32
  | .shrB32 f => f.wf .w32 .w32 .w32
  | .sarB32 f => f.wf .w32 .w32 .w32
  | .add64 f => f.wf .w64 .w64 .w64
  | .sub64 f => f.wf .w64 .w64 .w64
  | .mul64 f => f.wf .w64 .w64 .w64
  | .idivN64 f => f.wf .w64 .w64 .w64
  | .idivI64 f => f.wf .w64 .w64 .w64
  | .andB64 f => f.wf .w64 .w64 .w64
  | .orB64 f => f.wf .w64 .w64 .w64
  | .xorB64 f => f.wf .w64 .w64 .w64
  | .shlB64 f => f.wf .w64 .w64 .w32
  | .shrB64 f => f.wf .w64 .w64 .w32
  | .sarB64 f => f.wf .w64 .w64 .w32
  | .cmpN32 f => f.wf .w32 false
  | .cmpI32 f => f.wf .w32 false
  | .cmpN64 f => f.wf .w64 false
  | .cmpI64 f => f.wf .w64 false
  | .plog f => f.wf
  | .faddF32 f => f.wf .f32 .f32 .f32
  | .fsubF32 f => f.wf .f32 .f32 .f32
  | .fmulF32 f => f.wf .f32 .f32 .f32
  | .fminF32 f => f.wf .f32 .f32 .f32
  | .fmaxF32 f => f.wf .f32 .f32 .f32
  | .fcmpF32 f => f.wf .f32 true
  | .fdivF32 f => f.wf .f32 .f32 .f32
  | .fsqrtF32 f => f.wf .f32 .f32
  | .faddF64 f => f.wf .f64 .f64 .f64
  | .fsubF64 f => f.wf .f64 .f64 .f64
  | .fmulF64 f => f.wf .f64 .f64 .f64
  | .fminF64 f => f.wf .f64 .f64 .f64
  | .fmaxF64 f => f.wf .f64 .f64 .f64
  | .fcmpF64 f => f.wf .f64 true
  | .fdivF64 f => f.wf .f64 .f64 .f64
  | .fsqrtF64 f => f.wf .f64 .f64
  | .popcB32 f => f.wf .w32 .w32
  | .clzB32 f => f.wf .w32 .w32
  | .brevB32 f => f.wf .w32 .w32
  | .movB32 f => f.wf .w32 .w32
  | .movB64 f => f.wf .w64 .w64
  | .fclassF32 f => f.wf .w32 .f32
  | .fclassF64 f => f.wf .w32 .f64
  | .add32X f => f.wf .w32 .w32 .w32 false
  | .sub32X f => f.wf .w32 .w32 .w32 false
  | .mul32X f => f.wf .w32 .w32 .w32 false
  | .andB32X f => f.wf .w32 .w32 .w32 false
  | .orB32X f => f.wf .w32 .w32 .w32 false
  | .xorB32X f => f.wf .w32 .w32 .w32 false
  | .andnB32X f => f.wf .w32 .w32 .w32 false
  | .shlB32X f => f.wf .w32 .w32 .w32 false
  | .shrB32X f => f.wf .w32 .w32 .w32 false
  | .sarB32X f => f.wf .w32 .w32 .w32 false
  | .minN32X f => f.wf .w32 .w32 .w32 false
  | .minI32X f => f.wf .w32 .w32 .w32 false
  | .maxN32X f => f.wf .w32 .w32 .w32 false
  | .maxI32X f => f.wf .w32 .w32 .w32 false
  | .addSatN32X f => f.wf .w32 .w32 .w32 false
  | .addSatI32X f => f.wf .w32 .w32 .w32 false
  | .cmpN32X f => f.wf .w32 false
  | .cmpI32X f => f.wf .w32 false
  | .movB32X f => f.wf .w32 .w32
  | .add64X f => f.wf .w64 .w64 .w64 false
  | .sub64X f => f.wf .w64 .w64 .w64 false
  | .cmpN64X f => f.wf .w64 false
  | .cmpI64X f => f.wf .w64 false
  | .movB64X f => f.wf .w64 .w64
  | .selB32 f => f.wf .w32
  | .selB64 f => f.wf .w64
  | .bfeN32 f => f.wf .w32 .w32 .w32 false
  | .bfeI32 f => f.wf .w32 .w32 .w32 false
  | .bfiB32 f => f.wf .w32 false
  | .mad32 f => f.wf .w32 false
  | .mad64 f => f.wf .w64 false
  | .shrrI32 f => f.wf .w32 .w32 .w32 false
  | .addI16x2 f => f.wf .h2 .h2 .h2 false
  | .subI16x2 f => f.wf .h2 .h2 .h2 false
  | .addSatI16x2 f => f.wf .h2 .h2 .h2 false
  | .subSatI16x2 f => f.wf .h2 .h2 .h2 false
  | .mulI16x2 f => f.wf .h2 .h2 .h2 false
  | .minI16x2 f => f.wf .h2 .h2 .h2 false
  | .maxI16x2 f => f.wf .h2 .h2 .h2 false
  | .packI16x2 f => f.wf .w32 .w32 .w32 false
  | .pdot2I16x2 f => f.wf .w32 false
  | .shrrSatI16 f => f.wf .w32 .w32 .w32 false
  | .addN8x4 f => f.wf .b4 .b4 .b4 false
  | .subN8x4 f => f.wf .b4 .b4 .b4 false
  | .addSatN8x4 f => f.wf .b4 .b4 .b4 false
  | .subSatN8x4 f => f.wf .b4 .b4 .b4 false
  | .minN8x4 f => f.wf .b4 .b4 .b4 false
  | .maxN8x4 f => f.wf .b4 .b4 .b4 false
  | .faddF32X f => f.wf .f32 .f32 .f32 true
  | .fmulF32X f => f.wf .f32 .f32 .f32 true
  | .ffmaF32 f => f.wf .f32 true
  | .fcmpF32X f => f.wf .f32 true
  | .faddF64X f => f.wf .f64 .f64 .f64 true
  | .fmulF64X f => f.wf .f64 .f64 .f64 true
  | .ffmaF64 f => f.wf .f64 true
  | .fcmpF64X f => f.wf .f64 true
  | .faddF16x2 f => f.wf .h2 .h2 .h2 true
  | .fmulF16x2 f => f.wf .h2 .h2 .h2 true
  | .ffmaF16x2 f => f.wf .h2 true
  | .faddBf16x2 f => f.wf .h2 .h2 .h2 true
  | .fmulBf16x2 f => f.wf .h2 .h2 .h2 true
  | .ffmaBf16x2 f => f.wf .h2 true
  | .fsubF32X f => f.wf .f32 .f32 .f32 true
  | .fsubF64X f => f.wf .f64 .f64 .f64 true
  | .ldGN8 f => f.wf false true
  | .ldGI8 f => f.wf false true
  | .ldGN16 f => f.wf false true
  | .ldGI16 f => f.wf false true
  | .ldGB32 f => f.wf false true
  | .ldGB64 f => f.wf true true
  | .ldGQual f q => f.wf q.width.wide true && q.wf false true false
  | .stGB8 f => f.wf false true
  | .stGB16 f => f.wf false true
  | .stGB32 f => f.wf false true
  | .stGB64 f => f.wf true true
  | .stGQual f q => f.wf q.width.wide true && q.wf false true true
  | .ldkB32 f k => f.wfK false k
  | .ldkB64 f k => f.wfK true k
  | .ldt d x _ n _ => dstOk false d && coordsOk x n
  | .stt t x _ n f32 round => t.ok false false && coordsOk x n && (f32 || decide (round = .dflt))
  | .ldCmN8 f => f.wf false false
  | .ldCmI8 f => f.wf false false
  | .ldCmN16 f => f.wf false false
  | .ldCmI16 f => f.wf false false
  | .ldCmB32 f => f.wf false false
  | .ldCmB64 f => f.wf true false
  | .ldCmQual f q => f.wf q.width.wide false && q.wf false false false
  | .stCmB8 f => f.wf false false
  | .stCmB16 f => f.wf false false
  | .stCmB32 f => f.wf false false
  | .stCmB64 f => f.wf true false
  | .stCmQual f q => f.wf q.width.wide false && q.wf false false true
  | .atom f op q => f.wfAtom op q && decide (op ≠ .cas)
  | .atomCas f q => f.wfAtom .cas q
  | .fence _ _ => true
  | .alloc d a _ _ => dstOk true d && a.ok false false
  | .free a => a.ok true false
  | .cpyIn f => f.wf
  | .cpyOut f => f.wf
  | .cpyG f => f.wf
  | .waitc a b k => a.ok true false && b.ok false true && litUse b k
  | .qfence m => decide (m ≠ 0#4)
  | .sclaim u n => unitsOk u n
  | .srel u n => unitsOk u n
  | .stkLd ctr x _ _ n => ctrOk ctr && coordsOk x n
  | .mtile f => f.wf
  | .rzero _ => true
  | .rimLd f => f.wf
  | .rimSt f => f.wf
  | .termrd d _ k => dstOk true d && decide (k.toNat ≤ 5)
  | .bra _ => true
  | .brx a b k => a.pairOk && b.ok false true && litUse b k
  | .switch a n => a.ok false false && decide (1 ≤ n.toNat) && decide (n.toNat ≤ 8)
  | .call _ => true
  | .ret a => a.pairOk
  | .exit => true
  | .exitto a k => a.ok false true && litUse a k
  | .rcb => true
  | .bar => true
  | .join a b => a.joinOk && b.joinOk
  | .leave => true
  | .rgnOpen => true
  | .rgnClose => true
  | .scope _ => true
  | .endscope => true
  | .wpush a => a.ok false false
  | .wpop d _ => dstOk false d
  | .sleep a k => a.ok false true && litUse a k
  | .brk => true
  | .trap _ => true
  | .nop => true
  | .calle r _ _ _ => dstOk true r
  | .calleRet r => dstOk true r
  | .lmode m => decide (m ≠ 3#2)
  | .lstat d _ k => dstOk true d && decide (k.toNat ≤ 5)
  | .shuf d a b => dstOk false d && dstOk false a && b.ok false false
  | .vote d _ _ => dstOk false d
  | .red d a o => decide (o.toNat ≤ 11) && dstOk (decide (o = 11#4)) d && dstOk (decide (o = 11#4)) a
  | .bcast d a b => dstOk false d && dstOk false a && b.ok false false
  | .movs s _ d a => dstOk false d && sOk s d && a.movsOk
  | .cvt f => f.wf
  | .rcpF32 f => f.wf .f32 .f32
  | .rcpF64 f => f.wf .f64 .f64
  | .rsqF32 f => f.wf .f32 .f32
  | .rsqF64 f => f.wf .f64 .f64
  | .exp2F32 f => f.wf .f32 .f32
  | .log2F32 f => f.wf .f32 .f32
  | .sinF32 f => f.wf .f32 .f32
  | .cosF32 f => f.wf .f32 .f32
  | .fminF16x2 f => f.wf .h2 .h2 .h2
  | .fmaxF16x2 f => f.wf .h2 .h2 .h2
  | .fminBf16x2 f => f.wf .h2 .h2 .h2
  | .fmaxBf16x2 f => f.wf .h2 .h2 .h2
  | .fcmpF16x2 _ p a b => decide (p = 0#3 ∨ p = 2#3 ∨ p = 4#3) && a.ok false false && b.ok false false
  | .fcmpBf16x2 _ p a b => decide (p = 0#3 ∨ p = 2#3 ∨ p = 4#3) && a.ok false false && b.ok false false
  | .fclassF16x2 f => f.wf .w32 .h2
  | .fclassBf16x2 f => f.wf .w32 .h2
  | .hclr h a k => hOk h && a.hclrOk && litUse a k
  | .hfma h _ a b => hOk h && a.baseOk true && b.baseOk true
  | .hfma3 h _ a b vc _ => hOk h && a.baseOk true && b.baseOk true && vc.baseOk true
  | .hadd h _ a => hOk h && a.baseOk true
  | .hsgn d h _ => hOk h && dstOk false d
  | .hrnd d h => hOk h && dstOk true d
  | .uAdd32 f => f.wf .w32 .w32 .w32
  | .uSub32 f => f.wf .w32 .w32 .w32
  | .uMul32 f => f.wf .w32 .w32 .w32
  | .uMulhiN32 f => f.wf .w32 .w32 .w32
  | .uMulhiI32 f => f.wf .w32 .w32 .w32
  | .uIdivN32 f => f.wf .w32 .w32 .w32
  | .uIdivI32 f => f.wf .w32 .w32 .w32
  | .uRemN32 f => f.wf .w32 .w32 .w32
  | .uRemI32 f => f.wf .w32 .w32 .w32
  | .uAndB32 f => f.wf .w32 .w32 .w32
  | .uOrB32 f => f.wf .w32 .w32 .w32
  | .uXorB32 f => f.wf .w32 .w32 .w32
  | .uShlB32 f => f.wf .w32 .w32 .w32
  | .uShrB32 f => f.wf .w32 .w32 .w32
  | .uSarB32 f => f.wf .w32 .w32 .w32
  | .uMinN32 f => f.wf .w32 .w32 .w32
  | .uMinI32 f => f.wf .w32 .w32 .w32
  | .uMaxN32 f => f.wf .w32 .w32 .w32
  | .uMaxI32 f => f.wf .w32 .w32 .w32
  | .uAdd64 f => f.wf .w64 .w64 .w64
  | .uSub64 f => f.wf .w64 .w64 .w64
  | .uMul64 f => f.wf .w64 .w64 .w64
  | .uShlB64 f => f.wf .w64 .w64 .w32
  | .uShrB64 f => f.wf .w64 .w64 .w32
  | .uCmpN32 f => f.wf .w32 false
  | .uCmpI32 f => f.wf .w32 false
  | .uCmpN64 f => f.wf .w64 false
  | .uCmpI64 f => f.wf .w64 false
  | .uPlog f => f.wf
  | .uMovB32 f => f.wf .w32 .w32
  | .uMovB64 f => f.wf .w64 .w64
  | .uPopcB32 f => f.wf .w32 .w32
  | .uAdd32X f => f.wf .w32 .w32 .w32 false
  | .uSub32X f => f.wf .w32 .w32 .w32 false
  | .uMul32X f => f.wf .w32 .w32 .w32 false
  | .uAndB32X f => f.wf .w32 .w32 .w32 false
  | .uOrB32X f => f.wf .w32 .w32 .w32 false
  | .uXorB32X f => f.wf .w32 .w32 .w32 false
  | .uShlB32X f => f.wf .w32 .w32 .w32 false
  | .uShrB32X f => f.wf .w32 .w32 .w32 false
  | .uSarB32X f => f.wf .w32 .w32 .w32 false
  | .uMinN32X f => f.wf .w32 .w32 .w32 false
  | .uMinI32X f => f.wf .w32 .w32 .w32 false
  | .uMaxN32X f => f.wf .w32 .w32 .w32 false
  | .uMaxI32X f => f.wf .w32 .w32 .w32 false
  | .uAdd64X f => f.wf .w64 .w64 .w64 false
  | .uCmpN32X f => f.wf .w32 false
  | .uCmpI32X f => f.wf .w32 false
  | .uCmpN64X f => f.wf .w64 false
  | .uCmpI64X f => f.wf .w64 false
  | .uMovB32X f => f.wf .w32 .w32
  | .uMovB64X f => f.wf .w64 .w64
  | .uSelB32 f => f.wf .w32
  | .uSelB64 f => f.wf .w64
  | .uBfeN32 f => f.wf .w32 .w32 .w32 false
  | .uMad32 f => f.wf .w32 false
  | .uFaddF32 f => f.wf .f32 .f32 .f32 true
  | .uFmulF32 f => f.wf .f32 .f32 .f32 true
  | .uFfmaF32 f => f.wf .f32 true
  | .uFcmpF32 f => f.wf .f32 true
  | .uFaddF64 f => f.wf .f64 .f64 .f64 true
  | .uFmulF64 f => f.wf .f64 .f64 .f64 true
  | .uFfmaF64 f => f.wf .f64 true
  | .uCvt f => f.wf
  | .sBra f => uPredOk f.p
  | .sBrx a b k => a.pairOk && b.ok false true && uLitUse b k
  | .sCall f => uPredOk f.p
  | .sRet a => a.pairOk
  | .sExit => true
  | .dpush a w => a.ok w false
  | .dpop d w => d.ok w
  | .bucket d a n => decide (1 ≤ n.toNat) && decide (d.toNat ≤ 60) && decide (a.toNat + n.toNat ≤ 64)
  | .nodeput d a => d.ok false && a.pairOk
  | .waitn d a b k => d.ok false && a.pairOk && b.ok false true && uLitUse b k
  | .ckpt => true
  | .yield => true
  | .sNop => true
  | .uLdGB32 f => f.wf false true
  | .uLdGB64 f => f.wf true true
  | .uStGB32 f => f.wf false true
  | .uStGB64 f => f.wf true true
  | .uLdCmB32 f => f.wf false false
  | .uLdCmB64 f => f.wf true false
  | .uStCmB32 f => f.wf false false
  | .uStCmB64 f => f.wf true false
  | .uLdGQual f q => f.wf q.width.wide true && q.wf true true false
  | .uStGQual f q => f.wf q.width.wide true && q.wf true true true
  | .uLdCmQual f q => f.wf q.width.wide false && q.wf true false false
  | .uStCmQual f q => f.wf q.width.wide false && q.wf true false true
  | .uLdkB32 f k => f.wfK false k
  | .uLdkB64 f k => f.wfK true k
  | .uAtom f op q => f.wfAtom op q
  | .uFence _ _ => true
  | .uAlloc d a _ p => sPairOk d && a.ok false false && uPredOk p
  | .uFree a => a.ok true false
  | .uCpyIn f => f.wf
  | .uCpyOut f => f.wf
  | .uCpyG f => f.wf
  | .uWaitc a b k => a.ok true false && b.ok false true && uLitUse b k
  | .uQfence m => decide (m ≠ 0#4)
  | .rdcnt d a => sPairOk d && a.ok false false
  | .csrr d n => csrListed n && d.ok (csrWide n)
  | .csrw b n => csrListed n && b.ok (csrWide n) false
  | .rft => true
  | .fgetPc d => sPairOk d
  | .fgetMask d => d.ok false
  | .fgetPrio d => d.ok false
  | .fgetReg d _ r => d.ok false && dstOk false r
  | .fsetPc a => a.ok true false
  | .fsetMask a => a.ok false false
  | .fsetReg a _ r => a.ok false false && dstOk false r
  | .xlinv a b sc => a.pairOk && b.ok false false && !sc.local
  | .injsetSeed a => a.ok true false
  | .injsetRate a => a.ok false false
  | .injsetClasses a => a.ok false false
  | .injsetShot a => a.ok true false
  | .injsetArm a => a.ok false false
  | .nodePost _ _ _ => true
  | .nodeputDone _ => true
  | .instanceAdmit _ => true
  | .weaveAdmit _ _ _ => true
  | .admissionStarvation _ => true
  | .nodeAging _ => true
  | .balancerSample _ => true
  | .instanceYield _ _ => true
  | .instanceReadmit _ => true
  | .kernelNodeComplete _ => true
  | .tileNodeRun _ => true
  | .trapDelivery _ => true
  | .poisonContainment _ => true
  | .freeze _ _ _ => true
  | .resume _ _ => true
  | .weaveRestart _ _ => true
  | .rcbRelease _ _ => true
  | .sleepExpire _ _ => true
  | .feLoadWake _ _ => true
  | .joinGrant _ _ => true
  | .scopeGrant _ => true
  | .sclaimGrant _ => true
  | .dpushAppend _ _ => true
  | .dpopTake _ _ => true
  | .wpushAppend _ _ => true
  | .wpopTake _ _ => true
  | .waitcComplete _ => true
  | .waitnComplete _ => true
  | .waitnLimit _ => true
  | .yieldComplete _ _ => true
  | .ckptRecord _ _ => true
  | .pairedExitRelease _ _ => true
  | .memoryResultArrive _ => true
  | .storeQueueDrain _ => true
  | .cpyInPerform _ _ => true
  | .cpyOutPerform _ _ => true
  | .cpyGPerform _ _ => true
  | .stkLdPerform _ => true
  | .mtileStart _ => true
  | .mtileComplete _ => true
  | .rzeroPerform _ => true
  | .rimLdPerform _ => true
  | .rimStPerform _ => true
  | .srelPerform _ => true
  | .valueStoreEpochFlush _ => true
  | .pairCompare _ _ => true
  | .injectorFire _ _ _ => true
  | .coreErrorWindow _ => true
  | .patternTestDone _ _ => true
  | .channelRetire _ _ => true
  | .coreLend _ _ => true
  | .revoke _ => true
  | .revokeFreezeTimeout _ _ => true
  | .coreScrub _ => true
  | .start _ _ _ => true
  | .startWatchdogExpire => true
  | .firmwareLoad _ _ => true
  | .fullStartRequest => true
  | .undervoltageStop => true
  | .thermalStep _ => true
  | .powerCapWindow _ => true
  | .setPowerCap _ => true
  | .partitionConfigWrite _ _ => true
  | .vfRecordWrite _ _ => true
  | .vfStateWrite _ _ => true
  | .heapWrite _ _ _ => true
  | .scopePolicyWrite _ _ => true
  | .mgmtRegisterWrite _ _ _ _ => true
  | .counterLowRead _ _ _ => true
  | .counterHighRead _ => true
  | .granuleTakeBack _ => true
  | .backgroundScrub _ => true
  | .shootdownMessage _ _ _ _ => true
  | .shootdownComplete _ => true
  | .writeTrapAck _ => true
  | .rmaWrite _ _ _ => true
  | .rmaRead _ _ _ => true
  | .rmaAtomic _ _ => true
  | .remoteAccess _ _ _ => true
  | .attestationRequest _ _ => true
  | .watchpointWrite _ _ _ => true
  | .samplingExponentWrite _ _ => true
  | .traceMessageSend _ => true
  | .errorThresholdWrite _ => true
  | .coreBinReset _ => true
  | .wordNotInstruction => true
  | .l1Eviction _ _ => true
  | .softError _ _ => true
  | .inputBelow40v => true
  | .unimplementedModePacket _ => true
  | .trustListInstall _ => true

end Sys2Proof
end

