-- ==== Sys2Proof/Decode.lean ====
section
/-!
DEFINITION. Decoding, total on any words and bytes (03), and the encoder written from the same encodings. A word that is
not an instruction decodes to none; Machine/Step raises its cause (R56, R57).
-/

namespace Sys2Proof

/-- The fields of a first word (R29, R30): set, class and opcode in `op`, then S, C and the three 7-bit fields. -/
structure Raw where
  op : BitVec 9
  s : Bool
  c : Bool
  d : BitVec 7
  a : BitVec 7
  b : BitVec 7
deriving DecidableEq, Repr, Inhabited

def Raw.ofWord (w : Word) : Raw :=
  { op := w.extractLsb' 23 9, s := w.getLsbD 22, c := w.getLsbD 21,
    d := w.extractLsb' 14 7, a := w.extractLsb' 7 7, b := w.extractLsb' 0 7 }

def Raw.toWord (r : Raw) : Word :=
  r.op ++ BitVec.ofBool r.s ++ BitVec.ofBool r.c ++ r.d ++ r.a ++ r.b

/-- An extension word in literal layout (R37, R38). -/
def litWord (p : BitVec 28) : Word := 14#4 ++ p

/-- A one-word form with S and C 0. -/
def Raw.one (op : BitVec 9) (d a b : BitVec 7) : Word × Option Word := ((Raw.mk op false false d a b).toWord, none)

/-- A one-word form with its S and C. -/
def Raw.oneSC (op : BitVec 9) (s c : Bool) (d a b : BitVec 7) : Word × Option Word := ((Raw.mk op s c d a b).toWord, none)

/-- A two-word form. -/
def Raw.two (op : BitVec 9) (s c : Bool) (d a b : BitVec 7) (x : Word) : Word × Option Word :=
  ((Raw.mk op s c d a b).toWord, some x)

/-- The payload of a literal layout; none for any other word. -/
def litPay (x : Word) : Option (BitVec 28) := if x.extractLsb' 28 4 = 14#4 then some (x.extractLsb' 0 28) else none

/-- A 3-bit field holding 0 or 1. -/
def ofBool2 (b : Bool) : BitVec 3 := if b then 1#3 else 0#3

/-- Keep a value where a condition holds. -/
def keep {α : Type} (c : Bool) (v : α) : Option α := if c then some v else none

/-! ## Field codes -/

def LSrc.code : LSrc → BitVec 7
  | .v n => n
  | .latch k => 30#5 ++ k
  | .zero => 124#7
  | .lit => 125#7
  | .tid => 126#7

/-- The lane source values of R31. -/
def LSrc.ofCode (x : BitVec 7) : Option LSrc :=
  if x.toNat < 120 then some (.v x)
  else if x.extractLsb' 2 5 = 30#5 then some (.latch (x.extractLsb' 0 2))
  else if x = 124#7 then some .zero
  else if x = 125#7 then some .lit
  else if x = 126#7 then some .tid
  else none

def Special.code : Special → BitVec 7
  | .wid => 64#7 | .inst => 65#7 | .role => 66#7 | .lsn => 67#7 | .mode => 68#7 | .flags => 69#7 | .ninst => 70#7
  | .nwv => 71#7 | .shape0 => 72#7 | .shape1 => 73#7 | .shape2 => 74#7 | .vf => 75#7 | .clk => 76#7 | .rng => 77#7

/-- The special registers of R33 in the order of their values, 64 to 77. -/
def Special.all : List Special :=
  [.wid, .inst, .role, .lsn, .mode, .flags, .ninst, .nwv, .shape0, .shape1, .shape2, .vf, .clk, .rng]

def USrc.code : USrc → BitVec 7
  | .s n => 0#1 ++ n
  | .sp x => x.code
  | .zero => 124#7
  | .lit => 125#7

/-- The uniform source values of R33. -/
def USrc.ofCode (x : BitVec 7) : Option USrc :=
  if x.toNat < 64 then some (.s (x.extractLsb' 0 6))
  else if x = 124#7 then some .zero
  else if x = 125#7 then some .lit
  else match Special.all[x.toNat - 64]? with
    | some y => some (.sp y)
    | none => none

def UDst.code : UDst → BitVec 7
  | .s n => 0#1 ++ n
  | .mode => 68#7
  | .flags => 69#7

/-- The uniform destination values of R33. -/
def UDst.ofCode (x : BitVec 7) : Option UDst :=
  if x.toNat < 64 then some (.s (x.extractLsb' 0 6))
  else if x = 68#7 then some .mode
  else if x = 69#7 then some .flags
  else none

/-- An s register standing in a 7-bit field. -/
def sOfCode (x : BitVec 7) : Option (BitVec 6) := keep (decide (x.toNat < 64)) (x.extractLsb' 0 6)

def Cond.code : Cond → BitVec 3
  | .eq => 0#3 | .ne => 1#3 | .lt => 2#3 | .le => 3#3 | .gt => 4#3 | .ge => 5#3 | .un => 6#3 | .ord => 7#3

def Cond.ofCode (x : BitVec 3) : Cond :=
  match x with
  | 0#3 => .eq | 1#3 => .ne | 2#3 => .lt | 3#3 => .le | 4#3 => .gt | 5#3 => .ge | 6#3 => .un | _ => .ord

def Scope.code : Scope → BitVec 3
  | .th => 0#3 | .wv => 1#3 | .cl => 2#3 | .co => 3#3 | .pt => 4#3 | .tn => 5#3 | .dv => 6#3 | .sy => 7#3

def Scope.ofCode (x : BitVec 3) : Scope :=
  match x with
  | 0#3 => .th | 1#3 => .wv | 2#3 => .cl | 3#3 => .co | 4#3 => .pt | 5#3 => .tn | 6#3 => .dv | _ => .sy

def Nbr.code : Nbr → BitVec 2
  | .self => 0#2 | .left => 1#2 | .right => 2#2

def Nbr.ofCode (x : BitVec 2) : Option Nbr :=
  match x with
  | 0#2 => some .self | 1#2 => some .left | 2#2 => some .right | _ => none

/-- The edge field and the fill field together. -/
def Edge.code : Edge → BitVec 8
  | .zero => 0#2 ++ 0#6 | .wrap => 1#2 ++ 0#6 | .clamp => 2#2 ++ 0#6 | .fill f => 3#2 ++ f

def Edge.ofCode (e : BitVec 2) (f : BitVec 6) : Option Edge :=
  match e with
  | 3#2 => some (.fill f)
  | 0#2 => keep (decide (f = 0#6)) .zero
  | 1#2 => keep (decide (f = 0#6)) .wrap
  | _ => keep (decide (f = 0#6)) .clamp

def Round.code : Round → BitVec 3
  | .dflt => 0#3 | .rn => 1#3 | .rz => 2#3 | .ru => 3#3 | .rd => 4#3 | .rs => 5#3

def Round.ofCode (x : BitVec 3) : Option Round :=
  match x with
  | 0#3 => some .dflt | 1#3 => some .rn | 2#3 => some .rz | 3#3 => some .ru | 4#3 => some .rd | 5#3 => some .rs | _ => none

/-- The modifier layout of R40. -/
def modWord (vc : BitVec 7) (m : Modif) (reuse : Bool) : Word :=
  15#4 ++ vc ++ m.na.code ++ m.nb.code ++ m.edge.code ++ m.round.code ++ m.guard.p ++ BitVec.ofBool m.guard.pol ++
    BitVec.ofBool reuse ++ 0#1

/-- Read the modifier layout: third source, modifier fields, reuse. -/
def modPay (x : Word) : Option (BitVec 7 × Modif × Bool) :=
  if x.extractLsb' 28 4 = 15#4 ∧ x.getLsbD 0 = false then
    match Nbr.ofCode (x.extractLsb' 19 2), Nbr.ofCode (x.extractLsb' 17 2),
      Edge.ofCode (x.extractLsb' 15 2) (x.extractLsb' 9 6), Round.ofCode (x.extractLsb' 6 3) with
    | some na, some nb, some e, some r =>
      some (x.extractLsb' 21 7, ⟨na, nb, e, r, ⟨x.extractLsb' 3 3, x.getLsbD 2⟩⟩, x.getLsbD 1)
    | _, _, _, _ => none
  else none

/-- Modifier fields of a form that uses a guard alone. -/
def Modif.only (g : Guard) : Modif := ⟨.self, .self, .zero, .dflt, g⟩

def Ext.word : Ext → Word
  | .lit p => litWord p
  | .mod m => modWord 0#7 m false

/-- An LM extension word: no third source, no reuse. -/
def Ext.ofWord (x : Word) : Option Ext :=
  match litPay x with
  | some p => some (.lit p)
  | none =>
    match modPay x with
    | some (vc, m, reuse) => keep (decide (vc = 0#7) && !reuse) (.mod m)
    | none => none

def MemW.code : MemW → BitVec 3
  | .n8 => 0#3 | .i8 => 1#3 | .n16 => 2#3 | .i16 => 3#3 | .b32 => 4#3 | .b64 => 5#3

def MemW.ofCode (x : BitVec 3) : Option MemW :=
  match x with
  | 0#3 => some .n8 | 1#3 => some .i8 | 2#3 => some .n16 | 3#3 => some .i16 | 4#3 => some .b32 | 5#3 => some .b64 | _ => none

def Order.code : Order → BitVec 3
  | .none => 0#3 | .acq => 1#3 | .rel => 2#3

def Order.ofCode (x : BitVec 3) : Option Order :=
  match x with
  | 0#3 => some .none | 1#3 => some .acq | 2#3 => some .rel | _ => Option.none

def FullEmpty.code : FullEmpty → BitVec 2
  | .none => 0#2 | .fe => 1#2 | .fec => 2#2

def FullEmpty.ofCode (x : BitVec 2) : Option FullEmpty :=
  match x with
  | 0#2 => some .none | 1#2 => some .fe | 2#2 => some .fec | _ => Option.none

def CacheHint.code : CacheHint → BitVec 2
  | .dflt => 0#2 | .nl1 => 1#2 | .str => 2#2

def CacheHint.ofCode (x : BitVec 2) : Option CacheHint :=
  match x with
  | 0#2 => some .dflt | 1#2 => some .nl1 | 2#2 => some .str | _ => none

/-- The qualified access payload (R161). -/
def Qual.word (q : Qual) : Word :=
  litWord (0#4 ++ q.width.code ++ q.order.code ++ q.scope.code ++ q.fe.code ++ q.cache.code ++ 0#11)

def Qual.ofWord (x : Word) : Option Qual :=
  match litPay x, MemW.ofCode (x.extractLsb' 21 3), Order.ofCode (x.extractLsb' 18 3),
    FullEmpty.ofCode (x.extractLsb' 13 2), CacheHint.ofCode (x.extractLsb' 11 2) with
  | some _, some w, some o, some f, some h =>
    keep (decide (x.extractLsb' 24 4 = 0#4) && decide (x.extractLsb' 0 11 = 0#11)) ⟨w, o, Scope.ofCode (x.extractLsb' 15 3), f, h⟩
  | _, _, _, _, _ => none

def AtomOp.code : AtomOp → BitVec 4
  | .add => 0#4 | .and => 1#4 | .or => 2#4 | .xor => 3#4 | .min => 4#4 | .max => 5#4 | .exch => 6#4 | .fadd => 7#4 | .cas => 8#4

def AtomOp.ofCode (x : BitVec 4) : Option AtomOp :=
  match x with
  | 0#4 => some .add | 1#4 => some .and | 2#4 => some .or | 3#4 => some .xor | 4#4 => some .min | 5#4 => some .max
  | 6#4 => some .exch | 7#4 => some .fadd | 8#4 => some .cas | _ => none

def AtomTy.code : AtomTy → BitVec 3
  | .n32 => 0#3 | .i32 => 1#3 | .n64 => 2#3 | .i64 => 3#3 | .f32 => 4#3 | .f64 => 5#3

def AtomTy.ofCode (x : BitVec 3) : Option AtomTy :=
  match x with
  | 0#3 => some .n32 | 1#3 => some .i32 | 2#3 => some .n64 | 3#3 => some .i64 | 4#3 => some .f32 | 5#3 => some .f64 | _ => none

def AtomOrd.code : AtomOrd → BitVec 3
  | .relaxed => 0#3 | .acq => 1#3 | .rel => 2#3 | .ar => 3#3

def AtomOrd.ofCode (x : BitVec 3) : Option AtomOrd :=
  match x with
  | 0#3 => some .relaxed | 1#3 => some .acq | 2#3 => some .rel | 3#3 => some .ar | _ => none

/-- The atomic payload with its operation field (R170). -/
def AtomQ.code (q : AtomQ) (op : BitVec 4) : BitVec 28 :=
  op ++ q.ty.code ++ q.order.code ++ q.scope.code ++ BitVec.ofBool q.circle ++ BitVec.ofBool q.ret ++ 0#13

def AtomQ.ofWord (x : Word) : Option (BitVec 4 × AtomQ) :=
  match litPay x, AtomTy.ofCode (x.extractLsb' 21 3), AtomOrd.ofCode (x.extractLsb' 18 3) with
  | some _, some t, some o =>
    keep (decide (x.extractLsb' 0 13 = 0#13))
      (x.extractLsb' 24 4, ⟨t, o, Scope.ofCode (x.extractLsb' 15 3), x.getLsbD 14, x.getLsbD 13⟩)
  | _, _, _ => none

def FenceKind.code : FenceKind → BitVec 2
  | .ar => 0#2 | .acq => 1#2 | .rel => 2#2

def FenceKind.ofCode (x : BitVec 2) : Option FenceKind :=
  match x with
  | 0#2 => some .ar | 1#2 => some .acq | 2#2 => some .rel | _ => none

/-- The counter register of a lane engine command, 124 when none is named (R178). -/
def ctrReg (c : Option (BitVec 7 × Scope)) : BitVec 7 := match c with | none => 124#7 | some (r, _) => r
def ctrScope {n : Nat} (c : Option (BitVec n × Scope)) : BitVec 3 := match c with | none => 0#3 | some (_, s) => s.code
def uCtrReg (c : Option (BitVec 6 × Scope)) : BitVec 7 := match c with | none => 124#7 | some (r, _) => 0#1 ++ r

def ctrOf (r : BitVec 7) (s : BitVec 3) : Option (Option (BitVec 7 × Scope)) :=
  if r = 124#7 then keep (decide (s = 0#3)) none
  else keep (decide (r.toNat < 120)) (some (r, Scope.ofCode s))

def uCtrOf (r : BitVec 7) (s : BitVec 3) : Option (Option (BitVec 6 × Scope)) :=
  if r = 124#7 then keep (decide (s = 0#3)) none
  else match sOfCode r with
    | some n => some (some (n, Scope.ofCode s))
    | none => none

def CpyQ.code : CpyQ → BitVec 2
  | .copy0 => 0#2 | .copy1 => 1#2 | .fabric => 2#2

def CpyQ.ofCode (x : BitVec 2) : Option CpyQ :=
  match x with
  | 0#2 => some .copy0 | 1#2 => some .copy1 | 2#2 => some .fabric | _ => none

/-- The conversion payload (R298). -/
def CvtOp.payload (o : CvtOp) (r : Round) : BitVec 28 :=
  match o with
  | .std dst src => 0#2 ++ src ++ r.code ++ 0#3 ++ dst ++ 0#12
  | .toNarrow src code => 1#2 ++ src ++ r.code ++ 0#3 ++ code
  | .fromNarrow dst code => 2#2 ++ dst ++ r.code ++ 0#3 ++ code

def CvtOp.ofWord (x : Word) : Option (CvtOp × Round) :=
  match litPay x, Round.ofCode (x.extractLsb' 19 3) with
  | some _, some r =>
    if x.extractLsb' 16 3 = 0#3 then
      match x.extractLsb' 26 2 with
      | 0#2 => keep (decide (x.extractLsb' 0 12 = 0#12)) (.std (x.extractLsb' 12 4) (x.extractLsb' 22 4), r)
      | 1#2 => some (.toNarrow (x.extractLsb' 22 4) (x.extractLsb' 0 16), r)
      | 2#2 => some (.fromNarrow (x.extractLsb' 22 4) (x.extractLsb' 0 16), r)
      | _ => none
    else none
  | _, _ => none

/-! ## Shapes: parse and encode -/

/-- No S and no C: every kind but lane classes 00 and 01, the A opcodes, and uniform class 00 (R46, R48). -/
def Raw.plain (r : Raw) : Bool := !r.s && !r.c

def LaneR.parse {α : Type} (ok : LaneR → Bool) (mk : LaneR → α) (r : Raw) : Option α :=
  match LSrc.ofCode r.a, LSrc.ofCode r.b with
  | some a, some b => keep (ok ⟨r.s, r.c, r.d, a, b⟩) (mk ⟨r.s, r.c, r.d, a, b⟩)
  | _, _ => none
def LaneR.enc (op : BitVec 9) (f : LaneR) : Word × Option Word := Raw.oneSC op f.s f.c f.d f.a.code f.b.code

def LaneR1.parse {α : Type} (ok : LaneR1 → Bool) (mk : LaneR1 → α) (r : Raw) : Option α :=
  match LSrc.ofCode r.a with
  | some a => keep (ok ⟨r.s, r.c, r.d, a⟩ && decide (r.b = 0#7)) (mk ⟨r.s, r.c, r.d, a⟩)
  | none => none
def LaneR1.enc (op : BitVec 9) (f : LaneR1) : Word × Option Word := Raw.oneSC op f.s f.c f.d f.a.code 0#7

/-- The P layout of the destination field (R35). -/
def LaneP.parse {α : Type} (ok : LaneP → Bool) (mk : LaneP → α) (r : Raw) : Option α :=
  match LSrc.ofCode r.a, LSrc.ofCode r.b with
  | some a, some b => keep (ok ⟨r.c, Cond.ofCode (r.d.extractLsb' 4 3), r.d.extractLsb' 0 3, a, b⟩ && !r.s && !r.d.getLsbD 3) (mk ⟨r.c, Cond.ofCode (r.d.extractLsb' 4 3), r.d.extractLsb' 0 3, a, b⟩)
  | _, _ => none
def LaneP.enc (op : BitVec 9) (f : LaneP) : Word × Option Word :=
  Raw.oneSC op false f.c (f.cond.code ++ 0#1 ++ f.p) f.a.code f.b.code

def LanePlog.parse {α : Type} (ok : LanePlog → Bool) (mk : LanePlog → α) (r : Raw) : Option α :=
  keep (ok ⟨r.c, r.d.extractLsb' 3 4, r.d.extractLsb' 0 3, r.a.extractLsb' 0 3, r.b.extractLsb' 0 3⟩ && !r.s && decide (r.a.extractLsb' 3 4 = 0#4) && decide (r.b.extractLsb' 3 4 = 0#4)) (mk ⟨r.c, r.d.extractLsb' 3 4, r.d.extractLsb' 0 3, r.a.extractLsb' 0 3, r.b.extractLsb' 0 3⟩)
def LanePlog.enc (op : BitVec 9) (f : LanePlog) : Word × Option Word :=
  Raw.oneSC op false f.c (f.t ++ f.p) (0#4 ++ f.a) (0#4 ++ f.b)

def LaneX.parse {α : Type} (ok : LaneX → Bool) (mk : LaneX → α) (r : Raw) (x : Word) : Option α :=
  match LSrc.ofCode r.a, LSrc.ofCode r.b, Ext.ofWord x with
  | some a, some b, some e => keep (ok ⟨r.s, r.c, r.d, a, b, e⟩) (mk ⟨r.s, r.c, r.d, a, b, e⟩)
  | _, _, _ => none
def LaneX.enc (op : BitVec 9) (f : LaneX) : Word × Option Word := Raw.two op f.s f.c f.d f.a.code f.b.code f.ext.word

def LaneX1.parse {α : Type} (ok : LaneX1 → Bool) (mk : LaneX1 → α) (r : Raw) (x : Word) : Option α :=
  match LSrc.ofCode r.a, Ext.ofWord x with
  | some a, some e => keep (ok ⟨r.s, r.c, r.d, a, e⟩ && decide (r.b = 0#7)) (mk ⟨r.s, r.c, r.d, a, e⟩)
  | _, _ => none
def LaneX1.enc (op : BitVec 9) (f : LaneX1) : Word × Option Word := Raw.two op f.s f.c f.d f.a.code 0#7 f.ext.word

def LaneXP.parse {α : Type} (ok : LaneXP → Bool) (mk : LaneXP → α) (r : Raw) (x : Word) : Option α :=
  match LSrc.ofCode r.a, LSrc.ofCode r.b, Ext.ofWord x with
  | some a, some b, some e =>
    keep (ok ⟨r.c, Cond.ofCode (r.d.extractLsb' 4 3), r.d.extractLsb' 0 3, a, b, e⟩ && !r.s && !r.d.getLsbD 3) (mk ⟨r.c, Cond.ofCode (r.d.extractLsb' 4 3), r.d.extractLsb' 0 3, a, b, e⟩)
  | _, _, _ => none
def LaneXP.enc (op : BitVec 9) (f : LaneXP) : Word × Option Word :=
  Raw.two op false f.c (f.cond.code ++ 0#1 ++ f.p) f.a.code f.b.code f.ext.word

def LaneX3.parse {α : Type} (ok : LaneX3 → Bool) (mk : LaneX3 → α) (r : Raw) (x : Word) : Option α :=
  match LSrc.ofCode r.a, LSrc.ofCode r.b, modPay x with
  | some a, some b, some (vc, m, reuse) =>
    match LSrc.ofCode vc with
    | some v => keep (ok ⟨r.s, r.c, r.d, a, b, v, m⟩ && !reuse) (mk ⟨r.s, r.c, r.d, a, b, v, m⟩)
    | none => none
  | _, _, _ => none
def LaneX3.enc (op : BitVec 9) (f : LaneX3) : Word × Option Word :=
  Raw.two op f.s f.c f.d f.a.code f.b.code (modWord f.vc.code f.m false)

def LaneSel.parse {α : Type} (ok : LaneSel → Bool) (mk : LaneSel → α) (r : Raw) (x : Word) : Option α :=
  match LSrc.ofCode r.a, LSrc.ofCode r.b, modPay x with
  | some a, some b, some (vc, m, reuse) =>
    keep (ok ⟨r.s, r.c, r.d, a, b, vc.extractLsb' 0 3, m⟩ && !reuse && decide (vc.extractLsb' 3 4 = 0#4)) (mk ⟨r.s, r.c, r.d, a, b, vc.extractLsb' 0 3, m⟩)
  | _, _, _ => none
def LaneSel.enc (op : BitVec 9) (f : LaneSel) : Word × Option Word :=
  Raw.two op f.s f.c f.d f.a.code f.b.code (modWord (0#4 ++ f.k) f.m false)

def LaneLd.parse {α : Type} (ok : LaneLd → Bool) (mk : LaneLd → α) (r : Raw) : Option α :=
  match LSrc.ofCode r.a, LSrc.ofCode r.b with
  | some a, some b => keep (ok ⟨r.d, a, b⟩ && r.plain) (mk ⟨r.d, a, b⟩)
  | _, _ => none
def LaneLd.enc (op : BitVec 9) (f : LaneLd) : Word × Option Word := Raw.one op f.d f.a.code f.b.code

def LaneLd.parseQ {α : Type} (ok : LaneLd → Qual → Bool) (mk : LaneLd → Qual → α) (r : Raw) (x : Word) : Option α :=
  match LSrc.ofCode r.a, LSrc.ofCode r.b, Qual.ofWord x with
  | some a, some b, some q => keep (ok ⟨r.d, a, b⟩ q && r.plain) (mk ⟨r.d, a, b⟩ q)
  | _, _, _ => none
def LaneLd.encQ (op : BitVec 9) (q : Qual) (f : LaneLd) : Word × Option Word :=
  Raw.two op false false f.d f.a.code f.b.code q.word

def LaneLd.parseK {α : Type} (ok : LaneLd → BitVec 28 → Bool) (mk : LaneLd → BitVec 28 → α) (r : Raw) (x : Word) : Option α :=
  match LSrc.ofCode r.a, LSrc.ofCode r.b, litPay x with
  | some a, some b, some k => keep (ok ⟨r.d, a, b⟩ k && r.plain) (mk ⟨r.d, a, b⟩ k)
  | _, _, _ => none
def LaneLd.encK (op : BitVec 9) (k : BitVec 28) (f : LaneLd) : Word × Option Word :=
  Raw.two op false false f.d f.a.code f.b.code (litWord k)

def LaneSt.parse {α : Type} (ok : LaneSt → Bool) (mk : LaneSt → α) (r : Raw) : Option α :=
  match LSrc.ofCode r.d, LSrc.ofCode r.a, LSrc.ofCode r.b with
  | some t, some a, some b => keep (ok ⟨t, a, b⟩ && r.plain) (mk ⟨t, a, b⟩)
  | _, _, _ => none
def LaneSt.enc (op : BitVec 9) (f : LaneSt) : Word × Option Word := Raw.one op f.t.code f.a.code f.b.code

def LaneSt.parseQ {α : Type} (ok : LaneSt → Qual → Bool) (mk : LaneSt → Qual → α) (r : Raw) (x : Word) : Option α :=
  match LSrc.ofCode r.d, LSrc.ofCode r.a, LSrc.ofCode r.b, Qual.ofWord x with
  | some t, some a, some b, some q => keep (ok ⟨t, a, b⟩ q && r.plain) (mk ⟨t, a, b⟩ q)
  | _, _, _, _ => none
def LaneSt.encQ (op : BitVec 9) (q : Qual) (f : LaneSt) : Word × Option Word :=
  Raw.two op false false f.t.code f.a.code f.b.code q.word

def LaneCvt.parse {α : Type} (ok : LaneCvt → Bool) (mk : LaneCvt → α) (r : Raw) (x : Word) : Option α :=
  match LSrc.ofCode r.a, CvtOp.ofWord x with
  | some a, some (o, rd) => keep (ok ⟨r.s, r.c, r.d, a, o, rd⟩ && decide (r.b = 0#7)) (mk ⟨r.s, r.c, r.d, a, o, rd⟩)
  | _, _ => none
def LaneCvt.enc (op : BitVec 9) (f : LaneCvt) : Word × Option Word :=
  Raw.two op f.s f.c f.d f.a.code 0#7 (litWord (f.op.payload f.round))

def LaneBox.parse {α : Type} (ok : LaneBox → Bool) (mk : LaneBox → α) (r : Raw) (x : Word) : Option α :=
  match litPay x, LSrc.ofCode r.b, ctrOf r.d (x.extractLsb' 6 3) with
  | some _, some o, some ctr =>
    keep (ok ⟨ctr, r.a, o, x.extractLsb' 20 8, x.extractLsb' 17 3, x.extractLsb' 13 4, x.extractLsb' 9 4, x.getLsbD 5⟩ && r.plain && decide (x.extractLsb' 0 5 = 0#5)) (mk ⟨ctr, r.a, o, x.extractLsb' 20 8, x.extractLsb' 17 3, x.extractLsb' 13 4, x.extractLsb' 9 4, x.getLsbD 5⟩)
  | _, _, _ => none
def LaneBox.enc (op : BitVec 9) (f : LaneBox) : Word × Option Word :=
  Raw.two op false false (ctrReg f.ctr) f.x f.o.code
    (litWord (f.tx ++ f.n ++ f.e0 ++ f.e1 ++ ctrScope f.ctr ++ BitVec.ofBool f.q ++ 0#5))

def LaneCpyG.parse {α : Type} (ok : LaneCpyG → Bool) (mk : LaneCpyG → α) (r : Raw) (x : Word) : Option α :=
  match litPay x, LSrc.ofCode r.a, LSrc.ofCode r.b, ctrOf r.d (x.extractLsb' 5 3), CpyQ.ofCode (x.extractLsb' 3 2) with
  | some _, some a, some b, some ctr, some q =>
    keep (ok ⟨ctr, a, b, x.extractLsb' 8 20, q⟩ && r.plain && decide (x.extractLsb' 0 3 = 0#3)) (mk ⟨ctr, a, b, x.extractLsb' 8 20, q⟩)
  | _, _, _, _, _ => none
def LaneCpyG.enc (op : BitVec 9) (f : LaneCpyG) : Word × Option Word :=
  Raw.two op false false (ctrReg f.ctr) f.a.code f.b.code (litWord (f.len ++ ctrScope f.ctr ++ f.q.code ++ 0#3))

/-- The rim window payload (R325). -/
def LaneRim.parse {α : Type} (ok : LaneRim → Bool) (mk : LaneRim → α) (r : Raw) (x : Word) : Option α :=
  match litPay x, LSrc.ofCode r.a, LSrc.ofCode r.b, ctrOf r.d (x.extractLsb' 2 3), Round.ofCode (x.extractLsb' 5 3) with
  | some _, some xs, some o, some ctr, some rd =>
    keep (ok ⟨ctr, xs, o, x.extractLsb' 25 3, x.extractLsb' 17 8, x.extractLsb' 14 3, x.extractLsb' 11 3, x.extractLsb' 8 3, rd,
        x.getLsbD 1⟩ && r.plain && !x.getLsbD 0) (mk ⟨ctr, xs, o, x.extractLsb' 25 3, x.extractLsb' 17 8, x.extractLsb' 14 3, x.extractLsb' 11 3, x.extractLsb' 8 3, rd,
        x.getLsbD 1⟩)
  | _, _, _, _, _ => none
def LaneRim.enc (op : BitVec 9) (f : LaneRim) : Word × Option Word :=
  Raw.two op false false (ctrReg f.ctr) f.x.code f.o.code
    (litWord (f.tile ++ f.tx ++ f.n ++ f.er ++ f.ec ++ f.round.code ++ ctrScope f.ctr ++ BitVec.ofBool f.circle ++ 0#1))

def LaneMtile.parse {α : Type} (ok : LaneMtile → Bool) (mk : LaneMtile → α) (r : Raw) (x : Word) : Option α :=
  let w := r.toWord
  match modPay x with
  | some (vc, m, reuse) =>
    match ctrOf vc (w.extractLsb' 5 3) with
    | some ctr =>
      keep (ok ⟨w.extractLsb' 18 3, w.extractLsb' 13 5, w.extractLsb' 8 5, ctr, m.guard, reuse⟩ && r.plain && decide (w.extractLsb' 0 5 = 0#5) && decide (m = Modif.only m.guard)) (mk ⟨w.extractLsb' 18 3, w.extractLsb' 13 5, w.extractLsb' 8 5, ctr, m.guard, reuse⟩)
    | none => none
  | none => none
def LaneMtile.enc (op : BitVec 9) (f : LaneMtile) : Word × Option Word :=
  (op ++ 0#2 ++ f.rim ++ f.sa ++ f.sb ++ ctrScope f.ctr ++ 0#5, some (modWord (ctrReg f.ctr) (Modif.only f.guard) f.reuse))

/-- Format B (R45). -/
def Branch.parse {α : Type} (ok : Branch → Bool) (mk : Branch → α) (r : Raw) (x : Word) : Option α :=
  let w := r.toWord
  match litPay x with
  | some p => keep (ok ⟨w.extractLsb' 5 16, w.extractLsb' 2 3, w.getLsbD 1, p⟩ && r.plain && !w.getLsbD 0) (mk ⟨w.extractLsb' 5 16, w.extractLsb' 2 3, w.getLsbD 1, p⟩)
  | none => none
def Branch.enc (op : BitVec 9) (f : Branch) : Word × Option Word :=
  (op ++ 0#2 ++ f.prio ++ f.p ++ BitVec.ofBool f.pol ++ 0#1, some (litWord f.off))

def UniR.parse {α : Type} (ok : UniR → Bool) (mk : UniR → α) (r : Raw) : Option α :=
  match UDst.ofCode r.d, USrc.ofCode r.a, USrc.ofCode r.b with
  | some d, some a, some b => keep (ok ⟨r.c, d, a, b⟩ && !r.s) (mk ⟨r.c, d, a, b⟩)
  | _, _, _ => none
def UniR.enc (op : BitVec 9) (f : UniR) : Word × Option Word := Raw.oneSC op false f.c f.d.code f.a.code f.b.code

def UniR1.parse {α : Type} (ok : UniR1 → Bool) (mk : UniR1 → α) (r : Raw) : Option α :=
  match UDst.ofCode r.d, USrc.ofCode r.a with
  | some d, some a => keep (ok ⟨r.c, d, a⟩ && !r.s && decide (r.b = 0#7)) (mk ⟨r.c, d, a⟩)
  | _, _ => none
def UniR1.enc (op : BitVec 9) (f : UniR1) : Word × Option Word := Raw.oneSC op false f.c f.d.code f.a.code 0#7

def UniP.parse {α : Type} (ok : UniP → Bool) (mk : UniP → α) (r : Raw) : Option α :=
  match USrc.ofCode r.a, USrc.ofCode r.b with
  | some a, some b =>
    keep (ok ⟨r.c, Cond.ofCode (r.d.extractLsb' 4 3), r.d.extractLsb' 0 2, a, b⟩ && !r.s && decide (r.d.extractLsb' 2 2 = 0#2)) (mk ⟨r.c, Cond.ofCode (r.d.extractLsb' 4 3), r.d.extractLsb' 0 2, a, b⟩)
  | _, _ => none
def UniP.enc (op : BitVec 9) (f : UniP) : Word × Option Word :=
  Raw.oneSC op false f.c (f.cond.code ++ 0#2 ++ f.p) f.a.code f.b.code

def UniPlog.parse {α : Type} (ok : UniPlog → Bool) (mk : UniPlog → α) (r : Raw) : Option α :=
  keep (ok ⟨r.c, r.d.extractLsb' 3 4, r.d.extractLsb' 0 2, r.a.extractLsb' 0 3, r.b.extractLsb' 0 3⟩ && !r.s && !r.d.getLsbD 2 && decide (r.a.extractLsb' 3 4 = 0#4) && decide (r.b.extractLsb' 3 4 = 0#4)) (mk ⟨r.c, r.d.extractLsb' 3 4, r.d.extractLsb' 0 2, r.a.extractLsb' 0 3, r.b.extractLsb' 0 3⟩)
def UniPlog.enc (op : BitVec 9) (f : UniPlog) : Word × Option Word :=
  Raw.oneSC op false f.c (f.t ++ 0#1 ++ f.p) (0#4 ++ f.a) (0#4 ++ f.b)

def UniX.parse {α : Type} (ok : UniX → Bool) (mk : UniX → α) (r : Raw) (x : Word) : Option α :=
  match UDst.ofCode r.d, USrc.ofCode r.a, USrc.ofCode r.b, Ext.ofWord x with
  | some d, some a, some b, some e => keep (ok ⟨r.c, d, a, b, e⟩ && !r.s) (mk ⟨r.c, d, a, b, e⟩)
  | _, _, _, _ => none
def UniX.enc (op : BitVec 9) (f : UniX) : Word × Option Word := Raw.two op false f.c f.d.code f.a.code f.b.code f.ext.word

def UniX1.parse {α : Type} (ok : UniX1 → Bool) (mk : UniX1 → α) (r : Raw) (x : Word) : Option α :=
  match UDst.ofCode r.d, USrc.ofCode r.a, Ext.ofWord x with
  | some d, some a, some e => keep (ok ⟨r.c, d, a, e⟩ && !r.s && decide (r.b = 0#7)) (mk ⟨r.c, d, a, e⟩)
  | _, _, _ => none
def UniX1.enc (op : BitVec 9) (f : UniX1) : Word × Option Word := Raw.two op false f.c f.d.code f.a.code 0#7 f.ext.word

def UniXP.parse {α : Type} (ok : UniXP → Bool) (mk : UniXP → α) (r : Raw) (x : Word) : Option α :=
  match USrc.ofCode r.a, USrc.ofCode r.b, Ext.ofWord x with
  | some a, some b, some e =>
    keep (ok ⟨r.c, Cond.ofCode (r.d.extractLsb' 4 3), r.d.extractLsb' 0 2, a, b, e⟩ && !r.s && decide (r.d.extractLsb' 2 2 = 0#2)) (mk ⟨r.c, Cond.ofCode (r.d.extractLsb' 4 3), r.d.extractLsb' 0 2, a, b, e⟩)
  | _, _, _ => none
def UniXP.enc (op : BitVec 9) (f : UniXP) : Word × Option Word :=
  Raw.two op false f.c (f.cond.code ++ 0#2 ++ f.p) f.a.code f.b.code f.ext.word

def UniX3.parse {α : Type} (ok : UniX3 → Bool) (mk : UniX3 → α) (r : Raw) (x : Word) : Option α :=
  match UDst.ofCode r.d, USrc.ofCode r.a, USrc.ofCode r.b, modPay x with
  | some d, some a, some b, some (vc, m, reuse) =>
    match USrc.ofCode vc with
    | some v => keep (ok ⟨r.c, d, a, b, v, m⟩ && !r.s && !reuse) (mk ⟨r.c, d, a, b, v, m⟩)
    | none => none
  | _, _, _, _ => none
def UniX3.enc (op : BitVec 9) (f : UniX3) : Word × Option Word :=
  Raw.two op false f.c f.d.code f.a.code f.b.code (modWord f.vc.code f.m false)

def UniSel.parse {α : Type} (ok : UniSel → Bool) (mk : UniSel → α) (r : Raw) (x : Word) : Option α :=
  match UDst.ofCode r.d, USrc.ofCode r.a, USrc.ofCode r.b, modPay x with
  | some d, some a, some b, some (vc, m, reuse) =>
    keep (ok ⟨r.c, d, a, b, vc.extractLsb' 0 3, m⟩ && !r.s && !reuse && decide (vc.extractLsb' 3 4 = 0#4)) (mk ⟨r.c, d, a, b, vc.extractLsb' 0 3, m⟩)
  | _, _, _, _ => none
def UniSel.enc (op : BitVec 9) (f : UniSel) : Word × Option Word :=
  Raw.two op false f.c f.d.code f.a.code f.b.code (modWord (0#4 ++ f.k) f.m false)

def UniLd.parse {α : Type} (ok : UniLd → Bool) (mk : UniLd → α) (r : Raw) : Option α :=
  match UDst.ofCode r.d, USrc.ofCode r.a, USrc.ofCode r.b with
  | some d, some a, some b => keep (ok ⟨d, a, b⟩ && r.plain) (mk ⟨d, a, b⟩)
  | _, _, _ => none
def UniLd.enc (op : BitVec 9) (f : UniLd) : Word × Option Word := Raw.one op f.d.code f.a.code f.b.code

def UniLd.parseQ {α : Type} (ok : UniLd → Qual → Bool) (mk : UniLd → Qual → α) (r : Raw) (x : Word) : Option α :=
  match UDst.ofCode r.d, USrc.ofCode r.a, USrc.ofCode r.b, Qual.ofWord x with
  | some d, some a, some b, some q => keep (ok ⟨d, a, b⟩ q && r.plain) (mk ⟨d, a, b⟩ q)
  | _, _, _, _ => none
def UniLd.encQ (op : BitVec 9) (q : Qual) (f : UniLd) : Word × Option Word :=
  Raw.two op false false f.d.code f.a.code f.b.code q.word

def UniLd.parseK {α : Type} (ok : UniLd → BitVec 28 → Bool) (mk : UniLd → BitVec 28 → α) (r : Raw) (x : Word) : Option α :=
  match UDst.ofCode r.d, USrc.ofCode r.a, USrc.ofCode r.b, litPay x with
  | some d, some a, some b, some k => keep (ok ⟨d, a, b⟩ k && r.plain) (mk ⟨d, a, b⟩ k)
  | _, _, _, _ => none
def UniLd.encK (op : BitVec 9) (k : BitVec 28) (f : UniLd) : Word × Option Word :=
  Raw.two op false false f.d.code f.a.code f.b.code (litWord k)

def UniSt.parse {α : Type} (ok : UniSt → Bool) (mk : UniSt → α) (r : Raw) : Option α :=
  match USrc.ofCode r.d, USrc.ofCode r.a, USrc.ofCode r.b with
  | some t, some a, some b => keep (ok ⟨t, a, b⟩ && r.plain) (mk ⟨t, a, b⟩)
  | _, _, _ => none
def UniSt.enc (op : BitVec 9) (f : UniSt) : Word × Option Word := Raw.one op f.t.code f.a.code f.b.code

def UniSt.parseQ {α : Type} (ok : UniSt → Qual → Bool) (mk : UniSt → Qual → α) (r : Raw) (x : Word) : Option α :=
  match USrc.ofCode r.d, USrc.ofCode r.a, USrc.ofCode r.b, Qual.ofWord x with
  | some t, some a, some b, some q => keep (ok ⟨t, a, b⟩ q && r.plain) (mk ⟨t, a, b⟩ q)
  | _, _, _, _ => none
def UniSt.encQ (op : BitVec 9) (q : Qual) (f : UniSt) : Word × Option Word :=
  Raw.two op false false f.t.code f.a.code f.b.code q.word

def UniCvt.parse {α : Type} (ok : UniCvt → Bool) (mk : UniCvt → α) (r : Raw) (x : Word) : Option α :=
  match UDst.ofCode r.d, USrc.ofCode r.a, CvtOp.ofWord x with
  | some d, some a, some (o, rd) => keep (ok ⟨r.c, d, a, o, rd⟩ && !r.s && decide (r.b = 0#7)) (mk ⟨r.c, d, a, o, rd⟩)
  | _, _, _ => none
def UniCvt.enc (op : BitVec 9) (f : UniCvt) : Word × Option Word :=
  Raw.two op false f.c f.d.code f.a.code 0#7 (litWord (f.op.payload f.round))

def UniBox.parse {α : Type} (ok : UniBox → Bool) (mk : UniBox → α) (r : Raw) (x : Word) : Option α :=
  match litPay x, sOfCode r.a, USrc.ofCode r.b, uCtrOf r.d (x.extractLsb' 6 3) with
  | some _, some c, some o, some ctr =>
    keep (ok ⟨ctr, c, o, x.extractLsb' 20 8, x.extractLsb' 17 3, x.extractLsb' 13 4, x.extractLsb' 9 4, x.getLsbD 5⟩ && r.plain && decide (x.extractLsb' 0 5 = 0#5)) (mk ⟨ctr, c, o, x.extractLsb' 20 8, x.extractLsb' 17 3, x.extractLsb' 13 4, x.extractLsb' 9 4, x.getLsbD 5⟩)
  | _, _, _, _ => none
def UniBox.enc (op : BitVec 9) (f : UniBox) : Word × Option Word :=
  Raw.two op false false (uCtrReg f.ctr) (0#1 ++ f.x) f.o.code
    (litWord (f.tx ++ f.n ++ f.e0 ++ f.e1 ++ ctrScope f.ctr ++ BitVec.ofBool f.q ++ 0#5))

def UniCpyG.parse {α : Type} (ok : UniCpyG → Bool) (mk : UniCpyG → α) (r : Raw) (x : Word) : Option α :=
  match litPay x, USrc.ofCode r.a, USrc.ofCode r.b, uCtrOf r.d (x.extractLsb' 5 3), CpyQ.ofCode (x.extractLsb' 3 2) with
  | some _, some a, some b, some ctr, some q =>
    keep (ok ⟨ctr, a, b, x.extractLsb' 8 20, q⟩ && r.plain && decide (x.extractLsb' 0 3 = 0#3)) (mk ⟨ctr, a, b, x.extractLsb' 8 20, q⟩)
  | _, _, _, _, _ => none
def UniCpyG.enc (op : BitVec 9) (f : UniCpyG) : Word × Option Word :=
  Raw.two op false false (uCtrReg f.ctr) f.a.code f.b.code (litWord (f.len ++ ctrScope f.ctr ++ f.q.code ++ 0#3))

/-- One field for each constructor of the map of 03 R53: what the decoder makes of its operands. -/
structure Uni00 (α : Type) where
  uAdd32 : UniR → α
  uSub32 : UniR → α
  uMul32 : UniR → α
  uMulhiN32 : UniR → α
  uMulhiI32 : UniR → α
  uIdivN32 : UniR → α
  uIdivI32 : UniR → α
  uRemN32 : UniR → α
  uRemI32 : UniR → α
  uAndB32 : UniR → α
  uOrB32 : UniR → α
  uXorB32 : UniR → α
  uShlB32 : UniR → α
  uShrB32 : UniR → α
  uSarB32 : UniR → α
  uMinN32 : UniR → α
  uMinI32 : UniR → α
  uMaxN32 : UniR → α
  uMaxI32 : UniR → α
  uAdd64 : UniR → α
  uSub64 : UniR → α
  uMul64 : UniR → α
  uShlB64 : UniR → α
  uShrB64 : UniR → α
  uCmpN32 : UniP → α
  uCmpI32 : UniP → α
  uCmpN64 : UniP → α
  uCmpI64 : UniP → α
  uPlog : UniPlog → α
  uMovB32 : UniR1 → α
  uMovB64 : UniR1 → α
  uPopcB32 : UniR1 → α
  uAdd32X : UniX → α
  uSub32X : UniX → α
  uMul32X : UniX → α
  uAndB32X : UniX → α
  uOrB32X : UniX → α
  uXorB32X : UniX → α
  uShlB32X : UniX → α
  uShrB32X : UniX → α
  uSarB32X : UniX → α
  uMinN32X : UniX → α
  uMinI32X : UniX → α
  uMaxN32X : UniX → α
  uMaxI32X : UniX → α
  uAdd64X : UniX → α
  uCmpN32X : UniXP → α
  uCmpI32X : UniXP → α
  uCmpN64X : UniXP → α
  uCmpI64X : UniXP → α
  uMovB32X : UniX1 → α
  uMovB64X : UniX1 → α
  uSelB32 : UniSel → α
  uSelB64 : UniSel → α
  uBfeN32 : UniX → α
  uMad32 : UniX3 → α
  uFaddF32 : UniX → α
  uFmulF32 : UniX → α
  uFfmaF32 : UniX3 → α
  uFcmpF32 : UniXP → α
  uFaddF64 : UniX → α
  uFmulF64 : UniX → α
  uFfmaF64 : UniX3 → α
  uCvt : UniCvt → α

/-- One field for each constructor of the map of 03 R54: what the decoder makes of its operands. -/
structure Uni01 (α : Type) where
  sBra : Branch → α
  sBrx : USrc → USrc → BitVec 28 → α
  sCall : Branch → α
  sRet : USrc → α
  sExit : α
  dpush : USrc → Bool → α
  dpop : UDst → Bool → α
  bucket : BitVec 6 → BitVec 6 → BitVec 2 → α
  nodeput : UDst → USrc → α
  waitn : UDst → USrc → USrc → BitVec 28 → α
  ckpt : α
  yield : α
  sNop : α

/-- One field for each constructor of the map of 03 R55: what the decoder makes of its operands. -/
structure Uni10 (α : Type) where
  uLdGB32 : UniLd → α
  uLdGB64 : UniLd → α
  uStGB32 : UniSt → α
  uStGB64 : UniSt → α
  uLdCmB32 : UniLd → α
  uLdCmB64 : UniLd → α
  uStCmB32 : UniSt → α
  uStCmB64 : UniSt → α
  uLdGQual : UniLd → Qual → α
  uStGQual : UniSt → Qual → α
  uLdCmQual : UniLd → Qual → α
  uStCmQual : UniSt → Qual → α
  uLdkB32 : UniLd → BitVec 28 → α
  uLdkB64 : UniLd → BitVec 28 → α
  uAtom : UniLd → AtomOp → AtomQ → α
  uFence : FenceKind → Scope → α
  uAlloc : BitVec 6 → USrc → Bool → BitVec 3 → α
  uFree : USrc → α
  uCpyIn : UniBox → α
  uCpyOut : UniBox → α
  uCpyG : UniCpyG → α
  uWaitc : USrc → USrc → BitVec 28 → α
  uQfence : BitVec 4 → α
  rdcnt : BitVec 6 → USrc → α
  csrr : UDst → BitVec 12 → α
  csrw : USrc → BitVec 12 → α
  rft : α
  fgetPc : BitVec 6 → α
  fgetMask : UDst → α
  fgetPrio : UDst → α
  fgetReg : UDst → BitVec 5 → BitVec 7 → α
  fsetPc : USrc → α
  fsetMask : USrc → α
  fsetReg : USrc → BitVec 5 → BitVec 7 → α
  xlinv : USrc → USrc → Scope → α
  injsetSeed : USrc → α
  injsetRate : USrc → α
  injsetClasses : USrc → α
  injsetShot : USrc → α
  injsetArm : USrc → α


/-! ## Forms with a layout of their own -/

def parse0 {α : Type} (i : α) (r : Raw) : Option α :=
  keep (r.plain && decide (r.d = 0#7) && decide (r.a = 0#7) && decide (r.b = 0#7)) i

def parseA {α : Type} (ok : LSrc → Bool) (mk : LSrc → α) (r : Raw) : Option α :=
  match LSrc.ofCode r.a with
  | some a => keep (ok a && r.plain && decide (r.d = 0#7) && decide (r.b = 0#7)) (mk a)
  | none => none

def parseUA {α : Type} (ok : USrc → Bool) (mk : USrc → α) (r : Raw) : Option α :=
  match USrc.ofCode r.a with
  | some a => keep (ok a && r.plain && decide (r.d = 0#7) && decide (r.b = 0#7)) (mk a)
  | none => none

def parseAB {α : Type} (ok : LSrc → LSrc → Bool) (mk : LSrc → LSrc → α) (r : Raw) : Option α :=
  match LSrc.ofCode r.a, LSrc.ofCode r.b with
  | some a, some b => keep (ok a b && r.plain && decide (r.d = 0#7)) (mk a b)
  | _, _ => none

def parseLitA {α : Type} (ok : LSrc → BitVec 28 → Bool) (mk : LSrc → BitVec 28 → α) (r : Raw) (x : Word) : Option α :=
  match LSrc.ofCode r.a, litPay x with
  | some a, some k => keep (ok a k && r.plain && decide (r.d = 0#7) && decide (r.b = 0#7)) (mk a k)
  | _, _ => none

def parseLitAB {α : Type} (ok : LSrc → LSrc → BitVec 28 → Bool) (mk : LSrc → LSrc → BitVec 28 → α) (r : Raw) (x : Word) : Option α :=
  match LSrc.ofCode r.a, LSrc.ofCode r.b, litPay x with
  | some a, some b, some k => keep (ok a b k && r.plain && decide (r.d = 0#7)) (mk a b k)
  | _, _, _ => none

def parseULitAB {α : Type} (ok : USrc → USrc → BitVec 28 → Bool) (mk : USrc → USrc → BitVec 28 → α) (r : Raw) (x : Word) : Option α :=
  match USrc.ofCode r.a, USrc.ofCode r.b, litPay x with
  | some a, some b, some k => keep (ok a b k && r.plain && decide (r.d = 0#7)) (mk a b k)
  | _, _, _ => none

def parseLdt {α : Type} (ok : BitVec 7 → BitVec 7 → BitVec 8 → BitVec 3 → Bool → Bool) (mk : BitVec 7 → BitVec 7 → BitVec 8 → BitVec 3 → Bool → α) (r : Raw) (x : Word) : Option α :=
  match litPay x with
  | some _ =>
    keep (ok r.d r.a (x.extractLsb' 20 8) (x.extractLsb' 17 3) (x.getLsbD 14) && r.plain && decide (r.b = 0#7) && decide (x.extractLsb' 15 2 = 0#2) && decide (x.extractLsb' 0 14 = 0#14)) (mk r.d r.a (x.extractLsb' 20 8) (x.extractLsb' 17 3) (x.getLsbD 14))
  | none => none

def parseStt {α : Type} (ok : LSrc → BitVec 7 → BitVec 8 → BitVec 3 → Bool → Round → Bool) (mk : LSrc → BitVec 7 → BitVec 8 → BitVec 3 → Bool → Round → α) (r : Raw) (x : Word) : Option α :=
  match litPay x, LSrc.ofCode r.d, Round.ofCode (x.extractLsb' 11 3) with
  | some _, some t, some rd =>
    keep (ok t r.a (x.extractLsb' 20 8) (x.extractLsb' 17 3) (x.getLsbD 14) rd && r.plain && decide (r.b = 0#7) && decide (x.extractLsb' 15 2 = 0#2) && decide (x.extractLsb' 0 11 = 0#11)) (mk t r.a (x.extractLsb' 20 8) (x.extractLsb' 17 3) (x.getLsbD 14) rd)
  | _, _, _ => none

def parseAtom {α : Type} (ok : LaneLd → AtomOp → AtomQ → Bool) (mk : LaneLd → AtomOp → AtomQ → α) (r : Raw) (x : Word) : Option α :=
  match LSrc.ofCode r.a, LSrc.ofCode r.b, AtomQ.ofWord x with
  | some a, some b, some (o, q) =>
    match AtomOp.ofCode o with
    | some op => keep (ok ⟨r.d, a, b⟩ op q && r.plain) (mk ⟨r.d, a, b⟩ op q)
    | none => none
  | _, _, _ => none

def parseAtomCas {α : Type} (ok : LaneLd → AtomQ → Bool) (mk : LaneLd → AtomQ → α) (r : Raw) (x : Word) : Option α :=
  match LSrc.ofCode r.a, LSrc.ofCode r.b, AtomQ.ofWord x with
  | some a, some b, some (o, q) => keep (ok ⟨r.d, a, b⟩ q && r.plain && decide (o = 0#4)) (mk ⟨r.d, a, b⟩ q)
  | _, _, _ => none

def parseUAtom {α : Type} (ok : UniLd → AtomOp → AtomQ → Bool) (mk : UniLd → AtomOp → AtomQ → α) (r : Raw) (x : Word) : Option α :=
  match UDst.ofCode r.d, USrc.ofCode r.a, USrc.ofCode r.b, AtomQ.ofWord x with
  | some d, some a, some b, some (o, q) =>
    match AtomOp.ofCode o with
    | some op => keep (ok ⟨d, a, b⟩ op q && r.plain) (mk ⟨d, a, b⟩ op q)
    | none => none
  | _, _, _, _ => none

def parseFence {α : Type} (ok : FenceKind → Scope → Bool) (mk : FenceKind → Scope → α) (r : Raw) : Option α :=
  match FenceKind.ofCode (r.b.extractLsb' 3 2) with
  | some k =>
    keep (ok k (Scope.ofCode (r.b.extractLsb' 0 3)) && r.plain && decide (r.d = 0#7) && decide (r.a = 0#7) && decide (r.b.extractLsb' 5 2 = 0#2)) (mk k (Scope.ofCode (r.b.extractLsb' 0 3)))
  | none => none

def parseAlloc {α : Type} (ok : BitVec 7 → LSrc → Bool → BitVec 3 → Bool) (mk : BitVec 7 → LSrc → Bool → BitVec 3 → α) (r : Raw) (x : Word) : Option α :=
  match litPay x, LSrc.ofCode r.a with
  | some _, some a =>
    keep (ok r.d a (x.getLsbD 3) (x.extractLsb' 0 3) && r.plain && decide (r.b = 0#7) && decide (x.extractLsb' 4 24 = 0#24)) (mk r.d a (x.getLsbD 3) (x.extractLsb' 0 3))
  | _, _ => none

def parseUAlloc {α : Type} (ok : BitVec 6 → USrc → Bool → BitVec 3 → Bool) (mk : BitVec 6 → USrc → Bool → BitVec 3 → α) (r : Raw) (x : Word) : Option α :=
  match litPay x, sOfCode r.d, USrc.ofCode r.a with
  | some _, some d, some a =>
    keep (ok d a (x.getLsbD 3) (x.extractLsb' 0 3) && r.plain && decide (r.b = 0#7) && decide (x.extractLsb' 4 24 = 0#24)) (mk d a (x.getLsbD 3) (x.extractLsb' 0 3))
  | _, _, _ => none

def parseQfence {α : Type} (ok : BitVec 4 → Bool) (mk : BitVec 4 → α) (r : Raw) : Option α :=
  keep (ok (r.b.extractLsb' 0 4) && r.plain && decide (r.d = 0#7) && decide (r.a = 0#7) && decide (r.b.extractLsb' 4 3 = 0#3)) (mk (r.b.extractLsb' 0 4))

def parseUnits {α : Type} (ok : BitVec 7 → BitVec 6 → Bool) (mk : BitVec 7 → BitVec 6 → α) (r : Raw) (x : Word) : Option α :=
  match litPay x with
  | some _ =>
    keep (ok r.d (x.extractLsb' 0 6) && r.plain && decide (r.a = 125#7) && decide (r.b = 0#7) && decide (x.extractLsb' 6 22 = 0#22)) (mk r.d (x.extractLsb' 0 6))
  | none => none

def parseStkLd {α : Type} (ok : Option (BitVec 7 × Scope) → BitVec 7 → BitVec 5 → BitVec 8 → BitVec 3 → Bool) (mk : Option (BitVec 7 × Scope) → BitVec 7 → BitVec 5 → BitVec 8 → BitVec 3 → α) (r : Raw) (x : Word) : Option α :=
  match litPay x, ctrOf r.d (x.extractLsb' 9 3) with
  | some _, some ctr =>
    keep (ok ctr r.a (x.extractLsb' 23 5) (x.extractLsb' 15 8) (x.extractLsb' 12 3) && r.plain && decide (r.b = 0#7) && decide (x.extractLsb' 0 9 = 0#9)) (mk ctr r.a (x.extractLsb' 23 5) (x.extractLsb' 15 8) (x.extractLsb' 12 3))
  | _, _ => none

def parseRzero {α : Type} (ok : BitVec 3 → Bool) (mk : BitVec 3 → α) (r : Raw) : Option α :=
  keep (ok (r.d.extractLsb' 4 3) && r.plain && decide (r.d.extractLsb' 0 4 = 0#4) && decide (r.a = 0#7) && decide (r.b = 0#7)) (mk (r.d.extractLsb' 4 3))

def parseStat {α : Type} (ok : BitVec 7 → Bool → BitVec 3 → Bool) (mk : BitVec 7 → Bool → BitVec 3 → α) (r : Raw) : Option α :=
  keep (ok r.d (r.b.getLsbD 3) (r.b.extractLsb' 0 3) && r.plain && decide (r.a = 0#7) && decide (r.b.extractLsb' 4 3 = 0#3)) (mk r.d (r.b.getLsbD 3) (r.b.extractLsb' 0 3))

def parseSwitch {α : Type} (ok : LSrc → BitVec 4 → Bool) (mk : LSrc → BitVec 4 → α) (r : Raw) (x : Word) : Option α :=
  match litPay x, LSrc.ofCode r.a with
  | some _, some a =>
    keep (ok a (x.extractLsb' 24 4) && r.plain && decide (r.d = 0#7) && decide (r.b = 0#7) && decide (x.extractLsb' 0 24 = 0#24)) (mk a (x.extractLsb' 24 4))
  | _, _ => none

def parseScope {α : Type} (ok : BitVec 28 → Bool) (mk : BitVec 28 → α) (r : Raw) (x : Word) : Option α :=
  match litPay x with
  | some p => keep (ok p && r.plain && decide (r.d = 0#7) && decide (r.a = 125#7) && decide (r.b = 0#7)) (mk p)
  | none => none

def parseWpop {α : Type} (ok : BitVec 7 → BitVec 3 → Bool) (mk : BitVec 7 → BitVec 3 → α) (r : Raw) : Option α :=
  keep (ok r.d (r.b.extractLsb' 0 3) && r.plain && decide (r.a = 0#7) && decide (r.b.extractLsb' 3 4 = 0#4)) (mk r.d (r.b.extractLsb' 0 3))

def parseTrap {α : Type} (ok : BitVec 16 → Bool) (mk : BitVec 16 → α) (r : Raw) (x : Word) : Option α :=
  match litPay x with
  | some _ =>
    keep (ok (x.extractLsb' 0 16) && r.plain && decide (r.d = 0#7) && decide (r.a = 0#7) && decide (r.b = 0#7) && decide (x.extractLsb' 16 12 = 0#12)) (mk (x.extractLsb' 0 16))
  | none => none

/-- `calle`: payload bit 27 chooses the return form (R429). -/
def parseCalle (r : Raw) (x : Word) : Option Instr :=
  match litPay x with
  | some p =>
    if p.getLsbD 27 then
      keep (dstOk true r.d && r.plain && decide (r.a = 0#7) && decide (r.b = 0#7) && decide (p.extractLsb' 0 27 = 0#27)) (.calleRet r.d)
    else
      keep (dstOk true r.d && r.plain && decide (p.extractLsb' 21 5 = 0#5)) (.calle r.d (r.a ++ r.b) (p.getLsbD 26) (p.extractLsb' 0 21))
  | none => none

def parseLmode {α : Type} (ok : BitVec 2 → Bool) (mk : BitVec 2 → α) (r : Raw) : Option α :=
  keep (ok (r.b.extractLsb' 0 2) && r.plain && decide (r.d = 0#7) && decide (r.a = 0#7) && decide (r.b.extractLsb' 2 5 = 0#5)) (mk (r.b.extractLsb' 0 2))

def parseShuf {α : Type} (ok : BitVec 7 → BitVec 7 → LSrc → Bool) (mk : BitVec 7 → BitVec 7 → LSrc → α) (r : Raw) : Option α :=
  match LSrc.ofCode r.b with
  | some b => keep (ok r.d r.a b && r.plain) (mk r.d r.a b)
  | none => none

def parseVote {α : Type} (ok : BitVec 7 → BitVec 2 → BitVec 3 → Bool) (mk : BitVec 7 → BitVec 2 → BitVec 3 → α) (r : Raw) : Option α :=
  keep (ok r.d (r.a.extractLsb' 3 2) (r.a.extractLsb' 0 3) && r.plain && decide (r.b = 0#7) && decide (r.a.extractLsb' 5 2 = 0#2)) (mk r.d (r.a.extractLsb' 3 2) (r.a.extractLsb' 0 3))

def parseRed {α : Type} (ok : BitVec 7 → BitVec 7 → BitVec 4 → Bool) (mk : BitVec 7 → BitVec 7 → BitVec 4 → α) (r : Raw) : Option α :=
  keep (ok r.d r.a (r.b.extractLsb' 0 4) && r.plain && decide (r.b.extractLsb' 4 3 = 0#3)) (mk r.d r.a (r.b.extractLsb' 0 4))

def parseMovs {α : Type} (ok : Bool → Bool → BitVec 7 → USrc → Bool) (mk : Bool → Bool → BitVec 7 → USrc → α) (r : Raw) : Option α :=
  match USrc.ofCode r.a with
  | some a => keep (ok r.s r.c r.d a && decide (r.b = 0#7)) (mk r.s r.c r.d a)
  | none => none

def parseFcmpX2 {α : Type} (ok : Cond → BitVec 3 → LSrc → LSrc → Bool) (mk : Cond → BitVec 3 → LSrc → LSrc → α) (r : Raw) : Option α :=
  match LSrc.ofCode r.a, LSrc.ofCode r.b with
  | some a, some b => keep (ok (Cond.ofCode (r.d.extractLsb' 4 3)) (r.d.extractLsb' 0 3) a b && r.plain && !r.d.getLsbD 3) (mk (Cond.ofCode (r.d.extractLsb' 4 3)) (r.d.extractLsb' 0 3) a b)
  | _, _ => none

def parseHclr {α : Type} (ok : BitVec 3 → LSrc → BitVec 28 → Bool) (mk : BitVec 3 → LSrc → BitVec 28 → α) (r : Raw) (x : Word) : Option α :=
  match litPay x, LSrc.ofCode r.a with
  | some k, some a =>
    keep (ok (r.d.extractLsb' 4 3) a k && r.plain && decide (r.d.extractLsb' 0 4 = 0#4) && decide (r.b = 0#7)) (mk (r.d.extractLsb' 4 3) a k)
  | _, _ => none

def parseHfma {α : Type} (ok : BitVec 3 → Bool → LSrc → LSrc → Bool) (mk : BitVec 3 → Bool → LSrc → LSrc → α) (r : Raw) : Option α :=
  match LSrc.ofCode r.a, LSrc.ofCode r.b with
  | some a, some b =>
    keep (ok (r.d.extractLsb' 4 3) (r.d.getLsbD 0) a b && r.plain && decide (r.d.extractLsb' 1 3 = 0#3)) (mk (r.d.extractLsb' 4 3) (r.d.getLsbD 0) a b)
  | _, _ => none

def parseHfma3 {α : Type} (ok : BitVec 3 → Bool → LSrc → LSrc → LSrc → Guard → Bool) (mk : BitVec 3 → Bool → LSrc → LSrc → LSrc → Guard → α) (r : Raw) (x : Word) : Option α :=
  match LSrc.ofCode r.a, LSrc.ofCode r.b, modPay x with
  | some a, some b, some (vc, m, reuse) =>
    match LSrc.ofCode vc with
    | some c =>
      keep (ok (r.d.extractLsb' 4 3) (r.d.getLsbD 0) a b c m.guard && r.plain && decide (r.d.extractLsb' 1 3 = 0#3) && !reuse && decide (m = Modif.only m.guard)) (mk (r.d.extractLsb' 4 3) (r.d.getLsbD 0) a b c m.guard)
    | none => none
  | _, _, _ => none

def parseHadd {α : Type} (ok : BitVec 3 → Bool → LSrc → Bool) (mk : BitVec 3 → Bool → LSrc → α) (r : Raw) : Option α :=
  match LSrc.ofCode r.a with
  | some a =>
    keep (ok (r.d.extractLsb' 4 3) (r.d.getLsbD 0) a && r.plain && decide (r.d.extractLsb' 1 3 = 0#3) && decide (r.b = 0#7)) (mk (r.d.extractLsb' 4 3) (r.d.getLsbD 0) a)
  | none => none

def parseHsgn {α : Type} (ok : BitVec 7 → BitVec 3 → BitVec 3 → Bool) (mk : BitVec 7 → BitVec 3 → BitVec 3 → α) (r : Raw) : Option α :=
  keep (ok r.d (r.a.extractLsb' 4 3) (r.b.extractLsb' 0 3) && r.plain && decide (r.a.extractLsb' 0 4 = 0#4) && decide (r.b.extractLsb' 3 4 = 0#4)) (mk r.d (r.a.extractLsb' 4 3) (r.b.extractLsb' 0 3))

def parseHrnd {α : Type} (ok : BitVec 7 → BitVec 3 → Bool) (mk : BitVec 7 → BitVec 3 → α) (r : Raw) : Option α :=
  keep (ok r.d (r.a.extractLsb' 4 3) && r.plain && decide (r.a.extractLsb' 0 4 = 0#4) && decide (r.b = 0#7)) (mk r.d (r.a.extractLsb' 4 3))

def parseDpush {α : Type} (ok : USrc → Bool → Bool) (mk : USrc → Bool → α) (r : Raw) : Option α :=
  match USrc.ofCode r.a with
  | some a => keep (ok a (r.d.getLsbD 0) && r.plain && decide (r.d.extractLsb' 1 6 = 0#6) && decide (r.b = 0#7)) (mk a (r.d.getLsbD 0))
  | none => none

def parseDpop {α : Type} (ok : UDst → Bool → Bool) (mk : UDst → Bool → α) (r : Raw) : Option α :=
  match UDst.ofCode r.d with
  | some d => keep (ok d (r.b.getLsbD 0) && r.plain && decide (r.b.extractLsb' 1 6 = 0#6) && decide (r.a = 0#7)) (mk d (r.b.getLsbD 0))
  | none => none

def parseBucket {α : Type} (ok : BitVec 6 → BitVec 6 → BitVec 2 → Bool) (mk : BitVec 6 → BitVec 6 → BitVec 2 → α) (r : Raw) (x : Word) : Option α :=
  match litPay x, sOfCode r.d, sOfCode r.a with
  | some _, some d, some a =>
    keep (ok d a (x.extractLsb' 0 2) && r.plain && decide (r.b = 0#7) && decide (x.extractLsb' 2 26 = 0#26)) (mk d a (x.extractLsb' 0 2))
  | _, _, _ => none

def parseNodeput {α : Type} (ok : UDst → USrc → Bool) (mk : UDst → USrc → α) (r : Raw) : Option α :=
  match UDst.ofCode r.d, USrc.ofCode r.a with
  | some d, some a => keep (ok d a && r.plain && decide (r.b = 0#7)) (mk d a)
  | _, _ => none

def parseWaitn {α : Type} (ok : UDst → USrc → USrc → BitVec 28 → Bool) (mk : UDst → USrc → USrc → BitVec 28 → α) (r : Raw) (x : Word) : Option α :=
  match UDst.ofCode r.d, USrc.ofCode r.a, USrc.ofCode r.b, litPay x with
  | some d, some a, some b, some k => keep (ok d a b k && r.plain) (mk d a b k)
  | _, _, _, _ => none

def parseRdcnt {α : Type} (ok : BitVec 6 → USrc → Bool) (mk : BitVec 6 → USrc → α) (r : Raw) : Option α :=
  match sOfCode r.d, USrc.ofCode r.a with
  | some d, some a => keep (ok d a && r.plain && decide (r.b = 0#7)) (mk d a)
  | _, _ => none

def parseCsrr {α : Type} (ok : UDst → BitVec 12 → Bool) (mk : UDst → BitVec 12 → α) (r : Raw) (x : Word) : Option α :=
  match UDst.ofCode r.d, litPay x with
  | some d, some _ =>
    keep (ok d (x.extractLsb' 0 12) && r.plain && decide (r.a = 125#7) && decide (r.b = 0#7) && decide (x.extractLsb' 12 16 = 0#16)) (mk d (x.extractLsb' 0 12))
  | _, _ => none

def parseCsrw {α : Type} (ok : USrc → BitVec 12 → Bool) (mk : USrc → BitVec 12 → α) (r : Raw) (x : Word) : Option α :=
  match USrc.ofCode r.b, litPay x with
  | some b, some _ =>
    keep (ok b (x.extractLsb' 0 12) && r.plain && decide (r.a = 125#7) && decide (r.d = 0#7) && decide (x.extractLsb' 12 16 = 0#16)) (mk b (x.extractLsb' 0 12))
  | _, _ => none

/-- The frontier access payload (R383). -/
def parseFget {α : Type} (g : Uni10 α) (r : Raw) (x : Word) : Option α :=
  let t := x.extractLsb' 21 5
  let g' := x.extractLsb' 14 7
  let ok := r.plain && decide (r.a = 0#7) && decide (r.b = 0#7) && decide (x.extractLsb' 0 14 = 0#14)
  match litPay x, UDst.ofCode r.d with
  | some _, some d =>
    match x.extractLsb' 26 2 with
    | 0#2 => match sOfCode r.d with
      | some n => keep (ok && decide (t = 0#5) && decide (g' = 0#7) && sPairOk n) (g.fgetPc n)
      | none => none
    | 1#2 => keep (ok && decide (t = 0#5) && decide (g' = 0#7) && d.ok false) (g.fgetMask d)
    | 2#2 => keep (ok && decide (t = 0#5) && decide (g' = 0#7) && d.ok false) (g.fgetPrio d)
    | _ => keep (ok && d.ok false && dstOk false g') (g.fgetReg d t g')
  | _, _ => none

def parseFset {α : Type} (g : Uni10 α) (r : Raw) (x : Word) : Option α :=
  let t := x.extractLsb' 21 5
  let g' := x.extractLsb' 14 7
  let ok := r.plain && decide (r.d = 0#7) && decide (r.b = 0#7) && decide (x.extractLsb' 0 14 = 0#14)
  match litPay x, USrc.ofCode r.a with
  | some _, some a =>
    match x.extractLsb' 26 2 with
    | 0#2 => keep (ok && decide (t = 0#5) && decide (g' = 0#7) && a.ok true false) (g.fsetPc a)
    | 1#2 => keep (ok && decide (t = 0#5) && decide (g' = 0#7) && a.ok false false) (g.fsetMask a)
    | 3#2 => keep (ok && a.ok false false && dstOk false g') (g.fsetReg a t g')
    | _ => none
  | _, _ => none

def parseXlinv {α : Type} (ok : USrc → USrc → Scope → Bool) (mk : USrc → USrc → Scope → α) (r : Raw) (x : Word) : Option α :=
  match litPay x, USrc.ofCode r.a, USrc.ofCode r.b with
  | some _, some a, some b =>
    keep (ok a b (Scope.ofCode (x.extractLsb' 0 3)) && r.plain && decide (r.d = 0#7) && decide (x.extractLsb' 3 25 = 0#25)) (mk a b (Scope.ofCode (x.extractLsb' 0 3)))
  | _, _, _ => none

def parseInjset {α : Type} (g : Uni10 α) (r : Raw) (x : Word) : Option α :=
  let ok := r.plain && decide (r.d = 0#7) && decide (r.b = 0#7) && decide (x.extractLsb' 3 25 = 0#25)
  match litPay x, USrc.ofCode r.a with
  | some _, some a =>
    match x.extractLsb' 0 3 with
    | 0#3 => keep (ok && a.ok true false) (g.injsetSeed a)
    | 1#3 => keep (ok && a.ok false false) (g.injsetRate a)
    | 2#3 => keep (ok && a.ok false false) (g.injsetClasses a)
    | 3#3 => keep (ok && a.ok true false) (g.injsetShot a)
    | 4#3 => keep (ok && a.ok false false) (g.injsetArm a)
    | _ => none
  | _, _ => none

/-! ## The opcode maps -/

/-- An opcode of a map: a dash, a one-word form, or a two-word form (R36, R49). -/
inductive Form (α : Type)
  | dash
  | one (p : Raw → Option α)
  | two (p : Raw → Word → Option α)

/-- Opcodes 0 to 7 of the map of 03 R49. -/
def lane00Row0 : List (Form Instr) :=
  [.one (LaneR.parse (fun f => f.wf .w32 .w32 .w32) Instr.add32),
   .one (LaneR.parse (fun f => f.wf .w32 .w32 .w32) Instr.sub32),
   .one (LaneR.parse (fun f => f.wf .w32 .w32 .w32) Instr.mul32),
   .one (LaneR.parse (fun f => f.wf .w32 .w32 .w32) Instr.mulhiN32),
   .one (LaneR.parse (fun f => f.wf .w32 .w32 .w32) Instr.mulhiI32),
   .one (LaneR.parse (fun f => f.wf .w32 .w32 .w32) Instr.idivN32),
   .one (LaneR.parse (fun f => f.wf .w32 .w32 .w32) Instr.idivI32),
   .one (LaneR.parse (fun f => f.wf .w32 .w32 .w32) Instr.remN32)]

/-- Opcodes 8 to 15 of the map of 03 R49. -/
def lane00Row1 : List (Form Instr) :=
  [.one (LaneR.parse (fun f => f.wf .w32 .w32 .w32) Instr.remI32),
   .one (LaneR.parse (fun f => f.wf .w32 .w32 .w32) Instr.addSatN32),
   .one (LaneR.parse (fun f => f.wf .w32 .w32 .w32) Instr.addSatI32),
   .one (LaneR.parse (fun f => f.wf .w32 .w32 .w32) Instr.subSatN32),
   .one (LaneR.parse (fun f => f.wf .w32 .w32 .w32) Instr.subSatI32),
   .one (LaneR.parse (fun f => f.wf .w32 .w32 .w32) Instr.minN32),
   .one (LaneR.parse (fun f => f.wf .w32 .w32 .w32) Instr.minI32),
   .one (LaneR.parse (fun f => f.wf .w32 .w32 .w32) Instr.maxN32)]

/-- Opcodes 16 to 23 of the map of 03 R49. -/
def lane00Row2 : List (Form Instr) :=
  [.one (LaneR.parse (fun f => f.wf .w32 .w32 .w32) Instr.maxI32),
   .one (LaneR.parse (fun f => f.wf .w32 .w32 .w32) Instr.andB32),
   .one (LaneR.parse (fun f => f.wf .w32 .w32 .w32) Instr.orB32),
   .one (LaneR.parse (fun f => f.wf .w32 .w32 .w32) Instr.xorB32),
   .one (LaneR.parse (fun f => f.wf .w32 .w32 .w32) Instr.andnB32),
   .one (LaneR.parse (fun f => f.wf .w32 .w32 .w32) Instr.shlB32),
   .one (LaneR.parse (fun f => f.wf .w32 .w32 .w32) Instr.shrB32),
   .one (LaneR.parse (fun f => f.wf .w32 .w32 .w32) Instr.sarB32)]

/-- Opcodes 24 to 31 of the map of 03 R49. -/
def lane00Row3 : List (Form Instr) :=
  [.one (LaneR.parse (fun f => f.wf .w64 .w64 .w64) Instr.add64),
   .one (LaneR.parse (fun f => f.wf .w64 .w64 .w64) Instr.sub64),
   .one (LaneR.parse (fun f => f.wf .w64 .w64 .w64) Instr.mul64),
   .one (LaneR.parse (fun f => f.wf .w64 .w64 .w64) Instr.idivN64),
   .one (LaneR.parse (fun f => f.wf .w64 .w64 .w64) Instr.idivI64),
   .one (LaneR.parse (fun f => f.wf .w64 .w64 .w64) Instr.andB64),
   .one (LaneR.parse (fun f => f.wf .w64 .w64 .w64) Instr.orB64),
   .one (LaneR.parse (fun f => f.wf .w64 .w64 .w64) Instr.xorB64)]

/-- Opcodes 32 to 39 of the map of 03 R49. -/
def lane00Row4 : List (Form Instr) :=
  [.one (LaneR.parse (fun f => f.wf .w64 .w64 .w32) Instr.shlB64),
   .one (LaneR.parse (fun f => f.wf .w64 .w64 .w32) Instr.shrB64),
   .one (LaneR.parse (fun f => f.wf .w64 .w64 .w32) Instr.sarB64),
   .one (LaneP.parse (fun f => f.wf .w32 false) Instr.cmpN32),
   .one (LaneP.parse (fun f => f.wf .w32 false) Instr.cmpI32),
   .one (LaneP.parse (fun f => f.wf .w64 false) Instr.cmpN64),
   .one (LaneP.parse (fun f => f.wf .w64 false) Instr.cmpI64),
   .one (LanePlog.parse (fun f => f.wf) Instr.plog)]

/-- Opcodes 40 to 47 of the map of 03 R49. -/
def lane00Row5 : List (Form Instr) :=
  [.one (LaneR.parse (fun f => f.wf .f32 .f32 .f32) Instr.faddF32),
   .one (LaneR.parse (fun f => f.wf .f32 .f32 .f32) Instr.fsubF32),
   .one (LaneR.parse (fun f => f.wf .f32 .f32 .f32) Instr.fmulF32),
   .one (LaneR.parse (fun f => f.wf .f32 .f32 .f32) Instr.fminF32),
   .one (LaneR.parse (fun f => f.wf .f32 .f32 .f32) Instr.fmaxF32),
   .one (LaneP.parse (fun f => f.wf .f32 true) Instr.fcmpF32),
   .one (LaneR.parse (fun f => f.wf .f32 .f32 .f32) Instr.fdivF32),
   .one (LaneR1.parse (fun f => f.wf .f32 .f32) Instr.fsqrtF32)]

/-- Opcodes 48 to 55 of the map of 03 R49. -/
def lane00Row6 : List (Form Instr) :=
  [.one (LaneR.parse (fun f => f.wf .f64 .f64 .f64) Instr.faddF64),
   .one (LaneR.parse (fun f => f.wf .f64 .f64 .f64) Instr.fsubF64),
   .one (LaneR.parse (fun f => f.wf .f64 .f64 .f64) Instr.fmulF64),
   .one (LaneR.parse (fun f => f.wf .f64 .f64 .f64) Instr.fminF64),
   .one (LaneR.parse (fun f => f.wf .f64 .f64 .f64) Instr.fmaxF64),
   .one (LaneP.parse (fun f => f.wf .f64 true) Instr.fcmpF64),
   .one (LaneR.parse (fun f => f.wf .f64 .f64 .f64) Instr.fdivF64),
   .one (LaneR1.parse (fun f => f.wf .f64 .f64) Instr.fsqrtF64)]

/-- Opcodes 56 to 63 of the map of 03 R49. -/
def lane00Row7 : List (Form Instr) :=
  [.one (LaneR1.parse (fun f => f.wf .w32 .w32) Instr.popcB32),
   .one (LaneR1.parse (fun f => f.wf .w32 .w32) Instr.clzB32),
   .one (LaneR1.parse (fun f => f.wf .w32 .w32) Instr.brevB32),
   .one (LaneR1.parse (fun f => f.wf .w32 .w32) Instr.movB32),
   .one (LaneR1.parse (fun f => f.wf .w64 .w64) Instr.movB64),
   .one (LaneR1.parse (fun f => f.wf .w32 .f32) Instr.fclassF32),
   .one (LaneR1.parse (fun f => f.wf .w32 .f64) Instr.fclassF64)]

/-- The opcode map of 03 R49. -/
def lane00 : List (List (Form Instr)) :=
  [lane00Row0, lane00Row1, lane00Row2, lane00Row3, lane00Row4, lane00Row5, lane00Row6, lane00Row7]

/-- Opcodes 0 to 7 of the map of 03 R50. -/
def lane01Row0 : List (Form Instr) :=
  [.two (LaneX.parse (fun f => f.wf .w32 .w32 .w32 false) Instr.add32X),
   .two (LaneX.parse (fun f => f.wf .w32 .w32 .w32 false) Instr.sub32X),
   .two (LaneX.parse (fun f => f.wf .w32 .w32 .w32 false) Instr.mul32X),
   .two (LaneX.parse (fun f => f.wf .w32 .w32 .w32 false) Instr.andB32X),
   .two (LaneX.parse (fun f => f.wf .w32 .w32 .w32 false) Instr.orB32X),
   .two (LaneX.parse (fun f => f.wf .w32 .w32 .w32 false) Instr.xorB32X),
   .two (LaneX.parse (fun f => f.wf .w32 .w32 .w32 false) Instr.andnB32X),
   .two (LaneX.parse (fun f => f.wf .w32 .w32 .w32 false) Instr.shlB32X)]

/-- Opcodes 8 to 15 of the map of 03 R50. -/
def lane01Row1 : List (Form Instr) :=
  [.two (LaneX.parse (fun f => f.wf .w32 .w32 .w32 false) Instr.shrB32X),
   .two (LaneX.parse (fun f => f.wf .w32 .w32 .w32 false) Instr.sarB32X),
   .two (LaneX.parse (fun f => f.wf .w32 .w32 .w32 false) Instr.minN32X),
   .two (LaneX.parse (fun f => f.wf .w32 .w32 .w32 false) Instr.minI32X),
   .two (LaneX.parse (fun f => f.wf .w32 .w32 .w32 false) Instr.maxN32X),
   .two (LaneX.parse (fun f => f.wf .w32 .w32 .w32 false) Instr.maxI32X),
   .two (LaneX.parse (fun f => f.wf .w32 .w32 .w32 false) Instr.addSatN32X),
   .two (LaneX.parse (fun f => f.wf .w32 .w32 .w32 false) Instr.addSatI32X)]

/-- Opcodes 16 to 23 of the map of 03 R50. -/
def lane01Row2 : List (Form Instr) :=
  [.two (LaneXP.parse (fun f => f.wf .w32 false) Instr.cmpN32X),
   .two (LaneXP.parse (fun f => f.wf .w32 false) Instr.cmpI32X),
   .two (LaneX1.parse (fun f => f.wf .w32 .w32) Instr.movB32X),
   .two (LaneX.parse (fun f => f.wf .w64 .w64 .w64 false) Instr.add64X),
   .two (LaneX.parse (fun f => f.wf .w64 .w64 .w64 false) Instr.sub64X),
   .two (LaneXP.parse (fun f => f.wf .w64 false) Instr.cmpN64X),
   .two (LaneXP.parse (fun f => f.wf .w64 false) Instr.cmpI64X),
   .two (LaneX1.parse (fun f => f.wf .w64 .w64) Instr.movB64X)]

/-- Opcodes 24 to 31 of the map of 03 R50. -/
def lane01Row3 : List (Form Instr) :=
  [.two (LaneSel.parse (fun f => f.wf .w32) Instr.selB32),
   .two (LaneSel.parse (fun f => f.wf .w64) Instr.selB64),
   .two (LaneX.parse (fun f => f.wf .w32 .w32 .w32 false) Instr.bfeN32),
   .two (LaneX.parse (fun f => f.wf .w32 .w32 .w32 false) Instr.bfeI32),
   .two (LaneX3.parse (fun f => f.wf .w32 false) Instr.bfiB32),
   .two (LaneX3.parse (fun f => f.wf .w32 false) Instr.mad32),
   .two (LaneX3.parse (fun f => f.wf .w64 false) Instr.mad64),
   .two (LaneX.parse (fun f => f.wf .w32 .w32 .w32 false) Instr.shrrI32)]

/-- Opcodes 32 to 39 of the map of 03 R50. -/
def lane01Row4 : List (Form Instr) :=
  [.two (LaneX.parse (fun f => f.wf .h2 .h2 .h2 false) Instr.addI16x2),
   .two (LaneX.parse (fun f => f.wf .h2 .h2 .h2 false) Instr.subI16x2),
   .two (LaneX.parse (fun f => f.wf .h2 .h2 .h2 false) Instr.addSatI16x2),
   .two (LaneX.parse (fun f => f.wf .h2 .h2 .h2 false) Instr.subSatI16x2),
   .two (LaneX.parse (fun f => f.wf .h2 .h2 .h2 false) Instr.mulI16x2),
   .two (LaneX.parse (fun f => f.wf .h2 .h2 .h2 false) Instr.minI16x2),
   .two (LaneX.parse (fun f => f.wf .h2 .h2 .h2 false) Instr.maxI16x2),
   .two (LaneX.parse (fun f => f.wf .w32 .w32 .w32 false) Instr.packI16x2)]

/-- Opcodes 40 to 47 of the map of 03 R50. -/
def lane01Row5 : List (Form Instr) :=
  [.two (LaneX3.parse (fun f => f.wf .w32 false) Instr.pdot2I16x2),
   .two (LaneX.parse (fun f => f.wf .w32 .w32 .w32 false) Instr.shrrSatI16),
   .two (LaneX.parse (fun f => f.wf .b4 .b4 .b4 false) Instr.addN8x4),
   .two (LaneX.parse (fun f => f.wf .b4 .b4 .b4 false) Instr.subN8x4),
   .two (LaneX.parse (fun f => f.wf .b4 .b4 .b4 false) Instr.addSatN8x4),
   .two (LaneX.parse (fun f => f.wf .b4 .b4 .b4 false) Instr.subSatN8x4),
   .two (LaneX.parse (fun f => f.wf .b4 .b4 .b4 false) Instr.minN8x4),
   .two (LaneX.parse (fun f => f.wf .b4 .b4 .b4 false) Instr.maxN8x4)]

/-- Opcodes 48 to 55 of the map of 03 R50. -/
def lane01Row6 : List (Form Instr) :=
  [.two (LaneX.parse (fun f => f.wf .f32 .f32 .f32 true) Instr.faddF32X),
   .two (LaneX.parse (fun f => f.wf .f32 .f32 .f32 true) Instr.fmulF32X),
   .two (LaneX3.parse (fun f => f.wf .f32 true) Instr.ffmaF32),
   .two (LaneXP.parse (fun f => f.wf .f32 true) Instr.fcmpF32X),
   .two (LaneX.parse (fun f => f.wf .f64 .f64 .f64 true) Instr.faddF64X),
   .two (LaneX.parse (fun f => f.wf .f64 .f64 .f64 true) Instr.fmulF64X),
   .two (LaneX3.parse (fun f => f.wf .f64 true) Instr.ffmaF64),
   .two (LaneXP.parse (fun f => f.wf .f64 true) Instr.fcmpF64X)]

/-- Opcodes 56 to 63 of the map of 03 R50. -/
def lane01Row7 : List (Form Instr) :=
  [.two (LaneX.parse (fun f => f.wf .h2 .h2 .h2 true) Instr.faddF16x2),
   .two (LaneX.parse (fun f => f.wf .h2 .h2 .h2 true) Instr.fmulF16x2),
   .two (LaneX3.parse (fun f => f.wf .h2 true) Instr.ffmaF16x2),
   .two (LaneX.parse (fun f => f.wf .h2 .h2 .h2 true) Instr.faddBf16x2),
   .two (LaneX.parse (fun f => f.wf .h2 .h2 .h2 true) Instr.fmulBf16x2),
   .two (LaneX3.parse (fun f => f.wf .h2 true) Instr.ffmaBf16x2),
   .two (LaneX.parse (fun f => f.wf .f32 .f32 .f32 true) Instr.fsubF32X),
   .two (LaneX.parse (fun f => f.wf .f64 .f64 .f64 true) Instr.fsubF64X)]

/-- The opcode map of 03 R50. -/
def lane01 : List (List (Form Instr)) :=
  [lane01Row0, lane01Row1, lane01Row2, lane01Row3, lane01Row4, lane01Row5, lane01Row6, lane01Row7]

/-- Opcodes 0 to 7 of the map of 03 R51. -/
def lane10Row0 : List (Form Instr) :=
  [.one (LaneLd.parse (fun f => f.wf false true) Instr.ldGN8),
   .one (LaneLd.parse (fun f => f.wf false true) Instr.ldGI8),
   .one (LaneLd.parse (fun f => f.wf false true) Instr.ldGN16),
   .one (LaneLd.parse (fun f => f.wf false true) Instr.ldGI16),
   .one (LaneLd.parse (fun f => f.wf false true) Instr.ldGB32),
   .one (LaneLd.parse (fun f => f.wf true true) Instr.ldGB64),
   .two (LaneLd.parseQ (fun f q => f.wf q.width.wide true && q.wf false true false) Instr.ldGQual),
   .one (LaneSt.parse (fun f => f.wf false true) Instr.stGB8)]

/-- Opcodes 8 to 15 of the map of 03 R51. -/
def lane10Row1 : List (Form Instr) :=
  [.one (LaneSt.parse (fun f => f.wf false true) Instr.stGB16),
   .one (LaneSt.parse (fun f => f.wf false true) Instr.stGB32),
   .one (LaneSt.parse (fun f => f.wf true true) Instr.stGB64),
   .two (LaneSt.parseQ (fun f q => f.wf q.width.wide true && q.wf false true true) Instr.stGQual),
   .two (LaneLd.parseK (fun f k => f.wfK false k) Instr.ldkB32),
   .two (LaneLd.parseK (fun f k => f.wfK true k) Instr.ldkB64),
   .two (parseLdt (fun d x _ n _ => dstOk false d && coordsOk x n) Instr.ldt),
   .two (parseStt (fun t x _ n f32 round => t.ok false false && coordsOk x n && (f32 || decide (round = .dflt))) Instr.stt)]

/-- Opcodes 16 to 23 of the map of 03 R51. -/
def lane10Row2 : List (Form Instr) :=
  [.one (LaneLd.parse (fun f => f.wf false false) Instr.ldCmN8),
   .one (LaneLd.parse (fun f => f.wf false false) Instr.ldCmI8),
   .one (LaneLd.parse (fun f => f.wf false false) Instr.ldCmN16),
   .one (LaneLd.parse (fun f => f.wf false false) Instr.ldCmI16),
   .one (LaneLd.parse (fun f => f.wf false false) Instr.ldCmB32),
   .one (LaneLd.parse (fun f => f.wf true false) Instr.ldCmB64),
   .two (LaneLd.parseQ (fun f q => f.wf q.width.wide false && q.wf false false false) Instr.ldCmQual),
   .one (LaneSt.parse (fun f => f.wf false false) Instr.stCmB8)]

/-- Opcodes 24 to 31 of the map of 03 R51. -/
def lane10Row3 : List (Form Instr) :=
  [.one (LaneSt.parse (fun f => f.wf false false) Instr.stCmB16),
   .one (LaneSt.parse (fun f => f.wf false false) Instr.stCmB32),
   .one (LaneSt.parse (fun f => f.wf true false) Instr.stCmB64),
   .two (LaneSt.parseQ (fun f q => f.wf q.width.wide false && q.wf false false true) Instr.stCmQual),
   .two (parseAtom (fun f op q => f.wfAtom op q && decide (op ≠ .cas)) Instr.atom),
   .two (parseAtomCas (fun f q => f.wfAtom .cas q) Instr.atomCas),
   .one (parseFence (fun _ _ => true) Instr.fence),
   .two (parseAlloc (fun d a _ _ => dstOk true d && a.ok false false) Instr.alloc)]

/-- Opcodes 32 to 39 of the map of 03 R51. -/
def lane10Row4 : List (Form Instr) :=
  [.one (parseA (fun a => a.ok true false) Instr.free),
   .two (LaneBox.parse (fun f => f.wf) Instr.cpyIn),
   .two (LaneBox.parse (fun f => f.wf) Instr.cpyOut),
   .two (LaneCpyG.parse (fun f => f.wf) Instr.cpyG),
   .two (parseLitAB (fun a b k => a.ok true false && b.ok false true && litUse b k) Instr.waitc),
   .one (parseQfence (fun m => decide (m ≠ 0#4)) Instr.qfence),
   .two (parseUnits (fun u n => unitsOk u n) Instr.sclaim),
   .two (parseUnits (fun u n => unitsOk u n) Instr.srel)]

/-- Opcodes 40 to 47 of the map of 03 R51. -/
def lane10Row5 : List (Form Instr) :=
  [.two (parseStkLd (fun ctr x _ _ n => ctrOk ctr && coordsOk x n) Instr.stkLd),
   .two (LaneMtile.parse (fun f => f.wf) Instr.mtile),
   .one (parseRzero (fun _ => true) Instr.rzero),
   .two (LaneRim.parse (fun f => f.wf) Instr.rimLd),
   .two (LaneRim.parse (fun f => f.wf) Instr.rimSt),
   .one (parseStat (fun d _ k => dstOk true d && decide (k.toNat ≤ 5)) Instr.termrd)]

/-- The opcode map of 03 R51. -/
def lane10 : List (List (Form Instr)) :=
  [lane10Row0, lane10Row1, lane10Row2, lane10Row3, lane10Row4, lane10Row5]

/-- Opcodes 0 to 7 of the map of 03 R52. -/
def lane11Row0 : List (Form Instr) :=
  [.two (Branch.parse (fun _ => true) Instr.bra),
   .two (parseLitAB (fun a b k => a.pairOk && b.ok false true && litUse b k) Instr.brx),
   .two (parseSwitch (fun a n => a.ok false false && decide (1 ≤ n.toNat) && decide (n.toNat ≤ 8)) Instr.switch),
   .two (Branch.parse (fun _ => true) Instr.call),
   .one (parseA (fun a => a.pairOk) Instr.ret),
   .one (parse0 Instr.exit),
   .two (parseLitA (fun a k => a.ok false true && litUse a k) Instr.exitto),
   .one (parse0 Instr.rcb)]

/-- Opcodes 8 to 15 of the map of 03 R52. -/
def lane11Row1 : List (Form Instr) :=
  [.one (parse0 Instr.bar),
   .one (parseAB (fun a b => a.joinOk && b.joinOk) Instr.join),
   .one (parse0 Instr.leave),
   .one (parse0 Instr.rgnOpen),
   .one (parse0 Instr.rgnClose),
   .two (parseScope (fun _ => true) Instr.scope),
   .one (parse0 Instr.endscope),
   .one (parseA (fun a => a.ok false false) Instr.wpush)]

/-- Opcodes 16 to 23 of the map of 03 R52. -/
def lane11Row2 : List (Form Instr) :=
  [.one (parseWpop (fun d _ => dstOk false d) Instr.wpop),
   .two (parseLitA (fun a k => a.ok false true && litUse a k) Instr.sleep),
   .one (parse0 Instr.brk),
   .two (parseTrap (fun _ => true) Instr.trap),
   .one (parse0 Instr.nop),
   .two (parseCalle),
   .one (parseLmode (fun m => decide (m ≠ 3#2)) Instr.lmode),
   .one (parseStat (fun d _ k => dstOk true d && decide (k.toNat ≤ 5)) Instr.lstat)]

/-- Opcodes 24 to 31 of the map of 03 R52. -/
def lane11Row3 : List (Form Instr) :=
  [.one (parseShuf (fun d a b => dstOk false d && dstOk false a && b.ok false false) Instr.shuf),
   .one (parseVote (fun d _ _ => dstOk false d) Instr.vote),
   .one (parseRed (fun d a o => decide (o.toNat ≤ 11) && dstOk (decide (o = 11#4)) d && dstOk (decide (o = 11#4)) a) Instr.red),
   .one (parseShuf (fun d a b => dstOk false d && dstOk false a && b.ok false false) Instr.bcast),
   .one (parseMovs (fun s _ d a => dstOk false d && sOk s d && a.movsOk) Instr.movs),
   .two (LaneCvt.parse (fun f => f.wf) Instr.cvt),
   .one (LaneR1.parse (fun f => f.wf .f32 .f32) Instr.rcpF32),
   .one (LaneR1.parse (fun f => f.wf .f64 .f64) Instr.rcpF64)]

/-- Opcodes 32 to 39 of the map of 03 R52. -/
def lane11Row4 : List (Form Instr) :=
  [.one (LaneR1.parse (fun f => f.wf .f32 .f32) Instr.rsqF32),
   .one (LaneR1.parse (fun f => f.wf .f64 .f64) Instr.rsqF64),
   .one (LaneR1.parse (fun f => f.wf .f32 .f32) Instr.exp2F32),
   .one (LaneR1.parse (fun f => f.wf .f32 .f32) Instr.log2F32),
   .one (LaneR1.parse (fun f => f.wf .f32 .f32) Instr.sinF32),
   .one (LaneR1.parse (fun f => f.wf .f32 .f32) Instr.cosF32),
   .one (LaneR.parse (fun f => f.wf .h2 .h2 .h2) Instr.fminF16x2),
   .one (LaneR.parse (fun f => f.wf .h2 .h2 .h2) Instr.fmaxF16x2)]

/-- Opcodes 40 to 47 of the map of 03 R52. -/
def lane11Row5 : List (Form Instr) :=
  [.one (LaneR.parse (fun f => f.wf .h2 .h2 .h2) Instr.fminBf16x2),
   .one (LaneR.parse (fun f => f.wf .h2 .h2 .h2) Instr.fmaxBf16x2),
   .one (parseFcmpX2 (fun _ p a b => decide (p = 0#3 ∨ p = 2#3 ∨ p = 4#3) && a.ok false false && b.ok false false) Instr.fcmpF16x2),
   .one (parseFcmpX2 (fun _ p a b => decide (p = 0#3 ∨ p = 2#3 ∨ p = 4#3) && a.ok false false && b.ok false false) Instr.fcmpBf16x2),
   .one (LaneR1.parse (fun f => f.wf .w32 .h2) Instr.fclassF16x2),
   .one (LaneR1.parse (fun f => f.wf .w32 .h2) Instr.fclassBf16x2),
   .two (parseHclr (fun h a k => hOk h && a.hclrOk && litUse a k) Instr.hclr),
   .one (parseHfma (fun h _ a b => hOk h && a.baseOk true && b.baseOk true) Instr.hfma)]

/-- Opcodes 48 to 55 of the map of 03 R52. -/
def lane11Row6 : List (Form Instr) :=
  [.two (parseHfma3 (fun h _ a b vc _ => hOk h && a.baseOk true && b.baseOk true && vc.baseOk true) Instr.hfma3),
   .one (parseHadd (fun h _ a => hOk h && a.baseOk true) Instr.hadd),
   .one (parseHsgn (fun d h _ => hOk h && dstOk false d) Instr.hsgn),
   .one (parseHrnd (fun d h => hOk h && dstOk true d) Instr.hrnd)]

/-- The opcode map of 03 R52. -/
def lane11 : List (List (Form Instr)) :=
  [lane11Row0, lane11Row1, lane11Row2, lane11Row3, lane11Row4, lane11Row5, lane11Row6]

/-- Opcodes 0 to 7 of the map of 03 R53. -/
def uni00Row0 {α : Type} (g : Uni00 α) : List (Form α) :=
  [.one (UniR.parse (fun f => f.wf .w32 .w32 .w32) g.uAdd32),
   .one (UniR.parse (fun f => f.wf .w32 .w32 .w32) g.uSub32),
   .one (UniR.parse (fun f => f.wf .w32 .w32 .w32) g.uMul32),
   .one (UniR.parse (fun f => f.wf .w32 .w32 .w32) g.uMulhiN32),
   .one (UniR.parse (fun f => f.wf .w32 .w32 .w32) g.uMulhiI32),
   .one (UniR.parse (fun f => f.wf .w32 .w32 .w32) g.uIdivN32),
   .one (UniR.parse (fun f => f.wf .w32 .w32 .w32) g.uIdivI32),
   .one (UniR.parse (fun f => f.wf .w32 .w32 .w32) g.uRemN32)]

/-- Opcodes 8 to 15 of the map of 03 R53. -/
def uni00Row1 {α : Type} (g : Uni00 α) : List (Form α) :=
  [.one (UniR.parse (fun f => f.wf .w32 .w32 .w32) g.uRemI32),
   .one (UniR.parse (fun f => f.wf .w32 .w32 .w32) g.uAndB32),
   .one (UniR.parse (fun f => f.wf .w32 .w32 .w32) g.uOrB32),
   .one (UniR.parse (fun f => f.wf .w32 .w32 .w32) g.uXorB32),
   .one (UniR.parse (fun f => f.wf .w32 .w32 .w32) g.uShlB32),
   .one (UniR.parse (fun f => f.wf .w32 .w32 .w32) g.uShrB32),
   .one (UniR.parse (fun f => f.wf .w32 .w32 .w32) g.uSarB32),
   .one (UniR.parse (fun f => f.wf .w32 .w32 .w32) g.uMinN32)]

/-- Opcodes 16 to 23 of the map of 03 R53. -/
def uni00Row2 {α : Type} (g : Uni00 α) : List (Form α) :=
  [.one (UniR.parse (fun f => f.wf .w32 .w32 .w32) g.uMinI32),
   .one (UniR.parse (fun f => f.wf .w32 .w32 .w32) g.uMaxN32),
   .one (UniR.parse (fun f => f.wf .w32 .w32 .w32) g.uMaxI32),
   .one (UniR.parse (fun f => f.wf .w64 .w64 .w64) g.uAdd64),
   .one (UniR.parse (fun f => f.wf .w64 .w64 .w64) g.uSub64),
   .one (UniR.parse (fun f => f.wf .w64 .w64 .w64) g.uMul64),
   .one (UniR.parse (fun f => f.wf .w64 .w64 .w32) g.uShlB64),
   .one (UniR.parse (fun f => f.wf .w64 .w64 .w32) g.uShrB64)]

/-- Opcodes 24 to 31 of the map of 03 R53. -/
def uni00Row3 {α : Type} (g : Uni00 α) : List (Form α) :=
  [.one (UniP.parse (fun f => f.wf .w32 false) g.uCmpN32),
   .one (UniP.parse (fun f => f.wf .w32 false) g.uCmpI32),
   .one (UniP.parse (fun f => f.wf .w64 false) g.uCmpN64),
   .one (UniP.parse (fun f => f.wf .w64 false) g.uCmpI64),
   .one (UniPlog.parse (fun f => f.wf) g.uPlog),
   .one (UniR1.parse (fun f => f.wf .w32 .w32) g.uMovB32),
   .one (UniR1.parse (fun f => f.wf .w64 .w64) g.uMovB64),
   .one (UniR1.parse (fun f => f.wf .w32 .w32) g.uPopcB32)]

/-- Opcodes 32 to 39 of the map of 03 R53. -/
def uni00Row4 {α : Type} (g : Uni00 α) : List (Form α) :=
  [.two (UniX.parse (fun f => f.wf .w32 .w32 .w32 false) g.uAdd32X),
   .two (UniX.parse (fun f => f.wf .w32 .w32 .w32 false) g.uSub32X),
   .two (UniX.parse (fun f => f.wf .w32 .w32 .w32 false) g.uMul32X),
   .two (UniX.parse (fun f => f.wf .w32 .w32 .w32 false) g.uAndB32X),
   .two (UniX.parse (fun f => f.wf .w32 .w32 .w32 false) g.uOrB32X),
   .two (UniX.parse (fun f => f.wf .w32 .w32 .w32 false) g.uXorB32X),
   .two (UniX.parse (fun f => f.wf .w32 .w32 .w32 false) g.uShlB32X),
   .two (UniX.parse (fun f => f.wf .w32 .w32 .w32 false) g.uShrB32X)]

/-- Opcodes 40 to 47 of the map of 03 R53. -/
def uni00Row5 {α : Type} (g : Uni00 α) : List (Form α) :=
  [.two (UniX.parse (fun f => f.wf .w32 .w32 .w32 false) g.uSarB32X),
   .two (UniX.parse (fun f => f.wf .w32 .w32 .w32 false) g.uMinN32X),
   .two (UniX.parse (fun f => f.wf .w32 .w32 .w32 false) g.uMinI32X),
   .two (UniX.parse (fun f => f.wf .w32 .w32 .w32 false) g.uMaxN32X),
   .two (UniX.parse (fun f => f.wf .w32 .w32 .w32 false) g.uMaxI32X),
   .two (UniX.parse (fun f => f.wf .w64 .w64 .w64 false) g.uAdd64X),
   .two (UniXP.parse (fun f => f.wf .w32 false) g.uCmpN32X),
   .two (UniXP.parse (fun f => f.wf .w32 false) g.uCmpI32X)]

/-- Opcodes 48 to 55 of the map of 03 R53. -/
def uni00Row6 {α : Type} (g : Uni00 α) : List (Form α) :=
  [.two (UniXP.parse (fun f => f.wf .w64 false) g.uCmpN64X),
   .two (UniXP.parse (fun f => f.wf .w64 false) g.uCmpI64X),
   .two (UniX1.parse (fun f => f.wf .w32 .w32) g.uMovB32X),
   .two (UniX1.parse (fun f => f.wf .w64 .w64) g.uMovB64X),
   .two (UniSel.parse (fun f => f.wf .w32) g.uSelB32),
   .two (UniSel.parse (fun f => f.wf .w64) g.uSelB64),
   .two (UniX.parse (fun f => f.wf .w32 .w32 .w32 false) g.uBfeN32),
   .two (UniX3.parse (fun f => f.wf .w32 false) g.uMad32)]

/-- Opcodes 56 to 63 of the map of 03 R53. -/
def uni00Row7 {α : Type} (g : Uni00 α) : List (Form α) :=
  [.two (UniX.parse (fun f => f.wf .f32 .f32 .f32 true) g.uFaddF32),
   .two (UniX.parse (fun f => f.wf .f32 .f32 .f32 true) g.uFmulF32),
   .two (UniX3.parse (fun f => f.wf .f32 true) g.uFfmaF32),
   .two (UniXP.parse (fun f => f.wf .f32 true) g.uFcmpF32),
   .two (UniX.parse (fun f => f.wf .f64 .f64 .f64 true) g.uFaddF64),
   .two (UniX.parse (fun f => f.wf .f64 .f64 .f64 true) g.uFmulF64),
   .two (UniX3.parse (fun f => f.wf .f64 true) g.uFfmaF64),
   .two (UniCvt.parse (fun f => f.wf) g.uCvt)]

/-- The opcode map of 03 R53. -/
def uni00 {α : Type} (g : Uni00 α) : List (List (Form α)) :=
  [uni00Row0 g, uni00Row1 g, uni00Row2 g, uni00Row3 g, uni00Row4 g, uni00Row5 g, uni00Row6 g, uni00Row7 g]

/-- Opcodes 0 to 7 of the map of 03 R54. -/
def uni01Row0 {α : Type} (g : Uni01 α) : List (Form α) :=
  [.two (Branch.parse (fun f => uPredOk f.p) g.sBra),
   .two (parseULitAB (fun a b k => a.pairOk && b.ok false true && uLitUse b k) g.sBrx),
   .two (Branch.parse (fun f => uPredOk f.p) g.sCall),
   .one (parseUA (fun a => a.pairOk) g.sRet),
   .one (parse0 g.sExit),
   .one (parseDpush (fun a w => a.ok w false) g.dpush),
   .one (parseDpop (fun d w => d.ok w) g.dpop),
   .two (parseBucket (fun d a n => decide (1 ≤ n.toNat) && decide (d.toNat ≤ 60) && decide (a.toNat + n.toNat ≤ 64)) g.bucket)]

/-- Opcodes 8 to 15 of the map of 03 R54. -/
def uni01Row1 {α : Type} (g : Uni01 α) : List (Form α) :=
  [.one (parseNodeput (fun d a => d.ok false && a.pairOk) g.nodeput),
   .two (parseWaitn (fun d a b k => d.ok false && a.pairOk && b.ok false true && uLitUse b k) g.waitn),
   .one (parse0 g.ckpt),
   .one (parse0 g.yield),
   .dash,
   .one (parse0 g.sNop)]

/-- The opcode map of 03 R54. -/
def uni01 {α : Type} (g : Uni01 α) : List (List (Form α)) :=
  [uni01Row0 g, uni01Row1 g]

/-- Opcodes 0 to 7 of the map of 03 R55. -/
def uni10Row0 {α : Type} (g : Uni10 α) : List (Form α) :=
  [.one (UniLd.parse (fun f => f.wf false true) g.uLdGB32),
   .one (UniLd.parse (fun f => f.wf true true) g.uLdGB64),
   .one (UniSt.parse (fun f => f.wf false true) g.uStGB32),
   .one (UniSt.parse (fun f => f.wf true true) g.uStGB64),
   .one (UniLd.parse (fun f => f.wf false false) g.uLdCmB32),
   .one (UniLd.parse (fun f => f.wf true false) g.uLdCmB64),
   .one (UniSt.parse (fun f => f.wf false false) g.uStCmB32),
   .one (UniSt.parse (fun f => f.wf true false) g.uStCmB64)]

/-- Opcodes 8 to 15 of the map of 03 R55. -/
def uni10Row1 {α : Type} (g : Uni10 α) : List (Form α) :=
  [.two (UniLd.parseQ (fun f q => f.wf q.width.wide true && q.wf true true false) g.uLdGQual),
   .two (UniSt.parseQ (fun f q => f.wf q.width.wide true && q.wf true true true) g.uStGQual),
   .two (UniLd.parseQ (fun f q => f.wf q.width.wide false && q.wf true false false) g.uLdCmQual),
   .two (UniSt.parseQ (fun f q => f.wf q.width.wide false && q.wf true false true) g.uStCmQual),
   .two (UniLd.parseK (fun f k => f.wfK false k) g.uLdkB32),
   .two (UniLd.parseK (fun f k => f.wfK true k) g.uLdkB64),
   .two (parseUAtom (fun f op q => f.wfAtom op q) g.uAtom),
   .one (parseFence (fun _ _ => true) g.uFence)]

/-- Opcodes 16 to 23 of the map of 03 R55. -/
def uni10Row2 {α : Type} (g : Uni10 α) : List (Form α) :=
  [.two (parseUAlloc (fun d a _ p => sPairOk d && a.ok false false && uPredOk p) g.uAlloc),
   .one (parseUA (fun a => a.ok true false) g.uFree),
   .two (UniBox.parse (fun f => f.wf) g.uCpyIn),
   .two (UniBox.parse (fun f => f.wf) g.uCpyOut),
   .two (UniCpyG.parse (fun f => f.wf) g.uCpyG),
   .two (parseULitAB (fun a b k => a.ok true false && b.ok false true && uLitUse b k) g.uWaitc),
   .one (parseQfence (fun m => decide (m ≠ 0#4)) g.uQfence),
   .one (parseRdcnt (fun d a => sPairOk d && a.ok false false) g.rdcnt)]

/-- Opcodes 24 to 31 of the map of 03 R55. -/
def uni10Row3 {α : Type} (g : Uni10 α) : List (Form α) :=
  [.two (parseCsrr (fun d n => csrListed n && d.ok (csrWide n)) g.csrr),
   .two (parseCsrw (fun b n => csrListed n && b.ok (csrWide n) false) g.csrw),
   .one (parse0 g.rft),
   .two (parseFget g),
   .two (parseFset g),
   .two (parseXlinv (fun a b sc => a.pairOk && b.ok false false && !sc.local) g.xlinv),
   .two (parseInjset g)]

/-- The opcode map of 03 R55. -/
def uni10 {α : Type} (g : Uni10 α) : List (List (Form α)) :=
  [uni10Row0 g, uni10Row1 g, uni10Row2 g, uni10Row3 g]

/-- Rows of eight, by opcode bits 5:3 and 2:0; an opcode past the end of a map is a dash. -/
def Form.at {α : Type} (t : List (List (Form α))) (k : BitVec 6) : Form α :=
  match t[(k.extractLsb' 3 3).toNat]? with
  | some row =>
    match row[(k.extractLsb' 0 3).toNat]? with
    | some f => f
    | none => .dash
  | none => .dash

/-- The lane map that bits 30:29 choose. -/
def laneFormAt (op : BitVec 9) : Form Instr :=
  Form.at (match op.extractLsb' 6 2 with | 0#2 => lane00 | 1#2 => lane01 | 2#2 => lane10 | _ => lane11) (op.extractLsb' 0 6)

/-- The uniform map that bits 30:29 choose; uniform class 11 is never a first word (R30). -/
def uniFormAt {α : Type} (g0 : Uni00 α) (g1 : Uni01 α) (g2 : Uni10 α) (op : BitVec 9) : Form α :=
  Form.at (match op.extractLsb' 6 2 with | 0#2 => uni00 g0 | 1#2 => uni01 g1 | 2#2 => uni10 g2 | _ => []) (op.extractLsb' 0 6)

def Form.isTwo {α : Type} : Form α → Bool
  | .two _ => true
  | _ => false

/-- Read the fields of a form; `x` is the word after the first, used by a two-word form alone. -/
def Form.read {α : Type} (f : Form α) (r : Raw) (x : Word) : Option α :=
  match f with
  | .dash => none
  | .one p => p r
  | .two p => p r x

/-- Which opcodes are two-word is a matter of the map alone (R36). -/
def unitUni00 : Uni00 Unit := {
  uAdd32 := fun _ => (),
  uSub32 := fun _ => (),
  uMul32 := fun _ => (),
  uMulhiN32 := fun _ => (),
  uMulhiI32 := fun _ => (),
  uIdivN32 := fun _ => (),
  uIdivI32 := fun _ => (),
  uRemN32 := fun _ => (),
  uRemI32 := fun _ => (),
  uAndB32 := fun _ => (),
  uOrB32 := fun _ => (),
  uXorB32 := fun _ => (),
  uShlB32 := fun _ => (),
  uShrB32 := fun _ => (),
  uSarB32 := fun _ => (),
  uMinN32 := fun _ => (),
  uMinI32 := fun _ => (),
  uMaxN32 := fun _ => (),
  uMaxI32 := fun _ => (),
  uAdd64 := fun _ => (),
  uSub64 := fun _ => (),
  uMul64 := fun _ => (),
  uShlB64 := fun _ => (),
  uShrB64 := fun _ => (),
  uCmpN32 := fun _ => (),
  uCmpI32 := fun _ => (),
  uCmpN64 := fun _ => (),
  uCmpI64 := fun _ => (),
  uPlog := fun _ => (),
  uMovB32 := fun _ => (),
  uMovB64 := fun _ => (),
  uPopcB32 := fun _ => (),
  uAdd32X := fun _ => (),
  uSub32X := fun _ => (),
  uMul32X := fun _ => (),
  uAndB32X := fun _ => (),
  uOrB32X := fun _ => (),
  uXorB32X := fun _ => (),
  uShlB32X := fun _ => (),
  uShrB32X := fun _ => (),
  uSarB32X := fun _ => (),
  uMinN32X := fun _ => (),
  uMinI32X := fun _ => (),
  uMaxN32X := fun _ => (),
  uMaxI32X := fun _ => (),
  uAdd64X := fun _ => (),
  uCmpN32X := fun _ => (),
  uCmpI32X := fun _ => (),
  uCmpN64X := fun _ => (),
  uCmpI64X := fun _ => (),
  uMovB32X := fun _ => (),
  uMovB64X := fun _ => (),
  uSelB32 := fun _ => (),
  uSelB64 := fun _ => (),
  uBfeN32 := fun _ => (),
  uMad32 := fun _ => (),
  uFaddF32 := fun _ => (),
  uFmulF32 := fun _ => (),
  uFfmaF32 := fun _ => (),
  uFcmpF32 := fun _ => (),
  uFaddF64 := fun _ => (),
  uFmulF64 := fun _ => (),
  uFfmaF64 := fun _ => (),
  uCvt := fun _ => () }
def unitUni01 : Uni01 Unit := {
  sBra := fun _ => (),
  sBrx := fun _ _ _ => (),
  sCall := fun _ => (),
  sRet := fun _ => (),
  sExit := (),
  dpush := fun _ _ => (),
  dpop := fun _ _ => (),
  bucket := fun _ _ _ => (),
  nodeput := fun _ _ => (),
  waitn := fun _ _ _ _ => (),
  ckpt := (),
  yield := (),
  sNop := () }
def unitUni10 : Uni10 Unit := {
  uLdGB32 := fun _ => (),
  uLdGB64 := fun _ => (),
  uStGB32 := fun _ => (),
  uStGB64 := fun _ => (),
  uLdCmB32 := fun _ => (),
  uLdCmB64 := fun _ => (),
  uStCmB32 := fun _ => (),
  uStCmB64 := fun _ => (),
  uLdGQual := fun _ _ => (),
  uStGQual := fun _ _ => (),
  uLdCmQual := fun _ _ => (),
  uStCmQual := fun _ _ => (),
  uLdkB32 := fun _ _ => (),
  uLdkB64 := fun _ _ => (),
  uAtom := fun _ _ _ => (),
  uFence := fun _ _ => (),
  uAlloc := fun _ _ _ _ => (),
  uFree := fun _ => (),
  uCpyIn := fun _ => (),
  uCpyOut := fun _ => (),
  uCpyG := fun _ => (),
  uWaitc := fun _ _ _ => (),
  uQfence := fun _ => (),
  rdcnt := fun _ _ => (),
  csrr := fun _ _ => (),
  csrw := fun _ _ => (),
  rft := (),
  fgetPc := fun _ => (),
  fgetMask := fun _ => (),
  fgetPrio := fun _ => (),
  fgetReg := fun _ _ _ => (),
  fsetPc := fun _ => (),
  fsetMask := fun _ => (),
  fsetReg := fun _ _ _ => (),
  xlinv := fun _ _ _ => (),
  injsetSeed := fun _ => (),
  injsetRate := fun _ => (),
  injsetClasses := fun _ => (),
  injsetShot := fun _ => (),
  injsetArm := fun _ => () }

/-- A first word followed by an extension word (R36). -/
def isTwoWord (w : Word) : Bool :=
  let op := w.extractLsb' 23 9
  if w.getLsbD 31 then (uniFormAt unitUni00 unitUni01 unitUni10 op).isTwo else (laneFormAt op).isTwo

/-- The constructors of the uniform maps. -/
noncomputable def instrUni00 : Uni00 Instr := {
  uAdd32 := .uAdd32,
  uSub32 := .uSub32,
  uMul32 := .uMul32,
  uMulhiN32 := .uMulhiN32,
  uMulhiI32 := .uMulhiI32,
  uIdivN32 := .uIdivN32,
  uIdivI32 := .uIdivI32,
  uRemN32 := .uRemN32,
  uRemI32 := .uRemI32,
  uAndB32 := .uAndB32,
  uOrB32 := .uOrB32,
  uXorB32 := .uXorB32,
  uShlB32 := .uShlB32,
  uShrB32 := .uShrB32,
  uSarB32 := .uSarB32,
  uMinN32 := .uMinN32,
  uMinI32 := .uMinI32,
  uMaxN32 := .uMaxN32,
  uMaxI32 := .uMaxI32,
  uAdd64 := .uAdd64,
  uSub64 := .uSub64,
  uMul64 := .uMul64,
  uShlB64 := .uShlB64,
  uShrB64 := .uShrB64,
  uCmpN32 := .uCmpN32,
  uCmpI32 := .uCmpI32,
  uCmpN64 := .uCmpN64,
  uCmpI64 := .uCmpI64,
  uPlog := .uPlog,
  uMovB32 := .uMovB32,
  uMovB64 := .uMovB64,
  uPopcB32 := .uPopcB32,
  uAdd32X := .uAdd32X,
  uSub32X := .uSub32X,
  uMul32X := .uMul32X,
  uAndB32X := .uAndB32X,
  uOrB32X := .uOrB32X,
  uXorB32X := .uXorB32X,
  uShlB32X := .uShlB32X,
  uShrB32X := .uShrB32X,
  uSarB32X := .uSarB32X,
  uMinN32X := .uMinN32X,
  uMinI32X := .uMinI32X,
  uMaxN32X := .uMaxN32X,
  uMaxI32X := .uMaxI32X,
  uAdd64X := .uAdd64X,
  uCmpN32X := .uCmpN32X,
  uCmpI32X := .uCmpI32X,
  uCmpN64X := .uCmpN64X,
  uCmpI64X := .uCmpI64X,
  uMovB32X := .uMovB32X,
  uMovB64X := .uMovB64X,
  uSelB32 := .uSelB32,
  uSelB64 := .uSelB64,
  uBfeN32 := .uBfeN32,
  uMad32 := .uMad32,
  uFaddF32 := .uFaddF32,
  uFmulF32 := .uFmulF32,
  uFfmaF32 := .uFfmaF32,
  uFcmpF32 := .uFcmpF32,
  uFaddF64 := .uFaddF64,
  uFmulF64 := .uFmulF64,
  uFfmaF64 := .uFfmaF64,
  uCvt := .uCvt }
noncomputable def instrUni01 : Uni01 Instr := {
  sBra := .sBra,
  sBrx := .sBrx,
  sCall := .sCall,
  sRet := .sRet,
  sExit := .sExit,
  dpush := .dpush,
  dpop := .dpop,
  bucket := .bucket,
  nodeput := .nodeput,
  waitn := .waitn,
  ckpt := .ckpt,
  yield := .yield,
  sNop := .sNop }
noncomputable def instrUni10 : Uni10 Instr := {
  uLdGB32 := .uLdGB32,
  uLdGB64 := .uLdGB64,
  uStGB32 := .uStGB32,
  uStGB64 := .uStGB64,
  uLdCmB32 := .uLdCmB32,
  uLdCmB64 := .uLdCmB64,
  uStCmB32 := .uStCmB32,
  uStCmB64 := .uStCmB64,
  uLdGQual := .uLdGQual,
  uStGQual := .uStGQual,
  uLdCmQual := .uLdCmQual,
  uStCmQual := .uStCmQual,
  uLdkB32 := .uLdkB32,
  uLdkB64 := .uLdkB64,
  uAtom := .uAtom,
  uFence := .uFence,
  uAlloc := .uAlloc,
  uFree := .uFree,
  uCpyIn := .uCpyIn,
  uCpyOut := .uCpyOut,
  uCpyG := .uCpyG,
  uWaitc := .uWaitc,
  uQfence := .uQfence,
  rdcnt := .rdcnt,
  csrr := .csrr,
  csrw := .csrw,
  rft := .rft,
  fgetPc := .fgetPc,
  fgetMask := .fgetMask,
  fgetPrio := .fgetPrio,
  fgetReg := .fgetReg,
  fsetPc := .fsetPc,
  fsetMask := .fsetMask,
  fsetReg := .fsetReg,
  xlinv := .xlinv,
  injsetSeed := .injsetSeed,
  injsetRate := .injsetRate,
  injsetClasses := .injsetClasses,
  injsetShot := .injsetShot,
  injsetArm := .injsetArm }

/-- The instruction of a first word and, for a two-word opcode, the word after it. -/
noncomputable def decodeWords (w x : Word) : Option Instr :=
  let r := Raw.ofWord w
  if w.getLsbD 31 then (uniFormAt instrUni00 instrUni01 instrUni10 r.op).read r x else (laneFormAt r.op).read r x

/-- The words of an instruction (03, and each form's encoding table); an event has none. -/
def encode : Instr → Option (Word × Option Word)
  | .add32 f => some (f.enc 0)
  | .sub32 f => some (f.enc 1)
  | .mul32 f => some (f.enc 2)
  | .mulhiN32 f => some (f.enc 3)
  | .mulhiI32 f => some (f.enc 4)
  | .idivN32 f => some (f.enc 5)
  | .idivI32 f => some (f.enc 6)
  | .remN32 f => some (f.enc 7)
  | .remI32 f => some (f.enc 8)
  | .addSatN32 f => some (f.enc 9)
  | .addSatI32 f => some (f.enc 10)
  | .subSatN32 f => some (f.enc 11)
  | .subSatI32 f => some (f.enc 12)
  | .minN32 f => some (f.enc 13)
  | .minI32 f => some (f.enc 14)
  | .maxN32 f => some (f.enc 15)
  | .maxI32 f => some (f.enc 16)
  | .andB32 f => some (f.enc 17)
  | .orB32 f => some (f.enc 18)
  | .xorB32 f => some (f.enc 19)
  | .andnB32 f => some (f.enc 20)
  | .shlB32 f => some (f.enc 21)
  | .shrB32 f => some (f.enc 22)
  | .sarB32 f => some (f.enc 23)
  | .add64 f => some (f.enc 24)
  | .sub64 f => some (f.enc 25)
  | .mul64 f => some (f.enc 26)
  | .idivN64 f => some (f.enc 27)
  | .idivI64 f => some (f.enc 28)
  | .andB64 f => some (f.enc 29)
  | .orB64 f => some (f.enc 30)
  | .xorB64 f => some (f.enc 31)
  | .shlB64 f => some (f.enc 32)
  | .shrB64 f => some (f.enc 33)
  | .sarB64 f => some (f.enc 34)
  | .cmpN32 f => some (f.enc 35)
  | .cmpI32 f => some (f.enc 36)
  | .cmpN64 f => some (f.enc 37)
  | .cmpI64 f => some (f.enc 38)
  | .plog f => some (f.enc 39)
  | .faddF32 f => some (f.enc 40)
  | .fsubF32 f => some (f.enc 41)
  | .fmulF32 f => some (f.enc 42)
  | .fminF32 f => some (f.enc 43)
  | .fmaxF32 f => some (f.enc 44)
  | .fcmpF32 f => some (f.enc 45)
  | .fdivF32 f => some (f.enc 46)
  | .fsqrtF32 f => some (f.enc 47)
  | .faddF64 f => some (f.enc 48)
  | .fsubF64 f => some (f.enc 49)
  | .fmulF64 f => some (f.enc 50)
  | .fminF64 f => some (f.enc 51)
  | .fmaxF64 f => some (f.enc 52)
  | .fcmpF64 f => some (f.enc 53)
  | .fdivF64 f => some (f.enc 54)
  | .fsqrtF64 f => some (f.enc 55)
  | .popcB32 f => some (f.enc 56)
  | .clzB32 f => some (f.enc 57)
  | .brevB32 f => some (f.enc 58)
  | .movB32 f => some (f.enc 59)
  | .movB64 f => some (f.enc 60)
  | .fclassF32 f => some (f.enc 61)
  | .fclassF64 f => some (f.enc 62)
  | .add32X f => some (f.enc 64)
  | .sub32X f => some (f.enc 65)
  | .mul32X f => some (f.enc 66)
  | .andB32X f => some (f.enc 67)
  | .orB32X f => some (f.enc 68)
  | .xorB32X f => some (f.enc 69)
  | .andnB32X f => some (f.enc 70)
  | .shlB32X f => some (f.enc 71)
  | .shrB32X f => some (f.enc 72)
  | .sarB32X f => some (f.enc 73)
  | .minN32X f => some (f.enc 74)
  | .minI32X f => some (f.enc 75)
  | .maxN32X f => some (f.enc 76)
  | .maxI32X f => some (f.enc 77)
  | .addSatN32X f => some (f.enc 78)
  | .addSatI32X f => some (f.enc 79)
  | .cmpN32X f => some (f.enc 80)
  | .cmpI32X f => some (f.enc 81)
  | .movB32X f => some (f.enc 82)
  | .add64X f => some (f.enc 83)
  | .sub64X f => some (f.enc 84)
  | .cmpN64X f => some (f.enc 85)
  | .cmpI64X f => some (f.enc 86)
  | .movB64X f => some (f.enc 87)
  | .selB32 f => some (f.enc 88)
  | .selB64 f => some (f.enc 89)
  | .bfeN32 f => some (f.enc 90)
  | .bfeI32 f => some (f.enc 91)
  | .bfiB32 f => some (f.enc 92)
  | .mad32 f => some (f.enc 93)
  | .mad64 f => some (f.enc 94)
  | .shrrI32 f => some (f.enc 95)
  | .addI16x2 f => some (f.enc 96)
  | .subI16x2 f => some (f.enc 97)
  | .addSatI16x2 f => some (f.enc 98)
  | .subSatI16x2 f => some (f.enc 99)
  | .mulI16x2 f => some (f.enc 100)
  | .minI16x2 f => some (f.enc 101)
  | .maxI16x2 f => some (f.enc 102)
  | .packI16x2 f => some (f.enc 103)
  | .pdot2I16x2 f => some (f.enc 104)
  | .shrrSatI16 f => some (f.enc 105)
  | .addN8x4 f => some (f.enc 106)
  | .subN8x4 f => some (f.enc 107)
  | .addSatN8x4 f => some (f.enc 108)
  | .subSatN8x4 f => some (f.enc 109)
  | .minN8x4 f => some (f.enc 110)
  | .maxN8x4 f => some (f.enc 111)
  | .faddF32X f => some (f.enc 112)
  | .fmulF32X f => some (f.enc 113)
  | .ffmaF32 f => some (f.enc 114)
  | .fcmpF32X f => some (f.enc 115)
  | .faddF64X f => some (f.enc 116)
  | .fmulF64X f => some (f.enc 117)
  | .ffmaF64 f => some (f.enc 118)
  | .fcmpF64X f => some (f.enc 119)
  | .faddF16x2 f => some (f.enc 120)
  | .fmulF16x2 f => some (f.enc 121)
  | .ffmaF16x2 f => some (f.enc 122)
  | .faddBf16x2 f => some (f.enc 123)
  | .fmulBf16x2 f => some (f.enc 124)
  | .ffmaBf16x2 f => some (f.enc 125)
  | .fsubF32X f => some (f.enc 126)
  | .fsubF64X f => some (f.enc 127)
  | .ldGN8 f => some (f.enc 128)
  | .ldGI8 f => some (f.enc 129)
  | .ldGN16 f => some (f.enc 130)
  | .ldGI16 f => some (f.enc 131)
  | .ldGB32 f => some (f.enc 132)
  | .ldGB64 f => some (f.enc 133)
  | .ldGQual f q => some (f.encQ 134 q)
  | .stGB8 f => some (f.enc 135)
  | .stGB16 f => some (f.enc 136)
  | .stGB32 f => some (f.enc 137)
  | .stGB64 f => some (f.enc 138)
  | .stGQual f q => some (f.encQ 139 q)
  | .ldkB32 f k => some (f.encK 140 k)
  | .ldkB64 f k => some (f.encK 141 k)
  | .ldt d x tx n f32 => some (Raw.two 142 false false d x 0#7 (litWord (tx ++ n ++ ofBool2 f32 ++ 0#3 ++ 0#11)))
  | .stt t x tx n f32 round => some (Raw.two 143 false false t.code x 0#7 (litWord (tx ++ n ++ ofBool2 f32 ++ round.code ++ 0#11)))
  | .ldCmN8 f => some (f.enc 144)
  | .ldCmI8 f => some (f.enc 145)
  | .ldCmN16 f => some (f.enc 146)
  | .ldCmI16 f => some (f.enc 147)
  | .ldCmB32 f => some (f.enc 148)
  | .ldCmB64 f => some (f.enc 149)
  | .ldCmQual f q => some (f.encQ 150 q)
  | .stCmB8 f => some (f.enc 151)
  | .stCmB16 f => some (f.enc 152)
  | .stCmB32 f => some (f.enc 153)
  | .stCmB64 f => some (f.enc 154)
  | .stCmQual f q => some (f.encQ 155 q)
  | .atom f op q => some (Raw.two 156 false false f.d f.a.code f.b.code (litWord (q.code op.code)))
  | .atomCas f q => some (Raw.two 157 false false f.d f.a.code f.b.code (litWord (q.code 0#4)))
  | .fence k sc => some (Raw.one 158 0#7 0#7 (0#2 ++ k.code ++ sc.code))
  | .alloc d a t p => some (Raw.two 159 false false d a.code 0#7 (litWord (0#24 ++ BitVec.ofBool t ++ p)))
  | .free a => some (Raw.one 160 0#7 a.code 0#7)
  | .cpyIn f => some (f.enc 161)
  | .cpyOut f => some (f.enc 162)
  | .cpyG f => some (f.enc 163)
  | .waitc a b k => some (Raw.two 164 false false 0#7 a.code b.code (litWord k))
  | .qfence m => some (Raw.one 165 0#7 0#7 (0#3 ++ m))
  | .sclaim u n => some (Raw.two 166 false false u 125#7 0#7 (litWord (0#22 ++ n)))
  | .srel u n => some (Raw.two 167 false false u 125#7 0#7 (litWord (0#22 ++ n)))
  | .stkLd ctr x slot tx n => some (Raw.two 168 false false (ctrReg ctr) x 0#7 (litWord (slot ++ tx ++ n ++ ctrScope ctr ++ 0#9)))
  | .mtile f => some (f.enc 169)
  | .rzero rim => some (Raw.one 170 (rim ++ 0#4) 0#7 0#7)
  | .rimLd f => some (f.enc 171)
  | .rimSt f => some (f.enc 172)
  | .termrd d clr k => some (Raw.one 173 d 0#7 (0#3 ++ BitVec.ofBool clr ++ k))
  | .bra f => some (f.enc 192)
  | .brx a b k => some (Raw.two 193 false false 0#7 a.code b.code (litWord k))
  | .switch a n => some (Raw.two 194 false false 0#7 a.code 0#7 (litWord (n ++ 0#24)))
  | .call f => some (f.enc 195)
  | .ret a => some (Raw.one 196 0#7 a.code 0#7)
  | .exit => some (Raw.one 197 0#7 0#7 0#7)
  | .exitto a k => some (Raw.two 198 false false 0#7 a.code 0#7 (litWord k))
  | .rcb => some (Raw.one 199 0#7 0#7 0#7)
  | .bar => some (Raw.one 200 0#7 0#7 0#7)
  | .join a b => some (Raw.one 201 0#7 a.code b.code)
  | .leave => some (Raw.one 202 0#7 0#7 0#7)
  | .rgnOpen => some (Raw.one 203 0#7 0#7 0#7)
  | .rgnClose => some (Raw.one 204 0#7 0#7 0#7)
  | .scope n => some (Raw.two 205 false false 0#7 125#7 0#7 (litWord n))
  | .endscope => some (Raw.one 206 0#7 0#7 0#7)
  | .wpush a => some (Raw.one 207 0#7 a.code 0#7)
  | .wpop d p => some (Raw.one 208 d 0#7 (0#4 ++ p))
  | .sleep a k => some (Raw.two 209 false false 0#7 a.code 0#7 (litWord k))
  | .brk => some (Raw.one 210 0#7 0#7 0#7)
  | .trap n => some (Raw.two 211 false false 0#7 0#7 0#7 (litWord (0#12 ++ n)))
  | .nop => some (Raw.one 212 0#7 0#7 0#7)
  | .calle r off x orig => some (Raw.two 213 false false r (off.extractLsb' 7 7) (off.extractLsb' 0 7) (litWord (0#1 ++ BitVec.ofBool x ++ 0#5 ++ orig)))
  | .calleRet r => some (Raw.two 213 false false r 0#7 0#7 (litWord (1#1 ++ 0#27)))
  | .lmode m => some (Raw.one 214 0#7 0#7 (0#5 ++ m))
  | .lstat d clr k => some (Raw.one 215 d 0#7 (0#3 ++ BitVec.ofBool clr ++ k))
  | .shuf d a b => some (Raw.one 216 d a b.code)
  | .vote d m k => some (Raw.one 217 d (0#2 ++ m ++ k) 0#7)
  | .red d a o => some (Raw.one 218 d a (0#3 ++ o))
  | .bcast d a b => some (Raw.one 219 d a b.code)
  | .movs s c d a => some (Raw.oneSC 220 s c d a.code 0#7)
  | .cvt f => some (f.enc 221)
  | .rcpF32 f => some (f.enc 222)
  | .rcpF64 f => some (f.enc 223)
  | .rsqF32 f => some (f.enc 224)
  | .rsqF64 f => some (f.enc 225)
  | .exp2F32 f => some (f.enc 226)
  | .log2F32 f => some (f.enc 227)
  | .sinF32 f => some (f.enc 228)
  | .cosF32 f => some (f.enc 229)
  | .fminF16x2 f => some (f.enc 230)
  | .fmaxF16x2 f => some (f.enc 231)
  | .fminBf16x2 f => some (f.enc 232)
  | .fmaxBf16x2 f => some (f.enc 233)
  | .fcmpF16x2 cond p a b => some (Raw.one 234 (cond.code ++ 0#1 ++ p) a.code b.code)
  | .fcmpBf16x2 cond p a b => some (Raw.one 235 (cond.code ++ 0#1 ++ p) a.code b.code)
  | .fclassF16x2 f => some (f.enc 236)
  | .fclassBf16x2 f => some (f.enc 237)
  | .hclr h a k => some (Raw.two 238 false false (h ++ 0#4) a.code 0#7 (litWord k))
  | .hfma h n a b => some (Raw.one 239 (h ++ 0#3 ++ BitVec.ofBool n) a.code b.code)
  | .hfma3 h n a b vc g => some (Raw.two 240 false false (h ++ 0#3 ++ BitVec.ofBool n) a.code b.code (modWord vc.code (Modif.only g) false))
  | .hadd h n a => some (Raw.one 241 (h ++ 0#3 ++ BitVec.ofBool n) a.code 0#7)
  | .hsgn d h p => some (Raw.one 242 d (h ++ 0#4) (0#4 ++ p))
  | .hrnd d h => some (Raw.one 243 d (h ++ 0#4) 0#7)
  | .uAdd32 f => some (f.enc 256)
  | .uSub32 f => some (f.enc 257)
  | .uMul32 f => some (f.enc 258)
  | .uMulhiN32 f => some (f.enc 259)
  | .uMulhiI32 f => some (f.enc 260)
  | .uIdivN32 f => some (f.enc 261)
  | .uIdivI32 f => some (f.enc 262)
  | .uRemN32 f => some (f.enc 263)
  | .uRemI32 f => some (f.enc 264)
  | .uAndB32 f => some (f.enc 265)
  | .uOrB32 f => some (f.enc 266)
  | .uXorB32 f => some (f.enc 267)
  | .uShlB32 f => some (f.enc 268)
  | .uShrB32 f => some (f.enc 269)
  | .uSarB32 f => some (f.enc 270)
  | .uMinN32 f => some (f.enc 271)
  | .uMinI32 f => some (f.enc 272)
  | .uMaxN32 f => some (f.enc 273)
  | .uMaxI32 f => some (f.enc 274)
  | .uAdd64 f => some (f.enc 275)
  | .uSub64 f => some (f.enc 276)
  | .uMul64 f => some (f.enc 277)
  | .uShlB64 f => some (f.enc 278)
  | .uShrB64 f => some (f.enc 279)
  | .uCmpN32 f => some (f.enc 280)
  | .uCmpI32 f => some (f.enc 281)
  | .uCmpN64 f => some (f.enc 282)
  | .uCmpI64 f => some (f.enc 283)
  | .uPlog f => some (f.enc 284)
  | .uMovB32 f => some (f.enc 285)
  | .uMovB64 f => some (f.enc 286)
  | .uPopcB32 f => some (f.enc 287)
  | .uAdd32X f => some (f.enc 288)
  | .uSub32X f => some (f.enc 289)
  | .uMul32X f => some (f.enc 290)
  | .uAndB32X f => some (f.enc 291)
  | .uOrB32X f => some (f.enc 292)
  | .uXorB32X f => some (f.enc 293)
  | .uShlB32X f => some (f.enc 294)
  | .uShrB32X f => some (f.enc 295)
  | .uSarB32X f => some (f.enc 296)
  | .uMinN32X f => some (f.enc 297)
  | .uMinI32X f => some (f.enc 298)
  | .uMaxN32X f => some (f.enc 299)
  | .uMaxI32X f => some (f.enc 300)
  | .uAdd64X f => some (f.enc 301)
  | .uCmpN32X f => some (f.enc 302)
  | .uCmpI32X f => some (f.enc 303)
  | .uCmpN64X f => some (f.enc 304)
  | .uCmpI64X f => some (f.enc 305)
  | .uMovB32X f => some (f.enc 306)
  | .uMovB64X f => some (f.enc 307)
  | .uSelB32 f => some (f.enc 308)
  | .uSelB64 f => some (f.enc 309)
  | .uBfeN32 f => some (f.enc 310)
  | .uMad32 f => some (f.enc 311)
  | .uFaddF32 f => some (f.enc 312)
  | .uFmulF32 f => some (f.enc 313)
  | .uFfmaF32 f => some (f.enc 314)
  | .uFcmpF32 f => some (f.enc 315)
  | .uFaddF64 f => some (f.enc 316)
  | .uFmulF64 f => some (f.enc 317)
  | .uFfmaF64 f => some (f.enc 318)
  | .uCvt f => some (f.enc 319)
  | .sBra f => some (f.enc 320)
  | .sBrx a b k => some (Raw.two 321 false false 0#7 a.code b.code (litWord k))
  | .sCall f => some (f.enc 322)
  | .sRet a => some (Raw.one 323 0#7 a.code 0#7)
  | .sExit => some (Raw.one 324 0#7 0#7 0#7)
  | .dpush a w => some (Raw.one 325 (0#6 ++ BitVec.ofBool w) a.code 0#7)
  | .dpop d w => some (Raw.one 326 d.code 0#7 (0#6 ++ BitVec.ofBool w))
  | .bucket d a n => some (Raw.two 327 false false (0#1 ++ d) (0#1 ++ a) 0#7 (litWord (0#26 ++ n)))
  | .nodeput d a => some (Raw.one 328 d.code a.code 0#7)
  | .waitn d a b k => some (Raw.two 329 false false d.code a.code b.code (litWord k))
  | .ckpt => some (Raw.one 330 0#7 0#7 0#7)
  | .yield => some (Raw.one 331 0#7 0#7 0#7)
  | .sNop => some (Raw.one 333 0#7 0#7 0#7)
  | .uLdGB32 f => some (f.enc 384)
  | .uLdGB64 f => some (f.enc 385)
  | .uStGB32 f => some (f.enc 386)
  | .uStGB64 f => some (f.enc 387)
  | .uLdCmB32 f => some (f.enc 388)
  | .uLdCmB64 f => some (f.enc 389)
  | .uStCmB32 f => some (f.enc 390)
  | .uStCmB64 f => some (f.enc 391)
  | .uLdGQual f q => some (f.encQ 392 q)
  | .uStGQual f q => some (f.encQ 393 q)
  | .uLdCmQual f q => some (f.encQ 394 q)
  | .uStCmQual f q => some (f.encQ 395 q)
  | .uLdkB32 f k => some (f.encK 396 k)
  | .uLdkB64 f k => some (f.encK 397 k)
  | .uAtom f op q => some (Raw.two 398 false false f.d.code f.a.code f.b.code (litWord (q.code op.code)))
  | .uFence k sc => some (Raw.one 399 0#7 0#7 (0#2 ++ k.code ++ sc.code))
  | .uAlloc d a t p => some (Raw.two 400 false false (0#1 ++ d) a.code 0#7 (litWord (0#24 ++ BitVec.ofBool t ++ p)))
  | .uFree a => some (Raw.one 401 0#7 a.code 0#7)
  | .uCpyIn f => some (f.enc 402)
  | .uCpyOut f => some (f.enc 403)
  | .uCpyG f => some (f.enc 404)
  | .uWaitc a b k => some (Raw.two 405 false false 0#7 a.code b.code (litWord k))
  | .uQfence m => some (Raw.one 406 0#7 0#7 (0#3 ++ m))
  | .rdcnt d a => some (Raw.one 407 (0#1 ++ d) a.code 0#7)
  | .csrr d n => some (Raw.two 408 false false d.code 125#7 0#7 (litWord (0#16 ++ n)))
  | .csrw b n => some (Raw.two 409 false false 0#7 125#7 b.code (litWord (0#16 ++ n)))
  | .rft => some (Raw.one 410 0#7 0#7 0#7)
  | .fgetPc d => some (Raw.two 411 false false (0#1 ++ d) 0#7 0#7 (litWord (0#2 ++ 0#5 ++ 0#7 ++ 0#14)))
  | .fgetMask d => some (Raw.two 411 false false d.code 0#7 0#7 (litWord (1#2 ++ 0#5 ++ 0#7 ++ 0#14)))
  | .fgetPrio d => some (Raw.two 411 false false d.code 0#7 0#7 (litWord (2#2 ++ 0#5 ++ 0#7 ++ 0#14)))
  | .fgetReg d t r => some (Raw.two 411 false false d.code 0#7 0#7 (litWord (3#2 ++ t ++ r ++ 0#14)))
  | .fsetPc a => some (Raw.two 412 false false 0#7 a.code 0#7 (litWord (0#2 ++ 0#5 ++ 0#7 ++ 0#14)))
  | .fsetMask a => some (Raw.two 412 false false 0#7 a.code 0#7 (litWord (1#2 ++ 0#5 ++ 0#7 ++ 0#14)))
  | .fsetReg a t r => some (Raw.two 412 false false 0#7 a.code 0#7 (litWord (3#2 ++ t ++ r ++ 0#14)))
  | .xlinv a b sc => some (Raw.two 413 false false 0#7 a.code b.code (litWord (0#25 ++ sc.code)))
  | .injsetSeed a => some (Raw.two 414 false false 0#7 a.code 0#7 (litWord (0#25 ++ 0#3)))
  | .injsetRate a => some (Raw.two 414 false false 0#7 a.code 0#7 (litWord (0#25 ++ 1#3)))
  | .injsetClasses a => some (Raw.two 414 false false 0#7 a.code 0#7 (litWord (0#25 ++ 2#3)))
  | .injsetShot a => some (Raw.two 414 false false 0#7 a.code 0#7 (litWord (0#25 ++ 3#3)))
  | .injsetArm a => some (Raw.two 414 false false 0#7 a.code 0#7 (litWord (0#25 ++ 4#3)))
  | .nodePost _ _ _ => none
  | .nodeputDone _ => none
  | .instanceAdmit _ => none
  | .weaveAdmit _ _ _ => none
  | .admissionStarvation _ => none
  | .nodeAging _ => none
  | .balancerSample _ => none
  | .instanceYield _ _ => none
  | .instanceReadmit _ => none
  | .kernelNodeComplete _ => none
  | .tileNodeRun _ => none
  | .trapDelivery _ => none
  | .poisonContainment _ => none
  | .freeze _ _ _ => none
  | .resume _ _ => none
  | .weaveRestart _ _ => none
  | .rcbRelease _ _ => none
  | .sleepExpire _ _ => none
  | .feLoadWake _ _ => none
  | .joinGrant _ _ => none
  | .scopeGrant _ => none
  | .sclaimGrant _ => none
  | .dpushAppend _ _ => none
  | .dpopTake _ _ => none
  | .wpushAppend _ _ => none
  | .wpopTake _ _ => none
  | .waitcComplete _ => none
  | .waitnComplete _ => none
  | .waitnLimit _ => none
  | .yieldComplete _ _ => none
  | .ckptRecord _ _ => none
  | .pairedExitRelease _ _ => none
  | .memoryResultArrive _ => none
  | .storeQueueDrain _ => none
  | .cpyInPerform _ _ => none
  | .cpyOutPerform _ _ => none
  | .cpyGPerform _ _ => none
  | .stkLdPerform _ => none
  | .mtileStart _ => none
  | .mtileComplete _ => none
  | .rzeroPerform _ => none
  | .rimLdPerform _ => none
  | .rimStPerform _ => none
  | .srelPerform _ => none
  | .valueStoreEpochFlush _ => none
  | .pairCompare _ _ => none
  | .injectorFire _ _ _ => none
  | .coreErrorWindow _ => none
  | .patternTestDone _ _ => none
  | .channelRetire _ _ => none
  | .coreLend _ _ => none
  | .revoke _ => none
  | .revokeFreezeTimeout _ _ => none
  | .coreScrub _ => none
  | .start _ _ _ => none
  | .startWatchdogExpire => none
  | .firmwareLoad _ _ => none
  | .fullStartRequest => none
  | .undervoltageStop => none
  | .thermalStep _ => none
  | .powerCapWindow _ => none
  | .setPowerCap _ => none
  | .partitionConfigWrite _ _ => none
  | .vfRecordWrite _ _ => none
  | .vfStateWrite _ _ => none
  | .heapWrite _ _ _ => none
  | .scopePolicyWrite _ _ => none
  | .mgmtRegisterWrite _ _ _ _ => none
  | .counterLowRead _ _ _ => none
  | .counterHighRead _ => none
  | .granuleTakeBack _ => none
  | .backgroundScrub _ => none
  | .shootdownMessage _ _ _ _ => none
  | .shootdownComplete _ => none
  | .writeTrapAck _ => none
  | .rmaWrite _ _ _ => none
  | .rmaRead _ _ _ => none
  | .rmaAtomic _ _ => none
  | .remoteAccess _ _ _ => none
  | .attestationRequest _ _ => none
  | .watchpointWrite _ _ _ => none
  | .samplingExponentWrite _ _ => none
  | .traceMessageSend _ => none
  | .errorThresholdWrite _ => none
  | .coreBinReset _ => none
  | .wordNotInstruction => none
  | .l1Eviction _ _ => none
  | .softError _ _ => none
  | .inputBelow40v => none
  | .unimplementedModePacket _ => none
  | .trustListInstall _ => none

/-- The length in bytes of the words that are decoded; the table of `switch` (R130) and the argument of `calle` (R429) follow. -/
def Instr.words (i : Instr) : Nat :=
  match encode i with
  | some (_, some _) => 8
  | _ => 4

/-- A little-endian word of four bytes (R3). -/
def wordOfBytes (b0 b1 b2 b3 : Byte) : Word := b3 ++ b2 ++ b1 ++ b0

/-- Decode the first instruction of a list of bytes and give the bytes after it. -/
noncomputable def decodeBytes : List Byte → Option (Instr × List Byte)
  | b0 :: b1 :: b2 :: b3 :: rest =>
    let w := wordOfBytes b0 b1 b2 b3
    if isTwoWord w then
      match rest with
      | c0 :: c1 :: c2 :: c3 :: rest' =>
        match decodeWords w (wordOfBytes c0 c1 c2 c3) with
        | some i => some (i, rest')
        | none => none
      | _ => none
    else
      match decodeWords w 0#32 with
      | some i => some (i, rest)
      | none => none
  | _ => none

/-- The n little-endian bytes of a number. -/
def bytesOfNat : Nat → Nat → List Byte
  | 0, _ => []
  | n + 1, v => BitVec.ofNat 8 v :: bytesOfNat n (v / 256)

/-- The instruction the decoder reads from `nbits` bits of w, the bits above them zero. -/
noncomputable def decodeTableWord (nbits w : Nat) : Option Instr :=
  match decodeBytes (bytesOfNat 8 (w % 2 ^ nbits)) with
  | some (i, _) => some i
  | none => none

end Sys2Proof
end

