-- ==== Sys2Proof/Machine/Flags.lean ====
section
/-!
DEFINITION. The sticky flags (R219, R220), `$mode` (R221) and the trap an enabled flag raises (R222). The flag results of
each operation stand beside its value in Numbers, IntAlu and FpAlu.
-/

namespace Sys2Proof.Machine

open Sys2Proof

/-! ## Flags (R219, R220) -/

def fIV : Flags := 1#6
def fDZ : Flags := 2#6
def fOF : Flags := 4#6
def fUF : Flags := 8#6
def fNX : Flags := 16#6
def fSAT : Flags := 32#6

/-- A flag raised on a condition. -/
def flagIf (c : Bool) (f : Flags) : Flags := if c then f else 0#6

/-! ## `$mode` (R221) -/

/-- `$mode` at the start of a weave, a steer thread and a delivery: rn, no trap enabled. -/
def modeStart : Word := 1#32

/-- A write of `$mode`: reserved bits read 0, and a rnd of 000, 110 or 111 leaves the field unchanged. -/
def modeWrite (old v : Word) : Word :=
  let r := v &&& 7#32
  let rnd := if 1 ≤ r.toNat ∧ r.toNat ≤ 5 then r else old &&& 7#32
  (v &&& 0x1f0#32) ||| rnd

/-- A write of `$flags` takes bits 5:0 (R34, R220). -/
def flagsWrite (v : Word) : Flags := v.extractLsb' 0 6

/-- The cause code of the lowest enabled floating-point flag among those raised (R106, R222); none when no enabled flag is
raised. SAT has no enable. -/
def fpTrap (mode : Word) (raised : Flags) : Option Nat :=
  if mode.getLsbD 4 && raised.getLsbD 0 then some 0x28
  else if mode.getLsbD 5 && raised.getLsbD 1 then some 0x29
  else if mode.getLsbD 6 && raised.getLsbD 2 then some 0x2a
  else if mode.getLsbD 7 && raised.getLsbD 3 then some 0x2b
  else if mode.getLsbD 8 && raised.getLsbD 4 then some 0x2c
  else none

end Sys2Proof.Machine
end

