-- ==== Sys2Proof/Machine/IntAlu.lean ====
section
/-!
DEFINITION. The integer, bit, packed and predicate operations (11 R268 to R286) as functions of their operand values. A
32-bit operand stands in the low half of a double; a 32-bit result is zero-extended (R47).
-/

namespace Sys2Proof.Machine

open Sys2Proof

/-- The value a 32-bit read takes from a double (R47). -/
def lo32 (x : Double) : Word := x.setWidth 32
/-- A 32-bit result zero-extended. -/
def z64 (w : Word) : Double := w.setWidth 64

/-- An operation on two operands: result and flags. -/
abbrev Op2 := Double → Double → Double × Flags
abbrev Op1 := Double → Double × Flags
abbrev Op3 := Double → Double → Double → Double × Flags

/-- A 32-bit operation that raises no flag. -/
def op32 (f : Word → Word → Word) : Op2 := fun a b => (z64 (f (lo32 a) (lo32 b)), 0#6)
/-- A 64-bit operation that raises no flag. -/
def op64 (f : Double → Double → Double) : Op2 := fun a b => (f a b, 0#6)

/-- `wrap(x, w)` (11, pseudocode helpers). -/
def wrapTo (w : Nat) (x : Int) : BitVec w := BitVec.ofInt w x

/-- `sat(x, lo, hi)` and whether it clamped. -/
def satTo (lo hi x : Int) : Int × Bool := if x < lo then (lo, true) else if hi < x then (hi, true) else (x, false)

/-- A saturating 32-bit result with its SAT flag (R270). -/
def sat32 (lo hi x : Int) : Double × Flags :=
  let r := satTo lo hi x
  (z64 (wrapTo 32 r.1), flagIf r.2 fSAT)

def addSatN32 : Op2 := fun a b => sat32 0 (2 ^ 32 - 1) ((lo32 a).toNat + (lo32 b).toNat)
def addSatI32 : Op2 := fun a b => sat32 (-(2 ^ 31)) (2 ^ 31 - 1) ((lo32 a).toInt + (lo32 b).toInt)
def subSatN32 : Op2 := fun a b => sat32 0 (2 ^ 32 - 1) ((lo32 a).toNat - (lo32 b).toNat)
def subSatI32 : Op2 := fun a b => sat32 (-(2 ^ 31)) (2 ^ 31 - 1) ((lo32 a).toInt - (lo32 b).toInt)

/-- Bits 63:32 of the exact product (R269). -/
def mulhiN (a b : Word) : Word := BitVec.ofNat 32 (a.toNat * b.toNat / 2 ^ 32)
def mulhiI (a b : Word) : Word := wrapTo 32 (a.toInt * b.toInt / 2 ^ 32)

/-- Unsigned division; a zero divisor gives all ones and DZ (R271). -/
def udiv {w : Nat} (a b : BitVec w) : BitVec w × Flags :=
  if b = 0 then (BitVec.allOnes w, fDZ) else (BitVec.ofNat w (a.toNat / b.toNat), 0#6)

/-- Signed division toward zero with the borderline cases of R271. -/
def sdiv {w : Nat} (a b : BitVec w) : BitVec w × Flags :=
  let hi : Int := 2 ^ (w - 1) - 1
  if b = 0 then (if 0 ≤ a.toInt then (wrapTo w hi, fDZ) else (wrapTo w (-hi - 1), fDZ))
  else if a.toInt = -hi - 1 ∧ b.toInt = -1 then (wrapTo w hi, fSAT)
  else (wrapTo w (a.toInt.tdiv b.toInt), 0#6)

def idivN32 : Op2 := fun a b => let r := udiv (lo32 a) (lo32 b); (z64 r.1, r.2)
def idivI32 : Op2 := fun a b => let r := sdiv (lo32 a) (lo32 b); (z64 r.1, r.2)
def idivN64 : Op2 := fun a b => udiv a b
def idivI64 : Op2 := fun a b => sdiv a b
/-- The remainder keeps the dividend's sign; a zero divisor gives a and DZ (R271). -/
def remN32 : Op2 := fun a b =>
  if lo32 b = 0#32 then (z64 (lo32 a), fDZ) else (z64 (BitVec.ofNat 32 ((lo32 a).toNat % (lo32 b).toNat)), 0#6)
def remI32 : Op2 := fun a b =>
  if lo32 b = 0#32 then (z64 (lo32 a), fDZ) else (z64 (wrapTo 32 ((lo32 a).toInt.tmod (lo32 b).toInt)), 0#6)

def minN (a b : Word) : Word := if a.toNat ≤ b.toNat then a else b
def maxN (a b : Word) : Word := if a.toNat ≤ b.toNat then b else a
def minI (a b : Word) : Word := if a.toInt ≤ b.toInt then a else b
def maxI (a b : Word) : Word := if a.toInt ≤ b.toInt then b else a

/-- Shifts by an unsigned 32-bit count (R274). -/
def shlW {w : Nat} (a : BitVec w) (n : Nat) : BitVec w := if w ≤ n then 0 else a <<< n
def shrW {w : Nat} (a : BitVec w) (n : Nat) : BitVec w := if w ≤ n then 0 else a >>> n
def sarW {w : Nat} (a : BitVec w) (n : Nat) : BitVec w := a.sshiftRight (if w ≤ n then w else n)

def shlB32 : Op2 := fun a b => (z64 (shlW (lo32 a) (lo32 b).toNat), 0#6)
def shrB32 : Op2 := fun a b => (z64 (shrW (lo32 a) (lo32 b).toNat), 0#6)
def sarB32 : Op2 := fun a b => (z64 (sarW (lo32 a) (lo32 b).toNat), 0#6)
def shlB64 : Op2 := fun a b => (shlW a (lo32 b).toNat, 0#6)
def shrB64 : Op2 := fun a b => (shrW a (lo32 b).toNat, 0#6)
def sarB64 : Op2 := fun a b => (sarW a (lo32 b).toNat, 0#6)

/-- The number of set bits among the low k. -/
def popCount {w : Nat} (a : BitVec w) : Nat → Nat
  | 0 => 0
  | k + 1 => popCount a k + (if a.getLsbD k then 1 else 0)

/-- Bits reversed (R275). -/
def revBits (a : Word) : Nat → Word
  | 0 => 0#32
  | k + 1 => revBits a k ||| (if a.getLsbD k then 1#32 <<< (31 - k) else 0#32)

def popcB32 : Op1 := fun a => (z64 (BitVec.ofNat 32 (popCount (lo32 a) 32)), 0#6)
def clzB32 : Op1 := fun a =>
  let n := (lo32 a).toNat
  (z64 (BitVec.ofNat 32 (if n = 0 then 32 else 31 - Nat.log2 n)), 0#6)
def brevB32 : Op1 := fun a => (z64 (revBits (lo32 a) 32), 0#6)
def movB32 : Op1 := fun a => (z64 (lo32 a), 0#6)
def movB64 : Op1 := fun a => (a, 0#6)

/-- `bfe` (R276): position in bits 7:0 and width in bits 15:8 of the control. -/
def bfe (signed : Bool) : Op2 := fun a b =>
  let p := ((lo32 b).extractLsb' 0 8).toNat
  let q := ((lo32 b).extractLsb' 8 8).toNat
  if q = 0 then (0#64, 0#6)
  else
    let q' := min q 32
    let v := lo32 a
    let ext : Int := if signed then v.toInt else v.toNat
    let f : Int := (ext / 2 ^ p) % 2 ^ q'
    let d : Int := if signed && decide (2 ^ (q' - 1) ≤ f) then f - 2 ^ q' else f
    (z64 (wrapTo 32 d), 0#6)

/-- `bfi` (R277). -/
def bfi : Op3 := fun a b c =>
  let p := ((lo32 c).extractLsb' 0 8).toNat
  let q := ((lo32 c).extractLsb' 8 8).toNat
  if q = 0 ∨ 32 ≤ p then (z64 (lo32 a), 0#6)
  else
    let q' := min q (32 - p)
    let mask : Word := BitVec.ofNat 32 ((2 ^ q' - 1) * 2 ^ p)
    (z64 ((lo32 a &&& ~~~mask) ||| ((lo32 b <<< p) &&& mask)), 0#6)

/-- Right shift with rounding, ties toward +∞ (R286). -/
def shrrVal (a : Int) (n : Nat) : Int :=
  if n = 0 then a else if 32 ≤ n then 0 else (a + 2 ^ (n - 1)) / 2 ^ n

def shrrI32 : Op2 := fun a b => (z64 (wrapTo 32 (shrrVal (lo32 a).toInt (lo32 b).toNat)), 0#6)
def shrrSatI16 : Op2 := fun a b =>
  let r := satTo (-32768) 32767 (shrrVal (lo32 a).toInt (lo32 b).toNat)
  (z64 (wrapTo 32 r.1), flagIf r.2 fSAT)

/-! ## Packed forms (R283 to R285) -/

/-- Element k of an i16x2 register. -/
def el16 (x : Double) (k : Nat) : BitVec 16 := x.extractLsb' (16 * k) 16
/-- Element k of an n8x4 register. -/
def el8 (x : Double) (k : Nat) : BitVec 8 := x.extractLsb' (8 * k) 8

def join16 (e1 e0 : BitVec 16) : Double := z64 (e1 ++ e0)
def join8 (e3 e2 e1 e0 : BitVec 8) : Double := z64 (e3 ++ e2 ++ e1 ++ e0)

/-- A packed operation on two signed halves; each element gives its result and whether it clamped. -/
def i16x2 (f : Int → Int → Int × Bool) : Op2 := fun a b =>
  let r0 := f (el16 a 0).toInt (el16 b 0).toInt
  let r1 := f (el16 a 1).toInt (el16 b 1).toInt
  (join16 (wrapTo 16 r1.1) (wrapTo 16 r0.1), flagIf (r0.2 || r1.2) fSAT)

/-- A packed operation on four unsigned bytes. -/
def n8x4 (f : Int → Int → Int × Bool) : Op2 := fun a b =>
  let r0 := f (el8 a 0).toNat (el8 b 0).toNat
  let r1 := f (el8 a 1).toNat (el8 b 1).toNat
  let r2 := f (el8 a 2).toNat (el8 b 2).toNat
  let r3 := f (el8 a 3).toNat (el8 b 3).toNat
  (join8 (wrapTo 8 r3.1) (wrapTo 8 r2.1) (wrapTo 8 r1.1) (wrapTo 8 r0.1), flagIf (r0.2 || r1.2 || r2.2 || r3.2) fSAT)

def addI16x2 : Op2 := i16x2 fun a b => (a + b, false)
def subI16x2 : Op2 := i16x2 fun a b => (a - b, false)
def addSatI16x2 : Op2 := i16x2 fun a b => satTo (-32768) 32767 (a + b)
def subSatI16x2 : Op2 := i16x2 fun a b => satTo (-32768) 32767 (a - b)
def mulI16x2 : Op2 := i16x2 fun a b => (a * b, false)
def minI16x2 : Op2 := i16x2 fun a b => (min a b, false)
def maxI16x2 : Op2 := i16x2 fun a b => (max a b, false)
def addN8x4 : Op2 := n8x4 fun a b => (a + b, false)
def subN8x4 : Op2 := n8x4 fun a b => (a - b, false)
def addSatN8x4 : Op2 := n8x4 fun a b => satTo 0 255 (a + b)
def subSatN8x4 : Op2 := n8x4 fun a b => satTo 0 255 (a - b)
def minN8x4 : Op2 := n8x4 fun a b => (min a b, false)
def maxN8x4 : Op2 := n8x4 fun a b => (max a b, false)

/-- `pack.i16x2` (R284). -/
def packI16x2 : Op2 := fun a b =>
  let r0 := satTo (-32768) 32767 (lo32 a).toInt
  let r1 := satTo (-32768) 32767 (lo32 b).toInt
  (join16 (wrapTo 16 r1.1) (wrapTo 16 r0.1), flagIf (r0.2 || r1.2) fSAT)

/-- `pdot2.i16x2` (R285): both products added exactly, one saturation. -/
def pdot2 : Op3 := fun a b c =>
  sat32 (-(2 ^ 31)) (2 ^ 31 - 1)
    ((lo32 c).toInt + (el16 a 0).toInt * (el16 b 0).toInt + (el16 a 1).toInt * (el16 b 1).toInt)

/-! ## Compares and predicate logic (R281, R282) -/

/-- A relation of integers; un and ord do not occur (R35). -/
def condInts (c : Cond) (a b : Int) : Bool :=
  match c with
  | .eq => decide (a = b)
  | .ne => decide (a ≠ b)
  | .lt => decide (a < b)
  | .le => decide (a ≤ b)
  | .gt => decide (b < a)
  | .ge => decide (b ≤ a)
  | .un => false
  | .ord => true

def cmpN32 (c : Cond) (a b : Double) : Bool := condInts c (lo32 a).toNat (lo32 b).toNat
def cmpI32 (c : Cond) (a b : Double) : Bool := condInts c (lo32 a).toInt (lo32 b).toInt
def cmpN64 (c : Cond) (a b : Double) : Bool := condInts c a.toNat b.toNat
def cmpI64 (c : Cond) (a b : Double) : Bool := condInts c a.toInt b.toInt

/-- Bit 2 · a + b of the truth table (R282). -/
def plogBit (t : BitVec 4) (a b : Bool) : Bool := t.getLsbD ((if a then 2 else 0) + (if b then 1 else 0))

end Sys2Proof.Machine
end

