-- ==== Sys2Proof/Machine/Numbers.lean ====
section
/-!
DEFINITION. Number formats and rounding (09): exact values, the rounding helpers of R226, narrow formats (R227 to R229),
the class mask, comparison and the conversions of R299. Every operation computes exactly and rounds once.
-/

namespace Sys2Proof.Machine

open Sys2Proof

/-- A resolved rounding mode (R223). -/
inductive RMode
  | rn | rz | ru | rd | rs
deriving DecidableEq, Repr, Inhabited

/-- An exact value: a NaN (signalling or quiet), an infinity, or a sign with magnitude m · 2^e. With `sticky` the magnitude
lies strictly between m · 2^e and (m + 1) · 2^e, and m then carries more bits than any rounding here inspects. -/
inductive Xv
  | nan (sig : Bool)
  | inf (neg : Bool)
  | fin (neg : Bool) (m : Nat) (e : Int) (sticky : Bool)
deriving DecidableEq, Repr, Inhabited

/-- An encoded result and the flags it raises (R219). -/
structure Rounded where
  bits : Nat
  flags : Flags
deriving DecidableEq, Repr, Inhabited

/-! ## IEEE formats (R217) -/

/-- An IEEE binary format: exponent bits and fraction bits. -/
structure Fmt where
  eb : Nat
  fb : Nat
deriving DecidableEq, Repr, Inhabited

def Fmt.f64 : Fmt := ⟨11, 52⟩
def Fmt.f32 : Fmt := ⟨8, 23⟩
def Fmt.f16 : Fmt := ⟨5, 10⟩
def Fmt.bf16 : Fmt := ⟨8, 7⟩

def Fmt.bias (f : Fmt) : Int := (2 ^ (f.eb - 1) : Nat) - 1
/-- Exponent of the lowest bit of a subnormal. -/
def Fmt.qmin (f : Fmt) : Int := 1 - f.bias - f.fb
/-- Encoding of +∞. -/
def Fmt.infBits (f : Fmt) : Nat := (2 ^ f.eb - 1) * 2 ^ f.fb
/-- The canonical NaN (R217). -/
def Fmt.nanBits (f : Fmt) : Nat := f.infBits + 2 ^ (f.fb - 1)
def Fmt.signBit (f : Fmt) : Nat := 2 ^ (f.eb + f.fb)
def Fmt.withSign (f : Fmt) (neg : Bool) (b : Nat) : Nat := if neg then f.signBit + b else b

/-- The value of an encoding (R217, R218). -/
def Fmt.value (f : Fmt) (b : Nat) : Xv :=
  let neg := b / f.signBit % 2 == 1
  let e := b / 2 ^ f.fb % 2 ^ f.eb
  let m := b % 2 ^ f.fb
  if e == 2 ^ f.eb - 1 then (if m == 0 then .inf neg else .nan (m < 2 ^ (f.fb - 1)))
  else if e == 0 then .fin neg m f.qmin false
  else .fin neg (2 ^ f.fb + m) (f.qmin + (e - 1 : Nat)) false

def Xv.isNan : Xv → Bool
  | .nan _ => true
  | _ => false

def Xv.isSig : Xv → Bool
  | .nan s => s
  | _ => false

def Xv.neg : Xv → Xv
  | .nan s => .nan s
  | .inf n => .inf (!n)
  | .fin n m e s => .fin (!n) m e s

def Xv.isNeg : Xv → Bool
  | .nan _ => false
  | .inf n => n
  | .fin n _ _ _ => n

def Xv.isZero : Xv → Bool
  | .fin _ m _ s => m == 0 && !s
  | _ => false

def bitLen (m : Nat) : Nat := if m = 0 then 0 else Nat.log2 m + 1

/-- A magnitude m · 2^e in units of 2^q: whole part, remainder and the remainder's denominator. -/
def splitAt (m : Nat) (e q : Int) : Nat × Nat × Nat :=
  if q ≤ e then (m * 2 ^ (e - q).toNat, 0, 1)
  else
    let d := 2 ^ (q - e).toNat
    (m / d, m % d, d)

/-- Whether a magnitude between two neighbours goes to the upper one (R223, R224). `odd`: the lower neighbour is odd. -/
def roundsUp (mode : RMode) (neg odd : Bool) (rem den : Nat) (sticky : Bool) (draw : Word) : Bool :=
  match mode with
  | .rn => decide (2 * rem > den) || (decide (2 * rem = den) && (sticky || odd))
  | .rz => false
  | .ru => !neg && (decide (rem ≠ 0) || sticky)
  | .rd => neg && (decide (rem ≠ 0) || sticky)
  | .rs => decide (2 ^ 32 ≤ 2 ^ 32 * rem / den + draw.toNat)

/-- The magnitude delivered on overflow is infinite, or else the largest finite one (R226). -/
def overflowsToInf (mode : RMode) (neg up : Bool) : Bool :=
  match mode with
  | .rn => true
  | .rz => false
  | .ru => !neg
  | .rd => neg
  | .rs => up

/-- `round_T` for an IEEE format (R226). -/
def roundIeee (f : Fmt) (mode : RMode) (draw : Word) (x : Xv) : Rounded :=
  match x with
  | .nan sig => ⟨f.nanBits, flagIf sig fIV⟩
  | .inf neg => ⟨f.withSign neg f.infBits, 0#6⟩
  | .fin neg m e sticky =>
    if m = 0 ∧ sticky = false then ⟨f.withSign neg 0, 0#6⟩
    else
      let top : Int := (bitLen m : Int) - 1 + e
      let q := max (top - f.fb) f.qmin
      let (n, rem, den) := splitAt m e q
      let up := roundsUp mode neg (n % 2 == 1) rem den sticky draw
      let mag := (q - f.qmin).toNat * 2 ^ f.fb + n + (if up then 1 else 0)
      let inexact := decide (rem ≠ 0) || sticky
      if f.infBits ≤ mag then
        ⟨f.withSign neg (if overflowsToInf mode neg up then f.infBits else f.infBits - 1), fOF ||| fNX⟩
      else
        -- tiny after rounding: rounded with an unbounded exponent, still below the least normal
        let (n', rem', den') := splitAt m e (top - f.fb)
        let up' := roundsUp mode neg (n' % 2 == 1) rem' den' sticky draw
        let whole := n' + (if up' then 1 else 0)
        let tiny := decide (top < 1 - f.bias) && !(decide (top = -f.bias) && decide (whole = 2 ^ (f.fb + 1)))
        ⟨f.withSign neg mag, flagIf inexact fNX ||| flagIf (inexact && tiny) fUF⟩

/-! ## Exact arithmetic -/

/-- Signed integer times 2^e. -/
def dyad (neg : Bool) (m : Nat) (e : Int) (E : Int) : Int :=
  let v : Int := m * 2 ^ (e - E).toNat
  if neg then -v else v

/-- a + b of finite values; an exact zero sum has the sign IEEE 754 gives it in the mode (R292). -/
def Xv.add (mode : RMode) (a b : Xv) : Xv × Flags :=
  match a, b with
  | .nan s, b => (.nan false, flagIf (s || b.isSig) fIV)
  | a, .nan s => (.nan false, flagIf (s || a.isSig) fIV)
  | .inf n, .inf k => if n = k then (.inf n, 0#6) else (.nan false, fIV)
  | .inf n, _ => (.inf n, 0#6)
  | _, .inf n => (.inf n, 0#6)
  | .fin n m e _, .fin k l g _ =>
    let E := min e g
    let v := dyad n m e E + dyad k l g E
    if v = 0 then
      let z := if m = 0 ∧ l = 0 ∧ n = k then n else (mode == .rd)
      (.fin z 0 0 false, 0#6)
    else (.fin (decide (v < 0)) v.natAbs E false, 0#6)

/-- a × b. -/
def Xv.mul (a b : Xv) : Xv × Flags :=
  match a, b with
  | .nan s, b => (.nan false, flagIf (s || b.isSig) fIV)
  | a, .nan s => (.nan false, flagIf (s || a.isSig) fIV)
  | .inf n, b => if b.isZero then (.nan false, fIV) else (.inf (n != b.isNeg), 0#6)
  | a, .inf n => if a.isZero then (.nan false, fIV) else (.inf (n != a.isNeg), 0#6)
  | .fin n m e _, .fin k l g _ => (.fin (n != k) (m * l) (e + g) false, 0#6)

/-- a × b + c with no intermediate rounding; 0 × ∞ is invalid even beside a quiet NaN (R292). -/
def Xv.fma (mode : RMode) (a b c : Xv) : Xv × Flags :=
  let p := a.mul b
  let s := p.1.add mode c
  (s.1, p.2 ||| s.2)

/-- a / b with at least 140 quotient bits and a sticky remainder (R296). -/
def Xv.div (a b : Xv) : Xv × Flags :=
  match a, b with
  | .nan s, b => (.nan false, flagIf (s || b.isSig) fIV)
  | a, .nan s => (.nan false, flagIf (s || a.isSig) fIV)
  | .inf _, .inf _ => (.nan false, fIV)
  | .inf n, b => (.inf (n != b.isNeg), 0#6)
  | .fin n _ _ _, .inf k => (.fin (n != k) 0 0 false, 0#6)
  | .fin n m e _, .fin k l g _ =>
    if l = 0 then (if m = 0 then (.nan false, fIV) else (.inf (n != k), fDZ))
    else if m = 0 then (.fin (n != k) 0 0 false, 0#6)
    else
      let sh := 140 + bitLen l
      let num := m * 2 ^ sh
      (.fin (n != k) (num / l) (e - g - sh) (num % l != 0), 0#6)

/-- Integer square root by bits, highest first. -/
def isqrtGo : Nat → Nat → Nat → Nat
  | 0, _, r => r
  | k + 1, n, r =>
    let c := r + 2 ^ k
    isqrtGo k n (if c * c ≤ n then c else r)

def isqrt (n : Nat) : Nat := isqrtGo (bitLen n / 2 + 1) n 0

/-- √a (R296). -/
def Xv.sqrt (a : Xv) : Xv × Flags :=
  match a with
  | .nan s => (.nan false, flagIf s fIV)
  | .inf n => if n then (.nan false, fIV) else (.inf false, 0#6)
  | .fin n m e _ =>
    if m = 0 then (.fin n 0 0 false, 0#6)
    else if n then (.nan false, fIV)
    else
      let sh : Nat := if (e % 2 = 0) then 200 else 201
      let w := m * 2 ^ sh
      let r := isqrt w
      (.fin false r ((e - sh) / 2) (r * r != w), 0#6)

/-- 1 / √a (R297). -/
def Xv.rsqrt (a : Xv) : Xv × Flags :=
  match a with
  | .nan s => (.nan false, flagIf s fIV)
  | .inf n => if n then (.nan false, fIV) else (.fin false 0 0 false, 0#6)
  | .fin n m e _ =>
    if m = 0 then (.inf n, fDZ)
    else if n then (.nan false, fIV)
    else
      -- 2^s / √m' with m' · 2^e' = a and e' even; floor of a root of a floor is the floor of the root
      let odd := decide (e % 2 ≠ 0)
      let m' := if odd then 2 * m else m
      let e' := if odd then e - 1 else e
      let s := 160 + bitLen m'
      let r := isqrt (2 ^ (2 * s) / m')
      (.fin false r (-(s : Int) - e' / 2) (r * r * m' != 2 ^ (2 * s)), 0#6)

/-- The order of two values that are not NaN. -/
def Xv.cmp (a b : Xv) : Ordering :=
  match a, b with
  | .inf n, .inf k => if n = k then .eq else if n then .lt else .gt
  | .inf n, _ => if n then .lt else .gt
  | _, .inf n => if n then .gt else .lt
  | .fin n m e _, .fin k l g _ =>
    let E := min e g
    compare (dyad n m e E) (dyad k l g E)
  | _, _ => .eq

/-- The floating-point conditions and their flag (R294). -/
def fcmpX (c : Cond) (a b : Xv) : Bool × Flags :=
  let un := a.isNan || b.isNan
  let o := a.cmp b
  match c with
  | .eq => (!un && o == .eq, 0#6)
  | .ne => (un || o != .eq, 0#6)
  | .lt => (!un && o == .lt, flagIf un fIV)
  | .le => (!un && o != .gt, flagIf un fIV)
  | .gt => (!un && o == .gt, flagIf un fIV)
  | .ge => (!un && o != .lt, flagIf un fIV)
  | .un => (un, 0#6)
  | .ord => (!un, 0#6)

/-- `fmin` (less = true) and `fmax` on encodings: −0 below +0, one NaN gives the other operand (R293). -/
def fminmax (f : Fmt) (less : Bool) (a b : Nat) : Rounded :=
  let x := f.value a
  let y := f.value b
  let fl := flagIf (x.isSig || y.isSig) fIV
  if x.isNan then (if y.isNan then ⟨f.nanBits, fl⟩ else ⟨b, fl⟩)
  else if y.isNan then ⟨a, fl⟩
  else
    let aLess := match x.cmp y with
      | .lt => true
      | .gt => false
      | .eq => x.isNeg && !y.isNeg
    ⟨if aLess = less then a else b, fl⟩

/-- The class mask (R295). -/
def fclassBits (f : Fmt) (a : Nat) : Nat :=
  match f.value a with
  | .nan sig => if sig then 1 else 2
  | .inf neg => if neg then 4 else 512
  | .fin neg m _ _ =>
    if m = 0 then (if neg then 32 else 64)
    else if m < 2 ^ f.fb then (if neg then 16 else 128)
    else (if neg then 8 else 256)

/-! ## Narrow formats (R227 to R229) -/

/-- A narrow format's split and bias. -/
structure Narrow where
  s : Bool
  e : Nat
  m : Nat
  bias : Int
deriving DecidableEq, Repr, Inhabited

/-- A format code: an IEEE format or a narrow one. -/
inductive NumFmt
  | ieee (f : Fmt)
  | narrow (n : Narrow)
deriving DecidableEq, Repr, Inhabited

/-- The formats of the legal codes of R227. -/
def NumFmt.ofCode (code : BitVec 16) : Option NumFmt :=
  if !narrowOk code then none
  else if code.extractLsb' 11 4 = 0#4 then
    match (code.extractLsb' 0 8).toNat with
    | 1 => some (.ieee .f16)
    | 2 => some (.ieee .bf16)
    | 3 => some (.ieee .f32)
    | _ => some (.ieee .f64)
  else some (.narrow ⟨code.getLsbD 15, (code.extractLsb' 11 4).toNat, (code.extractLsb' 8 3).toNat, (code.extractLsb' 0 8).toInt⟩)

def Narrow.width (n : Narrow) : Nat := (if n.s then 1 else 0) + n.e + n.m
def Fmt.width (f : Fmt) : Nat := 1 + f.eb + f.fb

def NumFmt.width : NumFmt → Nat
  | .ieee f => f.width
  | .narrow n => n.width

/-- Exponent bits, as R238 counts them. -/
def NumFmt.expBits : NumFmt → Nat
  | .ieee f => f.eb
  | .narrow n => n.e

def Narrow.hasInf (n : Narrow) : Bool := decide (5 ≤ n.e) && decide (0 < n.m)
def Narrow.hasNan (n : Narrow) : Bool := decide (n.m = 0) || decide (3 ≤ n.e)
/-- The largest finite magnitude code (R228). -/
def Narrow.maxCode (n : Narrow) : Nat :=
  if n.m = 0 then 2 ^ n.e - 2
  else if 5 ≤ n.e then (2 ^ n.e - 1) * 2 ^ n.m - 1
  else if 3 ≤ n.e then 2 ^ (n.e + n.m) - 2
  else 2 ^ (n.e + n.m) - 1
/-- The code of ∞. -/
def Narrow.infCode (n : Narrow) : Nat := (2 ^ n.e - 1) * 2 ^ n.m
/-- The canonical NaN: the NaN code of highest magnitude, sign 0. -/
def Narrow.nanCode (n : Narrow) : Nat := 2 ^ (n.e + n.m) - 1
def Narrow.withSign (n : Narrow) (neg : Bool) (c : Nat) : Nat := if n.s && neg then 2 ^ (n.e + n.m) + c else c

/-- The value of a narrow code (R228). A narrow NaN is quiet. -/
def Narrow.value (n : Narrow) (c : Nat) : Xv :=
  let neg := n.s && c / 2 ^ (n.e + n.m) % 2 == 1
  let mag := c % 2 ^ (n.e + n.m)
  let e := mag / 2 ^ n.m
  let m := mag % 2 ^ n.m
  if mag = 0 then .fin neg 0 0 false
  else if n.m = 0 ∧ e = 2 ^ n.e - 1 then .nan false
  else if n.hasInf = true ∧ e = 2 ^ n.e - 1 then (if m = 0 then .inf neg else .nan false)
  else if 3 ≤ n.e ∧ n.e ≤ 4 ∧ 0 < n.m ∧ mag = 2 ^ (n.e + n.m) - 1 then .nan false
  else .fin neg (2 ^ n.m + m) ((e : Int) - n.bias - n.m) false

def NumFmt.value : NumFmt → Nat → Xv
  | .ieee f, c => f.value (c % 2 ^ f.width)
  | .narrow n, c => n.value (c % 2 ^ n.width)

/-- Steps 3 to 5 of R229 for a nonzero magnitude: the magnitude code, and the flags. -/
def Narrow.roundMag (n : Narrow) (mode : RMode) (neg : Bool) (draw : Word) (m : Nat) (e : Int) (sticky : Bool) :
    Nat × Flags :=
  let top : Int := (bitLen m : Int) - 1 + e
  let q := top - n.m
  let (w, rem, den) := splitAt m e q
  let base := (top + n.bias) * 2 ^ n.m + ((w : Int) - 2 ^ n.m)
  if m = 0 ∨ base < 1 then
    -- below min: the neighbours are 0 and min = a · 2^b
    let a : Nat := if n.m = 0 then 1 else 2 ^ n.m + 1
    let b : Int := if n.m = 0 then 1 - n.bias else -n.bias - n.m
    let E := min e b
    let num := m * 2 ^ (e - E).toNat
    let mn := a * 2 ^ (b - E).toNat
    let up := roundsUp mode neg false num mn sticky draw
    if up then (1, fNX) else (0, fUF ||| fNX)
  else
    let lo := base.toNat
    let up := roundsUp mode neg (lo % 2 == 1) rem den sticky draw
    let c := lo + (if up then 1 else 0)
    let inexact := decide (rem ≠ 0) || sticky
    if n.maxCode < c then
      (if n.hasInf && overflowsToInf mode neg up then n.infCode else n.maxCode, fOF ||| fNX)
    else (c, flagIf inexact fNX)

/-- `round_fmt` into a narrow format (R229). -/
def Narrow.round (n : Narrow) (mode : RMode) (draw : Word) (x : Xv) : Rounded :=
  match x with
  | .nan sig => if n.hasNan then ⟨n.nanCode, flagIf sig fIV⟩ else ⟨0, fIV⟩
  | .inf neg =>
    if !n.s && neg then ⟨0, fIV⟩
    else if n.hasInf then ⟨n.withSign neg n.infCode, 0#6⟩
    else ⟨n.withSign neg n.maxCode, fOF ||| fNX⟩
  | .fin neg m e sticky =>
    if m = 0 ∧ sticky = false then ⟨n.withSign neg 0, 0#6⟩
    else
      let (c, fl) := n.roundMag mode neg draw m e sticky
      if !n.s && neg then (if c = 0 then ⟨0, fl⟩ else ⟨0, fIV⟩)
      else ⟨n.withSign neg c, fl⟩

/-- `round_fmt` (R226). -/
def NumFmt.round : NumFmt → RMode → Word → Xv → Rounded
  | .ieee f, mode, draw, x => roundIeee f mode draw x
  | .narrow n, mode, draw, x => n.round mode draw x

/-! ## Integers -/

/-- Round a value to an integer in a mode: the integer and whether it is exact (R299). -/
def roundInt (mode : RMode) (draw : Word) (neg : Bool) (m : Nat) (e : Int) (sticky : Bool) : Int × Bool :=
  let (n, rem, den) := splitAt m e 0
  let up := roundsUp mode neg (n % 2 == 1) rem den sticky draw
  let v : Int := n + (if up then 1 else 0)
  (if neg then -v else v, decide (rem = 0) && !sticky)

/-- An integer type: width and signedness, with its bounds. -/
def intLo (w : Nat) (signed : Bool) : Int := if signed then -(2 ^ (w - 1) : Nat) else 0
def intHi (w : Nat) (signed : Bool) : Int := if signed then (2 ^ (w - 1) : Nat) - 1 else (2 ^ w : Nat) - 1

/-- Conversion of a value to an integer type (R299); the result is wrapped into w bits. -/
def toIntType (w : Nat) (signed : Bool) (mode : RMode) (draw : Word) (x : Xv) : Rounded :=
  let enc (v : Int) : Nat := (v % (2 ^ w : Nat)).toNat
  match x with
  | .nan _ => ⟨0, fIV⟩
  | .inf neg => ⟨enc (if neg then intLo w signed else intHi w signed), fIV⟩
  | .fin neg m e sticky =>
    let (v, exact) := roundInt mode draw neg m e sticky
    if v < intLo w signed then ⟨enc (intLo w signed), fIV⟩
    else if intHi w signed < v then ⟨enc (intHi w signed), fIV⟩
    else ⟨enc v, flagIf (!exact) fNX⟩

/-- Conversion of an integer to an integer type saturates and sets SAT (R299). -/
def intToInt (w : Nat) (signed : Bool) (v : Int) : Rounded :=
  let enc (v : Int) : Nat := (v % (2 ^ w : Nat)).toNat
  if v < intLo w signed then ⟨enc (intLo w signed), fSAT⟩
  else if intHi w signed < v then ⟨enc (intHi w signed), fSAT⟩
  else ⟨enc v, 0#6⟩

/-- The exact value of an integer. -/
def Xv.ofInt (v : Int) : Xv := .fin (decide (v < 0)) v.natAbs 0 false

end Sys2Proof.Machine
end

