-- ==== Sys2Proof/Machine/Transcend.lean ====
section
/-!
DEFINITION. `exp2`, `log2`, `sin` and `cos` of FP32 (R297): the exact value rounded once to nearest. A function value is
enclosed in an interval of fixed-point numbers of p fraction bits, with p rising until both ends round alike. The enclosure
half width 2^24 units covers the series below: each of at most p terms loses less than four units by its floors.
DEDUCED: the spec gives the result (the exact value, rounded), not the way to it.
-/

namespace Sys2Proof.Machine

open Sys2Proof

/-- Half width of the enclosure, in units of 2^-p (DEDUCED, log entry 58). -/
def encl : Int := 2 ^ 24

/-- The precisions tried, in fraction bits (DEDUCED, log entry 58). -/
def precisions : List Nat := [128, 256, 512, 1024]

/-- e^t - 1 for a fixed-point t in [0, 1): the sum of the terms t^k / k!, from the k-th, whose predecessor is `term` (DEDUCED, log entry 58). -/
def expGo (p t : Nat) : Nat → Nat → Nat → Nat → Nat
  | 0, _, _, acc => acc
  | fuel + 1, k, term, acc =>
    let u := term * t / 2 ^ p / k
    if u = 0 then acc else expGo p t fuel (k + 1) u (acc + u)

/-- Σ w^(2i+1) / (2i+1), from the i-th term with power `pw` (w fixed-point, below 1/2) (DEDUCED, log entry 58). -/
def atanhGo (p w2 : Nat) : Nat → Nat → Nat → Nat → Nat
  | 0, _, _, acc => acc
  | fuel + 1, i, pw, acc =>
    if pw = 0 then acc else atanhGo p w2 fuel (i + 1) (pw * w2 / 2 ^ p) (acc + pw / (2 * i + 1))

/-- ln z of a fixed-point z in [1, 2], as 2 · atanh((z - 1) / (z + 1)). -/
def lnFix (p z : Nat) : Nat :=
  let one := 2 ^ p
  let w := (z - one) * one / (z + one)
  2 * atanhGo p (w * w / one) p 0 w 0

/-- ln 2. -/
def ln2Fix (p : Nat) : Nat := lnFix p (2 * 2 ^ p)

/-- Σ ± (1/q)^(2i+1) / (2i+1). -/
def atanInvGo (q2 : Nat) : Nat → Nat → Nat → Bool → Int → Int
  | 0, _, _, _, acc => acc
  | fuel + 1, i, pw, pos, acc =>
    if pw = 0 then acc
    else
      let t : Int := pw / (2 * i + 1)
      atanInvGo q2 fuel (i + 1) (pw / q2) (!pos) (if pos then acc + t else acc - t)

/-- π by Machin's formula. -/
def piFix (p : Nat) : Nat :=
  (16 * atanInvGo 25 p 0 (2 ^ p / 5) true 0 - 4 * atanInvGo (239 * 239) p 0 (2 ^ p / 239) true 0).toNat

/-- Σ ± r^k / k! over every second k: the sine (start 1) or the cosine (start 0) of a fixed-point r below 2 (DEDUCED, log entry 58). -/
def trigGo (p r2 : Nat) : Nat → Nat → Nat → Bool → Int → Int
  | 0, _, _, _, acc => acc
  | fuel + 1, k, term, pos, acc =>
    if term = 0 then acc
    else trigGo p r2 fuel (k + 2) (term * r2 / 2 ^ p / ((k + 1) * (k + 2))) (!pos) (if pos then acc + term else acc - term)

def sinFix (p r : Nat) : Int := trigGo p (r * r / 2 ^ p) p 1 r true 0
def cosFix (p r : Nat) : Int := trigGo p (r * r / 2 ^ p) p 0 (2 ^ p) true 0

/-- The inexact value v · 2^e (DEDUCED, log entry 58). -/
def xvInexact (v : Int) (e : Int) : Xv := .fin (decide (v < 0)) v.natAbs e true

/-- Round an irrational value enclosed by `f p`, a fixed-point number scaled by 2^e, at rising precisions. -/
def zivGo (f : Nat → Int × Int) : List Nat → Rounded
  | [] => ⟨0, fNX⟩
  | p :: ps =>
    let (v, e) := f p
    let lo := roundIeee .f32 .rn 0#32 (xvInexact (v - encl) e)
    let hi := roundIeee .f32 .rn 0#32 (xvInexact (v + encl) e)
    if lo = hi ∨ ps = [] then lo else zivGo f ps

/-- `exp2.f32` (R297). -/
def exp2X (a : Nat) : Rounded :=
  match Fmt.f32.value a with
  | .nan s => ⟨Fmt.f32.nanBits, flagIf s fIV⟩
  | .inf n => ⟨if n then 0 else Fmt.f32.infBits, 0#6⟩
  | .fin neg m e _ =>
    let x := dyad neg m e (min e 0)
    let sc := (-(min e 0)).toNat
    -- whole part and fraction of x = (x) / 2^sc
    let n : Int := x / 2 ^ sc
    let f : Nat := (x % 2 ^ sc).toNat
    if f = 0 then
      -- 2^n, exact when representable
      if 400 < n then roundIeee .f32 .rn 0#32 (.fin false 1 400 false)
      else if n < -400 then roundIeee .f32 .rn 0#32 (.fin false 1 (-400) false)
      else roundIeee .f32 .rn 0#32 (.fin false 1 n false)
    else if 400 < n then roundIeee .f32 .rn 0#32 (.fin false 1 400 true)
    else if n < -400 then roundIeee .f32 .rn 0#32 (.fin false 1 (-400) true)
    else
      zivGo (fun p =>
        let t := f * ln2Fix p / 2 ^ sc
        ((2 ^ p : Nat) + (expGo p t p 1 (2 ^ p) 0 : Nat), n - p)) precisions

/-- `log2.f32` (R297). -/
def log2X (a : Nat) : Rounded :=
  match Fmt.f32.value a with
  | .nan s => ⟨Fmt.f32.nanBits, flagIf s fIV⟩
  | .inf n => if n then ⟨Fmt.f32.nanBits, fIV⟩ else ⟨Fmt.f32.infBits, 0#6⟩
  | .fin neg m e _ =>
    if m = 0 then ⟨Fmt.f32.withSign true Fmt.f32.infBits, fDZ⟩
    else if neg then ⟨Fmt.f32.nanBits, fIV⟩
    else
      let l := bitLen m - 1
      let n : Int := e + l
      if m = 2 ^ l then roundIeee .f32 .rn 0#32 (Xv.ofInt n)
      else zivGo (fun p => (n * 2 ^ p + (lnFix p (m * 2 ^ p / 2 ^ l) * 2 ^ p / ln2Fix p : Nat), -(p : Int))) precisions

/-- Quadrant and reduced argument of a positive m · 2^e: x = k · π/2 + r. The product of k and the error of π/2 stays below
a unit, since 160 further bits of π are used. -/
def reduceArg (p m : Nat) (e : Int) : Nat × Nat :=
  let g := p + 160
  let h := piFix g / 2
  let x := if 0 ≤ e then m * 2 ^ (g + e.toNat) else m * 2 ^ g / 2 ^ (-e).toNat
  (x / h % 4, x % h / 2 ^ 160)

/-- `sin.f32` and `cos.f32` (R297); `q` is 0 for the sine and 1 for the cosine. -/
def trigX (q : Nat) (a : Nat) : Rounded :=
  match Fmt.f32.value a with
  | .nan s => ⟨Fmt.f32.nanBits, flagIf s fIV⟩
  | .inf _ => ⟨Fmt.f32.nanBits, fIV⟩
  | .fin neg m e _ =>
    if m = 0 then (if q = 0 then ⟨Fmt.f32.withSign neg 0, 0#6⟩ else roundIeee .f32 .rn 0#32 (.fin false 1 0 false))
    else
      zivGo (fun p =>
        let (k, r) := reduceArg p m e
        let v := match (k + q) % 4 with
          | 0 => sinFix p r
          | 1 => cosFix p r
          | 2 => -(sinFix p r)
          | _ => -(cosFix p r)
        (if q = 0 ∧ neg then -v else v, -(p : Int))) precisions

end Sys2Proof.Machine
end

