-- ==== Sys2Proof/Machine/FpAlu.lean ====
section
/-!
DEFINITION. The floating-point, conversion and hoop operations (12 R292 to R303) as functions of their operand values, the
resolved rounding mode and the draws of rs rounding.
-/

namespace Sys2Proof.Machine

open Sys2Proof

/-- The rounding of one floating-point instruction: the resolved mode (R223) and the draws, element 0 first (R224). -/
structure Rnd where
  mode : RMode
  d0 : Word
  d1 : Word
deriving DecidableEq, Repr, Inhabited

/-- A result rounded into a format, with the flags of the exact operation and of the rounding. -/
def finish (f : Fmt) (r : Rnd) (x : Xv × Flags) : Double × Flags :=
  let y := roundIeee f r.mode r.d0 x.1
  (BitVec.ofNat 64 y.bits, x.2 ||| y.flags)

/-- The value of the low bits of an operand. -/
def fval (f : Fmt) (a : Double) : Xv := f.value (a.toNat % 2 ^ f.width)

def faddT (f : Fmt) (r : Rnd) (a b : Double) : Double × Flags := finish f r ((fval f a).add r.mode (fval f b))
def fsubT (f : Fmt) (r : Rnd) (a b : Double) : Double × Flags := finish f r ((fval f a).add r.mode (fval f b).neg)
def fmulT (f : Fmt) (r : Rnd) (a b : Double) : Double × Flags := finish f r ((fval f a).mul (fval f b))
def ffmaT (f : Fmt) (r : Rnd) (a b c : Double) : Double × Flags := finish f r (Xv.fma r.mode (fval f a) (fval f b) (fval f c))
def fdivT (f : Fmt) (r : Rnd) (a b : Double) : Double × Flags := finish f r ((fval f a).div (fval f b))
def fsqrtT (f : Fmt) (r : Rnd) (a : Double) : Double × Flags := finish f r (fval f a).sqrt

def fminmaxT (f : Fmt) (less : Bool) (a b : Double) : Double × Flags :=
  let y := fminmax f less (a.toNat % 2 ^ f.width) (b.toNat % 2 ^ f.width)
  (BitVec.ofNat 64 y.bits, y.flags)

/-- Element operands of an x2 form. -/
def half (x : Double) (k : Nat) : Double := (el16 x k).setWidth 64

/-- An x2 form: both elements, flags ORed; element 1 takes the second draw (R292, R224). -/
def x2Of (g : Rnd → Nat → Double × Flags) (r : Rnd) : Double × Flags :=
  let e0 := g r 0
  let e1 := g { r with d0 := r.d1 } 1
  (join16 (e1.1.setWidth 16) (e0.1.setWidth 16), e0.2 ||| e1.2)

def faddX2 (f : Fmt) (r : Rnd) (a b : Double) : Double × Flags := x2Of (fun r k => faddT f r (half a k) (half b k)) r
def fmulX2 (f : Fmt) (r : Rnd) (a b : Double) : Double × Flags := x2Of (fun r k => fmulT f r (half a k) (half b k)) r
def ffmaX2 (f : Fmt) (r : Rnd) (a b c : Double) : Double × Flags :=
  x2Of (fun r k => ffmaT f r (half a k) (half b k) (half c k)) r
def fminmaxX2 (f : Fmt) (less : Bool) (r : Rnd) (a b : Double) : Double × Flags :=
  x2Of (fun _ k => fminmaxT f less (half a k) (half b k)) r

def fcmpT (f : Fmt) (c : Cond) (a b : Double) : Bool × Flags := fcmpX c (fval f a) (fval f b)

/-- `fclass`, and its x2 form with element 1's mask in bits 25:16 (R295). -/
def fclassT (f : Fmt) (a : Double) : Double × Flags := (BitVec.ofNat 64 (fclassBits f (a.toNat % 2 ^ f.width)), 0#6)
def fclassX2 (f : Fmt) (a : Double) : Double × Flags :=
  (BitVec.ofNat 64 (fclassBits f (el16 a 0).toNat + 65536 * fclassBits f (el16 a 1).toNat), 0#6)

/-! ## Approximations (R297): always rounded to nearest -/

def rnRnd : Rnd := ⟨.rn, 0#32, 0#32⟩

def rcpT (f : Fmt) (a : Double) : Double × Flags := finish f rnRnd ((Xv.fin false 1 0 false).div (fval f a))
def rsqT (f : Fmt) (a : Double) : Double × Flags := finish f rnRnd (fval f a).rsqrt
def ofRounded (y : Rounded) : Double × Flags := (BitVec.ofNat 64 y.bits, y.flags)
def exp2T (a : Double) : Double × Flags := ofRounded (exp2X (lo32 a).toNat)
def log2T (a : Double) : Double × Flags := ofRounded (log2X (lo32 a).toNat)
def sinT (a : Double) : Double × Flags := ofRounded (trigX 0 (lo32 a).toNat)
def cosT (a : Double) : Double × Flags := ofRounded (trigX 1 (lo32 a).toNat)

/-! ## Conversion (R298, R299) -/

/-- A side of a conversion. -/
inductive CvtSide
  | int (w : Nat) (signed : Bool)
  | num (f : NumFmt)
deriving DecidableEq, Repr, Inhabited

/-- The standard types 0 to 7 of R298; the x2 types 8 and 9 give the type of one element. -/
def cvtStd (t : BitVec 4) : CvtSide :=
  match t.toNat with
  | 0 => .int 32 false
  | 1 => .int 32 true
  | 2 => .int 64 false
  | 3 => .int 64 true
  | 4 => .num (.ieee .f16)
  | 5 => .num (.ieee .bf16)
  | 6 => .num (.ieee .f32)
  | 7 => .num (.ieee .f64)
  | 8 => .num (.ieee .f16)
  | _ => .num (.ieee .bf16)

/-- A format code as a side; a legal code always names one. -/
def cvtCode (code : BitVec 16) : CvtSide :=
  match NumFmt.ofCode code with
  | some f => .num f
  | none => .num (.ieee .f32)

def cvtDst : CvtOp → CvtSide
  | .std d _ => cvtStd d
  | .toNarrow _ code => cvtCode code
  | .fromNarrow d _ => cvtStd d

def cvtSrc : CvtOp → CvtSide
  | .std _ s => cvtStd s
  | .toNarrow s _ => cvtStd s
  | .fromNarrow _ code => cvtCode code

/-- One element converted (R299). -/
def cvtOne (dst src : CvtSide) (r : Rnd) (a : Double) : Double × Flags :=
  match src with
  | .int w signed =>
    let v : Int :=
      if w = 32 then (if signed then (lo32 a).toInt else Int.ofNat (lo32 a).toNat)
      else if signed then a.toInt else Int.ofNat a.toNat
    match dst with
    | .int w' signed' => ofRounded (intToInt w' signed' v)
    | .num f => ofRounded (f.round r.mode r.d0 (Xv.ofInt v))
  | .num g =>
    let x := g.value a.toNat
    match dst with
    | .int w' signed' => ofRounded (toIntType w' signed' r.mode r.d0 x)
    | .num f => ofRounded (f.round r.mode r.d0 x)

/-- `cvt` (R299); the x2 types convert both elements. -/
def cvtOp (o : CvtOp) (r : Rnd) (a : Double) : Double × Flags :=
  if cvtTyX2 o.dst then x2Of (fun r k => cvtOne (cvtDst o) (cvtSrc o) r (half a k)) r
  else cvtOne (cvtDst o) (cvtSrc o) r a

/-! ## The hoop (R300 to R303) -/

/-- The contents of a hoop: W, base and the flags HI and LO. -/
structure Hoop where
  w : Int
  base : Int
  hi : Bool
  lo : Bool
deriving DecidableEq, Repr, Inhabited

/-- The hoop of sixteen register words, word 0 first (R300). -/
def Hoop.ofWords (ws : List Word) : Hoop :=
  let n := (ws.take 15).foldr (fun (w : Word) (acc : Nat) => w.toNat + 2 ^ 32 * acc) 0
  let w15 := ws.getD 15 0#32
  { w := if 2 ^ 479 ≤ n then (n : Int) - 2 ^ 480 else n, base := (w15.extractLsb' 0 16).toInt,
    hi := w15.getLsbD 17, lo := w15.getLsbD 16 }

/-- The k low words of W. -/
def hoopWords : Nat → Nat → List Word
  | 0, _ => []
  | k + 1, n => BitVec.ofNat 32 n :: hoopWords k (n / 2 ^ 32)

/-- The sixteen register words of a hoop; reserved bits of word 15 are written as 0. -/
def Hoop.words (h : Hoop) : List Word :=
  hoopWords 15 (h.w % 2 ^ 480).toNat ++
    [BitVec.ofInt 32 (h.base % 2 ^ 16) ||| (if h.lo then 0x10000#32 else 0#32) ||| (if h.hi then 0x20000#32 else 0#32)]

/-- Add or subtract the exact product of the sources (R302). -/
def Hoop.accum (h : Hoop) (neg : Bool) (xs : List Xv) : Hoop :=
  if xs.any (fun x => match x with | .fin _ _ _ _ => false | _ => true) then { h with hi := true }
  else
    let x := xs.foldl (fun acc x => (acc.mul x).1) (Xv.fin false 1 0 false)
    match x with
    | .fin n m e _ =>
      let E := min e h.base
      let num := dyad (n != neg) m e E
      let d : Int := 2 ^ (h.base - E).toNat
      let k := num / d
      let s := h.w + k
      let s' := s % 2 ^ 480
      { h with w := if 2 ^ 479 ≤ s' then s' - 2 ^ 480 else s',
               lo := h.lo || decide (k * d ≠ num),
               hi := h.hi || decide (s < -(2 ^ 479)) || decide (2 ^ 479 ≤ s) }
    | _ => { h with hi := true }

/-- The sign of W (R303). -/
def Hoop.sign (h : Hoop) : Word := if h.w < 0 then 0xffffffff#32 else if h.w = 0 then 0#32 else 1#32

/-- `hrnd` (R303): with LO a further 1 stands below bit 0 of W. The sum then lies between W and W + 1 units; doubling W and
adding 1 places that 1, and the value is taken as not exact. -/
def Hoop.round (h : Hoop) (r : Rnd) : Double × Flags :=
  if h.hi then (BitVec.ofNat 64 Fmt.f64.nanBits, fIV)
  else
    let v : Int := if h.lo then 2 * h.w + 1 else h.w
    let e : Int := if h.lo then h.base - 1 else h.base
    let y := roundIeee .f64 r.mode r.d0 (.fin (decide (v < 0)) v.natAbs e false)
    (BitVec.ofNat 64 y.bits, y.flags ||| flagIf h.lo fNX)

end Sys2Proof.Machine
end

