-- ==== Sys2Proof/Machine/SlathMath.lean ====
section
/-!
DEFINITION. The arithmetic of the slath as functions of operand elements: the summation order of R238 and R239, the term
recoding of R320 and the timing formula of R323.
-/

namespace Sys2Proof.Machine

open Sys2Proof

/-- One operand element as the slath decodes it: its fully scaled value, whether it is an escape, and its term count as a
B element. -/
structure El where
  x : Xv
  esc : Bool
  terms : Nat
deriving DecidableEq, Repr, Inhabited

/-- The element a missing code stands for: +0. -/
def El.zero : El := ⟨.fin false 0 0 false, false, 0⟩

/-- Set bits of a number of at most k bits. -/
def natPop : Nat → Nat → Nat
  | 0, _ => 0
  | k + 1, n => n % 2 + natPop k (n / 2)

/-- Nonzero digits of the non-adjacent form of n (R320): the set bits of n xor 3n. -/
def nafTerms (n : Nat) : Nat := natPop (bitLen n + 2) (n ^^^ (3 * n))

/-- The odd or even significand is that of the value; trailing zeros add no digit (R320). -/
def termsOf (x : Xv) : Nat :=
  match x with
  | .fin _ m _ _ => nafTerms m
  | _ => 1

/-- floor(log2 |p|) of a nonzero finite product. -/
def xvTop (x : Xv) : Option Int :=
  match x with
  | .fin _ m e _ => if m = 0 then none else some ((bitLen m : Int) - 1 + e)
  | _ => none

def maxTop (ps : List (Xv × Bool)) : Option Int :=
  ps.foldl (fun acc p =>
    match xvTop p.1, acc with
    | none, acc => acc
    | some t, none => some t
    | some t, some a => some (max t a)) none

/-- The lowest exponent among finite products, for the exact sum. -/
def minExp (ps : List (Xv × Bool)) : Int :=
  ps.foldl (fun acc p => match p.1 with | .fin _ _ e _ => min acc e | _ => acc) 0

/-- The exact sum of finite products, in units of 2^E. -/
def exactSum (E : Int) (ps : List (Xv × Bool)) : Int :=
  ps.foldl (fun acc p => match p.1 with | .fin n m e _ => acc + dyad n m e E | _ => acc) 0

/-- The window sum of R238 step 5 at weight 2^q, and its sticky bit. -/
def windowSum (q : Int) (ps : List (Xv × Bool)) : Int × Bool :=
  ps.foldl (fun acc p =>
    match p.1 with
    | .fin n m e _ =>
      let (t, rem, _) := splitAt m e q
      (if n then acc.1 - t else acc.1 + t, acc.2 || decide (rem ≠ 0))
    | _ => acc) (0, false)

/-- The value of a block, rounded to FP32 (R238 steps 3 to 6, R239). `exact` says both formats have at most 5 exponent
bits; a product carries whether an escape takes part in it. -/
def blockValue (exact : Bool) (ps : List (Xv × Bool)) : Nat :=
  let rnd (x : Xv) : Nat := (roundIeee .f32 .rn 0#32 x).bits
  let pos := ps.any (fun p => p.1 == .inf false)
  let neg := ps.any (fun p => p.1 == .inf true)
  if ps.any (fun p => p.1.isNan) || (pos && neg) then Fmt.f32.nanBits
  else if pos then Fmt.f32.infBits
  else if neg then Fmt.f32.withSign true Fmt.f32.infBits
  else if exact && !(ps.any (fun p => p.2)) then
    let E := minExp ps
    rnd (if exactSum E ps = 0 then .fin false 0 0 false else .fin (decide (exactSum E ps < 0)) (exactSum E ps).natAbs E false)
  else
    match maxTop ps with
    | none => 0
    | some h =>
      let (s, sticky) := windowSum (h - 79) ps
      if s = 0 then 0 else rnd (.fin (decide (s < 0)) s.natAbs (h - 79) sticky)

/-- c + b in FP32, rounded to nearest. -/
def addF32 (c b : Nat) : Nat := (roundIeee .f32 .rn 0#32 ((Fmt.f32.value c).add .rn (Fmt.f32.value b)).1).bits

/-- The products of a line of A with a line of B. -/
def lineProducts (a b : List El) : List (Xv × Bool) :=
  (a.zip b).map (fun p => ((p.1.x.mul p.2.x).1, p.1.esc || p.2.esc))

/-- Blocks of n in increasing k (R238 step 7). -/
def chunksOf {α : Type} (n : Nat) : Nat → List α → List (List α)
  | 0, _ => []
  | fuel + 1, l => if l = [] then [] else l.take n :: chunksOf n fuel (l.drop n)

/-- One rim element after an `mtile` (R238). -/
def rimElement (exact : Bool) (block : Nat) (c : Nat) (a b : List El) : Nat :=
  (chunksOf block a.length (lineProducts a b)).foldl (fun c ps => addF32 c (blockValue exact ps)) c

/-- The term counters of a core (R327). -/
structure TermCounts where
  terms : Nat
  groupcyc : Nat
  tilecyc : Nat
  zero : Nat
  drift : Nat
  esc : Nat
deriving DecidableEq, Repr, Inhabited

/-- The running state of the timing formula: fin of the eight groups, past fins newest first, and three counters. -/
structure TileClock where
  fins : List Nat
  past : List (List Nat)
  groupcyc : Nat
  zero : Nat
  drift : Nat
deriving DecidableEq, Repr, Inhabited

def listMax (l : List Nat) : Nat := l.foldl max 0

/-- One k-step with the costs of the eight groups (R323). -/
def tileStep (t : TileClock) (costs : List Nat) : TileClock :=
  let gate := match t.past[7]? with
    | some f => listMax f
    | none => 0
  let starts := t.fins.map (fun f => max f gate)
  let fins := (starts.zip costs).map (fun p => p.1 + p.2)
  { fins := fins, past := (fins :: t.past).take 8,
    groupcyc := t.groupcyc + costs.sum,
    zero := t.zero + (costs.filter (· == 0)).length,
    drift := t.drift + ((starts.zip t.fins).map (fun p => p.1 - p.2)).sum }

/-- The element k of every line. -/
def column (lines : List (List El)) (k : Nat) : List El := lines.map (fun l => l.getD k .zero)

/-- The cost of group g at one k-step: the densest of its 16 columns, and two cycles for each escape of B's group row and
of A's column (R323). -/
def groupCost (bRow aCol : List El) (g : Nat) : Nat :=
  let grp := (bRow.drop (16 * g)).take 16
  listMax (grp.map (·.terms)) + 2 * ((grp.filter (·.esc)).length + (aCol.filter (·.esc)).length)

/-- The cycles of a tile and what it adds to the term counters (R323). A and B are 128 lines of K elements. -/
def tileTiming (fill : Nat) (kk : Nat) (a b : List (List El)) : Nat × TermCounts :=
  let clk := (List.range kk).foldl (fun t k =>
    let aCol := column a k
    let bRow := column b k
    tileStep t ((List.range 8).map (groupCost bRow aCol))) ⟨[0, 0, 0, 0, 0, 0, 0, 0], [], 0, 0, 0⟩
  let total := fill + listMax clk.fins
  let cnt (l : List (List El)) : Nat := (l.map (fun r => ((r.take kk).filter (·.esc)).length)).sum
  (total, { terms := (b.map (fun r => ((r.take kk).map (·.terms)).sum)).sum, groupcyc := clk.groupcyc, tilecyc := total,
            zero := clk.zero, drift := clk.drift, esc := cnt a + cnt b })

end Sys2Proof.Machine
end

