-- ==== Sys2Proof/Machine/State.lean ====
section
/-!
DEFINITION. The state of the Fjolar, all of it plain data: weaves and frontiers (04), instances and cores (01, 04), engine
queues, slath and value store (07, 10, 13), virtual functions, partitions and translation (17), handler slots (18), recovery
and pairing (20), observation (22), and the management processor (01, 20). Tables with many entries are lists sorted by key
that hold no entry equal to the default; the registers' default is 0.
-/

namespace Sys2Proof.Machine

open Sys2Proof

/-- A table sorted by key, without repeats and without entries equal to its default (Machine/Sparse). -/
abbrev Sparse (α : Type) := List (Nat × α)

/-- A sorted set of numbers. -/
abbrev NatSet := List Nat

/-! ## Accesses -/

/-- The write of one thread by one store instruction. A global store carries its virtual address and the memory key it was
translated to at issue; a circle store carries its key in circle memory. `full`: set full bits (R164). `bits` masks the bits of
each byte that are written (07 R168); where it is empty whole bytes are. -/
structure ThreadStore where
  circle : Bool
  va : Nat
  key : Nat
  data : List Byte
  full : Bool
  bits : List Byte
deriving DecidableEq, Repr, Inhabited

/-- One store instruction in a store queue (R159): its thread stores in increasing thread index, its release scope, and what
a store group's signature takes of it: width code, order and scope bits, active mask (R404). -/
structure StoreReq where
  writes : List ThreadStore
  rel : Option Scope
  through : Bool
  width : Nat
  ord : Nat
  mask : Mask
deriving DecidableEq, Repr, Inhabited

/-- An open idempotent region (R110): restart pc, priority and mask, and the buffered stores, oldest first. -/
structure Region where
  pc : Double
  prio : Half
  mask : Mask
  stores : List StoreReq
deriving DecidableEq, Repr, Inhabited

/-- The register writes of a load, atomic, cross-thread operation or engine read that is outstanding (R62): v registers by
key 32 · register + thread, s registers, and predicates by key 32 · predicate + thread (DEDUCED, log entry 15). -/
structure Result where
  v : List (Nat × Word)
  u : List (Nat × Word)
  p : List (Nat × Bool)
deriving DecidableEq, Repr, Inhabited

/-- Where a full/empty load writes: a v register of each thread, or a uniform destination. -/
inductive FeDst
  | lane (d : Nat)
  | uni (d : UDst)
deriving DecidableEq, Repr, Inhabited

/-- A `.fe` or `.fec` load waiting for its granules (R164): per active thread its key in circle memory, and its place in the order (R165). -/
structure FeLoad where
  dst : FeDst
  width : MemW
  clear : Bool
  addrs : List (Nat × Nat)
  seq : Nat
deriving DecidableEq, Repr, Inhabited

/-- What an entry, a steer thread or the handler slot waits for at its instruction (DEDUCED, log entry 14). -/
inductive Wait
  | join (tag size : Nat)
  | grow (n : Nat)
  | wpush (rec : List Word)
  | wpop (d : BitVec 7) (p : BitVec 3)
  | dpush (v : Double)
  | dpop (d : UDst) (wide : Bool)
  | waitc (addr : Double) (n : Nat)
  | waitn (d : UDst) (addr : Double) (deadline : Option Nat)
  | nodeput (d : UDst) (addr : Double)
  | feLoad (r : FeLoad)
  | sclaim (u n seq : Nat)
  | yieldQ
  | ckpt
  | xlinv (id : Nat)
  | pairExit
  | pairOp
  | once (num : Nat)
  | queue (q : Nat)
  | storeq
  | slack
  | flow
deriving DecidableEq, Repr, Inhabited

/-- The state of a frontier entry (R65); `waiting` is an entry waiting at its instruction, ready in every other respect (DEDUCED, log entry 14). -/
inductive EntryState
  | ready
  | atBar (circle : Nat)
  | atRcb
  | sleeping (wake : Nat)
  | parked
  | waiting (w : Wait)
deriving DecidableEq, Repr, Inhabited

/-- A frontier entry (R65), with the cause, order and address of a parked one, its spill slot (R69), whether its next issue
skips the watchpoints (R419), and whether its delivery is in progress. -/
structure Entry where
  pc : Double
  prio : Half
  mask : Mask
  state : EntryState
  cause : Nat
  parkedAt : Nat
  addr : Double
  spill : Option Nat
  skipWatch : Mask
  delivering : Bool
deriving DecidableEq, Repr, Inhabited

/-- A chain in progress (R48): the head's pc, the instructions issued, and the mask of the entry that issued the head. -/
structure Chain where
  head : Double
  count : Nat
  mask : Mask
deriving DecidableEq, Repr, Inhabited

/-! ## Pairing (20 R401 to R410) -/

/-- A member of a store group that is performed once by the leading copy when its signatures match (R405); a circle store or a command that
belongs to no group is performed after the group that comes before it. -/
inductive PairOp
  | stores (r : StoreReq)
  | atom (op : AtomOp) (q : AtomQ) (dst : FeDst) (items : List (Nat × Nat × Double × Double))
  | alloc (uni trapping : Bool) (d p : Nat) (sizes : List (Nat × Nat))
  | free (addrs : List (Nat × Nat))
  | command (q : Nat) (seq : Nat)
  | nodeput (d : UDst) (addr : Double)
  | fence (k : FenceKind) (sc : Scope)
  | checkpoint
deriving DecidableEq, Repr, Inhabited

/-- A closed store group waiting for its match: number, signature, members to perform. -/
structure Group where
  num : Nat
  sig : BitVec 64
  ops : List PairOp
deriving DecidableEq, Repr, Inhabited

/-- A value a copy takes or reads, as the load-value queue and the replay log hold it (R402, R408). -/
inductive LogEntry
  | value (pc : Double) (vals : List (Nat × Double))
  | circle (vals : List (Nat × Double))
  | wale (rec : Option (List Word))
  | decision (v : Double)
  | barrier
  | join
deriving DecidableEq, Repr, Inhabited

/-- The state of a weave to which a rollback returns (R406, R407). -/
structure Snapshot where
  role : Nat
  allot : Nat
  lmode : BitVec 2
  v : Sparse Word
  preds : Sparse Mask
  flags : Sparse Flags
  gens : Sparse Double
  s : Sparse Word
  q : BitVec 4
  mode : Word
  frontier : List Entry
  scopes : List Nat
  circles : List Nat
  restart : Option (Nat × Mask)
deriving DecidableEq, Repr, Inhabited

/-- The pairing state of one copy of a weave or steer thread; `lines`: stage lines of its recorded checkpoint (R407). -/
structure Pair where
  trailing : Bool
  peerCore : Nat
  peerSlot : Nat
  lvq : List LogEntry
  members : List Byte
  count : Nat
  open_ : List PairOp
  num : Nat
  closed : List Group
  base : Option Snapshot
  log : List LogEntry
  full : Bool
  replay : List LogEntry
  upTo : Nat
  mismatch : NatSet
  lines : Nat
deriving DecidableEq, Repr, Inhabited

/-! ## Weaves, steer threads, instances -/

/-- A weave and its threads (R59). Registers by key 32 · register + thread; predicates by number; tags by register. -/
structure Weave where
  inst : Nat
  role : Nat
  wid : Nat
  lane : Nat
  allot : Nat
  scopes : List Nat
  frontier : List Entry
  v : Sparse Word
  preds : Sparse Mask
  flags : Sparse Flags
  gens : Sparse Double
  s : Sparse Word
  q : BitVec 4
  mode : Word
  lmode : BitVec 2
  lstat : Sparse Nat
  vtags : Sparse Nat
  stags : Sparse Nat
  vbad : NatSet
  sbad : NatSet
  circles : List Nat
  chain : Option Chain
  region : Option Region
  storeq : List StoreReq
  inflight : List Result
  marks : Sparse Nat
  restart : Option (Nat × Mask)
  turnsLeft : Nat
  pair : Option Pair
deriving DecidableEq, Repr, Inhabited

/-- A steer thread (R85); `entry` holds its pc and state while it is live, with bit 0 of the mask. -/
structure Steer where
  entry : Option Entry
  s : Sparse Word
  q : BitVec 4
  mode : Word
  gen : Double
  sbad : NatSet
  storeq : List StoreReq
  inflight : List Result
  pair : Option Pair
deriving DecidableEq, Repr, Inhabited

/-- A circle of an instance (R77): its role or tag, its region in the core's circle memory, its members by slot, and the
commands that still name it (R177). -/
structure Circle where
  id : Nat
  role : Option Nat
  tag : Nat
  base : Nat
  size : Nat
  members : NatSet
deriving DecidableEq, Repr, Inhabited

/-- A stage (R104): residency target, issue share, weaves admitted over the instance's life, and whether all of them have ended (R83). -/
structure Stage where
  target : Nat
  share : Nat
  admitted : Nat
  closed : Bool
deriving DecidableEq, Repr, Inhabited

/-- A pipeline instance on a core (R82). `base` and `size` bound the keys of its circle memory:
the place of a region is not visible to programs, so each instance has a window of keys of its own and the footprint is counted
apart. -/
structure Inst where
  serial : Nat
  num : Nat
  logical : Nat
  trailing : Bool
  peer : Option Nat
  steer : Steer
  decisions : List Double
  circles : List Circle
  nextCircle : Nat
  wales : List (List (List Word))
  window : List (Option Nat)
  stages : List Stage
  base : Nat
  size : Nat
  poolBase : Nat
  poolSize : Nat
  demanded : Bool
deriving DecidableEq, Repr, Inhabited

/-! ## Engines, slath, value store -/

/-- The window of a rim tile that a command moves (13 R325). -/
structure RimWin where
  row : Nat
  col : Nat
  er : Nat
  ec : Nat
deriving DecidableEq, Repr, Inhabited

/-- An engine command with the operands read at issue (07 R177, 13 R312): tensor records whole, circle memory by key. -/
inductive CmdOp
  | cpyIn (raw : Nat) (x : List Nat) (key e0 e1 : Nat)
  | cpyOut (raw : Nat) (x : List Nat) (key e0 e1 : Nat)
  | cpyG (src dst len : Nat)
  | stkLd (slot tx raw : Nat) (x : List Nat)
  | mtile (rim sa sb : Nat) (reuse : Bool)
  | rzero (rim : Nat)
  | rimLd (rim raw : Nat) (x : List Nat) (w : RimWin) (mode : RMode) (key : Option Nat)
  | rimSt (rim raw : Nat) (x : List Nat) (w : RimWin) (mode : RMode) (key : Option Nat)
  | srel (u n : Nat) (wid role : Nat)
deriving DecidableEq, Repr, Inhabited

/-- A queued command: its issuer, the instance, pc, priority and elected thread for a fault (R183), its counter (R180), its place in
issue order, the fault its queue stopped on, and whether it has started. -/
structure Cmd where
  op : CmdOp
  issuer : Agent
  inst : Nat
  pc : Double
  prio : Half
  tid : Nat
  ctr : Option (Double × Scope)
  seq : Nat
  window : List (Option Nat)
  fault : Option (Nat × Double × Nat)
  started : Bool
  held : Bool
deriving DecidableEq, Repr, Inhabited

/-- A `qfence` (R182): queues it names, its place in issue order, and the instance that issued it (4 once it has left). -/
structure QFence where
  mask : BitVec 4
  seq : Nat
  inst : Nat
deriving DecidableEq, Repr, Inhabited

/-- The state of a stake slot (R314). -/
inductive SlotState
  | free | claimed | loaded | releasing
deriving DecidableEq, Repr, Inhabited

/-- What a slot's descriptor takes from a `stk.ld` (R314, R318): tensor, generation, format, block scales, escape flag, box corner. -/
structure SlotDesc where
  bsize : Nat
  esc : Bool
  fmt : BitVec 16
  tx : Nat
  gen : Nat
  x : List Nat
deriving DecidableEq, Repr, Inhabited

/-- A stake slot: its state and the weave that holds it (by instance, weave slot of the core, role and `$wid`), its descriptor as the last
`stk.ld` issued left it (R314), `kept`: the descriptor of the box whose codes it holds, operand codes by byte, and the side store (scale codes
by 64 · line + block, outlier values by 1024 · line + element). `fresh` is false until a resumed slot's side store is refilled. -/
structure Slot where
  state : SlotState
  inst : Nat
  weave : Nat
  role : Nat
  wid : Nat
  desc : SlotDesc
  kept : SlotDesc
  codes : Sparse Byte
  scales : Sparse Nat
  outliers : Sparse Nat
  fresh : Bool
  bad : Bool
deriving DecidableEq, Repr, Inhabited

/-- Who holds a rim tile (R315, R329). -/
inductive RimHolder
  | free | inst (k : Nat) | tileNode
deriving DecidableEq, Repr, Inhabited

/-- A rim tile: holder, whether it was written, FP32 elements by 128 · row + column. -/
structure Rim where
  holder : RimHolder
  written : Bool
  els : Sparse Nat
  bad : Bool
deriving DecidableEq, Repr, Inhabited

/-- A value-store entry (10 R245, R246): serial, full key, the 32 values (or one for a uniform result), a flag set for each
thread, references, last use, and the partner serial of a 64-bit result. -/
structure VsEntry where
  serial : Nat
  launch : Nat
  vf : Nat
  key : List Nat
  vals : List Word
  flags : List Flags
  refs : Nat
  used : Nat
  partner : Option Nat
  bad : Bool
deriving DecidableEq, Repr, Inhabited

/-- A lane (R47, R60): the weave it last issued for, its latches by key 32 · latch + thread, and their validity. -/
structure Lane where
  owner : Option Nat
  latches : Sparse Double
  valid : BitVec 4
  bad : NatSet
deriving DecidableEq, Repr, Inhabited

/-- A data line of 64 bytes in an L1 or an L2 slice: data, and the bytes not yet written back (R199, R202). -/
structure Line where
  data : List Byte
  dirty : BitVec 64
  bad : Bool
deriving DecidableEq, Repr, Inhabited

/-- A leaf of a shadow table as the TLBs hold it (R360, R363). `size` is log2 of the page size. -/
inductive PageState
  | priv | dup | remote | migrating
deriving DecidableEq, Repr, Inhabited

structure Leaf where
  vf : Nat
  va : Nat
  size : Nat
  state : PageState
  r : Bool
  w : Bool
  x : Bool
  h : Bool
  p : Bool
  home : Nat
  frame : Nat
deriving DecidableEq, Repr, Inhabited

/-- What a delivery serves (R107, R380): a parked entry of a weave, a steer thread, or a stopped engine queue. -/
inductive Target
  | weave (slot id : Nat) | steer (k : Nat) | engine (q : Nat)
deriving DecidableEq, Repr, Inhabited

/-- The control registers of a delivery (R379, R380). -/
structure Delivery where
  target : Target
  tcause : Nat
  tpc : Double
  tmask : Mask
  tprio : Half
  tent : Word
  taddr : Double
  tinst : Word
deriving DecidableEq, Repr, Inhabited

/-- The handler slot of a core (R107, R381). -/
structure Handler where
  run : Option Delivery
  pc : Double
  wait : Option Wait
  s : Sparse Word
  q : BitVec 4
  mode : Word
  gen : Double
  sbad : NatSet
  storeq : List StoreReq
  inflight : List Result
deriving DecidableEq, Repr, Inhabited

/-- A loan of a margin core (R346): the borrowing partition and virtual function, and whether it is being revoked. -/
structure Loan where
  part : Nat
  vf : Nat
  since : Nat
  revoked : Option Nat
deriving DecidableEq, Repr, Inhabited

/-- A core (R11). Circle memory by byte key; full bits and poisoned granules by granule number; `sampled`: the multiple of 1,024
cycles at which the balancer last sampled (R104); `ran`: the cycles of its own clock, in 1/4,000, that it had counted at `since`, when its clock
was last set (R14); `windowAt`: the start of the window of its error count (R412). -/
structure Core where
  insts : Sparse Inst
  weaves : Sparse Weave
  lanes : Sparse Lane
  cmem : Sparse Byte
  full : NatSet
  cbad : NatSet
  store : List VsEntry
  nextSerial : Nat
  l1 : Sparse Line
  icache : Sparse (List Byte)
  ccache : Sparse (List Byte)
  tlb : List Leaf
  queues : List (List Cmd)
  fences : List QFence
  slots : Sparse Slot
  rims : Sparse Rim
  reuse : Option Nat
  tile : Option (Nat × Nat)
  handler : Handler
  term : TermCounts
  counts : Sparse Nat
  since : Nat
  ran : Nat
  clock : Nat
  bin : Nat
  nextBin : Option Nat
  errors : Nat
  testing : Bool
  retired : Bool
  loan : Option Loan
  requests : Nat
  sampled : Nat
  windowAt : Nat
deriving DecidableEq, Repr, Inhabited

/-! ## Nodes and launches (05) -/

/-- The fields of a node record (R93). -/
structure NodeRec where
  link : Nat
  save : Nat
  shape : List Word
  ninst : Nat
  header : Nat
  tag : Word
  status : Nat
  nsucc : Nat
  succ : Nat
  wait : Nat
  part : Nat
  notify : Bool
  yieldable : Bool
  paired : Bool
  restartable : Bool
  prio : Nat
  kind : Nat
  raw : Nat
deriving DecidableEq, Repr, Inhabited

/-- A role record (R81, R97). -/
structure RoleRec where
  pc : Double
  allot : Nat
  scopeMax : Nat
  min : Nat
  max : Nat
  region : Nat
deriving DecidableEq, Repr, Inhabited

/-- A successor entry (R97). -/
structure SuccEnt where
  pc : Double
  role : Nat
  allot : Nat
  kept : Nat
deriving DecidableEq, Repr, Inhabited

/-- A bucket entry (R87, R97): three inclusive ranges and three padded bounds. -/
structure Bucket where
  ranges : List (Nat × Nat)
  bounds : List Word
deriving DecidableEq, Repr, Inhabited

/-- A launch header (R97). -/
structure Header where
  steer : Double
  kbank : Nat
  ksize : Nat
  kgen : Nat
  tensors : Nat
  pool : Nat
  slack : Nat
  wdepth : List Nat
  priv : Nat
  privsz : Nat
  roles : List RoleRec
  succents : List SuccEnt
  buckets : List Bucket
  raw : List Byte
deriving DecidableEq, Repr, Inhabited

/-- A ready node in a partition queue (R99): its ready time and order, `base`: the level it was queued at, from which it ages (R100). -/
structure Ready where
  addr : Nat
  vf : Nat
  node : NodeRec
  header : Option Header
  level : Nat
  base : Nat
  readyAt : Nat
  seq : Nat
  requeues : Nat
deriving DecidableEq, Repr, Inhabited

/-- An instance with its weaves, circle memory, slots and rims, taken off its core by a yield or a freeze (R112, R119) (DESIGN CHOICE, log entry 37). -/
structure Saved where
  inst : Inst
  weaves : List Weave
  cmem : Sparse Byte
  full : NatSet
  cbad : NatSet
  slots : Sparse Slot
  rims : Sparse Rim
  cmds : List (Nat × Cmd)
  fences : List QFence
deriving DecidableEq, Repr, Inhabited

/-- A running launch (R101, R103): the cores it has used, their logical numbers, and how many of those are given. Staged bytes of a restartable node by memory key (R398); `poison` names the first
thread that consumed uncorrectable data, until containment, and `poisons` the physical element and the thread of each (20 R397); `freezeBad`:
that ended a freeze (R116). -/
structure Launch where
  serial : Nat
  lsn : Double
  vf : Nat
  part : Nat
  addr : Nat
  node : NodeRec
  header : Header
  readyAt : Nat
  seq : Nat
  next : Nat
  ended : Nat
  saved : List Saved
  cores : List Nat
  names : List (Nat × Nat)
  ncore : Nat
  requeues : Nat
  staged : List Host.Cell
  blocks : List Nat
  freed : List Nat
  early : Bool
  poison : Option (BitVec 128)
  poisons : List (Nat × BitVec 128)
  freezeBad : Bool
deriving DecidableEq, Repr, Inhabited

/-! ## Virtual functions, partitions, device -/

/-- A virtual function: its record (R348), the skein bookkeeping of its heap (R173, R354): chunks given to classes, blocks
allocated; watchpoints, sampling, the counter latch (R369), held node-posts, the last image resumed, the nodes that wait on predecessors (R349);
`pendingCores`: a write of its cores masks that is held (R350). -/
structure Vf where
  state : Nat
  weight : Nat
  endpoint : Half
  scope : Byte
  root : Double
  tvec : Double
  heap : Double
  heapsz : Word
  cpol : Word
  cores : List (BitVec 16)
  pendingCores : Option (List (BitVec 16))
  chunks : Sparse Nat
  blocks : Sparse Nat
  watch : List Watch
  sampleExp : Nat
  latch : Word
  trapsHeld : Nat
  heldPosts : List (Nat × Nat)
  heldResumes : List Nat
  lastImage : Option Nat
  waiting : NatSet
deriving DecidableEq, Repr, Inhabited

/-- The fault injector of a partition (R389, R411); the `live` fields are those taken at the last arming. -/
structure Injector where
  seed : Double
  rate : Double
  classes : Double
  shot : Double
  arm : Double
  gen : Double
  count : Nat
  liveRate : Nat
  liveClasses : Word
  liveShot : Nat
deriving DecidableEq, Repr, Inhabited

/-- A partition: configuration register (R344), ready queue (R99), injector, second-level TLB, the lines of its L2 slice (R10, R202), retired channels (R356) and those of them whose range is lost (R358), unsent
trace messages with their virtual function and the time before which they may not leave (R422, R423), the node whose next instance fits nowhere and since when,
and the node that keeps lower nodes out (R101). -/
structure Part where
  config : Double
  ready : List Ready
  inj : Injector
  tlb2 : List Leaf
  l2 : Sparse Line
  chans : NatSet
  lost : NatSet
  traces : List (Nat × Nat × List Byte)
  unfit : Option (Nat × Nat)
  blocked : Option Nat
  up : Bool
deriving DecidableEq, Repr, Inhabited

/-- A shootdown in flight (R365). -/
structure Shoot where
  id : Nat
  vf : Nat
  va : Nat
  pages : Nat
  scope : Scope
  core : Option Nat
deriving DecidableEq, Repr, Inhabited

/-- A recorded page of an image (R117): virtual base, the leaf, and its bytes. -/
structure ImgPage where
  leaf : Leaf
  cells : List Host.Cell
deriving DecidableEq, Repr, Inhabited

/-- A section record of an image (R118); `spare` is its reserved field. -/
structure SecRec where
  type : Nat
  owner : Nat
  offset : Nat
  size : Nat
  count : Nat
  spare : Nat
deriving DecidableEq, Repr, Inhabited

/-- An Ngaec image (R118, R119) as its fields: `bank` and `tensors` are the constant bank and tensor table it
holds, `spare` the reserved bytes and flag bits of its header, `table` its section records (DESIGN CHOICE, log entry 37). -/
structure Image where
  id : Nat
  lsn : Double
  vf : Nat
  cls : Word
  when_ : Nat
  node : NodeRec
  nodeAddr : Nat
  header : Header
  hdrBytes : List Byte
  next : Nat
  ended : Nat
  ncore : Nat
  saved : List Saved
  pages : List ImgPage
  dirtyOnly : Bool
  base : Option Nat
  paired : Bool
  signed : Bool
  digest : BitVec 512
  sig : List Byte
  bank : List Byte
  tensors : List Byte
  spare : List Byte
  table : List SecRec
  device : Nat
  cores : List Nat
  readySeq : Nat
deriving DecidableEq, Repr, Inhabited

/-- A message that leaves the device: notices and trace messages to an endpoint, answers and traps to the hypervisor (DESIGN CHOICE, log entry 60). -/
inductive Msg
  | notice (vf : Nat) (bytes : List Byte)
  | trace (vf : Nat) (bytes : List Byte)
  | writeTrap (vf : Nat) (addr : Double) (data : List Byte)
  | rma (vf : Nat) (ok : Bool) (data : List Byte)
  | remote (dev : Nat) (ok : Bool) (data : List Byte)
  | mgmt (status : Nat) (value : Double)
  | resumed (status : Nat)
  | image (id : Nat) (dest : Nat)
  | freezeFailed (vf : Nat) (lsn : Nat)
  | shootdownAck (id : Nat)
  | capacity (part elem : Nat) (config : Double) (guarCores marginCores guarChans marginChans : Nat)
  | attestation (bytes : List Byte)
deriving DecidableEq, Repr, Inhabited

/-- An entry of the failure record (20, 22): a kind, the physical element, the logical name and the action or detail (DESIGN CHOICE, log entry 54). -/
structure FailRec where
  kind : Nat
  element : Nat
  name : BitVec 128
  action : Nat
  detail : Nat
  time : Nat
deriving DecidableEq, Repr, Inhabited

/-- The phase of the module (R20, R413). -/
inductive Phase
  | off | full | minimal (part : Nat) | stopped
deriving DecidableEq, Repr, Inhabited

/-- One failed start (R413). -/
structure Attempt where
  stage : Nat
  code : Nat
  element : Half
  time : Nat
deriving DecidableEq, Repr, Inhabited

/-- The management processor (01 R20 to R22, 17 R373, 20 R412, R413). -/
structure Mgmt where
  phase : Phase
  reachable : Bool
  nfail : Nat
  attempts : List Attempt
  fullRequested : Bool
  fwDigest : BitVec 512
  fwValid : Bool
  trust : List (List Byte)
  clock : Nat
  thermalClock : Nat
  powerClock : Nat
  lastThermal : Nat
  lastPower : Nat
  cap : Nat
  idleOn : Bool
  threshold : Nat
deriving DecidableEq, Repr, Inhabited

/-! ## The machine -/

/-- The state of the device and of what its memory map reaches. The first four fields are the model's own: the turns still
to be taken (empty: the next turn is free), the count of steps taken, the agent whose instruction executes, and the number
that the next numbered thing (a wait, a park, a command, a posting) gets. `now` is the time in cycles of the nominal clock (DESIGN CHOICE, log entry 6). -/
structure State where
  turns : List Turn
  tick : Nat
  focus : Agent
  seq : Nat
  now : Nat
  device : Nat
  mem : List Host.Cell
  bad : NatSet
  unscrubbed : NatSet
  dirty : NatSet
  cores : Sparse Core
  parts : Sparse Part
  vfs : Sparse Vf
  launches : List Launch
  nextLsn : Nat
  shoots : List Shoot
  images : List Image
  out : List Msg
  failures : List FailRec
  marks : List (Nat × Nat × Nat)
  mgmt : Mgmt
deriving DecidableEq, Repr, Inhabited

/-! ## Values at reset -/

def Pair.start (trailing : Bool) (core slot : Nat) : Pair :=
  { trailing := trailing, peerCore := core, peerSlot := slot, lvq := [], members := [], count := 0, open_ := [], num := 1,
    closed := [], base := none, log := [], full := false, replay := [], upTo := 0, mismatch := [], lines := 0 }

/-- A steer thread that is not live (DESIGN CHOICE, log entry 2). -/
def Steer.blank : Steer :=
  { entry := none, s := [], q := 0#4, mode := 1#32, gen := 1#64, sbad := [], storeq := [], inflight := [], pair := none }

def Handler.blank : Handler :=
  { run := none, pc := 0#64, wait := none, s := [], q := 0#4, mode := 1#32, gen := 1#64, sbad := [], storeq := [],
    inflight := [] }

def Lane.blank : Lane := { owner := none, latches := [], valid := 0#4, bad := [] }

/-- The descriptor of a slot that no `stk.ld` has named: zero (R351). -/
def SlotDesc.blank : SlotDesc := { bsize := 0, esc := false, fmt := 0#16, tx := 0, gen := 0, x := [] }

/-- A free slot, its descriptor and codes zero (R351) (DESIGN CHOICE, log entry 2). -/
def Slot.blank : Slot :=
  { state := .free, inst := 0, weave := 0, role := 0, wid := 0, desc := SlotDesc.blank, kept := SlotDesc.blank, codes := [],
    scales := [], outliers := [], fresh := true, bad := false }

def Rim.blank : Rim := { holder := .free, written := false, els := [], bad := false }

def TermCounts.blank : TermCounts := { terms := 0, groupcyc := 0, tilecyc := 0, zero := 0, drift := 0, esc := 0 }

/-- A core as the scrub of R351 leaves it, at the nominal clock (DESIGN CHOICE, log entry 2). -/
def Core.blank : Core :=
  { insts := [], weaves := [], lanes := [], cmem := [], full := [], cbad := [], store := [], nextSerial := 1, l1 := [],
    icache := [], ccache := [], tlb := [], queues := [[], [], [], []], fences := [], slots := [], rims := [], reuse := none,
    tile := none, handler := Handler.blank, term := TermCounts.blank, counts := [], since := 0, ran := 0, clock := 4000, bin := 0,
    nextBin := none, errors := 0, testing := false, retired := false, loan := none, requests := 0, sampled := 0, windowAt := 0 }

def Injector.blank : Injector :=
  { seed := 1#64, rate := 0#64, classes := 0#64, shot := 0#64, arm := 0#64, gen := 1#64, count := 0, liveRate := 0,
    liveClasses := 0#32, liveShot := 0 }

/-- The partition configuration register at reset (R344): guar 0x0fff, margin 0xf000, gchan 30, lend 1, borrow 1, cap 127. -/
def configReset : Double := 0x0ffff0006f7f0000#64

def Part.blank : Part :=
  { config := configReset, ready := [], inj := Injector.blank, tlb2 := [], l2 := [], chans := [], lost := [], traces := [], unfit := none,
    blocked := none, up := false }

def noWatch : Watch := { addr := 0#64, len := 64, load := false, store := false, enable := false }

/-- An absent virtual function (R348) (DESIGN CHOICE, log entry 2). -/
def Vf.blank : Vf :=
  { state := 0, weight := 1, endpoint := 0#16, scope := 0#8, root := 0#64, tvec := 0#64, heap := 0#64, heapsz := 0#32,
    cpol := 0#32, cores := List.replicate 16 0#16, pendingCores := none, chunks := [], blocks := [], watch := List.replicate 4 noWatch, sampleExp := 0,
    latch := 0#32, trapsHeld := 0, heldPosts := [], heldResumes := [], lastImage := none, waiting := [] }

def Mgmt.blank : Mgmt :=
  { phase := .off, reachable := true, nfail := 0, attempts := [], fullRequested := false, fwDigest := 0#512, fwValid := false,
    trust := [], clock := 4000, thermalClock := 4000, powerClock := 4000, lastThermal := 0, lastPower := 0, cap := 3600, idleOn := false,
    threshold := 64 }

/-- The machine right after reset: not started yet (R413), memory with nothing listed, every table at its default (DESIGN CHOICE, log entry 1) (DESIGN CHOICE, log entry 2). -/
def State.reset : State :=
  { turns := [], tick := 0, focus := .handler 0, seq := 0, now := 0, device := 0, mem := [], bad := [], unscrubbed := [],
    dirty := [], cores := [], parts := [], vfs := [], launches := [], nextLsn := 1, shoots := [], images := [],
    out := [], failures := [], marks := [], mgmt := Mgmt.blank }

/-! ## Outcomes -/

/-- The reasons a step faults. -/
inductive Fault
  /-- Raised when `focus` names no agent that can issue: no row of the table describes such a step, and step itself never
  produces it. Safe: the machine stops where the hardware has nothing to do. -/
  | noIssuer
deriving DecidableEq, Repr, Inhabited

/-- The reasons a step is refused. -/
inductive Refusal
  /-- Raised by an arm of exec whose instruction has no meaning yet. Safe. -/
  | notModelled (mnemonic : String)
deriving DecidableEq, Repr, Inhabited

end Sys2Proof.Machine
end

