-- ==== Sys2Proof/Config.lean ====
section
/-!
DEFINITION. What the specification leaves open, as constants without a body: the order in which agents take turns, the time a
step takes, the choices of caches and of the skein allocator, and the computations it names without giving them. Each is applied to
a counter of the state or to the operands it depends on, so no statement can rest on a value.
-/

namespace Sys2Proof.Config

open Sys2Proof

/-- The next turn, where the state's list of turns is empty (08 R199, R444: no order of agents is stated) (DESIGN CHOICE, log entry 3). -/
opaque nextTurn : Nat → Turn

/-- The cycles of the nominal clock that pass before a step (R444). -/
opaque elapsed : Nat → Nat

/-- Whether a cache or TLB still holds what it once held, at a step, for a cache and a key (R199, R363). -/
opaque keeps : Nat → Nat → Nat → Bool

/-- Which line or leaf leaves a full cache or TLB, at a step, for a cache (R10, R11, R199, R363): an index once reduced. -/
opaque victim : Nat → Nat → Nat

/-- Which of the free candidates the skein takes (R173): an index below the given count once reduced (DESIGN CHOICE, log entry 8). -/
opaque skeinChoice : Nat → Nat

/-- Which of the 16 entries of a 64 KiB page the walker read last (R361), at a step (DESIGN CHOICE, log entry 9). -/
opaque walkChoice : Nat → Nat

/-- For a 16-byte unit of overlapping ranges, whether the copy reads the source after its overwrite (R179) (DESIGN CHOICE, log entry 10). -/
opaque copyReadsNew : Nat → Nat → Bool

/-- The value a shared-resource counter of groups 2 to 4 holds, where the events it counts have no model here (R424) (DESIGN CHOICE, log entry 11). -/
opaque sharedCount : Nat → Nat → Nat

/-- The stage lines that a store group of some members, and a replay log of some entries, take in the compare buffer (R400, R405, R406), where
no size is stated (DESIGN CHOICE, log entry 80). -/
opaque groupLines : Nat → Nat

opaque logLines : Nat → Nat

/-- The idle cycles inserted into the issue of a tile, at a step, while the power cap asks for them (01 R22) (DEDUCED, log entry 49). -/
opaque idleCycles : Nat → Nat

/-- The queueing times of a sampled request (R422), by step and hop (DESIGN CHOICE, log entry 12). -/
opaque hopTime : Nat → Nat → Nat

/-- A byte of a section's payload whose layout is not stated (R118, R119): of the section type, the saved instances and pages it records, and
the place in the payload. -/
opaque payload : Nat → List Machine.Saved → List Machine.ImgPage → Nat → Byte

/-- A byte of a context save area (R112, R113), whose layout is not stated: at a step, by its place in the area. -/
opaque savedByte : Nat → Nat → Byte

/-- The link field of a ready node (R93, R99), at a step, by the node's place in post order (DESIGN CHOICE, log entry 81). -/
opaque linkValue : Nat → Nat → Double

/-- SHAKE256 with 512-bit output (R118, R373, R374). -/
opaque shake512 : List Byte → BitVec 512

/-- The Falcon-1024 signature of a digest under the device identity key (R118, R374). -/
opaque sign : BitVec 512 → List Byte

/-- Whether a Falcon-1024 signature of a digest verifies under a public key (R373, R375). -/
opaque verifies : List Byte → BitVec 512 → List Byte → Bool

/-- The device identity public key (R373). -/
opaque identityKey : List Byte

/-- Whether a firmware signature verifies under a firmware key (R373). -/
opaque firmwareVerifies : BitVec 512 → List Byte → Bool

end Sys2Proof.Config
end

