-- ==== Sys2Proof/Machine/Sparse.lean ====
section
/-!
DEFINITION. Tables as lists sorted by key: find, put, erase, and the canonical write that keeps no entry equal to the default;
sorted sets of numbers; and byte lists in little-endian order (00 R3).
-/

namespace Sys2Proof.Machine

open Sys2Proof

variable {α : Type}

/-- The entry of a key. -/
def sfind : Sparse α → Nat → Option α
  | [], _ => none
  | (k, v) :: r, i => if k = i then some v else sfind r i

/-- The table without the entry of a key. -/
def serase : Sparse α → Nat → Sparse α
  | [], _ => []
  | (k, v) :: r, i => if k = i then serase r i else (k, v) :: serase r i

/-- The table with an entry put in its place. -/
def sput : Sparse α → Nat → α → Sparse α
  | [], i, x => [(i, x)]
  | (k, v) :: r, i, x =>
    if i < k then (i, x) :: (k, v) :: r
    else if i = k then (i, x) :: r
    else (k, v) :: sput r i x

/-- The value at a key, with a default. -/
def sget (d : α) (t : Sparse α) (i : Nat) : α := (sfind t i).getD d

/-- The canonical write: a value equal to the default is not listed. -/
def sset [DecidableEq α] (d : α) (t : Sparse α) (i : Nat) (x : α) : Sparse α :=
  if x = d then serase t i else sput t i x

/-- Several canonical writes, in order. -/
def ssetAll [DecidableEq α] (d : α) (t : Sparse α) : List (Nat × α) → Sparse α
  | [] => t
  | (i, x) :: r => ssetAll d (sset d t i x) r

/-- The entries whose key satisfies a test. -/
def skeep (t : Sparse α) (p : Nat → Bool) : Sparse α := t.filter (fun e => p e.1)

/-- Keys in rising order from a bound on. -/
def risingFrom : Nat → Sparse α → Bool
  | _, [] => true
  | n, (k, _) :: r => decide (n ≤ k) && risingFrom (k + 1) r

/-- The canonical form: keys strictly rising, no entry equal to the default. -/
def canonical [DecidableEq α] (d : α) (t : Sparse α) : Bool :=
  risingFrom 0 t && t.all (fun e => decide (e.2 ≠ d))

/-! ## Sets -/

def nmem (s : NatSet) (i : Nat) : Bool := s.contains i

def ninsert : NatSet → Nat → NatSet
  | [], i => [i]
  | k :: r, i => if i < k then i :: k :: r else if i = k then k :: r else k :: ninsert r i

def nerase (s : NatSet) (i : Nat) : NatSet := s.filter (fun k => k != i)

def ninsertAll (s : NatSet) (l : List Nat) : NatSet := l.foldl ninsert s

def neraseAll (s : NatSet) (l : List Nat) : NatSet := s.filter (fun k => !l.contains k)

/-! ## Masks and threads -/

/-- The thread indices of a weave in increasing order. -/
def allThreads : List Nat := List.range 32

/-- The threads of a mask in increasing order. -/
def threadsOf (m : Mask) : List Nat := allThreads.filter (fun t => m.getLsbD t)

/-- The mask of a list of threads. -/
def maskOf (l : List Nat) : Mask := l.foldl (fun m t => m ||| (1#32 <<< t)) 0#32

/-- The lowest thread of a mask, the elected thread (R177). -/
def lowest (m : Mask) : Nat := ((threadsOf m).head?).getD 0

/-! ## Bytes -/

/-- The bytes of a value, lowest address first (R3). -/
def bytesLE : Nat → Nat → List Byte
  | 0, _ => []
  | n + 1, x => BitVec.ofNat 8 (x % 256) :: bytesLE n (x / 256)

/-- The value of bytes, lowest address first (R3). -/
def natLE : List Byte → Nat
  | [] => 0
  | b :: r => b.toNat + 256 * natLE r

/-- A field of a number: `w` bits from bit `lo`. -/
def bits (x lo w : Nat) : Nat := (x >>> lo) % 2 ^ w

end Sys2Proof.Machine
end

