-- ==== Sys2Proof/Machine/Access.lean ====
section
/-!
DEFINITION. Where things are: the cores, weaves, steer threads, handler slots, launches, virtual functions and partitions of a
state, read and written through one pair of operations each; and the register files (03 R32, R33; 04 R59).
-/

namespace Sys2Proof.Machine

open Sys2Proof

/-! ## Parts of the machine -/

def getCore (s : State) (c : Nat) : Core := sget Core.blank s.cores c

def putCore (s : State) (c : Nat) (x : Core) : State := { s with cores := sput s.cores c x }

def onCore (s : State) (c : Nat) (f : Core → Core) : State := putCore s c (f (getCore s c))

def getWeave (s : State) (c k : Nat) : Option Weave := sfind (getCore s c).weaves k

def putWeave (s : State) (c k : Nat) (w : Weave) : State :=
  onCore s c (fun x => { x with weaves := sput x.weaves k w })

def onWeave (s : State) (c k : Nat) (f : Weave → Weave) : State :=
  match getWeave s c k with
  | some w => putWeave s c k (f w)
  | none => s

def getInst (s : State) (c i : Nat) : Option Inst := sfind (getCore s c).insts i

def putInst (s : State) (c i : Nat) (x : Inst) : State :=
  onCore s c (fun y => { y with insts := sput y.insts i x })

def onInst (s : State) (c i : Nat) (f : Inst → Inst) : State :=
  match getInst s c i with
  | some x => putInst s c i (f x)
  | none => s

def getVf (s : State) (v : Nat) : Vf := sget Vf.blank s.vfs v

def putVf (s : State) (v : Nat) (x : Vf) : State := { s with vfs := sput s.vfs v x }

def onVf (s : State) (v : Nat) (f : Vf → Vf) : State := putVf s v (f (getVf s v))

def getPart (s : State) (p : Nat) : Part := sget Part.blank s.parts p

def putPart (s : State) (p : Nat) (x : Part) : State := { s with parts := sput s.parts p x }

def onPart (s : State) (p : Nat) (f : Part → Part) : State := putPart s p (f (getPart s p))

def getLaunch (s : State) (n : Nat) : Option Launch := s.launches.find? (fun l => l.serial == n)

def onLaunch (s : State) (n : Nat) (f : Launch → Launch) : State :=
  { s with launches := s.launches.map (fun l => if l.serial == n then f l else l) }

/-- The partition of a core (01 R11): sixteen cores each. -/
def partOf (c : Nat) : Nat := c / 16

/-- The core of an agent. -/
def coreOf : Agent → Nat
  | .weave c _ => c
  | .steer c _ => c
  | .handler c => c

/-- The number of a core's agent among its issuers, as its store queue is named. -/
def agentInst (s : State) : Agent → Option Nat
  | .weave c k => (getWeave s c k).map (·.inst)
  | .steer _ k => some k
  | .handler c =>
    match (getCore s c).handler.run with
    | some d =>
      match d.target with
      | .weave slot _ => (getWeave s c slot).map (·.inst)
      | .steer k => some k
      | .engine q => (((getCore s c).queues.getD q []).head?).map (·.inst)
    | none => none

/-- The launch an agent works for. -/
def agentLaunch (s : State) (a : Agent) : Option Launch :=
  match agentInst s a with
  | some i =>
    match getInst s (coreOf a) i with
    | some x => getLaunch s x.serial
    | none => none
  | none => none

/-- The virtual function a core is owned by: through its mask (R350), or through a loan (R346). -/
def ownerOf (s : State) (c : Nat) : Option Nat :=
  match (getCore s c).loan with
  | some l => some l.vf
  | none => (s.vfs.find? (fun e => e.2.state != 0 && (e.2.cores.getD (partOf c) 0#16).getLsbD (c % 16))).map (·.1)

/-- The virtual function an agent belongs to. -/
def agentVf (s : State) (a : Agent) : Nat :=
  match agentLaunch s a with
  | some l => l.vf
  | none => (ownerOf s (coreOf a)).getD 0

/-! ## Registers of a weave -/

def vkey (t r : Nat) : Nat := 32 * r + t

/-- A v register of a thread. -/
def readV (w : Weave) (t r : Nat) : Word := sget 0#32 w.v (vkey t r)

def writeV (w : Weave) (t r : Nat) (x : Word) : Weave :=
  { w with v := sset 0#32 w.v (vkey t r) x, vbad := nerase w.vbad (vkey t r) }

/-- A pair `vN.d`, low register first (R32). -/
def readVD (w : Weave) (t r : Nat) : Double := readV w t (r + 1) ++ readV w t r

def writeVD (w : Weave) (t r : Nat) (x : Double) : Weave :=
  writeV (writeV w t r (x.extractLsb' 0 32)) t (r + 1) (x.extractLsb' 32 32)

/-- A predicate of a thread; p7 reads 1 (R35). -/
def readP (w : Weave) (t p : Nat) : Bool := if p = 7 then true else (sget 0#32 w.preds p).getLsbD t

def setBit (m : Mask) (t : Nat) (b : Bool) : Mask := if b then m ||| (1#32 <<< t) else m &&& ~~~(1#32 <<< t)

def writeP (w : Weave) (t p : Nat) (b : Bool) : Weave :=
  if p = 7 then w else { w with preds := sset 0#32 w.preds p (setBit (sget 0#32 w.preds p) t b) }

def readFlags (w : Weave) (t : Nat) : Flags := sget 0#6 w.flags t

def writeFlags (w : Weave) (t : Nat) (f : Flags) : Weave := { w with flags := sset 0#6 w.flags t f }

/-- Sticky flags are only set (R219). -/
def raiseFlags (w : Weave) (t : Nat) (f : Flags) : Weave := writeFlags w t (readFlags w t ||| f)

/-- The default state of a generator: never zero (R225). -/
def readGen (w : Weave) (t : Nat) : Double := sget 1#64 w.gens t

def writeGen (w : Weave) (t : Nat) (g : Double) : Weave := { w with gens := sset 1#64 w.gens t g }

/-- One draw (R225): the new state, whose bits 63:32 are the draw. -/
def drawStep (s : Double) : Double :=
  let a := s ^^^ (s <<< 13)
  let b := a ^^^ (a >>> 7)
  b ^^^ (b <<< 17)

def drawOf (s : Double) : Word := s.extractLsb' 32 32

/-- The generator's state at a thread's start (R225). -/
def genStart (lsn : Double) (inst role wid tid : Nat) : Double :=
  let g := lsn * 0x9e3779b97f4a7c15#64 + BitVec.ofNat 64 ((((inst * 4 + role) * 32 + wid) * 32) + tid)
  if g = 0#64 then 1#64 else g

/-- The generator's state at a steer thread's start (R443). -/
def genSteer (lsn : Double) (inst : Nat) : Double :=
  let g := lsn * 0x9e3779b97f4a7c15#64 + 0x8000000000000000#64 + BitVec.ofNat 64 inst
  if g = 0#64 then 1#64 else g

/-! ## Uniform registers, of a weave, a steer thread or the handler slot -/

/-- The uniform registers of an agent with its `$mode` and, for steer and handler, its generator. -/
structure UFile where
  s : Sparse Word
  q : BitVec 4
  mode : Word
  gen : Double
  bad : NatSet
deriving DecidableEq, Repr, Inhabited

def weaveFile (w : Weave) : UFile := { s := w.s, q := w.q, mode := w.mode, gen := 1#64, bad := w.sbad }

def steerFile (x : Steer) : UFile := { s := x.s, q := x.q, mode := x.mode, gen := x.gen, bad := x.sbad }

def handlerFile (h : Handler) : UFile := { s := h.s, q := h.q, mode := h.mode, gen := h.gen, bad := h.sbad }

def getFile (s : State) : Agent → UFile
  | .weave c k => match getWeave s c k with | some w => weaveFile w | none => default
  | .steer c k => match getInst s c k with | some i => steerFile i.steer | none => default
  | .handler c => handlerFile (getCore s c).handler

def putFile (s : State) (a : Agent) (f : UFile) : State :=
  match a with
  | .weave c k => onWeave s c k (fun w => { w with s := f.s, q := f.q, mode := f.mode, sbad := f.bad })
  | .steer c k => onInst s c k (fun i =>
      { i with steer := { i.steer with s := f.s, q := f.q, mode := f.mode, gen := f.gen, sbad := f.bad } })
  | .handler c => onCore s c (fun x =>
      { x with handler := { x.handler with s := f.s, q := f.q, mode := f.mode, gen := f.gen, sbad := f.bad } })

def readS (f : UFile) (n : Nat) : Word := sget 0#32 f.s n

def writeS (f : UFile) (n : Nat) (x : Word) : UFile := { f with s := sset 0#32 f.s n x, bad := nerase f.bad n }

def readSD (f : UFile) (n : Nat) : Double := readS f (n + 1) ++ readS f n

def writeSD (f : UFile) (n : Nat) (x : Double) : UFile :=
  writeS (writeS f n (x.extractLsb' 0 32)) (n + 1) (x.extractLsb' 32 32)

/-- A uniform predicate; 7 reads 1 (R35). -/
def readQ (f : UFile) (p : Nat) : Bool := if p = 7 then true else f.q.getLsbD p

def writeQ (f : UFile) (p : Nat) (b : Bool) : UFile :=
  { f with q := if b then f.q ||| (1#4 <<< p) else f.q &&& ~~~(1#4 <<< p) }

/-! ## Counters of a core and of a weave (22 R424, R425) -/

def countCore (x : Core) (n k : Nat) : Core := { x with counts := sset 0 x.counts n ((sget 0 x.counts n + k) % 2 ^ 64) }

def countWeave (w : Weave) (n k : Nat) : Weave := { w with marks := sset 0 w.marks n ((sget 0 w.marks n + k) % 2 ^ 64) }

def countL (w : Weave) (n : Nat) : Weave := { w with lstat := sset 0 w.lstat n ((sget 0 w.lstat n + 1) % 2 ^ 64) }

/-- An event of a shared-resource counter, kept with its time (R368, R424) (DESIGN CHOICE, log entry 6). -/
def mark (s : State) (n k : Nat) : State := { s with marks := (n, s.now, k) :: s.marks }

/-- An event of a counter of group 2, which each partition has for itself: partition above the counter's 12 bits. -/
def markPart (s : State) (p n k : Nat) : State := mark s (4096 * p + n) k

/-! ## Order of issue, messages -/

/-- The next place in the order in which commands, parks and other numbered things happen (DESIGN CHOICE, log entry 6). -/
def nextSeq (s : State) : Nat × State := (s.seq, { s with seq := s.seq + 1 })

def send (s : State) (m : Msg) : State := { s with out := s.out ++ [m] }

end Sys2Proof.Machine
end

