-- ==== Sys2Proof/Machine/Memory.lean ====
section
/-!
DEFINITION. Device memory and its caches: bytes by memory key (device number × 2^41 + physical address), the granules
not yet scrubbed (17 R353), poisoned units (20 R396), dirty granules (05 R117), the lines of a core's L1 and of a partition's L2 slice
with the bytes not yet written back (08 R199, R202), and the stage of a restartable node (20 R398).
-/

namespace Sys2Proof.Machine

open Sys2Proof

/-- The bytes of device memory: 16 stacks of 120 GB (01 R8; GB is 10^9 bytes, 00 R4) (PRESUMED, log entry 48). -/
def deviceMemory : Nat := 1920 * 10 ^ 9

/-- The memory key of a physical address of a device (17 R360: 41 address bits, 8 bits of device number). -/
def memKey (device phys : Nat) : Nat := device * 2 ^ 41 + phys % 2 ^ 41

/-- What a byte that nothing has written reads as (DESIGN CHOICE, log entry 1). -/
def memBlank : Byte := 0#8

/-- The canonical form of memory: addresses strictly rising, no byte equal to what an unlisted one reads as (DESIGN CHOICE, log entry 1). -/
def memWf (m : List Host.Cell) : Bool := canonical memBlank m

/-- One byte of memory; an unscrubbed granule reads as zero (R353) (DESIGN CHOICE, log entry 1). -/
def memByte (s : State) (k : Nat) : Byte :=
  if nmem s.unscrubbed (k >>> 16) then 0#8 else sget memBlank s.mem k

def memBytes (s : State) (k : Nat) : Nat → List Byte
  | 0 => []
  | n + 1 => memByte s k :: memBytes s (k + 1) n

/-- The 64-byte units that a range of bytes touches (R396). -/
def unitsOf (k n : Nat) : List Nat := if n = 0 then [] else (List.range ((k + n - 1) / 64 - k / 64 + 1)).map (fun i => k / 64 + i)

/-- Whether a range reads poisoned data; an unscrubbed granule reads as zero (R353). -/
def memBad (s : State) (k n : Nat) : Bool := (unitsOf k n).any (fun u => nmem s.bad u && !nmem s.unscrubbed (u >>> 10))

/-- The first write to an unscrubbed granule zeroes it, which also clears poison (R353, R396). -/
def scrubGranule (s : State) (g : Nat) : State :=
  if nmem s.unscrubbed g then
    { s with mem := skeep s.mem (fun k => k >>> 16 != g), unscrubbed := nerase s.unscrubbed g,
             bad := s.bad.filter (fun u => u >>> 10 != g) }
  else s

def storeBytes (m : List Host.Cell) (k : Nat) : List Byte → List Host.Cell
  | [] => m
  | b :: r => storeBytes (sset memBlank m k b) (k + 1) r

/-- The units wholly inside a range (R396: a write of all 64 bytes clears the mark). -/
def wholeUnits (k n : Nat) : List Nat := (unitsOf k n).filter (fun u => k ≤ u * 64 && u * 64 + 64 ≤ k + n)

/-- A write performed in memory: zeroing of unscrubbed granules, the bytes, the poison marks, the dirty bits. -/
def writeMem (s : State) (k : Nat) (d : List Byte) : State :=
  if d.isEmpty then s
  else
    let gs := (List.range ((k + d.length - 1) / 65536 - k / 65536 + 1)).map (fun i => k / 65536 + i)
    let s := gs.foldl scrubGranule s
    { s with mem := storeBytes s.mem k d, bad := neraseAll s.bad (wholeUnits k d.length), dirty := ninsertAll s.dirty gs }

/-- A unit marked poisoned (R395, R396). -/
def poisonUnit (s : State) (u : Nat) : State := { s with bad := ninsert s.bad u }

/-! ## Lines of the L1s and of the L2 slices (08 R199, R202, R203)

A line of an L1 is written back to the slice of the core's partition, a line of a slice to memory. Lines of remote pages are written through
to their home, and a copy of one stands in a slice alone. -/

/-- The bytes of a line to be written back, each with its key. -/
def dirtyRuns (key : Nat) (l : Line) : List (Nat × Byte) :=
  (List.range 64).filterMap (fun i => if l.dirty.getLsbD i then some (key * 64 + i, l.data.getD i 0#8) else none)

/-- A line written back to memory: all 64 bytes as one write where all are dirty, else byte by byte; a bad line poisoned (R395). -/
def writeBack (s : State) (key : Nat) (l : Line) : State :=
  let s :=
    if l.dirty = 0#64 then s
    else if l.dirty = BitVec.allOnes 64 then writeMem s (key * 64) l.data
    else (dirtyRuns key l).foldl (fun s e => writeMem s e.1 [e.2]) s
  if l.bad && l.dirty != 0#64 then poisonUnit s key else s

/-- A line as it is filled from memory. -/
def freshLine (s : State) (line : Nat) : Line := { data := memBytes s (line * 64) 64, dirty := 0#64, bad := false }

/-- Bytes replaced in a line from an offset on. -/
def patch (data : List Byte) : Nat → List Byte → List Byte
  | _, [] => data
  | o, b :: r => patch (data.set o b) (o + 1) r

def dirtyMask (o n : Nat) : BitVec 64 := (BitVec.ofNat 64 (2 ^ n - 1)) <<< o

/-- A line with bytes stored to it. -/
def Line.store (l : Line) (k : Nat) (d : List Byte) : Line :=
  { l with data := patch l.data (k % 64) d, dirty := l.dirty ||| dirtyMask (k % 64) d.length }

/-- Whether a line belongs to a page of another device (R203). -/
def remoteLine (s : State) (line : Nat) : Bool := line / 2 ^ 35 != s.device

/-- The line of a full cache that leaves for another, which no rule fixes: 1 an L1, 2 a slice, 3 an instruction cache (DESIGN CHOICE, log entry 7). -/
def victimOf {α : Type} (s : State) (cache : Nat) (t : Sparse α) : Nat :=
  ((t.drop (Config.victim s.tick cache % t.length)).map (·.1)).headD 0

/-- The lines of a slice: 32 MiB (01 R10). -/
def sliceLines : Nat := 524288

/-- The lines of an L1: 128 KiB (01 R11). -/
def l1Lines : Nat := 2048

/-- The lines of the slice of a core's partition. -/
def sliceOf (s : State) (c : Nat) : Sparse Line := (getPart s (partOf c)).l2

/-- A line of a slice written back to memory and dropped. -/
def dropSlice (s : State) (p line : Nat) : State :=
  match sfind (getPart s p).l2 line with
  | some l => onPart (writeBack s line l) p (fun q => { q with l2 := serase q.l2 line })
  | none => s

/-- A line put into a slice, another leaving where the slice is full. -/
def putSlice (s : State) (p line : Nat) (l : Line) : State :=
  let t := (getPart s p).l2
  let s := if (sfind t line).isSome || t.length < sliceLines then s else dropSlice s p (victimOf s 2 t)
  onPart s p (fun q => { q with l2 := sput q.l2 line l })

/-- A line as a slice gives it: its own, unless an uncorrectable error struck it clean (R395), else that of memory. -/
def sliceLine (s : State) (p line : Nat) : Line :=
  match sfind (getPart s p).l2 line with
  | some l => if l.bad && l.dirty = 0#64 then freshLine s line else l
  | none => freshLine s line

/-- An upper line's stored bytes over a lower line. -/
def mergeLine (up low : Line) : Line :=
  { data := (List.range 64).map (fun i => if up.dirty.getLsbD i then up.data.getD i 0#8 else low.data.getD i 0#8),
    dirty := up.dirty ||| low.dirty, bad := low.bad && up.dirty != BitVec.allOnes 64 }

/-- A line of an L1 written back to the slice; past it, to memory, where the line is bad, its unit is poisoned, or its home is another
device (R203, R395, R396). -/
def putBelow (s : State) (p line : Nat) (l : Line) : State :=
  if l.dirty = 0#64 then s
  else if remoteLine s line || l.bad || memBad s (line * 64) 64 then writeBack (dropSlice s p line) line l
  else putSlice s p line (mergeLine l (sliceLine s p line))

/-- A line that leaves a core's L1 for the slice. -/
def leaveL1 (s : State) (c line : Nat) : State :=
  match sfind (getCore s c).l1 line with
  | some l => putBelow (onCore s c (fun x => { x with l1 := serase x.l1 line })) (partOf c) line l
  | none => s

/-- A line put into a core's L1, another leaving where the L1 is full. -/
def putL1 (s : State) (c line : Nat) (l : Line) : State :=
  let t := (getCore s c).l1
  let s := if (sfind t line).isSome || t.length < l1Lines then s else leaveL1 s c (victimOf s 1 t)
  onCore s c (fun x => { x with l1 := sput x.l1 line l })

/-- A line written back to memory from a core's L1 and its partition's slice, and dropped in both. -/
def dropLine (s : State) (c line : Nat) : State := dropSlice (leaveL1 s c line) (partOf c) line

/-- A line written back clean, with the lines that an error struck taken out. -/
def cleaned (t : Sparse Line) : Sparse Line := (t.filter (fun e => !e.2.bad)).map (fun e => (e.1, { e.2 with dirty := 0#64 }))

/-- The stores that a core's L1 holds written to the slice (a release at .pt, R190, R202) (DEDUCED, log entry 16). -/
def flushCore (s : State) (c : Nat) : State :=
  let ls := (getCore s c).l1
  let s := ls.foldl (fun s e => putBelow s (partOf c) e.1 e.2) s
  onCore s c (fun x => { x with l1 := cleaned x.l1 })

/-- The stores that a slice holds written to memory. -/
def flushPart (s : State) (p : Nat) : State :=
  let ls := (getPart s p).l2
  let s := ls.foldl (fun s e => writeBack s e.1 e.2) s
  onPart s p (fun q => { q with l2 := cleaned q.l2 })

/-- The stores that a core's L1 and its slice hold written to memory; the lines stay, clean (a release at .tn or wider, R190, R200)
(DEDUCED, log entry 16) (DEDUCED, log entry 16). -/
def flushL1 (s : State) (c : Nat) : State := flushPart (flushCore s c) (partOf c)

/-- A core's L1 written to the slice and emptied (an acquire at .pt, R199) (DEDUCED, log entry 16). -/
def dropCore (s : State) (c : Nat) : State := onCore (flushCore s c) c (fun x => { x with l1 := [] })

/-- A slice written to memory and emptied. -/
def dropPart (s : State) (p : Nat) : State := onPart (flushPart s p) p (fun q => { q with l2 := [] })

/-- A core's L1 and its slice written to memory and emptied (an acquire at .tn or wider, R199, R203) (DEDUCED, log entry 16). -/
def dropL1 (s : State) (c : Nat) : State := dropPart (dropCore s c) (partOf c)

/-- The lines of all caches written back and dropped for some lines (20 R398: a commit is performed in memory). -/
def purgeLine (s : State) (line : Nat) : State :=
  let s := s.cores.foldl (fun s e => leaveL1 s e.1 line) s
  s.parts.foldl (fun s e => dropSlice s e.1 line) s

/-- The lines of a granule taken out of every cache (17 R353) (DEDUCED, log entry 16). -/
def dropGranule (s : State) (g : Nat) : State :=
  let keep := fun (t : Sparse Line) => skeep t (fun line => line >>> 10 != g)
  { s with cores := s.cores.map (fun e => (e.1, { e.2 with l1 := keep e.2.l1 })),
           parts := s.parts.map (fun e => (e.1, { e.2 with l2 := keep e.2.l2 })) }

/-- A store within one line made in the slice (07 R163: through the L1), or in memory where the unit is poisoned. -/
def storeSlice (s : State) (c k : Nat) (d : List Byte) : State :=
  let line := k / 64
  let s := leaveL1 s c line
  if memBad s k 1 || (sliceLine s (partOf c) line).bad then writeMem (dropSlice s (partOf c) line) k d
  else putSlice s (partOf c) line ((sliceLine s (partOf c) line).store k d)

/-- How far down a store is made at once: into the L1, through it into the slice (07 R163; a release at .pt), or into memory (a release
at .tn or wider). -/
inductive Depth
  | l1 | slice | memory
deriving DecidableEq, Repr, Inhabited

/-- A store within one line entering the core order (R196): into the L1 line, or deeper. A store to a remote page is performed at its home,
so that the writes of an agent leave in program order (R203); one to a poisoned unit is made in memory. -/
def storeLine (s : State) (c k : Nat) (d : List Byte) (dp : Depth) : State :=
  let line := k / 64
  if dp = .memory || remoteLine s line || memBad s k 1 then writeMem (dropLine s c line) k d
  else if dp = .slice then storeSlice s c k d
  else
    match sfind (getCore s c).l1 line with
    | some l => putL1 s c line (l.store k d)
    | none =>
      let l := sliceLine s (partOf c) line
      if l.bad then writeMem (dropLine s c line) k d
      else
        let s := if (sfind (sliceOf s c) line).isSome then s else putSlice s (partOf c) line l
        putL1 s c line ({ l with dirty := 0#64 }.store k d)

/-- A load within one line served by the slice, which allocates it: bytes, whether they are poisoned, and the state; the slice's accesses and
misses are counted (22 R424). -/
def loadSlice (s : State) (p k n : Nat) : List Byte × Bool × State :=
  let line := k / 64
  let s := markPart s p 0x200 1
  match sfind (getPart s p).l2 line with
  | some l =>
    if l.bad && l.dirty = 0#64 then
      (memBytes s k n, memBad s k n, onPart s p (fun q => { q with l2 := serase q.l2 line }))
    else (((l.data.drop (k % 64)).take n), l.bad, s)
  | none =>
    let s := markPart s p 0x201 1
    if memBad s k n then (memBytes s k n, true, s)
    else (((freshLine s line).data.drop (k % 64)).take n, false, putSlice s p line (freshLine s line))

/-- A load within one line: the bytes, whether they are poisoned, and the state with the line allocated. With `nl1`, and for a remote page,
it is served from beyond the L1 (07 R163, R203). -/
def loadLine (s : State) (c k n : Nat) (nl1 : Bool) : List Byte × Bool × State :=
  let line := k / 64
  if nl1 || remoteLine s line then
    loadSlice (onCore (leaveL1 s c line) c (fun x => countCore x 0x006 1)) (partOf c) k n
  else
    match sfind (getCore s c).l1 line with
    | some l =>
      if l.bad && l.dirty = 0#64 then
        -- an uncorrectable error in a clean line: dropped and read again (R395)
        loadSlice (onCore s c (fun x => countCore { x with l1 := serase x.l1 line } 0x005 1)) (partOf c) k n
      else (((l.data.drop (k % 64)).take n), l.bad, s)
    | none =>
      match loadSlice (onCore s c (fun x => countCore x 0x006 1)) (partOf c) k n with
      | (d, true, s) => (d, true, s)
      | (d, false, s) => (d, false, putL1 s c line { sliceLine s (partOf c) line with dirty := 0#64 })

/-! ## Staged writes of a restartable node (R398, R399, R400) -/

/-- Whether the writes of a launch are staged. -/
def staging (l : Launch) : Bool := l.node.restartable && !l.early

/-- The lines of staged bytes, in rising order. -/
def linesOf (m : List Host.Cell) : List Nat := m.foldl (fun a e => ninsert a (e.1 / 64)) []

/-- The 64-byte stage lines that staged bytes take. -/
def stageLines (m : List Host.Cell) : Nat := (linesOf m).length

/-- The stage lines of a copy's pairing state: of a leading copy its checkpoint (R407) and what its groups take, and of either what its log
takes, where they hold something (R400, R405, R408) (DESIGN CHOICE, log entry 80). -/
def pairLines (p : Pair) : Nat :=
  let group := fun (n : Nat) => if n = 0 then 0 else Config.groupLines n
  (if p.trailing then 0 else p.lines + group p.count + p.closed.foldl (fun a g => a + group g.ops.length) 0)
    + (if p.log.isEmpty then 0 else Config.logLines p.log.length)

/-- The stage lines that the copies of a launch take beside its staged writes. -/
def checkLines (s : State) (serial : Nat) : Nat :=
  let of := fun (p : Option Pair) => match p with | some p => pairLines p | none => 0
  s.cores.foldl (fun a e => e.2.insts.foldl (fun a i =>
    if i.2.serial = serial then
      (e.2.weaves.filter (fun w => w.2.inst == i.1)).foldl (fun a w => a + of w.2.pair) (a + of i.2.steer.pair)
    else a) a) 0

/-- The stage lines a virtual function uses in a partition: staged writes, groups, checkpoints and logs (DESIGN CHOICE, log entry 80). -/
def usedLines (s : State) (p v : Nat) : Nat :=
  (s.launches.filter (fun l => l.vf == v && l.part == p)).foldl (fun a l => a + stageLines l.staged + checkLines s l.serial) 0

/-- Whether a virtual function owns cores in a partition. -/
def ownsIn (s : State) (v p : Nat) : Bool := (getVf s v).state != 0 && (getVf s v).cores.getD p 0#16 != 0#16

/-- The virtual functions that own cores in a partition. -/
def ownersIn (s : State) (p : Nat) : List Nat := (s.vfs.map (·.1)).filter (fun v => ownsIn s v p)

def stageSize : Nat := 1048576

/-- The reserve of a virtual function (R400). -/
def reserveOf (s : State) (p v : Nat) : Nat :=
  if ownsIn s v p then
    stageSize * (getVf s v).weight / ((ownersIn s p).foldl (fun a u => a + (getVf s u).weight) 0)
  else 0

/-- The virtual functions that use lines in a partition. -/
def stageUsers (s : State) (p : Nat) : List Nat :=
  ((ownersIn s p) ++ ((s.launches.filter (fun l => l.part == p)).map (·.vf))).eraseDups

/-- Whether `n` further lines are available to a virtual function (R400). -/
def lineAvailable (s : State) (p v n : Nat) : Bool :=
  let free := stageSize - (stageUsers s p).foldl (fun a u => a + usedLines s p u) 0
  let others := ((stageUsers s p).filter (· != v)).foldl (fun a u => a + (reserveOf s p u - usedLines s p u)) 0
  n = 0 || usedLines s p v + n ≤ reserveOf s p v || (n ≤ free && others + n ≤ free)

/-- One line of staged bytes written in one step (R398). -/
def commitLine (m : List Host.Cell) (s : State) (line : Nat) : State :=
  let es := m.filter (fun e => e.1 / 64 == line)
  if es.length = 64 then writeMem s (line * 64) (es.map (·.2)) else es.foldl (fun s e => writeMem s e.1 [e.2]) s

/-- The staged bytes of a launch written to memory, no cache left with an older line of them, and its freed blocks returned (R398, R399). -/
def commitStage (s : State) (serial : Nat) (early : Bool) : State :=
  match getLaunch s serial with
  | none => s
  | some l =>
    let s := (linesOf l.staged).foldl purgeLine s
    let s := (linesOf l.staged).foldl (commitLine l.staged) s
    let s := l.freed.foldl (fun s a => onVf s l.vf (fun v => { v with blocks := serase v.blocks a })) s
    onLaunch s serial (fun l => { l with staged := [], freed := [], blocks := [], early := early || l.early })

/-- A staged byte of a launch. -/
def stagedByte (l : Launch) (k : Nat) : Option Byte := sfind l.staged k

/-- The new stage lines a write needs. -/
def newLines (l : Launch) (k n : Nat) : Nat :=
  ((unitsOf k n).filter (fun u => !l.staged.any (fun e => e.1 / 64 == u))).length

/-- Staged bytes are kept whatever their value. -/
def stageBytes (m : List Host.Cell) (k : Nat) : List Byte → List Host.Cell
  | [] => m
  | b :: r => stageBytes (sput m k b) (k + 1) r

/-- A write of a launch to global memory, staged where its node is restartable; a write that finds no stage line commits the
node early (R399). `direct`: the writer where nothing is staged. -/
def writeFor (s : State) (serial : Option Nat) (k : Nat) (d : List Byte) (direct : State → State) : State :=
  match serial.bind (getLaunch s) with
  | none => direct s
  | some l =>
    if staging l then
      if lineAvailable s l.part l.vf (newLines l k d.length) then
        onLaunch s l.serial (fun l => { l with staged := stageBytes l.staged k d })
      else direct (commitStage s l.serial true)
    else direct s

/-- Bytes with the staged bytes of a launch over them. -/
def overlay (s : State) (serial : Option Nat) (k : Nat) (d : List Byte) : List Byte :=
  match serial.bind (getLaunch s) with
  | none => d
  | some l =>
    if l.staged.isEmpty then d
    else (d.zip (List.range d.length)).map (fun e => (stagedByte l (k + e.2)).getD e.1)

/-- Whether every byte of a range is staged, so that memory below is not read. -/
def allStaged (s : State) (serial : Option Nat) (k n : Nat) : Bool :=
  match serial.bind (getLaunch s) with
  | none => false
  | some l => (List.range n).all (fun i => (stagedByte l (k + i)).isSome)

/-! ## Accesses of an agent's core to global memory -/

/-- A load of `n` bytes, within an aligned unit, by an agent of a core. -/
def loadGlobal (s : State) (c : Nat) (serial : Option Nat) (k n : Nat) (nl1 : Bool) : List Byte × Bool × State :=
  if allStaged s serial k n then (overlay s serial k (List.replicate n 0#8), false, s)
  else
    match loadLine s c k n nl1 with
    | (d, bad, s') => (overlay s' serial k d, bad, s')

/-- A store entering the core order (R196). -/
def storeGlobal (s : State) (c : Nat) (serial : Option Nat) (k : Nat) (d : List Byte) (dp : Depth) : State :=
  writeFor s serial k d (fun s => storeLine s c k d dp)

/-- A read of engines and atomics, in memory itself: the core's line and the slice's are written back and dropped first (DEDUCED, log entry 17). -/
def readHome (s : State) (c : Nat) (serial : Option Nat) (k n : Nat) : List Byte × Bool × State :=
  let s := (unitsOf k n).foldl (fun s u => dropLine s c u) s
  (overlay s serial k (memBytes s k n), memBad s k n && !allStaged s serial k n, s)

/-- A write of engines and atomics, in memory itself (DEDUCED, log entry 17). -/
def writeHome (s : State) (c : Nat) (serial : Option Nat) (k : Nat) (d : List Byte) : State :=
  let s := (unitsOf k d.length).foldl (fun s u => dropLine s c u) s
  writeFor s serial k d (fun s => writeMem s k d)

end Sys2Proof.Machine
end

