-- ==== Sys2Proof/Machine/Translate.lean ====
section
/-!
DEFINITION. Translation (17 R360 to R363): the walk of a virtual function's shadow table, the leaves the TLBs hold, the faults of
an access, and the instruction and constant caches. The TLBs hold only leaves; whether one is still held is free (R363).
-/

namespace Sys2Proof.Machine

open Sys2Proof

/-- What an access does to a page (R362). -/
inductive Acc
  | load | store | atomic | fetch
deriving DecidableEq, Repr, Inhabited

/-- The codes of causes (05 R106). -/
def cPOISON : Nat := 0x01
def cPAIRFAIL : Nat := 0x02
def cILLEGAL : Nat := 0x08
def cMISALIGNED : Nat := 0x09
def cPRIV : Nat := 0x0a
def cLATCH : Nat := 0x0b
def cNOTPRESENT : Nat := 0x10
def cWRITEPROT : Nat := 0x11
def cEXEC : Nat := 0x12
def cSCOPE : Nat := 0x13
def cALIGN : Nat := 0x18
def cBOUNDS : Nat := 0x19
def cSLOT : Nat := 0x1a
def cHEAP : Nat := 0x20
def cRETEMPTY : Nat := 0x31
def cBRK : Nat := 0x38
def cSOFT : Nat := 0x39
def cWATCH : Nat := 0x40

/-- The level at which a leaf of a size code stands (R360). -/
def levelOf (size : Nat) : Nat := if size < 2 then 0 else size - 1

/-- log2 of a page size by its code. -/
def pageShift (size : Nat) : Nat :=
  match size with
  | 0 => 12
  | 1 => 16
  | 2 => 21
  | _ => 30

def stateOfCode (n : Nat) : PageState :=
  match n with
  | 0 => .priv
  | 1 => .dup
  | 2 => .remote
  | _ => .migrating

/-- A shadow table entry read at a level: nothing, a next table, or a leaf (R360, R361). -/
inductive Pte
  | none | table (phys : Nat) | leaf (l : Leaf)
deriving DecidableEq, Repr, Inhabited

/-- An entry decoded by the rules of R361; a breach acts as V = 0. -/
def decodePte (vf va level e : Nat) : Pte :=
  if bits e 63 1 = 0 then .none
  else if bits e 62 1 = 0 then
    if bits e 41 21 = 0 && bits e 0 12 = 0 && level != 0 then .table (bits e 12 29 * 4096) else .none
  else
    let size := bits e 58 2
    let st := stateOfCode (bits e 60 2)
    if bits e 49 4 != 0 || bits e 0 12 != 0 || 3 ≤ level || levelOf size != level then .none
    else if st != .remote && bits e 41 8 != 0 then .none
    else
      let w := bits e 56 1 == 1
      .leaf { vf := vf, va := va / 2 ^ pageShift size * 2 ^ pageShift size, size := pageShift size, state := st,
              r := bits e 57 1 == 1, w := w, x := bits e 55 1 == 1 && !w, h := bits e 54 1 == 1, p := bits e 53 1 == 1,
              home := bits e 41 8, frame := bits e 12 29 }

/-- A walker's 8-byte read of physical memory of this device: the entry, and whether it is poisoned (R363, R396). -/
def readPte (s : State) (phys : Nat) : Nat × Bool :=
  let k := memKey s.device phys
  (natLE (memBytes s k 8), memBad s k 8)

/-- The channel that holds a physical address (R356; GB is 10^9 bytes, 00 R4): 16 stacks of 32 channels of 3.75 GB, in order (PRESUMED, log entry 48). -/
def channelOf (phys : Nat) : Nat := phys / 3750000000

/-- Whether the physical range of a retired channel without a spare is lost (R358); its leaves act as V = 0. -/
def rangeLost (s : State) (phys : Nat) : Bool := s.parts.any (fun e => nmem e.2.lost (channelOf phys))

/-- The physical address at which a leaf's page begins. -/
def leafBase (l : Leaf) : Nat := l.frame * 4096 / 2 ^ l.size * 2 ^ l.size

/-- A leaf of this device whose page lies in memory and in no lost range; another acts as V = 0 (R358; 01 R8: no other memory exists) (DESIGN
CHOICE, log entry 48) (PRESUMED, log entry 48). -/
def keepLeaf (s : State) (l : Leaf) : Except Nat Leaf :=
  if l.state != .remote && (deviceMemory < leafBase l + 2 ^ l.size || rangeLost s (leafBase l) || rangeLost s (leafBase l + 2 ^ l.size - 1))
  then .error cNOTPRESENT else .ok l

/-- The walk from a table at a level (R360, R361): a leaf, or the cause (DESIGN CHOICE, log entry 9). -/
def walkFrom (s : State) (vf va : Nat) : Nat → Nat → Except Nat Leaf
  | 0, table =>
    let i := bits va 12 9
    match readPte s (table + 8 * i) with
    | (e, bad) =>
      if bad then .error cPOISON
      else
        let base := i / 16 * 16
        let same := (List.range 16).all (fun j => (readPte s (table + 8 * (base + j))).1 == e)
        let is64 := bits e 62 1 == 1 && bits e 58 2 == 1
        let e := if is64 && !same then (readPte s (table + 8 * (base + Config.walkChoice s.tick % 16))).1 else e
        match decodePte vf va 0 e with
        | .leaf l => keepLeaf s l
        | _ => .error cNOTPRESENT
  | level + 1, table =>
    let i := bits va (12 + 9 * (level + 1)) 9
    match readPte s (table + 8 * i) with
    | (e, bad) =>
      if bad then .error cPOISON
      else
        match decodePte vf va (level + 1) e with
        | .none => .error cNOTPRESENT
        | .leaf l => keepLeaf s l
        | .table t => walkFrom s vf va level t

def walk (s : State) (vf va : Nat) : Except Nat Leaf := walkFrom s vf va 4 ((getVf s vf).root.toNat / 4096 * 4096)

/-- Whether a leaf covers a virtual address of a virtual function. -/
def covers (vf va : Nat) (l : Leaf) : Bool := l.vf == vf && l.va == va / 2 ^ l.size * 2 ^ l.size

/-- The first leaf of a TLB that covers an address. -/
def tlbFind (ls : List Leaf) (vf va : Nat) : Option Leaf := ls.find? (covers vf va)

/-- A walk counts as a miss of the second-level TLB and as a completed walk (22 R424). -/
def walked (s : State) (p : Nat) : State := markPart (markPart s p 0x204 1) p 0x205 1

/-- A list of leaves with one put first; a full one loses another (DESIGN CHOICE, log entry 7). -/
def putLeaf (s : State) (tlb cap : Nat) (l : Leaf) (ls : List Leaf) : List Leaf :=
  l :: (if ls.length < cap then ls else ls.eraseIdx (Config.victim s.tick tlb % ls.length))

/-- The entries of a core's TLB (01 R11) and of the second-level TLB (01 R10). -/
def tlbLeaves : Nat := 128
def tlb2Leaves : Nat := 16384

/-- A leaf put into a core's TLB. -/
def putTlb (s : State) (c : Nat) (l : Leaf) : State := onCore s c (fun x => { x with tlb := putLeaf s 4 tlbLeaves l x.tlb })

/-- A leaf put into a second-level TLB. -/
def putTlb2 (s : State) (p : Nat) (l : Leaf) : State := onPart s p (fun q => { q with tlb2 := putLeaf s 5 tlb2Leaves l q.tlb2 })

/-- The leaves of an address dropped from a core's TLB. -/
def dropTlb (s : State) (c vf va : Nat) : State := onCore s c (fun x => { x with tlb := x.tlb.filter (fun y => !covers vf va y) })

def dropTlb2 (s : State) (p vf va : Nat) : State := onPart s p (fun q => { q with tlb2 := q.tlb2.filter (fun y => !covers vf va y) })

/-- A walk counted, and the leaf that it read held by both TLBs (R363). -/
def walkGave (s : State) (c : Nat) : Except Nat Leaf → Except Nat Leaf × State
  | .error e => (.error e, walked s (partOf c))
  | .ok l => (.ok l, putTlb2 (putTlb (walked s (partOf c)) c l) (partOf c) l)

def walkIn (s : State) (c vf va : Nat) : Except Nat Leaf × State := walkGave s c (walk s vf va)

/-- The leaf the second-level TLB holds, or one read by a walk. -/
def findLeaf2 (s : State) (c vf va : Nat) : Except Nat Leaf × State :=
  match tlbFind (getPart s (partOf c)).tlb2 vf va with
  | some l => if Config.keeps s.tick 1 va then (.ok l, putTlb s c l) else walkIn (dropTlb2 s (partOf c) vf va) c vf va
  | none => walkIn s c vf va

/-- The leaf an access uses: of the core's TLB, of the second level, or by a walk (R363) (DESIGN CHOICE, log entry 7). -/
def findLeaf (s : State) (c vf va : Nat) : Except Nat Leaf × State :=
  match tlbFind (getCore s c).tlb vf va with
  | some l => if Config.keeps s.tick 0 va then (.ok l, s) else findLeaf2 (dropTlb s c vf va) c vf va
  | none => findLeaf2 s c vf va

/-- The cause of an access to a page, if it has one (R362, R364). -/
def pageCause (l : Leaf) (a : Acc) (handler : Bool) : Option Nat :=
  if l.h && !handler then some cNOTPRESENT
  else
    let ro := l.state == .dup || l.state == .migrating || !l.w || l.p
    match a with
    | .load => if l.r then none else some cNOTPRESENT
    | .store => if ro then some cWRITEPROT else none
    | .atomic => if !l.r then some cNOTPRESENT else if ro then some cWRITEPROT else none
    | .fetch => if l.x then none else some cEXEC

/-- The memory key a leaf gives an address (R360, R362). -/
def leafKey (s : State) (l : Leaf) (va : Nat) : Nat :=
  memKey (if l.state = .remote then l.home else s.device) (leafBase l + va % 2 ^ l.size)

/-- The translation of a global address (R154, R360 to R362): the memory key, or the cause. -/
def translate (s : State) (c vf : Nat) (va : Nat) (a : Acc) (handler : Bool) : Except Nat Nat × State :=
  if va / 2 ^ 57 != 0 then (.error cNOTPRESENT, s)
  else
    match findLeaf s c vf va with
    | (.error e, s) => (.error e, s)
    | (.ok l, s) =>
      match pageCause l a handler with
      | some e => (.error e, s)
      | none => (.ok (leafKey s l va), s)

/-- Whether an address lies on a page of another device (R179). -/
def isRemote (s : State) (c vf va : Nat) : Bool :=
  match findLeaf s c vf va with
  | (.ok l, _) => l.state == .remote
  | _ => false

/-! ## Instruction fetch -/

/-- The lines an instruction cache holds: 64 KiB (01 R11); the size of the constant cache is not stated, and the model sets no bound. -/
def cacheLines (cache : Nat) (n : Nat) : Bool := cache != 2 || n < 1024

/-- A line read from memory into a cache, another leaving where the cache is full (DESIGN CHOICE, log entry 7). -/
def fillLine (s : State) (held : Sparse (List Byte)) (cache line : Nat) : Except Nat (List Byte × Sparse (List Byte)) :=
  if memBad s (line * 64) 64 then .error cPOISON
  else
    let held := if (sfind held line).isSome || cacheLines cache held.length then held else serase held (victimOf s 3 held)
    .ok (memBytes s (line * 64) 64, sput held line (memBytes s (line * 64) 64))

/-- A cached line of bytes: what the cache holds, or memory, which it then holds (R395, R444) (DESIGN CHOICE, log entry 7). -/
def cacheLine (s : State) (held : Sparse (List Byte)) (cache line : Nat) : Except Nat (List Byte × Sparse (List Byte)) :=
  match sfind held line with
  | some d => if Config.keeps s.tick cache line then .ok (d, held) else fillLine s held cache line
  | none => fillLine s held cache line

/-- One word fetched at a virtual address through the instruction cache. -/
def fetchWord (s : State) (c vf va : Nat) (handler : Bool) : Except Nat Word × State :=
  match translate s c vf va .fetch handler with
  | (.error e, s) => (.error e, s)
  | (.ok k, s) =>
    match cacheLine s (getCore s c).icache 2 (k / 64) with
    | .error e => (.error e, s)
    | .ok (d, held) =>
      (.ok (BitVec.ofNat 32 (natLE ((d.drop (k % 64)).take 4))), onCore s c (fun x => { x with icache := held }))

end Sys2Proof.Machine
end

