-- ==== Sys2Proof/Machine/Frontier.lean ====
section
/-!
DEFINITION. A weave's frontier (04 R65 to R73): its entries, the selection of the entry that issues, the groups into which an
instruction moves threads, merging, spilling, and the completion of circle barriers (R80).
-/

namespace Sys2Proof.Machine

open Sys2Proof

/-- An entry with nothing parked or spilled. -/
def entryAt (pc : Double) (prio : Half) (mask : Mask) (st : EntryState) : Entry :=
  { pc := pc, prio := prio, mask := mask, state := st, cause := 0, parkedAt := 0, addr := 0#64, spill := none,
    skipWatch := 0#32, delivering := false }

/-- Where an instruction sends a group of threads (R67). `hold` leaves them at the instruction in a state; `park` parks them at
the instruction, or at their chain's head; `parkAt` parks a landing group at its target (R57, R129); `gone` ends them. -/
inductive Go
  | next
  | to (pc : Double) (prio : Half)
  | hold (st : EntryState)
  | sleepNext (wake : Nat)
  | park (cause : Nat) (addr : Double)
  | parkAt (pc : Double) (prio : Half) (cause : Nat)
  | gone
deriving DecidableEq, Repr, Inhabited

abbrev Groups := List (Mask × Go)

/-- Threads of a mask that no group moves fall through (R67). -/
def groupsOf (mask : Mask) (gs : Groups) : Groups :=
  let rest := gs.foldl (fun m g => m &&& ~~~g.1) mask
  gs ++ [(rest, .next)]

/-! ## Merging (R68) -/

/-- Two entries that merge: both ready with the same pc, or both waiting at one `rcb`, or at one barrier with the same pc (DESIGN CHOICE, log entry 73). -/
def merges (a b : Entry) : Bool :=
  a.pc == b.pc &&
    match a.state, b.state with
    | .ready, .ready => true
    | .atRcb, .atRcb => true
    | .atBar x, .atBar y => x == y
    | _, _ => false

/-- The merged entry: the union of the masks, the lower prio (DESIGN CHOICE, log entry 74). -/
def mergeEntry (a b : Entry) : Entry :=
  { a with mask := a.mask ||| b.mask, prio := if b.prio.toNat < a.prio.toNat then b.prio else a.prio,
           skipWatch := a.skipWatch ||| b.skipWatch, spill := if b.spill = none then none else a.spill }

/-- An entry added to a frontier, merged with the entry it meets (DESIGN CHOICE, log entry 73). -/
def addEntry : List Entry → Entry → List Entry
  | [], e => [e]
  | x :: r, e => if merges x e then mergeEntry x e :: r else x :: addEntry r e

/-- Merging after entries changed state. -/
def mergeAll (l : List Entry) : List Entry := l.foldl addEntry []

/-! ## Selection (R66) -/

/-- The order of issue: the lowest prio, then the lowest pc. -/
def before (a b : Entry) : Bool :=
  a.prio.toNat < b.prio.toNat || (a.prio == b.prio && a.pc.toNat < b.pc.toNat)

/-- The first of some entries in the order of issue. -/
def firstOf : List Entry → Option Entry
  | [] => none
  | e :: r =>
    match firstOf r with
    | none => some e
    | some x => if before x e then some x else some e

/-- The pairing state of the other copy of an agent (20 R401). -/
def peerPair (s : State) (steer : Bool) (p : Pair) : Option Pair :=
  if steer then (getInst s p.peerCore p.peerSlot).bind (fun i => i.steer.pair)
  else (getWeave s p.peerCore p.peerSlot).bind (·.pair)

/-- Whether the leading copy holds as many unmatched groups as its header's slack allows (20 R405). -/
def slackFull (s : State) (c inst : Nat) (p : Pair) : Bool :=
  match (getInst s c inst).bind (fun i => getLaunch s i.serial) with
  | some l => !p.trailing && l.header.slack ≤ p.closed.length
  | none => false

/-- Whether the load-value queue lets an agent go on: room for the leading copy, an entry for the trailing copy (20 R402). -/
def lvqOpen (s : State) (steer : Bool) (p : Pair) : Bool :=
  if p.trailing then !p.lvq.isEmpty
  else match peerPair s steer p with | some q => q.lvq.length < 512 | none => true

/-- Whether an entry that waits for a full queue, or for its other copy, may be tried again (DEDUCED, log entry 14). -/
def canRetry (s : State) (c : Nat) (w : Weave) : Wait → Bool
  | .queue q => ((getCore s c).queues.getD q []).length < 16
  | .storeq => w.storeq.length < 64
  | .slack => match w.pair with | some p => !slackFull s c w.inst p | none => true
  | .pairOp => match w.pair with | some p => lvqOpen s false p | none => true
  | .flow => match w.pair with | some p => p.closed.isEmpty | none => true
  | _ => false

/-- Whether an entry can issue (DEDUCED, log entry 14). -/
def canIssue (s : State) (c : Nat) (w : Weave) (e : Entry) : Bool :=
  match e.state with
  | .ready => true
  | .waiting x => canRetry s c w x
  | _ => false

/-- The entry that issues: inside a chain the one whose threads run it (R48), else the first in the order of issue (R66). -/
def selected (s : State) (c : Nat) (w : Weave) : Option Entry :=
  let cand := w.frontier.filter (canIssue s c w)
  match w.chain with
  | some ch =>
    cand.find? (fun e => e.mask &&& ch.mask != 0#32)
  | none => firstOf cand

/-- The threads of the entry selected to issue, which is not spilled (R69). -/
def selectedMask (s : State) (c k : Nat) : Mask :=
  match (getWeave s c k).bind (selected s c) with
  | some e => e.mask
  | none => 0#32

/-- The live threads of a weave (R65). -/
def liveMask (w : Weave) : Mask := w.frontier.foldl (fun m e => m ||| e.mask) 0#32

/-! ## Moving the threads of an instruction (R67) -/

/-- The parked entry of an instruction: the threads of all its `park` groups, with the lowest code among them (R106) and the
address of the lowest thread (18 R379) (DEDUCED, log entry 21). -/
def parkedPiece (gs : Groups) : Option (Mask × Nat × Double) :=
  gs.foldl (fun acc g =>
    match g.2 with
    | .park cause addr =>
      if g.1 = 0#32 then acc
      else
        match acc with
        | none => some (g.1, cause, addr)
        | some (m, c0, a0) => some (m ||| g.1, min cause c0, if lowest g.1 < lowest m then addr else a0)
    | _ => acc) none

/-- The place in issue order that an entry waiting at its instruction keeps. -/
def placeOf (st : EntryState) (seq : Nat) : Nat :=
  match st with
  | .waiting _ => seq
  | _ => 0

/-- The entries that an instruction at `e` makes of its groups (DEDUCED, log entry 21). -/
def pieces (e : Entry) (head : Double) (size seq : Nat) (gs : Groups) : List Entry :=
  let parked :=
    match parkedPiece gs with
    | some (m, cause, addr) => [{ entryAt head e.prio m .parked with cause := cause, parkedAt := seq, addr := addr }]
    | none => []
  let others := gs.filterMap (fun g =>
    if g.1 = 0#32 then none
    else
      match g.2 with
      | .next => some (entryAt (e.pc + BitVec.ofNat 64 size) e.prio g.1 .ready)
      | .to pc prio => some (entryAt pc prio g.1 .ready)
      | .hold st => some { entryAt e.pc e.prio g.1 st with skipWatch := e.skipWatch &&& g.1, parkedAt := placeOf st seq }
      | .sleepNext wake => some (entryAt (e.pc + BitVec.ofNat 64 size) e.prio g.1 (.sleeping wake))
      | .parkAt pc prio cause => some { entryAt pc prio g.1 .parked with cause := cause, parkedAt := seq }
      | .park _ _ => none
      | .gone => none)
  parked ++ others

/-- The frontier after the selected entry's threads moved. -/
def regroup (frontier : List Entry) (e : Entry) (new : List Entry) : List Entry :=
  new.foldl addEntry (frontier.filter (fun x => x.mask &&& e.mask == 0#32))

/-! ## Spilling (R69) -/

/-- The entries held in the core. -/
def held (l : List Entry) : List Entry := l.filter (fun e => e.spill = none)

/-- The last of some entries in the order of issue. -/
def lastOf (l : List Entry) : Option Entry :=
  l.foldl (fun acc e => match acc with | none => some e | some x => if before x e then some e else some x) none

/-- The entry to spill: neither being delivered nor selected; among those not parked, else among the parked. -/
def victim (l : List Entry) (sel : Mask) : Option Entry :=
  let ok := (held l).filter (fun e => !e.delivering && e.mask &&& sel == 0#32)
  match lastOf (ok.filter (fun e => e.state != .parked)) with
  | some e => some e
  | none => lastOf ok

/-- The lowest free record of the spill area. -/
def freeSlot (l : List Entry) : Nat := ((List.range 16).find? (fun i => !l.any (fun e => e.spill == some i))).getD 0

/-- The state code of a spilled record (R65, R69). -/
def stateCode : EntryState → Nat
  | .ready => 0
  | .waiting _ => 0
  | .atBar _ => 1
  | .atRcb => 2
  | .sleeping _ => 3
  | .parked => 4

/-- A spilled entry record (R69). -/
def spillRecord (e : Entry) : Nat :=
  e.prio.toNat * 2 ^ 112 + e.mask.toNat * 2 ^ 80 + stateCode e.state * 2 ^ 77
    + (if e.state = .parked then e.cause * 2 ^ 57 else 0) + e.pc.toNat % 2 ^ 57

/-- The sum of the maximum weave counts of the roles below r (R155). -/
def roleBase (h : Header) (r : Nat) : Nat := (h.roles.take r).foldl (fun a x => a + x.max) 0

/-- The start of a thread's private window (R155). -/
def privWindow (h : Header) (inst role wid tid : Nat) : Nat :=
  (h.priv + ((inst * 128 + roleBase h role + wid) * 32 + tid) * h.privsz) % 2 ^ 64

/-- A spill record written to the weave's spill area through its core (DEDUCED, log entry 25). -/
def writeSpill (s : State) (c k : Nat) (e : Entry) (i : Nat) : State :=
  match getWeave s c k with
  | none => s
  | some w =>
    match getInst s c w.inst with
    | none => s
    | some x =>
      match getLaunch s x.serial with
      | none => s
      | some l =>
        let va := privWindow l.header x.num w.role w.wid 0 + 16 * i
        match translate s c l.vf va .store false with
        | (.error _, s) => s
        | (.ok key, s) => storeGlobal s c (some x.serial) key (bytesLE 16 (spillRecord e)) .l1

/-- An entry spilled or filled, which counts one event (R69) (DEDUCED, log entry 25) (DEDUCED, log entry 31). -/
def markSpill (w : Weave) (m : Mask) (slot : Option Nat) : Weave :=
  let f := w.frontier.map (fun e => if e.mask == m then { e with spill := slot } else e)
  countWeave { w with frontier := f } 0x100 1

/-- Entries are spilled until at most 16 are held (R69); each counts one event (DEDUCED, log entry 25). -/
def spillDown : Nat → State → Nat → Nat → Mask → State
  | 0, s, _, _, _ => s
  | n + 1, s, c, k, sel =>
    match getWeave s c k with
    | none => s
    | some w =>
      if (held w.frontier).length ≤ 16 then s
      else
        match victim w.frontier sel with
        | none => s
        | some v =>
          let i := freeSlot w.frontier
          let s := writeSpill s c k v i
          let s := onWeave s c k (fun w => markSpill w v.mask (some i))
          spillDown n s c k sel

/-- An entry filled into the core, another than the entry selected to issue spilled in its place where needed (R66, R69). -/
def fillEntry (s : State) (c k : Nat) (m sel : Mask) : State :=
  match getWeave s c k with
  | none => s
  | some w =>
    if w.frontier.any (fun e => e.mask == m && e.spill != none) then
      let s := onWeave s c k (fun w => markSpill w m none)
      spillDown 32 s c k (m ||| sel)
    else s

/-! ## Circles and barriers (R77 to R80) -/

/-- The current circle of a weave: the top of its stack (R77). -/
def currentCircle (w : Weave) : Nat := w.circles.headD 0

/-- Whether a weave has arrived at the barrier of a circle (R80): it is its current circle, and every live thread that is not parked
waits at a `bar` of it. A weave without live threads, which waits to restart, is awaited nowhere (06 R132). -/
def arrived (w : Weave) (circle : Nat) : Bool :=
  w.frontier.isEmpty || (currentCircle w == circle && w.frontier.all (fun e => e.state = .parked || e.state = .atBar circle))

/-- An entry of the replay log (20 R408): at most 8,192; a log that would pass them is full until the next checkpoint. -/
def logEntry (e : LogEntry) (p : Pair) : Pair :=
  if p.full || 8192 ≤ p.log.length then { p with full := true } else { p with log := p.log ++ [e] }

/-- A completed barrier makes a weave's entries ready at the instruction after their `bar` (one word), and is logged
by a paired weave (20 R408). -/
def releaseBar (w : Weave) (circle : Nat) : Weave :=
  { w with frontier := mergeAll (w.frontier.map (fun e =>
             if e.state = .atBar circle then { e with state := .ready, pc := e.pc + 4#64 } else e)),
           pair := w.pair.map (logEntry .barrier) }

/-- A circle's barrier completes when all its members have arrived (R80). -/
def settleBarrier (s : State) (c inst circle : Nat) : State :=
  match getInst s c inst with
  | none => s
  | some x =>
    match x.circles.find? (fun z => z.id == circle) with
    | none => s
    | some z =>
      let ws := z.members.filterMap (fun k => (getWeave s c k).map (fun w => (k, w)))
      if ws.all (fun e => arrived e.2 circle) && ws.any (fun e => e.2.frontier.any (fun y => y.state = .atBar circle)) then
        ws.foldl (fun s e => onWeave s c e.1 (fun w => releaseBar w circle)) s
      else s

/-- The barriers of every circle of an instance. -/
def settleBarriers (s : State) (c inst : Nat) : State :=
  match getInst s c inst with
  | none => s
  | some x => x.circles.foldl (fun s z => settleBarrier s c inst z.id) s

end Sys2Proof.Machine
end

