-- ==== Sys2Proof/Machine/Stores.lean ====
section
/-!
DEFINITION. Circle memory with its full/empty bits (07 R164, 08 R197), the store queues (07 R159, 08 R196) and the closing of
idempotent regions (05 R110).
-/

namespace Sys2Proof.Machine

open Sys2Proof

/-! ## Circle memory -/

def circleBytes (x : Core) (o : Nat) : Nat → List Byte
  | 0 => []
  | n + 1 => sget 0#8 x.cmem o :: circleBytes x (o + 1) n

/-- The 16-byte granules of a range. -/
def granules (o n : Nat) : List Nat := if n = 0 then [] else (List.range ((o + n - 1) / 16 - o / 16 + 1)).map (fun i => o / 16 + i)

/-- Granules wholly inside a range. -/
def wholeGranules (o n : Nat) : List Nat := (granules o n).filter (fun g => o ≤ g * 16 && g * 16 + 16 ≤ o + n)

def circleBad (x : Core) (o n : Nat) : Bool := (granules o n).any (fun g => nmem x.cbad g)

def putBytes (m : Sparse Byte) (o : Nat) : List Byte → Sparse Byte
  | [] => m
  | b :: r => putBytes (sset 0#8 m o b) (o + 1) r

/-- A write of circle memory; a poisoned granule stays poisoned until it is written whole (R395, R396). `full` sets the full
bits of the granules written (R164). -/
def circleWrite (x : Core) (o : Nat) (d : List Byte) (full : Bool) : Core :=
  { x with cmem := putBytes x.cmem o d, cbad := neraseAll x.cbad (wholeGranules o d.length),
           full := if full then ninsertAll x.full (granules o d.length) else x.full }

/-! ## The store queue -/

/-- Whether a scope is .pt or wider (R156, R200). -/
def wide : Scope → Bool
  | .pt => true
  | .tn => true
  | .dv => true
  | .sy => true
  | _ => false

/-- Whether a scope is .tn or wider: beyond one partition (R156, R200). -/
def beyond (sc : Scope) : Bool := wide sc && sc != .pt

/-- The stores of a core's agents performed toward a scope (R190, R200, R202): at .pt they are in the slice, at .tn and wider in memory. -/
def releaseAt (s : State) (c : Nat) (sc : Scope) : State := if beyond sc then flushL1 s c else if wide sc then flushCore s c else s

/-- No load that follows is served from a line held before (R199, R200, R202): at .pt of the L1, at .tn and wider of the L1 and the slice. -/
def acquireAt (s : State) (c : Nat) (sc : Scope) : State := if beyond sc then dropL1 s c else if wide sc then dropCore s c else s

/-- How deep a store is made: a release at .tn or wider in memory, one at .pt and a store that writes through in the slice. -/
def depthOf (r : StoreReq) : Depth :=
  match r.rel with
  | some sc => if beyond sc then .memory else if wide sc || r.through then .slice else .l1
  | none => if r.through then .slice else .l1

/-- Bytes written under a mask of their bits (07 R168). -/
def mergeBits : List Byte → List Byte → List Byte → List Byte
  | b :: bs, d :: ds, m :: ms => ((b &&& ~~~m) ||| (d &&& m)) :: mergeBits bs ds ms
  | _, _, _ => []

/-- One thread's store entering the core order, through the L1 or into circle memory; a write of some bits of its bytes is made
in memory itself (DEDUCED, log entry 17). -/
def performThread (s : State) (c : Nat) (serial : Option Nat) (dp : Depth) (t : ThreadStore) : State :=
  if t.circle then onCore s c (fun x => circleWrite x t.key t.data t.full)
  else if !t.bits.isEmpty then
    match readHome s c serial t.key t.data.length with
    | (old, _, s) => writeHome s c serial t.key (mergeBits old t.data t.bits)
  else storeGlobal s c serial t.key t.data dp

/-- A store instruction entering the core order (R196), its threads in increasing index (R159). A release at .pt or wider
follows every earlier store of the core to the slice or to memory (R190, R200, R203). -/
def performStore (s : State) (c : Nat) (serial : Option Nat) (r : StoreReq) : State :=
  let s := match r.rel with | some sc => releaseAt s c sc | none => s
  r.writes.foldl (fun s t => performThread s c serial (depthOf r) t) s

/-- The store queue of an agent. -/
def queueOf (s : State) : Agent → List StoreReq
  | .weave c k => match getWeave s c k with | some w => w.storeq | none => []
  | .steer c k => match getInst s c k with | some i => i.steer.storeq | none => []
  | .handler c => (getCore s c).handler.storeq

def setQueue (s : State) (a : Agent) (q : List StoreReq) : State :=
  match a with
  | .weave c k => onWeave s c k (fun w => { w with storeq := q })
  | .steer c k => onInst s c k (fun i => { i with steer := { i.steer with storeq := q } })
  | .handler c => onCore s c (fun x => { x with handler := { x.handler with storeq := q } })

/-- The serial of the launch an agent works for. -/
def serialOf (s : State) (a : Agent) : Option Nat := (agentLaunch s a).map (·.serial)

/-- The launch in whose stage an agent's writes are kept; those of the handler slot go straight to memory (20 R398) (DEDUCED, log entry 25). -/
def stageOf (s : State) : Agent → Option Nat
  | .handler _ => none
  | a => serialOf s a

/-- The oldest store of a queue leaves it (R159). -/
def drainOne (s : State) (a : Agent) : State :=
  match queueOf s a with
  | [] => s
  | r :: rest => performStore (setQueue s a rest) (coreOf a) (stageOf s a) r

/-- A list of store instructions performed in order. -/
def performAll (s : State) (c : Nat) (serial : Option Nat) (l : List StoreReq) : State :=
  l.foldl (fun s r => performStore s c serial r) s

/-- Every store of a queue leaves it, in order (DEDUCED, log entry 19). -/
def drainAll (s : State) (a : Agent) : State := performAll (setQueue s a []) (coreOf a) (stageOf s a) (queueOf s a)

/-! ## Stores not yet performed serve their issuer's loads (R159, R195) -/

/-- A byte with one thread's store over it. -/
def storeOver (t : ThreadStore) (circle : Bool) (k : Nat) (b : Byte) : Byte :=
  if t.circle == circle && t.key ≤ k && k < t.key + t.data.length then
    let m := t.bits.getD (k - t.key) 0xff#8
    (b &&& ~~~m) ||| (t.data.getD (k - t.key) b &&& m)
  else b

/-- A byte of pending stores over a byte read: the newest write to it. -/
def pendingByte (l : List StoreReq) (circle : Bool) (k : Nat) (b : Byte) : Byte :=
  l.foldl (fun b r => r.writes.foldl (fun b t => storeOver t circle k b) b) b

def pendingOver (l : List StoreReq) (circle : Bool) (k : Nat) (d : List Byte) : List Byte :=
  if l.isEmpty then d else (d.zip (List.range d.length)).map (fun e => pendingByte l circle (k + e.2) e.1)

/-- The stores an agent's own loads see before memory, oldest first: its queue, its store groups, then its open region. -/
def pendingOf (s : State) : Agent → List StoreReq
  | .weave c k =>
    match getWeave s c k with
    | some w => w.storeq ++ groupStores w.pair ++ (match w.region with | some r => r.stores | none => [])
    | none => []
  | .steer c k => match getInst s c k with | some i => i.steer.storeq ++ groupStores i.steer.pair | none => []
  | a => queueOf s a
where
  /-- The stores of a paired group's member (R405). -/
  storesOf : PairOp → Option StoreReq
    | .stores r => some r
    | _ => none
  /-- The stores that a copy's groups hold, oldest first (R405). -/
  groupStores : Option Pair → List StoreReq
    | some p => p.closed.flatMap (fun g => g.ops.filterMap storesOf) ++ p.open_.filterMap storesOf
    | none => []

/-! ## Store groups of a paired launch (20 R403, R404, R409) -/

/-- One bit of the CRC-64 of R404, most significant bit first. -/
def crcBit (c : BitVec 64) (b : Bool) : BitVec 64 :=
  if c.getMsbD 0 != b then (c <<< 1) ^^^ 0x42f0e1eba9ea3693#64 else c <<< 1

def crcByte (c : BitVec 64) (b : Byte) : BitVec 64 := (List.range 8).foldl (fun c i => crcBit c (b.getMsbD i)) c

/-- The CRC-64 of a message (R404). -/
def crc64 (l : List Byte) : BitVec 64 := (l.foldl crcByte (BitVec.allOnes 64)) ^^^ BitVec.allOnes 64

/-- The 16-byte header of a group's member (R404). -/
def memberHead (kind width ord : Nat) (mask : Mask) : List Byte :=
  [BitVec.ofNat 8 kind, BitVec.ofNat 8 width, BitVec.ofNat 8 ord, 0#8] ++ bytesLE 4 mask.toNat ++ List.replicate 8 0#8

/-- A store instruction as a member (R404): header, then address and data of each active thread. -/
def storeMember (r : StoreReq) : List Byte :=
  memberHead 1 r.width r.ord r.mask ++ r.writes.flatMap (fun t => bytesLE 8 t.va ++ t.data)

/-- The open group ends (R403) (DEDUCED, log entry 27). -/
def endGroup (p : Pair) : Pair :=
  if p.count = 0 then p
  else
    { p with members := [], count := 0, open_ := [], num := p.num + 1,
             closed := p.closed ++ [{ num := p.num, sig := crc64 p.members, ops := p.open_ }] }

/-- Whether a copy is re-executing: it has not come to the first member of the mismatched group (R409). -/
def replaying (p : Pair) : Bool := p.upTo != 0 && (p.num < p.upTo || (p.num == p.upTo && p.count == 0))

/-- A member joins the open group; `alone` ends the open group first and forms a group by itself (R403). A trailing copy keeps
the signature and performs nothing, and so does a group that was released before a rollback (R409) (DEDUCED, log entry 27). -/
def addMember (p : Pair) (bytes : List Byte) (op : PairOp) (alone : Bool) : Pair :=
  let p := if alone then endGroup p else p
  let p := if p.upTo != 0 && p.num == p.upTo then { p with upTo := 0, replay := [] } else p
  let p := { p with members := p.members ++ bytes, count := p.count + 1,
                    open_ := if p.trailing || p.upTo != 0 then p.open_ else p.open_ ++ [op] }
  if alone || 8 ≤ p.count then endGroup p else p

/-- Whether a copy's earlier stores are all out of its groups: nothing waits for a comparison (R405). -/
def grouped (p : Pair) : Bool := p.count != 0 || !p.closed.isEmpty

/-- What belongs to no group and follows the groups of a leading copy (R213; 08 R196): it is performed with the group before it, which it
ends where it is a release (DEDUCED, log entry 64). -/
def rideGroup (p : Pair) (op : PairOp) (ends : Bool) : Pair :=
  if p.count = 0 then
    match p.closed.reverse with
    | g :: r => { p with closed := (({ g with ops := g.ops ++ [op] } : Group) :: r).reverse }
    | [] => p
  else
    let p := { p with open_ := p.open_ ++ [op] }
    if ends then endGroup p else p

/-- A circle store of a copy: in its queue, or behind the groups of a leading copy; one of a re-execution is not repeated (R409). A `.sf` store
is a release (08 R190), which ends the group (R213). -/
def circleStore (p : Pair) (q : List StoreReq) (r : StoreReq) : Pair × List StoreReq :=
  if replaying p then (p, q)
  else if !p.trailing && grouped p then (rideGroup p (.stores r) (r.writes.any (fun t => t.full)), q)
  else (if r.writes.any (fun t => t.full) then endGroup p else p, q ++ [r])

/-- A store instruction that enters the queue, or, for a paired weave, its store group (R403, R405) (DEDUCED, log entry 27). -/
def enterStore (w : Weave) (r : StoreReq) : Weave :=
  match w.pair with
  | some p =>
    if r.writes.any (fun t => t.circle) then { w with pair := some (circleStore p w.storeq r).1, storeq := (circleStore p w.storeq r).2 }
    else if r.writes.isEmpty then w
    else { w with pair := some (addMember p (storeMember r) (.stores r) r.rel.isSome) }
  | none => { w with storeq := w.storeq ++ [r] }

/-! ## Regions (R110) -/

/-- The region of a weave closes: its buffered stores enter the store queue in program order (DEDUCED, log entry 19). -/
def closeRegion (w : Weave) : Weave :=
  match w.region with
  | none => w
  | some r => r.stores.foldl enterStore { w with region := none }

/-- The thread stores a region holds. -/
def regionCount (r : Region) : Nat := r.stores.foldl (fun a x => a + x.writes.length) 0

end Sys2Proof.Machine
end

