-- ==== Sys2Proof/Machine/Lineage.lean ====
section
/-!
DEFINITION. The value store of a core (10 R240 to R259): entries, references, lookup, reservation with eviction, epochs, and the
tags of weave registers. An entry is reserved and completed in the step of its instruction, so none is ever seen pending.
-/

namespace Sys2Proof.Machine

open Sys2Proof

/-- A reference counted up or down (R247, R251). -/
def refEntry (x : Core) (serial : Nat) (up : Bool) : Core :=
  if serial = 0 then x
  else { x with store := x.store.map (fun e =>
    if e.serial == serial then { e with refs := if up then e.refs + 1 else e.refs - 1 } else e) }

def vtag (w : Weave) (r : Nat) : Nat := sget 0 w.vtags r

def stag (w : Weave) (r : Nat) : Nat := sget 0 w.stags r

/-- A v register's tag replaced, with the references of both entries (R247, R251). -/
def setVTag (x : Core) (w : Weave) (r serial : Nat) : Core × Weave :=
  (refEntry (refEntry x serial true) (vtag w r) false, { w with vtags := sset 0 w.vtags r serial })

def setSTag (x : Core) (w : Weave) (r serial : Nat) : Core × Weave :=
  (refEntry (refEntry x serial true) (stag w r) false, { w with stags := sset 0 w.stags r serial })

/-- Null tags for v registers written otherwise (R241, R252). -/
def untagV (x : Core) (w : Weave) (rs : List Nat) : Core × Weave :=
  rs.foldl (fun a r => if vtag a.2 r = 0 then a else setVTag a.1 a.2 r 0) (x, w)

def untagS (x : Core) (w : Weave) (rs : List Nat) : Core × Weave :=
  rs.foldl (fun a r => if stag a.2 r = 0 then a else setSTag a.1 a.2 r 0) (x, w)

/-- Every tag of a weave null (R251: the weave's end, yield, freeze). -/
def untagAll (x : Core) (w : Weave) : Core × Weave :=
  let a := untagV x w (w.vtags.map (·.1))
  untagS a.1 a.2 (w.stags.map (·.1))

/-- The first half of a complete entry with an equal key (R245, R247); a poisoned entry is never hit (R259). -/
def vsFind (x : Core) (launch vf : Nat) (key : List Nat) : Option VsEntry :=
  x.store.find? (fun e => e.key == key && e.launch == launch && e.vf == vf && !e.bad
    && (match e.partner with | some p => e.serial < p && !x.store.any (fun y => y.serial == p && y.bad) | none => true))

/-- Whether every entry of a result has no reference. -/
def evictable (x : Core) (e : VsEntry) : Bool :=
  e.refs == 0 && (match e.partner with | some p => !x.store.any (fun y => y.serial == p && y.refs != 0) | none => true)

/-- The least recently used entry without references, with its partner, removed (R251). -/
def evictOne (x : Core) : Option Core :=
  let best := x.store.foldl (fun acc e =>
    if evictable x e then
      match acc with
      | none => some e
      | some b => if e.used < b.used then some e else acc
    else acc) none
  best.map (fun b => { x with store := x.store.filter (fun e => e.serial != b.serial && some e.serial != b.partner) })

/-- Space for `n` entries, evicting as needed (R246: 1,024 entries; R251). -/
def makeRoom : Nat → Core → Nat → Option Core
  | 0, _, _ => none
  | k + 1, x, n => if x.store.length + n ≤ 1024 then some x else match evictOne x with | some x => makeRoom k x n | none => none

/-- The end of an epoch (R255): entries removed, all tags null, the counter at 1, one flush counted for each resident weave. -/
def epochFlush (x : Core) : Core :=
  { x with store := [], nextSerial := 1,
           weaves := x.weaves.map (fun e => (e.1, countL { e.2 with vtags := [], stags := [] } 5)) }

/-- Entries of a launch removed when its last instance leaves (R254). -/
def dropLaunchEntries (x : Core) (serial : Nat) : Core := { x with store := x.store.filter (fun e => e.launch != serial) }

/-- A result reserved and completed: its entries with a reference each (R246, R248). `halves` lists the 32-bit halves, low
first, each as one value per thread or one uniform word (DEDUCED, log entry 78). -/
def vsInsert (x : Core) (launch vf now : Nat) (key : List Nat) (halves : List (List Word)) (flags : List Flags) : Core :=
  let n := halves.length
  let s0 := x.nextSerial
  let new := (halves.zip (List.range n)).map (fun e =>
    { serial := s0 + e.2, launch := launch, vf := vf, key := key, vals := e.1, flags := flags, refs := 0, used := now,
      partner := if n = 2 then some (if e.2 = 0 then s0 + 1 else s0) else none, bad := false : VsEntry })
  { x with store := x.store ++ new, nextSerial := s0 + n }

/-- An entry's last use (R251). -/
def touch (x : Core) (serial now : Nat) : Core :=
  { x with store := x.store.map (fun e => if e.serial == serial || e.partner == some serial then { e with used := now } else e) }

def vsEntry (x : Core) (serial : Nat) : Option VsEntry := x.store.find? (fun e => e.serial == serial)

/-- Whether a tag names a poisoned entry (R259). -/
def tagBad (x : Core) (serial : Nat) : Bool := serial != 0 && x.store.any (fun e => e.serial == serial && e.bad)

/-! ## Names (R242) -/

/-- The name of a source: a number list that begins with its length, or none. -/
abbrev Name := Option (List Nat)

def nameOfTags (ts : List Nat) : Name := if ts.all (· != 0) then some (ts.length :: 1 :: ts) else none

def nameOfLit (payload : Nat) : Name := some [1, 2, payload]

def nameOfZero : Name := some [0, 3]

/-- The specials with a name (R242). -/
def nameOfSpecial : Special → Name
  | .lsn => some [1, 4, 67]
  | .ninst => some [1, 4, 70]
  | .shape0 => some [1, 4, 72]
  | .shape1 => some [1, 4, 73]
  | .shape2 => some [1, 4, 74]
  | .vf => some [1, 4, 75]
  | _ => none

/-- All names, where every source has one. -/
def allNames : List Name → Option (List Nat)
  | [] => some []
  | none :: _ => none
  | some n :: r => (allNames r).map (n ++ ·)

end Sys2Proof.Machine
end

