-- ==== Sys2Proof/Machine/Teardown.lean ====
section
/-!
DEFINITION. What ends: a weave (04 R75), a circle (R79), an instance, a launch stopped by a cause (05 R108, 20 R397), with the
reads and writes of node records (05 R445, R446) and the notices (17 R372).
-/

namespace Sys2Proof.Machine

open Sys2Proof

/-! ## The Fjolar's own accesses to a virtual function's memory (R445, R446) -/

/-- The memory key of a byte that the Fjolar itself reads or writes through a shadow table. -/
def selfKey (s : State) (vf va : Nat) (write : Bool) : Except Nat Nat :=
  if va / 2 ^ 57 != 0 then .error cNOTPRESENT
  else
    match walk s vf va with
    | .error e => .error e
    | .ok l =>
      if l.h || !l.r then .error cNOTPRESENT
      else if write && (!l.w || l.state == .dup || l.state == .migrating) then .error cWRITEPROT
      else .ok (leafKey s l va)

/-- Bytes read through a shadow table, unit by unit of 16 bytes: the bytes, or the cause. -/
def selfRead (s : State) (vf va n : Nat) (write : Bool) : Except Nat (List Byte) :=
  let rec go : Nat → Nat → Nat → Except Nat (List Byte)
    | 0, _, _ => .ok []
    | fuel + 1, va, n =>
      if n = 0 then .ok []
      else
        let m := min n (16 - va % 16)
        match selfKey s vf va write with
        | .error e => .error e
        | .ok k =>
          if memBad s k m then .error cPOISON
          else
            match go fuel (va + m) (n - m) with
            | .error e => .error e
            | .ok r => .ok (memBytes s k m ++ r)
  go (n / 16 + 2) va n

/-- Bytes written through a shadow table where it permits; no effect where it does not. -/
def selfWrite (s : State) (vf va : Nat) (d : List Byte) : State :=
  match selfKey s vf va true with
  | .error _ => s
  | .ok k => writeMem s k d

/-- The status field of a node record, bits 159:144 (R93). -/
def writeStatus (s : State) (vf addr status : Nat) : State := selfWrite s vf (addr + 18) (bytesLE 2 status)

/-! ## Notices (R372) -/

def noticeBytes (kind reason cause cause2 : Nat) (tag : Word) (node : Nat) (lsn : Double) (drops : Nat) : List Byte :=
  bytesLE 1 kind ++ bytesLE 1 reason ++ bytesLE 1 cause ++ bytesLE 1 cause2 ++ bytesLE 4 tag.toNat ++ bytesLE 8 node ++
    bytesLE 8 lsn.toNat ++ bytesLE 4 drops ++ bytesLE 4 0

/-! ## Logical names (22 R418) -/

def logicalName (lsn : Double) (inst role wid tid : Nat) (copy steer handler : Bool) : BitVec 128 :=
  BitVec.ofNat 128 (lsn.toNat * 2 ^ 64 + inst * 2 ^ 32 + role * 2 ^ 30 + wid * 2 ^ 25 + tid * 2 ^ 20
    + (if copy then 2 ^ 19 else 0) + (if steer then 2 ^ 18 else 0) + (if handler then 2 ^ 17 else 0))

/-- The logical name of an agent's thread. -/
def agentName (s : State) (a : Agent) (tid : Nat) : BitVec 128 :=
  match agentInst s a with
  | none => 0#128
  | some i =>
    match getInst s (coreOf a) i with
    | none => 0#128
    | some x =>
      let lsn := match getLaunch s x.serial with | some l => l.lsn | none => 0#64
      match a with
      | .weave c k =>
        match getWeave s c k with
        | some w => logicalName lsn x.num w.role w.wid tid x.trailing false false
        | none => 0#128
      | .steer _ _ => logicalName lsn x.num 0 0 0 x.trailing true false
      | .handler _ => logicalName lsn x.num 0 0 0 x.trailing false true

def record (s : State) (r : FailRec) : State := { s with failures := s.failures ++ [r] }

/-! ## Circles (R77 to R80) -/

/-- Whether a queued command still names a circle's region (R177). -/
def cmdNames (z : Circle) (q : Cmd) : Bool :=
  let inside := fun o => z.base ≤ o && o < z.base + z.size
  match q.op with
  | .cpyIn _ _ o _ _ => inside o
  | .cpyOut _ _ o _ _ => inside o
  | .rimLd _ _ _ _ _ (some o) => inside o
  | .rimSt _ _ _ _ _ (some o) => inside o
  | _ => false

/-- Whether a circle without members is dissolved: a joined circle that no command names (R79, R177). -/
def dissolves (x : Core) (inst : Nat) (z : Circle) : Bool :=
  z.role.isNone && z.members.isEmpty && !(x.queues.any (fun q => q.any (fun m => m.inst == inst && cmdNames z m)))

/-- The circles of an instance that dissolve now; their regions are then free. -/
def dissolve (s : State) (c inst : Nat) : State :=
  onInst s c inst (fun x => { x with circles := x.circles.filter (fun z => !dissolves (getCore s c) inst z) })

/-- A member taken out of a circle. -/
def leaveCircle (s : State) (c inst k id : Nat) : State :=
  onInst s c inst (fun x => { x with circles := x.circles.map (fun z =>
    if z.id == id then { z with members := nerase z.members k } else z) })

def joinCircle (s : State) (c inst k id : Nat) : State :=
  onInst s c inst (fun x => { x with circles := x.circles.map (fun z =>
    if z.id == id then { z with members := ninsert z.members k } else z) })

/-! ## The end of a weave, of an instance -/

/-- The live weaves of an instance. -/
def weavesOf (x : Core) (inst : Nat) : Sparse Weave := x.weaves.filter (fun e => e.2.inst == inst)

/-- The live weaves of a stage. -/
def stageCount (x : Core) (inst role : Nat) : Nat := (x.weaves.filter (fun e => e.2.inst == inst && e.2.role == role)).length

/-- The slots a weave holds in state claimed or loaded. -/
def slotsHeld (x : Core) (inst k : Nat) : List Nat :=
  (x.slots.filter (fun e => e.2.inst == inst && e.2.weave == k && (e.2.state == .claimed || e.2.state == .loaded))).map (·.1)

/-- A weave that ends releases its slots as an `srel` would (13 R316): a command for each is queued. -/
def releaseSlots (s : State) (c k : Nat) (w : Weave) : State :=
  (slotsHeld (getCore s c) w.inst k).foldl (fun s u =>
    let (n, s) := nextSeq s
    onCore s c (fun x =>
      let sl := sget Slot.blank x.slots u
      let cmd : Cmd := { op := .srel u 1 w.wid w.role, issuer := .weave c k, inst := w.inst, pc := 0#64, prio := 0#16, tid := 0, ctr := none, seq := n,
                         window := [], fault := none, started := false, held := false }
      { x with slots := sput x.slots u { sl with state := .releasing }, queues := x.queues.modify 2 (· ++ [cmd]) })) s

/-- Whether an instance has ended: no weave, no live steer thread, no queued command (R96). -/
def instEnded (x : Core) (i : Nat) : Bool :=
  match sfind x.insts i with
  | none => false
  | some y => (weavesOf x i).isEmpty && y.steer.entry.isNone && y.steer.storeq.isEmpty && !x.queues.any (fun q => q.any (fun m => m.inst == i))

/-- Whether the slath runs a tile of an instance. -/
def tileOfInst (x : Core) (i : Nat) : Bool := match (x.queues.getD 2 []).head? with | some m => m.inst == i && m.started | none => false

/-- Whether the reuse latch holds a slot of an instance (13 R322). -/
def latchOfInst (x : Core) (i : Nat) : Bool :=
  match x.reuse with | some u => (match sfind x.slots u with | some y => y.inst == i | none => true) | none => false

/-- An instance taken off its core: its slots, rim tiles and circle memory freed, the latch and a running tile of its slots gone, its bytes
cleared, lineage entries of its launch removed when no other instance of it remains (R254; 13 R316, R322). -/
def removeInst (s : State) (c i : Nat) : State :=
  match getInst s c i with
  | none => s
  | some y =>
    onCore s c (fun x =>
      let insts := serase x.insts i
      let x := { x with
        insts := insts,
        weaves := x.weaves.filter (fun e => e.2.inst != i),
        tile := if tileOfInst x i then none else x.tile,
        reuse := if latchOfInst x i then none else x.reuse,
        rims := x.rims.filter (fun e => e.2.holder != .inst i),
        slots := x.slots.filter (fun e => e.2.inst != i || e.2.state == .free),
        queues := x.queues.map (fun q => q.filter (fun m => m.inst != i)),
        fences := x.fences.map (fun f => if f.inst = i then { f with inst := 4 } else f),
        cmem := skeep x.cmem (fun o => o < y.base || y.base + y.size ≤ o),
        full := x.full.filter (fun g => g * 16 < y.base || y.base + y.size ≤ g * 16),
        cbad := x.cbad.filter (fun g => g * 16 < y.base || y.base + y.size ≤ g * 16) }
      if insts.any (fun e => e.2.serial == y.serial) then x else dropLaunchEntries x y.serial)

/-- An instance that has ended leaves its core and counts for its launch (R96). -/
def settleInst (s : State) (c i : Nat) : State :=
  if instEnded (getCore s c) i then
    match getInst s c i with
    | none => s
    | some y =>
      let s := removeInst s c i
      if y.trailing then s else onLaunch s y.serial (fun l => { l with ended := l.ended + 1 })
  else s

/-- The stages of an instance that hold no weave any more are closed: they admit no further weave (R83). -/
def closeStages (s : State) (c i : Nat) : State :=
  onInst s c i (fun y => { y with stages := (y.stages.zip (List.range y.stages.length)).map (fun e =>
    { e.1 with closed := e.1.closed || (e.1.admitted != 0 && stageCount (getCore s c) i e.2 == 0) }) })

/-- The end of a weave (R75): its stores performed, its circles left, its tags and slots released, its registers freed. -/
def endWeave (s : State) (c k : Nat) : State :=
  match getWeave s c k with
  | none => s
  | some w0 =>
    let s := drainAll s (.weave c k)
    match getWeave s c k with
    | none => s
    | some w =>
      let s := w.circles.foldl (fun s z => leaveCircle s c w.inst k z) s
      let s := releaseSlots s c k w
      let s := onCore s c (fun x =>
        let a := untagAll x w
        { a.1 with weaves := serase a.1.weaves k })
      let s := settleBarriers (closeStages s c w0.inst) c w0.inst
      let s := dissolve s c w0.inst
      settleInst s c w0.inst

/-- The end of a weave left without live threads, unless threads are marked for restart (R75, R76) or a paired weave still waits
for its groups (20 R415). -/
def settleWeave (s : State) (c k : Nat) : State :=
  match getWeave s c k with
  | none => s
  | some w =>
    if w.frontier.isEmpty && w.restart.isNone then
      match w.pair with
      | some p => if p.closed.isEmpty && p.count = 0 then endWeave s c k else s
      | none => endWeave s c k
    else s

/-! ## Stopping a launch -/

/-- Whether a delivery serves an instance of a core. -/
def serves (x : Core) (i : Nat) (d : Delivery) : Bool :=
  match d.target with
  | .weave k _ => match sfind x.weaves k with | some w => w.inst == i | none => false
  | .steer k => k == i
  | .engine q => match (x.queues.getD q []).head? with | some m => m.inst == i | none => false

/-- Every instance of a launch taken off its core, running deliveries for it ended. -/
def removeLaunch (s : State) (serial : Nat) : State :=
  s.cores.foldl (fun s e =>
    e.2.insts.foldl (fun s i =>
      if i.2.serial == serial then
        let s := onCore s e.1 (fun x =>
          match x.handler.run with
          | some d => if serves x i.1 d then { x with handler := { x.handler with run := none, wait := none } } else x
          | none => x)
        removeInst s e.1 i.1
      else s) s) s

/-- A launch's node failed (R108, R397): the launch stopped, the stores it performed in memory, status 4, staged writes dropped, its blocks of a staged run
returned, the failure notice sent. -/
def failLaunch (s : State) (serial reason cause cause2 : Nat) : State :=
  match getLaunch s serial with
  | none => s
  | some l =>
    let s := removeLaunch (l.cores.foldl flushL1 s) serial
    let s := l.blocks.foldl (fun s a => onVf s l.vf (fun v => { v with blocks := serase v.blocks a })) s
    let s := { s with launches := s.launches.filter (fun y => y.serial != serial) }
    send (writeStatus s l.vf l.addr 4) (.notice l.vf (noticeBytes 2 reason cause cause2 l.node.tag l.addr l.lsn 0))

end Sys2Proof.Machine
end

