-- ==== Sys2Proof/Machine/Ops.lean ====
section
/-!
DEFINITION. What every instruction shares: the issue of a lane instruction and of a uniform instruction (03 R46 to R48, R56,
R57; 04 R62, R66), the parking of threads (05 R106, R109), the delivery of a parked entry to the handler slot and the return
from it (05 R107, 18 R379 to R385), and the failure of a node whose entry cannot be delivered (05 R108).
-/

namespace Sys2Proof.Machine

open Sys2Proof

abbrev Out := Host.Outcome State Fault Refusal

/-! ## Results outstanding (R62, R63) -/

/-- The register writes of a result that arrived (DEDUCED, log entry 15). -/
def applyResult (w : Weave) (r : Result) : Weave :=
  let w := r.v.foldl (fun w e => writeV w (e.1 % 32) (e.1 / 32) e.2) w
  let w := r.p.foldl (fun w e => writeP w (e.1 % 32) (e.1 / 32) e.2) w
  let f := r.u.foldl (fun f e => writeS f e.1 e.2) (weaveFile w)
  { w with s := f.s, sbad := f.bad }

def commitWeave (w : Weave) : Weave :=
  let w' := w.inflight.foldl applyResult w
  { w' with inflight := [] }

def commitFile (f : UFile) (l : List Result) : UFile :=
  l.foldl (fun f r => r.u.foldl (fun f e => writeS f e.1 e.2) f) f

/-- The results of an agent committed: an instruction begins when its operands have arrived (R62), so its issue waits for
every outstanding result of its agent (DEDUCED, log entry 15). -/
def commitAgent (s : State) : Agent → State
  | .weave c k => onWeave s c k commitWeave
  | .steer c k => onInst s c k (fun i =>
      let f := commitFile (steerFile i.steer) i.steer.inflight
      { i with steer := { i.steer with s := f.s, sbad := f.bad, inflight := [] } })
  | .handler c => onCore s c (fun x =>
      let f := commitFile (handlerFile x.handler) x.handler.inflight
      { x with handler := { x.handler with s := f.s, sbad := f.bad, inflight := [] } })

/-! ## The issuing entry -/

/-- Whether an agent stops at its next issue slot: its launch takes containment (20 R397). -/
def stopped (s : State) (a : Agent) : Bool :=
  match a with
  | .handler _ => false
  | a => match agentLaunch s a with | some l => l.poison.isSome | none => false

/-- The entry an agent could issue from: a weave's selected entry (R66), a live steer thread, or the running handler slot. -/
def issuingOf (s : State) : Agent → Option Entry
  | .weave c k =>
    match getWeave s c k with
    | some w => selected s c w
    | none => none
  | .steer c k =>
    match getInst s c k with
    | some i =>
      match i.steer.entry with
      | some e =>
        match e.state with
        | .ready => some e
        | .waiting (.queue q) => if ((getCore s c).queues.getD q []).length < 16 then some e else none
        | .waiting .storeq => if i.steer.storeq.length < 64 then some e else none
        | .waiting .pairOp => (match i.steer.pair with | some p => if lvqOpen s true p then some e else none | none => some e)
        | .waiting .flow => (match i.steer.pair with | some p => if p.closed.isEmpty then some e else none | none => some e)
        | .waiting .slack => (match i.steer.pair with | some p => if slackFull s c k p then none else some e | none => some e)
        | _ => none
      | none => none
    | none => none
  | .handler c =>
    let h := (getCore s c).handler
    let free :=
      match h.wait with
      | none => true
      | some (.queue q) => ((getCore s c).queues.getD q []).length < 16
      | some .storeq => h.storeq.length < 64
      | some _ => false
    if h.run.isSome && free then some (entryAt h.pc 0#16 1#32 .ready) else none

/-- The entry an agent issues from. -/
def issuing (s : State) (a : Agent) : Option Entry := if stopped s a then none else issuingOf s a

/-- The issue begins: a spilled entry is filled, results are committed, and the handler slot waits no more (DEDUCED, log entry 15). -/
def begin (s : State) (a : Agent) (e : Entry) : State :=
  let s := commitAgent s a
  match a with
  | .weave c k => fillEntry s c k e.mask 0#32
  | .steer _ _ => s
  | .handler c => onCore s c (fun x => { x with handler := { x.handler with wait := none } })

/-! ## Parking (R106, R109) -/

/-- A launch that met POISON at a physical element by a logical thread (R397). -/
def taint (element : Nat) (name : BitVec 128) (l : Launch) : Launch :=
  { l with poison := some (l.poison.getD name), poisons := l.poisons ++ [(element, name)] }

/-- POISON is noted for containment with the core and the thread that met it (R397). -/
def notePoison (s : State) (a : Agent) (tid : Nat) : State :=
  match serialOf s a with
  | some n => onLaunch s n (taint (coreOf a) (agentName s a tid))
  | none => s

/-- The open region of a weave that parks closes, and its stores become visible first (R109). -/
def parkRegion (s : State) (c k : Nat) : State :=
  match getWeave s c k with
  | some w =>
    if w.region.isSome then drainAll (putWeave s c k (closeRegion w)) (.weave c k) else s
  | none => s

def anyPark (gs : Groups) : Bool := gs.any (fun g => g.1 != 0#32 && (match g.2 with | .park _ _ => true | .parkAt _ _ _ => true | _ => false))

def anyBar (gs : Groups) : Bool := gs.any (fun g => match g.2 with | .hold (.atBar _) => true | _ => false)

def anyGone (gs : Groups) : Bool := gs.any (fun g => g.1 != 0#32 && (match g.2 with | .gone => true | _ => false))

/-- The threads of an instruction that met POISON. -/
def poisonThreads (gs : Groups) : List Nat :=
  gs.flatMap (fun g => match g.2 with | .park c _ => if c = cPOISON then threadsOf g.1 else [] | _ => [])

/-! ## Landings (R56, R57, R129) -/

/-- Where a transfer's group lands: at its target, or parked there with ENTRY_MISALIGNED. A fetch fault is left to the landing's
own issue. -/
def landing (s : State) (c vf : Nat) (pc : Double) (prio : Half) (handler : Bool) : Go :=
  if pc.extractLsb' 0 2 != 0#2 || pc.extractLsb' 57 7 != 0#7 then .parkAt pc prio cMISALIGNED
  else
    match fetchWord s c vf pc.toNat handler with
    | (.ok w, _) => if w.extractLsb' 29 3 = 7#3 then .parkAt pc prio cMISALIGNED else .to pc prio
    | (.error _, _) => .to pc prio

/-! ## The end of an instruction of a weave (R67, R68, R69) -/

/-- The chain after an instruction (R48): it goes on with the threads that fell through when C = 1. -/
def chainAfter (w : Weave) (e : Entry) (c : Bool) (gs : Groups) : Option Chain :=
  let cont := gs.foldl (fun m g => match g.2 with | .next => m ||| g.1 | _ => m) 0#32
  if c && cont != 0#32 then
    match w.chain with
    | some ch => some { ch with count := ch.count + 1, mask := cont }
    | none => some { head := e.pc, count := 1, mask := cont }
  else none

/-- Threads of an entry move (R67), entries merge (R68) and spill (R69), parked threads close the region (R109), and what their moving
completes takes place: barriers (R80) and the weave's end (R75). `head`: where parked threads stand. -/
def moveThreads (s : State) (c k : Nat) (e : Entry) (size : Nat) (head : Double) (chain : Option Chain) (gs : Groups) : State :=
  let s := if anyPark gs then parkRegion s c k else s
  let s := (poisonThreads gs).foldl (fun s t => notePoison s (.weave c k) t) s
  match getWeave s c k with
  | none => s
  | some w =>
    let (n, s) := nextSeq s
    let w' := { w with frontier := regroup w.frontier e (pieces e head size n gs), chain := chain }
    let w' := if anyPark gs then { w' with pair := w'.pair.map endGroup } else w'
    let s := putWeave s c k w'
    let s := spillDown 32 s c k (selectedMask s c k)
    let s := if anyPark gs || anyGone gs || anyBar gs then settleBarriers s c w.inst else s
    settleWeave s c k

/-- The end of an instruction of the issuing entry: parked threads stand at their chain's head (R48, R109) (DEDUCED, log entry 21). -/
def retire (s : State) (c k : Nat) (e : Entry) (size : Nat) (chainC : Bool) (gs : Groups) : State :=
  match getWeave s c k with
  | none => s
  | some w =>
    let gs := groupsOf e.mask gs
    let head := match w.chain with | some ch => ch.head | none => e.pc
    moveThreads s c k e size head (chainAfter w e chainC gs) gs

/-- An entry that waited at its instruction moves on; a chain of another entry stands as it is. -/
def proceed (s : State) (c k : Nat) (e : Entry) (size : Nat) (gs : Groups) : State :=
  match getWeave s c k with
  | none => s
  | some w => moveThreads s c k e size e.pc w.chain (groupsOf e.mask gs)

/-- The entry waits at its instruction, which takes no issue cycle and leaves a chain as it stands. `parkedAt` keeps the place in
issue order of an entry that waits (DEDUCED, log entry 14). -/
def holdEntry (s : State) (c k : Nat) (e : Entry) (st : EntryState) : State :=
  let (n, s) := nextSeq s
  let order := match e.state with | .waiting _ => e.parkedAt | _ => n
  onWeave s c k (fun w => { w with frontier := w.frontier.map (fun x =>
    if x.mask &&& e.mask != 0#32 then { x with state := st, parkedAt := order } else x) })

/-! ## Lane instructions -/

/-- What the issue of a lane instruction checks: its size, its chain bit and eligibility (R48), its registers (R32). -/
structure LaneReq where
  size : Nat
  chain : Bool
  elig : Bool
  regs : List (Nat × Nat)
  guard : Guard
deriving DecidableEq, Repr, Inhabited

def noGuard : Guard := { p := 7#3, pol := false }

/-- A one-word lane form without chain bit. -/
def oneWord (regs : List (Nat × Nat)) : LaneReq := { size := 4, chain := false, elig := false, regs := regs, guard := noGuard }

def twoWord (regs : List (Nat × Nat)) : LaneReq := { size := 8, chain := false, elig := false, regs := regs, guard := noGuard }

/-- The encoding conditions that depend on the place of the instruction (R32, R48, R56). -/
def illegalHere (w : Weave) (e : Entry) (size : Nat) (chain elig : Bool) (regs : List (Nat × Nat)) : Bool :=
  (size == 8 && e.pc.extractLsb' 2 1 == 1#1)
    || regs.any (fun r => w.allot < r.1 + r.2)
    || (match w.chain with
        | some ch => !elig || (chain && 7 ≤ ch.count)
        | none => false)

/-- The threads on which an instruction acts (R42). -/
def activeMask (w : Weave) (e : Entry) (g : Guard) : Mask :=
  maskOf ((threadsOf e.mask).filter (fun t => readP w t g.p.toNat != g.pol))

/-- A lane instruction takes its lane: latches of another weave become invalid (R47) (DESIGN CHOICE, log entry 70). -/
def claimLane (s : State) (c k : Nat) (w : Weave) : State :=
  onCore s c (fun x =>
    let l := sget Lane.blank x.lanes w.lane
    if l.owner = some k then x else { x with lanes := sput x.lanes w.lane { l with owner := some k, valid := 0#4 } })

/-- The outcome of an instruction's own effect: the state, where the threads go, the issue cycles it takes, and the registers
it wrote without a tag. `wait`: the entry waits at the instruction instead. -/
structure Done where
  s : State
  gs : Groups
  cycles : Nat
  wv : List Nat
  ws : List Nat
  wait : Option EntryState
deriving DecidableEq, Repr, Inhabited

/-- An instruction that only moves threads. -/
def moved (s : State) (gs : Groups) (cycles : Nat) : Done := { s := s, gs := gs, cycles := cycles, wv := [], ws := [], wait := none }

/-- An instruction that waits. -/
def waits (s : State) (st : EntryState) : Done := { s := s, gs := [], cycles := 0, wv := [], ws := [], wait := some st }

/-- The whole entry parks (R57) (DEDUCED, log entry 21). -/
def parkAll (s : State) (m : Mask) (cause : Nat) (addr : Double) : Done := moved s [(m, .park cause addr)] 1

/-- Null tags for the registers an instruction wrote (R241, R252). -/
def untag (s : State) (c k : Nat) (wv ws : List Nat) : State :=
  match getWeave s c k with
  | none => s
  | some w =>
    if wv.isEmpty && ws.isEmpty then s
    else
      onCore s c (fun x =>
        let a := untagV x w wv
        let b := untagS a.1 a.2 ws
        { b.1 with weaves := sput b.1.weaves k b.2 })

/-- The end of a lane instruction. -/
def laneEnd (c k : Nat) (e : Entry) (size : Nat) (chain : Bool) (d : Done) : State :=
  match d.wait with
  | some st => holdEntry d.s c k e st
  | none =>
    let s := untag d.s c k d.wv d.ws
    let s := onCore s c (fun x => countCore x 0x001 1)
    let s := onWeave s c k (fun w => countWeave w 0x103 (max 1 d.cycles))
    retire s c k e size chain d.gs

/-- The issue of a lane instruction: from the weave's selected entry, after the checks of R56; a steer thread or the handler
slot that meets one parks with ILLEGAL_ENCODING (R28). `body` gives the instruction's own effect on the active threads. -/
def laneBody (s : State) (c k : Nat) (e : Entry) (q : LaneReq) (body : State → Nat → Nat → Weave → Entry → Mask → Done) : State :=
  let s := begin s (.weave c k) e
  match getWeave s c k with
  | none => s
  | some w =>
    if illegalHere w e q.size q.chain q.elig q.regs then retire s c k e q.size false [(e.mask, .park cILLEGAL 0#64)]
    else laneEnd c k e q.size q.chain (body (claimLane s c k w) c k w e (activeMask w e q.guard))

/-! ## Steer threads and the handler slot -/

/-- The handler slot raised a cause: the node fails with both causes; POISON takes containment (R108) (DEDUCED, log entry 30). -/
def handlerFault (s : State) (c cause : Nat) : State :=
  match (getCore s c).handler.run, serialOf s (.handler c) with
  | some d, some n =>
    if cause = cPOISON then
      onCore (notePoison s (.handler c) 0) c (fun x => { x with handler := { x.handler with wait := some .slack } })
    else failLaunch s n 16 d.tcause cause
  | _, _ => onCore s c (fun x => { x with handler := { x.handler with run := none } })

/-- A steer thread ends (R134): its entry is gone, its queue drained. -/
def endSteer (s : State) (c k : Nat) : State :=
  let s := drainAll s (.steer c k)
  let s := onInst s c k (fun i => { i with steer := { i.steer with entry := none, pair := i.steer.pair.map endGroup } })
  settleInst s c k

/-- A steer thread moves. -/
def steerMove (s : State) (c k : Nat) (e : Entry) (size : Nat) (g : Go) : State :=
  let put := fun (s : State) (e : Entry) => onInst s c k (fun i => { i with steer := { i.steer with entry := some e } })
  match g with
  | .next => put s { e with pc := e.pc + BitVec.ofNat 64 size, state := .ready, skipWatch := 0#32 }
  | .to pc _ => put s { e with pc := pc, state := .ready, skipWatch := 0#32 }
  | .hold st => put s { e with state := st }
  | .sleepNext wake => put s { e with pc := e.pc + BitVec.ofNat 64 size, state := .sleeping wake }
  | .park cause addr =>
    let (n, s) := nextSeq s
    let s := if cause = cPOISON then notePoison s (.steer c k) 0 else s
    put s { e with state := .parked, cause := cause, addr := addr, parkedAt := n }
  | .parkAt pc _ cause =>
    let (n, s) := nextSeq s
    put s { e with pc := pc, state := .parked, cause := cause, parkedAt := n }
  | .gone => endSteer s c k

/-- The handler slot moves. -/
def handlerMove (s : State) (c : Nat) (e : Entry) (size : Nat) (g : Go) : State :=
  let put := fun (pc : Double) => onCore s c (fun x => { x with handler := { x.handler with pc := pc } })
  match g with
  | .next => put (e.pc + BitVec.ofNat 64 size)
  | .to pc _ => put pc
  | .hold (.waiting w) => onCore s c (fun x => { x with handler := { x.handler with wait := some w } })
  | .hold _ => s
  | .sleepNext _ => put (e.pc + BitVec.ofNat 64 size)
  | .park cause _ => handlerFault s c cause
  | .parkAt _ _ cause => handlerFault s c cause
  | .gone => s

/-- The group of thread 0, for agents without threads. -/
def soleGo (gs : Groups) : Go :=
  match gs.find? (fun g => g.1.getLsbD 0) with
  | some g => g.2
  | none => .next

/-- An agent's whole entry parks with a cause. -/
def parkAgent (s : State) (a : Agent) (e : Entry) (size cause : Nat) : State :=
  match a with
  | .weave c k => retire s c k e size false [(e.mask, .park cause 0#64)]
  | .steer c k => steerMove s c k e size (.park cause 0#64)
  | .handler c => handlerMove s c e size (.park cause 0#64)

/-- A lane instruction issued by the agent in `focus` (DESIGN CHOICE, log entry 6). -/
def laneIssue (s : State) (q : LaneReq) (body : State → Nat → Nat → Weave → Entry → Mask → Done) : Out :=
  match issuing s s.focus with
  | none => .fault .noIssuer
  | some e =>
    match s.focus with
    | .weave c k => .next (laneBody s c k e q body)
    | a => .next (parkAgent (begin s a e) a e q.size cILLEGAL)

/-! ## Uniform instructions -/

/-- From where a uniform form may be issued (R54, R55, R378). -/
inductive Place
  | any | steer | weave | weaveSteer | handler
deriving DecidableEq, Repr, Inhabited

def placeOk : Place → Agent → Bool
  | .any, _ => true
  | .steer, .steer _ _ => true
  | .weave, .weave _ _ => true
  | .weaveSteer, .weave _ _ => true
  | .weaveSteer, .steer _ _ => true
  | .handler, .handler _ => true
  | _, _ => false

/-- What the issue of a uniform instruction checks. -/
structure UniReq where
  size : Nat
  chain : Bool
  elig : Bool
  place : Place
deriving DecidableEq, Repr, Inhabited

/-- The end of a uniform instruction for each kind of agent. -/
def uniEnd (a : Agent) (e : Entry) (size : Nat) (chain : Bool) (d : Done) : State :=
  match d.wait with
  | some st =>
    match a with
    | .weave c k => holdEntry d.s c k e st
    | .steer c k => steerMove d.s c k e size (.hold st)
    | .handler c => handlerMove d.s c e size (.hold st)
  | none =>
    let s := onCore d.s (coreOf a) (fun x => countCore x 0x002 1)
    match a with
    | .weave c k => retire (untag s c k d.wv d.ws) c k e size chain d.gs
    | .steer c k => steerMove s c k e size (soleGo d.gs)
    | .handler c => handlerMove s c e size (soleGo d.gs)

/-- The cause of a uniform form at its place: PRIV for a privileged form outside the handler slot, ILLEGAL_ENCODING elsewhere
where it may not issue, or where R48 or R56 forbids it. An illegal privileged instruction reports ILLEGAL_ENCODING (R57) (DEDUCED, log entry 22). -/
def uniCause (s : State) (a : Agent) (e : Entry) (q : UniReq) : Option Nat :=
  let here :=
    match a with
    | .weave c k =>
      match getWeave s c k with
      | some w => illegalHere w e q.size q.chain q.elig []
      | none => false
    | _ => q.size == 8 && e.pc.extractLsb' 2 1 == 1#1
  if here then some cILLEGAL
  else if placeOk q.place a then none
  else if q.place = .handler then some cPRIV
  else some cILLEGAL

/-- A uniform instruction issued by the agent in `focus`. -/
def uniBody (s : State) (a : Agent) (e : Entry) (q : UniReq) (body : State → Agent → Entry → Done) : State :=
  let s := begin s a e
  match uniCause s a e q with
  | some cause => parkAgent s a e q.size cause
  | none => uniEnd a e q.size q.chain (body s a e)

def uniIssue (s : State) (q : UniReq) (body : State → Agent → Entry → Done) : Out :=
  match issuing s s.focus with
  | none => .fault .noIssuer
  | some e => .next (uniBody s s.focus e q body)

/-! ## Delivery (R107, R379, R380) -/

/-- A parked entry or a stopped queue that waits for delivery: cause, time of parking, target. -/
structure Pending where
  cause : Nat
  at_ : Nat
  target : Target
  serial : Nat
deriving DecidableEq, Repr, Inhabited

/-- The pending deliveries of a core. -/
def pendings (s : State) (c : Nat) : List Pending :=
  let x := getCore s c
  let ser := fun i => match sfind x.insts i with | some y => y.serial | none => 0
  x.weaves.flatMap (fun e => e.2.frontier.filterMap (fun y =>
      if y.state = .parked && !y.delivering then
        some { cause := y.cause, at_ := y.parkedAt, target := .weave e.1 (lowest y.mask), serial := ser e.2.inst } else none))
    ++ x.insts.filterMap (fun e =>
      match e.2.steer.entry with
      | some y =>
        if y.state = .parked && !y.delivering then some { cause := y.cause, at_ := y.parkedAt, target := .steer e.1, serial := e.2.serial }
        else none
      | none => none)
    ++ (List.range 4).filterMap (fun q =>
      match (x.queues.getD q []).head? with
      | some m =>
        match m.fault with
        | some (cause, _, at_) => some { cause := cause, at_ := at_, target := .engine q, serial := ser m.inst }
        | none => none
      | none => none)

/-- The next delivery: the lowest cause code, then the earliest parking (R107). -/
def nextPending (l : List Pending) : Option Pending :=
  l.foldl (fun acc p =>
    match acc with
    | none => some p
    | some b => if p.cause < b.cause || (p.cause == b.cause && p.at_ < b.at_) then some p else acc) none

/-- The address register of a delivery: for the causes 0x10 to 0x19 (R379). -/
def taddrOf (cause : Nat) (addr : Double) : Double := if 0x10 ≤ cause && cause ≤ 0x19 then addr else 0#64

/-- `$tent` (R380) (DEDUCED, log entry 32). -/
def tentOf (kind role wid queue idx inst : Nat) : Word :=
  BitVec.ofNat 32 (kind * 2 ^ 30 + role * 2 ^ 28 + wid * 2 ^ 23 + queue * 2 ^ 21 + idx % 32 * 2 ^ 16 + inst % 2 ^ 16)

/-- Taking an exception: the handler slot starts a delivery at the trap vector with the control registers of the parked entry
(R107), its `$mode` at its start value (R221). -/
def startDelivery (s : State) (c vf : Nat) (d : Delivery) : State :=
  onCore s c (fun x =>
    { x with handler := { x.handler with run := some d, pc := (getVf s vf).tvec, wait := none, mode := modeStart } })

/-- The parked entry of a weave under delivery. -/
def deliverWeave (s : State) (c vf k tid : Nat) : State :=
  match getWeave s c k with
  | none => s
  | some w =>
    match w.frontier.find? (fun e => e.state = .parked && lowest e.mask == tid) with
    | none => s
    | some e =>
      match getInst s c w.inst with
      | none => s
      | some i =>
        let s := fillEntry s c k e.mask (selectedMask s c k)
        let s := onWeave s c k (fun w =>
          { w with frontier := w.frontier.map (fun y => if y.mask == e.mask then { y with delivering := true } else y) })
        let idx := w.frontier.findIdx (fun y => y.mask == e.mask)
        startDelivery s c vf
          { target := .weave k tid, tcause := e.cause, tpc := e.pc, tmask := e.mask, tprio := e.prio,
            tent := tentOf 0 w.role w.wid 0 idx i.num, taddr := taddrOf e.cause e.addr, tinst := BitVec.ofNat 32 i.num }

def deliverSteer (s : State) (c vf k : Nat) : State :=
  match getInst s c k with
  | none => s
  | some i =>
    match i.steer.entry with
    | none => s
    | some e =>
      let s := onInst s c k (fun i => { i with steer := { i.steer with entry := some { e with delivering := true } } })
      startDelivery s c vf
        { target := .steer k, tcause := e.cause, tpc := e.pc, tmask := 1#32, tprio := e.prio, tent := tentOf 1 0 0 0 0 i.num,
          taddr := taddrOf e.cause e.addr, tinst := BitVec.ofNat 32 i.num }

/-- A fault of an engine command is delivered as an entry of its issuer with the elected thread alone (07 R183) (DEDUCED, log entry 56). -/
def deliverEngine (s : State) (c vf q : Nat) : State :=
  match ((getCore s c).queues.getD q []).head? with
  | none => s
  | some m =>
    match m.fault with
    | none => s
    | some (cause, addr, _) =>
      let num := match getInst s c m.inst with | some i => i.num | none => 0
      let (role, wid) := match m.issuer with
        | .weave _ k => (match getWeave s c k with | some w => (w.role, w.wid) | none => (0, 0))
        | _ => (0, 0)
      startDelivery s c vf
        { target := .engine q, tcause := cause, tpc := m.pc, tmask := 1#32 <<< m.tid, tprio := m.prio,
          tent := tentOf 2 role wid q 0 num, taddr := taddrOf cause addr, tinst := BitVec.ofNat 32 num }

/-- The handler slot takes the next pending delivery of its core; where the entry cannot go to a handler the node fails: PAIR_FAIL,
or no trap vector (R108). POISON is left to containment (R397). -/
def takeDelivery (s : State) (c : Nat) : State :=
  if (getCore s c).handler.run.isSome then s
  else
    match nextPending ((pendings s c).filter (fun p => p.cause != cPOISON)) with
    | none => s
    | some p =>
      match getLaunch s p.serial with
      | none => s
      | some l =>
        if p.cause = cPAIRFAIL then failLaunch s p.serial 18 cPAIRFAIL 0
        else if (getVf s l.vf).tvec = 0#64 then failLaunch s p.serial 16 p.cause 0
        else
          match p.target with
          | .weave k tid => deliverWeave s c l.vf k tid
          | .steer k => deliverSteer s c l.vf k
          | .engine q => deliverEngine s c l.vf q

/-! ## The return from a delivery (R385) -/

/-- Where an entry resumes after its delivery (R70): a pc that the handler set is the landing of a transfer (03 R56, 06 R129), and so is a
pc that was an illegal landing and stands as it was (18 R385); at the pc of any other delivery the entry issues again, and a word there
that is no instruction is reached in sequence (DESIGN CHOICE, log entry 71) (DEDUCED, log entry 84). -/
def resumeAt (s : State) (c vf : Nat) (cause : Nat) (tpc pc : Double) (prio : Half) : Go :=
  if pc = tpc && cause != cMISALIGNED then .to pc prio else landing s c vf pc prio false

/-- A delivered entry becomes ready where it resumes; its first issue skips the watchpoints where the cause was WATCH (22 R419) (DESIGN CHOICE, log entry 71). -/
def readyEntry (s : State) (c k vf : Nat) (cause : Nat) (tpc : Double) : State :=
  match getWeave s c k with
  | none => s
  | some w =>
    match w.frontier.find? (fun e => e.delivering) with
    | none => s
    | some e =>
      let (n, s) := nextSeq s
      let skip := if cause = cWATCH then e.mask else 0#32
      let e' :=
        match resumeAt s c vf cause tpc e.pc e.prio with
        | .parkAt pc prio cause => { entryAt pc prio e.mask .parked with cause := cause, parkedAt := n }
        | _ => { entryAt e.pc e.prio e.mask .ready with skipWatch := skip }
      let s := onWeave s c k (fun w => { w with frontier := addEntry (w.frontier.filter (fun y => !y.delivering)) e' })
      spillDown 32 s c k (selectedMask s c k)

def readySteer (s : State) (c k vf : Nat) (tpc : Double) : State :=
  match getInst s c k with
  | none => s
  | some i =>
    match i.steer.entry with
    | none => s
    | some e =>
      if e.delivering then
        let (n, s) := nextSeq s
        let e' :=
          match resumeAt s c vf e.cause tpc e.pc e.prio with
          | .parkAt pc prio cause => { entryAt pc prio 1#32 .parked with cause := cause, parkedAt := n }
          | _ => { entryAt e.pc e.prio 1#32 .ready with skipWatch := if e.cause = cWATCH then 1#32 else 0#32 }
        onInst s c k (fun i => { i with steer := { i.steer with entry := some e' } })
      else s

/-- The return from an exception: the entry of the delivery becomes ready, a steer thread resumes, a stopped queue restarts its
command (R385). The accesses of the delivery are performed first (R211). -/
def endDelivery (s : State) (c : Nat) : State :=
  match (getCore s c).handler.run with
  | none => s
  | some d =>
    let vf := agentVf s (.handler c)
    let s := flushL1 (drainAll s (.handler c)) c
    let s := onCore s c (fun x => { x with handler := { x.handler with run := none, wait := none } })
    match d.target with
    | .weave k _ => readyEntry s c k vf d.tcause d.tpc
    | .steer k => readySteer s c k vf d.tpc
    | .engine q => onCore s c (fun x =>
        { x with queues := x.queues.modify q (fun l => match l with | m :: r => { m with fault := none, held := false } :: r | [] => []) })

end Sys2Proof.Machine
end

