-- ==== Sys2Proof/Machine/Pairing.lean ====
section
/-!
DEFINITION. What the two copies of a paired launch take from each other and log (20 R402, R408), the members their store groups
take (20 R403, R404), and PAIR_FAIL (20 R409). An agent that is not paired passes through every operation unchanged.
-/

namespace Sys2Proof.Machine

open Sys2Proof

def pairOf (s : State) : Agent → Option Pair
  | .weave c k => (getWeave s c k).bind (·.pair)
  | .steer c k => (getInst s c k).bind (fun i => i.steer.pair)
  | .handler _ => none

def onPair (s : State) (a : Agent) (f : Pair → Pair) : State :=
  match a with
  | .weave c k => onWeave s c k (fun w => { w with pair := w.pair.map f })
  | .steer c k => onInst s c k (fun i => { i with steer := { i.steer with pair := i.steer.pair.map f } })
  | .handler _ => s

/-- The same agent in the other copy. -/
def peerOf (p : Pair) : Agent → Agent
  | .weave _ _ => .weave p.peerCore p.peerSlot
  | .steer _ _ => .steer p.peerCore p.peerSlot
  | .handler c => .handler c

def isSteer : Agent → Bool
  | .steer _ _ => true
  | _ => false

def isPaired (s : State) (a : Agent) : Bool := (pairOf s a).isSome

def isTrailing (s : State) (a : Agent) : Bool := match pairOf s a with | some p => p.trailing | none => false

def isReplaying (s : State) (a : Agent) : Bool := match pairOf s a with | some p => replaying p | none => false

/-- PAIR_FAIL: the node fails with reason 18 (R409). -/
def pairFail (s : State) (a : Agent) : State :=
  match serialOf s a with
  | some n => failLaunch s n 18 cPAIRFAIL 0
  | none => s

/-- What an instruction that takes its values from the leading copy does (R402): its own computation, values given to it, a wait,
or the end of the launch when the log holds another kind (R409). -/
inductive Take
  | own
  | given (vals : List (Nat × Double)) (s : State)
  | wait
  | broken
deriving DecidableEq, Repr, Inhabited

/-- Whether an entry of the load-value queue belongs to an instruction: the same pc, no thread outside the active ones. -/
def fits (pc : Double) (act : Mask) : LogEntry → Bool
  | .value pc' vals => pc' == pc && vals.all (fun v => act.getLsbD (v.1 % 32))
  | _ => false

/-- The values of an instruction at a pc for some threads (a uniform instruction uses index 0). -/
def takeValue (s : State) (a : Agent) (pc : Double) (act : Mask) : Take :=
  match pairOf s a with
  | none => .own
  | some p =>
    if replaying p then
      match p.replay with
      | .value pc' vals :: rest => .given vals (onPair s a (fun p => logEntry (.value pc' vals) { p with replay := rest }))
      | _ => .broken
    else if p.trailing then
      match p.lvq.find? (fits pc act) with
      | some (.value pc' vals) =>
        .given vals (onPair s a (fun p => logEntry (.value pc' vals) { p with lvq := p.lvq.erase (.value pc' vals) }))
      | _ => .wait
    else if lvqOpen s (isSteer a) p then .own
    else .wait

/-- The values an instruction of the leading copy took: logged, and passed to the trailing copy. -/
def giveValue (s : State) (a : Agent) (pc : Double) (vals : List (Nat × Double)) : State :=
  match pairOf s a with
  | none => s
  | some p =>
    if p.trailing || replaying p then s
    else
      let s := onPair s a (logEntry (.value pc vals))
      onPair s (peerOf p a) (fun q => { q with lvq := q.lvq ++ [.value pc vals] })

/-- What an instruction that reads its own circle memory, wale or decision queue, or passes a join, does (R408, R409). -/
inductive Own
  | fresh
  | replay (e : LogEntry) (s : State)
  | broken
deriving DecidableEq, Repr, Inhabited

def takeLog (s : State) (a : Agent) : Own :=
  match pairOf s a with
  | none => .fresh
  | some p =>
    if replaying p then
      match p.replay with
      | e :: rest => .replay e (onPair s a (fun p => logEntry e { p with replay := rest }))
      | [] => .broken
    else .fresh

def logOwn (s : State) (a : Agent) (e : LogEntry) : State := if isReplaying s a then s else onPair s a (logEntry e)

/-- Whether a group-ending instruction of the leading copy must wait (R405). -/
def groupStall (s : State) (a : Agent) : Bool :=
  match pairOf s a, agentInst s a with
  | some p, some i => slackFull s (coreOf a) i p
  | _, _ => false

/-- A member joins the open group of a paired agent (R403); for others nothing changes. -/
def joinGroup (s : State) (a : Agent) (bytes : List Byte) (op : PairOp) : State := onPair s a (fun p => addMember p bytes op true)

/-- The number the next member that stands alone gets (R403). -/
def aloneNum (p : Pair) : Nat := (endGroup p).num

/-- The wait of an issuer that its group holds (R405). -/
def onceWait (s : State) (a : Agent) : EntryState :=
  match pairOf s a with
  | some p => .waiting (.once (p.num - 1))
  | none => .ready

/-! ## The stores of regions enter the queue before the closing instruction acts (05 R110, 08 R196) -/

/-- The closing of a weave's region by an instruction that orders earlier stores before later loads (R196): the region closes and
the weave's queue enters the core order (DEDUCED, log entry 19) (DEDUCED, log entry 64). -/
def closeFor (s : State) (c k : Nat) : State := drainAll (onWeave s c k closeRegion) (.weave c k)

/-- The same for any agent (DEDUCED, log entry 19). -/
def closeAgent (s : State) : Agent → State
  | .weave c k => closeFor s c k
  | a => drainAll s a

/-- Whether no store of a paired copy waits in its groups, or the copy re-executes (R405, R409). -/
def flowDone (s : State) (a : Agent) : Bool :=
  match pairOf s a with
  | some p => replaying p || !grouped p
  | none => true

/-- An instruction that orders its agent's earlier stores before what it does (R196, R198, R213): the region closes and the queue enters the
core order first; a paired copy's open group ends, and the instruction waits until the copy's groups are released (DEDUCED, log entry 64). -/
def afterFlow (s : State) (a : Agent) (k : State → Done) : Done :=
  if isPaired s a && !flowDone (closeAgent s a) a then
    if groupStall (closeAgent s a) a then waits (closeAgent s a) (.waiting .slack)
    else waits (onPair (closeAgent s a) a endGroup) (.waiting .flow)
  else k (closeAgent s a)

/-- The virtual function of an agent's launch, for its translations. -/
def vfOf (s : State) (a : Agent) : Nat := agentVf s a

def isHandler : Agent → Bool
  | .handler _ => true
  | _ => false

/-- The number of threads of a mask. -/
def countOf (m : Mask) : Nat := (threadsOf m).length

end Sys2Proof.Machine
end

