-- ==== Sys2Proof/Machine/Operands.lean ====
section
/-!
DEFINITION. The operands of both sets (03 R31 to R34, R38, R40; 12 R304): lane sources with neighbour selectors and edges,
uniform sources with the special registers, the literal's value by operand type, and what names a source for lineage (10 R242).
-/

namespace Sys2Proof.Machine

open Sys2Proof

/-! ## Literals (R38) -/

/-- A literal payload read as an operand of a type (R38). -/
def litValue (t : OpTy) (p : BitVec 28) : Double :=
  match t with
  | .w32 => ((p.signExtend 32).setWidth 64)
  | .w64 => p.signExtend 64
  | .f32 => (p ++ 0#4).setWidth 64
  | .f64 => p ++ 0#36
  | .h2 => (p.extractLsb' 0 16 ++ p.extractLsb' 0 16).setWidth 64
  | .b4 => (p.extractLsb' 0 8 ++ p.extractLsb' 0 8 ++ p.extractLsb' 0 8 ++ p.extractLsb' 0 8).setWidth 64

def extPayload : Ext → BitVec 28
  | .lit p => p
  | .mod _ => 0#28

/-! ## Lane sources -/

/-- A lane operand: source, width, neighbour selector, and its value where it is the literal; or a predicate (R279). -/
inductive Opd
  | src (x : LSrc) (wide : Bool) (nbr : Nbr) (lit : Double) (payload : BitVec 28)
  | pred (k : BitVec 3)
  | none
deriving DecidableEq, Repr, Inhabited

/-- A register word with an uncorrectable error, its own or of the entry it is bound to (R259, R395). -/
def vPoisoned (x : Core) (w : Weave) (t r : Nat) : Bool := nmem w.vbad (vkey t r) || tagBad x (vtag w r)

/-- A register or pair of a thread, or POISON. -/
def readReg (x : Core) (w : Weave) (t r : Nat) (wide : Bool) : Except Nat Double :=
  if wide then
    if vPoisoned x w t r || vPoisoned x w t (r + 1) then .error cPOISON else .ok (readVD w t r)
  else if vPoisoned x w t r then .error cPOISON
  else .ok ((readV w t r).setWidth 64)

def latchKey (t k : Nat) : Nat := 32 * k + t

/-- A latch read (R47): invalid latches raise LATCH_INVALID for the reading thread. -/
def readLatch (l : Lane) (t k : Nat) (wide : Bool) : Except Nat Double :=
  if !l.valid.getLsbD k then .error cLATCH
  else if nmem l.bad (latchKey t k) then .error cPOISON
  else
    let v := sget 0#64 l.latches (latchKey t k)
    .ok (if wide then v else (v.setWidth 32).setWidth 64)

/-- A lane source of a thread without a neighbour selector. -/
def readLSrc (x : Core) (w : Weave) (t : Nat) (a : LSrc) (wide : Bool) (lit : Double) : Except Nat Double :=
  match a with
  | .v n => readReg x w t n.toNat wide
  | .latch k => readLatch (sget Lane.blank x.lanes w.lane) t k.toNat wide
  | .zero => .ok 0#64
  | .lit => .ok lit
  | .tid => .ok (BitVec.ofNat 64 t)

/-- The fill value of an edge (R304), or POISON of the fill register. -/
def fillValue (x : Core) (w : Weave) (f : Nat) (wide : Bool) : Except Nat Double :=
  let u := weaveFile w
  let bad := fun n => nmem u.bad n || tagBad x (stag w n)
  if bad f || (wide && bad (f + 1)) then .error cPOISON
  else .ok (if wide then readSD u f else (readS u f).setWidth 64)

/-- A register read at a neighbour thread, or its edge value (R304, R305). -/
def readNbr (x : Core) (w : Weave) (t r : Nat) (wide : Bool) (left : Bool) (e : Edge) : Except Nat Double :=
  if left && 0 < t then readReg x w (t - 1) r wide
  else if !left && t < 31 then readReg x w (t + 1) r wide
  else
    match e with
    | .zero => .ok 0#64
    | .wrap => readReg x w (if left then 31 else 0) r wide
    | .clamp => readReg x w t r wide
    | .fill f => fillValue x w f.toNat wide

/-- An operand's value for a thread, or its cause. -/
def readOpd (x : Core) (w : Weave) (edge : Edge) (t : Nat) : Opd → Except Nat Double
  | .none => .ok 0#64
  | .pred k => .ok (if readP w t k.toNat then 1#64 else 0#64)
  | .src (.v n) wide .left _ _ => readNbr x w t n.toNat wide true edge
  | .src (.v n) wide .right _ _ => readNbr x w t n.toNat wide false edge
  | .src a wide _ lit _ => readLSrc x w t a wide lit

/-- The registers an operand names, for the allotment check (R32). -/
def opdRegs : Opd → List (Nat × Nat)
  | .src (.v n) wide _ _ _ => [(n.toNat, if wide then 2 else 1)]
  | _ => []

def lsrcRegs (a : LSrc) (n : Nat) : List (Nat × Nat) :=
  match a with
  | .v r => [(r.toNat, n)]
  | _ => []

/-- The name of an operand (R242). -/
def opdName (w : Weave) : Opd → Name
  | .none => some []
  | .pred _ => none
  | .src a wide _ _ payload =>
    match a with
    | .v n => nameOfTags (if wide then [vtag w n.toNat, vtag w (n.toNat + 1)] else [vtag w n.toNat])
    | .zero => nameOfZero
    | .lit => nameOfLit payload.toNat
    | _ => none

/-- The lowest cause of several reads, or their values (R106). -/
def gather : List (Except Nat Double) → Except Nat (List Double)
  | [] => .ok []
  | .ok v :: r =>
    match gather r with
    | .ok vs => .ok (v :: vs)
    | .error e => .error e
  | .error c :: r =>
    match gather r with
    | .ok _ => .error c
    | .error e => .error (min c e)

/-! ## Special registers (R33, R34) -/

/-- The cycles of a core's own clock since its counter ran from zero, at reset and at a scrub (00 R5, 01 R14, 22 R424) (DEDUCED, log entry 33). -/
def coreCycles (s : State) (c : Nat) : Nat :=
  let x := getCore s c
  (x.ran + (s.now - x.since) * x.clock) / 4000

def shapeOf (l : Launch) (d : Nat) : Word := l.node.shape.getD d 0#32

/-- A special register as an agent reads it, zero-extended (R33); thread-scope specials are read by `movs` alone (R34) (DESIGN CHOICE, log entry 72). -/
def readSpecial (s : State) (a : Agent) (x : Special) : Double :=
  let c := coreOf a
  let inst := (agentInst s a).bind (getInst s c)
  let l := agentLaunch s a
  let w := match a with | .weave c k => getWeave s c k | _ => none
  let ofLaunch := fun (f : Launch → Double) => match l with | some l => f l | none => 0#64
  match x with
  | .wid => match w with | some w => BitVec.ofNat 64 w.wid | none => 0#64
  | .inst => match inst with | some i => BitVec.ofNat 64 i.num | none => 0#64
  | .role => match w with | some w => BitVec.ofNat 64 w.role | none => 0#64
  | .lsn => ofLaunch (·.lsn)
  | .mode => (getFile s a).mode.setWidth 64
  | .flags => 0#64
  | .ninst => ofLaunch (fun l => BitVec.ofNat 64 l.node.ninst)
  | .nwv => match w with | some w => BitVec.ofNat 64 (stageCount (getCore s c) w.inst w.role) | none => 0#64
  | .shape0 => ofLaunch (fun l => (shapeOf l 0).setWidth 64)
  | .shape1 => ofLaunch (fun l => (shapeOf l 1).setWidth 64)
  | .shape2 => ofLaunch (fun l => (shapeOf l 2).setWidth 64)
  | .vf => BitVec.ofNat 64 (agentVf s a)
  | .clk => BitVec.ofNat 64 (coreCycles s c % 2 ^ 32)
  | .rng => 0#64

/-! ## Uniform sources -/

/-- A uniform operand: source, width, and its value where it is the literal; a predicate; or a value taken from the leading
copy (20 R402). -/
inductive UOpd
  | src (x : USrc) (wide : Bool) (lit : Double) (payload : BitVec 28)
  | pred (k : BitVec 3)
  | val (v : Double)
  | none
deriving DecidableEq, Repr, Inhabited

/-- A uniform register with an uncorrectable error, its own or of the entry it is bound to. -/
def sPoisoned (s : State) (a : Agent) (f : UFile) (n : Nat) : Bool :=
  nmem f.bad n ||
    match a with
    | .weave c k => match getWeave s c k with | some w => tagBad (getCore s c) (stag w n) | none => false
    | _ => false

/-- A uniform register or pair, or POISON. -/
def readSReg (s : State) (a : Agent) (n : Nat) (wide : Bool) : Except Nat Double :=
  let f := getFile s a
  if sPoisoned s a f n || (wide && sPoisoned s a f (n + 1)) then .error cPOISON
  else .ok (if wide then readSD f n else (readS f n).setWidth 64)

/-- A uniform source (R33): a 32-bit read of a 64-bit special takes its low word (DESIGN CHOICE, log entry 72). -/
def readUSrc (s : State) (a : Agent) (x : USrc) (wide : Bool) (lit : Double) : Except Nat Double :=
  match x with
  | .s n => readSReg s a n.toNat wide
  | .sp y => .ok (if wide then readSpecial s a y else ((readSpecial s a y).setWidth 32).setWidth 64)
  | .zero => .ok 0#64
  | .lit => .ok lit

def readUOpd (s : State) (a : Agent) : UOpd → Except Nat Double
  | .none => .ok 0#64
  | .pred k => .ok (if readQ (getFile s a) k.toNat then 1#64 else 0#64)
  | .val v => .ok v
  | .src x wide lit _ => readUSrc s a x wide lit

/-- The name of a uniform operand (R242). -/
def uopdName (w : Weave) : UOpd → Name
  | .none => some []
  | .pred _ => none
  | .val _ => none
  | .src x wide _ payload =>
    match x with
    | .s n => nameOfTags (if wide then [stag w n.toNat, stag w (n.toNat + 1)] else [stag w n.toNat])
    | .sp y => nameOfSpecial y
    | .zero => nameOfZero
    | .lit => nameOfLit payload.toNat

/-- The uniform registers a destination covers. -/
def udstRegs (d : UDst) (wide : Bool) : List Nat :=
  match d with
  | .s n => if wide then [n.toNat, n.toNat + 1] else [n.toNat]
  | _ => []

/-- A uniform destination written (R33, R34): `$mode` for the agent itself; `$flags` for every active thread of a weave, and
nothing for a steer thread or the handler slot. -/
def writeUDst (s : State) (a : Agent) (active : Mask) (d : UDst) (wide : Bool) (v : Double) : State :=
  match d with
  | .s n =>
    let f := getFile s a
    putFile s a (if wide then writeSD f n.toNat v else writeS f n.toNat (v.setWidth 32))
  | .mode =>
    let f := getFile s a
    putFile s a { f with mode := modeWrite f.mode (v.setWidth 32) }
  | .flags =>
    match a with
    | .weave c k => onWeave s c k (fun w => (threadsOf active).foldl (fun w t => writeFlags w t (flagsWrite (v.setWidth 32))) w)
    | _ => s

end Sys2Proof.Machine
end

