-- ==== Sys2Proof/Machine/Alu.lean ====
section
/-!
DEFINITION. The execution of the arithmetic forms of both sets: per active thread the operands are read before any result is
written, the result, flags, traps and draws follow (09 R218 to R225, R443; 11 R264, R265), the latch history shifts (03 R47), and
the instruction is looked up in and inserted into the value store (10 R240 to R256).
-/

namespace Sys2Proof.Machine

open Sys2Proof

/-! ## Rounding (R223) -/

/-- The mode an rnd code names (R221). -/
def rmodeOfCode (n : Nat) : RMode :=
  match n with
  | 1 => .rn
  | 2 => .rz
  | 3 => .ru
  | 4 => .rd
  | _ => .rs

def rmodeCode : RMode → Nat
  | .rn => 1
  | .rz => 2
  | .ru => 3
  | .rd => 4
  | .rs => 5

/-- The mode resolved once per issue: the form's round field, or the rnd field of `$mode` (R223). -/
def resolve (mode : Word) : Round → RMode
  | .dflt => rmodeOfCode (mode.extractLsb' 0 3).toNat
  | .rn => .rn
  | .rz => .rz
  | .ru => .ru
  | .rd => .rd
  | .rs => .rs

/-- The draws of one rounding (R224): none outside rs. -/
def takeDraws (rm : RMode) (draws : Nat) (g : Double) : Rnd × Double :=
  if rm = .rs && draws != 0 then
    let g1 := drawStep g
    if draws = 1 then ({ mode := rm, d0 := drawOf g1, d1 := 0#32 }, g1)
    else
      let g2 := drawStep g1
      ({ mode := rm, d0 := drawOf g1, d1 := drawOf g2 }, g2)
  else ({ mode := rm, d0 := 0#32, d1 := 0#32 }, g)

/-! ## What a form does -/

/-- An operation on the values of three sources. -/
abbrev Fn := Rnd → Double → Double → Double → Double × Flags

def fn1 (f : Double → Double × Flags) : Fn := fun _ a _ _ => f a
def fn2 (f : Double → Double → Double × Flags) : Fn := fun _ a b _ => f a b
def fn3 (f : Double → Double → Double → Double × Flags) : Fn := fun _ a b c => f a b c
def rn1 (f : Rnd → Double → Double × Flags) : Fn := fun r a _ _ => f r a
def rn2 (f : Rnd → Double → Double → Double × Flags) : Fn := fun r a b _ => f r a b

/-- A comparison's result in bit 0. -/
def boolBits (b : Bool) : Double := if b then 1#64 else 0#64

def cmpFn (f : Double → Double → Bool) : Fn := fun _ a b _ => (boolBits (f a b), 0#6)

/-- Where a lane form writes: a register or pair, a predicate, or the two predicates of a packed compare (R35). -/
inductive LDst
  | reg (d : Nat) (wide : Bool)
  | pred (p : Nat)
  | pred2 (p : Nat)
deriving DecidableEq, Repr, Inhabited

/-- A lane arithmetic form with its operands. -/
structure AluForm where
  size : Nat
  supp : Bool
  chain : Bool
  dst : LDst
  a : Opd
  b : Opd
  c : Opd
  edge : Edge
  guard : Guard
  round : Round
  draws : Nat
  traps : Bool
  occ : Nat
  key : List Nat
  fn : Fn

/-- What one thread's execution gives: its generator afterwards, and its result with the flags raised, or its cause. -/
structure Run where
  tid : Nat
  gen : Double
  res : Except Nat (Double × Flags)

/-- One thread's execution: operands, draws, result; an enabled trap leaves the thread's result unwritten (R222), its draws
taken (R224). -/
def runThread (f : AluForm) (x : Core) (w : Weave) (rm : RMode) (t : Nat) : Run :=
  match gather [readOpd x w f.edge t f.a, readOpd x w f.edge t f.b, readOpd x w f.edge t f.c] with
  | .error e => { tid := t, gen := readGen w t, res := .error e }
  | .ok vs =>
    match takeDraws rm f.draws (readGen w t) with
    | (r, g) =>
      let y := f.fn r (vs.getD 0 0#64) (vs.getD 1 0#64) (vs.getD 2 0#64)
      match (if f.traps then fpTrap w.mode y.2 else none) with
      | some cause => { tid := t, gen := g, res := .error cause }
      | none => { tid := t, gen := g, res := .ok y }

/-- A result written to its destination. -/
def writeDst (w : Weave) (t : Nat) (d : LDst) (v : Double) : Weave :=
  match d with
  | .reg n wide => if wide then writeVD w t n v else writeV w t n (v.setWidth 32)
  | .pred p => writeP w t p (v.getLsbD 0)
  | .pred2 p => writeP (writeP w t p (v.getLsbD 0)) t (p + 1) (v.getLsbD 1)

/-- The threads' results written, their flags raised (R219), their generators advanced. -/
def applyRuns (w : Weave) (supp : Bool) (d : LDst) : List Run → Weave
  | [] => w
  | r :: rest =>
    let w := writeGen w r.tid r.gen
    match r.res with
    | .ok (v, f) =>
      let w := if supp then w else writeDst w r.tid d v
      applyRuns (raiseFlags w r.tid f) supp d rest
    | .error _ => applyRuns w supp d rest

/-- The threads with a cause, each in a group of its own. -/
def runGroups (rs : List Run) : Groups :=
  rs.filterMap (fun r => match r.res with | .error e => some (maskOf [r.tid], .park e 0#64) | .ok _ => none)

/-! ## The latch history (R47) -/

/-- The history shifts: the new results enter as `b0`, zero for inactive threads. -/
def shiftLatches (l : Lane) (new : List (Nat × Double)) : Lane :=
  let old := (l.latches.filter (fun e => e.1 < 96)).map (fun e => (e.1 + 32, e.2))
  { l with latches := ssetAll 0#64 old new, valid := (l.valid <<< 1) ||| 1#4,
           bad := (l.bad.filter (fun i => i < 96)).map (· + 32) }

/-- A result as it enters the history. -/
def latchOf (d : LDst) (v : Double) : Double :=
  match d with
  | .reg _ false => (v.setWidth 32).setWidth 64
  | _ => v

def shiftsHistory : LDst → Bool
  | .reg _ _ => true
  | _ => false

def latchRuns (d : LDst) (rs : List Run) : List (Nat × Double) :=
  rs.filterMap (fun r => match r.res with | .ok (v, _) => some (r.tid, latchOf d v) | .error _ => none)

def onLane (x : Core) (n : Nat) (f : Lane → Lane) : Core := { x with lanes := sput x.lanes n (f (sget Lane.blank x.lanes n)) }

/-! ## Lineage of a lane form -/

def edgeCode : Edge → Nat
  | .zero => 0
  | .wrap => 1
  | .clamp => 2
  | .fill _ => 3

def nbrOf : Opd → Nat
  | .src _ _ .left _ _ => 1
  | .src _ _ .right _ _ => 2
  | _ => 0

/-- The fill register's name, where the edge is a fill (R242). -/
def fillName (w : Weave) (e : Edge) (wide : Bool) : Name :=
  match e with
  | .fill f => nameOfTags (if wide then [stag w f.toNat, stag w (f.toNat + 1)] else [stag w f.toNat])
  | _ => some []

def opdWide : Opd → Bool
  | .src _ wide _ _ _ => wide
  | _ => false

/-- The names of a form's sources in field order, then of its fill register (R242, R245). -/
def aluNames (w : Weave) (f : AluForm) : Option (List Nat) :=
  allNames [opdName w f.a, opdName w f.b, opdName w f.c, fillName w f.edge (opdWide f.a || opdWide f.b)]

/-- The registers a lane destination covers. -/
def dstRegs : LDst → List Nat
  | .reg d wide => if wide then [d, d + 1] else [d]
  | _ => []

/-- The conditions of R244 that do not concern the sources. -/
def lookable (w : Weave) (e : Entry) (act : Mask) (supp : Bool) (key : List Nat) (g : Guard) (rm : RMode) : Bool :=
  w.lmode != 0#2 && e.mask == BitVec.allOnes 32 && act == BitVec.allOnes 32 && !supp && !key.isEmpty && g == noGuard && rm != .rs

/-- The key of an instruction (R245): operation, modifiers, resolved mode, trap enables, sources. -/
def vsKey (key mods : List Nat) (rm : RMode) (mode : Word) (names : List Nat) : List Nat :=
  key ++ mods ++ [rmodeCode rm, (mode.extractLsb' 4 5).toNat] ++ names

/-- The two words of a result. -/
def halvesOf (wide : Bool) (vs : List Double) : List (List Word) :=
  if wide then [vs.map (fun v => v.setWidth 32), vs.map (fun v => v.extractLsb' 32 32)] else [vs.map (fun v => v.setWidth 32)]

/-- The value and flags an entry gives a thread; `i` is 0 for a uniform entry. -/
def entryValue (x : Core) (e : VsEntry) (i : Nat) : Double :=
  let hi := match e.partner with | some p => (match vsEntry x p with | some y => y.vals.getD i 0#32 | none => 0#32) | none => 0#32
  hi ++ e.vals.getD i 0#32

/-- The serials of a result's registers, low first. -/
def serialsOf (e : VsEntry) : List Nat := match e.partner with | some p => [e.serial, p] | none => [e.serial]

/-- Tags for a result's v registers, low first. -/
def bindV (x : Core) (w : Weave) (regs serials : List Nat) : Core × Weave :=
  (regs.zip serials).foldl (fun a p => setVTag a.1 a.2 p.1 p.2) (x, w)

def bindS (x : Core) (w : Weave) (regs serials : List Nat) : Core × Weave :=
  (regs.zip serials).foldl (fun a p => setSTag a.1 a.2 p.1 p.2) (x, w)

/-- The resolution of a lookup (R247, R248, R250): a hit on an entry, a miss to insert, a miss without insertion, no lookup at all. -/
inductive Found
  | hit (e : VsEntry)
  | insert (key : List Nat)
  | miss
  | off
deriving DecidableEq, Repr, Inhabited

/-- The lookup of an instruction, and what its counters become (R262). The epoch ends before an insertion that would pass the last
serial (R255); the sources then have no names, unless they need none (DEDUCED, log entry 78). -/
def lookup (s : State) (c k : Nat) (w : Weave) (launch vf : Nat) (n : Nat) (names : Weave → Option (List Nat)) : Found × State × Weave :=
  match names w with
  | none => (.off, s, w)
  | some key =>
    let x := getCore s c
    let w := countL w 0
    match vsFind x launch vf key with
    | some e =>
      let s := onCore s c (fun x => countCore (touch x e.serial s.tick) 0x003 1)
      (.hit e, s, countL w 1)
    | none =>
      if w.lmode = 2#2 then
        let flush := 2 ^ 40 ≤ x.nextSerial + n - 1
        let s := if flush then onCore s c epochFlush else s
        let w := if flush then countL { w with vtags := [], stags := [] } 5 else w
        match names w with
        | none => (.miss, putWeave s c k w, w)
        | some key =>
          match makeRoom 4 (getCore s c) n with
          | some x => (.insert key, putCore s c (countCore x 0x004 n), countL w 2)
          | none => (.miss, s, countL w 3)
      else (.miss, s, w)

/-- The launch component of a key: local serial and virtual function (R103, R245). -/
def launchOf (s : State) (a : Agent) : Nat × Nat :=
  match agentLaunch s a with
  | some l => (l.serial, l.vf)
  | none => (0, 0)

/-- A lane instruction bound from the value store (R247): destination, flags, latches. -/
def bindHit (s : State) (c k : Nat) (w : Weave) (f : LDst) (shifts : Bool) (e : VsEntry) : Done :=
  let x := getCore s c
  let val := fun t => entryValue x e t
  let w := allThreads.foldl (fun w t => raiseFlags (writeDst w t f (val t)) t (e.flags.getD t 0#6)) w
  let a := bindV x w (dstRegs f) (serialsOf e)
  let x := if shifts then onLane a.1 w.lane (fun l => shiftLatches l (allThreads.map (fun t => (t, latchOf f (val t))))) else a.1
  moved (putWeave (putCore s c x) c k a.2) [] 1

/-- The results of an executed lane instruction committed; `ins`: the key under which they are inserted, discarded when any thread
has a cause (R249) (DEDUCED, log entry 78). -/
def commitRuns (s : State) (c k : Nat) (w : Weave) (dst : LDst) (supp shifts : Bool) (occ : Nat) (ins : Option (List Nat))
    (rs : List Run) : Done :=
  let bad := rs.any (fun r => match r.res with | .error _ => true | .ok _ => false)
  let w := applyRuns w supp dst rs
  let s := if shifts then onCore s c (fun x => onLane x w.lane (fun l => shiftLatches l (latchRuns dst rs))) else s
  let regs := if supp then [] else dstRegs dst
  let done := fun (s : State) (w : Weave) (wv : List Nat) =>
    ({ s := putWeave s c k w, gs := runGroups rs, cycles := occ * rs.length, wv := wv, ws := [], wait := none } : Done)
  match ins with
  | none => done s w (if rs.any (fun r => match r.res with | .ok _ => true | .error _ => false) then regs else [])
  | some key =>
    let x := getCore s c
    let n := regs.length
    if bad then
      done (putCore s c { x with nextSerial := x.nextSerial + n }) (countL w 4) regs
    else
      let lv := launchOf s (.weave c k)
      let vals := rs.map (fun r => match r.res with | .ok (v, _) => v | .error _ => 0#64)
      let flags := rs.map (fun r => match r.res with | .ok (_, f) => f | .error _ => 0#6)
      let s0 := x.nextSerial
      let x := vsInsert x lv.1 lv.2 s.tick key (halvesOf (n == 2) vals) flags
      let a := bindV x w regs (if n = 2 then [s0, s0 + 1] else [s0])
      done (putCore s c a.1) a.2 []

/-- A looked-up miss that inserts nothing: its destination is untagged even where every thread trapped (R248, R249). -/
def untagMissed (d : Done) (regs : List Nat) : Done := { d with wv := regs }

/-- Whether no thread's source raised a cause: the FP traps are the result's own. -/
def sourcesOk (rs : List Run) : Bool := rs.all (fun r => match r.res with | .ok _ => true | .error c => 0x28 ≤ c)

/-- A lane form after its lookup: bound, or executed with its results `rs`, under the key it reserves (R247 to R249). -/
def laneFound (f : Found × State × Weave) (c k : Nat) (dst : LDst) (supp shifts : Bool) (occ : Nat) (rs : List Run) : Done :=
  match f with
  | (.hit v, s, w) => if sourcesOk rs then bindHit s c k w dst shifts v else commitRuns s c k w dst supp shifts occ none rs
  | (.insert key, s, w) => commitRuns s c k w dst supp shifts occ (some key) rs
  | (.miss, s, w) => untagMissed (commitRuns s c k w dst supp shifts occ none rs) (dstRegs dst)
  | (.off, s, w) => commitRuns s c k w dst supp shifts occ none rs

/-- Whether a register copy binds its source's entry without a lookup (R250). -/
def copyTags (w : Weave) (f : AluForm) : Option (List Nat) :=
  match f.a with
  | .src (.v n) wide .self _ _ =>
    let ts := if wide then [vtag w n.toNat, vtag w (n.toNat + 1)] else [vtag w n.toNat]
    if ts.all (· != 0) then some ts else none
  | _ => none

/-- The effect of a lane arithmetic form. `copy`: a `mov`, which binds (R250). A thread whose source raises a cause binds nothing and parks,
and the lookup takes place all the same (R244, R259) (DEDUCED, log entry 67). -/
def aluBody (f : AluForm) (copy : Bool) (s : State) (c k : Nat) (w : Weave) (e : Entry) (act : Mask) : Done :=
  let rm := resolve w.mode f.round
  let rs := (threadsOf act).map (runThread f (getCore s c) w rm)
  let shifts := shiftsHistory f.dst
  if lookable w e act f.supp f.key f.guard rm && shifts then
    match (if copy && sourcesOk rs then copyTags w f else none) with
    | some ts =>
      let d := commitRuns s c k (countL (countL w 0) 1) f.dst f.supp shifts f.occ none rs
      let s := onCore d.s c (fun x => countCore x 0x003 1)
      match getWeave s c k with
      | some w =>
        let a := bindV (getCore s c) w (dstRegs f.dst) ts
        { d with s := putWeave (putCore s c a.1) c k a.2, wv := [], cycles := 1 }
      | none => d
    | none =>
      let lv := launchOf s (.weave c k)
      let names := fun w => (aluNames w f).map (vsKey f.key [nbrOf f.a, nbrOf f.b, edgeCode f.edge] rm w.mode)
      laneFound (lookup s c k w lv.1 lv.2 (dstRegs f.dst).length names) c k f.dst f.supp shifts f.occ rs
  else commitRuns s c k w f.dst f.supp shifts f.occ none rs

/-- Whether a lane arithmetic form may stand in a chain (R48): the packed compares, of class 11 and not marked A, may not (R52). -/
def mayChain : LDst → Bool
  | .pred2 _ => false
  | _ => true

/-- The issue of a lane arithmetic form. -/
def laneAlu (f : AluForm) (copy : Bool) (s : State) : Out :=
  laneIssue s { size := f.size, chain := f.chain, elig := mayChain f.dst,
                regs := opdRegs f.a ++ opdRegs f.b ++ opdRegs f.c
                  ++ (match f.dst with | .reg d wide => [(d, if wide then 2 else 1)] | _ => []),
                guard := f.guard } (aluBody f copy)

/-! ## The shapes of the lane forms -/

/-- The types and properties that distinguish the forms of one shape. -/
structure FormTy where
  key : Nat
  td : OpTy
  ta : OpTy
  tb : OpTy
  occ : Nat
  draws : Nat
  traps : Bool
deriving DecidableEq, Repr, Inhabited

def plainOpd (x : LSrc) (t : OpTy) : Opd := .src x t.wide .self 0#64 0#28

def extNbrA : Ext → Nbr
  | .lit _ => .self
  | .mod m => m.na

def extNbrB : Ext → Nbr
  | .lit _ => .self
  | .mod m => m.nb

def extEdge : Ext → Edge
  | .lit _ => .zero
  | .mod m => m.edge

def extGuard : Ext → Guard
  | .lit _ => noGuard
  | .mod m => m.guard

def extRound : Ext → Round
  | .lit _ => .dflt
  | .mod m => m.round

def extOpdA (x : LSrc) (t : OpTy) (e : Ext) : Opd := .src x t.wide (extNbrA e) (litValue t (extPayload e)) (extPayload e)
def extOpdB (x : LSrc) (t : OpTy) (e : Ext) : Opd := .src x t.wide (extNbrB e) (litValue t (extPayload e)) (extPayload e)

def formR (y : FormTy) (fn : Fn) (f : LaneR) : AluForm :=
  { size := 4, supp := f.s, chain := f.c, dst := .reg f.d.toNat y.td.wide, a := plainOpd f.a y.ta, b := plainOpd f.b y.tb, c := .none,
    edge := .zero, guard := noGuard, round := .dflt, draws := y.draws, traps := y.traps, occ := y.occ, key := [y.key], fn := fn }

def formR1 (y : FormTy) (fn : Fn) (f : LaneR1) : AluForm :=
  { size := 4, supp := f.s, chain := f.c, dst := .reg f.d.toNat y.td.wide, a := plainOpd f.a y.ta, b := .none, c := .none,
    edge := .zero, guard := noGuard, round := .dflt, draws := y.draws, traps := y.traps, occ := y.occ, key := [y.key], fn := fn }

def formP (y : FormTy) (fn : Cond → Fn) (f : LaneP) : AluForm :=
  { size := 4, supp := false, chain := f.c, dst := .pred f.p.toNat, a := plainOpd f.a y.ta, b := plainOpd f.b y.tb, c := .none,
    edge := .zero, guard := noGuard, round := .dflt, draws := 0, traps := y.traps, occ := y.occ, key := [], fn := fn f.cond }

def formPlog (f : LanePlog) : AluForm :=
  { size := 4, supp := false, chain := f.c, dst := .pred f.p.toNat, a := .pred f.a, b := .pred f.b, c := .none,
    edge := .zero, guard := noGuard, round := .dflt, draws := 0, traps := false, occ := 1, key := [],
    fn := cmpFn (fun a b => plogBit f.t (a.getLsbD 0) (b.getLsbD 0)) }

def formX (y : FormTy) (fn : Fn) (f : LaneX) : AluForm :=
  { size := 8, supp := f.s, chain := f.c, dst := .reg f.d.toNat y.td.wide, a := extOpdA f.a y.ta f.ext, b := extOpdB f.b y.tb f.ext,
    c := .none, edge := extEdge f.ext, guard := extGuard f.ext, round := extRound f.ext, draws := y.draws, traps := y.traps,
    occ := y.occ, key := [y.key], fn := fn }

def formX1 (y : FormTy) (fn : Fn) (f : LaneX1) : AluForm :=
  { size := 8, supp := f.s, chain := f.c, dst := .reg f.d.toNat y.td.wide, a := extOpdA f.a y.ta f.ext, b := .none, c := .none,
    edge := extEdge f.ext, guard := extGuard f.ext, round := extRound f.ext, draws := y.draws, traps := y.traps, occ := y.occ,
    key := [y.key], fn := fn }

def formXP (y : FormTy) (fn : Cond → Fn) (f : LaneXP) : AluForm :=
  { size := 8, supp := false, chain := f.c, dst := .pred f.p.toNat, a := extOpdA f.a y.ta f.ext, b := extOpdB f.b y.tb f.ext,
    c := .none, edge := extEdge f.ext, guard := extGuard f.ext, round := extRound f.ext, draws := 0, traps := y.traps, occ := y.occ,
    key := [], fn := fn f.cond }

def formX3 (y : FormTy) (fn : Fn) (f : LaneX3) : AluForm :=
  { size := 8, supp := f.s, chain := f.c, dst := .reg f.d.toNat y.td.wide, a := .src f.a y.ta.wide f.m.na 0#64 0#28,
    b := .src f.b y.tb.wide f.m.nb 0#64 0#28, c := .src f.vc y.td.wide .self 0#64 0#28, edge := f.m.edge, guard := f.m.guard,
    round := f.m.round, draws := y.draws, traps := y.traps, occ := y.occ, key := [y.key], fn := fn }

/-- `sel` (R279): a where the predicate is 1, b where it is 0. -/
def formSel (y : FormTy) (f : LaneSel) : AluForm :=
  { size := 8, supp := f.s, chain := f.c, dst := .reg f.d.toNat y.td.wide, a := .src f.a y.ta.wide f.m.na 0#64 0#28,
    b := .src f.b y.tb.wide f.m.nb 0#64 0#28, c := .pred f.k, edge := f.m.edge, guard := f.m.guard, round := f.m.round, draws := 0,
    traps := false, occ := y.occ, key := [y.key], fn := fun _ a b c => (if c.getLsbD 0 then a else b, 0#6) }

/-- The payload of a conversion as it stands in a key (R245, R298). -/
def cvtKey (o : CvtOp) (r : Round) : List Nat :=
  let rc := match r with | .dflt => 0 | .rn => 1 | .rz => 2 | .ru => 3 | .rd => 4 | .rs => 5
  match o with
  | .std d x => [0, d.toNat, x.toNat, rc]
  | .toNarrow x code => [1, x.toNat, code.toNat, rc]
  | .fromNarrow d code => [2, d.toNat, code.toNat, rc]

/-- A conversion takes one draw per rounded element (R224). -/
def cvtDraws (o : CvtOp) : Nat := if cvtTyX2 o.dst then 2 else 1

/-- `cvt` (R298): the whole payload stands in the lineage key (R245). -/
def formCvt (key : Nat) (f : LaneCvt) : AluForm :=
  { size := 8, supp := f.s, chain := f.c, dst := .reg f.d.toNat (cvtTyWide f.op.dst), a := .src f.a (cvtTyWide f.op.src) .self 0#64 0#28,
    b := .none, c := .none, edge := .zero, guard := noGuard, round := f.round, draws := cvtDraws f.op, traps := true, occ := 1,
    key := key :: cvtKey f.op f.round, fn := rn1 (cvtOp f.op) }

/-- A packed compare (R35, R294). -/
def formP2 (fn : Fn) (p : BitVec 3) (a b : LSrc) : AluForm :=
  { size := 4, supp := false, chain := false, dst := .pred2 p.toNat, a := plainOpd a .h2, b := plainOpd b .h2, c := .none,
    edge := .zero, guard := noGuard, round := .dflt, draws := 0, traps := true, occ := 1, key := [], fn := fn }

/-- A compare that sets flags (R294). -/
def fcmpFn (f : Fmt) (c : Cond) : Fn := fun _ a b _ => (boolBits (fcmpT f c a b).1, (fcmpT f c a b).2)

def fcmpX2Fn (f : Fmt) (c : Cond) : Fn := fun _ a b _ =>
  let lo := fcmpT f c (half a 0) (half b 0)
  let hi := fcmpT f c (half a 1) (half b 1)
  ((if lo.1 then 1#64 else 0#64) ||| (if hi.1 then 2#64 else 0#64), lo.2 ||| hi.2)

/-! ## Uniform arithmetic forms -/

/-- Where a uniform form writes. -/
inductive UDest
  | reg (d : UDst) (wide : Bool)
  | pred (p : Nat)
deriving DecidableEq, Repr, Inhabited

/-- A uniform arithmetic form with its operands. -/
structure UAluForm where
  size : Nat
  chain : Bool
  dst : UDest
  a : UOpd
  b : UOpd
  c : UOpd
  guard : Guard
  round : Round
  draws : Nat
  traps : Bool
  key : List Nat
  fn : Fn

/-- The generator that a uniform form's rs rounding draws from (R443). -/
def uniGen (s : State) (a : Agent) (e : Entry) : Double :=
  match a with
  | .weave c k => match getWeave s c k with | some w => readGen w (lowest e.mask) | none => 1#64
  | _ => (getFile s a).gen

def putUniGen (s : State) (a : Agent) (e : Entry) (g : Double) : State :=
  match a with
  | .weave c k => onWeave s c k (fun w => writeGen w (lowest e.mask) g)
  | _ => putFile s a { getFile s a with gen := g }

/-- Flags raised by a uniform form: ORed into every active thread of a weave's entry, discarded elsewhere (R265). -/
def uniFlags (s : State) (a : Agent) (m : Mask) (f : Flags) : State :=
  match a with
  | .weave c k => onWeave s c k (fun w => (threadsOf m).foldl (fun w t => raiseFlags w t f) w)
  | _ => s

def udestRegs : UDest → List Nat
  | .reg d wide => udstRegs d wide
  | .pred _ => []

def writeUDest (s : State) (a : Agent) (m : Mask) (d : UDest) (v : Double) : State :=
  match d with
  | .reg d wide => writeUDst s a m d wide v
  | .pred p => putFile s a (writeQ (getFile s a) p (v.getLsbD 0))

/-- The value a uniform destination takes, as the value store keeps it. -/
def uniLookable (w : Weave) (e : Entry) (f : UAluForm) (rm : RMode) : Bool :=
  lookable w e e.mask false f.key f.guard rm && (match f.dst with | .reg (.s _) _ => true | _ => false)

def uniNames (w : Weave) (f : UAluForm) : Option (List Nat) := allNames [uopdName w f.a, uopdName w f.b, uopdName w f.c]

def uniCopyTags (w : Weave) (f : UAluForm) : Option (List Nat) :=
  match f.a with
  | .src (.s n) wide _ _ =>
    let ts := if wide then [stag w n.toNat, stag w (n.toNat + 1)] else [stag w n.toNat]
    if ts.all (· != 0) then some ts else none
  | _ => none

/-- A uniform result without lineage. -/
def uniPlain (s : State) (a : Agent) (e : Entry) (f : UAluForm) (y : Double × Flags) : Done :=
  let s := writeUDest (uniFlags s a e.mask y.2) a e.mask f.dst y.1
  { s := s, gs := [], cycles := 1, wv := [], ws := udestRegs f.dst, wait := none }

/-- A weave's uniform registers bound to entries. -/
def uniBind (s : State) (c k : Nat) (regs serials : List Nat) : State :=
  match getWeave s c k with
  | some w =>
    let a := bindS (getCore s c) w regs serials
    putWeave (putCore s c a.1) c k a.2
  | none => s

/-- A uniform result of a weave with lineage (R244 to R250). -/
def uniLineage (s : State) (c k : Nat) (w : Weave) (e : Entry) (f : UAluForm) (copy : Bool) (rm : RMode) (y : Double × Flags) : Done :=
  let a := Agent.weave c k
  let regs := udestRegs f.dst
  let wide := regs.length == 2
  match (if copy then uniCopyTags w f else none) with
  | some ts =>
    let s := onCore (putWeave s c k (countL (countL w 0) 1)) c (fun x => countCore x 0x003 1)
    let d := uniPlain s a e f y
    { d with s := uniBind d.s c k regs ts, ws := [] }
  | none =>
    let lv := launchOf s a
    let names := fun w => (uniNames w f).map (vsKey f.key [] rm w.mode)
    match lookup s c k w lv.1 lv.2 regs.length names with
    | (.hit v, s, w) =>
      let d := uniPlain (putWeave s c k w) a e f (entryValue (getCore s c) v 0, v.flags.getD 0 0#6)
      { d with s := uniBind d.s c k regs (serialsOf v), ws := [] }
    | (.insert key, s, w) =>
      let s := putWeave s c k w
      let x := getCore s c
      let s0 := x.nextSerial
      let s := putCore s c (vsInsert x lv.1 lv.2 s.tick key (halvesOf wide [y.1]) [y.2])
      let d := uniPlain s a e f y
      { d with s := uniBind d.s c k regs (if wide then [s0, s0 + 1] else [s0]), ws := [] }
    | (_, s, w) => uniPlain (putWeave s c k w) a e f y

/-- A uniform form of a weave that raises a cause parks the whole entry; it is looked up all the same, a reserved entry is discarded, and the
destination of a miss is untagged (R222, R244, R249). -/
def uniTrap (s : State) (c k : Nat) (w : Weave) (e : Entry) (f : UAluForm) (rm : RMode) (cause va : Nat) : Done :=
  let n := (udestRegs f.dst).length
  if uniLookable w e f rm then
    let lv := launchOf s (.weave c k)
    let names := fun w => (uniNames w f).map (vsKey f.key [] rm w.mode)
    match lookup s c k w lv.1 lv.2 n names with
    | (.insert _, s, w) =>
      let s := onCore s c (fun x => { x with nextSerial := x.nextSerial + n })
      { parkAll (putWeave s c k (countL w 4)) e.mask cause (BitVec.ofNat 64 va) with ws := udestRegs f.dst }
    | (.miss, s, w) => { parkAll (putWeave s c k w) e.mask cause (BitVec.ofNat 64 va) with ws := udestRegs f.dst }
    | (_, s, w) => parkAll (putWeave s c k w) e.mask cause (BitVec.ofNat 64 va)
  else parkAll s e.mask cause (BitVec.ofNat 64 va)

/-- A uniform form of any agent that raises a cause. -/
def uniFail (s : State) (a : Agent) (e : Entry) (f : UAluForm) (rm : RMode) (cause va : Nat) : Done :=
  match a with
  | .weave c k =>
    match getWeave s c k with
    | some w => uniTrap s c k w e f rm cause va
    | none => parkAll s e.mask cause (BitVec.ofNat 64 va)
  | _ => parkAll s e.mask cause (BitVec.ofNat 64 va)

/-- The effect of a uniform arithmetic form. -/
def uniAluBody (f : UAluForm) (copy : Bool) (s : State) (a : Agent) (e : Entry) : Done :=
  if readQ (getFile s a) f.guard.p.toNat == f.guard.pol then moved s [] 1
  else
    let file := getFile s a
    let rm := resolve file.mode f.round
    match gather [readUOpd s a f.a, readUOpd s a f.b, readUOpd s a f.c] with
    | .error cause => uniFail s a e f rm cause 0
    | .ok vs =>
      match takeDraws rm f.draws (uniGen s a e) with
      | (r, g) =>
        let s := if rm = .rs && f.draws != 0 then putUniGen s a e g else s
        let y := f.fn r (vs.getD 0 0#64) (vs.getD 1 0#64) (vs.getD 2 0#64)
        match a with
        | .weave c k =>
          match getWeave s c k with
          | some w =>
            match (if f.traps then fpTrap w.mode y.2 else none) with
            | some cause => uniTrap s c k w e f rm cause 0
            | none => if uniLookable w e f rm then uniLineage s c k w e f copy rm y else uniPlain s a e f y
          | none => uniPlain s a e f y
        | _ => uniPlain s a e f y

/-- Whether an operand reads a special that differs by placement (20 R402). -/
def placed : UOpd → Bool
  | .src (.sp .clk) _ _ _ => true
  | .src (.sp .nwv) _ _ _ => true
  | _ => false

/-- An operand with the value taken from the leading copy. -/
def setPlaced (o : UOpd) (v : Double) : UOpd :=
  match o with
  | .src (.sp .clk) wide _ _ => .val (if wide then v else (v.setWidth 32).setWidth 64)
  | .src (.sp .nwv) wide _ _ => .val (if wide then v else (v.setWidth 32).setWidth 64)
  | o => o

def placedValue (s : State) (a : Agent) (o : UOpd) : List (Nat × Double) :=
  match o with
  | .src (.sp .clk) _ _ _ => [(0, readSpecial s a .clk)]
  | .src (.sp .nwv) _ _ _ => [(0, readSpecial s a .nwv)]
  | _ => []

/-- A form of a paired agent that reads `$clk` or `$nwv` takes the leading copy's values (20 R402). -/
def uniPlaced (f : UAluForm) (copy : Bool) (s : State) (a : Agent) (e : Entry) : Done :=
  if isPaired s a && (placed f.a || placed f.b || placed f.c) then
    let with_ := fun (vals : List (Nat × Double)) =>
      let v := (vals.map (·.2))
      let j := if placed f.a then 1 else 0
      let j' := j + (if placed f.b then 1 else 0)
      { f with a := setPlaced f.a (v.getD 0 0#64), b := setPlaced f.b (v.getD j 0#64), c := setPlaced f.c (v.getD j' 0#64) }
    match takeValue s a e.pc (BitVec.allOnes 32) with
    | .own =>
      let vals := placedValue s a f.a ++ placedValue s a f.b ++ placedValue s a f.c
      uniAluBody (with_ vals) copy (giveValue s a e.pc vals) a e
    | .given vals s => uniAluBody (with_ vals) copy s a e
    | .wait => waits s (.waiting .pairOp)
    | .broken => moved (pairFail s a) [] 1
  else uniAluBody f copy s a e

/-- The issue of a uniform arithmetic form: anywhere (R28). -/
def uniAlu (f : UAluForm) (copy : Bool) (s : State) : Out :=
  uniIssue s { size := f.size, chain := f.chain, elig := true, place := .any } (uniPlaced f copy)

/-! ## The shapes of the uniform forms -/

def uplain (x : USrc) (t : OpTy) : UOpd := .src x t.wide 0#64 0#28

def uextOpd (x : USrc) (t : OpTy) (e : Ext) : UOpd := .src x t.wide (litValue t (extPayload e)) (extPayload e)

def uformR (y : FormTy) (fn : Fn) (f : UniR) : UAluForm :=
  { size := 4, chain := f.c, dst := .reg f.d y.td.wide, a := uplain f.a y.ta, b := uplain f.b y.tb, c := .none, guard := noGuard,
    round := .dflt, draws := y.draws, traps := y.traps, key := [y.key], fn := fn }

def uformR1 (y : FormTy) (fn : Fn) (f : UniR1) : UAluForm :=
  { size := 4, chain := f.c, dst := .reg f.d y.td.wide, a := uplain f.a y.ta, b := .none, c := .none, guard := noGuard,
    round := .dflt, draws := y.draws, traps := y.traps, key := [y.key], fn := fn }

def uformP (y : FormTy) (fn : Cond → Fn) (f : UniP) : UAluForm :=
  { size := 4, chain := f.c, dst := .pred f.p.toNat, a := uplain f.a y.ta, b := uplain f.b y.tb, c := .none, guard := noGuard,
    round := .dflt, draws := 0, traps := y.traps, key := [], fn := fn f.cond }

def uformPlog (f : UniPlog) : UAluForm :=
  { size := 4, chain := f.c, dst := .pred f.p.toNat, a := .pred f.a, b := .pred f.b, c := .none, guard := noGuard, round := .dflt,
    draws := 0, traps := false, key := [], fn := cmpFn (fun a b => plogBit f.t (a.getLsbD 0) (b.getLsbD 0)) }

def uformX (y : FormTy) (fn : Fn) (f : UniX) : UAluForm :=
  { size := 8, chain := f.c, dst := .reg f.d y.td.wide, a := uextOpd f.a y.ta f.ext, b := uextOpd f.b y.tb f.ext, c := .none,
    guard := extGuard f.ext, round := extRound f.ext, draws := y.draws, traps := y.traps, key := [y.key], fn := fn }

def uformX1 (y : FormTy) (fn : Fn) (f : UniX1) : UAluForm :=
  { size := 8, chain := f.c, dst := .reg f.d y.td.wide, a := uextOpd f.a y.ta f.ext, b := .none, c := .none,
    guard := extGuard f.ext, round := extRound f.ext, draws := y.draws, traps := y.traps, key := [y.key], fn := fn }

def uformXP (y : FormTy) (fn : Cond → Fn) (f : UniXP) : UAluForm :=
  { size := 8, chain := f.c, dst := .pred f.p.toNat, a := uextOpd f.a y.ta f.ext, b := uextOpd f.b y.tb f.ext, c := .none,
    guard := extGuard f.ext, round := extRound f.ext, draws := 0, traps := y.traps, key := [], fn := fn f.cond }

def uformX3 (y : FormTy) (fn : Fn) (f : UniX3) : UAluForm :=
  { size := 8, chain := f.c, dst := .reg f.d y.td.wide, a := uplain f.a y.ta, b := uplain f.b y.tb, c := uplain f.vc y.td,
    guard := f.m.guard, round := f.m.round, draws := y.draws, traps := y.traps, key := [y.key], fn := fn }

def uformSel (y : FormTy) (f : UniSel) : UAluForm :=
  { size := 8, chain := f.c, dst := .reg f.d y.td.wide, a := uplain f.a y.ta, b := uplain f.b y.tb, c := .pred f.k, guard := f.m.guard,
    round := f.m.round, draws := 0, traps := false, key := [y.key], fn := fun _ a b c => (if c.getLsbD 0 then a else b, 0#6) }

def uformCvt (key : Nat) (f : UniCvt) : UAluForm :=
  { size := 8, chain := f.c, dst := .reg f.d (cvtTyWide f.op.dst), a := .src f.a (cvtTyWide f.op.src) 0#64 0#28, b := .none, c := .none,
    guard := noGuard, round := f.round, draws := cvtDraws f.op, traps := true, key := key :: cvtKey f.op f.round, fn := rn1 (cvtOp f.op) }

end Sys2Proof.Machine
end

