-- ==== Sys2Proof/Machine/Cross.lean ====
section
/-!
DEFINITION. The lane class 11 forms that are not plain arithmetic: cross-thread operations (12 R306 to R310), `movs` (11 R280), the
hoop (12 R300 to R303), and the lineage instructions (10 R261, R262).
-/

namespace Sys2Proof.Machine

open Sys2Proof

/-! ## Results of a lane form thread by thread -/

/-- Words written to consecutive registers of a thread. -/
def writeWords (w : Weave) (t : Nat) : Nat → List Word → Weave
  | _, [] => w
  | d, x :: r => writeWords (writeV w t d x) t (d + 1) r

/-- What a lane form gives each active thread: words for consecutive registers, or a cause. -/
abbrev Words := List (Nat × Except Nat (List Word))

def okWords (rs : Words) : List (Nat × List Word) :=
  rs.filterMap (fun r => match r.2 with | .ok ws => some (r.1, ws) | .error _ => none)

def errGroups (rs : Words) : Groups :=
  rs.filterMap (fun r => match r.2 with | .error e => some (maskOf [r.1], .park e 0#64) | .ok _ => none)

/-- The results written to registers from d on, null-tagged; threads with a cause park. -/
def laneResults (s : State) (c k : Nat) (w : Weave) (d n : Nat) (rs : Words) : Done :=
  let ok := okWords rs
  { s := putWeave s c k (ok.foldl (fun w r => writeWords w r.1 d r.2) w), gs := errGroups rs, cycles := rs.length,
    wv := if ok.isEmpty then [] else (List.range n).map (d + ·), ws := [], wait := none }

/-- The same words for every active thread, or one cause for all of them. -/
def sameForAll (act : Mask) (r : Except Nat (List Word)) : Words := (threadsOf act).map (fun t => (t, r))

def word1 (x : Double) : List Word := [x.setWidth 32]

def word2 (x : Double) : List Word := [x.extractLsb' 0 32, x.extractLsb' 32 32]

/-- The lowest cause of a list of reads (R106). -/
def gatherWith {α : Type} (rs : List (Except Nat Double)) (f : List Double → Except Nat α) : Except Nat α :=
  match gather rs with
  | .ok vs => f vs
  | .error e => .error e

/-! ## Cross-thread operations -/

/-- The register of another thread, chosen by an index (R306). -/
def shufRead (x : Core) (w : Weave) (a : Nat) (b : LSrc) (t : Nat) : Except Nat (List Word) :=
  match readLSrc x w t b false 0#64 with
  | .error e =>
    .error e
  | .ok i =>
    match readReg x w (i.toNat % 32) a false with
    | .ok v => .ok (word1 v)
    | .error e => .error e

/-- SHUF (R306). -/
def execShuf (d a : BitVec 7) (b : LSrc) (s : State) : Out :=
  laneIssue s (oneWord ([(d.toNat, 1), (a.toNat, 1)] ++ lsrcRegs b 1)) (fun s c k w _ act =>
    laneResults s c k w d.toNat 1 ((threadsOf act).map (fun t => (t, shufRead (getCore s c) w a.toNat b t))))

/-- BCAST (R307). -/
def execBcast (d a : BitVec 7) (b : LSrc) (s : State) : Out :=
  laneIssue s (oneWord ([(d.toNat, 1), (a.toNat, 1)] ++ lsrcRegs b 1)) (fun s c k w _ act =>
    laneResults s c k w d.toNat 1 (sameForAll act (shufRead (getCore s c) w a.toNat b (lowest act))))

/-- A vote over the active threads (R308). -/
def voteOf (m : BitVec 2) (act ones : Mask) : Word :=
  match m.toNat with
  | 0 => ones
  | 1 => if ones != 0#32 then 1#32 else 0#32
  | 2 => if ones == act then 1#32 else 0#32
  | _ => if ones == act || ones == 0#32 then 1#32 else 0#32

/-- VOTE (R308). -/
def execVote (d : BitVec 7) (m : BitVec 2) (k : BitVec 3) (s : State) : Out :=
  laneIssue s (oneWord [(d.toNat, 1)]) (fun s c slot w _ act =>
    let ones := maskOf ((threadsOf act).filter (fun t => readP w t k.toNat))
    laneResults s c slot w d.toNat 1 (sameForAll act (.ok [voteOf m act ones])))

/-- One combine step of `red` (R309). -/
def redStep (o : Nat) (x a : Double) : Double × Flags :=
  let lo := fun (v : Double) => v.setWidth 32
  let w32 := fun (v : Word) => (v.setWidth 64, 0#6)
  match o with
  | 0 => w32 (lo x + lo a)
  | 1 => w32 (if (lo a).ult (lo x) then lo a else lo x)
  | 2 => w32 (if (lo a).slt (lo x) then lo a else lo x)
  | 3 => w32 (if (lo x).ult (lo a) then lo a else lo x)
  | 4 => w32 (if (lo x).slt (lo a) then lo a else lo x)
  | 5 => w32 (lo x &&& lo a)
  | 6 => w32 (lo x ||| lo a)
  | 7 => w32 (lo x ^^^ lo a)
  | 8 => faddT .f32 rnRnd x a
  | 9 => fminmaxT .f32 true x a
  | 10 => fminmaxT .f32 false x a
  | _ => (x + a, 0#6)

/-- The reduction in increasing thread index, from the value of the lowest thread (R309). -/
def redAll (o : Nat) : List Double → Double × Flags
  | [] => (0#64, 0#6)
  | v :: r => r.foldl (fun acc a => ((redStep o acc.1 a).1, acc.2 ||| (redStep o acc.1 a).2)) (v, 0#6)

/-- RED (R309). -/
def execRed (d a : BitVec 7) (o : BitVec 4) (s : State) : Out :=
  let wide := o.toNat = 11
  let n := if wide then 2 else 1
  laneIssue s (oneWord [(d.toNat, n), (a.toNat, n)]) (fun s c k w _ act =>
    match gather ((threadsOf act).map (fun t => readReg (getCore s c) w t a.toNat wide)) with
    | .error e => laneResults s c k w d.toNat n (sameForAll act (.error e))
    | .ok vs =>
      let y := redAll o.toNat vs
      match fpTrap w.mode y.2 with
      | some cause => laneResults s c k w d.toNat n (sameForAll act (.error cause))
      | none =>
        let w := (threadsOf act).foldl (fun w t => raiseFlags w t y.2) w
        laneResults s c k w d.toNat n (sameForAll act (.ok (if wide then word2 y.1 else word1 y.1))))

/-! ## movs -/

/-- The value `movs` gives a thread, with its generator afterwards (R280, R225). -/
def movsRun (s : State) (c k : Nat) (w : Weave) (a : USrc) (placed : Option Double) (t : Nat) : Run :=
  let plain := fun (v : Double) => ({ tid := t, gen := readGen w t, res := .ok ((v.setWidth 32).setWidth 64, 0#6) } : Run)
  match a with
  | .sp .flags => plain ((readFlags w t).setWidth 64)
  | .sp .rng =>
    let g := drawStep (readGen w t)
    { tid := t, gen := g, res := .ok ((drawOf g).setWidth 64, 0#6) }
  | a =>
    match placed with
    | some v => plain v
    | none =>
      match readUSrc s (.weave c k) a false 0#64 with
      | .ok v => plain v
      | .error e => { tid := t, gen := readGen w t, res := .error e }

/-- The effect of `movs` with the value of a special that differs by placement, where one was taken. -/
def movsBody (sup : Bool) (d : BitVec 7) (a : USrc) (placed : Option Double) (s : State) (c k : Nat) (w : Weave) (e : Entry)
    (act : Mask) : Done :=
  let dst := LDst.reg d.toNat false
  let rm := resolve w.mode .dflt
  let rs := (threadsOf act).map (movsRun s c k w a placed)
  if lookable w e act sup [220] noGuard rm then
    let lv := launchOf s (.weave c k)
    let names := fun w => (uopdName w (.src a false 0#64 0#28)).map (vsKey [220] [] rm w.mode)
    laneFound (lookup s c k w lv.1 lv.2 1 names) c k dst sup true 1 rs
  else commitRuns s c k w dst sup true 1 none rs

/-- MOVS (R280). A paired weave takes `$clk` and `$nwv` from the leading copy (20 R402). -/
def execMovs (sup ch : Bool) (d : BitVec 7) (a : USrc) (s : State) : Out :=
  laneIssue s { size := 4, chain := ch, elig := true, regs := [(d.toNat, 1)], guard := noGuard } (fun s c k w e act =>
    let ag := Agent.weave c k
    let again := fun (s : State) (v : Option Double) => match getWeave s c k with
      | some w => movsBody sup d a v s c k w e act
      | none => moved s [] 1
    if placed (.src a false 0#64 0#28) && isPaired s ag then
      match takeValue s ag e.pc (BitVec.allOnes 32) with
      | .own =>
        let vals := placedValue s ag (.src a false 0#64 0#28)
        again (giveValue s ag e.pc vals) (vals.head?.map (·.2))
      | .given vals s => again s (vals.head?.map (·.2))
      | .wait => waits s (.waiting .pairOp)
      | .broken => moved (pairFail s ag) [] 1
    else movsBody sup d a none s c k w e act)

/-! ## Lineage instructions -/

/-- LMODE (R261). -/
def execLmode (m : BitVec 2) (s : State) : Out :=
  laneIssue s (oneWord []) (fun s c k w _ act => moved (putWeave s c k { w with lmode := m }) [] (countOf act))

/-- A counter read that a paired weave takes from the leading copy (20 R402): the value, or a wait. -/
def counterRead (s : State) (c k : Nat) (e : Entry) (own : Double) (f : State → Double → Done) : Done :=
  let a := Agent.weave c k
  match takeValue s a e.pc (BitVec.allOnes 32) with
  | .own => f (giveValue s a e.pc [(0, own)]) own
  | .given vals s => f s ((vals.map (·.2)).getD 0 0#64)
  | .wait => waits s (.waiting .pairOp)
  | .broken => moved (pairFail s a) [] 1

/-- A 64-bit value for every active thread, null-tagged. -/
def allPair (s : State) (c k : Nat) (d : Nat) (act : Mask) (v : Double) : Done :=
  match getWeave s c k with
  | some w => laneResults s c k w d 2 (sameForAll act (.ok (word2 v)))
  | none => moved s [] 1

/-- LSTAT (R262). -/
def execLstat (d : BitVec 7) (clr : Bool) (i : BitVec 3) (s : State) : Out :=
  laneIssue s (oneWord [(d.toNat, 2)]) (fun s c k w e act =>
    counterRead s c k e (BitVec.ofNat 64 (sget 0 w.lstat i.toNat)) (fun s v =>
      let s := if clr then onWeave s c k (fun w => { w with lstat := [] }) else s
      allPair s c k d.toNat act v))

/-! ## The hoop -/

/-- The first register of a hoop. -/
def hoopReg (h : BitVec 3) : Nat := 16 * h.toNat

/-- The hoop of a thread, or POISON. -/
def readHoop (x : Core) (w : Weave) (t : Nat) (h : BitVec 3) : Except Nat Hoop :=
  gatherWith ((List.range 16).map (fun i => readReg x w t (hoopReg h + i) false))
    (fun vs => .ok (Hoop.ofWords (vs.map (fun v => v.setWidth 32))))

/-- The first hoop: W and both flags 0, with a base (R302). -/
def hclrRun (x : Core) (w : Weave) (a : LSrc) (k : BitVec 28) (t : Nat) : Except Nat (List Word) :=
  match readLSrc x w t a false (litValue .w32 k) with
  | .error e => .error e
  | .ok v =>
    let base := (v.setWidth 32 : Word).toInt
    if base < -32768 || 32767 < base then .error cBOUNDS
    else .ok (Hoop.words { w := 0, base := base, hi := false, lo := false })

/-- HCLR (R302). -/
def execHclr (h : BitVec 3) (a : LSrc) (k : BitVec 28) (s : State) : Out :=
  laneIssue s (twoWord ([(hoopReg h, 16)] ++ lsrcRegs a 1)) (fun s c slot w _ act =>
    laneResults s c slot w (hoopReg h) 16 ((threadsOf act).map (fun t => (t, hclrRun (getCore s c) w a k t))))

/-- The sum of a hoop with an exact product of FP64 sources (R302). -/
def haccRun (x : Core) (w : Weave) (h : BitVec 3) (n : Bool) (srcs : List LSrc) (t : Nat) : Except Nat (List Word) :=
  match readHoop x w t h, gather (srcs.map (fun a => readLSrc x w t a true 0#64)) with
  | .ok y, .ok vs => .ok (Hoop.words (y.accum n (vs.map (fval .f64))))
  | .ok _, .error e => .error e
  | .error e, .ok _ => .error e
  | .error e, .error e' => .error (min e e')

/-- The issue of an accumulating hoop form. -/
def haccIssue (size : Nat) (h : BitVec 3) (n : Bool) (srcs : List LSrc) (g : Guard) (s : State) : Out :=
  laneIssue s { size := size, chain := false, elig := false, regs := (hoopReg h, 16) :: srcs.flatMap (fun a => lsrcRegs a 2), guard := g }
    (fun s c k w _ act =>
      laneResults s c k w (hoopReg h) 16 ((threadsOf act).map (fun t => (t, haccRun (getCore s c) w h n srcs t))))

/-- HFMA (R302). -/
def execHfma (h : BitVec 3) (n : Bool) (a b : LSrc) (s : State) : Out := haccIssue 4 h n [a, b] noGuard s

/-- HFMA3 (R302). -/
def execHfma3 (h : BitVec 3) (n : Bool) (a b vc : LSrc) (g : Guard) (s : State) : Out := haccIssue 8 h n [a, b, vc] g s

/-- HADD (R302). -/
def execHadd (h : BitVec 3) (n : Bool) (a : LSrc) (s : State) : Out := haccIssue 4 h n [a] noGuard s

/-- HSGN (R303). -/
def execHsgn (d : BitVec 7) (h : BitVec 3) (p : BitVec 3) (s : State) : Out :=
  laneIssue s (oneWord [(d.toNat, 1), (hoopReg h, 16)]) (fun s c k w _ act =>
    let ys := (threadsOf act).map (fun t => (t, readHoop (getCore s c) w t h))
    let w' := ys.foldl (fun w y => match y.2 with | .ok z => writeP w y.1 p.toNat (!z.hi && !z.lo) | .error _ => w) w
    laneResults s c k w' d.toNat 1 (ys.map (fun y => (y.1, match y.2 with | .ok z => .ok [z.sign] | .error e => .error e))))

/-- HRND (R303): rounded by `$mode`, under rs with one draw. -/
def hrndRun (x : Core) (w : Weave) (h : BitVec 3) (rm : RMode) (t : Nat) : Run :=
  match readHoop x w t h with
  | .error e => { tid := t, gen := readGen w t, res := .error e }
  | .ok y =>
    match takeDraws rm 1 (readGen w t) with
    | (r, g) =>
      let z := y.round r
      match fpTrap w.mode z.2 with
      | some cause => { tid := t, gen := g, res := .error cause }
      | none => { tid := t, gen := g, res := .ok z }

def execHrnd (d : BitVec 7) (h : BitVec 3) (s : State) : Out :=
  laneIssue s (oneWord [(d.toNat, 2), (hoopReg h, 16)]) (fun s c k w _ act =>
    commitRuns s c k w (.reg d.toNat true) false false 1 none
      ((threadsOf act).map (hrndRun (getCore s c) w h (resolve w.mode .dflt))))

end Sys2Proof.Machine
end

