-- ==== Sys2Proof/Machine/Control.lean ====
section
/-!
DEFINITION. Control and synchronisation instructions (06 R126 to R145, R148 to R150; 04 R70 to R92): branches, calls and returns,
`switch`, ends of threads, waits, circles, regions, register scopes, wales and the decision queue.
-/

namespace Sys2Proof.Machine

open Sys2Proof

/-! ## Transfers (R126 to R131) -/

/-- The target of a format-B transfer: word offset from the first word (R126). -/
def branchTarget (e : Entry) (f : Branch) : Double := e.pc + (f.off.signExtend 64 <<< 2)

/-- The group of threads that goes to one place, landed by R129. -/
def landGroup (s : State) (a : Agent) (m : Mask) (pc : Double) (prio : Half) : Mask × Go :=
  (m, landing s (coreOf a) (agentVf s a) pc prio (isHandler a))

/-- Where each thread goes, or its cause. -/
abbrev Goes := List (Nat × Except Nat (Double × Half))

def goTargets (rs : Goes) : List (Double × Half) :=
  (rs.filterMap (fun r => match r.2 with | .ok x => some x | .error _ => none)).eraseDups

/-- One group per distinct target and priority (R67); threads with a cause park. -/
def goGroups (s : State) (a : Agent) (rs : Goes) : Groups :=
  (rs.filterMap (fun r => match r.2 with | .error e => some (maskOf [r.1], .park e 0#64) | .ok _ => none))
    ++ (goTargets rs).map (fun x => landGroup s a
      (maskOf ((rs.filter (fun r => match r.2 with | .ok y => y == x | .error _ => false)).map (·.1))) x.1 x.2)

/-- The threads that take a conditional transfer (R126). -/
def takenMask (w : Weave) (f : Branch) (act : Mask) : Mask := maskOf ((threadsOf act).filter (fun t => readP w t f.p.toNat != f.pol))

/-- BRA (R126). -/
def execBra (f : Branch) (s : State) : Out :=
  laneIssue s (twoWord []) (fun s c k w e act =>
    moved s [landGroup s (.weave c k) (takenMask w f act) (branchTarget e f) f.prio] (countOf act))

/-- The priority a call sets: 0xffff keeps the thread's own (R126). -/
def callPrio (e : Entry) (f : Branch) : Half := if f.prio = 0xffff#16 then e.prio else f.prio

/-- CALL (R126). -/
def execCall (f : Branch) (s : State) : Out :=
  laneIssue s (twoWord []) (fun s c k w e act =>
    let taken := takenMask w f act
    let w := (threadsOf taken).foldl (fun w t => writeVD w t 14 (e.pc + 8#64)) w
    let s := putWeave s c k w
    { moved s [landGroup s (.weave c k) taken (branchTarget e f) (callPrio e f)] (countOf act) with
      wv := if taken = 0#32 then [] else [14, 15] })

/-- BRX (R127): to the pair plus the signed displacement. -/
def execBrx (a b : LSrc) (p : BitVec 28) (s : State) : Out :=
  laneIssue s (twoWord (lsrcRegs a 2 ++ lsrcRegs b 1)) (fun s c k w e act =>
    let x := getCore s c
    let rs := (threadsOf act).map (fun t =>
      (t, gatherWith [readLSrc x w t a true 0#64, readLSrc x w t b false (litValue .w32 p)]
        (fun vs => .ok (vs.getD 0 0#64 + (((vs.getD 1 0#64).setWidth 32).signExtend 64), e.prio))))
    moved s (goGroups s (.weave c k) rs) (countOf act))

/-- RET (R128): a link of 0 raises RET_EMPTY. -/
def execRet (a : LSrc) (s : State) : Out :=
  laneIssue s (oneWord (lsrcRegs a 2)) (fun s c k w e act =>
    let x := getCore s c
    let rs := (threadsOf act).map (fun t =>
      (t, match readLSrc x w t a true 0#64 with
        | .error c => .error c
        | .ok v => if v = 0#64 then .error cRETEMPTY else .ok (v, e.prio)))
    moved s (goGroups s (.weave c k) rs) (countOf act))

/-- A record of a switch table (R130). -/
structure Case where
  imm : Word
  off : Word
  prio : Half
deriving DecidableEq, Repr, Inhabited

/-- Four words of a switch table read through the fetch path, with the caches afterwards. -/
def fetchFour (s : State) (c vf : Nat) (pc : Double) : Except Nat (List Word) × State :=
  (List.range 4).foldl (fun acc i =>
    match fetchWord acc.2 c vf (pc + BitVec.ofNat 64 (4 * i)).toNat false, acc.1 with
    | (.ok w, s), .ok ws => (.ok (ws ++ [w]), s)
    | (.ok _, s), .error e => (.error e, s)
    | (.error e, s), .ok _ => (.error e, s)
    | (.error e, s), .error e' => (.error (min e e'), s)) (.ok [], s)

/-- A record checked: its reserved field is 0, and the default's imm is 0 (R130). -/
def caseOf (ws : List Word) (last : Bool) : Except Nat Case :=
  let w := fun i => ws.getD i 0#32
  if (w 2).extractLsb' 16 16 != 0#16 || w 3 != 0#32 || (last && w 0 != 0#32) then .error cILLEGAL
  else .ok { imm := w 0, off := w 1, prio := (w 2).setWidth 16 }

/-- The records of a switch from its first word, the lowest cause with the address of its record, and the caches afterwards. -/
def readCases (s : State) (c vf : Nat) (pc : Double) (n : Nat) : Except (Nat × Double) (List Case) × State :=
  (List.range (n + 1)).foldl (fun acc i =>
    let addr := pc + BitVec.ofNat 64 (8 + 16 * i)
    match fetchFour acc.2 c vf addr with
    | (r, s) =>
      let y : Except Nat Case := match r with | .ok ws => caseOf ws (i == n) | .error e => .error e
      match y, acc.1 with
      | .ok x, .ok xs => (.ok (xs ++ [x]), s)
      | .ok _, .error e => (.error e, s)
      | .error e, .ok _ => (.error (e, addr), s)
      | .error e, .error e' => (.error (if e < e'.1 then (e, addr) else e'), s)) (.ok [], s)

/-- The record a value takes: the lowest equal case, else the default (R131). -/
def caseFor (cs : List Case) (n : Nat) (v : Word) : Case :=
  match (cs.take n).find? (fun x => x.imm == v) with
  | some x => x
  | none => cs.getD n default

/-- SWITCH (R131). -/
def execSwitch (a : LSrc) (n : BitVec 4) (s : State) : Out :=
  laneIssue s (twoWord (lsrcRegs a 1)) (fun s c k w e act =>
    match readCases s c (agentVf s (.weave c k)) e.pc n.toNat with
    | (.error (cause, addr), s) => parkAll s e.mask cause addr
    | (.ok cs, s) =>
      let x := getCore s c
      let rs := (threadsOf act).map (fun t =>
        (t, match readLSrc x w t a false 0#64 with
          | .error e => .error e
          | .ok v =>
            let y := caseFor cs n.toNat (v.setWidth 32)
            .ok (e.pc + ((y.off.signExtend 64 : Double) <<< 2), y.prio)))
      moved s (goGroups s (.weave c k) rs) (countOf act))

/-! ## Uniform transfers -/

/-- Where a uniform form may be issued: anywhere, one word or two. -/
def uniAny (size : Nat) : UniReq := { size := size, chain := false, elig := false, place := .any }

def uniAt (size : Nat) (p : Place) : UniReq := { size := size, chain := false, elig := false, place := p }

/-- The whole entry goes to one place. -/
def goAll (s : State) (a : Agent) (e : Entry) (pc : Double) (prio : Half) : Done := moved s [landGroup s a e.mask pc prio] 1

def takenUni (s : State) (a : Agent) (f : Branch) : Bool := readQ (getFile s a) f.p.toNat != f.pol

/-- S_BRA (R126). -/
def execSBra (f : Branch) (s : State) : Out :=
  uniIssue s (uniAny 8) (fun s a e => if takenUni s a f then goAll s a e (branchTarget e f) f.prio else moved s [] 1)

/-- S_CALL (R126). -/
def execSCall (f : Branch) (s : State) : Out :=
  uniIssue s (uniAny 8) (fun s a e =>
    if takenUni s a f then
      let s := putFile s a (writeSD (getFile s a) 62 (e.pc + 8#64))
      { goAll s a e (branchTarget e f) (callPrio e f) with ws := [62, 63] }
    else moved s [] 1)

/-- S_BRX (R127). -/
def execSBrx (a b : USrc) (p : BitVec 28) (s : State) : Out :=
  uniIssue s (uniAny 8) (fun s ag e =>
    match gather [readUSrc s ag a true 0#64, readUSrc s ag b false (litValue .w32 p)] with
    | .error c => parkAll s e.mask c 0#64
    | .ok vs => goAll s ag e (vs.getD 0 0#64 + (((vs.getD 1 0#64).setWidth 32).signExtend 64)) e.prio)

/-- S_RET (R128). -/
def execSRet (a : USrc) (s : State) : Out :=
  uniIssue s (uniAny 4) (fun s ag e =>
    match readUSrc s ag a true 0#64 with
    | .error c => parkAll s e.mask c 0#64
    | .ok v => if v = 0#64 then parkAll s e.mask cRETEMPTY 0#64 else goAll s ag e v e.prio)

/-- S_NOP (R150). -/
def execSNop (s : State) : Out := uniIssue s (uniAny 4) (fun s _ _ => moved s [] 1)

/-- S_EXIT (R134): ends the steer thread. -/
def execSExit (s : State) : Out := uniIssue s (uniAt 4 .steer) (fun s _ e => moved s [(e.mask, .gone)] 1)

/-! ## Breakpoints, traps, filler -/

/-- NOP (R150). -/
def execNop (s : State) : Out := laneIssue s (oneWord []) (fun s _ _ _ _ act => moved s [] (countOf act))

/-- BRK (R148): every active thread raises BRK. -/
def execBrk (s : State) : Out :=
  laneIssue s (oneWord []) (fun s _ _ _ _ act => moved s [(act, .park cBRK 0#64)] (countOf act))

/-- TRAP (R149): every active thread raises SOFT; the handler reads the number from the extension word. -/
def execTrap (_n : BitVec 16) (s : State) : Out :=
  laneIssue s (twoWord []) (fun s _ _ _ _ act => moved s [(act, .park cSOFT 0#64)] (countOf act))

/-! ## Ends of threads (R132, R133, R415) -/

/-- Whether a paired agent still has members or groups that are not matched. -/
def groupsLeft (s : State) (a : Agent) : Bool :=
  match pairOf s a with
  | some p => p.count != 0 || !p.closed.isEmpty
  | none => false

/-- Threads end, or, where they are the last of a paired weave with unmatched groups, wait (20 R415). -/
def endThreads (s : State) (c k : Nat) (live ending : Mask) (rest : Groups) (n : Nat) : Done :=
  let a := Agent.weave c k
  if groupStall s a && (match pairOf s a with | some p => p.count != 0 | none => false) then waits s (.waiting .slack)
  else
    let s := onPair s a endGroup
    if live &&& ~~~ending == 0#32 && groupsLeft s a then
      moved s (rest ++ [(ending, .hold (.waiting .pairExit))]) n
    else moved s (rest ++ [(ending, .gone)]) n

/-- EXIT (R132). -/
def execExit (s : State) : Out :=
  laneIssue s (oneWord []) (fun s c k w _ act => endThreads (closeFor s c k) c k (liveMask w) act [] (countOf act))

/-- Threads marked for restart at successor entry k; only those of the lowest k restart (04 R76). -/
def markRestart (r : Option (Nat × Mask)) (k : Nat) (t : Nat) : Option (Nat × Mask) :=
  match r with
  | none => some (k, maskOf [t])
  | some (k', m) => if k < k' then some (k, maskOf [t]) else if k = k' then some (k, m ||| maskOf [t]) else some (k', m)

/-- EXITTO (R133). -/
def execExitto (a : LSrc) (p : BitVec 28) (s : State) : Out :=
  laneIssue s (twoWord (lsrcRegs a 1)) (fun s c k w _ act =>
    let x := getCore s c
    let n := match agentLaunch s (.weave c k) with | some l => l.header.succents.length | none => 0
    let rs : List (Nat × Except Nat Nat) := (threadsOf act).map (fun t =>
      (t, match readLSrc x w t a false (litValue .w32 p) with
        | .error e => .error e
        | .ok v => if n ≤ (v.setWidth 32 : Word).toNat then .error cBOUNDS else .ok (v.setWidth 32 : Word).toNat))
    let parks := rs.filterMap (fun r => match r.2 with | .error e => some (maskOf [r.1], Go.park e 0#64) | .ok _ => none)
    let ends := rs.filterMap (fun r => match r.2 with | .ok i => some (r.1, i) | .error _ => none)
    let s := closeFor s c k
    let s := onWeave s c k (fun w => { w with restart := ends.foldl (fun r e => markRestart r e.2 e.1) w.restart })
    endThreads s c k (liveMask w) (maskOf (ends.map (·.1))) parks (countOf act))

/-! ## Waits (R135 to R137) -/

/-- Whether another entry of the weave has a lower prio (04 R72). -/
def lowerLeft (w : Weave) (e : Entry) : Bool := w.frontier.any (fun x => x.mask &&& e.mask == 0#32 && x.prio.toNat < e.prio.toNat)

/-- The entries that wait at the `rcb` at which an entry arrives (04 R72) (DEDUCED, log entry 38). -/
def rcbMates (w : Weave) (e : Entry) : List Entry :=
  w.frontier.filter (fun x => x.state == .atRcb && x.pc == e.pc && x.mask &&& e.mask == 0#32)

/-- RCB (R135; 04 R68, R72): the entry merges with those that wait there, and waits, or passes with them where no other entry
has a lower prio (DEDUCED, log entry 38). -/
def execRcb (s : State) : Out :=
  laneIssue s (oneWord []) (fun s c k w e act =>
    let mates := rcbMates w e
    let m := mates.foldl (fun m x => m ||| x.mask) e.mask
    let prio := mates.foldl (fun p x => if x.prio.toNat < p.toNat then x.prio else p) e.prio
    if lowerLeft w { e with mask := m, prio := prio } then moved s [(e.mask, .hold .atRcb)] (countOf act)
    else if mates.isEmpty then moved s [] (countOf act)
    else
      moved (onWeave s c k (fun w => { w with frontier := w.frontier.filter (fun x => !mates.contains x) })) [(m, .to (e.pc + 4#64) prio)]
        (countOf act))

/-- BAR (R136). A weave that re-executes passes barriers it passed before (20 R409). -/
def execBar (s : State) : Out :=
  laneIssue s (oneWord []) (fun s c k w e act =>
    afterFlow s (.weave c k) (fun s =>
      match takeLog s (.weave c k) with
      | .fresh => moved s [(e.mask, .hold (.atBar (currentCircle w)))] (countOf act)
      | .replay .barrier s => moved s [] (countOf act)
      | _ => moved (pairFail s (.weave c k)) [] 1))

/-- SLEEP (R137): for the count of the lowest active thread. -/
def execSleep (a : LSrc) (p : BitVec 28) (s : State) : Out :=
  laneIssue s (twoWord (lsrcRegs a 1)) (fun s c _ w e act =>
    match readLSrc (getCore s c) w (lowest act) a false (litValue .w32 p) with
    | .error cause => parkAll s e.mask cause 0#64
    | .ok v =>
      let n := (v.setWidth 32 : Word).toNat
      moved s [(e.mask, if n = 0 then .next else .sleepNext (coreCycles s c + n))] (countOf act))

/-! ## Circles (R138, R139) -/

/-- The joined circle of a tag. -/
def circleOf (x : Inst) (tag : Nat) : Option Circle := x.circles.find? (fun z => z.role.isNone && z.tag == tag)

/-- The bytes of the join pool in use. -/
def poolUsed (x : Inst) : Nat := (x.circles.filter (fun z => z.role.isNone)).foldl (fun a z => a + z.size) 0

/-- The first key of the instance's window where a region of a size fits beside the others. -/
def regionPlace (x : Inst) (size : Nat) : Nat :=
  let inPool := x.circles.filter (fun z => z.role.isNone)
  let clash := fun b => inPool.any (fun z => b < z.base + z.size && z.base < b + size)
  ((x.poolBase :: inPool.map (fun z => z.base + z.size)).find? (fun b => !clash b)).getD x.poolBase

/-- A circle created by `join`: its granules empty and zero (R78). -/
def createCircle (s : State) (c i tag size : Nat) : State :=
  match getInst s c i with
  | none => s
  | some x =>
    let base := regionPlace x size
    let z : Circle := { id := x.nextCircle, role := none, tag := tag, base := base, size := size, members := [] }
    let s := putInst s c i { x with circles := x.circles ++ [z], nextCircle := x.nextCircle + 1 }
    onCore s c (fun y => { y with
      cmem := skeep y.cmem (fun o => o < base || base + size ≤ o),
      full := y.full.filter (fun g => g * 16 < base || base + size ≤ g * 16),
      cbad := y.cbad.filter (fun g => g * 16 < base || base + size ≤ g * 16) })

/-- What a `join` does as things stand (R78, R138): it raises BOUNDS, waits for the pool, or is granted. -/
inductive JoinNow
  | bounds | wait | grant
deriving DecidableEq, Repr, Inhabited

def joinNow (x : Inst) (w : Weave) (tag size : Nat) : JoinNow :=
  if 4 ≤ w.circles.length || size = 0 || size % 16 != 0 then .bounds
  else
    match circleOf x tag with
    | some z => if z.size != size || 32 ≤ z.members.length then .bounds else .grant
    | none => if x.poolSize < poolUsed x + size then .wait else .grant

/-- A granted `join`: the circle exists, the weave is a member, and it is the current circle. -/
def grantJoin (s : State) (c k i tag size : Nat) : State :=
  let s := match (getInst s c i).bind (circleOf · tag) with | some _ => s | none => createCircle s c i tag size
  match (getInst s c i).bind (circleOf · tag) with
  | none => s
  | some z =>
    let s := joinCircle s c i k z.id
    let s := onWeave s c k (fun w => { w with circles := z.id :: w.circles })
    logOwn (settleBarriers s c i) (.weave c k) .join

/-- A `join` that is re-executed only stands on the weave's own stack (20 R409). -/
def replayJoin (s : State) (c k i tag : Nat) : State :=
  match (getInst s c i).bind (circleOf · tag) with
  | some z => onWeave s c k (fun w => { w with circles := z.id :: w.circles })
  | none => onWeave s c k (fun w => { w with circles := 0 :: w.circles })

/-- JOIN (R138) (DEDUCED, log entry 55). -/
def execJoin (a b : LSrc) (s : State) : Out :=
  laneIssue s (oneWord (lsrcRegs a 1 ++ lsrcRegs b 1)) (fun s c k w e act =>
    let x := getCore s c
    let t := lowest act
    match gather [readLSrc x w t a false 0#64, readLSrc x w t b false 0#64] with
    | .error cause => parkAll s e.mask cause 0#64
    | .ok vs =>
      let tag := ((vs.getD 0 0#64).setWidth 32 : Word).toNat
      let size := ((vs.getD 1 0#64).setWidth 32 : Word).toNat
      afterFlow s (.weave c k) (fun s =>
        match takeLog s (.weave c k) with
        | .replay .join s => moved (replayJoin s c k w.inst tag) [] (countOf act)
        | .replay _ s => moved (pairFail s (.weave c k)) [] 1
        | .broken => moved (pairFail s (.weave c k)) [] 1
        | .fresh =>
          match getInst s c w.inst with
          | none => moved s [] 1
          | some i =>
            match joinNow i w tag size with
            | .bounds => parkAll s e.mask cBOUNDS 0#64
            | .wait => waits s (.waiting (.join tag size))
            | .grant => moved (grantJoin s c k w.inst tag size) [] (countOf act)))

/-- The current circle popped; membership ends where the stack holds it no more (R79), and arrivals are seen again at the circle
that is current now (R80) (DESIGN CHOICE, log entry 75). -/
def popCircle (s : State) (c k : Nat) (w : Weave) (leave : Bool) : State :=
  match w.circles with
  | [] => s
  | z :: rest =>
    let s := onWeave s c k (fun w => { w with circles := rest })
    if leave && !rest.contains z then dissolve (settleBarriers (leaveCircle s c w.inst k z) c w.inst) c w.inst
    else settleBarriers s c w.inst

/-- LEAVE (R139). -/
def execLeave (s : State) : Out :=
  laneIssue s (oneWord []) (fun s c k w e act =>
    afterFlow s (.weave c k) (fun s =>
      if w.circles.length ≤ 1 then parkAll s e.mask cBOUNDS 0#64
      else moved (popCircle s c k w (!isReplaying s (.weave c k))) [] (countOf act)))

/-! ## Regions (R140) -/

/-- The region opens at an entry, provided it is the only one (05 R110). -/
def openRegion (w : Weave) (pc : Double) (e : Entry) : Weave :=
  if w.frontier.length = 1 then { w with region := some { pc := pc, prio := e.prio, mask := e.mask, stores := [] } }
  else countWeave w 0x101 1

/-- RGN_OPEN (R140): an open region closes first. -/
def execRgnOpen (s : State) : Out :=
  laneIssue s (oneWord []) (fun s c k _ e act =>
    moved (onWeave (closeFor s c k) c k (fun w => openRegion w (e.pc + 4#64) e)) [] (countOf act))

/-- RGN_CLOSE (R140). -/
def execRgnClose (s : State) : Out :=
  laneIssue s (oneWord []) (fun s c k _ _ act => afterFlow s (.weave c k) (fun s => moved s [] (countOf act)))

/-! ## Register scopes (R141; 04 R89 to R92) -/

def coreRegs : Nat := 8192

/-- The weave-registers in use on a core (01 R12). -/
def usedRegs (x : Core) : Nat := x.weaves.foldl (fun a e => a + e.2.allot) 0

/-- The age of a weave's request: local launch serial, instance, role, `$wid` (R91). -/
def ageOf (x : Core) (w : Weave) : Nat :=
  match sfind x.insts w.inst with
  | some i => ((i.serial * 2 ^ 32 + i.num) * 4 + w.role) * 32 + w.wid
  | none => 0

/-- The sizes that the scopes of a weave which wait ask for, in the frontier's order (DESIGN CHOICE, log entry 76). -/
def scopesWaiting (w : Weave) : List Nat := w.frontier.filterMap (fun e => match e.state with | .waiting (.grow n) => some n | _ => none)

/-- A weave's request to grow: of a `scope` that waits, or of a restart to a larger allotment (R76, R91) (DESIGN CHOICE, log entry 76). -/
def growOf (s : State) (x : Core) (w : Weave) : Option Nat :=
  match (scopesWaiting w).head? with
  | some n => some n
  | none =>
    match w.restart with
    | some (k, _) =>
      if w.frontier.isEmpty then
        match (sfind x.insts w.inst).bind (fun i => getLaunch s i.serial) with
        | some l =>
          match l.header.succents[k]? with
          | some e => if w.allot < e.allot then some (e.allot - w.allot) else none
          | none => none
        | none => none
      else none
    | none => none

/-- Whether an older request waits on the core. -/
def olderGrow (s : State) (c k age : Nat) : Bool :=
  let x := getCore s c
  x.weaves.any (fun e => e.1 != k && ageOf x e.2 < age && (growOf s x e.2).isSome)

/-- Whether a request for n registers is granted now: none older waits, and the registers are free. -/
def growNow (s : State) (c k : Nat) (w : Weave) (n : Nat) : Bool :=
  !olderGrow s c k (ageOf (getCore s c) w) && usedRegs (getCore s c) + n ≤ coreRegs

/-- The requests of a weave that wait for registers (R92). -/
def growsOf (s : State) (x : Core) (w : Weave) : List Nat := (growOf s x w).toList ++ scopesWaiting w

/-- The allotment enlarged; the new registers read as zero (R89). -/
def grantScope (s : State) (c k n : Nat) : State :=
  onWeave s c k (fun w => { w with allot := w.allot + n, scopes := n :: w.scopes, v := skeep w.v (fun i => i / 32 < w.allot) })

def roleOf (s : State) (c : Nat) (w : Weave) : Option RoleRec :=
  ((getInst s c w.inst).bind (fun i => getLaunch s i.serial)).bind (fun l => l.header.roles[w.role]?)

/-- Whether a `scope` of n registers breaks a limit of R89: its size, the depth of four, or the role's maximum scope size (DEDUCED, log entry 23). -/
def scopeBounds (s : State) (c : Nat) (w : Weave) (n : Nat) : Bool :=
  n = 0 || 4 ≤ w.scopes.length || (match roleOf s c w with | some r => r.scopeMax | none => 0) < w.scopes.sum + n

/-- SCOPE (R141): ILLEGAL_ENCODING for a count that is no multiple of 8, BOUNDS for the other breaches of R89 (DEDUCED, log entry 23). -/
def execScope (n : BitVec 28) (s : State) : Out :=
  laneIssue s (twoWord []) (fun s c k w e act =>
    let n := n.toNat
    if n % 8 != 0 then parkAll s e.mask cILLEGAL 0#64
    else
      afterFlow s (.weave c k) (fun s =>
        if scopeBounds s c w n then parkAll s e.mask cBOUNDS 0#64
        else if growNow s c k w n then moved (grantScope s c k n) [] (countOf act)
        else waits s (.waiting (.grow n))))

/-- The registers of the innermost scope returned: their values and bindings end (R90, 10 R251). -/
def endScope (s : State) (c k : Nat) (w : Weave) : State :=
  match w.scopes with
  | [] => s
  | n :: rest =>
    let low := w.allot - n
    let s := untag s c k ((List.range n).map (low + ·)) []
    onWeave s c k (fun w => { w with allot := low, scopes := rest, v := skeep w.v (fun i => i / 32 < low),
                                     vbad := w.vbad.filter (fun i => i / 32 < low) })

/-- ENDSCOPE (R141). -/
def execEndscope (s : State) : Out :=
  laneIssue s (oneWord []) (fun s c k w e act =>
    afterFlow s (.weave c k) (fun s =>
      if w.scopes.isEmpty then parkAll s e.mask cBOUNDS 0#64 else moved (endScope s c k w) [] (countOf act)))

/-! ## Wales (R143; 04 R84) -/

/-- The entries of weaves of a stage that wait as a test says, oldest first. -/
def stageWaits (x : Core) (inst role : Nat) (p : Wait → Bool) : List (Nat × Nat) :=
  x.weaves.flatMap (fun e =>
    if e.2.inst == inst && e.2.role == role then
      e.2.frontier.filterMap (fun y => match y.state with | .waiting v => if p v then some (y.parkedAt, e.1) else none | _ => none)
    else [])

def isWpush : Wait → Bool
  | .wpush _ => true
  | _ => false

def isWpop : Wait → Bool
  | .wpop _ _ => true
  | _ => false

def isDpop : Wait → Bool
  | .dpop _ _ => true
  | _ => false

/-- The roles of an instance's launch. -/
def rolesOf (s : State) (c i : Nat) : Nat :=
  match (getInst s c i).bind (fun x => getLaunch s x.serial) with | some l => l.header.roles.length | none => 0

def waleDepth (s : State) (c i wale : Nat) : Nat :=
  match (getInst s c i).bind (fun x => getLaunch s x.serial) with | some l => l.header.wdepth.getD wale 0 | none => 0

def waleOf (x : Inst) (i : Nat) : List (List Word) := x.wales.getD i []

/-- A wale replaced. -/
def setWale (s : State) (c i wale : Nat) (l : List (List Word)) : State := onInst s c i (fun x => { x with wales := x.wales.set wale l })

def waleFull (s : State) (c i wale : Nat) : Bool :=
  match getInst s c i with | some x => waleDepth s c i wale ≤ (waleOf x wale).length | none => true

def pushWale (s : State) (c i wale : Nat) (line : List Word) : State :=
  match getInst s c i with | some x => setWale s c i wale (waleOf x wale ++ [line]) | none => s

/-- WPUSH (R143): one record of all threads, appended whole or not at all. -/
def execWpush (a : LSrc) (s : State) : Out :=
  laneIssue s (oneWord (lsrcRegs a 1)) (fun s c k w e act =>
    afterFlow s (.weave c k) (fun s =>
      let last := rolesOf s c w.inst ≤ w.role + 1
      let x := getCore s c
      match gather ((threadsOf act).map (fun t => readLSrc x w t a false 0#64)) with
      | .error cause => parkAll s e.mask (if last then min cause cBOUNDS else cause) 0#64
      | .ok vs =>
        if last then parkAll s e.mask cBOUNDS 0#64
        else
          let vals := (threadsOf act).zip vs
          let line := allThreads.map (fun t => match vals.find? (fun v => v.1 == t) with | some v => v.2.setWidth 32 | none => 0#32)
          if isReplaying s (.weave c k) then moved s [] (countOf act)
          else if waleFull s c w.inst w.role || !(stageWaits x w.inst w.role isWpush).isEmpty then waits s (.waiting (.wpush line))
          else moved (pushWale s c w.inst w.role line) [] (countOf act)))

/-- What a `wpop` finds: a record, the end of the producing stage, or neither yet. -/
inductive PopNow
  | got (r : List Word) | ended | wait
deriving DecidableEq, Repr, Inhabited

def popNow (s : State) (c i role : Nat) : PopNow :=
  match getInst s c i with
  | none => .ended
  | some x =>
    match waleOf x (role - 1) with
    | r :: _ => .got r
    | [] => if stageCount (getCore s c) i (role - 1) = 0 then .ended else .wait

/-- The record, or zero, and the end predicate written for the threads of a mask (R84, R143). -/
def writePop (s : State) (c k : Nat) (act : Mask) (d : BitVec 7) (p : BitVec 3) (r : Option (List Word)) : State :=
  let val := fun t => match r with | some l => l.getD t 0#32 | none => 0#32
  let s := onWeave s c k (fun w => (threadsOf act).foldl (fun w t => writeP (writeV w t d.toNat (val t)) t p.toNat r.isSome) w)
  untag s c k [d.toNat] []

/-- A `wpop` performed: the record leaves the wale, and a paired weave logs what it took (20 R408). -/
def performPop (s : State) (c k : Nat) (w : Weave) (act : Mask) (d : BitVec 7) (p : BitVec 3) (n : PopNow) : State :=
  match n with
  | .got r =>
    let s := match getInst s c w.inst with
      | some x => setWale s c w.inst (w.role - 1) ((waleOf x (w.role - 1)).drop 1)
      | none => s
    writePop (logOwn s (.weave c k) (.wale (some r))) c k act d p (some r)
  | .ended => writePop (logOwn s (.weave c k) (.wale none)) c k act d p none
  | .wait => s

/-- WPOP (R143). -/
def execWpop (d : BitVec 7) (p : BitVec 3) (s : State) : Out :=
  laneIssue s (oneWord [(d.toNat, 1)]) (fun s c k w e act =>
    afterFlow s (.weave c k) (fun s =>
      if w.role = 0 then parkAll s e.mask cBOUNDS 0#64
      else
        match takeLog s (.weave c k) with
        | .replay (.wale r) s => moved (writePop s c k act d p r) [] (countOf act)
        | .replay _ s => moved (pairFail s (.weave c k)) [] 1
        | .broken => moved (pairFail s (.weave c k)) [] 1
        | .fresh =>
          match popNow s c w.inst w.role with
          | .wait => waits s (.waiting (.wpop d p))
          | n =>
            if !(stageWaits (getCore s c) w.inst w.role isWpop).isEmpty then waits s (.waiting (.wpop d p))
            else moved (performPop s c k w act d p n) [] (countOf act)))

/-! ## The decision queue (R144; 04 R86) -/

def queueDepth : Nat := 32

/-- An entry appended to an instance's decision queue; the steer thread's earlier stores enter the core order first (R144). -/
def appendDecision (s : State) (c i : Nat) (v : Double) : State :=
  onInst (drainAll s (.steer c i)) c i (fun x => { x with decisions := x.decisions ++ [v] })

def decisionsFull (s : State) (c i : Nat) : Bool := match getInst s c i with | some x => queueDepth ≤ x.decisions.length | none => true

/-- DPUSH (R144), by the steer thread. -/
def execDpush (a : USrc) (wide : Bool) (s : State) : Out :=
  uniIssue s (uniAt 4 .steer) (fun s ag e =>
    match readUSrc s ag a wide 0#64, ag with
    | .error cause, _ => parkAll s e.mask cause 0#64
    | .ok v, .steer c i =>
      afterFlow s ag (fun s =>
        if isReplaying s ag then moved s [] 1
        else if decisionsFull s c i then waits s (.waiting (.dpush v))
        else moved (appendDecision s c i v) [] 1)
    | .ok _, _ => moved s [] 1)

/-- What a `dpop` finds: an entry, all ones once the steer thread has ended, or nothing yet. -/
def decisionNow (s : State) (c i : Nat) : Option Double :=
  match getInst s c i with
  | none => some (BitVec.allOnes 64)
  | some x =>
    match x.decisions with
    | v :: _ => some v
    | [] => if x.steer.entry.isNone then some (BitVec.allOnes 64) else none

/-- A `dpop` performed for a weave: the entry leaves the queue, and a paired weave logs it (20 R408). -/
def takeDecision (s : State) (c k i : Nat) (act : Mask) (d : UDst) (wide : Bool) (v : Double) : State :=
  let s := onInst s c i (fun x => { x with decisions := x.decisions.drop 1 })
  let s := logOwn s (.weave c k) (.decision v)
  untag (writeUDst s (.weave c k) act d wide v) c k [] (udstRegs d wide)

def instWaits (x : Core) (inst : Nat) (p : Wait → Bool) : List (Nat × Nat) := (List.range 4).flatMap (fun r => stageWaits x inst r p)

/-- DPOP (R144), by weaves. -/
def execDpop (d : UDst) (wide : Bool) (s : State) : Out :=
  uniIssue s (uniAt 4 .weave) (fun s ag e =>
    match ag with
    | .weave c k =>
      afterFlow s ag (fun s =>
        match takeLog s ag with
        | .replay (.decision v) s => { moved (writeUDst s ag e.mask d wide v) [] 1 with ws := udstRegs d wide }
        | .replay _ s => moved (pairFail s ag) [] 1
        | .broken => moved (pairFail s ag) [] 1
        | .fresh =>
          let i := (agentInst s ag).getD 0
          match decisionNow s c i with
          | none => waits s (.waiting (.dpop d wide))
          | some v =>
            if !(instWaits (getCore s c) i isDpop).isEmpty then waits s (.waiting (.dpop d wide))
            else moved (takeDecision s c k i e.mask d wide v) [] 1)
    | _ => moved s [] 1)

/-! ## bucket (R145; 04 R87, R88) -/

/-- Whether a bucket entry's ranges hold every compared value. -/
def bucketHolds (b : Bucket) (vs : List Nat) : Bool :=
  (vs.zip b.ranges).all (fun p => p.2.1 ≤ p.1 && p.1 ≤ p.2.2)

/-- The index and the bounds of the first entry that holds the values (R87). -/
def bucketFor (bs : List Bucket) (vs : List Nat) : Word × List Word :=
  let same := vs.map (fun v => BitVec.ofNat 32 v)
  match bs.findIdx? (fun b => bucketHolds b vs) with
  | some i => (BitVec.ofNat 32 i, (((bs[i]?).map (·.bounds)).getD []).take vs.length)
  | none => (BitVec.allOnes 32, same)

/-- BUCKET (R145), by the steer thread: the index, the bounds, and the true-shape window. -/
def execBucket (d a : BitVec 6) (n : BitVec 2) (s : State) : Out :=
  uniIssue s (uniAt 8 .steer) (fun s ag e =>
    match gather ((List.range n.toNat).map (fun i => readSReg s ag (a.toNat + i) false)) with
    | .error cause => parkAll s e.mask cause 0#64
    | .ok vs =>
      let shapes := vs.map (fun v => (v.setWidth 32 : Word).toNat)
      let bs := match agentLaunch s ag with | some l => l.header.buckets | none => []
      let y := bucketFor bs shapes
      let bounds := (y.2 ++ List.replicate 3 (BitVec.allOnes 32)).take 3
      let f := (bounds.zip (List.range 3)).foldl (fun f p => writeS f (d.toNat + 1 + p.2) p.1) (writeS (getFile s ag) d.toNat y.1)
      let s := putFile s ag f
      match ag with
      | .steer c i => moved (onInst s c i (fun x => { x with window := shapes.map some })) [] 1
      | _ => moved s [] 1)

/-! ## yield (R142) -/

/-- YIELD (R142), by weaves: the region closes, and the entry waits until the weave is quiescent. -/
def execYield (s : State) : Out :=
  uniIssue s (uniAt 4 .weave) (fun s ag _ =>
    match ag with
    | .weave c k => waits (onPair (closeFor s c k) ag endGroup) (.waiting .yieldQ)
    | _ => moved s [] 1)

end Sys2Proof.Machine
end

