-- ==== Sys2Proof/Machine/Mem.lean ====
section
/-!
DEFINITION. What the memory instructions share (07 R153 to R165): effective addresses, the causes of an access (R154, R156, R160;
22 R419), sampling (22 R421, R422), the loads and stores of one thread, and how an agent's results and stores are kept until they
take effect.
-/

namespace Sys2Proof.Machine

open Sys2Proof

/-! ## Addresses (R157) -/

def lowWord (v : Double) : Word := v.setWidth 32

/-- Base plus sign-extended offset. -/
def globalAddr (vs : List Double) : Nat := (vs.getD 0 0#64 + (lowWord (vs.getD 1 0#64)).signExtend 64).toNat

/-- Base plus offset modulo 2^32 (DESIGN CHOICE, log entry 77). -/
def circleAddr (vs : List Double) : Nat := (lowWord (vs.getD 0 0#64) + lowWord (vs.getD 1 0#64)).toNat

/-- The address, or its cause, of each thread. -/
abbrev Addrs := List (Nat × Except Nat Nat)

def addrOf (circle : Bool) (vs : List Double) : Nat := if circle then circleAddr vs else globalAddr vs

/-- The addresses of a lane access. -/
def laneAddrs (x : Core) (w : Weave) (a b : LSrc) (circle : Bool) (act : Mask) : Addrs :=
  (threadsOf act).map (fun t =>
    (t, gatherWith [readLSrc x w t a (!circle) 0#64, readLSrc x w t b false 0#64] (fun vs => .ok (addrOf circle vs))))

/-- The address of a uniform access, under thread index 0. -/
def uniAddrs (s : State) (ag : Agent) (a b : USrc) (circle : Bool) : Addrs :=
  [(0, gatherWith [readUSrc s ag a (!circle) 0#64, readUSrc s ag b false 0#64] (fun vs => .ok (addrOf circle vs)))]

/-- The region of circle memory an agent addresses: a weave's current circle, a steer thread's role circle of role 0 (R177). -/
def circleWindow (s : State) (a : Agent) : Option Circle :=
  match (agentInst s a).bind (getInst s (coreOf a)), a with
  | some i, .weave c k =>
    match getWeave s c k with
    | some w => i.circles.find? (fun z => z.id == currentCircle w)
    | none => none
  | some i, .steer _ _ => i.circles.find? (fun z => z.role == some 0)
  | _, _ => none

/-! ## Causes of an access (R160) -/

/-- The lowest of some causes (05 R106) (DEDUCED, log entry 21). -/
def lowestCode : List Nat → Option Nat
  | [] => none
  | c :: r => match lowestCode r with | none => some c | some d => some (min c d)

/-- Whether the scope policy denies a scope (R156, 08 R215) (DEDUCED, log entry 26). -/
def scopeDenied (s : State) (a : Agent) (sc : Scope) : Bool :=
  let widest := ((getVf s (agentVf s a)).scope.setWidth 2 : BitVec 2).toNat
  match sc with
  | .dv => widest != 1 && widest != 2
  | .sy => widest != 2
  | _ => false

/-- Whether a byte lies in a spill area of a launch (04 R69; 07 R155): the lowest 256 bytes of the window of thread 0 of a weave. -/
def spillByte (l : Launch) (va : Nat) : Bool :=
  let step := 32 * l.header.privsz
  let off := (va + 2 ^ 64 - l.header.priv) % 2 ^ 64
  step != 0 && off % step < 256 && off / step / 128 < l.node.ninst && off / step % 128 < roleBase l.header l.header.roles.length

def inSpill (s : State) (a : Agent) (va n : Nat) : Bool :=
  match agentLaunch s a with
  | some l => spillByte l va || spillByte l (va + n - 1)
  | none => false

/-- Whether an access overlaps an enabled watchpoint of its mode; an atomic matches both (22 R419) (DEDUCED, log entry 25). -/
def watched (v : Vf) (acc : Acc) (va n : Nat) : Bool :=
  v.watch.any (fun w => w.enable
    && (match acc with | .load => w.load | .store => w.store | .atomic => w.load || w.store | .fetch => false)
    && va < w.addr.toNat + w.len && w.addr.toNat < va + n)

/-- The causes of a global access other than those of translation (DEDUCED, log entry 25) (DEDUCED, log entry 26). -/
def ownCauses (s : State) (a : Agent) (va n : Nat) (acc : Acc) (denied skip : Bool) : List Nat :=
  (if denied then [cSCOPE] else []) ++ (if va % n != 0 then [cALIGN] else [])
    ++ (if !isHandler a && inSpill s a va n then [cBOUNDS] else [])
    ++ (if !isHandler a && !skip && watched (getVf s (agentVf s a)) acc va n then [cWATCH] else [])

/-- A global access of a thread: its memory key, or its lowest cause, with the TLBs afterwards. -/
def globalSite (s : State) (a : Agent) (va n : Nat) (acc : Acc) (denied skip : Bool) : Except Nat Nat × State :=
  let own := ownCauses s a va n acc denied skip
  match translate s (coreOf a) (agentVf s a) va acc (isHandler a), lowestCode own with
  | (.ok k, s), none => (.ok k, s)
  | (.ok _, s), some e => (.error e, s)
  | (.error e, s), none => (.error e, s)
  | (.error e, s), some e' => (.error (min e e'), s)

/-- A circle access: the key of its first byte, or its cause. -/
def circleSite (z : Option Circle) (off n : Nat) (denied : Bool) : Except Nat Nat :=
  let inside := match z with | some z => decide (off + n ≤ z.size) | none => false
  match lowestCode ((if denied then [cSCOPE] else []) ++ (if off % n != 0 then [cALIGN] else []) ++ (if inside then [] else [cBOUNDS])) with
  | some e => .error e
  | none => .ok ((match z with | some z => z.base | none => 0) + off)

/-! ## Sampled requests (22 R421 to R423) -/

/-- The quantum exponent and the delay in µs of a counter policy (17 R368). -/
def quantum (v : Vf) : Nat := (v.cpol.extractLsb' 0 5).toNat
def policyDelay (v : Vf) : Nat := (v.cpol.extractLsb' 16 10).toNat

/-- The cycles of the nominal clock in a microsecond (01 R13) (DESIGN CHOICE, log entry 4). -/
def microsecond : Nat := 4000

def roundDown (n q : Nat) : Nat := n / 2 ^ q * 2 ^ q

/-- Where a request is served: 1 the L1, 2 the L2, 3 memory, 4 another device (22 R422) (DESIGN CHOICE, log entry 12). -/
def servedBy (s : State) (c k : Nat) : Nat :=
  if (sfind (getCore s c).l1 (k / 64)).isSome then 1
  else if (sfind (sliceOf s c) (k / 64)).isSome then 2
  else if k / 2 ^ 41 != s.device then 4 else 3

/-- The 64-byte trace message of a request (R422); the hop times are open, a hop not passed is 0 (DESIGN CHOICE, log entry 12). -/
def traceBytes (s : State) (a : Agent) (tid : Nat) (acc : Acc) (pc va served status : Nat) : List Byte :=
  let q := quantum (getVf s (agentVf s a))
  let time := fun (hop : Nat) (passed : Bool) => bytesLE 4 (if passed then roundDown (Config.hopTime s.tick hop) q else 0)
  let code := match acc with | .load => 1 | .store => 2 | .atomic => 3 | .fetch => 0
  bytesLE 1 3 ++ bytesLE 1 code ++ bytesLE 1 served ++ bytesLE 1 status ++ bytesLE 4 0 ++ bytesLE 16 (agentName s a tid).toNat
    ++ bytesLE 8 pc ++ bytesLE 8 va ++ time 0 true ++ time 1 (2 ≤ served) ++ time 2 (2 ≤ served) ++ time 3 (3 ≤ served)
    ++ time 4 (served == 3) ++ time 5 (served == 4)

/-- A trace message held until it is sent, at most 64 in a partition (R423). -/
def holdTrace (s : State) (p vf : Nat) (b : List Byte) : State :=
  if (getPart s p).traces.length < 64 then onPart s p (fun q => { q with traces := q.traces ++ [(vf, s.now + policyDelay (getVf s vf) * microsecond, b)] }) else mark s 0x305 1

/-- A request counted by its core, and sampled where its count is a multiple of 2^k (R421). -/
def countRequest (s : State) (a : Agent) (tid : Nat) (acc : Acc) (pc va : Nat) (r : Except Nat Nat) : State :=
  let c := coreOf a
  let n := (getCore s c).requests + 1
  let vf := agentVf s a
  let k := (getVf s vf).sampleExp
  let s := onCore s c (fun x => { x with requests := n })
  if k != 0 && n % 2 ^ k = 0 then
    holdTrace s (partOf c) vf (traceBytes s a tid acc pc va
      (match r with | .ok key => servedBy s c key | .error _ => 1) (match r with | .ok _ => 0 | .error _ => 1))
  else s

/-! ## Loads -/

def widthBytes : MemW → Nat
  | .n8 => 1
  | .i8 => 1
  | .n16 => 2
  | .i16 => 2
  | .b32 => 4
  | .b64 => 8

def widthCode : MemW → Nat
  | .n8 => 0
  | .i8 => 1
  | .n16 => 2
  | .i16 => 3
  | .b32 => 4
  | .b64 => 5

/-- The value of loaded bytes: sign-extended to 32 bits for the signed widths (03 R44). -/
def loadValue (w : MemW) (d : List Byte) : Double :=
  let n := natLE d
  match w with
  | .i8 => ((BitVec.ofNat 8 n).signExtend 32).setWidth 64
  | .i16 => ((BitVec.ofNat 16 n).signExtend 32).setWidth 64
  | _ => BitVec.ofNat 64 n

/-- What a load asks for. -/
structure LoadReq where
  circle : Bool
  width : MemW
  acq : Option Scope
  nl1 : Bool
  fe : FullEmpty
deriving DecidableEq, Repr, Inhabited

def plainLoad (circle : Bool) (w : MemW) : LoadReq := { circle := circle, width := w, acq := none, nl1 := false, fe := .none }

def qualLoad (circle : Bool) (q : Qual) : LoadReq :=
  { circle := circle, width := q.width, acq := (match q.order with | .acq => some q.scope | _ => none), nl1 := q.cache == .nl1, fe := q.fe }

/-- Whether pending stores of the issuer give every byte of a range (R159). -/
def coveredBy (l : List StoreReq) (circle : Bool) (k n : Nat) : Bool :=
  (List.range n).all (fun i => l.any (fun r => r.writes.any (fun t =>
    t.bits.isEmpty && t.circle == circle && t.key ≤ k + i && k + i < t.key + t.data.length)))

/-- The bytes a load of an agent reads at a memory key: its own pending stores, and memory for the rest (R159). -/
def loadBytes (s : State) (a : Agent) (k n : Nat) (nl1 : Bool) : Except Nat (List Byte) × State :=
  let own := pendingOf s a
  if coveredBy own false k n then (.ok (pendingOver own false k (List.replicate n 0#8)), s)
  else
    match loadGlobal s (coreOf a) (serialOf s a) k n nl1 with
    | (_, true, s) => (.error cPOISON, s)
    | (d, false, s) => (.ok (pendingOver own false k d), s)

/-- The bytes a load reads in circle memory. -/
def circleLoadBytes (s : State) (a : Agent) (k n : Nat) : Except Nat (List Byte) :=
  let own := pendingOf s a
  let x := getCore s (coreOf a)
  if circleBad x k n && !coveredBy own true k n then .error cPOISON else .ok (pendingOver own true k (circleBytes x k n))

/-- Per thread, the value a load gives or its cause. -/
abbrev Loaded := List (Nat × Except Nat Double)

/-- One thread's global load. -/
def loadGlobalOne (s : State) (a : Agent) (e : Entry) (q : LoadReq) (denied : Bool) (t va : Nat) : Except Nat Double × State :=
  let n := widthBytes q.width
  match globalSite s a va n .load denied (e.skipWatch.getLsbD t) with
  | (.error c, s) => (.error c, countRequest s a t .load e.pc.toNat va (.error c))
  | (.ok k, s) =>
    let s := countRequest s a t .load e.pc.toNat va (.ok k)
    match loadBytes s a k n q.nl1 with
    | (.error c, s) => (.error c, s)
    | (.ok d, s) => (.ok (loadValue q.width d), s)

/-- The loads of every thread, in increasing index. -/
def loadGlobals (s : State) (a : Agent) (e : Entry) (q : LoadReq) (denied : Bool) : Addrs → Loaded × State
  | [] => ([], s)
  | (t, .error c) :: r => match loadGlobals s a e q denied r with | (l, s) => ((t, .error c) :: l, s)
  | (t, .ok va) :: r =>
    match loadGlobalOne s a e q denied t va with
    | (v, s) => match loadGlobals s a e q denied r with | (l, s) => ((t, v) :: l, s)

/-- The loads of circle memory; `wb` is the width in bytes. -/
def loadCircles (s : State) (a : Agent) (w : MemW) (denied : Bool) (l : Addrs) : Loaded :=
  let z := circleWindow s a
  l.map (fun r => (r.1,
    match r.2 with
    | .error c => .error c
    | .ok off =>
      match circleSite z off (widthBytes w) denied with
      | .error c => .error c
      | .ok k => match circleLoadBytes s a k (widthBytes w) with | .error c => .error c | .ok d => .ok (loadValue w d)))

def okVals (l : Loaded) : List (Nat × Double) := l.filterMap (fun r => match r.2 with | .ok v => some (r.1, v) | .error _ => none)

/-- The groups of the threads with a cause; the address of the access stands beside it (18 R379). -/
def parkGroups (l : Loaded) (addrs : Addrs) : Groups :=
  l.filterMap (fun r => match r.2 with
    | .ok _ => none
    | .error c =>
      let va := match addrs.find? (fun a => a.1 == r.1) with | some (_, .ok va) => BitVec.ofNat 64 va | _ => 0#64
      some (maskOf [r.1], .park c va))

/-- The causes that a copy given its values by the other still raises itself. -/
def staticCauses (s : State) (a : Agent) (e : Entry) (n : Nat) (denied : Bool) (l : Addrs) : Loaded :=
  l.map (fun r => (r.1,
    match r.2 with
    | .error c => .error c
    | .ok va =>
      match lowestCode (ownCauses s a va n .load denied (e.skipWatch.getLsbD r.1)) with
      | some c => .error c
      | none => .ok 0#64))

/-- The values of some threads given by the other copy; the others wait for theirs. -/
def givenVals (st : Loaded) (vals : List (Nat × Double)) : Loaded × Mask :=
  (st.filterMap (fun r => match r.2 with
      | .error c => some (r.1, .error c)
      | .ok _ => (vals.find? (fun v => v.1 == r.1)).map (fun v => (r.1, .ok v.2))),
   maskOf (st.filterMap (fun r => match r.2 with
      | .error _ => none
      | .ok _ => if vals.any (fun v => v.1 == r.1) then none else some r.1)))

/-- What a load does before it reads: an acquire orders it after every earlier store of its agent, and at .pt or wider the lines held before
are dropped (R163, 08 R196, R199, R200). A full/empty load closes the region (R165). -/
def beforeLoad (s : State) (a : Agent) (q : LoadReq) : State :=
  let s := if q.acq.isSome || q.fe != .none then closeAgent s a else s
  match q.acq with
  | some sc => acquireAt s (coreOf a) sc
  | none => s

/-- What is read by a load: values and causes, threads that wait for the other copy, the state; or none, where the launch ended. -/
structure Read where
  vals : Loaded
  late : Mask
  s : State

inductive Reading
  | read (r : Read)
  | wait (s : State)
  | broken (s : State)

/-- A global load of an agent, of its own or with the leading copy's values (20 R402). -/
def readGlobal (s : State) (a : Agent) (e : Entry) (q : LoadReq) (act : Mask) (l : Addrs) : Reading :=
  let denied := match q.acq with | some sc => scopeDenied s a sc | none => false
  let s := beforeLoad s a q
  if act = 0#32 then .read { vals := [], late := 0#32, s := s }
  else
    match takeValue s a e.pc act with
    | .own =>
      match loadGlobals s a e q denied l with
      | (v, s) => .read { vals := v, late := 0#32, s := if (okVals v).isEmpty then s else giveValue s a e.pc (okVals v) }
    | .given vals s =>
      match givenVals (staticCauses s a e (widthBytes q.width) denied l) vals with
      | (v, late) => .read { vals := v, late := late, s := s }
    | .wait =>
      let st := staticCauses s a e (widthBytes q.width) denied l
      if st.all (fun r => match r.2 with | .error _ => true | .ok _ => false) then .read { vals := st, late := 0#32, s := s } else .wait s
    | .broken => .broken s

/-- A circle load of an agent: its own circle memory, or its log (20 R408). -/
def readCircle (s : State) (a : Agent) (q : LoadReq) (act : Mask) (l : Addrs) : Reading :=
  let denied := match q.acq with | some sc => scopeDenied s a sc | none => false
  let s := beforeLoad s a q
  if act = 0#32 then .read { vals := [], late := 0#32, s := s }
  else
    match takeLog s a with
    | .fresh =>
      let v := loadCircles s a q.width denied l
      .read { vals := v, late := 0#32, s := logOwn s a (.circle (okVals v)) }
    | .replay (.circle vals) s =>
      match givenVals (loadCircles s a q.width denied l) vals with
      | (v, late) => .read { vals := v, late := late, s := s }
    | .replay _ s => .broken s
    | .broken => .broken s

/-! ## Where results go (R62, R158) -/

/-- The words of a value for one thread's registers from d on. -/
def vWords (d : Nat) (wide : Bool) (t : Nat) (v : Double) : List (Nat × Word) :=
  (vkey t d, v.setWidth 32) :: (if wide then [(vkey t (d + 1), v.extractLsb' 32 32)] else [])

def sWords (d : Nat) (wide : Bool) (v : Double) : List (Nat × Word) :=
  (d, v.setWidth 32) :: (if wide then [(d + 1, v.extractLsb' 32 32)] else [])

/-- A result on its way to an agent's registers (R62) (DEDUCED, log entry 15). -/
def fly (s : State) (a : Agent) (r : Result) : State :=
  match a with
  | .weave c k => onWeave s c k (fun w => { w with inflight := w.inflight ++ [r] })
  | .steer c k => onInst s c k (fun i => { i with steer := { i.steer with inflight := i.steer.inflight ++ [r] } })
  | .handler c => onCore s c (fun x => { x with handler := { x.handler with inflight := x.handler.inflight ++ [r] } })

def regsFrom (d : Nat) (wide : Bool) : List Nat := if wide then [d, d + 1] else [d]

/-- Values on their way to the v registers of a weave's threads (DEDUCED, log entry 15). -/
def flyLane (s : State) (a : Agent) (d : Nat) (wide : Bool) (vals : List (Nat × Double)) : State :=
  if vals.isEmpty then s else fly s a { v := vals.flatMap (fun x => vWords d wide x.1 x.2), u := [], p := [] }

/-- A value on its way to a uniform destination; `$mode` and `$flags` are written at once. -/
def flyUni (s : State) (a : Agent) (m : Mask) (d : UDst) (wide : Bool) (v : Double) : State :=
  match d with
  | .s n => fly s a { v := [], u := sWords n.toNat wide v, p := [] }
  | d => writeUDst s a m d wide v

def isWide : MemW → Bool
  | .b64 => true
  | _ => false

/-- The end of a lane load. -/
def laneLoaded (a : Agent) (d : Nat) (w : MemW) (l : Addrs) : Reading → Done
  | .wait s => waits s (.waiting .pairOp)
  | .broken s => moved (pairFail s a) [] 1
  | .read r =>
    let vals := okVals r.vals
    { s := flyLane r.s a d (isWide w) vals, gs := parkGroups r.vals l ++ [(r.late, .hold (.waiting .pairOp))], cycles := l.length,
      wv := if vals.isEmpty then [] else regsFrom d (isWide w), ws := [], wait := none }

/-- The end of a uniform load. -/
def uniLoaded (a : Agent) (e : Entry) (d : UDst) (w : MemW) (l : Addrs) : Reading → Done
  | .wait s => waits s (.waiting .pairOp)
  | .broken s => moved (pairFail s a) [] 1
  | .read r =>
    match r.vals with
    | [(_, .ok v)] => { moved (flyUni r.s a e.mask d (isWide w) v) [] 1 with ws := udstRegs d (isWide w) }
    | [(_, .error c)] =>
      let va := match l with | (_, .ok va) :: _ => BitVec.ofNat 64 va | _ => 0#64
      parkAll r.s e.mask c va
    | _ => waits r.s (.waiting .pairOp)

/-! ## Full/empty loads (R164, R165) -/

def feGranules (r : FeLoad) : List Nat := (r.addrs.flatMap (fun a => granules a.2 (widthBytes r.width))).eraseDups

def feFull (x : Core) (r : FeLoad) : Bool := (feGranules r).all (nmem x.full)

/-- The `.fe` and `.fec` loads that wait on a core, each with its place in the order (DESIGN CHOICE, log entry 20). -/
def feWaiting (x : Core) : List (Nat × FeLoad) :=
  let of := fun (st : EntryState) => match st with | .waiting (.feLoad r) => some (r.seq, r) | _ => none
  x.weaves.flatMap (fun e => e.2.frontier.filterMap (fun y => of y.state))
    ++ x.insts.filterMap (fun e => e.2.steer.entry.bind (fun y => of y.state))
    ++ (match x.handler.wait with | some v => (of (.waiting v)).toList | none => [])

/-- Whether a load performs now: its granules are full, and no load that came before it takes one of them first (R165) (DESIGN CHOICE, log entry 20). -/
def feTurn (x : Core) (r : FeLoad) : Bool :=
  feFull x r && !(feWaiting x).any (fun o => o.1 < r.seq && feFull x o.2 && (feGranules o.2).any (fun g => (feGranules r).contains g))

/-- A full/empty load performed for a weave: read, and for `.fec` clear, in one step. -/
def performFe (s : State) (c k : Nat) (act : Mask) (r : FeLoad) : State × Groups :=
  let a := Agent.weave c k
  let n := widthBytes r.width
  let v : Loaded := r.addrs.map (fun t => (t.1, match circleLoadBytes s a t.2 n with | .error e => .error e | .ok d => .ok (loadValue r.width d)))
  let s := if r.clear then onCore s c (fun x => { x with full := neraseAll x.full (feGranules r) }) else s
  let s := logOwn s a (.circle (okVals v))
  match r.dst with
  | .uni d =>
    match v with
    | [(_, .ok y)] => (untag (flyUni s a act d (isWide r.width) y) c k [] (udstRegs d (isWide r.width)), [])
    | [(_, .error e)] => (s, [(act, .park e 0#64)])
    | _ => (s, [])
  | .lane d =>
    (untag (flyLane s a d (isWide r.width) (okVals v)) c k (if (okVals v).isEmpty then [] else regsFrom d (isWide r.width)) [],
     parkGroups v [])

/-- The sites of a full/empty load. -/
def feSites (s : State) (a : Agent) (q : LoadReq) (l : Addrs) : List (Nat × Except Nat Nat) :=
  let denied := match q.acq with | some sc => scopeDenied s a sc | none => false
  let z := circleWindow s a
  l.map (fun r => (r.1, match r.2 with | .error c => .error c | .ok off => circleSite z off (widthBytes q.width) denied))

/-- The issue of a full/empty load by a weave: its faulting threads park, the others perform, or wait at the instruction (DESIGN CHOICE, log entry 20). -/
def feIssue (s : State) (c k : Nat) (act : Mask) (dst : FeDst) (q : LoadReq) (l : Addrs) : Done :=
  let a := Agent.weave c k
  let uni := match dst with | .uni _ => true | .lane _ => false
  let s := beforeLoad s a q
  let sites := feSites s a q l
  let bad : Loaded := sites.map (fun r => (r.1, match r.2 with | .error e => .error e | .ok _ => .ok 0#64))
  let parks := if uni then (parkGroups bad []).map (fun g => (act, g.2)) else parkGroups bad []
  let r : FeLoad := { dst := dst, width := q.width, clear := q.fe == .fec,
                      addrs := sites.filterMap (fun r => match r.2 with | .ok k => some (r.1, k) | .error _ => none), seq := s.seq }
  if r.addrs.isEmpty then moved s parks (max 1 l.length)
  else
    match takeLog s a with
    | .replay (.circle vals) s =>
      match dst with
      | .uni d =>
        { moved (flyUni s a act d (isWide q.width) ((vals.map (·.2)).getD 0 0#64)) parks 1 with ws := udstRegs d (isWide q.width) }
      | .lane d => { moved (flyLane s a d (isWide q.width) vals) parks (max 1 l.length) with wv := regsFrom d (isWide q.width) }
    | .replay _ s => moved (pairFail s a) [] 1
    | .broken => moved (pairFail s a) [] 1
    | .fresh =>
      if feTurn (getCore s c) r then
        match performFe s c k act r with
        | (s, gs) => moved s (parks ++ gs) (max 1 l.length)
      else
        let m := if uni then act else maskOf (r.addrs.map (·.1))
        moved s (parks ++ [(m, .hold (.waiting (.feLoad r)))]) (max 1 l.length)

/-- A full/empty load of a steer thread or the handler slot performed: read, and for `.fec` clear, in one step; a re-execution clears nothing. -/
def feTake (s : State) (a : Agent) (e : Entry) (q : LoadReq) (r : FeLoad) (d : UDst) (l : Addrs) : Done :=
  let y := uniLoaded a e d q.width l (readCircle s a q 1#32 l)
  if r.clear && !isReplaying s a then
    { y with s := onCore y.s (coreOf a) (fun x => { x with full := neraseAll x.full (feGranules r) }) }
  else y

/-- The issue of a full/empty load by a steer thread or the handler slot: it performs, or waits at the instruction in its place in the order
(R164, R165) (DESIGN CHOICE, log entry 20). -/
def feAlone (s : State) (a : Agent) (e : Entry) (d : UDst) (q : LoadReq) (l : Addrs) : Done :=
  let s := beforeLoad s a q
  match feSites s a q l with
  | [(_, .ok k)] =>
    let r : FeLoad := { dst := .uni d, width := q.width, clear := q.fe == .fec, addrs := [(0, k)], seq := s.seq }
    if isReplaying s a || feTurn (getCore s (coreOf a)) r then feTake s a e q r d l else waits s (.waiting (.feLoad r))
  | _ => uniLoaded a e d q.width l (readCircle s a q 1#32 l)

/-! ## Stores -/

/-- What a store asks for. -/
structure StoreQ where
  circle : Bool
  width : MemW
  rel : Option Scope
  through : Bool
  sf : Bool
  ord : Nat
deriving DecidableEq, Repr, Inhabited

def scopeCode : Scope → Nat
  | .th => 0
  | .wv => 1
  | .cl => 2
  | .co => 3
  | .pt => 4
  | .tn => 5
  | .dv => 6
  | .sy => 7

def plainStore (circle : Bool) (w : MemW) : StoreQ := { circle := circle, width := w, rel := none, through := false, sf := false, ord := 0 }

def qualStore (circle : Bool) (q : Qual) : StoreQ :=
  { circle := circle, width := q.width, rel := (match q.order with | .rel => some q.scope | _ => none), through := q.cache == .nl1,
    sf := q.fe != .none, ord := (match q.order with | .none => 0 | .acq => 8 | .rel => 16) + scopeCode q.scope }

/-- The data of each thread, or its cause. -/
abbrev Datas := List (Nat × Except Nat Double)

/-- One thread's store checked: what it will write, or its cause. -/
def storeSite (s : State) (a : Agent) (e : Entry) (q : StoreQ) (denied : Bool) (t : Nat) (addr data : Except Nat Double) :
    Except Nat ThreadStore × State :=
  let n := widthBytes q.width
  match addr, data with
  | .error x, .error y => (.error (min x y), s)
  | .error x, .ok _ => (.error x, s)
  | .ok _, .error y => (.error y, s)
  | .ok va, .ok v =>
    if q.circle then
      match circleSite (circleWindow s a) va.toNat n denied with
      | .error c => (.error c, s)
      | .ok k => (.ok { circle := true, va := va.toNat, key := k, data := bytesLE n v.toNat, full := q.sf, bits := [] }, s)
    else
      match globalSite s a va.toNat n .store denied (e.skipWatch.getLsbD t) with
      | (.error c, s) => (.error c, countRequest s a t .store e.pc.toNat va.toNat (.error c))
      | (.ok k, s) =>
        (.ok { circle := false, va := va.toNat, key := k, data := bytesLE n v.toNat, full := false, bits := [] },
         countRequest s a t .store e.pc.toNat va.toNat (.ok k))

/-- The stores of every thread checked, in increasing index. -/
def storeSites (s : State) (a : Agent) (e : Entry) (q : StoreQ) (denied : Bool) : List (Nat × Except Nat Nat × Except Nat Double) →
    List (Nat × Except Nat ThreadStore) × State
  | [] => ([], s)
  | (t, va, d) :: r =>
    match storeSite s a e q denied t (match va with | .ok n => .ok (BitVec.ofNat 64 n) | .error c => .error c) d with
    | (x, s) => match storeSites s a e q denied r with | (l, s) => ((t, x) :: l, s)

def okStores (l : List (Nat × Except Nat ThreadStore)) : List ThreadStore :=
  l.filterMap (fun r => match r.2 with | .ok t => some t | .error _ => none)

/-- A store instruction's thread writes, with the mask of the threads that store. -/
def storeReq (q : StoreQ) (l : List (Nat × Except Nat ThreadStore)) : StoreReq :=
  { writes := okStores l, rel := q.rel, through := q.through, width := widthCode q.width, ord := q.ord,
    mask := maskOf (l.filterMap (fun r => match r.2 with | .ok _ => some r.1 | .error _ => none)) }

/-- Whether a store's agent must wait: its queue is full (R159), or its group would pass the slack (20 R405) (DEDUCED, log entry 19). -/
def storeWait (s : State) (a : Agent) (q : StoreQ) : Option Wait :=
  match pairOf s a with
  | some p =>
    if !q.circle && (q.rel.isSome || 7 ≤ p.count) && groupStall s a then some .slack
    else if q.sf && 0 < p.count && groupStall s a then some .slack
    else if q.circle && 64 ≤ (queueOf s a).length then some .storeq
    else none
  | none => if isHandler a then none else if 64 ≤ (queueOf s a).length then some .storeq else none

/-- Whether a store goes to the open region of a weave (05 R110). -/
def buffers (s : State) (a : Agent) (q : StoreQ) (n : Nat) : Bool :=
  match a with
  | .weave c k =>
    match (getWeave s c k).bind (·.region) with
    | some r => q.rel.isNone && !q.sf && regionCount r + n ≤ 256
    | none => false
  | _ => false

/-- A store instruction kept in the open region. -/
def bufferStore (w : Weave) (r : StoreReq) : Weave :=
  { w with region := w.region.map (fun g => { g with stores := g.stores ++ [r] }) }

/-- A store instruction enters its agent's queue, or a paired agent's group (R159, 20 R403). -/
def enterFor (s : State) (a : Agent) (r : StoreReq) : State :=
  match a with
  | .weave c k => onWeave s c k (fun w => enterStore w r)
  | .steer c k => onInst s c k (fun i =>
      match i.steer.pair with
      | some p =>
        if r.writes.any (fun t => t.circle) then
          { i with steer := { i.steer with pair := some (circleStore p i.steer.storeq r).1, storeq := (circleStore p i.steer.storeq r).2 } }
        else { i with steer := { i.steer with pair := some (addMember p (storeMember r) (.stores r) r.rel.isSome) } }
      | none => { i with steer := { i.steer with storeq := i.steer.storeq ++ [r] } })
  | .handler c => onCore s c (fun x => { x with handler := { x.handler with storeq := x.handler.storeq ++ [r] } })

/-- A store instruction of an agent: the causes of its threads, then the region or the queue. -/
def storeAll (s : State) (a : Agent) (e : Entry) (q : StoreQ) (l : List (Nat × Except Nat Nat × Except Nat Double)) :
    Except (Wait × State) (List (Nat × Except Nat ThreadStore) × State) :=
  let denied := match q.rel with | some sc => scopeDenied s a sc | none => false
  let buf := buffers s a q l.length
  let s := if buf then s else match a with | .weave c k => (if ((getWeave s c k).bind (·.region)).isSome then closeFor s c k else s) | _ => s
  match (if buf then none else storeWait s a q) with
  | some w => .error (w, s)
  | none =>
    match storeSites s a e q denied l with
    | (r, s) =>
      let req := storeReq q r
      let s :=
        if req.writes.isEmpty then s
        else if buf then (match a with | .weave c k => onWeave s c k (fun w => bufferStore w req) | _ => s)
        else enterFor s a req
      .ok (r, s)

def storeParks (l : List (Nat × Except Nat ThreadStore)) (addrs : Addrs) : Groups :=
  parkGroups (l.map (fun r => (r.1, match r.2 with | .ok _ => .ok 0#64 | .error c => .error c))) addrs

/-! ## The issue of plain and qualified accesses -/

/-- A load that is an acquire or full/empty-qualified follows the agent's earlier stores (08 R196); a plain one does not. -/
def loadFlow (s : State) (a : Agent) (q : LoadReq) (k : State → Done) : Done :=
  if q.acq.isSome || q.fe != .none then afterFlow s a k else k s

/-- A lane load (R158, R163, R164). -/
def laneLoad (f : LaneLd) (q : LoadReq) (size : Nat) (s : State) : Out :=
  let n := if isWide q.width then 2 else 1
  laneIssue s { size := size, chain := false, elig := false, guard := noGuard,
                regs := [(f.d.toNat, n)] ++ lsrcRegs f.a (if q.circle then 1 else 2) ++ lsrcRegs f.b 1 } (fun s c k w e act =>
    let a := Agent.weave c k
    let l := laneAddrs (getCore s c) w f.a f.b q.circle act
    loadFlow s a q (fun s =>
      if q.fe != .none then feIssue s c k act (.lane f.d.toNat) q l
      else laneLoaded a f.d.toNat q.width l (if q.circle then readCircle s a q act l else readGlobal s a e q act l)))

/-- A uniform load. -/
def uniLoad (f : UniLd) (q : LoadReq) (size : Nat) (s : State) : Out :=
  uniIssue s (uniAny size) (fun s a e =>
    let l := uniAddrs s a f.a f.b q.circle
    loadFlow s a q (fun s =>
      if q.fe != .none then
        match a with
        | .weave c k => feIssue s c k e.mask (.uni f.d) q l
        | a => feAlone s a e f.d q l
      else uniLoaded a e f.d q.width l (if q.circle then readCircle s a q 1#32 l else readGlobal s a e q 1#32 l)))

/-- A lane store (R158, R163, R164). -/
def laneStore (f : LaneSt) (q : StoreQ) (size : Nat) (s : State) : Out :=
  let wide := isWide q.width
  laneIssue s { size := size, chain := false, elig := false, guard := noGuard,
                regs := lsrcRegs f.t (if wide then 2 else 1) ++ lsrcRegs f.a (if q.circle then 1 else 2) ++ lsrcRegs f.b 1 }
    (fun s c k w e act =>
      let l := laneAddrs (getCore s c) w f.a f.b q.circle act
      let x := getCore s c
      match storeAll s (.weave c k) e q (l.map (fun r => (r.1, r.2, readLSrc x w r.1 f.t wide 0#64))) with
      | .error (w, s) => waits s (.waiting w)
      | .ok (r, s) => moved s (storeParks r l) (countOf act))

/-- A uniform store. -/
def uniStore (f : UniSt) (q : StoreQ) (size : Nat) (s : State) : Out :=
  uniIssue s (uniAny size) (fun s a e =>
    let l := uniAddrs s a f.a f.b q.circle
    match storeAll s a e q (l.map (fun r => (r.1, r.2, readUSrc s a f.t (isWide q.width) 0#64))) with
    | .error (w, s) => waits s (.waiting w)
    | .ok (r, s) => moved s ((storeParks r l).map (fun g => (e.mask, g.2))) 1)

end Sys2Proof.Machine
end

