-- ==== Sys2Proof/Machine/Atomics.lean ====
section
/-!
DEFINITION. Atomics (07 R169 to R171), fences (R172), and the skein allocator (R173 to R176), with their part in store groups
(20 R403 to R405).
-/

namespace Sys2Proof.Machine

open Sys2Proof

/-! ## Once-performed members of a paired agent -/

/-- Whether the next member that stands alone belongs to the part a copy re-executes (20 R409). -/
def memberReplays (s : State) (a : Agent) : Bool :=
  match pairOf s a with
  | some p => let p := endGroup p; p.upTo != 0 && p.num < p.upTo
  | none => false

/-- The instruction whose results come once for both copies: it joins its group, and takes its values from the log while it is
re-executed, or waits until the group is performed. -/
inductive Once
  | given (vals : List (Nat × Double)) (s : State)
  | wait (st : EntryState) (s : State)
  | stall
  | broken
deriving Repr, Inhabited

def joinOnce (s : State) (a : Agent) (pc : Double) (act : Mask) (bytes : List Byte) (op : PairOp) : Once :=
  if groupStall s a then .stall
  else if memberReplays s a then
    match takeValue s a pc act with
    | .given vals s => .given vals (joinGroup s a bytes op)
    | _ => .broken
  else
    let s := joinGroup s a bytes op
    .wait (onceWait s a) s

/-! ## Atomic operations (R171) -/

def atomWide : AtomTy → Bool
  | .n32 => false
  | .i32 => false
  | .f32 => false
  | _ => true

def atomBytes (ty : AtomTy) : Nat := if atomWide ty then 8 else 4

/-- The order of two values of a type. -/
def atomLess (ty : AtomTy) (x y : Double) : Bool :=
  match ty with
  | .n32 => (lowWord x).ult (lowWord y)
  | .i32 => (lowWord x).slt (lowWord y)
  | .n64 => x.ult y
  | .i64 => x.slt y
  | _ => false

/-- A value cut to the width of a type. -/
def cutTo (ty : AtomTy) (x : Double) : Double := if atomWide ty then x else (lowWord x).setWidth 64

/-- The new value of the location. -/
def atomNew (op : AtomOp) (ty : AtomTy) (old x cmp : Double) : Double :=
  match op with
  | .add => cutTo ty (old + x)
  | .and => old &&& x
  | .or => old ||| x
  | .xor => old ^^^ x
  | .min => if atomLess ty x old then x else old
  | .max => if atomLess ty old x then x else old
  | .exch => x
  | .fadd => (faddT (if atomWide ty then .f64 else .f32) rnRnd old x).1
  | .cas => if old = cmp then x else old

/-- One thread's part of an atomic: its key, operand and comparand. -/
structure AtomItem where
  tid : Nat
  va : Nat
  key : Nat
  x : Double
  cmp : Double
deriving DecidableEq, Repr, Inhabited

/-- One atomic performed at the home of its page (R171) (DEDUCED, log entry 17). -/
def atomOne (s : State) (c : Nat) (see keep : Option Nat) (op : AtomOp) (ty : AtomTy) (i : AtomItem) : Except Nat Double × State :=
  let n := atomBytes ty
  match readHome s c see i.key n with
  | (_, true, s) => (.error cPOISON, s)
  | (d, false, s) =>
    let old := BitVec.ofNat 64 (natLE d)
    (.ok old, writeHome s c keep i.key (bytesLE n (atomNew op ty old i.x i.cmp).toNat))

/-- The atomics of an instruction, thread by thread (R171). -/
def atomAll (c : Nat) (see keep : Option Nat) (op : AtomOp) (ty : AtomTy) : State → List AtomItem → Loaded × State
  | s, [] => ([], s)
  | s, i :: r =>
    match atomOne s c see keep op ty i with
    | (v, s) => match atomAll c see keep op ty s r with | (l, s) => ((i.tid, v) :: l, s)

/-- The atomics of an instruction in circle memory; the full bits stand (R171). -/
def atomCircle (c : Nat) (op : AtomOp) (ty : AtomTy) : State → List AtomItem → Loaded × State
  | s, [] => ([], s)
  | s, i :: r =>
    let n := atomBytes ty
    let x := getCore s c
    if circleBad x i.key n then match atomCircle c op ty s r with | (l, s) => ((i.tid, .error cPOISON) :: l, s)
    else
      let old := BitVec.ofNat 64 (natLE (circleBytes x i.key n))
      let s := putCore s c (circleWrite x i.key (bytesLE n (atomNew op ty old i.x i.cmp).toNat) false)
      match atomCircle c op ty s r with | (l, s) => ((i.tid, .ok old) :: l, s)

def relOrd : AtomOrd → Bool
  | .rel => true
  | .ar => true
  | _ => false

def acqOrd : AtomOrd → Bool
  | .acq => true
  | .ar => true
  | _ => false

def atomOrdCode : AtomOrd → Nat
  | .relaxed => 0
  | .acq => 1
  | .rel => 2
  | .ar => 3

def atomOpCode : AtomOp → Nat
  | .add => 0
  | .and => 1
  | .or => 2
  | .xor => 3
  | .min => 4
  | .max => 5
  | .exch => 6
  | .fadd => 7
  | .cas => 8

/-- The member of a store group that an atomic is (20 R404). -/
def atomMember (op : AtomOp) (q : AtomQ) (items : List AtomItem) : List Byte :=
  let n := atomBytes q.ty
  memberHead 2 (atomOpCode op) (atomOrdCode q.order * 8 + scopeCode q.scope) (maskOf (items.map (·.tid)))
    ++ items.flatMap (fun i => bytesLE 8 i.va ++ bytesLE n i.x.toNat ++ (if op = .cas then bytesLE n i.cmp.toNat else []))

/-- The site of one thread's atomic. -/
def atomSite (s : State) (a : Agent) (e : Entry) (q : AtomQ) (denied : Bool) (t va : Nat) : Except Nat Nat × State :=
  if q.circle then (circleSite (circleWindow s a) va (atomBytes q.ty) denied, s)
  else
    match globalSite s a va (atomBytes q.ty) .atomic denied (e.skipWatch.getLsbD t) with
    | (r, s) => (r, countRequest s a t .atomic e.pc.toNat va r)

/-- What each thread asks of an atomic: its address, operand and comparand, or its cause. -/
abbrev AtomAsk := List (Nat × Except Nat (List Double))

/-- The items of an atomic, and the causes of the threads that have one. -/
def atomItems (a : Agent) (e : Entry) (q : AtomQ) (denied : Bool) : State → AtomAsk → List AtomItem × Loaded × State
  | s, [] => ([], [], s)
  | s, (t, .error c) :: r =>
    match atomItems a e q denied s r with | (l, b, s) => (l, (t, .error c) :: b, s)
  | s, (t, .ok vs) :: r =>
    let va := (if q.circle then (vs.getD 0 0#64).toNat % 2 ^ 32 else (vs.getD 0 0#64).toNat)
    match atomSite s a e q denied t va with
    | (.error c, s) => match atomItems a e q denied s r with | (l, b, s) => (l, (t, .error c) :: b, s)
    | (.ok k, s) =>
      match atomItems a e q denied s r with
      | (l, b, s) =>
        ({ tid := t, va := va, key := k, x := cutTo q.ty (vs.getD 1 0#64), cmp := cutTo q.ty (vs.getD 2 0#64) } :: l, b, s)

/-- What an atomic leaves to its lane or uniform form: old values and causes by thread, threads that wait, the state. -/
inductive AtomEnd
  | got (vals : Loaded) (s : State)
  | hold (m : Mask) (st : EntryState) (bad : Loaded) (s : State)
  | wait (w : Wait) (s : State)
  | broken (s : State)

/-- An atomic of an agent (R171): earlier stores of its agent are performed first (08 R196), those of a paired copy with its groups, its order acts at its scope (DEDUCED, log entry 26). -/
def atomRun (s : State) (a : Agent) (e : Entry) (op : AtomOp) (q : AtomQ) (dst : FeDst) (asks : AtomAsk) : AtomEnd :=
  let c := coreOf a
  let s := closeAgent s a
  if q.circle && !flowDone s a then
    if groupStall s a then .wait .slack s else .wait .flow (onPair s a endGroup)
  else
  match atomItems a e q (scopeDenied s a q.scope) s asks with
  | (items, bad, s) =>
    if items.isEmpty then .got bad s
    else if q.circle then
      match takeLog s a with
      | .fresh =>
        match atomCircle c op q.ty s items with
        | (l, s) => .got (bad ++ l) (logOwn s a (.circle (okVals l)))
      | .replay (.circle vals) s => .got (bad ++ vals.map (fun v => (v.1, .ok v.2))) s
      | .replay _ s => .broken s
      | .broken => .broken s
    else if isPaired s a then
      let op' := PairOp.atom op q dst (items.map (fun i => (i.tid, i.key, i.x, i.cmp)))
      if q.ret then
        match joinOnce s a e.pc (maskOf (items.map (·.tid))) (atomMember op q items) op' with
        | .given vals s => .got (bad ++ vals.map (fun v => (v.1, .ok v.2))) s
        | .wait st s => .hold (maskOf (items.map (·.tid))) st bad s
        | .stall => .wait .slack s
        | .broken => .broken s
      else if groupStall s a then .wait .slack s
      else .got bad (joinGroup s a (atomMember op q items) op')
    else
      let s := if relOrd q.order then releaseAt s c q.scope else s
      match atomAll c (serialOf s a) (stageOf s a) op q.ty s items with
      | (l, s) => .got (bad ++ l) (if acqOrd q.order then acquireAt s c q.scope else s)

/-- A lane atomic. -/
def laneAtom (f : LaneLd) (op : AtomOp) (q : AtomQ) (s : State) : Out :=
  let wd := atomWide q.ty
  let n := if wd then 2 else 1
  laneIssue s (twoWord ((if q.ret then [(f.d.toNat, n)] else []) ++ lsrcRegs f.a (if q.circle then 1 else 2) ++ lsrcRegs f.b n))
    (fun s c k w e act =>
      let a := Agent.weave c k
      let x := getCore s c
      let asks : AtomAsk := (threadsOf act).map (fun t =>
        (t, gather ([readLSrc x w t f.a (!q.circle) 0#64, readLSrc x w t f.b wd 0#64]
          ++ (if op = .cas then [readReg x w t f.d.toNat wd] else []))))
      let n := countOf act
      let addrs : Addrs := asks.map (fun r => (r.1, match r.2 with | .ok vs => .ok (vs.getD 0 0#64).toNat | .error c => .error c))
      match atomRun s a e op q (.lane f.d.toNat) asks with
      | .got vals s =>
        let old := okVals vals
        { s := if q.ret then flyLane s a f.d.toNat wd old else s, gs := parkGroups vals addrs, cycles := n,
          wv := if q.ret && !old.isEmpty then regsFrom f.d.toNat wd else [], ws := [], wait := none }
      | .hold m st bad s => moved s (parkGroups bad addrs ++ [(m, .hold st)]) n
      | .wait w s => waits s (.waiting w)
      | .broken s => moved (pairFail s a) [] 1)

/-- ATOM (R171). -/
def execAtom (f : LaneLd) (op : AtomOp) (q : AtomQ) (s : State) : Out := laneAtom f op q s

/-- ATOM_CAS (R171). -/
def execAtomCas (f : LaneLd) (q : AtomQ) (s : State) : Out := laneAtom f .cas q s

/-- The value of a uniform destination before the instruction, the comparand of a uniform `cas`. -/
def readUDst (s : State) (a : Agent) (d : UDst) (wide : Bool) : Except Nat Double :=
  match d with
  | .s n => readSReg s a n.toNat wide
  | .mode => .ok ((getFile s a).mode.setWidth 64)
  | .flags => .ok 0#64

/-- U_ATOM (R171). -/
def execUAtom (f : UniLd) (op : AtomOp) (q : AtomQ) (s : State) : Out :=
  let wd := atomWide q.ty
  uniIssue s (uniAny 8) (fun s a e =>
    let asks : AtomAsk := [(0, gather ([readUSrc s a f.a (!q.circle) 0#64, readUSrc s a f.b wd 0#64]
      ++ (if op = .cas then [readUDst s a f.d wd] else [])))]
    let va := match asks with | [(_, .ok vs)] => vs.getD 0 0#64 | _ => 0#64
    match atomRun s a e op q (.uni f.d) asks with
    | .got vals s =>
      match vals with
      | [(_, .error c)] => parkAll s e.mask c va
      | [(_, .ok v)] =>
        if q.ret then { moved (flyUni s a e.mask f.d wd v) [] 1 with ws := udstRegs f.d wd } else moved s [] 1
      | _ => moved s [] 1
    | .hold _ st _ s => waits s st
    | .wait w s => waits s (.waiting w)
    | .broken s => moved (pairFail s a) [] 1)

/-! ## Fences (R172) -/

def fenceRel : FenceKind → Bool
  | .ar => true
  | .rel => true
  | .acq => false

def fenceAcq : FenceKind → Bool
  | .ar => true
  | .acq => true
  | .rel => false

def fenceCode : FenceKind → Nat
  | .ar => 0
  | .acq => 1
  | .rel => 2

/-- A fence acts once for its agent: earlier stores are performed, and at .pt or wider the core's L1 is written back or emptied. -/
def fenceAct (s : State) (c : Nat) (k : FenceKind) (sc : Scope) : State :=
  let s := if fenceRel k then releaseAt s c sc else s
  if fenceAcq k then acquireAt s c sc else s

/-- A fence of an agent. In a paired launch it is performed with its group, after the stores before it; one that orders later loads holds both
copies until then (20 R403, R405, 08 R213) (DEDUCED, log entry 64). -/
def fenceRun (s : State) (a : Agent) (m : Mask) (k : FenceKind) (sc : Scope) (cycles : Nat) : Done :=
  let s := closeAgent s a
  if scopeDenied s a sc then moved s [(m, .park cSCOPE 0#64)] cycles
  else if isPaired s a then
    if groupStall s a then waits s (.waiting .slack)
    else
      let t := joinGroup s a (memberHead 7 0 (fenceCode k * 8 + scopeCode sc) m) (.fence k sc)
      if memberReplays s a || !fenceAcq k then moved t [] cycles else waits t (onceWait t a)
  else moved (fenceAct s (coreOf a) k sc) [] cycles

/-- FENCE (R172). -/
def execFence (k : FenceKind) (sc : Scope) (s : State) : Out :=
  laneIssue s (oneWord []) (fun s c slot _ _ act => fenceRun s (.weave c slot) act k sc 1)

/-- U_FENCE (R172). -/
def execUFence (k : FenceKind) (sc : Scope) (s : State) : Out := uniIssue s (uniAny 4) (fun s a e => fenceRun s a e.mask k sc 1)

/-! ## The skein (R173 to R176; 17 R354) -/

/-- The size of a block of a class. -/
def blockSize (cls : Nat) : Nat := if cls ≤ 10 then 16 * 2 ^ cls else 65536 * 2 ^ (cls - 11)

/-- The smallest class that holds a request; none above 1 MiB. -/
def classOf (n : Nat) : Option Nat := (List.range 16).find? (fun c => n ≤ blockSize c)

def chunkSize : Nat := 1048576

/-- The free blocks of a class: of the chunks given to it, those not allocated. -/
def freeBlocks (v : Vf) (cls : Nat) : List Nat :=
  (v.chunks.filter (fun e => e.2 == cls)).flatMap (fun e =>
    ((List.range (chunkSize / blockSize cls)).map (fun i => v.heap.toNat + e.1 * chunkSize + i * blockSize cls)).filter
      (fun a => (sfind v.blocks a).isNone))

/-- The chunks of the heap not yet given to a class. -/
def freeChunks (v : Vf) : List Nat := (List.range v.heapsz.toNat).filter (fun i => (sfind v.chunks i).isNone)

/-- Some element of a list, which one is open (R173) (DESIGN CHOICE, log entry 8). -/
def choose (tick : Nat) (l : List Nat) : Option Nat := l[Config.skeinChoice tick % l.length]?

/-- A block of a class taken; a chunk is given to the class where it has no free block (DESIGN CHOICE, log entry 8). -/
def takeBlock (v : Vf) (tick cls : Nat) : Option (Nat × Vf) :=
  let v := if (freeBlocks v cls).isEmpty then
      match choose tick (freeChunks v) with
      | some i => { v with chunks := sput v.chunks i cls }
      | none => v
    else v
  (choose tick (freeBlocks v cls)).map (fun a => (a, { v with blocks := sput v.blocks a cls }))

/-- The cause of a block whose page, as its walk ends, is not private and writable (17 R354). -/
def blockLeaf : Except Nat Leaf → Option Nat
  | .error e => some e
  | .ok l => if l.state != .priv then some cWRITEPROT else pageCause l .store false

def blockCause (s : State) (vf addr : Nat) : Option Nat := blockLeaf (walk s vf addr)

/-- What one request of the skein gets: a block, nothing for want of a block, nothing for its size, or a fault. -/
inductive Served
  | block (a : Nat) | exhausted | tooBig | fault (c : Nat)
deriving DecidableEq, Repr, Inhabited

/-- One request of a launch (R174); a block of a staged run is returned if the node is killed (20 R398) (DESIGN CHOICE, log entry 8). -/
def allocOne (s : State) (vf : Nat) (keep : Option Nat) (i n : Nat) : Served × State :=
  match classOf n with
  | none => (.tooBig, s)
  | some cls =>
    match takeBlock (getVf s vf) (s.tick * 64 + i) cls with
    | none => (.exhausted, s)
    | some (a, v) =>
      match blockCause s vf a with
      | some c => (.fault c, s)
      | none =>
        let s := putVf s vf v
        (.block a, match keep.bind (getLaunch s) with
          | some l => if staging l then onLaunch s l.serial (fun l => { l with blocks := a :: l.blocks }) else s
          | none => s)

def allocAll (vf : Nat) (keep : Option Nat) : State → List (Nat × Nat) → List (Nat × Served) × State
  | s, [] => ([], s)
  | s, (t, n) :: r =>
    match allocOne s vf keep t n with
    | (x, s) => match allocAll vf keep s r with | (l, s) => ((t, x) :: l, s)

/-- What a served or unserved request gives its thread: the address and predicate, or a cause with `.t`. -/
def servedVal (trap : Bool) : Served → Except Nat (Double × Bool)
  | .block a => .ok (BitVec.ofNat 64 a, true)
  | .exhausted => if trap then .error cHEAP else .ok (0#64, false)
  | .tooBig => if trap then .error cBOUNDS else .ok (0#64, false)
  | .fault c => .error c

/-- A request as it is logged for the other copy: address in bits 56:0, the outcome above it. -/
def servedCode : Served → Double
  | .block a => BitVec.ofNat 64 a ||| 0x0100000000000000#64 <<< 1
  | .exhausted => 0x0400000000000000#64
  | .tooBig => 0x0600000000000000#64
  | .fault c => 0x0800000000000000#64 ||| BitVec.ofNat 64 c

def servedOf (v : Double) : Served :=
  match (v.extractLsb' 57 7).toNat with
  | 1 => .block (v.extractLsb' 0 57).toNat
  | 2 => .exhausted
  | 3 => .tooBig
  | _ => .fault (v.extractLsb' 0 8).toNat

/-- The member of a store group that an `alloc` or `free` is: per thread the address and the size or nothing. -/
def skeinMember (kind code : Nat) (l : List (Nat × Nat)) : List Byte :=
  memberHead kind code 0 (maskOf (l.map (·.1))) ++ l.flatMap (fun r => bytesLE 8 r.2)

/-- The requests of an instruction: per thread the size, or the cause of its operand. -/
abbrev Sizes := List (Nat × Except Nat Nat)

def okSizes (l : Sizes) : List (Nat × Nat) := l.filterMap (fun r => match r.2 with | .ok n => some (r.1, n) | .error _ => none)

def badSizes (l : Sizes) : List (Nat × Nat) := l.filterMap (fun r => match r.2 with | .ok _ => none | .error c => some (r.1, c))

inductive AllocEnd
  | got (l : List (Nat × Served)) (s : State)
  | hold (st : EntryState) (s : State)
  | stall (s : State)
  | broken (s : State)

/-- `alloc` of an agent (R174, R176): an acquire at .tn. -/
def allocRun (s : State) (a : Agent) (e : Entry) (trap uni : Bool) (d p : Nat) (sizes : List (Nat × Nat)) : AllocEnd :=
  let s := closeAgent s a
  if sizes.isEmpty then .got [] s
  else if isPaired s a then
    match joinOnce s a e.pc (maskOf (sizes.map (·.1))) (skeinMember 3 (if trap then 1 else 0) sizes) (.alloc uni trap d p sizes) with
    | .given vals s => .got (vals.map (fun v => (v.1, servedOf v.2))) s
    | .wait st s => .hold st s
    | .stall => .stall s
    | .broken => .broken s
  else
    match allocAll (agentVf s a) (stageOf s a) s sizes with
    | (l, s) => .got l (dropL1 s (coreOf a))

/-- The addresses and predicates of served threads on their way to their registers. -/
def flyServed (s : State) (a : Agent) (d p : Nat) (trap : Bool) (l : List (Nat × Served)) : State :=
  let ok := l.filterMap (fun r => match servedVal trap r.2 with | .ok v => some (r.1, v) | .error _ => none)
  if ok.isEmpty then s
  else
    fly s a { v := ok.flatMap (fun r => vWords d true r.1 r.2.1), u := [],
              p := if p = 7 then [] else ok.map (fun r => (32 * p + r.1, r.2.2)) }

def servedParks (trap : Bool) (l : List (Nat × Served)) : Groups :=
  l.filterMap (fun r => match servedVal trap r.2 with
    | .ok _ => none
    | .error c => some (maskOf [r.1], .park c 0#64))

/-- ALLOC (R174). -/
def execAlloc (d : BitVec 7) (x : LSrc) (t : Bool) (p : BitVec 3) (s : State) : Out :=
  laneIssue s (twoWord ([(d.toNat, 2)] ++ lsrcRegs x 1)) (fun s c k w e act =>
    let a := Agent.weave c k
    let sizes : Sizes := (threadsOf act).map (fun i =>
      (i, gatherWith [readLSrc (getCore s c) w i x false 0#64] (fun vs => .ok (lowWord (vs.getD 0 0#64)).toNat)))
    let bad : Groups := (badSizes sizes).map (fun r => (maskOf [r.1], .park r.2 0#64))
    let n := countOf act
    match allocRun s a e t false d.toNat p.toNat (okSizes sizes) with
    | .got l s =>
      { s := flyServed s a d.toNat p.toNat t l, gs := bad ++ servedParks t l, cycles := n,
        wv := if l.isEmpty then [] else [d.toNat, d.toNat + 1], ws := [], wait := none }
    | .hold st s => moved s (bad ++ [(maskOf ((okSizes sizes).map (·.1)), .hold st)]) n
    | .stall s => waits s (.waiting .slack)
    | .broken s => moved (pairFail s a) [] 1)

/-- A served uniform request written to its pair and predicate. -/
def uniServed (s : State) (a : Agent) (e : Entry) (d p : Nat) (trap : Bool) (r : Served) : Done :=
  match servedVal trap r with
  | .error c => parkAll s e.mask c 0#64
  | .ok (v, b) =>
    let s := fly s a { v := [], u := sWords d true v, p := [] }
    let s := if p < 4 then putFile s a (writeQ (getFile s a) p b) else s
    { moved s [] 1 with ws := [d, d + 1] }

/-- U_ALLOC (R174). -/
def execUAlloc (d : BitVec 6) (x : USrc) (t : Bool) (p : BitVec 3) (s : State) : Out :=
  uniIssue s (uniAny 8) (fun s a e =>
    match readUSrc s a x false 0#64 with
    | .error c => parkAll s e.mask c 0#64
    | .ok v =>
      match allocRun s a e t true d.toNat p.toNat [(0, (lowWord v).toNat)] with
      | .got l s => match l with | (_, r) :: _ => uniServed s a e d.toNat p.toNat t r | [] => moved s [] 1
      | .hold st s => waits s st
      | .stall s => waits s (.waiting .slack)
      | .broken s => moved (pairFail s a) [] 1)

/-- Whether a `free` of an address takes effect, or raises BOUNDS (R175). A block a staged run has freed is no longer allocated to it. -/
def freeCause (s : State) (vf : Nat) (keep : Option Nat) (addr : Nat) : Option Nat :=
  if addr = 0 then none
  else if (sfind (getVf s vf).blocks addr).isNone then some cBOUNDS
  else
    match keep.bind (getLaunch s) with
    | some l => if l.freed.contains addr then some cBOUNDS else none
    | none => none

/-- One block returned; of a staged run at its commit (20 R398). -/
def freeOne (s : State) (vf : Nat) (keep : Option Nat) (addr : Nat) : State :=
  if addr = 0 then s
  else
    match keep.bind (getLaunch s) with
    | some l =>
      if staging l then onLaunch s l.serial (fun l => { l with freed := addr :: l.freed })
      else onVf s vf (fun v => { v with blocks := serase v.blocks addr })
    | none => onVf s vf (fun v => { v with blocks := serase v.blocks addr })

/-- The frees of an instruction in increasing thread index. -/
def freeAll (vf : Nat) (keep : Option Nat) : State → List (Nat × Nat) → List (Nat × Nat) × State
  | s, [] => ([], s)
  | s, (t, addr) :: r =>
    match freeCause s vf keep addr with
    | some c => match freeAll vf keep s r with | (l, s) => ((t, c) :: l, s)
    | none => freeAll vf keep (freeOne s vf keep addr) r

/-- `free` of an agent (R175, R176): a release at .tn; in a paired launch it is performed with its group. -/
def freeRun (s : State) (a : Agent) (addrs : List (Nat × Nat)) : Except State (List (Nat × Nat) × State) :=
  let s := closeAgent s a
  if addrs.isEmpty then .ok ([], s)
  else if isPaired s a then
    if groupStall s a then .error s
    else
      let bad := if memberReplays s a then []
        else addrs.filterMap (fun r => (freeCause s (agentVf s a) (stageOf s a) r.2).map (fun c => (r.1, c)))
      let good := addrs.filter (fun r => !bad.any (fun b => b.1 == r.1))
      .ok (bad, if good.isEmpty then s else joinGroup s a (skeinMember 4 0 good) (.free good))
  else .ok (freeAll (agentVf s a) (stageOf s a) (flushL1 s (coreOf a)) addrs)

/-- FREE (R175). -/
def execFree (x : LSrc) (s : State) : Out :=
  laneIssue s (oneWord (lsrcRegs x 2)) (fun s c k w _ act =>
    let a := Agent.weave c k
    let l : Sizes := (threadsOf act).map (fun i =>
      (i, gatherWith [readLSrc (getCore s c) w i x true 0#64] (fun vs => .ok (vs.getD 0 0#64).toNat)))
    match freeRun s a (okSizes l) with
    | .error s => waits s (.waiting .slack)
    | .ok (bad, s) => moved s ((badSizes l ++ bad).map (fun r => (maskOf [r.1], .park r.2 0#64))) (countOf act))

/-- U_FREE (R175). -/
def execUFree (x : USrc) (s : State) : Out :=
  uniIssue s (uniAny 4) (fun s a e =>
    match readUSrc s a x true 0#64 with
    | .error c => parkAll s e.mask c 0#64
    | .ok v =>
      match freeRun s a [(0, v.toNat)] with
      | .error s => waits s (.waiting .slack)
      | .ok (bad, s) => match bad with | (_, c) :: _ => parkAll s e.mask c 0#64 | [] => moved s [] 1)

end Sys2Proof.Machine
end

