-- ==== Sys2Proof/Machine/Bank.lean ====
section
/-!
DEFINITION. Constant-bank loads of both sets (07 R166), with their lineage (10 R243 to R245, R253).
-/

namespace Sys2Proof.Machine

open Sys2Proof

/-- The constant bank of an agent's launch: address, size, generation. -/
def bankOf (s : State) (a : Agent) : Nat × Nat × Nat :=
  match agentLaunch s a with
  | some l => (l.header.kbank, l.header.ksize, l.header.kgen)
  | none => (0, 0, 0)

/-- The causes of a bank offset: ALIGN, and BOUNDS beyond ksize. -/
def bankCause (s : State) (a : Agent) (off n : Nat) : Option Nat :=
  lowestCode ((if off % n != 0 then [cALIGN] else []) ++ (if off + n ≤ (bankOf s a).2.1 then [] else [cBOUNDS]))

/-- One bank load through the core's constant cache. -/
def bankLoad (s : State) (a : Agent) (off n : Nat) : Except Nat Double × State :=
  let c := coreOf a
  match translate s c (agentVf s a) ((bankOf s a).1 + off) .load (isHandler a), bankCause s a off n with
  | (.error e, s), some e' => (.error (min e e'), s)
  | (.error e, s), none => (.error e, s)
  | (.ok _, s), some e => (.error e, s)
  | (.ok k, s), none =>
    match cacheLine s (getCore s c).ccache 3 (k / 64) with
    | .error e => (.error e, s)
    | .ok (d, held) => (.ok (BitVec.ofNat 64 (natLE ((d.drop (k % 64)).take n))), onCore s c (fun x => { x with ccache := held }))

def bankLoads (a : Agent) (n : Nat) : State → Addrs → Loaded × State
  | s, [] => ([], s)
  | s, (t, .error c) :: r => match bankLoads a n s r with | (l, s) => ((t, .error c) :: l, s)
  | s, (t, .ok off) :: r =>
    match bankLoad s a off n with
    | (v, s) => match bankLoads a n s r with | (l, s) => ((t, v) :: l, s)

/-- A value as the run of a thread whose generator stands. -/
def runOf (w : Weave) (v : Nat × Except Nat Double) : Run :=
  { tid := v.1, gen := readGen w v.1, res := match v.2 with | .ok x => .ok (x, 0#6) | .error c => .error c }

/-- The name of an offset source (R242). -/
def bankName (w : Weave) (x : LSrc) (k : BitVec 28) : Name := opdName w (.src x false .self 0#64 k)

/-- The lookup of an eligible load of a weave: what was found, or a miss where it is not looked up. -/
def loadLookup (s : State) (c k : Nat) (w : Weave) (e : Entry) (act : Mask) (n : Nat) (key : List Nat) (names : Weave → Option (List Nat)) :
    Found × State × Weave :=
  let rm := resolve w.mode .dflt
  if lookable w e act false key noGuard rm then
    let lv := launchOf s (.weave c k)
    lookup s c k w lv.1 lv.2 n (fun w => (names w).map (vsKey key [] rm w.mode))
  else (.off, s, w)

/-- The values a bound load passes to the other copy. -/
def boundVals (x : Core) (v : VsEntry) : List (Nat × Double) := allThreads.map (fun t => (t, entryValue x v t))

/-- A lane bank load once its values are known or bound; a thread whose offset raises a cause binds nothing (R259). -/
def ldkLane (s : State) (c k : Nat) (w : Weave) (e : Entry) (act : Mask) (d n : Nat) (key : List Nat) (names : Weave → Option (List Nat))
    (own : Bool) (addrs : Addrs) (vals : State → Loaded × Mask × State) : Done :=
  let a := Agent.weave c k
  let dst := LDst.reg d (n == 8)
  let run := fun (ins : Option (List Nat)) (s : State) (w : Weave) =>
    match vals (putWeave s c k w) with
    | (l, late, s) =>
      let s := if own && !(okVals l).isEmpty then giveValue s a e.pc (okVals l) else s
      match getWeave s c k with
      | some w =>
        let x := commitRuns s c k w dst false false 1 (if late = 0#32 then ins else none) (l.map (runOf w))
        { x with gs := parkGroups l addrs ++ [(late, .hold (.waiting .pairOp))] }
      | none => moved s [] 1
  let clean := addrs.all (fun r => match r.2 with | .ok _ => true | .error _ => false)
  match loadLookup s c k w e act (dstRegs dst).length key names with
  | (.hit v, s, w) =>
    if clean then
      let x := bindHit s c k w dst false v
      if own then { x with s := giveValue x.s a e.pc (boundVals (getCore s c) v) } else x
    else run none s w
  | (.insert key, s, w) => run (some key) s w
  | (.miss, s, w) => untagMissed (run none s w) (dstRegs dst)
  | (.off, s, w) => run none s w

/-- A lane bank load (DESIGN CHOICE, log entry 77). -/
def laneLdk (row : Nat) (f : LaneLd) (k : BitVec 28) (wide : Bool) (s : State) : Out :=
  let n := if wide then 8 else 4
  laneIssue s (twoWord ([(f.d.toNat, if wide then 2 else 1)] ++ lsrcRegs f.a 1 ++ lsrcRegs f.b 1)) (fun s c slot w e act =>
    let a := Agent.weave c slot
    let x := getCore s c
    let addrs : Addrs := (threadsOf act).map (fun t =>
      (t, gatherWith [readLSrc x w t f.a false 0#64, readLSrc x w t f.b false (k.setWidth 64)] (fun vs => .ok (circleAddr vs))))
    let key := [row, (bankOf s a).2.2]
    let names := fun w => allNames [bankName w f.a k, bankName w f.b k]
    let at_ := addrs.map (fun r => (r.1, match r.2 with | .ok off => .ok ((bankOf s a).1 + off) | .error c => .error c))
    if act = 0#32 then moved s [] 0
    else
      match takeValue s a e.pc act with
      | .own => ldkLane s c slot w e act f.d.toNat n key names true at_ (fun s => match bankLoads a n s addrs with | (l, s) => (l, 0#32, s))
      | .given vals s' =>
        let st : Loaded := addrs.map (fun r => (r.1, match r.2 with
          | .error c => .error c
          | .ok off => match bankCause s a off n with | some c => .error c | none => .ok 0#64))
        let g := givenVals st vals
        ldkLane s' c slot w e act f.d.toNat n key names false at_ (fun s => (g.1, g.2, s))
      | .wait => waits s (.waiting .pairOp)
      | .broken => moved (pairFail s a) [] 1)

/-- LDK_B32 (R166). -/
def execLdkB32 (f : LaneLd) (k : BitVec 28) (s : State) : Out := laneLdk 139 f k false s

/-- LDK_B64 (R166). -/
def execLdkB64 (f : LaneLd) (k : BitVec 28) (s : State) : Out := laneLdk 140 f k true s

/-- A uniform bank load as a form whose only operand stands for the offset, so that it is looked up as the others are. -/
def ldkForm (row gen : Nat) (d : UDst) (wide : Bool) (a b : USrc) (k : BitVec 28) (v : Double) : UAluForm :=
  { size := 8, chain := false, dst := .reg d wide, a := .src a false 0#64 0#28, b := .src b false 0#64 k, c := .none, guard := noGuard,
    round := .dflt, draws := 0, traps := false, key := [row, gen], fn := fun _ _ _ _ => (v, 0#6) }

/-- A uniform bank load's end with its value: a weave's result has lineage. -/
def ldkEnd (s : State) (a : Agent) (e : Entry) (f : UAluForm) (v : Double) : Done :=
  match a with
  | .weave c k =>
    match getWeave s c k with
    | some w =>
      let rm := resolve w.mode .dflt
      if uniLookable w e f rm then uniLineage s c k w e f false rm (v, 0#6) else uniPlain s a e f (v, 0#6)
    | none => moved s [] 1
  | a => uniPlain s a e f (v, 0#6)

/-- The value a lookup would bind, seen before the load: a hit raises no cause and reads no memory (R253, R240). -/
def ldkPeek (s : State) (a : Agent) (e : Entry) (f : UAluForm) : Option Double :=
  match a with
  | .weave c k =>
    match getWeave s c k with
    | some w =>
      let rm := resolve w.mode .dflt
      let lv := launchOf s a
      if uniLookable w e f rm then
        match (uniNames w f).map (vsKey f.key [] rm w.mode) with
        | some key => (vsFind (getCore s c) lv.1 lv.2 key).map (fun v => entryValue (getCore s c) v 0)
        | none => none
      else none
    | none => none
  | _ => none

/-- A uniform bank load (DESIGN CHOICE, log entry 77). -/
def uniLdk (row : Nat) (f : UniLd) (k : BitVec 28) (wide : Bool) (s : State) : Out :=
  let n := if wide then 8 else 4
  uniIssue s (uniAny 8) (fun s a e =>
    let form := ldkForm row (bankOf s a).2.2 f.d wide f.a f.b k
    let rm := resolve (getFile s a).mode .dflt
    match gather [readUSrc s a f.a false 0#64, readUSrc s a f.b false (k.setWidth 64)] with
    | .error c => uniFail s a e (form 0#64) rm c 0
    | .ok vs =>
      let off := circleAddr vs
      match takeValue s a e.pc (BitVec.ofNat 32 1) with
      | .own =>
        match ldkPeek s a e (form 0#64) with
        | some v => ldkEnd (giveValue s a e.pc [(0, v)]) a e (form v) v
        | none =>
          match bankLoad s a off n with
          | (.error c, s) => uniFail s a e (form 0#64) rm c ((bankOf s a).1 + off)
          | (.ok v, s) => ldkEnd (giveValue s a e.pc [(0, v)]) a e (form v) v
      | .given vals s =>
        let v := (vals.map (·.2)).getD 0 0#64
        ldkEnd s a e (form v) v
      | .wait => (match bankCause s a off n with | some c => uniFail s a e (form 0#64) rm c ((bankOf s a).1 + off) | none => waits s (.waiting .pairOp))
      | .broken => moved (pairFail s a) [] 1)

/-- U_LDK_B32 (R166). -/
def execULdkB32 (f : UniLd) (k : BitVec 28) (s : State) : Out := uniLdk 315 f k false s

/-- U_LDK_B64 (R166). -/
def execULdkB64 (f : UniLd) (k : BitVec 28) (s : State) : Out := uniLdk 316 f k true s

end Sys2Proof.Machine
end

