-- ==== Sys2Proof/Machine/Tensor.lean ====
section
/-!
DEFINITION. Tensor records, element addresses, block scales, row records and outliers (09 R232 to R237), and the tensor element
instructions (07 R167, R168).
-/

namespace Sys2Proof.Machine

open Sys2Proof

/-! ## Records (R232, R233) -/

/-- A tensor record; `spare` is its reserved field. -/
structure TRec where
  gen : Nat
  spare : Nat
  rank : Nat
  bsize : Nat
  imm : Bool
  esc : Bool
  fmt : BitVec 16
  obase : Nat
  sbase : Nat
  strides : List Nat
  dims : List Nat
  base : Nat
deriving DecidableEq, Repr, Inhabited

/-- The fields of a 512-bit record. -/
def TRec.of (x : Nat) : TRec :=
  { gen := bits x 488 24, spare := bits x 482 6, rank := bits x 479 3, bsize := bits x 477 2, imm := bits x 476 1 == 1,
    esc := bits x 475 1 == 1, fmt := BitVec.ofNat 16 (bits x 459 16), obase := bits x 402 57, sbase := bits x 345 57,
    strides := (List.range 4).map (fun i => bits x (217 + 32 * i) 32), dims := (List.range 5).map (fun i => bits x (57 + 32 * i) 32),
    base := bits x 0 57 }

/-- Whether a record is usable (R233). -/
def recOk (r : TRec) : Bool :=
  let scaled := r.bsize != 0 || r.esc
  r.spare == 0 && 1 ≤ r.rank && r.rank ≤ 5 && r.bsize != 3 && (NumFmt.ofCode r.fmt).isSome
    && (List.range 5).all (fun i => if i < r.rank then r.dims.getD i 0 != 0
        else r.dims.getD i 0 == 0 && (i == 0 || r.strides.getD (i - 1) 0 == 0))
    && !(scaled && (match NumFmt.ofCode r.fmt with | some (.ieee _) => true | _ => false))
    && ((r.obase == 0) != r.esc) && ((r.sbase == 0) != scaled)
    && r.base % 8 == 0 && r.obase % 2 == 0 && r.sbase % 4 == 0

def recFmt (r : TRec) : NumFmt := (NumFmt.ofCode r.fmt).getD default

/-- The extent of a dimension; beyond the rank it acts as 1. -/
def extent (r : TRec) (i : Nat) : Nat := if i < r.rank then r.dims.getD i 0 else 1

/-- A coordinate list of five dimensions. -/
def coord (xs : List Nat) (i : Nat) : Nat := xs.getD i 0

/-- Whether coordinates lie within every dimension. -/
def inDims (r : TRec) (xs : List Nat) : Bool := (List.range 5).all (fun i => coord xs i < extent r i)

/-- Whether coordinates lie beyond the true-shape window (04 R88). -/
def beyondWindow (w : List (Option Nat)) (xs : List Nat) : Bool :=
  (List.range 3).any (fun i => match w.getD i none with | some v => v ≤ coord xs i | none => false)

/-- The true-shape window of an agent's instance. -/
def windowOf (s : State) (a : Agent) : List (Option Nat) :=
  match (agentInst s a).bind (getInst s (coreOf a)) with
  | some i => i.window
  | none => []

/-! ## Addresses (R234 to R237) -/

/-- Elements in a 64-bit unit. -/
def perUnit (f : NumFmt) : Nat := 64 / f.width

/-- The address of the unit that holds an element, and the element's lowest bit in it (R234). -/
def unitAddr (r : TRec) (xs : List Nat) : Nat :=
  (r.base + 8 * ((List.range 4).foldl (fun a i => a + coord xs (i + 1) * r.strides.getD i 0) 0) + 8 * (coord xs 0 / perUnit (recFmt r)))
    % 2 ^ 64

def unitBit (r : TRec) (xs : List Nat) : Nat := coord xs 0 % perUnit (recFmt r) * (recFmt r).width

/-- An element's first byte, its bytes, and its lowest bit in the first of them. -/
def elemAddr (r : TRec) (xs : List Nat) : Nat := unitAddr r xs + unitBit r xs / 8
def elemBytes (r : TRec) (xs : List Nat) : Nat := (unitBit r xs + (recFmt r).width - 1) / 8 - unitBit r xs / 8 + 1
def elemShift (r : TRec) (xs : List Nat) : Nat := unitBit r xs % 8

/-- The row of dimension 0 that holds an element, counted over dimensions 1 to 4. -/
def rowIndex (r : TRec) (xs : List Nat) : Nat :=
  ((coord xs 4 * extent r 3 + coord xs 3) * extent r 2 + coord xs 2) * extent r 1 + coord xs 1

/-- Elements of a scale block (R235). -/
def blockLen (r : TRec) : Nat := if r.bsize = 1 then 16 else 32

/-- The record of an element's block (R235) or row (R236). -/
def sideAddr (r : TRec) (xs : List Nat) : Nat :=
  if r.bsize = 0 then r.sbase + 4 * rowIndex r xs
  else r.sbase + 4 * (rowIndex r xs * ((extent r 0 + blockLen r - 1) / blockLen r) + coord xs 0 / blockLen r)

/-- The first coordinate from which the escapes of an element's block or row are counted (R236, R237). -/
def countFrom (r : TRec) (x0 : Nat) : Nat := if r.bsize = 0 then 0 else x0 / blockLen r * blockLen r

/-- The −0 code, an escape where X = 1 (R237). -/
def isEscape (r : TRec) (code : Nat) : Bool :=
  r.esc && (match recFmt r with | .narrow n => n.s && code == 2 ^ (n.e + n.m) | .ieee _ => false)

/-- The value of a block scale, a ue8m0 code. -/
def scaleValue (code : Nat) : Xv := NumFmt.value (.narrow ⟨false, 8, 0, 127⟩) code

/-! ## Reads -/

/-- A cause with the address that met it. -/
abbrev Cause := Nat × Nat

/-- Reads of a few bytes at a virtual address, as a number: a thread's loads, or an engine's. -/
abbrev Rd := State → Nat → Nat → Except Cause Nat × State

/-- Bytes read in pieces that end at multiples of 8. -/
def readPieces (rd : Rd) : Nat → State → Nat → Nat → Except Cause (List Byte) × State
  | 0, s, _, _ => (.ok [], s)
  | fuel + 1, s, va, n =>
    if n = 0 then (.ok [], s)
    else
      let m := min n (8 - va % 8)
      match rd s va m with
      | (.error c, s) => (.error c, s)
      | (.ok x, s) =>
        match readPieces rd fuel s (va + m) (n - m) with
        | (.error c, s) => (.error c, s)
        | (.ok r, s) => (.ok (bytesLE m x ++ r), s)

/-- The tensor table of a launch. -/
def tensorAddr (l : Launch) (tx : Nat) : Nat := l.header.tensors + 64 * tx

/-- A tensor record read; an unusable one raises BOUNDS (R233). The whole record stands beside it. -/
def readRec (rd : Rd) (s : State) (addr : Nat) : Except Cause (TRec × Nat) × State :=
  match readPieces rd 10 s addr 64 with
  | (.error c, s) => (.error c, s)
  | (.ok d, s) => if recOk (TRec.of (natLE d)) then (.ok (TRec.of (natLE d), natLE d), s) else (.error (cBOUNDS, addr), s)

/-- The code of an element. -/
def readCode (rd : Rd) (r : TRec) (xs : List Nat) (s : State) : Except Cause Nat × State :=
  match rd s (elemAddr r xs) (elemBytes r xs) with
  | (.error c, s) => (.error c, s)
  | (.ok x, s) => (.ok (bits x (elemShift r xs) (recFmt r).width), s)

/-- The block or row record of an element; a row record with nonzero bits 7:0 raises BOUNDS (R236). -/
def readSide (rd : Rd) (r : TRec) (xs : List Nat) (s : State) : Except Cause Nat × State :=
  match rd s (sideAddr r xs) 4 with
  | (.error c, s) => (.error c, s)
  | (.ok x, s) => if r.bsize = 0 && x % 256 != 0 then (.error (cBOUNDS, sideAddr r xs), s) else (.ok x, s)

/-- The escapes among `n` elements of a row from coordinate `from_` on. -/
def countEscapes (rd : Rd) (r : TRec) (xs : List Nat) : Nat → Nat → State → Except Cause Nat × State
  | 0, _, s => (.ok 0, s)
  | n + 1, from_, s =>
    match readCode rd r (xs.set 0 from_) s with
    | (.error c, s) => (.error c, s)
    | (.ok code, s) =>
      match countEscapes rd r xs n (from_ + 1) s with
      | (.error c, s) => (.error c, s)
      | (.ok k, s) => (.ok (k + (if isEscape r code then 1 else 0)), s)

/-- An element as it is read: its code, its block's scale code, and the outlier entry of an escape. -/
structure Elem where
  code : Nat
  scale : Option Nat
  outlier : Option Nat
deriving DecidableEq, Repr, Inhabited

/-- The outlier entry of the escape at some coordinates (R236, R237). -/
def readOutlier (rd : Rd) (r : TRec) (xs : List Nat) (side : Nat) (s : State) : Except Cause Nat × State :=
  let start := countFrom r (coord xs 0)
  match countEscapes rd r xs (coord xs 0 - start) start s with
  | (.error c, s) => (.error c, s)
  | (.ok j, s) => rd s (r.obase + 2 * (side / 256 + j)) 2

/-- An element read with what stands beside it. -/
def readElem (rd : Rd) (r : TRec) (xs : List Nat) (s : State) : Except Cause Elem × State :=
  match readCode rd r xs s with
  | (.error c, s) => (.error c, s)
  | (.ok code, s) =>
    if r.bsize = 0 && !r.esc then (.ok { code := code, scale := none, outlier := none }, s)
    else
      match readSide rd r xs s with
      | (.error c, s) => (.error c, s)
      | (.ok side, s) =>
        let scale := if r.bsize = 0 then none else some (side % 256)
        if isEscape r code then
          match readOutlier rd r xs side s with
          | (.error c, s) => (.error c, s)
          | (.ok o, s) => (.ok { code := code, scale := scale, outlier := some o }, s)
        else (.ok { code := code, scale := scale, outlier := none }, s)

/-- The value of an element: an escape's outlier, else its code's value times its block's scale (R235, R237). -/
def elemValue (f : NumFmt) (x : Elem) : Xv × Flags :=
  match x.outlier, x.scale with
  | some o, _ => (Fmt.bf16.value o, 0#6)
  | none, some sc => (f.value x.code).mul (scaleValue sc)
  | none, none => (f.value x.code, 0#6)

/-- An element's value as FP32, rounded to nearest once (R168). -/
def elemF32 (f : NumFmt) (x : Elem) : Double × Flags :=
  let y := finish .f32 rnRnd (elemValue f x)
  (y.1, y.2 &&& (fOF ||| fUF ||| fNX))

/-! ## Threads' reads and coordinates -/

/-- The reads of an agent's loads, without the checks of a thread's own access. -/
def agentRd (a : Agent) : Rd := fun s va n =>
  match translate s (coreOf a) (agentVf s a) va .load (isHandler a) with
  | (.error c, s) => (.error (c, va), s)
  | (.ok k, s) =>
    match loadBytes s a k n false with
    | (.error c, s) => (.error (c, va), s)
    | (.ok d, s) => (.ok (natLE d), s)

/-- The causes of a thread's access to an element (R154, R160; 22 R419). -/
def elemCause (s : State) (a : Agent) (e : Entry) (t : Nat) (acc : Acc) (r : TRec) (xs : List Nat) : Option Nat :=
  lowestCode ((ownCauses s a (elemAddr r xs) (elemBytes r xs) acc false (e.skipWatch.getLsbD t)).filter (· != cALIGN))

/-- An element's memory key, or the lowest of the causes of its translation and of the access (R160, R168). -/
def elemSite (s : State) (a : Agent) (e : Entry) (t : Nat) (acc : Acc) (r : TRec) (xs : List Nat) : Except Nat Nat × State :=
  match translate s (coreOf a) (agentVf s a) (elemAddr r xs) acc (isHandler a), elemCause s a e t acc r xs with
  | (.ok k, s), none => (.ok k, s)
  | (.ok _, s), some c => (.error c, s)
  | (.error c, s), none => (.error c, s)
  | (.error c, s), some c' => (.error (min c c'), s)

/-- The coordinates of a thread: c registers from va on, zero for the further dimensions (R167). -/
def threadCoords (x : Core) (w : Weave) (t va n : Nat) : Except Nat (List Nat) :=
  gatherWith ((List.range n).map (fun i => readReg x w t (va + i) false))
    (fun vs => .ok ((vs.map (fun v => (lowWord v).toNat) ++ List.replicate 5 0).take 5))

/-- One thread's `ldt`: the result and its flags (DESIGN CHOICE, log entry 68). -/
def ldtOne (s : State) (a : Agent) (e : Entry) (r : TRec) (f32 : Bool) (t : Nat) (xs : List Nat) : Except Cause (Double × Flags) × State :=
  if !inDims r xs then (.error (cBOUNDS, unitAddr r xs), s)
  else if beyondWindow (windowOf s a) xs then (.ok (0#64, 0#6), s)
  else
    match elemSite s a e t .load r xs with
    | (.error c, s) => (.error (c, elemAddr r xs), countRequest s a t .load e.pc.toNat (elemAddr r xs) (.error c))
    | (.ok _, s) =>
      match (if f32 then readElem (agentRd a) r xs s else
          match readCode (agentRd a) r xs s with
          | (.error c, s) => (.error c, s)
          | (.ok code, s) =>
            if r.esc && r.bsize = 0 then
              match readSide (agentRd a) r xs s with
              | (.error c, s) => (.error c, s)
              | (.ok _, s) => (.ok { code := code, scale := none, outlier := none }, s)
            else (.ok { code := code, scale := none, outlier := none }, s)) with
      | (.error c, s) => (.error c, countRequest s a t .load e.pc.toNat c.2 (.error c.1))
      | (.ok x, s) =>
        let s := countRequest s a t .load e.pc.toNat (elemAddr r xs) (.ok 0)
        (.ok (if f32 then elemF32 (recFmt r) x else (BitVec.ofNat 64 x.code, 0#6)), s)

/-- The outcome of one thread of a tensor instruction, with the address that met its cause. -/
abbrev Elems := List (Nat × Except Cause (Double × Flags))

def ldtAll (a : Agent) (e : Entry) (r : TRec) (f32 : Bool) : State → List (Nat × Except Nat (List Nat)) → Elems × State
  | s, [] => ([], s)
  | s, (t, .error c) :: rest => match ldtAll a e r f32 s rest with | (l, s) => ((t, .error (c, 0)) :: l, s)
  | s, (t, .ok xs) :: rest =>
    match ldtOne s a e r f32 t xs with
    | (v, s) => match ldtAll a e r f32 s rest with | (l, s) => ((t, v) :: l, s)

/-- The runs of a tensor load: an enabled trap leaves the thread's register unwritten (R168, 09 R222). -/
def elemRuns (w : Weave) (l : Elems) : List Run :=
  l.map (fun x =>
    { tid := x.1, gen := readGen w x.1,
      res := match x.2 with
        | .error c => .error c.1
        | .ok y => match fpTrap w.mode y.2 with | some c => .error c | none => .ok y })

/-- The parked threads of a tensor instruction, with their addresses. -/
def elemParks (w : Weave) (l : Elems) : Groups :=
  l.filterMap (fun x => match x.2 with
    | .error c => some (maskOf [x.1], .park c.1 (BitVec.ofNat 64 c.2))
    | .ok y => (fpTrap w.mode y.2).map (fun c => (maskOf [x.1], .park c 0#64)))

/-- A value and its flags as one entry of the load-value queue. -/
def withFlags (y : Double × Flags) : Double := (y.2 ++ (lowWord y.1)).setWidth 64

def ofFlags (v : Double) : Double × Flags := ((lowWord v).setWidth 64, v.extractLsb' 32 6)

def flaggedVals (l : Elems) : List (Nat × Double) :=
  l.filterMap (fun x => match x.2 with | .ok y => some (x.1, withFlags y) | .error _ => none)

/-- The end of a tensor load whose elements are known. -/
def ldtEnd (s : State) (c k : Nat) (d : Nat) (ins : Option (List Nat)) (l : Elems) (late : Mask) : Done :=
  match getWeave s c k with
  | none => moved s [] 1
  | some w =>
    let x := commitRuns s c k w (.reg d false) false false 1 ins (elemRuns w l)
    { x with gs := elemParks w l ++ [(late, .hold (.waiting .pairOp))] }

/-- Every thread parked with the lower of its operand's cause and a cause that all of them meet (05 R106). -/
def parkLowest {α : Type} (xs : List (Nat × Except Nat α)) (cause : Cause) : Groups :=
  xs.map (fun x => (maskOf [x.1], match x.2 with
    | .error c => if c < cause.1 then .park c 0#64 else .park cause.1 (BitVec.ofNat 64 cause.2)
    | .ok _ => .park cause.1 (BitVec.ofNat 64 cause.2)))

/-- The threads whose element lies beyond the true-shape window (04 R88). -/
def outside (s : State) (a : Agent) (xs : List (Nat × Except Nat (List Nat))) : Mask :=
  maskOf (xs.filterMap (fun x => match x.2 with
    | .ok v => if beyondWindow (windowOf s a) v then some x.1 else none
    | .error _ => none))

/-- A tensor record as the trailing copy takes it beside the values of a load of an immutable tensor: eight words under the numbers 32 to 39. -/
def recordVals (raw : Nat) : List (Nat × Double) := (List.range 8).map (fun i => (32 + i, BitVec.ofNat 64 (bits raw (64 * i) 64)))

/-- The record among the values a trailing copy takes, where the leading copy passed one. -/
def recordOf (vals : List (Nat × Double)) : Option Nat :=
  if vals.any (fun v => v.1 == 39) then
    some ((List.range 8).foldl (fun a i => a + (match vals.find? (fun v => v.1 == 32 + i) with | some v => v.2.toNat | none => 0) * 2 ^ (64 * i)) 0)
  else none

/-- The lookup of a tensor load: only of an immutable tensor (10 R243). The threads beyond the true-shape window stand in the key, so that a
hit gives what execution would (04 R88, 10 R240) (DEDUCED, log entry 67). -/
def ldtLookup (s : State) (c k : Nat) (w : Weave) (e : Entry) (act : Mask) (x tx n : Nat) (f32 : Bool) (raw : Nat)
    (xs : List (Nat × Except Nat (List Nat))) : Found × State × Weave :=
  if (TRec.of raw).imm then
    loadLookup s c k w e act 1 [141, tx, n, (if f32 then 1 else 0), raw, (outside s (.weave c k) xs).toNat]
      (fun w => allNames ((List.range n).map (fun i => nameOfTags [vtag w (x + i)])))
  else (.off, s, w)

/-- A tensor load after its lookup; a thread whose coordinates raise a cause binds nothing (10 R259). `run`: the execution, with the key to
insert under; `give`: the values passed to the trailing copy. -/
def ldtFound (f : Found × State × Weave) (c k d : Nat) (xs : List (Nat × Except Nat (List Nat))) (run : Option (List Nat) → State → Done)
    (give : State → List (Nat × Double) → State) : Done :=
  match f with
  | (.hit v, s, w) =>
    if xs.all (fun x => match x.2 with | .ok _ => true | .error _ => false) then
      let y := bindHit s c k w (.reg d false) false v
      { y with s := give y.s (allThreads.map (fun t => (t, withFlags (entryValue (getCore s c) v t, v.flags.getD t 0#6)))) }
    else run none (putWeave s c k w)
  | (.insert key, s, w) => run (some key) (putWeave s c k w)
  | (.miss, s, w) => untagMissed (run none (putWeave s c k w)) [d]
  | (.off, s, w) => run none (putWeave s c k w)

/-- The own execution of a tensor load: the record first, then the lookup of an immutable tensor, then the elements (10 R253). -/
def ldtOwn (s : State) (c k : Nat) (w : Weave) (e : Entry) (act : Mask) (d x tx n : Nat) (f32 : Bool)
    (xs : List (Nat × Except Nat (List Nat))) : Done :=
  let a := Agent.weave c k
  match agentLaunch s a with
  | none => moved s [] 1
  | some l =>
    match readRec (agentRd a) s (tensorAddr l tx) with
    | (.error cause, s) => moved s (parkLowest xs cause) (countOf act)
    | (.ok (r, raw), s) =>
      let give := fun (s : State) (vals : List (Nat × Double)) =>
        if vals.isEmpty then s
        else giveValue s a e.pc (vals ++ if r.imm && act = BitVec.allOnes 32 then recordVals raw else [])
      let run := fun (ins : Option (List Nat)) (s : State) =>
        match ldtAll a e r f32 s xs with
        | (l, s) => ldtEnd (give s (flaggedVals l)) c k d ins l 0#32
      ldtFound (ldtLookup s c k ((getWeave s c k).getD w) e act x tx n f32 raw xs) c k d xs run give

/-- The execution of a tensor load by the trailing copy, with the values of the leading one; it looks up in its own store (10 R258). -/
def ldtGiven (s : State) (c k : Nat) (w : Weave) (e : Entry) (act : Mask) (d x tx n : Nat) (f32 : Bool)
    (xs : List (Nat × Except Nat (List Nat))) (vals : List (Nat × Double)) : Done :=
  let st : Loaded := xs.map (fun r => (r.1, match r.2 with | .error c => .error c | .ok _ => .ok 0#64))
  let g := givenVals st vals
  let l : Elems := g.1.map (fun r => (r.1, match r.2 with | .ok v => .ok (ofFlags v) | .error c => .error (c, 0)))
  let run := fun (ins : Option (List Nat)) (s : State) => ldtEnd s c k d (if g.2 = 0#32 then ins else none) l g.2
  match recordOf vals with
  | some raw => ldtFound (ldtLookup s c k ((getWeave s c k).getD w) e act x tx n f32 raw xs) c k d xs run (fun s _ => s)
  | none => run none s

/-- LDT (R168). -/
def execLdt (d x : BitVec 7) (tx : BitVec 8) (n : BitVec 3) (f32 : Bool) (s : State) : Out :=
  laneIssue s (twoWord [(d.toNat, 1), (x.toNat, n.toNat)]) (fun s c k w e act =>
    let a := Agent.weave c k
    let xs := (threadsOf act).map (fun t => (t, threadCoords (getCore s c) w t x.toNat n.toNat))
    if act = 0#32 then moved s [] 0
    else
      match takeValue s a e.pc act with
      | .own => ldtOwn s c k w e act d.toNat x.toNat tx.toNat n.toNat f32 xs
      | .given vals s => ldtGiven s c k w e act d.toNat x.toNat tx.toNat n.toNat f32 xs vals
      | .wait => waits s (.waiting .pairOp)
      | .broken => moved (pairFail s a) [] 1)

/-! ## Tensor element stores -/

/-- The code that `stt` writes: the data's low bits, or its value divided by the scale and rounded once, with the flags of both (R168, R218,
R219) (DESIGN CHOICE, log entry 68). -/
def sttCode (r : TRec) (f32 : Bool) (rnd : Rnd) (scale : Option Nat) (data : Double) : Rounded :=
  let f := recFmt r
  if f32 then
    let v := Fmt.f32.value (lowWord data).toNat
    match scale with
    | some c =>
      let q := v.div (scaleValue c)
      let y := f.round rnd.mode rnd.d0 q.1
      { y with flags := y.flags ||| q.2 }
    | none => f.round rnd.mode rnd.d0 v
  else { bits := data.toNat % 2 ^ f.width, flags := 0#6 }

/-- The write of a code: the bytes of the element, with a mask where it does not fill them (R168) (DEDUCED, log entry 57). -/
def elemStore (r : TRec) (xs : List Nat) (key code : Nat) : ThreadStore :=
  let n := elemBytes r xs
  let w := (recFmt r).width
  { circle := false, va := elemAddr r xs, key := key, data := bytesLE n (code <<< elemShift r xs), full := false,
    bits := if w = 8 * n then [] else bytesLE n ((2 ^ w - 1) <<< elemShift r xs) }

/-- The store of a code by `stt`: where elements do not fill their unit, its high bits are written as zero (R234) (DEDUCED, log entry 57). -/
def sttStore (r : TRec) (xs : List Nat) (key code : Nat) : ThreadStore :=
  let w := (recFmt r).width
  let used := perUnit (recFmt r) * w
  if used = 64 then elemStore r xs key code
  else
    { circle := false, va := unitAddr r xs, key := key - unitBit r xs / 8, data := bytesLE 8 (code <<< unitBit r xs), full := false,
      bits := bytesLE 8 (((2 ^ w - 1) <<< unitBit r xs) + (2 ^ 64 - 2 ^ used)) }

/-- What one thread of an `stt` does: nothing beyond the window, a store with its flags, or a cause. -/
structure SttRun where
  tid : Nat
  gen : Double
  res : Except Cause (Option ThreadStore × Flags)

def sttOne (s : State) (a : Agent) (e : Entry) (w : Weave) (r : TRec) (f32 : Bool) (rm : RMode) (t : Nat) (xs : List Nat) (data : Double) :
    SttRun × State :=
  let g := readGen w t
  let bad := fun (c va : Nat) (s : State) => (({ tid := t, gen := g, res := .error (c, va) } : SttRun), s)
  if !inDims r xs then bad cBOUNDS (unitAddr r xs) s
  else if beyondWindow (windowOf s a) xs then ({ tid := t, gen := g, res := .ok (none, 0#6) }, s)
  else
    match elemSite s a e t .store r xs with
    | (.error c, s) => bad c (elemAddr r xs) (countRequest s a t .store e.pc.toNat (elemAddr r xs) (.error c))
    | (.ok key, s) =>
      let s := countRequest s a t .store e.pc.toNat (elemAddr r xs) (.ok key)
      match (if f32 && r.bsize != 0 then
          match readSide (agentRd a) r xs s with
          | (.ok v, s) => (.ok (some (v % 256)), s)
          | (.error c, s) => (.error c, s)
        else ((.ok none : Except Cause (Option Nat)), s)) with
      | (.error c, s) => bad c.1 c.2 s
      | (.ok sc, s) =>
        match takeDraws rm (if f32 then 1 else 0) g with
        | (rnd, g) =>
          let y := sttCode r f32 rnd sc data
          match fpTrap w.mode y.flags with
          | some c => ({ tid := t, gen := g, res := .error (c, 0) }, s)
          | none => ({ tid := t, gen := g, res := .ok (some (sttStore r xs key y.bits), y.flags) }, s)

def sttAll (a : Agent) (e : Entry) (w : Weave) (r : TRec) (f32 : Bool) (rm : RMode) :
    State → List (Nat × Except Nat (List Nat × Double)) → List SttRun × State
  | s, [] => ([], s)
  | s, (t, .error c) :: rest =>
    match sttAll a e w r f32 rm s rest with | (l, s) => ({ tid := t, gen := readGen w t, res := .error (c, 0) } :: l, s)
  | s, (t, .ok (xs, data)) :: rest =>
    match sttOne s a e w r f32 rm t xs data with
    | (x, s) => match sttAll a e w r f32 rm s rest with | (l, s) => (x :: l, s)

/-- The flags raised and the generators advanced by the threads of an `stt`. -/
def applyStt (w : Weave) (l : List SttRun) : Weave :=
  l.foldl (fun w x =>
    let w := writeGen w x.tid x.gen
    match x.res with | .ok y => raiseFlags w x.tid y.2 | .error _ => w) w

/-- The operands of a thread's `stt`. -/
def sttArgs (x : Core) (w : Weave) (t va n : Nat) (data : LSrc) : Except Nat (List Nat × Double) :=
  match threadCoords x w t va n, readLSrc x w t data false 0#64 with
  | .ok xs, .ok d => .ok (xs, d)
  | .ok _, .error c => .error c
  | .error c, .ok _ => .error c
  | .error c, .error c' => .error (min c c')

/-- STT (R168): the region closes first; an immutable tensor or one with escapes raises BOUNDS. -/
def execStt (t : LSrc) (x : BitVec 7) (tx : BitVec 8) (n : BitVec 3) (f32 : Bool) (round : Round) (s : State) : Out :=
  laneIssue s (twoWord ([(x.toNat, n.toNat)] ++ lsrcRegs t 1)) (fun s c k w e act =>
    let a := Agent.weave c k
    let s := closeFor s c k
    let q := plainStore false .b64
    if act = 0#32 then moved s [] 0
    else
      match storeWait s a q, agentLaunch s a with
      | some v, _ => waits s (.waiting v)
      | none, none => moved s [] 1
      | none, some l =>
        let args := (threadsOf act).map (fun i => (i, sttArgs (getCore s c) w i x.toNat n.toNat t))
        match readRec (agentRd a) s (tensorAddr l tx.toNat) with
        | (.error cause, s) => moved s (parkLowest args cause) (countOf act)
        | (.ok (r, _), s) =>
          if r.imm || r.esc then moved s (parkLowest args (cBOUNDS, 0)) (countOf act)
          else
            match sttAll a e w r f32 (resolve w.mode round) s args with
            | (runs, s) =>
              let s := onWeave s c k (fun w => applyStt w runs)
              let writes := runs.filterMap (fun y => match y.res with | .ok (some st, _) => some st | _ => none)
              let mask := maskOf (runs.filterMap (fun y => match y.res with | .ok (some _, _) => some y.tid | _ => none))
              let req : StoreReq := { writes := writes, rel := none, through := false, width := 0, ord := 0, mask := mask }
              let s := if writes.isEmpty then s else enterFor s a req
              moved s (runs.filterMap (fun y => match y.res with
                | .error cause => some (maskOf [y.tid], .park cause.1 (BitVec.ofNat 64 cause.2))
                | .ok _ => none)) (countOf act))

end Sys2Proof.Machine
end

