-- ==== Sys2Proof/Machine/Engines.lean ====
section
/-!
DEFINITION. The issue of engine commands (07 R177 to R182, 13 R312 to R327): what is checked and read at issue, the queues, claims
and releases of slath units, `waitc`, `qfence` and `termrd`.
-/

namespace Sys2Proof.Machine

open Sys2Proof

/-! ## The issue of a command (R177) -/

/-- What the issue of a command finds: the command, the causes, its queue and counter, whether it writes global memory, and what
its store-group member holds (20 R404). -/
structure Ask where
  op : CmdOp
  causes : List Nat
  q : Nat
  ctr : Option (Double × Scope)
  writes : Bool
  sig : List Byte
deriving DecidableEq, Repr, Inhabited

/-- A command entering its queue; a command of a leading copy that acts once is held until its group matches (20 R405) (DEDUCED, log entry 56). -/
def pushCmd (s : State) (a : Agent) (e : Entry) (tid : Nat) (k : Ask) (hold : Bool) : State :=
  let (n, s) := nextSeq s
  let cmd : Cmd := { op := k.op, issuer := a, inst := (agentInst s a).getD 0, pc := e.pc, prio := e.prio, tid := tid, ctr := k.ctr, seq := n,
                     window := windowOf s a, fault := none, started := false, held := hold }
  onCore s (coreOf a) (fun x => { x with queues := x.queues.modify k.q (· ++ [cmd]) })

/-- The counter address of a command and its causes (R180, 08 R215). -/
def ctrCauses (s : State) (a : Agent) : Option (Double × Scope) → List Nat
  | none => []
  | some (addr, sc) => (if addr.toNat % 8 != 0 then [cALIGN] else []) ++ (if scopeDenied s a sc then [cSCOPE] else [])

def ctrMember (ctr : Option (Double × Scope)) : List Byte :=
  match ctr with
  | none => []
  | some (addr, _) => bytesLE 8 addr.toNat

/-- Whether a command acts once for a paired launch: it writes global memory or adds to a counter (20 R403). -/
def actsOnce (k : Ask) : Bool := k.writes || k.ctr.isSome

/-- The command enters its queue, the entry parks with the lowest cause, or it waits (R177, 20 R405, R409). A command that belongs to no group
of a paired copy may start once the copy's earlier stores are performed (08 R207) (DEDUCED, log entry 18) (DEDUCED, log entry 64). -/
def issueCmd (s : State) (a : Agent) (e : Entry) (act : Mask) (tid : Nat) (k : Ask) (after : State → State) : Done :=
  match lowestCode k.causes with
  | some c => parkAll s e.mask c 0#64
  | none =>
    if 16 ≤ ((getCore s (coreOf a)).queues.getD k.q []).length then waits s (.waiting (.queue k.q))
    else if isPaired s a && actsOnce k then
      if groupStall s a then waits s (.waiting .slack)
      else
        let sc := match k.ctr with | some (_, sc) => scopeCode sc | none => 0
        let bytes := memberHead 5 0 sc act ++ k.sig ++ ctrMember k.ctr
        let op := PairOp.command k.q s.seq
        if memberReplays s a then moved (joinGroup s a bytes op) [] 1
        else moved (joinGroup (after (pushCmd s a e tid k (!isTrailing s a))) a bytes op) [] 1
    else if isReplaying s a then moved s [] 1
    else if isTrailing s a || flowDone s a then moved (after (pushCmd s a e tid k false)) [] 1
    else if groupStall s a then waits s (.waiting .slack)
    else
      let op := PairOp.command k.q s.seq
      moved (onPair (after (pushCmd s a e tid k true)) a (fun p => rideGroup p op true)) [] 1

/-- The elected thread's counter pair (R177, R180). -/
def laneCtr (x : Core) (w : Weave) (t : Nat) : Option (BitVec 7 × Scope) → Except Nat (Option (Double × Scope))
  | none => .ok none
  | some (r, sc) => match readReg x w t r.toNat true with | .ok v => .ok (some (v, sc)) | .error c => .error c

def uniCtr (s : State) (a : Agent) : Option (BitVec 6 × Scope) → Except Nat (Option (Double × Scope))
  | none => .ok none
  | some (r, sc) => match readSReg s a r.toNat true with | .ok v => .ok (some (v, sc)) | .error c => .error c

def ctrRegs (c : Option (BitVec 7 × Scope)) : List (Nat × Nat) := match c with | some (r, _) => [(r.toNat, 2)] | none => []

/-- Two operand outcomes, the lowest cause first. -/
def both {α β : Type} (x : Except Nat α) (y : Except Nat β) : Except Nat (α × β) :=
  match x, y with
  | .ok a, .ok b => .ok (a, b)
  | .ok _, .error c => .error c
  | .error c, .ok _ => .error c
  | .error c, .error c' => .error (min c c')

/-! ## Box copies (R178) -/

/-- The 64-bit units of a row of 2^e elements. -/
def rowUnits (f : NumFmt) (e : Nat) : Nat := (2 ^ e + perUnit f - 1) / perUnit f

/-- The bytes of a packed box. -/
def packedSize (f : NumFmt) (e0 e1 : Nat) : Nat := 2 ^ e1 * 8 * rowUnits f e0

/-- Whether a window of extents lies within a tensor's dimensions. -/
def boxInside (r : TRec) (xs : List Nat) (n0 n1 : Nat) : Bool :=
  coord xs 0 + n0 ≤ extent r 0 && coord xs 1 + n1 ≤ extent r 1 && (List.range 3).all (fun i => coord xs (i + 2) < extent r (i + 2))

/-- A tensor record as a command reads it at issue: the record, or the cause (DEDUCED, log entry 18). -/
def issueRec (s : State) (a : Agent) (tx : Nat) : Except Nat (TRec × Nat) × State :=
  match agentLaunch s a with
  | none => (.error cNOTPRESENT, s)
  | some l =>
    match readRec (agentRd a) s (tensorAddr l tx) with
    | (.ok r, s) => (.ok r, s)
    | (.error c, s) => (.error c.1, s)

/-- The causes of a box copy, apart from its counter's (DEDUCED, log entry 18). -/
def boxCauses (r : TRec) (z : Option Circle) (xs : List Nat) (off e0 e1 : Nat) : List Nat :=
  let n := packedSize (recFmt r) e0 e1
  (if off % 16 != 0 then [cALIGN] else [])
    ++ (if n ≤ 65536 && boxInside r xs (2 ^ e0) (2 ^ e1) && (match z with | some z => decide (off + n ≤ z.size) | none => false)
        then [] else [cBOUNDS])

def coordBytes (xs : List Nat) : List Byte := xs.flatMap (bytesLE 4)

/-- The issue of a box copy with its operands read. -/
def boxIssue (s : State) (a : Agent) (e : Entry) (act : Mask) (tid : Nat) (out : Bool) (tx q e0 e1 : Nat) (xs : List Nat) (off : Nat)
    (ctr : Option (Double × Scope)) : Done :=
  match issueRec s a tx with
  | (.error c, s) =>
    parkAll s e.mask ((lowestCode (c :: ctrCauses s a ctr ++ (if off % 16 != 0 then [cALIGN] else []))).getD c) 0#64
  | (.ok (r, raw), s) =>
    let z := circleWindow s a
    let key := (match z with | some z => z.base | none => 0) + off
    issueCmd s a e act tid
      { op := if out then .cpyOut raw xs key e0 e1 else .cpyIn raw xs key e0 e1, causes := ctrCauses s a ctr ++ boxCauses r z xs off e0 e1,
        q := q, ctr := ctr, writes := out, sig := bytesLE 4 (tx * 65536 + e0 * 256 + e1) ++ coordBytes xs ++ bytesLE 4 off } id

/-- A lane box copy. -/
def laneBox (f : LaneBox) (out : Bool) (s : State) : Out :=
  laneIssue s (twoWord (ctrRegs f.ctr ++ [(f.x.toNat, f.n.toNat)] ++ lsrcRegs f.o 1)) (fun s c k w e act =>
    let s := closeFor s c k
    if act = 0#32 then moved s [] 1
    else
      let x := getCore s c
      let t := lowest act
      match both (threadCoords x w t f.x.toNat f.n.toNat) (both (readLSrc x w t f.o false 0#64) (laneCtr x w t f.ctr)) with
      | .error c => parkAll s e.mask c 0#64
      | .ok (xs, off, ctr) =>
        boxIssue s (.weave c k) e act t out f.tx.toNat (if f.q then 1 else 0) f.e0.toNat f.e1.toNat xs (lowWord off).toNat ctr)

/-- CPY_IN (R178). -/
def execCpyIn (f : LaneBox) (s : State) : Out := laneBox f false s

/-- CPY_OUT (R178). -/
def execCpyOut (f : LaneBox) (s : State) : Out := laneBox f true s

/-- Coordinates from uniform registers (R167). -/
def uniCoords (s : State) (a : Agent) (r n : Nat) : Except Nat (List Nat) :=
  gatherWith ((List.range n).map (fun i => readSReg s a (r + i) false))
    (fun vs => .ok ((vs.map (fun v => (lowWord v).toNat) ++ List.replicate 5 0).take 5))

/-- The thread index that a command of a uniform form names (R177): the lowest of its entry. -/
def electedOf (a : Agent) (e : Entry) : Nat :=
  match a with
  | .weave _ _ => lowest e.mask
  | _ => 0

/-- A uniform box copy; engines take commands of weaves and steer threads (01 R18), and the handler slot's is illegal (DEDUCED, log entry 65). -/
def uniBox (f : UniBox) (out : Bool) (s : State) : Out :=
  uniIssue s (uniAt 8 .weaveSteer) (fun s a e =>
    let s := closeAgent s a
    match both (uniCoords s a f.x.toNat f.n.toNat) (both (readUSrc s a f.o false 0#64) (uniCtr s a f.ctr)) with
    | .error c => parkAll s e.mask c 0#64
    | .ok (xs, off, ctr) =>
      boxIssue s a e e.mask (electedOf a e) out f.tx.toNat (if f.q then 1 else 0) f.e0.toNat f.e1.toNat xs (lowWord off).toNat ctr)

/-- U_CPY_IN (R178). -/
def execUCpyIn (f : UniBox) (s : State) : Out := uniBox f false s

/-- U_CPY_OUT (R178). -/
def execUCpyOut (f : UniBox) (s : State) : Out := uniBox f true s

/-! ## Global copies (R179) -/

def cpyQueue : CpyQ → Nat
  | .copy0 => 0
  | .copy1 => 1
  | .fabric => 3

def copyIssue (s : State) (a : Agent) (e : Entry) (act : Mask) (tid : Nat) (q len : Nat) (src dst : Nat) (ctr : Option (Double × Scope)) : Done :=
  issueCmd s a e act tid
    { op := .cpyG src dst (len * 16), causes := ctrCauses s a ctr ++ (if src % 16 != 0 || dst % 16 != 0 then [cALIGN] else []), q := q,
      ctr := ctr, writes := true, sig := bytesLE 4 len ++ bytesLE 8 src ++ bytesLE 8 dst } id

/-- CPY_G (R179). -/
def execCpyG (f : LaneCpyG) (s : State) : Out :=
  laneIssue s (twoWord (ctrRegs f.ctr ++ lsrcRegs f.a 2 ++ lsrcRegs f.b 2)) (fun s c k w e act =>
    let s := closeFor s c k
    if act = 0#32 then moved s [] 1
    else
      let x := getCore s c
      let t := lowest act
      match both (gather [readLSrc x w t f.a true 0#64, readLSrc x w t f.b true 0#64]) (laneCtr x w t f.ctr) with
      | .error c => parkAll s e.mask c 0#64
      | .ok (vs, ctr) =>
        copyIssue s (.weave c k) e act t (cpyQueue f.q) f.len.toNat (vs.getD 0 0#64).toNat (vs.getD 1 0#64).toNat ctr)

/-- U_CPY_G (R179), from a weave or a steer thread (01 R18) (DEDUCED, log entry 65). -/
def execUCpyG (f : UniCpyG) (s : State) : Out :=
  uniIssue s (uniAt 8 .weaveSteer) (fun s a e =>
    let s := closeAgent s a
    match both (gather [readUSrc s a f.a true 0#64, readUSrc s a f.b true 0#64]) (uniCtr s a f.ctr) with
    | .error c => parkAll s e.mask c 0#64
    | .ok (vs, ctr) =>
      copyIssue s a e e.mask (electedOf a e) (cpyQueue f.q) f.len.toNat (vs.getD 0 0#64).toNat (vs.getD 1 0#64).toNat ctr)

/-! ## waitc, qfence (R181, R182) -/

/-- A counter read for a `waitc`: the count, or the cause. -/
def readCounter (s : State) (a : Agent) (addr : Double) : Except Nat Nat × State :=
  if addr.toNat % 8 != 0 then
    match translate s (coreOf a) (agentVf s a) addr.toNat .load (isHandler a) with
    | (.error c, s) => (.error (min c cALIGN), s)
    | (.ok _, s) => (.error cALIGN, s)
  else
    match translate s (coreOf a) (agentVf s a) addr.toNat .load (isHandler a) with
    | (.error c, s) => (.error c, s)
    | (.ok k, s) =>
      let own := pendingOf s a
      match readHome s (coreOf a) (serialOf s a) k 8 with
      | (_, true, s) => (.error cPOISON, s)
      | (d, false, s) => (.ok (natLE (pendingOver own false k d)), s)

/-- A `waitc` tried: it completes once the count is reached, which acts as an acquire (R181, 08 R190). -/
def tryWaitc (s : State) (a : Agent) (e : Entry) (addr : Double) (n : Nat) : Done :=
  match readCounter s a addr with
  | (.error c, s) => parkAll s e.mask c addr
  | (.ok v, s) => if n ≤ v then moved (dropL1 s (coreOf a)) [] 1 else waits s (.waiting (.waitc addr n))

/-- WAITC (R181): the counter and the count of the elected thread. -/
def execWaitc (a b : LSrc) (k : BitVec 28) (s : State) : Out :=
  laneIssue s (twoWord (lsrcRegs a 2 ++ lsrcRegs b 1)) (fun s c slot w e act =>
    if act = 0#32 then moved s [] 1
    else
      let x := getCore s c
      match gather [readLSrc x w (lowest act) a true 0#64, readLSrc x w (lowest act) b false (litValue .w32 k)] with
      | .error c => parkAll s e.mask c 0#64
      | .ok vs => tryWaitc s (.weave c slot) e (vs.getD 0 0#64) (lowWord (vs.getD 1 0#64)).toNat)

/-- U_WAITC (R181). -/
def execUWaitc (a b : USrc) (k : BitVec 28) (s : State) : Out :=
  uniIssue s (uniAny 8) (fun s ag e =>
    match gather [readUSrc s ag a true 0#64, readUSrc s ag b false (litValue .w32 k)] with
    | .error c => parkAll s e.mask c 0#64
    | .ok vs => tryWaitc s ag e (vs.getD 0 0#64) (lowWord (vs.getD 1 0#64)).toNat)

/-- A `qfence` joins its queues from its place in issue order on. -/
def addFence (s : State) (a : Agent) (m : BitVec 4) : State :=
  let (n, s) := nextSeq s
  onCore s (coreOf a) (fun x => { x with fences := x.fences ++ [{ mask := m, seq := n, inst := (agentInst s a).getD 0 }] })

/-- QFENCE (R182). -/
def execQfence (m : BitVec 4) (s : State) : Out :=
  laneIssue s (oneWord []) (fun s c k _ _ act =>
    let s := closeFor s c k
    if act = 0#32 || isReplaying s (.weave c k) then moved s [] 1 else moved (addFence s (.weave c k) m) [] 1)

/-- U_QFENCE (R182), from a weave or a steer thread (01 R18) (DEDUCED, log entry 65). -/
def execUQfence (m : BitVec 4) (s : State) : Out :=
  uniIssue s (uniAt 4 .weaveSteer) (fun s a _ =>
    let s := closeAgent s a
    if isReplaying s a then moved s [] 1 else moved (addFence s a m) [] 1)

/-! ## Slath units (13 R314 to R317) -/

def getSlot (x : Core) (u : Nat) : Slot := sget Slot.blank x.slots u
def putSlot (x : Core) (u : Nat) (y : Slot) : Core := { x with slots := sput x.slots u y }
def getRim (x : Core) (u : Nat) : Rim := sget Rim.blank x.rims u
def putRim (x : Core) (u : Nat) (y : Rim) : Core := { x with rims := sput x.rims u y }

/-- Whether a slot belongs to a weave, which keeps it over a restart in another role (R316). -/
def slotOf (y : Slot) (w : Weave) (k : Nat) : Bool := y.inst == w.inst && y.weave == k

/-- Whether a slot is held by a weave: claimed or loaded. -/
def slotHeld (y : Slot) (w : Weave) (k : Nat) : Bool := slotOf y w k && (y.state == .claimed || y.state == .loaded)

/-- Whether a rim tile is another's: of another instance, or of a tile node (R315, R317). -/
def rimTaken (x : Core) (u inst : Nat) : Bool :=
  match (getRim x u).holder with
  | .free => false
  | .inst k => k != inst
  | .tileNode => true

/-- A free rim tile held by the instance that names it first (R317). -/
def takeRim (x : Core) (u inst : Nat) : Core := putRim x u { getRim x u with holder := .inst inst }

def unitsFrom (u n : Nat) : List Nat := (List.range n).map (u + ·)

/-- The claims that wait on a core, each with its place in issue order. -/
def claimsWaiting (x : Core) : List (Nat × Nat × Nat) :=
  x.weaves.flatMap (fun e => e.2.frontier.filterMap (fun y =>
    match y.state with | .waiting (.sclaim u n q) => some (q, u, n) | _ => none))

/-- Whether a slot claim is granted: every slot free, no claim issued before it waiting (R315). -/
def claimNow (x : Core) (u n order : Nat) : Bool :=
  (unitsFrom u n).all (fun i => (getSlot x i).state == .free) && !(claimsWaiting x).any (fun q => q.1 < order)

/-- The slots of a claim claimed for a weave in one step. -/
def grantClaim (x : Core) (w : Weave) (k u n : Nat) : Core :=
  (unitsFrom u n).foldl (fun x i =>
    putSlot x i { Slot.blank with state := .claimed, inst := w.inst, weave := k, role := w.role, wid := w.wid, codes := (getSlot x i).codes }) x

/-- SCLAIM (R315). -/
def execSclaim (u : BitVec 7) (n : BitVec 6) (s : State) : Out :=
  laneIssue s (twoWord []) (fun s c k w e act =>
    let s := closeFor s c k
    let x := getCore s c
    let u := u.toNat
    let n := n.toNat
    if act = 0#32 || isReplaying s (.weave c k) then moved s [] 1
    else if 32 ≤ u then
      if (unitsFrom (u - 32) n).any (fun i => rimTaken x i w.inst) then parkAll s e.mask cSLOT 0#64
      else moved (putCore s c ((unitsFrom (u - 32) n).foldl (fun x i => takeRim x i w.inst) x)) [] 1
    else if x.slots.any (fun y => slotHeld y.2 w k) then parkAll s e.mask cSLOT 0#64
    else if claimNow x u n s.seq then moved (putCore s c (grantClaim x w k u n)) [] 1
    else waits s (.waiting (.sclaim u n s.seq)))

/-- The units of a release enter their state at issue (R316). -/
def markReleasing (x : Core) (u n : Nat) : Core :=
  if 32 ≤ u then x else (unitsFrom u n).foldl (fun x i => putSlot x i { getSlot x i with state := .releasing }) x

/-- SREL (R316). -/
def execSrel (u : BitVec 7) (n : BitVec 6) (s : State) : Out :=
  laneIssue s (twoWord []) (fun s c k w e act =>
    let s := closeFor s c k
    let x := getCore s c
    let u := u.toNat
    let n := n.toNat
    let held := if 32 ≤ u then (unitsFrom (u - 32) n).all (fun i => (getRim x i).holder == .inst w.inst)
      else (unitsFrom u n).all (fun i => slotHeld (getSlot x i) w k)
    if act = 0#32 then moved s [] 1
    else
      issueCmd s (.weave c k) e act (lowest act)
        { op := .srel u n w.wid w.role, causes := if held || isReplaying s (.weave c k) then [] else [cSLOT], q := 2, ctr := none,
          writes := false, sig := [] } (fun s => onCore s c (fun x => markReleasing x u n)))

/-! ## Operand loads (R318, R319) -/

/-- The elements of a line of a slot (R318). -/
def lineLen (f : NumFmt) : Nat := 8 * perUnit f

/-- What a `stk.ld` of a box gives a slot's descriptor (R318). -/
def descOf (tx : Nat) (r : TRec) (xs : List Nat) : SlotDesc :=
  { tx := tx, gen := r.gen, fmt := r.fmt, bsize := r.bsize, esc := r.esc, x := xs }

/-- The descriptor at issue; the codes and their own descriptor stand until the command is performed (R318, R330). -/
def loadSlot (x : Core) (u tx : Nat) (r : TRec) (xs : List Nat) : Core :=
  putSlot x u { getSlot x u with state := .loaded, desc := descOf tx r xs }

/-- The causes of a `stk.ld` that its record decides. -/
def stkCauses (r : TRec) (xs : List Nat) (n : Nat) : List Nat :=
  let f := recFmt r
  let wide := match f with | .ieee g => 16 < g.width | .narrow _ => false
  let high := (List.range 3).all (fun i => n ≤ i + 2 || coord xs (i + 2) < extent r (i + 2))
  if wide || extent r 0 < coord xs 0 + lineLen f || extent r 1 < coord xs 1 + 128
      || (r.bsize != 0 && coord xs 0 % blockLen r != 0) || !high then [cBOUNDS]
  else []

/-- STK_LD (R318). -/
def execStkLd (ctr : Option (BitVec 7 × Scope)) (x : BitVec 7) (slot : BitVec 5) (tx : BitVec 8) (n : BitVec 3) (s : State) : Out :=
  laneIssue s (twoWord (ctrRegs ctr ++ [(x.toNat, n.toNat)])) (fun s c k w e act =>
    let s := closeFor s c k
    let a := Agent.weave c k
    if act = 0#32 then moved s [] 1
    else
      let y := getCore s c
      let t := lowest act
      let u := slot.toNat
      match both (threadCoords y w t x.toNat n.toNat) (laneCtr y w t ctr) with
      | .error c => parkAll s e.mask c 0#64
      | .ok (xs, ctr) =>
        let slotBad := if slotHeld (getSlot y u) w k || isReplaying s a then [] else [cSLOT]
        match issueRec s a tx.toNat with
        | (.error c, s) => parkAll s e.mask ((lowestCode (c :: slotBad ++ ctrCauses s a ctr)).getD c) 0#64
        | (.ok (r, raw), s) =>
          issueCmd s a e act t
            { op := .stkLd u tx.toNat raw xs, causes := slotBad ++ ctrCauses s a ctr ++ stkCauses r xs n.toNat, q := 2, ctr := ctr, writes := false,
              sig := bytesLE 4 (u * 256 + tx.toNat) ++ coordBytes xs } (fun s => onCore s c (fun y => loadSlot y u tx.toNat r xs)))

/-! ## mtile and rim commands (R321 to R326) -/

def fmtOfCode (c : BitVec 16) : NumFmt := (NumFmt.ofCode c).getD default

/-- The depth of a product of two slots (R321). -/
def tileDepth (a b : SlotDesc) : Nat := 8 * (64 / max (fmtOfCode a.fmt).width (fmtOfCode b.fmt).width)

def slotBlock (y : SlotDesc) : Nat := if y.bsize = 1 then 16 else if y.bsize = 2 then 32 else 0

/-- Whether the blocks of two slots keep them from being multiplied (R321): by their descriptors as last issued. -/
def blocksClash (x : Core) (sa sb : Nat) : Bool :=
  let a := (getSlot x sa).desc
  let b := (getSlot x sb).desc
  (slotBlock a != 0 && slotBlock b != 0 && slotBlock a != slotBlock b)
    || (slotBlock a != 0 && tileDepth a b % slotBlock a != 0) || (slotBlock b != 0 && tileDepth a b % slotBlock b != 0)

/-- The causes of an `mtile` (R321). -/
def tileCauses (x : Core) (w : Weave) (k rim sa sb : Nat) : List Nat :=
  let a := getSlot x sa
  let b := getSlot x sb
  let ready := fun (y : Slot) => slotOf y w k && y.state == .loaded
  (if !ready a || !ready b || rimTaken x rim w.inst then [cSLOT] else [])
    ++ (if blocksClash x sa sb then [cBOUNDS] else [])

/-- MTILE (R321). -/
def execMtile (f : LaneMtile) (s : State) : Out :=
  laneIssue s { size := 8, chain := false, elig := false, regs := ctrRegs f.ctr, guard := f.guard } (fun s c k w e act =>
    if act = 0#32 then moved s [] 1
    else
      let s := closeFor s c k
      let a := Agent.weave c k
      let x := getCore s c
      let rim := f.rim.toNat
      match laneCtr x w (lowest act) f.ctr with
      | .error c => parkAll s e.mask c 0#64
      | .ok ctr =>
        issueCmd s a e act (lowest act)
          { op := .mtile rim f.sa.toNat f.sb.toNat f.reuse,
            causes := (if isReplaying s a then [] else tileCauses x w k rim f.sa.toNat f.sb.toNat) ++ ctrCauses s a ctr, q := 2, ctr := ctr,
            writes := false, sig := bytesLE 4 (rim * 65536 + f.sa.toNat * 256 + f.sb.toNat) }
          (fun s => onCore s c (fun x => takeRim x rim w.inst)))

/-- RZERO (R324). -/
def execRzero (rim : BitVec 3) (s : State) : Out :=
  laneIssue s (oneWord []) (fun s c k w e act =>
    let s := closeFor s c k
    if act = 0#32 then moved s [] 1
    else
      issueCmd s (.weave c k) e act (lowest act)
        { op := .rzero rim.toNat, causes := if rimTaken (getCore s c) rim.toNat w.inst then [cSLOT] else [], q := 2, ctr := none, writes := false,
          sig := [] } (fun s => onCore s c (fun x => takeRim x rim.toNat w.inst)))

/-- The rounding of a rim command, resolved at issue; rs is taken as rn (R325, 09 R443). -/
def rimMode (mode : Word) (r : Round) : RMode := match resolve mode r with | .rs => .rn | m => m

/-- The causes of a rim command that its record decides (R326). -/
def rimCauses (r : TRec) (z : Option Circle) (w : RimWin) (circle out : Bool) (xs : List Nat) (off : Nat) : List Nat :=
  let n := packedSize (recFmt r) w.ec w.er
  let inside := if circle then (match z with | some z => decide (off + n ≤ z.size) | none => false) else boxInside r xs (2 ^ w.ec) (2 ^ w.er)
  (if circle && off % 16 != 0 then [cALIGN] else [])
    ++ (if 128 < w.row + 2 ^ w.er || 128 < w.col + 2 ^ w.ec || !inside || (out && !circle && (r.imm || r.bsize != 0 || r.esc))
        then [cBOUNDS] else [])

/-- The operands of a rim command: coordinates, or the circle offset, then the origin and the counter. -/
def rimArgs (x : Core) (w : Weave) (t : Nat) (f : LaneRim) : Except Nat ((List Nat × Nat) × Double × Option (Double × Scope)) :=
  let first : Except Nat (List Nat × Nat) :=
    if f.circle then
      match readLSrc x w t f.x false 0#64 with | .ok v => .ok ([0, 0, 0, 0, 0], (lowWord v).toNat) | .error c => .error c
    else
      match threadCoords x w t (match f.x with | .v n => n.toNat | _ => 0) f.n.toNat with | .ok xs => .ok (xs, 0) | .error c => .error c
  both first (both (readLSrc x w t f.o false 0#64) (laneCtr x w t f.ctr))

/-- The issue of a rim command. -/
def laneRim (f : LaneRim) (out : Bool) (s : State) : Out :=
  laneIssue s (twoWord (ctrRegs f.ctr ++ lsrcRegs f.x (if f.circle then 1 else f.n.toNat) ++ lsrcRegs f.o 1)) (fun s c k w e act =>
    let s := closeFor s c k
    let a := Agent.weave c k
    if act = 0#32 then moved s [] 1
    else
      let x := getCore s c
      let t := lowest act
      match rimArgs x w t f with
      | .error c => parkAll s e.mask c 0#64
      | .ok ((xs, off), origin, ctr) =>
        let win : RimWin := { row := (origin.extractLsb' 0 7).toNat, col := (origin.extractLsb' 16 7).toNat, er := f.er.toNat, ec := f.ec.toNat }
        let rim := f.tile.toNat
        let slotBad := if rimTaken x rim w.inst then [cSLOT] else []
        let offBad := if f.circle && off % 16 != 0 then [cALIGN] else []
        match issueRec s a f.tx.toNat with
        | (.error c, s) => parkAll s e.mask ((lowestCode (c :: slotBad ++ offBad ++ ctrCauses s a ctr)).getD c) 0#64
        | (.ok (r, raw), s) =>
          let z := circleWindow s a
          let key := if f.circle then some ((match z with | some z => z.base | none => 0) + off) else none
          let m := rimMode w.mode f.round
          issueCmd s a e act t
            { op := if out then .rimSt rim raw xs win m key else .rimLd rim raw xs win m key,
              causes := slotBad ++ ctrCauses s a ctr ++ rimCauses r z win f.circle out xs off, q := 2, ctr := ctr, writes := out && !f.circle,
              sig := bytesLE 4 (rim * 256 + f.tx.toNat) ++ bytesLE 4 origin.toNat ++ coordBytes xs ++ bytesLE 4 off }
            (fun s => if out then s else onCore s c (fun x => takeRim x rim w.inst)))

/-- RIM_LD (R326). -/
def execRimLd (f : LaneRim) (s : State) : Out := laneRim f false s

/-- RIM_ST (R326). -/
def execRimSt (f : LaneRim) (s : State) : Out := laneRim f true s

/-! ## termrd (R327) -/

def termGet (t : TermCounts) (k : Nat) : Nat :=
  match k with
  | 0 => t.terms
  | 1 => t.groupcyc
  | 2 => t.tilecyc
  | 3 => t.zero
  | 4 => t.drift
  | _ => t.esc

def termZero (t : TermCounts) (k : Nat) : TermCounts :=
  match k with
  | 0 => { t with terms := 0 }
  | 1 => { t with groupcyc := 0 }
  | 2 => { t with tilecyc := 0 }
  | 3 => { t with zero := 0 }
  | 4 => { t with drift := 0 }
  | _ => { t with esc := 0 }

/-- TERMRD (R327): an entry with no active thread reads nothing. -/
def execTermrd (d : BitVec 7) (clr : Bool) (i : BitVec 3) (s : State) : Out :=
  laneIssue s (oneWord [(d.toNat, 2)]) (fun s c k _ e act =>
    if act = 0#32 then moved s [] 1
    else
      counterRead s c k e (BitVec.ofNat 64 (termGet (getCore s c).term i.toNat)) (fun s v =>
        let s := if clr then onCore s c (fun x => { x with term := termZero x.term i.toNat }) else s
        allPair s c k d.toNat act v))

end Sys2Proof.Machine
end

