-- ==== Sys2Proof/Machine/Perform.lean ====
section
/-!
DEFINITION. The performance of engine commands (07 R177 to R183; 13 R316 to R326): each is one step of its event row, after every
earlier command of its queue. A cause stops the queue with the command at its head (R183).
-/

namespace Sys2Proof.Machine

open Sys2Proof

/-! ## Queues (R177, R182, R183) -/

/-- Whether a command must wait behind a `qfence` (R182). -/
def fenced (x : Core) (q : Nat) (m : Cmd) : Bool :=
  x.fences.any (fun f => f.mask.getLsbD q && f.seq < m.seq
    && (List.range 4).any (fun p => f.mask.getLsbD p && (x.queues.getD p []).any (fun y => y.seq < f.seq)))

/-- Whether a launch of an instance takes containment, which lets no command begin (20 R397). -/
def poisoned (s : State) (c i : Nat) : Bool :=
  match (getInst s c i).bind (fun x => getLaunch s x.serial) with
  | some l => l.poison.isSome
  | none => false

/-- The command of a queue that may be performed now. -/
def headCmd (s : State) (c q : Nat) : Option Cmd :=
  let x := getCore s c
  match (x.queues.getD q []).head? with
  | some m => if m.fault.isSome || m.held || fenced x q m || poisoned s c m.inst then none else some m
  | none => none

def setHead (s : State) (c q : Nat) (f : Cmd → Cmd) : State :=
  onCore s c (fun x => { x with queues := x.queues.modify q (fun l => match l with | m :: r => f m :: r | [] => []) })

/-- A `qfence` that holds back nothing more is gone. -/
def dropFences (x : Core) : Core :=
  { x with fences := x.fences.filter (fun f =>
      (List.range 4).any (fun p => f.mask.getLsbD p && (x.queues.getD p []).any (fun y => y.seq < f.seq))) }

/-- The queue stops with its cause (R183); POISON is noted for containment. -/
def stopQueue (s : State) (c q : Nat) (m : Cmd) (cause va : Nat) : State :=
  let (n, s) := nextSeq s
  let s := setHead s c q (fun m => { m with fault := some (cause, BitVec.ofNat 64 va, n), started := false })
  let s := if q = 2 then onCore s c (fun x => { x with tile := none }) else s
  if cause = cPOISON then
    match (getInst s c m.inst).bind (fun x => getLaunch s x.serial) with
    | some l => onLaunch s l.serial (taint c (agentName s m.issuer m.tid))
    | none => s
  else s

/-! ## What an engine works with -/

/-- The launch and virtual function of a command, and whether it belongs to a trailing copy. -/
structure Eng where
  c : Nat
  q : Nat
  m : Cmd
  serial : Option Nat
  vf : Nat
  trail : Bool

def engOf (s : State) (c q : Nat) (m : Cmd) : Eng :=
  match getInst s c m.inst with
  | some i => { c := c, q := q, m := m, serial := some i.serial, vf := match getLaunch s i.serial with | some l => l.vf | none => 0,
                trail := i.trailing }
  | none => { c := c, q := q, m := m, serial := none, vf := 0, trail := false }

/-- An engine's reads of global memory (R183). -/
def homeRd (g : Eng) : Rd := fun s va n =>
  match translate s g.c g.vf va .load false with
  | (.error e, s) => (.error (e, va), s)
  | (.ok k, s) =>
    match readHome s g.c g.serial k n with
    | (_, true, s) => (.error (cPOISON, va), s)
    | (d, false, s) => (.ok (natLE d), s)

/-- The index of a read among those a command passes to the other copy. -/
def readKey (va n : Nat) : Nat := va * 16 + n

/-- The reads of a leading copy's command, kept until it completes (20 R402). -/
def keepRd (g : Eng) : Rd := fun s va n =>
  match homeRd g s va n with
  | (.ok x, s) => (.ok x, onPair s g.m.issuer (fun p => { p with lvq := p.lvq ++ [.value g.m.pc [(readKey va n, BitVec.ofNat 64 x)]] }))
  | (.error e, s) => (.error e, s)

/-- The reads of a trailing copy's command, from those of the leading one. -/
def givenRd (vals : List (Nat × Double)) : Rd := fun s va n =>
  match vals.find? (fun v => v.1 == readKey va n) with
  | some v => (.ok v.2.toNat, s)
  | none => (.error (cNOTPRESENT, va), s)

/-- The reads a leading copy's command kept, passed on as one entry. -/
def giveReads (s : State) (a : Agent) (pc : Double) : State :=
  match pairOf s a with
  | some p =>
    if p.trailing then s
    else
      let vals := p.lvq.flatMap (fun e => match e with | .value _ v => v | _ => [])
      let s := onPair s a (fun p => { p with lvq := [] })
      if vals.isEmpty then s else onPair s (peerOf p a) (fun q => { q with lvq := q.lvq ++ [.value pc vals] })
  | none => s

/-- Where a command's reads come from, or that it must wait for the leading copy. -/
inductive Source
  | from_ (rd : Rd) (s : State)
  | wait

def sourceOf (s : State) (g : Eng) : Source :=
  match pairOf s g.m.issuer with
  | none => .from_ (homeRd g) s
  | some p =>
    if p.trailing then
      match p.lvq.find? (fits g.m.pc (BitVec.allOnes 32)) with
      | some (.value pc vals) => .from_ (givenRd vals) (onPair s g.m.issuer (fun p => { p with lvq := p.lvq.erase (.value pc vals) }))
      | _ => .wait
    else if lvqOpen s (isSteer g.m.issuer) p then .from_ (keepRd g) (onPair s g.m.issuer (fun p => { p with lvq := [] }))
    else .wait

/-- A write of an engine; the trailing copy's writes to global memory are not made (20 R405) (DEDUCED, log entry 17). -/
def engWrite (g : Eng) (s : State) (va : Nat) (d bits : List Byte) : Except Cause Unit × State :=
  if g.trail then (.ok (), s)
  else
    match translate s g.c g.vf va .store false with
    | (.error e, s) => (.error (e, va), s)
    | (.ok k, s) =>
      if bits.isEmpty then (.ok (), writeHome s g.c g.serial k d)
      else
        match readHome s g.c g.serial k d.length with
        | (old, _, s) => (.ok (), writeHome s g.c g.serial k (mergeBits old d bits))

/-- The counter add of a completed command, a release (R180). -/
def counterAdd (g : Eng) (s : State) : Except Cause Unit × State :=
  match g.m.ctr with
  | none => (.ok (), s)
  | some (addr, _) =>
    if g.trail then (.ok (), s)
    else
      match translate s g.c g.vf addr.toNat .atomic false with
      | (.error e, s) => (.error (e, addr.toNat), s)
      | (.ok k, s) =>
        match readHome s g.c g.serial k 8 with
        | (_, true, s) => (.error (cPOISON, addr.toNat), s)
        | (d, false, s) => (.ok (), writeHome s g.c g.serial k (bytesLE 8 (natLE d + 1)))

/-- The completion of a command: counter, queue, and what waited for it. -/
def completeCmd (s : State) (g : Eng) : State :=
  match counterAdd g s with
  | (.error c, s) => stopQueue s g.c g.q g.m c.1 c.2
  | (.ok _, s) =>
    let s := giveReads s g.m.issuer g.m.pc
    let s := onCore s g.c (fun x => dropFences { x with queues := x.queues.modify g.q (fun l => l.drop 1) })
    settleInst (dissolve s g.c g.m.inst) g.c g.m.inst

/-- A command performed: its effect, then its completion, or its cause. Earlier stores of the core are in memory first (R177) (DEDUCED, log entry 17) (DEDUCED, log entry 18). -/
def perform (s : State) (c q : Nat) (ok : CmdOp → Bool) (body : Eng → Rd → State → Except Cause Unit × State) : State :=
  match headCmd s c q with
  | none => s
  | some m =>
    if ok m.op && (q != 2 || (getCore s c).tile.isNone) then
      let g := engOf s c q m
      match sourceOf s g with
      | .wait => s
      | .from_ rd s =>
        match body g rd (flushL1 s c) with
        | (.error e, s) => stopQueue s c q m e.1 e.2
        | (.ok _, s) => completeCmd s g
    else s

/-! ## Packed boxes (R178, 13 R325) -/

/-- The coordinates of one row of a box. -/
def rowCoords (xs : List Nat) (b n : Nat) : List (List Nat) :=
  (List.range n).map (fun i => [coord xs 0 + i, coord xs 1 + b, coord xs 2, coord xs 3, coord xs 4])

/-- The codes of some elements; beyond the window they read as zero (04 R88). -/
def readCodes (rd : Rd) (r : TRec) (win : List (Option Nat)) : List (List Nat) → State → Except Cause (List Nat) × State
  | [], s => (.ok [], s)
  | xs :: rest, s =>
    match (if beyondWindow win xs then (.ok 0, s) else readCode rd r xs s) with
    | (.error c, s) => (.error c, s)
    | (.ok code, s) =>
      match readCodes rd r win rest s with
      | (.error c, s) => (.error c, s)
      | (.ok l, s) => (.ok (code :: l), s)

/-- Codes packed into one unit, the first in the lowest bits. -/
def packUnit (w : Nat) : List Nat → Nat
  | [] => 0
  | c :: r => c + 2 ^ w * packUnit w r

/-- A row packed into units of 8 bytes (R234). -/
def packRow (f : NumFmt) (codes : List Nat) : List Byte :=
  (chunksOf (perUnit f) codes.length codes).flatMap (fun u => bytesLE 8 (packUnit f.width u))

/-- The check of a row's record, where the tensor has row records and the row an element within the window (09 R236). -/
def rowCheck (rd : Rd) (r : TRec) (win : List (Option Nat)) (cs : List (List Nat)) (s : State) : Except Cause Unit × State :=
  if r.esc && r.bsize = 0 then
    match cs.find? (fun xs => !beyondWindow win xs) with
    | none => (.ok (), s)
    | some xs => match readSide rd r xs s with | (.error c, s) => (.error c, s) | (.ok _, s) => (.ok (), s)
  else (.ok (), s)

/-- The rows of a box as packed bytes. -/
def readRows (rd : Rd) (r : TRec) (win : List (Option Nat)) (xs : List Nat) (n : Nat) : List Nat → State → Except Cause (List Byte) × State
  | [], s => (.ok [], s)
  | b :: rest, s =>
    match rowCheck rd r win (rowCoords xs b n) s with
    | (.error c, s) => (.error c, s)
    | (.ok _, s) =>
      match readCodes rd r win (rowCoords xs b n) s with
      | (.error c, s) => (.error c, s)
      | (.ok codes, s) =>
        match readRows rd r win xs n rest s with
        | (.error c, s) => (.error c, s)
        | (.ok l, s) => (.ok (packRow (recFmt r) codes ++ l), s)

/-- The code of an element in packed bytes: row b, place i, rows of `units` units. -/
def packedCode (f : NumFmt) (d : List Byte) (units b i : Nat) : Nat :=
  bits (natLE ((d.drop (8 * (b * units + i / perUnit f))).take 8)) (i % perUnit f * f.width) f.width

/-- An element written by an engine, bits beyond it unchanged (R168) (DEDUCED, log entry 57). -/
def engElem (g : Eng) (r : TRec) (xs : List Nat) (code : Nat) (s : State) : Except Cause Unit × State :=
  let t := elemStore r xs 0 code
  engWrite g s t.va t.data t.bits

/-- Elements written in order; those beyond the window are not. -/
def writeElems (g : Eng) (r : TRec) (win : List (Option Nat)) : List (List Nat × Nat) → State → Except Cause Unit × State
  | [], s => (.ok (), s)
  | (xs, code) :: rest, s =>
    match (if beyondWindow win xs then (.ok (), s) else engElem g r xs code s) with
    | (.error c, s) => (.error c, s)
    | (.ok _, s) => writeElems g r win rest s

/-- The elements of a box with the codes that packed bytes give them. -/
def boxElems (f : NumFmt) (d : List Byte) (xs : List Nat) (e0 e1 : Nat) : List (List Nat × Nat) :=
  (List.range (2 ^ e1)).flatMap (fun b =>
    (rowCoords xs b (2 ^ e0)).zip ((List.range (2 ^ e0)).map (packedCode f d (rowUnits f e0) b)))

/-- Circle memory read by an engine; a poisoned granule raises POISON (20 R396). -/
def engCircle (s : State) (c key n : Nat) : Except Cause (List Byte) :=
  let x := getCore s c
  if circleBad x key n then .error (cPOISON, 0) else .ok (circleBytes x key n)

/-- CPY_IN_PERFORM (R178). -/
def execCpyInPerform (core q : Nat) (s : State) : Out :=
  .next (perform s core q (fun o => match o with | .cpyIn _ _ _ _ _ => true | _ => false) (fun g rd s =>
    match g.m.op with
    | .cpyIn raw xs key e0 e1 =>
      match readRows rd (TRec.of raw) g.m.window xs (2 ^ e0) (List.range (2 ^ e1)) s with
      | (.error c, s) => (.error c, s)
      | (.ok d, s) => (.ok (), onCore s core (fun x => circleWrite x key d true))
    | _ => (.ok (), s)))

/-- CPY_OUT_PERFORM (R178). -/
def execCpyOutPerform (core q : Nat) (s : State) : Out :=
  .next (perform s core q (fun o => match o with | .cpyOut _ _ _ _ _ => true | _ => false) (fun g _ s =>
    match g.m.op with
    | .cpyOut raw xs key e0 e1 =>
      let r := TRec.of raw
      match engCircle s core key (packedSize (recFmt r) e0 e1) with
      | .error c => (.error c, s)
      | .ok d => writeElems g r g.m.window (boxElems (recFmt r) d xs e0 e1) s
    | _ => (.ok (), s)))

/-- One 16-byte unit of a global copy (R179): where the ranges overlap the source is read before or after its overwrite (DESIGN CHOICE, log entry 10). -/
def copyUnit (g : Eng) (old s : State) (src dst i : Nat) : Except Cause Unit × State :=
  match translate s g.c g.vf (src + i) .load false with
  | (.error e, s) => (.error (e, src + i), s)
  | (.ok k, s) =>
    match readHome s g.c g.serial k 16, readHome old g.c g.serial k 16 with
    | (now, bad, s), (before, badOld, _) =>
      if bad && badOld then (.error (cPOISON, src + i), s)
      else engWrite g s (dst + i) (if bad || (!badOld && !Config.copyReadsNew s.tick i) then before else now) []

def copyUnits (g : Eng) (old : State) (src dst : Nat) : List Nat → State → Except Cause Unit × State
  | [], s => (.ok (), s)
  | i :: rest, s =>
    match copyUnit g old s src dst (16 * i) with
    | (.error c, s) => (.error c, s)
    | (.ok _, s) => copyUnits g old src dst rest s

/-- CPY_G_PERFORM (R179). -/
def execCpyGPerform (core q : Nat) (s : State) : Out :=
  .next (perform s core q (fun o => match o with | .cpyG _ _ _ => true | _ => false) (fun g _ s =>
    match g.m.op with
    | .cpyG src dst len => if g.trail then (.ok (), s) else copyUnits g s src dst (List.range (len / 16)) s
    | _ => (.ok (), s)))

/-! ## Operand loads (13 R318) -/

/-- Outliers and scales of a slot as they are gathered. -/
structure Side where
  scales : List (Nat × Nat)
  outliers : List (Nat × Nat)
deriving DecidableEq, Repr, Inhabited

/-- The scale codes of a line's blocks from block `b` on (R235). -/
def lineScales (rd : Rd) (r : TRec) (xs : List Nat) (line : Nat) : List Nat → State → Except Cause (List (Nat × Nat)) × State
  | [], s => (.ok [], s)
  | b :: rest, s =>
    match readSide rd r [coord xs 0 + b * blockLen r, coord xs 1 + line, coord xs 2, coord xs 3, coord xs 4] s with
    | (.error c, s) => (.error c, s)
    | (.ok v, s) =>
      match lineScales rd r xs line rest s with
      | (.error c, s) => (.error c, s)
      | (.ok l, s) => (.ok ((64 * line + b, v % 256) :: l), s)

/-- The outlier values of a line's escapes (R236, R237). -/
def lineOutliers (rd : Rd) (r : TRec) (win : List (Option Nat)) (line : Nat) : List (Nat × List Nat × Nat) → State →
    Except Cause (List (Nat × Nat)) × State
  | [], s => (.ok [], s)
  | (i, xs, code) :: rest, s =>
    if isEscape r code && !beyondWindow win xs then
      match readSide rd r xs s with
      | (.error c, s) => (.error c, s)
      | (.ok side, s) =>
        match readOutlier rd r xs side s with
        | (.error c, s) => (.error c, s)
        | (.ok o, s) =>
          match lineOutliers rd r win line rest s with
          | (.error c, s) => (.error c, s)
          | (.ok l, s) => (.ok ((1024 * line + i, o) :: l), s)
    else lineOutliers rd r win line rest s

/-- What stands beside one line: scales, the check of its row record, outliers. -/
def lineSide (rd : Rd) (r : TRec) (win : List (Option Nat)) (xs : List Nat) (line : Nat) (codes : List Nat) (s : State) :
    Except Cause Side × State :=
  let n := codes.length
  let cs := rowCoords xs line n
  let head : Except Cause (List (Nat × Nat)) × State :=
    if r.bsize != 0 then lineScales rd r xs line (List.range ((n + blockLen r - 1) / blockLen r)) s
    else if r.esc then
      match readSide rd r (cs.headD []) s with
      | (.error c, s) => (.error c, s)
      | (.ok _, s) => (.ok [], s)
    else (.ok [], s)
  match head with
  | (.error c, s) => (.error c, s)
  | (.ok sc, s) =>
    match lineOutliers rd r win line ((List.range n).zip (cs.zip codes)) s with
    | (.error c, s) => (.error c, s)
    | (.ok o, s) => (.ok { scales := sc, outliers := o }, s)

/-- The side store of a box whose codes are known line by line. -/
def boxSide (rd : Rd) (r : TRec) (win : List (Option Nat)) (xs : List Nat) : List (Nat × List Nat) → State → Except Cause Side × State
  | [], s => (.ok { scales := [], outliers := [] }, s)
  | (line, codes) :: rest, s =>
    match lineSide rd r win xs line codes s with
    | (.error c, s) => (.error c, s)
    | (.ok a, s) =>
      match boxSide rd r win xs rest s with
      | (.error c, s) => (.error c, s)
      | (.ok b, s) => (.ok { scales := a.scales ++ b.scales, outliers := a.outliers ++ b.outliers }, s)

/-- The codes of the 128 lines of an operand box. -/
def boxCodes (rd : Rd) (r : TRec) (win : List (Option Nat)) (xs : List Nat) : List Nat → State → Except Cause (List (Nat × List Nat)) × State
  | [], s => (.ok [], s)
  | line :: rest, s =>
    match readCodes rd r win (rowCoords xs line (lineLen (recFmt r))) s with
    | (.error c, s) => (.error c, s)
    | (.ok codes, s) =>
      match boxCodes rd r win xs rest s with
      | (.error c, s) => (.error c, s)
      | (.ok l, s) => (.ok ((line, codes) :: l), s)

/-- A table of numbers without its zeros. -/
def nonzero (l : List (Nat × Nat)) : Sparse Nat := l.filter (fun e => e.2 != 0)

/-- A box put into a slot. -/
def fillSlot (x : Core) (u tx : Nat) (r : TRec) (xs : List Nat) (codes : List (Nat × List Nat)) (side : Side) : Core :=
  let bytes := codes.flatMap (fun l => packRow (recFmt r) l.2)
  let x := putSlot x u { getSlot x u with
    kept := descOf tx r xs, codes := ((List.range bytes.length).zip bytes).filter (fun e => e.2 != 0#8), scales := nonzero side.scales,
    outliers := nonzero side.outliers, fresh := true, bad := false }
  { x with reuse := if x.reuse = some u then none else x.reuse }

/-- An operand box read into a slot (R318); more than 128 escapes raise BOUNDS (R319) (DEDUCED, log entry 18). -/
def loadBox (g : Eng) (rd : Rd) (u tx : Nat) (r : TRec) (xs : List Nat) (s : State) : Except Cause Unit × State :=
  match boxCodes rd r g.m.window xs (List.range 128) s with
  | (.error c, s) => (.error c, s)
  | (.ok codes, s) =>
    match boxSide rd r g.m.window xs codes s with
    | (.error c, s) => (.error c, s)
    | (.ok side, s) =>
      if 128 < side.outliers.length then (.error (cBOUNDS, 0), s)
      else (.ok (), onCore s g.c (fun x => fillSlot x u tx r xs codes side))

/-- STK_LD_PERFORM (R318). -/
def execStkLdPerform (core : Nat) (s : State) : Out :=
  .next (perform s core 2 (fun o => match o with | .stkLd _ _ _ _ => true | _ => false) (fun g rd s =>
    match g.m.op with
    | .stkLd u tx raw xs => loadBox g rd u tx (TRec.of raw) xs s
    | _ => (.ok (), s)))

/-! ## mtile (13 R321 to R323) -/

/-- The codes of a line of a slot. -/
def slotCodes (y : Slot) (line : Nat) : List Nat :=
  let f := fmtOfCode y.kept.fmt
  let here := skeep y.codes (fun i => 64 * line ≤ i && i < 64 * line + 64)
  let d := (List.range 64).map (fun i => sget 0#8 here (64 * line + i))
  (List.range (lineLen f)).map (packedCode f d 0 0)

/-- The elements of a line of a slot as the slath decodes them (09 R238). -/
def slotEls (y : Slot) (line kk : Nat) : List El :=
  let f := fmtOfCode y.kept.fmt
  let r : TRec := { TRec.of 0 with fmt := y.kept.fmt, esc := y.kept.esc }
  let block := slotBlock y.kept
  ((List.range kk).zip (slotCodes y line)).map (fun e =>
    let esc := isEscape r e.2
    let o := sget 0 y.outliers (1024 * line + e.1)
    let x : Elem := { code := e.2, scale := if block = 0 then none else some (sget 0 y.scales (64 * line + e.1 / block)),
                      outlier := if esc then some o else none }
    { x := (elemValue f x).1, esc := esc, terms := if esc then termsOf (Fmt.bf16.value o) else termsOf (f.value e.2) })

/-- The two operands of a tile as 128 lines each (DEDUCED, log entry 61). -/
def tileLines (y : Slot) (kk : Nat) : List (List El) := (List.range 128).map (fun l => slotEls y l kk)

/-- The FP32 elements of a row of a rim tile. -/
def rimRow (y : Rim) (row : Nat) : List Nat :=
  let here := skeep y.els (fun i => 128 * row ≤ i && i < 128 * row + 128)
  (List.range 128).map (fun j => sget 0 here (128 * row + j))

/-- A rim tile of given rows. -/
def rimOf (rows : List (List Nat)) : Sparse Nat :=
  nonzero ((List.range 128).flatMap (fun i => (List.range 128).map (fun j => (128 * i + j, (rows.getD i []).getD j 0))))

/-- The rim tile after a product (R321, 09 R238). -/
def tileRows (y : Rim) (exact : Bool) (block : Nat) (a b : List (List El)) : List (List Nat) :=
  ((List.range 128).zip a).map (fun r => ((rimRow y r.1).zip b).map (fun c => rimElement exact block c.1 r.2 c.2))

/-- The length of the blocks of a product (09 R238 step 2). -/
def tileBlock (a b : SlotDesc) : Nat := if slotBlock a != 0 then slotBlock a else if slotBlock b != 0 then slotBlock b else 16

def tileExact (a b : SlotDesc) : Bool := (fmtOfCode a.fmt).expBits ≤ 5 && (fmtOfCode b.fmt).expBits ≤ 5

/-- What a tile costs and counts (R323). -/
def tileCost (x : Core) (sa sb fill : Nat) : Nat × TermCounts :=
  let a := getSlot x sa
  let b := getSlot x sb
  let kk := tileDepth a.kept b.kept
  tileTiming fill kk (tileLines a kk) (tileLines b kk)

def addTerms (t u : TermCounts) : TermCounts :=
  let m := fun a b => (a + b) % 2 ^ 64
  { terms := m t.terms u.terms, groupcyc := m t.groupcyc u.groupcyc, tilecyc := m t.tilecyc u.tilecyc, zero := m t.zero u.zero,
    drift := m t.drift u.drift, esc := m t.esc u.esc }

/-- A product added to a rim tile, with its term counts. -/
def tileAct (x : Core) (rim sa sb fill : Nat) (reuse : Bool) : Core :=
  let a := getSlot x sa
  let b := getSlot x sb
  let kk := tileDepth a.kept b.kept
  let y := getRim x rim
  let rows := tileRows y (tileExact a.kept b.kept) (tileBlock a.kept b.kept) (tileLines a kk) (tileLines b kk)
  { putRim x rim { y with els := rimOf rows, written := true } with
    term := addTerms x.term (tileCost x sa sb fill).2, reuse := if reuse then some sa else none }

/-- The side store of a resumed slot refilled from its tensor (R314) (DEDUCED, log entry 61). -/
def refill (g : Eng) (rd : Rd) (u : Nat) (s : State) : Except Cause Unit × State :=
  let y := getSlot (getCore s g.c) u
  if y.fresh then (.ok (), s)
  else
    match g.serial.bind (getLaunch s) with
    | none => (.ok (), s)
    | some l =>
      match readRec rd s (tensorAddr l y.kept.tx) with
      | (.error c, s) => (.error c, s)
      | (.ok (r, _), s) =>
        match boxSide rd r g.m.window y.kept.x ((List.range 128).map (fun i => (i, slotCodes y i))) s with
        | (.error c, s) => (.error c, s)
        | (.ok side, s) =>
          (.ok (), onCore s g.c (fun x => putSlot x u { getSlot x u with scales := nonzero side.scales, outliers := nonzero side.outliers,
                                                                          fresh := true }))

/-- The idle cycles that the power cap inserts into the issue of a tile (01 R22) (DEDUCED, log entry 49). -/
def idleNow (s : State) : Nat := if s.mgmt.idleOn then Config.idleCycles s.tick else 0

/-- The start of a tile: its operands stand, the fill is known, and it completes T cycles of the core's own clock later (R322, R323, 01 R14)
(DEDUCED, log entry 61). The idle cycles of the power cap come on top and are counted (01 R22) (DEDUCED, log entry 61). -/
def startTile (s : State) (g : Eng) (rd : Rd) (rim sa sb : Nat) : State :=
  match refill g rd sa s with
  | (.error c, s) => stopQueue s g.c g.q g.m c.1 c.2
  | (.ok _, s) =>
    match refill g rd sb s with
    | (.error c, s) => stopQueue s g.c g.q g.m c.1 c.2
    | (.ok _, s) =>
      let x := getCore s g.c
      if (getSlot x sa).bad || (getSlot x sb).bad || (getRim x rim).bad then stopQueue s g.c g.q g.m cPOISON 0
      else
        let fill := if x.reuse = some sa then 4 else 12
        let t := (tileCost x sa sb fill).1
        let s := setHead s g.c g.q (fun m => { m with started := true })
        let s := if s.mgmt.idleOn then mark s 0x401 (idleNow s) else s
        onCore s g.c (fun x => { x with tile := some (coreCycles s g.c + t + idleNow s, fill) })

/-- MTILE_START (R323). -/
def execMtileStart (core : Nat) (s : State) : Out :=
  .next (match headCmd s core 2 with
    | none => s
    | some m =>
      match m.op with
      | .mtile rim sa sb _ =>
        if m.started || (getCore s core).tile.isSome then s
        else
          let g := engOf s core 2 m
          match (if (getSlot (getCore s core) sa).fresh && (getSlot (getCore s core) sb).fresh then .from_ (homeRd g) s else sourceOf s g) with
          | .wait => s
          | .from_ rd s => startTile s g rd rim sa sb
      | _ => s)

/-- MTILE_COMPLETE (R323) (DEDUCED, log entry 61). -/
def execMtileComplete (core : Nat) (s : State) : Out :=
  .next (match headCmd s core 2, (getCore s core).tile with
    | some m, some (at_, fill) =>
      match m.op with
      | .mtile rim sa sb reuse =>
        if m.started && at_ ≤ coreCycles s core then
          let s := onCore s core (fun x => { tileAct x rim sa sb fill reuse with tile := none })
          completeCmd s (engOf s core 2 m)
        else s
      | _ => s
    | _, _ => s)

/-! ## rzero, rim.ld, rim.st, srel (13 R316, R324, R326) -/

/-- RZERO_PERFORM (R324). -/
def execRzeroPerform (core : Nat) (s : State) : Out :=
  .next (perform s core 2 (fun o => match o with | .rzero _ => true | _ => false) (fun g _ s =>
    match g.m.op with
    | .rzero rim => (.ok (), onCore s core (fun x => putRim x rim { getRim x rim with els := [], written := true, bad := false }))
    | _ => (.ok (), s)))

/-- The places of a rim window, row by row. -/
def winPlaces (w : RimWin) : List (Nat × Nat) :=
  (List.range (2 ^ w.er)).flatMap (fun a => (List.range (2 ^ w.ec)).map (fun b => (a, b)))

def winIndex (w : RimWin) (p : Nat × Nat) : Nat := 128 * (w.row + p.1) + w.col + p.2

/-- The tensor element of a place of the window (R325). -/
def winCoord (xs : List Nat) (p : Nat × Nat) : List Nat := [coord xs 0 + p.2, coord xs 1 + p.1, coord xs 2, coord xs 3, coord xs 4]

/-- The FP32 value of one element of the window, rounded once (R326). -/
def winOne (rd : Rd) (r : TRec) (win : List (Option Nat)) (mode : RMode) (cs : List Nat) (s : State) : Except Cause Nat × State :=
  if beyondWindow win cs then (.ok 0, s)
  else
    match readElem rd r cs s with
    | (.error c, s) => (.error c, s)
    | (.ok x, s) => (.ok (finish .f32 { mode := mode, d0 := 0#32, d1 := 0#32 } (elemValue (recFmt r) x)).1.toNat, s)

/-- The FP32 values of the window's elements. -/
def winValues (rd : Rd) (r : TRec) (win : List (Option Nat)) (mode : RMode) (xs : List Nat) : List (Nat × Nat) → State →
    Except Cause (List Nat) × State
  | [], s => (.ok [], s)
  | p :: rest, s =>
    match winOne rd r win mode (winCoord xs p) s with
    | (.error c, s) => (.error c, s)
    | (.ok v, s) =>
      match winValues rd r win mode xs rest s with
      | (.error c, s) => (.error c, s)
      | (.ok l, s) => (.ok (v :: l), s)

/-- A rim tile with the window's elements replaced. -/
def putWin (y : Rim) (w : RimWin) (vals : List Nat) : Rim :=
  let new := (winPlaces w).zip vals
  { y with
    els := rimOf ((List.range 128).map (fun i => ((rimRow y i).zip (List.range 128)).map (fun e =>
      if w.row ≤ i && i < w.row + 2 ^ w.er && w.col ≤ e.2 && e.2 < w.col + 2 ^ w.ec then
        ((new.drop ((i - w.row) * 2 ^ w.ec + (e.2 - w.col))).head?.map (·.2)).getD e.1
      else e.1))),
    written := true }

/-- A window of a rim tile loaded from a tensor (R326). -/
def loadWin (g : Eng) (rd : Rd) (rim : Nat) (r : TRec) (xs : List Nat) (w : RimWin) (mode : RMode) (s : State) :
    Except Cause Unit × State :=
  match winValues rd r g.m.window mode xs (winPlaces w) s with
  | (.error c, s) => (.error c, s)
  | (.ok vals, s) => (.ok (), onCore s g.c (fun x => putRim x rim (putWin (getRim x rim) w vals)))

/-- RIM_LD_PERFORM (R326). -/
def execRimLdPerform (core : Nat) (s : State) : Out :=
  .next (perform s core 2 (fun o => match o with | .rimLd _ _ _ _ _ _ => true | _ => false) (fun g rd s =>
    match g.m.op with
    | .rimLd rim raw xs w mode key =>
      let r := TRec.of raw
      let f := recFmt r
      if (getRim (getCore s core) rim).bad then (.error (cPOISON, 0), s)
      else
        match key with
        | none => loadWin g rd rim r xs w mode s
        | some k =>
          match engCircle s core k (packedSize f w.ec w.er) with
          | .error c => (.error c, s)
          | .ok d =>
            let vals := (winPlaces w).map (fun p =>
              (finish .f32 { mode := mode, d0 := 0#32, d1 := 0#32 } (f.value (packedCode f d (rowUnits f w.ec) p.1 p.2), 0#6)).1.toNat)
            (.ok (), onCore s core (fun x => putRim x rim (putWin (getRim x rim) w vals)))
    | _ => (.ok (), s)))

/-- The codes that a rim window is stored as, rounded once (R326). -/
def winCodes (f : NumFmt) (mode : RMode) (y : Rim) (w : RimWin) : List Nat :=
  (List.range (2 ^ w.er)).flatMap (fun a =>
    (((rimRow y (w.row + a)).drop w.col).take (2 ^ w.ec)).map (fun v => (f.round mode 0#32 (Fmt.f32.value v)).bits))

/-- A window of a rim tile stored to a tensor (R326). -/
def storeWin (g : Eng) (rim : Nat) (r : TRec) (xs : List Nat) (w : RimWin) (mode : RMode) (s : State) : Except Cause Unit × State :=
  writeElems g r g.m.window ((winPlaces w).map (winCoord xs) |>.zip (winCodes (recFmt r) mode (getRim (getCore s g.c) rim) w)) s

/-- RIM_ST_PERFORM (R326). -/
def execRimStPerform (core : Nat) (s : State) : Out :=
  .next (perform s core 2 (fun o => match o with | .rimSt _ _ _ _ _ _ => true | _ => false) (fun g _ s =>
    match g.m.op with
    | .rimSt rim raw xs w mode key =>
      let r := TRec.of raw
      let f := recFmt r
      let y := getRim (getCore s core) rim
      let codes := winCodes f mode y w
      if y.bad then (.error (cPOISON, 0), s)
      else
        match key with
        | none => storeWin g rim r xs w mode s
        | some k =>
          let d := (chunksOf (2 ^ w.ec) codes.length codes).flatMap (packRow f)
          (.ok (), onCore s core (fun x => circleWrite x k d true))
    | _ => (.ok (), s)))

/-- The units of a release become free (R316); the release of a latched slot drops the latch (R322). -/
def freeUnits (x : Core) (u n : Nat) : Core :=
  if 32 ≤ u then
    (unitsFrom (u - 32) n).foldl (fun x i => putRim x i { getRim x i with holder := .free, written := false }) x
  else
    let x := (unitsFrom u n).foldl (fun x i => putSlot x i { Slot.blank with codes := (getSlot x i).codes }) x
    { x with reuse := match x.reuse with | some r => if (unitsFrom u n).contains r then none else some r | none => none }

/-- SREL_PERFORM (R316). -/
def execSrelPerform (core : Nat) (s : State) : Out :=
  .next (perform s core 2 (fun o => match o with | .srel _ _ _ _ => true | _ => false) (fun g _ s =>
    match g.m.op with
    | .srel u n _ _ => (.ok (), onCore s core (fun x => freeUnits x u n))
    | _ => (.ok (), s)))

end Sys2Proof.Machine
end

