-- ==== Sys2Proof/Machine/Nodes.lean ====
section
/-!
DEFINITION. Nodes (05 R93 to R98, R445, R446): records and launch headers as fields, the checks of a post, the partition queue's
entry, `nodeput` and `waitn` (06 R146, R147), and the completion of a kernel node (05 R96).
-/

namespace Sys2Proof.Machine

open Sys2Proof

/-! ## Records (R93) and headers (R97) as fields -/

/-- A node record's fields, from its 512 bits (R93). -/
def nodeOf (raw : Nat) : NodeRec :=
  { link := bits raw 448 64, save := bits raw 384 64,
    shape := [BitVec.ofNat 32 (bits raw 288 32), BitVec.ofNat 32 (bits raw 320 32), BitVec.ofNat 32 (bits raw 352 32)],
    ninst := bits raw 256 32, header := bits raw 192 64, tag := BitVec.ofNat 32 (bits raw 160 32), status := bits raw 144 16,
    nsucc := bits raw 128 16, succ := bits raw 64 64, wait := bits raw 32 32, part := bits raw 24 5, notify := bits raw 19 1 == 1,
    yieldable := bits raw 18 1 == 1, paired := bits raw 17 1 == 1, restartable := bits raw 16 1 == 1, prio := bits raw 8 7,
    kind := bits raw 0 8, raw := raw }

/-- A field of some bytes. -/
def leAt (d : List Byte) (off n : Nat) : Nat := natLE ((d.drop off).take n)

/-- Whether some bytes are all zero. -/
def zeroAt (d : List Byte) (off n : Nat) : Bool := ((d.drop off).take n).all (· == 0#8)

def roleAt (d : List Byte) (i : Nat) : RoleRec :=
  let o := 0x40 + 32 * i
  { pc := BitVec.ofNat 64 (leAt d o 8), allot := leAt d (o + 8) 1, scopeMax := leAt d (o + 9) 1, min := leAt d (o + 10) 1,
    max := leAt d (o + 11) 1, region := leAt d (o + 12) 4 }

def succAt (d : List Byte) (i : Nat) : SuccEnt :=
  let o := 0xc0 + 16 * i
  { pc := BitVec.ofNat 64 (leAt d o 8), role := leAt d (o + 8) 1, allot := leAt d (o + 9) 1, kept := leAt d (o + 10) 1 }

def bucketAt (d : List Byte) (i : Nat) : Bucket :=
  let o := 0x140 + 48 * i
  { ranges := (List.range 3).map (fun j => (leAt d (o + 8 * j) 4, leAt d (o + 8 * j + 4) 4)),
    bounds := (List.range 3).map (fun j => BitVec.ofNat 32 (leAt d (o + 24 + 4 * j) 4)) }

/-- The size of a launch header. -/
def headerSize : Nat := 1088

/-- A launch header's fields, from its bytes (R97). -/
def headerOf (d : List Byte) : Header :=
  { steer := BitVec.ofNat 64 (leAt d 8 8), kbank := leAt d 0x10 8, ksize := leAt d 0x18 4, kgen := leAt d 0x1c 4,
    tensors := leAt d 0x20 8, pool := leAt d 0x28 4, slack := leAt d 0x2c 1, wdepth := (List.range 3).map (fun i => leAt d (0x2d + i) 1),
    priv := leAt d 0x30 8, privsz := leAt d 0x38 4, roles := (List.range (leAt d 4 1)).map (roleAt d),
    succents := (List.range (leAt d 5 1)).map (succAt d), buckets := (List.range (leAt d 6 1)).map (bucketAt d), raw := d }

/-! ## The checks of a post (R94, R98, R445) -/

/-- The circle footprint of an instance (R98): role circle regions, wales, pool. -/
def footprint (h : Header) : Nat :=
  h.roles.foldl (fun a r => a + r.region) 0 + h.wdepth.foldl (fun a d => a + 128 * d) 0 + h.pool

/-- The parts of a header that are reserved or past its counts, all zero (R97, R98). -/
def headerZero (d : List Byte) (nr ns nb : Nat) : Bool :=
  zeroAt d 7 1 && zeroAt d 0x3c 4
    && (List.range 4).all (fun i => if i < nr then zeroAt d (0x40 + 32 * i + 0x10) 16 else zeroAt d (0x40 + 32 * i) 32)
    && (List.range 8).all (fun i => if i < ns then zeroAt d (0xc0 + 16 * i + 11) 5 else zeroAt d (0xc0 + 16 * i) 16)
    && (List.range 16).all (fun i => if i < nb then zeroAt d (0x140 + 48 * i + 36) 12 else zeroAt d (0x140 + 48 * i) 48)

/-- An allotment of 16 to 120 in steps of 8. -/
def allotOk (n : Nat) : Bool := 16 ≤ n && n ≤ 120 && n % 8 == 0

/-- A successor entry's limits (R98). -/
def succOk (h : Header) (e : SuccEnt) : Bool :=
  match h.roles[e.role]? with
  | some r => allotOk e.allot && e.kept ≤ e.allot && e.allot + r.scopeMax ≤ 120
  | none => false

/-- A role's limits (R81). -/
def roleOk (r : RoleRec) : Bool :=
  allotOk r.allot && r.scopeMax % 8 == 0 && r.allot + r.scopeMax ≤ 120 && 1 ≤ r.min && r.min ≤ r.max && r.max ≤ 32

/-- The field ranges of R97, reason 2. -/
def headerFields (d : List Byte) (h : Header) : Bool :=
  leAt d 0 4 == 0x00014c48 && 1 ≤ leAt d 4 1 && leAt d 4 1 ≤ 4 && leAt d 5 1 ≤ 8 && leAt d 6 1 ≤ 16
    && headerZero d (leAt d 4 1) (leAt d 5 1) (leAt d 6 1) && h.steer.toNat % 4 == 0 && h.kbank % 256 == 0 && h.ksize ≤ 65536
    && h.pool % 16 == 0 && h.slack ≤ 64 && h.privsz % 256 == 0 && 512 ≤ h.privsz && h.roles.all (fun r => r.region % 16 == 0)
    && h.succents.all (succOk h)

/-- The first reason of R372 for which a kernel node's header is refused (R98, R445) (DEDUCED, log entry 34). -/
def headerReason (d : List Byte) (h : Header) (n : NodeRec) : Option Nat :=
  let nr := h.roles.length
  if !headerFields d h then some 2
  else if !h.roles.all roleOk then some 3
  else if !(List.range 3).all (fun i =>
      let w := h.wdepth.getD i 0
      if i + 1 < nr then 2 ≤ w && w ≤ 64 else w == 0) then some 4
  else if 128 < h.roles.foldl (fun a r => a + r.max) 0 then some 5
  else if 524288 < footprint h then some 6
  else if n.ninst = 0 then some 7
  else if n.paired && h.slack == 0 then some 8
  else none

/-- A record's own fields (R93), reason 1 (DEDUCED, log entry 34). -/
def nodeFields (addr : Nat) (n : NodeRec) : Bool :=
  addr % 64 == 0 && bits n.raw 15 1 == 0 && bits n.raw 20 4 == 0 && bits n.raw 29 3 == 0 && n.link == 0 && n.nsucc ≤ 4096
    && n.succ % 8 == 0 && (n.part < 16 || n.part == 31)
    && (if n.kind = 1 then n.save % 4096 == 0 && n.header % 256 == 0 else n.kind == 2)

/-- A tile node's fields (13 R328), reason 10. -/
def tileFields (n : NodeRec) : Bool :=
  bits n.raw 384 64 % 64 == 0 && bits n.raw 352 8 != 0 && bits n.raw 252 4 == 0 && bits n.raw 192 56 == 0
    && 1 ≤ bits n.raw 248 3 && bits n.raw 248 3 ≤ 4 && !n.yieldable && !n.paired

/-- The reason of a cause met while the Fjolar reads for a post: 22 for uncorrectable data, else 11 (R445) (DEDUCED, log entry 34). -/
def readReason (cause : Nat) : Nat := if cause = cPOISON then 22 else 11

/-- The partition a record names, seen from a posting partition. -/
def partFor (n : NodeRec) (post : Nat) : Nat := if n.part = 31 then post else n.part

/-- A tensor table of 16 KiB read (R445 step 5). -/
def tableReason (s : State) (vf addr : Nat) : Option Nat :=
  match selfRead s vf addr 16384 false with
  | .error c => some (readReason c)
  | .ok _ => none

/-- The checks of a record that was read, in the order of R445: the header of a kernel node, or the reason (DEDUCED, log entry 34). -/
def checkRec (s : State) (vf addr post : Nat) (n : NodeRec) : Except Nat (Option Header) :=
  if !nodeFields addr n then .error 1
  else if !ownsIn s vf (partFor n post) then .error 9
  else if n.kind = 2 then
    if !tileFields n then .error 10
    else match tableReason s vf (bits n.raw 384 64) with | some r => .error r | none => .ok none
  else
    match selfRead s vf n.header headerSize false with
    | .error c => .error (readReason c)
    | .ok d =>
      let h := headerOf d
      match headerReason d h n with
      | some r => .error r
      | none => match tableReason s vf h.tensors with | some r => .error r | none => .ok (some h)

/-- A record read through the shadow table of its virtual function: R and W (R445 step 1). -/
def readNode (s : State) (vf addr : Nat) : Except Nat NodeRec :=
  match selfRead s vf addr 64 true with
  | .error c => .error (readReason c)
  | .ok d => .ok (nodeOf (natLE d))

/-- The tag a notice gives for a record that is refused at its read: its own where it can be read at all, else 0 (R93, R372, R445)
(DESIGN CHOICE, log entry 69) (DESIGN CHOICE, log entry 69). -/
def tagAt (s : State) (vf addr : Nat) : Word :=
  match selfRead s vf addr 64 false with
  | .ok d => (nodeOf (natLE d)).tag
  | .error _ => 0#32

/-- A node waits on predecessors, or no longer does (R94, R349). -/
def waitsOn (s : State) (vf addr : Nat) : State := onVf s vf (fun v => { v with waiting := ninsert v.waiting addr })
def waitsNot (s : State) (vf addr : Nat) : State := onVf s vf (fun v => { v with waiting := nerase v.waiting addr })

/-- A refusal (R94): status 4 where it can be written, and the failure notice. -/
def refuseNode (s : State) (vf addr reason : Nat) (tag : Word) : State :=
  send (writeStatus (waitsNot s vf addr) vf addr 4)
    (.notice vf (noticeBytes 2 reason (if reason = 22 then cPOISON else 0) 0 tag addr 0#64 0))

/-- The priority cap of a partition (17 R344). -/
def capOf (s : State) (p : Nat) : Nat := ((getPart s p).config.extractLsb' 16 7).toNat

/-- A node's link field, bits 511:448 of its record. -/
def writeLink (s : State) (vf addr : Nat) (v : Double) : State := selfWrite s vf (addr + 56) (bytesLE 8 v.toNat)

/-- The link fields of a partition's ready nodes as the Fjolar writes them (R93, R99): free values (DESIGN CHOICE, log entry 81). -/
def relink (s : State) (p : Nat) : State :=
  (getPart s p).ready.foldl (fun s r => writeLink s r.vf r.addr (Config.linkValue s.tick r.seq)) s

/-- A node put into a partition's queue with status 1, at most at its cap, ready from now on (R99) (DESIGN CHOICE, log entry 81). -/
def enqueue (s : State) (p vf addr requeues : Nat) (n : NodeRec) (h : Option Header) : State :=
  let (q, s) := nextSeq (writeStatus s vf addr 1)
  let l := min n.prio (capOf s p)
  relink (onPart s p (fun x => { x with ready := x.ready ++ [{ addr := addr, vf := vf, node := n, header := h, level := l, base := l,
                                                               readyAt := s.now, seq := q, requeues := requeues }] })) p

/-- A node that passed with wait = 0 becomes ready (R94). -/
def makeReady (s : State) (vf addr p : Nat) (n : NodeRec) (h : Option Header) : State := enqueue (waitsNot s vf addr) p vf addr 0 n h

/-- A ready node out of its partition's queue: its link field is 0 again (R93) (DESIGN CHOICE, log entry 81). -/
def leaveQueue (s : State) (p : Nat) (r : Ready) : State :=
  let s := onPart s p (fun x => { x with ready := x.ready.filter (fun y => y.seq != r.seq) })
  relink (writeLink s r.vf r.addr 0#64) p

/-- What a post does: the result codes of `nodeput` (R146). -/
inductive Posted
  | accepted (s : State)
  | refused (s : State)
  | busy (tag : Word) (s : State)

/-- A post served (R94, R95): by the status the record then holds (DEDUCED, log entry 34) (DESIGN CHOICE, log entry 69). -/
def postNode (s : State) (vf addr post : Nat) : Posted :=
  match readNode s vf addr with
  | .error r => .refused (refuseNode s vf addr r (tagAt s vf addr))
  | .ok n =>
    if n.status = 1 || n.status = 2 || n.status = 5 then .busy n.tag s
    else
      match checkRec s vf addr post n with
      | .error r => .refused (refuseNode s vf addr r n.tag)
      | .ok h =>
        if 5 < n.status then .refused (refuseNode s vf addr 1 n.tag)
        else if n.wait = 0 then .accepted (makeReady s vf addr (partFor n post) n h)
        else .accepted (writeStatus (waitsOn s vf addr) vf addr 0)

/-- A node-post message served; a busy record answers with a notice of reason 21 (R95). -/
def servePost (s : State) (vf addr post : Nat) : State :=
  match postNode s vf addr post with
  | .accepted s => s
  | .refused s => s
  | .busy tag s => send s (.notice vf (noticeBytes 2 21 0 0 tag addr 0#64 0))

/-- NODE_POST (R95; 17 R364): the message names the posting partition; it is held while a diverted write is not acknowledged. -/
def execNodePost (vf : BitVec 8) (addr : Double) (part : BitVec 5) (s : State) : Out :=
  .next (
    if (getVf s vf.toNat).state = 0 then s
    else if 0 < (getVf s vf.toNat).trapsHeld then
      onVf s vf.toNat (fun v => { v with heldPosts := v.heldPosts ++ [(addr.toNat, part.toNat)] })
    else servePost s vf.toNat addr.toNat part.toNat)

/-! ## Agents that wait at an instruction -/

/-- A waiting entry put among others in the order in which they came to wait. -/
def putWaiter (x : Entry × Wait) : List (Entry × Wait) → List (Entry × Wait)
  | [] => [x]
  | y :: r => if x.1.parkedAt < y.1.parkedAt then x :: y :: r else y :: putWaiter x r

/-- An entry that waits as a test says, with what it waits for. -/
def waitsAs (p : Wait → Bool) (e : Entry) : Option (Entry × Wait) :=
  match e.state with | .waiting w => if p w then some (e, w) else none | _ => none

/-- The entries of an agent that wait as a test says, with what they wait for, the one that waited longest first. -/
def waitersOf (s : State) (a : Agent) (p : Wait → Bool) : List (Entry × Wait) :=
  match a with
  | .weave c k =>
    match getWeave s c k with
    | some w => (w.frontier.filterMap (waitsAs p)).foldl (fun l x => putWaiter x l) []
    | none => []
  | .steer c k => (((getInst s c k).bind (·.steer.entry)).bind (waitsAs p)).toList
  | .handler c =>
    match (getCore s c).handler.wait with
    | some w => if p w then [(entryAt (getCore s c).handler.pc 0#16 1#32 .ready, w)] else []
    | none => []

/-- The entry of an agent that waited longest as a test says. -/
def waitingOf (s : State) (a : Agent) (p : Wait → Bool) : Option (Entry × Wait) := (waitersOf s a p).head?

/-- The first waiting entry that can go on; where none can, the one that waited longest. -/
def firstWaiter (l : List (Entry × Wait)) (go : Entry × Wait → Bool) : Option (Entry × Wait) :=
  match l.find? go with
  | some x => some x
  | none => l.head?

/-- An agent that waited moves on, with null tags for the uniform registers it wrote. -/
def endWait (s : State) (a : Agent) (e : Entry) (size : Nat) (ws : List Nat) (gs : Groups) : State :=
  match a with
  | .weave c k => proceed (untag s c k [] ws) c k e size gs
  | .steer c k => steerMove s c k e size (soleGo gs)
  | .handler c => handlerMove (onCore s c (fun x => { x with handler := { x.handler with wait := none } })) c e size (soleGo gs)

/-! ## nodeput (R146) -/

/-- A restartable node commits early at a `nodeput` or `waitn` (20 R399). -/
def commitEarly (s : State) (a : Agent) : State :=
  match agentLaunch s a with
  | some l => if staging l then commitStage s l.serial true else s
  | none => s

/-- What precedes the checks of a `nodeput`: the region closes, and the agent's stores are performed and in memory (R146). -/
def nodeRelease (s : State) (a : Agent) : State := commitEarly (flushL1 (closeAgent s a) (coreOf a)) a

/-- The causes of a node address: ALIGN, and those of a load (R146) (DEDUCED, log entry 35). -/
def nodeSite (s : State) (a : Agent) (addr : Double) : Except Nat Nat × State :=
  match translate s (coreOf a) (agentVf s a) addr.toNat .load (isHandler a) with
  | (.error c, s) => (.error (if addr.toNat % 64 != 0 then min c cALIGN else c), s)
  | (.ok k, s) => if addr.toNat % 64 != 0 then (.error cALIGN, s) else (.ok k, s)

/-- The result code of a post (DEDUCED, log entry 34). -/
def postCode : Posted → Double × State
  | .accepted s => (0#64, s)
  | .refused s => (1#64, s)
  | .busy _ s => (2#64, s)

def isNodeput : Wait → Bool
  | .nodeput _ _ => true
  | _ => false

/-- The member of a store group that a `nodeput` is (20 R404). -/
def nodeMember (addr : Double) (m : Mask) : List Byte := memberHead 6 0 0 m ++ bytesLE 8 addr.toNat

/-- NODEPUT (R146) (DEDUCED, log entry 35). -/
def execNodeput (d : UDst) (x : USrc) (s : State) : Out :=
  uniIssue s (uniAt 4 .weaveSteer) (fun s a e =>
    match readUSrc s a x true 0#64 with
    | .error c => parkAll s e.mask c 0#64
    | .ok addr =>
      match nodeSite s a addr with
      | (.error c, s) => parkAll s e.mask c addr
      | (.ok _, s) =>
        let s := nodeRelease s a
        if isPaired s a then
          match joinOnce s a e.pc 1#32 (nodeMember addr e.mask) (.nodeput d addr) with
          | .given vals s => { moved (writeUDst s a e.mask d false ((vals.map (·.2)).getD 0 0#64)) [] 1 with ws := udstRegs d false }
          | .wait st s => waits s st
          | .stall => waits s (.waiting .slack)
          | .broken => moved (pairFail s a) [] 1
        else waits s (.waiting (.nodeput d addr)))

/-- NODEPUT_DONE (R146): the checks are done and the result is written. -/
def execNodeputDone (a : Agent) (s : State) : Out :=
  .next (match waitingOf s a isNodeput with
    | some (e, .nodeput d addr) =>
      match postCode (postNode s (agentVf s a) addr.toNat (partOf (coreOf a))) with
      | (v, s) => endWait (writeUDst s a e.mask d false v) a e 4 (udstRegs d false) []
    | _ => s)

/-! ## waitn (R147) -/

/-- The status field of the node at an address, read by an agent (DEDUCED, log entry 35). -/
def readNodeStatus (s : State) (a : Agent) (addr : Double) : Except Nat Nat × State :=
  match nodeSite s a addr with
  | (.error c, s) => (.error c, s)
  | (.ok k, s) =>
    match readHome s (coreOf a) (serialOf s a) (k + 18) 2 with
    | (_, true, s) => (.error cPOISON, s)
    | (d, false, s) => (.ok (natLE d), s)

/-- The statuses for which a `waitn` ends. -/
def statusEnds (n : Nat) : Bool := n == 3 || n == 4 || n == 5

/-- What a `waitn` that ends writes; status 3 acts as an acquire at .dv. -/
def waitnWrite (s : State) (a : Agent) (e : Entry) (d : UDst) (n : Nat) : State :=
  let s := if n = 3 then dropL1 s (coreOf a) else s
  writeUDst s a e.mask d false (BitVec.ofNat 64 n)

/-- A `waitn` tried at its issue. -/
def tryWaitn (s : State) (a : Agent) (e : Entry) (d : UDst) (addr : Double) (lim : Nat) : Done :=
  match takeValue s a e.pc 1#32 with
  | .given vals s =>
    { moved (waitnWrite s a e d ((vals.map (·.2)).getD 0 0#64).toNat) [] 1 with ws := udstRegs d false }
  | .wait => waits s (.waiting .pairOp)
  | .broken => moved (pairFail s a) [] 1
  | .own =>
    match readNodeStatus s a addr with
    | (.error c, s) => parkAll s e.mask c addr
    | (.ok n, s) =>
      if statusEnds n then
        { moved (waitnWrite (giveValue s a e.pc [(0, BitVec.ofNat 64 n)]) a e d n) [] 1 with ws := udstRegs d false }
      else waits s (.waiting (.waitn d addr (if lim = 0 then none else some (coreCycles s (coreOf a) + 1024 * lim))))

/-- WAITN (R147) (DEDUCED, log entry 35). -/
def execWaitn (d : UDst) (x y : USrc) (k : BitVec 28) (s : State) : Out :=
  uniIssue s (uniAt 8 .weaveSteer) (fun s a e =>
    match gather [readUSrc s a x true 0#64, readUSrc s a y false (litValue .w32 k)] with
    | .error c => parkAll s e.mask c 0#64
    | .ok vs =>
      let addr := vs.getD 0 0#64
      match nodeSite s a addr with
      | (.error c, s) => parkAll s e.mask c addr
      | (.ok _, s) => tryWaitn (commitEarly s a) a e d addr (lowWord (vs.getD 1 0#64)).toNat)

def isWaitn : Wait → Bool
  | .waitn _ _ _ => true
  | _ => false

/-- A `waitn` that waits ends with the status read last. -/
def endWaitn (s : State) (a : Agent) (e : Entry) (d : UDst) (n : Nat) : State :=
  endWait (waitnWrite (giveValue s a e.pc [(0, BitVec.ofNat 64 n)]) a e d n) a e 8 (udstRegs d false) []

/-- Whether a `waitn` that waits ends as things stand: its node is done, or its read has a cause. -/
def waitnEnds (s : State) (a : Agent) (x : Entry × Wait) : Bool :=
  match x.2 with
  | .waitn _ addr _ => (match (readNodeStatus s a addr).1 with | .ok n => statusEnds n | .error _ => true)
  | _ => false

/-- WAITN_COMPLETE (R147): the first of the agent's entries whose node is done. -/
def execWaitnComplete (a : Agent) (s : State) : Out :=
  .next (match firstWaiter (waitersOf s a isWaitn) (waitnEnds s a) with
    | some (e, .waitn d addr _) =>
      match readNodeStatus s a addr with
      | (.error c, s) => endWait s a e 8 [] [(e.mask, .park c addr)]
      | (.ok n, s) => if statusEnds n then endWaitn s a e d n else s
    | _ => s)

/-- WAITN_LIMIT (R147): of the first entry whose limit has passed, the status read last, whatever it is. -/
def execWaitnLimit (a : Agent) (s : State) : Out :=
  .next (match (waitersOf s a isWaitn).find? (fun x => match x.2 with | .waitn _ _ (some t) => t ≤ coreCycles s (coreOf a) | _ => false) with
    | some (e, .waitn d addr (some t)) =>
      if t ≤ coreCycles s (coreOf a) then
        match readNodeStatus s a addr with
        | (.error c, s) => endWait s a e 8 [] [(e.mask, .park c addr)]
        | (.ok n, s) => endWaitn s a e d n
      else s
    | _ => s)

/-! ## Completion (R96, R446) -/

/-- Kinds of entries in the failure record, numbered by the model: the first is of 20 R397 (DESIGN CHOICE, log entry 54). -/
def kindPoison : Nat := 1
def kindDropped : Nat := 2
def kindSkipped : Nat := 3
def kindStale : Nat := 4
def kindPair : Nat := 5
def kindRefailed : Nat := 6
def kindRetired : Nat := 7
def kindStart : Nat := 8

/-- An entry about a node. -/
def nodeEntry (s : State) (kind addr detail : Nat) (lsn : Double) : FailRec :=
  { kind := kind, element := addr, name := BitVec.ofNat 128 (lsn.toNat * 2 ^ 64), action := 0, detail := detail, time := s.now }

/-- A successor's wait field, 4 bytes from offset 4, read and written by the Fjolar. -/
def readWait (s : State) (vf addr : Nat) : Except Nat Nat :=
  match selfRead s vf (addr + 4) 4 true with
  | .error c => .error c
  | .ok d => .ok (natLE d)

/-- A successor whose count came to 0 is checked again (R446) (DESIGN CHOICE, log entry 69). -/
def wakeNode (s : State) (vf addr post : Nat) (lsn : Double) : State :=
  match readNode s vf addr with
  | .error r => refuseNode s vf addr r (tagAt s vf addr)
  | .ok n =>
    if n.status != 0 then record (waitsNot s vf addr) (nodeEntry s kindStale addr n.status lsn)
    else
      match checkRec s vf addr post n with
      | .error r => refuseNode s vf addr r n.tag
      | .ok h => makeReady s vf addr (partFor n post) n h

/-- One successor served: the state, and whether its decrement was dropped. -/
def serveSucc (s : State) (vf post list : Nat) (lsn : Double) : State × Nat :=
  match selfRead s vf list 8 true with
  | .error c => (record s (nodeEntry s kindSkipped list c lsn), 0)
  | .ok d =>
    let addr := natLE d
    match readWait s vf addr with
    | .error c => (record s (nodeEntry s kindSkipped addr c lsn), 0)
    | .ok 0 => (s, 1)
    | .ok (n + 1) =>
      let s := selfWrite s vf (addr + 4) (bytesLE 4 n)
      (if n = 0 then wakeNode s vf addr post lsn else s, 0)

/-- The successors in list order: the state, and the decrements dropped. -/
def serveSuccs (vf post : Nat) (lsn : Double) : List Nat → State → State × Nat
  | [], s => (s, 0)
  | a :: r, s =>
    match serveSucc s vf post a lsn with
    | (s, k) => match serveSuccs vf post lsn r s with | (s, j) => (s, k + j)

/-- A node's completion: status 3, its successors, the entry that reports the dropped decrements where there are any, its notice (R96). -/
def finishNode (s : State) (vf addr part : Nat) (n : NodeRec) (lsn : Double) : State :=
  let s := writeStatus s vf addr 3
  match serveSuccs vf part lsn ((List.range n.nsucc).map (fun i => (n.succ + 8 * i) % 2 ^ 64)) s with
  | (s, drops) =>
    let s := if drops = 0 then s else record s (nodeEntry s kindDropped addr drops lsn)
    if n.notify then send s (.notice vf (noticeBytes 1 0 0 0 n.tag addr lsn drops)) else s

/-- Whether a launch has completed: every instance ended, none saved or resident (R96). -/
def launchOver (s : State) (l : Launch) : Bool :=
  l.ended == l.node.ninst && l.saved.isEmpty && !s.cores.any (fun e => e.2.insts.any (fun i => i.2.serial == l.serial))

/-- KERNEL_NODE_COMPLETE (R96): its stores are in memory and committed before status 3 (20 R398). -/
def execKernelNodeComplete (serial : Nat) (s : State) : Out :=
  .next (match getLaunch s serial with
    | none => s
    | some l =>
      if l.poison.isNone && launchOver s l then
        let s := l.cores.foldl flushL1 s
        let s := commitStage s serial false
        let s := { s with launches := s.launches.filter (fun y => y.serial != serial) }
        finishNode s l.vf l.addr l.part l.node l.lsn
      else s)

end Sys2Proof.Machine
end

