-- ==== Sys2Proof/Machine/Admit.lean ====
section
/-!
DEFINITION. The admission of instances and weaves (04 R59, R60, R83, R92; 05 R101, R105, R113), the aging of ready nodes (05 R99,
R100) and the stage balancer (05 R104).
-/

namespace Sys2Proof.Machine

open Sys2Proof

/-! ## Cores that may take an instance -/

/-- Whether a core lies in its partition's guaranteed or margin set (17 R344) (DEDUCED, log entry 36). -/
def inSets (s : State) (p c : Nat) : Bool :=
  let cfg := (getPart s p).config
  partOf c == p && (cfg.getLsbD (48 + c % 16) || cfg.getLsbD (32 + c % 16))

/-- Whether a virtual function's masks name a core (DEDUCED, log entry 36). -/
def hasCore (l : List (BitVec 16)) (c : Nat) : Bool := (l.getD (c / 16) 0#16).getLsbD (c % 16)

/-- Whether a held write of cores masks takes a core from its virtual function (17 R350). -/
def leaving (s : State) (c : Nat) : Bool :=
  s.vfs.any (fun e => match e.2.pendingCores with | some l => hasCore e.2.cores c && !hasCore l c | none => false)

/-- Whether a core admits work: neither tested, retired, under revocation, nor taken from its virtual function (DEDUCED, log entry 36). -/
def coreOpen (s : State) (c : Nat) : Bool :=
  let x := getCore s c
  !x.testing && !x.retired && !leaving s c && (match x.loan with | some l => l.revoked.isNone | none => true)

/-- The cores on which a partition may run a virtual function's instances: those of its sets, and borrowed cores for yieldable
nodes (R101) (DEDUCED, log entry 36). -/
def hostCores (s : State) (p vf : Nat) (yieldable : Bool) : List Nat :=
  if !(getPart s p).up then []
  else (List.range 256).filter (fun c => coreOpen s c &&
    (match (getCore s c).loan with
     | some l => l.part == p && l.vf == vf && yieldable
     | none => inSets s p c && ownerOf s c == some vf))

/-! ## What fits (R83, R92) -/

/-- What an instance needs of a core, beside one steer thread. -/
structure Need where
  regs : Nat
  weaves : Nat
  foot : Nat
  scope : Nat
  slots : List Nat
  rims : List Nat
deriving DecidableEq, Repr, Inhabited

def maxScope (h : Header) : Nat := h.roles.foldl (fun a r => max a r.scopeMax) 0

/-- An instance at its roles' minimums. -/
def needMin (h : Header) : Need :=
  { regs := h.roles.foldl (fun a r => a + r.min * r.allot) 0, weaves := h.roles.foldl (fun a r => a + r.min) 0, foot := footprint h,
    scope := maxScope h, slots := [], rims := [] }

/-- A saved instance: its weaves as they stand, and its slots and tiles by number (05 R121, R122). -/
def needSaved (h : Header) (v : Saved) : Need :=
  { regs := v.weaves.foldl (fun a w => a + w.allot) 0, weaves := v.weaves.length, foot := footprint h, scope := maxScope h,
    slots := v.slots.map (·.1), rims := v.rims.map (·.1) }

/-- The launch headers of a core's resident instances. -/
def coreHeaders (s : State) (x : Core) : List Header := x.insts.filterMap (fun e => (getLaunch s e.2.serial).map (·.header))

/-- The reserve of R92: the largest pending grow request, and the largest maximum scope of the resident roles. -/
def reserveRegs (s : State) (x : Core) (scope : Nat) : Nat :=
  let grow := x.weaves.foldl (fun a e => (growsOf s x e.2).foldl max a) 0
  max (max grow scope) ((coreHeaders s x).foldl (fun a h => max a (maxScope h)) 0)

/-- The circle memory a core's instances take (DESIGN CHOICE, log entry 41). -/
def coreFoot (s : State) (x : Core) : Nat := (coreHeaders s x).foldl (fun a h => a + footprint h) 0

/-- Whether a core can take an instance (R83, R92). -/
def fitsCore (s : State) (x : Core) (n : Need) : Bool :=
  x.insts.length < 4 && x.weaves.length + n.weaves ≤ 128 && coreFoot s x + n.foot ≤ 524288
    && usedRegs x + n.regs + reserveRegs s x n.scope ≤ coreRegs
    && n.slots.all (fun u => (getSlot x u).state == .free) && n.rims.all (fun u => (getRim x u).holder == .free)

/-- The first core that can take an instance, most free registers first, then the lower number (R101). -/
def bestCore (s : State) (n : Need) (cs : List Nat) : Option Nat :=
  (cs.filter (fun c => fitsCore s (getCore s c) n)).foldl (fun acc c =>
    match acc with
    | none => some c
    | some b => if usedRegs (getCore s c) < usedRegs (getCore s b) then some c else some b) none

/-- The cores of the copies of an instance: one, or two different ones for a paired launch (20 R401). -/
def pickCores (s : State) (cs : List Nat) (ns : List Need) : Option (List Nat) :=
  match ns with
  | [] => some []
  | n :: r =>
    match bestCore s n cs with
    | none => none
    | some c => (pickCores s (cs.filter (· != c)) r).map (c :: ·)

/-! ## Where a tile node runs (13 R329) -/

def freeSlots (x : Core) : List Nat := (List.range 32).filter (fun u => (getSlot x u).state == .free)
def freeRims (x : Core) : List Nat := (List.range 8).filter (fun u => (getRim x u).holder == .free)

/-- The units a tile node takes on a core: the lowest two free slots and the lowest free rim tile, where its slath may run one (DEDUCED, log entry 45). -/
def tileUnits (x : Core) : Option (Nat × Nat × Nat) :=
  if (x.queues.getD 2 []).isEmpty && (claimsWaiting x).isEmpty && x.tile.isNone then
    match freeSlots x, freeRims x with
    | a :: b :: _, r :: _ => some (a, b, r)
    | _, _ => none
  else none

/-- The lowest core that runs a tile node, with its units (DEDUCED, log entry 45). -/
def tileCore (s : State) (p vf : Nat) : Option (Nat × Nat × Nat × Nat) :=
  (hostCores s p vf false).findSome? (fun c => (tileUnits (getCore s c)).map (fun u => (c, u)))

/-! ## Weaves placed on lanes (R60) -/

/-- The resident weaves of a lane. -/
def laneLoad_ (x : Core) (l : Nat) : Nat := (x.weaves.filter (fun e => e.2.lane == l)).length

/-- The lane with the fewest resident weaves, the lowest among those. -/
def placeLane (x : Core) : Nat :=
  (List.range 64).foldl (fun b l => if laneLoad_ x l < laneLoad_ x b then l else b) 0

/-- A weave bound to a lane, its latches invalid, and its slot. -/
def addWeave (x : Core) (w : Weave) : Core × Nat :=
  let l := placeLane x
  let k := if (sfind x.weaves (2 * l)).isNone then 2 * l else 2 * l + 1
  let lanes := if (sget Lane.blank x.lanes l).owner = some k then serase x.lanes l else x.lanes
  ({ x with weaves := sput x.weaves k { w with lane := l }, lanes := lanes }, k)

/-! ## Start states (R59, R85) -/

/-- The state a weave returns to by a rollback (20 R406). -/
def snapOf (w : Weave) : Snapshot :=
  { role := w.role, allot := w.allot, lmode := w.lmode, v := w.v, preds := w.preds, flags := w.flags, gens := w.gens, s := w.s, q := w.q,
    mode := w.mode, frontier := w.frontier, scopes := w.scopes, circles := w.circles, restart := w.restart }

def steerSnap (x : Steer) : Snapshot :=
  { role := 0, allot := 0, lmode := 0#2, v := [], preds := [], flags := [], gens := [(0, x.gen)], s := x.s, q := x.q, mode := x.mode,
    frontier := x.entry.toList, scopes := [], circles := [], restart := none }

/-- The issue share of every stage at first (R104). -/
def shareStart : Nat := 4

/-- A weave at its start: all 32 threads live at the role's entry with priority 0, registers zero, generators started, in
lookup-and-insert (R59; 09 R225; 10 R261), in its role circle. -/
def weaveStart (i role wid num : Nat) (lsn : Double) (r : RoleRec) : Weave :=
  { inst := i, role := role, wid := wid, lane := 0, allot := r.allot, scopes := [],
    frontier := [entryAt r.pc 0#16 (BitVec.allOnes 32) .ready], v := [], preds := [], flags := [],
    gens := ssetAll 1#64 [] (allThreads.map (fun t => (t, genStart lsn num role wid t))), s := [], q := 0#4, mode := modeStart,
    lmode := 2#2, lstat := [], vtags := [], stags := [], vbad := [], sbad := [], circles := [role], chain := none, region := none,
    storeq := [], inflight := [], marks := [], restart := none, turnsLeft := shareStart, pair := none }

/-- A weave that belongs to a copy of a paired launch, with its start as rollback point. -/
def pairWeave (trailing : Bool) (w : Weave) : Weave :=
  { w with pair := some { Pair.start trailing 0 0 with base := some (snapOf w) } }

/-- A further weave of a stage admitted: the next `$wid`, a member of the role circle (R82, R83). -/
def addStageWeave (s : State) (c i role : Nat) : State :=
  match getInst s c i with
  | none => s
  | some x =>
    match getLaunch s x.serial with
    | none => s
    | some l =>
      match l.header.roles[role]?, x.stages[role]? with
      | some r, some st =>
        let w := weaveStart i role st.admitted x.num l.lsn r
        let w := if l.node.paired then pairWeave x.trailing w else w
        match addWeave (getCore s c) w with
        | (y, k) =>
          let s := onInst (putCore s c y) c i (fun x => { x with stages := x.stages.set role { st with admitted := st.admitted + 1 } })
          joinCircle s c i k role
      | _, _ => s

/-- The steer thread of an instance at its start (R85; 09 R443). -/
def steerStart (num : Nat) (lsn : Double) (pc : Double) : Steer :=
  { Steer.blank with entry := some (entryAt pc 0#16 1#32 .ready), mode := modeStart, gen := genSteer lsn num }

def pairSteer (trailing : Bool) (x : Steer) : Steer := { x with pair := some { Pair.start trailing 0 0 with base := some (steerSnap x) } }

/-- The key of a role circle within its instance's window, and of the join pool. -/
def roleKey (base role : Nat) : Nat := base + role * 2 ^ 20
def poolKey (base : Nat) : Nat := base + 2 ^ 24
def windowSize : Nat := 2 ^ 32

/-- An instance before its weaves: role circles, empty wales and decision queue, stages at their minimums (DESIGN CHOICE, log entry 41). -/
def instStart (l : Launch) (num : Nat) (trailing : Bool) (base : Nat) : Inst :=
  let h := l.header
  let steer := steerStart num l.lsn h.steer
  { serial := l.serial, num := num, logical := 0, trailing := trailing, peer := none, steer := if l.node.paired then pairSteer trailing steer else steer,
    decisions := [],
    circles := ((List.range h.roles.length).zip h.roles).map (fun e =>
      { id := e.1, role := some e.1, tag := 0, base := roleKey base e.1, size := e.2.region, members := [] }),
    nextCircle := h.roles.length, wales := List.replicate 3 [], window := [],
    stages := h.roles.map (fun r => { target := r.min, share := shareStart, admitted := 0, closed := false }), base := base, size := windowSize,
    poolBase := poolKey base, poolSize := h.pool, demanded := false }

/-- The lowest steer thread that is free. -/
def freeInst (x : Core) : Nat := ((List.range 4).find? (fun i => (sfind x.insts i).isNone)).getD 0

/-- Cores added to those a launch has used, in the order of first admission (R103). -/
def addCores (l : List Nat) (cs : List Nat) : List Nat := cs.foldl (fun l c => if l.contains c then l else l ++ [c]) l

/-- Cores given the next logical numbers, in the order of first admission (R103). -/
def nameCores (l : Launch) (cs : List Nat) : Launch :=
  cs.foldl (fun l c => if l.names.any (fun e => e.1 == c) then l else { l with names := l.names ++ [(c, l.ncore)], ncore := l.ncore + 1 })
    { l with cores := addCores l.cores cs }

/-- The logical number of a core that a launch uses (R103). -/
def logicalCore (l : Launch) (c : Nat) : Nat := match l.names.find? (fun e => e.1 == c) with | some e => e.2 | none => 0

/-- A copy of an instance on a core: its steer thread and every role's minimum of weaves, all at once (R83). -/
def startInst (s : State) (c : Nat) (l : Launch) (num : Nat) (trailing : Bool) : State × Nat :=
  let (q, s) := nextSeq s
  let i := freeInst (getCore s c)
  let s := putInst s c i { instStart l num trailing (q * windowSize) with logical := logicalCore l c }
  let todo := ((List.range l.header.roles.length).zip l.header.roles).flatMap (fun e => List.replicate e.2.min e.1)
  (todo.foldl (fun s role => addStageWeave s c i role) s, i)

/-! ## The two copies of a paired instance (20 R401) -/

/-- One copy's weaves and steer thread told where their other copies are, by role and `$wid`. -/
def linkCopy (s : State) (c i c' i' : Nat) : State :=
  let other := weavesOf (getCore s c') i'
  let s := (weavesOf (getCore s c) i).foldl (fun s e =>
    match other.find? (fun y => y.2.role == e.2.role && y.2.wid == e.2.wid) with
    | some y => onPair s (.weave c e.1) (fun p => { p with peerCore := c', peerSlot := y.1 })
    | none => s) s
  onInst (onPair s (.steer c i) (fun p => { p with peerCore := c', peerSlot := i' })) c i (fun x => { x with peer := some c' })

def linkCopies (s : State) (c i c' i' : Nat) : State := linkCopy (linkCopy s c i c' i') c' i' c i

/-- The other copy of an instance: its core and number there. -/
def otherCopy (s : State) (c i : Nat) : Option (Nat × Nat) :=
  match getInst s c i with
  | none => none
  | some x =>
    x.peer.bind (fun c' => ((getCore s c').insts.find? (fun e => e.2.serial == x.serial && e.2.num == x.num && e.2.trailing != x.trailing)).map
      (fun e => (c', e.1)))

/-- The acquire at the start of a launch on a core (08 R190, R206): neither its L1 nor its constant cache keeps an earlier line (07 R166). -/
def startAcquire (s : State) (c : Nat) : State := onCore (dropL1 s c) c (fun x => { x with ccache := [] })

/-- An instance started on its cores. -/
def startOn (s : State) (l : Launch) (num : Nat) (cs : List Nat) : State :=
  match cs with
  | [c] => (startInst (startAcquire s c) c l num false).1
  | [c, c'] =>
    match startInst (startAcquire s c) c l num false with
    | (s, i) => match startInst (startAcquire s c') c' l num true with | (s, i') => linkCopies s c i c' i'
  | _ => s

/-! ## The queue's order (R99, R101) -/

/-- What may be served next: a running launch with instances to admit, or a ready node (of a tile node, no header), with its place in the order. -/
structure Cand where
  level : Nat
  readyAt : Nat
  seq : Nat
  node : NodeRec
  header : Option Header
  vf : Nat
  launch : Option Nat
  saved : List Saved
deriving DecidableEq, Repr, Inhabited

/-- The highest level first, then the earliest ready time, then the earlier post. -/
def candBefore (a b : Cand) : Bool :=
  b.level < a.level || (a.level == b.level && (a.readyAt < b.readyAt || (a.readyAt == b.readyAt && a.seq < b.seq)))

def insertCand (c : Cand) : List Cand → List Cand
  | [] => [c]
  | x :: r => if candBefore c x then c :: x :: r else x :: insertCand c r

/-- Whether a virtual function's nodes are served: it is bound (17 R349). -/
def served (s : State) (vf : Nat) : Bool := (getVf s vf).state == 1

/-- The nodes of a partition to be served, in order: a running launch stands at its node's priority, within the cap, with its node's ready time
(R101) (DESIGN CHOICE, log entry 82). -/
def candsOf (s : State) (p : Nat) : List Cand :=
  let run := s.launches.filterMap (fun l =>
    if l.part == p && served s l.vf && l.poison.isNone && (l.next < l.node.ninst || !l.saved.isEmpty) then
      some { level := min l.node.prio (capOf s p), readyAt := l.readyAt, seq := l.seq, node := l.node, header := some l.header, vf := l.vf,
             launch := some l.serial, saved := l.saved : Cand }
    else none)
  let ready := (getPart s p).ready.filterMap (fun r =>
    if served s r.vf then
      some { level := r.level, readyAt := r.readyAt, seq := r.seq, node := r.node, header := r.header, vf := r.vf, launch := none, saved := [] : Cand }
    else none)
  (run ++ ready).foldl (fun l c => insertCand c l) []

/-- The copies of a saved instance: those with the lowest instance number (R122), the leading one first. -/
def firstSaved (vs : List Saved) : List Saved :=
  match vs.foldl (fun acc v => match acc with | none => some v.inst.num | some n => some (min n v.inst.num)) none with
  | none => []
  | some n => vs.filter (fun v => v.inst.num == n && !v.inst.trailing) ++ vs.filter (fun v => v.inst.num == n && v.inst.trailing)

/-- What the copies of a candidate's next instance need. -/
def needsOf (h : Header) (c : Cand) : List Need :=
  if c.saved.isEmpty then List.replicate (if c.node.paired then 2 else 1) (needMin h) else (firstSaved c.saved).map (needSaved h)

/-- The cores the next instance of a candidate takes, if it fits: a saved instance before one never admitted (R113); of a tile node, the core
that runs it (13 R329). -/
def coresFor (s : State) (p : Nat) (c : Cand) : Option (List Nat) :=
  match c.header with
  | none => (tileCore s p c.vf).map (fun u => [u.1])
  | some h => pickCores s (hostCores s p c.vf c.node.yieldable) (needsOf h c)

/-- Whether the next instance of a candidate fits on its partition's own cores, borrowed ones apart (17 R346). -/
def fitsOwn (s : State) (p : Nat) (c : Cand) : Bool :=
  match c.header with
  | none => true
  | some h => (pickCores s (hostCores s p c.vf false) (needsOf h c)).isSome

/-- The highest node with instances to admit (R101). -/
def topCand (cs : List Cand) : Option Cand := cs.find? (fun c => c.header.isSome)

/-- What is known of the highest node whose next instance fits nowhere (R101). -/
def noteFit (s : State) (p : Nat) (cs : List Cand) : State :=
  match topCand cs with
  | none => s
  | some top =>
    onPart s p (fun x =>
      if (coresFor s p top).isSome then { x with unfit := none, blocked := none }
      else
        match x.unfit with
        | some (n, _) => if n = top.seq then x else { x with unfit := some (top.seq, s.now) }
        | none => { x with unfit := some (top.seq, s.now) })

/-- The candidates that may be served: no instance of a lower node where the highest keeps them out (R101). -/
def openCands (s : State) (p : Nat) (cs : List Cand) : List Cand :=
  match topCand cs with
  | none => cs
  | some top => if (getPart s p).blocked = some top.seq then cs.filter (fun c => c.seq == top.seq || c.header.isNone) else cs

/-- The node served next: the highest whose next instance fits a core, or that a slath can run (R99, R101). -/
def nextServed (s : State) (p : Nat) : Option Cand := (openCands s p (candsOf s p)).find? (fun c => (coresFor s p c).isSome)

/-! ## Dispatch and admission (R101) -/

/-- A ready kernel node dispatched: status 2, its launch serial, out of the queue. -/
def dispatchNode (s : State) (p seq : Nat) (h : Header) : State :=
  match (getPart s p).ready.find? (fun r => r.seq == seq) with
  | none => s
  | some r =>
    let n := s.nextLsn
    let l : Launch := { serial := n, lsn := BitVec.ofNat 64 n, vf := r.vf, part := p, addr := r.addr, node := r.node, header := h,
                        readyAt := r.readyAt, seq := r.seq, next := 0, ended := 0, saved := [], cores := [], names := [], ncore := 0, requeues := r.requeues,
                        staged := [], blocks := [], freed := [], early := false, poison := none, poisons := [], freezeBad := false }
    let s := leaveQueue (writeStatus s r.vf r.addr 2) p r
    markPart { s with nextLsn := n + 1, launches := s.launches ++ [l] } p 0x206 1

/-- The next instance of a launch admitted on some cores. -/
def admitInst (s : State) (serial : Nat) (cs : List Nat) : State :=
  match getLaunch s serial with
  | none => s
  | some l =>
    let l := nameCores l cs
    let s := startOn s l l.next cs
    onLaunch s serial (fun y => { y with next := y.next + 1, cores := l.cores, names := l.names, ncore := l.ncore })

/-- A candidate's next instance admitted; a ready node is dispatched with its first. -/
def admitCand (s : State) (p : Nat) (c : Cand) (cs : List Nat) : State :=
  match c.launch with
  | some n => admitInst s n cs
  | none =>
    match c.header with
    | some h => let n := s.nextLsn; admitInst (dispatchNode s p c.seq h) n cs
    | none => s

/-- INSTANCE_ADMIT (R101): the next instance of the node served next, where that instance was never admitted (DEDUCED, log entry 62). -/
def execInstanceAdmit (part : Nat) (s : State) : Out :=
  let s := noteFit s part (candsOf s part)
  .next (match nextServed s part with
    | none => s
    | some c =>
      match coresFor s part c with
      | some cs => if c.header.isSome && c.saved.isEmpty then admitCand s part c cs else s
      | none => s)

/-- The fabric clock's cycles in cycles of the nominal clock (01 R13) (DESIGN CHOICE, log entry 4). -/
def fabric (n : Nat) : Nat := 2 * n

/-- ADMISSION_STARVATION (R101): after 2^22 fabric cycles the highest node keeps lower nodes out. -/
def execAdmissionStarvation (part : Nat) (s : State) : Out :=
  .next (match topCand (candsOf s part), (getPart s part).unfit with
    | some top, some (n, t) =>
      if n = top.seq && t + fabric (2 ^ 22) ≤ s.now && (coresFor s part top).isNone then onPart s part (fun x => { x with blocked := some n })
      else s
    | _, _ => s)

/-- The level of a ready node by its age, from the level it was queued at (R100), never above its partition's cap. -/
def agedLevel (s : State) (p : Nat) (r : Ready) : Nat := min (capOf s p) (r.base + (s.now - r.readyAt) / fabric (2 ^ 22))

/-- NODE_AGING (R100): the ready nodes that are due gain one level each, which counts (22 R424) (DEDUCED, log entry 62). -/
def execNodeAging (part : Nat) (s : State) : Out :=
  let due := fun (r : Ready) => r.level < agedLevel s part r
  let n := ((getPart s part).ready.filter due).length
  let s' := onPart s part (fun x => { x with ready := x.ready.map (fun r => if due r then { r with level := r.level + 1 } else r) })
  .next (if n = 0 then s else markPart s' part 0x207 n)

/-! ## Further weaves (R83, R105) -/

/-- Whether a core has room for one more weave of a role. -/
def roomFor (s : State) (c : Nat) (r : RoleRec) : Bool :=
  let x := getCore s c
  x.weaves.length < 128 && usedRegs x + r.allot + reserveRegs s x 0 ≤ coreRegs

/-- The members of a role circle: at most 32 (R77). -/
def roleMembers (x : Inst) (role : Nat) : Nat :=
  match x.circles.find? (fun z => z.id == role) with | some z => z.members.length | none => 0

/-- Whether a stage admits its next weave (R105): not once all its weaves have ended (R83), nor while its role circle is full (R77). -/
def stageOpen (s : State) (c i role : Nat) : Bool :=
  match getInst s c i with
  | none => false
  | some x =>
    match (getLaunch s x.serial).bind (fun l => l.header.roles[role]?), x.stages[role]? with
    | some r, some st => !st.closed && st.admitted < st.target && roleMembers x role < 32 && roomFor s c r
    | _, _ => false

/-- WEAVE_ADMIT (R105): in a paired launch both copies admit it together. -/
def execWeaveAdmit (core inst role : Nat) (s : State) : Out :=
  .next (
    if (getPart s (partOf core)).up && coreOpen s core && stageOpen s core inst role then
      match (getInst s core inst).bind (·.peer) with
      | none => addStageWeave s core inst role
      | some _ =>
        match otherCopy s core inst with
        | none => s
        | some (c', i') =>
          if stageOpen s c' i' role then linkCopies (addStageWeave (addStageWeave s core inst role) c' i' role) core inst c' i' else s
    else s)

/-! ## The balancer (R104) -/

def raiseStage (r : RoleRec) (st : Stage) : Stage :=
  if st.target < r.max then { st with target := st.target + 1 } else { st with share := min (st.share + 1) 8 }

def lowerStage (r : RoleRec) (st : Stage) : Stage :=
  if r.min < st.target then { st with target := st.target - 1 } else { st with share := max (st.share - 1) 1 }

/-- A stage changed. -/
def onStage (l : List Stage) (rs : List RoleRec) (role : Nat) (f : RoleRec → Stage → Stage) : List Stage :=
  match l[role]?, rs[role]? with
  | some st, some r => l.set role (f r st)
  | _, _ => l

/-- One wale sampled: depth d, o records, producer i, consumer i + 1. -/
def sampleWale (rs : List RoleRec) (l : List Stage) (i d o : Nat) : List Stage :=
  let l := if 3 * d < 4 * o then onStage (onStage l rs (i + 1) raiseStage) rs i lowerStage else l
  if 4 * o < d then onStage (onStage l rs i raiseStage) rs (i + 1) lowerStage else l

/-- The wales of an instance sampled in order. -/
def sampleInst (h : Header) (x : Inst) : Inst :=
  { x with stages := (List.range (h.roles.length - 1)).foldl (fun l i => sampleWale h.roles l i (h.wdepth.getD i 0) (waleOf x i).length) x.stages }

/-- BALANCER_SAMPLE (R104): once each 1,024 cycles of the core's counter (DEDUCED, log entry 62). -/
def execBalancerSample (core : Nat) (s : State) : Out :=
  let now := coreCycles s core / 1024
  .next (
    if (getCore s core).sampled < now then
      onCore s core (fun x =>
        let x := { x with sampled := now }
        { x with insts := x.insts.map (fun e => match getLaunch s e.2.serial with | some l => (e.1, sampleInst l.header e.2) | none => e) })
    else s)

/-- Whether a lane lets a weave go on: it never switches inside a chain (R48, R64), and a weave's turn is spent once the other weave of
its lane has a ready entry (R64, R105) (DEDUCED, log entry 46). -/
def laneTurn (s : State) (c k : Nat) (w : Weave) : Bool :=
  w.chain.isSome || (!((getCore s c).weaves.any (fun e => e.1 != k && e.2.lane == w.lane && e.2.chain.isSome))
    && (w.turnsLeft != 0 || !((getCore s c).weaves.any (fun e => e.1 != k && e.2.lane == w.lane && e.2.frontier.any (fun y => y.state == .ready)))))

/-- The issue share of a weave's stage (DEDUCED, log entry 46). -/
def shareOf (s : State) (c : Nat) (w : Weave) : Nat :=
  match (getInst s c w.inst).bind (fun x => x.stages[w.role]?) with | some st => st.share | none => shareStart

/-- A weave takes a turn on its lane; the other weave of the lane has its full share before it (DEDUCED, log entry 46). -/
def takeTurn (s : State) (c k : Nat) (w : Weave) : State :=
  onCore s c (fun x => { x with weaves := x.weaves.map (fun e =>
    if e.1 = k then (e.1, if w.chain.isSome then e.2 else { e.2 with turnsLeft := (if e.2.turnsLeft = 0 then shareOf s c e.2 else e.2.turnsLeft) - 1 })
    else if e.2.lane = w.lane then (e.1, { e.2 with turnsLeft := shareOf s c e.2 }) else e) })

end Sys2Proof.Machine
end

