-- ==== Sys2Proof/Machine/Yield.lean ====
section
/-!
DEFINITION. The yield of an instance, its saved state and its readmission (05 R102, R110 to R114; 06 R142, R152; 20 R410).
-/

namespace Sys2Proof.Machine

open Sys2Proof

/-! ## Yieldable instances (R112) -/

/-- The queued commands of an instance, with their queues. -/
def cmdsOf (x : Core) (i : Nat) : List (Nat × Cmd) :=
  (List.range 4).flatMap (fun q => (x.queues.getD q []).filterMap (fun m => if m.inst == i then some (q, m) else none))

/-- An entry that waits for a result its instruction has sent for. -/
def waitsResult (e : Entry) : Bool :=
  match e.state with
  | .waiting (.once _) => true
  | _ => false

/-- A quiescent weave (R112): no load, atomic, cross-thread operation or engine command is outstanding. -/
def weaveQuiet (x : Core) (k : Nat) (w : Weave) : Bool :=
  w.inflight.isEmpty && !w.frontier.any waitsResult && !(cmdsOf x w.inst).any (fun m => match m.2.issuer with | .weave _ j => j == k | _ => false)

/-- Whether no store group of a copy is open, unmatched or unread (20 R410) (DEDUCED, log entry 39). -/
def pairQuiet (p : Option Pair) : Bool :=
  match p with
  | some p => p.count == 0 && p.closed.isEmpty && p.lvq.isEmpty && p.upTo == 0
  | none => true

/-- Whether a handler runs for an instance. -/
def underDelivery (x : Core) (i : Nat) : Bool := match x.handler.run with | some d => serves x i d | none => false

/-- Whether a queued command lets its instance be yielded: not the slath's (13 R330), and issued by a weave that stands in an open region
(R112) (DEDUCED, log entry 39). -/
def cmdYields (x : Core) (m : Nat × Cmd) : Bool :=
  m.1 != 2 && (match m.2.issuer with | .weave _ k => (match sfind x.weaves k with | some w => w.region.isSome | none => false) | _ => false)

/-- One copy of an instance is yieldable (R112): at instruction boundaries, its steer thread without commands in flight, every weave
in an open region or quiescent, no delivery of it running (DEDUCED, log entry 39). -/
def copyYieldable (s : State) (c i : Nat) : Bool :=
  let x := getCore s c
  match sfind x.insts i with
  | none => false
  | some y =>
    (cmdsOf x i).all (cmdYields x) && y.steer.inflight.isEmpty && !(y.steer.entry.toList.any waitsResult) && pairQuiet y.steer.pair
      && !underDelivery x i
      && (weavesOf x i).all (fun e => e.2.chain.isNone && (e.2.region.isSome || weaveQuiet x e.1 e.2) && pairQuiet e.2.pair)

/-- The copies of an instance. -/
def copiesOf (s : State) (c i : Nat) : List (Nat × Nat) :=
  match otherCopy s c i with
  | some o => [(c, i), o]
  | none => [(c, i)]

/-- Whether an instance may be yielded: its node allows it and has a save area (R93), and every copy is yieldable. -/
def yieldable (s : State) (c i : Nat) : Bool :=
  match (getInst s c i).bind (fun x => getLaunch s x.serial) with
  | none => false
  | some l => l.node.yieldable && l.node.save != 0 && l.poison.isNone && (copiesOf s c i).all (fun e => copyYieldable s e.1 e.2)

/-! ## The state saved (R112, R115, R152) -/

/-- An entry as it is saved: with the wait it is in, a sleeping one with its remaining count (06 R152). -/
def saveEntry (now : Nat) (e : Entry) : Entry :=
  let e := { e with spill := none, delivering := false }
  match e.state with
  | .sleeping t => { e with state := .sleeping (t - now) }
  | _ => e

/-- An entry as it is resident again: one that waited at its instruction issues it again (06 R152). -/
def loadEntry (now : Nat) (e : Entry) : Entry :=
  match e.state with
  | .waiting _ => { e with state := .ready }
  | .sleeping t => { e with state := .sleeping (t + now) }
  | _ => e

/-- The entry of a chain in progress stands at the chain's head again (R115). -/
def unchain (w : Weave) : Weave :=
  match w.chain with
  | none => w
  | some ch =>
    { w with chain := none,
             frontier := w.frontier.map (fun e => if (match e.state with | .ready => true | .waiting _ => true | _ => false) && e.mask &&& ch.mask != 0#32
               then { e with pc := ch.head, state := .ready } else e) }

/-- A weave in a region that is yielded: its buffered stores are dropped, its frontier is the restart entry with its parked
entries (R112). -/
def toRestart (w : Weave) : Weave :=
  match w.region with
  | none => w
  | some r =>
    let parked := w.frontier.filter (fun e => e.state == .parked)
    let gone := parked.foldl (fun m e => m ||| e.mask) 0#32
    let live := liveMask w &&& r.mask &&& ~~~gone
    { w with region := none, frontier := parked ++ (if live = 0#32 then [] else [entryAt r.pc r.prio live .ready]) }

/-- The rollback point of a copy at its saved state (20 R410). -/
def rebaseWeave (w : Weave) : Weave :=
  { w with pair := w.pair.map (fun p => { p with base := some (snapOf w), log := [], full := false, num := 1, mismatch := [], replay := [], upTo := 0 }) }

def rebaseSteer (x : Steer) : Steer :=
  { x with pair := x.pair.map (fun p => { p with base := some (steerSnap x), log := [], full := false, num := 1, mismatch := [], replay := [], upTo := 0 }) }

/-- A weave as it is saved: materialised, without tags or lane (10 R257). -/
def saveWeave (now : Nat) (w : Weave) : Weave :=
  rebaseWeave { w with frontier := w.frontier.map (saveEntry now), vtags := [], stags := [], lane := 0 }

def saveSteer (now : Nat) (x : Steer) : Steer := rebaseSteer { x with entry := x.entry.map (saveEntry now) }

/-- Weave slots named by their place among the saved weaves. -/
def placeIn (ks : List Nat) (k : Nat) : Nat := ks.findIdx (· == k)

/-- A slot as it is saved: descriptor and codes (13 R314); its side store is refilled from its tensor. -/
def saveSlot (ks : List Nat) (y : Slot) : Slot :=
  { y with weave := placeIn ks y.weave, scales := [], outliers := [], fresh := y.kept == SlotDesc.blank }

/-- A command as it is recorded: unstarted, its issuer by place (R115). -/
def saveCmd (ks : List Nat) (m : Nat × Cmd) : Nat × Cmd :=
  (m.1, { m.2 with started := false, fault := none,
                   issuer := match m.2.issuer with | .weave _ k => .weave 0 (placeIn ks k) | a => a })

/-- A weave put among others by role, then `$wid`. -/
def putByName (e : Nat × Weave) : List (Nat × Weave) → List (Nat × Weave)
  | [] => [e]
  | x :: r => if e.2.role * 32 + e.2.wid < x.2.role * 32 + x.2.wid then e :: x :: r else x :: putByName e r

/-- An instance's weaves in the order in which they are readmitted (R122). -/
def inOrder (l : List (Nat × Weave)) : List (Nat × Weave) := l.foldl (fun a e => putByName e a) []

/-- What an instance's saved state holds, as it stands on its core. -/
def savedOf (s : State) (c i : Nat) (y : Inst) : Saved :=
  let x := getCore s c
  let ws := inOrder (weavesOf x i)
  let ks := ws.map (·.1)
  { inst := { y with steer := saveSteer (coreCycles s c) y.steer, demanded := false, peer := none,
                     circles := y.circles.map (fun z => { z with members := z.members.map (placeIn ks) }) },
    weaves := ws.map (fun e => saveWeave (coreCycles s c) e.2),
    cmem := skeep x.cmem (fun o => y.base ≤ o && o < y.base + y.size),
    full := x.full.filter (fun g => y.base ≤ g * 16 && g * 16 < y.base + y.size),
    cbad := x.cbad.filter (fun g => y.base ≤ g * 16 && g * 16 < y.base + y.size),
    slots := (x.slots.filter (fun e => e.2.inst == i && e.2.state != .free)).map (fun e => (e.1, saveSlot ks e.2)),
    rims := x.rims.filter (fun e => e.2.holder == .inst i),
    cmds := (cmdsOf x i).map (saveCmd ks),
    fences := x.fences.filter (fun f => f.inst == i) }

/-- Results outstanding committed, store queues drained, and the references of tags returned. -/
def settleAgents (s : State) (c i : Nat) : State :=
  let s := commitAgent (drainAll s (.steer c i)) (.steer c i)
  (weavesOf (getCore s c) i).foldl (fun s e =>
    let s := commitAgent (drainAll s (.weave c e.1)) (.weave c e.1)
    match getWeave s c e.1 with
    | none => s
    | some w => onCore s c (fun x => let a := untagAll x w; { a.1 with weaves := sput a.1.weaves e.1 a.2 })) s

/-- A copy taken off its core into its launch's saved state, its stores in memory; the reuse latch is dropped (13 R322). -/
def takeOff (s : State) (c i : Nat) (f : Weave → Weave) : State :=
  let s := flushL1 (settleAgents s c i) c
  let s := onCore s c (fun x => { x with weaves := x.weaves.map (fun e => if e.2.inst = i then (e.1, f e.2) else e), reuse := none })
  match getInst s c i with
  | none => s
  | some y =>
    let v := savedOf s c i y
    let s := removeInst s c i
    onLaunch s y.serial (fun l => { l with saved := l.saved ++ [v] })

/-- The size of an instance's part of the context save area (R113). -/
def saveSize (h : Header) : Nat :=
  4096 + footprint h + 786432 + h.roles.foldl (fun a r => a + r.max * (4096 + 128 * (r.allot + r.scopeMax))) 0

/-- An instance's part of its launch's context save area written, 4 KiB at a time: bytes whose layout is not stated (R112 to R114)
(DESIGN CHOICE, log entry 37). -/
def writeSaveArea (s : State) (l : Launch) (num : Nat) : State :=
  if l.node.save = 0 then s
  else
    let size := saveSize l.header
    (List.range ((size + 4095) / 4096)).foldl (fun s j =>
      selfWrite s l.vf ((l.node.save + num * size + 4096 * j) % 2 ^ 64)
        ((List.range (min 4096 (size - 4096 * j))).map (fun o => Config.savedByte s.tick (num * size + 4096 * j + o)))) s

/-- An instance taken off its cores as `f` does, and its context save area written (R112, R114). -/
def withSaveArea (s : State) (c i : Nat) (f : State → State) : State :=
  match (getInst s c i).bind (fun y => (getLaunch s y.serial).map (fun l => (l, y.num))) with
  | some (l, n) => writeSaveArea (f s) l n
  | none => f s

/-- An instance yielded: every copy of it taken off, its state in its save area (R112, R113, 20 R410). -/
def yieldInst (s : State) (c i : Nat) : State :=
  withSaveArea s c i (fun s => (copiesOf s c i).foldl (fun s e => takeOff s e.1 e.2 toRestart) s)

/-! ## The demand for a yield (R102, R114) -/

/-- The level of a launch in its partition (DESIGN CHOICE, log entry 82). -/
def launchLevel (s : State) (l : Launch) : Nat := min l.node.prio (capOf s l.part)

/-- The yieldable instances that a ready node at least 16 levels higher, for which no core has room, could take in a partition (R102). -/
def takeable (s : State) (p : Nat) : List (Nat × Nat × Nat × Nat) :=
  let top := (candsOf s p).foldl (fun a c => if c.launch.isNone && (coresFor s p c).isNone then max a (c.level + 1) else a) 0
  s.cores.flatMap (fun e => e.2.insts.filterMap (fun y =>
    if y.2.trailing then none
    else
      match getLaunch s y.2.serial with
      | some l =>
        if l.part == p && launchLevel s l + 17 ≤ top && yieldable s e.1 y.1 then some (launchLevel s l, y.2.num, e.1, y.1) else none
      | none => none))

/-- The instance to take first: of the lowest launch, then the highest instance number. -/
def firstTake (l : List (Nat × Nat × Nat × Nat)) : Option (Nat × Nat × Nat × Nat) :=
  l.foldl (fun acc x =>
    match acc with
    | none => some x
    | some b => if x.1 < b.1 || (x.1 == b.1 && b.2.1 < x.2.1) then some x else some b) none

/-- Whether a yield of an instance is demanded: for a revoked core, or for a much higher ready node (R102, R114). -/
def yieldWanted (s : State) (c i : Nat) : Bool :=
  match getInst s c i with
  | none => false
  | some y =>
    y.demanded ||
      match getLaunch s y.serial with
      | some l => firstTake (takeable s l.part) == some (launchLevel s l, y.num, c, i)
      | none => false

/-- The open groups of both copies end at a yield (20 R403). -/
def endGroups (s : State) (c i : Nat) : State :=
  (copiesOf s c i).foldl (fun s e =>
    (weavesOf (getCore s e.1) e.2).foldl (fun s w => onPair s (.weave e.1 w.1) endGroup) (onPair s (.steer e.1 e.2) endGroup)) s

/-- INSTANCE_YIELD (R112): where a yield is demanded and the instance is yieldable (DEDUCED, log entry 62). -/
def execInstanceYield (core inst : Nat) (s : State) : Out :=
  .next (
    if yieldWanted s core inst then
      if yieldable s core inst then yieldInst s core inst
      else match (getInst s core inst).bind (fun x => getLaunch s x.serial) with
        | some l => if l.node.paired && l.node.yieldable then endGroups s core inst else s
        | none => s
    else s)

/-- YIELD_COMPLETE (06 R142): the weave is quiescent, the region opens at the next instruction, and a pending demand takes the instance. -/
def execYieldComplete (core slot : Nat) (s : State) : Out :=
  .next (match waitingOf s (.weave core slot) (fun w => match w with | .yieldQ => true | _ => false), getWeave s core slot with
    | some (e, _), some w =>
      if weaveQuiet (getCore s core) slot w && pairQuiet w.pair then
        let s := proceed s core slot e 4 []
        let s := onWeave s core slot (fun w =>
          match w.frontier.find? (fun y => y.mask &&& e.mask != 0#32) with | some y => openRegion w (e.pc + 4#64) y | none => w)
        if yieldWanted s core w.inst && yieldable s core w.inst then yieldInst s core w.inst else s
      else s
    | _, _ => s)

/-! ## Readmission (R113, R122) -/

/-- A saved weave resident again: its new slot, with its members of circles by the new slot. -/
def placeSaved (s : State) (c i : Nat) (ws : List Weave) : State × List Nat :=
  ws.foldl (fun acc w =>
    match addWeave (getCore acc.1 c) (rebaseWeave { w with inst := i, frontier := mergeAll (w.frontier.map (loadEntry (coreCycles s c))) }) with
    | (x, k) => (spillDown 32 (putCore acc.1 c x) c k (selectedMask (putCore acc.1 c x) c k), acc.2 ++ [k])) (s, [])

/-- A recorded command issued again, at the end of its queue. -/
def reissue (c i : Nat) (ks : List Nat) (s : State) (m : Nat × Cmd) : State :=
  let (n, s) := nextSeq s
  let cmd := { m.2 with inst := i, seq := n,
                        issuer := match m.2.issuer with | .weave _ p => .weave c (ks.getD p 0) | .steer _ _ => .steer c i | a => a }
  onCore s c (fun x => { x with queues := x.queues.modify m.1 (· ++ [cmd]) })

/-- A recorded `qfence` issued again. -/
def refence (c i : Nat) (s : State) (f : QFence) : State :=
  let (n, s) := nextSeq s
  onCore s c (fun x => { x with fences := x.fences ++ [{ f with seq := n, inst := i }] })

/-- The recorded commands and fences issued again in their order (R115, R122): a fence before the commands that came after it. -/
def reissueAll (c i : Nat) (ks : List Nat) (s : State) (v : Saved) : State :=
  let order := ninsertAll [] (v.cmds.map (fun m => m.2.seq) ++ v.fences.map (·.seq))
  order.foldl (fun s n =>
    let s := (v.fences.filter (fun f => f.seq == n)).foldl (refence c i) s
    (v.cmds.filter (fun m => m.2.seq == n)).foldl (reissue c i ks) s) s

/-- A saved copy of an instance on a core again (R113), its unstarted commands reissued before any weave of it issues (R122). Its loads
read nothing older than its stores on another core (08 R195), so the core's L1 and constant cache keep no earlier line. -/
def putBack (s : State) (c : Nat) (v : Saved) : State × Nat :=
  let s := startAcquire s c
  let i := freeInst (getCore s c)
  let s := putInst s c i { v.inst with steer := { v.inst.steer with entry := v.inst.steer.entry.map (loadEntry (coreCycles s c)) } }
  match placeSaved s c i v.weaves with
  | (s, ks) =>
    let s := onInst s c i (fun y => { y with circles := y.circles.map (fun z =>
      { z with members := ninsertAll [] (z.members.map (fun p => ks.getD p 0)) }) })
    let s := onCore s c (fun x => { x with
      cmem := v.cmem.foldl (fun m e => sput m e.1 e.2) x.cmem, full := ninsertAll x.full v.full, cbad := ninsertAll x.cbad v.cbad,
      slots := v.slots.foldl (fun m e => sput m e.1 { e.2 with inst := i, weave := ks.getD e.2.weave 128 }) x.slots,
      rims := v.rims.foldl (fun m e => sput m e.1 { e.2 with holder := .inst i }) x.rims })
    (reissueAll c i ks s v, i)

/-- The copies of a saved instance put back on their cores. -/
def putBackAll (s : State) (vs : List Saved) (cs : List Nat) : State :=
  match vs, cs with
  | [v], [c] => (putBack s c v).1
  | [v, v'], [c, c'] =>
    match putBack s c v with
    | (s, i) => match putBack s c' v' with | (s, i') => linkCopies s c i c' i'
  | _, _ => s

/-- A core that a launch had not used takes the logical number that the instance readmitted there keeps (R103) (DEDUCED, log entry 40). -/
def renameCores (l : Launch) (vs : List Saved) (cs : List Nat) : Launch :=
  { l with cores := addCores l.cores cs,
           names := (cs.zip vs).foldl (fun m e => if m.any (fun y => y.1 == e.1) then m else m ++ [(e.1, e.2.inst.logical)]) l.names }

/-- INSTANCE_READMIT (R113): the next instance of the node served next, where it is a saved one: those come ahead of the instances never
admitted (DEDUCED, log entry 62). -/
def execInstanceReadmit (part : Nat) (s : State) : Out :=
  let s := noteFit s part (candsOf s part)
  .next (match nextServed s part with
    | none => s
    | some c =>
      match coresFor s part c, c.launch with
      | some cs, some n =>
        if c.saved.isEmpty then s
        else
          let vs := firstSaved c.saved
          let s := onLaunch s n (fun l => renameCores { l with saved := l.saved.filter (fun v => !vs.contains v) } vs cs)
          putBackAll s vs cs
      | _, _ => s)

end Sys2Proof.Machine
end

