-- ==== Sys2Proof/Machine/System.lean ====
section
/-!
DEFINITION. The system instructions (18 R377 to R389): counters, control registers, the parked entry of a delivery, shootdowns,
the injector's fields and checkpoints; and the emulation calls (23 R429).
-/

namespace Sys2Proof.Machine

open Sys2Proof

/-! ## rdcnt (R386; 17 R368; 22 R424) -/

/-- Counters of groups 2 to 4 whose events the model counts. -/
def counted (n : Nat) : Bool := [0x200, 0x201, 0x204, 0x205, 0x206, 0x207, 0x301, 0x304, 0x305, 0x400, 0x401].contains n

/-- Counters of groups 2 to 4 whose events have no place in the model; their values are open (DESIGN CHOICE, log entry 11). -/
def uncounted (n : Nat) : Bool := [0x202, 0x203, 0x300, 0x302, 0x303].contains n

/-- The events of a counter up to a delay before now (R368); events of this cycle are excluded (R425). -/
def markedBefore (s : State) (key delay : Nat) : Nat :=
  (s.marks.filter (fun m => m.1 == key && m.2.1 + delay * microsecond < s.now)).foldl (fun a m => a + m.2.2) 0

/-- A shared-resource counter as a partition sees it, exact, a delay before now (DESIGN CHOICE, log entry 11). -/
def sharedAt (s : State) (p n delay : Nat) : Nat :=
  if counted n then markedBefore s (if n / 256 = 2 then 4096 * p + n else n) delay % 2 ^ 64
  else if uncounted n then Config.sharedCount s.tick n % 2 ^ 64
  else 0

/-- The value `rdcnt` gives an agent: exact for groups 0 and 1, blurred for 2 to 4, zero for a number that names none (DESIGN CHOICE, log entry 11). -/
def counterOf (s : State) (a : Agent) (n : Nat) : Nat :=
  let c := coreOf a
  let v := getVf s (agentVf s a)
  match n / 256 with
  | 0 => if n = 0 then coreCycles s c % 2 ^ 64 else if n ≤ 6 then sget 0 (getCore s c).counts n else 0
  | 1 =>
    match a with
    | .weave c k => (match getWeave s c k with | some w => if n ≤ 0x103 then sget 0 w.marks n else 0 | none => 0)
    | _ => 0
  | _ => roundDown (sharedAt s (partOf c) n (policyDelay v)) (quantum v)

/-- A uniform counter read, of its own or as the leading copy read it (20 R402). -/
def uniCounter (s : State) (a : Agent) (e : Entry) (own : Double) (f : State → Double → Done) : Done :=
  match takeValue s a e.pc 1#32 with
  | .own => f (giveValue s a e.pc [(0, own)]) own
  | .given vals s => f s ((vals.map (·.2)).getD 0 0#64)
  | .wait => waits s (.waiting .pairOp)
  | .broken => moved (pairFail s a) [] 1

/-- RDCNT (R386). -/
def execRdcnt (d : BitVec 6) (x : USrc) (s : State) : Out :=
  uniIssue s (uniAny 4) (fun s a e =>
    match readUSrc s a x false 0#64 with
    | .error c => parkAll s e.mask c 0#64
    | .ok v =>
      uniCounter s a e (BitVec.ofNat 64 (counterOf s a ((lowWord v).toNat % 4096))) (fun s v =>
        { moved (putFile s a (writeSD (getFile s a) d.toNat v)) [] 1 with ws := [d.toNat, d.toNat + 1] }))

/-! ## Control registers (R379 to R381) -/

/-- The width of a control register, where the number names one (DEDUCED, log entry 44). -/
def csrWidth (n : Nat) : Option Nat :=
  if n = 0x000 || n = 0x011 || n = 0x016 || n = 0x017 || n = 0x018 then some 8
  else if n = 0x003 then some 16
  else if n = 0x002 || n = 0x004 || n = 0x006 || n = 0x014 || n = 0x015 then some 32
  else if n = 0x001 || n = 0x005 || n = 0x010 || n = 0x012 || n = 0x013 then some 64
  else if (0x020 ≤ n && n ≤ 0x02f) || (0x040 ≤ n && n ≤ 0x044) then some 64
  else none

/-- A partition configuration register as a virtual function sees it (R374, R379): guar, margin and cap where it owns cores. -/
def configView (s : State) (vf p : Nat) : Double :=
  if ownsIn s vf p then (getPart s p).config &&& 0xffffffff007f0000#64 else 0#64

/-- A field of the injector (R389). -/
def injField (i : Injector) (f : Nat) : Double :=
  match f with
  | 0 => i.seed
  | 1 => i.rate
  | 2 => i.classes
  | 3 => i.shot
  | _ => i.arm

/-- A control register read for a virtual function and a partition, with the delivery of its handler slot if it runs. -/
def csrValue (s : State) (vf p : Nat) (run : Option Delivery) (n : Nat) : Double :=
  let v := getVf s vf
  let of := fun (f : Delivery → Double) => match run with | some d => f d | none => 0#64
  match n with
  | 0x000 => of (fun d => BitVec.ofNat 64 d.tcause)
  | 0x001 => of (·.tpc)
  | 0x002 => of (fun d => d.tmask.setWidth 64)
  | 0x003 => of (fun d => d.tprio.setWidth 64)
  | 0x004 => of (fun d => d.tent.setWidth 64)
  | 0x005 => of (·.taddr)
  | 0x006 => of (fun d => d.tinst.setWidth 64)
  | 0x010 => v.tvec
  | 0x011 => v.scope.setWidth 64
  | 0x012 => v.root
  | 0x013 => v.heap
  | 0x014 => v.heapsz.setWidth 64
  | 0x015 => v.cpol.setWidth 64
  | 0x016 => BitVec.ofNat 64 v.weight
  | 0x017 => BitVec.ofNat 64 v.state
  | 0x018 => BitVec.ofNat 64 vf
  | n => if n < 0x030 then configView s vf (n - 0x020) else injField (getPart s p).inj (n - 0x040)

/-- Whether a destination can take a register of 64 bits: an even pair (DEDUCED, log entry 44). -/
def pairDst : UDst → Bool
  | .s n => n.toNat % 2 == 0
  | _ => false

def pairSrc : USrc → Bool
  | .s n => n.toNat % 2 == 0
  | _ => true

/-- CSRR (R379) (DEDUCED, log entry 44). -/
def execCsrr (d : UDst) (n : BitVec 12) (s : State) : Out :=
  uniIssue s (uniAt 8 .handler) (fun s a e =>
    match csrWidth n.toNat with
    | none => parkAll s e.mask cILLEGAL 0#64
    | some w =>
      if n.toNat = 0x012 then parkAll s e.mask cPRIV 0#64
      else if w = 64 && !pairDst d then parkAll s e.mask cILLEGAL 0#64
      else
        let v := csrValue s (agentVf s a) (partOf (coreOf a)) (getCore s (coreOf a)).handler.run n.toNat
        moved (writeUDst s a e.mask d (w == 64) v) [] 1)

/-- Whether a trap vector has bits that must be zero (R381). -/
def tvecBad (v : Double) : Bool := v.extractLsb' 0 2 != 0#2 || v.extractLsb' 57 7 != 0#7

/-- CSRW (R379, R381): `$tvec` alone may be written. -/
def execCsrw (x : USrc) (n : BitVec 12) (s : State) : Out :=
  uniIssue s (uniAt 8 .handler) (fun s a e =>
    match csrWidth n.toNat with
    | none => parkAll s e.mask cILLEGAL 0#64
    | some _ =>
      if n.toNat != 0x010 then parkAll s e.mask cPRIV 0#64
      else if !pairSrc x then parkAll s e.mask cILLEGAL 0#64
      else
        match readUSrc s a x true 0#64 with
        | .error c => parkAll s e.mask c 0#64
        | .ok v =>
          if tvecBad v then parkAll s e.mask cBOUNDS 0#64
          else moved (onVf s (agentVf s a) (fun y => { y with tvec := v })) [] 1)

/-! ## The parked entry (R382 to R385) -/

/-- The delivery an agent's handler slot runs. -/
def runDelivery (s : State) (a : Agent) : Option Delivery := (getCore s (coreOf a)).handler.run

/-- The entry a delivery serves as it stands: of a weave, a steer thread, or the elected thread of a command; none once its mask was
cleared in full (DEDUCED, log entry 43). -/
def servedEntry (s : State) (c : Nat) (d : Delivery) : Option Entry :=
  match d.target with
  | .weave k _ => (getWeave s c k).bind (fun w => w.frontier.find? (·.delivering))
  | .steer k => ((getInst s c k).bind (·.steer.entry)).bind (fun e => if e.delivering then some e else none)
  | .engine _ => some (entryAt d.tpc d.tprio d.tmask .parked)

/-- A value for the handler written to its destination. -/
def fgetWrite (s : State) (a : Agent) (e : Entry) (d : UDst) (wide : Bool) (v : Double) : Done := moved (writeUDst s a e.mask d wide v) [] 1

/-- A `fget` of a field of the entry; of an entry that is gone the mask is 0, and pc and priority are those of the delivery (DEDUCED, log entry 43). -/
def fgetField (s : State) (d : UDst) (wide : Bool) (f : Entry → Double) : Out :=
  uniIssue s (uniAt 8 .handler) (fun s a e =>
    match runDelivery s a with
    | none => moved s [] 1
    | some r =>
      fgetWrite s a e d wide (f ((servedEntry s (coreOf a) r).getD (entryAt r.tpc r.tprio 0#32 .parked))))

/-- FGET_PC (R384). -/
def execFgetPc (d : BitVec 6) (s : State) : Out := fgetField s (.s d) true (·.pc)

/-- FGET_MASK (R384). -/
def execFgetMask (d : UDst) (s : State) : Out := fgetField s d false (fun e => e.mask.setWidth 64)

/-- FGET_PRIO (R384). -/
def execFgetPrio (d : UDst) (s : State) : Out := fgetField s d false (fun e => e.prio.setWidth 64)

/-- The agent whose registers a delivery's `.reg` forms name: the weave or steer thread, or the issuer of the command. -/
def regAgent (s : State) (c : Nat) (d : Delivery) : Option Agent :=
  match d.target with
  | .weave k _ => some (.weave c k)
  | .steer k => some (.steer c k)
  | .engine q => (((getCore s c).queues.getD q []).head?).map (·.issuer)

/-- Whether a register number lies within an agent's file (R384). -/
def regInside (s : State) (a : Agent) (r : Nat) : Bool :=
  match a with
  | .weave c k => (match getWeave s c k with | some w => r < w.allot | none => false)
  | .steer _ _ => r < 64
  | .handler _ => false

/-- A register of a thread of an agent. -/
def regRead (s : State) (a : Agent) (t r : Nat) : Except Nat Double :=
  match a with
  | .weave c k => (match getWeave s c k with | some w => readReg (getCore s c) w t r false | none => .error cBOUNDS)
  | a => readSReg s a r false

/-- FGET_REG (R384). -/
def execFgetReg (d : UDst) (t : BitVec 5) (r : BitVec 7) (s : State) : Out :=
  uniIssue s (uniAt 8 .handler) (fun s a e =>
    match (runDelivery s a).bind (regAgent s (coreOf a)) with
    | none => parkAll s e.mask cBOUNDS 0#64
    | some b =>
      if !regInside s b r.toNat then parkAll s e.mask cBOUNDS 0#64
      else
        match regRead (commitAgent s b) b t.toNat r.toNat with
        | .error c => parkAll s e.mask c 0#64
        | .ok v => fgetWrite (commitAgent s b) a e d false v)

/-- The entry under delivery of a weave changed. -/
def onServed (s : State) (c k : Nat) (f : Entry → Entry) : State :=
  onWeave s c k (fun w => { w with frontier := w.frontier.map (fun e => if e.delivering then f e else e) })

/-- FSET_PC (R384): BOUNDS for an engine command. -/
def execFsetPc (x : USrc) (s : State) : Out :=
  uniIssue s (uniAt 8 .handler) (fun s a e =>
    match readUSrc s a x true 0#64, runDelivery s a with
    | .error c, _ => parkAll s e.mask c 0#64
    | .ok _, none => moved s [] 1
    | .ok v, some d =>
      match d.target with
      | .weave k _ => moved (onServed s (coreOf a) k (fun y => { y with pc := v })) [] 1
      | .steer k =>
        moved (onInst s (coreOf a) k (fun i => { i with steer := { i.steer with
          entry := i.steer.entry.map (fun y => if y.delivering then { y with pc := v } else y) } })) [] 1
      | .engine _ => parkAll s e.mask cBOUNDS 0#64)

/-- Threads cleared from the entry of a weave end as by `exit` (R75, R384) (DEDUCED, log entry 43). -/
def clearWeave (s : State) (c k : Nat) (keep : Mask) : State :=
  match getWeave s c k with
  | none => s
  | some w =>
    let f := (w.frontier.map (fun e => if e.delivering then { e with mask := e.mask &&& keep } else e)).filter (fun e => e.mask != 0#32)
    let s := putWeave s c k { w with frontier := f, pair := w.pair.map endGroup }
    settleWeave (settleBarriers s c w.inst) c k

/-- A dropped `stk.ld` leaves its slot loaded, with what it held before under the new descriptor (13 R318). -/
def dropLoad (x : Core) (m : Cmd) : Core :=
  match m.op with
  | .stkLd u tx raw xs => if (getSlot x u).state = .free then x else putSlot x u { getSlot x u with kept := descOf tx (TRec.of raw) xs }
  | _ => x

/-- A command dropped by its handler: out of its queue, its counter not added (07 R183). The delivery goes on without an entry (DEDUCED, log entry 43). -/
def dropCommand (s : State) (c q : Nat) (d : Delivery) : State :=
  match ((getCore s c).queues.getD q []).head? with
  | none => s
  | some m =>
    let target := match m.issuer with | .weave _ k => Target.weave k m.tid | .steer _ k => .steer k | .handler _ => d.target
    let s := onCore s c (fun x => dropFences { (dropLoad x m) with
      queues := x.queues.modify q (fun l => l.drop 1), tile := if q = 2 then none else x.tile,
      handler := { x.handler with run := some { d with target := target } } })
    settleInst (dissolve s c m.inst) c m.inst

/-- FSET_MASK (R384) (DEDUCED, log entry 43). -/
def execFsetMask (x : USrc) (s : State) : Out :=
  uniIssue s (uniAt 8 .handler) (fun s a e =>
    let c := coreOf a
    match readUSrc s a x false 0#64, runDelivery s a with
    | .error cause, _ => parkAll s e.mask cause 0#64
    | .ok _, none => moved s [] 1
    | .ok v, some d =>
      let keep : Mask := lowWord v
      match d.target with
      | .weave k _ => moved (clearWeave s c k keep) [] 1
      | .steer k =>
        if !keep.getLsbD 0 && (servedEntry s c d).isSome then moved (endSteer s c k) [] 1 else moved s [] 1
      | .engine q => if keep &&& d.tmask = 0#32 then moved (dropCommand s c q d) [] 1 else moved s [] 1)

/-- A register of a thread written, its tag null (10 R251). -/
def regWrite (s : State) (a : Agent) (t r : Nat) (v : Word) : State :=
  match a with
  | .weave c k => untag (onWeave s c k (fun w => writeV w t r v)) c k [r] []
  | a => putFile s a (writeS (getFile s a) r v)

/-- Whether a thread lies in the mask of the entry as it stands. -/
def inServed (s : State) (c : Nat) (d : Delivery) (t : Nat) : Bool :=
  match servedEntry s c d with
  | some e => e.mask.getLsbD t
  | none => false

/-- FSET_REG (R384). -/
def execFsetReg (x : USrc) (t : BitVec 5) (r : BitVec 7) (s : State) : Out :=
  uniIssue s (uniAt 8 .handler) (fun s a e =>
    match readUSrc s a x false 0#64, runDelivery s a with
    | .error cause, _ => parkAll s e.mask cause 0#64
    | .ok _, none => moved s [] 1
    | .ok v, some d =>
      match regAgent s (coreOf a) d with
      | none => parkAll s e.mask cBOUNDS 0#64
      | some b =>
        if !regInside s b r.toNat || !inServed s (coreOf a) d t.toNat then parkAll s e.mask cBOUNDS 0#64
        else moved (regWrite (commitAgent s b) b t.toNat r.toNat (lowWord v)) [] 1)

/-- RFT (R385): the return from an exception. -/
def execRft (s : State) : Out :=
  uniIssue s (uniAt 4 .handler) (fun s a e => moved (endDelivery s (coreOf a)) [(e.mask, .gone)] 1)

/-! ## Shootdowns (R387; 17 R365) -/

/-- The number of pages of the whole address space. -/
def allPages : Nat := 2 ^ 45

/-- A shootdown in flight for an issuer, or for the hypervisor. -/
def addShoot (s : State) (vf va pages : Nat) (sc : Scope) (core : Option Nat) : State × Nat :=
  let (n, s) := nextSeq s
  ({ s with shoots := s.shoots ++ [{ id := n, vf := vf, va := if pages = 0 then 0 else va, pages := if pages = 0 then allPages else pages,
                                     scope := sc, core := core }] }, n)

/-- XLINV (R387): waits in the handler slot until the shootdown completes. -/
def execXlinv (x y : USrc) (sc : Scope) (s : State) : Out :=
  uniIssue s (uniAt 8 .handler) (fun s a e =>
    match gather [readUSrc s a x true 0#64, readUSrc s a y false 0#64] with
    | .error c => parkAll s e.mask c 0#64
    | .ok vs =>
      let va := vs.getD 0 0#64
      let causes := (if va.toNat % 4096 != 0 then [cALIGN] else []) ++ (if scopeDenied s a sc then [cSCOPE] else [])
      match lowestCode causes with
      | some c => parkAll s e.mask c 0#64
      | none =>
        match addShoot s (agentVf s a) va.toNat (lowWord (vs.getD 1 0#64)).toNat sc (some (coreOf a)) with
        | (s, id) => waits s (.waiting (.xlinv id)))

/-! ## The injector's fields (R389) -/

/-- A field of the injector written; arming takes the fields and starts the count (R389). -/
def writeInj (i : Injector) (f : Nat) (v : Double) : Injector :=
  match f with
  | 0 => { i with seed := if v = 0#64 then 1#64 else v }
  | 1 => { i with rate := v &&& 63#64 }
  | 2 => { i with classes := v &&& 0xffffffff#64 }
  | 3 => { i with shot := v }
  | _ =>
    if v.getLsbD 0 then
      { i with arm := 1#64, gen := i.seed, count := 0, liveRate := i.rate.toNat, liveClasses := i.classes.setWidth 32, liveShot := i.shot.toNat }
    else { i with arm := 0#64 }

/-- Whether a partition is a test partition (17 R344). -/
def testPart (s : State) (p : Nat) : Bool := (getPart s p).config.getLsbD 31

/-- The issue of an `injset`. -/
def injset (f : Nat) (wide : Bool) (x : USrc) (s : State) : Out :=
  uniIssue s (uniAt 8 .handler) (fun s a e =>
    let p := partOf (coreOf a)
    match readUSrc s a x wide 0#64 with
    | .error c => parkAll s e.mask c 0#64
    | .ok v =>
      if !testPart s p then parkAll s e.mask cPRIV 0#64
      else if f = 1 && 63 < v.toNat then parkAll s e.mask cBOUNDS 0#64
      else moved (onPart s p (fun q => { q with inj := writeInj q.inj f v })) [] 1)

/-- INJSET_SEED (R389). -/
def execInjsetSeed (x : USrc) (s : State) : Out := injset 0 true x s

/-- INJSET_RATE (R389). -/
def execInjsetRate (x : USrc) (s : State) : Out := injset 1 false x s

/-- INJSET_CLASSES (R389). -/
def execInjsetClasses (x : USrc) (s : State) : Out := injset 2 false x s

/-- INJSET_SHOT (R389). -/
def execInjsetShot (x : USrc) (s : State) : Out := injset 3 true x s

/-- INJSET_ARM (R389). -/
def execInjsetArm (x : USrc) (s : State) : Out := injset 4 false x s

/-! ## Checkpoints (R388; 20 R407) -/

/-- CKPT (R388). -/
def execCkpt (s : State) : Out :=
  uniIssue s (uniAt 4 .weave) (fun s a _ =>
    match a with
    | .weave c k =>
      let s := closeFor s c k
      match getWeave s c k with
      | none => moved s [] 1
      | some w =>
        if w.pair.isNone then moved s [] 1
        else if w.frontier.length != 1 then moved (onPair (onWeave s c k (fun w => countWeave w 0x102 1)) a endGroup) [] 1
        else if groupStall s a then waits s (.waiting .slack)
        else waits (onPair s a endGroup) (.waiting .ckpt)
    | _ => moved s [] 1)

/-! ## Emulation calls (23 R429) -/

/-- The save area of a thread: the top 256 bytes of its private window. -/
def saveArea (l : Launch) (num role wid t : Nat) : Nat := (privWindow l.header num role wid t + l.header.privsz + 2 ^ 64 - 256) % 2 ^ 64

/-- The save areas of the threads of a weave. -/
def areaOf (s : State) (c : Nat) (w : Weave) (t : Nat) : Nat :=
  match (getInst s c w.inst).bind (fun i => (getLaunch s i.serial).map (fun l => saveArea l i.num w.role w.wid t)) with
  | some b => b
  | none => 0

/-- The stores of one thread of a call: offset in the save area, width, value (DEDUCED, log entry 42). -/
def callStores (pair link : Double) (payload arg : Word) : List (Nat × MemW × Double) :=
  [(224, .b64, pair), (232, .b32, payload.setWidth 64), (236, .b32, arg.setWidth 64), (240, .b64, link)]

/-- The stores of a call checked for one thread: its writes, or its lowest cause. -/
def callSites (s : State) (a : Agent) (e : Entry) (t b : Nat) : List (Nat × MemW × Double) → Except Nat (List ThreadStore) × State
  | [] => (.ok [], s)
  | (off, w, v) :: r =>
    match storeSite s a e (plainStore false w) false t (.ok (BitVec.ofNat 64 (b + off))) (.ok v) with
    | (x, s) =>
      match x, callSites s a e t b r with
      | .ok y, (.ok l, s) => (.ok (y :: l), s)
      | .ok _, (.error c, s) => (.error c, s)
      | .error c, (.ok _, s) => (.error c, s)
      | .error c, (.error c', s) => (.error (min c c'), s)

/-- The calls of every thread checked, in increasing index. -/
def callAll (a : Agent) (e : Entry) : State → List (Nat × Nat × Except Nat (List (Nat × MemW × Double))) →
    List (Nat × Except Nat (List ThreadStore)) × State
  | s, [] => ([], s)
  | s, (t, _, .error c) :: r => match callAll a e s r with | (l, s) => ((t, .error c) :: l, s)
  | s, (t, b, .ok st) :: r =>
    match callSites s a e t b st with
    | (x, s) => match callAll a e s r with | (l, s) => ((t, x) :: l, s)

/-- The word after a call's two, where its form has one: through the fetch path. -/
def argWord (s : State) (c vf : Nat) (e : Entry) (x : Bool) : Except Nat Word × State :=
  if x then fetchWord s c vf (e.pc + 8#64).toNat false else (.ok 0#32, s)

/-- A call's stores of all threads, as one store instruction per place of the save area (DEDUCED, log entry 42). -/
def callReqs (l : List (Nat × Except Nat (List ThreadStore))) : List StoreReq :=
  let good := l.filterMap (fun r => match r.2 with | .ok x => some (r.1, x) | .error _ => none)
  (List.range 4).map (fun i =>
    { writes := good.filterMap (fun g => g.2[i]?), rel := none, through := false, width := if i = 1 || i = 2 then 4 else 5, ord := 0,
      mask := maskOf (good.map (·.1)) })

/-- CALLE (R429) (DEDUCED, log entry 42). -/
def execCalle (r : BitVec 7) (off : BitVec 14) (x : Bool) (orig : BitVec 21) (s : State) : Out :=
  laneIssue s (twoWord [(r.toNat, 2)]) (fun s c k w e act =>
    let a := Agent.weave c k
    if act = 0#32 then moved s [] 1
    else
      match storeWait s a (plainStore false .b64) with
      | some v => waits s (.waiting v)
      | none =>
        match argWord s c (agentVf s a) e x with
        | (.error cause, s) => parkAll s e.mask cause 0#64
        | (.ok arg, s) =>
          let link := e.pc + (if x then 16#64 else 8#64)
          let payload : Word := BitVec.ofNat 32 (orig.toNat + if x then 2 ^ 26 else 0)
          let asks := (threadsOf act).map (fun t =>
            (t, areaOf s c w t, match readReg (getCore s c) w t r.toNat true with
              | .error cause => .error cause
              | .ok v => .ok (callStores v link payload arg)))
          match callAll a e s asks with
          | (l, s) =>
            let good := l.filterMap (fun y => match y.2 with | .ok _ => some y.1 | .error _ => none)
            let buf := buffers s a (plainStore false .b64) (4 * good.length)
            let s := if buf || w.region.isNone then s else closeFor s c k
            let s := if good.isEmpty then s
              else (callReqs l).foldl (fun s q => if buf then onWeave s c k (fun w => bufferStore w q) else enterFor s a q) s
            let s := onWeave s c k (fun w => good.foldl (fun w t => writeVD w t r.toNat (BitVec.ofNat 64 (areaOf s c w t))) w)
            let parks := parkGroups (l.map (fun y => (y.1, match y.2 with | .ok _ => .ok 0#64 | .error cause => .error cause))) []
            { moved s (parks ++ [landGroup s a (maskOf good) (e.pc + ((off.signExtend 64 : Double) <<< 2)) e.prio]) (countOf act) with
              wv := if good.isEmpty then [] else [r.toNat, r.toNat + 1] })

/-- What each thread of a return loads: the link and the saved pair. -/
abbrev Backs := List (Nat × Except Nat (Double × Double))

def pairUp (x y : Loaded) : Backs :=
  x.map (fun r => (r.1,
    match r.2, (y.find? (fun z => z.1 == r.1)).map (·.2) with
    | .ok a, some (.ok b) => .ok (a, b)
    | .ok _, some (.error c) => .error c
    | .error c, some (.error c') => .error (min c c')
    | .error c, _ => .error c
    | .ok a, none => .ok (a, 0#64)))

/-- The loads of a return, of its own or as the leading copy read them. -/
inductive BackRead
  | got (l : Backs) (s : State)
  | wait
  | broken

def readBacks (s : State) (a : Agent) (e : Entry) (act : Mask) (areas : List (Nat × Nat)) : BackRead :=
  match takeValue s a e.pc act with
  | .own =>
    match loadGlobals s a e (plainLoad false .b64) false (areas.map (fun r => (r.1, .ok (r.2 + 240)))) with
    | (x, s) =>
      match loadGlobals s a e (plainLoad false .b64) false (areas.map (fun r => (r.1, .ok (r.2 + 224)))) with
      | (y, s) =>
        let l := pairUp x y
        let vals := l.flatMap (fun r => match r.2 with | .ok v => [(r.1, v.1), (32 + r.1, v.2)] | .error _ => [])
        .got l (if vals.isEmpty then s else giveValue s a e.pc vals)
  | .given vals s =>
    .got ((threadsOf act).filterMap (fun t =>
      match vals.find? (fun v => v.1 == t), vals.find? (fun v => v.1 == 32 + t) with
      | some x, some y => some (t, .ok (x.2, y.2))
      | _, _ => none)) s
  | .wait => .wait
  | .broken => .broken

/-- CALLE_RET (R429) (DEDUCED, log entry 42). -/
def execCalleRet (r : BitVec 7) (s : State) : Out :=
  laneIssue s (twoWord [(r.toNat, 2)]) (fun s c k w e act =>
    let a := Agent.weave c k
    if act = 0#32 then moved s [] 1
    else
      match readBacks s a e act ((threadsOf act).map (fun t => (t, areaOf s c w t))) with
      | .wait => waits s (.waiting .pairOp)
      | .broken => moved (pairFail s a) [] 1
      | .got l s =>
        let rs : Goes := l.map (fun x => (x.1,
          match x.2 with
          | .error c => .error c
          | .ok v => if v.1 = 0#64 then .error cRETEMPTY else .ok (v.1, e.prio)))
        let back := l.filterMap (fun x => match x.2 with | .ok v => if v.1 = 0#64 then none else some (x.1, v.2) | .error _ => none)
        let s := onWeave s c k (fun w => back.foldl (fun w x => writeVD w x.1 r.toNat x.2) w)
        let late := act &&& ~~~maskOf (l.map (·.1))
        { moved s (goGroups s a rs ++ [(late, .hold (.waiting .pairOp))]) (countOf act) with
          wv := if back.isEmpty then [] else [r.toNat, r.toNat + 1] })

end Sys2Proof.Machine
end

