-- ==== Sys2Proof/Machine/Waits.lean ====
section
/-!
DEFINITION. What completes a wait or takes place between the instructions of agents: restarts (04 R76), `rcb`, `sleep`, full/empty
loads, joins, scopes, claims, wales and decisions (04 R72 to R91; 06 R135 to R144; 07 R164, R181; 13 R315), results that arrive
(04 R444), store queues (07 R159), L1 lines (08 R199), epochs (10 R255), deliveries (05 R107), the issue of a word that is no
instruction (03 R56), and containment (20 R397).
-/

namespace Sys2Proof.Machine

open Sys2Proof

/-! ## exitto (R76) -/

/-- The weave's stack of circles left as by `leave`, joined circles and the role circle alike. -/
def leaveAll (s : State) (c k : Nat) (w : Weave) : State :=
  let s := w.circles.foldl (fun s z => settleBarriers (leaveCircle s c w.inst k z) c w.inst) s
  dissolve (onWeave s c k (fun w => { w with circles := [] })) c w.inst

/-- The registers kept by a restart: v0 to vn−1 of the threads that restart. -/
def keptRegs (v : Sparse Word) (n : Nat) (m : Mask) : Sparse Word := skeep v (fun i => i / 32 < n && m.getLsbD (i % 32))

/-- The v registers whose tags a restart ends: every one that a tag names, a restart ends its binding (10 R251). -/
def lostTags (w : Weave) : List Nat := w.vtags.map (·.1)

/-- The weave set up at a successor entry, its threads in one entry (DEDUCED, log entry 40). -/
def restarted (w : Weave) (e : SuccEnt) (m : Mask) (y : Entry) : Weave :=
  { w with role := e.role, allot := e.allot, scopes := [], frontier := [y], v := keptRegs w.v e.kept m,
           vbad := w.vbad.filter (fun i => i / 32 < e.kept && m.getLsbD (i % 32)), chain := none, region := none, restart := none,
           circles := [e.role] }

/-- Whether a weave waits to restart in a role of its instance. -/
def restartsIn (s : State) (w : Weave) (i role serial : Nat) : Bool :=
  match w.restart with
  | some (n, _) => w.inst == i && w.frontier.isEmpty && (match (getLaunch s serial).bind (fun l => l.header.succents[n]?) with | some e => e.role == role | none => false)
  | none => false

/-- The places of a role circle that a weave's restart finds taken: its members other than the weave, and those that restarts of
older weaves into it wait for (R76, R91). -/
def placesTaken (s : State) (c i k role : Nat) (w : Weave) : Nat :=
  match getInst s c i with
  | none => 0
  | some x =>
    let ms := match x.circles.find? (fun z => z.id == role) with | some z => nerase z.members k | none => []
    let older := (getCore s c).weaves.filter (fun e => e.1 != k && !nmem ms e.1 && restartsIn s e.2 i role x.serial
      && ageOf (getCore s c) e.2 < ageOf (getCore s c) w)
    ms.length + older.length

/-- The entry at a successor's pc: the landing of a transfer (03 R56). -/
def restartEntry (s : State) (c vf : Nat) (e : SuccEnt) (m : Mask) : State × Entry :=
  match landing s c vf e.pc 0#16 false with
  | .parkAt pc prio cause =>
    let (n, s) := nextSeq s
    (s, { entryAt pc prio m .parked with cause := cause, parkedAt := n })
  | _ => (s, entryAt e.pc 0#16 m .ready)

/-- A weave restarts at a successor entry with the threads marked for it (DEDUCED, log entry 40). -/
def restartWeave (s : State) (c k : Nat) (w : Weave) (e : SuccEnt) (m : Mask) : State :=
  let s := drainAll s (.weave c k)
  let s := leaveAll s c k w
  let s := untag s c k (lostTags w) []
  let (s, y) := restartEntry s c (agentVf s (.weave c k)) e m
  let s := onWeave s c k (fun w => restarted w e m y)
  let s := onCore s c (fun x =>
    let l := sget Lane.blank x.lanes w.lane
    let x := { x with slots := x.slots.map (fun y => if y.2.inst == w.inst && y.2.weave == k && y.2.state != .free then (y.1, { y.2 with role := e.role }) else y) }
    if l.owner = some k then { x with lanes := sput x.lanes w.lane { l with valid := 0#4 } } else x)
  settleBarriers (joinCircle (closeStages s c w.inst) c w.inst k e.role) c w.inst

/-- WEAVE_RESTART (R76): a larger allotment waits as a grow request, a full role circle for a member to leave, in the order of R91. -/
def execWeaveRestart (core slot : Nat) (s : State) : Out :=
  .next (match getWeave s core slot with
    | none => s
    | some w =>
      match w.restart, (getInst s core w.inst).bind (fun i => getLaunch s i.serial) with
      | some (n, m), some l =>
        match l.header.succents[n]? with
        | some e =>
          if w.frontier.isEmpty && placesTaken s core w.inst slot e.role w < 32 && (e.allot ≤ w.allot || growNow s core slot w (e.allot - w.allot))
          then restartWeave (commitAgent s (.weave core slot)) core slot ((getWeave (commitAgent s (.weave core slot)) core slot).getD w) e m
          else s
        | none => s
      | _, _ => s)

/-! ## rcb, sleep -/

/-- The first entry of a weave in a state of some kind. -/
def entryIn (s : State) (c k : Nat) (p : Weave → Entry → Bool) : Option Entry :=
  (getWeave s c k).bind (fun w => w.frontier.find? (p w))

/-- RCB_RELEASE (R72): the entry becomes ready at the next instruction once no other entry has a lower prio (DEDUCED, log entry 38). -/
def execRcbRelease (core slot : Nat) (s : State) : Out :=
  .next (match entryIn s core slot (fun w e => e.state == .atRcb && !lowerLeft w e) with
    | some e => proceed s core slot e 4 []
    | none => s)

/-- SLEEP_EXPIRE (06 R137). -/
def execSleepExpire (core slot : Nat) (s : State) : Out :=
  .next (match entryIn s core slot (fun _ e => match e.state with | .sleeping t => t ≤ coreCycles s core | _ => false) with
    | some e => proceed s core slot e 0 []
    | none => s)

/-! ## Waits on circle memory, circles, registers, slots -/

def isFe : Wait → Bool
  | .feLoad _ => true
  | _ => false

/-- The full/empty load of a steer thread or the handler slot that waited, performed: its value, or the cause of its read. -/
def wakeAlone (s : State) (a : Agent) (e : Entry) (r : FeLoad) : State :=
  let k := (r.addrs.map (·.2)).headD 0
  let d := match r.dst with | .uni d => d | .lane _ => .s 0#6
  match circleLoadBytes s a k (widthBytes r.width) with
  | .error c => endWait s a e 8 [] [(e.mask, .park c 0#64)]
  | .ok b =>
    let v := loadValue r.width b
    let s := if r.clear then onCore s (coreOf a) (fun x => { x with full := neraseAll x.full (feGranules r) }) else s
    endWait (flyUni (logOwn s a (.circle [(0, v)])) a e.mask d (isWide r.width) v) a e 8 (udstRegs d (isWide r.width)) []

/-- FE_LOAD_WAKE (07 R164): of a weave's slot; 256 more than a steer thread's number, or 512, the handler slot (DESIGN CHOICE, log entry 20). -/
def execFeLoadWake (core slot : Nat) (s : State) : Out :=
  .next (
    if slot < 256 then
      match entryIn s core slot (fun _ e => match e.state with | .waiting (.feLoad r) => feTurn (getCore s core) r | _ => false) with
      | some e =>
        match e.state with
        | .waiting (.feLoad r) => match performFe s core slot e.mask r with | (s, gs) => proceed s core slot e 8 gs
        | _ => s
      | none => s
    else
      let a := if slot < 512 then Agent.steer core (slot - 256) else .handler core
      match waitingOf s a isFe with
      | some (e, .feLoad r) => if feTurn (getCore s core) r then wakeAlone s a e r else s
      | _ => s)

def isJoin : Wait → Bool
  | .join _ _ => true
  | _ => false

/-- Whether a `join` that waits goes on as things stand. -/
def joinGoes (s : State) (c : Nat) (w : Weave) (x : Entry × Wait) : Bool :=
  match getInst s c w.inst, x.2 with
  | some i, .join tag size => joinNow i w tag size != .wait
  | _, _ => false

/-- JOIN_GRANT (06 R138): the first of the weave's entries that the pool has room for. -/
def execJoinGrant (core slot : Nat) (s : State) : Out :=
  .next (match (getWeave s core slot).bind (fun w => (waitersOf s (.weave core slot) isJoin).find? (joinGoes s core w)), getWeave s core slot with
    | some (e, .join tag size), some w =>
      match getInst s core w.inst with
      | none => s
      | some i =>
        match joinNow i w tag size with
        | .wait => s
        | .bounds => proceed s core slot e 4 [(e.mask, .park cBOUNDS 0#64)]
        | .grant => proceed (grantJoin s core slot w.inst tag size) core slot e 4 []
    | _, _ => s)

def isGrow : Wait → Bool
  | .grow _ => true
  | _ => false

/-- The weave of a core whose grow request is the oldest (R91). -/
def oldestGrow (s : State) (c : Nat) : Option (Nat × Weave) :=
  let x := getCore s c
  (x.weaves.filter (fun e => (growOf s x e.2).isSome)).foldl (fun acc e =>
    match acc with
    | none => some e
    | some b => if ageOf x e.2 < ageOf x b.2 then some e else some b) none

/-- SCOPE_GRANT (R91): the oldest request, where it is a `scope` and its registers are free; the limits of R89 hold for what the weave
has been granted since (DEDUCED, log entry 23). -/
def execScopeGrant (core : Nat) (s : State) : Out :=
  .next (match oldestGrow s core with
    | none => s
    | some (k, w) =>
      match waitingOf s (.weave core k) isGrow with
      | some (e, .grow n) =>
        if scopeBounds s core w n then proceed s core k e 8 [(e.mask, .park cBOUNDS 0#64)]
        else if growNow s core k w n then proceed (grantScope s core k n) core k e 8 []
        else s
      | _ => s)

/-- A claim that waits and may be granted: the weave's slot, its entry, and the units. -/
def claimReady (x : Core) : Option (Nat × Entry × Nat × Nat) :=
  x.weaves.findSome? (fun w => w.2.frontier.findSome? (fun e =>
    match e.state with
    | .waiting (.sclaim u n q) => if claimNow x u n q then some (w.1, e, u, n) else none
    | _ => none))

/-- SCLAIM_GRANT (13 R315): a weave that holds a slot by then takes the cause that its issue would have raised. -/
def execSclaimGrant (core : Nat) (s : State) : Out :=
  .next (match claimReady (getCore s core) with
    | some (k, e, u, n) =>
      match getWeave s core k with
      | some w =>
        if (getCore s core).slots.any (fun y => slotHeld y.2 w k) then proceed s core k e 8 [(e.mask, .park cSLOT 0#64)]
        else proceed (putCore s core (grantClaim (getCore s core) w k u n)) core k e 8 []
      | none => s
    | none => s)

/-! ## Decisions and wales (R84, R86) -/

def isDpush : Wait → Bool
  | .dpush _ => true
  | _ => false

/-- DPUSH_APPEND (R86). -/
def execDpushAppend (core k : Nat) (s : State) : Out :=
  .next (match waitingOf s (.steer core k) isDpush with
    | some (e, .dpush v) =>
      if decisionsFull s core k then s else endWait (appendDecision s core k v) (.steer core k) e 4 [] []
    | _ => s)

/-- Whether an entry came first among those that wait alike. -/
def firstIn (l : List (Nat × Nat)) (e : Entry) : Bool := l.all (fun x => e.parkedAt ≤ x.1)

/-- DPOP_TAKE (R86): the `dpop` that waited longest takes an entry, or the end value. -/
def execDpopTake (core slot : Nat) (s : State) : Out :=
  .next (match waitingOf s (.weave core slot) isDpop, getWeave s core slot with
    | some (e, .dpop d wide), some w =>
      match decisionNow s core w.inst with
      | some v =>
        if firstIn (instWaits (getCore s core) w.inst isDpop) e then
          proceed (takeDecision s core slot w.inst e.mask d wide v) core slot e 4 []
        else s
      | none => s
    | _, _ => s)

/-- WPUSH_APPEND (R84). -/
def execWpushAppend (core slot : Nat) (s : State) : Out :=
  .next (match waitingOf s (.weave core slot) isWpush, getWeave s core slot with
    | some (e, .wpush line), some w =>
      if !waleFull s core w.inst w.role && firstIn (stageWaits (getCore s core) w.inst w.role isWpush) e then
        proceed (pushWale s core w.inst w.role line) core slot e 4 []
      else s
    | _, _ => s)

/-- WPOP_TAKE (R84). -/
def execWpopTake (core slot : Nat) (s : State) : Out :=
  .next (match waitingOf s (.weave core slot) isWpop, getWeave s core slot with
    | some (e, .wpop d p), some w =>
      match popNow s core w.inst w.role with
      | .wait => s
      | n =>
        if firstIn (stageWaits (getCore s core) w.inst w.role isWpop) e then
          proceed (performPop s core slot w e.mask d p n) core slot e 4 []
        else s
    | _, _ => s)

/-! ## waitc -/

def isWaitc : Wait → Bool
  | .waitc _ _ => true
  | _ => false

/-- Whether a `waitc` that waits ends as things stand: its count is reached, or its read has a cause. -/
def waitcEnds (s : State) (a : Agent) (x : Entry × Wait) : Bool :=
  match x.2 with
  | .waitc addr n => (match (readCounter s a addr).1 with | .ok v => n ≤ v | .error _ => true)
  | _ => false

/-- WAITC_COMPLETE (07 R181): the first of the agent's entries whose counter has reached its count. -/
def execWaitcComplete (a : Agent) (s : State) : Out :=
  .next (match firstWaiter (waitersOf s a isWaitc) (waitcEnds s a) with
    | some (e, .waitc addr n) =>
      match readCounter s a addr with
      | (.error c, s) => endWait s a e 8 [] [(e.mask, .park c addr)]
      | (.ok v, s) => if n ≤ v then endWait (dropL1 s (coreOf a)) a e 8 [] [] else s
    | _ => s)

/-! ## Results, stores, lines, epochs -/

/-- MEMORY_RESULT_ARRIVE (04 R444): the oldest outstanding result of an agent. -/
def execMemoryResultArrive (a : Agent) (s : State) : Out :=
  .next (match a with
    | .weave c k => onWeave s c k (fun w =>
        match w.inflight with | r :: l => { applyResult w r with inflight := l } | [] => w)
    | .steer c k => onInst s c k (fun i =>
        match i.steer.inflight with
        | r :: l =>
          let f := commitFile (steerFile i.steer) [r]
          { i with steer := { i.steer with s := f.s, sbad := f.bad, inflight := l } }
        | [] => i)
    | .handler c => onCore s c (fun x =>
        match x.handler.inflight with
        | r :: l =>
          let f := commitFile (handlerFile x.handler) [r]
          { x with handler := { x.handler with s := f.s, sbad := f.bad, inflight := l } }
        | [] => x))

/-- STORE_QUEUE_DRAIN (07 R159). -/
def execStoreQueueDrain (a : Agent) (s : State) : Out := .next (drainOne s a)

/-- L1_EVICTION (08 R199): the line goes to the slice, whose line may leave too (DESIGN CHOICE, log entry 7). -/
def execL1Eviction (core line : Nat) (s : State) : Out :=
  .next (if Config.keeps s.tick 5 line then leaveL1 s core line else dropLine s core line)

/-- VALUE_STORE_EPOCH_FLUSH (10 R255). -/
def execValueStoreEpochFlush (core : Nat) (s : State) : Out :=
  .next (if 2 ^ 40 ≤ (getCore s core).nextSerial then onCore s core epochFlush else s)

/-! ## Deliveries and words that are no instruction -/

/-- TRAP_DELIVERY (05 R107): taking an exception. -/
def execTrapDelivery (core : Nat) (s : State) : Out := .next (takeDelivery s core)

/-- WORD_NOT_INSTRUCTION (03 R56): the issuing entry parks with ILLEGAL_ENCODING. -/
def execWordNotInstruction (s : State) : Out :=
  match issuing s s.focus with
  | none => .fault .noIssuer
  | some e => .next (parkAgent (begin s s.focus e) s.focus e 4 cILLEGAL)

/-! ## Containment (20 R397) -/

/-- The entry of the failure record that a consumed POISON writes: the physical element, the logical thread and the action taken. -/
def poisonEntry (s : State) (element : Nat) (name : BitVec 128) (action : Nat) : FailRec :=
  { kind := kindPoison, element := element, name := name, action := action, detail := cPOISON, time := s.now }

/-- An entry for every POISON that a launch met (R397). -/
def recordPoisons (s : State) (l : Launch) (action : Nat) : State :=
  l.poisons.foldl (fun s p => record s (poisonEntry s p.1 p.2 action)) s

/-- A node back in its partition's queue with status 1 and a new ready time; its staged writes are gone. -/
def requeueNode (s : State) (l : Launch) : State :=
  let s := removeLaunch s l.serial
  let s := l.blocks.foldl (fun s a => onVf s l.vf (fun v => { v with blocks := serase v.blocks a })) s
  let s := { s with launches := s.launches.filter (fun y => y.serial != l.serial) }
  enqueue s l.part l.vf l.addr (l.requeues + 1) l.node (some l.header)

/-- POISON_CONTAINMENT (R397): re-queued if restartable, not committed early and re-queued fewer than 3 times; else failed, with reason 20 where
the consumption ended a freeze (05 R116; 17 R372). -/
def execPoisonContainment (serial : Nat) (s : State) : Out :=
  .next (match getLaunch s serial with
    | none => s
    | some l =>
      match l.poison with
      | none => s
      | some _ =>
        if staging l && l.requeues < 3 then requeueNode (recordPoisons s l 1) l
        else failLaunch (recordPoisons s l 2) serial (if l.freezeBad then 20 else 17) (if l.freezeBad then 0 else cPOISON) 0)

end Sys2Proof.Machine
end

