-- ==== Sys2Proof/Machine/Pairs.lean ====
section
/-!
DEFINITION. The comparison of store groups, the release of a group and its once-performed members, rollback, checkpoints and the end of
paired weaves (20 R402 to R409, R415).
-/

namespace Sys2Proof.Machine

open Sys2Proof

/-- The agent a comparison names: a weave's slot, or 256 more than a steer thread's number. -/
def pairAgent (core slot : Nat) : Agent := if slot < 256 then .weave core slot else .steer core (slot - 256)

/-- The leading and the trailing agent of a pair, with their states. -/
def bothCopies (s : State) (a : Agent) : Option ((Agent × Pair) × (Agent × Pair)) :=
  match pairOf s a with
  | none => none
  | some p =>
    match pairOf s (peerOf p a) with
    | none => none
    | some q => if p.trailing then some ((peerOf p a, q), (a, p)) else some ((a, p), (peerOf p a, q))

/-! ## Results of a performed member for both copies (R402) -/

/-- What a performed member gives: values, causes by thread, and how they are written. -/
structure Given where
  vals : List (Nat × Double)
  write : State → Agent → Entry → State × Groups × List Nat × List Nat
  size : Nat

/-- An issuer that its member held takes the results, logs them and goes on. -/
def handResult (num : Nat) (g : Given) (s : State) (a : Agent) : State :=
  match waitingOf s a (fun w => w == .once num) with
  | none => s
  | some (e, _) =>
    let s := onPair s a (logEntry (.value e.pc g.vals))
    match g.write s a e with
    | (s, gs, wv, ws) =>
      let s := match a with | .weave c k => untag s c k wv [] | _ => s
      endWait s a e g.size ws gs

/-- Values written to the registers a full/empty load or an atomic names. -/
def writeGiven (s : State) (a : Agent) (e : Entry) (dst : FeDst) (wide : Bool) (vals : List (Nat × Double)) : State :=
  match dst with
  | .uni d => writeUDst s a e.mask d wide ((vals.map (·.2)).getD 0 0#64)
  | .lane d =>
    match a with
    | .weave c k => onWeave s c k (fun w => vals.foldl (fun w v =>
        if wide then writeVD w v.1 d v.2 else writeV w v.1 d (lowWord v.2)) w)
    | _ => s

def dstV (dst : FeDst) (wide : Bool) : List Nat := match dst with | .lane d => regsFrom d wide | .uni _ => []
def dstS (dst : FeDst) (wide : Bool) : List Nat := match dst with | .uni d => udstRegs d wide | .lane _ => []

/-- The results of an atomic. -/
def atomGiven (q : AtomQ) (dst : FeDst) (l : Loaded) : Given :=
  { vals := okVals l, size := 8,
    write := fun s a e =>
      let bad := parkGroups l []
      let gs := match dst with | .uni _ => bad.map (fun g => (e.mask, g.2)) | .lane _ => bad
      if (okVals l).isEmpty then (s, gs, [], [])
      else (writeGiven s a e dst (atomWide q.ty) (okVals l), gs, dstV dst (atomWide q.ty), dstS dst (atomWide q.ty)) }

/-- The results of an `alloc`. -/
def allocGiven (uni trap : Bool) (d p : Nat) (l : List (Nat × Served)) : Given :=
  { vals := l.map (fun r => (r.1, servedCode r.2)), size := 8,
    write := fun s a e =>
      let ok := l.filterMap (fun r => match servedVal trap r.2 with | .ok v => some (r.1, v) | .error _ => none)
      let bad := servedParks trap l
      if uni then
        match ok with
        | (_, v, b) :: _ =>
          let f := writeSD (getFile s a) d v
          (putFile s a (if p < 4 then writeQ f p b else f), [], [], [d, d + 1])
        | [] => (s, bad.map (fun g => (e.mask, g.2)), [], [])
      else
        match a with
        | .weave c k =>
          (onWeave s c k (fun w => ok.foldl (fun w r => writeP (writeVD w r.1 d r.2.1) r.1 p r.2.2) w), bad,
           if ok.isEmpty then [] else [d, d + 1], [])
        | _ => (s, bad, [], []) }

/-- The result of a `nodeput`. -/
def nodeGiven (d : UDst) (v : Double) : Given :=
  { vals := [(0, v)], size := 4, write := fun s a e => (writeUDst s a e.mask d false v, [], [], udstRegs d false) }

/-! ## The release of a group (R405) -/

/-- Stores that enter the leading copy's queue. -/
def queueStore (s : State) (a : Agent) (r : StoreReq) : State := setQueue s a (queueOf s a ++ [r])

/-- A command that waited for its group may be performed. -/
def releaseCmd (s : State) (c q seq : Nat) : State :=
  onCore s c (fun x => { x with queues := x.queues.modify q (fun l => l.map (fun m => if m.seq == seq then { m with held := false } else m)) })

/-- An atomic of a group performed by the leading copy (07 R171). -/
def performAtom (s : State) (a : Agent) (op : AtomOp) (q : AtomQ) (items : List (Nat × Nat × Double × Double)) : Loaded × State :=
  let s := drainAll s a
  let s := if relOrd q.order then releaseAt s (coreOf a) q.scope else s
  match atomAll (coreOf a) (serialOf s a) (stageOf s a) op q.ty s
      (items.map (fun i => { tid := i.1, va := 0, key := i.2.1, x := i.2.2.1, cmp := i.2.2.2 : AtomItem })) with
  | (l, s) => (l, if acqOrd q.order then acquireAt s (coreOf a) q.scope else s)

/-- A copy that a fence held goes on. -/
def passFence (num : Nat) (s : State) (a : Agent) : State :=
  match waitingOf s a (fun w => w == .once num) with
  | none => s
  | some (e, _) => endWait s a e 4 [] []

/-- One member performed; its results go to both copies. -/
def performOp (num : Nat) (a b : Agent) (s : State) (op : PairOp) : State :=
  let both := fun (s : State) (g : Given) => handResult num g (handResult num g s a) b
  match op with
  | .stores r => queueStore s a r
  | .atom o q dst items =>
    match performAtom s a o q items with
    | (l, s) => if q.ret then both s (atomGiven q dst l) else s
  | .alloc uni trap d p sizes =>
    match allocAll (agentVf s a) (stageOf s a) (drainAll s a) sizes with
    | (l, s) => both (dropL1 (dropL1 s (coreOf a)) (coreOf b)) (allocGiven uni trap d p l)
  | .free addrs => (freeAll (agentVf s a) (stageOf s a) (flushL1 (drainAll s a) (coreOf a)) addrs).2
  | .command q seq => releaseCmd (drainAll s a) (coreOf a) q seq
  | .nodeput d addr =>
    match postCode (postNode (flushL1 (drainAll s a) (coreOf a)) (agentVf s a) addr.toNat (partOf (coreOf a))) with
    | (v, s) => both s (nodeGiven d v)
  | .fence k sc =>
    let s := fenceAct (drainAll s a) (coreOf a) k sc
    let s := if fenceAcq k then acquireAt s (coreOf b) sc else s
    passFence num (passFence num s a) b
  | .checkpoint => s

/-- The oldest group of both copies gone. -/
def dropGroup (s : State) (a b : Agent) : State :=
  let f := fun (p : Pair) => { p with closed := p.closed.drop 1 }
  onPair (onPair s a f) b f

/-! ## Rollback (R406, R409) -/

/-- A copy's pairing state at its rollback point, with the values it took so far to be taken again. -/
def rollPair (n : Nat) (p : Pair) : Pair :=
  { p with lvq := [], members := [], count := 0, open_ := [], num := 1, closed := [], replay := p.log, log := [], upTo := n,
           mismatch := ninsert p.mismatch n }

/-- A weave at its rollback point. -/
def rollWeave (n : Nat) (w : Weave) (b : Snapshot) : Weave :=
  { w with role := b.role, allot := b.allot, lmode := b.lmode, v := b.v, preds := b.preds, flags := b.flags, gens := b.gens, s := b.s, q := b.q,
           mode := b.mode, frontier := b.frontier, scopes := b.scopes, circles := b.circles, restart := b.restart, vbad := [], sbad := [],
           chain := none, region := none, inflight := [], pair := w.pair.map (rollPair n) }

/-- A steer thread at its rollback point. -/
def rollSteer (n : Nat) (x : Steer) (b : Snapshot) : Steer :=
  { x with entry := b.frontier.head?, s := b.s, q := b.q, mode := b.mode, gen := sget 1#64 b.gens 0, sbad := [], inflight := [],
           pair := x.pair.map (rollPair n) }

/-- A copy returned to its rollback point: its tags null, its latches invalid. -/
def rollBack (n : Nat) (s : State) (a : Agent) : State :=
  match pairOf s a with
  | none => s
  | some p =>
    match p.base, a with
    | some b, .weave c k =>
      match getWeave s c k with
      | none => s
      | some w =>
        onCore s c (fun x =>
          let y := untagAll x w
          let l := sget Lane.blank x.lanes w.lane
          let lanes := if l.owner = some k then sput y.1.lanes w.lane { l with valid := 0#4 } else y.1.lanes
          { y.1 with weaves := sput y.1.weaves k (rollWeave n y.2 b), lanes := lanes })
    | some b, .steer c k => onInst s c k (fun i => { i with steer := rollSteer n i.steer b })
    | _, _ => s

/-- Whether a mismatch at a group may be rolled back (R409): the weave is covered, and it is the first at that number. -/
def covered (n : Nat) (p : Pair) : Bool := !p.full && p.base.isSome && !nmem p.mismatch n

/-- The signatures of a group differ (R409), which the failure record notes. -/
def mismatchAt (s : State) (n : Nat) (a b : Agent) (p q : Pair) : State :=
  let s := record s { kind := kindPair, element := coreOf a, name := agentName s a 0, action := if covered n p && covered n q then 1 else 2,
                      detail := n, time := s.now }
  if covered n p && covered n q then rollBack n (rollBack n s a) b else pairFail s a

/-- The end of a weave whose last groups are released (R415). -/
def settleCopy (s : State) (a : Agent) : State :=
  match a with
  | .weave c k => settleWeave s c k
  | .steer c k => settleInst s c k
  | .handler _ => s

/-- PAIR_COMPARE (R405): the oldest group of both copies; equal signatures release it, different ones are a mismatch. -/
def execPairCompare (core slot : Nat) (s : State) : Out :=
  .next (match bothCopies s (pairAgent core slot) with
    | none => s
    | some ((a, p), (b, q)) =>
      match p.closed, q.closed with
      | g :: _, h :: _ =>
        if g.num != h.num then s
        else if g.sig = h.sig then
          let s := g.ops.foldl (performOp g.num a b) (dropGroup s a b)
          settleCopy (settleCopy s a) b
        else mismatchAt s g.num a b p q
      | _, _ => s)

/-- PAIRED_EXIT_RELEASE (R415): the last threads of a weave end once its groups are released. -/
def execPairedExitRelease (core slot : Nat) (s : State) : Out :=
  .next (match (getWeave s core slot).bind (·.pair), waitingOf s (.weave core slot) (fun w => w == .pairExit) with
    | some p, some (e, _) => if p.closed.isEmpty && p.count == 0 then proceed s core slot e 4 [(e.mask, .gone)] else s
    | some _, none => settleWeave s core slot
    | none, _ => s)

/-! ## Checkpoints (R407) -/

/-- The circles of a stack by role or tag, as both copies name them. -/
def stackNames (s : State) (c : Nat) (w : Weave) : List (Option Nat × Nat) :=
  match getInst s c w.inst with
  | none => []
  | some i => w.circles.map (fun z => match i.circles.find? (fun y => y.id == z) with | some y => (y.role, y.tag) | none => (none, 0))

/-- The state that a checkpoint signs (DEDUCED, log entry 28). -/
def signedState (s : State) (c : Nat) (w : Weave) :=
  (w.v, w.preds, w.flags, w.mode, w.s, w.q, w.frontier.map (fun e => (e.pc, e.prio, e.mask)), w.scopes, stackNames s c w, w.gens)

/-- A recorded checkpoint: the state after the `ckpt`, the log emptied, groups numbered from 1 again (DEDUCED, log entry 28). -/
def checkpointPair (b : Snapshot) (lines : Nat) (p : Pair) : Pair :=
  { p with base := some b, log := [], full := false, replay := [], upTo := 0, num := 1, mismatch := [], lines := lines }

/-- The stage lines a checkpoint takes: 4 KiB and 128 bytes for each register. -/
def checkpointLines (w : Weave) : Nat := 64 + 2 * w.allot

/-- The state a `ckpt` records: its weave at the next instruction (DEDUCED, log entry 28). -/
def afterCkpt (w : Weave) (e : Entry) : Snapshot := { snapOf w with frontier := [entryAt (e.pc + 4#64) e.prio e.mask .ready] }

/-- Both copies go on after their `ckpt`. -/
def passCkpt (s : State) (c k c' k' : Nat) (e e' : Entry) (f : Weave → Weave) : State :=
  proceed (onWeave (proceed (onWeave s c k f) c k e 4 []) c' k' f) c' k' e' 4 []

def isCkpt : Wait → Bool
  | .ckpt => true
  | _ => false

/-- CKPT_RECORD (R407): once both copies wait at their `ckpt` and every earlier group is released (DEDUCED, log entry 28). -/
def execCkptRecord (core slot : Nat) (s : State) : Out :=
  .next (match bothCopies s (.weave core slot) with
    | some ((.weave c k, p), (.weave c' k', q)) =>
      match getWeave s c k, getWeave s c' k', waitingOf s (.weave c k) isCkpt, waitingOf s (.weave c' k') isCkpt with
      | some w, some w', some (e, _), some (e', _) =>
        if p.count != 0 || q.count != 0 || !p.closed.isEmpty || !q.closed.isEmpty then s
        else if signedState s c w != signedState s c' w' then mismatchAt s p.num (.weave c k) (.weave c' k') p q
        else
          match (getInst s c w.inst).bind (fun i => getLaunch s i.serial) with
          | none => s
          | some l =>
            if lineAvailable s l.part l.vf (checkpointLines w - p.lines) then
              let s := passCkpt s c k c' k' e e' id
              let b := afterCkpt w e
              onPair (onPair s (.weave c k) (checkpointPair b (checkpointLines w))) (.weave c' k')
                (checkpointPair { b with circles := w'.circles } 0)
            else passCkpt s c k c' k' e e' (fun w => countWeave w 0x102 1)
      | _, _, _, _ => s
    | _ => s)

end Sys2Proof.Machine
end

