-- ==== Sys2Proof/Machine/Freeze.lean ====
section
/-!
DEFINITION. Freeze and resume (05 R115 to R122): the launch taken off the device as an Ngaec image, the checks of an image, and the
launch put into a partition's queue again; and the freeze of one instance alone (05 R114).
-/

namespace Sys2Proof.Machine

open Sys2Proof

/-! ## The pages an image records (R117) -/

/-- The leaves below a table at a level (17 R360). -/
def leavesFrom (s : State) (vf : Nat) : Nat → Nat → Nat → List Leaf
  | 0, table, va =>
    (List.range 512).filterMap (fun i =>
      match decodePte vf (va + i * 4096) 0 (readPte s (table + 8 * i)).1 with
      | .leaf l => if l.size = 16 && i % 16 != 0 then none else some l
      | _ => none)
  | level + 1, table, va =>
    (List.range 512).flatMap (fun i =>
      let va := va + i * 2 ^ (12 + 9 * (level + 1))
      match decodePte vf va (level + 1) (readPte s (table + 8 * i)).1 with
      | .leaf l => [l]
      | .table t => leavesFrom s vf level t va
      | .none => [])

/-- Every page a virtual function has mapped. -/
def pagesOf (s : State) (vf : Nat) : List Leaf := leavesFrom s vf 4 ((getVf s vf).root.toNat / 4096 * 4096) 0

/-- The range of memory keys of a leaf. -/
def leafRange (s : State) (l : Leaf) : Nat × Nat := (leafKey s l l.va, 2 ^ l.size)

/-- The 64 KiB granules of a range. -/
def granulesOf (k n : Nat) : List Nat := if n = 0 then [] else (List.range ((k + n - 1) / 65536 - k / 65536 + 1)).map (fun i => k / 65536 + i)

/-- Whether a page was written since an image recorded it. -/
def pageDirty (s : State) (l : Leaf) : Bool := match leafRange s l with | (k, n) => (granulesOf k n).any (nmem s.dirty)

/-- A page as an image records it: its leaf, and its bytes unless they stand at another device. -/
def imgPage (s : State) (l : Leaf) : ImgPage :=
  match leafRange s l with
  | (k, n) =>
    { leaf := l,
      cells := if l.state = .remote then []
        else (s.mem.filter (fun e => k ≤ e.1 && e.1 < k + n && !nmem s.unscrubbed (e.1 >>> 16))).map (fun e => (e.1 - k, e.2)) }

/-- Whether recording a page meets a poisoned unit (20 R396). -/
def pageBad (s : State) (l : Leaf) : Bool :=
  match leafRange s l with | (k, n) => l.state != .remote && s.bad.any (fun u => k ≤ u * 64 && u * 64 < k + n)

/-! ## The freeze (R115, R116) -/

/-- The resident copies of a launch's instances, as core and number. -/
def residents (s : State) (serial : Nat) : List (Nat × Nat) :=
  s.cores.flatMap (fun e => e.2.insts.filterMap (fun i => if i.2.serial == serial then some (e.1, i.1) else none))

/-- Whether a paired copy's groups are all matched (R115 step 7). -/
def groupsMatched (x : Core) (i : Nat) : Bool :=
  let ok := fun (p : Option Pair) => match p with | some p => p.closed.isEmpty && p.count == 0 | none => true
  (weavesOf x i).all (fun e => ok e.2.pair) && (match sfind x.insts i with | some y => ok y.steer.pair | none => true)

/-- Whether a freeze can be carried out now: no handler runs for the launch, every group is matched (R115 steps 2, 7) (DEDUCED, log entry 39). -/
def freezeReady (s : State) (serial : Nat) : Bool :=
  (residents s serial).all (fun e => !underDelivery (getCore s e.1) e.2 && groupsMatched (getCore s e.1) e.2)

/-- A started `mtile` of an instance completes with its counter add (R115 step 5). -/
def finishTile (s : State) (c i : Nat) : State :=
  match ((getCore s c).queues.getD 2 []).head?, (getCore s c).tile with
  | some m, some (_, fill) =>
    match m.op with
    | .mtile rim sa sb reuse =>
      if m.started && m.inst == i then
        completeCmd (onCore s c (fun x => { tileAct x rim sa sb fill reuse with tile := none })) (engOf s c 2 m)
      else s
    | _ => s
  | _, _ => s

/-- One copy stops and is saved; of a paired launch the leading copy alone enters an image. -/
def freezeCopy (s : State) (c i : Nat) (keepTrailing : Bool) : State :=
  let s := finishTile s c i
  match getInst s c i with
  | none => s
  | some y => if y.trailing && !keepTrailing then removeInst s c i else takeOff s c i unchain

/-- The device class (23 R427). -/
def deviceClass : Word := 0x00004016#32

/-! ## The image as a file (R118, R119) -/

/-- A section of an image: type, owner, payload size, item count. -/
abbrev Section := Nat × Nat × Nat × Nat

/-- The owner field of a section of the launch. -/
def launchOwned : Nat := 0xffffffff

/-- A section with one item size, left out where it has no item. -/
def itemSection (type owner size n : Nat) : List Section := if n = 0 then [] else [(type, owner, size * n, n)]

/-- The thread stores that a saved weave's region holds buffered (R110). -/
def bufferedOf (w : Weave) : List ThreadStore := match w.region with | some r => r.stores.flatMap (fun q => q.writes) | none => []

/-- The entries of a weave that wait for a grow request, and its restart: the items of section 0x0e (R119, 06 R152). -/
def requestsOf (w : Weave) : Nat :=
  (w.frontier.filter (fun e => match e.state with | .waiting (.grow _) => true | _ => false)).length + (if w.restart.isSome then 1 else 0)

/-- The rim tiles of a saved instance that were written (13 R317). -/
def writtenRims (v : Saved) : Sparse Rim := v.rims.filter (fun e => e.2.written)

/-- The sections of one saved instance (R119). -/
def savedSections (h : Header) (v : Saved) : List Section :=
  let i := v.inst.num
  let n := v.weaves.length
  let f := footprint h
  [(0x02, i, 256, 1), (0x03, i, 1024 * n, n), (0x04, i, v.weaves.foldl (fun a w => a + 128 * w.allot + 512) 0, n), (0x05, i, 512, 1),
   (0x06, i, f + f / 128 + 4096, 1), (0x07, i, h.wdepth.foldl (fun a d => a + 128 * d) 256, 1)]
  ++ itemSection 0x08 i 8224 v.slots.length ++ itemSection 0x09 i 65552 (writtenRims v).length
  ++ itemSection 0x0a i 24 (v.weaves.flatMap bufferedOf).length
  ++ itemSection 0x0e i 16 (v.weaves.foldl (fun a w => a + requestsOf w) 0)

/-- The 64 KiB granules of a virtual function's memory that an image records with their bytes (R117). -/
def recordedGranules (m : Image) : NatSet :=
  ninsertAll [] ((m.pages.filter (fun p => p.leaf.state != .remote)).flatMap (fun p => granulesOf p.leaf.va (2 ^ p.leaf.size)))

/-- The sections of an image in the order of its table. -/
def sectionsOf (m : Image) : List Section :=
  [(0x01, launchOwned, 1088 + m.header.ksize + 16384, 1)]
  ++ m.saved.flatMap (savedSections m.header)
  ++ [match m.saved.foldl (fun a v => a + v.cmds.length + v.fences.length) 0 with | n => (0x0b, launchOwned, 64 * n, n)]
  ++ [(0x0c, launchOwned, 32 * m.pages.length, m.pages.length)]
  ++ [match (recordedGranules m).length with | n => (0x0d, launchOwned, 65536 * n, n)]
  ++ (if m.signed then [(0x20, launchOwned, 1280, 1)] else [])

/-- The next place that is a multiple of 256 bytes. -/
def align256 (n : Nat) : Nat := (n + 255) / 256 * 256

/-- Section records with the offsets of their payloads, each on a multiple of 256 bytes. -/
def placeSections : Nat → List Section → List SecRec
  | _, [] => []
  | o, (type, owner, size, n) :: r =>
    { type := type, owner := owner, offset := o, size := size, count := n, spare := 0 } :: placeSections (align256 (o + size)) r

/-- The section records that the fields of an image call for: payloads after the header and the table. -/
def placedSections (m : Image) : List SecRec :=
  let xs := sectionsOf m
  placeSections (align256 (256 + 32 * xs.length)) xs

/-- A section record as bytes. -/
def sectionRecord (x : SecRec) : List Byte :=
  bytesLE 4 x.type ++ bytesLE 4 x.owner ++ bytesLE 8 x.offset ++ bytesLE 8 x.size ++ bytesLE 4 x.count ++ bytesLE 4 x.spare

/-- The size of an image in bytes: the end of its last payload. -/
def imageSize (m : Image) : Nat := m.table.foldl (fun a x => max a (x.offset + x.size)) 256

/-! ## Payloads -/

/-- Some bytes as exactly `n`, zero beyond them. -/
def fit (n : Nat) (d : List Byte) : List Byte := (d ++ List.replicate (n - d.length) 0#8).take n

/-- The state field of a slot's descriptor (13 R314). -/
def slotCode : SlotState → Nat
  | .free => 0
  | .claimed => 1
  | .loaded => 2
  | .releasing => 3

/-- A slot's descriptor of 32 bytes (13 R314). -/
def slotDescriptor (y : Slot) : List Byte :=
  let d := y.desc
  bytesLE 32 (coord d.x 4 * 2 ^ 224 + coord d.x 3 * 2 ^ 192 + coord d.x 2 * 2 ^ 160 + slotCode y.state * 2 ^ 126 + y.role * 2 ^ 124
    + y.wid * 2 ^ 119 + d.bsize * 2 ^ 117 + (if d.esc then 2 ^ 116 else 0) + d.fmt.toNat * 2 ^ 100 + d.tx * 2 ^ 92 + d.gen * 2 ^ 68
    + coord d.x 1 * 2 ^ 32 + coord d.x 0)

/-- A saved slot: its descriptor, then its 8 KiB of codes (DESIGN CHOICE, log entry 37). -/
def slotBytes (y : Slot) : List Byte := slotDescriptor y ++ (List.range 8192).map (fun i => sget 0#8 y.codes i)

/-- A buffered thread store: address, size and data, 8 bytes each (DESIGN CHOICE, log entry 37). -/
def bufferedBytes (t : ThreadStore) : List Byte := bytesLE 8 t.va ++ bytesLE 8 t.data.length ++ fit 8 t.data

/-- The byte that an image holds for an address of its virtual function: zero where no recorded page has it. -/
def recordedByte (m : Image) (va : Nat) : Byte :=
  match m.pages.find? (fun p => p.leaf.state != .remote && p.leaf.va ≤ va && va < p.leaf.va + 2 ^ p.leaf.size) with
  | some p => (match p.cells.find? (fun e => e.1 == va - p.leaf.va) with | some e => e.2 | none => memBlank)
  | none => 0#8

/-- The saved instance an owner field names; of the launch, all of them. -/
def ownedSaved (m : Image) (owner : Nat) : List Saved := if owner = launchOwned then m.saved else m.saved.filter (fun v => v.inst.num == owner)

/-- The payload of a section, of exactly its size: what the specification lays out, and free bytes where it does not (R118, R119)
(DESIGN CHOICE, log entry 37) (DESIGN CHOICE, log entry 37). -/
def payloadOf (m : Image) (x : SecRec) : List Byte :=
  let vs := ownedSaved m x.owner
  if x.type = 0x01 then fit x.size (fit 1088 m.hdrBytes ++ fit m.header.ksize m.bank ++ fit 16384 m.tensors)
  else if x.type = 0x08 then fit x.size (vs.flatMap (fun v => v.slots.flatMap (fun e => slotBytes e.2)))
  else if x.type = 0x0a then fit x.size (vs.flatMap (fun v => v.weaves.flatMap (fun w => (bufferedOf w).flatMap bufferedBytes)))
  else if x.type = 0x0d then fit x.size ((recordedGranules m).flatMap (fun g => (List.range 65536).map (fun i => recordedByte m (g * 65536 + i))))
  else if x.type = 0x20 then fit x.size m.sig
  else (List.range x.size).map (Config.payload x.type vs m.pages)

/-- What the digest of an image covers: the section records and the payloads, apart from its own signature's (DESIGN CHOICE, log entry 13). -/
def imageInput (m : Image) : List Byte :=
  let xs := m.table.filter (fun x => x.type != 0x20)
  xs.flatMap sectionRecord ++ xs.flatMap (payloadOf m)

/-- The header of an image (R118): its reserved bytes are the zeros of a frozen image. The base image is named by the first 8 bytes of its
digest. -/
def imageHeader (s : State) (m : Image) : List Byte :=
  let base := (m.base.bind (fun b => s.images.find? (fun x => x.id == b))).map (fun x => x.digest.toNat % 2 ^ 64)
  bytesLE 8 0x000100434541474e ++ bytesLE 4 1 ++ bytesLE 4 256 ++ bytesLE 8 (imageSize m) ++ bytesLE 4 m.table.length
    ++ bytesLE 4 ((if m.dirtyOnly then 1 else 0) + (if m.paired then 2 else 0) + (if m.signed then 4 else 0))
    ++ bytesLE 8 m.lsn.toNat ++ bytesLE 4 m.cls.toNat ++ bytesLE 2 m.vf ++ bytesLE 2 0
    ++ bytesLE 4 m.ncore ++ bytesLE 4 m.node.ninst ++ bytesLE 4 m.saved.length
    ++ bytesLE 4 (m.saved.foldl (fun a v => a + v.weaves.length) 0) ++ bytesLE 64 m.node.raw
    ++ bytesLE 8 (if m.dirtyOnly then base.getD 0 else 0) ++ bytesLE 8 m.when_ ++ bytesLE 64 m.digest.toNat ++ bytesLE 48 0

/-- An image as the file that a freeze sends: header, section records, payloads at their offsets. -/
def imageFile (s : State) (m : Image) : List Byte :=
  m.table.foldl (fun d x => fit x.offset d ++ payloadOf m x) (imageHeader s m ++ m.table.flatMap sectionRecord)

/-- A node record's copy in an image: of a node that committed early restartable is 0 (20 R399). -/
def imageNode (n : NodeRec) : NodeRec :=
  { n with restartable := false, raw := n.raw - (if bits n.raw 16 1 = 1 then 2 ^ 16 else 0) }

/-- Bytes of a virtual function's memory as an image holds them; what cannot be read is left out (DESIGN CHOICE, log entry 13). -/
def heldBytes (s : State) (vf va n : Nat) : List Byte := match selfRead s vf va n false with | .ok d => d | .error _ => []

/-- The image of a launch whose instances are all saved; of a paired launch the leading copies alone (R115 step 7). The copy of its node record
is the one read at its post (DESIGN CHOICE, log entry 13). -/
def imageOf (s : State) (l : Launch) (id : Nat) (base : Option Nat) : Image :=
  let pages := (pagesOf s l.vf).filter (fun p => base.isNone || pageDirty s p)
  let m : Image :=
    { id := id, lsn := l.lsn, vf := l.vf, cls := deviceClass, when_ := s.now / 2, node := imageNode l.node, nodeAddr := l.addr,
      header := l.header, hdrBytes := l.header.raw, next := l.next, ended := l.ended, ncore := l.ncore, saved := l.saved.filter (fun v => !v.inst.trailing),
      pages := pages.map (imgPage s), dirtyOnly := base.isSome, base := base, paired := l.node.paired, signed := true, digest := 0#512,
      sig := [], bank := heldBytes s l.vf l.header.kbank l.header.ksize, tensors := heldBytes s l.vf l.header.tensors 16384, spare := [],
      table := [], device := s.device, cores := l.cores, readySeq := l.seq }
  let m := { m with table := placedSections m }
  let d := Config.shake512 (imageInput m)
  { m with digest := d, sig := Config.sign d }

/-- The dirty bits of the recorded pages cleared (R117). -/
def clearDirty (s : State) (m : Image) : State :=
  { s with dirty := neraseAll s.dirty (m.pages.flatMap (fun p => match leafRange s p.leaf with | (k, n) => granulesOf k n)) }

/-- A launch frozen: stopped, saved, its image sent, status 5 (R115); POISON met while recording ends the freeze (R116) (DEDUCED, log entry 39). -/
def freezeLaunch (s : State) (l : Launch) (dest : Nat) (base : Option Nat) : State :=
  let s := if staging l then commitStage s l.serial true else s
  let s := (residents s l.serial).foldl (fun s e => freezeCopy s e.1 e.2 false) s
  let s := l.cores.foldl flushL1 s
  match getLaunch s l.serial with
  | none => s
  | some l =>
    if l.poison.isSome then send (onLaunch s l.serial (fun l => { l with freezeBad := true })) (.freezeFailed l.vf l.serial)
    else
      match (pagesOf s l.vf).find? (fun p => (base.isNone || pageDirty s p) && pageBad s p) with
      | some p =>
        send (onLaunch s l.serial (fun l => { taint (256 + channelOf (leafBase p)) (BitVec.ofNat 128 (l.lsn.toNat * 2 ^ 64)) l with freezeBad := true }))
          (.freezeFailed l.vf l.serial)
      | none =>
        let (id, s) := nextSeq s
        let m := imageOf s l id base
        let s := clearDirty s m
        let s := { s with images := s.images ++ [m], launches := s.launches.filter (fun y => y.serial != l.serial) }
        send (writeStatus s l.vf l.addr 5) (.image id dest)

/-- FREEZE (R115): of the launch with a launch serial, to a destination, whole or the pages dirty since a base (DEDUCED, log entry 79). -/
def execFreeze (lsn dest : Nat) (base : Option Nat) (s : State) : Out :=
  .next (match s.launches.find? (fun l => l.lsn.toNat == lsn) with
    | none => s
    | some l =>
      if l.poison.isSome then send s (.freezeFailed l.vf l.serial)
      else if freezeReady s l.serial then freezeLaunch s l dest base
      else if l.node.paired then (residents s l.serial).foldl (fun s e => endGroups s e.1 e.2) s
      else s)

/-! ## Resume (R120 to R122) -/

/-- The partition a resumed launch is queued in (R122). -/
def resumePart (s : State) (vf : Nat) (n : NodeRec) : Option Nat :=
  if n.part != 31 && ownsIn s vf n.part then some n.part else (List.range 16).find? (ownsIn s vf)

/-- Whether the minimum residency of an image fits (R121): on some empty core of the partition among the virtual function's sets. -/
def residencyFits (s : State) (vf : Nat) (m : Image) : Bool :=
  match resumePart s vf m.node with
  | none => false
  | some p =>
    let needs := if m.saved.isEmpty then [needMin m.header] else m.saved.map (needSaved m.header)
    !(hostCores s p vf m.node.yieldable).isEmpty
      && needs.all (fun n => fitsCore { s with launches := [] } Core.blank { n with slots := [], rims := [] })

/-- Whether a virtual function maps every byte of a recorded page. -/
def pageMapped (s : State) (vf : Nat) (p : ImgPage) : Bool :=
  p.leaf.state == .remote || (List.range (2 ^ p.leaf.size / 4096)).all (fun i =>
    match walk s vf (p.leaf.va + 4096 * i) with | .ok _ => true | .error _ => false)

/-- The section types of R119. -/
def sectionTypes : List Nat :=
  [0x01, 0x02, 0x03, 0x04, 0x05, 0x06, 0x07, 0x08, 0x09, 0x0a, 0x0b, 0x0c, 0x0d, 0x0e, 0x20]

/-- Whether the reserved fields of an image are zero: of its header, its section records, its node record and its launch header (R93, R97, R118). -/
def reservedZero (m : Image) : Bool :=
  m.spare.all (· == 0#8) && m.table.all (fun x => x.spare == 0)
    && bits m.node.raw 15 1 == 0 && bits m.node.raw 20 4 == 0 && bits m.node.raw 29 3 == 0
    && headerZero m.hdrBytes m.header.roles.length m.header.succents.length m.header.buckets.length

/-- Whether an image is laid out as its header says: reserved fields zero, every section type known, sizes and counts as they follow from the
header's (R118 to R120). -/
def wellFormed (m : Image) : Bool :=
  reservedZero m && m.table.all (fun x => sectionTypes.contains x.type) && m.table == placedSections m

/-- The status of an image on this device (R120): the first check that fails (DESIGN CHOICE, log entry 13). -/
def resumeStatus (s : State) (vf : Nat) (m : Image) : Nat :=
  if !wellFormed m then 1
  else if m.digest != Config.shake512 (imageInput m) then 2
  else if m.signed && !((Config.identityKey :: s.mgmt.trust).any (fun k => Config.verifies k m.digest m.sig)) then 3
  else if m.cls != deviceClass then 4
  else if m.dirtyOnly && m.base != (getVf s vf).lastImage then 5
  else if !m.pages.all (pageMapped s vf) then 6
  else if !residencyFits s vf m then 7
  else 0

/-- One 4 KiB part of a recorded page written whole, zero bytes included (R122), where its walk ends. -/
def writePartAt (s : State) (p : ImgPage) (i : Nat) : Except Nat Leaf → State
  | .error _ => s
  | .ok l =>
    let k := leafKey s l (p.leaf.va + 4096 * i)
    let cells := p.cells.filter (fun c => 4096 * i ≤ c.1 && c.1 < 4096 * i + 4096)
    let s := (granulesOf k 4096).foldl scrubGranule s
    { s with mem := cells.foldl (fun m c => sset memBlank m (k + (c.1 - 4096 * i)) c.2) (skeep s.mem (fun a => a < k || k + 4096 ≤ a)),
             bad := s.bad.filter (fun u => u * 64 < k || k + 4096 ≤ u * 64), dirty := ninsertAll s.dirty (granulesOf k 4096) }

def writePart (s : State) (vf : Nat) (p : ImgPage) (i : Nat) : State := writePartAt s p i (walk s vf (p.leaf.va + 4096 * i))

def writePage (vf : Nat) (s : State) (p : ImgPage) : State :=
  if p.leaf.state = .remote then s else (List.range (2 ^ p.leaf.size / 4096)).foldl (fun s i => writePart s vf p i) s

/-- A key of circle memory moved from one instance window to another. -/
def moveKey (old new k : Nat) : Nat := k - old + new

/-- A recorded command with its circle keys in the new window. -/
def moveOp (f : Nat → Nat) : CmdOp → CmdOp
  | .cpyIn raw x key e0 e1 => .cpyIn raw x (f key) e0 e1
  | .cpyOut raw x key e0 e1 => .cpyOut raw x (f key) e0 e1
  | .rimLd rim raw x w mode key => .rimLd rim raw x w mode (key.map f)
  | .rimSt rim raw x w mode key => .rimSt rim raw x w mode (key.map f)
  | o => o

/-- A store of a saved region buffer: its key in the new window, or as the target's table translates its address (DEDUCED, log entry 40). -/
def moveStore (s : State) (vf : Nat) (f : Nat → Nat) (t : ThreadStore) : ThreadStore :=
  if t.circle then { t with key := f t.key }
  else match selfKey s vf t.va false with | .ok k => { t with key := k } | .error _ => t

/-- A saved instance of the launch with a local serial, in a window of circle memory of this device (DEDUCED, log entry 40). -/
def moveSaved (s : State) (vf serial base : Nat) (v : Saved) : Saved :=
  let f := moveKey v.inst.base base
  let g := fun (n : Nat) => f (n * 16) / 16
  { v with
    inst := { v.inst with serial := serial, base := base, poolBase := f v.inst.poolBase,
                          circles := v.inst.circles.map (fun z => { z with base := f z.base }) },
    weaves := v.weaves.map (fun w => { w with region := w.region.map (fun r =>
      { r with stores := r.stores.map (fun q => { q with writes := q.writes.map (moveStore s vf f) }) }) }),
    cmem := v.cmem.map (fun e => (f e.1, e.2)), full := v.full.map g, cbad := v.cbad.map g,
    cmds := v.cmds.map (fun m => (m.1, { m.2 with op := moveOp f m.2.op })) }

/-- The trailing copy of a saved instance, formed from the leading one (20 R410). -/
def trailOf (v : Saved) : Saved :=
  let flip := fun (p : Option Pair) => p.map (fun p => { p with trailing := true, lines := 0 })
  { v with inst := { v.inst with trailing := true, steer := { v.inst.steer with pair := flip v.inst.steer.pair } },
           weaves := v.weaves.map (fun w => { w with pair := flip w.pair }) }

/-- Windows of circle memory for saved instances, one after the other. -/
def placeWindows (vf serial : Nat) : List Saved → State → List Saved × State
  | [], s => ([], s)
  | v :: r, s =>
    let (q, s) := nextSeq s
    match placeWindows vf serial r s with
    | (l, s) => (moveSaved s vf serial (q * windowSize) v :: l, s)

/-- A launch resumed: memory written, the launch in its partition's queue with status 2 under a new local serial (R103, R122) (DEDUCED, log entry 40). -/
def resumeLaunch (s : State) (vf : Nat) (m : Image) (p : Nat) : State :=
  let s := m.pages.foldl (writePage vf) s
  let vs := if m.paired then m.saved.flatMap (fun v => [v, trailOf v]) else m.saved
  match placeWindows vf s.nextLsn vs s with
  | (vs, s) =>
    let (q, s) := nextSeq s
    let l : Launch := { serial := s.nextLsn, lsn := m.lsn, vf := vf, part := p, addr := m.nodeAddr, node := m.node, header := m.header,
                        readyAt := s.now, seq := q, next := m.next, ended := m.ended, saved := vs, cores := [], names := [], ncore := m.ncore, requeues := 0, staged := [],
                        blocks := [], freed := [], early := true, poison := none, poisons := [], freezeBad := false }
    let s := { s with nextLsn := s.nextLsn + 1, launches := s.launches ++ [l] }
    writeStatus (onVf s vf (fun v => { v with lastImage := some m.id })) vf m.nodeAddr 2

/-- An image checked and, where every check passes, resumed; the status is reported (R120). -/
def tryResume (s : State) (vf id : Nat) : State :=
  match s.images.find? (fun m => m.id == id) with
  | none => s
  | some m =>
    let r := resumeStatus s vf m
    match resumePart s vf m.node with
    | some p => if r = 0 then send (resumeLaunch s vf m p) (.resumed 0) else send s (.resumed r)
    | none => send s (.resumed r)

/-- RESUME (R120): held while the virtual function is suspended (17 R349). -/
def execResume (image : Nat) (vf : BitVec 8) (s : State) : Out :=
  .next (
    if (getVf s vf.toNat).state = 2 then onVf s vf.toNat (fun v => { v with heldResumes := v.heldResumes ++ [image] })
    else if (getVf s vf.toNat).state = 0 then s
    else tryResume s vf.toNat image)

/-! ## One instance frozen alone (R114; 17 R347, R357) -/

/-- The time after a revocation request at which an instance is frozen alone: 30 µs. -/
def yieldLimit : Nat := 30 * microsecond

/-- Whether an instance of a core must leave it without being yieldable: its time is over, or its core goes out of service. -/
def mustLeave (s : State) (c : Nat) : Bool :=
  let x := getCore s c
  x.retired || x.testing || (match x.loan.bind (·.revoked) with | some t => t + yieldLimit ≤ s.now | none => false)

/-- REVOKE_FREEZE_TIMEOUT (R114) (DEDUCED, log entry 79). -/
def execRevokeFreezeTimeout (core inst : Nat) (s : State) : Out :=
  .next (
    if mustLeave s core && !yieldable s core inst && (copiesOf s core inst).all (fun e => !underDelivery (getCore s e.1) e.2) then
      if (copiesOf s core inst).all (fun e => groupsMatched (getCore s e.1) e.2) then
        withSaveArea s core inst (fun s => (copiesOf s core inst).foldl (fun s e => freezeCopy s e.1 e.2 true) s)
      else endGroups s core inst
    else s)

end Sys2Proof.Machine
end

