-- ==== Sys2Proof/Machine/Outside.lean ====
section
/-!
DEFINITION. What the outside of the device does to it, and what it gets: host and remote accesses (08 R203, R206; 17 R364, R371),
shootdowns (17 R365), granules (17 R353), counter reads and attestation (17 R369, R374), trace messages (22 R422), packets (17
R370), and the trust list (17 R373).
-/

namespace Sys2Proof.Machine

open Sys2Proof

/-! ## Who can be reached (20 R413; 01 R20) -/

/-- Whether the management endpoint answers: the input holds and the module has been started (DEDUCED, log entry 63). -/
def mgmtUp (s : State) : Bool := s.mgmt.reachable && s.mgmt.phase != .off

/-- Whether the hypervisor endpoint is reachable: in full mode, and after a stop of all partitions. -/
def hypUp (s : State) : Bool := s.mgmt.reachable && (s.mgmt.phase == .full || s.mgmt.phase == .stopped)

/-- Whether messages reach a virtual function through its own endpoint (DEDUCED, log entry 63). -/
def vfUp (s : State) (vf : Nat) : Bool := s.mgmt.phase == .full && (getVf s vf).state != 0

/-- A management answer: a status and a value (DEDUCED, log entry 63). -/
def answer (s : State) (status : Nat) (v : Double) : State := send s (.mgmt status v)

/-! ## Host accesses (R364, R371) -/

/-- The hostPieces of a range that lie within one page: address and length. -/
def hostPieces (va n : Nat) : List (Nat × Nat) :=
  let rec go : Nat → Nat → Nat → List (Nat × Nat)
    | 0, _, _ => []
    | fuel + 1, va, n => if n = 0 then [] else let m := min n (4096 - va % 4096); (va, m) :: go fuel (va + m) (n - m)
  go (n / 4096 + 2) va n

/-- Whether a host write to a page, as its walk ends, is diverted (R364) (DEDUCED, log entry 51). -/
def divertsAt : Except Nat Leaf → Bool
  | .ok l => l.p && !l.h
  | .error _ => false

def diverts (s : State) (vf va : Nat) : Bool := divertsAt (walk s vf va)

/-- A write made piece by piece. -/
def writePieces (s : State) (vf : Nat) (base : Nat) (d : List Byte) (ps : List (Nat × Nat)) : State :=
  ps.foldl (fun s p => match selfKey s vf p.1 true with | .ok k => writeMem s k ((d.drop (p.1 - base)).take p.2) | .error _ => s) s

/-- Whether a host write of a piece faults: it is neither performed nor diverted (DEDUCED, log entry 51). -/
def pieceFaults (s : State) (vf va : Nat) : Bool :=
  !diverts s vf va && (match selfKey s vf va true with | .ok _ => false | .error _ => true)

/-- RMA_WRITE (R371): a fault answers negatively and writes nothing; a write to a P page is diverted (DEDUCED, log entry 51). -/
def execRmaWrite (vf : BitVec 8) (addr : Double) (data : List Byte) (s : State) : Out :=
  let v := vf.toNat
  let ps := hostPieces addr.toNat data.length
  .next (
    if !vfUp s v then s
    else if ps.any (fun p => pieceFaults s v p.1) then send s (.rma v false [])
    else if ps.any (fun p => diverts s v p.1) then
      send (send (onVf s v (fun x => { x with trapsHeld := x.trapsHeld + 1 })) (.writeTrap v addr data)) (.rma v true [])
    else send (writePieces s v addr.toNat data ps) (.rma v true []))

/-- RMA_READ (R371; 20 R396): poisoned data answers negatively. -/
def execRmaRead (vf : BitVec 8) (addr : Double) (n : Nat) (s : State) : Out :=
  .next (
    if !vfUp s vf.toNat then s
    else match selfRead s vf.toNat addr.toNat n false with
      | .ok d => send s (.rma vf.toNat true d)
      | .error _ => send s (.rma vf.toNat false []))

/-- RMA_ATOMIC (R371): refused with a negative response. -/
def execRmaAtomic (vf : BitVec 8) (_addr : Double) (s : State) : Out :=
  .next (if vfUp s vf.toNat then send s (.rma vf.toNat false []) else s)

/-- WRITE_TRAP_ACK (R364): the node-posts held are served once every diverted write is acknowledged (DEDUCED, log entry 51). -/
def execWriteTrapAck (vf : BitVec 8) (s : State) : Out :=
  let v := vf.toNat
  let x := getVf s v
  .next (
    if !hypUp s || x.trapsHeld = 0 then s
    else if x.trapsHeld = 1 then
      x.heldPosts.foldl (fun s p => servePost s v p.1 p.2) (onVf s v (fun x => { x with trapsHeld := 0, heldPosts := [] }))
    else onVf s v (fun x => { x with trapsHeld := x.trapsHeld - 1 }))

/-! ## Accesses from another Fjolar (08 R203; 17 R371) -/

/-- The bytes of an operation. -/
def remoteSize : RemoteOp → Nat
  | .read n => n
  | .write d => d.length
  | .atomic _ ty _ _ => atomBytes ty

/-- REMOTE_ACCESS: performed at the home; poisoned data answers negatively (20 R396). -/
def execRemoteAccess (dev : BitVec 8) (phys : Nat) (op : RemoteOp) (s : State) : Out :=
  let n := remoteSize op
  let k := memKey s.device phys
  .next (
    if s.mgmt.phase != .full then s
    else if deviceMemory < phys + n || rangeLost s phys then send s (.remote dev.toNat false [])
    else match op with
      | .read n => if memBad s k n then send s (.remote dev.toNat false []) else send s (.remote dev.toNat true (memBytes s k n))
      | .write d => send (writeMem s k d) (.remote dev.toNat true [])
      | .atomic op ty x cmp =>
        if memBad s k n then send s (.remote dev.toNat false [])
        else
          let old := memBytes s k n
          let new := bytesLE n (atomNew op ty (BitVec.ofNat 64 (natLE old)) x cmp).toNat
          send (writeMem s k new) (.remote dev.toNat true old))

/-! ## Granules (R353) -/

/-- GRANULE_TAKE_BACK (R353). -/
def execGranuleTakeBack (granule : Nat) (s : State) : Out :=
  .next (if hypUp s then dropGranule { s with unscrubbed := ninsert s.unscrubbed granule } granule else s)

/-- BACKGROUND_SCRUB (R353). -/
def execBackgroundScrub (granule : Nat) (s : State) : Out := .next (scrubGranule s granule)

/-! ## Shootdowns (R365) -/

/-- SHOOTDOWN_MESSAGE (R365): scopes .pt, .tn, .dv and .sy. -/
def execShootdownMessage (vf : BitVec 8) (addr : Double) (pages : Nat) (sc : Scope) (s : State) : Out :=
  .next (if hypUp s && wide sc then (addShoot s vf.toNat (addr.toNat / 4096 * 4096) pages sc none).1 else s)

/-- Whether a shootdown covers a core: of .pt the issuer's partition, else every core. -/
def inShoot (h : Shoot) (c : Nat) : Bool :=
  match h.scope, h.core with
  | .pt, some c' => partOf c == partOf c'
  | _, _ => true

/-- Whether a range of bytes overlaps a shootdown's range. -/
def shootHits (h : Shoot) (va n : Nat) : Bool := va < h.va + 4096 * h.pages && h.va < va + n

/-- Whether a store instruction has a global store in the range. -/
def storeHits (h : Shoot) (r : StoreReq) : Bool := r.writes.any (fun t => !t.circle && shootHits h t.va t.data.length)

def groupHits (h : Shoot) (p : Option Pair) : Bool :=
  let of := fun (o : PairOp) => match o with | .stores r => storeHits h r | _ => false
  match p with
  | some p => p.open_.any of || p.closed.any (fun g => g.ops.any of)
  | none => false

/-- Whether a weave still has a load or a store that used an entry in the range: results not returned, stores not performed. -/
def weaveHits (h : Shoot) (w : Weave) : Bool :=
  !w.inflight.isEmpty || w.storeq.any (storeHits h) || groupHits h w.pair
    || (match w.region with | some r => r.stores.any (storeHits h) | none => false)

/-- Whether a core's agents of a virtual function are through with the range (R365 conditions 3, 4). -/
def coreClear (s : State) (h : Shoot) (c : Nat) (x : Core) : Bool :=
  ownerOf s c != some h.vf
    || (x.weaves.all (fun e => !weaveHits h e.2)
        && x.insts.all (fun e => e.2.steer.inflight.isEmpty && !e.2.steer.storeq.any (storeHits h) && !groupHits h e.2.steer.pair)
        && x.handler.inflight.isEmpty && !x.handler.storeq.any (storeHits h))

/-- The leaves a shootdown leaves. -/
def dropLeaves (h : Shoot) (ls : List Leaf) : List Leaf := ls.filter (fun l => l.vf != h.vf || !shootHits h l.va (2 ^ l.size))

/-- The leaves and instruction-cache lines of a shootdown dropped (conditions 1, 2). -/
def shootDrop (s : State) (h : Shoot) : State :=
  { s with
    cores := s.cores.map (fun e => if inShoot h e.1 then (e.1, { e.2 with tlb := dropLeaves h e.2.tlb, icache := [] }) else e),
    parts := s.parts.map (fun e => if inShoot h (16 * e.1) then (e.1, { e.2 with tlb2 := dropLeaves h e.2.tlb2 }) else e) }

/-- No line of a core or slice in a shootdown's scope serves a load any more (08 R205): what they held of the stores is in memory (condition 4). -/
def shootLines (s : State) (h : Shoot) : State :=
  let s := s.cores.foldl (fun s e => if inShoot h e.1 then dropCore s e.1 else s) s
  s.parts.foldl (fun s e => if inShoot h (16 * e.1) then dropPart s e.1 else s) s

/-- The acknowledgement: an acquire of the issuer, which moves on, or a message to the hypervisor. -/
def shootAck (s : State) (h : Shoot) : State :=
  match h.core with
  | none => send s (.shootdownAck h.id)
  | some c =>
    let s := dropL1 s c
    match waitingOf s (.handler c) (fun w => w == .xlinv h.id) with
    | some (e, _) => endWait s (.handler c) e 8 [] []
    | none => s

/-- SHOOTDOWN_COMPLETE (R365). -/
def execShootdownComplete (id : Nat) (s : State) : Out :=
  .next (match s.shoots.find? (fun h => h.id == id) with
    | none => s
    | some h =>
      if s.cores.all (fun e => !inShoot h e.1 || coreClear s h e.1 e.2) then
        shootAck (shootLines (shootDrop { s with shoots := s.shoots.filter (fun y => y.id != id) } h) h) h
      else s)

/-! ## Counters (R368, R369) -/

/-- A counter as the management endpoint reads it for a virtual function: those of a core are its owner's alone (R343, R367). -/
def mgmtCounter (s : State) (vf core n : Nat) : Nat :=
  match n / 256 with
  | 0 => if ownerOf s core != some vf then 0 else if n = 0 then coreCycles s core % 2 ^ 64 else if n ≤ 6 then sget 0 (getCore s core).counts n else 0
  | 1 => 0
  | _ => roundDown (sharedAt s (partOf core) n (policyDelay (getVf s vf))) (quantum (getVf s vf))

/-- COUNTER_LOW_READ (R369): the high half goes to the virtual function's latch. -/
def execCounterLowRead (vf : BitVec 8) (core : Nat) (num : BitVec 12) (s : State) : Out :=
  let v := BitVec.ofNat 64 (mgmtCounter s vf.toNat core num.toNat)
  .next (
    if hypUp s then answer (onVf s vf.toNat (fun x => { x with latch := v.extractLsb' 32 32 })) 0 ((v.extractLsb' 0 32).setWidth 64)
    else s)

/-- COUNTER_HIGH_READ (R369). -/
def execCounterHighRead (vf : BitVec 8) (s : State) : Out :=
  .next (if hypUp s then answer s 0 ((getVf s vf.toNat).latch.setWidth 64) else s)

/-! ## Attestation (R373, R374) -/

/-- A virtual function record as its 128 bytes (R348). -/
def vfBytes (v : Vf) : List Byte :=
  bytesLE 1 v.state ++ bytesLE 1 v.weight ++ bytesLE 2 v.endpoint.toNat ++ bytesLE 1 v.scope.toNat ++ bytesLE 3 0
    ++ bytesLE 8 v.root.toNat ++ bytesLE 8 v.tvec.toNat ++ bytesLE 8 v.heap.toNat ++ bytesLE 4 v.heapsz.toNat ++ bytesLE 4 v.cpol.toNat
    ++ bytesLE 8 0 ++ v.cores.flatMap (fun m => bytesLE 2 m.toNat) ++ bytesLE 48 0

/-- The partition configuration registers as a requester sees them. -/
def configBytes (s : State) (vf : Option Nat) : List Byte :=
  (List.range 16).flatMap (fun p =>
    bytesLE 8 (match vf with | some v => configView s v p | none => (getPart s p).config).toNat)

/-- The signed fields of a report. -/
def reportBody (s : State) (vf : Option Nat) (nonce : BitVec 256) : List Byte :=
  bytesLE 8 0x000154414c464d00 ++ bytesLE 32 nonce.toNat ++ bytesLE 64 (Config.shake512 Config.identityKey).toNat
    ++ bytesLE 64 s.mgmt.fwDigest.toNat ++ bytesLE 2 (vf.getD 0xffff) ++ bytesLE 6 0
    ++ (match vf with | some v => vfBytes (getVf s v) | none => bytesLE 128 0) ++ configBytes s vf

/-- A report with its signature, padded with zeros (DESIGN CHOICE, log entry 13). -/
def report (s : State) (vf : Option Nat) (nonce : BitVec 256) : List Byte :=
  let b := reportBody s vf nonce
  b ++ (Config.sign (Config.shake512 b) ++ List.replicate 1280 0#8).take 1280

/-- ATTESTATION_REQUEST (R374): from a virtual function's endpoint or from the hypervisor. -/
def execAttestationRequest (vf : Option (BitVec 8)) (nonce : BitVec 256) (s : State) : Out :=
  .next (
    if (match vf with | some v => vfUp s v.toNat | none => hypUp s) then
      send s (.attestation (report s (vf.map (·.toNat)) nonce))
    else s)

/-- TRUST_LIST_INSTALL (R373). -/
def execTrustListInstall (key : List Byte) (s : State) : Out :=
  .next (if hypUp s && !s.mgmt.trust.contains key then { s with mgmt := { s.mgmt with trust := s.mgmt.trust ++ [key] } } else s)

/-! ## Trace messages, sampling, watchpoints (22 R419 to R423), packets (17 R370) -/

/-- TRACE_MESSAGE_SEND (22 R422): the oldest message, no earlier than its delay after completion. -/
def execTraceMessageSend (part : Nat) (s : State) : Out :=
  .next (match (getPart s part).traces with
    | (vf, t, b) :: r => if t ≤ s.now then send (onPart s part (fun p => { p with traces := r })) (.trace vf b) else s
    | [] => s)

/-- SAMPLING_EXPONENT_WRITE (22 R421): 0, or 4 to 24. -/
def execSamplingExponentWrite (vf : BitVec 8) (k : Nat) (s : State) : Out :=
  .next (
    if !hypUp s then s
    else if k = 0 || (4 ≤ k && k ≤ 24) then answer (onVf s vf.toNat (fun v => { v with sampleExp := k })) 0 0#64
    else answer s 1 0#64)

/-- The lengths a watchpoint may have: powers of two from 64 B to 1 GiB. -/
def watchLengths : List Nat := (List.range 25).map (fun i => 64 * 2 ^ i)

/-- WATCHPOINT_WRITE (22 R419) (DEDUCED, log entry 52). -/
def execWatchpointWrite (vf : BitVec 8) (k : BitVec 2) (w : Watch) (s : State) : Out :=
  .next (
    if !hypUp s then s
    else if watchLengths.contains w.len && w.addr.toNat % w.len == 0 then
      answer (onVf s vf.toNat (fun v => { v with watch := v.watch.set k.toNat w })) 0 0#64
    else answer s 1 0#64)

/-- UNIMPLEMENTED_MODE_PACKET (17 R370): dropped and counted. -/
def execUnimplementedModePacket (port : Nat) (s : State) : Out := .next (if port < 16 then mark s 0x304 1 else s)

end Sys2Proof.Machine
end

