-- ==== Sys2Proof/Machine/Mgmt.lean ====
section
/-!
DEFINITION. The management of partitions, virtual functions and cores: the scrub (17 R351), partition configuration (17 R344, R345),
lending and revocation (17 R346, R347), virtual function records and states (17 R348 to R350, R354; 18 R379), and retirement (17
R356 to R359).
-/

namespace Sys2Proof.Machine

open Sys2Proof

/-! ## Clocks (01 R14, R21, R22; 20 R412) -/

/-- The lowest of a core's clock limits, in MHz (R14) (DEDUCED, log entry 49). -/
def clockOf (m : Mgmt) (bin : Nat) : Nat := min (min m.thermalClock m.powerClock) (if bin = 0 then 4000 else 3600)

/-- A core's clock set, what it counted so far kept (R14) (DEDUCED, log entry 33). -/
def setClock (now clock : Nat) (x : Core) : Core :=
  { x with clock := clock, ran := x.ran + (now - x.since) * x.clock, since := now }

/-- Every core's clock by the limits that apply (DEDUCED, log entry 33). -/
def retime (s : State) : State :=
  (List.range 256).foldl (fun s c => onCore s c (fun x => setClock s.now (clockOf s.mgmt x.bin) x))
    { s with mgmt := { s.mgmt with clock := min s.mgmt.thermalClock s.mgmt.powerClock } }

/-! ## The scrub (R351) -/

/-- A core scrubbed: its contents cleared, its cycle counter started again; what the management processor keeps of it stands. -/
def scrubbed (x : Core) (now : Nat) : Core :=
  { Core.blank with since := now, clock := x.clock, bin := x.bin, nextBin := x.nextBin, errors := x.errors, testing := x.testing,
                    retired := x.retired, loan := x.loan, windowAt := x.windowAt }

/-- A core scrubbed, its L1 written back first. -/
def scrubCore (s : State) (c : Nat) : State := onCore (flushL1 s c) c (fun x => scrubbed x s.now)

/-- Whether no work stands on a core. -/
def coreEmpty (x : Core) : Bool := x.insts.isEmpty && x.weaves.isEmpty && x.handler.run.isNone && x.tile.isNone

/-- Every instance of a core asked to leave (R347; 05 R114). -/
def demandAll (s : State) (c : Nat) : State :=
  onCore s c (fun x => { x with insts := x.insts.map (fun e => (e.1, { e.2 with demanded := true })) })

/-! ## Held writes of cores masks (R350) -/

/-- The cores that a list of masks names. -/
def coresIn (l : List (BitVec 16)) : List Nat := (List.range 256).filter (hasCore l)

/-- The virtual function whose masks name a core. -/
def maskOwner (s : State) (c : Nat) : Option Nat := (s.vfs.find? (fun e => hasCore e.2.cores c)).map (·.1)

/-- Whether a held write can be made: the cores it takes away are empty, those it gives are no other virtual function's. -/
def canApply (s : State) (v : Nat) (l : List (BitVec 16)) : Bool :=
  let old := (getVf s v).cores
  (coresIn old).all (fun c => hasCore l c || coreEmpty (getCore s c))
    && (coresIn l).all (fun c => match maskOwner s c with | some o => o == v | none => true)

/-- The cores taken away scrubbed, and the masks changed. -/
def applyMasks (s : State) (v : Nat) (l : List (BitVec 16)) : State :=
  let gone := (coresIn (getVf s v).cores).filter (fun c => !hasCore l c)
  onVf (gone.foldl scrubCore s) v (fun x => { x with cores := l, pendingCores := none })

/-- A held write made where it can be. -/
def tryMasks (s : State) (v : Nat) : State :=
  match (getVf s v).pendingCores with
  | some l => if canApply s v l then applyMasks s v l else s
  | none => s

/-- Every held write that can be made; one may let another follow (DEDUCED, log entry 53). -/
def settleMasks (s : State) : State :=
  let once := fun (s : State) => (s.vfs.map (·.1)).foldl tryMasks s
  once (once s)

/-- A write of cores masks: held while a core it takes away has work, which is asked to leave. -/
def writeMasks (s : State) (v : Nat) (l : List (BitVec 16)) : State :=
  let gone := (coresIn (getVf s v).cores).filter (fun c => !hasCore l c)
  settleMasks (onVf (gone.foldl demandAll s) v (fun x => { x with pendingCores := some l }))

/-! ## Revocation (R347) -/

/-- The revocation of a lent core begins (DEDUCED, log entry 79). -/
def startRevoke (s : State) (c : Nat) : State :=
  match (getCore s c).loan with
  | some l => if l.revoked.isSome then s else demandAll (onCore s c (fun x => { x with loan := some { l with revoked := some s.now } })) c
  | none => s

/-- REVOKE (R347): requested by the hypervisor, or because the owner needs the core (DEDUCED, log entry 79). -/
def execRevoke (core : Nat) (s : State) : Out := .next (startRevoke s core)

/-- CORE_SCRUB (R351): of a core whose loan is revoked and whose work has left it, or which a held write takes away. -/
def execCoreScrub (core : Nat) (s : State) : Out :=
  let x := getCore s core
  .next (
    if !coreEmpty x then s
    else
      match x.loan with
      | some l => if l.revoked.isSome then settleMasks (onCore (scrubCore s core) core (fun y => { y with loan := none })) else s
      | none => if leaving s core then settleMasks (scrubCore s core) else s)

/-! ## Lending (R346) -/

def configBit (s : State) (p i : Nat) : Bool := (getPart s p).config.getLsbD i

/-- The first node of a partition that wants a borrowed core: yieldable, its next instance fitting nowhere on the partition's own cores. -/
def borrower (s : State) (p : Nat) : Option Cand :=
  if configBit s p 29 then (candsOf s p).find? (fun c => c.node.yieldable && !fitsOwn s p c) else none

/-- Whether a margin core is idle and its own partition's next admission does not need it. -/
def lendable (s : State) (c : Nat) : Bool :=
  let p := partOf c
  let x := getCore s c
  configBit s p 30 && configBit s p (32 + c % 16) && coreEmpty x && x.loan.isNone && coreOpen s c
    && !(candsOf s p).any (fun y => match coresFor s p y with | some l => l.contains c | none => false)

/-- The partition that takes a lendable core: the highest priority, then the lowest number, of the same compute die. -/
def takerOf (s : State) (c : Nat) : Option (Nat × Cand) :=
  (List.range 16).foldl (fun acc q =>
    if q / 4 = partOf c / 4 && q != partOf c then
      match borrower s q, acc with
      | some y, none => some (q, y)
      | some y, some (_, b) => if b.level < y.level then some (q, y) else acc
      | none, _ => acc
    else acc) none

/-- CORE_LEND (R346): the core passes to the borrower's virtual function after a scrub (DEDUCED, log entry 62). -/
def execCoreLend (core part : Nat) (s : State) : Out :=
  .next (
    if core < 256 && lendable s core then
      match takerOf s core with
      | some (q, y) =>
        if q = part then onCore (scrubCore s core) core (fun x => { x with loan := some { part := q, vf := y.vf, since := s.now, revoked := none } })
        else s
      | none => s
    else s)

/-! ## Partition configuration (R344, R345) -/

/-- The cores a partition has lent, and those it has borrowed. -/
def lentOf (s : State) (p : Nat) : List Nat := ((s.cores.filter (fun e => partOf e.1 == p && e.2.loan.isSome)).map (·.1))

def borrowedBy (s : State) (p : Nat) : List Nat :=
  (s.cores.filter (fun e => match e.2.loan with | some l => l.part == p | none => false)).map (·.1)

/-- An idle partition (R345). -/
def partIdle (s : State) (p : Nat) : Bool :=
  (getPart s p).ready.isEmpty && !s.launches.any (fun l => l.part == p) && (lentOf s p).isEmpty && (borrowedBy s p).isEmpty

/-- The values of a configuration register that are refused (R344). -/
def configBad (s : State) (p : Nat) (v : Double) : Bool :=
  let guar := v.extractLsb' 48 16
  let margin := v.extractLsb' 32 16
  let g := (v.extractLsb' 23 6).toNat
  g = 0 || 32 < g || 32 - (getPart s p).chans.length < g || guar &&& margin != 0#16
    || (List.range 16).any (fun c => (guar ||| margin).getLsbD c && (getCore s (16 * p + c)).retired)

/-- The fields that change only in an idle partition: guar, margin, test, gchan. -/
def idleFields : Double := 0xffffffff9f800000#64

/-- The fields of a configuration register; the others read 0. -/
def configMask : Double := 0xffffffffffff0000#64

/-- Ready nodes above a cap come down to it, and keep their ready times (R345). -/
def lowerReady (s : State) (p : Nat) : State :=
  onPart s p (fun x => { x with ready := x.ready.map (fun r => { r with level := min r.level (capOf s p), base := min r.base (capOf s p) }) })

/-- A configuration register that takes a value: revocations, the cap. -/
def takeConfig (s : State) (p : Nat) (v : Double) : State :=
  let old := (getPart s p).config
  let s := onPart s p (fun x => { x with config := v &&& configMask })
  let s := if old.getLsbD 30 && !v.getLsbD 30 then (lentOf s p).foldl startRevoke s else s
  let s := if old.getLsbD 29 && !v.getLsbD 29 then (borrowedBy s p).foldl startRevoke s else s
  lowerReady s p

/-- A write of a configuration register: status 1, status 3, or taken. -/
def writeConfig (s : State) (p : Nat) (v : Double) : State :=
  if configBad s p v then answer s 1 0#64
  else if (v ^^^ (getPart s p).config) &&& idleFields != 0#64 && !partIdle s p then answer s 3 0#64
  else answer (takeConfig s p v) 0 0#64

/-- PARTITION_CONFIG_WRITE (R345). -/
def execPartitionConfigWrite (part : Nat) (value : Double) (s : State) : Out :=
  .next (if hypUp s && part < 16 then writeConfig s part value else s)

/-! ## Virtual function records (R348) -/

/-- Whether masks give a core to a second virtual function, or give a retired core (DESIGN CHOICE, log entry 83). -/
def masksBad (s : State) (v : Nat) (l : List (BitVec 16)) : Bool :=
  l.length != 16 || (coresIn l).any (fun c => (getCore s c).retired ||
    s.vfs.any (fun e => e.1 != v && (hasCore e.2.cores c || (match e.2.pendingCores with | some q => hasCore q c | none => false))))

def vfWriteBad (s : State) (v : Nat) (w : VfWrite) : Bool :=
  w.reserved || w.weight = some 0#8 || (match w.cores with | some l => masksBad s v l | none => false)

/-- The bits of a scope policy entry and of a counter policy that are not reserved (08 R215; R368): reserved bits of a register read
as zero, and writes to them are ignored (00 R6) (DEDUCED, log entry 52) (DEDUCED, log entry 57). -/
def scopeBits : Byte := 3#8

def cpolBits : Word := 0x03ff001f#32

/-- The written fields of a record, the cores masks apart (DEDUCED, log entry 52). -/
def writeFields (x : Vf) (w : VfWrite) : Vf :=
  { x with
    weight := match w.weight with | some v => v.toNat | none => x.weight,
    endpoint := w.endpoint.getD x.endpoint,
    scope := (w.scope.map (· &&& scopeBits)).getD x.scope,
    root := w.root.getD x.root,
    tvec := w.tvec.getD x.tvec,
    cpol := (w.cpol.map (· &&& cpolBits)).getD x.cpol }

/-- VF_RECORD_WRITE (R348). -/
def execVfRecordWrite (vf : BitVec 8) (w : VfWrite) (s : State) : Out :=
  let v := vf.toNat
  .next (
    if !hypUp s then s
    else if vfWriteBad s v w then answer s 1 0#64
    else
      let s := onVf s v (fun x => writeFields x w)
      answer (match w.cores with | some l => writeMasks s v l | none => s) 0 0#64)

/-- Whether a virtual function has a running, ready or waiting node, or a resident instance (R349). -/
def vfBusy (s : State) (v : Nat) : Bool :=
  s.launches.any (fun l => l.vf == v) || s.parts.any (fun p => p.2.ready.any (fun r => r.vf == v)) || !(getVf s v).waiting.isEmpty

/-- A write of a state: illegal values status 1; state 0 status 3 where the virtual function is in use. -/
def writeState (s : State) (v st : Nat) : State :=
  if 2 < st then answer s 1 0#64
  else if st = 0 && (vfBusy s v || (getVf s v).cores.any (· != 0#16)) then answer s 3 0#64
  else
    let s := onVf s v (fun x => { x with state := st, heldResumes := if st = 2 then x.heldResumes else [] })
    answer s 0 0#64

/-- A state written, and the resumes that a change to 1 lets be checked. -/
def setState (s : State) (v st : Nat) : State :=
  let held := (getVf s v).heldResumes
  if st = 1 then held.foldl (fun s m => tryResume s v m) (writeState s v st) else writeState s v st

/-- VF_STATE_WRITE (R349). -/
def execVfStateWrite (vf : BitVec 8) (st : Byte) (s : State) : Out := .next (if hypUp s then setState s vf.toNat st.toNat else s)

/-- A write of heap or heapsz: refused while a launch runs; the skein's bookkeeping is cleared (R354). -/
def writeHeap (s : State) (v : Nat) (heap : Option Double) (size : Option Word) : State :=
  if s.launches.any (fun l => l.vf == v) then answer s 3 0#64
  else
    answer (onVf s v (fun x => { x with heap := heap.getD x.heap, heapsz := size.getD x.heapsz, chunks := [], blocks := [] })) 0 0#64

/-- HEAP_WRITE (R354). -/
def execHeapWrite (vf : BitVec 8) (heap : Option Double) (heapsz : Option Word) (s : State) : Out :=
  .next (if hypUp s then writeHeap s vf.toNat heap heapsz else s)

/-- A scope policy entry written. -/
def writeScope (s : State) (v : Nat) (x : Byte) : State := answer (onVf s v (fun f => { f with scope := x &&& scopeBits })) 0 0#64

/-- SCOPE_POLICY_WRITE (08 R216): it governs the instructions issued after it. -/
def execScopePolicyWrite (vf : BitVec 8) (v : Byte) (s : State) : Out := .next (if hypUp s then writeScope s vf.toNat v else s)

/-- MGMT_REGISTER_WRITE (18 R379): a number that the table marks for writing is written as its own row writes it; others answer status 1
(DEDUCED, log entry 52) (DEDUCED, log entry 52). -/
def execMgmtRegisterWrite (vf : BitVec 8) (part : Nat) (num : BitVec 12) (value : Double) (s : State) : Out :=
  let v := vf.toNat
  let n := num.toNat
  .next (
    if !hypUp s then s
    else if n = 0x010 then answer (onVf s v (fun x => { x with tvec := value })) 0 0#64
    else if n = 0x011 then writeScope s v (value.extractLsb' 0 8)
    else if n = 0x013 then writeHeap s v (some value) none
    else if n = 0x014 then writeHeap s v none (some (lowWord value))
    else if n = 0x017 then setState s v (value.extractLsb' 0 8).toNat
    else if 0x020 ≤ n && n ≤ 0x02f then writeConfig s (n - 0x020) value
    else if n = 0x012 then answer (onVf s v (fun x => { x with root := value })) 0 0#64
    else if n = 0x015 then answer (onVf s v (fun x => { x with cpol := lowWord value &&& cpolBits })) 0 0#64
    else if n = 0x016 then
      if value.extractLsb' 0 8 = 0#8 then answer s 1 0#64
      else answer (onVf s v (fun x => { x with weight := (value.extractLsb' 0 8).toNat })) 0 0#64
    else if 0x040 ≤ n && n ≤ 0x044 && part < 16 then
      if n = 0x041 && 63 < value.toNat then answer s 1 0#64
      else answer (onPart s part (fun q => { q with inj := writeInj q.inj (n - 0x040) value })) 0 0#64
    else answer s 1 0#64)

/-! ## Retirement (R356 to R359) -/

/-- The cores of a partition's set at a bit offset of its configuration register, over the device. -/
def setSize (s : State) (off : Nat) : Nat :=
  (List.range 16).foldl (fun a p => a + ((List.range 16).filter (fun c => configBit s p (off + c))).length) 0

def gchanOf (s : State) (p : Nat) : Nat := ((getPart s p).config.extractLsb' 23 6).toNat

/-- The margin channels of a partition (PRESUMED, log entry 48). -/
def marginChans (s : State) (p : Nat) : Nat := 32 - (getPart s p).chans.length - gchanOf s p

/-- The capacity notice and the failure-record entry of a retirement (R359). Channels are numbered from 256 on. -/
def capacityNotice (s : State) (p elem : Nat) : State :=
  let s := record s { kind := kindRetired, element := elem, name := 0#128, action := 0, detail := 0, time := s.now }
  send s (.capacity p elem (getPart s p).config (setSize s 48) (setSize s 32)
    ((List.range 16).foldl (fun a q => a + gchanOf s q) 0) ((List.range 16).foldl (fun a q => a + marginChans s q) 0))

/-- A bit of a configuration register set or cleared. -/
def setConfigBit (s : State) (p i : Nat) (b : Bool) : State :=
  onPart s p (fun x => { x with config := if b then x.config ||| (1#64 <<< i) else x.config &&& ~~~(1#64 <<< i) })

/-- Masks with a core put in or taken out. -/
def setMaskCore (l : List (BitVec 16)) (c : Nat) (b : Bool) : List (BitVec 16) :=
  l.modify (c / 16) (fun m => if b then m ||| (1#16 <<< (c % 16)) else m &&& ~~~(1#16 <<< (c % 16)))

/-- The lowest margin core of a partition. -/
def lowestMargin (s : State) (p : Nat) : Option Nat := ((List.range 16).find? (fun c => configBit s p (32 + c))).map (16 * p + ·)

/-- The cores masks of the virtual function that owned a retired core: it loses it, and gains the margin core that took its place (DEDUCED, log entry 53). -/
def reown (s : State) (c : Nat) (repl : Option Nat) : State :=
  match maskOwner s c with
  | none => s
  | some v =>
    let l := setMaskCore (((getVf s v).pendingCores).getD (getVf s v).cores) c false
    match repl with
    | none => writeMasks s v l
    | some m =>
      let s :=
        match maskOwner s m with
        | some o => if o = v then s else writeMasks s o (setMaskCore (((getVf s o).pendingCores).getD (getVf s o).cores) m false)
        | none => s
      writeMasks s v (setMaskCore l m true)

/-- A core retired (R357): its work leaves, a lent core is revoked first, and the sets and masks change (DEDUCED, log entry 53). -/
def retireCore (s : State) (c : Nat) : State :=
  let p := partOf c
  let s := demandAll (startRevoke (onCore s c (fun x => { x with retired := true, testing := false })) c) c
  let i := c % 16
  let s :=
    if configBit s p (32 + i) then reown (setConfigBit s p (32 + i) false) c none
    else if configBit s p (48 + i) then
      match lowestMargin s p with
      | some m =>
        let s := startRevoke s m
        reown (setConfigBit (setConfigBit (setConfigBit s p (32 + m % 16) false) p (48 + m % 16) true) p (48 + i) false) c (some m)
      | none => reown (setConfigBit s p (48 + i) false) c none
    else reown s c none
  capacityNotice s p c

/-- The margin channels of a partition, in order: those not retired, the gchan lowest-numbered left out (R356). -/
def marginList (s : State) (p : Nat) : List Nat :=
  ((List.range 32).filter (fun c => !nmem (getPart s p).chans c)).drop (gchanOf s p)

/-- A channel out of service; without another margin channel its range is lost (R358). -/
def loseChannel (s : State) (p chan : Nat) (spare : Bool) : State :=
  onPart s p (fun x =>
    { x with chans := ninsert x.chans chan, lost := if spare then x.lost else ninsert x.lost (32 * p + chan) })

/-- The guarantee of a partition one channel smaller (R358). -/
def shrinkGuarantee (s : State) (p : Nat) : State :=
  onPart s p (fun x => { x with config := x.config - (if (x.config.extractLsb' 23 6) = 0#6 then 0#64 else 1#64 <<< 23) })

/-- CHANNEL_RETIRE (R358, by the rule of R357): the lowest free margin channel takes the range and its contents, poisoned units among them;
without one the range is lost, and the guarantee shrinks where the channel was guaranteed (DEDUCED, log entry 53). -/
def execChannelRetire (part chan : Nat) (s : State) : Out :=
  .next (
    if 16 ≤ part || 32 ≤ chan || nmem (getPart s part).chans chan then s
    else
      let margin := marginList s part
      let spare := margin.any (· != chan)
      let s := loseChannel s part chan spare
      capacityNotice (if margin.isEmpty then shrinkGuarantee s part else s) part (256 + 32 * part + chan))

end Sys2Proof.Machine
end

