-- ==== Sys2Proof/Machine/Errors.lean ====
section
/-!
DEFINITION. Errors: soft errors of arrays and links (20 R395, R396), the fault injector (20 R411), corrected-error windows, bins
and pattern tests (20 R412).
-/

namespace Sys2Proof.Machine

open Sys2Proof

/-! ## Where an error strikes (R395) -/

/-- A corrected error of a core: counter 0x005, and the count of its window (R412) (DEDUCED, log entry 47). -/
def corrected (s : State) (c : Nat) : State := onCore s c (fun x => { countCore x 0x005 1 with errors := x.errors + 1 })

/-- The core of a site in a core. -/
def siteCore : ErrorSite → Option Nat
  | .vreg c _ _ _ => some c
  | .sreg c _ _ => some c
  | .latch c _ _ _ => some c
  | .circle c _ _ _ _ => some c
  | .stake c _ => some c
  | .rim c _ => some c
  | .valueStore c _ => some c
  | .ownerEntry a => some (coreOf a)
  | .cleanLine c => some c
  | .dirtyLine c _ => some c
  | .memory _ => none
  | .link a => some (coreOf a)
  | .port _ => none

/-- A uniform register of a core that became bad: slots 0 to 127 are weaves, 256 on steer threads, 512 the handler slot. -/
def strikeS (x : Core) (slot r : Nat) : Core :=
  if slot < 256 then
    match sfind x.weaves slot with
    | some w => { x with weaves := sput x.weaves slot { w with sbad := ninsert w.sbad r } }
    | none => x
  else if slot < 512 then
    match sfind x.insts (slot - 256) with
    | some i => { x with insts := sput x.insts (slot - 256) { i with steer := { i.steer with sbad := ninsert i.steer.sbad r } } }
    | none => x
  else { x with handler := { x.handler with sbad := ninsert x.handler.sbad r } }

/-- A latch word of a lane that became bad. -/
def strikeLatch (x : Core) (lane key : Nat) : Core :=
  let l := sget Lane.blank x.lanes lane
  { x with lanes := sput x.lanes lane { l with bad := ninsert l.bad key } }

/-- A granule of a circle's region poisoned. -/
def strikeCircle (x : Core) (inst : Nat) (isRole : Bool) (tag g : Nat) : Core :=
  match (sfind x.insts inst).bind (fun i => i.circles.find? (fun z => if isRole then z.role == some tag else z.role.isNone && z.tag == tag)) with
  | some z => if g * 16 < z.size then { x with cbad := ninsert x.cbad (z.base / 16 + g) } else x
  | none => x

/-- The clean lines of a core's caches, of its slice and of their TLBs dropped, to be read again. -/
def dropClean (s : State) (c : Nat) : State :=
  onPart (onCore s c (fun x => { x with icache := [], ccache := [], tlb := [], l1 := x.l1.filter (fun e => e.2.dirty != 0#64) }))
    (partOf c) (fun q => { q with tlb2 := [], l2 := q.l2.filter (fun e => e.2.dirty != 0#64) })

/-- An uncorrectable error in a dirty line of a core's L1, or, where it has none, of its slice (R395). -/
def strikeLine (s : State) (c line : Nat) : State :=
  let hit := fun (t : Sparse Line) => t.map (fun e => if e.1 = line && e.2.dirty != 0#64 then (e.1, { e.2 with bad := true }) else e)
  if (getCore s c).l1.any (fun e => e.1 = line && e.2.dirty != 0#64) then onCore s c (fun x => { x with l1 := hit x.l1 })
  else onPart s (partOf c) (fun q => { q with l2 := hit q.l2 })

/-- An uncorrectable error (R395). -/
def strike (s : State) : ErrorSite → State
  | .vreg c k t r => onWeave s c k (fun w => { w with vbad := ninsert w.vbad (vkey t r) })
  | .sreg c k r => onCore s c (fun x => strikeS x k r)
  | .latch c l t n => onCore s c (fun x => strikeLatch x l (latchKey t n))
  | .circle c i b tag g => onCore s c (fun x => strikeCircle x i b tag g)
  | .stake c u => onCore s c (fun x => putSlot x u { getSlot x u with bad := true })
  | .rim c u => onCore s c (fun x => putRim x u { getRim x u with bad := true })
  | .valueStore c n => onCore s c (fun x => { x with store := x.store.map (fun e => if e.serial = n then { e with bad := true } else e) })
  | .ownerEntry a => notePoison s a 0
  | .cleanLine c => corrected (dropClean s c) c
  | .dirtyLine c line => strikeLine s c line
  | .memory u => poisonUnit s u
  | .link a => notePoison s a 0
  | .port _ => s

/-- SOFT_ERROR (R395): a correctable error of a core is corrected and counted; a retry of a link is counted (22 R424); ports and
memory count nowhere (DEDUCED, log entry 47). -/
def execSoftError (site : ErrorSite) (correctable : Bool) (s : State) : Out :=
  .next (
    if correctable then
      match site with
      | .link _ => mark s 0x301 1
      | _ => match siteCore site with | some c => corrected s c | none => s
    else strike s site)

/-! ## The injector (R411) -/

/-- A latent entry of the failure record for a firing (DESIGN CHOICE, log entry 54). -/
def kindInject : Nat := 9

/-- Whether a class of the injector names a kind of site. -/
def classSite (cls : Nat) : ErrorSite → Bool
  | .vreg _ _ _ _ => cls = 0 || cls = 1 || cls = 11 || cls = 12
  | .circle _ _ _ _ _ => cls = 2 || cls = 3
  | .stake _ _ => cls = 8
  | .rim _ _ => cls = 8
  | .valueStore _ _ => cls = 9
  | .link _ => cls = 10
  | .memory _ => 4 ≤ cls && cls ≤ 7
  | .dirtyLine _ _ => cls = 4 || cls = 5
  | .cleanLine _ => cls = 4 || cls = 5
  | _ => false

/-- Whether the thread whose result is struck belongs to the copy its class names. -/
def classCopy (s : State) (cls : Nat) : ErrorSite → Bool
  | .vreg c k _ _ => if cls = 11 then !isTrailing s (.weave c k) else if cls = 12 then isTrailing s (.weave c k) else true
  | _ => true

/-- The partition of a site; memory belongs to the partition of its stack. -/
def sitePart (s : State) (site : ErrorSite) : Nat :=
  match siteCore site, site with
  | some c, _ => partOf c
  | none, .memory u => (u * 64 - memKey s.device 0) / (120 * 10 ^ 9)
  | none, _ => 16

/-- One eligible event counted (R411): the injector afterwards, and whether it fires. -/
def injectorCount (i : Injector) : Injector × Bool :=
  if i.liveShot = 0 then
    let g := drawStep i.gen
    ({ i with gen := g, count := i.count + 1 }, g.toNat / 2 ^ (64 - i.liveRate) == 0)
  else
    let n := i.count + 1
    if n = i.liveShot then ({ i with count := n, arm := 0#64 }, true) else ({ i with count := n }, false)

/-- A bit of a thread's result flipped with no check (classes 11 and 12) (DEDUCED, log entry 29). -/
def flipResult (s : State) (site : ErrorSite) (bit : Nat) : State :=
  match site with
  | .vreg c k t r =>
    onWeave s c k (fun w => { w with v := sset 0#32 w.v (vkey t r) (readV w t r ^^^ (1#32 <<< (bit % 32))) })
  | _ => s

/-- The error of a class injected at a site (DEDUCED, log entry 29). -/
def inject (s : State) (cls : Nat) (site : ErrorSite) (bit : Nat) : State :=
  if cls = 11 || cls = 12 then flipResult s site bit
  else if cls = 10 then mark s 0x301 1
  else if cls = 0 || cls = 2 || cls = 4 || cls = 6 then
    match siteCore site with | some c => corrected s c | none => s
  else strike s site

/-- The logical thread of a site. -/
def siteName (s : State) : ErrorSite → BitVec 128
  | .vreg c k t _ => agentName s (.weave c k) t
  | .ownerEntry a => agentName s a 0
  | .link a => agentName s a 0
  | _ => 0#128

/-- An injector that fires: a further draw chooses the bit, and the firing is recorded. -/
def fire (s : State) (p cls : Nat) (site : ErrorSite) : State :=
  let g := drawStep (getPart s p).inj.gen
  let s := onPart s p (fun q => { q with inj := { q.inj with gen := g } })
  let bit := (drawOf g).toNat
  let s := record s { kind := kindInject, element := (siteCore site).getD 256, name := siteName s site, action := cls, detail := bit, time := s.now }
  inject s cls site bit

/-- INJECTOR_FIRE (R411): an eligible event of a class met by the armed injector of a test partition. -/
def execInjectorFire (part : Nat) (cls : BitVec 5) (site : ErrorSite) (s : State) : Out :=
  let i := (getPart s part).inj
  .next (
    if testPart s part && i.arm.getLsbD 0 && cls.toNat ≤ 12 && i.liveClasses.getLsbD cls.toNat && classSite cls.toNat site
        && classCopy s cls.toNat site && sitePart s site == part then
      match injectorCount i with
      | (i, hit) =>
        let s := onPart s part (fun q => { q with inj := i })
        if hit then fire s part cls.toNat site else s
    else s)

/-! ## Marginal cores (R412) -/

def kindBin : Nat := 10

/-- A change of bin, with its clock and its entry in the failure record. -/
def setBin (s : State) (c b : Nat) : State :=
  let s := onCore s c (fun x => { setClock s.now (clockOf s.mgmt b) x with bin := b })
  record s { kind := kindBin, element := c, name := 0#128, action := 0, detail := b, time := s.now }

/-- A second of the nominal clock (DESIGN CHOICE, log entry 4). -/
def second : Nat := 1000000 * microsecond

/-- CORE_ERROR_WINDOW (R412): past the threshold, which a count may be before its window is over, the core goes out of service at the next
bin, or is retired from bin 2. -/
def execCoreErrorWindow (core : Nat) (s : State) : Out :=
  let x := getCore s core
  .next (
    if 256 ≤ core || (x.errors ≤ s.mgmt.threshold && s.now < x.windowAt + second) then s
    else
      let t := onCore s core (fun x => { x with errors := 0, windowAt := s.now })
      if x.errors ≤ s.mgmt.threshold || x.retired || x.testing then t
      else if 2 ≤ x.bin then retireCore t core
      else demandAll (startRevoke (setBin (onCore t core (fun x => { x with testing := true })) core (x.bin + 1)) core) core)

/-- PATTERN_TEST_DONE (R412): once the core's work has left it; the patterns leave the core as a scrub does (DEDUCED, log entry 47). -/
def execPatternTestDone (core : Nat) (pass : Bool) (s : State) : Out :=
  let x := getCore s core
  .next (
    if x.testing && coreEmpty x then
      let s := scrubCore s core
      if pass then onCore s core (fun x => { x with testing := false }) else retireCore s core
    else s)

/-- ERROR_THRESHOLD_WRITE (R412): 1 to 65,535. -/
def execErrorThresholdWrite (n : Nat) (s : State) : Out :=
  .next (
    if !mgmtUp s then s
    else if 1 ≤ n && n ≤ 65535 then answer { s with mgmt := { s.mgmt with threshold := n } } 0 0#64
    else answer s 1 0#64)

/-- CORE_BIN_RESET (R412): it takes effect at the next start. -/
def execCoreBinReset (core : Nat) (s : State) : Out :=
  .next (if mgmtUp s && core < 256 then answer (onCore s core (fun x => { x with nextBin := some 0 })) 0 0#64 else s)

end Sys2Proof.Machine
end

