-- ==== Sys2Proof/Machine/FpLane.lean ====
section
/-!
DEFINITION. The floating-point forms and the conversion of the lane set (12 R292 to R299).
-/

namespace Sys2Proof.Machine

open Sys2Proof

/-- FADD_F32 (R292): Lane FP32 add rounded by $mode. -/
def execFaddF32 (f : LaneR) (s : State) : Out :=
  laneAlu (formR { key := 40, td := .f32, ta := .f32, tb := .f32, occ := 1, draws := 1, traps := true } (rn2 (faddT .f32)) f) false s

/-- FSUB_F32 (R292): Lane FP32 subtract. -/
def execFsubF32 (f : LaneR) (s : State) : Out :=
  laneAlu (formR { key := 41, td := .f32, ta := .f32, tb := .f32, occ := 1, draws := 1, traps := true } (rn2 (fsubT .f32)) f) false s

/-- FMUL_F32 (R292): Lane FP32 multiply. -/
def execFmulF32 (f : LaneR) (s : State) : Out :=
  laneAlu (formR { key := 42, td := .f32, ta := .f32, tb := .f32, occ := 1, draws := 1, traps := true } (rn2 (fmulT .f32)) f) false s

/-- FMIN_F32 (R293): Lane FP32 minimum. -/
def execFminF32 (f : LaneR) (s : State) : Out :=
  laneAlu (formR { key := 43, td := .f32, ta := .f32, tb := .f32, occ := 1, draws := 0, traps := true } (fn2 (fminmaxT .f32 true)) f) false s

/-- FMAX_F32 (R293): Lane FP32 maximum. -/
def execFmaxF32 (f : LaneR) (s : State) : Out :=
  laneAlu (formR { key := 44, td := .f32, ta := .f32, tb := .f32, occ := 1, draws := 0, traps := true } (fn2 (fminmaxT .f32 false)) f) false s

/-- FCMP_F32 (R294): Lane FP32 compare writing a predicate. -/
def execFcmpF32 (f : LaneP) (s : State) : Out :=
  laneAlu (formP { key := 45, td := .f32, ta := .f32, tb := .f32, occ := 1, draws := 0, traps := true } (fcmpFn .f32) f) false s

/-- FDIV_F32 (R296): Lane FP32 correctly rounded division. -/
def execFdivF32 (f : LaneR) (s : State) : Out :=
  laneAlu (formR { key := 46, td := .f32, ta := .f32, tb := .f32, occ := 4, draws := 1, traps := true } (rn2 (fdivT .f32)) f) false s

/-- FSQRT_F32 (R296): Lane FP32 correctly rounded square root. -/
def execFsqrtF32 (f : LaneR1) (s : State) : Out :=
  laneAlu (formR1 { key := 47, td := .f32, ta := .f32, tb := .f32, occ := 4, draws := 1, traps := true } (rn1 (fsqrtT .f32)) f) false s

/-- FADD_F64 (R292): Lane FP64 add. -/
def execFaddF64 (f : LaneR) (s : State) : Out :=
  laneAlu (formR { key := 48, td := .f64, ta := .f64, tb := .f64, occ := 1, draws := 1, traps := true } (rn2 (faddT .f64)) f) false s

/-- FSUB_F64 (R292): Lane FP64 subtract. -/
def execFsubF64 (f : LaneR) (s : State) : Out :=
  laneAlu (formR { key := 49, td := .f64, ta := .f64, tb := .f64, occ := 1, draws := 1, traps := true } (rn2 (fsubT .f64)) f) false s

/-- FMUL_F64 (R292): Lane FP64 multiply. -/
def execFmulF64 (f : LaneR) (s : State) : Out :=
  laneAlu (formR { key := 50, td := .f64, ta := .f64, tb := .f64, occ := 1, draws := 1, traps := true } (rn2 (fmulT .f64)) f) false s

/-- FMIN_F64 (R293): Lane FP64 minimum. -/
def execFminF64 (f : LaneR) (s : State) : Out :=
  laneAlu (formR { key := 51, td := .f64, ta := .f64, tb := .f64, occ := 1, draws := 0, traps := true } (fn2 (fminmaxT .f64 true)) f) false s

/-- FMAX_F64 (R293): Lane FP64 maximum. -/
def execFmaxF64 (f : LaneR) (s : State) : Out :=
  laneAlu (formR { key := 52, td := .f64, ta := .f64, tb := .f64, occ := 1, draws := 0, traps := true } (fn2 (fminmaxT .f64 false)) f) false s

/-- FCMP_F64 (R294): Lane FP64 compare writing a predicate. -/
def execFcmpF64 (f : LaneP) (s : State) : Out :=
  laneAlu (formP { key := 53, td := .f64, ta := .f64, tb := .f64, occ := 1, draws := 0, traps := true } (fcmpFn .f64) f) false s

/-- FDIV_F64 (R296): Lane FP64 division. -/
def execFdivF64 (f : LaneR) (s : State) : Out :=
  laneAlu (formR { key := 54, td := .f64, ta := .f64, tb := .f64, occ := 8, draws := 1, traps := true } (rn2 (fdivT .f64)) f) false s

/-- FSQRT_F64 (R296): Lane FP64 square root. -/
def execFsqrtF64 (f : LaneR1) (s : State) : Out :=
  laneAlu (formR1 { key := 55, td := .f64, ta := .f64, tb := .f64, occ := 8, draws := 1, traps := true } (rn1 (fsqrtT .f64)) f) false s

/-- FCLASS_F32 (R295): Lane FP32 class mask. -/
def execFclassF32 (f : LaneR1) (s : State) : Out :=
  laneAlu (formR1 { key := 61, td := .w32, ta := .f32, tb := .f32, occ := 1, draws := 0, traps := false } (fn1 (fclassT .f32)) f) false s

/-- FCLASS_F64 (R295): Lane FP64 class mask. -/
def execFclassF64 (f : LaneR1) (s : State) : Out :=
  laneAlu (formR1 { key := 62, td := .w32, ta := .f64, tb := .f64, occ := 1, draws := 0, traps := false } (fn1 (fclassT .f64)) f) false s

/-- FADD_F32_X (R292): Lane two-word FP32 add with rounding field. -/
def execFaddF32X (f : LaneX) (s : State) : Out :=
  laneAlu (formX { key := 112, td := .f32, ta := .f32, tb := .f32, occ := 1, draws := 1, traps := true } (rn2 (faddT .f32)) f) false s

/-- FMUL_F32_X (R292): Lane two-word FP32 multiply. -/
def execFmulF32X (f : LaneX) (s : State) : Out :=
  laneAlu (formX { key := 113, td := .f32, ta := .f32, tb := .f32, occ := 1, draws := 1, traps := true } (rn2 (fmulT .f32)) f) false s

/-- FFMA_F32 (R292): Lane FP32 fused multiply-add, one rounding. -/
def execFfmaF32 (f : LaneX3) (s : State) : Out :=
  laneAlu (formX3 { key := 114, td := .f32, ta := .f32, tb := .f32, occ := 1, draws := 1, traps := true } (ffmaT .f32) f) false s

/-- FCMP_F32_X (R294): Lane two-word FP32 compare. -/
def execFcmpF32X (f : LaneXP) (s : State) : Out :=
  laneAlu (formXP { key := 115, td := .f32, ta := .f32, tb := .f32, occ := 1, draws := 0, traps := true } (fcmpFn .f32) f) false s

/-- FADD_F64_X (R292): Lane two-word FP64 add. -/
def execFaddF64X (f : LaneX) (s : State) : Out :=
  laneAlu (formX { key := 116, td := .f64, ta := .f64, tb := .f64, occ := 1, draws := 1, traps := true } (rn2 (faddT .f64)) f) false s

/-- FMUL_F64_X (R292): Lane two-word FP64 multiply. -/
def execFmulF64X (f : LaneX) (s : State) : Out :=
  laneAlu (formX { key := 117, td := .f64, ta := .f64, tb := .f64, occ := 1, draws := 1, traps := true } (rn2 (fmulT .f64)) f) false s

/-- FFMA_F64 (R292): Lane FP64 fused multiply-add. -/
def execFfmaF64 (f : LaneX3) (s : State) : Out :=
  laneAlu (formX3 { key := 118, td := .f64, ta := .f64, tb := .f64, occ := 1, draws := 1, traps := true } (ffmaT .f64) f) false s

/-- FCMP_F64_X (R294): Lane two-word FP64 compare. -/
def execFcmpF64X (f : LaneXP) (s : State) : Out :=
  laneAlu (formXP { key := 119, td := .f64, ta := .f64, tb := .f64, occ := 1, draws := 0, traps := true } (fcmpFn .f64) f) false s

/-- FADD_F16X2 (R292): Lane packed f16 add. -/
def execFaddF16x2 (f : LaneX) (s : State) : Out :=
  laneAlu (formX { key := 120, td := .h2, ta := .h2, tb := .h2, occ := 1, draws := 2, traps := true } (rn2 (faddX2 .f16)) f) false s

/-- FMUL_F16X2 (R292): Lane packed f16 multiply. -/
def execFmulF16x2 (f : LaneX) (s : State) : Out :=
  laneAlu (formX { key := 121, td := .h2, ta := .h2, tb := .h2, occ := 1, draws := 2, traps := true } (rn2 (fmulX2 .f16)) f) false s

/-- FFMA_F16X2 (R292): Lane packed f16 fused multiply-add. -/
def execFfmaF16x2 (f : LaneX3) (s : State) : Out :=
  laneAlu (formX3 { key := 122, td := .h2, ta := .h2, tb := .h2, occ := 1, draws := 2, traps := true } (ffmaX2 .f16) f) false s

/-- FADD_BF16X2 (R292): Lane packed bf16 add. -/
def execFaddBf16x2 (f : LaneX) (s : State) : Out :=
  laneAlu (formX { key := 123, td := .h2, ta := .h2, tb := .h2, occ := 1, draws := 2, traps := true } (rn2 (faddX2 .bf16)) f) false s

/-- FMUL_BF16X2 (R292): Lane packed bf16 multiply. -/
def execFmulBf16x2 (f : LaneX) (s : State) : Out :=
  laneAlu (formX { key := 124, td := .h2, ta := .h2, tb := .h2, occ := 1, draws := 2, traps := true } (rn2 (fmulX2 .bf16)) f) false s

/-- FFMA_BF16X2 (R292): Lane packed bf16 fused multiply-add. -/
def execFfmaBf16x2 (f : LaneX3) (s : State) : Out :=
  laneAlu (formX3 { key := 125, td := .h2, ta := .h2, tb := .h2, occ := 1, draws := 2, traps := true } (ffmaX2 .bf16) f) false s

/-- FSUB_F32_X (R292): Lane two-word FP32 subtract. -/
def execFsubF32X (f : LaneX) (s : State) : Out :=
  laneAlu (formX { key := 126, td := .f32, ta := .f32, tb := .f32, occ := 1, draws := 1, traps := true } (rn2 (fsubT .f32)) f) false s

/-- FSUB_F64_X (R292): Lane two-word FP64 subtract. -/
def execFsubF64X (f : LaneX) (s : State) : Out :=
  laneAlu (formX { key := 127, td := .f64, ta := .f64, tb := .f64, occ := 1, draws := 1, traps := true } (rn2 (fsubT .f64)) f) false s

/-- CVT (R299): Lane conversion between formats, rounded once. -/
def execCvt (f : LaneCvt) (s : State) : Out :=
  laneAlu (formCvt 221 f) false s

/-- RCP_F32 (R297): FP32 reciprocal correctly rounded to nearest. -/
def execRcpF32 (f : LaneR1) (s : State) : Out :=
  laneAlu (formR1 { key := 222, td := .f32, ta := .f32, tb := .f32, occ := 2, draws := 0, traps := true } (fn1 (rcpT .f32)) f) false s

/-- RCP_F64 (R297): FP64 reciprocal. -/
def execRcpF64 (f : LaneR1) (s : State) : Out :=
  laneAlu (formR1 { key := 223, td := .f64, ta := .f64, tb := .f64, occ := 2, draws := 0, traps := true } (fn1 (rcpT .f64)) f) false s

/-- RSQ_F32 (R297): FP32 reciprocal square root. -/
def execRsqF32 (f : LaneR1) (s : State) : Out :=
  laneAlu (formR1 { key := 224, td := .f32, ta := .f32, tb := .f32, occ := 2, draws := 0, traps := true } (fn1 (rsqT .f32)) f) false s

/-- RSQ_F64 (R297): FP64 reciprocal square root. -/
def execRsqF64 (f : LaneR1) (s : State) : Out :=
  laneAlu (formR1 { key := 225, td := .f64, ta := .f64, tb := .f64, occ := 2, draws := 0, traps := true } (fn1 (rsqT .f64)) f) false s

/-- EXP2_F32 (R297): FP32 base-2 exponential. -/
def execExp2F32 (f : LaneR1) (s : State) : Out :=
  laneAlu (formR1 { key := 226, td := .f32, ta := .f32, tb := .f32, occ := 2, draws := 0, traps := true } (fn1 exp2T) f) false s

/-- LOG2_F32 (R297): FP32 base-2 logarithm. -/
def execLog2F32 (f : LaneR1) (s : State) : Out :=
  laneAlu (formR1 { key := 227, td := .f32, ta := .f32, tb := .f32, occ := 2, draws := 0, traps := true } (fn1 log2T) f) false s

/-- SIN_F32 (R297): FP32 sine. -/
def execSinF32 (f : LaneR1) (s : State) : Out :=
  laneAlu (formR1 { key := 228, td := .f32, ta := .f32, tb := .f32, occ := 2, draws := 0, traps := true } (fn1 sinT) f) false s

/-- COS_F32 (R297): FP32 cosine. -/
def execCosF32 (f : LaneR1) (s : State) : Out :=
  laneAlu (formR1 { key := 229, td := .f32, ta := .f32, tb := .f32, occ := 2, draws := 0, traps := true } (fn1 cosT) f) false s

/-- FMIN_F16X2 (R293): Packed f16 minimum. -/
def execFminF16x2 (f : LaneR) (s : State) : Out :=
  laneAlu (formR { key := 230, td := .h2, ta := .h2, tb := .h2, occ := 1, draws := 0, traps := true } (rn2 (fminmaxX2 .f16 true)) f) false s

/-- FMAX_F16X2 (R293): Packed f16 maximum. -/
def execFmaxF16x2 (f : LaneR) (s : State) : Out :=
  laneAlu (formR { key := 231, td := .h2, ta := .h2, tb := .h2, occ := 1, draws := 0, traps := true } (rn2 (fminmaxX2 .f16 false)) f) false s

/-- FMIN_BF16X2 (R293): Packed bf16 minimum. -/
def execFminBf16x2 (f : LaneR) (s : State) : Out :=
  laneAlu (formR { key := 232, td := .h2, ta := .h2, tb := .h2, occ := 1, draws := 0, traps := true } (rn2 (fminmaxX2 .bf16 true)) f) false s

/-- FMAX_BF16X2 (R293): Packed bf16 maximum. -/
def execFmaxBf16x2 (f : LaneR) (s : State) : Out :=
  laneAlu (formR { key := 233, td := .h2, ta := .h2, tb := .h2, occ := 1, draws := 0, traps := true } (rn2 (fminmaxX2 .bf16 false)) f) false s

/-- FCMP_F16X2 (R294): Packed f16 compare writing pd and pd+1. -/
def execFcmpF16x2 (cond : Cond) (p : BitVec 3) (a b : LSrc) (s : State) : Out :=
  laneAlu (formP2 (fcmpX2Fn .f16 cond) p a b) false s

/-- FCMP_BF16X2 (R294): Packed bf16 compare writing pd and pd+1. -/
def execFcmpBf16x2 (cond : Cond) (p : BitVec 3) (a b : LSrc) (s : State) : Out :=
  laneAlu (formP2 (fcmpX2Fn .bf16 cond) p a b) false s

/-- FCLASS_F16X2 (R295): Packed f16 class masks. -/
def execFclassF16x2 (f : LaneR1) (s : State) : Out :=
  laneAlu (formR1 { key := 236, td := .w32, ta := .h2, tb := .h2, occ := 1, draws := 0, traps := false } (fn1 (fclassX2 .f16)) f) false s

/-- FCLASS_BF16X2 (R295): Packed bf16 class masks. -/
def execFclassBf16x2 (f : LaneR1) (s : State) : Out :=
  laneAlu (formR1 { key := 237, td := .w32, ta := .h2, tb := .h2, occ := 1, draws := 0, traps := false } (fn1 (fclassX2 .bf16)) f) false s

end Sys2Proof.Machine
end

