-- ==== Sys2Proof/Machine/IntLane.lean ====
section
/-!
DEFINITION. The one-word integer, logic and predicate forms of the lane set (11 R268 to R282, lane class 00).
-/

namespace Sys2Proof.Machine

open Sys2Proof

/-- ADD_32 (R268): Lane one-word 32-bit wrapping add of two register sources. -/
def execAdd32 (f : LaneR) (s : State) : Out :=
  laneAlu (formR { key := 0, td := .w32, ta := .w32, tb := .w32, occ := 1, draws := 0, traps := false } (fn2 (op32 (· + ·))) f) false s

/-- SUB_32 (R268): Lane one-word 32-bit wrapping subtract. -/
def execSub32 (f : LaneR) (s : State) : Out :=
  laneAlu (formR { key := 1, td := .w32, ta := .w32, tb := .w32, occ := 1, draws := 0, traps := false } (fn2 (op32 (· - ·))) f) false s

/-- MUL_32 (R268): Lane one-word 32-bit wrapping multiply. -/
def execMul32 (f : LaneR) (s : State) : Out :=
  laneAlu (formR { key := 2, td := .w32, ta := .w32, tb := .w32, occ := 1, draws := 0, traps := false } (fn2 (op32 (· * ·))) f) false s

/-- MULHI_N32 (R269): Lane high 32 bits of the unsigned 64-bit product. -/
def execMulhiN32 (f : LaneR) (s : State) : Out :=
  laneAlu (formR { key := 3, td := .w32, ta := .w32, tb := .w32, occ := 1, draws := 0, traps := false } (fn2 (op32 mulhiN)) f) false s

/-- MULHI_I32 (R269): Lane high 32 bits of the signed 64-bit product. -/
def execMulhiI32 (f : LaneR) (s : State) : Out :=
  laneAlu (formR { key := 4, td := .w32, ta := .w32, tb := .w32, occ := 1, draws := 0, traps := false } (fn2 (op32 mulhiI)) f) false s

/-- IDIV_N32 (R271): Lane unsigned 32-bit division truncating, DZ on zero divisor. -/
def execIdivN32 (f : LaneR) (s : State) : Out :=
  laneAlu (formR { key := 5, td := .w32, ta := .w32, tb := .w32, occ := 4, draws := 0, traps := false } (fn2 idivN32) f) false s

/-- IDIV_I32 (R271): Lane signed 32-bit division with stated borderline results. -/
def execIdivI32 (f : LaneR) (s : State) : Out :=
  laneAlu (formR { key := 6, td := .w32, ta := .w32, tb := .w32, occ := 4, draws := 0, traps := false } (fn2 idivI32) f) false s

/-- REM_N32 (R271): Lane unsigned 32-bit remainder. -/
def execRemN32 (f : LaneR) (s : State) : Out :=
  laneAlu (formR { key := 7, td := .w32, ta := .w32, tb := .w32, occ := 4, draws := 0, traps := false } (fn2 remN32) f) false s

/-- REM_I32 (R271): Lane signed 32-bit remainder with the dividend's sign. -/
def execRemI32 (f : LaneR) (s : State) : Out :=
  laneAlu (formR { key := 8, td := .w32, ta := .w32, tb := .w32, occ := 4, draws := 0, traps := false } (fn2 remI32) f) false s

/-- ADD_SAT_N32 (R270): Lane unsigned saturating add, sets SAT when clamped. -/
def execAddSatN32 (f : LaneR) (s : State) : Out :=
  laneAlu (formR { key := 9, td := .w32, ta := .w32, tb := .w32, occ := 1, draws := 0, traps := false } (fn2 addSatN32) f) false s

/-- ADD_SAT_I32 (R270): Lane signed saturating add. -/
def execAddSatI32 (f : LaneR) (s : State) : Out :=
  laneAlu (formR { key := 10, td := .w32, ta := .w32, tb := .w32, occ := 1, draws := 0, traps := false } (fn2 addSatI32) f) false s

/-- SUB_SAT_N32 (R270): Lane unsigned saturating subtract. -/
def execSubSatN32 (f : LaneR) (s : State) : Out :=
  laneAlu (formR { key := 11, td := .w32, ta := .w32, tb := .w32, occ := 1, draws := 0, traps := false } (fn2 subSatN32) f) false s

/-- SUB_SAT_I32 (R270): Lane signed saturating subtract. -/
def execSubSatI32 (f : LaneR) (s : State) : Out :=
  laneAlu (formR { key := 12, td := .w32, ta := .w32, tb := .w32, occ := 1, draws := 0, traps := false } (fn2 subSatI32) f) false s

/-- MIN_N32 (R272): Lane unsigned minimum. -/
def execMinN32 (f : LaneR) (s : State) : Out :=
  laneAlu (formR { key := 13, td := .w32, ta := .w32, tb := .w32, occ := 1, draws := 0, traps := false } (fn2 (op32 minN)) f) false s

/-- MIN_I32 (R272): Lane signed minimum. -/
def execMinI32 (f : LaneR) (s : State) : Out :=
  laneAlu (formR { key := 14, td := .w32, ta := .w32, tb := .w32, occ := 1, draws := 0, traps := false } (fn2 (op32 minI)) f) false s

/-- MAX_N32 (R272): Lane unsigned maximum. -/
def execMaxN32 (f : LaneR) (s : State) : Out :=
  laneAlu (formR { key := 15, td := .w32, ta := .w32, tb := .w32, occ := 1, draws := 0, traps := false } (fn2 (op32 maxN)) f) false s

/-- MAX_I32 (R272): Lane signed maximum. -/
def execMaxI32 (f : LaneR) (s : State) : Out :=
  laneAlu (formR { key := 16, td := .w32, ta := .w32, tb := .w32, occ := 1, draws := 0, traps := false } (fn2 (op32 maxI)) f) false s

/-- AND_B32 (R273): Lane bitwise and, 32 bits. -/
def execAndB32 (f : LaneR) (s : State) : Out :=
  laneAlu (formR { key := 17, td := .w32, ta := .w32, tb := .w32, occ := 1, draws := 0, traps := false } (fn2 (op32 (· &&& ·))) f) false s

/-- OR_B32 (R273): Lane bitwise or, 32 bits. -/
def execOrB32 (f : LaneR) (s : State) : Out :=
  laneAlu (formR { key := 18, td := .w32, ta := .w32, tb := .w32, occ := 1, draws := 0, traps := false } (fn2 (op32 (· ||| ·))) f) false s

/-- XOR_B32 (R273): Lane bitwise xor, 32 bits. -/
def execXorB32 (f : LaneR) (s : State) : Out :=
  laneAlu (formR { key := 19, td := .w32, ta := .w32, tb := .w32, occ := 1, draws := 0, traps := false } (fn2 (op32 (· ^^^ ·))) f) false s

/-- ANDN_B32 (R273): Lane a and not b, 32 bits. -/
def execAndnB32 (f : LaneR) (s : State) : Out :=
  laneAlu (formR { key := 20, td := .w32, ta := .w32, tb := .w32, occ := 1, draws := 0, traps := false } (fn2 (op32 (fun a b => a &&& ~~~b))) f) false s

/-- SHL_B32 (R274): Lane 32-bit shift left by an unsigned count. -/
def execShlB32 (f : LaneR) (s : State) : Out :=
  laneAlu (formR { key := 21, td := .w32, ta := .w32, tb := .w32, occ := 1, draws := 0, traps := false } (fn2 shlB32) f) false s

/-- SHR_B32 (R274): Lane 32-bit logical shift right. -/
def execShrB32 (f : LaneR) (s : State) : Out :=
  laneAlu (formR { key := 22, td := .w32, ta := .w32, tb := .w32, occ := 1, draws := 0, traps := false } (fn2 shrB32) f) false s

/-- SAR_B32 (R274): Lane 32-bit arithmetic shift right. -/
def execSarB32 (f : LaneR) (s : State) : Out :=
  laneAlu (formR { key := 23, td := .w32, ta := .w32, tb := .w32, occ := 1, draws := 0, traps := false } (fn2 sarB32) f) false s

/-- ADD_64 (R268): Lane 64-bit wrapping add of pairs. -/
def execAdd64 (f : LaneR) (s : State) : Out :=
  laneAlu (formR { key := 24, td := .w64, ta := .w64, tb := .w64, occ := 1, draws := 0, traps := false } (fn2 (op64 (· + ·))) f) false s

/-- SUB_64 (R268): Lane 64-bit wrapping subtract. -/
def execSub64 (f : LaneR) (s : State) : Out :=
  laneAlu (formR { key := 25, td := .w64, ta := .w64, tb := .w64, occ := 1, draws := 0, traps := false } (fn2 (op64 (· - ·))) f) false s

/-- MUL_64 (R268): Lane 64-bit wrapping multiply. -/
def execMul64 (f : LaneR) (s : State) : Out :=
  laneAlu (formR { key := 26, td := .w64, ta := .w64, tb := .w64, occ := 1, draws := 0, traps := false } (fn2 (op64 (· * ·))) f) false s

/-- IDIV_N64 (R271): Lane unsigned 64-bit division. -/
def execIdivN64 (f : LaneR) (s : State) : Out :=
  laneAlu (formR { key := 27, td := .w64, ta := .w64, tb := .w64, occ := 8, draws := 0, traps := false } (fn2 idivN64) f) false s

/-- IDIV_I64 (R271): Lane signed 64-bit division. -/
def execIdivI64 (f : LaneR) (s : State) : Out :=
  laneAlu (formR { key := 28, td := .w64, ta := .w64, tb := .w64, occ := 8, draws := 0, traps := false } (fn2 idivI64) f) false s

/-- AND_B64 (R273): Lane bitwise and, 64 bits. -/
def execAndB64 (f : LaneR) (s : State) : Out :=
  laneAlu (formR { key := 29, td := .w64, ta := .w64, tb := .w64, occ := 1, draws := 0, traps := false } (fn2 (op64 (· &&& ·))) f) false s

/-- OR_B64 (R273): Lane bitwise or, 64 bits. -/
def execOrB64 (f : LaneR) (s : State) : Out :=
  laneAlu (formR { key := 30, td := .w64, ta := .w64, tb := .w64, occ := 1, draws := 0, traps := false } (fn2 (op64 (· ||| ·))) f) false s

/-- XOR_B64 (R273): Lane bitwise xor, 64 bits. -/
def execXorB64 (f : LaneR) (s : State) : Out :=
  laneAlu (formR { key := 31, td := .w64, ta := .w64, tb := .w64, occ := 1, draws := 0, traps := false } (fn2 (op64 (· ^^^ ·))) f) false s

/-- SHL_B64 (R274): Lane 64-bit shift left. -/
def execShlB64 (f : LaneR) (s : State) : Out :=
  laneAlu (formR { key := 32, td := .w64, ta := .w64, tb := .w32, occ := 1, draws := 0, traps := false } (fn2 shlB64) f) false s

/-- SHR_B64 (R274): Lane 64-bit logical shift right. -/
def execShrB64 (f : LaneR) (s : State) : Out :=
  laneAlu (formR { key := 33, td := .w64, ta := .w64, tb := .w32, occ := 1, draws := 0, traps := false } (fn2 shrB64) f) false s

/-- SAR_B64 (R274): Lane 64-bit arithmetic shift right. -/
def execSarB64 (f : LaneR) (s : State) : Out :=
  laneAlu (formR { key := 34, td := .w64, ta := .w64, tb := .w32, occ := 1, draws := 0, traps := false } (fn2 sarB64) f) false s

/-- CMP_N32 (R281): Lane unsigned 32-bit compare writing a predicate. -/
def execCmpN32 (f : LaneP) (s : State) : Out :=
  laneAlu (formP { key := 35, td := .w32, ta := .w32, tb := .w32, occ := 1, draws := 0, traps := false } (fun c => cmpFn (cmpN32 c)) f) false s

/-- CMP_I32 (R281): Lane signed 32-bit compare. -/
def execCmpI32 (f : LaneP) (s : State) : Out :=
  laneAlu (formP { key := 36, td := .w32, ta := .w32, tb := .w32, occ := 1, draws := 0, traps := false } (fun c => cmpFn (cmpI32 c)) f) false s

/-- CMP_N64 (R281): Lane unsigned 64-bit compare. -/
def execCmpN64 (f : LaneP) (s : State) : Out :=
  laneAlu (formP { key := 37, td := .w64, ta := .w64, tb := .w64, occ := 1, draws := 0, traps := false } (fun c => cmpFn (cmpN64 c)) f) false s

/-- CMP_I64 (R281): Lane signed 64-bit compare. -/
def execCmpI64 (f : LaneP) (s : State) : Out :=
  laneAlu (formP { key := 38, td := .w64, ta := .w64, tb := .w64, occ := 1, draws := 0, traps := false } (fun c => cmpFn (cmpI64 c)) f) false s

/-- PLOG (R282): Lane predicate logic by a 4-bit truth table. -/
def execPlog (f : LanePlog) (s : State) : Out :=
  laneAlu (formPlog f) false s

/-- POPC_B32 (R275): Lane population count. -/
def execPopcB32 (f : LaneR1) (s : State) : Out :=
  laneAlu (formR1 { key := 56, td := .w32, ta := .w32, tb := .w32, occ := 1, draws := 0, traps := false } (fn1 popcB32) f) false s

/-- CLZ_B32 (R275): Lane count of leading zeros. -/
def execClzB32 (f : LaneR1) (s : State) : Out :=
  laneAlu (formR1 { key := 57, td := .w32, ta := .w32, tb := .w32, occ := 1, draws := 0, traps := false } (fn1 clzB32) f) false s

/-- BREV_B32 (R275): Lane bit reversal. -/
def execBrevB32 (f : LaneR1) (s : State) : Out :=
  laneAlu (formR1 { key := 58, td := .w32, ta := .w32, tb := .w32, occ := 1, draws := 0, traps := false } (fn1 brevB32) f) false s

/-- MOV_B32 (R278): Lane 32-bit move, binding a tagged source. -/
def execMovB32 (f : LaneR1) (s : State) : Out :=
  laneAlu (formR1 { key := 59, td := .w32, ta := .w32, tb := .w32, occ := 1, draws := 0, traps := false } (fn1 movB32) f) true s

/-- MOV_B64 (R278): Lane 64-bit move. -/
def execMovB64 (f : LaneR1) (s : State) : Out :=
  laneAlu (formR1 { key := 60, td := .w64, ta := .w64, tb := .w64, occ := 1, draws := 0, traps := false } (fn1 movB64) f) true s

end Sys2Proof.Machine
end

