-- ==== Sys2Proof/Machine/IntLaneX.lean ====
section
/-!
DEFINITION. The two-word integer forms of the lane set (11 R268 to R286, lane class 01).
-/

namespace Sys2Proof.Machine

open Sys2Proof

/-- ADD_32_X (R268): Lane two-word add with literal or modifiers. -/
def execAdd32X (f : LaneX) (s : State) : Out :=
  laneAlu (formX { key := 64, td := .w32, ta := .w32, tb := .w32, occ := 1, draws := 0, traps := false } (fn2 (op32 (· + ·))) f) false s

/-- SUB_32_X (R268): Lane two-word subtract. -/
def execSub32X (f : LaneX) (s : State) : Out :=
  laneAlu (formX { key := 65, td := .w32, ta := .w32, tb := .w32, occ := 1, draws := 0, traps := false } (fn2 (op32 (· - ·))) f) false s

/-- MUL_32_X (R268): Lane two-word multiply. -/
def execMul32X (f : LaneX) (s : State) : Out :=
  laneAlu (formX { key := 66, td := .w32, ta := .w32, tb := .w32, occ := 1, draws := 0, traps := false } (fn2 (op32 (· * ·))) f) false s

/-- AND_B32_X (R273): Lane two-word and. -/
def execAndB32X (f : LaneX) (s : State) : Out :=
  laneAlu (formX { key := 67, td := .w32, ta := .w32, tb := .w32, occ := 1, draws := 0, traps := false } (fn2 (op32 (· &&& ·))) f) false s

/-- OR_B32_X (R273): Lane two-word or. -/
def execOrB32X (f : LaneX) (s : State) : Out :=
  laneAlu (formX { key := 68, td := .w32, ta := .w32, tb := .w32, occ := 1, draws := 0, traps := false } (fn2 (op32 (· ||| ·))) f) false s

/-- XOR_B32_X (R273): Lane two-word xor. -/
def execXorB32X (f : LaneX) (s : State) : Out :=
  laneAlu (formX { key := 69, td := .w32, ta := .w32, tb := .w32, occ := 1, draws := 0, traps := false } (fn2 (op32 (· ^^^ ·))) f) false s

/-- ANDN_B32_X (R273): Lane two-word andn. -/
def execAndnB32X (f : LaneX) (s : State) : Out :=
  laneAlu (formX { key := 70, td := .w32, ta := .w32, tb := .w32, occ := 1, draws := 0, traps := false } (fn2 (op32 (fun a b => a &&& ~~~b))) f) false s

/-- SHL_B32_X (R274): Lane two-word shift left. -/
def execShlB32X (f : LaneX) (s : State) : Out :=
  laneAlu (formX { key := 71, td := .w32, ta := .w32, tb := .w32, occ := 1, draws := 0, traps := false } (fn2 shlB32) f) false s

/-- SHR_B32_X (R274): Lane two-word logical shift right. -/
def execShrB32X (f : LaneX) (s : State) : Out :=
  laneAlu (formX { key := 72, td := .w32, ta := .w32, tb := .w32, occ := 1, draws := 0, traps := false } (fn2 shrB32) f) false s

/-- SAR_B32_X (R274): Lane two-word arithmetic shift right. -/
def execSarB32X (f : LaneX) (s : State) : Out :=
  laneAlu (formX { key := 73, td := .w32, ta := .w32, tb := .w32, occ := 1, draws := 0, traps := false } (fn2 sarB32) f) false s

/-- MIN_N32_X (R272): Lane two-word unsigned minimum. -/
def execMinN32X (f : LaneX) (s : State) : Out :=
  laneAlu (formX { key := 74, td := .w32, ta := .w32, tb := .w32, occ := 1, draws := 0, traps := false } (fn2 (op32 minN)) f) false s

/-- MIN_I32_X (R272): Lane two-word signed minimum. -/
def execMinI32X (f : LaneX) (s : State) : Out :=
  laneAlu (formX { key := 75, td := .w32, ta := .w32, tb := .w32, occ := 1, draws := 0, traps := false } (fn2 (op32 minI)) f) false s

/-- MAX_N32_X (R272): Lane two-word unsigned maximum. -/
def execMaxN32X (f : LaneX) (s : State) : Out :=
  laneAlu (formX { key := 76, td := .w32, ta := .w32, tb := .w32, occ := 1, draws := 0, traps := false } (fn2 (op32 maxN)) f) false s

/-- MAX_I32_X (R272): Lane two-word signed maximum. -/
def execMaxI32X (f : LaneX) (s : State) : Out :=
  laneAlu (formX { key := 77, td := .w32, ta := .w32, tb := .w32, occ := 1, draws := 0, traps := false } (fn2 (op32 maxI)) f) false s

/-- ADD_SAT_N32_X (R270): Lane two-word unsigned saturating add. -/
def execAddSatN32X (f : LaneX) (s : State) : Out :=
  laneAlu (formX { key := 78, td := .w32, ta := .w32, tb := .w32, occ := 1, draws := 0, traps := false } (fn2 addSatN32) f) false s

/-- ADD_SAT_I32_X (R270): Lane two-word signed saturating add. -/
def execAddSatI32X (f : LaneX) (s : State) : Out :=
  laneAlu (formX { key := 79, td := .w32, ta := .w32, tb := .w32, occ := 1, draws := 0, traps := false } (fn2 addSatI32) f) false s

/-- CMP_N32_X (R281): Lane two-word unsigned compare. -/
def execCmpN32X (f : LaneXP) (s : State) : Out :=
  laneAlu (formXP { key := 80, td := .w32, ta := .w32, tb := .w32, occ := 1, draws := 0, traps := false } (fun c => cmpFn (cmpN32 c)) f) false s

/-- CMP_I32_X (R281): Lane two-word signed compare. -/
def execCmpI32X (f : LaneXP) (s : State) : Out :=
  laneAlu (formXP { key := 81, td := .w32, ta := .w32, tb := .w32, occ := 1, draws := 0, traps := false } (fun c => cmpFn (cmpI32 c)) f) false s

/-- MOV_B32_X (R278): Lane two-word move of a literal or guarded source. -/
def execMovB32X (f : LaneX1) (s : State) : Out :=
  laneAlu (formX1 { key := 82, td := .w32, ta := .w32, tb := .w32, occ := 1, draws := 0, traps := false } (fn1 movB32) f) true s

/-- ADD_64_X (R268): Lane two-word 64-bit add. -/
def execAdd64X (f : LaneX) (s : State) : Out :=
  laneAlu (formX { key := 83, td := .w64, ta := .w64, tb := .w64, occ := 1, draws := 0, traps := false } (fn2 (op64 (· + ·))) f) false s

/-- SUB_64_X (R268): Lane two-word 64-bit subtract. -/
def execSub64X (f : LaneX) (s : State) : Out :=
  laneAlu (formX { key := 84, td := .w64, ta := .w64, tb := .w64, occ := 1, draws := 0, traps := false } (fn2 (op64 (· - ·))) f) false s

/-- CMP_N64_X (R281): Lane two-word unsigned 64-bit compare. -/
def execCmpN64X (f : LaneXP) (s : State) : Out :=
  laneAlu (formXP { key := 85, td := .w64, ta := .w64, tb := .w64, occ := 1, draws := 0, traps := false } (fun c => cmpFn (cmpN64 c)) f) false s

/-- CMP_I64_X (R281): Lane two-word signed 64-bit compare. -/
def execCmpI64X (f : LaneXP) (s : State) : Out :=
  laneAlu (formXP { key := 86, td := .w64, ta := .w64, tb := .w64, occ := 1, draws := 0, traps := false } (fun c => cmpFn (cmpI64 c)) f) false s

/-- MOV_B64_X (R278): Lane two-word 64-bit move. -/
def execMovB64X (f : LaneX1) (s : State) : Out :=
  laneAlu (formX1 { key := 87, td := .w64, ta := .w64, tb := .w64, occ := 1, draws := 0, traps := false } (fn1 movB64) f) true s

/-- SEL_B32 (R279): Lane select by predicate, 32 bits. -/
def execSelB32 (f : LaneSel) (s : State) : Out :=
  laneAlu (formSel { key := 88, td := .w32, ta := .w32, tb := .w32, occ := 1, draws := 0, traps := false } f) false s

/-- SEL_B64 (R279): Lane select by predicate, 64 bits. -/
def execSelB64 (f : LaneSel) (s : State) : Out :=
  laneAlu (formSel { key := 89, td := .w64, ta := .w64, tb := .w64, occ := 1, draws := 0, traps := false } f) false s

/-- BFE_N32 (R276): Lane unsigned bit-field extract. -/
def execBfeN32 (f : LaneX) (s : State) : Out :=
  laneAlu (formX { key := 90, td := .w32, ta := .w32, tb := .w32, occ := 1, draws := 0, traps := false } (fn2 (bfe false)) f) false s

/-- BFE_I32 (R276): Lane signed bit-field extract. -/
def execBfeI32 (f : LaneX) (s : State) : Out :=
  laneAlu (formX { key := 91, td := .w32, ta := .w32, tb := .w32, occ := 1, draws := 0, traps := false } (fn2 (bfe true)) f) false s

/-- BFI_B32 (R277): Lane bit-field insert. -/
def execBfiB32 (f : LaneX3) (s : State) : Out :=
  laneAlu (formX3 { key := 92, td := .w32, ta := .w32, tb := .w32, occ := 1, draws := 0, traps := false } (fn3 bfi) f) false s

/-- MAD_32 (R268): Lane 32-bit wrapping multiply-add. -/
def execMad32 (f : LaneX3) (s : State) : Out :=
  laneAlu (formX3 { key := 93, td := .w32, ta := .w32, tb := .w32, occ := 1, draws := 0, traps := false } (fn3 (fun a b c => (z64 (lo32 a * lo32 b + lo32 c), 0#6))) f) false s

/-- MAD_64 (R268): Lane 64-bit wrapping multiply-add. -/
def execMad64 (f : LaneX3) (s : State) : Out :=
  laneAlu (formX3 { key := 94, td := .w64, ta := .w64, tb := .w64, occ := 1, draws := 0, traps := false } (fn3 (fun a b c => (a * b + c, 0#6))) f) false s

/-- SHRR_I32 (R286): Lane rounding shift right. -/
def execShrrI32 (f : LaneX) (s : State) : Out :=
  laneAlu (formX { key := 95, td := .w32, ta := .w32, tb := .w32, occ := 1, draws := 0, traps := false } (fn2 shrrI32) f) false s

end Sys2Proof.Machine
end

