-- ==== Sys2Proof/Machine/MemPlain.lean ====
section
/-!
DEFINITION. The plain and qualified loads and stores of both sets (07 R157, R158, R161 to R164).
-/

namespace Sys2Proof.Machine

open Sys2Proof

/-! ## Lane global accesses -/

/-- LD_G_N8 (R158). -/
def execLdGN8 (f : LaneLd) (s : State) : Out := laneLoad f (plainLoad false .n8) 4 s

/-- LD_G_I8 (R158). -/
def execLdGI8 (f : LaneLd) (s : State) : Out := laneLoad f (plainLoad false .i8) 4 s

/-- LD_G_N16 (R158). -/
def execLdGN16 (f : LaneLd) (s : State) : Out := laneLoad f (plainLoad false .n16) 4 s

/-- LD_G_I16 (R158). -/
def execLdGI16 (f : LaneLd) (s : State) : Out := laneLoad f (plainLoad false .i16) 4 s

/-- LD_G_B32 (R158). -/
def execLdGB32 (f : LaneLd) (s : State) : Out := laneLoad f (plainLoad false .b32) 4 s

/-- LD_G_B64 (R158). -/
def execLdGB64 (f : LaneLd) (s : State) : Out := laneLoad f (plainLoad false .b64) 4 s

/-- LD_G_QUAL (R163). -/
def execLdGQual (f : LaneLd) (q : Qual) (s : State) : Out := laneLoad f (qualLoad false q) 8 s

/-- ST_G_B8 (R158). -/
def execStGB8 (f : LaneSt) (s : State) : Out := laneStore f (plainStore false .n8) 4 s

/-- ST_G_B16 (R158). -/
def execStGB16 (f : LaneSt) (s : State) : Out := laneStore f (plainStore false .n16) 4 s

/-- ST_G_B32 (R158). -/
def execStGB32 (f : LaneSt) (s : State) : Out := laneStore f (plainStore false .b32) 4 s

/-- ST_G_B64 (R158). -/
def execStGB64 (f : LaneSt) (s : State) : Out := laneStore f (plainStore false .b64) 4 s

/-- ST_G_QUAL (R163). -/
def execStGQual (f : LaneSt) (q : Qual) (s : State) : Out := laneStore f (qualStore false q) 8 s

/-! ## Lane circle accesses -/

/-- LD_CM_N8 (R158). -/
def execLdCmN8 (f : LaneLd) (s : State) : Out := laneLoad f (plainLoad true .n8) 4 s

/-- LD_CM_I8 (R158). -/
def execLdCmI8 (f : LaneLd) (s : State) : Out := laneLoad f (plainLoad true .i8) 4 s

/-- LD_CM_N16 (R158). -/
def execLdCmN16 (f : LaneLd) (s : State) : Out := laneLoad f (plainLoad true .n16) 4 s

/-- LD_CM_I16 (R158). -/
def execLdCmI16 (f : LaneLd) (s : State) : Out := laneLoad f (plainLoad true .i16) 4 s

/-- LD_CM_B32 (R158). -/
def execLdCmB32 (f : LaneLd) (s : State) : Out := laneLoad f (plainLoad true .b32) 4 s

/-- LD_CM_B64 (R158). -/
def execLdCmB64 (f : LaneLd) (s : State) : Out := laneLoad f (plainLoad true .b64) 4 s

/-- LD_CM_QUAL (R164). -/
def execLdCmQual (f : LaneLd) (q : Qual) (s : State) : Out := laneLoad f (qualLoad true q) 8 s

/-- ST_CM_B8 (R158). -/
def execStCmB8 (f : LaneSt) (s : State) : Out := laneStore f (plainStore true .n8) 4 s

/-- ST_CM_B16 (R158). -/
def execStCmB16 (f : LaneSt) (s : State) : Out := laneStore f (plainStore true .n16) 4 s

/-- ST_CM_B32 (R158). -/
def execStCmB32 (f : LaneSt) (s : State) : Out := laneStore f (plainStore true .b32) 4 s

/-- ST_CM_B64 (R158). -/
def execStCmB64 (f : LaneSt) (s : State) : Out := laneStore f (plainStore true .b64) 4 s

/-- ST_CM_QUAL (R164). -/
def execStCmQual (f : LaneSt) (q : Qual) (s : State) : Out := laneStore f (qualStore true q) 8 s

/-! ## Uniform accesses -/

/-- U_LD_G_B32 (R158). -/
def execULdGB32 (f : UniLd) (s : State) : Out := uniLoad f (plainLoad false .b32) 4 s

/-- U_LD_G_B64 (R158). -/
def execULdGB64 (f : UniLd) (s : State) : Out := uniLoad f (plainLoad false .b64) 4 s

/-- U_ST_G_B32 (R158). -/
def execUStGB32 (f : UniSt) (s : State) : Out := uniStore f (plainStore false .b32) 4 s

/-- U_ST_G_B64 (R158). -/
def execUStGB64 (f : UniSt) (s : State) : Out := uniStore f (plainStore false .b64) 4 s

/-- U_LD_G_QUAL (R163). -/
def execULdGQual (f : UniLd) (q : Qual) (s : State) : Out := uniLoad f (qualLoad false q) 8 s

/-- U_ST_G_QUAL (R163). -/
def execUStGQual (f : UniSt) (q : Qual) (s : State) : Out := uniStore f (qualStore false q) 8 s

/-- U_LD_CM_B32 (R158). -/
def execULdCmB32 (f : UniLd) (s : State) : Out := uniLoad f (plainLoad true .b32) 4 s

/-- U_LD_CM_B64 (R158). -/
def execULdCmB64 (f : UniLd) (s : State) : Out := uniLoad f (plainLoad true .b64) 4 s

/-- U_ST_CM_B32 (R158). -/
def execUStCmB32 (f : UniSt) (s : State) : Out := uniStore f (plainStore true .b32) 4 s

/-- U_ST_CM_B64 (R158). -/
def execUStCmB64 (f : UniSt) (s : State) : Out := uniStore f (plainStore true .b64) 4 s

/-- U_LD_CM_QUAL (R164). -/
def execULdCmQual (f : UniLd) (q : Qual) (s : State) : Out := uniLoad f (qualLoad true q) 8 s

/-- U_ST_CM_QUAL (R164). -/
def execUStCmQual (f : UniSt) (q : Qual) (s : State) : Out := uniStore f (qualStore true q) 8 s

end Sys2Proof.Machine
end

