-- ==== Sys2Proof/Machine/Packed.lean ====
section
/-!
DEFINITION. The packed forms of the lane set (11 R283 to R287).
-/

namespace Sys2Proof.Machine

open Sys2Proof

/-- ADD_I16X2 (R283): Lane packed 16-bit wrapping add. -/
def execAddI16x2 (f : LaneX) (s : State) : Out :=
  laneAlu (formX { key := 96, td := .h2, ta := .h2, tb := .h2, occ := 1, draws := 0, traps := false } (fn2 addI16x2) f) false s

/-- SUB_I16X2 (R283): Lane packed 16-bit wrapping subtract. -/
def execSubI16x2 (f : LaneX) (s : State) : Out :=
  laneAlu (formX { key := 97, td := .h2, ta := .h2, tb := .h2, occ := 1, draws := 0, traps := false } (fn2 subI16x2) f) false s

/-- ADD_SAT_I16X2 (R283): Lane packed 16-bit saturating add. -/
def execAddSatI16x2 (f : LaneX) (s : State) : Out :=
  laneAlu (formX { key := 98, td := .h2, ta := .h2, tb := .h2, occ := 1, draws := 0, traps := false } (fn2 addSatI16x2) f) false s

/-- SUB_SAT_I16X2 (R283): Lane packed 16-bit saturating subtract. -/
def execSubSatI16x2 (f : LaneX) (s : State) : Out :=
  laneAlu (formX { key := 99, td := .h2, ta := .h2, tb := .h2, occ := 1, draws := 0, traps := false } (fn2 subSatI16x2) f) false s

/-- MUL_I16X2 (R283): Lane packed 16-bit wrapping multiply. -/
def execMulI16x2 (f : LaneX) (s : State) : Out :=
  laneAlu (formX { key := 100, td := .h2, ta := .h2, tb := .h2, occ := 1, draws := 0, traps := false } (fn2 mulI16x2) f) false s

/-- MIN_I16X2 (R283): Lane packed 16-bit signed minimum. -/
def execMinI16x2 (f : LaneX) (s : State) : Out :=
  laneAlu (formX { key := 101, td := .h2, ta := .h2, tb := .h2, occ := 1, draws := 0, traps := false } (fn2 minI16x2) f) false s

/-- MAX_I16X2 (R283): Lane packed 16-bit signed maximum. -/
def execMaxI16x2 (f : LaneX) (s : State) : Out :=
  laneAlu (formX { key := 102, td := .h2, ta := .h2, tb := .h2, occ := 1, draws := 0, traps := false } (fn2 maxI16x2) f) false s

/-- PACK_I16X2 (R284): Lane saturating pack of two 32-bit values. -/
def execPackI16x2 (f : LaneX) (s : State) : Out :=
  laneAlu (formX { key := 103, td := .w32, ta := .w32, tb := .w32, occ := 1, draws := 0, traps := false } (fn2 packI16x2) f) false s

/-- PDOT2_I16X2 (R285): Lane two-way dot product into a saturating 32-bit accumulator. -/
def execPdot2I16x2 (f : LaneX3) (s : State) : Out :=
  laneAlu (formX3 { key := 104, td := .w32, ta := .w32, tb := .w32, occ := 1, draws := 0, traps := false } (fn3 pdot2) f) false s

/-- SHRR_SAT_I16 (R286): Lane rounding shift right saturated to 16 bits. -/
def execShrrSatI16 (f : LaneX) (s : State) : Out :=
  laneAlu (formX { key := 105, td := .w32, ta := .w32, tb := .w32, occ := 1, draws := 0, traps := false } (fn2 shrrSatI16) f) false s

/-- ADD_N8X4 (R283): Lane packed byte wrapping add. -/
def execAddN8x4 (f : LaneX) (s : State) : Out :=
  laneAlu (formX { key := 106, td := .b4, ta := .b4, tb := .b4, occ := 1, draws := 0, traps := false } (fn2 addN8x4) f) false s

/-- SUB_N8X4 (R283): Lane packed byte wrapping subtract. -/
def execSubN8x4 (f : LaneX) (s : State) : Out :=
  laneAlu (formX { key := 107, td := .b4, ta := .b4, tb := .b4, occ := 1, draws := 0, traps := false } (fn2 subN8x4) f) false s

/-- ADD_SAT_N8X4 (R283): Lane packed byte saturating add. -/
def execAddSatN8x4 (f : LaneX) (s : State) : Out :=
  laneAlu (formX { key := 108, td := .b4, ta := .b4, tb := .b4, occ := 1, draws := 0, traps := false } (fn2 addSatN8x4) f) false s

/-- SUB_SAT_N8X4 (R283): Lane packed byte saturating subtract. -/
def execSubSatN8x4 (f : LaneX) (s : State) : Out :=
  laneAlu (formX { key := 109, td := .b4, ta := .b4, tb := .b4, occ := 1, draws := 0, traps := false } (fn2 subSatN8x4) f) false s

/-- MIN_N8X4 (R283): Lane packed byte minimum. -/
def execMinN8x4 (f : LaneX) (s : State) : Out :=
  laneAlu (formX { key := 110, td := .b4, ta := .b4, tb := .b4, occ := 1, draws := 0, traps := false } (fn2 minN8x4) f) false s

/-- MAX_N8X4 (R283): Lane packed byte maximum. -/
def execMaxN8x4 (f : LaneX) (s : State) : Out :=
  laneAlu (formX { key := 111, td := .b4, ta := .b4, tb := .b4, occ := 1, draws := 0, traps := false } (fn2 maxN8x4) f) false s

end Sys2Proof.Machine
end

