-- ==== Sys2Proof/Machine/Power.lean ====
section
/-!
DEFINITION. The module's start and its stops: the stages of a start and minimal mode (20 R413), firmware (17 R373), input, coolant
and power (01 R20 to R22).
-/

namespace Sys2Proof.Machine

open Sys2Proof

/-! ## The start (20 R413) -/

def noElement : Half := 0xffff#16

/-- A failed start: the count, its entry in the cause record and in the failure record; the module is off. -/
def failStart (s : State) (stage code : Nat) (element : Half) : State :=
  let m := s.mgmt
  let a : Attempt := { stage := stage, code := code, element := element, time := s.now / second }
  let s := { s with mgmt := { m with phase := .off, nfail := min 255 (m.nfail + 1), attempts := (a :: m.attempts).take 3, fullRequested := false } }
  record s { kind := kindStart, element := element.toNat, name := 0#128, action := code, detail := stage, time := s.now }

/-- A core as a start leaves it: its bin and its retirement stand, a bin that was set takes effect (DEDUCED, log entry 50). -/
def startCore (now : Nat) (x : Core) : Core :=
  let b := x.nextBin.getD x.bin
  { Core.blank with since := now, windowAt := now, retired := x.retired, bin := b, clock := if b = 0 then 4000 else 3600 }

/-- A partition as a start brings it up: retired channels and lost ranges stand (DEDUCED, log entry 50). -/
def startPart (ps : List Nat) (p : Nat) (x : Part) : Part :=
  { Part.blank with up := ps.contains p, chans := x.chans, lost := x.lost,
                    config := if (x.chans.length) < 3 then configReset else
                      (configReset &&& 0xffffffffe07fffff#64) ||| (BitVec.ofNat 64 (32 - x.chans.length) <<< 23) }

/-- Retired cores lie in neither set (17 R344). -/
def startSets (s : State) : State :=
  s.cores.foldl (fun s e => if e.2.retired then setConfigBit (setConfigBit s (partOf e.1) (48 + e.1 % 16) false) (partOf e.1) (32 + e.1 % 16) false else s) s

/-- The device brought up with some partitions: every record and register at its reset value, memory as it stands (DEDUCED, log entry 50). -/
def bringUp (s : State) (ps : List Nat) (phase : Phase) : State :=
  let m := s.mgmt
  startSets { s with
    cores := s.cores.map (fun e => (e.1, startCore s.now e.2)),
    parts := (List.range 16).map (fun p => (p, startPart ps p (getPart s p))),
    vfs := [], launches := [], shoots := [], marks := [],
    mgmt := { m with phase := phase, reachable := true, fullRequested := false, nfail := if phase == .full then 0 else m.nfail,
                     clock := 4000, thermalClock := 4000, powerClock := 4000, idleOn := false } }

/-- Whether a start may be made: the module is off or stopped, or a full start is requested in minimal mode. -/
def mayStart (m : Mgmt) : Bool :=
  match m.phase with
  | .off => true
  | .stopped => true
  | .minimal _ => m.fullRequested
  | .full => false

/-- The lowest of some partition numbers. -/
def lowestOf (ps : List Nat) : Option Nat := (List.range 16).find? ps.contains

/-- Whether the input lies in the range in which the module operates, in millivolts (01 R20). -/
def inputOk (mv : Nat) : Bool := 44000 ≤ mv && mv ≤ 56000

/-- START (R413): `power` holds the input (01 R20: no start outside 44 V to 56 V) and what the firmware's check finds, `stageOk` what the later checks find,
`element` the element a failed stage names (DEDUCED, log entry 50). -/
def execStart (power : PowerOn) (stageOk : List Nat) (element : Half) (s : State) : Out :=
  let m := s.mgmt
  .next (
    if !mayStart m || !inputOk power.mv then s
    else if !(power.firmwareOk || m.fwValid) then failStart s 1 1 noElement
    else
      match lowestOf stageOk with
      | none => failStart s 5 3 element
      | some p => if 3 ≤ m.nfail && !m.fullRequested then bringUp s [p] (.minimal p) else bringUp s stageOk .full)

/-- START_WATCHDOG_EXPIRE (R413). -/
def execStartWatchdogExpire (s : State) : Out := .next (if mayStart s.mgmt then failStart s 6 4 noElement else s)

/-- FIRMWARE_LOAD (R413; 17 R373): an image whose signature fails is not loaded (DESIGN CHOICE, log entry 13). -/
def execFirmwareLoad (digest : BitVec 512) (sig : List Byte) (s : State) : Out :=
  .next (match s.mgmt.phase with
    | .minimal _ =>
      if !s.mgmt.reachable then s
      else if Config.firmwareVerifies digest sig then answer { s with mgmt := { s.mgmt with fwDigest := digest, fwValid := true } } 0 0#64
      else answer s 1 0#64
    | _ => s)

/-- FULL_START_REQUEST (R413). -/
def execFullStartRequest (s : State) : Out :=
  .next (match s.mgmt.phase with
    | .minimal _ => if s.mgmt.reachable then { s with mgmt := { s.mgmt with fullRequested := true } } else s
    | _ => s)

/-! ## Stops of all partitions (01 R20, R21) -/

def kindStopped : Nat := 11

/-- Every partition stopped: running nodes are killed with reason 19, each with its entry in the failure record. -/
def stopAll (s : State) : State :=
  let s := s.launches.foldl (fun s l => failLaunch (record s (nodeEntry s kindStopped l.addr 19 l.lsn)) l.serial 19 0 0) s
  { s with parts := s.parts.map (fun e => (e.1, { e.2 with up := false })), mgmt := { s.mgmt with phase := .stopped } }

/-- Whether the module runs. -/
def running (s : State) : Bool := match s.mgmt.phase with | .full => true | .minimal _ => true | _ => false

/-- UNDERVOLTAGE_STOP (R20). -/
def execUndervoltageStop (s : State) : Out := .next (if running s then stopAll s else s)

/-- INPUT_BELOW_40V (R20). -/
def execInputBelow40v (s : State) : Out := .next { s with mgmt := { s.mgmt with reachable := false } }

/-! ## Coolant and power (01 R14, R21, R22) -/

/-- A millisecond of the nominal clock (DESIGN CHOICE, log entry 4). -/
def millisecond : Nat := 1000 * microsecond

/-- The coolant's clock limit one step down or up (DEDUCED, log entry 49). -/
def thermalTo (s : State) (mhz : Nat) : State := retime { s with mgmt := { s.mgmt with thermalClock := mhz, lastThermal := s.now } }

/-- THERMAL_STEP (R21): the hottest die sensor, in °C; the millisecond bounds the steps of the clock, not the stop (DEDUCED, log entry 49). -/
def execThermalStep (temp : Int) (s : State) : Out :=
  let m := s.mgmt
  .next (
    if !running s then s
    else if 105 ≤ temp || (95 < temp && m.clock ≤ 2000) then stopAll s
    else if s.now < m.lastThermal + millisecond then s
    else if 95 < temp then mark (thermalTo s (m.thermalClock - 100)) 0x400 1
    else if temp < 90 && m.thermalClock < 4000 then thermalTo s (m.thermalClock + 100)
    else s)

/-- POWER_CAP_WINDOW (R22): the power drawn over the window, in watts, against the cap (DEDUCED, log entry 49). -/
def execPowerCapWindow (watts : Nat) (s : State) : Out :=
  let m := s.mgmt
  let above := m.cap < watts
  .next (
    if !running s || s.now < m.lastPower + millisecond then s
    else
      let s := { s with mgmt := { m with lastPower := s.now } }
      let set := fun (n : Nat) => retime { s with mgmt := { s.mgmt with powerClock := n } }
      if above then
        if 2000 < m.powerClock then mark (set (m.powerClock - 100)) 0x400 1 else { s with mgmt := { s.mgmt with idleOn := true } }
      else if m.idleOn then { s with mgmt := { s.mgmt with idleOn := false } }
      else if m.powerClock < 4000 then set (m.powerClock + 100)
      else s)

/-- SET_POWER_CAP (R22): 1,500 W to 3,600 W. -/
def execSetPowerCap (watts : Nat) (s : State) : Out :=
  .next (
    if !mgmtUp s then s
    else if 1500 ≤ watts && watts ≤ 3600 then answer { s with mgmt := { s.mgmt with cap := watts } } 0 0#64
    else answer s 1 0#64)

end Sys2Proof.Machine
end

