-- ==== Sys2Proof/Machine/Tile.lean ====
section
/-!
DEFINITION. Tile nodes (13 R328, R329): a ready tile node is run whole, by the microsequencer of one slath, in one step.
-/

namespace Sys2Proof.Machine

open Sys2Proof

/-- The fields of a tile node (R328). -/
structure Tile where
  tensors : Nat
  ta : Nat
  tb : Nat
  tc : Nat
  nk : Nat
  i0 : Nat
  j0 : Nat
  k0 : Nat
  zero : Bool
  mode : RMode
deriving DecidableEq, Repr, Inhabited

/-- The rounding of a tile node's store: 001 rn to 100 rd. -/
def tileMode (code : Nat) : RMode :=
  match code with
  | 2 => .rz
  | 3 => .ru
  | 4 => .rd
  | _ => .rn

def tileOf (raw : Nat) : Tile :=
  { tensors := bits raw 384 64, ta := bits raw 376 8, tb := bits raw 368 8, tc := bits raw 360 8, nk := bits raw 352 8,
    i0 := bits raw 320 32, j0 := bits raw 288 32, k0 := bits raw 256 32, zero := bits raw 251 1 == 1, mode := tileMode (bits raw 248 3) }

/-- The engine that a tile node runs on: global accesses of its virtual function, no window, no counter. -/
def tileEng (c vf : Nat) : Eng :=
  { c := c, q := 2, m := { op := .rzero 0, issuer := .handler c, inst := 0, pc := 0#64, prio := 0#16, tid := 0, ctr := none, seq := 0, window := [],
                           fault := none, started := false, held := false },
    serial := none, vf := vf, trail := false }

/-- One operand of a tile node loaded: the record, the causes of `stk.ld`, the descriptor, the box. -/
def tileLoad (g : Eng) (t : Tile) (u tx : Nat) (xs : List Nat) (s : State) : Except Cause Unit × State :=
  match readRec (homeRd g) s (t.tensors + 64 * tx) with
  | (.error c, s) => (.error c, s)
  | (.ok (r, _), s) =>
    if !(stkCauses r xs 2).isEmpty then (.error (cBOUNDS, 0), s)
    else loadBox g (homeRd g) u tx r xs (onCore s g.c (fun x => loadSlot x u tx r xs))

/-- One product of a tile node: both operands loaded at depth `kt`, then the tile. -/
def tileProduct (g : Eng) (t : Tile) (sa sb rim kt : Nat) (s : State) : Except Cause Unit × State :=
  match tileLoad g t sa t.ta [kt, t.i0, 0, 0, 0] s with
  | (.error c, s) => (.error c, s)
  | (.ok _, s) =>
    match tileLoad g t sb t.tb [kt, t.j0, 0, 0, 0] s with
    | (.error c, s) => (.error c, s)
    | (.ok _, s) =>
      if blocksClash (getCore s g.c) sa sb then (.error (cBOUNDS, 0), s)
      else (.ok (), onCore s g.c (fun x => tileAct x rim sa sb 12 false))

/-- The products of a tile node, from depth `kt` on; each moves the depth by the tile's K. -/
def tileSteps (g : Eng) (t : Tile) (sa sb rim : Nat) : Nat → Nat → State → Except Cause Unit × State
  | 0, _, s => (.ok (), s)
  | n + 1, kt, s =>
    match tileProduct g t sa sb rim kt s with
    | (.error c, s) => (.error c, s)
    | (.ok _, s) =>
      let x := getCore s g.c
      tileSteps g t sa sb rim n (kt + tileDepth (getSlot x sa).kept (getSlot x sb).kept) s

/-- The whole window of a rim tile. -/
def wholeRim : RimWin := { row := 0, col := 0, er := 7, ec := 7 }

/-- What a tile node starts from: zero, or C. -/
def tileFirst (g : Eng) (t : Tile) (rim : Nat) (s : State) : Except Cause Unit × State :=
  if t.zero then (.ok (), onCore s g.c (fun x => putRim x rim { getRim x rim with els := [], written := true, bad := false }))
  else
    match readRec (homeRd g) s (t.tensors + 64 * t.tc) with
    | (.error c, s) => (.error c, s)
    | (.ok (r, _), s) =>
      let xs := [t.j0, t.i0, 0, 0, 0]
      match lowestCode (rimCauses r none wholeRim false false xs 0) with
      | some c => (.error (c, 0), s)
      | none => loadWin g (homeRd g) rim r xs wholeRim .rn s

/-- The store of a tile node's result to C. -/
def tileLast (g : Eng) (t : Tile) (rim : Nat) (s : State) : Except Cause Unit × State :=
  match readRec (homeRd g) s (t.tensors + 64 * t.tc) with
  | (.error c, s) => (.error c, s)
  | (.ok (r, _), s) =>
    let xs := [t.j0, t.i0, 0, 0, 0]
    match lowestCode (rimCauses r none wholeRim false true xs 0) with
    | some c => (.error (c, 0), s)
    | none => storeWin g rim r xs wholeRim t.mode s

/-- The steps of a tile node in order (R329) (DEDUCED, log entry 45). -/
def tileRun (g : Eng) (t : Tile) (sa sb rim : Nat) (s : State) : Except Cause Unit × State :=
  match tileFirst g t rim s with
  | (.error c, s) => (.error c, s)
  | (.ok _, s) =>
    match tileSteps g t sa sb rim t.nk t.k0 s with
    | (.error c, s) => (.error c, s)
    | (.ok _, s) => tileLast g t rim s

/-! ## Which runs -/

/-- The tile node that is served next in a partition (R99), where the node served next is one (DEDUCED, log entry 45). -/
def topTile (s : State) (p : Nat) : Option Ready :=
  match nextServed s p with
  | some c => if c.header.isNone then (getPart s p).ready.find? (fun r => r.seq == c.seq) else none
  | none => none

/-! ## How it ends -/

/-- The units of a tile node released. -/
def tileFree (s : State) (c a b r : Nat) : State := onCore s c (fun x => freeUnits (freeUnits (freeUnits x a 1) b 1) (32 + r) 1)

/-- A failed tile node: status 4 and the notice (R329; 17 R372). -/
def tileFail (s : State) (r : Ready) (lsn reason cause : Nat) : State :=
  send (writeStatus s r.vf r.addr 4) (.notice r.vf (noticeBytes 2 reason cause 0 r.node.tag r.addr (BitVec.ofNat 64 lsn) 0))

/-- A tile node that consumed uncorrectable data (20 R397). -/
def tilePoison (s : State) (p : Nat) (r : Ready) (c lsn : Nat) : State :=
  let name := BitVec.ofNat 128 (lsn * 2 ^ 64)
  if r.node.restartable && r.requeues < 3 then
    enqueue (record s (poisonEntry s c name 1)) p r.vf r.addr (r.requeues + 1) r.node r.header
  else tileFail (record s (poisonEntry s c name 2)) r lsn 17 cPOISON

/-- The node taken from the queue, with status 2 and its launch serial; the units are the node's. -/
def tileBegin (s : State) (p : Nat) (r : Ready) (c rim : Nat) : State :=
  let s := leaveQueue (writeStatus s r.vf r.addr 2) p r
  let s := onCore s c (fun x => putRim x rim { getRim x rim with holder := .tileNode })
  markPart { s with nextLsn := s.nextLsn + 1 } p 0x206 1

/-- A ready tile node run on a core. A restartable node that fails leaves memory and the caches as they stood (DEDUCED, log entry 45). -/
def runTile (s : State) (p : Nat) (r : Ready) (c a b rim : Nat) : State :=
  let lsn := s.nextLsn
  let s := tileBegin s p r c rim
  match tileRun (tileEng c r.vf) (tileOf r.node.raw) a b rim s with
  | (.ok _, s') => tileFree (finishNode s' r.vf r.addr p r.node (BitVec.ofNat 64 lsn)) c a b rim
  | (.error e, s') =>
    let s' := if r.node.restartable then { s with seq := s'.seq } else s'
    let s' := tileFree s' c a b rim
    if e.1 = cPOISON then tilePoison s' p r c lsn else tileFail s' r lsn 16 e.1

/-- TILE_NODE_RUN (R329) (DEDUCED, log entry 45). -/
def execTileNodeRun (part : Nat) (s : State) : Out :=
  .next (match topTile s part with
    | none => s
    | some r =>
      match tileCore s part r.vf with
      | none => s
      | some (c, a, b, rim) => runTile s part r c a b rim)

end Sys2Proof.Machine
end

