-- ==== Sys2Proof/Machine/UniformAlu.lean ====
section
/-!
DEFINITION. The arithmetic forms of the uniform set (11, 12; uniform class 00).
-/

namespace Sys2Proof.Machine

open Sys2Proof

/-- U_ADD_32 (R268): Uniform 32-bit add. -/
def execUAdd32 (f : UniR) (s : State) : Out :=
  uniAlu (uformR { key := 256, td := .w32, ta := .w32, tb := .w32, occ := 1, draws := 0, traps := false } (fn2 (op32 (· + ·))) f) false s

/-- U_SUB_32 (R268): Uniform 32-bit subtract. -/
def execUSub32 (f : UniR) (s : State) : Out :=
  uniAlu (uformR { key := 257, td := .w32, ta := .w32, tb := .w32, occ := 1, draws := 0, traps := false } (fn2 (op32 (· - ·))) f) false s

/-- U_MUL_32 (R268): Uniform 32-bit multiply. -/
def execUMul32 (f : UniR) (s : State) : Out :=
  uniAlu (uformR { key := 258, td := .w32, ta := .w32, tb := .w32, occ := 1, draws := 0, traps := false } (fn2 (op32 (· * ·))) f) false s

/-- U_MULHI_N32 (R269): Uniform unsigned high product. -/
def execUMulhiN32 (f : UniR) (s : State) : Out :=
  uniAlu (uformR { key := 259, td := .w32, ta := .w32, tb := .w32, occ := 1, draws := 0, traps := false } (fn2 (op32 mulhiN)) f) false s

/-- U_MULHI_I32 (R269): Uniform signed high product. -/
def execUMulhiI32 (f : UniR) (s : State) : Out :=
  uniAlu (uformR { key := 260, td := .w32, ta := .w32, tb := .w32, occ := 1, draws := 0, traps := false } (fn2 (op32 mulhiI)) f) false s

/-- U_IDIV_N32 (R271): Uniform unsigned division. -/
def execUIdivN32 (f : UniR) (s : State) : Out :=
  uniAlu (uformR { key := 261, td := .w32, ta := .w32, tb := .w32, occ := 4, draws := 0, traps := false } (fn2 idivN32) f) false s

/-- U_IDIV_I32 (R271): Uniform signed division. -/
def execUIdivI32 (f : UniR) (s : State) : Out :=
  uniAlu (uformR { key := 262, td := .w32, ta := .w32, tb := .w32, occ := 4, draws := 0, traps := false } (fn2 idivI32) f) false s

/-- U_REM_N32 (R271): Uniform unsigned remainder. -/
def execURemN32 (f : UniR) (s : State) : Out :=
  uniAlu (uformR { key := 263, td := .w32, ta := .w32, tb := .w32, occ := 4, draws := 0, traps := false } (fn2 remN32) f) false s

/-- U_REM_I32 (R271): Uniform signed remainder. -/
def execURemI32 (f : UniR) (s : State) : Out :=
  uniAlu (uformR { key := 264, td := .w32, ta := .w32, tb := .w32, occ := 4, draws := 0, traps := false } (fn2 remI32) f) false s

/-- U_AND_B32 (R273): Uniform and. -/
def execUAndB32 (f : UniR) (s : State) : Out :=
  uniAlu (uformR { key := 265, td := .w32, ta := .w32, tb := .w32, occ := 1, draws := 0, traps := false } (fn2 (op32 (· &&& ·))) f) false s

/-- U_OR_B32 (R273): Uniform or. -/
def execUOrB32 (f : UniR) (s : State) : Out :=
  uniAlu (uformR { key := 266, td := .w32, ta := .w32, tb := .w32, occ := 1, draws := 0, traps := false } (fn2 (op32 (· ||| ·))) f) false s

/-- U_XOR_B32 (R273): Uniform xor. -/
def execUXorB32 (f : UniR) (s : State) : Out :=
  uniAlu (uformR { key := 267, td := .w32, ta := .w32, tb := .w32, occ := 1, draws := 0, traps := false } (fn2 (op32 (· ^^^ ·))) f) false s

/-- U_SHL_B32 (R274): Uniform shift left. -/
def execUShlB32 (f : UniR) (s : State) : Out :=
  uniAlu (uformR { key := 268, td := .w32, ta := .w32, tb := .w32, occ := 1, draws := 0, traps := false } (fn2 shlB32) f) false s

/-- U_SHR_B32 (R274): Uniform logical shift right. -/
def execUShrB32 (f : UniR) (s : State) : Out :=
  uniAlu (uformR { key := 269, td := .w32, ta := .w32, tb := .w32, occ := 1, draws := 0, traps := false } (fn2 shrB32) f) false s

/-- U_SAR_B32 (R274): Uniform arithmetic shift right. -/
def execUSarB32 (f : UniR) (s : State) : Out :=
  uniAlu (uformR { key := 270, td := .w32, ta := .w32, tb := .w32, occ := 1, draws := 0, traps := false } (fn2 sarB32) f) false s

/-- U_MIN_N32 (R272): Uniform unsigned minimum. -/
def execUMinN32 (f : UniR) (s : State) : Out :=
  uniAlu (uformR { key := 271, td := .w32, ta := .w32, tb := .w32, occ := 1, draws := 0, traps := false } (fn2 (op32 minN)) f) false s

/-- U_MIN_I32 (R272): Uniform signed minimum. -/
def execUMinI32 (f : UniR) (s : State) : Out :=
  uniAlu (uformR { key := 272, td := .w32, ta := .w32, tb := .w32, occ := 1, draws := 0, traps := false } (fn2 (op32 minI)) f) false s

/-- U_MAX_N32 (R272): Uniform unsigned maximum. -/
def execUMaxN32 (f : UniR) (s : State) : Out :=
  uniAlu (uformR { key := 273, td := .w32, ta := .w32, tb := .w32, occ := 1, draws := 0, traps := false } (fn2 (op32 maxN)) f) false s

/-- U_MAX_I32 (R272): Uniform signed maximum. -/
def execUMaxI32 (f : UniR) (s : State) : Out :=
  uniAlu (uformR { key := 274, td := .w32, ta := .w32, tb := .w32, occ := 1, draws := 0, traps := false } (fn2 (op32 maxI)) f) false s

/-- U_ADD_64 (R268): Uniform 64-bit add. -/
def execUAdd64 (f : UniR) (s : State) : Out :=
  uniAlu (uformR { key := 275, td := .w64, ta := .w64, tb := .w64, occ := 1, draws := 0, traps := false } (fn2 (op64 (· + ·))) f) false s

/-- U_SUB_64 (R268): Uniform 64-bit subtract. -/
def execUSub64 (f : UniR) (s : State) : Out :=
  uniAlu (uformR { key := 276, td := .w64, ta := .w64, tb := .w64, occ := 1, draws := 0, traps := false } (fn2 (op64 (· - ·))) f) false s

/-- U_MUL_64 (R268): Uniform 64-bit multiply. -/
def execUMul64 (f : UniR) (s : State) : Out :=
  uniAlu (uformR { key := 277, td := .w64, ta := .w64, tb := .w64, occ := 1, draws := 0, traps := false } (fn2 (op64 (· * ·))) f) false s

/-- U_SHL_B64 (R274): Uniform 64-bit shift left. -/
def execUShlB64 (f : UniR) (s : State) : Out :=
  uniAlu (uformR { key := 278, td := .w64, ta := .w64, tb := .w32, occ := 1, draws := 0, traps := false } (fn2 shlB64) f) false s

/-- U_SHR_B64 (R274): Uniform 64-bit logical shift right. -/
def execUShrB64 (f : UniR) (s : State) : Out :=
  uniAlu (uformR { key := 279, td := .w64, ta := .w64, tb := .w32, occ := 1, draws := 0, traps := false } (fn2 shrB64) f) false s

/-- U_CMP_N32 (R281): Uniform unsigned compare writing q. -/
def execUCmpN32 (f : UniP) (s : State) : Out :=
  uniAlu (uformP { key := 280, td := .w32, ta := .w32, tb := .w32, occ := 1, draws := 0, traps := false } (fun c => cmpFn (cmpN32 c)) f) false s

/-- U_CMP_I32 (R281): Uniform signed compare. -/
def execUCmpI32 (f : UniP) (s : State) : Out :=
  uniAlu (uformP { key := 281, td := .w32, ta := .w32, tb := .w32, occ := 1, draws := 0, traps := false } (fun c => cmpFn (cmpI32 c)) f) false s

/-- U_CMP_N64 (R281): Uniform unsigned 64-bit compare. -/
def execUCmpN64 (f : UniP) (s : State) : Out :=
  uniAlu (uformP { key := 282, td := .w64, ta := .w64, tb := .w64, occ := 1, draws := 0, traps := false } (fun c => cmpFn (cmpN64 c)) f) false s

/-- U_CMP_I64 (R281): Uniform signed 64-bit compare. -/
def execUCmpI64 (f : UniP) (s : State) : Out :=
  uniAlu (uformP { key := 283, td := .w64, ta := .w64, tb := .w64, occ := 1, draws := 0, traps := false } (fun c => cmpFn (cmpI64 c)) f) false s

/-- U_PLOG (R282): Uniform predicate logic on q registers. -/
def execUPlog (f : UniPlog) (s : State) : Out :=
  uniAlu (uformPlog f) false s

/-- U_MOV_B32 (R278): Uniform 32-bit move, also to $mode or $flags. -/
def execUMovB32 (f : UniR1) (s : State) : Out :=
  uniAlu (uformR1 { key := 285, td := .w32, ta := .w32, tb := .w32, occ := 1, draws := 0, traps := false } (fn1 movB32) f) true s

/-- U_MOV_B64 (R278): Uniform 64-bit move. -/
def execUMovB64 (f : UniR1) (s : State) : Out :=
  uniAlu (uformR1 { key := 286, td := .w64, ta := .w64, tb := .w64, occ := 1, draws := 0, traps := false } (fn1 movB64) f) true s

/-- U_POPC_B32 (R275): Uniform population count. -/
def execUPopcB32 (f : UniR1) (s : State) : Out :=
  uniAlu (uformR1 { key := 287, td := .w32, ta := .w32, tb := .w32, occ := 1, draws := 0, traps := false } (fn1 popcB32) f) false s

/-- U_ADD_32_X (R268): Uniform two-word add. -/
def execUAdd32X (f : UniX) (s : State) : Out :=
  uniAlu (uformX { key := 288, td := .w32, ta := .w32, tb := .w32, occ := 1, draws := 0, traps := false } (fn2 (op32 (· + ·))) f) false s

/-- U_SUB_32_X (R268): Uniform two-word subtract. -/
def execUSub32X (f : UniX) (s : State) : Out :=
  uniAlu (uformX { key := 289, td := .w32, ta := .w32, tb := .w32, occ := 1, draws := 0, traps := false } (fn2 (op32 (· - ·))) f) false s

/-- U_MUL_32_X (R268): Uniform two-word multiply. -/
def execUMul32X (f : UniX) (s : State) : Out :=
  uniAlu (uformX { key := 290, td := .w32, ta := .w32, tb := .w32, occ := 1, draws := 0, traps := false } (fn2 (op32 (· * ·))) f) false s

/-- U_AND_B32_X (R273): Uniform two-word and. -/
def execUAndB32X (f : UniX) (s : State) : Out :=
  uniAlu (uformX { key := 291, td := .w32, ta := .w32, tb := .w32, occ := 1, draws := 0, traps := false } (fn2 (op32 (· &&& ·))) f) false s

/-- U_OR_B32_X (R273): Uniform two-word or. -/
def execUOrB32X (f : UniX) (s : State) : Out :=
  uniAlu (uformX { key := 292, td := .w32, ta := .w32, tb := .w32, occ := 1, draws := 0, traps := false } (fn2 (op32 (· ||| ·))) f) false s

/-- U_XOR_B32_X (R273): Uniform two-word xor. -/
def execUXorB32X (f : UniX) (s : State) : Out :=
  uniAlu (uformX { key := 293, td := .w32, ta := .w32, tb := .w32, occ := 1, draws := 0, traps := false } (fn2 (op32 (· ^^^ ·))) f) false s

/-- U_SHL_B32_X (R274): Uniform two-word shift left. -/
def execUShlB32X (f : UniX) (s : State) : Out :=
  uniAlu (uformX { key := 294, td := .w32, ta := .w32, tb := .w32, occ := 1, draws := 0, traps := false } (fn2 shlB32) f) false s

/-- U_SHR_B32_X (R274): Uniform two-word logical shift right. -/
def execUShrB32X (f : UniX) (s : State) : Out :=
  uniAlu (uformX { key := 295, td := .w32, ta := .w32, tb := .w32, occ := 1, draws := 0, traps := false } (fn2 shrB32) f) false s

/-- U_SAR_B32_X (R274): Uniform two-word arithmetic shift right. -/
def execUSarB32X (f : UniX) (s : State) : Out :=
  uniAlu (uformX { key := 296, td := .w32, ta := .w32, tb := .w32, occ := 1, draws := 0, traps := false } (fn2 sarB32) f) false s

/-- U_MIN_N32_X (R272): Uniform two-word unsigned minimum. -/
def execUMinN32X (f : UniX) (s : State) : Out :=
  uniAlu (uformX { key := 297, td := .w32, ta := .w32, tb := .w32, occ := 1, draws := 0, traps := false } (fn2 (op32 minN)) f) false s

/-- U_MIN_I32_X (R272): Uniform two-word signed minimum. -/
def execUMinI32X (f : UniX) (s : State) : Out :=
  uniAlu (uformX { key := 298, td := .w32, ta := .w32, tb := .w32, occ := 1, draws := 0, traps := false } (fn2 (op32 minI)) f) false s

/-- U_MAX_N32_X (R272): Uniform two-word unsigned maximum. -/
def execUMaxN32X (f : UniX) (s : State) : Out :=
  uniAlu (uformX { key := 299, td := .w32, ta := .w32, tb := .w32, occ := 1, draws := 0, traps := false } (fn2 (op32 maxN)) f) false s

/-- U_MAX_I32_X (R272): Uniform two-word signed maximum. -/
def execUMaxI32X (f : UniX) (s : State) : Out :=
  uniAlu (uformX { key := 300, td := .w32, ta := .w32, tb := .w32, occ := 1, draws := 0, traps := false } (fn2 (op32 maxI)) f) false s

/-- U_ADD_64_X (R268): Uniform two-word 64-bit add. -/
def execUAdd64X (f : UniX) (s : State) : Out :=
  uniAlu (uformX { key := 301, td := .w64, ta := .w64, tb := .w64, occ := 1, draws := 0, traps := false } (fn2 (op64 (· + ·))) f) false s

/-- U_CMP_N32_X (R281): Uniform two-word unsigned compare. -/
def execUCmpN32X (f : UniXP) (s : State) : Out :=
  uniAlu (uformXP { key := 302, td := .w32, ta := .w32, tb := .w32, occ := 1, draws := 0, traps := false } (fun c => cmpFn (cmpN32 c)) f) false s

/-- U_CMP_I32_X (R281): Uniform two-word signed compare. -/
def execUCmpI32X (f : UniXP) (s : State) : Out :=
  uniAlu (uformXP { key := 303, td := .w32, ta := .w32, tb := .w32, occ := 1, draws := 0, traps := false } (fun c => cmpFn (cmpI32 c)) f) false s

/-- U_CMP_N64_X (R281): Uniform two-word unsigned 64-bit compare. -/
def execUCmpN64X (f : UniXP) (s : State) : Out :=
  uniAlu (uformXP { key := 304, td := .w64, ta := .w64, tb := .w64, occ := 1, draws := 0, traps := false } (fun c => cmpFn (cmpN64 c)) f) false s

/-- U_CMP_I64_X (R281): Uniform two-word signed 64-bit compare. -/
def execUCmpI64X (f : UniXP) (s : State) : Out :=
  uniAlu (uformXP { key := 305, td := .w64, ta := .w64, tb := .w64, occ := 1, draws := 0, traps := false } (fun c => cmpFn (cmpI64 c)) f) false s

/-- U_MOV_B32_X (R278): Uniform two-word move of a literal. -/
def execUMovB32X (f : UniX1) (s : State) : Out :=
  uniAlu (uformX1 { key := 306, td := .w32, ta := .w32, tb := .w32, occ := 1, draws := 0, traps := false } (fn1 movB32) f) true s

/-- U_MOV_B64_X (R278): Uniform two-word 64-bit move of a literal. -/
def execUMovB64X (f : UniX1) (s : State) : Out :=
  uniAlu (uformX1 { key := 307, td := .w64, ta := .w64, tb := .w64, occ := 1, draws := 0, traps := false } (fn1 movB64) f) true s

/-- U_SEL_B32 (R279): Uniform select by q predicate. -/
def execUSelB32 (f : UniSel) (s : State) : Out :=
  uniAlu (uformSel { key := 308, td := .w32, ta := .w32, tb := .w32, occ := 1, draws := 0, traps := false } f) false s

/-- U_SEL_B64 (R279): Uniform 64-bit select. -/
def execUSelB64 (f : UniSel) (s : State) : Out :=
  uniAlu (uformSel { key := 309, td := .w64, ta := .w64, tb := .w64, occ := 1, draws := 0, traps := false } f) false s

/-- U_BFE_N32 (R276): Uniform unsigned bit-field extract. -/
def execUBfeN32 (f : UniX) (s : State) : Out :=
  uniAlu (uformX { key := 310, td := .w32, ta := .w32, tb := .w32, occ := 1, draws := 0, traps := false } (fn2 (bfe false)) f) false s

/-- U_MAD_32 (R268): Uniform multiply-add. -/
def execUMad32 (f : UniX3) (s : State) : Out :=
  uniAlu (uformX3 { key := 311, td := .w32, ta := .w32, tb := .w32, occ := 1, draws := 0, traps := false } (fn3 (fun a b c => (z64 (lo32 a * lo32 b + lo32 c), 0#6))) f) false s

/-- U_FADD_F32 (R292): Uniform FP32 add. -/
def execUFaddF32 (f : UniX) (s : State) : Out :=
  uniAlu (uformX { key := 312, td := .f32, ta := .f32, tb := .f32, occ := 1, draws := 1, traps := true } (rn2 (faddT .f32)) f) false s

/-- U_FMUL_F32 (R292): Uniform FP32 multiply. -/
def execUFmulF32 (f : UniX) (s : State) : Out :=
  uniAlu (uformX { key := 313, td := .f32, ta := .f32, tb := .f32, occ := 1, draws := 1, traps := true } (rn2 (fmulT .f32)) f) false s

/-- U_FFMA_F32 (R292): Uniform FP32 fused multiply-add. -/
def execUFfmaF32 (f : UniX3) (s : State) : Out :=
  uniAlu (uformX3 { key := 314, td := .f32, ta := .f32, tb := .f32, occ := 1, draws := 1, traps := true } (ffmaT .f32) f) false s

/-- U_FCMP_F32 (R294): Uniform FP32 compare. -/
def execUFcmpF32 (f : UniXP) (s : State) : Out :=
  uniAlu (uformXP { key := 315, td := .f32, ta := .f32, tb := .f32, occ := 1, draws := 0, traps := true } (fcmpFn .f32) f) false s

/-- U_FADD_F64 (R292): Uniform FP64 add. -/
def execUFaddF64 (f : UniX) (s : State) : Out :=
  uniAlu (uformX { key := 316, td := .f64, ta := .f64, tb := .f64, occ := 1, draws := 1, traps := true } (rn2 (faddT .f64)) f) false s

/-- U_FMUL_F64 (R292): Uniform FP64 multiply. -/
def execUFmulF64 (f : UniX) (s : State) : Out :=
  uniAlu (uformX { key := 317, td := .f64, ta := .f64, tb := .f64, occ := 1, draws := 1, traps := true } (rn2 (fmulT .f64)) f) false s

/-- U_FFMA_F64 (R292): Uniform FP64 fused multiply-add. -/
def execUFfmaF64 (f : UniX3) (s : State) : Out :=
  uniAlu (uformX3 { key := 318, td := .f64, ta := .f64, tb := .f64, occ := 1, draws := 1, traps := true } (ffmaT .f64) f) false s

/-- U_CVT (R299): Uniform conversion. -/
def execUCvt (f : UniCvt) (s : State) : Out :=
  uniAlu (uformCvt 319 f) false s

end Sys2Proof.Machine
end

