-- ==== Sys2Proof/Machine/Dispatch.lean ====
section
/-!
DEFINITION. The meaning of every instruction and of every event of spec/opcode_table.json: one arm per constructor of Instr.
-/

namespace Sys2Proof.Machine

open Sys2Proof

/-- One step of an instruction or event. -/
def exec (i : Instr) (s : State) : Host.Outcome State Fault Refusal :=
  match i with
  | .add32 f => Sys2Proof.Machine.execAdd32 f s
  | .sub32 f => Sys2Proof.Machine.execSub32 f s
  | .mul32 f => Sys2Proof.Machine.execMul32 f s
  | .mulhiN32 f => Sys2Proof.Machine.execMulhiN32 f s
  | .mulhiI32 f => Sys2Proof.Machine.execMulhiI32 f s
  | .idivN32 f => Sys2Proof.Machine.execIdivN32 f s
  | .idivI32 f => Sys2Proof.Machine.execIdivI32 f s
  | .remN32 f => Sys2Proof.Machine.execRemN32 f s
  | .remI32 f => Sys2Proof.Machine.execRemI32 f s
  | .addSatN32 f => Sys2Proof.Machine.execAddSatN32 f s
  | .addSatI32 f => Sys2Proof.Machine.execAddSatI32 f s
  | .subSatN32 f => Sys2Proof.Machine.execSubSatN32 f s
  | .subSatI32 f => Sys2Proof.Machine.execSubSatI32 f s
  | .minN32 f => Sys2Proof.Machine.execMinN32 f s
  | .minI32 f => Sys2Proof.Machine.execMinI32 f s
  | .maxN32 f => Sys2Proof.Machine.execMaxN32 f s
  | .maxI32 f => Sys2Proof.Machine.execMaxI32 f s
  | .andB32 f => Sys2Proof.Machine.execAndB32 f s
  | .orB32 f => Sys2Proof.Machine.execOrB32 f s
  | .xorB32 f => Sys2Proof.Machine.execXorB32 f s
  | .andnB32 f => Sys2Proof.Machine.execAndnB32 f s
  | .shlB32 f => Sys2Proof.Machine.execShlB32 f s
  | .shrB32 f => Sys2Proof.Machine.execShrB32 f s
  | .sarB32 f => Sys2Proof.Machine.execSarB32 f s
  | .add64 f => Sys2Proof.Machine.execAdd64 f s
  | .sub64 f => Sys2Proof.Machine.execSub64 f s
  | .mul64 f => Sys2Proof.Machine.execMul64 f s
  | .idivN64 f => Sys2Proof.Machine.execIdivN64 f s
  | .idivI64 f => Sys2Proof.Machine.execIdivI64 f s
  | .andB64 f => Sys2Proof.Machine.execAndB64 f s
  | .orB64 f => Sys2Proof.Machine.execOrB64 f s
  | .xorB64 f => Sys2Proof.Machine.execXorB64 f s
  | .shlB64 f => Sys2Proof.Machine.execShlB64 f s
  | .shrB64 f => Sys2Proof.Machine.execShrB64 f s
  | .sarB64 f => Sys2Proof.Machine.execSarB64 f s
  | .cmpN32 f => Sys2Proof.Machine.execCmpN32 f s
  | .cmpI32 f => Sys2Proof.Machine.execCmpI32 f s
  | .cmpN64 f => Sys2Proof.Machine.execCmpN64 f s
  | .cmpI64 f => Sys2Proof.Machine.execCmpI64 f s
  | .plog f => Sys2Proof.Machine.execPlog f s
  | .faddF32 f => Sys2Proof.Machine.execFaddF32 f s
  | .fsubF32 f => Sys2Proof.Machine.execFsubF32 f s
  | .fmulF32 f => Sys2Proof.Machine.execFmulF32 f s
  | .fminF32 f => Sys2Proof.Machine.execFminF32 f s
  | .fmaxF32 f => Sys2Proof.Machine.execFmaxF32 f s
  | .fcmpF32 f => Sys2Proof.Machine.execFcmpF32 f s
  | .fdivF32 f => Sys2Proof.Machine.execFdivF32 f s
  | .fsqrtF32 f => Sys2Proof.Machine.execFsqrtF32 f s
  | .faddF64 f => Sys2Proof.Machine.execFaddF64 f s
  | .fsubF64 f => Sys2Proof.Machine.execFsubF64 f s
  | .fmulF64 f => Sys2Proof.Machine.execFmulF64 f s
  | .fminF64 f => Sys2Proof.Machine.execFminF64 f s
  | .fmaxF64 f => Sys2Proof.Machine.execFmaxF64 f s
  | .fcmpF64 f => Sys2Proof.Machine.execFcmpF64 f s
  | .fdivF64 f => Sys2Proof.Machine.execFdivF64 f s
  | .fsqrtF64 f => Sys2Proof.Machine.execFsqrtF64 f s
  | .popcB32 f => Sys2Proof.Machine.execPopcB32 f s
  | .clzB32 f => Sys2Proof.Machine.execClzB32 f s
  | .brevB32 f => Sys2Proof.Machine.execBrevB32 f s
  | .movB32 f => Sys2Proof.Machine.execMovB32 f s
  | .movB64 f => Sys2Proof.Machine.execMovB64 f s
  | .fclassF32 f => Sys2Proof.Machine.execFclassF32 f s
  | .fclassF64 f => Sys2Proof.Machine.execFclassF64 f s
  | .add32X f => Sys2Proof.Machine.execAdd32X f s
  | .sub32X f => Sys2Proof.Machine.execSub32X f s
  | .mul32X f => Sys2Proof.Machine.execMul32X f s
  | .andB32X f => Sys2Proof.Machine.execAndB32X f s
  | .orB32X f => Sys2Proof.Machine.execOrB32X f s
  | .xorB32X f => Sys2Proof.Machine.execXorB32X f s
  | .andnB32X f => Sys2Proof.Machine.execAndnB32X f s
  | .shlB32X f => Sys2Proof.Machine.execShlB32X f s
  | .shrB32X f => Sys2Proof.Machine.execShrB32X f s
  | .sarB32X f => Sys2Proof.Machine.execSarB32X f s
  | .minN32X f => Sys2Proof.Machine.execMinN32X f s
  | .minI32X f => Sys2Proof.Machine.execMinI32X f s
  | .maxN32X f => Sys2Proof.Machine.execMaxN32X f s
  | .maxI32X f => Sys2Proof.Machine.execMaxI32X f s
  | .addSatN32X f => Sys2Proof.Machine.execAddSatN32X f s
  | .addSatI32X f => Sys2Proof.Machine.execAddSatI32X f s
  | .cmpN32X f => Sys2Proof.Machine.execCmpN32X f s
  | .cmpI32X f => Sys2Proof.Machine.execCmpI32X f s
  | .movB32X f => Sys2Proof.Machine.execMovB32X f s
  | .add64X f => Sys2Proof.Machine.execAdd64X f s
  | .sub64X f => Sys2Proof.Machine.execSub64X f s
  | .cmpN64X f => Sys2Proof.Machine.execCmpN64X f s
  | .cmpI64X f => Sys2Proof.Machine.execCmpI64X f s
  | .movB64X f => Sys2Proof.Machine.execMovB64X f s
  | .selB32 f => Sys2Proof.Machine.execSelB32 f s
  | .selB64 f => Sys2Proof.Machine.execSelB64 f s
  | .bfeN32 f => Sys2Proof.Machine.execBfeN32 f s
  | .bfeI32 f => Sys2Proof.Machine.execBfeI32 f s
  | .bfiB32 f => Sys2Proof.Machine.execBfiB32 f s
  | .mad32 f => Sys2Proof.Machine.execMad32 f s
  | .mad64 f => Sys2Proof.Machine.execMad64 f s
  | .shrrI32 f => Sys2Proof.Machine.execShrrI32 f s
  | .addI16x2 f => Sys2Proof.Machine.execAddI16x2 f s
  | .subI16x2 f => Sys2Proof.Machine.execSubI16x2 f s
  | .addSatI16x2 f => Sys2Proof.Machine.execAddSatI16x2 f s
  | .subSatI16x2 f => Sys2Proof.Machine.execSubSatI16x2 f s
  | .mulI16x2 f => Sys2Proof.Machine.execMulI16x2 f s
  | .minI16x2 f => Sys2Proof.Machine.execMinI16x2 f s
  | .maxI16x2 f => Sys2Proof.Machine.execMaxI16x2 f s
  | .packI16x2 f => Sys2Proof.Machine.execPackI16x2 f s
  | .pdot2I16x2 f => Sys2Proof.Machine.execPdot2I16x2 f s
  | .shrrSatI16 f => Sys2Proof.Machine.execShrrSatI16 f s
  | .addN8x4 f => Sys2Proof.Machine.execAddN8x4 f s
  | .subN8x4 f => Sys2Proof.Machine.execSubN8x4 f s
  | .addSatN8x4 f => Sys2Proof.Machine.execAddSatN8x4 f s
  | .subSatN8x4 f => Sys2Proof.Machine.execSubSatN8x4 f s
  | .minN8x4 f => Sys2Proof.Machine.execMinN8x4 f s
  | .maxN8x4 f => Sys2Proof.Machine.execMaxN8x4 f s
  | .faddF32X f => Sys2Proof.Machine.execFaddF32X f s
  | .fmulF32X f => Sys2Proof.Machine.execFmulF32X f s
  | .ffmaF32 f => Sys2Proof.Machine.execFfmaF32 f s
  | .fcmpF32X f => Sys2Proof.Machine.execFcmpF32X f s
  | .faddF64X f => Sys2Proof.Machine.execFaddF64X f s
  | .fmulF64X f => Sys2Proof.Machine.execFmulF64X f s
  | .ffmaF64 f => Sys2Proof.Machine.execFfmaF64 f s
  | .fcmpF64X f => Sys2Proof.Machine.execFcmpF64X f s
  | .faddF16x2 f => Sys2Proof.Machine.execFaddF16x2 f s
  | .fmulF16x2 f => Sys2Proof.Machine.execFmulF16x2 f s
  | .ffmaF16x2 f => Sys2Proof.Machine.execFfmaF16x2 f s
  | .faddBf16x2 f => Sys2Proof.Machine.execFaddBf16x2 f s
  | .fmulBf16x2 f => Sys2Proof.Machine.execFmulBf16x2 f s
  | .ffmaBf16x2 f => Sys2Proof.Machine.execFfmaBf16x2 f s
  | .fsubF32X f => Sys2Proof.Machine.execFsubF32X f s
  | .fsubF64X f => Sys2Proof.Machine.execFsubF64X f s
  | .ldGN8 f => Sys2Proof.Machine.execLdGN8 f s
  | .ldGI8 f => Sys2Proof.Machine.execLdGI8 f s
  | .ldGN16 f => Sys2Proof.Machine.execLdGN16 f s
  | .ldGI16 f => Sys2Proof.Machine.execLdGI16 f s
  | .ldGB32 f => Sys2Proof.Machine.execLdGB32 f s
  | .ldGB64 f => Sys2Proof.Machine.execLdGB64 f s
  | .ldGQual f q => Sys2Proof.Machine.execLdGQual f q s
  | .stGB8 f => Sys2Proof.Machine.execStGB8 f s
  | .stGB16 f => Sys2Proof.Machine.execStGB16 f s
  | .stGB32 f => Sys2Proof.Machine.execStGB32 f s
  | .stGB64 f => Sys2Proof.Machine.execStGB64 f s
  | .stGQual f q => Sys2Proof.Machine.execStGQual f q s
  | .ldkB32 f k => Sys2Proof.Machine.execLdkB32 f k s
  | .ldkB64 f k => Sys2Proof.Machine.execLdkB64 f k s
  | .ldt d x tx n f32 => Sys2Proof.Machine.execLdt d x tx n f32 s
  | .stt t x tx n f32 round => Sys2Proof.Machine.execStt t x tx n f32 round s
  | .ldCmN8 f => Sys2Proof.Machine.execLdCmN8 f s
  | .ldCmI8 f => Sys2Proof.Machine.execLdCmI8 f s
  | .ldCmN16 f => Sys2Proof.Machine.execLdCmN16 f s
  | .ldCmI16 f => Sys2Proof.Machine.execLdCmI16 f s
  | .ldCmB32 f => Sys2Proof.Machine.execLdCmB32 f s
  | .ldCmB64 f => Sys2Proof.Machine.execLdCmB64 f s
  | .ldCmQual f q => Sys2Proof.Machine.execLdCmQual f q s
  | .stCmB8 f => Sys2Proof.Machine.execStCmB8 f s
  | .stCmB16 f => Sys2Proof.Machine.execStCmB16 f s
  | .stCmB32 f => Sys2Proof.Machine.execStCmB32 f s
  | .stCmB64 f => Sys2Proof.Machine.execStCmB64 f s
  | .stCmQual f q => Sys2Proof.Machine.execStCmQual f q s
  | .atom f op q => Sys2Proof.Machine.execAtom f op q s
  | .atomCas f q => Sys2Proof.Machine.execAtomCas f q s
  | .fence k sc => Sys2Proof.Machine.execFence k sc s
  | .alloc d a t p => Sys2Proof.Machine.execAlloc d a t p s
  | .free a => Sys2Proof.Machine.execFree a s
  | .cpyIn f => Sys2Proof.Machine.execCpyIn f s
  | .cpyOut f => Sys2Proof.Machine.execCpyOut f s
  | .cpyG f => Sys2Proof.Machine.execCpyG f s
  | .waitc a b k => Sys2Proof.Machine.execWaitc a b k s
  | .qfence m => Sys2Proof.Machine.execQfence m s
  | .sclaim u n => Sys2Proof.Machine.execSclaim u n s
  | .srel u n => Sys2Proof.Machine.execSrel u n s
  | .stkLd ctr x slot tx n => Sys2Proof.Machine.execStkLd ctr x slot tx n s
  | .mtile f => Sys2Proof.Machine.execMtile f s
  | .rzero rim => Sys2Proof.Machine.execRzero rim s
  | .rimLd f => Sys2Proof.Machine.execRimLd f s
  | .rimSt f => Sys2Proof.Machine.execRimSt f s
  | .termrd d clr k => Sys2Proof.Machine.execTermrd d clr k s
  | .bra f => Sys2Proof.Machine.execBra f s
  | .brx a b k => Sys2Proof.Machine.execBrx a b k s
  | .switch a n => Sys2Proof.Machine.execSwitch a n s
  | .call f => Sys2Proof.Machine.execCall f s
  | .ret a => Sys2Proof.Machine.execRet a s
  | .exit => Sys2Proof.Machine.execExit s
  | .exitto a k => Sys2Proof.Machine.execExitto a k s
  | .rcb => Sys2Proof.Machine.execRcb s
  | .bar => Sys2Proof.Machine.execBar s
  | .join a b => Sys2Proof.Machine.execJoin a b s
  | .leave => Sys2Proof.Machine.execLeave s
  | .rgnOpen => Sys2Proof.Machine.execRgnOpen s
  | .rgnClose => Sys2Proof.Machine.execRgnClose s
  | .scope n => Sys2Proof.Machine.execScope n s
  | .endscope => Sys2Proof.Machine.execEndscope s
  | .wpush a => Sys2Proof.Machine.execWpush a s
  | .wpop d p => Sys2Proof.Machine.execWpop d p s
  | .sleep a k => Sys2Proof.Machine.execSleep a k s
  | .brk => Sys2Proof.Machine.execBrk s
  | .trap n => Sys2Proof.Machine.execTrap n s
  | .nop => Sys2Proof.Machine.execNop s
  | .calle r off x orig => Sys2Proof.Machine.execCalle r off x orig s
  | .calleRet r => Sys2Proof.Machine.execCalleRet r s
  | .lmode m => Sys2Proof.Machine.execLmode m s
  | .lstat d clr k => Sys2Proof.Machine.execLstat d clr k s
  | .shuf d a b => Sys2Proof.Machine.execShuf d a b s
  | .vote d m k => Sys2Proof.Machine.execVote d m k s
  | .red d a o => Sys2Proof.Machine.execRed d a o s
  | .bcast d a b => Sys2Proof.Machine.execBcast d a b s
  | .movs st c d a => Sys2Proof.Machine.execMovs st c d a s
  | .cvt f => Sys2Proof.Machine.execCvt f s
  | .rcpF32 f => Sys2Proof.Machine.execRcpF32 f s
  | .rcpF64 f => Sys2Proof.Machine.execRcpF64 f s
  | .rsqF32 f => Sys2Proof.Machine.execRsqF32 f s
  | .rsqF64 f => Sys2Proof.Machine.execRsqF64 f s
  | .exp2F32 f => Sys2Proof.Machine.execExp2F32 f s
  | .log2F32 f => Sys2Proof.Machine.execLog2F32 f s
  | .sinF32 f => Sys2Proof.Machine.execSinF32 f s
  | .cosF32 f => Sys2Proof.Machine.execCosF32 f s
  | .fminF16x2 f => Sys2Proof.Machine.execFminF16x2 f s
  | .fmaxF16x2 f => Sys2Proof.Machine.execFmaxF16x2 f s
  | .fminBf16x2 f => Sys2Proof.Machine.execFminBf16x2 f s
  | .fmaxBf16x2 f => Sys2Proof.Machine.execFmaxBf16x2 f s
  | .fcmpF16x2 cond p a b => Sys2Proof.Machine.execFcmpF16x2 cond p a b s
  | .fcmpBf16x2 cond p a b => Sys2Proof.Machine.execFcmpBf16x2 cond p a b s
  | .fclassF16x2 f => Sys2Proof.Machine.execFclassF16x2 f s
  | .fclassBf16x2 f => Sys2Proof.Machine.execFclassBf16x2 f s
  | .hclr h a k => Sys2Proof.Machine.execHclr h a k s
  | .hfma h n a b => Sys2Proof.Machine.execHfma h n a b s
  | .hfma3 h n a b vc g => Sys2Proof.Machine.execHfma3 h n a b vc g s
  | .hadd h n a => Sys2Proof.Machine.execHadd h n a s
  | .hsgn d h p => Sys2Proof.Machine.execHsgn d h p s
  | .hrnd d h => Sys2Proof.Machine.execHrnd d h s
  | .uAdd32 f => Sys2Proof.Machine.execUAdd32 f s
  | .uSub32 f => Sys2Proof.Machine.execUSub32 f s
  | .uMul32 f => Sys2Proof.Machine.execUMul32 f s
  | .uMulhiN32 f => Sys2Proof.Machine.execUMulhiN32 f s
  | .uMulhiI32 f => Sys2Proof.Machine.execUMulhiI32 f s
  | .uIdivN32 f => Sys2Proof.Machine.execUIdivN32 f s
  | .uIdivI32 f => Sys2Proof.Machine.execUIdivI32 f s
  | .uRemN32 f => Sys2Proof.Machine.execURemN32 f s
  | .uRemI32 f => Sys2Proof.Machine.execURemI32 f s
  | .uAndB32 f => Sys2Proof.Machine.execUAndB32 f s
  | .uOrB32 f => Sys2Proof.Machine.execUOrB32 f s
  | .uXorB32 f => Sys2Proof.Machine.execUXorB32 f s
  | .uShlB32 f => Sys2Proof.Machine.execUShlB32 f s
  | .uShrB32 f => Sys2Proof.Machine.execUShrB32 f s
  | .uSarB32 f => Sys2Proof.Machine.execUSarB32 f s
  | .uMinN32 f => Sys2Proof.Machine.execUMinN32 f s
  | .uMinI32 f => Sys2Proof.Machine.execUMinI32 f s
  | .uMaxN32 f => Sys2Proof.Machine.execUMaxN32 f s
  | .uMaxI32 f => Sys2Proof.Machine.execUMaxI32 f s
  | .uAdd64 f => Sys2Proof.Machine.execUAdd64 f s
  | .uSub64 f => Sys2Proof.Machine.execUSub64 f s
  | .uMul64 f => Sys2Proof.Machine.execUMul64 f s
  | .uShlB64 f => Sys2Proof.Machine.execUShlB64 f s
  | .uShrB64 f => Sys2Proof.Machine.execUShrB64 f s
  | .uCmpN32 f => Sys2Proof.Machine.execUCmpN32 f s
  | .uCmpI32 f => Sys2Proof.Machine.execUCmpI32 f s
  | .uCmpN64 f => Sys2Proof.Machine.execUCmpN64 f s
  | .uCmpI64 f => Sys2Proof.Machine.execUCmpI64 f s
  | .uPlog f => Sys2Proof.Machine.execUPlog f s
  | .uMovB32 f => Sys2Proof.Machine.execUMovB32 f s
  | .uMovB64 f => Sys2Proof.Machine.execUMovB64 f s
  | .uPopcB32 f => Sys2Proof.Machine.execUPopcB32 f s
  | .uAdd32X f => Sys2Proof.Machine.execUAdd32X f s
  | .uSub32X f => Sys2Proof.Machine.execUSub32X f s
  | .uMul32X f => Sys2Proof.Machine.execUMul32X f s
  | .uAndB32X f => Sys2Proof.Machine.execUAndB32X f s
  | .uOrB32X f => Sys2Proof.Machine.execUOrB32X f s
  | .uXorB32X f => Sys2Proof.Machine.execUXorB32X f s
  | .uShlB32X f => Sys2Proof.Machine.execUShlB32X f s
  | .uShrB32X f => Sys2Proof.Machine.execUShrB32X f s
  | .uSarB32X f => Sys2Proof.Machine.execUSarB32X f s
  | .uMinN32X f => Sys2Proof.Machine.execUMinN32X f s
  | .uMinI32X f => Sys2Proof.Machine.execUMinI32X f s
  | .uMaxN32X f => Sys2Proof.Machine.execUMaxN32X f s
  | .uMaxI32X f => Sys2Proof.Machine.execUMaxI32X f s
  | .uAdd64X f => Sys2Proof.Machine.execUAdd64X f s
  | .uCmpN32X f => Sys2Proof.Machine.execUCmpN32X f s
  | .uCmpI32X f => Sys2Proof.Machine.execUCmpI32X f s
  | .uCmpN64X f => Sys2Proof.Machine.execUCmpN64X f s
  | .uCmpI64X f => Sys2Proof.Machine.execUCmpI64X f s
  | .uMovB32X f => Sys2Proof.Machine.execUMovB32X f s
  | .uMovB64X f => Sys2Proof.Machine.execUMovB64X f s
  | .uSelB32 f => Sys2Proof.Machine.execUSelB32 f s
  | .uSelB64 f => Sys2Proof.Machine.execUSelB64 f s
  | .uBfeN32 f => Sys2Proof.Machine.execUBfeN32 f s
  | .uMad32 f => Sys2Proof.Machine.execUMad32 f s
  | .uFaddF32 f => Sys2Proof.Machine.execUFaddF32 f s
  | .uFmulF32 f => Sys2Proof.Machine.execUFmulF32 f s
  | .uFfmaF32 f => Sys2Proof.Machine.execUFfmaF32 f s
  | .uFcmpF32 f => Sys2Proof.Machine.execUFcmpF32 f s
  | .uFaddF64 f => Sys2Proof.Machine.execUFaddF64 f s
  | .uFmulF64 f => Sys2Proof.Machine.execUFmulF64 f s
  | .uFfmaF64 f => Sys2Proof.Machine.execUFfmaF64 f s
  | .uCvt f => Sys2Proof.Machine.execUCvt f s
  | .sBra f => Sys2Proof.Machine.execSBra f s
  | .sBrx a b k => Sys2Proof.Machine.execSBrx a b k s
  | .sCall f => Sys2Proof.Machine.execSCall f s
  | .sRet a => Sys2Proof.Machine.execSRet a s
  | .sExit => Sys2Proof.Machine.execSExit s
  | .dpush a w => Sys2Proof.Machine.execDpush a w s
  | .dpop d w => Sys2Proof.Machine.execDpop d w s
  | .bucket d a n => Sys2Proof.Machine.execBucket d a n s
  | .nodeput d a => Sys2Proof.Machine.execNodeput d a s
  | .waitn d a b k => Sys2Proof.Machine.execWaitn d a b k s
  | .ckpt => Sys2Proof.Machine.execCkpt s
  | .yield => Sys2Proof.Machine.execYield s
  | .sNop => Sys2Proof.Machine.execSNop s
  | .uLdGB32 f => Sys2Proof.Machine.execULdGB32 f s
  | .uLdGB64 f => Sys2Proof.Machine.execULdGB64 f s
  | .uStGB32 f => Sys2Proof.Machine.execUStGB32 f s
  | .uStGB64 f => Sys2Proof.Machine.execUStGB64 f s
  | .uLdCmB32 f => Sys2Proof.Machine.execULdCmB32 f s
  | .uLdCmB64 f => Sys2Proof.Machine.execULdCmB64 f s
  | .uStCmB32 f => Sys2Proof.Machine.execUStCmB32 f s
  | .uStCmB64 f => Sys2Proof.Machine.execUStCmB64 f s
  | .uLdGQual f q => Sys2Proof.Machine.execULdGQual f q s
  | .uStGQual f q => Sys2Proof.Machine.execUStGQual f q s
  | .uLdCmQual f q => Sys2Proof.Machine.execULdCmQual f q s
  | .uStCmQual f q => Sys2Proof.Machine.execUStCmQual f q s
  | .uLdkB32 f k => Sys2Proof.Machine.execULdkB32 f k s
  | .uLdkB64 f k => Sys2Proof.Machine.execULdkB64 f k s
  | .uAtom f op q => Sys2Proof.Machine.execUAtom f op q s
  | .uFence k sc => Sys2Proof.Machine.execUFence k sc s
  | .uAlloc d a t p => Sys2Proof.Machine.execUAlloc d a t p s
  | .uFree a => Sys2Proof.Machine.execUFree a s
  | .uCpyIn f => Sys2Proof.Machine.execUCpyIn f s
  | .uCpyOut f => Sys2Proof.Machine.execUCpyOut f s
  | .uCpyG f => Sys2Proof.Machine.execUCpyG f s
  | .uWaitc a b k => Sys2Proof.Machine.execUWaitc a b k s
  | .uQfence m => Sys2Proof.Machine.execUQfence m s
  | .rdcnt d a => Sys2Proof.Machine.execRdcnt d a s
  | .csrr d n => Sys2Proof.Machine.execCsrr d n s
  | .csrw b n => Sys2Proof.Machine.execCsrw b n s
  | .rft => Sys2Proof.Machine.execRft s
  | .fgetPc d => Sys2Proof.Machine.execFgetPc d s
  | .fgetMask d => Sys2Proof.Machine.execFgetMask d s
  | .fgetPrio d => Sys2Proof.Machine.execFgetPrio d s
  | .fgetReg d t r => Sys2Proof.Machine.execFgetReg d t r s
  | .fsetPc a => Sys2Proof.Machine.execFsetPc a s
  | .fsetMask a => Sys2Proof.Machine.execFsetMask a s
  | .fsetReg a t r => Sys2Proof.Machine.execFsetReg a t r s
  | .xlinv a b sc => Sys2Proof.Machine.execXlinv a b sc s
  | .injsetSeed a => Sys2Proof.Machine.execInjsetSeed a s
  | .injsetRate a => Sys2Proof.Machine.execInjsetRate a s
  | .injsetClasses a => Sys2Proof.Machine.execInjsetClasses a s
  | .injsetShot a => Sys2Proof.Machine.execInjsetShot a s
  | .injsetArm a => Sys2Proof.Machine.execInjsetArm a s
  | .nodePost vf addr part => Sys2Proof.Machine.execNodePost vf addr part s
  | .nodeputDone a => Sys2Proof.Machine.execNodeputDone a s
  | .instanceAdmit part => Sys2Proof.Machine.execInstanceAdmit part s
  | .weaveAdmit core inst role => Sys2Proof.Machine.execWeaveAdmit core inst role s
  | .admissionStarvation part => Sys2Proof.Machine.execAdmissionStarvation part s
  | .nodeAging part => Sys2Proof.Machine.execNodeAging part s
  | .balancerSample core => Sys2Proof.Machine.execBalancerSample core s
  | .instanceYield core inst => Sys2Proof.Machine.execInstanceYield core inst s
  | .instanceReadmit part => Sys2Proof.Machine.execInstanceReadmit part s
  | .kernelNodeComplete serial => Sys2Proof.Machine.execKernelNodeComplete serial s
  | .tileNodeRun part => Sys2Proof.Machine.execTileNodeRun part s
  | .trapDelivery core => Sys2Proof.Machine.execTrapDelivery core s
  | .poisonContainment serial => Sys2Proof.Machine.execPoisonContainment serial s
  | .freeze lsn dest base => Sys2Proof.Machine.execFreeze lsn dest base s
  | .resume image vf => Sys2Proof.Machine.execResume image vf s
  | .weaveRestart core slot => Sys2Proof.Machine.execWeaveRestart core slot s
  | .rcbRelease core slot => Sys2Proof.Machine.execRcbRelease core slot s
  | .sleepExpire core slot => Sys2Proof.Machine.execSleepExpire core slot s
  | .feLoadWake core slot => Sys2Proof.Machine.execFeLoadWake core slot s
  | .joinGrant core slot => Sys2Proof.Machine.execJoinGrant core slot s
  | .scopeGrant core => Sys2Proof.Machine.execScopeGrant core s
  | .sclaimGrant core => Sys2Proof.Machine.execSclaimGrant core s
  | .dpushAppend core k => Sys2Proof.Machine.execDpushAppend core k s
  | .dpopTake core slot => Sys2Proof.Machine.execDpopTake core slot s
  | .wpushAppend core slot => Sys2Proof.Machine.execWpushAppend core slot s
  | .wpopTake core slot => Sys2Proof.Machine.execWpopTake core slot s
  | .waitcComplete a => Sys2Proof.Machine.execWaitcComplete a s
  | .waitnComplete a => Sys2Proof.Machine.execWaitnComplete a s
  | .waitnLimit a => Sys2Proof.Machine.execWaitnLimit a s
  | .yieldComplete core slot => Sys2Proof.Machine.execYieldComplete core slot s
  | .ckptRecord core slot => Sys2Proof.Machine.execCkptRecord core slot s
  | .pairedExitRelease core slot => Sys2Proof.Machine.execPairedExitRelease core slot s
  | .memoryResultArrive a => Sys2Proof.Machine.execMemoryResultArrive a s
  | .storeQueueDrain a => Sys2Proof.Machine.execStoreQueueDrain a s
  | .cpyInPerform core q => Sys2Proof.Machine.execCpyInPerform core q s
  | .cpyOutPerform core q => Sys2Proof.Machine.execCpyOutPerform core q s
  | .cpyGPerform core q => Sys2Proof.Machine.execCpyGPerform core q s
  | .stkLdPerform core => Sys2Proof.Machine.execStkLdPerform core s
  | .mtileStart core => Sys2Proof.Machine.execMtileStart core s
  | .mtileComplete core => Sys2Proof.Machine.execMtileComplete core s
  | .rzeroPerform core => Sys2Proof.Machine.execRzeroPerform core s
  | .rimLdPerform core => Sys2Proof.Machine.execRimLdPerform core s
  | .rimStPerform core => Sys2Proof.Machine.execRimStPerform core s
  | .srelPerform core => Sys2Proof.Machine.execSrelPerform core s
  | .valueStoreEpochFlush core => Sys2Proof.Machine.execValueStoreEpochFlush core s
  | .pairCompare core slot => Sys2Proof.Machine.execPairCompare core slot s
  | .injectorFire part cls site => Sys2Proof.Machine.execInjectorFire part cls site s
  | .coreErrorWindow core => Sys2Proof.Machine.execCoreErrorWindow core s
  | .patternTestDone core pass => Sys2Proof.Machine.execPatternTestDone core pass s
  | .channelRetire part chan => Sys2Proof.Machine.execChannelRetire part chan s
  | .coreLend core part => Sys2Proof.Machine.execCoreLend core part s
  | .revoke core => Sys2Proof.Machine.execRevoke core s
  | .revokeFreezeTimeout core inst => Sys2Proof.Machine.execRevokeFreezeTimeout core inst s
  | .coreScrub core => Sys2Proof.Machine.execCoreScrub core s
  | .start power stageOk element => Sys2Proof.Machine.execStart power stageOk element s
  | .startWatchdogExpire => Sys2Proof.Machine.execStartWatchdogExpire s
  | .firmwareLoad digest sig => Sys2Proof.Machine.execFirmwareLoad digest sig s
  | .fullStartRequest => Sys2Proof.Machine.execFullStartRequest s
  | .undervoltageStop => Sys2Proof.Machine.execUndervoltageStop s
  | .thermalStep temp => Sys2Proof.Machine.execThermalStep temp s
  | .powerCapWindow watts => Sys2Proof.Machine.execPowerCapWindow watts s
  | .setPowerCap watts => Sys2Proof.Machine.execSetPowerCap watts s
  | .partitionConfigWrite part value => Sys2Proof.Machine.execPartitionConfigWrite part value s
  | .vfRecordWrite vf w => Sys2Proof.Machine.execVfRecordWrite vf w s
  | .vfStateWrite vf st => Sys2Proof.Machine.execVfStateWrite vf st s
  | .heapWrite vf heap heapsz => Sys2Proof.Machine.execHeapWrite vf heap heapsz s
  | .scopePolicyWrite vf v => Sys2Proof.Machine.execScopePolicyWrite vf v s
  | .mgmtRegisterWrite vf part num value => Sys2Proof.Machine.execMgmtRegisterWrite vf part num value s
  | .counterLowRead vf core num => Sys2Proof.Machine.execCounterLowRead vf core num s
  | .counterHighRead vf => Sys2Proof.Machine.execCounterHighRead vf s
  | .granuleTakeBack granule => Sys2Proof.Machine.execGranuleTakeBack granule s
  | .backgroundScrub granule => Sys2Proof.Machine.execBackgroundScrub granule s
  | .shootdownMessage vf addr pages sc => Sys2Proof.Machine.execShootdownMessage vf addr pages sc s
  | .shootdownComplete id => Sys2Proof.Machine.execShootdownComplete id s
  | .writeTrapAck vf => Sys2Proof.Machine.execWriteTrapAck vf s
  | .rmaWrite vf addr data => Sys2Proof.Machine.execRmaWrite vf addr data s
  | .rmaRead vf addr n => Sys2Proof.Machine.execRmaRead vf addr n s
  | .rmaAtomic vf addr => Sys2Proof.Machine.execRmaAtomic vf addr s
  | .remoteAccess dev phys op => Sys2Proof.Machine.execRemoteAccess dev phys op s
  | .attestationRequest vf nonce => Sys2Proof.Machine.execAttestationRequest vf nonce s
  | .watchpointWrite vf k w => Sys2Proof.Machine.execWatchpointWrite vf k w s
  | .samplingExponentWrite vf k => Sys2Proof.Machine.execSamplingExponentWrite vf k s
  | .traceMessageSend part => Sys2Proof.Machine.execTraceMessageSend part s
  | .errorThresholdWrite n => Sys2Proof.Machine.execErrorThresholdWrite n s
  | .coreBinReset core => Sys2Proof.Machine.execCoreBinReset core s
  | .wordNotInstruction => Sys2Proof.Machine.execWordNotInstruction s
  | .l1Eviction core line => Sys2Proof.Machine.execL1Eviction core line s
  | .softError site correctable => Sys2Proof.Machine.execSoftError site correctable s
  | .inputBelow40v => Sys2Proof.Machine.execInputBelow40v s
  | .unimplementedModePacket port => Sys2Proof.Machine.execUnimplementedModePacket port s
  | .trustListInstall key => Sys2Proof.Machine.execTrustListInstall key s

end Sys2Proof.Machine
end

