-- ==== Sys2Proof/Machine/Fetch.lean ====
section
/-!
DEFINITION. The fetch of an agent's next instruction (03 R36, R56, R57; 17 R362) and the meaning of fetched words: of the instruction
they decode to, or of words that are no instruction.
-/

namespace Sys2Proof.Machine

open Sys2Proof

/-! ## Fetch -/

/-- Whether a pc is no place of an instruction: not a multiple of 4, or beyond the address space (R57). -/
def pcBad (pc : Double) : Bool := pc.extractLsb' 0 2 != 0#2 || pc.extractLsb' 57 7 != 0#7

/-- The two words that begin at a virtual address, fetched through the instruction cache: an instruction lies in one line (R36) (DEDUCED, log entry 24). -/
def fetchPair (s : State) (c vf va : Nat) (handler : Bool) : Except Nat (Word × Word) × State :=
  match translate s c vf va .fetch handler with
  | (.error e, s) => (.error e, s)
  | (.ok k, s) =>
    match cacheLine s (getCore s c).icache 2 (k / 64) with
    | .error e => (.error e, s)
    | .ok (d, held) =>
      (.ok (BitVec.ofNat 32 (natLE ((d.drop (k % 64)).take 4)), BitVec.ofNat 32 (natLE ((d.drop (k % 64 + 4)).take 4))),
        onCore s c (fun x => { x with icache := held }))

/-- The words at an agent's pc, or the cause of its fetch; the second word of a two-word opcode, but not where it is misplaced (R36) (DEDUCED, log entry 24). -/
def fetchAt (s : State) (a : Agent) (pc : Double) : Except Nat (Word × Word) × State :=
  if pcBad pc then (.error cMISALIGNED, s)
  else
    match fetchPair s (coreOf a) (agentVf s a) pc.toNat (isHandler a) with
    | (.error c, s) => (.error c, s)
    | (.ok (w, x), s) => (.ok (w, if isTwoWord w && !pc.getLsbD 2 then x else 0#32), s)

/-! ## Meaning of words -/

/-- The words as the instruction they decode to, or as no instruction (R56). -/
noncomputable def execWords (w x : Word) (s : State) : Out :=
  match decodeWords w x with
  | some i => exec i s
  | none => exec .wordNotInstruction s

/-! The same without the instruction between, which runs: Lean's compiled code has no room for the later constructors. -/

def execUni00 : Uni00 (State → Out) := {
  uAdd32 := execUAdd32,
  uSub32 := execUSub32,
  uMul32 := execUMul32,
  uMulhiN32 := execUMulhiN32,
  uMulhiI32 := execUMulhiI32,
  uIdivN32 := execUIdivN32,
  uIdivI32 := execUIdivI32,
  uRemN32 := execURemN32,
  uRemI32 := execURemI32,
  uAndB32 := execUAndB32,
  uOrB32 := execUOrB32,
  uXorB32 := execUXorB32,
  uShlB32 := execUShlB32,
  uShrB32 := execUShrB32,
  uSarB32 := execUSarB32,
  uMinN32 := execUMinN32,
  uMinI32 := execUMinI32,
  uMaxN32 := execUMaxN32,
  uMaxI32 := execUMaxI32,
  uAdd64 := execUAdd64,
  uSub64 := execUSub64,
  uMul64 := execUMul64,
  uShlB64 := execUShlB64,
  uShrB64 := execUShrB64,
  uCmpN32 := execUCmpN32,
  uCmpI32 := execUCmpI32,
  uCmpN64 := execUCmpN64,
  uCmpI64 := execUCmpI64,
  uPlog := execUPlog,
  uMovB32 := execUMovB32,
  uMovB64 := execUMovB64,
  uPopcB32 := execUPopcB32,
  uAdd32X := execUAdd32X,
  uSub32X := execUSub32X,
  uMul32X := execUMul32X,
  uAndB32X := execUAndB32X,
  uOrB32X := execUOrB32X,
  uXorB32X := execUXorB32X,
  uShlB32X := execUShlB32X,
  uShrB32X := execUShrB32X,
  uSarB32X := execUSarB32X,
  uMinN32X := execUMinN32X,
  uMinI32X := execUMinI32X,
  uMaxN32X := execUMaxN32X,
  uMaxI32X := execUMaxI32X,
  uAdd64X := execUAdd64X,
  uCmpN32X := execUCmpN32X,
  uCmpI32X := execUCmpI32X,
  uCmpN64X := execUCmpN64X,
  uCmpI64X := execUCmpI64X,
  uMovB32X := execUMovB32X,
  uMovB64X := execUMovB64X,
  uSelB32 := execUSelB32,
  uSelB64 := execUSelB64,
  uBfeN32 := execUBfeN32,
  uMad32 := execUMad32,
  uFaddF32 := execUFaddF32,
  uFmulF32 := execUFmulF32,
  uFfmaF32 := execUFfmaF32,
  uFcmpF32 := execUFcmpF32,
  uFaddF64 := execUFaddF64,
  uFmulF64 := execUFmulF64,
  uFfmaF64 := execUFfmaF64,
  uCvt := execUCvt }

/-- The meanings made of the results of a reading. -/
def uni00After {α β : Type} (h : α → β) (g : Uni00 α) : Uni00 β := {
  uAdd32 := fun a => h (g.uAdd32 a),
  uSub32 := fun a => h (g.uSub32 a),
  uMul32 := fun a => h (g.uMul32 a),
  uMulhiN32 := fun a => h (g.uMulhiN32 a),
  uMulhiI32 := fun a => h (g.uMulhiI32 a),
  uIdivN32 := fun a => h (g.uIdivN32 a),
  uIdivI32 := fun a => h (g.uIdivI32 a),
  uRemN32 := fun a => h (g.uRemN32 a),
  uRemI32 := fun a => h (g.uRemI32 a),
  uAndB32 := fun a => h (g.uAndB32 a),
  uOrB32 := fun a => h (g.uOrB32 a),
  uXorB32 := fun a => h (g.uXorB32 a),
  uShlB32 := fun a => h (g.uShlB32 a),
  uShrB32 := fun a => h (g.uShrB32 a),
  uSarB32 := fun a => h (g.uSarB32 a),
  uMinN32 := fun a => h (g.uMinN32 a),
  uMinI32 := fun a => h (g.uMinI32 a),
  uMaxN32 := fun a => h (g.uMaxN32 a),
  uMaxI32 := fun a => h (g.uMaxI32 a),
  uAdd64 := fun a => h (g.uAdd64 a),
  uSub64 := fun a => h (g.uSub64 a),
  uMul64 := fun a => h (g.uMul64 a),
  uShlB64 := fun a => h (g.uShlB64 a),
  uShrB64 := fun a => h (g.uShrB64 a),
  uCmpN32 := fun a => h (g.uCmpN32 a),
  uCmpI32 := fun a => h (g.uCmpI32 a),
  uCmpN64 := fun a => h (g.uCmpN64 a),
  uCmpI64 := fun a => h (g.uCmpI64 a),
  uPlog := fun a => h (g.uPlog a),
  uMovB32 := fun a => h (g.uMovB32 a),
  uMovB64 := fun a => h (g.uMovB64 a),
  uPopcB32 := fun a => h (g.uPopcB32 a),
  uAdd32X := fun a => h (g.uAdd32X a),
  uSub32X := fun a => h (g.uSub32X a),
  uMul32X := fun a => h (g.uMul32X a),
  uAndB32X := fun a => h (g.uAndB32X a),
  uOrB32X := fun a => h (g.uOrB32X a),
  uXorB32X := fun a => h (g.uXorB32X a),
  uShlB32X := fun a => h (g.uShlB32X a),
  uShrB32X := fun a => h (g.uShrB32X a),
  uSarB32X := fun a => h (g.uSarB32X a),
  uMinN32X := fun a => h (g.uMinN32X a),
  uMinI32X := fun a => h (g.uMinI32X a),
  uMaxN32X := fun a => h (g.uMaxN32X a),
  uMaxI32X := fun a => h (g.uMaxI32X a),
  uAdd64X := fun a => h (g.uAdd64X a),
  uCmpN32X := fun a => h (g.uCmpN32X a),
  uCmpI32X := fun a => h (g.uCmpI32X a),
  uCmpN64X := fun a => h (g.uCmpN64X a),
  uCmpI64X := fun a => h (g.uCmpI64X a),
  uMovB32X := fun a => h (g.uMovB32X a),
  uMovB64X := fun a => h (g.uMovB64X a),
  uSelB32 := fun a => h (g.uSelB32 a),
  uSelB64 := fun a => h (g.uSelB64 a),
  uBfeN32 := fun a => h (g.uBfeN32 a),
  uMad32 := fun a => h (g.uMad32 a),
  uFaddF32 := fun a => h (g.uFaddF32 a),
  uFmulF32 := fun a => h (g.uFmulF32 a),
  uFfmaF32 := fun a => h (g.uFfmaF32 a),
  uFcmpF32 := fun a => h (g.uFcmpF32 a),
  uFaddF64 := fun a => h (g.uFaddF64 a),
  uFmulF64 := fun a => h (g.uFmulF64 a),
  uFfmaF64 := fun a => h (g.uFfmaF64 a),
  uCvt := fun a => h (g.uCvt a) }

def execUni01 : Uni01 (State → Out) := {
  sBra := execSBra,
  sBrx := execSBrx,
  sCall := execSCall,
  sRet := execSRet,
  sExit := execSExit,
  dpush := execDpush,
  dpop := execDpop,
  bucket := execBucket,
  nodeput := execNodeput,
  waitn := execWaitn,
  ckpt := execCkpt,
  yield := execYield,
  sNop := execSNop }

/-- The meanings made of the results of a reading. -/
def uni01After {α β : Type} (h : α → β) (g : Uni01 α) : Uni01 β := {
  sBra := fun a => h (g.sBra a),
  sBrx := fun a b c => h (g.sBrx a b c),
  sCall := fun a => h (g.sCall a),
  sRet := fun a => h (g.sRet a),
  sExit := h (g.sExit),
  dpush := fun a b => h (g.dpush a b),
  dpop := fun a b => h (g.dpop a b),
  bucket := fun a b c => h (g.bucket a b c),
  nodeput := fun a b => h (g.nodeput a b),
  waitn := fun a b c d => h (g.waitn a b c d),
  ckpt := h (g.ckpt),
  yield := h (g.yield),
  sNop := h (g.sNop) }

def execUni10 : Uni10 (State → Out) := {
  uLdGB32 := execULdGB32,
  uLdGB64 := execULdGB64,
  uStGB32 := execUStGB32,
  uStGB64 := execUStGB64,
  uLdCmB32 := execULdCmB32,
  uLdCmB64 := execULdCmB64,
  uStCmB32 := execUStCmB32,
  uStCmB64 := execUStCmB64,
  uLdGQual := execULdGQual,
  uStGQual := execUStGQual,
  uLdCmQual := execULdCmQual,
  uStCmQual := execUStCmQual,
  uLdkB32 := execULdkB32,
  uLdkB64 := execULdkB64,
  uAtom := execUAtom,
  uFence := execUFence,
  uAlloc := execUAlloc,
  uFree := execUFree,
  uCpyIn := execUCpyIn,
  uCpyOut := execUCpyOut,
  uCpyG := execUCpyG,
  uWaitc := execUWaitc,
  uQfence := execUQfence,
  rdcnt := execRdcnt,
  csrr := execCsrr,
  csrw := execCsrw,
  rft := execRft,
  fgetPc := execFgetPc,
  fgetMask := execFgetMask,
  fgetPrio := execFgetPrio,
  fgetReg := execFgetReg,
  fsetPc := execFsetPc,
  fsetMask := execFsetMask,
  fsetReg := execFsetReg,
  xlinv := execXlinv,
  injsetSeed := execInjsetSeed,
  injsetRate := execInjsetRate,
  injsetClasses := execInjsetClasses,
  injsetShot := execInjsetShot,
  injsetArm := execInjsetArm }

/-- The meanings made of the results of a reading. -/
def uni10After {α β : Type} (h : α → β) (g : Uni10 α) : Uni10 β := {
  uLdGB32 := fun a => h (g.uLdGB32 a),
  uLdGB64 := fun a => h (g.uLdGB64 a),
  uStGB32 := fun a => h (g.uStGB32 a),
  uStGB64 := fun a => h (g.uStGB64 a),
  uLdCmB32 := fun a => h (g.uLdCmB32 a),
  uLdCmB64 := fun a => h (g.uLdCmB64 a),
  uStCmB32 := fun a => h (g.uStCmB32 a),
  uStCmB64 := fun a => h (g.uStCmB64 a),
  uLdGQual := fun a b => h (g.uLdGQual a b),
  uStGQual := fun a b => h (g.uStGQual a b),
  uLdCmQual := fun a b => h (g.uLdCmQual a b),
  uStCmQual := fun a b => h (g.uStCmQual a b),
  uLdkB32 := fun a b => h (g.uLdkB32 a b),
  uLdkB64 := fun a b => h (g.uLdkB64 a b),
  uAtom := fun a b c => h (g.uAtom a b c),
  uFence := fun a b => h (g.uFence a b),
  uAlloc := fun a b c d => h (g.uAlloc a b c d),
  uFree := fun a => h (g.uFree a),
  uCpyIn := fun a => h (g.uCpyIn a),
  uCpyOut := fun a => h (g.uCpyOut a),
  uCpyG := fun a => h (g.uCpyG a),
  uWaitc := fun a b c => h (g.uWaitc a b c),
  uQfence := fun a => h (g.uQfence a),
  rdcnt := fun a b => h (g.rdcnt a b),
  csrr := fun a b => h (g.csrr a b),
  csrw := fun a b => h (g.csrw a b),
  rft := h (g.rft),
  fgetPc := fun a => h (g.fgetPc a),
  fgetMask := fun a => h (g.fgetMask a),
  fgetPrio := fun a => h (g.fgetPrio a),
  fgetReg := fun a b c => h (g.fgetReg a b c),
  fsetPc := fun a => h (g.fsetPc a),
  fsetMask := fun a => h (g.fsetMask a),
  fsetReg := fun a b c => h (g.fsetReg a b c),
  xlinv := fun a b c => h (g.xlinv a b c),
  injsetSeed := fun a => h (g.injsetSeed a),
  injsetRate := fun a => h (g.injsetRate a),
  injsetClasses := fun a => h (g.injsetClasses a),
  injsetShot := fun a => h (g.injsetShot a),
  injsetArm := fun a => h (g.injsetArm a) }

def execRead (w x : Word) : Option (State → Out) :=
  let r := Raw.ofWord w
  if w.getLsbD 31 then (uniFormAt execUni00 execUni01 execUni10 r.op).read r x else ((laneFormAt r.op).read r x).map exec

def execWordsRun (w x : Word) (s : State) : Out :=
  match execRead w x with
  | some f => f s
  | none => execWordNotInstruction s

/-! ## Both agree -/

theorem keep_map {α β : Type} (h : α → β) (c : Bool) (v : α) : (keep c v).map h = keep c (h v) := by
  cases c <;> rfl

/-- A form that reads as another, the results mapped. -/
def Reads {α β : Type} (h : α → β) (p : Form α) (q : Form β) : Prop := ∀ r x, q.read r x = (p.read r x).map h

theorem parse0_map {α β : Type} (h : α → β) (i : α) : Reads h (.one (parse0 i)) (.one (parse0 (h i))) := by
  intro r x
  simp only [Form.read, parse0]
  repeat' split
  all_goals first | rfl | simp only [keep_map, Option.map_none]

theorem parseUA_map {α β : Type} (h : α → β) (ok : USrc → Bool) (mk : USrc → α) :
    Reads h (.one (parseUA ok mk)) (.one (parseUA ok (fun a => h (mk a)))) := by
  intro r x
  simp only [Form.read, parseUA]
  repeat' split
  all_goals first | rfl | simp only [keep_map, Option.map_none]

theorem parseULitAB_map {α β : Type} (h : α → β) (ok : USrc → USrc → BitVec 28 → Bool) (mk : USrc → USrc → BitVec 28 → α) :
    Reads h (.two (parseULitAB ok mk)) (.two (parseULitAB ok (fun a b c => h (mk a b c)))) := by
  intro r x
  simp only [Form.read, parseULitAB]
  repeat' split
  all_goals first | rfl | simp only [keep_map, Option.map_none]

theorem parseUAtom_map {α β : Type} (h : α → β) (ok : UniLd → AtomOp → AtomQ → Bool) (mk : UniLd → AtomOp → AtomQ → α) :
    Reads h (.two (parseUAtom ok mk)) (.two (parseUAtom ok (fun a b c => h (mk a b c)))) := by
  intro r x
  simp only [Form.read, parseUAtom]
  repeat' split
  all_goals first | rfl | simp only [keep_map, Option.map_none]

theorem parseFence_map {α β : Type} (h : α → β) (ok : FenceKind → Scope → Bool) (mk : FenceKind → Scope → α) :
    Reads h (.one (parseFence ok mk)) (.one (parseFence ok (fun a b => h (mk a b)))) := by
  intro r x
  simp only [Form.read, parseFence]
  repeat' split
  all_goals first | rfl | simp only [keep_map, Option.map_none]

theorem parseUAlloc_map {α β : Type} (h : α → β) (ok : BitVec 6 → USrc → Bool → BitVec 3 → Bool) (mk : BitVec 6 → USrc → Bool → BitVec 3 → α) :
    Reads h (.two (parseUAlloc ok mk)) (.two (parseUAlloc ok (fun a b c d => h (mk a b c d)))) := by
  intro r x
  simp only [Form.read, parseUAlloc]
  repeat' split
  all_goals first | rfl | simp only [keep_map, Option.map_none]

theorem parseQfence_map {α β : Type} (h : α → β) (ok : BitVec 4 → Bool) (mk : BitVec 4 → α) :
    Reads h (.one (parseQfence ok mk)) (.one (parseQfence ok (fun a => h (mk a)))) := by
  intro r x
  simp only [Form.read, parseQfence]
  repeat' split
  all_goals first | rfl | simp only [keep_map, Option.map_none]

theorem parseDpush_map {α β : Type} (h : α → β) (ok : USrc → Bool → Bool) (mk : USrc → Bool → α) :
    Reads h (.one (parseDpush ok mk)) (.one (parseDpush ok (fun a b => h (mk a b)))) := by
  intro r x
  simp only [Form.read, parseDpush]
  repeat' split
  all_goals first | rfl | simp only [keep_map, Option.map_none]

theorem parseDpop_map {α β : Type} (h : α → β) (ok : UDst → Bool → Bool) (mk : UDst → Bool → α) :
    Reads h (.one (parseDpop ok mk)) (.one (parseDpop ok (fun a b => h (mk a b)))) := by
  intro r x
  simp only [Form.read, parseDpop]
  repeat' split
  all_goals first | rfl | simp only [keep_map, Option.map_none]

theorem parseBucket_map {α β : Type} (h : α → β) (ok : BitVec 6 → BitVec 6 → BitVec 2 → Bool) (mk : BitVec 6 → BitVec 6 → BitVec 2 → α) :
    Reads h (.two (parseBucket ok mk)) (.two (parseBucket ok (fun a b c => h (mk a b c)))) := by
  intro r x
  simp only [Form.read, parseBucket]
  repeat' split
  all_goals first | rfl | simp only [keep_map, Option.map_none]

theorem parseNodeput_map {α β : Type} (h : α → β) (ok : UDst → USrc → Bool) (mk : UDst → USrc → α) :
    Reads h (.one (parseNodeput ok mk)) (.one (parseNodeput ok (fun a b => h (mk a b)))) := by
  intro r x
  simp only [Form.read, parseNodeput]
  repeat' split
  all_goals first | rfl | simp only [keep_map, Option.map_none]

theorem parseWaitn_map {α β : Type} (h : α → β) (ok : UDst → USrc → USrc → BitVec 28 → Bool) (mk : UDst → USrc → USrc → BitVec 28 → α) :
    Reads h (.two (parseWaitn ok mk)) (.two (parseWaitn ok (fun a b c d => h (mk a b c d)))) := by
  intro r x
  simp only [Form.read, parseWaitn]
  repeat' split
  all_goals first | rfl | simp only [keep_map, Option.map_none]

theorem parseRdcnt_map {α β : Type} (h : α → β) (ok : BitVec 6 → USrc → Bool) (mk : BitVec 6 → USrc → α) :
    Reads h (.one (parseRdcnt ok mk)) (.one (parseRdcnt ok (fun a b => h (mk a b)))) := by
  intro r x
  simp only [Form.read, parseRdcnt]
  repeat' split
  all_goals first | rfl | simp only [keep_map, Option.map_none]

theorem parseCsrr_map {α β : Type} (h : α → β) (ok : UDst → BitVec 12 → Bool) (mk : UDst → BitVec 12 → α) :
    Reads h (.two (parseCsrr ok mk)) (.two (parseCsrr ok (fun a b => h (mk a b)))) := by
  intro r x
  simp only [Form.read, parseCsrr]
  repeat' split
  all_goals first | rfl | simp only [keep_map, Option.map_none]

theorem parseCsrw_map {α β : Type} (h : α → β) (ok : USrc → BitVec 12 → Bool) (mk : USrc → BitVec 12 → α) :
    Reads h (.two (parseCsrw ok mk)) (.two (parseCsrw ok (fun a b => h (mk a b)))) := by
  intro r x
  simp only [Form.read, parseCsrw]
  repeat' split
  all_goals first | rfl | simp only [keep_map, Option.map_none]

theorem parseXlinv_map {α β : Type} (h : α → β) (ok : USrc → USrc → Scope → Bool) (mk : USrc → USrc → Scope → α) :
    Reads h (.two (parseXlinv ok mk)) (.two (parseXlinv ok (fun a b c => h (mk a b c)))) := by
  intro r x
  simp only [Form.read, parseXlinv]
  repeat' split
  all_goals first | rfl | simp only [keep_map, Option.map_none]

theorem UniR_parse_map {α β : Type} (h : α → β) (ok : UniR → Bool) (mk : UniR → α) :
    Reads h (.one (UniR.parse ok mk)) (.one (UniR.parse ok (fun a => h (mk a)))) := by
  intro r x
  simp only [Form.read, UniR.parse]
  repeat' split
  all_goals first | rfl | simp only [keep_map, Option.map_none]

theorem UniR1_parse_map {α β : Type} (h : α → β) (ok : UniR1 → Bool) (mk : UniR1 → α) :
    Reads h (.one (UniR1.parse ok mk)) (.one (UniR1.parse ok (fun a => h (mk a)))) := by
  intro r x
  simp only [Form.read, UniR1.parse]
  repeat' split
  all_goals first | rfl | simp only [keep_map, Option.map_none]

theorem UniP_parse_map {α β : Type} (h : α → β) (ok : UniP → Bool) (mk : UniP → α) :
    Reads h (.one (UniP.parse ok mk)) (.one (UniP.parse ok (fun a => h (mk a)))) := by
  intro r x
  simp only [Form.read, UniP.parse]
  repeat' split
  all_goals first | rfl | simp only [keep_map, Option.map_none]

theorem UniPlog_parse_map {α β : Type} (h : α → β) (ok : UniPlog → Bool) (mk : UniPlog → α) :
    Reads h (.one (UniPlog.parse ok mk)) (.one (UniPlog.parse ok (fun a => h (mk a)))) := by
  intro r x
  simp only [Form.read, UniPlog.parse]
  repeat' split
  all_goals first | rfl | simp only [keep_map, Option.map_none]

theorem UniX_parse_map {α β : Type} (h : α → β) (ok : UniX → Bool) (mk : UniX → α) :
    Reads h (.two (UniX.parse ok mk)) (.two (UniX.parse ok (fun a => h (mk a)))) := by
  intro r x
  simp only [Form.read, UniX.parse]
  repeat' split
  all_goals first | rfl | simp only [keep_map, Option.map_none]

theorem UniX1_parse_map {α β : Type} (h : α → β) (ok : UniX1 → Bool) (mk : UniX1 → α) :
    Reads h (.two (UniX1.parse ok mk)) (.two (UniX1.parse ok (fun a => h (mk a)))) := by
  intro r x
  simp only [Form.read, UniX1.parse]
  repeat' split
  all_goals first | rfl | simp only [keep_map, Option.map_none]

theorem UniXP_parse_map {α β : Type} (h : α → β) (ok : UniXP → Bool) (mk : UniXP → α) :
    Reads h (.two (UniXP.parse ok mk)) (.two (UniXP.parse ok (fun a => h (mk a)))) := by
  intro r x
  simp only [Form.read, UniXP.parse]
  repeat' split
  all_goals first | rfl | simp only [keep_map, Option.map_none]

theorem UniX3_parse_map {α β : Type} (h : α → β) (ok : UniX3 → Bool) (mk : UniX3 → α) :
    Reads h (.two (UniX3.parse ok mk)) (.two (UniX3.parse ok (fun a => h (mk a)))) := by
  intro r x
  simp only [Form.read, UniX3.parse]
  repeat' split
  all_goals first | rfl | simp only [keep_map, Option.map_none]

theorem UniSel_parse_map {α β : Type} (h : α → β) (ok : UniSel → Bool) (mk : UniSel → α) :
    Reads h (.two (UniSel.parse ok mk)) (.two (UniSel.parse ok (fun a => h (mk a)))) := by
  intro r x
  simp only [Form.read, UniSel.parse]
  repeat' split
  all_goals first | rfl | simp only [keep_map, Option.map_none]

theorem UniLd_parse_map {α β : Type} (h : α → β) (ok : UniLd → Bool) (mk : UniLd → α) :
    Reads h (.one (UniLd.parse ok mk)) (.one (UniLd.parse ok (fun a => h (mk a)))) := by
  intro r x
  simp only [Form.read, UniLd.parse]
  repeat' split
  all_goals first | rfl | simp only [keep_map, Option.map_none]

theorem UniLd_parseQ_map {α β : Type} (h : α → β) (ok : UniLd → Qual → Bool) (mk : UniLd → Qual → α) :
    Reads h (.two (UniLd.parseQ ok mk)) (.two (UniLd.parseQ ok (fun a b => h (mk a b)))) := by
  intro r x
  simp only [Form.read, UniLd.parseQ]
  repeat' split
  all_goals first | rfl | simp only [keep_map, Option.map_none]

theorem UniLd_parseK_map {α β : Type} (h : α → β) (ok : UniLd → BitVec 28 → Bool) (mk : UniLd → BitVec 28 → α) :
    Reads h (.two (UniLd.parseK ok mk)) (.two (UniLd.parseK ok (fun a b => h (mk a b)))) := by
  intro r x
  simp only [Form.read, UniLd.parseK]
  repeat' split
  all_goals first | rfl | simp only [keep_map, Option.map_none]

theorem UniSt_parse_map {α β : Type} (h : α → β) (ok : UniSt → Bool) (mk : UniSt → α) :
    Reads h (.one (UniSt.parse ok mk)) (.one (UniSt.parse ok (fun a => h (mk a)))) := by
  intro r x
  simp only [Form.read, UniSt.parse]
  repeat' split
  all_goals first | rfl | simp only [keep_map, Option.map_none]

theorem UniSt_parseQ_map {α β : Type} (h : α → β) (ok : UniSt → Qual → Bool) (mk : UniSt → Qual → α) :
    Reads h (.two (UniSt.parseQ ok mk)) (.two (UniSt.parseQ ok (fun a b => h (mk a b)))) := by
  intro r x
  simp only [Form.read, UniSt.parseQ]
  repeat' split
  all_goals first | rfl | simp only [keep_map, Option.map_none]

theorem UniCvt_parse_map {α β : Type} (h : α → β) (ok : UniCvt → Bool) (mk : UniCvt → α) :
    Reads h (.two (UniCvt.parse ok mk)) (.two (UniCvt.parse ok (fun a => h (mk a)))) := by
  intro r x
  simp only [Form.read, UniCvt.parse]
  repeat' split
  all_goals first | rfl | simp only [keep_map, Option.map_none]

theorem UniBox_parse_map {α β : Type} (h : α → β) (ok : UniBox → Bool) (mk : UniBox → α) :
    Reads h (.two (UniBox.parse ok mk)) (.two (UniBox.parse ok (fun a => h (mk a)))) := by
  intro r x
  simp only [Form.read, UniBox.parse]
  repeat' split
  all_goals first | rfl | simp only [keep_map, Option.map_none]

theorem UniCpyG_parse_map {α β : Type} (h : α → β) (ok : UniCpyG → Bool) (mk : UniCpyG → α) :
    Reads h (.two (UniCpyG.parse ok mk)) (.two (UniCpyG.parse ok (fun a => h (mk a)))) := by
  intro r x
  simp only [Form.read, UniCpyG.parse]
  repeat' split
  all_goals first | rfl | simp only [keep_map, Option.map_none]

theorem Branch_parse_map {α β : Type} (h : α → β) (ok : Branch → Bool) (mk : Branch → α) :
    Reads h (.two (Branch.parse ok mk)) (.two (Branch.parse ok (fun a => h (mk a)))) := by
  intro r x
  simp only [Form.read, Branch.parse]
  repeat' split
  all_goals first | rfl | simp only [keep_map, Option.map_none]

theorem parseFget_map {α β : Type} (h : α → β) (g : Uni10 α) : Reads h (.two (parseFget g)) (.two (parseFget (uni10After h g))) := by
  intro r x
  simp only [Form.read, parseFget, uni10After]
  repeat' split
  all_goals first | rfl | simp only [keep_map, Option.map_none]

theorem parseFset_map {α β : Type} (h : α → β) (g : Uni10 α) : Reads h (.two (parseFset g)) (.two (parseFset (uni10After h g))) := by
  intro r x
  simp only [Form.read, parseFset, uni10After]
  repeat' split
  all_goals first | rfl | simp only [keep_map, Option.map_none]

theorem parseInjset_map {α β : Type} (h : α → β) (g : Uni10 α) : Reads h (.two (parseInjset g)) (.two (parseInjset (uni10After h g))) := by
  intro r x
  simp only [Form.read, parseInjset, uni10After]
  repeat' split
  all_goals first | rfl | simp only [keep_map, Option.map_none]

theorem dash_map {α β : Type} (h : α → β) : Reads h .dash .dash := fun _ _ => rfl

theorem uni00Row0_map {α β : Type} (h : α → β) (g : Uni00 α) : List.Forall₂ (Reads h) (uni00Row0 g) (uni00Row0 (uni00After h g)) := by
  unfold uni00Row0
  repeat' constructor
  all_goals first | exact parse0_map _ _ | exact parseUA_map _ _ _ | exact parseULitAB_map _ _ _ | exact parseUAtom_map _ _ _ | exact parseFence_map _ _ _ | exact parseUAlloc_map _ _ _ | exact parseQfence_map _ _ _ | exact parseDpush_map _ _ _ | exact parseDpop_map _ _ _ | exact parseBucket_map _ _ _ | exact parseNodeput_map _ _ _ | exact parseWaitn_map _ _ _ | exact parseRdcnt_map _ _ _ | exact parseCsrr_map _ _ _ | exact parseCsrw_map _ _ _ | exact parseXlinv_map _ _ _ | exact UniR_parse_map _ _ _ | exact UniR1_parse_map _ _ _ | exact UniP_parse_map _ _ _ | exact UniPlog_parse_map _ _ _ | exact UniX_parse_map _ _ _ | exact UniX1_parse_map _ _ _ | exact UniXP_parse_map _ _ _ | exact UniX3_parse_map _ _ _ | exact UniSel_parse_map _ _ _ | exact UniLd_parse_map _ _ _ | exact UniLd_parseQ_map _ _ _ | exact UniLd_parseK_map _ _ _ | exact UniSt_parse_map _ _ _ | exact UniSt_parseQ_map _ _ _ | exact UniCvt_parse_map _ _ _ | exact UniBox_parse_map _ _ _ | exact UniCpyG_parse_map _ _ _ | exact Branch_parse_map _ _ _ | exact parseFget_map _ _ | exact parseFset_map _ _ | exact parseInjset_map _ _ | exact dash_map _

theorem uni00Row1_map {α β : Type} (h : α → β) (g : Uni00 α) : List.Forall₂ (Reads h) (uni00Row1 g) (uni00Row1 (uni00After h g)) := by
  unfold uni00Row1
  repeat' constructor
  all_goals first | exact parse0_map _ _ | exact parseUA_map _ _ _ | exact parseULitAB_map _ _ _ | exact parseUAtom_map _ _ _ | exact parseFence_map _ _ _ | exact parseUAlloc_map _ _ _ | exact parseQfence_map _ _ _ | exact parseDpush_map _ _ _ | exact parseDpop_map _ _ _ | exact parseBucket_map _ _ _ | exact parseNodeput_map _ _ _ | exact parseWaitn_map _ _ _ | exact parseRdcnt_map _ _ _ | exact parseCsrr_map _ _ _ | exact parseCsrw_map _ _ _ | exact parseXlinv_map _ _ _ | exact UniR_parse_map _ _ _ | exact UniR1_parse_map _ _ _ | exact UniP_parse_map _ _ _ | exact UniPlog_parse_map _ _ _ | exact UniX_parse_map _ _ _ | exact UniX1_parse_map _ _ _ | exact UniXP_parse_map _ _ _ | exact UniX3_parse_map _ _ _ | exact UniSel_parse_map _ _ _ | exact UniLd_parse_map _ _ _ | exact UniLd_parseQ_map _ _ _ | exact UniLd_parseK_map _ _ _ | exact UniSt_parse_map _ _ _ | exact UniSt_parseQ_map _ _ _ | exact UniCvt_parse_map _ _ _ | exact UniBox_parse_map _ _ _ | exact UniCpyG_parse_map _ _ _ | exact Branch_parse_map _ _ _ | exact parseFget_map _ _ | exact parseFset_map _ _ | exact parseInjset_map _ _ | exact dash_map _

theorem uni00Row2_map {α β : Type} (h : α → β) (g : Uni00 α) : List.Forall₂ (Reads h) (uni00Row2 g) (uni00Row2 (uni00After h g)) := by
  unfold uni00Row2
  repeat' constructor
  all_goals first | exact parse0_map _ _ | exact parseUA_map _ _ _ | exact parseULitAB_map _ _ _ | exact parseUAtom_map _ _ _ | exact parseFence_map _ _ _ | exact parseUAlloc_map _ _ _ | exact parseQfence_map _ _ _ | exact parseDpush_map _ _ _ | exact parseDpop_map _ _ _ | exact parseBucket_map _ _ _ | exact parseNodeput_map _ _ _ | exact parseWaitn_map _ _ _ | exact parseRdcnt_map _ _ _ | exact parseCsrr_map _ _ _ | exact parseCsrw_map _ _ _ | exact parseXlinv_map _ _ _ | exact UniR_parse_map _ _ _ | exact UniR1_parse_map _ _ _ | exact UniP_parse_map _ _ _ | exact UniPlog_parse_map _ _ _ | exact UniX_parse_map _ _ _ | exact UniX1_parse_map _ _ _ | exact UniXP_parse_map _ _ _ | exact UniX3_parse_map _ _ _ | exact UniSel_parse_map _ _ _ | exact UniLd_parse_map _ _ _ | exact UniLd_parseQ_map _ _ _ | exact UniLd_parseK_map _ _ _ | exact UniSt_parse_map _ _ _ | exact UniSt_parseQ_map _ _ _ | exact UniCvt_parse_map _ _ _ | exact UniBox_parse_map _ _ _ | exact UniCpyG_parse_map _ _ _ | exact Branch_parse_map _ _ _ | exact parseFget_map _ _ | exact parseFset_map _ _ | exact parseInjset_map _ _ | exact dash_map _

theorem uni00Row3_map {α β : Type} (h : α → β) (g : Uni00 α) : List.Forall₂ (Reads h) (uni00Row3 g) (uni00Row3 (uni00After h g)) := by
  unfold uni00Row3
  repeat' constructor
  all_goals first | exact parse0_map _ _ | exact parseUA_map _ _ _ | exact parseULitAB_map _ _ _ | exact parseUAtom_map _ _ _ | exact parseFence_map _ _ _ | exact parseUAlloc_map _ _ _ | exact parseQfence_map _ _ _ | exact parseDpush_map _ _ _ | exact parseDpop_map _ _ _ | exact parseBucket_map _ _ _ | exact parseNodeput_map _ _ _ | exact parseWaitn_map _ _ _ | exact parseRdcnt_map _ _ _ | exact parseCsrr_map _ _ _ | exact parseCsrw_map _ _ _ | exact parseXlinv_map _ _ _ | exact UniR_parse_map _ _ _ | exact UniR1_parse_map _ _ _ | exact UniP_parse_map _ _ _ | exact UniPlog_parse_map _ _ _ | exact UniX_parse_map _ _ _ | exact UniX1_parse_map _ _ _ | exact UniXP_parse_map _ _ _ | exact UniX3_parse_map _ _ _ | exact UniSel_parse_map _ _ _ | exact UniLd_parse_map _ _ _ | exact UniLd_parseQ_map _ _ _ | exact UniLd_parseK_map _ _ _ | exact UniSt_parse_map _ _ _ | exact UniSt_parseQ_map _ _ _ | exact UniCvt_parse_map _ _ _ | exact UniBox_parse_map _ _ _ | exact UniCpyG_parse_map _ _ _ | exact Branch_parse_map _ _ _ | exact parseFget_map _ _ | exact parseFset_map _ _ | exact parseInjset_map _ _ | exact dash_map _

theorem uni00Row4_map {α β : Type} (h : α → β) (g : Uni00 α) : List.Forall₂ (Reads h) (uni00Row4 g) (uni00Row4 (uni00After h g)) := by
  unfold uni00Row4
  repeat' constructor
  all_goals first | exact parse0_map _ _ | exact parseUA_map _ _ _ | exact parseULitAB_map _ _ _ | exact parseUAtom_map _ _ _ | exact parseFence_map _ _ _ | exact parseUAlloc_map _ _ _ | exact parseQfence_map _ _ _ | exact parseDpush_map _ _ _ | exact parseDpop_map _ _ _ | exact parseBucket_map _ _ _ | exact parseNodeput_map _ _ _ | exact parseWaitn_map _ _ _ | exact parseRdcnt_map _ _ _ | exact parseCsrr_map _ _ _ | exact parseCsrw_map _ _ _ | exact parseXlinv_map _ _ _ | exact UniR_parse_map _ _ _ | exact UniR1_parse_map _ _ _ | exact UniP_parse_map _ _ _ | exact UniPlog_parse_map _ _ _ | exact UniX_parse_map _ _ _ | exact UniX1_parse_map _ _ _ | exact UniXP_parse_map _ _ _ | exact UniX3_parse_map _ _ _ | exact UniSel_parse_map _ _ _ | exact UniLd_parse_map _ _ _ | exact UniLd_parseQ_map _ _ _ | exact UniLd_parseK_map _ _ _ | exact UniSt_parse_map _ _ _ | exact UniSt_parseQ_map _ _ _ | exact UniCvt_parse_map _ _ _ | exact UniBox_parse_map _ _ _ | exact UniCpyG_parse_map _ _ _ | exact Branch_parse_map _ _ _ | exact parseFget_map _ _ | exact parseFset_map _ _ | exact parseInjset_map _ _ | exact dash_map _

theorem uni00Row5_map {α β : Type} (h : α → β) (g : Uni00 α) : List.Forall₂ (Reads h) (uni00Row5 g) (uni00Row5 (uni00After h g)) := by
  unfold uni00Row5
  repeat' constructor
  all_goals first | exact parse0_map _ _ | exact parseUA_map _ _ _ | exact parseULitAB_map _ _ _ | exact parseUAtom_map _ _ _ | exact parseFence_map _ _ _ | exact parseUAlloc_map _ _ _ | exact parseQfence_map _ _ _ | exact parseDpush_map _ _ _ | exact parseDpop_map _ _ _ | exact parseBucket_map _ _ _ | exact parseNodeput_map _ _ _ | exact parseWaitn_map _ _ _ | exact parseRdcnt_map _ _ _ | exact parseCsrr_map _ _ _ | exact parseCsrw_map _ _ _ | exact parseXlinv_map _ _ _ | exact UniR_parse_map _ _ _ | exact UniR1_parse_map _ _ _ | exact UniP_parse_map _ _ _ | exact UniPlog_parse_map _ _ _ | exact UniX_parse_map _ _ _ | exact UniX1_parse_map _ _ _ | exact UniXP_parse_map _ _ _ | exact UniX3_parse_map _ _ _ | exact UniSel_parse_map _ _ _ | exact UniLd_parse_map _ _ _ | exact UniLd_parseQ_map _ _ _ | exact UniLd_parseK_map _ _ _ | exact UniSt_parse_map _ _ _ | exact UniSt_parseQ_map _ _ _ | exact UniCvt_parse_map _ _ _ | exact UniBox_parse_map _ _ _ | exact UniCpyG_parse_map _ _ _ | exact Branch_parse_map _ _ _ | exact parseFget_map _ _ | exact parseFset_map _ _ | exact parseInjset_map _ _ | exact dash_map _

theorem uni00Row6_map {α β : Type} (h : α → β) (g : Uni00 α) : List.Forall₂ (Reads h) (uni00Row6 g) (uni00Row6 (uni00After h g)) := by
  unfold uni00Row6
  repeat' constructor
  all_goals first | exact parse0_map _ _ | exact parseUA_map _ _ _ | exact parseULitAB_map _ _ _ | exact parseUAtom_map _ _ _ | exact parseFence_map _ _ _ | exact parseUAlloc_map _ _ _ | exact parseQfence_map _ _ _ | exact parseDpush_map _ _ _ | exact parseDpop_map _ _ _ | exact parseBucket_map _ _ _ | exact parseNodeput_map _ _ _ | exact parseWaitn_map _ _ _ | exact parseRdcnt_map _ _ _ | exact parseCsrr_map _ _ _ | exact parseCsrw_map _ _ _ | exact parseXlinv_map _ _ _ | exact UniR_parse_map _ _ _ | exact UniR1_parse_map _ _ _ | exact UniP_parse_map _ _ _ | exact UniPlog_parse_map _ _ _ | exact UniX_parse_map _ _ _ | exact UniX1_parse_map _ _ _ | exact UniXP_parse_map _ _ _ | exact UniX3_parse_map _ _ _ | exact UniSel_parse_map _ _ _ | exact UniLd_parse_map _ _ _ | exact UniLd_parseQ_map _ _ _ | exact UniLd_parseK_map _ _ _ | exact UniSt_parse_map _ _ _ | exact UniSt_parseQ_map _ _ _ | exact UniCvt_parse_map _ _ _ | exact UniBox_parse_map _ _ _ | exact UniCpyG_parse_map _ _ _ | exact Branch_parse_map _ _ _ | exact parseFget_map _ _ | exact parseFset_map _ _ | exact parseInjset_map _ _ | exact dash_map _

theorem uni00Row7_map {α β : Type} (h : α → β) (g : Uni00 α) : List.Forall₂ (Reads h) (uni00Row7 g) (uni00Row7 (uni00After h g)) := by
  unfold uni00Row7
  repeat' constructor
  all_goals first | exact parse0_map _ _ | exact parseUA_map _ _ _ | exact parseULitAB_map _ _ _ | exact parseUAtom_map _ _ _ | exact parseFence_map _ _ _ | exact parseUAlloc_map _ _ _ | exact parseQfence_map _ _ _ | exact parseDpush_map _ _ _ | exact parseDpop_map _ _ _ | exact parseBucket_map _ _ _ | exact parseNodeput_map _ _ _ | exact parseWaitn_map _ _ _ | exact parseRdcnt_map _ _ _ | exact parseCsrr_map _ _ _ | exact parseCsrw_map _ _ _ | exact parseXlinv_map _ _ _ | exact UniR_parse_map _ _ _ | exact UniR1_parse_map _ _ _ | exact UniP_parse_map _ _ _ | exact UniPlog_parse_map _ _ _ | exact UniX_parse_map _ _ _ | exact UniX1_parse_map _ _ _ | exact UniXP_parse_map _ _ _ | exact UniX3_parse_map _ _ _ | exact UniSel_parse_map _ _ _ | exact UniLd_parse_map _ _ _ | exact UniLd_parseQ_map _ _ _ | exact UniLd_parseK_map _ _ _ | exact UniSt_parse_map _ _ _ | exact UniSt_parseQ_map _ _ _ | exact UniCvt_parse_map _ _ _ | exact UniBox_parse_map _ _ _ | exact UniCpyG_parse_map _ _ _ | exact Branch_parse_map _ _ _ | exact parseFget_map _ _ | exact parseFset_map _ _ | exact parseInjset_map _ _ | exact dash_map _

theorem uni00_map {α β : Type} (h : α → β) (g : Uni00 α) : List.Forall₂ (List.Forall₂ (Reads h)) (uni00 g) (uni00 (uni00After h g)) :=
  .cons (uni00Row0_map h g) (.cons (uni00Row1_map h g) (.cons (uni00Row2_map h g) (.cons (uni00Row3_map h g) (.cons (uni00Row4_map h g) (.cons (uni00Row5_map h g) (.cons (uni00Row6_map h g) (.cons (uni00Row7_map h g) (.nil))))))))

theorem uni01Row0_map {α β : Type} (h : α → β) (g : Uni01 α) : List.Forall₂ (Reads h) (uni01Row0 g) (uni01Row0 (uni01After h g)) := by
  unfold uni01Row0
  repeat' constructor
  all_goals first | exact parse0_map _ _ | exact parseUA_map _ _ _ | exact parseULitAB_map _ _ _ | exact parseUAtom_map _ _ _ | exact parseFence_map _ _ _ | exact parseUAlloc_map _ _ _ | exact parseQfence_map _ _ _ | exact parseDpush_map _ _ _ | exact parseDpop_map _ _ _ | exact parseBucket_map _ _ _ | exact parseNodeput_map _ _ _ | exact parseWaitn_map _ _ _ | exact parseRdcnt_map _ _ _ | exact parseCsrr_map _ _ _ | exact parseCsrw_map _ _ _ | exact parseXlinv_map _ _ _ | exact UniR_parse_map _ _ _ | exact UniR1_parse_map _ _ _ | exact UniP_parse_map _ _ _ | exact UniPlog_parse_map _ _ _ | exact UniX_parse_map _ _ _ | exact UniX1_parse_map _ _ _ | exact UniXP_parse_map _ _ _ | exact UniX3_parse_map _ _ _ | exact UniSel_parse_map _ _ _ | exact UniLd_parse_map _ _ _ | exact UniLd_parseQ_map _ _ _ | exact UniLd_parseK_map _ _ _ | exact UniSt_parse_map _ _ _ | exact UniSt_parseQ_map _ _ _ | exact UniCvt_parse_map _ _ _ | exact UniBox_parse_map _ _ _ | exact UniCpyG_parse_map _ _ _ | exact Branch_parse_map _ _ _ | exact parseFget_map _ _ | exact parseFset_map _ _ | exact parseInjset_map _ _ | exact dash_map _

theorem uni01Row1_map {α β : Type} (h : α → β) (g : Uni01 α) : List.Forall₂ (Reads h) (uni01Row1 g) (uni01Row1 (uni01After h g)) := by
  unfold uni01Row1
  repeat' constructor
  all_goals first | exact parse0_map _ _ | exact parseUA_map _ _ _ | exact parseULitAB_map _ _ _ | exact parseUAtom_map _ _ _ | exact parseFence_map _ _ _ | exact parseUAlloc_map _ _ _ | exact parseQfence_map _ _ _ | exact parseDpush_map _ _ _ | exact parseDpop_map _ _ _ | exact parseBucket_map _ _ _ | exact parseNodeput_map _ _ _ | exact parseWaitn_map _ _ _ | exact parseRdcnt_map _ _ _ | exact parseCsrr_map _ _ _ | exact parseCsrw_map _ _ _ | exact parseXlinv_map _ _ _ | exact UniR_parse_map _ _ _ | exact UniR1_parse_map _ _ _ | exact UniP_parse_map _ _ _ | exact UniPlog_parse_map _ _ _ | exact UniX_parse_map _ _ _ | exact UniX1_parse_map _ _ _ | exact UniXP_parse_map _ _ _ | exact UniX3_parse_map _ _ _ | exact UniSel_parse_map _ _ _ | exact UniLd_parse_map _ _ _ | exact UniLd_parseQ_map _ _ _ | exact UniLd_parseK_map _ _ _ | exact UniSt_parse_map _ _ _ | exact UniSt_parseQ_map _ _ _ | exact UniCvt_parse_map _ _ _ | exact UniBox_parse_map _ _ _ | exact UniCpyG_parse_map _ _ _ | exact Branch_parse_map _ _ _ | exact parseFget_map _ _ | exact parseFset_map _ _ | exact parseInjset_map _ _ | exact dash_map _

theorem uni01_map {α β : Type} (h : α → β) (g : Uni01 α) : List.Forall₂ (List.Forall₂ (Reads h)) (uni01 g) (uni01 (uni01After h g)) :=
  .cons (uni01Row0_map h g) (.cons (uni01Row1_map h g) (.nil))

theorem uni10Row0_map {α β : Type} (h : α → β) (g : Uni10 α) : List.Forall₂ (Reads h) (uni10Row0 g) (uni10Row0 (uni10After h g)) := by
  unfold uni10Row0
  repeat' constructor
  all_goals first | exact parse0_map _ _ | exact parseUA_map _ _ _ | exact parseULitAB_map _ _ _ | exact parseUAtom_map _ _ _ | exact parseFence_map _ _ _ | exact parseUAlloc_map _ _ _ | exact parseQfence_map _ _ _ | exact parseDpush_map _ _ _ | exact parseDpop_map _ _ _ | exact parseBucket_map _ _ _ | exact parseNodeput_map _ _ _ | exact parseWaitn_map _ _ _ | exact parseRdcnt_map _ _ _ | exact parseCsrr_map _ _ _ | exact parseCsrw_map _ _ _ | exact parseXlinv_map _ _ _ | exact UniR_parse_map _ _ _ | exact UniR1_parse_map _ _ _ | exact UniP_parse_map _ _ _ | exact UniPlog_parse_map _ _ _ | exact UniX_parse_map _ _ _ | exact UniX1_parse_map _ _ _ | exact UniXP_parse_map _ _ _ | exact UniX3_parse_map _ _ _ | exact UniSel_parse_map _ _ _ | exact UniLd_parse_map _ _ _ | exact UniLd_parseQ_map _ _ _ | exact UniLd_parseK_map _ _ _ | exact UniSt_parse_map _ _ _ | exact UniSt_parseQ_map _ _ _ | exact UniCvt_parse_map _ _ _ | exact UniBox_parse_map _ _ _ | exact UniCpyG_parse_map _ _ _ | exact Branch_parse_map _ _ _ | exact parseFget_map _ _ | exact parseFset_map _ _ | exact parseInjset_map _ _ | exact dash_map _

theorem uni10Row1_map {α β : Type} (h : α → β) (g : Uni10 α) : List.Forall₂ (Reads h) (uni10Row1 g) (uni10Row1 (uni10After h g)) := by
  unfold uni10Row1
  repeat' constructor
  all_goals first | exact parse0_map _ _ | exact parseUA_map _ _ _ | exact parseULitAB_map _ _ _ | exact parseUAtom_map _ _ _ | exact parseFence_map _ _ _ | exact parseUAlloc_map _ _ _ | exact parseQfence_map _ _ _ | exact parseDpush_map _ _ _ | exact parseDpop_map _ _ _ | exact parseBucket_map _ _ _ | exact parseNodeput_map _ _ _ | exact parseWaitn_map _ _ _ | exact parseRdcnt_map _ _ _ | exact parseCsrr_map _ _ _ | exact parseCsrw_map _ _ _ | exact parseXlinv_map _ _ _ | exact UniR_parse_map _ _ _ | exact UniR1_parse_map _ _ _ | exact UniP_parse_map _ _ _ | exact UniPlog_parse_map _ _ _ | exact UniX_parse_map _ _ _ | exact UniX1_parse_map _ _ _ | exact UniXP_parse_map _ _ _ | exact UniX3_parse_map _ _ _ | exact UniSel_parse_map _ _ _ | exact UniLd_parse_map _ _ _ | exact UniLd_parseQ_map _ _ _ | exact UniLd_parseK_map _ _ _ | exact UniSt_parse_map _ _ _ | exact UniSt_parseQ_map _ _ _ | exact UniCvt_parse_map _ _ _ | exact UniBox_parse_map _ _ _ | exact UniCpyG_parse_map _ _ _ | exact Branch_parse_map _ _ _ | exact parseFget_map _ _ | exact parseFset_map _ _ | exact parseInjset_map _ _ | exact dash_map _

theorem uni10Row2_map {α β : Type} (h : α → β) (g : Uni10 α) : List.Forall₂ (Reads h) (uni10Row2 g) (uni10Row2 (uni10After h g)) := by
  unfold uni10Row2
  repeat' constructor
  all_goals first | exact parse0_map _ _ | exact parseUA_map _ _ _ | exact parseULitAB_map _ _ _ | exact parseUAtom_map _ _ _ | exact parseFence_map _ _ _ | exact parseUAlloc_map _ _ _ | exact parseQfence_map _ _ _ | exact parseDpush_map _ _ _ | exact parseDpop_map _ _ _ | exact parseBucket_map _ _ _ | exact parseNodeput_map _ _ _ | exact parseWaitn_map _ _ _ | exact parseRdcnt_map _ _ _ | exact parseCsrr_map _ _ _ | exact parseCsrw_map _ _ _ | exact parseXlinv_map _ _ _ | exact UniR_parse_map _ _ _ | exact UniR1_parse_map _ _ _ | exact UniP_parse_map _ _ _ | exact UniPlog_parse_map _ _ _ | exact UniX_parse_map _ _ _ | exact UniX1_parse_map _ _ _ | exact UniXP_parse_map _ _ _ | exact UniX3_parse_map _ _ _ | exact UniSel_parse_map _ _ _ | exact UniLd_parse_map _ _ _ | exact UniLd_parseQ_map _ _ _ | exact UniLd_parseK_map _ _ _ | exact UniSt_parse_map _ _ _ | exact UniSt_parseQ_map _ _ _ | exact UniCvt_parse_map _ _ _ | exact UniBox_parse_map _ _ _ | exact UniCpyG_parse_map _ _ _ | exact Branch_parse_map _ _ _ | exact parseFget_map _ _ | exact parseFset_map _ _ | exact parseInjset_map _ _ | exact dash_map _

theorem uni10Row3_map {α β : Type} (h : α → β) (g : Uni10 α) : List.Forall₂ (Reads h) (uni10Row3 g) (uni10Row3 (uni10After h g)) := by
  unfold uni10Row3
  repeat' constructor
  all_goals first | exact parse0_map _ _ | exact parseUA_map _ _ _ | exact parseULitAB_map _ _ _ | exact parseUAtom_map _ _ _ | exact parseFence_map _ _ _ | exact parseUAlloc_map _ _ _ | exact parseQfence_map _ _ _ | exact parseDpush_map _ _ _ | exact parseDpop_map _ _ _ | exact parseBucket_map _ _ _ | exact parseNodeput_map _ _ _ | exact parseWaitn_map _ _ _ | exact parseRdcnt_map _ _ _ | exact parseCsrr_map _ _ _ | exact parseCsrw_map _ _ _ | exact parseXlinv_map _ _ _ | exact UniR_parse_map _ _ _ | exact UniR1_parse_map _ _ _ | exact UniP_parse_map _ _ _ | exact UniPlog_parse_map _ _ _ | exact UniX_parse_map _ _ _ | exact UniX1_parse_map _ _ _ | exact UniXP_parse_map _ _ _ | exact UniX3_parse_map _ _ _ | exact UniSel_parse_map _ _ _ | exact UniLd_parse_map _ _ _ | exact UniLd_parseQ_map _ _ _ | exact UniLd_parseK_map _ _ _ | exact UniSt_parse_map _ _ _ | exact UniSt_parseQ_map _ _ _ | exact UniCvt_parse_map _ _ _ | exact UniBox_parse_map _ _ _ | exact UniCpyG_parse_map _ _ _ | exact Branch_parse_map _ _ _ | exact parseFget_map _ _ | exact parseFset_map _ _ | exact parseInjset_map _ _ | exact dash_map _

theorem uni10_map {α β : Type} (h : α → β) (g : Uni10 α) : List.Forall₂ (List.Forall₂ (Reads h)) (uni10 g) (uni10 (uni10After h g)) :=
  .cons (uni10Row0_map h g) (.cons (uni10Row1_map h g) (.cons (uni10Row2_map h g) (.cons (uni10Row3_map h g) (.nil))))

theorem forall₂_getElem? {α β : Type} {R : α → β → Prop} {l : List α} {m : List β} (hl : List.Forall₂ R l m) (i : Nat) :
    (∃ a b, l[i]? = some a ∧ m[i]? = some b ∧ R a b) ∨ (l[i]? = none ∧ m[i]? = none) := by
  induction hl generalizing i with
  | nil => simp
  | cons hr _ ih => cases i with
    | zero => exact .inl ⟨_, _, rfl, rfl, hr⟩
    | succ i => simpa using ih i

theorem formAt_map {α β : Type} (h : α → β) {t : List (List (Form α))} {u : List (List (Form β))}
    (hl : List.Forall₂ (List.Forall₂ (Reads h)) t u) (k : BitVec 6) : Reads h (Form.at t k) (Form.at u k) := by
  unfold Form.at
  obtain ⟨a, b, ha, hb, hr⟩ | ⟨ha, hb⟩ := forall₂_getElem? hl (k.extractLsb' 3 3).toNat
  · rw [ha, hb]
    obtain ⟨p, q, hp, hq, hr'⟩ | ⟨hp, hq⟩ := forall₂_getElem? hr (k.extractLsb' 0 3).toNat
    · simpa only [hp, hq] using hr'
    · simpa only [hp, hq] using dash_map h
  · simpa only [ha, hb] using dash_map h

theorem uniFormAt_map {α β : Type} (h : α → β) (g0 : Uni00 α) (g1 : Uni01 α) (g2 : Uni10 α) (op : BitVec 9) :
    Reads h (uniFormAt g0 g1 g2 op) (uniFormAt (uni00After h g0) (uni01After h g1) (uni10After h g2) op) := by
  unfold uniFormAt
  split
  · exact formAt_map h (uni00_map h g0) _
  · exact formAt_map h (uni01_map h g1) _
  · exact formAt_map h (uni10_map h g2) _
  · exact formAt_map h .nil _

theorem execRead_eq (w x : Word) : execRead w x = (decodeWords w x).map exec := by
  unfold execRead decodeWords
  by_cases hw : w.getLsbD 31
  · simp only [hw, if_true]
    exact uniFormAt_map exec instrUni00 instrUni01 instrUni10 _ _ _
  · simp only [hw, Bool.false_eq_true, if_false]

@[csimp] theorem execWords_eq : @execWords = @execWordsRun := by
  funext w x s
  simp only [execWords, execWordsRun, execRead_eq]
  cases decodeWords w x <;> rfl

end Sys2Proof.Machine
end

