-- ==== Sys2Proof/Machine/Boot.lean ====
section
/-!
DEFINITION. A machine on which one given instruction issues next: a bound virtual function with one page of code, one running launch
of one weave, and the instruction's words at the pc of the agent that may issue it. It stands for the management, host and scheduler
steps by which a program comes to run (17 R344 to R350, 05 R94, R101).
-/

namespace Sys2Proof.Machine

open Sys2Proof

/-- Where the code stands: a virtual address, and as the page is mapped one to one, a physical address. -/
def bootVa : Nat := 0x10000

/-- The tables of the shadow table: levels 4, 3 and 2. -/
def bootRoot : Nat := 0x1000

/-- The entries: two next tables, and a leaf of 1 GiB that grants loads and fetches (17 R360). -/
def bootTables (s : State) : State :=
  let k := memKey s.device
  let s := writeMem s (k bootRoot) (bytesLE 8 0x8000000000002000)
  let s := writeMem s (k 0x2000) (bytesLE 8 0x8000000000003000)
  writeMem s (k 0x3000) (bytesLE 8 0xce80000000000000)

/-- A header of one role with every register, and a role circle of 64 KiB (05 R97). -/
def bootHeader : Header :=
  { steer := BitVec.ofNat 64 bootVa, kbank := 0, ksize := 0, kgen := 0, tensors := 0, pool := 0, slack := 0, wdepth := [0, 0, 0],
    priv := 0, privsz := 512,
    roles := [{ pc := BitVec.ofNat 64 bootVa, allot := 120, scopeMax := 0, min := 1, max := 1, region := 65536 }],
    succents := [], buckets := [], raw := [] }

def bootNode : NodeRec :=
  { link := 0, save := 0, shape := [0#32, 0#32, 0#32], ninst := 1, header := 0, tag := 0#32, status := 2, nsucc := 0, succ := 0, wait := 0,
    part := 0, notify := false, yieldable := false, paired := false, restartable := false, prio := 0, kind := 1, raw := 1 }

def bootLaunch (n : Nat) : Launch :=
  { serial := n, lsn := BitVec.ofNat 64 n, vf := 0, part := 0, addr := 0, node := bootNode, header := bootHeader, readyAt := 0, seq := 0,
    next := 1, ended := 0, saved := [], cores := [0], names := [(0, 0)], ncore := 1, requeues := 0, staged := [], blocks := [], freed := [], early := false, poison := none, poisons := [], freezeBad := false }

/-- Virtual function 0 bound, with core 0. -/
def bootVf : Vf :=
  { Vf.blank with state := 1, root := BitVec.ofNat 64 bootRoot, cores := 1#16 :: List.replicate 15 0#16 }

/-- The agent that may issue a word: the steer thread, the handler slot, or a weave (03 R54, R55). -/
def bootAgent (w : Word) : Agent :=
  let op := (w.extractLsb' 23 6).toNat
  match w.extractLsb' 29 3 with
  | 5#3 => if op = 4 || op = 5 || op = 7 then .steer 0 0 else .weave 0 0
  | 6#3 => if 24 ≤ op then .handler 0 else .weave 0 0
  | _ => .weave 0 0

/-- A delivery that serves the weave, for an instruction of the handler slot. -/
def bootDelivery : Delivery :=
  { target := .weave 0 0, tcause := cBRK, tpc := 0#64, tmask := 1#32, tprio := 0#16, tent := 0#32, taddr := 0#64, tinst := 0#32 }

/-- The handler slot at the code, where it is the agent. -/
def bootHandler (s : State) (a : Agent) : State :=
  match a with
  | .handler c => onCore s c (fun x => { x with handler := { x.handler with run := some bootDelivery, pc := BitVec.ofNat 64 bootVa } })
  | _ => s

/-- The words stored where the next turn fetches (DEDUCED, log entry 5). -/
def bootWith (s : State) (nbits w : Nat) : State :=
  let v := w % 2 ^ nbits
  let a := bootAgent (BitVec.ofNat 32 v)
  let n := s.nextLsn
  let s := bootTables s
  let s := writeMem s (memKey s.device bootVa) (bytesLE 64 v)
  let s := { s with turns := [.issue a], vfs := sput s.vfs 0 bootVf, launches := bootLaunch n :: s.launches, nextLsn := n + 1,
                    mgmt := { s.mgmt with phase := .full } }
  let s := onPart (putCore s 0 Core.blank) 0 (fun p => { p with up := true })
  bootHandler (startInst s 0 (bootLaunch n) 0 false).1 a

end Sys2Proof.Machine
end

