-- ==== Sys2Proof/Machine/Step.lean ====
section
/-!
DEFINITION. One step of the machine: an agent's turn to issue, or an event of the table. Which comes next is the state's list of
turns, and where it is empty a free value: the specification states no order of agents (08 R199, 04 R444).
-/

namespace Sys2Proof.Machine

open Sys2Proof

/-- The turn a step takes (DESIGN CHOICE, log entry 3). -/
def turnOf (s : State) : Turn := s.turns.headD (Config.nextTurn s.tick)

/-- The turn is taken and time passes (DESIGN CHOICE, log entry 3) (DESIGN CHOICE, log entry 4). -/
def tickOf (s : State) : State := { s with turns := s.turns.drop 1, tick := s.tick + 1, now := s.now + Config.elapsed s.tick }

/-- Whether a row of the table is an event, which takes place of its own: one without an encoding, but for the issue of a word that
is no instruction. -/
def isEvent (i : Instr) : Bool :=
  match i with
  | .wordNotInstruction => false
  | i => (encode i).isNone

/-- Whether an agent issues in its turn: it has an entry to issue, and its lane lets it (04 R64). -/
def turnEntry (s : State) (a : Agent) : Option Entry :=
  match a with
  | .weave c k =>
    match getWeave s c k with
    | some w => if laneTurn s c k w then issuing s a else none
    | none => none
  | a => issuing s a

/-- The machine in which an agent's instruction issues. -/
def focused (s : State) (a : Agent) : State :=
  match a with
  | .weave c k =>
    match getWeave s c k with
    | some w => takeTurn { s with focus := a } c k w
    | none => { s with focus := a }
  | a => { s with focus := a }

/-- An agent's turn: its words are fetched and executed, or its entry parks with the cause of the fetch (DESIGN CHOICE, log entry 6) (DEDUCED, log entry 59). -/
def issueTurn (s : State) (a : Agent) : Out :=
  match turnEntry s a with
  | none => .next s
  | some e =>
    match fetchAt (focused s a) a e.pc with
    | (.error c, s) => .next (parkAgent (begin s a e) a e 4 c)
    | (.ok w, s) => execWords w.1 w.2 s

/-- One step. -/
def step (s : State) : Host.Outcome State Fault Refusal :=
  match turnOf s with
  | .issue a => issueTurn (tickOf s) a
  | .event i => if isEvent i then exec i (tickOf s) else .next (tickOf s)

/-- The machine with one instruction where the next step fetches it (DEDUCED, log entry 5). -/
def State.withFetchWord (s : State) (nbits w : Nat) : State := bootWith s nbits w

end Sys2Proof.Machine
end

