-- ==== Sys2Proof/Safety.lean ====
section
/-!
DEFINITION. What counts as a safe state, and the words in which the statements speak of the turn of an agent: the weave and the
core as an instruction finds them, and what it leaves as it was.
-/

namespace Sys2Proof.Machine

open Sys2Proof

/-- The invariant of the machine's memory: its canonical form. -/
def State.Inv (s : State) : Prop := memWf s.mem = true

/-! ## The turn of a weave -/

/-- Weave `k` of core `c` issues from its entry `e`; `w` is the weave with the results it waited for (R62). The entry is held in the
core (a spilled one is filled first, R69), and beside it fewer than 16 entries are (R69). -/
structure LaneTurn (s : State) (c k : Nat) (e : Entry) (w : Weave) : Prop where
  focus : s.focus = .weave c k
  issues : issuing s (.weave c k) = some e
  weave : (getWeave s c k).map commitWeave = some w
  live : e.mask ≠ 0#32
  inCore : ∀ x ∈ w.frontier, x.mask = e.mask → x.spill = none
  room : (held (w.frontier.filter (fun x => x.mask &&& e.mask == 0#32))).length < 16

/-- The machine as a lane instruction's own effect finds it: results arrived, the lane taken (R47, R62). -/
def laneState (s : State) (c k : Nat) (w : Weave) : State := claimLane (putWeave s c k w) c k w

/-- Its core. -/
def laneCore (s : State) (c k : Nat) (w : Weave) : Core := getCore (laneState s c k w) c

/-! ## What an instruction leaves as it was -/

/-- A core but for its weaves, lanes, counters and value store. -/
def Core.rest (x : Core) : Core := { x with weaves := [], lanes := [], counts := [], store := [], nextSerial := 0 }

/-- From `s` to `t` nothing changed outside weave `k` of core `c` but the core's lanes, counters and value store: memory, circle
memory, caches, queues, units, handler slots, every other weave, core, virtual function, partition and launch are as they were. -/
structure Kept (s t : State) (c k : Nat) : Prop where
  rest : { t with cores := [], seq := 0 } = { s with cores := [], seq := 0 }
  cores : ∀ d, d ≠ c → getCore t d = getCore s d
  core : (getCore t c).rest = (getCore s c).rest
  weaves : ∀ j, j ≠ k → getWeave t c j = getWeave s c j

/-- A weave but for where its threads stand, its names for results and its counters. -/
def Weave.body (w : Weave) : Weave := { w with frontier := [], chain := none, vtags := [], stags := [], lstat := [], marks := [] }

/-- A weave but, besides, for what the lane forms write: v registers, predicates, flags and generators. -/
def Weave.base (w : Weave) : Weave := { w.body with v := [], vbad := [], preds := [], flags := [], gens := [] }

/-- Each thread of a mask stands, ready, at the program counter that `go` gives it (R67). -/
def Weave.stand (w : Weave) (m : Mask) (go : Nat → Double) : Prop :=
  ∀ u, m.getLsbD u = true → ∃ x ∈ w.frontier, x.mask.getLsbD u = true ∧ x.state = .ready ∧ x.pc = go u

/-- Each thread of a mask stands in the state and at the program counter that `go` gives it (R65, R67). -/
def Weave.standAs (w : Weave) (m : Mask) (go : Nat → EntryState × Double) : Prop :=
  ∀ u, m.getLsbD u = true → ∃ x ∈ w.frontier, x.mask.getLsbD u = true ∧ x.state = (go u).1 ∧ x.pc = (go u).2

/-- The threads of the other entries stand where they stood (R67, R68). -/
def Weave.others (w w' : Weave) (m : Mask) : Prop :=
  ∀ x ∈ w.frontier, x.mask &&& m = 0#32 → ∃ y ∈ w'.frontier, y.mask &&& x.mask = x.mask ∧ y.pc = x.pc ∧ y.state = x.state

/-- The core holds the other entries of the weave and `n` more (R69), so that none is spilled. -/
def Weave.fits (w : Weave) (e : Entry) (n : Nat) : Prop :=
  (held (w.frontier.filter (fun x => x.mask &&& e.mask == 0#32))).length + n ≤ 16

/-- The threads of an instruction go on at the next one. -/
def onward (e : Entry) (size : Nat) : Nat → EntryState × Double := fun _ => (.ready, e.pc + BitVec.ofNat 64 size)

/-- A lane instruction completed. `s` is the machine with the instruction's effect outside its weave, `w` the weave as the turn found
it, `w1` the weave with the effect on it: every thread of the entry stands where `go` sends it, every other entry where it stood, and
nothing else changed but the weave's names for results and the core's counters. -/
structure LaneDone (s t : State) (c k : Nat) (e : Entry) (w w1 : Weave) (go : Nat → EntryState × Double) : Prop where
  kept : Kept s t c k
  weave : ∃ w', getWeave t c k = some w' ∧ w'.body = w1.body ∧ w'.standAs e.mask go ∧ w.others w' e.mask

/-- Where a thread of an entry parks: at the instruction, or at the head of its chain (R48). -/
def headOf (w : Weave) (e : Entry) : Double := match w.chain with | some ch => ch.head | none => e.pc

/-- The threads `m` of the entry parked with a cause at the instruction, or at the head of their chain (R48, R106), with the address
`addr` of the access (R379); the others stand where `go` sends them. -/
structure LaneParked (s t : State) (c k : Nat) (e : Entry) (w w1 : Weave) (m : Mask) (cause : Nat) (addr : Double)
    (go : Nat → EntryState × Double) : Prop where
  kept : Kept s t c k
  weave : ∃ w', getWeave t c k = some w' ∧ w'.body = w1.body ∧ w.others w' e.mask ∧
    (∃ x ∈ w'.frontier, x.mask = m ∧ x.state = .parked ∧ x.cause = cause ∧ x.addr = addr ∧ x.pc = headOf w e) ∧
    w'.standAs (e.mask &&& ~~~m) go

/-- The threads of an entry ended (R75, R132): none of them stands anywhere, the others stand where they stood. -/
structure LaneGone (s t : State) (c k : Nat) (e : Entry) (w w1 : Weave) : Prop where
  kept : Kept s t c k
  weave : ∃ w', getWeave t c k = some w' ∧ w'.body = w1.body ∧ w.others w' e.mask ∧ ∀ x ∈ w'.frontier, x.mask &&& e.mask = 0#32

/-- A weave apart: no paired copy, no open region, no store on its way, so that closing its region does nothing (R110, R401). -/
structure Weave.Plain (w : Weave) : Prop where
  solo : w.pair = none
  closed : w.region = none
  drained : w.storeq = []

/-- No weave of a core waits at a barrier (R80). -/
def noBar (s : State) (c : Nat) : Prop := ∀ j w, getWeave s c j = some w → ∀ x ∈ w.frontier, ∀ n, x.state ≠ .atBar n

/-- From `w` to `w1` an instruction wrote, in v registers, the words that `f` gives by thread and register, and nothing else. -/
def Weave.sets (w w1 : Weave) (f : Nat → Nat → Option Word) : Prop :=
  { w1 with v := w.v, vbad := w.vbad } = w ∧ ∀ u r, u < 32 → readV w1 u r = (f u r).getD (readV w u r)

/-- A 64-bit value in a register pair (R32). -/
def pairAt (d : Nat) (x : Double) (r : Nat) : Option Word :=
  if r = d then some (x.extractLsb' 0 32) else if r = d + 1 then some (x.extractLsb' 32 32) else none

/-- A transfer lands at a place (R56, R129): it is a multiple of 4 in the address space, and not the second word of an instruction. -/
def lands (s : State) (c vf : Nat) (pc : Double) : Prop :=
  pc.toNat % 4 = 0 ∧ pc.toNat < 2 ^ 57 ∧ ∀ x t, fetchWord s c vf pc.toNat false = (.ok x, t) → x.toNat / 2 ^ 29 ≠ 7

/-- A thread takes a conditional transfer (R126). -/
def taken (w : Weave) (f : Branch) (u : Nat) : Bool := readP w u f.p.toNat != f.pol

/-- The target of a format-B transfer (R126): its offset counts words from its first word. -/
def branchTo (e : Entry) (f : Branch) : Double := e.pc + BitVec.ofInt 64 (4 * f.off.toInt)

/-- A register pair or address with a signed 32-bit offset added (R127). -/
def offsetBy (a b : Double) : Double := a + BitVec.ofInt 64 (b.setWidth 32 : Word).toInt

/-- The virtual function of a weave's launch. -/
def vfAt (s : State) (c k : Nat) (w : Weave) : Nat := agentVf (laneState s c k w) (.weave c k)

/-- From `s` to `t` only translation and instruction caches changed (R363, R444), with the counts of their misses. -/
structure Looked (s t : State) (c : Nat) : Prop where
  rest : { t with cores := [], parts := [], marks := [] } = { s with cores := [], parts := [], marks := [] }
  parts : ∀ p, { getPart t p with tlb2 := [] } = { getPart s p with tlb2 := [] }
  cores : ∀ d, d ≠ c → getCore t d = getCore s d
  core : { getCore t c with tlb := [], icache := [] } = { getCore s c with tlb := [], icache := [] }

/-! ## The lane arithmetic forms -/

/-- What a lane form with destination `d` leaves in register `r` of a thread for which its result is `x` (R35, R43). -/
def LDst.writes (d : LDst) (x : Double) (r : Nat) (old : Word) : Word :=
  match d with
  | .reg n wide => if r = n then x.setWidth 32 else if wide && r == n + 1 then x.extractLsb' 32 32 else old
  | _ => old

/-- The same for a predicate; p7 discards writes (R25). -/
def LDst.sets (d : LDst) (x : Double) (p : Nat) (old : Bool) : Bool :=
  match d with
  | .pred q => if p = q && q ≠ 7 then x.getLsbD 0 else old
  | .pred2 q => if p = q + 1 && q + 1 ≠ 7 then x.getLsbD 1 else if p = q && q ≠ 7 then x.getLsbD 0 else old
  | _ => old

/-- Thread `u` is one on which the instruction acts (R42). -/
def acts (w : Weave) (e : Entry) (g : Guard) (u : Nat) : Prop := u < 32 ∧ e.mask.getLsbD u = true ∧ readP w u g.p.toNat ≠ g.pol

/-- The instructions that a weave issues from an entry are not looked up in the value store: lineage is off, or the entry does not hold
every thread (R244, R261). -/
def Weave.unlooked (w : Weave) (e : Entry) : Prop := w.lmode = 0#2 ∨ e.mask ≠ BitVec.allOnes 32

/-- A lane arithmetic form completed on weave `w`: each thread on which it acts has its result `v` in the destination, unless the
form has its S bit (R46), its flags `fl` raised (R219) and its generator at `g`; every other register, predicate, flag and generator,
and all else of the machine, is as it was; the threads of the entry stand at the next instruction. -/
structure AluDone (s t : State) (c k : Nat) (e : Entry) (w : Weave) (size : Nat) (guard : Guard) (supp : Bool) (d : LDst)
    (v : Nat → Double) (fl : Nat → Flags) (g : Nat → Double) : Prop where
  kept : Kept s t c k
  weave : ∃ w', getWeave t c k = some w' ∧ w'.base = w.base ∧ w'.stand e.mask (fun _ => e.pc + BitVec.ofNat 64 size) ∧
    w.others w' e.mask ∧
    ∀ u, u < 32 →
      (acts w e guard u →
        (∀ r, readV w' u r = if supp then readV w u r else d.writes (v u) r (readV w u r)) ∧
        (∀ p, readP w' u p = if supp then readP w u p else d.sets (v u) p (readP w u p)) ∧
        readFlags w' u = readFlags w u ||| fl u ∧ readGen w' u = g u) ∧
      (¬ acts w e guard u →
        (∀ r, readV w' u r = readV w u r) ∧ (∀ p, readP w' u p = readP w u p) ∧ readFlags w' u = readFlags w u ∧
        readGen w' u = readGen w u)

/-! ## Uniform instructions -/

/-- An agent issues a uniform instruction from its entry `e`: for a weave as in LaneTurn, for a steer thread and the handler slot with the
state of the agent; no paired copy (R401) takes part. -/
structure UniTurn (s : State) (a : Agent) (e : Entry) : Prop where
  focus : s.focus = a
  issues : issuing s a = some e
  weave : ∀ c k, a = .weave c k → ∃ w, LaneTurn s c k e w
  steer : ∀ c k, a = .steer c k → ∃ i, getInst s c k = some i
  solo : isPaired (begin s a e) a = false

/-- A core but for its instances, its handler slot and its counters. -/
def Core.side (x : Core) : Core := { x with insts := [], handler := Handler.blank, counts := [] }

/-- A steer thread but for its place and its file of uniform registers. -/
def Steer.rest (x : Steer) : Steer := { x with entry := none, s := [], q := 0#4, mode := 0#32, gen := 0#64, sbad := [] }

/-- A handler slot but for its place and its file of uniform registers. -/
def Handler.rest (x : Handler) : Handler :=
  { x with pc := 0#64, wait := none, s := [], q := 0#4, mode := 0#32, gen := 0#64, sbad := [] }

/-- Nothing changed but the place and the file of an agent, the flags and the generator of a weave's threads, and counters. -/
def KeptUni (s t : State) : Agent → Prop
  | .weave c k => Kept s t c k ∧ ∃ w w', getWeave s c k = some w ∧ getWeave t c k = some w' ∧
      { w'.body with s := [], q := 0#4, mode := 0#32, sbad := [], flags := [], gens := [] }
        = { w.body with s := [], q := 0#4, mode := 0#32, sbad := [], flags := [], gens := [] }
  | .steer c k =>
      { t with cores := [], seq := 0 } = { s with cores := [], seq := 0 } ∧ (∀ d, d ≠ c → getCore t d = getCore s d) ∧
      (getCore t c).side = (getCore s c).side ∧ (getCore t c).handler = (getCore s c).handler ∧
      (∀ j, j ≠ k → getInst t c j = getInst s c j) ∧
      ∃ i i', getInst s c k = some i ∧ getInst t c k = some i' ∧ i'.steer.rest = i.steer.rest ∧ { i' with steer := i.steer } = i
  | .handler c =>
      { t with cores := [], seq := 0 } = { s with cores := [], seq := 0 } ∧ (∀ d, d ≠ c → getCore t d = getCore s d) ∧
      (getCore t c).side = (getCore s c).side ∧ (getCore t c).insts = (getCore s c).insts ∧
      (getCore t c).handler.rest = (getCore s c).handler.rest

/-- The agent goes on at a program counter: every thread of a weave's entry, a steer thread, the handler slot. -/
def goesOn (s t : State) (a : Agent) (e : Entry) (pc : Double) : Prop :=
  match a with
  | .weave c k => ∃ w w', getWeave s c k = some w ∧ getWeave t c k = some w' ∧ w'.stand e.mask (fun _ => pc) ∧ w.others w' e.mask
  | .steer c k => ∃ i x, getInst t c k = some i ∧ i.steer.entry = some x ∧ x.pc = pc ∧ x.state = .ready ∧ x.mask = e.mask
  | .handler c => (getCore t c).handler.pc = pc ∧ (getCore t c).handler.run = (getCore s c).handler.run

/-- The flags of a weave's threads; zero for the other agents. -/
def flagsOf (s : State) (a : Agent) (u : Nat) : Flags :=
  match a with
  | .weave c k => match getWeave s c k with | some w => readFlags w u | none => 0#6
  | _ => 0#6

/-- The generators of a weave's threads; zero for the other agents. -/
def genOf (s : State) (a : Agent) (u : Nat) : Double :=
  match a with
  | .weave c k => match getWeave s c k with | some w => readGen w u | none => 0#64
  | _ => 0#64

/-- What a uniform form with destination `d` leaves in s register `r`, its result `x` (R33). -/
def UDest.writes (d : UDest) (x : Double) (r : Nat) (old : Word) : Word :=
  match d with
  | .reg (.s n) wide => if r = n.toNat then x.setWidth 32 else if wide && r == n.toNat + 1 then x.extractLsb' 32 32 else old
  | _ => old

/-- The same for a uniform predicate. -/
def UDest.sets (d : UDest) (x : Double) (p : Nat) (old : Bool) : Bool :=
  match d with
  | .pred q => if p = q then x.getLsbD 0 else old
  | _ => old

/-- The same for `$mode` (R34, R221). -/
def UDest.mode (d : UDest) (x : Double) (old : Word) : Word :=
  match d with
  | .reg .mode _ => modeWrite old (x.setWidth 32)
  | _ => old

/-- The same for the flags of an active thread of a weave, which the form raises in `f` (R34, R220, R265). -/
def UDest.flags (d : UDest) (x : Double) (f old : Flags) : Flags :=
  match d with
  | .reg .flags _ => (x.setWidth 32).extractLsb' 0 6
  | _ => old ||| f

/-- A uniform arithmetic form completed from `s`, the machine when its operands had arrived: its result `x` is in its destination, its
flags `f` in the active threads of a weave, the generator it draws from at `g`, and the agent goes on after it. -/
structure UniDone (s t : State) (a : Agent) (e : Entry) (size : Nat) (d : UDest) (x : Double) (f : Flags) (g : Double) : Prop where
  kept : KeptUni s t a
  goes : goesOn s t a e (e.pc + BitVec.ofNat 64 size)
  regs : ∀ r, readS (getFile t a) r = d.writes x r (readS (getFile s a) r)
  preds : ∀ p, p < 4 → readQ (getFile t a) p = d.sets x p (readQ (getFile s a) p)
  mode : (getFile t a).mode = d.mode x (getFile s a).mode
  flags : ∀ u, u < 32 → ∀ c k, a = .weave c k →
    flagsOf t a u = if e.mask.getLsbD u then d.flags x f (flagsOf s a u) else flagsOf s a u
  gen : uniGen t a e = g
  gens : ∀ u, u < 32 → u ≠ lowest e.mask → ∀ c k, a = .weave c k → genOf t a u = genOf s a u

/-- A uniform form whose guard does not hold completed: it wrote nothing and raised no flag (R265). -/
structure UniSkip (s t : State) (a : Agent) (e : Entry) (size : Nat) : Prop where
  kept : KeptUni s t a
  goes : goesOn s t a e (e.pc + BitVec.ofNat 64 size)
  file : getFile t a = getFile s a
  threads : ∀ u, flagsOf t a u = flagsOf s a u ∧ genOf t a u = genOf s a u

/-! ## Memory accesses -/

/-- A core but for what an access of one of its agents may change. -/
def Core.quiet (x : Core) : Core :=
  { x with weaves := [], insts := [], handler := Handler.blank, lanes := [], counts := [], store := [], nextSerial := 0, tlb := [], l1 := [],
           requests := 0 }

/-- A byte of global memory with the stores that a core's slice has not written back (R202). -/
def lowByte (s : State) (c k : Nat) : Byte :=
  match sfind (sliceOf s c) (k / 64) with
  | some l => if l.dirty.getLsbD (k % 64) then l.data.getD (k % 64) 0#8 else memByte s k
  | none => memByte s k

/-- A byte of global memory with the stores that a core's L1 and its slice have not written back (R199, R202). -/
def homeByte (s : State) (c k : Nat) : Byte :=
  match sfind (getCore s c).l1 (k / 64) with
  | some l => if l.dirty.getLsbD (k % 64) then l.data.getD (k % 64) 0#8 else lowByte s c k
  | none => lowByte s c k

/-- A byte of global memory as a core's slice serves it, or memory (R199). -/
def sliceByte (s : State) (c k : Nat) : Byte :=
  match sfind (sliceOf s c) (k / 64) with
  | some l => l.data.getD (k % 64) 0#8
  | none => memByte s k

/-- A byte of global memory as the loads of a core read it past its L1 (R163): what the L1 has stored, else the slice's, but for a remote page
with stores in the L1, which are written home first (R203). -/
def pastByte (s : State) (c k : Nat) : Byte :=
  match sfind (getCore s c).l1 (k / 64) with
  | some l =>
    if l.dirty.getLsbD (k % 64) then l.data.getD (k % 64) 0#8
    else if remoteLine s (k / 64) && l.dirty != 0#64 then lowByte s c k
    else sliceByte s c k
  | none => sliceByte s c k

/-- A byte of global memory as the loads of a core read it: in its L1 line, or past the L1; a remote page always past it (R199, R203). -/
def seenByte (s : State) (c k : Nat) : Byte :=
  if remoteLine s (k / 64) then pastByte s c k
  else
    match sfind (getCore s c).l1 (k / 64) with
    | some l => l.data.getD (k % 64) 0#8
    | none => sliceByte s c k

/-- A cache in its form: each line once, whole. -/
def linesOk (t : Sparse Line) : Prop := risingFrom 0 t = true ∧ ∀ e ∈ t, e.2.data.length = 64

/-- The L1 of a core and the slice of its partition are in their form. -/
def CachesOk (s : State) (c : Nat) : Prop := linesOk (getCore s c).l1 ∧ linesOk (sliceOf s c)

/-- The caches of a machine are in their form: every L1 and every slice. -/
def State.Caches (s : State) : Prop := (∀ c, linesOk (getCore s c).l1) ∧ ∀ p, linesOk (getPart s p).l2

/-- From `s` to `t` what a core's L1 and its slice held of the stores went to memory, and nothing else changed but marks of scrubbing,
poison and recent writes, and the core. -/
structure Emptied (s t : State) (c : Nat) : Prop where
  rest : { t with cores := [], parts := [], mem := [], bad := [], unscrubbed := [], dirty := [] }
    = { s with cores := [], parts := [], mem := [], bad := [], unscrubbed := [], dirty := [] }
  parts : ∀ p, { getPart t p with l2 := [] } = { getPart s p with l2 := [] }
  slices : ∀ p, p ≠ partOf c → (getPart t p).l2 = (getPart s p).l2
  others : ∀ d, d ≠ c → getCore t d = getCore s d
  mem : CachesOk s c → ∀ k, memByte t k = homeByte s c k

/-- A core was cleared and stands as `y`: what its L1 and its slice held of the stores is in memory, nothing else changed (R351). -/
structure Cleared (s t : State) (c : Nat) (y : Core) : Prop where
  emptied : Emptied s t c
  core : getCore t c = y

/-- Nothing changed but what an access of an agent may change: its own state; its core's lanes, counters, value store, TLB and L1; the
second-level TLBs, trace messages and marks; and the bytes of global memory that `put` gives, which the core's L1 and its slice may hold. -/
structure Accessed (s t : State) (a : Agent) (put : Nat → Option Byte) : Prop where
  rest : { t with cores := [], parts := [], marks := [], seq := 0, mem := [], bad := [], unscrubbed := [], dirty := [] }
    = { s with cores := [], parts := [], marks := [], seq := 0, mem := [], bad := [], unscrubbed := [], dirty := [] }
  parts : ∀ p, { getPart t p with tlb2 := [], traces := [], l2 := [] } = { getPart s p with tlb2 := [], traces := [], l2 := [] }
  slices : ∀ p, p ≠ partOf (coreOf a) → (getPart t p).l2 = (getPart s p).l2
  cores : ∀ d, d ≠ coreOf a → getCore t d = getCore s d
  core : (getCore t (coreOf a)).quiet = (getCore s (coreOf a)).quiet
  weaves : ∀ j, a ≠ .weave (coreOf a) j → getWeave t (coreOf a) j = getWeave s (coreOf a) j
  insts : ∀ j, a ≠ .steer (coreOf a) j → getInst t (coreOf a) j = getInst s (coreOf a) j
  handler : a ≠ .handler (coreOf a) → (getCore t (coreOf a)).handler = (getCore s (coreOf a)).handler
  bytes : ∀ k, homeByte t (coreOf a) k = (put k).getD (homeByte s (coreOf a) k)

/-- What a fence leaves of a core's caches (R172, R190, R199, R200): a release at .pt or wider no store in the L1, at .tn or wider every byte as
the core stored it in memory; an acquire at .pt or wider no line in the L1, at .tn or wider none in the slice either. -/
def Fenced (s t : State) (c : Nat) (kind : FenceKind) (sc : Scope) : Prop :=
  (wide sc = true → (kind ≠ .acq → ∀ x ∈ (getCore t c).l1, x.2.dirty = 0#64) ∧ (kind ≠ .rel → (getCore t c).l1 = [])) ∧
    (beyond sc = true → (kind ≠ .acq → ∀ j, memByte t j = homeByte s c j) ∧ (kind ≠ .rel → sliceOf t c = []))

/-- Nothing written. -/
def still : Nat → Option Byte := fun _ => none

/-- A lane instruction that accesses memory completed, as in LaneDone. -/
structure LaneAccess (s t : State) (c k : Nat) (e : Entry) (w w1 : Weave) (put : Nat → Option Byte) (go : Nat → EntryState × Double) :
    Prop where
  frame : Accessed s t (.weave c k) put
  weave : ∃ w', getWeave t c k = some w' ∧ w'.body = w1.body ∧ w'.standAs e.mask go ∧ w.others w' e.mask

/-- A global access of `n` bytes at `va` meets none of the causes of R160. `l` is the leaf of its page: the walk gives it, and so does each
TLB that covers the address (R360 to R363). -/
structure Reaches (s : State) (a : Agent) (va n : Nat) (acc : Acc) (l : Leaf) : Prop where
  aligned : va % n = 0
  inside : va < 2 ^ 57
  walks : walk s (agentVf s a) va = .ok l
  held : ∀ y, y ∈ (getCore s (coreOf a)).tlb ∨ y ∈ (getPart s (partOf (coreOf a))).tlb2 → covers (agentVf s a) va y = true → y = l
  allowed : pageCause l acc (isHandler a) = none
  free : isHandler a = false → inSpill s a va n = false ∧ watched (getVf s (agentVf s a)) acc va n = false

/-- The leaves of some addresses agree: an address that the leaf of another covers has that leaf. -/
def agree (s : State) (a : Agent) (m : Mask) (va : Nat → Nat) (l : Nat → Leaf) : Prop :=
  ∀ u v, m.getLsbD u = true → m.getLsbD v = true → covers (agentVf s a) (va v) (l u) = true → l v = l u

/-- The unit of a byte holds no poisoned data, in the core's L1, in its slice or in memory (R395, R396). -/
def sound (s : State) (c k : Nat) : Prop :=
  (∀ l, sfind (getCore s c).l1 (k / 64) = some l ∨ sfind (sliceOf s c) (k / 64) = some l → l.bad = false ∧ l.data.length = 64) ∧
    memBad s (k / 64 * 64) 64 = false

/-- A byte of global memory as a qualified load of a core reads it (R163, R199, R200): an acquire at .tn or wider finds the stores of the L1 and
the slice in memory, one at .pt and `.nl1` read past the L1. -/
def qualByte (s : State) (c : Nat) (q : Qual) : Nat → Byte :=
  if q.order = .acq ∧ beyond q.scope then homeByte s c
  else if q.cache = .nl1 ∨ (q.order = .acq ∧ wide q.scope) then pastByte s c
  else seenByte s c

/-- A byte as an agent reads it: one staged by its own node (R398), else what its core gives. -/
def ownByte (s : State) (a : Agent) (below : Nat → Byte) (k : Nat) : Byte :=
  match (agentLaunch s a).bind (fun l => sfind l.staged k) with
  | some b => b
  | none => below k

/-- The writes and frees of an agent are not staged (R398). -/
def direct (s : State) (a : Agent) : Prop := ∀ l, agentLaunch s a = some l → staging l = false ∧ l.staged = [] ∧ l.freed = []

/-- A result in a register, or in a pair. -/
def regAt (d : Nat) (wide : Bool) (x : Double) (r : Nat) : Option Word :=
  if wide then pairAt d x r else if r = d then some (x.setWidth 32) else none

/-- The low bytes of a value, in the order of their addresses (R3). -/
def lowBytes (n : Nat) (x : Double) : List Byte := (List.range n).map (fun j => x.extractLsb' (8 * j) 8)

/-- What an agent's own state keeps when a uniform form accesses memory: all but its place, its registers and what is on its way. -/
def KeptAgent (s t : State) : Agent → Prop
  | .weave c k => ∃ w w', getWeave s c k = some w ∧ getWeave t c k = some w' ∧
      { w'.body with s := [], q := 0#4, mode := 0#32, sbad := [], flags := [], inflight := [], storeq := [] }
        = { w.body with s := [], q := 0#4, mode := 0#32, sbad := [], flags := [], inflight := [], storeq := [] }
  | .steer c k => ∃ i i', getInst s c k = some i ∧ getInst t c k = some i' ∧ { i' with steer := i.steer } = i ∧
      { i'.steer.rest with inflight := [], storeq := [] } = { i.steer.rest with inflight := [], storeq := [] }
  | .handler c => { (getCore t c).handler.rest with inflight := [], storeq := [] }
      = { (getCore s c).handler.rest with inflight := [], storeq := [] }

/-- The file of an agent once its results have arrived (R62). -/
def afterArrival (s : State) (a : Agent) : UFile := getFile (commitAgent s a) a

/-- A uniform instruction that accesses memory completed, from `s`, the machine when its operands had arrived. -/
structure UniAccess (s t : State) (a : Agent) (e : Entry) (size : Nat) (put : Nat → Option Byte) : Prop where
  frame : Accessed s t a put
  agent : KeptAgent s t a
  goes : goesOn s t a e (e.pc + BitVec.ofNat 64 size)

/-- A uniform form left the value `x` in its destination, once it has arrived (R34, R158), and nothing else in its agent's file. -/
structure UniGot (s t : State) (a : Agent) (e : Entry) (d : UDest) (x : Double) : Prop where
  regs : ∀ r, readS (afterArrival t a) r = d.writes x r (readS (getFile s a) r)
  preds : (afterArrival t a).q = (getFile s a).q
  mode : (afterArrival t a).mode = d.mode x (getFile s a).mode
  flags : ∀ u, u < 32 → ∀ c k, a = .weave c k →
    flagsOf t a u = if e.mask.getLsbD u then d.flags x 0#6 (flagsOf s a u) else flagsOf s a u

/-- A uniform form left its agent's file as it was. -/
def UniKept (s t : State) (a : Agent) : Prop := afterArrival t a = getFile s a ∧ ∀ u, flagsOf t a u = flagsOf s a u

/-- A uniform instruction completed from `s`, the machine when its operands had arrived: the agent goes on at `pc` with the file `f`; its
threads' flags and generators are as they were. -/
structure UniMoved (s t : State) (a : Agent) (e : Entry) (pc : Double) (f : UFile) : Prop where
  kept : KeptUni s t a
  goes : goesOn s t a e pc
  file : getFile t a = f
  threads : ∀ u, flagsOf t a u = flagsOf s a u ∧ genOf t a u = genOf s a u

/-- A uniform instruction waits at its place. -/
structure UniWaits (s t : State) (a : Agent) (e : Entry) (v : Wait) : Prop where
  kept : KeptUni s t a
  file : getFile t a = getFile s a
  waits : match a with
    | .weave c k => ∃ w w', getWeave s c k = some w ∧ getWeave t c k = some w' ∧ w'.standAs e.mask (fun _ => (.waiting v, e.pc)) ∧
        w.others w' e.mask
    | .steer c k => ∃ i x, getInst t c k = some i ∧ i.steer.entry = some x ∧ x.pc = e.pc ∧ x.state = .waiting v
    | .handler c => (getCore t c).handler.wait = some v ∧ (getCore t c).handler.pc = (getCore s c).handler.pc

/-- A uniform form may issue at its place (R48, R54 to R56, R378). -/
def uniOk (s : State) (a : Agent) (e : Entry) (size : Nat) (p : Place) : Prop :=
  uniCause s a e { size := size, chain := false, elig := false, place := p } = none

/-- As `lands`, for any agent. -/
def landsFor (s : State) (a : Agent) (pc : Double) : Prop :=
  pc.toNat % 4 = 0 ∧ pc.toNat < 2 ^ 57 ∧
    ∀ x t, fetchWord s (coreOf a) (agentVf s a) pc.toNat (isHandler a) = (.ok x, t) → x.toNat / 2 ^ 29 ≠ 7

/-- A steer thread's entry has the mask 1, as that of the handler slot. -/
def soleMask (a : Agent) (e : Entry) : Prop := ∀ c k, a = .steer c k → e.mask = 1#32

/-! ## Engine commands -/

/-- A command at the end of queue `q` of a core (R177). -/
def queued (s : State) (c q : Nat) (m : Cmd) : State := onCore s c (fun x => { x with queues := x.queues.modify q (· ++ [m]) })

/-- The commands in a queue of a core. -/
def inQueue (s : State) (c q : Nat) : List Cmd := (getCore s c).queues.getD q []

/-- A command as an agent issues it from its entry (R177, R183). -/
def cmdOf (s : State) (a : Agent) (e : Entry) (tid : Nat) (ctr : Option (Double × Scope)) (op : CmdOp) (n : Nat) : Cmd :=
  { op := op, issuer := a, inst := (agentInst s a).getD 0, pc := e.pc, prio := e.prio, tid := tid, ctr := ctr, seq := n, window := windowOf s a,
    fault := none, started := false, held := false }

/-- The counter of a command is a multiple of 8 and its scope is not denied (R180, R215). -/
def ctrFine (s : State) (a : Agent) (ctr : Option (Double × Scope)) : Prop :=
  ∀ v sc, ctr = some (v, sc) → v.toNat % 8 = 0 ∧ scopeDenied s a sc = false

/-- The command of a lane form with the effect `s2` enters queue `q`, or its entry waits while the queue holds 16. -/
def Enters (i : Instr) (s s2 : State) (c k : Nat) (e : Entry) (w : Weave) (size q : Nat) (m : Nat → Cmd) (after : Core → Core) : Prop :=
  ((inQueue s2 c q).length < 16 → ∃ t n, exec i s = .next t ∧ LaneDone (onCore (queued s2 c q (m n)) c after) t c k e w w (onward e size)) ∧
  (16 ≤ (inQueue s2 c q).length → ∃ t, exec i s = .next t ∧ LaneDone s2 t c k e w w (fun _ => (.waiting (.queue q), e.pc)))

/-- The same for a uniform form. -/
def UniEnters (i : Instr) (s s2 : State) (a : Agent) (e : Entry) (q : Nat) (m : Nat → Cmd) : Prop :=
  ((inQueue s2 (coreOf a) q).length < 16 → ∃ t n, exec i s = .next t ∧
    UniMoved (queued s2 (coreOf a) q (m n)) t a e (e.pc + 8#64) (getFile s2 a)) ∧
  (16 ≤ (inQueue s2 (coreOf a) q).length → ∃ t, exec i s = .next t ∧ UniWaits s2 t a e (.queue q))

/-- An agent has no store on its way and no open region. -/
def settled (s : State) (a : Agent) : Prop :=
  queueOf s a = [] ∧ ∀ c k w, a = .weave c k → getWeave s c k = some w → w.Plain

/-! ## Constants, blocks -/

/-- From `s` to `t` only translation and constant caches changed (R166, R363), with the counts of their misses. -/
structure Consulted (s t : State) (c : Nat) : Prop where
  rest : { t with cores := [], parts := [], marks := [] } = { s with cores := [], parts := [], marks := [] }
  parts : ∀ p, { getPart t p with tlb2 := [] } = { getPart s p with tlb2 := [] }
  cores : ∀ d, d ≠ c → getCore t d = getCore s d
  core : { getCore t c with tlb := [], ccache := [] } = { getCore s c with tlb := [], ccache := [] }

/-- A bank load of `n` bytes at offset `off` meets no cause, and what the constant cache holds is what memory holds (R166, R444). -/
structure BankReaches (s : State) (a : Agent) (n off : Nat) (l : Leaf) : Prop where
  inBank : off % n = 0 ∧ off + n ≤ (bankOf s a).2.1
  aligned : (bankOf s a).1 % 8 = 0
  reach : Reaches s a ((bankOf s a).1 + off) 1 .load l
  good : memBad s (leafKey s l ((bankOf s a).1 + off) / 64 * 64) 64 = false
  held : ∀ x d, sfind (getCore s (coreOf a)).ccache x = some d → d = memBytes s (x * 64) 64

/-- The address of a block of a class in a chunk given to the class (R173). -/
def isBlock (v : Vf) (a cls : Nat) : Prop :=
  ∃ j i, sfind v.chunks j = some cls ∧ i < 2 ^ 20 / blockSize cls ∧ a = v.heap.toNat + j * 2 ^ 20 + i * blockSize cls

/-- The heap of a virtual function in its form: chunks of the heap, each of one class, and every allocated block in a chunk of its class. -/
structure HeapOk (v : Vf) : Prop where
  form : risingFrom 0 v.chunks = true
  chunks : ∀ j cls, sfind v.chunks j = some cls → j < v.heapsz.toNat ∧ cls < 16
  blocks : ∀ a cls, sfind v.blocks a = some cls → isBlock v a cls

/-- The heap lies on private pages that may be written (R354). -/
def heapWritable (s : State) (vf : Nat) : Prop :=
  ∀ a, (getVf s vf).heap.toNat ≤ a → a < (getVf s vf).heap.toNat + (getVf s vf).heapsz.toNat * 2 ^ 20 → blockCause s vf a = none

/-- From `s` to `t` the skein gave blocks: `n u` bytes asked by each of some threads, `got u` the block that each got (R173, R174). -/
structure Gave (s t : State) (vf : Nat) (asks : Nat → Bool) (n : Nat → Nat) (got : Nat → Option Nat) : Prop where
  others : ∀ v, v ≠ vf → getVf t v = getVf s v
  rest : { getVf t vf with chunks := [], blocks := [] } = { getVf s vf with chunks := [], blocks := [] }
  fresh : ∀ u a, asks u = true → got u = some a → ∃ cls, classOf (n u) = some cls ∧ isBlock (getVf t vf) a cls ∧
    sfind (getVf s vf).blocks a = none ∧ sfind (getVf t vf).blocks a = some cls
  apart : ∀ u u' a, asks u = true → asks u' = true → got u = some a → got u' = some a → u = u'
  kept : ∀ a cls, sfind (getVf s vf).blocks a = some cls → sfind (getVf t vf).blocks a = some cls
  none : ∀ u, asks u = true → got u = none →
    2 ^ 20 < n u ∨ ∃ cls, classOf (n u) = some cls ∧ freeBlocks (getVf t vf) cls = [] ∧ freeChunks (getVf t vf) = []

/-- From `s` to `t` the skein took back the blocks at some addresses (R175). -/
structure TookBack (s t : State) (vf : Nat) (at_ : Nat → Bool) : Prop where
  others : ∀ v, v ≠ vf → getVf t v = getVf s v
  rest : { getVf t vf with blocks := [] } = { getVf s vf with blocks := [] }
  blocks : ∀ a, sfind (getVf t vf).blocks a = if at_ a && a != 0 then none else sfind (getVf s vf).blocks a

/-! ## Events between instructions -/

/-- An entry stands in a weave, held in its core, with room for every other entry: what waits there may move on. -/
structure Standing (s : State) (c k : Nat) (e : Entry) (w : Weave) : Prop where
  weave : getWeave s c k = some w
  inIt : e ∈ w.frontier
  live : e.mask ≠ 0#32
  alone : ∀ x ∈ w.frontier, x.mask &&& e.mask ≠ 0#32 → x = e
  inCore : e.spill = none
  room : (held (w.frontier.filter (fun x => x.mask &&& e.mask == 0#32))).length < 16

/-- The last value that a list of writes gives a key. -/
def latest {α : Type} (l : List (Nat × α)) (i : Nat) : Option α := (l.reverse.find? (fun e => e.1 == i)).map (fun e => e.2)

/-- The byte that the newest of some thread stores gives an address of global memory, or of circle memory. -/
def newest (l : List ThreadStore) (k : Nat) : Option Byte :=
  (l.reverse.find? (fun x => decide (x.key ≤ k) && decide (k < x.key + x.data.length))).bind (fun x => x.data[k - x.key]?)

/-- A thread store of whole bytes, naturally aligned (R157, R160). -/
def wholeStore (circle : Bool) (x : ThreadStore) : Prop :=
  x.circle = circle ∧ x.bits = [] ∧ x.data.length ∈ [1, 2, 4, 8] ∧ x.key % x.data.length = 0

/-- What a granted `join` of a tag and a size does (R78, R138): the weave is a member of the circle of the tag, made with a region of zeros where
there is none. -/
structure JoinDone (s t : State) (c k : Nat) (e : Entry) (w : Weave) (i : Inst) (tag size : Nat) : Prop where
  joins : ∀ z, i.circles.find? (fun y => y.role.isNone && y.tag == tag) = some z →
    LaneDone (onInst s c w.inst (fun i => { i with circles := i.circles.map (fun y =>
      if y.id = z.id then { y with members := ninsert y.members k } else y) })) t c k e w { w with circles := z.id :: w.circles } (onward e 4)
  makes : i.circles.find? (fun y => y.role.isNone && y.tag == tag) = none → ∃ base,
    { t with cores := [], seq := 0 } = { s with cores := [], seq := 0 } ∧ (∀ d, d ≠ c → getCore t d = getCore s d) ∧
    (∀ j, j ≠ k → getWeave t c j = getWeave s c j) ∧ (∀ j, j ≠ w.inst → getInst t c j = getInst s c j) ∧
    (∀ y ∈ i.circles.filter (fun y => y.role.isNone), base + size ≤ y.base ∨ y.base + y.size ≤ base) ∧
    getInst t c w.inst = some { i with nextCircle := i.nextCircle + 1, circles := i.circles ++
      [{ id := i.nextCircle, role := none, tag := tag, base := base, size := size, members := [k] }] } ∧
    (∀ o, base ≤ o → o < base + size → sget 0#8 (getCore t c).cmem o = 0#8) ∧
    (∀ g, base ≤ 16 * g → 16 * g < base + size → nmem (getCore t c).full g = false) ∧
    (∀ o, o < base ∨ base + size ≤ o → sget 0#8 (getCore t c).cmem o = sget 0#8 (getCore s c).cmem o) ∧
    ∃ w', getWeave t c k = some w' ∧ w'.body = { w with circles := i.nextCircle :: w.circles }.body ∧
      w'.standAs e.mask (onward e 4) ∧ w.others w' e.mask

/-- A `wpop` left a record, or zeros, in a register, and in a predicate whether there was one (R84). -/
def Popped (w w1 : Weave) (e : Entry) (d p : Nat) (r : List Word) (b : Bool) : Prop :=
  { w1 with v := w.v, vbad := w.vbad, preds := w.preds } = w ∧ ∀ u, u < 32 →
    (∀ q, readV w1 u q = if e.mask.getLsbD u ∧ q = d then r.getD u 0#32 else readV w u q) ∧
    (∀ q, readP w1 u q = if e.mask.getLsbD u ∧ q = p ∧ q ≠ 7 then b else readP w u q)

/-- An agent waits from its entry `e`, and no result is on its way to it. -/
structure Waiting (s : State) (a : Agent) (e : Entry) : Prop where
  stands : ∀ c k, a = .weave c k → ∃ w, Standing s c k e w
  arrived : commitAgent s a = s

/-! ## Engine events -/

/-- The command at the head of a queue is `m` and may be performed: it belongs to no pair, a slath is idle, and its instance has live weaves. -/
structure Performs (s : State) (c q : Nat) (m : Cmd) : Prop where
  head : headCmd s c q = some m
  solo : pairOf s m.issuer = none
  idle : q = 2 → (getCore s c).tile = none
  lives : weavesOf (getCore s c) m.inst ≠ []

/-- From `s`, the machine with a command's effect and its counter increased, the command left its queue (R177); a circle without members whose region it
named may be gone (R79). -/
structure Completed (s t : State) (c q : Nat) (m : Cmd) : Prop where
  rest : { t with cores := [] } = { s with cores := [] }
  cores : ∀ d, d ≠ c → getCore t d = getCore s d
  core : { getCore t c with queues := [], fences := [], insts := [] } = { getCore s c with queues := [], fences := [], insts := [] }
  queues : ∀ p, inQueue t c p = if p = q then (inQueue s c q).drop 1 else inQueue s c p
  insts : ∀ j, (getInst t c j).map (fun i => { i with circles := [] }) = (getInst s c j).map (fun i => { i with circles := [] })
  others : ∀ j, j ≠ m.inst → getInst t c j = getInst s c j

/-! ## Failures -/

/-- A launch stopped and its node failed (R108, R372): no core holds an instance of it, its node's status is 4, where the table, with the
stores of its cores in memory, permits the write, and its failure notice is sent. -/
structure Failed (s t : State) (l : Launch) (reason cause cause2 : Nat) : Prop where
  gone : getLaunch t l.serial = none
  others : ∀ n, n ≠ l.serial → getLaunch t n = getLaunch s n
  insts : ∀ c i y, getInst t c i = some y → y.serial ≠ l.serial
  notice : t.out = s.out ++ [.notice l.vf (noticeBytes 2 reason cause cause2 l.node.tag l.addr l.lsn 0)]
  status : ∀ k, k % 2 = 0 → selfKey (l.cores.foldl flushL1 s) l.vf (l.addr + 18) true = .ok k → memByte t k = 4#8 ∧ memByte t (k + 1) = 0#8

/-! ## Instances taken off a core -/

/-- A copy of an instance left its core for the saved state of its launch (R112, R114, R115): its weaves are saved with their roles, numbers and
allotments, and its stores are in memory. -/
structure TakenOff (s t : State) (c i : Nat) (y : Inst) (l : Launch) : Prop where
  gone : getInst t c i = none
  weaves : ∀ k w, getWeave t c k = some w → w.inst ≠ i
  others : ∀ j, j ≠ i → getInst t c j = getInst s c j
  written : ∀ x, x ∈ (getCore t c).l1 ∨ x ∈ sliceOf t c → x.2.dirty = 0#64
  saved : ∃ l' v, getLaunch t l.serial = some l' ∧ l'.saved = l.saved ++ [v] ∧ v.inst.num = y.num ∧ v.inst.decisions = y.decisions ∧
    (v.weaves.map (fun w => (w.role, w.wid, w.allot))).Perm ((weavesOf (getCore s c) i).map (fun e => (e.2.role, e.2.wid, e.2.allot)))

/-- An instance of one copy that stands on a core with its launch, no tile of it in progress. -/
structure Lone (s : State) (c i : Nat) (y : Inst) (l : Launch) : Prop where
  inst : getInst s c i = some y
  launch : getLaunch s y.serial = some l
  alone : copiesOf s c i = [(c, i)]
  noTile : (getCore s c).tile = none
  order : risingFrom 0 (getCore s c).weaves = true

/-! ## Writes made in memory itself -/

/-- Bytes were written in memory at a place, and nothing else changed but marks of scrubbing, poison and recent writes (R353, R396). -/
structure Stored (s t : State) (k : Nat) (d : List Byte) : Prop where
  rest : { t with mem := [], bad := [], unscrubbed := [], dirty := [] } = { s with mem := [], bad := [], unscrubbed := [], dirty := [] }
  bytes : ∀ j, memByte t j = if k ≤ j ∧ j < k + d.length then d.getD (j - k) 0#8 else memByte s j

/-- The status field of a node record holds a number, where its virtual function's table permits the write (R93). -/
def statusIs (s t : State) (vf addr n : Nat) : Prop :=
  ∀ k, k % 2 = 0 → selfKey s vf (addr + 18) true = .ok k → memBytes t k 2 = bytesLE 2 n

/-- A message sent, and nothing else. -/
def told (s : State) (m : Msg) : State := { s with out := s.out ++ [m] }

/-- A weave as it starts in its role (R59, R225, R261). -/
def Fresh (w : Weave) (r : RoleRec) (lsn : Double) (num : Nat) : Prop :=
  w.allot = r.allot ∧ w.frontier = [entryAt r.pc 0#16 (BitVec.allOnes 32) .ready] ∧ w.mode = modeStart ∧ w.lmode = 2#2 ∧
    (∀ u q, readV w u q = 0#32) ∧ (∀ q, readS (weaveFile w) q = 0#32) ∧ ∀ u, u < 32 → readGen w u = genStart lsn num w.role w.wid u

end Sys2Proof.Machine
end

