-- ==== Sys2Proof/Rules.lean ====
section
/-!
DEFINITION. What the rules of chapters 11 and 12 give each arithmetic form, written from the rules on unbounded integers and exact
values, apart from the machine's own operations, and the tables of the forms that the statements speak of.
-/

namespace Sys2Proof.Rules

open Sys2Proof Sys2Proof.Machine

/-! ## The helpers of chapter 11 -/

/-- `wrap(x, w)`. -/
def wrap (w : Nat) (x : Int) : BitVec w := BitVec.ofInt w x

/-- `sat(x, lo, hi)`. -/
def sat (lo hi x : Int) : Int := max lo (min hi x)

/-- SAT where x lies outside lo..hi. -/
def clamped (lo hi x : Int) : Flags := if lo ≤ x ∧ x ≤ hi then 0#6 else fSAT

/-- A 32-bit operation on the low halves of its operands, its result zero-extended (R47). -/
def of32 (f : Word → Word → Word × Flags) (a b : Double) : Double × Flags :=
  let r := f (a.setWidth 32) (b.setWidth 32)
  (r.1.setWidth 64, r.2)

/-- One that raises no flag. -/
def pure32 (f : Word → Word → Word) : Double → Double → Double × Flags := of32 (fun a b => (f a b, 0#6))

def pure64 (f : Double → Double → Double) (a b : Double) : Double × Flags := (f a b, 0#6)

/-! ## Integer arithmetic (R268 to R272) -/

def add (w : Nat) (a b : BitVec w) : BitVec w := wrap w (a.toNat + b.toNat)
def sub (w : Nat) (a b : BitVec w) : BitVec w := wrap w (a.toNat - b.toNat)
def mul (w : Nat) (a b : BitVec w) : BitVec w := wrap w (a.toNat * b.toNat)
def mad (w : Nat) (a b c : BitVec w) : BitVec w := wrap w (a.toNat * b.toNat + c.toNat)

/-- Bits 63:32 of the exact product (R269). -/
def mulhiN (a b : Word) : Word := (wrap 64 (a.toNat * b.toNat)).extractLsb' 32 32
def mulhiI (a b : Word) : Word := (wrap 64 (a.toInt * b.toInt)).extractLsb' 32 32

def satN32 (x : Int) : Word × Flags := (wrap 32 (sat 0 (2 ^ 32 - 1) x), clamped 0 (2 ^ 32 - 1) x)
def satI32 (x : Int) : Word × Flags := (wrap 32 (sat (-(2 ^ 31)) (2 ^ 31 - 1) x), clamped (-(2 ^ 31)) (2 ^ 31 - 1) x)

/-- The borderline table of R271, and the exact truncated quotient elsewhere. -/
def divN (w : Nat) (a b : BitVec w) : BitVec w × Flags :=
  if b.toNat = 0 then (BitVec.allOnes w, fDZ) else (wrap w (a.toNat / b.toNat), 0#6)

def divI (w : Nat) (a b : BitVec w) : BitVec w × Flags :=
  if b.toInt = 0 then (wrap w (if 0 ≤ a.toInt then 2 ^ (w - 1) - 1 else -(2 ^ (w - 1))), fDZ)
  else if a.toInt = -(2 ^ (w - 1)) ∧ b.toInt = -1 then (wrap w (2 ^ (w - 1) - 1), fSAT)
  else (wrap w (a.toInt.tdiv b.toInt), 0#6)

/-- The remainder: a = q × b + r with the truncated quotient q (R271). -/
def remN (a b : Word) : Word × Flags := if b.toNat = 0 then (a, fDZ) else (wrap 32 (a.toNat - b.toNat * (a.toNat / b.toNat)), 0#6)
def remI (a b : Word) : Word × Flags := if b.toInt = 0 then (a, fDZ) else (wrap 32 (a.toInt - b.toInt * a.toInt.tdiv b.toInt), 0#6)

def smallerN (a b : Word) : Word := wrap 32 (min (a.toNat : Int) b.toNat)
def smallerI (a b : Word) : Word := wrap 32 (min a.toInt b.toInt)
def largerN (a b : Word) : Word := wrap 32 (max (a.toNat : Int) b.toNat)
def largerI (a b : Word) : Word := wrap 32 (max a.toInt b.toInt)

/-! ## Bit operations (R273 to R277) -/

/-- The shifts of R274; `n` is the count. -/
def shl (w : Nat) (a : BitVec w) (n : Nat) : BitVec w := wrap w (a.toNat * 2 ^ n)
def shr (w : Nat) (a : BitVec w) (n : Nat) : BitVec w := wrap w (a.toNat / 2 ^ n)
def sar (w : Nat) (a : BitVec w) (n : Nat) : BitVec w := wrap w (a.toInt / 2 ^ n)

/-- A 64-bit shift: source a a pair, source b one register. -/
def shift64 (f : Double → Nat → Double) (a b : Double) : Double × Flags := (f a (b.setWidth 32).toNat, 0#6)

def popc (a : Word) : Word := wrap 32 (((List.range 32).filter a.getLsbD).length)
def clz (a : Word) : Word := wrap 32 (((List.range 32).takeWhile (fun i => !a.getLsbD (31 - i))).length)
def brev (a : Word) : Word := a.reverse

/-- Bit i of a as `bfe` reads it: at or above 32, 0 or the sign (R276). -/
def fieldBit (signed : Bool) (a : Word) (i : Nat) : Bool := if i < 32 then a.getLsbD i else signed && a.getLsbD 31

/-- `bfe` bit by bit: bit i of the result is bit p + i of the field, and above it 0 or the field's highest bit (R276). -/
def bfe (signed : Bool) (a b : Word) : Word :=
  let p := (b.extractLsb' 0 8).toNat
  let q := (b.extractLsb' 8 8).toNat
  let q' := min q 32
  if q = 0 then 0#32
  else BitVec.ofFnLE (fun i : Fin 32 => if i.val < q' then fieldBit signed a (p + i.val) else signed && fieldBit signed a (p + q' - 1))

/-- `bfi` bit by bit (R277). -/
def bfi (a b c : Word) : Word :=
  let p := (c.extractLsb' 0 8).toNat
  let q := (c.extractLsb' 8 8).toNat
  BitVec.ofFnLE (fun i : Fin 32 => if p ≤ i.val ∧ i.val < p + q then b.getLsbD (i.val - p) else a.getLsbD i.val)

/-- The rounding shift of R286. -/
def shrr (a : Word) (n : Nat) : Int := if n = 0 then a.toInt else if 32 ≤ n then 0 else (a.toInt + 2 ^ (n - 1)) / 2 ^ n

/-! ## Packed forms (R283 to R285) -/

/-- Element k of 16 bits. -/
def e16 (x : Word) (k : Nat) : BitVec 16 := x.extractLsb' (16 * k) 16
def e8 (x : Word) (k : Nat) : BitVec 8 := x.extractLsb' (8 * k) 8

/-- The i16x2 forms: each element's exact value, cut to 16 bits by `wrap` or `sat`. -/
def halves (satd : Bool) (f : Int → Int → Int) (a b : Word) : Word × Flags :=
  let x := fun k => f (e16 a k).toInt (e16 b k).toInt
  let cut := fun y => if satd then wrap 16 (sat (-32768) 32767 y) else wrap 16 y
  let fl := fun y => if satd then clamped (-32768) 32767 y else 0#6
  (cut (x 1) ++ cut (x 0), fl (x 0) ||| fl (x 1))

/-- The n8x4 forms. -/
def bytes (satd : Bool) (f : Int → Int → Int) (a b : Word) : Word × Flags :=
  let x := fun k => f (e8 a k).toNat (e8 b k).toNat
  let cut := fun y => if satd then wrap 8 (sat 0 255 y) else wrap 8 y
  let fl := fun y => if satd then clamped 0 255 y else 0#6
  (cut (x 3) ++ cut (x 2) ++ cut (x 1) ++ cut (x 0), fl (x 0) ||| fl (x 1) ||| fl (x 2) ||| fl (x 3))

def pack (a b : Word) : Word × Flags :=
  (wrap 16 (sat (-32768) 32767 b.toInt) ++ wrap 16 (sat (-32768) 32767 a.toInt),
   clamped (-32768) 32767 a.toInt ||| clamped (-32768) 32767 b.toInt)

def pdot2 (a b c : Word) : Word × Flags :=
  satI32 (c.toInt + (e16 a 0).toInt * (e16 b 0).toInt + (e16 a 1).toInt * (e16 b 1).toInt)

/-! ## Compares (R281, R282) -/

/-- a C b for the six conditions of `cmp`. -/
def holds (c : Cond) (a b : Int) : Bool :=
  match c with
  | .eq => decide (a = b)
  | .ne => !decide (a = b)
  | .lt => decide (a < b)
  | .le => decide (a < b) || decide (a = b)
  | .gt => !(decide (a < b) || decide (a = b))
  | .ge => !decide (a < b)
  | .un => false
  | .ord => true

def bit (b : Bool) : Double := if b then 1#64 else 0#64

/-! ## Floating point (R292 to R296) -/

/-- The exact value of the low bits of an operand in a format (R217). -/
def val (f : Fmt) (a : Double) : Xv := f.value (a.toNat % 2 ^ (1 + f.eb + f.fb))

/-- An exact value rounded once, its flags beside those of the exact operation (R226). -/
def once (f : Fmt) (r : Rnd) (x : Xv × Flags) : Double × Flags :=
  let y := roundIeee f r.mode r.d0 x.1
  (BitVec.ofNat 64 y.bits, x.2 ||| y.flags)

/-- Both elements of a packed form: element 0 with the first draw, element 1 with the second (R224, R292). -/
def both (g : Rnd → Nat → Double × Flags) (r : Rnd) : Double × Flags :=
  let e0 := g r 0
  let e1 := g { r with d0 := r.d1 } 1
  (((e1.1.setWidth 16 ++ e0.1.setWidth 16 : Word)).setWidth 64, e0.2 ||| e1.2)

def elem (x : Double) (k : Nat) : Double := (x.extractLsb' (16 * k) 16).setWidth 64

/-! ## A form and its rule -/

/-- A form of one shape: its constructor, the types of its destination and of its sources a and b, the draws of an rs rounding
(R224), whether enabled flags trap (R222), and its result and flags. The third source has the type of the destination. -/
structure Row (F : Type) where
  form : F → Instr
  td : OpTy
  ta : OpTy
  tb : OpTy
  draws : Nat
  traps : Bool
  fn : Rnd → Double → Double → Double → Double × Flags

/-- An integer form of 32-bit operands. -/
def i32 {F : Type} (mk : F → Instr) (f : Double → Double → Double × Flags) : Row F :=
  { form := mk, td := .w32, ta := .w32, tb := .w32, draws := 0, traps := false, fn := fun _ a b _ => f a b }

/-- An integer form of 64-bit operands. -/
def i64 {F : Type} (mk : F → Instr) (f : Double → Double → Double × Flags) : Row F :=
  { form := mk, td := .w64, ta := .w64, tb := .w64, draws := 0, traps := false, fn := fun _ a b _ => f a b }

/-- A 64-bit shift. -/
def s64 {F : Type} (mk : F → Instr) (f : Double → Nat → Double) : Row F :=
  { form := mk, td := .w64, ta := .w64, tb := .w32, draws := 0, traps := false, fn := fun _ a b _ => shift64 f a b }

def h2 {F : Type} (mk : F → Instr) (f : Word → Word → Word × Flags) : Row F :=
  { form := mk, td := .h2, ta := .h2, tb := .h2, draws := 0, traps := false, fn := fun _ a b _ => of32 f a b }

def b4 {F : Type} (mk : F → Instr) (f : Word → Word → Word × Flags) : Row F :=
  { form := mk, td := .b4, ta := .b4, tb := .b4, draws := 0, traps := false, fn := fun _ a b _ => of32 f a b }

/-- A compare of integers; its result is the predicate. -/
def cmp {F : Type} (mk : F → Instr) (t : OpTy) (rel : Double → Double → Bool) : Row F :=
  { form := mk, td := .w32, ta := t, tb := t, draws := 0, traps := false, fn := fun _ a b _ => (bit (rel a b), 0#6) }

/-- A floating-point form. -/
def fp {F : Type} (mk : F → Instr) (t : OpTy) (draws : Nat) (f : Rnd → Double → Double → Double → Double × Flags) : Row F :=
  { form := mk, td := t, ta := t, tb := t, draws := draws, traps := true, fn := f }

/-! ## Integer forms of the lane set -/

def laneR : List (Row LaneR) :=
  [i32 .add32 (pure32 (add 32)), i32 .sub32 (pure32 (sub 32)), i32 .mul32 (pure32 (mul 32)), i32 .mulhiN32 (pure32 mulhiN),
   i32 .mulhiI32 (pure32 mulhiI), i32 .idivN32 (of32 (divN 32)), i32 .idivI32 (of32 (divI 32)), i32 .remN32 (of32 remN),
   i32 .remI32 (of32 remI),
   i32 .addSatN32 (of32 (fun a b => satN32 (a.toNat + b.toNat))), i32 .addSatI32 (of32 (fun a b => satI32 (a.toInt + b.toInt))),
   i32 .subSatN32 (of32 (fun a b => satN32 (a.toNat - b.toNat))), i32 .subSatI32 (of32 (fun a b => satI32 (a.toInt - b.toInt))),
   i32 .minN32 (pure32 smallerN), i32 .minI32 (pure32 smallerI), i32 .maxN32 (pure32 largerN), i32 .maxI32 (pure32 largerI),
   i32 .andB32 (pure32 (· &&& ·)), i32 .orB32 (pure32 (· ||| ·)), i32 .xorB32 (pure32 (· ^^^ ·)),
   i32 .andnB32 (pure32 (fun a b => a &&& ~~~b)), i32 .shlB32 (pure32 (fun a b => shl 32 a b.toNat)),
   i32 .shrB32 (pure32 (fun a b => shr 32 a b.toNat)), i32 .sarB32 (pure32 (fun a b => sar 32 a b.toNat)),
   i64 .add64 (pure64 (add 64)), i64 .sub64 (pure64 (sub 64)), i64 .mul64 (pure64 (mul 64)), i64 .idivN64 (divN 64),
   i64 .idivI64 (divI 64), i64 .andB64 (pure64 (· &&& ·)), i64 .orB64 (pure64 (· ||| ·)), i64 .xorB64 (pure64 (· ^^^ ·)),
   s64 .shlB64 (shl 64), s64 .shrB64 (shr 64), s64 .sarB64 (sar 64)]

def laneX : List (Row LaneX) :=
  [i32 .add32X (pure32 (add 32)), i32 .sub32X (pure32 (sub 32)), i32 .mul32X (pure32 (mul 32)), i32 .andB32X (pure32 (· &&& ·)),
   i32 .orB32X (pure32 (· ||| ·)), i32 .xorB32X (pure32 (· ^^^ ·)), i32 .andnB32X (pure32 (fun a b => a &&& ~~~b)),
   i32 .shlB32X (pure32 (fun a b => shl 32 a b.toNat)), i32 .shrB32X (pure32 (fun a b => shr 32 a b.toNat)),
   i32 .sarB32X (pure32 (fun a b => sar 32 a b.toNat)), i32 .minN32X (pure32 smallerN), i32 .minI32X (pure32 smallerI),
   i32 .maxN32X (pure32 largerN), i32 .maxI32X (pure32 largerI),
   i32 .addSatN32X (of32 (fun a b => satN32 (a.toNat + b.toNat))), i32 .addSatI32X (of32 (fun a b => satI32 (a.toInt + b.toInt))),
   i64 .add64X (pure64 (add 64)), i64 .sub64X (pure64 (sub 64)), i32 .bfeN32 (pure32 (bfe false)), i32 .bfeI32 (pure32 (bfe true)),
   i32 .shrrI32 (pure32 (fun a b => wrap 32 (shrr a b.toNat)))]

def lanePacked : List (Row LaneX) :=
  [h2 .addI16x2 (halves false (· + ·)), h2 .subI16x2 (halves false (· - ·)), h2 .addSatI16x2 (halves true (· + ·)),
   h2 .subSatI16x2 (halves true (· - ·)), h2 .mulI16x2 (halves false (· * ·)), h2 .minI16x2 (halves false min),
   h2 .maxI16x2 (halves false max), i32 .packI16x2 (of32 pack),
   i32 .shrrSatI16 (of32 (fun a b =>
     let y := shrr a b.toNat
     (wrap 32 (sat (-32768) 32767 y), clamped (-32768) 32767 y))),
   b4 .addN8x4 (bytes false (· + ·)), b4 .subN8x4 (bytes false (· - ·)), b4 .addSatN8x4 (bytes true (· + ·)),
   b4 .subSatN8x4 (bytes true (· - ·)), b4 .minN8x4 (bytes false min), b4 .maxN8x4 (bytes false max)]

/-- A 32-bit operation on three operands. -/
def of32x3 (f : Word → Word → Word → Word × Flags) (a b c : Double) : Double × Flags :=
  let r := f (a.setWidth 32) (b.setWidth 32) (c.setWidth 32)
  (r.1.setWidth 64, r.2)

def laneX3 : List (Row LaneX3) :=
  [{ i32 .mad32 (pure32 (add 32)) with fn := fun _ a b c => of32x3 (fun a b c => (mad 32 a b c, 0#6)) a b c },
   { i64 .mad64 (pure64 (add 64)) with fn := fun _ a b c => (mad 64 a b c, 0#6) },
   { i32 .bfiB32 (pure32 (add 32)) with fn := fun _ a b c => of32x3 (fun a b c => (bfi a b c, 0#6)) a b c },
   { i32 .pdot2I16x2 (pure32 (add 32)) with fn := fun _ a b c => of32x3 pdot2 a b c }]

def laneP : List (Cond → Row LaneP) :=
  [fun c => cmp .cmpN32 .w32 (fun a b => holds c (a.setWidth 32).toNat (b.setWidth 32).toNat),
   fun c => cmp .cmpI32 .w32 (fun a b => holds c (a.setWidth 32).toInt (b.setWidth 32).toInt),
   fun c => cmp .cmpN64 .w64 (fun a b => holds c a.toNat b.toNat), fun c => cmp .cmpI64 .w64 (fun a b => holds c a.toInt b.toInt)]

def laneXP : List (Cond → Row LaneXP) :=
  [fun c => cmp .cmpN32X .w32 (fun a b => holds c (a.setWidth 32).toNat (b.setWidth 32).toNat),
   fun c => cmp .cmpI32X .w32 (fun a b => holds c (a.setWidth 32).toInt (b.setWidth 32).toInt),
   fun c => cmp .cmpN64X .w64 (fun a b => holds c a.toNat b.toNat), fun c => cmp .cmpI64X .w64 (fun a b => holds c a.toInt b.toInt)]

def laneR1 : List (Row LaneR1) :=
  [i32 .popcB32 (fun a _ => ((popc (a.setWidth 32)).setWidth 64, 0#6)), i32 .clzB32 (fun a _ => ((clz (a.setWidth 32)).setWidth 64, 0#6)),
   i32 .brevB32 (fun a _ => ((brev (a.setWidth 32)).setWidth 64, 0#6)), i32 .movB32 (fun a _ => ((a.setWidth 32).setWidth 64, 0#6)),
   i64 .movB64 (fun a _ => (a, 0#6))]

def laneX1 : List (Row LaneX1) :=
  [i32 .movB32X (fun a _ => ((a.setWidth 32).setWidth 64, 0#6)), i64 .movB64X (fun a _ => (a, 0#6))]

/-! ## Floating-point forms of the lane set -/

def fadd (f : Fmt) : Rnd → Double → Double → Double → Double × Flags := fun r a b _ => once f r ((val f a).add r.mode (val f b))
def fsub (f : Fmt) : Rnd → Double → Double → Double → Double × Flags := fun r a b _ => once f r ((val f a).add r.mode (val f b).neg)
def fmul (f : Fmt) : Rnd → Double → Double → Double → Double × Flags := fun r a b _ => once f r ((val f a).mul (val f b))
def fdiv (f : Fmt) : Rnd → Double → Double → Double → Double × Flags := fun r a b _ => once f r ((val f a).div (val f b))
def ffma (f : Fmt) : Rnd → Double → Double → Double → Double × Flags :=
  fun r a b c =>
    let p := (val f a).mul (val f b)
    let s := p.1.add r.mode (val f c)
    once f r (s.1, p.2 ||| s.2)

/-- A packed form of an operation on one element. -/
def packed (g : Rnd → Double → Double → Double → Double × Flags) : Rnd → Double → Double → Double → Double × Flags :=
  fun r a b c => both (fun r k => g r (elem a k) (elem b k) (elem c k)) r

/-- `fmin` and `fmax` (R293): −0 is below +0; one NaN gives the other operand; two NaNs give the canonical NaN; a signalling NaN
sets IV. -/
def fpick (f : Fmt) (least : Bool) : Rnd → Double → Double → Double → Double × Flags := fun _ a b _ =>
  let m := a.toNat % 2 ^ (1 + f.eb + f.fb)
  let n := b.toNat % 2 ^ (1 + f.eb + f.fb)
  let x := f.value m
  let y := f.value n
  let less := match x.cmp y with | .lt => true | .gt => false | .eq => x.isNeg && !y.isNeg
  (BitVec.ofNat 64 (if x.isNan && y.isNan then f.nanBits else if x.isNan then n else if y.isNan then m else if less = least then m else n),
   if x.isSig || y.isSig then fIV else 0#6)

def laneFpR : List (Row LaneR) :=
  [fp .faddF32 .f32 1 (fadd .f32), fp .fsubF32 .f32 1 (fsub .f32), fp .fmulF32 .f32 1 (fmul .f32), fp .fdivF32 .f32 1 (fdiv .f32),
   fp .faddF64 .f64 1 (fadd .f64), fp .fsubF64 .f64 1 (fsub .f64), fp .fmulF64 .f64 1 (fmul .f64), fp .fdivF64 .f64 1 (fdiv .f64)]

def lanePick : List (Row LaneR) :=
  [fp .fminF32 .f32 0 (fpick .f32 true), fp .fmaxF32 .f32 0 (fpick .f32 false), fp .fminF64 .f64 0 (fpick .f64 true),
   fp .fmaxF64 .f64 0 (fpick .f64 false), fp .fminF16x2 .h2 0 (packed (fpick .f16 true)), fp .fmaxF16x2 .h2 0 (packed (fpick .f16 false)),
   fp .fminBf16x2 .h2 0 (packed (fpick .bf16 true)), fp .fmaxBf16x2 .h2 0 (packed (fpick .bf16 false))]

def laneFpX : List (Row LaneX) :=
  [fp .faddF32X .f32 1 (fadd .f32), fp .fsubF32X .f32 1 (fsub .f32), fp .fmulF32X .f32 1 (fmul .f32), fp .faddF64X .f64 1 (fadd .f64),
   fp .fsubF64X .f64 1 (fsub .f64), fp .fmulF64X .f64 1 (fmul .f64), fp .faddF16x2 .h2 2 (packed (fadd .f16)),
   fp .fmulF16x2 .h2 2 (packed (fmul .f16)), fp .faddBf16x2 .h2 2 (packed (fadd .bf16)), fp .fmulBf16x2 .h2 2 (packed (fmul .bf16))]

def laneFpX3 : List (Row LaneX3) :=
  [fp .ffmaF32 .f32 1 (ffma .f32), fp .ffmaF64 .f64 1 (ffma .f64), fp .ffmaF16x2 .h2 2 (packed (ffma .f16)),
   fp .ffmaBf16x2 .h2 2 (packed (ffma .bf16))]

/-- The value 1, for the reciprocals. -/
def one : Xv := .fin false 1 0 false

/-- Rounding to nearest, which the forms of R297 take whatever `$mode` holds. -/
def nearest : Rnd := { mode := .rn, d0 := 0#32, d1 := 0#32 }

def given (y : Rounded) : Double × Flags := (BitVec.ofNat 64 y.bits, y.flags)

def laneFpR1 : List (Row LaneR1) :=
  [fp .fsqrtF32 .f32 1 (fun r a _ _ => once .f32 r (val .f32 a).sqrt), fp .fsqrtF64 .f64 1 (fun r a _ _ => once .f64 r (val .f64 a).sqrt),
   fp .rcpF32 .f32 0 (fun _ a _ _ => once .f32 nearest (one.div (val .f32 a))),
   fp .rcpF64 .f64 0 (fun _ a _ _ => once .f64 nearest (one.div (val .f64 a))),
   fp .rsqF32 .f32 0 (fun _ a _ _ => once .f32 nearest (val .f32 a).rsqrt), fp .rsqF64 .f64 0 (fun _ a _ _ => once .f64 nearest (val .f64 a).rsqrt),
   fp .exp2F32 .f32 0 (fun _ a _ _ => given (exp2X (a.setWidth 32).toNat)), fp .log2F32 .f32 0 (fun _ a _ _ => given (log2X (a.setWidth 32).toNat)),
   fp .sinF32 .f32 0 (fun _ a _ _ => given (trigX 0 (a.setWidth 32).toNat)), fp .cosF32 .f32 0 (fun _ a _ _ => given (trigX 1 (a.setWidth 32).toNat))]

/-- The class of an encoding, as a mask of one bit (R295). -/
def classOf (f : Fmt) (a : Nat) : Nat :=
  let e := a / 2 ^ f.fb % 2 ^ f.eb
  let m := a % 2 ^ f.fb
  let n := a / 2 ^ (f.eb + f.fb) % 2 = 1
  if e = 2 ^ f.eb - 1 then (if m = 0 then (if n then 2 ^ 2 else 2 ^ 9) else if m < 2 ^ (f.fb - 1) then 2 ^ 0 else 2 ^ 1)
  else if e = 0 then (if m = 0 then (if n then 2 ^ 5 else 2 ^ 6) else if n then 2 ^ 4 else 2 ^ 7)
  else if n then 2 ^ 3 else 2 ^ 8

def fclass {F : Type} (mk : F → Instr) (t : OpTy) (f : Double → Nat) : Row F :=
  { form := mk, td := .w32, ta := t, tb := t, draws := 0, traps := false, fn := fun _ a _ _ => (BitVec.ofNat 64 (f a), 0#6) }

def laneClass : List (Row LaneR1) :=
  [fclass .fclassF32 .f32 (fun a => classOf .f32 (a.toNat % 2 ^ 32)), fclass .fclassF64 .f64 (fun a => classOf .f64 a.toNat),
   fclass .fclassF16x2 .h2 (fun a => classOf .f16 (a.extractLsb' 0 16).toNat + 2 ^ 16 * classOf .f16 (a.extractLsb' 16 16).toNat),
   fclass .fclassBf16x2 .h2 (fun a => classOf .bf16 (a.extractLsb' 0 16).toNat + 2 ^ 16 * classOf .bf16 (a.extractLsb' 16 16).toNat)]

/-- The floating-point conditions (R294). A NaN makes every relation but ne and un false, and sets IV with lt, le, gt and ge. -/
def rel (c : Cond) (x y : Xv) : Bool × Flags :=
  let un := x.isNan || y.isNan
  let o := x.cmp y
  match c with
  | .eq => (!un && o == .eq, 0#6)
  | .ne => (un || !(o == .eq), 0#6)
  | .lt => (!un && o == .lt, if un then fIV else 0#6)
  | .le => (!un && (o == .lt || o == .eq), if un then fIV else 0#6)
  | .gt => (!un && o == .gt, if un then fIV else 0#6)
  | .ge => (!un && (o == .gt || o == .eq), if un then fIV else 0#6)
  | .un => (un, 0#6)
  | .ord => (!un, 0#6)

def fcmp {F : Type} (mk : F → Instr) (t : OpTy) (f : Fmt) (c : Cond) : Row F :=
  { form := mk, td := .w32, ta := t, tb := t, draws := 0, traps := true,
    fn := fun _ a b _ => (bit (rel c (val f a) (val f b)).1, (rel c (val f a) (val f b)).2) }

def laneFpP : List (Cond → Row LaneP) := [fcmp .fcmpF32 .f32 .f32, fcmp .fcmpF64 .f64 .f64]

def laneFpXP : List (Cond → Row LaneXP) := [fcmp .fcmpF32X .f32 .f32, fcmp .fcmpF64X .f64 .f64]

/-! ## Forms of the uniform set -/

noncomputable def uniR : List (Row UniR) :=
  [i32 .uAdd32 (pure32 (add 32)), i32 .uSub32 (pure32 (sub 32)), i32 .uMul32 (pure32 (mul 32)), i32 .uMulhiN32 (pure32 mulhiN),
   i32 .uMulhiI32 (pure32 mulhiI), i32 .uIdivN32 (of32 (divN 32)), i32 .uIdivI32 (of32 (divI 32)), i32 .uRemN32 (of32 remN),
   i32 .uRemI32 (of32 remI), i32 .uAndB32 (pure32 (· &&& ·)), i32 .uOrB32 (pure32 (· ||| ·)), i32 .uXorB32 (pure32 (· ^^^ ·)),
   i32 .uShlB32 (pure32 (fun a b => shl 32 a b.toNat)), i32 .uShrB32 (pure32 (fun a b => shr 32 a b.toNat)),
   i32 .uSarB32 (pure32 (fun a b => sar 32 a b.toNat)), i32 .uMinN32 (pure32 smallerN), i32 .uMinI32 (pure32 smallerI),
   i32 .uMaxN32 (pure32 largerN), i32 .uMaxI32 (pure32 largerI), i64 .uAdd64 (pure64 (add 64)), i64 .uSub64 (pure64 (sub 64)),
   i64 .uMul64 (pure64 (mul 64)), s64 .uShlB64 (shl 64), s64 .uShrB64 (shr 64)]

noncomputable def uniX : List (Row UniX) :=
  [i32 .uAdd32X (pure32 (add 32)), i32 .uSub32X (pure32 (sub 32)), i32 .uMul32X (pure32 (mul 32)), i32 .uAndB32X (pure32 (· &&& ·)),
   i32 .uOrB32X (pure32 (· ||| ·)), i32 .uXorB32X (pure32 (· ^^^ ·)), i32 .uShlB32X (pure32 (fun a b => shl 32 a b.toNat)),
   i32 .uShrB32X (pure32 (fun a b => shr 32 a b.toNat)), i32 .uSarB32X (pure32 (fun a b => sar 32 a b.toNat)),
   i32 .uMinN32X (pure32 smallerN), i32 .uMinI32X (pure32 smallerI), i32 .uMaxN32X (pure32 largerN), i32 .uMaxI32X (pure32 largerI),
   i64 .uAdd64X (pure64 (add 64)), i32 .uBfeN32 (pure32 (bfe false)), fp .uFaddF32 .f32 1 (fadd .f32), fp .uFmulF32 .f32 1 (fmul .f32),
   fp .uFaddF64 .f64 1 (fadd .f64), fp .uFmulF64 .f64 1 (fmul .f64)]

noncomputable def uniX3 : List (Row UniX3) :=
  [{ i32 .uMad32 (pure32 (add 32)) with fn := fun _ a b c => of32x3 (fun a b c => (mad 32 a b c, 0#6)) a b c },
   fp .uFfmaF32 .f32 1 (ffma .f32), fp .uFfmaF64 .f64 1 (ffma .f64)]

noncomputable def uniP : List (Cond → Row UniP) :=
  [fun c => cmp .uCmpN32 .w32 (fun a b => holds c (a.setWidth 32).toNat (b.setWidth 32).toNat),
   fun c => cmp .uCmpI32 .w32 (fun a b => holds c (a.setWidth 32).toInt (b.setWidth 32).toInt),
   fun c => cmp .uCmpN64 .w64 (fun a b => holds c a.toNat b.toNat), fun c => cmp .uCmpI64 .w64 (fun a b => holds c a.toInt b.toInt)]

noncomputable def uniXP : List (Cond → Row UniXP) :=
  [fun c => cmp .uCmpN32X .w32 (fun a b => holds c (a.setWidth 32).toNat (b.setWidth 32).toNat),
   fun c => cmp .uCmpI32X .w32 (fun a b => holds c (a.setWidth 32).toInt (b.setWidth 32).toInt),
   fun c => cmp .uCmpN64X .w64 (fun a b => holds c a.toNat b.toNat), fun c => cmp .uCmpI64X .w64 (fun a b => holds c a.toInt b.toInt),
   fcmp .uFcmpF32 .f32 .f32]

noncomputable def uniR1 : List (Row UniR1) :=
  [i32 .uMovB32 (fun a _ => ((a.setWidth 32).setWidth 64, 0#6)), i64 .uMovB64 (fun a _ => (a, 0#6)),
   i32 .uPopcB32 (fun a _ => ((popc (a.setWidth 32)).setWidth 64, 0#6))]

noncomputable def uniX1 : List (Row UniX1) :=
  [i32 .uMovB32X (fun a _ => ((a.setWidth 32).setWidth 64, 0#6)), i64 .uMovB64X (fun a _ => (a, 0#6))]

/-! ## What a row claims -/

/-- The draws of the roundings of one thread, and its generator after them (R224). -/
def drawn {F : Type} (r : Row F) (w : Weave) (round : Round) (u : Nat) : Rnd × Double :=
  takeDraws (resolve w.mode round) r.draws (readGen w u)

/-- A lane form of row `r`, of `size` bytes with the operands a, b and c, issued on its turn (its encoding legal there, not looked up, its
operands readable as `va`, `vb`, `vc` by every thread on which it acts, no raised flag enabled to trap), completes with the row's result. -/
def laneHolds {F : Type} (r : Row F) (i : Instr) (size : Nat) (supp chain : Bool) (dst : LDst) (a b c : Opd) (edge : Edge) (guard : Guard)
    (round : Round) : Prop :=
  ∀ (s : State) (k n : Nat) (e : Entry) (w : Weave) (va vb vc : Nat → Double), LaneTurn s k n e w →
    illegalHere w e size chain (mayChain dst)
      (opdRegs a ++ opdRegs b ++ opdRegs c ++ (match dst with | .reg d wide => [(d, if wide then 2 else 1)] | _ => [])) = false →
    w.unlooked e →
    (∀ u, acts w e guard u → readOpd (laneCore s k n w) w edge u a = .ok (va u) ∧ readOpd (laneCore s k n w) w edge u b = .ok (vb u) ∧
      readOpd (laneCore s k n w) w edge u c = .ok (vc u)) →
    (r.traps = true → ∀ u, acts w e guard u → fpTrap w.mode (r.fn (drawn r w round u).1 (va u) (vb u) (vc u)).2 = none) →
    ∃ t, exec i s = .next t ∧
      AluDone s t k n e w size guard supp dst (fun u => (r.fn (drawn r w round u).1 (va u) (vb u) (vc u)).1)
        (fun u => (r.fn (drawn r w round u).1 (va u) (vb u) (vc u)).2) (fun u => (drawn r w round u).2)

/-- A source of a one-word form. -/
def src (x : LSrc) (t : OpTy) : Opd := .src x t.wide .self 0#64 0#28

/-- Source a or b of a two-word form: with its neighbour selector, or the literal by the operand's type (R37, R38, R40). -/
def xsrc (x : LSrc) (t : OpTy) (e : Ext) (second : Bool) : Opd :=
  match e with
  | .lit p => .src x t.wide .self (litValue t p) p
  | .mod m => .src x t.wide (if second then m.nb else m.na) (litValue t 0#28) 0#28

def guardOf : Ext → Guard
  | .lit _ => { p := 7#3, pol := false }
  | .mod m => m.guard

def edgeOf : Ext → Edge
  | .lit _ => .zero
  | .mod m => m.edge

def roundOf : Ext → Round
  | .lit _ => .dflt
  | .mod m => m.round

/-- No guard: every thread of the entry acts (R42). -/
def all : Guard := { p := 7#3, pol := false }

def holdsR (r : Row LaneR) : Prop := ∀ f : LaneR,
  laneHolds r (r.form f) 4 f.s f.c (.reg f.d.toNat r.td.wide) (src f.a r.ta) (src f.b r.tb) .none .zero all .dflt

def holdsR1 (r : Row LaneR1) : Prop := ∀ f : LaneR1,
  laneHolds r (r.form f) 4 f.s f.c (.reg f.d.toNat r.td.wide) (src f.a r.ta) .none .none .zero all .dflt

def holdsX (r : Row LaneX) : Prop := ∀ f : LaneX,
  laneHolds r (r.form f) 8 f.s f.c (.reg f.d.toNat r.td.wide) (xsrc f.a r.ta f.ext false) (xsrc f.b r.tb f.ext true) .none
    (edgeOf f.ext) (guardOf f.ext) (roundOf f.ext)

def holdsX1 (r : Row LaneX1) : Prop := ∀ f : LaneX1,
  laneHolds r (r.form f) 8 f.s f.c (.reg f.d.toNat r.td.wide) (xsrc f.a r.ta f.ext false) .none .none (edgeOf f.ext) (guardOf f.ext)
    (roundOf f.ext)

def holdsX3 (r : Row LaneX3) : Prop := ∀ f : LaneX3,
  laneHolds r (r.form f) 8 f.s f.c (.reg f.d.toNat r.td.wide) (.src f.a r.ta.wide f.m.na 0#64 0#28) (.src f.b r.tb.wide f.m.nb 0#64 0#28)
    (.src f.vc r.td.wide .self 0#64 0#28) f.m.edge f.m.guard f.m.round

def holdsP (r : Cond → Row LaneP) : Prop := ∀ f : LaneP,
  laneHolds (r f.cond) ((r f.cond).form f) 4 false f.c (.pred f.p.toNat) (src f.a (r f.cond).ta) (src f.b (r f.cond).tb) .none .zero all
    .dflt

def holdsXP (r : Cond → Row LaneXP) : Prop := ∀ f : LaneXP,
  laneHolds (r f.cond) ((r f.cond).form f) 8 false f.c (.pred f.p.toNat) (xsrc f.a (r f.cond).ta f.ext false)
    (xsrc f.b (r f.cond).tb f.ext true) .none (edgeOf f.ext) (guardOf f.ext) (roundOf f.ext)

/-! ## What a row of the uniform set claims -/

/-- A uniform form of row `r`, of `size` bytes with the operands a, b and c, issued by a weave, a steer thread or the handler slot (R28) at
a place where R48 and R56 allow it, not looked up. Where its guard does not hold it writes nothing (R265). Where it holds, and its operands
are readable as `va`, `vb`, `vc`, and a weave's `$mode` enables none of the flags raised to trap, it completes with the row's result. -/
def uniHolds {F : Type} (r : Row F) (i : Instr) (size : Nat) (chain : Bool) (dst : UDest) (a b c : UOpd) (guard : Guard) (round : Round) : Prop :=
  ∀ (s : State) (ag : Agent) (e : Entry) (va vb vc : Double), UniTurn s ag e →
    uniCause (begin s ag e) ag e { size := size, chain := chain, elig := true, place := .any } = none →
    (∀ k n w, ag = .weave k n → getWeave (begin s ag e) k n = some w → w.unlooked e) →
    let file := getFile (begin s ag e) ag
    let d := takeDraws (resolve file.mode round) r.draws (uniGen (begin s ag e) ag e)
    (readQ file guard.p.toNat = guard.pol → ∃ t, exec i s = .next t ∧ UniSkip (begin s ag e) t ag e size) ∧
    (readQ file guard.p.toNat ≠ guard.pol →
      readUOpd (begin s ag e) ag a = .ok va ∧ readUOpd (begin s ag e) ag b = .ok vb ∧ readUOpd (begin s ag e) ag c = .ok vc →
      (∀ k n, ag = .weave k n → r.traps = true → fpTrap file.mode (r.fn d.1 va vb vc).2 = none) →
      ∃ t, exec i s = .next t ∧ UniDone (begin s ag e) t ag e size dst (r.fn d.1 va vb vc).1 (r.fn d.1 va vb vc).2 d.2)

/-- A source of a one-word uniform form, and of a two-word form with its literal. -/
def usrc (x : USrc) (t : OpTy) : UOpd := .src x t.wide 0#64 0#28

def uxsrc (x : USrc) (t : OpTy) (e : Ext) : UOpd :=
  match e with
  | .lit p => .src x t.wide (litValue t p) p
  | .mod _ => .src x t.wide (litValue t 0#28) 0#28

def holdsUR (r : Row UniR) : Prop := ∀ f : UniR,
  uniHolds r (r.form f) 4 f.c (.reg f.d r.td.wide) (usrc f.a r.ta) (usrc f.b r.tb) .none all .dflt

def holdsUR1 (r : Row UniR1) : Prop := ∀ f : UniR1,
  uniHolds r (r.form f) 4 f.c (.reg f.d r.td.wide) (usrc f.a r.ta) .none .none all .dflt

def holdsUX (r : Row UniX) : Prop := ∀ f : UniX,
  uniHolds r (r.form f) 8 f.c (.reg f.d r.td.wide) (uxsrc f.a r.ta f.ext) (uxsrc f.b r.tb f.ext) .none (guardOf f.ext) (roundOf f.ext)

def holdsUX1 (r : Row UniX1) : Prop := ∀ f : UniX1,
  uniHolds r (r.form f) 8 f.c (.reg f.d r.td.wide) (uxsrc f.a r.ta f.ext) .none .none (guardOf f.ext) (roundOf f.ext)

def holdsUX3 (r : Row UniX3) : Prop := ∀ f : UniX3,
  uniHolds r (r.form f) 8 f.c (.reg f.d r.td.wide) (usrc f.a r.ta) (usrc f.b r.tb) (usrc f.vc r.td) f.m.guard f.m.round

def holdsUP (r : Cond → Row UniP) : Prop := ∀ f : UniP,
  uniHolds (r f.cond) ((r f.cond).form f) 4 f.c (.pred f.p.toNat) (usrc f.a (r f.cond).ta) (usrc f.b (r f.cond).tb) .none all .dflt

def holdsUXP (r : Cond → Row UniXP) : Prop := ∀ f : UniXP,
  uniHolds (r f.cond) ((r f.cond).form f) 8 f.c (.pred f.p.toNat) (uxsrc f.a (r f.cond).ta f.ext) (uxsrc f.b (r f.cond).tb f.ext) .none
    (guardOf f.ext) (roundOf f.ext)

/-! ## Rows of the forms with a shape of their own -/

/-- `plog` (R282): bit 2 × a + b of the truth table. -/
def plog {F : Type} (mk : F → Instr) (t : BitVec 4) : Row F :=
  { form := mk, td := .w32, ta := .w32, tb := .w32, draws := 0, traps := false,
    fn := fun _ a b _ => (bit (t.getLsbD (2 * (a.toNat % 2) + b.toNat % 2)), 0#6) }

/-- `sel` (R279): a where the predicate, the third source, is 1, b where it is 0. -/
def sel {F : Type} (mk : F → Instr) (t : OpTy) : Row F :=
  { form := mk, td := t, ta := t, tb := t, draws := 0, traps := false, fn := fun _ a b c => (if c.toNat % 2 = 1 then a else b, 0#6) }

/-- A packed compare (R35, R294): the relation of elements 0 in bit 0, that of elements 1 in bit 1. -/
def fcmp2 {F : Type} (mk : F → Instr) (f : Fmt) (c : Cond) : Row F :=
  { form := mk, td := .w32, ta := .h2, tb := .h2, draws := 0, traps := true,
    fn := fun _ a b _ =>
      let lo := rel c (val f (elem a 0)) (val f (elem b 0))
      let hi := rel c (val f (elem a 1)) (val f (elem b 1))
      (bit lo.1 + 2#64 * bit hi.1, lo.2 ||| hi.2) }

/-- The bounds of an integer type of R298. -/
def lowest (w : Nat) (signed : Bool) : Int := if signed then -(2 ^ (w - 1)) else 0
def highest (w : Nat) (signed : Bool) : Int := if signed then 2 ^ (w - 1) - 1 else 2 ^ w - 1

/-- An integer operand's value. -/
def whole (w : Nat) (signed : Bool) (a : Double) : Int :=
  if w = 32 then (if signed then (a.setWidth 32).toInt else (a.setWidth 32).toNat) else if signed then a.toInt else a.toNat

/-- One element of `cvt` (R299): integer to integer saturates with SAT; a NaN gives 0 with IV, a value outside an integer type its
nearest bound with IV, and any other value is rounded once. -/
def convert (src dst : CvtSide) (r : Rnd) (a : Double) : Double × Flags :=
  let enc := fun (w : Nat) (v : Int) => BitVec.ofInt 64 (v % 2 ^ w)
  match src, dst with
  | .int w sg, .int w' sg' =>
    let v := whole w sg a
    (enc w' (sat (lowest w' sg') (highest w' sg') v), clamped (lowest w' sg') (highest w' sg') v)
  | .int w sg, .num f => given (f.round r.mode r.d0 (Xv.ofInt (whole w sg a)))
  | .num g, .int w' sg' =>
    match g.value a.toNat with
    | .nan _ => (0#64, fIV)
    | .inf neg => (enc w' (if neg then lowest w' sg' else highest w' sg'), fIV)
    | .fin neg m e st =>
      let y := roundInt r.mode r.d0 neg m e st
      if lowest w' sg' ≤ y.1 ∧ y.1 ≤ highest w' sg' then (enc w' y.1, if y.2 then 0#6 else fNX)
      else (enc w' (sat (lowest w' sg') (highest w' sg') y.1), fIV)
  | .num g, .num f => given (f.round r.mode r.d0 (g.value a.toNat))

/-- `cvt` (R298, R299), element by element where its types are packed, with one draw per element (R224). -/
def cvt {F : Type} (mk : F → Instr) (o : CvtOp) : Row F :=
  { form := mk, td := if cvtTyWide o.dst then .w64 else .w32, ta := if cvtTyWide o.src then .w64 else .w32, tb := .w32,
    draws := if cvtTyX2 o.dst then 2 else 1, traps := true,
    fn := fun r a _ _ =>
      if cvtTyX2 o.dst then both (fun r k => convert (cvtSrc o) (cvtDst o) r (elem a k)) r else convert (cvtSrc o) (cvtDst o) r a }

/-! ## Results over the threads of an entry -/

/-- `vote` (R308): the ballot, any, all, uniform, over the threads of a mask and a predicate of each. -/
def vote (m : Nat) (mask : Mask) (p : Nat → Bool) : Word :=
  let on := (List.range 32).filter (fun u => mask.getLsbD u && p u)
  let off := (List.range 32).filter (fun u => mask.getLsbD u && !p u)
  let yes := fun (b : Bool) => if b then 1#32 else 0#32
  match m with
  | 0 => wrap 32 ((on.map (fun u => (2 : Int) ^ u)).sum)
  | 1 => yes (on ≠ [])
  | 2 => yes (off = [])
  | _ => yes (on = [] ∨ off = [])

/-- One step of `red` (R309). -/
def redOp (o : Nat) : Double → Double → Double × Flags :=
  match o with
  | 0 => pure32 (add 32)
  | 1 => pure32 smallerN
  | 2 => pure32 smallerI
  | 3 => pure32 largerN
  | 4 => pure32 largerI
  | 5 => pure32 (· &&& ·)
  | 6 => pure32 (· ||| ·)
  | 7 => pure32 (· ^^^ ·)
  | 8 => fun a b => fadd .f32 nearest a b 0#64
  | 9 => fun a b => fpick .f32 true nearest a b 0#64
  | 10 => fun a b => fpick .f32 false nearest a b 0#64
  | _ => pure64 (add 64)

/-- `red` over the values of the threads in increasing index, from the first (R309): the result, and every flag raised on the way. -/
def redOf (o : Nat) : List Double → Double × Flags
  | [] => (0#64, 0#6)
  | v :: r => r.foldl (fun acc a => ((redOp o acc.1 a).1, acc.2 ||| (redOp o acc.1 a).2)) (v, 0#6)

/-- One step of a generator, and the draw it gives (R225) (DESIGN CHOICE, log entry 3). -/
def step (g : Double) : Double :=
  let a := g ^^^ (g <<< 13)
  let b := a ^^^ (a >>> 7)
  b ^^^ (b <<< 17)

/-! ## The hoop -/

/-- A finite number as a rational. -/
def real : Xv → Option ℚ
  | .fin neg m e _ => some ((if neg then -1 else 1) * (m : ℚ) * 2 ^ e)
  | _ => none

/-- The exact product of finite numbers. -/
def product : List Xv → Option ℚ
  | [] => some 1
  | x :: r => match real x, product r with | some a, some b => some (a * b) | _, _ => none

/-- The accumulation of R302. -/
def hoopAdd (y : Hoop) (neg : Bool) (xs : List Xv) : Hoop :=
  match product xs with
  | none => { y with hi := true }
  | some p =>
    let x := if neg then -p else p
    let k := ⌊x / 2 ^ y.base⌋
    let z := y.w + k
    let low := z % 2 ^ 480
    { y with w := if 2 ^ 479 ≤ low then low - 2 ^ 480 else low, lo := y.lo || decide ((k : ℚ) * 2 ^ y.base ≠ x),
             hi := y.hi || decide (¬ (-(2 ^ 479) ≤ z ∧ z ≤ 2 ^ 479 - 1)) }

/-! ## Loaded values, atomics -/

/-- The value of a load from the bytes it reads, the lowest address first (R3, R44, R158). -/
def loaded (m : MemW) (b : Nat → Byte) : Double :=
  match m with
  | .n8 => (b 0).setWidth 64
  | .i8 => ((b 0).signExtend 32).setWidth 64
  | .n16 => (b 1 ++ b 0).setWidth 64
  | .i16 => ((b 1 ++ b 0).signExtend 32).setWidth 64
  | .b32 => (b 3 ++ b 2 ++ b 1 ++ b 0).setWidth 64
  | .b64 => b 7 ++ b 6 ++ b 5 ++ b 4 ++ b 3 ++ b 2 ++ b 1 ++ b 0

/-- The bytes of a width (R158). -/
def bytesOf : MemW → Nat
  | .n8 => 1
  | .i8 => 1
  | .n16 => 2
  | .i16 => 2
  | .b32 => 4
  | .b64 => 8

def isDouble : MemW → Bool
  | .b64 => true
  | _ => false

/-- The new value of the location of an atomic from the old one, the operand and the comparand, of 32 or 64 bits (R171). -/
def atomic (op : AtomOp) (ty : AtomTy) (old x cmp : Double) : Double :=
  let low := fun (v : Double) => (v.setWidth 32 : Word)
  let less := match ty with
    | .n32 => decide ((low x).toNat < (low old).toNat)
    | .i32 => decide ((low x).toInt < (low old).toInt)
    | .n64 => decide (x.toNat < old.toNat)
    | .i64 => decide (x.toInt < old.toInt)
    | _ => false
  let more := match ty with
    | .n32 => decide ((low old).toNat < (low x).toNat)
    | .i32 => decide ((low old).toInt < (low x).toInt)
    | .n64 => decide (old.toNat < x.toNat)
    | .i64 => decide (old.toInt < x.toInt)
    | _ => false
  let double := match ty with | .n32 => false | .i32 => false | .f32 => false | _ => true
  match op with
  | .add => if double then add 64 old x else (add 32 (low old) (low x)).setWidth 64
  | .and => old &&& x
  | .or => old ||| x
  | .xor => old ^^^ x
  | .min => if less then x else old
  | .max => if more then x else old
  | .exch => x
  | .fadd => (fadd (if double then .f64 else .f32) nearest old x 0#64).1
  | .cas => if old = cmp then x else old

/-- Atomics in order, each on the bytes the earlier ones left: what each finds, and the bytes after them. An item: its thread, address,
operand and comparand. -/
def atomics (op : AtomOp) (ty : AtomTy) (n : Nat) : List (Nat × Nat × Double × Double) → (Nat → Byte) → (Nat → Double) × (Nat → Byte)
  | [], m => (fun _ => 0#64, m)
  | (u, k, x, c) :: r, m =>
    let old := loaded (if n = 8 then .b64 else .b32) (fun j => m (k + j))
    let new := atomic op ty old x c
    let after := atomics op ty n r (fun i => if k ≤ i ∧ i < k + n then new.extractLsb' (8 * (i - k)) 8 else m i)
    (fun v => if v = u then old else after.1 v, after.2)

end Sys2Proof.Rules
end

