-- ==== Sys2Proof/Certificates/Slice0/Obligations.lean ====
section
/-!
DEFINITION. The statements for the provers.
-/

open Sys2Proof Sys2Proof.Machine

/-! ## Control -/

/-- R126, R150. `nop` goes on; `bra` and `call` send the threads whose predicate differs from the polarity to the target, the
others to the next instruction; `call` leaves the link in v14.d of the threads it takes. R127, R128. `brx` sends each thread
to its pair plus its signed displacement, `ret` to its pair; D holds the places they go to. R71, R130, R131. `switch` sends
each thread to the lowest case equal to its value, else to the default; the records stand after it. -/
def Obligations.LaneTransfers : Prop :=
  (∀ (s : State) (c k : Nat) (e : Entry) (w : Weave) (f : Branch), LaneTurn s c k e w →
     (illegalHere w e 4 false false [] = false → ∃ t, exec .nop s = .next t ∧ LaneDone s t c k e w w (onward e 4)) ∧
     (illegalHere w e 8 false false [] = false → w.fits e 2 → lands s c (vfAt s c k w) (branchTo e f) →
       (∃ t, exec (.bra f) s = .next t ∧
         LaneDone s t c k e w w (fun u => if taken w f u then (.ready, branchTo e f) else (.ready, e.pc + 8#64))) ∧
       ∃ t w1, exec (.call f) s = .next t ∧
         w.sets w1 (fun u r => if e.mask.getLsbD u && taken w f u then pairAt 14 (e.pc + 8#64) r else none) ∧
         LaneDone s t c k e w w1 (fun u => if taken w f u then (.ready, branchTo e f) else (.ready, e.pc + 8#64)))) ∧
  (∀ (s : State) (c k : Nat) (e : Entry) (w : Weave) (a b : LSrc) (p : BitVec 28) (va vb : Nat → Double) (D : List Double),
     LaneTurn s c k e w → w.fits e D.length →
     (∀ u, e.mask.getLsbD u = true → readLSrc (laneCore s c k w) w u a true 0#64 = .ok (va u)) →
     (illegalHere w e 8 false false (lsrcRegs a 2 ++ lsrcRegs b 1) = false →
       (∀ u, e.mask.getLsbD u = true → readLSrc (laneCore s c k w) w u b false (litValue .w32 p) = .ok (vb u) ∧
         offsetBy (va u) (vb u) ∈ D ∧ lands s c (vfAt s c k w) (offsetBy (va u) (vb u))) →
       ∃ t, exec (.brx a b p) s = .next t ∧ LaneDone s t c k e w w (fun u => (.ready, offsetBy (va u) (vb u)))) ∧
     (illegalHere w e 4 false false (lsrcRegs a 2) = false →
       (∀ u, e.mask.getLsbD u = true → va u ≠ 0#64 ∧ va u ∈ D ∧ lands s c (vfAt s c k w) (va u)) →
       ∃ t, exec (.ret a) s = .next t ∧ LaneDone s t c k e w w (fun u => (.ready, va u)))) ∧
  (∀ (s : State) (c k : Nat) (e : Entry) (w : Weave) (a : LSrc) (n : BitVec 4) (cs : List Case) (s2 : State) (v : Nat → Double)
     (D : List (Double × Half)), LaneTurn s c k e w → w.fits e D.length → illegalHere w e 8 false false (lsrcRegs a 1) = false →
     readCases (laneState s c k w) c (vfAt s c k w) e.pc n.toNat = (.ok cs, s2) →
     let hit := fun u => ((cs.take n.toNat).find? (fun x => x.imm == (v u).setWidth 32)).getD (cs.getD n.toNat default)
     let dest := fun u => e.pc + BitVec.ofInt 64 (4 * (hit u).off.toInt)
     (∀ u, e.mask.getLsbD u = true → readLSrc (laneCore s c k w) w u a false 0#64 = .ok (v u) ∧ (dest u, (hit u).prio) ∈ D ∧
       lands s2 c (vfAt s c k w) (dest u)) →
     Looked (laneState s c k w) s2 c ∧ ∃ t, exec (.switch a n) s = .next t ∧ LaneDone s2 t c k e w w (fun u => (.ready, dest u)))

/-- R128, R148, R149. `ret` with a link of 0 in every thread raises RET_EMPTY, `brk` BRK, `trap` SOFT: every thread parks.
R135, R137. `rcb` waits at its place while another entry has a lower priority than it and than those that wait there, else it
goes on with them; `sleep` sleeps for the count of the lowest active thread, in cycles of the core's clock (R14), and goes on
at once where it is 0. (Rests on log entries 21, 33 and 38, the model's own readings.) -/
def Obligations.LaneTrapsWaits : Prop :=
  (∀ (s : State) (c k : Nat) (e : Entry) (w : Weave), LaneTurn s c k e w → w.Plain → noBar s c →
     (∀ a, illegalHere w e 4 false false (lsrcRegs a 2) = false →
       (∀ u, e.mask.getLsbD u = true → readLSrc (laneCore s c k w) w u a true 0#64 = .ok 0#64) →
       ∃ t, exec (.ret a) s = .next t ∧ LaneParked s t c k e w w e.mask 0x31 0#64 (onward e 4)) ∧
     (illegalHere w e 4 false false [] = false →
       ∃ t, exec .brk s = .next t ∧ LaneParked s t c k e w w e.mask 0x38 0#64 (onward e 4)) ∧
     (∀ n, illegalHere w e 8 false false [] = false →
       ∃ t, exec (.trap n) s = .next t ∧ LaneParked s t c k e w w e.mask 0x39 0#64 (onward e 8))) ∧
  (∀ (s : State) (c k : Nat) (e : Entry) (w : Weave), LaneTurn s c k e w →
     (illegalHere w e 4 false false [] = false →
       let mates := w.frontier.filter (fun x => x.state == .atRcb && x.pc == e.pc && x.mask &&& e.mask == 0#32)
       let m := mates.foldl (fun m x => m ||| x.mask) e.mask
       let lower := fun (p : Half) => w.frontier.any (fun x => x.mask &&& m == 0#32 && decide (x.prio.toNat < p.toNat))
       ∃ t, exec .rcb s = .next t ∧
         LaneDone s t c k { e with mask := m } w w (fun _ =>
           if lower e.prio = true ∧ ∀ x ∈ mates, lower x.prio = true then (.atRcb, e.pc) else (.ready, e.pc + 4#64))) ∧
     (∀ a p v, illegalHere w e 8 false false (lsrcRegs a 1) = false →
       readLSrc (laneCore s c k w) w (lowest e.mask) a false (litValue .w32 p) = .ok v →
       ∃ t, exec (.sleep a p) s = .next t ∧
         LaneDone s t c k e w w (fun _ =>
           if v.toNat % 2 ^ 32 = 0 then (.ready, e.pc + 8#64) else (.sleeping (coreCycles s c + v.toNat % 2 ^ 32), e.pc + 8#64))))

/-! ## Words and steps -/

/-- R29 to R58. The bytes of every well-formed instruction that has an encoding decode to it, and to nothing beyond it. -/
def Obligations.DecodeEncode : Prop :=
  ∀ i : Instr, i.wf = true → ∀ w x, encode i = some (w, x) → ∀ rest : List Byte,
    decodeBytes (bytesOfNat 4 w.toNat ++ x.elim [] (fun y => bytesOfNat 4 y.toNat) ++ rest) = some (i, rest)

/-- Words written out in the specification's examples. -/
def Obligations.SpecWords : Prop :=
  decodeWords 0x20007f7d#32 0xe0000064#32 = some (.add32X { s := false, c := false, d := 1#7, a := .tid, b := .lit, ext := .lit 100#28 }) ∧
  decodeWords 0x0301c286#32 0#32 = some (.idivI32 { s := false, c := false, d := 7#7, a := .v 5#7, b := .v 6#7 }) ∧
  decodeWords 0x13_90_c0_82#32 0#32 = some (.plog { c := false, t := 8#4, p := 3#3, a := 1#3, b := 2#3 }) ∧
  decodeWords 0x77883e80#32 0#32 = none

/-- An agent's turn runs the instruction whose words stand at its pc: with the turn taken and the clock moved on, the agent in
focus, and the caches as the fetch left them, a step is the meaning of the instruction the words decode to. An event of the
table is its meaning. (Rests on log entries 3, 4 and 7, the model's own readings.) -/
def Obligations.StepRunsDecoded : Prop :=
  ∀ (s : State),
    (∀ (a : Agent) (e : Entry) (w x : Word) (i : Instr) (t : State), turnOf s = .issue a → turnEntry (tickOf s) a = some e →
      fetchAt (focused (tickOf s) a) a e.pc = (.ok (w, x), t) → decodeWords w x = some i →
      step s = exec i t ∧ t.focus = a ∧ t.turns = s.turns.drop 1 ∧ t.tick = s.tick + 1 ∧ t.mem = s.mem) ∧
    (∀ i : Instr, turnOf s = .event i → isEvent i = true →
      step s = exec i { s with turns := s.turns.drop 1, tick := s.tick + 1, now := s.now + Config.elapsed s.tick })

/-- Memory keeps its canonical form whatever a step does. (Rests on log entry 1, the model's own reading.) -/
def Obligations.StepKeepsMemory : Prop := ∀ s t : State, s.Inv → step s = .next t → t.Inv

/-- The L1 of every core and the slice of every partition keep their form whatever a step does: each line once, with its 64
bytes (R199). (Rests on log entries 7 and 16, the model's own readings.) -/
def Obligations.StepKeepsCaches : Prop := ∀ s t : State, s.Caches → step s = .next t → t.Caches

/-- The state after reset: not started (R413), memory in its canonical form with nothing in it, no virtual function and no
launch, each partition's configuration register (R344) and the management register at the values given for reset. (Rests on
log entries 1 and 2, the model's own readings.) -/
def Obligations.ResetState : Prop :=
  State.reset.Inv ∧ State.reset.Caches ∧ State.reset.mgmt.phase = .off ∧ State.reset.mgmt.nfail = 0 ∧
  (∀ p, (getPart State.reset p).config = 0x0ffff0006f7f0000#64 ∧ (getPart State.reset p).up = false) ∧
  (∀ v, (getVf State.reset v).state = 0 ∧ (getVf State.reset v).cores = List.replicate 16 0#16) ∧
  (∀ c k, getWeave State.reset c k = none ∧ getInst State.reset c k = none) ∧ State.reset.launches = [] ∧ State.reset.nextLsn = 1

/-! ## Operands -/

/-- R31, R32, R40, R47. The value a lane source has for a thread: a register or its pair, zero, the thread's index, the
literal, and a latch of the weave's lane, which raises LATCH_INVALID (0x0b) where it is not valid; a poisoned register raises
POISON (0x01). R38. The value of a literal's 28-bit payload by the operand's type: sign-extended for integers, the high bits
of an FP32 or FP64 number, the low 16 or 8 bits in each element of a packed operand. R304. A source with a neighbour selector
is the register of the thread to the left or the right; at the edge it is zero, the value from the other end, the thread's own
value, or the uniform fill register, which raises POISON where it or the value it is bound to is poisoned. -/
def Obligations.LaneSources : Prop :=
  (∀ (x : Core) (w : Weave) (u : Nat) (lit : Double) (n : BitVec 7) (k : BitVec 2),
     let l := sget Lane.blank x.lanes w.lane
     (vPoisoned x w u n.toNat = false → readLSrc x w u (.v n) false lit = .ok ((readV w u n.toNat).setWidth 64)) ∧
     (vPoisoned x w u n.toNat = false → vPoisoned x w u (n.toNat + 1) = false →
       readLSrc x w u (.v n) true lit = .ok (readV w u (n.toNat + 1) ++ readV w u n.toNat)) ∧
     (vPoisoned x w u n.toNat = true → ∀ wide, readLSrc x w u (.v n) wide lit = .error 0x01) ∧
     (∀ wide, readLSrc x w u .zero wide lit = .ok 0#64 ∧ readLSrc x w u .tid wide lit = .ok (BitVec.ofNat 64 u) ∧
       readLSrc x w u .lit wide lit = .ok lit) ∧
     (l.valid.getLsbD k.toNat = false → ∀ wide, readLSrc x w u (.latch k) wide lit = .error 0x0b) ∧
     (l.valid.getLsbD k.toNat = true → nmem l.bad (32 * k.toNat + u) = false →
       readLSrc x w u (.latch k) true lit = .ok (sget 0#64 l.latches (32 * k.toNat + u)) ∧
       readLSrc x w u (.latch k) false lit = .ok (sget 0#64 l.latches (32 * k.toNat + u) &&& 0xffffffff#64))) ∧
  (∀ p : BitVec 28,
     ((litValue .w32 p).setWidth 32 : Word).toInt = p.toInt ∧ (litValue .w32 p).toNat < 2 ^ 32 ∧ (litValue .w64 p).toInt = p.toInt ∧
     (litValue .f32 p).toNat = p.toNat * 2 ^ 4 ∧ (litValue .f64 p).toNat = p.toNat * 2 ^ 36 ∧
     (litValue .h2 p).toNat = p.toNat % 2 ^ 16 * 0x10001 ∧ (litValue .b4 p).toNat = p.toNat % 2 ^ 8 * 0x1010101) ∧
  (∀ (x : Core) (w : Weave) (u : Nat) (n : BitVec 7) (wide : Bool) (edge : Edge) (lit : Double) (p : BitVec 28), u < 32 →
     (0 < u → readOpd x w edge u (.src (.v n) wide .left lit p) = readReg x w (u - 1) n.toNat wide) ∧
     (u < 31 → readOpd x w edge u (.src (.v n) wide .right lit p) = readReg x w (u + 1) n.toNat wide) ∧
     readOpd x w .zero 0 (.src (.v n) wide .left lit p) = .ok 0#64 ∧ readOpd x w .zero 31 (.src (.v n) wide .right lit p) = .ok 0#64 ∧
     readOpd x w .wrap 0 (.src (.v n) wide .left lit p) = readReg x w 31 n.toNat wide ∧
     readOpd x w .wrap 31 (.src (.v n) wide .right lit p) = readReg x w 0 n.toNat wide ∧
     readOpd x w .clamp 0 (.src (.v n) wide .left lit p) = readReg x w 0 n.toNat wide ∧
     readOpd x w .clamp 31 (.src (.v n) wide .right lit p) = readReg x w 31 n.toNat wide ∧
     (∀ f : BitVec 6,
       let bad := fun j => nmem w.sbad j || tagBad x (stag w j)
       let fill := fun (u : Nat) (side : Nbr) (wide : Bool) => readOpd x w (.fill f) u (.src (.v n) wide side lit p)
       (bad f.toNat = false → fill 0 .left false = .ok ((readS (weaveFile w) f.toNat).setWidth 64) ∧
         fill 31 .right false = .ok ((readS (weaveFile w) f.toNat).setWidth 64)) ∧
       (bad f.toNat = false → bad (f.toNat + 1) = false →
         fill 0 .left true = .ok (readS (weaveFile w) (f.toNat + 1) ++ readS (weaveFile w) f.toNat) ∧
         fill 31 .right true = .ok (readS (weaveFile w) (f.toNat + 1) ++ readS (weaveFile w) f.toNat)) ∧
       (bad f.toNat = true → fill 0 .left wide = .error 0x01 ∧ fill 31 .right wide = .error 0x01)))

/-! ## Lane arithmetic -/

/-- R266 to R275. The one-word integer forms with two register sources. R266 to R275. The two-word integer forms, with
literal, neighbours, guard. R274, R276, R280. The forms with one source: counts of bits, reversal, moves. -/
def Obligations.LaneInteger : Prop :=
  (∀ r ∈ Rules.laneR, Rules.holdsR r) ∧
  (∀ r ∈ Rules.laneX, Rules.holdsX r) ∧
  ((∀ r ∈ Rules.laneR1, Rules.holdsR1 r) ∧ (∀ r ∈ Rules.laneX1, Rules.holdsX1 r))

/-- R283 to R286. The packed forms, element by element. R268, R275, R279, R285. The forms with three sources, and `sel`. -/
def Obligations.LanePackedThree : Prop :=
  (∀ r ∈ Rules.lanePacked, Rules.holdsX r) ∧
  ((∀ r ∈ Rules.laneX3, Rules.holdsX3 r) ∧
   (∀ f : LaneSel, Rules.laneHolds (Rules.sel .selB32 .w32) (.selB32 f) 8 f.s f.c (.reg f.d.toNat false) (.src f.a false f.m.na 0#64 0#28)
     (.src f.b false f.m.nb 0#64 0#28) (.pred f.k) f.m.edge f.m.guard f.m.round) ∧
   (∀ f : LaneSel, Rules.laneHolds (Rules.sel .selB64 .w64) (.selB64 f) 8 f.s f.c (.reg f.d.toNat true) (.src f.a true f.m.na 0#64 0#28)
     (.src f.b true f.m.nb 0#64 0#28) (.pred f.k) f.m.edge f.m.guard f.m.round))

/-- R278, R282. The integer compares and `plog`, which write a predicate. -/
def Obligations.LanePredicates : Prop :=
  (∀ r ∈ Rules.laneP, Rules.holdsP r) ∧ (∀ r ∈ Rules.laneXP, Rules.holdsXP r) ∧
  (∀ f : LanePlog, Rules.laneHolds (Rules.plog .plog f.t) (.plog f) 4 false f.c (.pred f.p.toNat) (.pred f.a) (.pred f.b) .none .zero
    Rules.all .dflt)

/-- R287 to R290. Floating-point sums, products, quotients and fused forms: the exact result rounded once. R291, R296, R297.
Roots, reciprocals and the functions of R297. (Rests on log entry 58, the model's own reading.) -/
def Obligations.LaneFloat : Prop :=
  ((∀ r ∈ Rules.laneFpR, Rules.holdsR r) ∧ (∀ r ∈ Rules.laneFpX, Rules.holdsX r) ∧ (∀ r ∈ Rules.laneFpX3, Rules.holdsX3 r)) ∧
  (∀ r ∈ Rules.laneFpR1, Rules.holdsR1 r)

/-- R293 to R295. Minima and maxima, compares and classes, with their rules for NaNs and zeros. R298, R299. `cvt` between
every pair of types. -/
def Obligations.LaneOrderConvert : Prop :=
  ((∀ r ∈ Rules.lanePick, Rules.holdsR r) ∧ (∀ r ∈ Rules.laneClass, Rules.holdsR1 r) ∧ (∀ r ∈ Rules.laneFpP, Rules.holdsP r) ∧
   (∀ r ∈ Rules.laneFpXP, Rules.holdsXP r) ∧
   ∀ (c : Cond) (p : BitVec 3) (a b : LSrc),
     Rules.laneHolds (Rules.fcmp2 (fun (_ : Unit) => .fcmpF16x2 c p a b) .f16 c) (.fcmpF16x2 c p a b) 4 false false (.pred2 p.toNat)
       (Rules.src a .h2) (Rules.src b .h2) .none .zero Rules.all .dflt ∧
     Rules.laneHolds (Rules.fcmp2 (fun (_ : Unit) => .fcmpBf16x2 c p a b) .bf16 c) (.fcmpBf16x2 c p a b) 4 false false (.pred2 p.toNat)
       (Rules.src a .h2) (Rules.src b .h2) .none .zero Rules.all .dflt) ∧
  (∀ f : LaneCvt, Rules.laneHolds (Rules.cvt .cvt f.op) (.cvt f) 8 f.s f.c (.reg f.d.toNat (cvtTyWide f.op.dst))
     (.src f.a (cvtTyWide f.op.src) .self 0#64 0#28) .none .none .zero Rules.all f.round)

/-- R46, R47. A one-word integer form shifts the latch history of its lane: its result, zero for a thread that is not active,
becomes b0, and each other latch takes the value and the validity of the one before it, whether or not its S bit suppresses
the register. R261, R262. `lmode` sets the weave's lineage mode; `lstat` reads a lineage counter into a register pair, and
clears them all where it is told to. (Rests on log entry 70, the model's own reading.) -/
def Obligations.LatchesLineage : Prop :=
  (∀ r ∈ Rules.laneR, ∀ (f : LaneR) (s : State) (c k : Nat) (e : Entry) (w : Weave) (va vb : Nat → Double), LaneTurn s c k e w →
     illegalHere w e 4 f.c true (opdRegs (Rules.src f.a r.ta) ++ opdRegs (Rules.src f.b r.tb) ++ [(f.d.toNat, if r.td.wide then 2 else 1)])
       = false →
     w.unlooked e →
     (∀ u, e.mask.getLsbD u = true → readOpd (laneCore s c k w) w .zero u (Rules.src f.a r.ta) = .ok (va u) ∧
       readOpd (laneCore s c k w) w .zero u (Rules.src f.b r.tb) = .ok (vb u)) →
     ∃ t, exec (r.form f) s = .next t ∧
       let old := sget Lane.blank (laneCore s c k w).lanes w.lane
       let new := sget Lane.blank (getCore t c).lanes w.lane
       new.owner = some k ∧ new.valid = (old.valid <<< 1) ||| 1#4 ∧
       ∀ u, u < 32 →
         sget 0#64 new.latches u =
           (if e.mask.getLsbD u then (r.fn { mode := resolve w.mode .dflt, d0 := 0#32, d1 := 0#32 } (va u) (vb u) 0#64).1 else 0#64) ∧
         ∀ j, j < 3 → sget 0#64 new.latches (32 * (j + 1) + u) = sget 0#64 old.latches (32 * j + u)) ∧
  (∀ (s : State) (c k : Nat) (e : Entry) (w : Weave), LaneTurn s c k e w →
     (∀ m, illegalHere w e 4 false false [] = false →
       ∃ t, exec (.lmode m) s = .next t ∧ LaneDone s t c k e w { w with lmode := m } (onward e 4)) ∧
     (∀ (d : BitVec 7) (clr : Bool) (i : BitVec 3), w.pair = none → illegalHere w e 4 false false [(d.toNat, 2)] = false →
       ∃ t, exec (.lstat d clr i) s = .next t ∧
         AluDone s t c k e w 4 Rules.all false (.reg d.toNat true) (fun _ => BitVec.ofNat 64 (sget 0 w.lstat i.toNat)) (fun _ => 0#6)
           (readGen w) ∧
         ∀ w', getWeave t c k = some w' → w'.lstat = if clr then [] else w.lstat))

/-! ## Uniform arithmetic -/

/-- R264, R265, R266 to R275. The integer and floating-point forms of the uniform set with two and three sources. R278, R282.
The uniform compares and `plog`. R274, R279, R280, R298. The uniform moves, counts, selections and conversions. -/
def Obligations.UniformArithmetic : Prop :=
  ((∀ r ∈ Rules.uniR, Rules.holdsUR r) ∧ (∀ r ∈ Rules.uniX, Rules.holdsUX r) ∧ (∀ r ∈ Rules.uniX3, Rules.holdsUX3 r)) ∧
  ((∀ r ∈ Rules.uniP, Rules.holdsUP r) ∧ (∀ r ∈ Rules.uniXP, Rules.holdsUXP r) ∧
   (∀ f : UniPlog, Rules.uniHolds (Rules.plog .uPlog f.t) (.uPlog f) 4 f.c (.pred f.p.toNat) (.pred f.a) (.pred f.b) .none Rules.all .dflt)) ∧
  ((∀ r ∈ Rules.uniR1, Rules.holdsUR1 r) ∧ (∀ r ∈ Rules.uniX1, Rules.holdsUX1 r) ∧
   (∀ f : UniSel, Rules.uniHolds (Rules.sel .uSelB32 .w32) (.uSelB32 f) 8 f.c (.reg f.d false) (Rules.usrc f.a .w32) (Rules.usrc f.b .w32)
     (.pred f.k) f.m.guard f.m.round) ∧
   (∀ f : UniSel, Rules.uniHolds (Rules.sel .uSelB64 .w64) (.uSelB64 f) 8 f.c (.reg f.d true) (Rules.usrc f.a .w64) (Rules.usrc f.b .w64)
     (.pred f.k) f.m.guard f.m.round) ∧
   (∀ f : UniCvt, Rules.uniHolds (Rules.cvt .uCvt f.op) (.uCvt f) 8 f.c (.reg f.d (cvtTyWide f.op.dst))
     (.src f.a (cvtTyWide f.op.src) 0#64 0#28) .none .none Rules.all f.round))

/-! ## Across threads, the hoop -/

/-- R306 to R309. `shuf` reads the register of the thread that each thread's index names, `bcast` that of the lowest active
thread's index; `vote` gives every thread the vote over the active threads; `red` reduces the active threads' values in
increasing thread index and raises its flags in each of them. -/
def Obligations.CrossThread : Prop :=
  ∀ (s : State) (c k : Nat) (e : Entry) (w : Weave), LaneTurn s c k e w →
    (∀ (d a : BitVec 7) (b : LSrc) (i v : Nat → Double),
      illegalHere w e 4 false false ([(d.toNat, 1), (a.toNat, 1)] ++ lsrcRegs b 1) = false →
      ((∀ u, e.mask.getLsbD u = true → readLSrc (laneCore s c k w) w u b false 0#64 = .ok (i u) ∧
          readReg (laneCore s c k w) w ((i u).toNat % 32) a.toNat false = .ok (v u)) →
        ∃ t, exec (.shuf d a b) s = .next t ∧
          AluDone s t c k e w 4 Rules.all false (.reg d.toNat false) v (fun _ => 0#6) (readGen w)) ∧
      (readLSrc (laneCore s c k w) w (lowest e.mask) b false 0#64 = .ok (i 0) →
          readReg (laneCore s c k w) w ((i 0).toNat % 32) a.toNat false = .ok (v 0) →
        ∃ t, exec (.bcast d a b) s = .next t ∧
          AluDone s t c k e w 4 Rules.all false (.reg d.toNat false) (fun _ => v 0) (fun _ => 0#6) (readGen w))) ∧
    (∀ (d : BitVec 7) (m : BitVec 2) (p : BitVec 3), illegalHere w e 4 false false [(d.toNat, 1)] = false →
      ∃ t, exec (.vote d m p) s = .next t ∧
        AluDone s t c k e w 4 Rules.all false (.reg d.toNat false)
          (fun _ => (Rules.vote m.toNat e.mask (fun u => readP w u p.toNat)).setWidth 64) (fun _ => 0#6) (readGen w)) ∧
    (∀ (d a : BitVec 7) (o : BitVec 4) (v : Nat → Double), o.toNat ≤ 11 →
      illegalHere w e 4 false false [(d.toNat, if o.toNat = 11 then 2 else 1), (a.toNat, if o.toNat = 11 then 2 else 1)] = false →
      (∀ u, e.mask.getLsbD u = true → readReg (laneCore s c k w) w u a.toNat (decide (o.toNat = 11)) = .ok (v u)) →
      let y := Rules.redOf o.toNat (((List.range 32).filter (fun u => e.mask.getLsbD u)).map v)
      fpTrap w.mode y.2 = none →
      ∃ t, exec (.red d a o) s = .next t ∧
        AluDone s t c k e w 4 Rules.all false (.reg d.toNat (decide (o.toNat = 11))) (fun _ => y.1) (fun _ => y.2) (readGen w))

/-- R33. What a weave's uniform sources read: its registers and pairs, zero, the literal, and the special registers of its
place, its instance and its launch. R280, R225. `movs` gives every thread the low word of a uniform source, its own flags, or
a draw of its own generator, which steps. (Rests on log entries 33 and 72, the model's own readings.) -/
def Obligations.UniformSources : Prop :=
  (∀ (s : State) (c k : Nat) (w : Weave) (i : Inst) (l : Launch), getWeave s c k = some w → getInst s c w.inst = some i →
     getLaunch s i.serial = some l →
     let a := Agent.weave c k
     (∀ (n : BitVec 6) (lit : Double), w.sbad = [] → w.stags = [] →
       readUSrc s a (.s n) false lit = .ok ((readS (weaveFile w) n.toNat).setWidth 64) ∧
       readUSrc s a (.s n) true lit = .ok (readS (weaveFile w) (n.toNat + 1) ++ readS (weaveFile w) n.toNat)) ∧
     (∀ wide lit, readUSrc s a .zero wide lit = .ok 0#64 ∧ readUSrc s a .lit wide lit = .ok lit) ∧
     readSpecial s a .wid = BitVec.ofNat 64 w.wid ∧ readSpecial s a .inst = BitVec.ofNat 64 i.num ∧
     readSpecial s a .role = BitVec.ofNat 64 w.role ∧ readSpecial s a .lsn = l.lsn ∧ readSpecial s a .mode = w.mode.setWidth 64 ∧
     readSpecial s a .ninst = BitVec.ofNat 64 l.node.ninst ∧ readSpecial s a .shape0 = (l.node.shape.getD 0 0#32).setWidth 64 ∧
     readSpecial s a .shape1 = (l.node.shape.getD 1 0#32).setWidth 64 ∧ readSpecial s a .shape2 = (l.node.shape.getD 2 0#32).setWidth 64 ∧
     readSpecial s a .vf = BitVec.ofNat 64 l.vf ∧
     readSpecial s a .clk = BitVec.ofNat 64 ((s.now - (getCore s c).since) % 2 ^ 32) ∧
     readSpecial s a .nwv = BitVec.ofNat 64
       (((getCore s c).weaves.filter (fun x => x.2.inst == w.inst && x.2.role == w.role)).length)) ∧
  (∀ (s : State) (c k : Nat) (e : Entry) (w : Weave) (sup ch : Bool) (d : BitVec 7), LaneTurn s c k e w → w.unlooked e → w.pair = none →
     illegalHere w e 4 ch true [(d.toNat, 1)] = false →
     (∀ (a : USrc) (v : Double), a ≠ .sp .flags → a ≠ .sp .rng → readUSrc (laneState s c k w) (.weave c k) a false 0#64 = .ok v →
       ∃ t, exec (.movs sup ch d a) s = .next t ∧
         AluDone s t c k e w 4 Rules.all sup (.reg d.toNat false) (fun _ => (v.setWidth 32).setWidth 64) (fun _ => 0#6) (readGen w)) ∧
     (∃ t, exec (.movs sup ch d (.sp .flags)) s = .next t ∧
         AluDone s t c k e w 4 Rules.all sup (.reg d.toNat false) (fun u => (readFlags w u).setWidth 64) (fun _ => 0#6) (readGen w)) ∧
     (∃ t, exec (.movs sup ch d (.sp .rng)) s = .next t ∧
         AluDone s t c k e w 4 Rules.all sup (.reg d.toNat false)
           (fun u => ((Rules.step (readGen w u)).extractLsb' 32 32).setWidth 64) (fun _ => 0#6) (fun u => Rules.step (readGen w u))))

/-- R300 to R302. `hclr` starts a hoop at a base of −32,768 to 32,767; `hfma`, `hfma3` and `hadd` add the exact product of
their FP64 sources to it, or subtract it, by the arithmetic of R302; each writes the sixteen registers of the hoop of the
threads on which it acts. R303. `hsgn` gives the sign of W and, in its predicate, whether it is exact; `hrnd` rounds the
hoop's value once to FP64. -/
def Obligations.HoopForms : Prop :=
  (∀ (s : State) (c k : Nat) (e : Entry) (w : Weave) (h : BitVec 3), LaneTurn s c k e w →
     let H := 16 * h.toNat
     let hoop := fun u => Hoop.ofWords ((List.range 16).map (fun i => readV w u (H + i)))
     let holds := fun (w1 : Weave) (act : Nat → Bool) (y : Nat → Hoop) =>
       w.sets w1 (fun u r => if act u && decide (H ≤ r ∧ r < H + 16) then some ((y u).words.getD (r - H) 0#32) else none)
     (∀ u r, e.mask.getLsbD u = true → H ≤ r → r < H + 16 → vPoisoned (laneCore s c k w) w u r = false) →
     (∀ (a : LSrc) (p : BitVec 28) (v : Nat → Double), illegalHere w e 8 false false ([(H, 16)] ++ lsrcRegs a 1) = false →
       (∀ u, e.mask.getLsbD u = true → readLSrc (laneCore s c k w) w u a false (litValue .w32 p) = .ok (v u) ∧
         -32768 ≤ ((v u).setWidth 32 : Word).toInt ∧ ((v u).setWidth 32 : Word).toInt ≤ 32767) →
       ∃ t w1, exec (.hclr h a p) s = .next t ∧ LaneDone s t c k e w w1 (onward e 8) ∧
         holds w1 (fun u => e.mask.getLsbD u) (fun u => { w := 0, base := ((v u).setWidth 32 : Word).toInt, hi := false, lo := false })) ∧
     (∀ (n : Bool) (a b : LSrc) (va vb : Nat → Double),
       (∀ u, e.mask.getLsbD u = true → readLSrc (laneCore s c k w) w u a true 0#64 = .ok (va u) ∧
         readLSrc (laneCore s c k w) w u b true 0#64 = .ok (vb u)) →
       (illegalHere w e 4 false false ((H, 16) :: lsrcRegs a 2) = false →
         ∃ t w1, exec (.hadd h n a) s = .next t ∧ LaneDone s t c k e w w1 (onward e 4) ∧
           holds w1 (fun u => e.mask.getLsbD u) (fun u => Rules.hoopAdd (hoop u) n [Rules.val .f64 (va u)])) ∧
       (illegalHere w e 4 false false ((H, 16) :: (lsrcRegs a 2 ++ lsrcRegs b 2)) = false →
         ∃ t w1, exec (.hfma h n a b) s = .next t ∧ LaneDone s t c k e w w1 (onward e 4) ∧
           holds w1 (fun u => e.mask.getLsbD u) (fun u => Rules.hoopAdd (hoop u) n [Rules.val .f64 (va u), Rules.val .f64 (vb u)]))) ∧
     (∀ (n : Bool) (a b x : LSrc) (g : Guard) (va vb vx : Nat → Double),
       (∀ u, e.mask.getLsbD u = true → readLSrc (laneCore s c k w) w u a true 0#64 = .ok (va u) ∧
         readLSrc (laneCore s c k w) w u b true 0#64 = .ok (vb u) ∧ readLSrc (laneCore s c k w) w u x true 0#64 = .ok (vx u)) →
       illegalHere w e 8 false false ((H, 16) :: (lsrcRegs a 2 ++ (lsrcRegs b 2 ++ lsrcRegs x 2))) = false →
       ∃ t w1, exec (.hfma3 h n a b x g) s = .next t ∧ LaneDone s t c k e w w1 (onward e 8) ∧
         holds w1 (fun u => e.mask.getLsbD u && readP w u g.p.toNat != g.pol)
           (fun u => Rules.hoopAdd (hoop u) n [Rules.val .f64 (va u), Rules.val .f64 (vb u), Rules.val .f64 (vx u)]))) ∧
  (∀ (s : State) (c k : Nat) (e : Entry) (w : Weave) (h : BitVec 3) (d : BitVec 7) (p : BitVec 3), LaneTurn s c k e w →
     let H := 16 * h.toNat
     let hoop := fun u => Hoop.ofWords ((List.range 16).map (fun i => readV w u (H + i)))
     (∀ u r, e.mask.getLsbD u = true → H ≤ r → r < H + 16 → vPoisoned (laneCore s c k w) w u r = false) →
     (illegalHere w e 4 false false [(d.toNat, 1), (H, 16)] = false →
       ∃ t w1, exec (.hsgn d h p) s = .next t ∧ LaneDone s t c k e w w1 (onward e 4) ∧
         { w1 with v := w.v, vbad := w.vbad, preds := w.preds } = w ∧ ∀ u, u < 32 →
           (∀ r, readV w1 u r = if e.mask.getLsbD u ∧ r = d.toNat then BitVec.ofInt 32 (hoop u).w.sign else readV w u r) ∧
           (∀ q, readP w1 u q = if e.mask.getLsbD u ∧ q = p.toNat ∧ q ≠ 7 then !(hoop u).lo && !(hoop u).hi else readP w u q)) ∧
     (illegalHere w e 4 false false [(d.toNat, 2), (H, 16)] = false →
       let value := fun (y : Hoop) => if y.lo then Xv.fin (decide (2 * y.w + 1 < 0)) (2 * y.w + 1).natAbs (y.base - 1) false
         else Xv.fin (decide (y.w < 0)) y.w.natAbs y.base false
       let result := fun u =>
         if (hoop u).hi then (0x7ff8000000000000#64, 0x01#6)
         else
           let r := roundIeee .f64 (takeDraws (resolve w.mode .dflt) 1 (readGen w u)).1.mode
             (takeDraws (resolve w.mode .dflt) 1 (readGen w u)).1.d0 (value (hoop u))
           (BitVec.ofNat 64 r.bits, if (hoop u).lo then r.flags ||| fNX else r.flags)
       (∀ u, e.mask.getLsbD u = true → fpTrap w.mode (result u).2 = none) →
       ∃ t, exec (.hrnd d h) s = .next t ∧
         AluDone s t c k e w 4 Rules.all false (.reg d.toNat true) (fun u => (result u).1) (fun u => (result u).2)
           (fun u => (takeDraws (resolve w.mode .dflt) 1 (readGen w u)).2)))

/-! ## Ends, switches, circles, regions, wales -/

/-- R75, R76, R132, R133. `exit` ends the threads of its entry, and a weave left without threads ends; `exitto` ends them and
marks those with the lowest index of a successor entry for restart there. (Rests on log entry 21, the model's own reading.) -/
def Obligations.ThreadEnds : Prop :=
  ∀ (s : State) (c k : Nat) (e : Entry) (w : Weave), LaneTurn s c k e w → w.Plain → noBar s c →
    (illegalHere w e 4 false false [] = false →
      ((∃ x ∈ w.frontier, x.mask &&& e.mask = 0#32) ∨ w.restart ≠ none → ∃ t, exec .exit s = .next t ∧ LaneGone s t c k e w w) ∧
      ((∀ x ∈ w.frontier, x.mask &&& e.mask ≠ 0#32) ∧ w.restart = none → ∃ t, exec .exit s = .next t ∧ getWeave t c k = none)) ∧
    (∀ (a : LSrc) (p : BitVec 28) (v : Nat → Nat) (l : Launch), illegalHere w e 8 false false (lsrcRegs a 1) = false →
      agentLaunch (laneState s c k w) (.weave c k) = some l →
      (∀ u, e.mask.getLsbD u = true → v u < l.header.succents.length ∧ v u < 2 ^ 32 ∧
        readLSrc (laneCore s c k w) w u a false (litValue .w32 p) = .ok (BitVec.ofNat 64 (v u))) →
      ∃ t j m, exec (.exitto a p) s = .next t ∧ LaneGone s t c k e w { w with restart := some (j, m) } ∧
        (∀ u, e.mask.getLsbD u = true → j ≤ v u) ∧ (∀ j' m', w.restart = some (j', m') → j ≤ j') ∧
        ((∃ u, e.mask.getLsbD u = true ∧ v u = j) ∨ ∃ m', w.restart = some (j, m')) ∧
        ∀ u, u < 32 → (m.getLsbD u = true ↔ (e.mask.getLsbD u = true ∧ v u = j) ∨ ∃ m', w.restart = some (j, m') ∧ m'.getLsbD u = true))

/-- R80, R136. `bar` waits at its place until every member of the weave's current circle has arrived at it as its own current
circle; then every entry that waits at a `bar` of the circle goes on after it. R77 to R79, R138, R139. `join` makes the weave
a member of the circle of its tag, creating the circle with a region of zeros where there is none, or waits while the pool
lacks room; `leave` pops the current circle, and a circle without members is dissolved; with only the role circle it raises
BOUNDS. (Rests on log entries 55 and 75, the model's own readings.) -/
def Obligations.BarriersCircles : Prop :=
  (∀ (s : State) (c k : Nat) (e : Entry) (w : Weave) (i : Inst) (z : Machine.Circle), LaneTurn s c k e w → w.Plain →
     illegalHere w e 4 false false [] = false → getInst s c w.inst = some i →
     let n := w.circles.headD 0
     let here := fun (j : Nat) => ∀ x, getWeave s c j = some x → (j ≠ k ∧ x.frontier = []) ∨ (x.circles.headD 0 = n ∧
       ∀ y ∈ x.frontier, (j = k → y.mask &&& e.mask = 0#32) → y.state = .parked ∨ y.state = .atBar n)
     i.circles.find? (fun y => y.id == n) = some z →
     (∀ j x, getWeave s c j = some x → ∀ y ∈ x.frontier, ∀ m, y.state = .atBar m → m = n) →
     ((∃ j ∈ z.members, ¬ here j) → ∃ t, exec .bar s = .next t ∧ LaneDone s t c k e w w (fun _ => (.atBar n, e.pc))) ∧
     (k ∈ z.members → (∀ j ∈ z.members, here j) → ∃ t, exec .bar s = .next t ∧
       { t with cores := [], seq := 0 } = { s with cores := [], seq := 0 } ∧ (∀ d, d ≠ c → getCore t d = getCore s d) ∧
       (getCore t c).rest = (getCore s c).rest ∧
       ∀ j ∈ z.members, ∀ x, getWeave s c j = some x → ∀ y ∈ x.frontier, (y.state = .atBar n ∧ (j = k → y.mask &&& e.mask = 0#32)) ∨ (j = k ∧ y = e) →
         ∃ x' y', getWeave t c j = some x' ∧ y' ∈ x'.frontier ∧ y'.mask &&& y.mask = y.mask ∧ y'.state = .ready ∧ y'.pc = y.pc + 4#64)) ∧
  (∀ (s : State) (c k : Nat) (e : Entry) (w : Weave) (i : Inst), LaneTurn s c k e w → w.Plain → noBar s c → getInst s c w.inst = some i →
     (∀ (a b : LSrc) (va vb : Double), illegalHere w e 4 false false (lsrcRegs a 1 ++ lsrcRegs b 1) = false →
       readLSrc (laneCore s c k w) w (lowest e.mask) a false 0#64 = .ok va → readLSrc (laneCore s c k w) w (lowest e.mask) b false 0#64 = .ok vb →
       let tag := va.toNat % 2 ^ 32
       let size := vb.toNat % 2 ^ 32
       let joined := i.circles.filter (fun y => y.role.isNone)
       w.circles.length < 4 → size ≠ 0 → size % 16 = 0 →
       let found := i.circles.find? (fun y => y.role.isNone && y.tag == tag)
       ((∀ z, found = some z → z.size = size ∧ z.members.length < 32) →
         (found = none → (joined.map (fun y => y.size)).sum + size ≤ i.poolSize ∧ ∀ y ∈ i.circles, y.id < i.nextCircle) →
         ∃ t, exec (.join a b) s = .next t ∧ JoinDone s t c k e w i tag size) ∧
       (found = none → i.poolSize < (joined.map (fun y => y.size)).sum + size →
         ∃ t, exec (.join a b) s = .next t ∧ LaneDone s t c k e w w (fun _ => (.waiting (.join tag size), e.pc)))) ∧
     (∀ z y r, illegalHere w e 4 false false [] = false → w.circles = z :: y :: r →
       let without := fun (x : Machine.Circle) => if x.id = z then { x with members := nerase x.members k } else x
       let left := (i.circles.map without).filter (fun x => !dissolves (getCore s c) w.inst x)
       ∃ t, exec .leave s = .next t ∧
         LaneDone (if z ∈ y :: r then s else onInst s c w.inst (fun i => { i with circles := left })) t c k e w
           { w with circles := y :: r } (onward e 4)) ∧
     (∀ z, illegalHere w e 4 false false [] = false → w.circles = [z] →
       ∃ t, exec .leave s = .next t ∧ LaneParked s t c k e w w e.mask 0x19 0#64 (onward e 4)))

/-- R89, R90, R110, R140, R141. `rgn.open` opens a region at the next instruction where its entry is the weave's only one;
`rgn.close` closes one; `scope` grants registers that read as zero; `endscope` takes the innermost scope's registers back, and
raises BOUNDS where none is open. R84, R143. `wpush` appends one record of the words of all threads, zero for those that are
not active, or waits while the wale is full; `wpop` takes the oldest record, or zeros once the producing stage has ended, or
waits. (Rests on log entries 23 and 76, the model's own readings.) -/
def Obligations.RegionsScopesWales : Prop :=
  (∀ (s : State) (c k : Nat) (e : Entry) (w : Weave), LaneTurn s c k e w → w.pair = none → w.storeq = [] →
     (∀ r, w.region = some r → r.stores = []) →
     (illegalHere w e 4 false false [] = false →
       (∃ t, exec .rgnOpen s = .next t ∧
         LaneDone s t c k e w { w with region := if w.frontier.length = 1 then some { pc := e.pc + 4#64, prio := e.prio, mask := e.mask, stores := [] } else none } (onward e 4)) ∧
       (∃ t, exec .rgnClose s = .next t ∧ LaneDone s t c k e w { w with region := none } (onward e 4)) ∧
       (∀ n r, w.scopes = n :: r → n ≤ w.allot →
         ∃ t w1, exec .endscope s = .next t ∧ LaneDone s t c k e w w1 (onward e 4) ∧
           { w1 with v := w.v, vbad := w.vbad } = { w with region := none, allot := w.allot - n, scopes := r } ∧
           ∀ u q, u < 32 → q < w.allot - n → readV w1 u q = readV w u q) ∧
       (w.scopes = [] → noBar s c →
         ∃ t, exec .endscope s = .next t ∧ LaneParked s t c k e w { w with region := none } e.mask 0x19 0#64 (onward e 4))) ∧
     (∀ (n : BitVec 28) (i : Inst) (l : Launch) (r : RoleRec), illegalHere w e 8 false false [] = false → getInst s c w.inst = some i →
       getLaunch s i.serial = some l → l.header.roles[w.role]? = some r → n.toNat % 8 = 0 → n.toNat ≠ 0 → w.scopes.length < 4 →
       w.scopes.sum + n.toNat ≤ r.scopeMax →
       ((∀ x ∈ (laneCore s c k w).weaves, x.1 ≠ k → growOf (laneState s c k w) (laneCore s c k w) x.2 = none) →
         (((laneCore s c k w).weaves.map (fun x => x.2.allot)).sum + n.toNat ≤ 8192) →
         ∃ t w1, exec (.scope n) s = .next t ∧ LaneDone s t c k e w w1 (onward e 8) ∧
           { w1 with v := w.v } = { w with region := none, allot := w.allot + n.toNat, scopes := n.toNat :: w.scopes } ∧
           ∀ u q, u < 32 → readV w1 u q = if q < w.allot then readV w u q else 0#32) ∧
       (8192 < ((laneCore s c k w).weaves.map (fun x => x.2.allot)).sum + n.toNat →
         ∃ t, exec (.scope n) s = .next t ∧ LaneDone s t c k e w { w with region := none } (fun _ => (.waiting (.grow n.toNat), e.pc))))) ∧
  (∀ (s : State) (c k : Nat) (e : Entry) (w : Weave) (i : Inst) (l : Launch), LaneTurn s c k e w → w.Plain → getInst s c w.inst = some i →
     getLaunch s i.serial = some l →
     (∀ (a : LSrc) (v : Nat → Double), illegalHere w e 4 false false (lsrcRegs a 1) = false → w.role + 1 < l.header.roles.length →
       (∀ u, e.mask.getLsbD u = true → readLSrc (laneCore s c k w) w u a false 0#64 = .ok (v u)) →
       let line := (List.range 32).map (fun u => if e.mask.getLsbD u then (v u).setWidth 32 else 0#32)
       let old := i.wales.getD w.role []
       (old.length < l.header.wdepth.getD w.role 0 → stageWaits (laneCore s c k w) w.inst w.role isWpush = [] →
         ∃ t, exec (.wpush a) s = .next t ∧
           LaneDone (onInst s c w.inst (fun i => { i with wales := i.wales.set w.role (old ++ [line]) })) t c k e w w (onward e 4)) ∧
       (l.header.wdepth.getD w.role 0 ≤ old.length →
         ∃ t, exec (.wpush a) s = .next t ∧ LaneDone s t c k e w w (fun _ => (.waiting (.wpush line), e.pc)))) ∧
     (∀ (d : BitVec 7) (p : BitVec 3), illegalHere w e 4 false false [(d.toNat, 1)] = false → w.role ≠ 0 →
       let popped := fun (r : List Word) (b : Bool) (w1 : Weave) => Popped w w1 e d.toNat p.toNat r b
       (∀ r rest, i.wales.getD (w.role - 1) [] = r :: rest → stageWaits (laneCore s c k w) w.inst w.role isWpop = [] →
         ∃ t w1, exec (.wpop d p) s = .next t ∧ popped r true w1 ∧
           LaneDone (onInst s c w.inst (fun i => { i with wales := i.wales.set (w.role - 1) rest })) t c k e w w1 (onward e 4)) ∧
       (i.wales.getD (w.role - 1) [] = [] → stageCount (laneCore s c k w) w.inst (w.role - 1) = 0 →
         stageWaits (laneCore s c k w) w.inst w.role isWpop = [] →
         ∃ t w1, exec (.wpop d p) s = .next t ∧ popped [] false w1 ∧ LaneDone s t c k e w w1 (onward e 4)) ∧
       (i.wales.getD (w.role - 1) [] = [] → stageCount (laneCore s c k w) w.inst (w.role - 1) ≠ 0 →
         ∃ t, exec (.wpop d p) s = .next t ∧ LaneDone s t c k e w w (fun _ => (.waiting (.wpop d p), e.pc)))))

/-! ## Memory -/

/-- R154 to R160, R163. Lane loads from global memory: each thread's bytes, its own node's staged ones over those of its
core's L1, its slice or memory, are on their way to its register; `.nl1` and an acquire at .pt read past the L1, an acquire at
.tn or wider from memory with the stores of both written to it. (Rests on log entries 7, 15 and 16, the model's own readings.) -/
def Obligations.LaneLoads : Prop :=
  ∀ (s : State) (c k : Nat) (e : Entry) (w : Weave) (f : LaneLd) (l : Nat → Leaf) (a b : Nat → Double), LaneTurn s c k e w → w.Plain →
    let s0 := laneState s c k w
    let me := Agent.weave c k
    let va := fun u => (offsetBy (a u) (b u)).toNat
    let key := fun u => leafKey s0 (l u) (va u)
    let regs := fun (m : MemW) => [(f.d.toNat, if Rules.isDouble m then 2 else 1)] ++ lsrcRegs f.a 2 ++ lsrcRegs f.b 1
    let reach := fun (m : MemW) => ∀ u, e.mask.getLsbD u = true → Reaches s0 me (va u) (Rules.bytesOf m) .load (l u) ∧ sound s0 c (key u)
    let gets := fun (m : MemW) (below : Nat → Byte) (w1 : Weave) => { w1 with inflight := w.inflight } = w ∧
      w.sets (commitWeave w1) (fun u r => if e.mask.getLsbD u then
        regAt f.d.toNat (Rules.isDouble m) (Rules.loaded m (fun j => ownByte s0 me below (key u + j))) r else none)
    CachesOk s c → (∀ u, e.mask.getLsbD u = true → readLSrc (laneCore s c k w) w u f.a true 0#64 = .ok (a u) ∧
      readLSrc (laneCore s c k w) w u f.b false 0#64 = .ok (b u)) → agree s0 me e.mask va l →
    (∀ m i, (m, i) ∈ [(MemW.n8, Instr.ldGN8 f), (.i8, .ldGI8 f), (.n16, .ldGN16 f), (.i16, .ldGI16 f), (.b32, .ldGB32 f), (.b64, .ldGB64 f)] →
      illegalHere w e 4 false false (regs m) = false → reach m →
      ∃ t w1, exec i s = .next t ∧ LaneAccess s t c k e w w1 still (onward e 4) ∧ gets m (seenByte s0 c) w1) ∧
    (∀ q : Qual, q.fe = .none → illegalHere w e 8 false false (regs q.width) = false → reach q.width →
      (q.order = .acq → scopeDenied s0 me q.scope = false) →
      ∃ t w1, exec (.ldGQual f q) s = .next t ∧ LaneAccess s t c k e w w1 still (onward e 8) ∧ gets q.width (qualByte s0 c q) w1 ∧
        (q.order = .acq → wide q.scope = true → (getCore t c).l1 = []) ∧
        (q.order = .acq → beyond q.scope = true → ∀ x ∈ sliceOf t c, x.2.dirty = 0#64))

/-- R157, R158, R164, R195. Lane loads from circle memory; a full/empty load waits until its granules are full, and `.fec`
clears their bits. (Rests on log entries 15 and 20, the model's own readings.) -/
def Obligations.CircleLoads : Prop :=
  ∀ (s : State) (c k : Nat) (e : Entry) (w : Weave) (f : LaneLd) (z : Machine.Circle) (a b : Nat → Double), LaneTurn s c k e w → w.Plain →
    let me := Agent.weave c k
    let x := laneCore s c k w
    let off := fun u => (a u + b u).toNat % 2 ^ 32
    let key := fun u => z.base + off u
    let regs := fun (m : MemW) => [(f.d.toNat, if Rules.isDouble m then 2 else 1)] ++ lsrcRegs f.a 1 ++ lsrcRegs f.b 1
    let reach := fun (m : MemW) => ∀ u, e.mask.getLsbD u = true → off u % Rules.bytesOf m = 0 ∧ off u + Rules.bytesOf m ≤ z.size ∧
      circleBad x (key u) (Rules.bytesOf m) = false
    let gets := fun (m : MemW) (w1 : Weave) => { w1 with inflight := w.inflight } = w ∧
      w.sets (commitWeave w1) (fun u r => if e.mask.getLsbD u then
        regAt f.d.toNat (Rules.isDouble m) (Rules.loaded m (fun j => sget 0#8 x.cmem (key u + j))) r else none)
    circleWindow (laneState s c k w) me = some z →
    (∀ u, e.mask.getLsbD u = true → readLSrc x w u f.a false 0#64 = .ok (a u) ∧ readLSrc x w u f.b false 0#64 = .ok (b u)) →
    (∀ m i, (m, i) ∈ [(MemW.n8, Instr.ldCmN8 f), (.i8, .ldCmI8 f), (.n16, .ldCmN16 f), (.i16, .ldCmI16 f), (.b32, .ldCmB32 f),
        (.b64, .ldCmB64 f)] → illegalHere w e 4 false false (regs m) = false → reach m →
      ∃ t w1, exec i s = .next t ∧ LaneDone s t c k e w w1 (onward e 4) ∧ gets m w1) ∧
    (∀ q : Qual, illegalHere w e 8 false false (regs q.width) = false → reach q.width → CachesOk s c →
      (q.order = .acq → scopeDenied (laneState s c k w) me q.scope = false) →
      let mine := fun g => (List.range 32).any (fun u => e.mask.getLsbD u && decide (key u / 16 ≤ g) &&
        decide (g ≤ (key u + Rules.bytesOf q.width - 1) / 16))
      let taken := onCore s c (fun y => { y with full := if q.fe = .fec then y.full.filter (fun g => !mine g) else y.full })
      ((q.fe ≠ .none → feWaiting x = [] ∧ ∀ g, mine g = true → nmem x.full g = true) →
        ∃ t w1, exec (.ldCmQual f q) s = .next t ∧ LaneAccess taken t c k e w w1 still (onward e 8) ∧ gets q.width w1) ∧
      (q.fe ≠ .none → (∃ g, mine g = true ∧ nmem x.full g = false) →
        ∃ t n, exec (.ldCmQual f q) s = .next t ∧ LaneAccess s t c k e w w still (fun _ => (.waiting (.feLoad
          { dst := .lane f.d.toNat, width := q.width, clear := q.fe == .fec, addrs := (threadsOf e.mask).map (fun u => (u, key u)), seq := n }),
          e.pc))))

/-- R157 to R159, R163, R164, R110. A lane store to global memory or to circle memory enters its weave's queue with the thread
stores of its active threads in increasing order, or the open region while that has room, or waits while the queue is full.
(Rests on log entries 15 and 19, the model's own readings.) -/
def Obligations.LaneStores : Prop :=
  ∀ (s : State) (c k : Nat) (e : Entry) (w : Weave) (f : LaneSt) (l : Nat → Leaf) (z : Machine.Circle) (a b d : Nat → Double),
    LaneTurn s c k e w → w.pair = none →
    let s0 := laneState s c k w
    let me := Agent.weave c k
    let va := fun u => (offsetBy (a u) (b u)).toNat
    let off := fun u => (a u + b u).toNat % 2 ^ 32
    let regs := fun (circle : Bool) (m : MemW) => lsrcRegs f.t (if Rules.isDouble m then 2 else 1) ++ lsrcRegs f.a (if circle then 1 else 2) ++
      lsrcRegs f.b 1
    let reads := fun (circle : Bool) (m : MemW) => ∀ u, e.mask.getLsbD u = true →
      readLSrc (laneCore s c k w) w u f.a (!circle) 0#64 = .ok (a u) ∧ readLSrc (laneCore s c k w) w u f.b false 0#64 = .ok (b u) ∧
      readLSrc (laneCore s c k w) w u f.t (Rules.isDouble m) 0#64 = .ok (d u)
    let reach := fun (m : MemW) => (∀ u, e.mask.getLsbD u = true → Reaches s0 me (va u) (Rules.bytesOf m) .store (l u)) ∧ agree s0 me e.mask va l
    let inside := fun (m : MemW) => circleWindow s0 me = some z ∧ ∀ u, e.mask.getLsbD u = true →
      off u % Rules.bytesOf m = 0 ∧ off u + Rules.bytesOf m ≤ z.size
    let one := fun (circle : Bool) (m : MemW) (full : Bool) (u : Nat) =>
      let va := if circle then off u else va u
      let key := if circle then z.base + off u else leafKey s0 (l u) va
      ({ circle := circle, va := va, key := key, data := lowBytes (Rules.bytesOf m) (d u), full := circle && full, bits := [] } : ThreadStore)
    let req := fun (circle : Bool) (m : MemW) (rel : Option Scope) (through full : Bool) (ord : Nat) =>
      let writes := (threadsOf e.mask).map (one circle m full)
      ({ writes := writes, rel := rel, through := through, width := widthCode m, ord := ord, mask := e.mask } : StoreReq)
    let enters := fun (i : Instr) (size : Nat) (r : StoreReq) (kept : Bool) =>
      (w.region = none → w.storeq.length < 64 →
        ∃ t, exec i s = .next t ∧ LaneAccess s t c k e w { w with storeq := w.storeq ++ [r] } still (onward e size)) ∧
      (w.region = none → 64 ≤ w.storeq.length →
        ∃ t, exec i s = .next t ∧ LaneAccess s t c k e w w still (fun _ => (.waiting .storeq, e.pc))) ∧
      (∀ g, w.region = some g → kept = true → regionCount g + countOf e.mask ≤ 256 →
        ∃ t, exec i s = .next t ∧ LaneAccess s t c k e w { w with region := some { g with stores := g.stores ++ [r] } } still (onward e size))
    (∀ m i, (m, i) ∈ [(MemW.n8, Instr.stGB8 f), (.n16, .stGB16 f), (.b32, .stGB32 f), (.b64, .stGB64 f)] →
      illegalHere w e 4 false false (regs false m) = false → reads false m → reach m → enters i 4 (req false m none false false 0) true) ∧
    (∀ m i, (m, i) ∈ [(MemW.n8, Instr.stCmB8 f), (.n16, .stCmB16 f), (.b32, .stCmB32 f), (.b64, .stCmB64 f)] →
      illegalHere w e 4 false false (regs true m) = false → reads true m → inside m → enters i 4 (req true m none false false 0) true) ∧
    (∀ q : Qual, q.order ≠ .acq → (q.order = .rel → scopeDenied s0 me q.scope = false) →
      let rel := if q.order = .rel then some q.scope else none
      let ord := (if q.order = .rel then 16 else 0) + scopeCode q.scope
      (q.fe = .none → illegalHere w e 8 false false (regs false q.width) = false → reads false q.width → reach q.width →
        enters (.stGQual f q) 8 (req false q.width rel (q.cache == .nl1) false ord) (q.order != .rel)) ∧
      (illegalHere w e 8 false false (regs true q.width) = false → reads true q.width → inside q.width →
        enters (.stCmQual f q) 8 (req true q.width rel (q.cache == .nl1) (q.fe != .none) ord) (q.order != .rel && q.fe == .none)))

/-! ## Uniform control -/

/-- R126 to R128, R150. `s.nop` goes on; `s.bra` and `s.call` take the whole entry to their target where the uniform predicate
differs from the polarity, `s.call` with its link in s62.d; `s.brx` and `s.ret` go to their pair. R86, R142, R144, R388.
`dpop` takes the oldest decision of the weave's instance, or all ones once its steer thread has ended, or waits; `yield` waits
until the weave is quiescent; `ckpt` goes on in a weave that is not paired. (Rests on log entry 14, the model's own reading.) -/
def Obligations.UniformTransfers : Prop :=
  (∀ (s : State) (a : Agent) (e : Entry) (f : Branch) (x y : USrc) (p : BitVec 28) (vx vy : Double), UniTurn s a e → soleMask a e →
     let s1 := begin s a e
     let g := getFile s1 a
     let goes := readQ g f.p.toNat != f.pol
     let next := e.pc + 8#64
     (uniOk s1 a e 4 .any → ∃ t, exec .sNop s = .next t ∧ UniMoved s1 t a e (e.pc + 4#64) g) ∧
     (uniOk s1 a e 8 .any → landsFor s1 a (branchTo e f) →
       (∃ t, exec (.sBra f) s = .next t ∧ UniMoved s1 t a e (if goes then branchTo e f else next) g) ∧
       (∃ t, exec (.sCall f) s = .next t ∧
         UniMoved s1 t a e (if goes then branchTo e f else next) (if goes then writeSD g 62 next else g))) ∧
     (uniOk s1 a e 8 .any → readUSrc s1 a x true 0#64 = .ok vx → readUSrc s1 a y false (litValue .w32 p) = .ok vy →
       landsFor s1 a (offsetBy vx vy) → ∃ t, exec (.sBrx x y p) s = .next t ∧ UniMoved s1 t a e (offsetBy vx vy) g) ∧
     (uniOk s1 a e 4 .any → readUSrc s1 a x true 0#64 = .ok vx → vx ≠ 0#64 → landsFor s1 a vx →
       ∃ t, exec (.sRet x) s = .next t ∧ UniMoved s1 t a e vx g)) ∧
  (∀ (s : State) (c k : Nat) (e : Entry) (w : Weave) (i : Inst), LaneTurn s c k e w → w.Plain → getInst s c w.inst = some i →
     let a := Agent.weave c k
     let s1 := begin s a e
     uniOk s1 a e 4 .weave →
     (∀ n wide, instWaits (getCore s1 c) w.inst isDpop = [] →
       let takes := fun (s2 : State) (v : Double) => ∃ t f, exec (.dpop (.s n) wide) s = .next t ∧
         UniMoved s2 t a e (e.pc + 4#64) f ∧ f.mode = w.mode ∧ f.q = w.q ∧
         ∀ r, readS f r = (UDest.reg (.s n) wide).writes v r (readS (getFile s1 a) r)
       (∀ v rest, i.decisions = v :: rest → takes (onInst s1 c w.inst (fun y => { y with decisions := rest })) v) ∧
       (i.decisions = [] → i.steer.entry = none → takes s1 (BitVec.allOnes 64)) ∧
       (i.decisions = [] → i.steer.entry ≠ none → ∃ t, exec (.dpop (.s n) wide) s = .next t ∧ UniWaits s1 t a e (.dpop (.s n) wide))) ∧
     (∃ t, exec .yield s = .next t ∧ UniWaits s1 t a e .yieldQ) ∧
     (∃ t, exec .ckpt s = .next t ∧ UniMoved s1 t a e (e.pc + 4#64) (getFile s1 a)))

/-- R85 to R88, R134, R144, R145. `s.exit` ends the steer thread; `dpush` appends to the decision queue of its instance, or
waits while it holds 32; `bucket` finds the first entry whose ranges hold the values, writes its index and its bounds, and
sets the true-shape window. R55, R57, R378. The forms of the handler slot that a weave issues raise PRIV in every thread of
the entry, with none of their effect. (Rests on log entry 22, the model's own reading.) -/
def Obligations.SteerPrivileged : Prop :=
  (∀ (s : State) (c k : Nat) (e : Entry) (i : Inst) (l : Launch), UniTurn s (.steer c k) e → e.mask = 1#32 →
     let a := Agent.steer c k
     let s1 := begin s a e
     getInst s1 c k = some i → agentLaunch s1 a = some l → i.steer.storeq = [] →
     (uniOk s1 a e 4 .steer →
       ((∃ j w, getWeave s1 c j = some w ∧ w.inst = k) →
         ∃ t i', exec .sExit s = .next t ∧ KeptUni s1 t a ∧ getFile t a = getFile s1 a ∧ getInst t c k = some i' ∧ i'.steer.entry = none) ∧
       (∀ x wide v, readUSrc s1 a x wide 0#64 = .ok v →
         (i.decisions.length < 32 → ∃ t, exec (.dpush x wide) s = .next t ∧
           UniMoved (onInst s1 c k (fun y => { y with decisions := i.decisions ++ [v] })) t a e (e.pc + 4#64) (getFile s1 a)) ∧
         (32 ≤ i.decisions.length → ∃ t, exec (.dpush x wide) s = .next t ∧ UniWaits s1 t a e (.dpush v)))) ∧
     (∀ (d x : BitVec 6) (n : BitVec 2) (v : Nat → Double), uniOk s1 a e 8 .steer →
       (∀ j, j < n.toNat → readSReg s1 a (x.toNat + j) false = .ok (v j)) →
       let shapes := (List.range n.toNat).map (fun j => (v j).toNat % 2 ^ 32)
       let holds := fun (b : Bucket) => ∀ p ∈ shapes.zip b.ranges, p.2.1 ≤ p.1 ∧ p.1 ≤ p.2.2
       let gives := fun (idx : Word) (bounds : List Word) => ∃ t f, exec (.bucket d x n) s = .next t ∧
         UniMoved (onInst s1 c k (fun y => { y with window := shapes.map some })) t a e (e.pc + 8#64) f ∧
         ∀ r, readS f r = if r = d.toNat then idx
           else if d.toNat < r ∧ r ≤ d.toNat + 3 then (bounds.take n.toNat).getD (r - d.toNat - 1) (BitVec.allOnes 32)
           else readS (getFile s1 a) r
       (∀ j b, l.header.buckets[j]? = some b → holds b → (∀ j' b', j' < j → l.header.buckets[j']? = some b' → ¬ holds b') →
         gives (BitVec.ofNat 32 j) b.bounds) ∧
       ((∀ b ∈ l.header.buckets, ¬ holds b) → gives (BitVec.allOnes 32) (shapes.map (BitVec.ofNat 32))))) ∧
  (∀ (s : State) (c k : Nat) (e : Entry) (w : Weave), LaneTurn s c k e w → w.Plain → noBar s c →
     (∀ i, (illegalHere w e 8 false false [] = false ∧
         ((∃ d n, i = .csrr d n) ∨ (∃ x n, i = .csrw x n) ∨ (∃ d, i = .fgetPc d) ∨ (∃ d, i = .fgetMask d) ∨ (∃ d, i = .fgetPrio d) ∨
           (∃ d u r, i = .fgetReg d u r) ∨ (∃ x, i = .fsetPc x) ∨ (∃ x, i = .fsetMask x) ∨ (∃ x u r, i = .fsetReg x u r) ∨
           (∃ x y sc, i = .xlinv x y sc) ∨ (∃ x, i = .injsetSeed x) ∨ (∃ x, i = .injsetRate x) ∨ (∃ x, i = .injsetClasses x) ∨
           (∃ x, i = .injsetShot x) ∨ (∃ x, i = .injsetArm x))) ∨
         (illegalHere w e 4 false false [] = false ∧ i = .rft) →
       ∃ t, exec i s = .next t ∧ LaneParked s t c k e w w e.mask cPRIV 0#64 (onward e 4)))

/-! ## System instructions -/

/-- R368, R386, R424. `rdcnt` writes the value of a counter into a register pair: exact for groups 0 and 1, zero for a number
that names none, else the count of a policy's delay before, rounded down to its quantum. R379, R381. In the handler slot
`csrr` reads the registers of its delivery, of its virtual function, of the partitions and of the injector; `csrw` writes
`$tvec`. R387, R389. `xlinv` sends a shootdown and waits for it; the `injset` forms write the fields of the injector of a test
partition. (Rests on log entries 11, 33 and 44, the model's own readings.) -/
def Obligations.ControlRegisters : Prop :=
  (∀ (s : State) (a : Agent) (e : Entry) (d : BitVec 6) (x : USrc) (v : Double), UniTurn s a e →
     let s1 := begin s a e
     let n := v.toNat % 2 ^ 12
     uniOk s1 a e 4 .any → readUSrc s1 a x false 0#64 = .ok v →
     let mine := match a with | .weave c k => (match getWeave s1 c k with | some w => sget 0 w.marks n | none => 0) | _ => 0
     let p := getVf s1 (agentVf s1 a)
     let value :=
       if n = 0 then coreCycles s1 (coreOf a) % 2 ^ 64 else if n ≤ 6 then sget 0 (getCore s1 (coreOf a)).counts n
       else if n < 0x100 then 0 else if n ≤ 0x103 then mine else if n < 0x200 then 0
       else roundDown (sharedAt s1 (partOf (coreOf a)) n (policyDelay p)) (quantum p)
     ∃ t, exec (.rdcnt d x) s = .next t ∧
       UniMoved s1 t a e (e.pc + 4#64) (writeSD (getFile s1 a) d.toNat (BitVec.ofNat 64 value))) ∧
  (∀ (s : State) (c : Nat) (e : Entry) (r : Delivery), UniTurn s (.handler c) e →
     let a := Agent.handler c
     let s1 := begin s a e
     let y := getVf s1 (agentVf s1 a)
     let inj := (getPart s1 (partOf c)).inj
     uniOk s1 a e 8 .handler → (getCore s1 c).handler.run = some r →
     (∀ n wide v, (n, wide, v) ∈ [(0x000, false, BitVec.ofNat 64 r.tcause), (0x001, true, r.tpc), (0x002, false, r.tmask.setWidth 64),
         (0x003, false, r.tprio.setWidth 64), (0x004, false, r.tent.setWidth 64), (0x005, true, r.taddr), (0x006, false, r.tinst.setWidth 64),
         (0x010, true, y.tvec), (0x011, false, y.scope.setWidth 64), (0x013, true, y.heap), (0x014, false, y.heapsz.setWidth 64),
         (0x015, false, y.cpol.setWidth 64), (0x016, false, BitVec.ofNat 64 y.weight), (0x017, false, BitVec.ofNat 64 y.state),
         (0x018, false, BitVec.ofNat 64 (agentVf s1 a)), (0x040, true, inj.seed), (0x041, true, inj.rate), (0x042, true, inj.classes),
         (0x043, true, inj.shot), (0x044, true, inj.arm)] ++
         (List.range 16).map (fun p => (0x020 + p, true,
           if ownsIn s1 (agentVf s1 a) p then (getPart s1 p).config &&& 0xffffffff007f0000#64 else 0#64)) →
       ∀ d, (wide = true → pairDst d = true) →
         ∃ t f, exec (.csrr d (BitVec.ofNat 12 n)) s = .next t ∧ UniMoved s1 t a e (e.pc + 8#64) f ∧ f.q = (getFile s1 a).q ∧
           f.mode = (UDest.reg d wide).mode v (getFile s1 a).mode ∧
           ∀ q, readS f q = (UDest.reg d wide).writes v q (readS (getFile s1 a) q)) ∧
     (∀ x v, pairSrc x = true → readUSrc s1 a x true 0#64 = .ok v → v.toNat % 4 = 0 → v.toNat < 2 ^ 57 →
       ∃ t, exec (.csrw x 0x010#12) s = .next t ∧
         UniMoved (onVf s1 (agentVf s1 a) (fun y => { y with tvec := v })) t a e (e.pc + 8#64) (getFile s1 a))) ∧
  (∀ (s : State) (c : Nat) (e : Entry), UniTurn s (.handler c) e →
     let a := Agent.handler c
     let s1 := begin s a e
     let p := partOf c
     let inj := (getPart s1 p).inj
     let sets := fun (i : Instr) (f : Injector) => ∃ t, exec i s = .next t ∧
       UniMoved (onPart s1 p (fun q => { q with inj := f })) t a e (e.pc + 8#64) (getFile s1 a)
     uniOk s1 a e 8 .handler →
     (∀ x y sc vx vy, readUSrc s1 a x true 0#64 = .ok vx → readUSrc s1 a y false 0#64 = .ok vy → vx.toNat % 4096 = 0 → scopeDenied s1 a sc = false →
       let n := vy.toNat % 2 ^ 32
       let at_ := if n = 0 then 0 else vx.toNat
       let pages := if n = 0 then 2 ^ 45 else n
       let shot := fun (id : Nat) => ({ id := id, vf := agentVf s1 a, va := at_, pages := pages, scope := sc, core := some c } : Shoot)
       ∃ t id, exec (.xlinv x y sc) s = .next t ∧ UniWaits { s1 with shoots := s1.shoots ++ [shot id] } t a e (.xlinv id)) ∧
     ((getPart s1 p).config.getLsbD 31 = true → ∀ x v,
       (readUSrc s1 a x true 0#64 = .ok v →
         sets (.injsetSeed x) { inj with seed := if v = 0#64 then 1#64 else v } ∧ sets (.injsetShot x) { inj with shot := v }) ∧
       (readUSrc s1 a x false 0#64 = .ok v →
         (v.toNat ≤ 63 → sets (.injsetRate x) { inj with rate := v }) ∧
         sets (.injsetClasses x) { inj with classes := v &&& 0xffffffff#64 } ∧
         let live := { inj with liveRate := inj.rate.toNat, liveClasses := inj.classes.setWidth 32, liveShot := inj.shot.toNat }
         sets (.injsetArm x) (if v.getLsbD 0 then { live with arm := 1#64, gen := inj.seed, count := 0 } else { inj with arm := 0#64 }))))

/-- R384, R385. The forms of a delivery that serves entry `y` of weave `k`: `fget` reads its pc, mask and priority and the
registers of its threads, `fset` writes them; threads cleared from its mask are gone. R385. `rft` ends the delivery: what its
core's caches hold of the stores goes to memory (R211), the handler slot is free, and the entry it served is ready at its pc,
the delivery's own or one where a transfer lands. (Rests on log entries 43, 71 and 84, the model's own readings.) -/
def Obligations.Deliveries : Prop :=
  (∀ (s : State) (c k tid : Nat) (e y : Entry) (r : Delivery) (w : Weave), UniTurn s (.handler c) e →
     let a := Agent.handler c
     let s1 := begin s a e
     uniOk s1 a e 8 .handler → (getCore s1 c).handler.run = some r → r.target = .weave k tid → getWeave s1 c k = some w →
     y ∈ w.frontier → y.delivering = true → (∀ x ∈ w.frontier, x.delivering = true → x = y) →
     let served := fun (f : Entry → Entry) => onWeave s1 c k (fun w => { w with frontier := w.frontier.map (fun x => if x.delivering then f x else x) })
     let gets := fun (i : Instr) (s2 : State) (d : UDst) (wide : Bool) (v : Double) => ∃ t f, exec i s = .next t ∧
       UniMoved s2 t a e (e.pc + 8#64) f ∧ f.q = (getFile s1 a).q ∧ f.mode = (UDest.reg d wide).mode v (getFile s1 a).mode ∧
       ∀ q, readS f q = (UDest.reg d wide).writes v q (readS (getFile s1 a) q)
     (∀ n, gets (.fgetPc n) s1 (.s n) true y.pc) ∧
     (∀ d, gets (.fgetMask d) s1 d false (y.mask.setWidth 64) ∧ gets (.fgetPrio d) s1 d false (y.prio.setWidth 64)) ∧
     (∀ (d : UDst) (u : BitVec 5) (q : BitVec 7) (v : Double), q.toNat < w.allot →
       readReg (getCore (commitAgent s1 (.weave c k)) c) (commitWeave w) u.toNat q.toNat false = .ok v →
       gets (.fgetReg d u q) (commitAgent s1 (.weave c k)) d false v) ∧
     (∀ x v, readUSrc s1 a x true 0#64 = .ok v →
       ∃ t, exec (.fsetPc x) s = .next t ∧ UniMoved (served (fun y => { y with pc := v })) t a e (e.pc + 8#64) (getFile s1 a)) ∧
     (∀ x v, readUSrc s1 a x false 0#64 = .ok v → w.pair = none → noBar s1 c → (∀ z ∈ w.frontier, z.mask ≠ 0#32) →
       y.mask &&& v.setWidth 32 ≠ 0#32 →
       ∃ t, exec (.fsetMask x) s = .next t ∧
         UniMoved (served (fun y => { y with mask := y.mask &&& v.setWidth 32 })) t a e (e.pc + 8#64) (getFile s1 a)) ∧
     (∀ (x : USrc) (u : BitVec 5) (q : BitVec 7) (v : Double), readUSrc s1 a x false 0#64 = .ok v → q.toNat < w.allot →
       y.mask.getLsbD u.toNat = true →
       ∃ t s2 w1 w2, exec (.fsetReg x u q) s = .next t ∧ UniMoved s2 t a e (e.pc + 8#64) (getFile s1 a) ∧
         Kept (commitAgent s1 (.weave c k)) s2 c k ∧ getWeave s2 c k = some w2 ∧ w2.frontier = w.frontier ∧ w2.body = w1.body ∧
         (commitWeave w).sets w1 (fun u' q' => if u' = u.toNat ∧ q' = q.toNat then some (v.setWidth 32) else none))) ∧
  (∀ (s : State) (c k tid : Nat) (e y : Entry) (r : Delivery) (w : Weave), UniTurn s (.handler c) e →
     let a := Agent.handler c
     let s1 := begin s a e
     uniOk s1 a e 4 .handler → (getCore s1 c).handler.run = some r → r.target = .weave k tid → getWeave s1 c k = some w →
     y ∈ w.frontier → y.delivering = true → y.mask ≠ 0#32 → (∀ x ∈ w.frontier, x.delivering = true → x = y) →
     (∀ x ∈ w.frontier, x ≠ y → x.mask &&& y.mask = 0#32) →
     (getCore s1 c).handler.storeq = [] → (held (w.frontier.filter (fun x => !x.delivering))).length < 16 →
     let s2 := flushL1 s1 c
     let s3 := onCore s2 c (fun x => { x with handler := { x.handler with run := none, wait := none } })
     (y.pc = r.tpc ∨ lands s3 c (agentVf s1 a) y.pc) →
     ∃ t w', exec .rft s = .next t ∧ Emptied s1 s2 c ∧ { getCore s2 c with l1 := [] } = { getCore s1 c with l1 := [] } ∧ Kept s3 t c k ∧
       getWeave t c k = some w' ∧ w'.body = w.body ∧ w'.standAs y.mask (fun _ => (.ready, y.pc)) ∧ w.others w' y.mask)

/-! ## Engine commands -/

/-- R177 to R180. A copy command of a weave enters the queue it names with the operands of its elected thread, the record it
read and its counter. (Rests on log entry 18, the model's own reading.) -/
def Obligations.EngineCopies : Prop :=
  ∀ (s : State) (c k : Nat) (e : Entry) (w : Weave), LaneTurn s c k e w → w.Plain →
    let me := Agent.weave c k
    let s0 := laneState s c k w
    let x := laneCore s c k w
    let t0 := lowest e.mask
    (∀ (f : LaneBox) (r : TRec) (raw : Nat) (s2 : State) (xs : List Nat) (o : Double) (ctr : Option (Double × Scope)) (z : Machine.Circle),
      illegalHere w e 8 false false (ctrRegs f.ctr ++ [(f.x.toNat, f.n.toNat)] ++ lsrcRegs f.o 1) = false →
      threadCoords x w t0 f.x.toNat f.n.toNat = .ok xs → readLSrc x w t0 f.o false 0#64 = .ok o → laneCtr x w t0 f.ctr = .ok ctr →
      ctrFine s0 me ctr → issueRec s0 me f.tx.toNat = (.ok (r, raw), s2) → circleWindow s0 me = some z →
      let off := o.toNat % 2 ^ 32
      let n := packedSize (recFmt r) f.e0.toNat f.e1.toNat
      off % 16 = 0 → n ≤ 65536 → off + n ≤ z.size → boxInside r xs (2 ^ f.e0.toNat) (2 ^ f.e1.toNat) = true →
      let q := if f.q then 1 else 0
      (CachesOk s c → Accessed s0 s2 me still) ∧
      Enters (.cpyIn f) s s2 c k e w 8 q (cmdOf s0 me e t0 ctr (.cpyIn raw xs (z.base + off) f.e0.toNat f.e1.toNat)) id ∧
      Enters (.cpyOut f) s s2 c k e w 8 q (cmdOf s0 me e t0 ctr (.cpyOut raw xs (z.base + off) f.e0.toNat f.e1.toNat)) id) ∧
    (∀ (f : LaneCpyG) (va vb : Double) (ctr : Option (Double × Scope)),
      illegalHere w e 8 false false (ctrRegs f.ctr ++ lsrcRegs f.a 2 ++ lsrcRegs f.b 2) = false →
      readLSrc x w t0 f.a true 0#64 = .ok va → readLSrc x w t0 f.b true 0#64 = .ok vb → laneCtr x w t0 f.ctr = .ok ctr → ctrFine s0 me ctr →
      (va.toNat % 16 = 0 → vb.toNat % 16 = 0 →
        Enters (.cpyG f) s s0 c k e w 8 (cpyQueue f.q) (cmdOf s0 me e t0 ctr (.cpyG va.toNat vb.toNat (f.len.toNat * 16))) id) ∧
      (va.toNat % 16 ≠ 0 ∨ vb.toNat % 16 ≠ 0 → noBar s c →
        ∃ t, exec (.cpyG f) s = .next t ∧ LaneParked s t c k e w w e.mask cALIGN 0#64 (onward e 8)))

/-- R315 to R319, R321, R324 to R326. `sclaim` claims free slots or rim tiles, or waits; the commands of the slath enter queue
2 with what their issue changes: a descriptor, the holder of a rim tile, slots on their way to being free. (Rests on log
entries 18 and 61, the model's own readings.) -/
def Obligations.EngineTiles : Prop :=
  ∀ (s : State) (c k : Nat) (e : Entry) (w : Weave), LaneTurn s c k e w → w.Plain →
    let me := Agent.weave c k
    let s0 := laneState s c k w
    let x := laneCore s c k w
    let t0 := lowest e.mask
    let takes := fun (u : Nat) (x : Core) => putRim x u { getRim x u with holder := .inst w.inst }
    (∀ (u : BitVec 7) (n : BitVec 6), illegalHere w e 8 false false [] = false →
      (u.toNat < 32 → (∀ y ∈ x.slots, slotHeld y.2 w k = false) →
        let mine := fun i => u.toNat ≤ i ∧ i < u.toNat + n.toNat
        ((∀ i, mine i → (getSlot x i).state = .free) → claimsWaiting x = [] → ∃ t y, exec (.sclaim u n) s = .next t ∧
          LaneDone (putCore s c y) t c k e w w (onward e 8) ∧ { y with slots := [] } = { getCore s c with slots := [] } ∧
          (∀ i, mine i → getSlot y i = { Slot.blank with
            state := .claimed, inst := w.inst, weave := k, role := w.role, wid := w.wid, codes := (getSlot x i).codes }) ∧
          ∀ i, ¬ mine i → getSlot y i = getSlot x i) ∧
        ((∃ i, mine i ∧ (getSlot x i).state ≠ .free) → ∃ t q, exec (.sclaim u n) s = .next t ∧
          LaneDone s t c k e w w (fun _ => (.waiting (.sclaim u.toNat n.toNat q), e.pc)))) ∧
      (u.toNat < 32 → (∃ y ∈ x.slots, slotHeld y.2 w k = true) → noBar s c → ∃ t, exec (.sclaim u n) s = .next t ∧
        LaneParked s t c k e w w e.mask cSLOT 0#64 (onward e 8)) ∧
      (32 ≤ u.toNat →
        let mine := fun i => u.toNat ≤ i + 32 ∧ i + 32 < u.toNat + n.toNat
        (∀ i, mine i → rimTaken x i w.inst = false) → ∃ t y, exec (.sclaim u n) s = .next t ∧
          LaneDone (putCore s c y) t c k e w w (onward e 8) ∧ { y with rims := [] } = { getCore s c with rims := [] } ∧
          ∀ i, getRim y i = if mine i then { getRim x i with holder := .inst w.inst } else getRim x i) ∧
      ((u.toNat < 32 → ∀ i, i < n.toNat → slotHeld (getSlot x (u.toNat + i)) w k = true) →
        (32 ≤ u.toNat → ∀ i, i < n.toNat → (getRim x (u.toNat - 32 + i)).holder = .inst w.inst) →
        Enters (.srel u n) s s0 c k e w 8 2 (cmdOf s0 me e t0 none (.srel u.toNat n.toNat w.wid w.role)) (fun x => markReleasing x u.toNat n.toNat))) ∧
    (∀ ctr d slot tx n xs v r raw s2, illegalHere w e 8 false false (ctrRegs ctr ++ [(d.toNat, n.toNat)]) = false →
      threadCoords x w t0 d.toNat n.toNat = .ok xs → laneCtr x w t0 ctr = .ok v → ctrFine s0 me v → issueRec s0 me tx.toNat = (.ok (r, raw), s2) →
      slotHeld (getSlot x slot.toNat) w k = true → stkCauses r xs n.toNat = [] →
      (CachesOk s c → Accessed s0 s2 me still) ∧
      Enters (.stkLd ctr d slot tx n) s s2 c k e w 8 2 (cmdOf s0 me e t0 v (.stkLd slot.toNat tx.toNat raw xs)) (fun y => putSlot y slot.toNat
        { getSlot y slot.toNat with
          state := .loaded, desc := { tx := tx.toNat, gen := r.gen, fmt := r.fmt, bsize := r.bsize, esc := r.esc, x := xs } })) ∧
    (∀ (f : LaneMtile) (v : Option (Double × Scope)), illegalHere w e 8 false false (ctrRegs f.ctr) = false →
      let act := activeMask w e f.guard
      let loaded := fun (u : Nat) => slotOf (getSlot x u) w k = true ∧ (getSlot x u).state = .loaded
      act ≠ 0#32 → laneCtr x w (lowest act) f.ctr = .ok v → ctrFine s0 me v → loaded f.sa.toNat → loaded f.sb.toNat →
      rimTaken x f.rim.toNat w.inst = false → blocksClash x f.sa.toNat f.sb.toNat = false →
      Enters (.mtile f) s s0 c k e w 8 2 (cmdOf s0 me e (lowest act) v (.mtile f.rim.toNat f.sa.toNat f.sb.toNat f.reuse)) (takes f.rim.toNat)) ∧
    (∀ u : BitVec 3, illegalHere w e 4 false false [] = false → rimTaken x u.toNat w.inst = false →
      Enters (.rzero u) s s0 c k e w 4 2 (cmdOf s0 me e t0 none (.rzero u.toNat)) (takes u.toNat)) ∧
    (∀ (f : LaneRim) (r : TRec) (raw : Nat) (s2 : State) (xs : List Nat) (off : Nat) (o : Double) (v : Option (Double × Scope)),
      illegalHere w e 8 false false (ctrRegs f.ctr ++ lsrcRegs f.x (if f.circle then 1 else f.n.toNat) ++ lsrcRegs f.o 1) = false →
      rimArgs x w t0 f = .ok ((xs, off), o, v) → ctrFine s0 me v → issueRec s0 me f.tx.toNat = (.ok (r, raw), s2) →
      rimTaken x f.tile.toNat w.inst = false →
      let win := ({ row := o.toNat % 128, col := o.toNat / 65536 % 128, er := f.er.toNat, ec := f.ec.toNat } : RimWin)
      let key := if f.circle then some ((match circleWindow s0 me with | some z => z.base | none => 0) + off) else none
      let mode := if resolve w.mode f.round = .rs then RMode.rn else resolve w.mode f.round
      (CachesOk s c → Accessed s0 s2 me still) ∧
      (rimCauses r (circleWindow s0 me) win f.circle false xs off = [] →
        Enters (.rimLd f) s s2 c k e w 8 2 (cmdOf s0 me e t0 v (.rimLd f.tile.toNat raw xs win mode key)) (takes f.tile.toNat)) ∧
      (rimCauses r (circleWindow s0 me) win f.circle true xs off = [] →
        Enters (.rimSt f) s s2 c k e w 8 2 (cmdOf s0 me e t0 v (.rimSt f.tile.toNat raw xs win mode key)) id))

/-- R181, R182, R327. `waitc` goes on once the counter of the elected thread has reached its count, with the L1 and the slice
emptied (R190), else it waits; `qfence` stands in its queues from its place on; `termrd` reads a term counter. R18, R177 to
R182. The engine forms of the uniform set, with the operands of the agent's uniform registers: a weave or a steer thread
queues commands and fences. (Rests on log entries 16, 17, 18 and 65, the model's own readings.) -/
def Obligations.UniformEngines : Prop :=
  (∀ (s : State) (c k : Nat) (e : Entry) (w : Weave), LaneTurn s c k e w → w.Plain →
     let me := Agent.weave c k
     let s0 := laneState s c k w
     let x := laneCore s c k w
     (∀ (a b : LSrc) (p : BitVec 28) (va vb : Double) (l : Leaf), illegalHere w e 8 false false (lsrcRegs a 2 ++ lsrcRegs b 1) = false →
       readLSrc x w (lowest e.mask) a true 0#64 = .ok va → readLSrc x w (lowest e.mask) b false (litValue .w32 p) = .ok vb →
       Reaches s0 me va.toNat 8 .load l → sound s0 c (leafKey s0 l va.toNat) → CachesOk s c →
       let count := natLE ((List.range 8).map (fun j => ownByte s0 me (homeByte s0 c) (leafKey s0 l va.toNat + j)))
       (vb.toNat % 2 ^ 32 ≤ count →
         ∃ t, exec (.waitc a b p) s = .next t ∧ LaneAccess s t c k e w w still (onward e 8) ∧ (getCore t c).l1 = [] ∧
           sliceOf t c = []) ∧
       (count < vb.toNat % 2 ^ 32 →
         ∃ t, exec (.waitc a b p) s = .next t ∧
           LaneAccess s t c k e w w still (fun _ => (.waiting (.waitc va (vb.toNat % 2 ^ 32)), e.pc)))) ∧
     (∀ m, illegalHere w e 4 false false [] = false → ∃ t n, exec (.qfence m) s = .next t ∧
       LaneDone (onCore s c (fun x => { x with fences := x.fences ++ [{ mask := m, seq := n, inst := w.inst }] })) t c k e w w (onward e 4)) ∧
     (∀ (d : BitVec 7) (clr : Bool) (i : BitVec 3), i.toNat ≤ 5 → illegalHere w e 4 false false [(d.toNat, 2)] = false →
       let y := (getCore s c).term
       let v := [y.terms, y.groupcyc, y.tilecyc, y.zero, y.drift, y.esc].getD i.toNat 0
       ∃ t z, exec (.termrd d clr i) s = .next t ∧
         AluDone (onCore s c (fun x => { x with term := z })) t c k e w 4 Rules.all false (.reg d.toNat true) (fun _ => BitVec.ofNat 64 v)
           (fun _ => 0#6) (readGen w) ∧
         [z.terms, z.groupcyc, z.tilecyc, z.zero, z.drift, z.esc]
           = if clr then [y.terms, y.groupcyc, y.tilecyc, y.zero, y.drift, y.esc].set i.toNat 0
             else [y.terms, y.groupcyc, y.tilecyc, y.zero, y.drift, y.esc])) ∧
  (∀ (s : State) (a : Agent) (e : Entry), UniTurn s a e →
     let s1 := begin s a e
     let t0 := match a with | .weave _ _ => lowest e.mask | _ => 0
     settled s1 a →
     (∀ (f : UniBox) (r : TRec) (raw : Nat) (s2 : State) (xs : List Nat) (o : Double) (ctr : Option (Double × Scope)) (z : Machine.Circle),
       uniOk s1 a e 8 .weaveSteer → uniCoords s1 a f.x.toNat f.n.toNat = .ok xs → readUSrc s1 a f.o false 0#64 = .ok o → uniCtr s1 a f.ctr = .ok ctr →
       ctrFine s1 a ctr → issueRec s1 a f.tx.toNat = (.ok (r, raw), s2) → circleWindow s1 a = some z →
       let off := o.toNat % 2 ^ 32
       let n := packedSize (recFmt r) f.e0.toNat f.e1.toNat
       off % 16 = 0 → n ≤ 65536 → off + n ≤ z.size → boxInside r xs (2 ^ f.e0.toNat) (2 ^ f.e1.toNat) = true →
       let q := if f.q then 1 else 0
       (CachesOk s1 (coreOf a) → Accessed s1 s2 a still) ∧
       UniEnters (.uCpyIn f) s s2 a e q (cmdOf s1 a e t0 ctr (.cpyIn raw xs (z.base + off) f.e0.toNat f.e1.toNat)) ∧
       UniEnters (.uCpyOut f) s s2 a e q (cmdOf s1 a e t0 ctr (.cpyOut raw xs (z.base + off) f.e0.toNat f.e1.toNat))) ∧
     (∀ (f : UniCpyG) (va vb : Double) (ctr : Option (Double × Scope)), uniOk s1 a e 8 .weaveSteer →
       readUSrc s1 a f.a true 0#64 = .ok va → readUSrc s1 a f.b true 0#64 = .ok vb → uniCtr s1 a f.ctr = .ok ctr → ctrFine s1 a ctr →
       va.toNat % 16 = 0 → vb.toNat % 16 = 0 →
       UniEnters (.uCpyG f) s s1 a e (cpyQueue f.q) (cmdOf s1 a e t0 ctr (.cpyG va.toNat vb.toNat (f.len.toNat * 16)))) ∧
     (∀ (x y : USrc) (p : BitVec 28) (va vb : Double) (l : Leaf), uniOk s1 a e 8 .any →
       readUSrc s1 a x true 0#64 = .ok va → readUSrc s1 a y false (litValue .w32 p) = .ok vb →
       Reaches s1 a va.toNat 8 .load l → sound s1 (coreOf a) (leafKey s1 l va.toNat) → CachesOk s1 (coreOf a) →
       let count := natLE ((List.range 8).map (fun j => ownByte s1 a (homeByte s1 (coreOf a)) (leafKey s1 l va.toNat + j)))
       (vb.toNat % 2 ^ 32 ≤ count →
         ∃ t, exec (.uWaitc x y p) s = .next t ∧ UniAccess s1 t a e 8 still ∧ UniKept s1 t a ∧ (getCore t (coreOf a)).l1 = [] ∧
           sliceOf t (coreOf a) = []) ∧
       (count < vb.toNat % 2 ^ 32 →
         ∃ t s2, exec (.uWaitc x y p) s = .next t ∧ Accessed s1 s2 a still ∧ UniWaits s2 t a e (.waitc va (vb.toNat % 2 ^ 32)))) ∧
     (∀ m i, uniOk s1 a e 4 .weaveSteer → agentInst s1 a = some i → ∃ t n, exec (.uQfence m) s = .next t ∧
       UniMoved (onCore s1 (coreOf a) (fun x => { x with fences := x.fences ++ [{ mask := m, seq := n, inst := i }] })) t a e (e.pc + 4#64)
         (getFile s1 a)))

/-- R169 to R171, R188. A lane atomic acts at the home of its bytes, the active threads in increasing order, each on what the
ones before it left; the old values go to the destination where the form returns them; circle memory likewise. (Rests on log
entries 15, 16 and 17, the model's own readings.) -/
def Obligations.LaneAtomics : Prop :=
  ∀ (s : State) (c k : Nat) (e : Entry) (w : Weave) (f : LaneLd) (op : AtomOp) (q : AtomQ) (i : Instr) (l : Nat → Leaf) (a b x : Nat → Double),
    LaneTurn s c k e w → w.Plain → i = .atom f op q ∨ (op = .cas ∧ i = .atomCas f q) →
    let s0 := laneState s c k w
    let me := Agent.weave c k
    let wd := atomWide q.ty
    let n := if wd then 8 else 4
    let cut := fun (v : Double) => if wd then v else (v.setWidth 32 : Word).setWidth 64
    illegalHere w e 8 false false ((if q.ret then [(f.d.toNat, if wd then 2 else 1)] else []) ++ lsrcRegs f.a (if q.circle then 1 else 2) ++
      lsrcRegs f.b (if wd then 2 else 1)) = false →
    (∀ u, e.mask.getLsbD u = true → readLSrc (laneCore s c k w) w u f.a (!q.circle) 0#64 = .ok (a u) ∧
      readLSrc (laneCore s c k w) w u f.b wd 0#64 = .ok (b u) ∧
      (op = .cas → readReg (laneCore s c k w) w u f.d.toNat wd = .ok (x u))) → scopeDenied s0 me q.scope = false →
    let after := fun (key : Nat → Nat) (m : Nat → Byte) =>
      Rules.atomics op q.ty n ((threadsOf e.mask).map (fun u => (u, key u, cut (b u), if op = .cas then cut (x u) else 0#64))) m
    let put := fun (key : Nat → Nat) (m : Nat → Byte) (j : Nat) =>
      if (threadsOf e.mask).any (fun u => decide (key u ≤ j ∧ j < key u + n)) then some ((after key m).2 j) else none
    let gets := fun (w1 : Weave) (old : Nat → Double) => { w1 with inflight := w.inflight } = w ∧
      w.sets (commitWeave w1) (fun u r => if e.mask.getLsbD u && q.ret then regAt f.d.toNat wd (old u) r else none)
    (q.circle = false → direct s0 me → CachesOk s c → agree s0 me e.mask (fun u => (a u).toNat) l →
      let key := fun u => leafKey s0 (l u) (a u).toNat
      (∀ u, e.mask.getLsbD u = true → Reaches s0 me (a u).toNat n .atomic (l u) ∧ sound s0 c (key u)) →
      ∃ t w1, exec i s = .next t ∧ LaneAccess s t c k e w w1 (put key (homeByte s0 c)) (onward e 8) ∧
        gets w1 (after key (homeByte s0 c)).1 ∧ (acqOrd q.order = true → wide q.scope = true → (getCore t c).l1 = []) ∧
        (acqOrd q.order = true → beyond q.scope = true → sliceOf t c = []) ∧
        (relOrd q.order = true → beyond q.scope = true → ∀ j, memByte t j = (put key (homeByte s0 c) j).getD (homeByte s0 c j))) ∧
    (∀ z, q.circle = true → circleWindow s0 me = some z →
      let key := fun u => z.base + (a u).toNat % 2 ^ 32
      let m := fun j => sget 0#8 (laneCore s c k w).cmem j
      (∀ u, e.mask.getLsbD u = true → (a u).toNat % 2 ^ 32 % n = 0 ∧ (a u).toNat % 2 ^ 32 + n ≤ z.size ∧
        circleBad (laneCore s c k w) (key u) n = false) →
      ∃ t w1 y, exec i s = .next t ∧ LaneDone (onCore s c (fun x => { x with cmem := y })) t c k e w w1 (onward e 8) ∧
        (∀ j, sget 0#8 y j = (put key m j).getD (m j)) ∧ gets w1 (after key m).1)

/-- R171, R172, R190, R199, R265. The uniform atomic, with thread index 0; and the fences of both sets: a release at .pt
leaves in the slice what the core's L1 held, one at .tn or wider in memory what both held, an acquire empties the L1, or both,
and a scope that the policy denies parks the threads. (Rests on log entries 16 and 17, the model's own readings.) -/
def Obligations.UniformAtomicsFences : Prop :=
  (∀ (s : State) (a : Agent) (e : Entry), UniTurn s a e →
    let s1 := begin s a e
    settled s1 a →
    (∀ (f : UniLd) (op : AtomOp) (q : AtomQ) (va vb vx : Double) (l : Leaf), uniOk s1 a e 8 .any →
      let wd := atomWide q.ty
      let n := if wd then 8 else 4
      let cut := fun (v : Double) => if wd then v else (v.setWidth 32 : Word).setWidth 64
      readUSrc s1 a f.a (!q.circle) 0#64 = .ok va → readUSrc s1 a f.b wd 0#64 = .ok vb → (op = .cas → readUDst s1 a f.d wd = .ok vx) →
      scopeDenied s1 a q.scope = false →
      let cmp := if op = .cas then cut vx else 0#64
      let old := fun (m : Nat → Byte) (key : Nat) => Rules.loaded (if wd then .b64 else .b32) (fun j => m (key + j))
      let put := fun (m : Nat → Byte) (key j : Nat) =>
        if key ≤ j ∧ j < key + n then some ((Rules.atomic op q.ty (old m key) (cut vb) cmp).extractLsb' (8 * (j - key)) 8) else none
      let ends := fun (s2 t : State) (v : Double) => if q.ret then UniGot s2 t a e (.reg f.d wd) v else UniKept s2 t a
      (q.circle = false → direct s1 a → CachesOk s1 (coreOf a) → Reaches s1 a va.toNat n .atomic l →
        let key := leafKey s1 l va.toNat
        sound s1 (coreOf a) key → ∃ t, exec (.uAtom f op q) s = .next t ∧
          UniAccess s1 t a e 8 (put (homeByte s1 (coreOf a)) key) ∧ ends s1 t (old (homeByte s1 (coreOf a)) key) ∧
          (acqOrd q.order = true → wide q.scope = true → (getCore t (coreOf a)).l1 = []) ∧
          (acqOrd q.order = true → beyond q.scope = true → sliceOf t (coreOf a) = []) ∧
          (relOrd q.order = true → beyond q.scope = true →
            ∀ j, memByte t j = (put (homeByte s1 (coreOf a)) key j).getD (homeByte s1 (coreOf a) j))) ∧
      (∀ z, q.circle = true → circleWindow s1 a = some z →
        let off := va.toNat % 2 ^ 32
        let m := fun j => sget 0#8 (getCore s1 (coreOf a)).cmem j
        off % n = 0 → off + n ≤ z.size → circleBad (getCore s1 (coreOf a)) (z.base + off) n = false →
        ∃ t y, exec (.uAtom f op q) s = .next t ∧
          UniAccess (onCore s1 (coreOf a) (fun x => { x with cmem := y })) t a e 8 still ∧ ends s1 t (old m (z.base + off)) ∧
          ∀ j, sget 0#8 y j = (put m (z.base + off) j).getD (m j))) ∧
    (∀ kind sc, uniOk s1 a e 4 .any → CachesOk s1 (coreOf a) → scopeDenied s1 a sc = false →
      ∃ t, exec (.uFence kind sc) s = .next t ∧ UniAccess s1 t a e 4 still ∧ UniKept s1 t a ∧
        Fenced s1 t (coreOf a) kind sc)) ∧
  (∀ (s : State) (c k : Nat) (e : Entry) (w : Weave) (kind : FenceKind) (sc : Scope), LaneTurn s c k e w → w.Plain →
    illegalHere w e 4 false false [] = false →
    (CachesOk s c → scopeDenied (laneState s c k w) (.weave c k) sc = false →
      ∃ t, exec (.fence kind sc) s = .next t ∧ LaneAccess s t c k e w w still (onward e 4) ∧
        Fenced s t c kind sc) ∧
    (noBar s c → scopeDenied (laneState s c k w) (.weave c k) sc = true →
      ∃ t, exec (.fence kind sc) s = .next t ∧ LaneParked s t c k e w w e.mask cSCOPE 0#64 (onward e 4)))

/-- R173 to R176. `alloc` gives each active thread a free block of the smallest class that holds its size, or 0 and false
where there is none; `free` takes the blocks back, an address of 0 having no effect. Both order as a fence at .tn does. R173
to R176, R265. `u.alloc` and `u.free`, for one request. (Rests on log entries 8 and 16, the model's own readings.) -/
def Obligations.Allocation : Prop :=
  (∀ (s : State) (c k : Nat) (e : Entry) (w : Weave) (x : LSrc) (v : Nat → Double), LaneTurn s c k e w → w.Plain →
     let s0 := laneState s c k w
     let me := Agent.weave c k
     let vf := vfAt s c k w
     direct s0 me → CachesOk s c → HeapOk (getVf s vf) → heapWritable s vf →
     (∀ (d : BitVec 7) (trap : Bool) (p : BitVec 3), illegalHere w e 8 false false ([(d.toNat, 2)] ++ lsrcRegs x 1) = false →
       let n := fun u => (v u).toNat % 2 ^ 32
       let roomy := 32 ≤ (freeChunks (getVf s vf)).length ∧ ∀ u, e.mask.getLsbD u = true → n u ≤ 2 ^ 20
       (∀ u, e.mask.getLsbD u = true → readLSrc (laneCore s c k w) w u x false 0#64 = .ok (v u)) → (trap = true → roomy) →
       ∃ t w1 got, exec (.alloc d x trap p) s = .next t ∧ LaneAccess { s with vfs := t.vfs } t c k e w w1 still (onward e 8) ∧
         (getCore t c).l1 = [] ∧ sliceOf t c = [] ∧ Gave s t vf (fun u => e.mask.getLsbD u) n got ∧ (roomy → ∀ u, e.mask.getLsbD u = true → got u ≠ none) ∧
         { w1 with inflight := w.inflight } = w ∧
         ∀ u, u < 32 →
           (∀ r, readV (commitWeave w1) u r =
             if e.mask.getLsbD u then (pairAt d.toNat (BitVec.ofNat 64 ((got u).getD 0)) r).getD (readV w u r) else readV w u r) ∧
           ∀ r, readP (commitWeave w1) u r = if e.mask.getLsbD u ∧ r = p.toNat ∧ r ≠ 7 then (got u).isSome else readP w u r) ∧
     (illegalHere w e 4 false false (lsrcRegs x 2) = false →
       (∀ u, e.mask.getLsbD u = true → readLSrc (laneCore s c k w) w u x true 0#64 = .ok (v u) ∧
         ((v u).toNat = 0 ∨ sfind (getVf s vf).blocks (v u).toNat ≠ none)) →
       (∀ u u', e.mask.getLsbD u = true → e.mask.getLsbD u' = true → v u = v u' → (v u).toNat = 0 ∨ u = u') →
       ∃ t, exec (.free x) s = .next t ∧ LaneAccess { s with vfs := t.vfs } t c k e w w still (onward e 4) ∧
         TookBack s t vf (fun a => (List.range 32).any (fun u => e.mask.getLsbD u && (v u).toNat == a)) ∧
         ∀ j, memByte t j = homeByte s c j)) ∧
  (∀ (s : State) (a : Agent) (e : Entry) (x : USrc) (v : Double), UniTurn s a e →
     let s1 := begin s a e
     let vf := agentVf s1 a
     settled s1 a → direct s1 a → CachesOk s1 (coreOf a) → HeapOk (getVf s1 vf) → heapWritable s1 vf →
     (∀ (d : BitVec 6) (trap : Bool) (p : BitVec 3), uniOk s1 a e 8 .any → readUSrc s1 a x false 0#64 = .ok v →
       let n := v.toNat % 2 ^ 32
       let roomy := n ≤ 2 ^ 20 ∧ freeChunks (getVf s1 vf) ≠ []
       (trap = true → roomy) →
       ∃ t got, exec (.uAlloc d x trap p) s = .next t ∧ UniAccess { s1 with vfs := t.vfs } t a e 8 still ∧
         (getCore t (coreOf a)).l1 = [] ∧ sliceOf t (coreOf a) = [] ∧ Gave s1 t vf (fun u => u == 0) (fun _ => n) got ∧ (roomy → got 0 ≠ none) ∧
         (∀ r, readS (afterArrival t a) r = (UDest.reg (.s d) true).writes (BitVec.ofNat 64 ((got 0).getD 0)) r (readS (getFile s1 a) r)) ∧
         (∀ r, r < 4 → readQ (afterArrival t a) r = if r = p.toNat then (got 0).isSome else readQ (getFile s1 a) r) ∧
         (afterArrival t a).mode = (getFile s1 a).mode ∧ ∀ u, flagsOf t a u = flagsOf s1 a u) ∧
     (uniOk s1 a e 4 .any → readUSrc s1 a x true 0#64 = .ok v → v.toNat = 0 ∨ sfind (getVf s1 vf).blocks v.toNat ≠ none →
       ∃ t, exec (.uFree x) s = .next t ∧ UniAccess { s1 with vfs := t.vfs } t a e 4 still ∧ UniKept s1 t a ∧
         TookBack s1 t vf (fun b => v.toNat == b) ∧ ∀ j, memByte t j = homeByte s1 (coreOf a) j))

/-- R166, R168, R233. Constant-bank loads read memory at the bank's base plus their offset; `ldt` gives each thread the
element it names, `stt` sends a store of its element. (Rests on log entries 57, 68 and 77, the model's own readings.) -/
def Obligations.ConstantsTensors : Prop :=
  (∀ (s : State) (c k : Nat) (e : Entry) (w : Weave) (f : LaneLd) (p : BitVec 28) (l : Nat → Leaf) (a b : Nat → Double),
    LaneTurn s c k e w → w.pair = none → w.unlooked e →
    let s0 := laneState s c k w
    let me := Agent.weave c k
    let off := fun u => (a u + b u).toNat % 2 ^ 32
    let at_ := fun u => (bankOf s0 me).1 + off u
    (∀ u, e.mask.getLsbD u = true → readLSrc (laneCore s c k w) w u f.a false 0#64 = .ok (a u) ∧
      readLSrc (laneCore s c k w) w u f.b false (p.setWidth 64) = .ok (b u)) → agree s0 me e.mask at_ l →
    ∀ m i, (m, i) ∈ [(MemW.b32, Instr.ldkB32 f p), (.b64, .ldkB64 f p)] →
      illegalHere w e 8 false false ([(f.d.toNat, if Rules.isDouble m then 2 else 1)] ++ lsrcRegs f.a 1 ++ lsrcRegs f.b 1) = false →
      (∀ u, e.mask.getLsbD u = true → BankReaches s0 me (Rules.bytesOf m) (off u) (l u)) →
      ∃ t s2, exec i s = .next t ∧ Consulted s0 s2 c ∧
        AluDone s2 t c k e w 8 Rules.all false (.reg f.d.toNat (Rules.isDouble m))
          (fun u => Rules.loaded m (fun j => memByte s0 (leafKey s0 (l u) (at_ u) + j))) (fun _ => 0#6) (readGen w)) ∧
  (∀ (s : State) (a : Agent) (e : Entry) (f : UniLd) (p : BitVec 28) (l : Leaf) (va vb : Double), UniTurn s a e →
    let s1 := begin s a e
    let off := (va + vb).toNat % 2 ^ 32
    let at_ := (bankOf s1 a).1 + off
    uniOk s1 a e 8 .any → readUSrc s1 a f.a false 0#64 = .ok va → readUSrc s1 a f.b false (p.setWidth 64) = .ok vb →
    (∀ c k w, a = .weave c k → getWeave s1 c k = some w → w.unlooked e) →
    ∀ m i, (m, i) ∈ [(MemW.b32, Instr.uLdkB32 f p), (.b64, .uLdkB64 f p)] → BankReaches s1 a (Rules.bytesOf m) off l →
      ∃ t s2, exec i s = .next t ∧ Consulted s1 s2 (coreOf a) ∧
        UniDone s2 t a e 8 (.reg f.d (Rules.isDouble m)) (Rules.loaded m (fun j => memByte s1 (leafKey s1 l at_ + j))) 0#6 (uniGen s1 a e)) ∧
  (∀ (s : State) (c k : Nat) (e : Entry) (w : Weave) (d x : BitVec 7) (tx : BitVec 8) (n : BitVec 3) (f32 : Bool) (la : Launch) (r : TRec) (raw : Nat)
    (s1 s2 : State), LaneTurn s c k e w → w.Plain →
    let s0 := laneState s c k w
    let me := Agent.weave c k
    agentLaunch s0 me = some la → readRec (agentRd me) s0 (tensorAddr la tx.toNat) = (.ok (r, raw), s1) →
    (∀ (ls : Elems) (v : Nat → Double) (fl : Nat → Flags), w.unlooked e →
      illegalHere w e 8 false false [(d.toNat, 1), (x.toNat, n.toNat)] = false →
      ldtAll me e r f32 s1 ((threadsOf e.mask).map (fun u => (u, threadCoords (laneCore s c k w) w u x.toNat n.toNat))) = (ls, s2) →
      ls = (threadsOf e.mask).map (fun u => (u, .ok (v u, fl u))) → (∀ u, e.mask.getLsbD u = true → fpTrap w.mode (fl u) = none) →
      (CachesOk s c → Accessed s0 s2 me still) ∧
      ∃ t, exec (.ldt d x tx n f32) s = .next t ∧ AluDone s2 t c k e w 8 Rules.all false (.reg d.toNat false) v fl (readGen w)) ∧
    (∀ (data : LSrc) (round : Round) (g : Nat → Double) (fl : Nat → Flags) (st : Nat → Option ThreadStore) (runs : List SttRun),
      illegalHere w e 8 false false ([(x.toNat, n.toNat)] ++ lsrcRegs data 1) = false → r.imm = false → r.esc = false →
      sttAll me e w r f32 (resolve w.mode round) s1
        ((threadsOf e.mask).map (fun u => (u, sttArgs (getCore s1 c) w u x.toNat n.toNat data))) = (runs, s2) →
      runs = (threadsOf e.mask).map (fun u => { tid := u, gen := g u, res := .ok (st u, fl u) }) →
      let writes := (threadsOf e.mask).filterMap st
      let mask := maskOf ((threadsOf e.mask).filter (fun u => (st u).isSome))
      (CachesOk s c → Accessed s0 s2 me still) ∧
      ∃ t w1, exec (.stt data x tx n f32 round) s = .next t ∧ LaneDone s2 t c k e w w1 (onward e 8) ∧
        { w1 with storeq := [], flags := w.flags, gens := w.gens } = w ∧
        w1.storeq = (if writes = [] then [] else [{ writes := writes, rel := none, through := false, width := 0, ord := 0, mask := mask }]) ∧
        ∀ u, u < 32 → readFlags w1 u = (if e.mask.getLsbD u then readFlags w u ||| fl u else readFlags w u) ∧
          readGen w1 u = if e.mask.getLsbD u then g u else readGen w u))

/-- R157 to R159, R163, R164, R265. Uniform loads and stores, with thread index 0: the value loaded is on its way to the
destination, the store enters the agent's queue. (Rests on log entries 15 and 16, the model's own readings.) -/
def Obligations.UniformMemory : Prop :=
  ∀ (s : State) (a : Agent) (e : Entry) (va vb : Double) (l : Leaf) (z : Machine.Circle), UniTurn s a e →
    let s1 := begin s a e
    let x := getCore s1 (coreOf a)
    let at_ := (offsetBy va vb).toNat
    let off := (va + vb).toNat % 2 ^ 32
    let key := leafKey s1 l at_
    let adds := fun (p q : USrc) (circle : Bool) => readUSrc s1 a p (!circle) 0#64 = .ok va ∧ readUSrc s1 a q false 0#64 = .ok vb
    let inside := fun (m : MemW) => circleWindow s1 a = some z ∧ off % Rules.bytesOf m = 0 ∧ off + Rules.bytesOf m ≤ z.size
    settled s1 a →
    (∀ f : UniLd,
      let global := fun (i : Instr) (m : MemW) (size : Nat) (below : Nat → Byte) => ∃ t, exec i s = .next t ∧ UniAccess s1 t a e size still ∧
        UniGot s1 t a e (.reg f.d (Rules.isDouble m)) (Rules.loaded m (fun j => ownByte s1 a below (key + j)))
      let circle := fun (i : Instr) (m : MemW) (size : Nat) (s2 : State) => ∃ t, exec i s = .next t ∧ UniAccess s2 t a e size still ∧
        UniGot s1 t a e (.reg f.d (Rules.isDouble m)) (Rules.loaded m (fun j => sget 0#8 x.cmem (z.base + off + j)))
      (∀ m i, (m, i) ∈ [(MemW.b32, Instr.uLdGB32 f), (.b64, .uLdGB64 f)] → uniOk s1 a e 4 .any → adds f.a f.b false →
        Reaches s1 a at_ (Rules.bytesOf m) .load l → CachesOk s1 (coreOf a) → sound s1 (coreOf a) key →
        global i m 4 (seenByte s1 (coreOf a))) ∧
      (∀ m i, (m, i) ∈ [(MemW.b32, Instr.uLdCmB32 f), (.b64, .uLdCmB64 f)] → uniOk s1 a e 4 .any → adds f.a f.b true → inside m →
        circleBad x (z.base + off) (Rules.bytesOf m) = false → circle i m 4 s1) ∧
      (∀ q : Qual, uniOk s1 a e 8 .any → CachesOk s1 (coreOf a) → (q.order = .acq → scopeDenied s1 a q.scope = false) →
        (q.fe = .none → adds f.a f.b false → Reaches s1 a at_ (Rules.bytesOf q.width) .load l → sound s1 (coreOf a) key →
          global (.uLdGQual f q) q.width 8 (qualByte s1 (coreOf a) q)) ∧
        (adds f.a f.b true → inside q.width → circleBad x (z.base + off) (Rules.bytesOf q.width) = false →
          let mine := fun g => decide ((z.base + off) / 16 ≤ g) && decide (g ≤ (z.base + off + Rules.bytesOf q.width - 1) / 16)
          (q.fe ≠ .none → feWaiting x = [] ∧ ∀ g, mine g = true → nmem x.full g = true) →
          circle (.uLdCmQual f q) q.width 8
            (onCore s1 (coreOf a) (fun y => { y with full := if q.fe = .fec then y.full.filter (fun g => !mine g) else y.full }))))) ∧
    (∀ (f : UniSt) (d : Double),
      let reads := fun (m : MemW) => readUSrc s1 a f.t (Rules.isDouble m) 0#64 = .ok d
      let enters := fun (i : Instr) (m : MemW) (size : Nat) (circle full through : Bool) (rel : Option Scope) (ord : Nat) =>
        let one := ({ circle := circle, va := if circle then off else at_, key := if circle then z.base + off else key,
                      data := lowBytes (Rules.bytesOf m) d, full := circle && full, bits := [] } : ThreadStore)
        let req := ({ writes := [one], rel := rel, through := through, width := widthCode m, ord := ord, mask := 1#32 } : StoreReq)
        ∃ t, exec i s = .next t ∧ UniAccess s1 t a e size still ∧ UniKept s1 t a ∧ queueOf t a = [req]
      (∀ m i, (m, i) ∈ [(MemW.b32, Instr.uStGB32 f), (.b64, .uStGB64 f)] → uniOk s1 a e 4 .any → adds f.a f.b false → reads m →
        Reaches s1 a at_ (Rules.bytesOf m) .store l → enters i m 4 false false false none 0) ∧
      (∀ m i, (m, i) ∈ [(MemW.b32, Instr.uStCmB32 f), (.b64, .uStCmB64 f)] → uniOk s1 a e 4 .any → adds f.a f.b true → reads m → inside m →
        enters i m 4 true false false none 0) ∧
      (∀ q : Qual, uniOk s1 a e 8 .any → q.order ≠ .acq → (q.order = .rel → scopeDenied s1 a q.scope = false) →
        let rel := if q.order = .rel then some q.scope else none
        let ord := (if q.order = .rel then 16 else 0) + scopeCode q.scope
        (q.fe = .none → adds f.a f.b false → reads q.width → Reaches s1 a at_ (Rules.bytesOf q.width) .store l →
          enters (.uStGQual f q) q.width 8 false false (q.cache == .nl1) rel ord) ∧
        (adds f.a f.b true → reads q.width → inside q.width →
          enters (.uStCmQual f q) q.width 8 true (q.fe != .none) (q.cache == .nl1) rel ord)))

/-! ## Nodes and emulation calls from a program -/

/-- R146, R147. `nodeput` waits for the Fjolar's checks with its agent's stores in memory; `waitn` writes a status that ends a
node, with the L1 and the slice emptied where it is 3, or waits to its limit, in cycles of the core's clock. (Rests on log
entries 16, 33 and 35, the model's own readings.) -/
def Obligations.NodeForms : Prop :=
  ∀ (s : State) (a : Agent) (e : Entry) (d : UDst) (x y : USrc) (p : BitVec 28) (addr vy : Double) (key : Nat) (s2 : State), UniTurn s a e →
    let s1 := begin s a e
    settled s1 a → direct s1 a → CachesOk s1 (coreOf a) → readUSrc s1 a x true 0#64 = .ok addr → nodeSite s1 a addr = (.ok key, s2) →
    (uniOk s1 a e 4 .weaveSteer → ∃ t s3, exec (.nodeput d x) s = .next t ∧ Accessed s1 s3 a still ∧
      (∀ j, memByte s3 j = homeByte s1 (coreOf a) j) ∧ UniWaits s3 t a e (.nodeput d addr)) ∧
    (∀ n s3, uniOk s1 a e 8 .weaveSteer → readUSrc s1 a y false (litValue .w32 p) = .ok vy → readNodeStatus s2 a addr = (.ok n, s3) →
      (n = 3 ∨ n = 4 ∨ n = 5 → ∃ t, exec (.waitn d x y p) s = .next t ∧ UniAccess s1 t a e 8 still ∧
        UniGot s1 t a e (.reg d false) (BitVec.ofNat 64 n) ∧ (n = 3 → (getCore t (coreOf a)).l1 = [] ∧ sliceOf t (coreOf a) = [])) ∧
      (n ≠ 3 → n ≠ 4 → n ≠ 5 → ∃ t, exec (.waitn d x y p) s = .next t ∧ Accessed s1 s3 a still ∧
        UniWaits s3 t a e (.waitn d addr (if vy.toNat % 2 ^ 32 = 0 then none else some (coreCycles s (coreOf a) + 1024 * (vy.toNat % 2 ^ 32))))))

/-- R429. `calle` stores the pair, the payload, the argument word and the link in each thread's save area, leaves the area's
address in the pair, and goes to its target; `calle.ret` loads the pair and the link back and goes to the link. (Rests on log
entry 42, the model's own reading.) -/
def Obligations.EmulationCalls : Prop :=
  ∀ (s : State) (c k : Nat) (e : Entry) (w : Weave) (r : BitVec 7), LaneTurn s c k e w → w.Plain → illegalHere w e 8 false false [(r.toNat, 2)] = false →
    let s0 := laneState s c k w
    let me := Agent.weave c k
    let area := areaOf s0 c w
    (∀ (off : BitVec 14) (x : Bool) (orig : BitVec 21) (arg : Word) (s1 s2 : State) (v : Nat → Double) (st : Nat → List ThreadStore), w.fits e 1 →
      argWord s0 c (vfAt s c k w) e x = (.ok arg, s1) →
      (∀ u, e.mask.getLsbD u = true → readReg (laneCore s c k w) w u r.toNat true = .ok (v u)) →
      let link := e.pc + (if x then 16#64 else 8#64)
      let payload : Word := BitVec.ofNat 32 (orig.toNat + if x then 2 ^ 26 else 0)
      let to_ := e.pc + BitVec.ofInt 64 (4 * off.toInt)
      callAll me e s1 ((threadsOf e.mask).map (fun u => (u, area u, .ok (callStores (v u) link payload arg))))
        = ((threadsOf e.mask).map (fun u => (u, .ok (st u))), s2) → lands s2 c (vfAt s c k w) to_ →
      Looked s0 s1 c ∧ (CachesOk s c → Accessed s1 s2 me still) ∧
      (∀ u, e.mask.getLsbD u = true → (st u).map (fun y => (y.circle, y.va, y.data)) =
        [(false, (BitVec.ofNat 64 (area u + 224)).toNat, lowBytes 8 (v u)), (false, (BitVec.ofNat 64 (area u + 232)).toNat, lowBytes 4 (payload.setWidth 64)),
         (false, (BitVec.ofNat 64 (area u + 236)).toNat, lowBytes 4 (arg.setWidth 64)), (false, (BitVec.ofNat 64 (area u + 240)).toNat, lowBytes 8 link)]) ∧
      ∃ t w1, exec (.calle r off x orig) s = .next t ∧ LaneDone s2 t c k e w w1 (fun _ => (.ready, to_)) ∧
        w.sets { w1 with storeq := [] } (fun u q => if e.mask.getLsbD u then pairAt r.toNat (BitVec.ofNat 64 (area u)) q else none) ∧
        w1.storeq = (List.range 4).map (fun j => { writes := (threadsOf e.mask).filterMap (fun u => (st u)[j]?), rel := none, through := false,
                                                   width := if j = 1 ∨ j = 2 then 4 else 5, ord := 0, mask := e.mask })) ∧
    (∀ (link saved : Nat → Double) (s1 s2 : State) (D : List Double), w.fits e D.length →
      let asks := fun (o : Nat) => (threadsOf e.mask).map (fun u => (u, (.ok (area u + o) : Except Nat Nat)))
      loadGlobals s0 me e (plainLoad false .b64) false (asks 240) = ((threadsOf e.mask).map (fun u => (u, .ok (link u))), s1) →
      loadGlobals s1 me e (plainLoad false .b64) false (asks 224) = ((threadsOf e.mask).map (fun u => (u, .ok (saved u))), s2) →
      (∀ u, e.mask.getLsbD u = true → link u ≠ 0#64 ∧ link u ∈ D ∧ lands s2 c (vfAt s c k w) (link u)) →
      (CachesOk s c → Accessed s0 s2 me still) ∧
      ∃ t w1, exec (.calleRet r) s = .next t ∧ LaneDone s2 t c k e w w1 (fun u => (.ready, link u)) ∧
        w.sets w1 (fun u q => if e.mask.getLsbD u then pairAt r.toNat (saved u) q else none))

/-! ## Events: what arrives, what leaves a queue -/

/-- R62, R199, R255, R444. The oldest result on its way to an agent arrives in the registers it names; an L1 line is written
back and dropped; a core whose serials run out forgets its value store and its tags. R159, R190, R196, R199. The oldest store
of an agent's queue leaves it: its thread stores take place in increasing order, in the caches or in memory, those of a
release at .tn or wider in memory with every earlier store of the core, or in circle memory, where those of a full/empty store
set the full bits of their granules. (Rests on log entries 7, 15 and 16, the model's own readings.) -/
def Obligations.Arrivals : Prop :=
  ((∀ (s : State) (r : Result) (rest : List Result) (c k : Nat),
     (∀ w, getWeave s c k = some w → w.inflight = r :: rest →
       ∃ w', exec (.memoryResultArrive (.weave c k)) s = .next (putWeave s c k w') ∧ w'.inflight = rest ∧ commitWeave w' = commitWeave w ∧
         { w' with v := w.v, vbad := w.vbad, preds := w.preds, s := w.s, sbad := w.sbad, inflight := w.inflight } = w ∧
         (∀ u n, u < 32 → readV w' u n = (latest r.v (32 * n + u)).getD (readV w u n)) ∧
         (∀ u p, u < 32 → p ≠ 7 → readP w' u p = (latest r.p (32 * p + u)).getD (readP w u p)) ∧
         ∀ n, readS (weaveFile w') n = (latest r.u n).getD (readS (weaveFile w) n)) ∧
     (∀ i, getInst s c k = some i → i.steer.inflight = r :: rest →
       ∃ i', exec (.memoryResultArrive (.steer c k)) s = .next (putInst s c k i') ∧ { i' with steer := i.steer } = i ∧
         { i'.steer with s := i.steer.s, sbad := i.steer.sbad, inflight := r :: i'.steer.inflight } = { i.steer with inflight := r :: rest } ∧
         ∀ n, readS (steerFile i'.steer) n = (latest r.u n).getD (readS (steerFile i.steer) n)) ∧
     ((getCore s c).handler.inflight = r :: rest →
       ∃ h, exec (.memoryResultArrive (.handler c)) s = .next (onCore s c (fun x => { x with handler := h })) ∧
         { h with s := (getCore s c).handler.s, sbad := (getCore s c).handler.sbad, inflight := r :: h.inflight } = (getCore s c).handler ∧
         ∀ n, readS (handlerFile h) n = (latest r.u n).getD (readS (handlerFile (getCore s c).handler) n))) ∧
   (∀ (s : State) (c line : Nat), CachesOk s c →
     ∃ t, exec (.l1Eviction c line) s = .next t ∧ sfind (getCore t c).l1 line = none ∧ ∀ a, coreOf a = c → Accessed s t a still) ∧
   (∀ (s : State) (c : Nat),
     ((getCore s c).nextSerial < 2 ^ 40 → exec (.valueStoreEpochFlush c) s = .next s) ∧
     (2 ^ 40 ≤ (getCore s c).nextSerial → ∃ x, exec (.valueStoreEpochFlush c) s = .next (putCore s c x) ∧ x.store = [] ∧ x.nextSerial = 1 ∧
       { x with store := (getCore s c).store, nextSerial := (getCore s c).nextSerial, weaves := [] } = { getCore s c with weaves := [] } ∧
       ∀ k, (sfind x.weaves k).map (fun w => { w with lstat := [] }) =
         (getWeave s c k).map (fun w => { w with vtags := [], stags := [], lstat := [] })))) ∧
  (∀ (s : State) (a : Agent) (r : StoreReq) (rest : List StoreReq), queueOf s a = r :: rest →
     ((∀ x ∈ r.writes, wholeStore false x) → CachesOk s (coreOf a) → direct s a →
       ∃ t, exec (.storeQueueDrain a) s = .next t ∧ queueOf t a = rest ∧ Accessed s t a (newest r.writes) ∧ KeptAgent s t a ∧
         ∀ sc, r.rel = some sc → beyond sc = true →
           ∀ j, memByte t j = (newest r.writes j).getD (homeByte s (coreOf a) j)) ∧
     ((∀ x ∈ r.writes, wholeStore true x) → r.rel = none →
       let c := coreOf a
       let x0 := getCore s c
       ∃ t x, exec (.storeQueueDrain a) s = .next t ∧ t = setQueue (putCore s c x) a rest ∧
         { x with cmem := x0.cmem, cbad := x0.cbad, full := x0.full } = x0 ∧
         (∀ o, sget 0#8 x.cmem o = (newest r.writes o).getD (sget 0#8 x0.cmem o)) ∧
         (∀ g, nmem x.full g = true ↔ nmem x0.full g = true ∨ ∃ y ∈ r.writes, y.full = true ∧ g ∈ granules y.key y.data.length) ∧
         ∀ g, nmem x.cbad g = true → nmem x0.cbad g = true))

/-! ## Events: waits that end -/

/-- R72, R91, R137, R138, R315. A `rcb` is released once no other entry has a lower priority, a `sleep` ends at its time, the
oldest `scope` is granted when its registers are free, a claim when its slots are free, a `join` when the pool has room; till
then these events change nothing. A scope beyond the limits by then raises BOUNDS, a claim of a weave that holds a slot by
then SLOT_STATE. R76. A weave whose threads have all left, some of them marked for a successor entry, restarts there: the
marked threads stand at the entry's program counter with their first registers, in its role, with its allotment; while its
role's circle is full, or its last places are those for which older restarts wait (R91), the event changes nothing. (Rests on
log entries 14, 23, 33, 40 and 76, the model's own readings.) -/
def Obligations.Releases : Prop :=
  (∀ (s : State) (c k : Nat) (e : Entry) (w : Weave), Standing s c k e w → w.pair = none →
     (e.state = .atRcb → (∀ x ∈ w.frontier, x.state = .atRcb → x ≠ e → e.prio.toNat < x.prio.toNat) →
       ((∀ x ∈ w.frontier, e.prio.toNat ≤ x.prio.toNat) →
         ∃ t, exec (.rcbRelease c k) s = .next t ∧ LaneDone s t c k e w w (onward e 4)) ∧
       ((∃ x ∈ w.frontier, x.prio.toNat < e.prio.toNat) → exec (.rcbRelease c k) s = .next s)) ∧
     (∀ n, e.state = .sleeping n → (∀ x ∈ w.frontier, ∀ m, x.state = .sleeping m → m ≤ coreCycles s c → x = e) →
       (n ≤ coreCycles s c → ∃ t, exec (.sleepExpire c k) s = .next t ∧ LaneDone s t c k e w w (fun _ => (.ready, e.pc))) ∧
       (coreCycles s c < n → exec (.sleepExpire c k) s = .next s)) ∧
     (∀ n i l role, e.state = .waiting (.grow n) → waitingOf s (.weave c k) isGrow = some (e, .grow n) → oldestGrow s c = some (k, w) →
       getInst s c w.inst = some i → getLaunch s i.serial = some l → l.header.roles[w.role]? = some role →
       let used := ((getCore s c).weaves.map (fun x => x.2.allot)).sum
       let within := n ≠ 0 ∧ w.scopes.length < 4 ∧ w.scopes.sum + n ≤ role.scopeMax
       (within → used + n ≤ 8192 → ∃ t w1, exec (.scopeGrant c) s = .next t ∧ LaneDone s t c k e w w1 (onward e 8) ∧
         { w1 with v := w.v } = { w with allot := w.allot + n, scopes := n :: w.scopes } ∧
         ∀ u q, u < 32 → readV w1 u q = if q < w.allot then readV w u q else 0#32) ∧
       (within → 8192 < used + n → exec (.scopeGrant c) s = .next s) ∧
       (¬ within → w.Plain → noBar s c → ∃ t, exec (.scopeGrant c) s = .next t ∧
         LaneParked s t c k e { w with chain := none } w e.mask 0x19 0#64 (onward e 8))) ∧
     (∀ u n q, e.state = .waiting (.sclaim u n q) → (∀ x ∈ (getCore s c).weaves, ∀ y ∈ x.2.frontier, ∀ u' n' q',
         y.state = .waiting (.sclaim u' n' q') → (x.1 = k ∧ y = e) ∨ q < q') →
       let free := ∀ j, u ≤ j → j < u + n → (getSlot (getCore s c) j).state = .free
       (free → (∃ y ∈ (getCore s c).slots, slotHeld y.2 w k = true) → w.Plain → noBar s c → ∃ t, exec (.sclaimGrant c) s = .next t ∧
         LaneParked s t c k e { w with chain := none } w e.mask cSLOT 0#64 (onward e 8)) ∧
       (free → (∀ y ∈ (getCore s c).slots, slotHeld y.2 w k = false) →
         ∃ t x, exec (.sclaimGrant c) s = .next t ∧ LaneDone (putCore s c x) t c k e w w (onward e 8) ∧
           { x with slots := (getCore s c).slots } = getCore s c ∧
           ∀ j, getSlot x j = if u ≤ j ∧ j < u + n then
             { Slot.blank with
               state := .claimed, inst := w.inst, weave := k, role := w.role, wid := w.wid, codes := (getSlot (getCore s c) j).codes }
             else getSlot (getCore s c) j) ∧
       ((∃ j, u ≤ j ∧ j < u + n ∧ (getSlot (getCore s c) j).state ≠ .free) → exec (.sclaimGrant c) s = .next s)) ∧
     (∀ tag size i, e.state = .waiting (.join tag size) → waitingOf s (.weave c k) isJoin = some (e, .join tag size) →
       getInst s c w.inst = some i → noBar s c → w.circles.length < 4 → size ≠ 0 → size % 16 = 0 →
       let found := i.circles.find? (fun y => y.role.isNone && y.tag == tag)
       let used := ((i.circles.filter (fun y => y.role.isNone)).map (fun y => y.size)).sum
       ((∀ z, found = some z → z.size = size ∧ z.members.length < 32) →
         (found = none → used + size ≤ i.poolSize ∧ ∀ y ∈ i.circles, y.id < i.nextCircle) →
         ∃ t, exec (.joinGrant c k) s = .next t ∧ JoinDone s t c k e w i tag size) ∧
       (found = none → i.poolSize < used + size → (∀ x ∈ w.frontier, ∀ t n, x.state = .waiting (.join t n) → x = e) →
         exec (.joinGrant c k) s = .next s))) ∧
  (∀ (s : State) (c k n : Nat) (m : Mask) (w : Weave) (i : Inst) (l : Launch) (r : SuccEnt), getWeave s c k = some w → w.frontier = [] →
     w.storeq = [] → w.restart = some (n, m) → getInst s c w.inst = some i → getLaunch s i.serial = some l → l.header.succents[n]? = some r →
     r.allot ≤ w.allot → noBar s c → lands s c (agentVf s (.weave c k)) r.pc →
     let taken := placesTaken s c w.inst k r.role w
     let others := fun (z : Machine.Circle) => (nerase z.members k).length
     (∀ z, i.circles.find? (fun z => z.id == r.role) = some z →
       ((∀ j x, getWeave s c j = some x → j ≠ k → x.restart = none) → taken = others z) ∧ others z ≤ taken ∧
       (taken < 32 →
         ∃ t w1, exec (.weaveRestart c k) s = .next t ∧ { t with cores := [] } = { s with cores := [] } ∧
           (∀ d, d ≠ c → getCore t d = getCore s d) ∧ (∀ j, j ≠ k → getWeave t c j = getWeave s c j) ∧ getWeave t c k = some w1 ∧
           w1.frontier = [entryAt r.pc 0#16 m .ready] ∧
           { w1.body with v := [], vbad := [] } = { { commitWeave w with
             role := r.role, allot := r.allot, scopes := [], circles := [r.role], restart := none, region := none }.body with v := [], vbad := [] } ∧
           (∀ u q, u < 32 → readV w1 u q = if q < r.kept ∧ m.getLsbD u = true then readV (commitWeave w) u q else 0#32) ∧
           ∃ i', getInst t c w.inst = some i' ∧ { i' with circles := i.circles, stages := i.stages } = i) ∧
       (32 ≤ taken → exec (.weaveRestart c k) s = .next s)))

/-- R164, R165. A full/empty load that waits takes place once its granules are full and no other waits; `.fec` clears their
bits in the same step: of a weave, of a steer thread, of the handler slot. R84, R86. A `dpush` or a `wpush` that waits appends
once its queue has room; the `dpop` or the `wpop` that waited longest takes the oldest entry, or the end value once nothing
more can come. (Rests on log entries 14 and 20, the model's own readings.) -/
def Obligations.Wakes : Prop :=
  ((∀ (s : State) (c k : Nat) (e : Entry) (w : Weave) (r : FeLoad) (d : Nat) (key : Nat → Nat), Standing s c k e w → w.Plain → k < 256 →
     e.state = .waiting (.feLoad r) → (∀ x ∈ w.frontier, ∀ r', x.state = .waiting (.feLoad r') → x = e) → r.dst = .lane d → r.addrs = (threadsOf e.mask).map (fun u => (u, key u)) →
     (∀ o ∈ feWaiting (getCore s c), o = (r.seq, r)) →
     let n := Rules.bytesOf r.width
     let x := getCore s c
     let mine := fun g => (List.range 32).any (fun u => e.mask.getLsbD u && decide (key u / 16 ≤ g) && decide (g ≤ (key u + n - 1) / 16))
     let taken := onCore s c (fun y => { y with full := if r.clear then y.full.filter (fun g => !mine g) else y.full })
     (∀ u, e.mask.getLsbD u = true → circleBad x (key u) n = false) →
     ((∀ g, mine g = true → nmem x.full g = true) →
       ∃ t w1, exec (.feLoadWake c k) s = .next t ∧ LaneDone taken t c k e w w1 (onward e 8) ∧ { w1 with inflight := w.inflight } = w ∧
         (commitWeave w).sets (commitWeave w1) (fun u q => if e.mask.getLsbD u then
           regAt d (Rules.isDouble r.width) (Rules.loaded r.width (fun j => sget 0#8 x.cmem (key u + j))) q else none)) ∧
     ((∃ g, mine g = true ∧ nmem x.full g = false) → exec (.feLoadWake c k) s = .next s)) ∧
   ∀ (s : State) (a : Agent) (e : Entry) (r : FeLoad) (d : UDst) (key : Nat),
     waitingOf s a isFe = some (e, .feLoad r) → Waiting s a e → settled s a → isPaired s a = false → r.dst = .uni d → r.addrs = [(0, key)] →
     (∀ o ∈ feWaiting (getCore s (coreOf a)), o = (r.seq, r)) →
     let n := Rules.bytesOf r.width
     let x := getCore s (coreOf a)
     let mine := fun g => decide (key / 16 ≤ g) && decide (g ≤ (key + n - 1) / 16)
     let taken := onCore s (coreOf a) (fun y => { y with full := if r.clear then y.full.filter (fun g => !mine g) else y.full })
     circleBad x key n = false →
     ∀ slot, (∃ j, a = .steer (coreOf a) j ∧ j < 256 ∧ slot = 256 + j) ∨ (a = .handler (coreOf a) ∧ slot = 512) →
       ((∀ g, mine g = true → nmem x.full g = true) →
         ∃ t, exec (.feLoadWake (coreOf a) slot) s = .next t ∧ UniAccess taken t a e 8 still ∧
           UniGot s t a e (.reg d (Rules.isDouble r.width)) (Rules.loaded r.width (fun j => sget 0#8 x.cmem (key + j)))) ∧
       ((∃ g, mine g = true ∧ nmem x.full g = false) → exec (.feLoadWake (coreOf a) slot) s = .next s)) ∧
  ((∀ (s : State) (c k : Nat) (e : Entry) (i : Inst) (v : Double), getInst s c k = some i → i.steer.entry = some e → e.state = .waiting (.dpush v) →
     i.steer.storeq = [] →
     (i.decisions.length < 32 → ∃ t, exec (.dpushAppend c k) s = .next t ∧
       UniMoved (onInst s c k (fun i => { i with decisions := i.decisions ++ [v] })) t (.steer c k) e (e.pc + 4#64) (getFile s (.steer c k))) ∧
     (32 ≤ i.decisions.length → exec (.dpushAppend c k) s = .next s)) ∧
   ∀ (s : State) (c k : Nat) (e : Entry) (w : Weave) (i : Inst) (l : Launch), Standing s c k e w → w.pair = none → getInst s c w.inst = some i →
     getLaunch s i.serial = some l →
     let a := Agent.weave c k
     (∀ d wide, waitingOf s a isDpop = some (e, .dpop d wide) → d ≠ .flags → (∀ x ∈ instWaits (getCore s c) w.inst isDpop, e.parkedAt ≤ x.1) →
       let takes := fun (s2 : State) (v : Double) => ∃ t f, exec (.dpopTake c k) s = .next t ∧ UniMoved s2 t a e (e.pc + 4#64) f ∧
         f.q = (getFile s a).q ∧ f.mode = (UDest.reg d wide).mode v (getFile s a).mode ∧
         ∀ q, readS f q = (UDest.reg d wide).writes v q (readS (getFile s a) q)
       (∀ v rest, i.decisions = v :: rest → takes (onInst s c w.inst (fun i => { i with decisions := rest })) v) ∧
       (i.decisions = [] → i.steer.entry = none → takes s (BitVec.allOnes 64)) ∧
       (i.decisions = [] → i.steer.entry ≠ none → exec (.dpopTake c k) s = .next s)) ∧
     (∀ line, waitingOf s a isWpush = some (e, .wpush line) → (∀ x ∈ stageWaits (getCore s c) w.inst w.role isWpush, e.parkedAt ≤ x.1) →
       let old := i.wales.getD w.role []
       (old.length < l.header.wdepth.getD w.role 0 → ∃ t, exec (.wpushAppend c k) s = .next t ∧
         LaneDone (onInst s c w.inst (fun i => { i with wales := i.wales.set w.role (old ++ [line]) })) t c k e w w (onward e 4)) ∧
       (l.header.wdepth.getD w.role 0 ≤ old.length → exec (.wpushAppend c k) s = .next s)) ∧
     (∀ (d : BitVec 7) (p : BitVec 3), waitingOf s a isWpop = some (e, .wpop d p) →
       (∀ x ∈ stageWaits (getCore s c) w.inst w.role isWpop, e.parkedAt ≤ x.1) →
       let popped := fun (r : List Word) (b : Bool) (w1 : Weave) => Popped w w1 e d.toNat p.toNat r b
       let wale := i.wales.getD (w.role - 1) []
       (∀ r rest, wale = r :: rest → ∃ t w1, exec (.wpopTake c k) s = .next t ∧ popped r true w1 ∧
         LaneDone (onInst s c w.inst (fun i => { i with wales := i.wales.set (w.role - 1) rest })) t c k e w w1 (onward e 4)) ∧
       (wale = [] → stageCount (getCore s c) w.inst (w.role - 1) = 0 → ∃ t w1, exec (.wpopTake c k) s = .next t ∧ popped [] false w1 ∧
         LaneDone s t c k e w w1 (onward e 4)) ∧
       (wale = [] → stageCount (getCore s c) w.inst (w.role - 1) ≠ 0 → exec (.wpopTake c k) s = .next s)))

/-- R142, R146, R147, R181. A `waitc` ends when its counter has reached its value, a `waitn` at a status that ends a node or
at its limit with the status read last, a `nodeput` with the result of the Fjolar's checks, a `yield` when its weave is
quiescent. (Rests on log entries 14, 16, 33 and 35, the model's own readings.) -/
def Obligations.WaitsEnd : Prop :=
  (∀ (s : State) (a : Agent) (e : Entry) (addr : Double) (n : Nat) (l : Leaf), waitingOf s a isWaitc = some (e, .waitc addr n) → Waiting s a e →
    settled s a → Reaches s a addr.toNat 8 .load l → sound s (coreOf a) (leafKey s l addr.toNat) → CachesOk s (coreOf a) →
    let count := natLE ((List.range 8).map (fun j => ownByte s a (homeByte s (coreOf a)) (leafKey s l addr.toNat + j)))
    (n ≤ count → ∃ t, exec (.waitcComplete a) s = .next t ∧ UniAccess s t a e 8 still ∧ UniKept s t a ∧ (getCore t (coreOf a)).l1 = [] ∧
      sliceOf t (coreOf a) = []) ∧
    (count < n → (∀ x ∈ waitersOf s a isWaitc, x.1 = e) → ∃ t, exec (.waitcComplete a) s = .next t ∧ Accessed s t a still ∧ waitingOf t a isWaitc = some (e, .waitc addr n))) ∧
  (∀ (s : State) (a : Agent) (e : Entry) (d : UDst) (addr : Double) (lim : Option Nat) (n : Nat) (s3 : State),
    waitingOf s a isWaitn = some (e, .waitn d addr lim) → Waiting s a e → isPaired s a = false → CachesOk s (coreOf a) →
    readNodeStatus s a addr = (.ok n, s3) →
    let ends := fun (i : Instr) => ∃ t, exec i s = .next t ∧ UniAccess s t a e 8 still ∧ UniGot s t a e (.reg d false) (BitVec.ofNat 64 n) ∧
      (n = 3 → (getCore t (coreOf a)).l1 = [] ∧ sliceOf t (coreOf a) = [])
    let sole := ∀ x ∈ waitersOf s a isWaitn, x.1 = e
    (n = 3 ∨ n = 4 ∨ n = 5 → ends (.waitnComplete a)) ∧
    (n ≠ 3 → n ≠ 4 → n ≠ 5 → sole → exec (.waitnComplete a) s = .next s3 ∧ Accessed s s3 a still) ∧
    ∀ v, lim = some v → (v ≤ coreCycles s (coreOf a) → ends (.waitnLimit a)) ∧
      (coreCycles s (coreOf a) < v → sole → exec (.waitnLimit a) s = .next s)) ∧
  (∀ (s : State) (a : Agent) (e : Entry) (d : UDst) (addr : Double), waitingOf s a isNodeput = some (e, .nodeput d addr) →
    let r := postCode (postNode s (agentVf s a) addr.toNat (partOf (coreOf a)))
    Waiting r.2 a e →
    ∃ t, exec (.nodeputDone a) s = .next t ∧ KeptUni r.2 t a ∧ goesOn r.2 t a e (e.pc + 4#64) ∧ UniGot r.2 t a e (.reg d false) r.1) ∧
  (∀ (s : State) (c k : Nat) (e : Entry) (w : Weave), Standing s c k e w → e.state = .waiting .yieldQ → w.frontier = [e] → w.pair = none →
    (∀ i l, getInst s c w.inst = some i → getLaunch s i.serial = some l → l.node.yieldable = false) →
    (weaveQuiet (getCore s c) k w = true → ∃ t, exec (.yieldComplete c k) s = .next t ∧
      LaneDone s t c k e w { w with region := some { pc := e.pc + 4#64, prio := e.prio, mask := e.mask, stores := [] } } (onward e 4)) ∧
    (weaveQuiet (getCore s c) k w = false → exec (.yieldComplete c k) s = .next s))

/-! ## Events: engines and the slath -/

/-- R177 to R183, R316, R318, R324, R326. The command at the head of an engine's queue is performed in one step, with the
stores of its core in memory first: its effect takes place, its counter is increased by 1, and it leaves the queue; a cause
stops the queue with the command at its head. R180. The counter of a completed command is increased by 1 at its home, with
what its launch staged left aside. (Rests on log entries 16, 17 and 18, the model's own readings.) -/
def Obligations.EnginePerforms : Prop :=
  (∀ (s : State) (c q : Nat) (m : Cmd), Performs s c q m →
     let g := engOf s c q m
     let s0 := flushL1 s c
     let ends := fun (i : Instr) (sB : State) => ∀ s3, counterAdd g sB = (.ok (), s3) → ∃ t, exec i s = .next t ∧ Completed s3 t c q m
     let x0 := getCore s0 c
     let winOk := fun (w : RimWin) => w.row + 2 ^ w.er ≤ 128 ∧ w.col + 2 ^ w.ec ≤ 128
     (∀ raw xs key e0 e1 r, m.op = .cpyIn raw xs key e0 e1 → readRows (homeRd g) (TRec.of raw) m.window xs (2 ^ e0) (List.range (2 ^ e1)) s0 = r →
       (∀ d sR, r = (.ok d, sR) → ends (.cpyInPerform c q) (onCore sR c (fun x => circleWrite x key d true))) ∧
       (∀ cause va sR, r = (.error (cause, va), sR) → cause ≠ cPOISON → q ≠ 2 →
         ∃ t n, exec (.cpyInPerform c q) s = .next t ∧ { t with cores := [], seq := 0 } = { sR with cores := [], seq := 0 } ∧
           inQueue t c q = { m with fault := some (cause, BitVec.ofNat 64 va, n), started := false } :: (inQueue sR c q).drop 1)) ∧
     (∀ raw xs key e0 e1 sB, m.op = .cpyOut raw xs key e0 e1 →
       let n := packedSize (recFmt (TRec.of raw)) e0 e1
       circleBad x0 key n = false →
       writeElems g (TRec.of raw) m.window (boxElems (recFmt (TRec.of raw)) (circleBytes x0 key n) xs e0 e1) s0 = (.ok (), sB) →
       ends (.cpyOutPerform c q) sB) ∧
     (∀ src dst len sB, m.op = .cpyG src dst len → g.trail = false → copyUnits g s0 src dst (List.range (len / 16)) s0 = (.ok (), sB) →
       ends (.cpyGPerform c q) sB) ∧
     (q = 2 →
       (∀ u tx raw xs sB, m.op = .stkLd u tx raw xs → loadBox g (homeRd g) u tx (TRec.of raw) xs s0 = (.ok (), sB) → ends (.stkLdPerform c) sB) ∧
       (∀ rim, m.op = .rzero rim → ends (.rzeroPerform c)
         (onCore s0 c (fun x => putRim x rim { getRim x rim with els := [], written := true, bad := false }))) ∧
       (∀ rim raw xs w mode sB, m.op = .rimLd rim raw xs w mode none → (getRim x0 rim).bad = false →
         loadWin g (homeRd g) rim (TRec.of raw) xs w mode s0 = (.ok (), sB) → ends (.rimLdPerform c) sB) ∧
       (∀ rim raw xs w mode key, m.op = .rimLd rim raw xs w mode (some key) → (getRim x0 rim).bad = false → winOk w →
         let f := recFmt (TRec.of raw)
         let n := packedSize f w.ec w.er
         let d := circleBytes x0 key n
         circleBad x0 key n = false →
         ∃ sB, ends (.rimLdPerform c) sB ∧ { sB with cores := [] } = { s0 with cores := [] } ∧ { getCore sB c with rims := x0.rims } = x0 ∧
           (∀ j, j ≠ rim → getRim (getCore sB c) j = getRim x0 j) ∧ (getRim (getCore sB c) rim).written = true ∧
           ∀ a b, a < 128 → b < 128 → sget 0 (getRim (getCore sB c) rim).els (128 * a + b) =
             if w.row ≤ a ∧ a < w.row + 2 ^ w.er ∧ w.col ≤ b ∧ b < w.col + 2 ^ w.ec then
               (finish .f32 { mode := mode, d0 := 0#32, d1 := 0#32 }
                 (f.value (packedCode f d (rowUnits f w.ec) (a - w.row) (b - w.col)), 0#6)).1.toNat
             else sget 0 (getRim x0 rim).els (128 * a + b)) ∧
       (∀ rim raw xs w mode sB, m.op = .rimSt rim raw xs w mode none → (getRim x0 rim).bad = false →
         storeWin g rim (TRec.of raw) xs w mode s0 = (.ok (), sB) → ends (.rimStPerform c) sB) ∧
       (∀ rim raw xs w mode key, m.op = .rimSt rim raw xs w mode (some key) → (getRim x0 rim).bad = false → winOk w →
         let f := recFmt (TRec.of raw)
         let code := fun a b => (f.round mode 0#32 (Fmt.f32.value (sget 0 (getRim x0 rim).els (128 * (w.row + a) + w.col + b)))).bits
         let rows := (List.range (2 ^ w.er)).map (fun a => packRow f ((List.range (2 ^ w.ec)).map (code a)))
         ends (.rimStPerform c) (onCore s0 c (fun x => circleWrite x key (rows.flatMap id) true))) ∧
       (∀ u n wid role, m.op = .srel u n wid role → ∃ x, ends (.srelPerform c) (putCore s0 c x) ∧
         { x with slots := x0.slots, rims := x0.rims, reuse := x0.reuse } = x0 ∧
         (u + n ≤ 32 → ∀ j, getSlot x j = if u ≤ j ∧ j < u + n then { Slot.blank with codes := (getSlot x0 j).codes } else getSlot x0 j) ∧
         (32 ≤ u → ∀ j, getRim x j = if u - 32 ≤ j ∧ j < u - 32 + n then { getRim x0 j with holder := .free, written := false } else getRim x0 j)))) ∧
  (∀ (s s1 : State) (c q k : Nat) (m : Cmd) (addr : Double) (sc : Scope),
     let g := engOf s c q m
     m.ctr = some (addr, sc) → g.trail = false → (∀ l, g.serial.bind (getLaunch s) = some l → staging l = false ∧ l.staged = []) →
     CachesOk s c → k % 8 = 0 → translate s c g.vf addr.toNat .atomic false = (.ok k, s1) → sound s1 c k →
     let old := natLE ((List.range 8).map (fun j => homeByte s c (k + j)))
     ∃ s3, counterAdd g s = (.ok (), s3) ∧ ∀ j, homeByte s3 c j =
       if k ≤ j ∧ j < k + 8 then (BitVec.ofNat 64 (old + 1)).extractLsb' (8 * (j - k)) 8 else homeByte s c j)

/-- R238, R321 to R323. A tile starts when its operands stand, with the time it takes in cycles of the core's clock, and the
idle cycles of the power cap where it inserts any (R22); at that time its product is in the rim tile, each element with its
line products added block by block, and the command leaves its queue. (Rests on log entries 18, 49 and 61, the model's own
readings.) -/
def Obligations.TileProducts : Prop :=
  ∀ (s : State) (c rim sa sb : Nat) (reuse : Bool) (m : Cmd), headCmd s c 2 = some m → m.op = .mtile rim sa sb reuse →
    let x := getCore s c
    let a := getSlot x sa
    let b := getSlot x sb
    let kk := tileDepth a.kept b.kept
    let fill := if x.reuse = some sa then 4 else 12
    (m.started = false → x.tile = none → a.fresh = true → b.fresh = true → a.bad = false → b.bad = false → (getRim x rim).bad = false →
      ∃ t idle, exec (.mtileStart c) s = .next t ∧ { t with cores := [] } = { s with cores := [], marks := t.marks } ∧
        (s.mgmt.idleOn = false → idle = 0 ∧ t.marks = s.marks) ∧ (∀ d, d ≠ c → getCore t d = getCore s d) ∧
        { getCore t c with queues := [], tile := none } = { x with queues := [] } ∧
        (getCore t c).tile = some (coreCycles s c + (tileTiming fill kk (tileLines a kk) (tileLines b kk)).1 + idle, fill) ∧
        inQueue t c 2 = { m with started := true } :: (inQueue s c 2).drop 1 ∧ ∀ p, p ≠ 2 → inQueue t c p = inQueue s c p) ∧
    (∀ at_ fill, m.started = true → x.tile = some (at_, fill) → pairOf s m.issuer = none → weavesOf x m.inst ≠ [] →
      (coreCycles s c < at_ → exec (.mtileComplete c) s = .next s) ∧
      (at_ ≤ coreCycles s c → ∃ y,
        { y with tile := x.tile, rims := x.rims, term := x.term, reuse := x.reuse } = x ∧ y.tile = none ∧
        y.reuse = (if reuse then some sa else none) ∧ (∀ j, j ≠ rim → getRim y j = getRim x j) ∧ (getRim y rim).written = true ∧
        (∀ i j, i < 128 → j < 128 → sget 0 (getRim y rim).els (128 * i + j) =
          rimElement (tileExact a.kept b.kept) (tileBlock a.kept b.kept) (sget 0 (getRim x rim).els (128 * i + j)) (slotEls a i kk) (slotEls b j kk)) ∧
        ∀ s3, counterAdd (engOf s c 2 m) (putCore s c y) = (.ok (), s3) → ∃ t, exec (.mtileComplete c) s = .next t ∧ Completed s3 t c 2 m))

/-! ## Events: exceptions, containment -/

/-- R107, R108, R183, R221, R379, R380. The handler slot takes the parked entry or stopped queue with the lowest cause, the
earliest among equal ones: its control registers describe it, it starts at the trap vector with `$mode` at its start value;
without a vector, and for PAIR_FAIL, the node fails. (Rests on log entries 32 and 56, the model's own readings.) -/
def Obligations.ExceptionsTaken : Prop :=
  ∀ (s : State) (c : Nat) (p : Pending) (l : Launch), (getCore s c).handler.run = none → p ∈ pendings s c → p.cause ≠ cPOISON →
    (∀ q ∈ pendings s c, q.cause ≠ cPOISON → q = p ∨ p.cause < q.cause ∨ (p.cause = q.cause ∧ p.at_ < q.at_)) →
    getLaunch s p.serial = some l →
    let takes := fun (s2 : State) (d : Delivery) => exec (.trapDelivery c) s = .next (onCore s2 c (fun x =>
      { x with handler := { x.handler with run := some d, pc := (getVf s l.vf).tvec, wait := none, mode := modeStart } }))
    let addr := fun (a : Double) => if 0x10 ≤ p.cause ∧ p.cause ≤ 0x19 then a else 0#64
    (p.cause ≠ cPAIRFAIL → (getVf s l.vf).tvec ≠ 0#64 →
      (∀ k tid w e i idx, p.target = .weave k tid → getWeave s c k = some w → w.frontier[idx]? = some e → lowest e.mask = tid → e.state = .parked →
        (∀ x ∈ w.frontier, x.state = .parked → lowest x.mask = tid → x = e) → (∀ x ∈ w.frontier, x.mask = e.mask → x = e) →
        (∀ j, j < idx → w.frontier[j]? ≠ some e) → e.spill = none → getInst s c w.inst = some i →
        takes (onWeave s c k (fun w => { w with frontier := w.frontier.map (fun y => if y = e then { y with delivering := true } else y) }))
          { target := .weave k tid, tcause := e.cause, tpc := e.pc, tmask := e.mask, tprio := e.prio,
            tent := BitVec.ofNat 32 (w.role * 2 ^ 28 + w.wid * 2 ^ 23 + idx % 32 * 2 ^ 16 + i.num % 2 ^ 16),
            taddr := if 0x10 ≤ e.cause ∧ e.cause ≤ 0x19 then e.addr else 0#64, tinst := BitVec.ofNat 32 i.num }) ∧
      (∀ k i e, p.target = .steer k → getInst s c k = some i → i.steer.entry = some e →
        takes (onInst s c k (fun i => { i with steer := { i.steer with entry := some { e with delivering := true } } }))
          { target := .steer k, tcause := e.cause, tpc := e.pc, tmask := 1#32, tprio := e.prio, tent := BitVec.ofNat 32 (2 ^ 30 + i.num % 2 ^ 16),
            taddr := if 0x10 ≤ e.cause ∧ e.cause ≤ 0x19 then e.addr else 0#64, tinst := BitVec.ofNat 32 i.num }) ∧
      (∀ q m k w i va n rest, p.target = .engine q → inQueue s c q = m :: rest → m.fault = some (p.cause, va, n) → m.issuer = .weave c k →
        getWeave s c k = some w → getInst s c m.inst = some i →
        takes s { target := .engine q, tcause := p.cause, tpc := m.pc, tmask := 1#32 <<< m.tid, tprio := m.prio,
                  tent := BitVec.ofNat 32 (2 * 2 ^ 30 + w.role * 2 ^ 28 + w.wid * 2 ^ 23 + q * 2 ^ 21 + i.num % 2 ^ 16),
                  taddr := addr va, tinst := BitVec.ofNat 32 i.num })) ∧
    (p.cause = cPAIRFAIL → ∃ t, exec (.trapDelivery c) s = .next t ∧ Failed s t l 18 cPAIRFAIL 0) ∧
    (p.cause ≠ cPAIRFAIL → (getVf s l.vf).tvec = 0#64 → ∃ t, exec (.trapDelivery c) s = .next t ∧ Failed s t l 16 p.cause 0)

/-- R56, R397. A word that is no instruction parks the threads of the entry that would issue it; a node that consumed poisoned
data goes back to its partition's queue where it is restartable, has not committed early and was put back fewer than 3 times,
and else fails, with an entry in the failure record for each POISON that it met: its core or channel and its thread.
Containment completes in every state; a launch that met none is left as it is. (Rests on log entries 54 and 59, the model's
own readings.) -/
def Obligations.Contained : Prop :=
  (∀ (s : State) (c k : Nat) (e : Entry) (w : Weave), LaneTurn s c k e w → w.Plain → noBar s c →
    ∃ t, exec .wordNotInstruction s = .next t ∧ LaneParked s t c k e w w e.mask cILLEGAL 0#64 (onward e 4)) ∧
  (∀ (s : State) (c k : Nat) (e : Entry), UniTurn s (.steer c k) e →
    ∃ (t : State) (i : Inst) (x : Entry), exec .wordNotInstruction s = .next t ∧ getInst t c k = some i ∧ i.steer.entry = some x ∧ x.state = .parked ∧ x.cause = cILLEGAL ∧
      x.pc = e.pc ∧ KeptUni (begin s (.steer c k) e) t (.steer c k)) ∧
  (∀ (s : State) (l : Launch), getLaunch s l.serial = some l →
    (l.poison = none → exec (.poisonContainment l.serial) s = .next s) ∧
    (l.poison ≠ none →
      let s1 := fun action => { s with failures := s.failures ++ l.poisons.map (fun p =>
        { kind := 1, element := p.1, name := p.2, action := action, detail := cPOISON, time := s.now : FailRec }) }
      (staging l = true → l.requeues < 3 →
        ∃ (t : State) (r : Ready), exec (.poisonContainment l.serial) s = .next t ∧ t.failures = (s1 1).failures ∧ getLaunch t l.serial = none ∧
          (∀ c i y, getInst t c i = some y → y.serial ≠ l.serial) ∧ (getPart t l.part).ready = (getPart s l.part).ready ++ [r] ∧
          r.addr = l.addr ∧ r.vf = l.vf ∧ r.node = l.node ∧ r.header = some l.header ∧ r.readyAt = s.now ∧ r.requeues = l.requeues + 1 ∧
          r.level = min l.node.prio (capOf s l.part) ∧ r.base = r.level) ∧
      (staging l = false ∨ 3 ≤ l.requeues → ∃ t, exec (.poisonContainment l.serial) s = .next t ∧
        Failed (s1 2) t l (if l.freezeBad then 20 else 17) (if l.freezeBad then 0 else cPOISON) 0))) ∧
  (∀ (s : State) (n : Nat), getLaunch s n = none → exec (.poisonContainment n) s = .next s) ∧
  ∀ (s : State) (n : Nat), ∃ t, exec (.poisonContainment n) s = .next t

/-! ## Events: paired copies -/

/-- R405, R407, R409, R415. Equal signatures release the oldest group of both copies, whose stores then enter the leading
copy's queue; the first mismatch at a number returns both copies to their checkpoint, a later one fails the node. A checkpoint
records both copies after their `ckpt`; the last threads of a paired weave end once no group of it is open or unmatched.
(Rests on log entries 27, 28 and 80, the model's own readings.) -/
def Obligations.PairedCopies : Prop :=
  (∀ (s : State) (c k ca ka cb kb : Nat) (p q : Pair) (g h : Group) (gs hs : List Group) (wa wb : Weave),
    bothCopies s (pairAgent c k) = some ((.weave ca ka, p), (.weave cb kb, q)) → p.closed = g :: gs → q.closed = h :: hs →
    getWeave s ca ka = some wa → getWeave s cb kb = some wb → wa.frontier ≠ [] → wb.frontier ≠ [] → (ca, ka) ≠ (cb, kb) →
    (g.num ≠ h.num → exec (.pairCompare c k) s = .next s) ∧
    (∀ rs : List StoreReq, g.num = h.num → g.sig = h.sig → g.ops = rs.map .stores →
      ∃ t, exec (.pairCompare c k) s = .next t ∧ { t with cores := [] } = { s with cores := [] } ∧
        getWeave t ca ka = some { wa with pair := some { p with closed := gs }, storeq := wa.storeq ++ rs } ∧
        getWeave t cb kb = some { wb with pair := some { q with closed := hs } } ∧
        ∀ d j, (d, j) ≠ (ca, ka) → (d, j) ≠ (cb, kb) → getWeave t d j = getWeave s d j) ∧
    (g.num = h.num → g.sig ≠ h.sig → covered g.num p = true → covered g.num q = true →
      ∃ (t : State) (x : FailRec), exec (.pairCompare c k) s = .next t ∧ t.failures = s.failures ++ [x] ∧ x.element = ca ∧ x.detail = g.num ∧ x.action = 1 ∧
        ∀ d j w r, (d, j, w, r) ∈ [(ca, ka, wa, p), (cb, kb, wb, q)] → ∃ b w', r.base = some b ∧ getWeave t d j = some w' ∧ snapOf w' = b ∧
          w'.inflight = [] ∧ w'.region = none ∧ w'.vtags = [] ∧ w'.stags = [] ∧
          w'.pair.map (fun y => (y.replay, y.closed, y.count, y.lvq, y.num)) = some (r.log, [], 0, [], 1)) ∧
    (∀ l, g.num = h.num → g.sig ≠ h.sig → covered g.num p = false → agentLaunch s (.weave ca ka) = some l →
      ∃ (t : State) (x : FailRec), exec (.pairCompare c k) s = .next t ∧ x.action = 2 ∧ Failed { s with failures := s.failures ++ [x] } t l 18 cPAIRFAIL 0)) ∧
  (∀ (s : State) (c k ca ka cb kb : Nat) (p q : Pair) (wa wb : Weave) (ea eb : Entry) (i : Inst) (l : Launch),
    bothCopies s (.weave c k) = some ((.weave ca ka, p), (.weave cb kb, q)) → ca ≠ cb →
    waitingOf s (.weave ca ka) isCkpt = some (ea, .ckpt) → waitingOf s (.weave cb kb) isCkpt = some (eb, .ckpt) →
    Standing s ca ka ea wa → Standing s cb kb eb wb → p.count = 0 → q.count = 0 → p.closed = [] → q.closed = [] →
    signedState s ca wa = signedState s cb wb → getInst s ca wa.inst = some i → getLaunch s i.serial = some l →
    let lines := checkpointLines wa
    (lineAvailable s l.part l.vf (lines - p.lines) = true →
      ∃ t, exec (.ckptRecord c k) s = .next t ∧
        ∀ d j w r (e : Entry) circles n, (d, j, w, r, e, circles, n) ∈ [(ca, ka, wa, p, ea, wa.circles, lines), (cb, kb, wb, q, eb, wb.circles, 0)] →
          ∃ w', getWeave t d j = some w' ∧ w'.standAs e.mask (onward e 4) ∧ w.others w' e.mask ∧
            w'.body = { w with pair := some { r with
              base := some { snapOf wa with frontier := [entryAt (ea.pc + 4#64) ea.prio ea.mask .ready], circles := circles },
              log := [], full := false, replay := [], upTo := 0, num := 1, mismatch := [], lines := n } }.body) ∧
    (lineAvailable s l.part l.vf (lines - p.lines) = false →
      ∃ t, exec (.ckptRecord c k) s = .next t ∧
        ∀ d j w (e : Entry), (d, j, w, e) ∈ [(ca, ka, wa, ea), (cb, kb, wb, eb)] →
          ∃ w', getWeave t d j = some w' ∧ w'.standAs e.mask (onward e 4) ∧ w.others w' e.mask ∧ w'.body = w.body)) ∧
  (∀ (s : State) (c k : Nat) (e : Entry) (w : Weave) (p : Pair), Standing s c k e w → w.pair = some p → noBar s c →
    waitingOf s (.weave c k) (fun v => v == .pairExit) = some (e, .pairExit) →
    (p.closed = [] → p.count = 0 → (∃ x ∈ w.frontier, x.mask &&& e.mask = 0#32) →
      ∃ t, exec (.pairedExitRelease c k) s = .next t ∧ LaneGone s t c k e w w) ∧
    (p.closed ≠ [] ∨ p.count ≠ 0 → exec (.pairedExitRelease c k) s = .next s))

/-! ## Events: errors and retirement -/

/-- R395 to R397. A correctable error of a core is counted; an uncorrectable one marks what it strikes, which then reads as
POISON; a retry of a link is counted (R424). R411: the armed injector of a test partition counts an eligible event and fires
at the one its arming names. R356 to R359, R412. More corrected errors than the threshold within a second take the core out of
service at the next bin, or retire it from the last one; a pattern test returns or retires an empty core; a retired channel's
range goes to another margin channel, or is lost, and shrinks the guarantee where no channel of the margin was left. (Rests on
log entries 29, 47, 48 and 53, the model's own readings.) -/
def Obligations.Errors : Prop :=
  ((∀ (s : State) (c : Nat),
     let counted := fun (x : Core) => { x with counts := sset 0 x.counts 5 ((sget 0 x.counts 5 + 1) % 2 ^ 64), errors := x.errors + 1 }
     (∀ k u r b j i n, ∀ site ∈ [ErrorSite.vreg c k u r, .sreg c k r, .circle c i b j n, .stake c j, .rim c j, .valueStore c n, .cleanLine c, .dirtyLine c n,
         .latch c k u j],
       exec (.softError site true) s = .next (onCore s c counted)) ∧
     (∀ n, ∀ site ∈ [ErrorSite.memory n, .port n], exec (.softError site true) s = .next s) ∧
     (∀ a, exec (.softError (.link a) true) s = .next { s with marks := (0x301, s.now, 1) :: s.marks }) ∧
     (∀ l u n, u < 32 → let x := sget Lane.blank (getCore s c).lanes l
       ∃ t y, exec (.softError (.latch c l u n) false) s = .next t ∧ t = onCore s c (fun z => { z with lanes := sput z.lanes l y }) ∧
         { y with bad := x.bad } = x ∧ ∀ j, nmem y.bad j = true ↔ j = 32 * n + u ∨ nmem x.bad j = true) ∧
     (∀ k u r w, u < 32 → getWeave s c k = some w → ∃ t w', exec (.softError (.vreg c k u r) false) s = .next t ∧ t = putWeave s c k w' ∧
       { w' with vbad := w.vbad } = w ∧ ∀ x, readReg x w' u r false = .error cPOISON) ∧
     (∀ j, ∃ t, exec (.softError (.stake c j) false) s = .next t ∧ t = onCore s c (fun x => putSlot x j { getSlot x j with bad := true })) ∧
     (∀ j, ∃ t, exec (.softError (.rim c j) false) s = .next t ∧ t = onCore s c (fun x => putRim x j { getRim x j with bad := true })) ∧
     (∀ l d, sfind (getCore s c).l1 l = some d → d.dirty ≠ 0#64 →
       ∃ t, exec (.softError (.dirtyLine c l) false) s = .next t ∧ sfind (getCore t c).l1 l = some { d with bad := true } ∧
         ∀ j, j ≠ l → sfind (getCore t c).l1 j = sfind (getCore s c).l1 j) ∧
     (∀ l d, (∀ x ∈ (getCore s c).l1, x.1 = l → x.2.dirty = 0#64) → sfind (sliceOf s c) l = some d → d.dirty ≠ 0#64 →
       ∃ t, exec (.softError (.dirtyLine c l) false) s = .next t ∧ sfind (sliceOf t c) l = some { d with bad := true } ∧
         ∀ j, j ≠ l → sfind (sliceOf t c) j = sfind (sliceOf s c) j) ∧
     (∀ n, ∃ t, exec (.softError (.memory n) false) s = .next t ∧ { t with bad := s.bad } = s ∧ nmem t.bad n = true ∧
       ∀ j, j ≠ n → nmem t.bad j = nmem s.bad j)) ∧
   (∀ (s : State) (p : Nat) (cls : BitVec 5) (site : ErrorSite),
     let i := (getPart s p).inj
     let now := fun (j : Injector) => onPart s p (fun q => { q with inj := j })
     (i.arm.getLsbD 0 = false → exec (.injectorFire p cls site) s = .next s) ∧
     (testPart s p = true → i.arm.getLsbD 0 = true → cls.toNat ≤ 12 → i.liveClasses.getLsbD cls.toNat = true → classSite cls.toNat site = true →
       classCopy s cls.toNat site = true → sitePart s site = p →
       (∀ n, i.liveShot = n + 1 →
         (i.count ≠ n → exec (.injectorFire p cls site) s = .next (now { i with count := i.count + 1 })) ∧
         (i.count = n → ∃ (t : State) (x : FailRec), exec (.injectorFire p cls site) s = .next t ∧ (getPart t p).inj = { i with count := n + 1, arm := 0#64, gen := drawStep i.gen } ∧
           t.failures = s.failures ++ [x] ∧ x.action = cls.toNat ∧ x.detail = (drawOf (drawStep i.gen)).toNat ∧ x.time = s.now)) ∧
       (i.liveShot = 0 → (drawStep i.gen).toNat / 2 ^ (64 - i.liveRate) ≠ 0 →
         exec (.injectorFire p cls site) s = .next (now { i with gen := drawStep i.gen, count := i.count + 1 }))))) ∧
  ((∀ (s : State) (c : Nat), c < 256 →
     let x := getCore s c
     let p := partOf c
     let retired := fun (i : Instr) => ∃ t, exec i s = .next t ∧ (getCore t c).retired = true ∧ (getCore t c).testing = false ∧
       (¬ (configBit s p (32 + c % 16) = true ∧ configBit s p (48 + c % 16) = true) →
         configBit t p (32 + c % 16) = false ∧ configBit t p (48 + c % 16) = false) ∧
       (∀ m, configBit s p (32 + c % 16) = false → configBit s p (48 + c % 16) = true → lowestMargin s p = some m →
         configBit t p (48 + m % 16) = true ∧ configBit t p (32 + m % 16) = false) ∧
       ∃ a b d e g, t.out = s.out ++ [.capacity p c g a b d e]
     (x.errors ≤ s.mgmt.threshold → s.now < x.windowAt + second → exec (.coreErrorWindow c) s = .next s) ∧
     (x.errors ≤ s.mgmt.threshold ∧ x.windowAt + second ≤ s.now ∨ s.mgmt.threshold < x.errors ∧ (x.retired = true ∨ x.testing = true) →
       exec (.coreErrorWindow c) s = .next (onCore s c (fun x => { x with errors := 0, windowAt := s.now }))) ∧
     (s.mgmt.threshold < x.errors → x.retired = false → x.testing = false →
       (x.bin < 2 → x.loan = none →
         ∃ (t : State) (r : FailRec), exec (.coreErrorWindow c) s = .next t ∧ t.failures = s.failures ++ [r] ∧ r.element = c ∧ r.detail = x.bin + 1 ∧
           getCore t c = { x with errors := 0, windowAt := s.now, testing := true, bin := x.bin + 1, clock := clockOf s.mgmt (x.bin + 1),
                                  ran := x.ran + (s.now - x.since) * x.clock, since := s.now,
                                  insts := x.insts.map (fun e => (e.1, { e.2 with demanded := true })) }) ∧
       (2 ≤ x.bin → retired (.coreErrorWindow c))) ∧
     (∀ pass, x.testing = false ∨ coreEmpty x = false → exec (.patternTestDone c pass) s = .next s) ∧
     (x.testing = true → coreEmpty x = true →
       (∃ t, exec (.patternTestDone c true) s = .next t ∧ Cleared s t c { scrubbed x s.now with testing := false }) ∧
       retired (.patternTestDone c false))) ∧
   (∀ (s : State) (p n : Nat), p < 16 → n < 32 → nmem (getPart s p).chans n = false →
     let x := getPart s p
     ∃ t, exec (.channelRetire p n) s = .next t ∧ { t with parts := s.parts, failures := s.failures, out := s.out } = s ∧
       (∀ q, q ≠ p → getPart t q = getPart s q) ∧ (∃ r a b d e g, t.failures = s.failures ++ [r] ∧ t.out = s.out ++ [.capacity p (256 + 32 * p + n) g a b d e]) ∧
       let margin := ((List.range 32).filter (fun m => !nmem x.chans m)).drop (gchanOf s p)
       ((∃ m ∈ margin, m ≠ n) → getPart t p = { x with chans := ninsert x.chans n }) ∧
       (margin = [n] → getPart t p = { x with chans := ninsert x.chans n, lost := ninsert x.lost (32 * p + n) }) ∧
       (margin = [] → gchanOf s p ≠ 0 →
         getPart t p = { x with chans := ninsert x.chans n, lost := ninsert x.lost (32 * p + n), config := x.config - 1#64 <<< 23 })))

/-! ## Events: the module -/

/-- R20 to R22, R413. A start takes place with an input from 44 V to 56 V, and checks its firmware and its stages: what fails
is counted and recorded; what passes brings up all its partitions, or one in minimal mode after three failures; memory stands
as it was, every core is without work. R14, R20 to R22. Undervoltage, and heat above its limit at any time, stop all
partitions and fail the nodes that run; heat and power above the cap slow the clock by a step, at most one in a millisecond,
cooler and idler windows raise it again; each core keeps what its clock has counted. (Rests on log entries 49 and 50, the
model's own readings.) -/
def Obligations.ModuleEvents : Prop :=
  (∀ s : State,
     let m := s.mgmt
     let fails := fun (i : Instr) (stage code : Nat) (el : Half) => ∃ r, exec i s = .next { s with
       mgmt := { m with phase := .off, nfail := min 255 (m.nfail + 1), fullRequested := false, attempts :=
         ({ stage := stage, code := code, element := el, time := s.now / second } :: m.attempts).take 3 }, failures := s.failures ++ [r] }
     let up := fun (i : Instr) (ps : List Nat) (phase : Phase) => ∃ t, exec i s = .next t ∧ t.mem = s.mem ∧ t.bad = s.bad ∧ t.launches = [] ∧ t.vfs = [] ∧
       t.mgmt.phase = phase ∧ t.mgmt.reachable = true ∧ t.mgmt.fullRequested = false ∧
       (∀ p, p < 16 → (getPart t p).up = ps.contains p ∧ (getPart t p).ready = [] ∧ (getPart t p).chans = (getPart s p).chans) ∧
       ∀ c, (getCore t c).weaves = [] ∧ (getCore t c).insts = [] ∧ (getCore t c).handler.run = none ∧ (getCore t c).retired = (getCore s c).retired
     (∀ mv ok ps el, mayStart m = false ∨ mv < 44000 ∨ 56000 < mv → exec (.start ⟨mv, ok⟩ ps el) s = .next s) ∧
     (mayStart m = true → ∀ mv, 44000 ≤ mv → mv ≤ 56000 →
       fails .startWatchdogExpire 6 4 0xffff#16 ∧
       (∀ ps el, m.fwValid = false → fails (.start ⟨mv, false⟩ ps el) 1 1 0xffff#16) ∧
       (∀ ok ps el, (ok = true ∨ m.fwValid = true) →
         ((∀ p ∈ ps, 16 ≤ p) → fails (.start ⟨mv, ok⟩ ps el) 5 3 el) ∧
         (∀ p ∈ ps, p < 16 → (∀ q ∈ ps, p ≤ q) → 3 ≤ m.nfail → m.fullRequested = false → up (.start ⟨mv, ok⟩ ps el) [p] (.minimal p)) ∧
         ((∃ p ∈ ps, p < 16) → (m.nfail < 3 ∨ m.fullRequested = true) → up (.start ⟨mv, ok⟩ ps el) ps .full))) ∧
     (mayStart m = false → exec .startWatchdogExpire s = .next s) ∧
     (∀ p d sig, m.phase = .minimal p → m.reachable = true →
       exec .fullStartRequest s = .next { s with mgmt := { m with fullRequested := true } } ∧
       exec (.firmwareLoad d sig) s = .next (if Config.firmwareVerifies d sig
         then { s with mgmt := { m with fwDigest := d, fwValid := true }, out := s.out ++ [.mgmt 0 0#64] } else { s with out := s.out ++ [.mgmt 1 0#64] }))) ∧
  (∀ s : State,
     let m := s.mgmt
     let stops := fun (i : Instr) => ∃ t, exec i s = .next t ∧ t.launches = [] ∧ (∀ p, (getPart t p).up = false) ∧ t.mgmt = { m with phase := .stopped } ∧
       ∀ l ∈ s.launches, getLaunch s l.serial = some l → .notice l.vf (noticeBytes 2 19 0 0 l.node.tag l.addr l.lsn 0) ∈ t.out
     let retimed := fun (t : State) (m' : Mgmt) => { t with cores := [], marks := [] } = { s with cores := [], marks := [], mgmt := { m' with clock := min m'.thermalClock m'.powerClock } } ∧
       ∀ c, c < 256 → let x := getCore s c
         getCore t c = { x with clock := clockOf m' x.bin, ran := x.ran + (s.now - x.since) * x.clock, since := s.now }
     exec .inputBelow40v s = .next { s with mgmt := { m with reachable := false } } ∧
     (running s = false → exec .undervoltageStop s = .next s) ∧ (running s = true → stops .undervoltageStop) ∧
     (∀ temp : Int, (running s = false → exec (.thermalStep temp) s = .next s) ∧
       (running s = true → 105 ≤ temp ∨ (95 < temp ∧ m.clock ≤ 2000) → stops (.thermalStep temp)) ∧
       (running s = true → temp < 105 → temp ≤ 95 ∨ 2000 < m.clock → s.now < m.lastThermal + millisecond → exec (.thermalStep temp) s = .next s) ∧
       (running s = true → m.lastThermal + millisecond ≤ s.now →
         (temp < 105 → 95 < temp → 2000 < m.clock →
           ∃ t, exec (.thermalStep temp) s = .next t ∧ retimed t { m with thermalClock := m.thermalClock - 100, lastThermal := s.now }) ∧
         (temp < 90 → m.thermalClock < 4000 →
           ∃ t, exec (.thermalStep temp) s = .next t ∧ retimed t { m with thermalClock := m.thermalClock + 100, lastThermal := s.now }) ∧
         (90 ≤ temp → temp ≤ 95 → exec (.thermalStep temp) s = .next s))) ∧
     (∀ w, running s = false ∨ s.now < m.lastPower + millisecond → exec (.powerCapWindow w) s = .next s) ∧
     (running s = true → m.lastPower + millisecond ≤ s.now → ∀ w v, m.cap < w → v ≤ m.cap →
       (2000 < m.powerClock → ∃ t, exec (.powerCapWindow w) s = .next t ∧ retimed t { m with powerClock := m.powerClock - 100, lastPower := s.now }) ∧
       (m.powerClock ≤ 2000 → exec (.powerCapWindow w) s = .next { s with mgmt := { m with idleOn := true, lastPower := s.now } }) ∧
       (m.idleOn = true → exec (.powerCapWindow v) s = .next { s with mgmt := { m with idleOn := false, lastPower := s.now } }) ∧
       (m.idleOn = false → m.powerClock < 4000 →
         ∃ t, exec (.powerCapWindow v) s = .next t ∧ retimed t { m with powerClock := m.powerClock + 100, lastPower := s.now })) ∧
     (mgmtUp s = true → ∀ n,
       exec (.setPowerCap n) s = .next (if 1500 ≤ n ∧ n ≤ 3600 then { s with mgmt := { m with cap := n }, out := s.out ++ [.mgmt 0 0#64] }
         else { s with out := s.out ++ [.mgmt 1 0#64] }) ∧
       exec (.errorThresholdWrite n) s = .next (if 1 ≤ n ∧ n ≤ 65535 then { s with mgmt := { m with threshold := n }, out := s.out ++ [.mgmt 0 0#64] }
         else { s with out := s.out ++ [.mgmt 1 0#64] }) ∧
       (n < 256 → exec (.coreBinReset n) s = .next { onCore s n (fun x => { x with nextBin := some 0 }) with out := s.out ++ [.mgmt 0 0#64] })))

/-! ## Events: management -/

/-- R344, R345, R348 to R350, R354, R216, R379, R419, R421, R373. What the hypervisor writes is refused where it is illegal or
where its target is in use, and else takes effect; out of reach the endpoint changes nothing. (Rests on log entries 52 and 83,
the model's own readings.) -/
def Obligations.ManagementWrites : Prop :=
  ∀ (s : State) (vf : BitVec 8),
    let v := vf.toNat
    let x := getVf s v
    let says_ := fun (t : State) (n : Nat) => { t with out := t.out ++ [.mgmt n 0#64] }
    (hypUp s = false → ∀ p val w st h z b k n m wa key, ∀ i ∈ [Instr.partitionConfigWrite p val, .vfRecordWrite vf w, .vfStateWrite vf st,
        .heapWrite vf h z, .scopePolicyWrite vf b, .mgmtRegisterWrite vf p k val, .samplingExponentWrite vf n, .watchpointWrite vf m wa, .trustListInstall key],
      exec i s = .next s) ∧
    (hypUp s = true →
      (∀ p val, p < 16 →
        let old := (getPart s p).config
        let new := val &&& 0xffffffffffff0000#64
        let cap := (val.extractLsb' 16 7).toNat
        (configBad s p val = true → exec (.partitionConfigWrite p val) s = .next (says_ s 1)) ∧
        (configBad s p val = false → (val ^^^ old) &&& 0xffffffff9f800000#64 ≠ 0#64 → partIdle s p = false →
          exec (.partitionConfigWrite p val) s = .next (says_ s 3)) ∧
        (configBad s p val = false → ((val ^^^ old) &&& 0xffffffff9f800000#64 = 0#64 ∨ partIdle s p = true) →
          let lowered := (getPart s p).ready.map (fun r => { r with level := min r.level cap, base := min r.base cap })
          ((old.getLsbD 30 = true → val.getLsbD 30 = true) → (old.getLsbD 29 = true → val.getLsbD 29 = true) →
            exec (.partitionConfigWrite p val) s = .next (says_ (onPart s p (fun q => { q with config := new, ready := lowered })) 0)) ∧
          ∃ t, exec (.partitionConfigWrite p val) s = .next t ∧ getPart t p = { getPart s p with config := new, ready := lowered } ∧
            ∀ c l, (getCore s c).loan = some l → l.revoked = none →
              (partOf c = p ∧ old.getLsbD 30 = true ∧ val.getLsbD 30 = false) ∨ (l.part = p ∧ old.getLsbD 29 = true ∧ val.getLsbD 29 = false) →
              (getCore t c).loan = some { l with revoked := some s.now })) ∧
      (∀ w, (vfWriteBad s v w = true → exec (.vfRecordWrite vf w) s = .next (says_ s 1)) ∧
        (vfWriteBad s v w = false →
          let y := { x with weight := (w.weight.map (fun b => b.toNat)).getD x.weight, endpoint := w.endpoint.getD x.endpoint, scope := (w.scope.map (· &&& 3#8)).getD x.scope,
                            root := w.root.getD x.root, tvec := w.tvec.getD x.tvec, cpol := (w.cpol.map (· &&& 0x03ff001f#32)).getD x.cpol }
          (w.cores = none → exec (.vfRecordWrite vf w) s = .next (says_ (onVf s v (fun _ => y)) 0)) ∧
          (∀ l, w.cores = some l → risingFrom 0 s.vfs = true → (∀ e ∈ s.vfs, e.1 ≠ v → e.2.pendingCores = none) →
            ∃ t, exec (.vfRecordWrite vf w) s = .next t ∧ t.out = s.out ++ [.mgmt 0 0#64] ∧
              (canApply s v l = true → getVf t v = { y with cores := l, pendingCores := none } ∧
                ∀ c, c < 256 → hasCore x.cores c = true → hasCore l c = false → getCore t c = scrubbed (getCore s c) s.now) ∧
              (canApply s v l = false → getVf t v = { y with pendingCores := some l } ∧
                ∀ c i z, c < 256 → hasCore x.cores c = true → hasCore l c = false → getInst t c i = some z → z.demanded = true)))) ∧
      (∀ st : Byte, (2 < st.toNat → exec (.vfStateWrite vf st) s = .next (says_ s 1)) ∧
        (st = 0#8 → (vfBusy s v = true ∨ ∃ m ∈ x.cores, m ≠ 0#16) → exec (.vfStateWrite vf st) s = .next (says_ s 3)) ∧
        (st = 0#8 → vfBusy s v = false → (∀ m ∈ x.cores, m = 0#16) →
          exec (.vfStateWrite vf st) s = .next (says_ (onVf s v (fun y => { y with state := 0, heldResumes := [] })) 0)) ∧
        (st = 1#8 → x.heldResumes = [] →
          exec (.vfStateWrite vf st) s = .next (says_ (onVf s v (fun y => { y with state := 1 })) 0)) ∧
        (st = 2#8 → exec (.vfStateWrite vf st) s = .next (says_ (onVf s v (fun y => { y with state := 2 })) 0))) ∧
      (∀ h z, ((∃ l ∈ s.launches, l.vf = v) → exec (.heapWrite vf h z) s = .next (says_ s 3)) ∧
        ((∀ l ∈ s.launches, l.vf ≠ v) → exec (.heapWrite vf h z) s =
          .next (says_ (onVf s v (fun y => { y with heap := h.getD y.heap, heapsz := z.getD y.heapsz, chunks := [], blocks := [] })) 0))) ∧
      (∀ b, exec (.scopePolicyWrite vf b) s = .next (says_ (onVf s v (fun y => { y with scope := b &&& 3#8 })) 0)) ∧
      (∀ p k val,
        (k = 0x010#12 → exec (.mgmtRegisterWrite vf p k val) s = .next (says_ (onVf s v (fun y => { y with tvec := val })) 0)) ∧
        (k = 0x012#12 → exec (.mgmtRegisterWrite vf p k val) s = .next (says_ (onVf s v (fun y => { y with root := val })) 0)) ∧
        (k = 0x015#12 → exec (.mgmtRegisterWrite vf p k val) s = .next (says_ (onVf s v (fun y => { y with cpol := val.extractLsb' 0 32 &&& 0x03ff001f#32 })) 0)) ∧
        (k = 0x016#12 → val.extractLsb' 0 8 ≠ 0#8 →
          exec (.mgmtRegisterWrite vf p k val) s = .next (says_ (onVf s v (fun y => { y with weight := (val.extractLsb' 0 8).toNat })) 0)) ∧
        (k = 0x016#12 → val.extractLsb' 0 8 = 0#8 → exec (.mgmtRegisterWrite vf p k val) s = .next (says_ s 1)) ∧
        (k = 0x011#12 → exec (.mgmtRegisterWrite vf p k val) s = exec (.scopePolicyWrite vf (val.extractLsb' 0 8)) s) ∧
        (k = 0x013#12 → exec (.mgmtRegisterWrite vf p k val) s = exec (.heapWrite vf (some val) none) s) ∧
        (k = 0x014#12 → exec (.mgmtRegisterWrite vf p k val) s = exec (.heapWrite vf none (some (val.extractLsb' 0 32))) s) ∧
        (k = 0x017#12 → exec (.mgmtRegisterWrite vf p k val) s = exec (.vfStateWrite vf (val.extractLsb' 0 8)) s) ∧
        (∀ j, j < 16 → k.toNat = 0x020 + j → exec (.mgmtRegisterWrite vf p k val) s = exec (.partitionConfigWrite j val) s) ∧
        (∀ (f : Injector → Injector), (k, f) ∈ [(0x040#12, fun i => { i with seed := if val = 0#64 then 1#64 else val }), (0x041#12, fun i => { i with rate := val }),
              (0x042#12, fun i => { i with classes := val &&& 0xffffffff#64 }), (0x043#12, fun i => { i with shot := val }),
              (0x044#12, fun i => if val.getLsbD 0 then
                { i with arm := 1#64, gen := i.seed, count := 0, liveRate := i.rate.toNat, liveClasses := i.classes.setWidth 32, liveShot := i.shot.toNat }
                else { i with arm := 0#64 })] →
          exec (.mgmtRegisterWrite vf p k val) s =
            .next (if p < 16 ∧ (k = 0x041#12 → val.toNat ≤ 63) then says_ (onPart s p (fun q => { q with inj := f q.inj })) 0 else says_ s 1)) ∧
        ((k.toNat < 0x010 ∨ (0x017 < k.toNat ∧ k.toNat < 0x020) ∨ (0x02f < k.toNat ∧ k.toNat < 0x040) ∨ 0x044 < k.toNat) →
          exec (.mgmtRegisterWrite vf p k val) s = .next (says_ s 1))) ∧
      (∀ n, exec (.samplingExponentWrite vf n) s = .next (if n = 0 ∨ (4 ≤ n ∧ n ≤ 24) then says_ (onVf s v (fun y => { y with sampleExp := n })) 0 else says_ s 1)) ∧
      (∀ (k : BitVec 2) w, ((∃ i, i ≤ 24 ∧ w.len = 64 * 2 ^ i ∧ w.addr.toNat % w.len = 0) →
          exec (.watchpointWrite vf k w) s = .next (says_ (onVf s v (fun y => { y with watch := y.watch.set k.toNat w })) 0)) ∧
        ((∀ i, i ≤ 24 → w.len = 64 * 2 ^ i → w.addr.toNat % w.len ≠ 0) → exec (.watchpointWrite vf k w) s = .next (says_ s 1))) ∧
      ∀ key, exec (.trustListInstall key) s = .next (if key ∈ s.mgmt.trust then s else { s with mgmt := { s.mgmt with trust := s.mgmt.trust ++ [key] } })) ∧
    ∀ p val w st h z b k n m wa key, ∀ i ∈ [Instr.partitionConfigWrite p val, .vfRecordWrite vf w, .vfStateWrite vf st, .heapWrite vf h z,
        .scopePolicyWrite vf b, .mgmtRegisterWrite vf p k val, .samplingExponentWrite vf n, .watchpointWrite vf m wa, .trustListInstall key],
      ∃ t, exec i s = .next t

/-- R346, R347, R350, R351, R114. A margin core that is idle passes, scrubbed, to the partition that wants it; its revocation
asks its instances to leave, and one that cannot yield in time is frozen alone; then the core is scrubbed and is its owner's
again. (Rests on log entries 16, 53 and 79, the model's own readings.) -/
def Obligations.CoreLoans : Prop :=
  ∀ (s : State) (c : Nat),
    let x := getCore s c
    let asked := x.insts.map (fun e => (e.1, { e.2 with demanded := true }))
    (∀ p q y, c < 256 → lendable s c = true → takerOf s c = some (q, y) →
      (q = p → ∃ t, exec (.coreLend c p) s = .next t ∧
        Cleared s t c { scrubbed x s.now with loan := some { part := q, vf := y.vf, since := s.now, revoked := none } }) ∧
      (q ≠ p → exec (.coreLend c p) s = .next s)) ∧
    (∀ p, lendable s c = false → exec (.coreLend c p) s = .next s) ∧
    (∀ l, x.loan = some l → l.revoked = none →
      exec (.revoke c) s = .next (onCore s c (fun x => { x with loan := some { l with revoked := some s.now }, insts := asked }))) ∧
    ((x.loan = none ∨ ∃ l n, x.loan = some l ∧ l.revoked = some n) → exec (.revoke c) s = .next s) ∧
    (coreEmpty x = false → exec (.coreScrub c) s = .next s) ∧
    (∀ l n, coreEmpty x = true → x.loan = some l → l.revoked = some n →
      ∃ t, exec (.coreScrub c) s = .next t ∧ getCore t c = { scrubbed x s.now with loan := none } ∧
        ((∀ v, (getVf s v).pendingCores = none) → Cleared s t c { scrubbed x s.now with loan := none })) ∧
    (coreEmpty x = true → x.loan = none → leaving s c = true → ∃ t, exec (.coreScrub c) s = .next t ∧ getCore t c = scrubbed x s.now) ∧
    (x.loan = none → leaving s c = false → exec (.coreScrub c) s = .next s) ∧
    (∀ i, (x.retired = false → x.testing = false → x.loan = none → exec (.revokeFreezeTimeout c i) s = .next s) ∧
      (∀ l n, x.loan = some l → l.revoked = some n → x.retired = false → x.testing = false → s.now < n + 30 * microsecond →
        exec (.revokeFreezeTimeout c i) s = .next s) ∧
      (∀ y la, Lone s c i y la → mustLeave s c = true → yieldable s c i = false → underDelivery x i = false → groupsMatched x i = true → y.trailing = false →
        ∃ t, exec (.revokeFreezeTimeout c i) s = .next t ∧ TakenOff s t c i y la))

/-! ## Events: what the outside does to the device -/

/-- R203, R364, R371. Reads and writes of a virtual function's memory from its endpoint: a write to a page under migration is
diverted and held, any other takes effect in memory, a fault answers negatively; atomics are refused; accesses from another
device reach memory directly. (Rests on log entries 48, 51 and 63, the model's own readings.) -/
def Obligations.HostAccesses : Prop :=
  (∀ (s : State) (vf : BitVec 8) (addr : Double),
    let v := vf.toNat
    let a := addr.toNat
    let x := getVf s v
    (vfUp s v = false → ∀ d n, exec (.rmaWrite vf addr d) s = .next s ∧ exec (.rmaRead vf addr n) s = .next s ∧ exec (.rmaAtomic vf addr) s = .next s) ∧
    (vfUp s v = true →
      exec (.rmaAtomic vf addr) s = .next (told s (.rma v false [])) ∧
      (∀ n d, selfRead s v a n false = .ok d → exec (.rmaRead vf addr n) s = .next (told s (.rma v true d))) ∧
      (∀ n e, selfRead s v a n false = .error e → exec (.rmaRead vf addr n) s = .next (told s (.rma v false []))) ∧
      (∀ d, d ≠ [] → a % 4096 + d.length ≤ 4096 →
        (diverts s v a = true → exec (.rmaWrite vf addr d) s =
          .next (told (told (onVf s v (fun x => { x with trapsHeld := x.trapsHeld + 1 })) (.writeTrap v addr d)) (.rma v true []))) ∧
        (∀ k, diverts s v a = false → selfKey s v a true = .ok k →
          ∃ t, exec (.rmaWrite vf addr d) s = .next t ∧ Stored (told s (.rma v true [])) t k d) ∧
        (∀ e, diverts s v a = false → selfKey s v a true = .error e → exec (.rmaWrite vf addr d) s = .next (told s (.rma v false []))))) ∧
    (hypUp s = true →
      (x.trapsHeld = 0 → exec (.writeTrapAck vf) s = .next s) ∧
      (1 < x.trapsHeld → exec (.writeTrapAck vf) s = .next (onVf s v (fun x => { x with trapsHeld := x.trapsHeld - 1 }))) ∧
      (x.trapsHeld = 1 → x.heldPosts = [] → exec (.writeTrapAck vf) s = .next (onVf s v (fun x => { x with trapsHeld := 0 }))) ∧
      (∀ b p, x.trapsHeld = 1 → x.heldPosts = [(b, p)] →
        exec (.writeTrapAck vf) s = .next (servePost (onVf s v (fun x => { x with trapsHeld := 0, heldPosts := [] })) v b p)))) ∧
  (∀ (s : State) (dev : BitVec 8) (phys : Nat),
    let k := memKey s.device phys
    let no := fun (op : RemoteOp) => exec (.remoteAccess dev phys op) s = .next (told s (.remote dev.toNat false []))
    (s.mgmt.phase ≠ .full → ∀ op, exec (.remoteAccess dev phys op) s = .next s) ∧
    (s.mgmt.phase = .full → (rangeLost s phys = true ∨ 1920 * 10 ^ 9 < phys → ∀ op, no op) ∧
      (rangeLost s phys = false →
        (∀ n, phys + n ≤ 1920 * 10 ^ 9 → (memBad s k n = true → no (.read n)) ∧
          (memBad s k n = false → exec (.remoteAccess dev phys (.read n)) s = .next (told s (.remote dev.toNat true (memBytes s k n))))) ∧
        (∀ d, phys + d.length ≤ 1920 * 10 ^ 9 → ∃ t, exec (.remoteAccess dev phys (.write d)) s = .next t ∧ Stored (told s (.remote dev.toNat true [])) t k d) ∧
        (∀ op ty x cmp, let n := if atomWide ty then 8 else 4
          let old := memBytes s k n
          phys + n ≤ 1920 * 10 ^ 9 → (atomWide ty = false → x.toNat < 2 ^ 32 ∧ cmp.toNat < 2 ^ 32) →
          (memBad s k n = true → no (.atomic op ty x cmp)) ∧
          (memBad s k n = false → ∃ t, exec (.remoteAccess dev phys (.atomic op ty x cmp)) s = .next t ∧
            Stored (told s (.remote dev.toNat true old)) t k (lowBytes n (Rules.atomic op ty (BitVec.ofNat 64 (natLE old)) x cmp)))))))

/-- R353, R365, R368 to R370, R374, R422. Granules taken back read as zero; a shootdown drops the leaves of its range once no
core still uses one, and is then acknowledged; counters, reports, trace messages and packets of other modes. (Rests on log
entries 11, 12, 33 and 60, the model's own readings.) -/
def Obligations.OutsideEvents : Prop :=
  ∀ s : State,
    (∀ g, (hypUp s = true → ∃ t, exec (.granuleTakeBack g) s = .next t ∧
        { t with unscrubbed := [], cores := [], parts := [] } = { s with unscrubbed := [], cores := [], parts := [] } ∧
        (∀ c, { getCore t c with l1 := [] } = { getCore s c with l1 := [] } ∧ { getPart t c with l2 := [] } = { getPart s c with l2 := [] }) ∧
        (∀ c line, sfind (getCore t c).l1 line = (if line / 1024 = g then none else sfind (getCore s c).l1 line) ∧
          sfind (getPart t c).l2 line = if line / 1024 = g then none else sfind (getPart s c).l2 line) ∧
        ∀ j, memByte t j = if j / 65536 = g then 0#8 else memByte s j) ∧
      (hypUp s = false → exec (.granuleTakeBack g) s = .next s) ∧
      ∃ t, exec (.backgroundScrub g) s = .next t ∧ (∀ j, memByte t j = memByte s j) ∧ nmem t.unscrubbed g = false ∧
        { t with mem := [], bad := [], unscrubbed := [] } = { s with mem := [], bad := [], unscrubbed := [] }) ∧
    (∀ vf addr n sc, (hypUp s = true → wide sc = true →
        let at_ := if n = 0 then 0 else addr.toNat / 4096 * 4096
        let pages := if n = 0 then 2 ^ 45 else n
        ∃ t id, exec (.shootdownMessage vf addr n sc) s = .next t ∧ { t with seq := s.seq } = { s with shoots := s.shoots ++
          [{ id := id, vf := vf.toNat, va := at_, pages := pages, scope := sc, core := none }] }) ∧
      (hypUp s = false ∨ wide sc = false → exec (.shootdownMessage vf addr n sc) s = .next s)) ∧
    (∀ h, s.shoots.find? (fun y => y.id == h.id) = some h →
      let hits := fun (l : Leaf) => l.vf = h.vf ∧ shootHits h l.va (2 ^ l.size) = true
      let clear := ∀ e ∈ s.cores, inShoot h e.1 = true → coreClear s h e.1 e.2 = true
      let drops := fun (t : State) => t.shoots = s.shoots.filter (fun y => y.id != h.id) ∧ ∀ c, inShoot h c = true → (getCore t c).icache = [] ∧
        (getCore t c).l1 = [] ∧ sliceOf t c = [] ∧ ∀ l, l ∈ (getCore t c).tlb ↔ l ∈ (getCore s c).tlb ∧ ¬ hits l
      let written := fun (c : Nat) => (∀ e ∈ (getCore s c).l1, e.2.dirty = 0#64) ∧ ∀ e ∈ sliceOf s c, e.2.dirty = 0#64
      (¬ clear → exec (.shootdownComplete h.id) s = .next s) ∧
      (clear → h.core = none → ∃ t, exec (.shootdownComplete h.id) s = .next t ∧ drops t ∧ t.out = s.out ++ [.shootdownAck h.id] ∧
        ((∀ c, inShoot h c = true → written c) → ∀ j, memByte t j = memByte s j)) ∧
      (∀ c, clear → h.core = some c → (getCore s c).handler.wait = some (.xlinv h.id) → CachesOk s c →
        ∃ t, exec (.shootdownComplete h.id) s = .next t ∧ drops t ∧ (getCore t c).handler.wait = none ∧
          (getCore t c).handler.pc = (getCore s c).handler.pc + 8#64 ∧ (getCore t c).l1 = [] ∧ sliceOf t c = [] ∧
          ((∀ d, d ≠ c → inShoot h d = true → (∀ e ∈ (getCore s d).l1, e.2.dirty = 0#64) ∧ (partOf d ≠ partOf c → ∀ e ∈ sliceOf s d, e.2.dirty = 0#64)) →
            ∀ j, memByte t j = homeByte s c j))) ∧
    (∀ (vf : BitVec 8) (c : Nat) (num : BitVec 12), hypUp s = true →
      let n := num.toNat
      let p := getVf s vf.toNat
      let value := BitVec.ofNat 64 (
        if n < 0x200 ∧ ownerOf s c ≠ some vf.toNat then 0 else if n = 0 then coreCycles s c % 2 ^ 64
        else if n ≤ 6 then sget 0 (getCore s c).counts n else if n < 0x200 then 0
        else roundDown (sharedAt s (partOf c) n (policyDelay p)) (quantum p))
      exec (.counterLowRead vf c num) s = .next (told (onVf s vf.toNat (fun x => { x with latch := value.extractLsb' 32 32 }))
        (.mgmt 0 ((value.extractLsb' 0 32).setWidth 64))) ∧
      exec (.counterHighRead vf) s = .next (told s (.mgmt 0 (p.latch.setWidth 64)))) ∧
    (∀ (vf : Option (BitVec 8)) (nonce : BitVec 256), (match vf with | some v => vfUp s v.toNat | none => hypUp s) = true →
      ∃ body sig, exec (.attestationRequest vf nonce) s = .next (told s (.attestation (body ++ sig))) ∧ sig.length = 1280 ∧
        sig = (Config.sign (Config.shake512 body) ++ List.replicate 1280 0#8).take 1280 ∧ body.take 8 = bytesLE 8 0x000154414c464d00 ∧
        (body.drop 8).take 32 = bytesLE 32 nonce.toNat ∧ (body.drop 40).take 64 = bytesLE 64 (Config.shake512 Config.identityKey).toNat ∧
        (body.drop 104).take 64 = bytesLE 64 s.mgmt.fwDigest.toNat ∧ (body.drop 168).take 2 = bytesLE 2 ((vf.map (fun v => v.toNat)).getD 0xffff)) ∧
    (∀ p vf n b r, (getPart s p).traces = (vf, n, b) :: r →
      exec (.traceMessageSend p) s = .next (if n ≤ s.now then told (onPart s p (fun q => { q with traces := r })) (.trace vf b) else s)) ∧
    ∀ port, exec (.unimplementedModePacket port) s = .next (if port < 16 then { s with marks := (0x304, s.now, 1) :: s.marks } else s)

/-! ## Events: nodes and their order -/

/-- R94, R95, R146, R364, R372, R445. A post is served by the status its record holds: a busy record answers with reason 21, a
record that fails a check with status 4 and its reason, a good one becomes ready, or stays at status 0 while it waits. (Rests
on log entries 34, 69 and 81, the model's own readings.) -/
def Obligations.Posts : Prop :=
  ∀ (s : State) (vf : BitVec 8) (addr : Double) (part : BitVec 5),
    let v := vf.toNat
    let a := addr.toNat
    let p := part.toNat
    let x := getVf s v
    let both := fun (n : Nat) (t : State) => exec (.nodePost vf addr part) s = .next t ∧ postCode (postNode s v a p) = (BitVec.ofNat 64 n, t)
    (x.state = 0 → exec (.nodePost vf addr part) s = .next s) ∧
    (x.state ≠ 0 → 0 < x.trapsHeld → exec (.nodePost vf addr part) s = .next (onVf s v (fun y => { y with heldPosts := y.heldPosts ++ [(a, p)] }))) ∧
    (x.state ≠ 0 → x.trapsHeld = 0 →
      let refused := fun (r : Nat) (tag : Word) => ∃ t, both 1 t ∧ statusIs s t v a 4 ∧ t.parts = s.parts ∧
        t.out = s.out ++ [.notice v (noticeBytes 2 r (if r = 22 then cPOISON else 0) 0 tag a 0#64 0)]
      (∀ r, readNode s v a = .error r →
        (∀ d, selfRead s v a 64 false = .ok d → refused r (nodeOf (natLE d)).tag) ∧ (∀ e, selfRead s v a 64 false = .error e → refused r 0#32)) ∧
      (∀ n, readNode s v a = .ok n →
        (n.status = 1 ∨ n.status = 2 ∨ n.status = 5 → postCode (postNode s v a p) = (2#64, s) ∧
          exec (.nodePost vf addr part) s = .next (told s (.notice v (noticeBytes 2 21 0 0 n.tag a 0#64 0)))) ∧
        (n.status ≠ 1 → n.status ≠ 2 → n.status ≠ 5 →
          (∀ r, checkRec s v a p n = .error r → refused r n.tag) ∧
          (∀ h, checkRec s v a p n = .ok h → 5 < n.status → refused 1 n.tag) ∧
          (∀ h, checkRec s v a p n = .ok h → n.status < 5 → n.wait ≠ 0 → ∃ t, both 0 t ∧ statusIs s t v a 0 ∧ t.parts = s.parts ∧ t.out = s.out) ∧
          (∀ h, checkRec s v a p n = .ok h → n.status < 5 → n.wait = 0 →
            let q := if n.part = 31 then p else n.part
            ∃ (t : State) (r : Ready), both 0 t ∧ ((∀ y ∈ (getPart s q).ready, y.addr % 64 = 0) → statusIs s t v a 1) ∧ t.out = s.out ∧
              (∀ d, d ≠ q → getPart t d = getPart s d) ∧ getPart t q = { getPart s q with ready := (getPart s q).ready ++ [r] } ∧ r.addr = a ∧ r.vf = v ∧
              r.node = n ∧ r.header = h ∧ r.readyAt = s.now ∧ r.requeues = 0 ∧ r.level = min n.prio ((getPart s q).config.extractLsb' 16 7).toNat ∧
              r.base = r.level))))

/-- R83, R92, R101, R105, R59. The first node in order whose next instance fits has it admitted: a steer thread at its start,
and the minimum of weaves of every role, each with all its threads at the role's entry and registers of zeros, and its core's
L1 empty; a stage below its target takes one weave more. (Rests on log entries 16, 36, 46, 62 and 82, the model's own
readings.) -/
def Obligations.Admissions : Prop :=
  (∀ (s : State) (p : Nat), candsOf s p = [] → exec (.instanceAdmit p) s = .next s) ∧
  (∀ (s : State) (p k : Nat) (cand : Cand) (h : Header),
    let s0 := noteFit s p (candsOf s p)
    (openCands s0 p (candsOf s p)).find? (fun c => (coresFor s0 p c).isSome) = some cand → coresFor s0 p cand = some [k] → cand.header = some h →
    cand.saved = [] →
    (∀ j w, getWeave s k j = some w → getInst s k w.inst ≠ none) → (∃ i, i < 4 ∧ getInst s k i = none) →
    let starts := fun (t : State) (l : Launch) => ∃ i y, getInst s k i = none ∧ getInst t k i = some y ∧ y.serial = l.serial ∧ y.num = l.next ∧
      y.decisions = [] ∧ (∃ e, y.steer.entry = some e ∧ e.pc = l.header.steer ∧ e.state = .ready) ∧
      y.stages.map (fun z => z.admitted) = l.header.roles.map (fun r => r.min) ∧
      (∀ j w, getWeave t k j = some w → w.inst = i → ∃ r, l.header.roles[w.role]? = some r ∧ w.wid < r.min ∧ Fresh w r l.lsn l.next) ∧
      (getCore t k).l1 = [] ∧ sliceOf t k = [] ∧ (getCore t k).ccache = [] ∧
      ∃ l', getLaunch t l.serial = some l' ∧ l'.next = l.next + 1 ∧ k ∈ l'.cores ∧ (k, y.logical) ∈ l'.names
    (∀ n l, cand.launch = some n → getLaunch s n = some l → l.header = h → h.roles.length ≤ 4 → ∃ t, exec (.instanceAdmit p) s = .next t ∧ starts t l) ∧
    (∀ r, cand.launch = none → (getPart s p).ready.find? (fun y => y.seq == cand.seq) = some r → getLaunch s s.nextLsn = none →
      h.roles.length ≤ 4 →
      ∃ (t : State) (l : Launch), exec (.instanceAdmit p) s = .next t ∧ starts t l ∧ l.serial = s.nextLsn ∧ l.lsn = BitVec.ofNat 64 s.nextLsn ∧ l.vf = r.vf ∧ l.part = p ∧
        l.addr = r.addr ∧ l.node = r.node ∧ l.header = h ∧ l.next = 0 ∧ t.nextLsn = s.nextLsn + 1 ∧
        (getPart t p).ready = (getPart s p).ready.filter (fun y => y.seq != cand.seq))) ∧
  (∀ (s : State) (c i role : Nat) (y : Inst) (l : Launch) (r : RoleRec) (st : Stage), getInst s c i = some y → getLaunch s y.serial = some l →
    l.header.roles[role]? = some r → y.stages[role]? = some st →
    ((getPart s (partOf c)).up = false ∨ coreOpen s c = false ∨ st.target ≤ st.admitted ∨ st.closed = true ∨ 32 ≤ roleMembers y role ∨
      128 ≤ (getCore s c).weaves.length → exec (.weaveAdmit c i role) s = .next s) ∧
    ((getPart s (partOf c)).up = true → coreOpen s c = true → stageOpen s c i role = true → y.peer = none →
      ∃ t k w y', exec (.weaveAdmit c i role) s = .next t ∧ getWeave t c k = some w ∧ w.inst = i ∧ w.role = role ∧ w.wid = st.admitted ∧ Fresh w r l.lsn y.num ∧
        getInst t c i = some y' ∧ y'.stages = y.stages.set role { st with admitted := st.admitted + 1 } ∧
        ∀ z ∈ y'.circles, z.id = role → k ∈ z.members))

/-- R99 to R101, R104. Ready nodes gain a level as they age, up to their partition's cap, and keep their ready time; the nodes
are served by level, then by ready time; the highest node that has fitted nowhere for 2²² fabric cycles keeps others out; once
each 1,024 cycles the balancer moves a stage's target or share by how full its wales are. (Rests on log entries 62 and 82, the
model's own readings.) -/
def Obligations.QueueOrder : Prop :=
  (∀ (s : State) (p : Nat),
    let cap := ((getPart s p).config.extractLsb' 16 7).toNat
    let due := fun (r : Ready) => decide (r.level < min cap (r.base + (s.now - r.readyAt) / 2 ^ 23))
    ((∀ r ∈ (getPart s p).ready, due r = false) → exec (.nodeAging p) s = .next s) ∧
    ((∃ r ∈ (getPart s p).ready, due r = true) → ∃ t n, exec (.nodeAging p) s = .next t ∧ { t with marks := s.marks } = onPart s p (fun x =>
        { x with ready := x.ready.map (fun r => if due r then { r with level := r.level + 1 } else r) }) ∧
      n = ((getPart s p).ready.filter due).length ∧ t.marks = (4096 * p + 0x207, s.now, n) :: s.marks) ∧
    (∀ top n since, (candsOf s p).find? (fun c => c.header.isSome) = some top → (getPart s p).unfit = some (n, since) →
      (n = top.seq → since + 2 ^ 23 ≤ s.now → coresFor s p top = none →
        exec (.admissionStarvation p) s = .next (onPart s p (fun x => { x with blocked := some n }))) ∧
      (n ≠ top.seq ∨ s.now < since + 2 ^ 23 → exec (.admissionStarvation p) s = .next s)) ∧
    (candsOf s p).Pairwise (fun a b => b.level ≤ a.level ∧ (b.level = a.level → a.readyAt ≤ b.readyAt))) ∧
  (∀ (s : State) (c : Nat),
    (coreCycles s c / 1024 ≤ (getCore s c).sampled → exec (.balancerSample c) s = .next s) ∧
    ((getCore s c).sampled < coreCycles s c / 1024 → ∃ t, exec (.balancerSample c) s = .next t ∧
      ∀ i y l r0 r1 a b, getInst s c i = some y → getLaunch s y.serial = some l → l.header.roles = [r0, r1] → y.stages = [a, b] →
        let d := l.header.wdepth.getD 0 0
        let o := (y.wales.getD 0 []).length
        let up := fun (r : RoleRec) (z : Stage) => if z.target < r.max then { z with target := z.target + 1 } else { z with share := min (z.share + 1) 8 }
        let down := fun (r : RoleRec) (z : Stage) => if r.min < z.target then { z with target := z.target - 1 } else { z with share := max (z.share - 1) 1 }
        getInst t c i = some { y with stages :=
          if 3 * d < 4 * o then [down r0 a, up r1 b] else if 4 * o < d then [up r0 a, down r1 b] else [a, b] }))

/-- R96, R328, R329, R446. A kernel node completes once every instance has ended: its stores in memory, its status 3, the wait
counts of its successors one less, its notice sent. A ready tile node is run whole and completes likewise, its units free
again, or fails. (Rests on log entries 16, 34, 45 and 81, the model's own readings.) -/
def Obligations.NodesComplete : Prop :=
  (∀ (s : State) (l : Launch), getLaunch s l.serial = some l →
    (launchOver s l = false → exec (.kernelNodeComplete l.serial) s = .next s) ∧
    (launchOver s l = true → l.poison = none → l.staged = [] → l.freed = [] →
      let s1 := l.cores.foldl flushL1 s
      let s2 := writeStatus s1 l.vf l.addr 3
      let ended_ := fun (t : State) => exec (.kernelNodeComplete l.serial) s = .next t ∧ getLaunch t l.serial = none ∧
        ∀ n, n ≠ l.serial → getLaunch t n = getLaunch s n
      (l.node.nsucc = 0 → ∃ t : State, ended_ t ∧ statusIs s1 t l.vf l.addr 3 ∧
        t.out = s.out ++ (if l.node.notify then [.notice l.vf (noticeBytes 1 0 0 0 l.node.tag l.addr l.lsn 0)] else [])) ∧
      (∀ d w k, l.node.nsucc = 1 → l.node.succ < 2 ^ 64 → selfRead s2 l.vf l.node.succ 8 true = .ok d → readWait s2 l.vf (natLE d) = .ok (w + 2) →
        k % 4 = 0 → selfKey s2 l.vf (natLE d + 4) true = .ok k →
        ∃ t : State, ended_ t ∧ memBytes t k 4 = bytesLE 4 (w + 1) ∧
          t.out = s.out ++ (if l.node.notify then [.notice l.vf (noticeBytes 1 0 0 0 l.node.tag l.addr l.lsn 0)] else [])) ∧
      (∀ d n h, l.node.nsucc = 1 → l.node.succ < 2 ^ 64 → selfRead s2 l.vf l.node.succ 8 true = .ok d → readWait s2 l.vf (natLE d) = .ok 1 →
        let a := natLE d
        let s3 := selfWrite s2 l.vf (a + 4) (bytesLE 4 0)
        readNode s3 l.vf a = .ok n → n.status = 0 → checkRec s3 l.vf a l.part n = .ok h →
        let q := if n.part = 31 then l.part else n.part
        ∃ (t : State) (r : Ready), ended_ t ∧ ((∀ y ∈ (getPart s q).ready, y.addr % 64 = 0) → statusIs s3 t l.vf a 1) ∧
          (getPart t q).ready = (getPart s q).ready ++ [r] ∧ r.addr = a ∧ r.vf = l.vf ∧ r.node = n ∧ r.header = h))) ∧
  (∀ (s : State) (p : Nat), topTile s p = none → exec (.tileNodeRun p) s = .next s) ∧
  (∀ (s : State) (p : Nat) (r : Ready), topTile s p = some r →
    (∀ c a b rim s2 x, tileCore s p r.vf = some (c, a, b, rim) →
      let free := fun (t : State) => (getSlot (getCore t c) a).state = .free ∧ (getSlot (getCore t c) b).state = .free ∧
        (getRim (getCore t c) rim).holder = .free ∧ t.nextLsn = s2.nextLsn
      tileRun (tileEng c r.vf) (tileOf r.node.raw) a b rim (tileBegin s p r c rim) = (x, s2) → a ≠ b →
      (x = .ok () → r.node.nsucc = 0 → ∃ t, exec (.tileNodeRun p) s = .next t ∧ free t ∧ statusIs s2 t r.vf r.addr 3 ∧
        t.out = s2.out ++ (if r.node.notify then [.notice r.vf (noticeBytes 1 0 0 0 r.node.tag r.addr (BitVec.ofNat 64 s.nextLsn) 0)] else [])) ∧
      (∀ e, x = .error e → e.1 ≠ cPOISON → r.node.restartable = false → ∃ t, exec (.tileNodeRun p) s = .next t ∧ free t ∧ statusIs s2 t r.vf r.addr 4 ∧
        t.out = s2.out ++ [.notice r.vf (noticeBytes 2 16 e.1 0 r.node.tag r.addr (BitVec.ofNat 64 s.nextLsn) 0)]) ∧
      (∀ e, x = .error e → e.1 ≠ cPOISON → r.node.restartable = true →
        let s1 := tileBegin s p r c rim
        ∃ t, exec (.tileNodeRun p) s = .next t ∧ free t ∧ statusIs s1 t r.vf r.addr 4 ∧
          t.out = s1.out ++ [.notice r.vf (noticeBytes 2 16 e.1 0 r.node.tag r.addr (BitVec.ofNat 64 s.nextLsn) 0)] ∧
          ∀ j, (∀ k, selfKey s1 r.vf (r.addr + 18) true = .ok k → j < k ∨ k + 2 ≤ j) → memByte t j = memByte s1 j)))

/-! ## Events: yield, freeze, resume -/

/-- R112, R113. An instance whose yield is demanded leaves its core once it is yieldable, its weaves saved; readmission puts
the copy with the lowest number back, with the registers its weaves had. (Rests on log entries 16, 37, 39, 40 and 62, the
model's own readings.) -/
def Obligations.Yields : Prop :=
  (∀ (s : State) (c i : Nat),
    (yieldWanted s c i = false → exec (.instanceYield c i) s = .next s) ∧
    (∀ y l, Lone s c i y l → yieldWanted s c i = true → (l.node.paired = false ∨ l.node.yieldable = false) → yieldable s c i = false →
      exec (.instanceYield c i) s = .next s) ∧
    (∀ y l, Lone s c i y l → yieldWanted s c i = true → yieldable s c i = true → ∃ t, exec (.instanceYield c i) s = .next t ∧ TakenOff s t c i y l)) ∧
  (∀ (s : State) (p : Nat), candsOf s p = [] → exec (.instanceReadmit p) s = .next s) ∧
  (∀ (s : State) (p k n : Nat) (cand : Cand) (v : Saved) (l : Launch),
    let s0 := noteFit s p (candsOf s p)
    (openCands s0 p (candsOf s p)).find? (fun c => (coresFor s0 p c).isSome) = some cand → coresFor s0 p cand = some [k] →
    cand.launch = some n → getLaunch s n = some l → firstSaved cand.saved = [v] → v.cmds = [] → v.fences = [] →
    (∀ j w, getWeave s k j = some w → getInst s k w.inst ≠ none) → (∃ i, i < 4 ∧ getInst s k i = none) →
    ∃ (t : State) (i : Nat) (y : Inst), exec (.instanceReadmit p) s = .next t ∧ getInst s k i = none ∧ getInst t k i = some y ∧
      (getCore t k).l1 = [] ∧ sliceOf t k = [] ∧ (getCore t k).ccache = [] ∧ y.num = v.inst.num ∧ y.serial = v.inst.serial ∧
      y.decisions = v.inst.decisions ∧ y.wales = v.inst.wales ∧ (∀ j, j ≠ i → getInst t k j = getInst s k j) ∧
      (∀ j w, getWeave t k j = some w → w.inst = i → ∃ w0 ∈ v.weaves, w.role = w0.role ∧ w.wid = w0.wid ∧ w.allot = w0.allot ∧ w.v = w0.v ∧ w.s = w0.s ∧
        w.preds = w0.preds ∧ w.mode = w0.mode ∧ w.gens = w0.gens ∧ w.flags = w0.flags) ∧
      ∃ l', getLaunch t n = some l' ∧ l'.saved = l.saved.filter (fun u => u != v) ∧ k ∈ l'.cores ∧
        ((∀ b, (k, b) ∉ l.names) → (k, v.inst.logical) ∈ l'.names))

/-- R115 to R122, R349. A freeze takes a launch off the device as a signed image and sends it, its node at status 5; poisoned
data met on the way ends it. A resume checks the image and, where every check passes, queues the launch again; a suspended
virtual function holds it. (Rests on log entries 13, 37, 39, 40 and 79, the model's own readings.) -/
def Obligations.FreezeResume : Prop :=
  (∀ (s : State) (lsn dest : Nat) (base : Option Nat) (l : Launch), s.launches.find? (fun l => l.lsn.toNat == lsn) = some l →
    getLaunch s l.serial = some l →
    (l.poison ≠ none → exec (.freeze lsn dest base) s = .next (told s (.freezeFailed l.vf l.serial))) ∧
    (l.poison = none → l.node.paired = false → freezeReady s l.serial = false → exec (.freeze lsn dest base) s = .next s) ∧
    (l.poison = none → freezeReady s l.serial = true →
      let gone := fun (t : State) => getLaunch t l.serial = none ∧ ∀ c i y, getInst t c i = some y → y.serial ≠ l.serial
      let frozen := fun (t : State) => gone t ∧ ∃ m, t.images = s.images ++ [m] ∧ t.out = s.out ++ [.image m.id dest] ∧ m.lsn = l.lsn ∧ m.vf = l.vf ∧
        m.nodeAddr = l.addr ∧ m.header = l.header ∧ m.next = l.next ∧ m.base = base ∧ m.digest = Config.shake512 (imageInput m) ∧
        m.sig = Config.sign m.digest ∧ m.table = placedSections m ∧
        (residents s l.serial = [] → m.ended = l.ended ∧ m.saved = l.saved.filter (fun v => !v.inst.trailing))
      let failed := fun (t : State) => t.images = s.images ∧ t.out = s.out ++ [.freezeFailed l.vf l.serial] ∧
        ∃ l', getLaunch t l.serial = some l' ∧ l'.poison ≠ none ∧ l'.freezeBad = true
      (∃ t, exec (.freeze lsn dest base) s = .next t ∧ (frozen t ∨ failed t)) ∧
      (residents s l.serial = [] → l.cores = [] → staging l = false →
        let meets := (pagesOf s l.vf).any (fun p => (base.isNone || pageDirty s p) && pageBad s p)
        (meets = false → ∃ t, exec (.freeze lsn dest base) s = .next t ∧ frozen t ∧ statusIs s t l.vf l.addr 5) ∧
        (meets = true → ∃ t, exec (.freeze lsn dest base) s = .next t ∧ failed t)))) ∧
  (∀ (s : State) (lsn dest : Nat) (base : Option Nat), s.launches.find? (fun l => l.lsn.toNat == lsn) = none → exec (.freeze lsn dest base) s = .next s) ∧
  (∀ (s : State) (id : Nat) (vf : BitVec 8),
    let v := vf.toNat
    ((getVf s v).state = 0 → exec (.resume id vf) s = .next s) ∧
    ((getVf s v).state = 2 → exec (.resume id vf) s = .next (onVf s v (fun x => { x with heldResumes := x.heldResumes ++ [id] }))) ∧
    (∀ m, (getVf s v).state = 1 → s.images.find? (fun m => m.id == id) = some m →
      (resumeStatus s v m ≠ 0 → exec (.resume id vf) s = .next (told s (.resumed (resumeStatus s v m)))) ∧
      (wellFormed m = false → resumeStatus s v m = 1) ∧
      (((∃ x ∈ m.table, x.spare ≠ 0) ∨ m.table ≠ placedSections m ∨ (∃ b ∈ m.spare, b ≠ 0#8) ∨ bits m.node.raw 15 1 ≠ 0) → wellFormed m = false) ∧
      (wellFormed m = true → m.digest ≠ Config.shake512 (imageInput m) → resumeStatus s v m = 2) ∧
      (wellFormed m = true → m.digest = Config.shake512 (imageInput m) →
        let trusted := fun (k : List Byte) => k = Config.identityKey ∨ k ∈ s.mgmt.trust
        (m.signed = true → (∀ k, trusted k → Config.verifies k m.digest m.sig = false) → resumeStatus s v m = 3) ∧
        ((m.signed = true → ∃ k, trusted k ∧ Config.verifies k m.digest m.sig = true) →
          (m.cls ≠ 0x00004016#32 → resumeStatus s v m = 4) ∧
          (m.cls = 0x00004016#32 → m.dirtyOnly = true → m.base ≠ (getVf s v).lastImage → resumeStatus s v m = 5) ∧
          (m.cls = 0x00004016#32 → (m.dirtyOnly = true → m.base = (getVf s v).lastImage) →
            ((∃ y ∈ m.pages, pageMapped s v y = false) → resumeStatus s v m = 6) ∧
            ((∀ y ∈ m.pages, pageMapped s v y = true) → resumeStatus s v m = if residencyFits s v m then 0 else 7)))) ∧
      (∀ p, resumeStatus s v m = 0 → resumePart s v m.node = some p →
        ∃ (t : State) (l : Launch), exec (.resume id vf) s = .next t ∧ t.out = s.out ++ [.resumed 0] ∧ t.launches = s.launches ++ [l] ∧ l.serial = s.nextLsn ∧ l.lsn = m.lsn ∧
          l.vf = v ∧ l.part = p ∧ l.addr = m.nodeAddr ∧ l.node = m.node ∧ l.header = m.header ∧ l.next = m.next ∧ l.ended = m.ended ∧ l.ncore = m.ncore ∧ l.early = true ∧
          t.nextLsn = s.nextLsn + 1 ∧ (getVf t v).lastImage = some m.id ∧ (m.paired = false → l.saved.length = m.saved.length))))
end

