-- ==== Sys2Proof/Laws/Sparse.lean ====
section
/-!
SUPPORT. Tables sorted by key: a read after a write gives the value written, a write leaves every other key alone, and every
write keeps the canonical form; memory's form with them.
-/

namespace Sys2Proof.Machine

open Sys2Proof

variable {α : Type}

/-! ## Reads after writes -/

@[simp] theorem sfind_sput_self (t : Sparse α) (i : Nat) (x : α) : sfind (sput t i x) i = some x := by
  induction t with
  | nil => simp [sput, sfind]
  | cons e r ih =>
    obtain ⟨k, v⟩ := e
    simp only [sput]
    split
    · simp [sfind]
    · split
      · simp [sfind]
      · rename_i h1 h2
        have : ¬ k = i := fun h => h2 h.symm
        simp [sfind, this, ih]

theorem sfind_sput_ne (t : Sparse α) {i j : Nat} (x : α) (h : j ≠ i) : sfind (sput t i x) j = sfind t j := by
  induction t with
  | nil => simp [sput, sfind, Ne.symm h]
  | cons e r ih =>
    obtain ⟨k, v⟩ := e
    simp only [sput]
    split
    · simp [sfind, Ne.symm h]
    · split
      · rename_i h2
        subst h2
        simp [sfind, Ne.symm h]
      · simp [sfind, ih]

@[simp] theorem sfind_serase_self (t : Sparse α) (i : Nat) : sfind (serase t i) i = none := by
  induction t with
  | nil => rfl
  | cons e r ih =>
    obtain ⟨k, v⟩ := e
    simp only [serase]
    split
    · exact ih
    · rename_i h; simp [sfind, h, ih]

theorem sfind_serase_ne (t : Sparse α) {i j : Nat} (h : j ≠ i) : sfind (serase t i) j = sfind t j := by
  induction t with
  | nil => rfl
  | cons e r ih =>
    obtain ⟨k, v⟩ := e
    simp only [serase]
    split
    · rename_i hk; subst hk; simp [sfind, Ne.symm h, ih]
    · simp [sfind, ih]

/-- What is still found after an erasure was there. -/
theorem sfind_serase_some {t : Sparse α} {i j : Nat} {x : α} (h : sfind (serase t i) j = some x) : sfind t j = some x := by
  by_cases hj : j = i
  · rw [hj, sfind_serase_self] at h; cases h
  · rwa [sfind_serase_ne _ hj] at h

@[simp] theorem sget_sput_self (d : α) (t : Sparse α) (i : Nat) (x : α) : sget d (sput t i x) i = x := by simp [sget]

theorem sget_sput_ne (d : α) (t : Sparse α) {i j : Nat} (x : α) (h : j ≠ i) : sget d (sput t i x) j = sget d t j := by
  simp [sget, sfind_sput_ne t x h]

@[simp] theorem sget_sset_self [DecidableEq α] (d : α) (t : Sparse α) (i : Nat) (x : α) : sget d (sset d t i x) i = x := by
  unfold sset
  split
  · rename_i h; simp [sget, h]
  · simp

theorem sget_sset_ne [DecidableEq α] (d : α) (t : Sparse α) {i j : Nat} (x : α) (h : j ≠ i) :
    sget d (sset d t i x) j = sget d t j := by
  unfold sset
  split
  · simp [sget, sfind_serase_ne t h]
  · exact sget_sput_ne d t x h

theorem sget_sset [DecidableEq α] (d : α) (t : Sparse α) (i j : Nat) (x : α) :
    sget d (sset d t i x) j = if j = i then x else sget d t j := by
  split
  · rename_i h; subst h; simp
  · rename_i h; exact sget_sset_ne d t x h

/-! ## The canonical form -/

theorem rising_mono (t : Sparse α) {m n : Nat} (h : risingFrom n t = true) (hm : m ≤ n) : risingFrom m t = true := by
  cases t with
  | nil => rfl
  | cons e r =>
    obtain ⟨k, v⟩ := e
    simp only [risingFrom, Bool.and_eq_true, decide_eq_true_eq] at h ⊢
    exact ⟨by omega, h.2⟩

theorem rising_sput (t : Sparse α) (i : Nat) (x : α) {n : Nat} (h : risingFrom n t = true) (hn : n ≤ i) :
    risingFrom n (sput t i x) = true := by
  induction t generalizing n with
  | nil => simp [sput, risingFrom, hn]
  | cons e r ih =>
    obtain ⟨k, v⟩ := e
    simp only [risingFrom, Bool.and_eq_true, decide_eq_true_eq] at h
    simp only [sput]
    split
    · simp only [risingFrom, Bool.and_eq_true, decide_eq_true_eq]
      exact ⟨hn, by omega, h.2⟩
    · split
      · rename_i h2; subst h2
        simp only [risingFrom, Bool.and_eq_true, decide_eq_true_eq]
        exact ⟨hn, h.2⟩
      · simp only [risingFrom, Bool.and_eq_true, decide_eq_true_eq]
        exact ⟨h.1, ih h.2 (by omega)⟩

theorem rising_serase (t : Sparse α) (i : Nat) {n : Nat} (h : risingFrom n t = true) : risingFrom n (serase t i) = true := by
  induction t generalizing n with
  | nil => rfl
  | cons e r ih =>
    obtain ⟨k, v⟩ := e
    simp only [risingFrom, Bool.and_eq_true, decide_eq_true_eq] at h
    simp only [serase]
    split
    · exact rising_mono _ (ih h.2) (by omega)
    · simp only [risingFrom, Bool.and_eq_true, decide_eq_true_eq]
      exact ⟨h.1, ih h.2⟩

theorem rising_filter (t : Sparse α) (p : Nat × α → Bool) {n : Nat} (h : risingFrom n t = true) :
    risingFrom n (t.filter p) = true := by
  induction t generalizing n with
  | nil => rfl
  | cons e r ih =>
    obtain ⟨k, v⟩ := e
    simp only [risingFrom, Bool.and_eq_true, decide_eq_true_eq] at h
    simp only [List.filter]
    split
    · simp only [risingFrom, Bool.and_eq_true, decide_eq_true_eq]
      exact ⟨h.1, ih h.2⟩
    · exact rising_mono _ (ih h.2) (by omega)

theorem all_sput (p : Nat × α → Bool) (t : Sparse α) (i : Nat) (x : α) (h : t.all p = true) (hx : p (i, x) = true) :
    (sput t i x).all p = true := by
  induction t with
  | nil => simp [sput, hx]
  | cons e r ih =>
    obtain ⟨k, v⟩ := e
    simp only [List.all_cons, Bool.and_eq_true] at h
    simp only [sput]
    split
    · simp only [List.all_cons, Bool.and_eq_true]; exact ⟨hx, h.1, h.2⟩
    · split
      · simp only [List.all_cons, Bool.and_eq_true]; exact ⟨hx, h.2⟩
      · simp only [List.all_cons, Bool.and_eq_true]; exact ⟨h.1, ih h.2⟩

theorem all_serase (p : Nat × α → Bool) (t : Sparse α) (i : Nat) (h : t.all p = true) : (serase t i).all p = true := by
  induction t with
  | nil => rfl
  | cons e r ih =>
    obtain ⟨k, v⟩ := e
    simp only [List.all_cons, Bool.and_eq_true] at h
    simp only [serase]
    split
    · exact ih h.2
    · simp only [List.all_cons, Bool.and_eq_true]; exact ⟨h.1, ih h.2⟩

theorem canonical_sset [DecidableEq α] (d : α) (t : Sparse α) (i : Nat) (x : α) (h : canonical d t = true) :
    canonical d (sset d t i x) = true := by
  simp only [canonical, Bool.and_eq_true] at h ⊢
  unfold sset
  split
  · exact ⟨rising_serase t i h.1, all_serase _ t i h.2⟩
  · rename_i hx
    exact ⟨rising_sput t i x h.1 (Nat.zero_le _), all_sput _ t i x h.2 (by simpa using hx)⟩

theorem canonical_skeep [DecidableEq α] (d : α) (t : Sparse α) (p : Nat → Bool) (h : canonical d t = true) :
    canonical d (skeep t p) = true := by
  simp only [canonical, Bool.and_eq_true, List.all_eq_true] at h ⊢
  exact ⟨rising_filter t _ h.1, fun x hx => h.2 x (List.mem_of_mem_filter hx)⟩

/-! ## Memory keeps its form -/

theorem storeBytes_wf (m : List Host.Cell) (k : Nat) (d : List Byte) (h : memWf m = true) : memWf (storeBytes m k d) = true := by
  induction d generalizing m k with
  | nil => exact h
  | cons b r ih => exact ih _ _ (canonical_sset memBlank m k b h)

theorem scrubGranule_wf (s : State) (g : Nat) (h : memWf s.mem = true) : memWf (scrubGranule s g).mem = true := by
  unfold scrubGranule
  split
  · exact canonical_skeep memBlank s.mem (fun k => k >>> 16 != g) h
  · exact h

theorem writeMem_wf (s : State) (k : Nat) (d : List Byte) (h : memWf s.mem = true) : memWf (writeMem s k d).mem = true := by
  unfold writeMem
  split
  · exact h
  · refine storeBytes_wf _ _ _ ?_
    generalize (List.range ((k + d.length - 1) / 65536 - k / 65536 + 1)).map (fun i => k / 65536 + i) = gs
    induction gs generalizing s with
    | nil => exact h
    | cons g r ih => exact ih _ (scrubGranule_wf s g h)

/-- A byte read back after a write of bytes in memory. -/
theorem sget_storeBytes (m : List Host.Cell) (k : Nat) (d : List Byte) (a : Nat) :
    sget memBlank (storeBytes m k d) a = if k ≤ a ∧ a < k + d.length then d.getD (a - k) 0#8 else sget memBlank m a := by
  induction d generalizing m k with
  | nil => simp [storeBytes]
  | cons b r ih =>
    simp only [storeBytes, ih, sget_sset, List.length_cons]
    by_cases h : a = k
    · subst h; simp
    · by_cases h2 : k + 1 ≤ a ∧ a < k + 1 + r.length
      · rw [if_pos h2, if_pos (by omega)]
        obtain ⟨j, rfl⟩ : ∃ j, a = k + 1 + j := ⟨a - (k + 1), by omega⟩
        have e1 : k + 1 + j - (k + 1) = j := by omega
        have e2 : k + 1 + j - k = j + 1 := by omega
        rw [e1, e2]; rfl
      · rw [if_neg h2, if_neg h, if_neg (by omega)]

end Sys2Proof.Machine
end

