-- ==== Sys2Proof/Laws/State.lean ====
section
/-!
SUPPORT. What each update of the state leaves as it was, one lemma for each field.
-/

namespace Sys2Proof.Machine

open Sys2Proof

variable (s : State)

@[simp] theorem putCore_turns (c : Nat) (x : Core) : (putCore s c x).turns = s.turns := rfl
@[simp] theorem putCore_tick (c : Nat) (x : Core) : (putCore s c x).tick = s.tick := rfl
@[simp] theorem putCore_focus (c : Nat) (x : Core) : (putCore s c x).focus = s.focus := rfl
@[simp] theorem putCore_seq (c : Nat) (x : Core) : (putCore s c x).seq = s.seq := rfl
@[simp] theorem putCore_now (c : Nat) (x : Core) : (putCore s c x).now = s.now := rfl
@[simp] theorem putCore_device (c : Nat) (x : Core) : (putCore s c x).device = s.device := rfl
@[simp] theorem putCore_mem (c : Nat) (x : Core) : (putCore s c x).mem = s.mem := rfl
@[simp] theorem putCore_bad (c : Nat) (x : Core) : (putCore s c x).bad = s.bad := rfl
@[simp] theorem putCore_unscrubbed (c : Nat) (x : Core) : (putCore s c x).unscrubbed = s.unscrubbed := rfl
@[simp] theorem putCore_dirty (c : Nat) (x : Core) : (putCore s c x).dirty = s.dirty := rfl
@[simp] theorem putCore_parts (c : Nat) (x : Core) : (putCore s c x).parts = s.parts := rfl
@[simp] theorem putCore_vfs (c : Nat) (x : Core) : (putCore s c x).vfs = s.vfs := rfl
@[simp] theorem putCore_launches (c : Nat) (x : Core) : (putCore s c x).launches = s.launches := rfl
@[simp] theorem putCore_nextLsn (c : Nat) (x : Core) : (putCore s c x).nextLsn = s.nextLsn := rfl
@[simp] theorem putCore_shoots (c : Nat) (x : Core) : (putCore s c x).shoots = s.shoots := rfl
@[simp] theorem putCore_images (c : Nat) (x : Core) : (putCore s c x).images = s.images := rfl
@[simp] theorem putCore_out (c : Nat) (x : Core) : (putCore s c x).out = s.out := rfl
@[simp] theorem putCore_failures (c : Nat) (x : Core) : (putCore s c x).failures = s.failures := rfl
@[simp] theorem putCore_marks (c : Nat) (x : Core) : (putCore s c x).marks = s.marks := rfl
@[simp] theorem putCore_mgmt (c : Nat) (x : Core) : (putCore s c x).mgmt = s.mgmt := rfl

@[simp] theorem onCore_turns (c : Nat) (f : Core → Core) : (onCore s c f).turns = s.turns := rfl
@[simp] theorem onCore_tick (c : Nat) (f : Core → Core) : (onCore s c f).tick = s.tick := rfl
@[simp] theorem onCore_focus (c : Nat) (f : Core → Core) : (onCore s c f).focus = s.focus := rfl
@[simp] theorem onCore_seq (c : Nat) (f : Core → Core) : (onCore s c f).seq = s.seq := rfl
@[simp] theorem onCore_now (c : Nat) (f : Core → Core) : (onCore s c f).now = s.now := rfl
@[simp] theorem onCore_device (c : Nat) (f : Core → Core) : (onCore s c f).device = s.device := rfl
@[simp] theorem onCore_mem (c : Nat) (f : Core → Core) : (onCore s c f).mem = s.mem := rfl
@[simp] theorem onCore_bad (c : Nat) (f : Core → Core) : (onCore s c f).bad = s.bad := rfl
@[simp] theorem onCore_unscrubbed (c : Nat) (f : Core → Core) : (onCore s c f).unscrubbed = s.unscrubbed := rfl
@[simp] theorem onCore_dirty (c : Nat) (f : Core → Core) : (onCore s c f).dirty = s.dirty := rfl
@[simp] theorem onCore_parts (c : Nat) (f : Core → Core) : (onCore s c f).parts = s.parts := rfl
@[simp] theorem onCore_vfs (c : Nat) (f : Core → Core) : (onCore s c f).vfs = s.vfs := rfl
@[simp] theorem onCore_launches (c : Nat) (f : Core → Core) : (onCore s c f).launches = s.launches := rfl
@[simp] theorem onCore_nextLsn (c : Nat) (f : Core → Core) : (onCore s c f).nextLsn = s.nextLsn := rfl
@[simp] theorem onCore_shoots (c : Nat) (f : Core → Core) : (onCore s c f).shoots = s.shoots := rfl
@[simp] theorem onCore_images (c : Nat) (f : Core → Core) : (onCore s c f).images = s.images := rfl
@[simp] theorem onCore_out (c : Nat) (f : Core → Core) : (onCore s c f).out = s.out := rfl
@[simp] theorem onCore_failures (c : Nat) (f : Core → Core) : (onCore s c f).failures = s.failures := rfl
@[simp] theorem onCore_marks (c : Nat) (f : Core → Core) : (onCore s c f).marks = s.marks := rfl
@[simp] theorem onCore_mgmt (c : Nat) (f : Core → Core) : (onCore s c f).mgmt = s.mgmt := rfl

@[simp] theorem putWeave_turns (c k : Nat) (w : Weave) : (putWeave s c k w).turns = s.turns := rfl
@[simp] theorem putWeave_tick (c k : Nat) (w : Weave) : (putWeave s c k w).tick = s.tick := rfl
@[simp] theorem putWeave_focus (c k : Nat) (w : Weave) : (putWeave s c k w).focus = s.focus := rfl
@[simp] theorem putWeave_seq (c k : Nat) (w : Weave) : (putWeave s c k w).seq = s.seq := rfl
@[simp] theorem putWeave_now (c k : Nat) (w : Weave) : (putWeave s c k w).now = s.now := rfl
@[simp] theorem putWeave_device (c k : Nat) (w : Weave) : (putWeave s c k w).device = s.device := rfl
@[simp] theorem putWeave_mem (c k : Nat) (w : Weave) : (putWeave s c k w).mem = s.mem := rfl
@[simp] theorem putWeave_bad (c k : Nat) (w : Weave) : (putWeave s c k w).bad = s.bad := rfl
@[simp] theorem putWeave_unscrubbed (c k : Nat) (w : Weave) : (putWeave s c k w).unscrubbed = s.unscrubbed := rfl
@[simp] theorem putWeave_dirty (c k : Nat) (w : Weave) : (putWeave s c k w).dirty = s.dirty := rfl
@[simp] theorem putWeave_parts (c k : Nat) (w : Weave) : (putWeave s c k w).parts = s.parts := rfl
@[simp] theorem putWeave_vfs (c k : Nat) (w : Weave) : (putWeave s c k w).vfs = s.vfs := rfl
@[simp] theorem putWeave_launches (c k : Nat) (w : Weave) : (putWeave s c k w).launches = s.launches := rfl
@[simp] theorem putWeave_nextLsn (c k : Nat) (w : Weave) : (putWeave s c k w).nextLsn = s.nextLsn := rfl
@[simp] theorem putWeave_shoots (c k : Nat) (w : Weave) : (putWeave s c k w).shoots = s.shoots := rfl
@[simp] theorem putWeave_images (c k : Nat) (w : Weave) : (putWeave s c k w).images = s.images := rfl
@[simp] theorem putWeave_out (c k : Nat) (w : Weave) : (putWeave s c k w).out = s.out := rfl
@[simp] theorem putWeave_failures (c k : Nat) (w : Weave) : (putWeave s c k w).failures = s.failures := rfl
@[simp] theorem putWeave_marks (c k : Nat) (w : Weave) : (putWeave s c k w).marks = s.marks := rfl
@[simp] theorem putWeave_mgmt (c k : Nat) (w : Weave) : (putWeave s c k w).mgmt = s.mgmt := rfl

@[simp] theorem putInst_turns (c i : Nat) (x : Inst) : (putInst s c i x).turns = s.turns := rfl
@[simp] theorem putInst_tick (c i : Nat) (x : Inst) : (putInst s c i x).tick = s.tick := rfl
@[simp] theorem putInst_focus (c i : Nat) (x : Inst) : (putInst s c i x).focus = s.focus := rfl
@[simp] theorem putInst_seq (c i : Nat) (x : Inst) : (putInst s c i x).seq = s.seq := rfl
@[simp] theorem putInst_now (c i : Nat) (x : Inst) : (putInst s c i x).now = s.now := rfl
@[simp] theorem putInst_device (c i : Nat) (x : Inst) : (putInst s c i x).device = s.device := rfl
@[simp] theorem putInst_mem (c i : Nat) (x : Inst) : (putInst s c i x).mem = s.mem := rfl
@[simp] theorem putInst_bad (c i : Nat) (x : Inst) : (putInst s c i x).bad = s.bad := rfl
@[simp] theorem putInst_unscrubbed (c i : Nat) (x : Inst) : (putInst s c i x).unscrubbed = s.unscrubbed := rfl
@[simp] theorem putInst_dirty (c i : Nat) (x : Inst) : (putInst s c i x).dirty = s.dirty := rfl
@[simp] theorem putInst_parts (c i : Nat) (x : Inst) : (putInst s c i x).parts = s.parts := rfl
@[simp] theorem putInst_vfs (c i : Nat) (x : Inst) : (putInst s c i x).vfs = s.vfs := rfl
@[simp] theorem putInst_launches (c i : Nat) (x : Inst) : (putInst s c i x).launches = s.launches := rfl
@[simp] theorem putInst_nextLsn (c i : Nat) (x : Inst) : (putInst s c i x).nextLsn = s.nextLsn := rfl
@[simp] theorem putInst_shoots (c i : Nat) (x : Inst) : (putInst s c i x).shoots = s.shoots := rfl
@[simp] theorem putInst_images (c i : Nat) (x : Inst) : (putInst s c i x).images = s.images := rfl
@[simp] theorem putInst_out (c i : Nat) (x : Inst) : (putInst s c i x).out = s.out := rfl
@[simp] theorem putInst_failures (c i : Nat) (x : Inst) : (putInst s c i x).failures = s.failures := rfl
@[simp] theorem putInst_marks (c i : Nat) (x : Inst) : (putInst s c i x).marks = s.marks := rfl
@[simp] theorem putInst_mgmt (c i : Nat) (x : Inst) : (putInst s c i x).mgmt = s.mgmt := rfl

@[simp] theorem putVf_turns (v : Nat) (x : Vf) : (putVf s v x).turns = s.turns := rfl
@[simp] theorem putVf_tick (v : Nat) (x : Vf) : (putVf s v x).tick = s.tick := rfl
@[simp] theorem putVf_focus (v : Nat) (x : Vf) : (putVf s v x).focus = s.focus := rfl
@[simp] theorem putVf_seq (v : Nat) (x : Vf) : (putVf s v x).seq = s.seq := rfl
@[simp] theorem putVf_now (v : Nat) (x : Vf) : (putVf s v x).now = s.now := rfl
@[simp] theorem putVf_device (v : Nat) (x : Vf) : (putVf s v x).device = s.device := rfl
@[simp] theorem putVf_mem (v : Nat) (x : Vf) : (putVf s v x).mem = s.mem := rfl
@[simp] theorem putVf_bad (v : Nat) (x : Vf) : (putVf s v x).bad = s.bad := rfl
@[simp] theorem putVf_unscrubbed (v : Nat) (x : Vf) : (putVf s v x).unscrubbed = s.unscrubbed := rfl
@[simp] theorem putVf_dirty (v : Nat) (x : Vf) : (putVf s v x).dirty = s.dirty := rfl
@[simp] theorem putVf_cores (v : Nat) (x : Vf) : (putVf s v x).cores = s.cores := rfl
@[simp] theorem putVf_parts (v : Nat) (x : Vf) : (putVf s v x).parts = s.parts := rfl
@[simp] theorem putVf_launches (v : Nat) (x : Vf) : (putVf s v x).launches = s.launches := rfl
@[simp] theorem putVf_nextLsn (v : Nat) (x : Vf) : (putVf s v x).nextLsn = s.nextLsn := rfl
@[simp] theorem putVf_shoots (v : Nat) (x : Vf) : (putVf s v x).shoots = s.shoots := rfl
@[simp] theorem putVf_images (v : Nat) (x : Vf) : (putVf s v x).images = s.images := rfl
@[simp] theorem putVf_out (v : Nat) (x : Vf) : (putVf s v x).out = s.out := rfl
@[simp] theorem putVf_failures (v : Nat) (x : Vf) : (putVf s v x).failures = s.failures := rfl
@[simp] theorem putVf_marks (v : Nat) (x : Vf) : (putVf s v x).marks = s.marks := rfl
@[simp] theorem putVf_mgmt (v : Nat) (x : Vf) : (putVf s v x).mgmt = s.mgmt := rfl

@[simp] theorem onVf_turns (v : Nat) (f : Vf → Vf) : (onVf s v f).turns = s.turns := rfl
@[simp] theorem onVf_tick (v : Nat) (f : Vf → Vf) : (onVf s v f).tick = s.tick := rfl
@[simp] theorem onVf_focus (v : Nat) (f : Vf → Vf) : (onVf s v f).focus = s.focus := rfl
@[simp] theorem onVf_seq (v : Nat) (f : Vf → Vf) : (onVf s v f).seq = s.seq := rfl
@[simp] theorem onVf_now (v : Nat) (f : Vf → Vf) : (onVf s v f).now = s.now := rfl
@[simp] theorem onVf_device (v : Nat) (f : Vf → Vf) : (onVf s v f).device = s.device := rfl
@[simp] theorem onVf_mem (v : Nat) (f : Vf → Vf) : (onVf s v f).mem = s.mem := rfl
@[simp] theorem onVf_bad (v : Nat) (f : Vf → Vf) : (onVf s v f).bad = s.bad := rfl
@[simp] theorem onVf_unscrubbed (v : Nat) (f : Vf → Vf) : (onVf s v f).unscrubbed = s.unscrubbed := rfl
@[simp] theorem onVf_dirty (v : Nat) (f : Vf → Vf) : (onVf s v f).dirty = s.dirty := rfl
@[simp] theorem onVf_cores (v : Nat) (f : Vf → Vf) : (onVf s v f).cores = s.cores := rfl
@[simp] theorem onVf_parts (v : Nat) (f : Vf → Vf) : (onVf s v f).parts = s.parts := rfl
@[simp] theorem onVf_launches (v : Nat) (f : Vf → Vf) : (onVf s v f).launches = s.launches := rfl
@[simp] theorem onVf_nextLsn (v : Nat) (f : Vf → Vf) : (onVf s v f).nextLsn = s.nextLsn := rfl
@[simp] theorem onVf_shoots (v : Nat) (f : Vf → Vf) : (onVf s v f).shoots = s.shoots := rfl
@[simp] theorem onVf_images (v : Nat) (f : Vf → Vf) : (onVf s v f).images = s.images := rfl
@[simp] theorem onVf_out (v : Nat) (f : Vf → Vf) : (onVf s v f).out = s.out := rfl
@[simp] theorem onVf_failures (v : Nat) (f : Vf → Vf) : (onVf s v f).failures = s.failures := rfl
@[simp] theorem onVf_marks (v : Nat) (f : Vf → Vf) : (onVf s v f).marks = s.marks := rfl
@[simp] theorem onVf_mgmt (v : Nat) (f : Vf → Vf) : (onVf s v f).mgmt = s.mgmt := rfl

@[simp] theorem putPart_turns (p : Nat) (x : Part) : (putPart s p x).turns = s.turns := rfl
@[simp] theorem putPart_tick (p : Nat) (x : Part) : (putPart s p x).tick = s.tick := rfl
@[simp] theorem putPart_focus (p : Nat) (x : Part) : (putPart s p x).focus = s.focus := rfl
@[simp] theorem putPart_seq (p : Nat) (x : Part) : (putPart s p x).seq = s.seq := rfl
@[simp] theorem putPart_now (p : Nat) (x : Part) : (putPart s p x).now = s.now := rfl
@[simp] theorem putPart_device (p : Nat) (x : Part) : (putPart s p x).device = s.device := rfl
@[simp] theorem putPart_mem (p : Nat) (x : Part) : (putPart s p x).mem = s.mem := rfl
@[simp] theorem putPart_bad (p : Nat) (x : Part) : (putPart s p x).bad = s.bad := rfl
@[simp] theorem putPart_unscrubbed (p : Nat) (x : Part) : (putPart s p x).unscrubbed = s.unscrubbed := rfl
@[simp] theorem putPart_dirty (p : Nat) (x : Part) : (putPart s p x).dirty = s.dirty := rfl
@[simp] theorem putPart_cores (p : Nat) (x : Part) : (putPart s p x).cores = s.cores := rfl
@[simp] theorem putPart_vfs (p : Nat) (x : Part) : (putPart s p x).vfs = s.vfs := rfl
@[simp] theorem putPart_launches (p : Nat) (x : Part) : (putPart s p x).launches = s.launches := rfl
@[simp] theorem putPart_nextLsn (p : Nat) (x : Part) : (putPart s p x).nextLsn = s.nextLsn := rfl
@[simp] theorem putPart_shoots (p : Nat) (x : Part) : (putPart s p x).shoots = s.shoots := rfl
@[simp] theorem putPart_images (p : Nat) (x : Part) : (putPart s p x).images = s.images := rfl
@[simp] theorem putPart_out (p : Nat) (x : Part) : (putPart s p x).out = s.out := rfl
@[simp] theorem putPart_failures (p : Nat) (x : Part) : (putPart s p x).failures = s.failures := rfl
@[simp] theorem putPart_marks (p : Nat) (x : Part) : (putPart s p x).marks = s.marks := rfl
@[simp] theorem putPart_mgmt (p : Nat) (x : Part) : (putPart s p x).mgmt = s.mgmt := rfl

@[simp] theorem onPart_turns (p : Nat) (f : Part → Part) : (onPart s p f).turns = s.turns := rfl
@[simp] theorem onPart_tick (p : Nat) (f : Part → Part) : (onPart s p f).tick = s.tick := rfl
@[simp] theorem onPart_focus (p : Nat) (f : Part → Part) : (onPart s p f).focus = s.focus := rfl
@[simp] theorem onPart_seq (p : Nat) (f : Part → Part) : (onPart s p f).seq = s.seq := rfl
@[simp] theorem onPart_now (p : Nat) (f : Part → Part) : (onPart s p f).now = s.now := rfl
@[simp] theorem onPart_device (p : Nat) (f : Part → Part) : (onPart s p f).device = s.device := rfl
@[simp] theorem onPart_mem (p : Nat) (f : Part → Part) : (onPart s p f).mem = s.mem := rfl
@[simp] theorem onPart_bad (p : Nat) (f : Part → Part) : (onPart s p f).bad = s.bad := rfl
@[simp] theorem onPart_unscrubbed (p : Nat) (f : Part → Part) : (onPart s p f).unscrubbed = s.unscrubbed := rfl
@[simp] theorem onPart_dirty (p : Nat) (f : Part → Part) : (onPart s p f).dirty = s.dirty := rfl
@[simp] theorem onPart_cores (p : Nat) (f : Part → Part) : (onPart s p f).cores = s.cores := rfl
@[simp] theorem onPart_vfs (p : Nat) (f : Part → Part) : (onPart s p f).vfs = s.vfs := rfl
@[simp] theorem onPart_launches (p : Nat) (f : Part → Part) : (onPart s p f).launches = s.launches := rfl
@[simp] theorem onPart_nextLsn (p : Nat) (f : Part → Part) : (onPart s p f).nextLsn = s.nextLsn := rfl
@[simp] theorem onPart_shoots (p : Nat) (f : Part → Part) : (onPart s p f).shoots = s.shoots := rfl
@[simp] theorem onPart_images (p : Nat) (f : Part → Part) : (onPart s p f).images = s.images := rfl
@[simp] theorem onPart_out (p : Nat) (f : Part → Part) : (onPart s p f).out = s.out := rfl
@[simp] theorem onPart_failures (p : Nat) (f : Part → Part) : (onPart s p f).failures = s.failures := rfl
@[simp] theorem onPart_marks (p : Nat) (f : Part → Part) : (onPart s p f).marks = s.marks := rfl
@[simp] theorem onPart_mgmt (p : Nat) (f : Part → Part) : (onPart s p f).mgmt = s.mgmt := rfl

@[simp] theorem onLaunch_turns (n : Nat) (f : Launch → Launch) : (onLaunch s n f).turns = s.turns := rfl
@[simp] theorem onLaunch_tick (n : Nat) (f : Launch → Launch) : (onLaunch s n f).tick = s.tick := rfl
@[simp] theorem onLaunch_focus (n : Nat) (f : Launch → Launch) : (onLaunch s n f).focus = s.focus := rfl
@[simp] theorem onLaunch_seq (n : Nat) (f : Launch → Launch) : (onLaunch s n f).seq = s.seq := rfl
@[simp] theorem onLaunch_now (n : Nat) (f : Launch → Launch) : (onLaunch s n f).now = s.now := rfl
@[simp] theorem onLaunch_device (n : Nat) (f : Launch → Launch) : (onLaunch s n f).device = s.device := rfl
@[simp] theorem onLaunch_mem (n : Nat) (f : Launch → Launch) : (onLaunch s n f).mem = s.mem := rfl
@[simp] theorem onLaunch_bad (n : Nat) (f : Launch → Launch) : (onLaunch s n f).bad = s.bad := rfl
@[simp] theorem onLaunch_unscrubbed (n : Nat) (f : Launch → Launch) : (onLaunch s n f).unscrubbed = s.unscrubbed := rfl
@[simp] theorem onLaunch_dirty (n : Nat) (f : Launch → Launch) : (onLaunch s n f).dirty = s.dirty := rfl
@[simp] theorem onLaunch_cores (n : Nat) (f : Launch → Launch) : (onLaunch s n f).cores = s.cores := rfl
@[simp] theorem onLaunch_parts (n : Nat) (f : Launch → Launch) : (onLaunch s n f).parts = s.parts := rfl
@[simp] theorem onLaunch_vfs (n : Nat) (f : Launch → Launch) : (onLaunch s n f).vfs = s.vfs := rfl
@[simp] theorem onLaunch_nextLsn (n : Nat) (f : Launch → Launch) : (onLaunch s n f).nextLsn = s.nextLsn := rfl
@[simp] theorem onLaunch_shoots (n : Nat) (f : Launch → Launch) : (onLaunch s n f).shoots = s.shoots := rfl
@[simp] theorem onLaunch_images (n : Nat) (f : Launch → Launch) : (onLaunch s n f).images = s.images := rfl
@[simp] theorem onLaunch_out (n : Nat) (f : Launch → Launch) : (onLaunch s n f).out = s.out := rfl
@[simp] theorem onLaunch_failures (n : Nat) (f : Launch → Launch) : (onLaunch s n f).failures = s.failures := rfl
@[simp] theorem onLaunch_marks (n : Nat) (f : Launch → Launch) : (onLaunch s n f).marks = s.marks := rfl
@[simp] theorem onLaunch_mgmt (n : Nat) (f : Launch → Launch) : (onLaunch s n f).mgmt = s.mgmt := rfl

@[simp] theorem mark_turns (n k : Nat) : (mark s n k).turns = s.turns := rfl
@[simp] theorem mark_tick (n k : Nat) : (mark s n k).tick = s.tick := rfl
@[simp] theorem mark_focus (n k : Nat) : (mark s n k).focus = s.focus := rfl
@[simp] theorem mark_seq (n k : Nat) : (mark s n k).seq = s.seq := rfl
@[simp] theorem mark_now (n k : Nat) : (mark s n k).now = s.now := rfl
@[simp] theorem mark_device (n k : Nat) : (mark s n k).device = s.device := rfl
@[simp] theorem mark_mem (n k : Nat) : (mark s n k).mem = s.mem := rfl
@[simp] theorem mark_bad (n k : Nat) : (mark s n k).bad = s.bad := rfl
@[simp] theorem mark_unscrubbed (n k : Nat) : (mark s n k).unscrubbed = s.unscrubbed := rfl
@[simp] theorem mark_dirty (n k : Nat) : (mark s n k).dirty = s.dirty := rfl
@[simp] theorem mark_cores (n k : Nat) : (mark s n k).cores = s.cores := rfl
@[simp] theorem mark_parts (n k : Nat) : (mark s n k).parts = s.parts := rfl
@[simp] theorem mark_vfs (n k : Nat) : (mark s n k).vfs = s.vfs := rfl
@[simp] theorem mark_launches (n k : Nat) : (mark s n k).launches = s.launches := rfl
@[simp] theorem mark_nextLsn (n k : Nat) : (mark s n k).nextLsn = s.nextLsn := rfl
@[simp] theorem mark_shoots (n k : Nat) : (mark s n k).shoots = s.shoots := rfl
@[simp] theorem mark_images (n k : Nat) : (mark s n k).images = s.images := rfl
@[simp] theorem mark_out (n k : Nat) : (mark s n k).out = s.out := rfl
@[simp] theorem mark_failures (n k : Nat) : (mark s n k).failures = s.failures := rfl
@[simp] theorem mark_mgmt (n k : Nat) : (mark s n k).mgmt = s.mgmt := rfl

@[simp] theorem send_turns (m : Msg) : (send s m).turns = s.turns := rfl
@[simp] theorem send_tick (m : Msg) : (send s m).tick = s.tick := rfl
@[simp] theorem send_focus (m : Msg) : (send s m).focus = s.focus := rfl
@[simp] theorem send_seq (m : Msg) : (send s m).seq = s.seq := rfl
@[simp] theorem send_now (m : Msg) : (send s m).now = s.now := rfl
@[simp] theorem send_device (m : Msg) : (send s m).device = s.device := rfl
@[simp] theorem send_mem (m : Msg) : (send s m).mem = s.mem := rfl
@[simp] theorem send_bad (m : Msg) : (send s m).bad = s.bad := rfl
@[simp] theorem send_unscrubbed (m : Msg) : (send s m).unscrubbed = s.unscrubbed := rfl
@[simp] theorem send_dirty (m : Msg) : (send s m).dirty = s.dirty := rfl
@[simp] theorem send_cores (m : Msg) : (send s m).cores = s.cores := rfl
@[simp] theorem send_parts (m : Msg) : (send s m).parts = s.parts := rfl
@[simp] theorem send_vfs (m : Msg) : (send s m).vfs = s.vfs := rfl
@[simp] theorem send_launches (m : Msg) : (send s m).launches = s.launches := rfl
@[simp] theorem send_nextLsn (m : Msg) : (send s m).nextLsn = s.nextLsn := rfl
@[simp] theorem send_shoots (m : Msg) : (send s m).shoots = s.shoots := rfl
@[simp] theorem send_images (m : Msg) : (send s m).images = s.images := rfl
@[simp] theorem send_failures (m : Msg) : (send s m).failures = s.failures := rfl
@[simp] theorem send_marks (m : Msg) : (send s m).marks = s.marks := rfl
@[simp] theorem send_mgmt (m : Msg) : (send s m).mgmt = s.mgmt := rfl

@[simp] theorem poisonUnit_turns (u : Nat) : (poisonUnit s u).turns = s.turns := rfl
@[simp] theorem poisonUnit_tick (u : Nat) : (poisonUnit s u).tick = s.tick := rfl
@[simp] theorem poisonUnit_focus (u : Nat) : (poisonUnit s u).focus = s.focus := rfl
@[simp] theorem poisonUnit_seq (u : Nat) : (poisonUnit s u).seq = s.seq := rfl
@[simp] theorem poisonUnit_now (u : Nat) : (poisonUnit s u).now = s.now := rfl
@[simp] theorem poisonUnit_device (u : Nat) : (poisonUnit s u).device = s.device := rfl
@[simp] theorem poisonUnit_mem (u : Nat) : (poisonUnit s u).mem = s.mem := rfl
@[simp] theorem poisonUnit_unscrubbed (u : Nat) : (poisonUnit s u).unscrubbed = s.unscrubbed := rfl
@[simp] theorem poisonUnit_dirty (u : Nat) : (poisonUnit s u).dirty = s.dirty := rfl
@[simp] theorem poisonUnit_cores (u : Nat) : (poisonUnit s u).cores = s.cores := rfl
@[simp] theorem poisonUnit_parts (u : Nat) : (poisonUnit s u).parts = s.parts := rfl
@[simp] theorem poisonUnit_vfs (u : Nat) : (poisonUnit s u).vfs = s.vfs := rfl
@[simp] theorem poisonUnit_launches (u : Nat) : (poisonUnit s u).launches = s.launches := rfl
@[simp] theorem poisonUnit_nextLsn (u : Nat) : (poisonUnit s u).nextLsn = s.nextLsn := rfl
@[simp] theorem poisonUnit_shoots (u : Nat) : (poisonUnit s u).shoots = s.shoots := rfl
@[simp] theorem poisonUnit_images (u : Nat) : (poisonUnit s u).images = s.images := rfl
@[simp] theorem poisonUnit_out (u : Nat) : (poisonUnit s u).out = s.out := rfl
@[simp] theorem poisonUnit_failures (u : Nat) : (poisonUnit s u).failures = s.failures := rfl
@[simp] theorem poisonUnit_marks (u : Nat) : (poisonUnit s u).marks = s.marks := rfl
@[simp] theorem poisonUnit_mgmt (u : Nat) : (poisonUnit s u).mgmt = s.mgmt := rfl

@[simp] theorem onWeave_turns (c k : Nat) (f : Weave → Weave) : (onWeave s c k f).turns = s.turns := by unfold onWeave; split <;> rfl
@[simp] theorem onWeave_tick (c k : Nat) (f : Weave → Weave) : (onWeave s c k f).tick = s.tick := by unfold onWeave; split <;> rfl
@[simp] theorem onWeave_focus (c k : Nat) (f : Weave → Weave) : (onWeave s c k f).focus = s.focus := by unfold onWeave; split <;> rfl
@[simp] theorem onWeave_seq (c k : Nat) (f : Weave → Weave) : (onWeave s c k f).seq = s.seq := by unfold onWeave; split <;> rfl
@[simp] theorem onWeave_now (c k : Nat) (f : Weave → Weave) : (onWeave s c k f).now = s.now := by unfold onWeave; split <;> rfl
@[simp] theorem onWeave_device (c k : Nat) (f : Weave → Weave) : (onWeave s c k f).device = s.device := by unfold onWeave; split <;> rfl
@[simp] theorem onWeave_mem (c k : Nat) (f : Weave → Weave) : (onWeave s c k f).mem = s.mem := by unfold onWeave; split <;> rfl
@[simp] theorem onWeave_bad (c k : Nat) (f : Weave → Weave) : (onWeave s c k f).bad = s.bad := by unfold onWeave; split <;> rfl
@[simp] theorem onWeave_unscrubbed (c k : Nat) (f : Weave → Weave) : (onWeave s c k f).unscrubbed = s.unscrubbed := by unfold onWeave; split <;> rfl
@[simp] theorem onWeave_dirty (c k : Nat) (f : Weave → Weave) : (onWeave s c k f).dirty = s.dirty := by unfold onWeave; split <;> rfl
@[simp] theorem onWeave_parts (c k : Nat) (f : Weave → Weave) : (onWeave s c k f).parts = s.parts := by unfold onWeave; split <;> rfl
@[simp] theorem onWeave_vfs (c k : Nat) (f : Weave → Weave) : (onWeave s c k f).vfs = s.vfs := by unfold onWeave; split <;> rfl
@[simp] theorem onWeave_launches (c k : Nat) (f : Weave → Weave) : (onWeave s c k f).launches = s.launches := by unfold onWeave; split <;> rfl
@[simp] theorem onWeave_nextLsn (c k : Nat) (f : Weave → Weave) : (onWeave s c k f).nextLsn = s.nextLsn := by unfold onWeave; split <;> rfl
@[simp] theorem onWeave_shoots (c k : Nat) (f : Weave → Weave) : (onWeave s c k f).shoots = s.shoots := by unfold onWeave; split <;> rfl
@[simp] theorem onWeave_images (c k : Nat) (f : Weave → Weave) : (onWeave s c k f).images = s.images := by unfold onWeave; split <;> rfl
@[simp] theorem onWeave_out (c k : Nat) (f : Weave → Weave) : (onWeave s c k f).out = s.out := by unfold onWeave; split <;> rfl
@[simp] theorem onWeave_failures (c k : Nat) (f : Weave → Weave) : (onWeave s c k f).failures = s.failures := by unfold onWeave; split <;> rfl
@[simp] theorem onWeave_marks (c k : Nat) (f : Weave → Weave) : (onWeave s c k f).marks = s.marks := by unfold onWeave; split <;> rfl
@[simp] theorem onWeave_mgmt (c k : Nat) (f : Weave → Weave) : (onWeave s c k f).mgmt = s.mgmt := by unfold onWeave; split <;> rfl

@[simp] theorem onInst_turns (c i : Nat) (f : Inst → Inst) : (onInst s c i f).turns = s.turns := by unfold onInst; split <;> rfl
@[simp] theorem onInst_tick (c i : Nat) (f : Inst → Inst) : (onInst s c i f).tick = s.tick := by unfold onInst; split <;> rfl
@[simp] theorem onInst_focus (c i : Nat) (f : Inst → Inst) : (onInst s c i f).focus = s.focus := by unfold onInst; split <;> rfl
@[simp] theorem onInst_seq (c i : Nat) (f : Inst → Inst) : (onInst s c i f).seq = s.seq := by unfold onInst; split <;> rfl
@[simp] theorem onInst_now (c i : Nat) (f : Inst → Inst) : (onInst s c i f).now = s.now := by unfold onInst; split <;> rfl
@[simp] theorem onInst_device (c i : Nat) (f : Inst → Inst) : (onInst s c i f).device = s.device := by unfold onInst; split <;> rfl
@[simp] theorem onInst_mem (c i : Nat) (f : Inst → Inst) : (onInst s c i f).mem = s.mem := by unfold onInst; split <;> rfl
@[simp] theorem onInst_bad (c i : Nat) (f : Inst → Inst) : (onInst s c i f).bad = s.bad := by unfold onInst; split <;> rfl
@[simp] theorem onInst_unscrubbed (c i : Nat) (f : Inst → Inst) : (onInst s c i f).unscrubbed = s.unscrubbed := by unfold onInst; split <;> rfl
@[simp] theorem onInst_dirty (c i : Nat) (f : Inst → Inst) : (onInst s c i f).dirty = s.dirty := by unfold onInst; split <;> rfl
@[simp] theorem onInst_parts (c i : Nat) (f : Inst → Inst) : (onInst s c i f).parts = s.parts := by unfold onInst; split <;> rfl
@[simp] theorem onInst_vfs (c i : Nat) (f : Inst → Inst) : (onInst s c i f).vfs = s.vfs := by unfold onInst; split <;> rfl
@[simp] theorem onInst_launches (c i : Nat) (f : Inst → Inst) : (onInst s c i f).launches = s.launches := by unfold onInst; split <;> rfl
@[simp] theorem onInst_nextLsn (c i : Nat) (f : Inst → Inst) : (onInst s c i f).nextLsn = s.nextLsn := by unfold onInst; split <;> rfl
@[simp] theorem onInst_shoots (c i : Nat) (f : Inst → Inst) : (onInst s c i f).shoots = s.shoots := by unfold onInst; split <;> rfl
@[simp] theorem onInst_images (c i : Nat) (f : Inst → Inst) : (onInst s c i f).images = s.images := by unfold onInst; split <;> rfl
@[simp] theorem onInst_out (c i : Nat) (f : Inst → Inst) : (onInst s c i f).out = s.out := by unfold onInst; split <;> rfl
@[simp] theorem onInst_failures (c i : Nat) (f : Inst → Inst) : (onInst s c i f).failures = s.failures := by unfold onInst; split <;> rfl
@[simp] theorem onInst_marks (c i : Nat) (f : Inst → Inst) : (onInst s c i f).marks = s.marks := by unfold onInst; split <;> rfl
@[simp] theorem onInst_mgmt (c i : Nat) (f : Inst → Inst) : (onInst s c i f).mgmt = s.mgmt := by unfold onInst; split <;> rfl

end Sys2Proof.Machine
end

