-- ==== Sys2Proof/Laws/Access.lean ====
section
/-!
SUPPORT. Where things are: reading a core, weave, instance, virtual function or partition after another of them was written, and
the registers of a weave and of a uniform file after a write.
-/

namespace Sys2Proof.Machine

open Sys2Proof

/-! ## Cores, weaves, instances -/

@[simp] theorem getCore_putCore_self (s : State) (c : Nat) (x : Core) : getCore (putCore s c x) c = x := by
  simp [getCore, putCore]

theorem getCore_putCore_ne (s : State) {c d : Nat} (x : Core) (h : d ≠ c) : getCore (putCore s c x) d = getCore s d := by
  simp only [getCore, putCore]; exact sget_sput_ne _ _ _ h

@[simp] theorem getCore_onCore_self (s : State) (c : Nat) (f : Core → Core) : getCore (onCore s c f) c = f (getCore s c) := by
  simp [onCore]

theorem getCore_onCore_ne (s : State) {c d : Nat} (f : Core → Core) (h : d ≠ c) : getCore (onCore s c f) d = getCore s d :=
  getCore_putCore_ne s _ h

@[simp] theorem getWeave_putWeave_self (s : State) (c k : Nat) (w : Weave) : getWeave (putWeave s c k w) c k = some w := by
  simp [getWeave, putWeave]

theorem getWeave_putWeave_ne (s : State) (c : Nat) {k j : Nat} (w : Weave) (h : j ≠ k) :
    getWeave (putWeave s c k w) c j = getWeave s c j := by
  simp [getWeave, putWeave, sfind_sput_ne _ _ h]

theorem getWeave_putWeave_core (s : State) {c d : Nat} (k j : Nat) (w : Weave) (h : d ≠ c) :
    getWeave (putWeave s c k w) d j = getWeave s d j := by
  simp [getWeave, putWeave, getCore_onCore_ne _ _ h]

@[simp] theorem getCore_putWeave (s : State) (c k : Nat) (w : Weave) :
    getCore (putWeave s c k w) c = { getCore s c with weaves := sput (getCore s c).weaves k w } := by
  simp [putWeave]

theorem getCore_putWeave_ne (s : State) {c d : Nat} (k : Nat) (w : Weave) (h : d ≠ c) :
    getCore (putWeave s c k w) d = getCore s d := getCore_onCore_ne s _ h

theorem onWeave_some {s : State} {c k : Nat} {w : Weave} (h : getWeave s c k = some w) (f : Weave → Weave) :
    onWeave s c k f = putWeave s c k (f w) := by simp only [onWeave, h]

@[simp] theorem getInst_putInst_self (s : State) (c i : Nat) (x : Inst) : getInst (putInst s c i x) c i = some x := by
  simp [getInst, putInst]

theorem getInst_putInst_ne (s : State) (c : Nat) {i j : Nat} (x : Inst) (h : j ≠ i) :
    getInst (putInst s c i x) c j = getInst s c j := by
  simp [getInst, putInst, sfind_sput_ne _ _ h]

@[simp] theorem getInst_putWeave (s : State) (c k : Nat) (w : Weave) (d i : Nat) :
    getInst (putWeave s c k w) d i = getInst s d i := by
  by_cases h : d = c
  · subst h; simp [getInst]
  · simp [getInst, getCore_putWeave_ne _ _ _ h]

@[simp] theorem getWeave_putInst (s : State) (c i : Nat) (x : Inst) (d k : Nat) :
    getWeave (putInst s c i x) d k = getWeave s d k := by
  by_cases h : d = c
  · subst h; simp [getWeave, putInst]
  · simp [getWeave, putInst, getCore_onCore_ne _ _ h]

theorem onInst_some {s : State} {c i : Nat} {x : Inst} (h : getInst s c i = some x) (f : Inst → Inst) :
    onInst s c i f = putInst s c i (f x) := by simp only [onInst, h]

/-- A change of a core that leaves its weaves. -/
theorem getWeave_onCore (s : State) (c : Nat) (f : Core → Core) (hf : ∀ x, (f x).weaves = x.weaves) (d k : Nat) :
    getWeave (onCore s c f) d k = getWeave s d k := by
  by_cases h : d = c
  · subst h; simp [getWeave, hf]
  · simp [getWeave, getCore_onCore_ne _ _ h]

/-- A change of a core that leaves its instances. -/
theorem getInst_onCore (s : State) (c : Nat) (f : Core → Core) (hf : ∀ x, (f x).insts = x.insts) (d i : Nat) :
    getInst (onCore s c f) d i = getInst s d i := by
  by_cases h : d = c
  · subst h; simp [getInst, hf]
  · simp [getInst, getCore_onCore_ne _ _ h]

/-! ## Virtual functions and partitions -/

@[simp] theorem getVf_putVf_self (s : State) (v : Nat) (x : Vf) : getVf (putVf s v x) v = x := by simp [getVf, putVf]

theorem getVf_putVf_ne (s : State) {v u : Nat} (x : Vf) (h : u ≠ v) : getVf (putVf s v x) u = getVf s u := by
  simp only [getVf, putVf]; exact sget_sput_ne _ _ _ h

@[simp] theorem getVf_onVf_self (s : State) (v : Nat) (f : Vf → Vf) : getVf (onVf s v f) v = f (getVf s v) := by simp [onVf]

@[simp] theorem getPart_putPart_self (s : State) (p : Nat) (x : Part) : getPart (putPart s p x) p = x := by
  simp [getPart, putPart]

theorem getPart_putPart_ne (s : State) {p q : Nat} (x : Part) (h : q ≠ p) : getPart (putPart s p x) q = getPart s q := by
  simp only [getPart, putPart]; exact sget_sput_ne _ _ _ h

@[simp] theorem getPart_onPart_self (s : State) (p : Nat) (f : Part → Part) : getPart (onPart s p f) p = f (getPart s p) := by
  simp [onPart]

/-! ## Registers of a weave -/

theorem vkey_inj {t r t' r' : Nat} (ht : t < 32) (ht' : t' < 32) : vkey t r = vkey t' r' ↔ t = t' ∧ r = r' := by
  unfold vkey; omega

theorem readV_writeV (w : Weave) {t t' : Nat} (r r' : Nat) (x : Word) (ht : t < 32) (ht' : t' < 32) :
    readV (writeV w t r x) t' r' = if t' = t ∧ r' = r then x else readV w t' r' := by
  simp only [readV, writeV, sget_sset, vkey_inj ht' ht]

@[simp] theorem readP_writeV (w : Weave) (t r : Nat) (x : Word) (t' p : Nat) : readP (writeV w t r x) t' p = readP w t' p := rfl
@[simp] theorem readFlags_writeV (w : Weave) (t r : Nat) (x : Word) (t' : Nat) : readFlags (writeV w t r x) t' = readFlags w t' := rfl
@[simp] theorem readGen_writeV (w : Weave) (t r : Nat) (x : Word) (t' : Nat) : readGen (writeV w t r x) t' = readGen w t' := rfl

theorem readFlags_writeFlags (w : Weave) (t t' : Nat) (f : Flags) :
    readFlags (writeFlags w t f) t' = if t' = t then f else readFlags w t' := by
  simp only [readFlags, writeFlags, sget_sset]

@[simp] theorem readV_writeFlags (w : Weave) (t : Nat) (f : Flags) (t' r : Nat) : readV (writeFlags w t f) t' r = readV w t' r := rfl
@[simp] theorem readP_writeFlags (w : Weave) (t : Nat) (f : Flags) (t' p : Nat) : readP (writeFlags w t f) t' p = readP w t' p := rfl
@[simp] theorem readGen_writeFlags (w : Weave) (t : Nat) (f : Flags) (t' : Nat) : readGen (writeFlags w t f) t' = readGen w t' := rfl

theorem readGen_writeGen (w : Weave) (t t' : Nat) (g : Double) :
    readGen (writeGen w t g) t' = if t' = t then g else readGen w t' := by
  simp only [readGen, writeGen, sget_sset]

@[simp] theorem readV_writeGen (w : Weave) (t : Nat) (g : Double) (t' r : Nat) : readV (writeGen w t g) t' r = readV w t' r := rfl
@[simp] theorem readP_writeGen (w : Weave) (t : Nat) (g : Double) (t' p : Nat) : readP (writeGen w t g) t' p = readP w t' p := rfl
@[simp] theorem readFlags_writeGen (w : Weave) (t : Nat) (g : Double) (t' : Nat) : readFlags (writeGen w t g) t' = readFlags w t' := rfl

theorem getLsbD_setBit (m : Mask) (t t' : Nat) (b : Bool) (ht : t < 32) (ht' : t' < 32) :
    (setBit m t b).getLsbD t' = if t' = t then b else m.getLsbD t' := by
  have h1 : (1#32 <<< t).getLsbD t' = decide (t' = t) := by
    simp only [BitVec.getLsbD_shiftLeft, ht', decide_true, Bool.true_and, BitVec.getLsbD_one]
    by_cases h : t' = t
    · subst h; simp
    · by_cases h2 : t' < t
      · simp [h2, h]
      · have : t' - t ≠ 0 := by omega
        simp [h2, h, this]
  unfold setBit
  split <;> rename_i hb
  · rw [BitVec.getLsbD_or, h1]; by_cases h : t' = t <;> simp [h, hb]
  · rw [BitVec.getLsbD_and, BitVec.getLsbD_not, h1]; by_cases h : t' = t <;> simp [h, hb, ht']

theorem readP_writeP (w : Weave) {t t' : Nat} (p p' : Nat) (b : Bool) (ht : t < 32) (ht' : t' < 32) (hp : p ≠ 7) :
    readP (writeP w t p b) t' p' = if t' = t ∧ p' = p then b else readP w t' p' := by
  unfold readP writeP
  rw [if_neg hp]
  by_cases h7 : p' = 7
  · subst h7; rw [if_pos rfl, if_neg (fun h => hp h.2.symm)]; rfl
  · simp only [h7, if_false, sget_sset]
    by_cases h : p' = p
    · subst h; simp [getLsbD_setBit _ _ _ _ ht ht']
    · simp [h]

@[simp] theorem readV_writeP (w : Weave) (t p : Nat) (b : Bool) (t' r : Nat) : readV (writeP w t p b) t' r = readV w t' r := by
  unfold writeP; split <;> rfl
@[simp] theorem readFlags_writeP (w : Weave) (t p : Nat) (b : Bool) (t' : Nat) :
    readFlags (writeP w t p b) t' = readFlags w t' := by unfold writeP; split <;> rfl
@[simp] theorem readGen_writeP (w : Weave) (t p : Nat) (b : Bool) (t' : Nat) : readGen (writeP w t p b) t' = readGen w t' := by
  unfold writeP; split <;> rfl

/-! ## Uniform registers -/

theorem readS_writeS (f : UFile) (n m : Nat) (x : Word) : readS (writeS f n x) m = if m = n then x else readS f m := by
  simp only [readS, writeS, sget_sset]

@[simp] theorem writeS_q (f : UFile) (n : Nat) (x : Word) : (writeS f n x).q = f.q := rfl
@[simp] theorem writeS_mode (f : UFile) (n : Nat) (x : Word) : (writeS f n x).mode = f.mode := rfl
@[simp] theorem writeS_gen (f : UFile) (n : Nat) (x : Word) : (writeS f n x).gen = f.gen := rfl

end Sys2Proof.Machine
end

