-- ==== Sys2Proof/Laws/Issue.lean ====
section
/-!
SUPPORT. The turn of a weave: what its beginning, the taking of the lane and the end of an instruction do, each said once.
-/

namespace Sys2Proof.Machine

open Sys2Proof

/-! ## Nothing else changed -/

theorem Kept.refl (s : State) (c k : Nat) : Kept s s c k := ⟨rfl, fun _ _ => rfl, rfl, fun _ _ => rfl⟩

theorem Kept.trans {s t u : State} {c k : Nat} (h : Kept s t c k) (g : Kept t u c k) : Kept s u c k :=
  ⟨g.rest.trans h.rest, fun d hd => (g.cores d hd).trans (h.cores d hd), g.core.trans h.core,
   fun j hj => (g.weaves j hj).trans (h.weaves j hj)⟩

theorem Kept.mem {s t : State} {c k : Nat} (h : Kept s t c k) : t.mem = s.mem := by
  have := congrArg State.mem h.rest; exact this

theorem Kept.unscrubbed {s t : State} {c k : Nat} (h : Kept s t c k) : t.unscrubbed = s.unscrubbed := by
  have := congrArg State.unscrubbed h.rest; exact this

theorem Kept.memByte {s t : State} {c k : Nat} (h : Kept s t c k) (a : Nat) : memByte t a = memByte s a := by
  simp only [Machine.memByte, h.mem, h.unscrubbed]

theorem kept_putWeave (s : State) (c k : Nat) (w : Weave) : Kept s (putWeave s c k w) c k :=
  ⟨rfl, fun _ h => getCore_putWeave_ne _ _ _ h, by simp [Core.rest], fun _ h => getWeave_putWeave_ne _ _ _ h⟩

/-- A change of a core's lanes, counters and value store. -/
theorem kept_onCore (s : State) (c k : Nat) (f : Core → Core) (hw : ∀ x, (f x).weaves = x.weaves) (hr : ∀ x, (f x).rest = x.rest) :
    Kept s (onCore s c f) c k :=
  ⟨rfl, fun _ h => getCore_onCore_ne _ _ h, by simp [hr], fun _ _ => getWeave_onCore _ _ _ hw _ _⟩

theorem kept_nextSeq (s : State) (c k : Nat) : Kept s (nextSeq s).2 c k := ⟨rfl, fun _ _ => rfl, rfl, fun _ _ => rfl⟩

/-! ## The beginning -/

@[simp] theorem writeP_frontier (w : Weave) (t p : Nat) (b : Bool) : (writeP w t p b).frontier = w.frontier := by
  unfold writeP; split <;> rfl

theorem commitWeave_frontier (w : Weave) : (commitWeave w).frontier = w.frontier := by
  have hv : ∀ (l : List (Nat × Word)) (w : Weave), (l.foldl (fun w e => writeV w (e.1 % 32) (e.1 / 32) e.2) w).frontier = w.frontier := by
    intro l; induction l with
    | nil => intro w; rfl
    | cons e r ih => intro w; exact ih _
  have hp : ∀ (l : List (Nat × Bool)) (w : Weave), (l.foldl (fun w e => writeP w (e.1 % 32) (e.1 / 32) e.2) w).frontier = w.frontier := by
    intro l; induction l with
    | nil => intro w; rfl
    | cons e r ih => intro w; exact (ih _).trans (writeP_frontier _ _ _ _)
  have hr : ∀ (w : Weave) (r : Result), (applyResult w r).frontier = w.frontier := by
    intro w r; unfold applyResult; exact (hp _ _).trans (hv _ _)
  have hl : ∀ (l : List Result) (w : Weave), (l.foldl applyResult w).frontier = w.frontier := by
    intro l; induction l with
    | nil => intro w; rfl
    | cons e r ih => intro w; exact (ih _).trans (hr _ _)
  exact hl _ _

/-- The beginning of a turn commits the weave's results and nothing else. -/
theorem begin_turn {s : State} {c k : Nat} {e : Entry} {w : Weave} (h : LaneTurn s c k e w) : begin s (.weave c k) e = putWeave s c k w := by
  obtain ⟨w0, h0, rfl⟩ : ∃ w0, getWeave s c k = some w0 ∧ commitWeave w0 = w := by
    simpa [Option.map_eq_some_iff] using h.weave
  have hc : commitAgent s (.weave c k) = putWeave s c k (commitWeave w0) := by simp only [commitAgent, onWeave_some h0]
  simp only [begin, hc, fillEntry, getWeave_putWeave_self]
  rw [if_neg]
  simp only [List.any_eq_true, Bool.and_eq_true, beq_iff_eq, bne_iff_ne, ne_eq, not_exists, not_and, not_not]
  intro x hx hm
  exact h.inCore x hx hm

theorem getWeave_claimLane (s : State) (c k : Nat) (w : Weave) (d j : Nat) : getWeave (claimLane s c k w) d j = getWeave s d j := by
  unfold claimLane
  refine getWeave_onCore _ _ _ (fun x => ?_) _ _
  dsimp only; split <;> rfl

theorem kept_claimLane (s : State) (c k : Nat) (w : Weave) : Kept s (claimLane s c k w) c k := by
  unfold claimLane
  refine kept_onCore _ _ _ _ (fun x => ?_) (fun x => ?_) <;> (dsimp only; split <;> rfl)

theorem kept_laneState (s : State) (c k : Nat) (w : Weave) : Kept s (laneState s c k w) c k :=
  (kept_putWeave s c k w).trans (kept_claimLane _ _ _ _)

@[simp] theorem getWeave_laneState (s : State) (c k : Nat) (w : Weave) : getWeave (laneState s c k w) c k = some w := by
  simp [laneState, getWeave_claimLane]

/-- A lane instruction on its turn, its encoding legal there: its effect and the end of the instruction. -/
theorem laneIssue_turn {s : State} {c k : Nat} {e : Entry} {w : Weave} (h : LaneTurn s c k e w) (q : LaneReq)
    (hl : illegalHere w e q.size q.chain q.elig q.regs = false) (body : State → Nat → Nat → Weave → Entry → Mask → Done) :
    laneIssue s q body = .next (laneEnd c k e q.size q.chain (body (laneState s c k w) c k w e (activeMask w e q.guard))) := by
  simp only [laneIssue, h.focus, h.issues, laneBody, begin_turn h, getWeave_putWeave_self, hl, laneState, Bool.false_eq_true,
    if_false]

/-! ## The end -/

theorem held_addEntry (l : List Entry) (e : Entry) : (held (addEntry l e)).length ≤ (held l).length + 1 := by
  induction l with
  | nil => simp only [addEntry, held]; exact (List.length_filter_le _ _).trans (by simp)
  | cons x r ih =>
    simp only [addEntry]
    split
    · have h1 : (held (mergeEntry x e :: r)).length ≤ (held r).length + 1 := by
        simp only [held, List.filter_cons]; split <;> simp
      have h2 : (held r).length ≤ (held (x :: r)).length := by
        simp only [held, List.filter_cons]; split <;> simp
      omega
    · simp only [held, List.filter_cons] at ih ⊢
      split <;> (try simp only [List.length_cons]) <;> omega

theorem addEntry_ne_nil (l : List Entry) (e : Entry) : addEntry l e ≠ [] := by
  cases l with
  | nil => simp [addEntry]
  | cons x r => simp only [addEntry]; split <;> simp

/-- An entry added stands, ready, for each of its threads. -/
theorem addEntry_self (l : List Entry) (e : Entry) :
    ∃ x ∈ addEntry l e, x.pc = e.pc ∧ x.state = e.state ∧ x.mask &&& e.mask = e.mask := by
  induction l with
  | nil => exact ⟨e, by simp [addEntry], rfl, rfl, by simp⟩
  | cons x r ih =>
    simp only [addEntry]
    split
    · rename_i hm
      refine ⟨mergeEntry x e, by simp, ?_, ?_, ?_⟩
      · simp only [merges, Bool.and_eq_true, beq_iff_eq] at hm; exact hm.1
      · simp only [merges, Bool.and_eq_true] at hm
        cases hs : x.state <;> cases he : e.state <;> simp_all [mergeEntry]
      · simp only [mergeEntry]
        apply BitVec.eq_of_getLsbD_eq; intro i hi
        simp only [BitVec.getLsbD_and, BitVec.getLsbD_or]
        cases x.mask.getLsbD i <;> cases e.mask.getLsbD i <;> rfl
    · obtain ⟨y, hy, h2⟩ := ih
      exact ⟨y, List.mem_cons_of_mem _ hy, h2⟩

/-- An entry of the frontier stands after another is added. -/
theorem addEntry_keeps (l : List Entry) (e x : Entry) (h : x ∈ l) :
    ∃ y ∈ addEntry l e, y.mask &&& x.mask = x.mask ∧ y.pc = x.pc ∧ y.state = x.state := by
  induction l with
  | nil => cases h
  | cons z r ih =>
    simp only [addEntry]
    split
    · rcases List.mem_cons.mp h with rfl | h
      · refine ⟨mergeEntry x e, by simp, ?_, rfl, rfl⟩
        simp only [mergeEntry]
        apply BitVec.eq_of_getLsbD_eq; intro i hi
        simp only [BitVec.getLsbD_and, BitVec.getLsbD_or]
        cases x.mask.getLsbD i <;> cases e.mask.getLsbD i <;> rfl
      · exact ⟨x, List.mem_cons_of_mem _ h, by simp, rfl, rfl⟩
    · rcases List.mem_cons.mp h with rfl | h
      · exact ⟨x, by simp, by simp, rfl, rfl⟩
      · obtain ⟨y, hy, h2⟩ := ih h
        exact ⟨y, List.mem_cons_of_mem _ hy, h2⟩

theorem spillDown_held (n : Nat) {s : State} {c k : Nat} {w : Weave} (m : Mask) (hw : getWeave s c k = some w)
    (h : (held w.frontier).length ≤ 16) : spillDown n s c k m = s := by
  cases n with
  | zero => rfl
  | succ n => simp only [spillDown, hw, h, if_true]

theorem settleWeave_live {s : State} {c k : Nat} {w : Weave} (hw : getWeave s c k = some w) (h : w.frontier ≠ []) :
    settleWeave s c k = s := by
  have hz : w.frontier.isEmpty = false := by cases hf : w.frontier <;> simp_all
  simp only [settleWeave, hw, hz, Bool.false_and, Bool.false_eq_true, if_false]

/-- An entry whose threads all fall through moves to the next instruction; nothing else takes place. -/
theorem retire_next {s : State} {c k : Nat} {e : Entry} {w : Weave} (hw : getWeave s c k = some w) (hm : e.mask ≠ 0#32)
    (hr : (held (w.frontier.filter (fun x => x.mask &&& e.mask == 0#32))).length < 16) (size : Nat) (ch : Bool) :
    ∃ w', retire s c k e size ch [] = putWeave { s with seq := s.seq + 1 } c k w' ∧ w'.body = w.body ∧
      w'.vtags = w.vtags ∧ w'.stags = w.stags ∧ w'.lstat = w.lstat ∧ w'.marks = w.marks ∧
      w'.stand e.mask (fun _ => e.pc + BitVec.ofNat 64 size) ∧ w.others w' e.mask := by
  let E := entryAt (e.pc + BitVec.ofNat 64 size) e.prio e.mask .ready
  let F := addEntry (w.frontier.filter (fun x => x.mask &&& e.mask == 0#32)) E
  let C := chainAfter w e ch [(e.mask, .next)]
  let w' : Weave := { w with frontier := F, chain := C }
  have hg : groupsOf e.mask [] = [(e.mask, .next)] := rfl
  have hp : ∀ hd n, pieces e hd size n [(e.mask, .next)] = [E] := by
    intro hd n; simp [pieces, parkedPiece, hm, E]
  have hs : (held F).length ≤ 16 := by
    have := held_addEntry (w.frontier.filter (fun x => x.mask &&& e.mask == 0#32)) E
    simp only [F]; omega
  have hst : w'.stand e.mask (fun _ => e.pc + BitVec.ofNat 64 size) := by
    obtain ⟨x, h1, h2, h3, h4⟩ := addEntry_self (w.frontier.filter (fun x => x.mask &&& e.mask == 0#32)) E
    intro u hu
    refine ⟨x, h1, ?_, h3, h2⟩
    have := congrArg (fun m : Mask => m.getLsbD u) h4
    simp only [E, entryAt, BitVec.getLsbD_and, hu, Bool.and_true] at this
    exact this
  have hot : w.others w' e.mask := by
    intro x hx hm'
    exact addEntry_keeps _ E x (by simp [hx, hm'])
  refine ⟨w', ?_, rfl, rfl, rfl, rfl, rfl, hst, hot⟩
  have hw2 : getWeave { s with seq := s.seq + 1 } c k = some w := hw
  simp only [retire, hw, hg, moveThreads, anyPark, anyGone, anyBar, poisonThreads, List.flatMap_cons, List.flatMap_nil, List.nil_append, List.any_cons, List.any_nil, List.find?,
    Option.map, Bool.and_false, Bool.or_false, Bool.false_eq_true, if_false, nextSeq, hp, regroup, List.foldl]
  rw [spillDown_held 32 _ (getWeave_putWeave_self _ _ _ _) hs, settleWeave_live (getWeave_putWeave_self _ _ _ _) (addEntry_ne_nil _ _)]

theorem kept_retire {s : State} {c k : Nat} {w' : Weave} : Kept s (putWeave { s with seq := s.seq + 1 } c k w') c k :=
  (kept_nextSeq s c k).trans (kept_putWeave _ _ _ _)

end Sys2Proof.Machine
end

