-- ==== Sys2Proof/Laws/Lane.lean ====
section
/-!
SUPPORT. A lane arithmetic instruction on its turn: the end of a lane instruction, the threads' results as they are written, and the
whole of it in one lemma, which the statements about the lane forms cite.
-/

namespace Sys2Proof.Machine

open Sys2Proof

/-! ## Names of results -/

@[simp] theorem refEntry_rest (x : Core) (n : Nat) (b : Bool) : (refEntry x n b).rest = x.rest := by
  unfold refEntry; split <;> rfl

@[simp] theorem refEntry_weaves (x : Core) (n : Nat) (b : Bool) : (refEntry x n b).weaves = x.weaves := by
  unfold refEntry; split <;> rfl

theorem untagV_spec (rs : List Nat) (x : Core) (w : Weave) :
    (untagV x w rs).1.rest = x.rest ∧ (untagV x w rs).1.weaves = x.weaves ∧ ∃ g, (untagV x w rs).2 = { w with vtags := g } := by
  unfold untagV
  induction rs generalizing x w with
  | nil => exact ⟨rfl, rfl, w.vtags, rfl⟩
  | cons r rs ih =>
    simp only [List.foldl]
    split
    · exact ih x w
    · obtain ⟨h1, h2, g, h3⟩ := ih (setVTag x w r 0).1 (setVTag x w r 0).2
      refine ⟨h1.trans (by simp [setVTag]), h2.trans (by simp [setVTag]), g, h3.trans rfl⟩

theorem untagS_spec (rs : List Nat) (x : Core) (w : Weave) :
    (untagS x w rs).1.rest = x.rest ∧ (untagS x w rs).1.weaves = x.weaves ∧ ∃ g, (untagS x w rs).2 = { w with stags := g } := by
  unfold untagS
  induction rs generalizing x w with
  | nil => exact ⟨rfl, rfl, w.stags, rfl⟩
  | cons r rs ih =>
    simp only [List.foldl]
    split
    · exact ih x w
    · obtain ⟨h1, h2, g, h3⟩ := ih (setSTag x w r 0).1 (setSTag x w r 0).2
      refine ⟨h1.trans (by simp [setSTag]), h2.trans (by simp [setSTag]), g, h3.trans rfl⟩

theorem rest_weaves (x : Core) (l : Sparse Weave) : ({ x with weaves := l } : Core).rest = x.rest := rfl

/-- Tags dropped: the weave's names for results and the core's value store alone change. -/
theorem untag_spec {s : State} {c k : Nat} {w : Weave} (hw : getWeave s c k = some w) (wv ws : List Nat) :
    ∃ w', getWeave (untag s c k wv ws) c k = some w' ∧ w'.body = w.body ∧ w'.frontier = w.frontier ∧
      Kept s (untag s c k wv ws) c k := by
  by_cases he : (wv.isEmpty && ws.isEmpty) = true
  · exact ⟨w, by simp only [untag, hw, he, if_true], rfl, rfl, by simp only [untag, hw, he, if_true]; exact Kept.refl _ _ _⟩
  · obtain ⟨a1, a2, g, a3⟩ := untagV_spec wv (getCore s c) w
    obtain ⟨b1, b2, g', b3⟩ := untagS_spec ws (untagV (getCore s c) w wv).1 (untagV (getCore s c) w wv).2
    have hb : (untagS (untagV (getCore s c) w wv).1 (untagV (getCore s c) w wv).2 ws).2 = { w with vtags := g, stags := g' } := by
      rw [b3, a3]
    have hu : untag s c k wv ws = putCore s c { (untagS (untagV (getCore s c) w wv).1 (untagV (getCore s c) w wv).2 ws).1 with
        weaves := sput (getCore s c).weaves k { w with vtags := g, stags := g' } } := by
      simp only [untag, hw, he, Bool.false_eq_true, if_false, onCore, b2, a2, hb]
    refine ⟨{ w with vtags := g, stags := g' }, ?_, rfl, rfl, ?_⟩
    · rw [hu]; simp [getWeave]
    · rw [hu]
      refine ⟨rfl, fun d hd => getCore_putCore_ne _ _ hd, ?_, fun j hj => ?_⟩
      · simp only [getCore_putCore_self, rest_weaves, b1, a1]
      · simp [getWeave, sfind_sput_ne _ _ hj]

theorem untag_chain {s : State} {c k : Nat} {w w' : Weave} {wv ws : List Nat} (hw : getWeave s c k = some w)
    (h : getWeave (untag s c k wv ws) c k = some w') : w'.chain = w.chain := by
  by_cases he : (wv.isEmpty && ws.isEmpty) = true
  · simp only [untag, hw, he, if_true] at h; cases h; rfl
  · obtain ⟨a1, a2, g, a3⟩ := untagV_spec wv (getCore s c) w
    obtain ⟨b1, b2, g', b3⟩ := untagS_spec ws (untagV (getCore s c) w wv).1 (untagV (getCore s c) w wv).2
    have hb : (untagS (untagV (getCore s c) w wv).1 (untagV (getCore s c) w wv).2 ws).2 = { w with vtags := g, stags := g' } := by
      rw [b3, a3]
    have hu : untag s c k wv ws = putCore s c { (untagS (untagV (getCore s c) w wv).1 (untagV (getCore s c) w wv).2 ws).1 with
        weaves := sput (getCore s c).weaves k { w with vtags := g, stags := g' } } := by
      simp only [untag, hw, he, Bool.false_eq_true, if_false, onCore, b2, a2, hb]
    rw [hu] at h
    simp [getWeave] at h
    rw [← h]

/-! ## The end of a lane instruction -/

theorem kept_countCore (s : State) (c k n m : Nat) : Kept s (onCore s c (fun x => countCore x n m)) c k :=
  kept_onCore _ _ _ _ (fun _ => rfl) (fun _ => rfl)

/-- A lane instruction whose threads all fall through: beside its effect the end changes where the threads stand, the weave's
names for results and counters, and the core's counters and value store. -/
theorem laneEnd_spec {c k : Nat} {e : Entry} {size : Nat} {ch : Bool} {d : Done} {w : Weave} (hd : d.wait = none) (hg : d.gs = [])
    (hw : getWeave d.s c k = some w) (hm : e.mask ≠ 0#32)
    (hr : (held (w.frontier.filter (fun x => x.mask &&& e.mask == 0#32))).length < 16) :
    ∃ w', getWeave (laneEnd c k e size ch d) c k = some w' ∧ w'.body = w.body ∧
      (w'.stand e.mask (fun _ => e.pc + BitVec.ofNat 64 size) ∧ w.others w' e.mask) ∧ Kept d.s (laneEnd c k e size ch d) c k := by
  obtain ⟨w1, h1, b1, f1, k1⟩ := untag_spec hw d.wv d.ws
  have h2 : getWeave (onCore (untag d.s c k d.wv d.ws) c (fun x => countCore x 0x001 1)) c k = some w1 := by
    exact (getWeave_onCore _ c (fun x => countCore x 0x001 1) (fun _ => rfl) c k).trans h1
  let w2 := countWeave w1 0x103 (max 1 d.cycles)
  have f2 : w2.frontier = w.frontier := f1
  obtain ⟨w3, h3, b3, -, -, -, -, p3, q3⟩ := retire_next
    (s := putWeave (onCore (untag d.s c k d.wv d.ws) c (fun x => countCore x 0x001 1)) c k w2) (w := w2)
    (getWeave_putWeave_self _ _ _ _) hm (by rw [f2]; exact hr) size ch
  have he : laneEnd c k e size ch d =
      retire (putWeave (onCore (untag d.s c k d.wv d.ws) c (fun x => countCore x 0x001 1)) c k w2) c k e size ch [] := by
    simp only [laneEnd, hd, onWeave_some h2, hg, w2]
  rw [he, h3]
  refine ⟨w3, getWeave_putWeave_self _ _ _ _, ?_, ⟨p3, fun x hx hm' => q3 x (by rw [f2]; exact hx) hm'⟩, ?_⟩
  · exact b3.trans b1
  · exact ((k1.trans (kept_countCore _ _ _ _ _)).trans (kept_putWeave _ _ _ _)).trans kept_retire

/-! ## The threads' results -/

theorem threadsOf_lt {m : Mask} {t : Nat} (h : t ∈ threadsOf m) : t < 32 := by
  simp only [threadsOf, allThreads, List.mem_filter, List.mem_range] at h; exact h.1

theorem mem_threadsOf {m : Mask} {t : Nat} : t ∈ threadsOf m ↔ t < 32 ∧ m.getLsbD t = true := by
  simp [threadsOf, allThreads]

theorem nodup_threadsOf (m : Mask) : (threadsOf m).Nodup := (List.nodup_range).filter _

/-- Runs without a cause, each thread's generator, value and flags given by functions of the thread. -/
def cleanRuns (l : List Nat) (g : Nat → Double) (v : Nat → Double) (f : Nat → Flags) : List Run :=
  l.map (fun t => { tid := t, gen := g t, res := .ok (v t, f t) })

/-- What the runs leave but for registers, predicates, flags and generators. -/
theorem applyRuns_base (w : Weave) (supp : Bool) (d : LDst) (l : List Run) : (applyRuns w supp d l).base = w.base := by
  induction l generalizing w with
  | nil => rfl
  | cons r rest ih =>
    simp only [applyRuns]
    split
    · refine (ih _).trans ?_
      split
      · rfl
      · cases d <;> simp only [writeDst] <;> (try split) <;> (try rfl)
        all_goals (unfold writeP; repeat' split) <;> rfl
    · exact (ih _).trans rfl

theorem applyRuns_frontier (w : Weave) (supp : Bool) (d : LDst) (l : List Run) : (applyRuns w supp d l).frontier = w.frontier := by
  induction l generalizing w with
  | nil => rfl
  | cons r rest ih =>
    simp only [applyRuns]
    split
    · refine (ih _).trans ?_
      split
      · rfl
      · cases d <;> simp only [writeDst] <;> (try split) <;> (try rfl)
        all_goals (unfold writeP; repeat' split) <;> rfl
    · exact (ih _).trans rfl

/-- Two weaves with one body read alike. -/
theorem readV_body {w w' : Weave} (h : w'.body = w.body) (t r : Nat) : readV w' t r = readV w t r := by
  have : w'.body.v = w.body.v := by rw [h]
  have : w'.v = w.v := this
  simp only [readV, this]
theorem readP_body {w w' : Weave} (h : w'.body = w.body) (t p : Nat) : readP w' t p = readP w t p := by
  have : w'.body.preds = w.body.preds := by rw [h]
  have : w'.preds = w.preds := this
  simp only [readP, this]
theorem readFlags_body {w w' : Weave} (h : w'.body = w.body) (t : Nat) : readFlags w' t = readFlags w t := by
  have : w'.body.flags = w.body.flags := by rw [h]
  have : w'.flags = w.flags := this
  simp only [readFlags, this]
theorem readGen_body {w w' : Weave} (h : w'.body = w.body) (t : Nat) : readGen w' t = readGen w t := by
  have : w'.body.gens = w.body.gens := by rw [h]
  have : w'.gens = w.gens := this
  simp only [readGen, this]
theorem base_body {w w' : Weave} (h : w'.body = w.body) : w'.base = w.base := by
  simp only [Weave.base, h]

theorem extract_low (x : Double) : x.extractLsb' 0 32 = x.setWidth 32 := by
  apply BitVec.eq_of_getLsbD_eq; intro i hi
  simp [hi]

theorem readV_writeDst (w : Weave) {t t' : Nat} (d : LDst) (x : Double) (r : Nat) (ht : t < 32) (ht' : t' < 32) :
    readV (writeDst w t d x) t' r = if t' = t then d.writes x r (readV w t' r) else readV w t' r := by
  cases d with
  | reg n wide =>
    cases wide
    · simp only [writeDst, Bool.false_eq_true, if_false, readV_writeV w _ _ _ ht ht', LDst.writes]
      by_cases h1 : t' = t <;> by_cases h2 : r = n <;> simp [h1, h2]
    · simp only [writeDst, if_true, writeVD, readV_writeV _ _ _ _ ht ht', LDst.writes, extract_low]
      by_cases h1 : t' = t
      · by_cases h2 : r = n
        · subst h2; simp [h1]
        · by_cases h3 : r = n + 1 <;> simp [h1, h2, h3]
      · simp [h1]
  | pred p => simp [writeDst, LDst.writes]
  | pred2 p => simp [writeDst, LDst.writes]

theorem readP_writeP_any (w : Weave) {t t' : Nat} (p p' : Nat) (b : Bool) (ht : t < 32) (ht' : t' < 32) :
    readP (writeP w t p b) t' p' = if t' = t ∧ p' = p ∧ p ≠ 7 then b else readP w t' p' := by
  by_cases h : p = 7
  · simp [writeP, h]
  · rw [readP_writeP w p p' b ht ht' h]
    by_cases h1 : t' = t <;> by_cases h2 : p' = p <;> simp [h1, h2, h]

theorem readP_writeDst (w : Weave) {t t' : Nat} (d : LDst) (x : Double) (p : Nat) (ht : t < 32) (ht' : t' < 32) :
    readP (writeDst w t d x) t' p = if t' = t then d.sets x p (readP w t' p) else readP w t' p := by
  cases d with
  | reg n wide =>
    cases wide <;> simp [writeDst, LDst.sets, writeVD]
  | pred q =>
    simp only [writeDst, LDst.sets, readP_writeP_any w _ _ _ ht ht']
    by_cases h1 : t' = t <;> by_cases h2 : p = q <;> by_cases h3 : q = 7 <;> simp [h1, h2, h3]
  | pred2 q =>
    simp only [writeDst, LDst.sets, readP_writeP_any _ _ _ _ ht ht']
    by_cases h1 : t' = t
    · by_cases h2 : p = q + 1 <;> by_cases h3 : q + 1 = 7 <;> by_cases h4 : p = q <;> by_cases h5 : q = 7 <;> simp [h1, h2, h3, h4, h5]
    · simp [h1]

@[simp] theorem readFlags_writeDst (w : Weave) (t : Nat) (d : LDst) (x : Double) (t' : Nat) :
    readFlags (writeDst w t d x) t' = readFlags w t' := by
  cases d with
  | reg n wide => cases wide <;> simp [writeDst, writeVD]
  | pred p => simp [writeDst]
  | pred2 p => simp [writeDst]
@[simp] theorem readGen_writeDst (w : Weave) (t : Nat) (d : LDst) (x : Double) (t' : Nat) :
    readGen (writeDst w t d x) t' = readGen w t' := by
  cases d with
  | reg n wide => cases wide <;> simp [writeDst, writeVD]
  | pred p => simp [writeDst]
  | pred2 p => simp [writeDst]

/-- What runs without causes leave, thread by thread (R219, R222, R224, R225). -/
theorem applyRuns_clean (l : List Nat) (hl : ∀ t ∈ l, t < 32) (hn : l.Nodup) (g : Nat → Double) (v : Nat → Double) (f : Nat → Flags)
    (supp : Bool) (d : LDst) (w : Weave) (t : Nat) (ht : t < 32) :
    (∀ r, readV (applyRuns w supp d (cleanRuns l g v f)) t r
        = if t ∈ l ∧ supp = false then d.writes (v t) r (readV w t r) else readV w t r) ∧
    (∀ p, readP (applyRuns w supp d (cleanRuns l g v f)) t p
        = if t ∈ l ∧ supp = false then d.sets (v t) p (readP w t p) else readP w t p) ∧
    readFlags (applyRuns w supp d (cleanRuns l g v f)) t = (if t ∈ l then readFlags w t ||| f t else readFlags w t) ∧
    readGen (applyRuns w supp d (cleanRuns l g v f)) t = (if t ∈ l then g t else readGen w t) := by
  induction l generalizing w with
  | nil => simp [cleanRuns, applyRuns]
  | cons x r ih =>
    have hx : x < 32 := hl x (by simp)
    have hr : ∀ t ∈ r, t < 32 := fun y hy => hl y (List.mem_cons_of_mem _ hy)
    obtain ⟨hxr, hnr⟩ := List.nodup_cons.mp hn
    cases supp
    · obtain ⟨i1, i2, i3, i4⟩ := ih hr hnr (raiseFlags (writeDst (writeGen w x (g x)) x d (v x)) x (f x))
      have e : applyRuns w false d (cleanRuns (x :: r) g v f)
          = applyRuns (raiseFlags (writeDst (writeGen w x (g x)) x d (v x)) x (f x)) false d (cleanRuns r g v f) := rfl
      rw [e]
      by_cases h : t = x
      · subst h
        refine ⟨fun q => (i1 q).trans ?_, fun q => (i2 q).trans ?_, i3.trans ?_, i4.trans ?_⟩ <;>
          simp [hxr, raiseFlags, readV_writeDst _ d _ _ hx hx, readP_writeDst _ d _ _ hx hx, readFlags_writeFlags, readGen_writeGen]
      · refine ⟨fun q => (i1 q).trans ?_, fun q => (i2 q).trans ?_, i3.trans ?_, i4.trans ?_⟩ <;>
          simp [h, raiseFlags, readV_writeDst _ d _ _ hx ht, readP_writeDst _ d _ _ hx ht, readFlags_writeFlags, readGen_writeGen]
    · obtain ⟨i1, i2, i3, i4⟩ := ih hr hnr (raiseFlags (writeGen w x (g x)) x (f x))
      have e : applyRuns w true d (cleanRuns (x :: r) g v f)
          = applyRuns (raiseFlags (writeGen w x (g x)) x (f x)) true d (cleanRuns r g v f) := rfl
      rw [e]
      by_cases h : t = x
      · subst h
        refine ⟨fun q => (i1 q).trans ?_, fun q => (i2 q).trans ?_, i3.trans ?_, i4.trans ?_⟩ <;>
          simp [hxr, raiseFlags, readFlags_writeFlags, readGen_writeGen]
      · refine ⟨fun q => (i1 q).trans ?_, fun q => (i2 q).trans ?_, i3.trans ?_, i4.trans ?_⟩ <;>
          simp [h, raiseFlags, readFlags_writeFlags, readGen_writeGen]

/-! ## A lane arithmetic form on its turn -/

theorem runGroups_clean (l : List Nat) (g : Nat → Double) (v : Nat → Double) (f : Nat → Flags) : runGroups (cleanRuns l g v f) = [] := by
  induction l with
  | nil => rfl
  | cons x r ih => simp [runGroups, cleanRuns] at ih ⊢

theorem kept_onLane (s : State) (c k n : Nat) (f : Lane → Lane) : Kept s (onCore s c (fun x => onLane x n f)) c k :=
  kept_onCore _ _ _ _ (fun _ => rfl) (fun _ => rfl)

/-- The registers that a lane arithmetic form checks against the weave's allotment (R32). -/
def AluForm.regs (f : AluForm) : List (Nat × Nat) :=
  opdRegs f.a ++ opdRegs f.b ++ opdRegs f.c ++ (match f.dst with | .reg d wide => [(d, if wide then 2 else 1)] | _ => [])

/-- A lane arithmetic form on its turn, not looked up, and no thread raising a cause: every active thread's result, flags and
generator, and nothing else, change. -/
theorem laneAlu_spec (f : AluForm) (copy : Bool) {s : State} {c k : Nat} {e : Entry} {w : Weave} (h : LaneTurn s c k e w)
    (hl : illegalHere w e f.size f.chain (mayChain f.dst) f.regs = false) (hm : w.unlooked e) (g v : Nat → Double) (fl : Nat → Flags)
    (hrun : ∀ t ∈ threadsOf (activeMask w e f.guard),
      runThread f (laneCore s c k w) w (resolve w.mode f.round) t = { tid := t, gen := g t, res := .ok (v t, fl t) }) :
    ∃ t w', laneAlu f copy s = .next t ∧ getWeave t c k = some w' ∧ Kept s t c k ∧ w'.base = w.base ∧
      (w'.stand e.mask (fun _ => e.pc + BitVec.ofNat 64 f.size) ∧ w.others w' e.mask) ∧
      w'.body = (applyRuns w f.supp f.dst (cleanRuns (threadsOf (activeMask w e f.guard)) g v fl)).body := by
  have hrs : (threadsOf (activeMask w e f.guard)).map (runThread f (laneCore s c k w) w (resolve w.mode f.round))
      = cleanRuns (threadsOf (activeMask w e f.guard)) g v fl := List.map_congr_left hrun
  generalize hw1 : applyRuns w f.supp f.dst (cleanRuns (threadsOf (activeMask w e f.guard)) g v fl) = w1
  have hbase : w1.base = w.base := hw1 ▸ applyRuns_base _ _ _ _
  have hfr : w1.frontier = w.frontier := hw1 ▸ applyRuns_frontier _ _ _ _
  have hnot : lookable w e (activeMask w e f.guard) f.supp f.key f.guard (resolve w.mode f.round) = false := by
    rcases hm with hm | hm
    · simp [lookable, hm]
    · rw [lookable, beq_eq_false_iff_ne.mpr hm]; simp
  obtain ⟨d, hd, hk, hwv, hg, hgw⟩ : ∃ d, aluBody f copy (laneState s c k w) c k w e (activeMask w e f.guard) = d ∧
      Kept s d.s c k ∧ d.wait = none ∧ d.gs = [] ∧ getWeave d.s c k = some w1 := by
    refine ⟨_, rfl, ?_⟩
    have hb : aluBody f copy (laneState s c k w) c k w e (activeMask w e f.guard) =
        commitRuns (laneState s c k w) c k w f.dst f.supp (shiftsHistory f.dst) f.occ none
          (cleanRuns (threadsOf (activeMask w e f.guard)) g v fl) := by
      simp only [aluBody, hnot, Bool.false_and, Bool.false_eq_true, if_false]
      congr 1
    rw [hb]
    simp only [commitRuns, hw1, runGroups_clean, getWeave_putWeave_self, and_true]
    split
    · exact ((kept_laneState s c k w).trans (kept_onLane _ _ _ _ _)).trans (kept_putWeave _ _ _ _)
    · exact (kept_laneState s c k w).trans (kept_putWeave _ _ _ _)
  obtain ⟨w', h1, h2, ⟨h3, h5⟩, h4⟩ := laneEnd_spec (size := f.size) (ch := f.chain) hwv hg hgw h.live (by rw [hfr]; exact h.room)
  refine ⟨_, w', laneIssue_turn h _ hl _, ?_, ?_, ?_, ⟨h3, fun x hx hm' => h5 x (by rw [hfr]; exact hx) hm'⟩, h2⟩
  · simp only [hd]; exact h1
  · simp only [hd]; exact hk.trans h4
  · exact (base_body h2).trans hbase

theorem getLsbD_maskOf (l : List Nat) (hl : ∀ x ∈ l, x < 32) (u : Nat) : (maskOf l).getLsbD u = decide (u ∈ l) := by
  have hb : ∀ x, x < 32 → (1#32 <<< x).getLsbD u = decide (u = x) := by
    intro x hx
    simp only [BitVec.getLsbD_shiftLeft, BitVec.getLsbD_one]
    by_cases h : u = x
    · subst h; simp [hx]
    · by_cases h2 : u < x
      · simp [h2, h]
      · have : u - x ≠ 0 := by omega
        simp [h, this]
  have hg : ∀ (l : List Nat), (∀ x ∈ l, x < 32) → ∀ m : Mask,
      (l.foldl (fun m t => m ||| (1#32 <<< t)) m).getLsbD u = (m.getLsbD u || decide (u ∈ l)) := by
    intro l
    induction l with
    | nil => intro _ m; simp
    | cons x r ih =>
      intro hl m
      simp only [List.foldl]
      rw [ih (fun y hy => hl y (List.mem_cons_of_mem _ hy)), BitVec.getLsbD_or, hb x (hl x (by simp)), Bool.or_assoc,
        ← Bool.decide_or]
      simp only [List.mem_cons]
  simpa [maskOf] using hg l hl 0#32

theorem mem_activeMask {w : Weave} {e : Entry} {g : Guard} {u : Nat} : u ∈ threadsOf (activeMask w e g) ↔ acts w e g u := by
  rw [mem_threadsOf]
  simp only [activeMask, acts]
  rw [getLsbD_maskOf _ (fun x hx => threadsOf_lt (List.mem_filter.mp hx).1)]
  simp only [List.mem_filter, mem_threadsOf, bne_iff_ne, ne_eq, decide_eq_true_eq]
  constructor
  · rintro ⟨h, ⟨_, h1⟩, h2⟩; exact ⟨h, h1, h2⟩
  · rintro ⟨h, h1, h2⟩; exact ⟨h, ⟨h, h1⟩, h2⟩

/-- The statement form of it. -/
theorem laneAlu_done (f : AluForm) (copy : Bool) {s : State} {c k : Nat} {e : Entry} {w : Weave} (h : LaneTurn s c k e w)
    (hl : illegalHere w e f.size f.chain (mayChain f.dst) f.regs = false) (hm : w.unlooked e) (g v : Nat → Double) (fl : Nat → Flags)
    (hrun : ∀ u, acts w e f.guard u →
      runThread f (laneCore s c k w) w (resolve w.mode f.round) u = { tid := u, gen := g u, res := .ok (v u, fl u) }) :
    ∃ t, laneAlu f copy s = .next t ∧ AluDone s t c k e w f.size f.guard f.supp f.dst v fl g := by
  obtain ⟨t, w', h1, h2, h3, h4, ⟨h5, h6⟩, h7⟩ := laneAlu_spec f copy h hl hm g v fl (fun u hu => hrun u (mem_activeMask.mp hu))
  refine ⟨t, h1, h3, w', h2, h4, h5, h6, fun u hu => ?_⟩
  obtain ⟨i1, i2, i3, i4⟩ := applyRuns_clean _ (fun u hu => threadsOf_lt hu) (nodup_threadsOf (activeMask w e f.guard)) g v fl f.supp
    f.dst w u hu
  have hu' : (u ∈ threadsOf (activeMask w e f.guard)) ↔ acts w e f.guard u := mem_activeMask
  refine ⟨fun ha => ⟨fun r => ?_, fun p => ?_, ?_, ?_⟩, fun ha => ⟨fun r => ?_, fun p => ?_, ?_, ?_⟩⟩
  · rw [readV_body h7, i1]; cases f.supp <;> simp [hu', ha]
  · rw [readP_body h7, i2]; cases f.supp <;> simp [hu', ha]
  · rw [readFlags_body h7, i3]; simp [hu', ha]
  · rw [readGen_body h7, i4]; simp [hu', ha]
  · rw [readV_body h7, i1]; simp [hu', ha]
  · rw [readP_body h7, i2]; simp [hu', ha]
  · rw [readFlags_body h7, i3]; simp [hu', ha]
  · rw [readGen_body h7, i4]; simp [hu', ha]

end Sys2Proof.Machine
end

