-- ==== Sys2Proof/Laws/Moves.lean ====
section
/-!
SUPPORT. Where the end of an instruction leaves the threads of a weave, group by group, and a lane instruction's whole turn from its
own effect.
-/

namespace Sys2Proof.Machine

open Sys2Proof

/-! ## Masks -/

theorem and_self_trans {a b m : Mask} (h : a &&& b = b) (g : b &&& m = m) : a &&& m = m := by
  rw [← g, ← BitVec.and_assoc, h]

theorem getLsbD_of_and {a m : Mask} (h : a &&& m = m) {u : Nat} (hu : m.getLsbD u = true) : a.getLsbD u = true := by
  have := congrArg (fun x : Mask => x.getLsbD u) h
  simpa [BitVec.getLsbD_and, hu] using this

theorem ne_zero_of_getLsbD {m : Mask} {u : Nat} (hu : m.getLsbD u = true) : m ≠ 0#32 := by
  rintro rfl; simp at hu

/-! ## Entries added to a frontier -/

theorem addAll_held (l : List Entry) (f : List Entry) : (held (l.foldl addEntry f)).length ≤ (held f).length + l.length := by
  induction l generalizing f with
  | nil => simp
  | cons x r ih =>
    have h1 := ih (addEntry f x)
    have h2 := held_addEntry f x
    simp only [List.foldl, List.length_cons]; omega

theorem addAll_keeps (l : List Entry) (f : List Entry) (x : Entry) (h : x ∈ f) :
    ∃ y ∈ l.foldl addEntry f, y.mask &&& x.mask = x.mask ∧ y.pc = x.pc ∧ y.state = x.state := by
  induction l generalizing f x with
  | nil => exact ⟨x, h, by simp, rfl, rfl⟩
  | cons z r ih =>
    obtain ⟨y, hy, h1, h2, h3⟩ := addEntry_keeps f z x h
    obtain ⟨y', hy', g1, g2, g3⟩ := ih _ _ hy
    exact ⟨y', hy', and_self_trans g1 h1, g2.trans h2, g3.trans h3⟩

theorem addAll_self (l : List Entry) (f : List Entry) (p : Entry) (h : p ∈ l) :
    ∃ y ∈ l.foldl addEntry f, y.mask &&& p.mask = p.mask ∧ y.pc = p.pc ∧ y.state = p.state := by
  induction l generalizing f with
  | nil => cases h
  | cons z r ih =>
    rcases List.mem_cons.mp h with rfl | h
    · obtain ⟨y, hy, h1, h2, h3⟩ := addEntry_self f p
      obtain ⟨y', hy', g1, g2, g3⟩ := addAll_keeps r _ _ hy
      exact ⟨y', hy', and_self_trans g1 h3, g2.trans h1, g3.trans h2⟩
    · exact ih _ h

theorem addEntry_parked (l : List Entry) (e x : Entry) (h : x ∈ l) (hx : x.state = .parked) : x ∈ addEntry l e := by
  induction l with
  | nil => cases h
  | cons z r ih =>
    simp only [addEntry]
    split
    · rename_i hm
      rcases List.mem_cons.mp h with rfl | h
      · simp [merges, hx] at hm
      · exact List.mem_cons_of_mem _ h
    · rcases List.mem_cons.mp h with rfl | h
      · simp
      · exact List.mem_cons_of_mem _ (ih h)

theorem addEntry_new_parked (l : List Entry) (e : Entry) (he : e.state = .parked) : e ∈ addEntry l e := by
  induction l with
  | nil => simp [addEntry]
  | cons z r ih =>
    simp only [addEntry]
    split
    · rename_i hm; cases hz : z.state <;> simp [merges, he, hz] at hm
    · exact List.mem_cons_of_mem _ ih

theorem addAll_parked (l : List Entry) (f : List Entry) (p : Entry) (hp : p.state = .parked) (h : p ∈ l ∨ p ∈ f) :
    p ∈ l.foldl addEntry f := by
  induction l generalizing f with
  | nil => simpa using h
  | cons z r ih =>
    refine ih _ ?_
    rcases h with h | h
    · rcases List.mem_cons.mp h with rfl | h
      · exact .inr (addEntry_new_parked _ _ hp)
      · exact .inl h
    · exact .inr (addEntry_parked _ _ _ h hp)

theorem addAll_ne_nil (l f : List Entry) (h : l ≠ [] ∨ f ≠ []) : l.foldl addEntry f ≠ [] := by
  have h2 : ∀ (l f : List Entry), f ≠ [] → l.foldl addEntry f ≠ [] := by
    intro l; induction l with
    | nil => intro f h; exact h
    | cons x r ih => intro f _; exact ih _ (addEntry_ne_nil _ _)
  cases l with
  | nil => exact h.resolve_left (by simp)
  | cons x r => exact h2 r (addEntry f x) (addEntry_ne_nil _ _)

theorem addEntry_state (l : List Entry) (e y : Entry) (h : y ∈ addEntry l e) : y.state = e.state ∨ ∃ x ∈ l, y.state = x.state := by
  induction l with
  | nil => simp only [addEntry, List.mem_singleton] at h; exact .inl (h ▸ rfl)
  | cons z r ih =>
    simp only [addEntry] at h
    split at h
    · rcases List.mem_cons.mp h with rfl | h
      · exact .inr ⟨z, by simp, rfl⟩
      · exact .inr ⟨y, List.mem_cons_of_mem _ h, rfl⟩
    · rcases List.mem_cons.mp h with rfl | h
      · exact .inr ⟨y, by simp, rfl⟩
      · rcases ih h with h | ⟨x, h1, h2⟩
        · exact .inl h
        · exact .inr ⟨x, List.mem_cons_of_mem _ h1, h2⟩

theorem addAll_state (l f : List Entry) (y : Entry) (h : y ∈ l.foldl addEntry f) : ∃ x, (x ∈ l ∨ x ∈ f) ∧ y.state = x.state := by
  induction l generalizing f with
  | nil => exact ⟨y, .inr h, rfl⟩
  | cons z r ih =>
    obtain ⟨x, h1, h2⟩ := ih _ h
    rcases h1 with h1 | h1
    · exact ⟨x, .inl (List.mem_cons_of_mem _ h1), h2⟩
    · rcases addEntry_state _ _ _ h1 with h3 | ⟨u, h3, h4⟩
      · exact ⟨z, .inl (by simp), h2.trans h3⟩
      · exact ⟨u, .inr h3, h2.trans h4⟩

/-! ## The pieces of an entry -/

/-- The state and the place that a group gives its threads; none for those that park at the instruction or end. -/
def Go.place (e : Entry) (size : Nat) : Go → Option (EntryState × Double)
  | .next => some (.ready, e.pc + BitVec.ofNat 64 size)
  | .to pc _ => some (.ready, pc)
  | .hold st => some (st, e.pc)
  | .sleepNext wake => some (.sleeping wake, e.pc + BitVec.ofNat 64 size)
  | .parkAt pc _ _ => some (.parked, pc)
  | .park _ _ => none
  | .gone => none

theorem pieces_place (e : Entry) (head : Double) (size n : Nat) (gs : Groups) {m : Mask} {g : Go} {x : EntryState × Double}
    (h : (m, g) ∈ gs) (hm : m ≠ 0#32) (hg : g.place e size = some x) :
    ∃ p ∈ pieces e head size n gs, p.mask = m ∧ p.state = x.1 ∧ p.pc = x.2 := by
  simp only [pieces]
  have key : ∀ p : Entry, ∀ f : Mask × Go → Option Entry, f (m, g) = some p → p ∈ gs.filterMap f :=
    fun p f hf => List.mem_filterMap.mpr ⟨_, h, hf⟩
  cases g <;> simp only [Go.place, Option.some.injEq, reduceCtorEq] at hg <;> subst hg
  · exact ⟨_, List.mem_append_right _ (key (entryAt (e.pc + BitVec.ofNat 64 size) e.prio m .ready) _ (by simp only [hm, if_false])), rfl, rfl, rfl⟩
  · rename_i pc prio
    exact ⟨_, List.mem_append_right _ (key (entryAt pc prio m .ready) _ (by simp only [hm, if_false])), rfl, rfl, rfl⟩
  · rename_i st
    exact ⟨_, List.mem_append_right _ (key { entryAt e.pc e.prio m st with skipWatch := e.skipWatch &&& m, parkedAt := placeOf st n } _
      (by simp only [hm, if_false])), rfl, rfl, rfl⟩
  · rename_i wake
    exact ⟨_, List.mem_append_right _ (key (entryAt (e.pc + BitVec.ofNat 64 size) e.prio m (.sleeping wake)) _
      (by simp only [hm, if_false])), rfl, rfl, rfl⟩
  · rename_i pc prio cause
    exact ⟨_, List.mem_append_right _ (key { entryAt pc prio m .parked with cause := cause, parkedAt := n } _
      (by simp only [hm, if_false])), rfl, rfl, rfl⟩

theorem pieces_bar (e : Entry) (head : Double) (size n : Nat) (gs : Groups) (h : anyBar gs = false) (p : Entry)
    (hp : p ∈ pieces e head size n gs) (z : Nat) : p.state ≠ .atBar z := by
  simp only [pieces, List.mem_append, List.mem_filterMap] at hp
  rcases hp with hp | ⟨⟨m, g⟩, hg, hp⟩
  · split at hp
    · simp only [List.mem_singleton] at hp; subst hp; simp [entryAt]
    · cases hp
  · split at hp
    · cases hp
    · simp only [anyBar, List.any_eq_false] at h
      have hb := h _ hg
      cases g <;> simp only [Option.some.injEq, reduceCtorEq] at hp <;> subst hp <;> simp only [entryAt, ne_eq, reduceCtorEq, not_false_eq_true]
      rintro rfl
      simp at hb

/-- The groups of an instruction that have threads. -/
def occupied (gs : Groups) : Nat := (gs.filter (fun g => g.1 ≠ 0#32)).length

def Go.parks : Go → Bool
  | .park _ _ => true
  | _ => false

theorem moving_length (gs : Groups) (f : Mask × Go → Option Entry) (h0 : ∀ g, g.1 = 0#32 → f g = none)
    (h1 : ∀ g, g.2.parks = true → f g = none) :
    (gs.filterMap f).length + (gs.filter (fun g => decide (g.1 ≠ 0#32) && g.2.parks)).length ≤ occupied gs := by
  induction gs with
  | nil => simp [occupied]
  | cons g r ih =>
    simp only [occupied] at ih ⊢
    by_cases hz : g.1 = 0#32
    · simp only [List.filterMap_cons, h0 g hz, List.filter_cons, hz, ne_eq, not_true, decide_false, Bool.false_and, Bool.false_eq_true,
        if_false]
      exact ih
    · by_cases hp : g.2.parks = true
      · simp only [List.filterMap_cons, h1 g hp, List.filter_cons, hz, ne_eq, not_false_iff, decide_true, Bool.true_and, hp, if_true,
          List.length_cons] at ih ⊢
        omega
      · have hp' : g.2.parks = false := by simpa using hp
        simp only [List.filterMap_cons, List.filter_cons, hz, ne_eq, not_false_iff, decide_true, Bool.true_and, hp', Bool.false_eq_true,
          if_true, if_false, List.length_cons] at ih ⊢
        cases f g <;> simp only [List.length_cons] <;> omega

theorem parked_none {gs : Groups} (h : gs.filter (fun g => decide (g.1 ≠ 0#32) && g.2.parks) = []) : parkedPiece gs = none := by
  unfold parkedPiece
  induction gs with
  | nil => rfl
  | cons g r ih =>
    obtain ⟨m, g⟩ := g
    simp only [List.filter_cons] at h
    split at h
    · cases h
    · rename_i hn
      simp only [List.foldl]
      cases g <;> simp only [Go.parks, Bool.and_true, decide_eq_true_eq, ne_eq, not_not] at hn ⊢ <;> try exact ih h
      simp only [hn, if_true]; exact ih h

theorem pieces_length (e : Entry) (head : Double) (size n : Nat) (gs : Groups) : (pieces e head size n gs).length ≤ occupied gs := by
  simp only [pieces, List.length_append]
  have hl : ∀ f : Mask × Go → Option Entry, (∀ g, g.1 = 0#32 → f g = none) → (∀ g, g.2.parks = true → f g = none) → ∀ n,
      n ≤ (gs.filter (fun g => decide (g.1 ≠ 0#32) && g.2.parks)).length → n + (gs.filterMap f).length ≤ occupied gs := by
    intro f h0 h1 n hn
    have := moving_length gs f h0 h1
    omega
  refine hl _ (fun g hg => by simp only [hg, if_true]) (fun g hg => ?_) _ ?_
  · obtain ⟨m, g⟩ := g
    cases g <;> simp [Go.parks] at hg ⊢
  · cases hp : parkedPiece gs with
    | none => simp
    | some r =>
      have : gs.filter (fun g => decide (g.1 ≠ 0#32) && g.2.parks) ≠ [] := fun h => by rw [parked_none h] at hp; cases hp
      exact List.length_pos_iff.mpr this

/-! ## Nothing follows from the move -/

theorem settleBarrier_still {s : State} {c i z : Nat} (h : ∀ j w, getWeave s c j = some w → ∀ x ∈ w.frontier, x.state ≠ .atBar z) :
    settleBarrier s c i z = s := by
  unfold settleBarrier
  split
  · rfl
  split
  · rfl
  · dsimp only
    rw [if_neg]
    simp only [Bool.and_eq_true, List.any_eq_true, List.mem_filterMap, Option.map_eq_some_iff, decide_eq_true_eq]
    rintro ⟨-, ⟨k, w⟩, ⟨j, -, w', hw', hk⟩, y, hy, hy2⟩
    simp only [Prod.mk.injEq] at hk
    obtain ⟨rfl, rfl⟩ := hk
    exact h _ _ hw' y hy hy2

theorem settleBarriers_still {s : State} {c : Nat} (h : noBar s c) (i : Nat) : settleBarriers s c i = s := by
  unfold settleBarriers
  split
  · rfl
  · rename_i x hx
    have : ∀ l : List Circle, l.foldl (fun s z => settleBarrier s c i z.id) s = s := by
      intro l
      induction l with
      | nil => rfl
      | cons z r ih =>
        simp only [List.foldl]
        rw [settleBarrier_still (fun j w hw x hx => h j w hw x hx _)]; exact ih
    exact this _

/-! ## The move of an entry's threads -/

/-- What must hold of a weave for its threads to move as `gs` says with nothing else taking place. -/
structure Moves (s : State) (c : Nat) (w : Weave) (e : Entry) (gs : Groups) : Prop where
  room : w.fits e (occupied gs)
  left : (∃ g ∈ gs, g.1 ≠ 0#32 ∧ g.2 ≠ .gone) ∨ w.frontier.filter (fun x => x.mask &&& e.mask == 0#32) ≠ []
  plain : anyPark gs = true → w.pair = none ∧ w.region = none
  still : (anyPark gs || anyGone gs) = true → noBar s c
  bars : anyBar gs = false
  clean : poisonThreads gs = []

theorem parked_some {gs : Groups} {m : Mask} {ca : Nat} {a : Double} (h : (m, Go.park ca a) ∈ gs) (hm : m ≠ 0#32) :
    ∃ r, parkedPiece gs = some r := by
  unfold parkedPiece
  have key : ∀ (l : Groups) (acc : Option (Mask × Nat × Double)), (acc.isSome = true ∨ (m, Go.park ca a) ∈ l) →
      (l.foldl (fun acc g =>
        match g.2 with
        | .park cause addr =>
          if g.1 = 0#32 then acc
          else
            match acc with
            | none => some (g.1, cause, addr)
            | some (m, c0, a0) => some (m ||| g.1, min cause c0, if lowest g.1 < lowest m then addr else a0)
        | _ => acc) acc).isSome = true := by
    intro l
    induction l with
    | nil => intro acc h; simpa using h
    | cons x r ih =>
      intro acc h
      refine ih _ ?_
      rcases h with h | h
      · left
        obtain ⟨z, rfl⟩ := Option.isSome_iff_exists.mp h
        dsimp only
        split
        · split <;> rfl
        · rfl
      · rcases List.mem_cons.mp h with rfl | h
        · left; simp only [hm, if_false]; cases acc <;> rfl
        · exact .inr h
  have := key gs none (.inr h)
  exact Option.isSome_iff_exists.mp this

theorem pieces_ne_nil (e : Entry) (head : Double) (size n : Nat) (gs : Groups) (h : ∃ g ∈ gs, g.1 ≠ 0#32 ∧ g.2 ≠ .gone) :
    pieces e head size n gs ≠ [] := by
  obtain ⟨⟨m, g⟩, hg, hm, hn⟩ := h
  by_cases hp : ∃ x, g.place e size = some x
  · obtain ⟨x, hx⟩ := hp
    obtain ⟨p, hp, -⟩ := pieces_place e head size n gs hg hm hx
    exact List.ne_nil_of_mem hp
  · cases g <;> simp [Go.place] at hp hn
    obtain ⟨⟨m', c', a'⟩, hr⟩ := parked_some hg hm
    simp [pieces, hr]

/-- The end of an instruction whose groups move as they say. -/
theorem retire_moves {s : State} {c k : Nat} {e : Entry} {w : Weave} (hw : getWeave s c k = some w) (size : Nat) (ch : Bool) (gs : Groups)
    (h : Moves s c w e (groupsOf e.mask gs)) :
    ∃ w', retire s c k e size ch gs = putWeave { s with seq := s.seq + 1 } c k w' ∧ w'.body = w.body ∧
      (∀ m g x, (m, g) ∈ groupsOf e.mask gs → m ≠ 0#32 → g.place e size = some x →
        ∃ y ∈ w'.frontier, y.mask &&& m = m ∧ y.state = x.1 ∧ y.pc = x.2) ∧
      (∀ m ca a, parkedPiece (groupsOf e.mask gs) = some (m, ca, a) →
        ∃ y ∈ w'.frontier, y.mask = m ∧ y.state = .parked ∧ y.cause = ca ∧ y.addr = a ∧
          y.pc = headOf w e) ∧
      w'.frontier = regroup w.frontier e (pieces e (headOf w e) size s.seq (groupsOf e.mask gs)) ∧
      w.others w' e.mask := by
  generalize hG : groupsOf e.mask gs = G at h
  generalize hH : headOf w e = head
  let P := pieces e head size s.seq G
  let F := regroup w.frontier e P
  let w' : Weave := { w with frontier := F, chain := chainAfter w e ch G }
  have hkeep : w.others w' e.mask := fun x hx hm => addAll_keeps _ _ x (by simp [hx, hm])
  refine ⟨w', ?_, rfl, ?_, ?_, rfl, hkeep⟩
  · have hheld : (held F).length ≤ 16 := by
      have h1 := addAll_held P (w.frontier.filter (fun x => x.mask &&& e.mask == 0#32))
      have h2 := pieces_length e head size s.seq G
      have h3 := h.room
      simp only [Weave.fits] at h3
      simp only [F, regroup]
      simp only [P] at h1 ⊢
      omega
    have hne : F ≠ [] := by
      refine addAll_ne_nil _ _ ?_
      rcases h.left with h1 | h1
      · exact .inl (pieces_ne_nil _ _ _ _ _ h1)
      · exact .inr h1
    have hreg : (if anyPark G then parkRegion s c k else s) = s := by
      split
      · rename_i hp; simp [parkRegion, hw, (h.plain hp).2]
      · rfl
    have hpair : (if anyPark G then { w' with pair := w'.pair.map endGroup } else w') = w' := by
      split
      · rename_i hp
        have : w'.pair = none := (h.plain hp).1
        rw [this]; simp only [Option.map_none]
        rw [← this]
      · rfl
    have hset : ∀ s2, s2 = putWeave { s with seq := s.seq + 1 } c k w' →
        (if anyPark G || anyGone G || anyBar G then settleBarriers s2 c w.inst else s2) = s2 := by
      rintro s2 rfl
      rw [h.bars, Bool.or_false]
      split
      · rename_i hp
        refine settleBarriers_still ?_ _
        intro j wj hj x hx n hn
        by_cases hjk : j = k
        · subst hjk
          rw [getWeave_putWeave_self] at hj
          cases hj
          obtain ⟨y, h1, h2⟩ := addAll_state P _ x hx
          rw [h2] at hn
          rcases h1 with h1 | h1
          · exact pieces_bar _ _ _ _ _ h.bars y h1 n hn
          · exact h.still hp j w hw y (List.mem_of_mem_filter h1) n hn
        · rw [getWeave_putWeave_ne _ _ _ hjk] at hj
          exact h.still hp j wj hj x hx n hn
      · rfl
    have hret : retire s c k e size ch gs = moveThreads s c k e size head (chainAfter w e ch G) G := by
      simp only [retire, hw, hG]; rw [← hH]; rfl
    rw [hret]
    simp only [moveThreads, hreg, h.clean, List.foldl_nil, hw, nextSeq]
    have e1 : ({ w with frontier := regroup w.frontier e (pieces e head size s.seq G), chain := chainAfter w e ch G } : Weave) = w' := rfl
    rw [e1]
    rw [hpair]
    rw [spillDown_held 32 _ (getWeave_putWeave_self _ _ _ _) hheld, hset _ rfl,
      settleWeave_live (getWeave_putWeave_self _ _ _ _) hne]
  · intro m g x hg hm hx
    obtain ⟨p, hp, h1, h2, h3⟩ := pieces_place e head size s.seq G hg hm hx
    obtain ⟨y, hy, g1, g2, g3⟩ := addAll_self P (w.frontier.filter (fun x => x.mask &&& e.mask == 0#32)) p hp
    exact ⟨y, hy, h1 ▸ g1, g3.trans h2, g2.trans h3⟩
  · intro m ca a hp
    refine ⟨{ entryAt head e.prio m .parked with cause := ca, parkedAt := s.seq, addr := a }, ?_, rfl, rfl, rfl, rfl, rfl⟩
    refine addAll_parked P _ _ rfl (.inl ?_)
    simp [P, pieces, hp]

/-! ## A lane instruction on its turn -/

theorem noBar_kept {s t : State} {c k : Nat} (h : noBar s c) (hk : Kept s t c k)
    (hw : ∀ w', getWeave t c k = some w' → ∃ w, getWeave s c k = some w ∧ w'.frontier = w.frontier) : noBar t c := by
  intro j w hj x hx n
  by_cases hjk : j = k
  · subst hjk
    obtain ⟨w0, h0, h1⟩ := hw w hj
    exact h _ w0 h0 x (h1 ▸ hx) n
  · rw [hk.weaves j hjk] at hj
    exact h j w hj x hx n

/-- The end of a lane instruction whose threads move as its groups say. -/
theorem laneEnd_moves {c k : Nat} {e : Entry} {size : Nat} {ch : Bool} {d : Done} {w : Weave} (hd : d.wait = none)
    (hw : getWeave d.s c k = some w) (hm : Moves d.s c w e (groupsOf e.mask d.gs)) :
    ∃ w', getWeave (laneEnd c k e size ch d) c k = some w' ∧ w'.body = w.body ∧ Kept d.s (laneEnd c k e size ch d) c k ∧
      (∀ m g x, (m, g) ∈ groupsOf e.mask d.gs → m ≠ 0#32 → g.place e size = some x →
        ∃ y ∈ w'.frontier, y.mask &&& m = m ∧ y.state = x.1 ∧ y.pc = x.2) ∧
      (∀ m ca a, parkedPiece (groupsOf e.mask d.gs) = some (m, ca, a) →
        ∃ y ∈ w'.frontier, y.mask = m ∧ y.state = .parked ∧ y.cause = ca ∧ y.addr = a ∧ y.pc = headOf w e) ∧
      (∃ n, w'.frontier = regroup w.frontier e (pieces e (headOf w e) size n (groupsOf e.mask d.gs))) ∧
      w.others w' e.mask := by
  obtain ⟨w1, h1, b1, f1, k1⟩ := untag_spec hw d.wv d.ws
  have h2 : getWeave (onCore (untag d.s c k d.wv d.ws) c (fun x => countCore x 0x001 1)) c k = some w1 :=
    (getWeave_onCore _ c (fun x => countCore x 0x001 1) (fun _ => rfl) c k).trans h1
  let w2 := countWeave w1 0x103 (max 1 d.cycles)
  have f2 : w2.frontier = w.frontier := f1
  have b2 : w2.body = w.body := b1
  have hch : w1.chain = w.chain := untag_chain hw h1
  let s2 := putWeave (onCore (untag d.s c k d.wv d.ws) c (fun x => countCore x 0x001 1)) c k w2
  have hk2 : Kept d.s s2 c k := (k1.trans (kept_countCore _ _ _ _ _)).trans (kept_putWeave _ _ _ _)
  have hpr : w2.pair = w.pair := by have := congrArg Weave.pair b2; exact this
  have hrg : w2.region = w.region := by have := congrArg Weave.region b2; exact this
  have hm2 : Moves s2 c w2 e (groupsOf e.mask d.gs) := by
    refine ⟨?_, ?_, fun h => ?_, fun h => noBar_kept (hm.still h) hk2 ?_, hm.bars, hm.clean⟩
    · have := hm.room; simp only [Weave.fits, f2] at this ⊢; exact this
    · rw [f2]; exact hm.left
    · rw [hpr, hrg]; exact hm.plain h
    · intro w' hw'
      refine ⟨w, hw, ?_⟩
      have : w' = w2 := by simpa [s2] using hw'.symm
      rw [this, f2]
  obtain ⟨w3, h3, b3, p3, q3, r3, o3⟩ := retire_moves (s := s2) (w := w2) (getWeave_putWeave_self _ _ _ _) size ch d.gs hm2
  have hh : headOf w2 e = headOf w e := by simp only [headOf]; rw [show w2.chain = w.chain from hch]
  have he : laneEnd c k e size ch d = retire s2 c k e size ch d.gs := by
    simp only [laneEnd, hd, onWeave_some h2, w2, s2]
  rw [he, h3]
  refine ⟨w3, getWeave_putWeave_self _ _ _ _, b3.trans b2, hk2.trans kept_retire, p3, fun m ca a h => ?_, ⟨s2.seq, ?_⟩, fun x hx hm' => ?_⟩
  · obtain ⟨y, y1, y2, y3, y4, y5, y6⟩ := q3 m ca a h
    exact ⟨y, y1, y2, y3, y4, y5, y6.trans hh⟩
  · rw [r3, f2, hh]
  · exact o3 x (by rw [f2]; exact hx) hm'

/-- A lane instruction on its turn: where its groups send the threads. -/
theorem laneIssue_goes {s : State} {c k : Nat} {e : Entry} {w : Weave} (h : LaneTurn s c k e w) (q : LaneReq)
    (hl : illegalHere w e q.size q.chain q.elig q.regs = false) (body : State → Nat → Nat → Weave → Entry → Mask → Done)
    {d : Done} (hb : body (laneState s c k w) c k w e (activeMask w e q.guard) = d) (hd : d.wait = none)
    {w1 : Weave} (hw : getWeave d.s c k = some w1) (hf : w1.frontier = w.frontier)
    (hm : Moves d.s c w1 e (groupsOf e.mask d.gs)) (go : Nat → EntryState × Double)
    (hgo : ∀ u, e.mask.getLsbD u = true → ∃ m g, (m, g) ∈ groupsOf e.mask d.gs ∧ m.getLsbD u = true ∧ g.place e q.size = some (go u)) :
    ∃ t, laneIssue s q body = .next t ∧ LaneDone d.s t c k e w w1 go := by
  obtain ⟨w', h1, h2, h3, h4, -, -, h5⟩ := laneEnd_moves (size := q.size) (ch := q.chain) hd hw hm
  refine ⟨_, (laneIssue_turn h q hl body).trans (by rw [hb]), h3, w', h1, h2, ?_, fun x hx => h5 x (hf ▸ hx)⟩
  intro u hu
  obtain ⟨m, g, g1, g2, g3⟩ := hgo u hu
  obtain ⟨y, y1, y2, y3, y4⟩ := h4 m g _ g1 (ne_zero_of_getLsbD g2) g3
  exact ⟨y, y1, getLsbD_of_and y2 g2, y3, y4⟩

/-- The group of the threads that fall through. -/
theorem groupsOf_next (m : Mask) (gs : Groups) : (gs.foldl (fun m g => m &&& ~~~g.1) m, Go.next) ∈ groupsOf m gs := by
  simp [groupsOf]

theorem rest_getLsbD (gs : Groups) (m : Mask) (u : Nat) (hu : u < 32) :
    (gs.foldl (fun m g => m &&& ~~~g.1) m).getLsbD u = (m.getLsbD u && gs.all (fun g => !g.1.getLsbD u)) := by
  induction gs generalizing m with
  | nil => simp
  | cons g r ih =>
    simp only [List.foldl, List.all_cons]
    rw [ih]
    simp [hu, Bool.and_assoc]

/-- Groups that only move threads: none parks, ends or waits at a barrier. -/
def Go.moves : Go → Bool
  | .next => true
  | .to _ _ => true
  | .sleepNext _ => true
  | .hold (.atBar _) => false
  | .hold _ => true
  | _ => false

theorem exists_thread {m : Mask} (h : m ≠ 0#32) : ∃ u, m.getLsbD u = true := by
  by_contra hn
  apply h
  apply BitVec.eq_of_getLsbD_eq; intro i _
  have := not_exists.mp hn i
  simpa using this

theorem moves_of {t : State} {c : Nat} {w : Weave} {e : Entry} {gs : Groups} (hm : e.mask ≠ 0#32)
    (hall : ∀ g ∈ gs, g.2.moves = true) (hfit : w.fits e (occupied gs))
    (hcov : ∀ u, e.mask.getLsbD u = true → ∃ m g, (m, g) ∈ gs ∧ m.getLsbD u = true) : Moves t c w e gs := by
  have hp : anyPark gs = false := by
    simp only [anyPark, List.any_eq_false]
    intro g hg
    have := hall g hg
    revert this
    cases g.2 <;> simp [Go.moves]
  have hgn : anyGone gs = false := by
    simp only [anyGone, List.any_eq_false]
    intro g hg
    have := hall g hg
    revert this
    cases g.2 <;> simp [Go.moves]
  refine ⟨hfit, .inl ?_, fun h => by simp [hp] at h, fun h => by simp [hp, hgn] at h, ?_, ?_⟩
  · obtain ⟨u, hu⟩ := exists_thread hm
    obtain ⟨m, g, h1, h2⟩ := hcov u hu
    refine ⟨(m, g), h1, ne_zero_of_getLsbD h2, ?_⟩
    rintro h3
    have := hall _ h1
    simp only at h3
    subst h3
    cases this
  · simp only [anyBar, List.any_eq_false]
    intro g hg
    have := hall g hg
    revert this
    obtain ⟨m, g⟩ := g
    cases g <;> simp [Go.moves]
    rename_i st
    cases st <;> simp
  · simp only [poisonThreads, List.flatMap_eq_nil_iff]
    intro g hg
    have := hall g hg
    revert this
    cases g.2 <;> simp [Go.moves]

theorem LaneDone.since {r s t : State} {c k : Nat} {e : Entry} {w w1 : Weave} {go : Nat → EntryState × Double} (hk : Kept r s c k)
    (h : LaneDone s t c k e w w1 go) : LaneDone r t c k e w w1 go := ⟨hk.trans h.kept, h.weave⟩

/-- A lane instruction on its turn whose own effect is on its weave alone and whose groups move its threads. -/
theorem laneIssue_moves {s : State} {c k : Nat} {e : Entry} {w : Weave} (h : LaneTurn s c k e w) (q : LaneReq)
    (hl : illegalHere w e q.size q.chain q.elig q.regs = false) (body : State → Nat → Nat → Weave → Entry → Mask → Done)
    {d : Done} (hb : body (laneState s c k w) c k w e (activeMask w e q.guard) = d) (hd : d.wait = none)
    (hk : Kept (laneState s c k w) d.s c k) {w1 : Weave} (hw : getWeave d.s c k = some w1) (hf : w1.frontier = w.frontier)
    (hall : ∀ g ∈ d.gs, g.2.moves = true) (hfit : w.fits e (occupied (groupsOf e.mask d.gs))) (go : Nat → EntryState × Double)
    (hgo : ∀ u, e.mask.getLsbD u = true → ∃ m g, (m, g) ∈ groupsOf e.mask d.gs ∧ m.getLsbD u = true ∧ g.place e q.size = some (go u)) :
    ∃ t, laneIssue s q body = .next t ∧ LaneDone s t c k e w w1 go := by
  have hall' : ∀ g ∈ groupsOf e.mask d.gs, g.2.moves = true := by
    intro g hg
    simp only [groupsOf, List.mem_append, List.mem_singleton] at hg
    rcases hg with hg | rfl
    · exact hall g hg
    · rfl
  have hfit' : w1.fits e (occupied (groupsOf e.mask d.gs)) := by simp only [Weave.fits, hf] at hfit ⊢; exact hfit
  obtain ⟨t, h1, h2⟩ := laneIssue_goes h q hl body hb hd hw hf
    (moves_of h.live hall' hfit' (fun u hu => by obtain ⟨m, g, a, b, _⟩ := hgo u hu; exact ⟨m, g, a, b⟩)) go hgo
  exact ⟨t, h1, h2.since ((kept_laneState s c k w).trans hk)⟩

theorem LaneTurn.fits {s : State} {c k : Nat} {e : Entry} {w : Weave} (h : LaneTurn s c k e w) : w.fits e 1 := by
  have := h.room; simp only [Weave.fits]; omega

theorem occupied_le (gs : Groups) : occupied gs ≤ gs.length := List.length_filter_le _ _

theorem activeMask_noGuard (w : Weave) (e : Entry) : activeMask w e noGuard = e.mask := by
  apply BitVec.eq_of_getLsbD_eq; intro u hu
  simp only [activeMask]
  rw [getLsbD_maskOf _ (fun x hx => threadsOf_lt (List.mem_filter.mp hx).1)]
  simp [mem_threadsOf, noGuard, readP, hu]

/-- A lane instruction whose threads all fall through. -/
theorem laneIssue_onward {s : State} {c k : Nat} {e : Entry} {w : Weave} (h : LaneTurn s c k e w) (q : LaneReq)
    (hl : illegalHere w e q.size q.chain q.elig q.regs = false) (body : State → Nat → Nat → Weave → Entry → Mask → Done)
    {d : Done} (hb : body (laneState s c k w) c k w e (activeMask w e q.guard) = d) (hd : d.wait = none) (hg : d.gs = [])
    {w1 : Weave} (hw : getWeave d.s c k = some w1) (hf : w1.frontier = w.frontier) :
    ∃ t, laneIssue s q body = .next t ∧ LaneDone d.s t c k e w w1 (onward e q.size) := by
  have hG : groupsOf e.mask d.gs = [(e.mask, .next)] := by rw [hg]; rfl
  refine laneIssue_goes h q hl body hb hd hw hf ?_ _ (fun u hu => ⟨e.mask, .next, by rw [hG]; simp, hu, rfl⟩)
  rw [hG]
  refine moves_of h.live (by simp [Go.moves]) ?_ (fun u hu => ⟨e.mask, .next, by simp, hu⟩)
  have h1 := h.fits
  have h2 := occupied_le [(e.mask, Go.next)]
  simp only [Weave.fits, hf, List.length_singleton] at h1 h2 ⊢
  omega

/-- A lane instruction whose threads all park with one cause. -/
theorem laneIssue_parked {s : State} {c k : Nat} {e : Entry} {w : Weave} (h : LaneTurn s c k e w) (q : LaneReq)
    (hl : illegalHere w e q.size q.chain q.elig q.regs = false) (body : State → Nat → Nat → Weave → Entry → Mask → Done)
    {d : Done} (hb : body (laneState s c k w) c k w e (activeMask w e q.guard) = d) (hd : d.wait = none)
    {cause : Nat} {addr : Double} (hg : d.gs = [(e.mask, .park cause addr)]) (hca : cause ≠ cPOISON)
    {w1 : Weave} (hw : getWeave d.s c k = some w1) (hf : w1.frontier = w.frontier) (hch : w1.chain = w.chain)
    (hp : w1.pair = none) (hr : w1.region = none) (hn : noBar d.s c) (go : Nat → EntryState × Double) :
    ∃ t, laneIssue s q body = .next t ∧ LaneParked d.s t c k e w w1 e.mask cause addr go := by
  have hz : e.mask &&& ~~~e.mask = 0#32 := by
    apply BitVec.eq_of_getLsbD_eq; intro i hi
    simp [hi]
  have hG : groupsOf e.mask d.gs = [(e.mask, .park cause addr), (0#32, .next)] := by rw [hg]; simp [groupsOf, hz]
  have hm : Moves d.s c w1 e (groupsOf e.mask d.gs) := by
    rw [hG]
    refine ⟨?_, .inl ⟨(e.mask, .park cause addr), by simp, h.live, by simp⟩, fun _ => ⟨hp, hr⟩, fun _ => hn, rfl, ?_⟩
    · have h1 := h.fits
      have h2 : occupied [(e.mask, Go.park cause addr), (0#32, .next)] = 1 := by simp [occupied, h.live]
      simp only [Weave.fits, hf, h2] at h1 ⊢
      omega
    · simp [poisonThreads, hca]
  obtain ⟨w', h1, h2, h3, -, h5, -, h6⟩ := laneEnd_moves (size := q.size) (ch := q.chain) hd hw hm
  have hpk : parkedPiece (groupsOf e.mask d.gs) = some (e.mask, cause, addr) := by
    rw [hG]; simp [parkedPiece, h.live]
  obtain ⟨y, y1, y2, y3, y4, y5, y6⟩ := h5 _ _ _ hpk
  refine ⟨_, (laneIssue_turn h q hl body).trans (by rw [hb]), h3, w', h1, h2, fun x hx => h6 x (hf ▸ hx), ⟨y, y1, y2, y3, y4, y5, ?_⟩, ?_⟩
  · rw [y6]; simp only [headOf, hch]
  · intro u hu; rw [hz] at hu; simp at hu

theorem LaneParked.since {r s t : State} {c k : Nat} {e : Entry} {w w1 : Weave} {m : Mask} {ca : Nat} {ad : Double}
    {go : Nat → EntryState × Double} (hk : Kept r s c k) (h : LaneParked s t c k e w w1 m ca ad go) : LaneParked r t c k e w w1 m ca ad go :=
  ⟨hk.trans h.kept, h.weave⟩

theorem noBar_laneState {s : State} {c k : Nat} {e : Entry} {w : Weave} (h : LaneTurn s c k e w) (hn : noBar s c) :
    noBar (laneState s c k w) c := by
  refine noBar_kept hn (kept_laneState s c k w) (fun w' hw' => ?_)
  rw [getWeave_laneState] at hw'
  cases hw'
  obtain ⟨w0, h0, rfl⟩ : ∃ w0, getWeave s c k = some w0 ∧ commitWeave w0 = w := by
    simpa [Option.map_eq_some_iff] using h.weave
  exact ⟨w0, h0, commitWeave_frontier w0⟩

end Sys2Proof.Machine
end

