-- ==== Sys2Proof/Laws/Look.lean ====
section
/-!
SUPPORT. Translation and fetch: what they change (caches and the counts of their misses), and on what they depend.
-/

namespace Sys2Proof.Machine

open Sys2Proof

/-! ## On what they depend -/

/-- Two states alike in all but cores, partitions, marks and the place in the order of issue. -/
structure SameRoot (s t : State) : Prop where
  mem : t.mem = s.mem
  unscrubbed : t.unscrubbed = s.unscrubbed
  bad : t.bad = s.bad
  tick : t.tick = s.tick
  device : t.device = s.device
  vfs : t.vfs = s.vfs
  lost : ∀ phys, rangeLost t phys = rangeLost s phys

theorem SameRoot.refl (s : State) : SameRoot s s := ⟨rfl, rfl, rfl, rfl, rfl, rfl, fun _ => rfl⟩

theorem Kept.root {s t : State} {c k : Nat} (h : Kept s t c k) : SameRoot s t := by
  have h1 := h.rest
  have hp : t.parts = s.parts := by have := congrArg State.parts h1; exact this
  refine ⟨h.mem, h.unscrubbed, ?_, ?_, ?_, ?_, fun _ => by simp only [rangeLost, hp]⟩
  · have := congrArg State.bad h1; exact this
  · have := congrArg State.tick h1; exact this
  · have := congrArg State.device h1; exact this
  · have := congrArg State.vfs h1; exact this

theorem memByte_root {s t : State} (h : SameRoot s t) (k : Nat) : memByte t k = memByte s k := by
  simp only [memByte, h.mem, h.unscrubbed]

theorem memBytes_root {s t : State} (h : SameRoot s t) (k n : Nat) : memBytes t k n = memBytes s k n := by
  induction n generalizing k with
  | zero => rfl
  | succ n ih => simp only [memBytes, ih, memByte_root h]

theorem memBad_root {s t : State} (h : SameRoot s t) (k n : Nat) : memBad t k n = memBad s k n := by
  simp only [memBad, h.bad, h.unscrubbed]

theorem readPte_root {s t : State} (h : SameRoot s t) (p : Nat) : readPte t p = readPte s p := by
  simp only [readPte, memBytes_root h, memBad_root h, h.device]

theorem keepLeaf_root {s t : State} (h : SameRoot s t) (l : Leaf) : keepLeaf t l = keepLeaf s l := by
  simp only [keepLeaf, h.lost]

theorem walkFrom_root {s t : State} (h : SameRoot s t) (vf va l p : Nat) : walkFrom t vf va l p = walkFrom s vf va l p := by
  induction l generalizing p with
  | zero => simp only [walkFrom, readPte_root h, keepLeaf_root h, h.tick]
  | succ n ih => simp only [walkFrom, readPte_root h, keepLeaf_root h, ih]

theorem walk_root {s t : State} (h : SameRoot s t) (vf va : Nat) : walk t vf va = walk s vf va := by
  simp only [walk, walkFrom_root h, getVf, h.vfs]

theorem leafKey_root {s t : State} (h : SameRoot s t) (l : Leaf) (va : Nat) : leafKey t l va = leafKey s l va := by
  simp only [leafKey, h.device]

theorem cacheLine_root {s t : State} (h : SameRoot s t) (held : Sparse (List Byte)) (n line : Nat) :
    cacheLine t held n line = cacheLine s held n line := by
  simp only [cacheLine, fillLine, victimOf, h.tick, memBad_root h, memBytes_root h]

/-! ## What they change -/

theorem Looked.refl (s : State) (c : Nat) : Looked s s c := ⟨rfl, fun _ => rfl, fun _ _ => rfl, rfl⟩

theorem Looked.trans {s t u : State} {c : Nat} (h : Looked s t c) (g : Looked t u c) : Looked s u c :=
  ⟨g.rest.trans h.rest, fun p => (g.parts p).trans (h.parts p), fun d hd => (g.cores d hd).trans (h.cores d hd), g.core.trans h.core⟩

theorem looked_onCore (s : State) (c : Nat) (f : Core → Core) (hf : ∀ x, { f x with tlb := [], icache := [] } = { x with tlb := [], icache := [] }) :
    Looked s (onCore s c f) c :=
  ⟨rfl, fun _ => rfl, fun _ h => getCore_onCore_ne _ _ h, by rw [getCore_onCore_self]; exact hf _⟩

theorem looked_mark (s : State) (c n k : Nat) : Looked s (mark s n k) c := ⟨rfl, fun _ => rfl, fun _ _ => rfl, rfl⟩

theorem looked_walked (s : State) (c p : Nat) : Looked s (walked s p) c :=
  (looked_mark _ _ _ _).trans (looked_mark _ _ _ _)

theorem looked_onPart (s : State) (c p : Nat) (f : Part → Part) (hf : ∀ x, { f x with tlb2 := [] } = { x with tlb2 := [] }) :
    Looked s (onPart s p f) c := by
  refine ⟨rfl, fun q => ?_, fun _ _ => rfl, rfl⟩
  by_cases h : q = p
  · subst h; rw [getPart_onPart_self]; exact hf _
  · simp only [onPart, getPart_putPart_ne _ _ h]

/-- What one more leaf in the core's TLB changes. -/
theorem looked_tlb (s : State) (c : Nat) (f : Core → List Leaf) : Looked s (onCore s c (fun x => { x with tlb := f x })) c :=
  looked_onCore _ _ _ (fun _ => rfl)

theorem looked_tlb2 (s : State) (c p : Nat) (f : Part → List Leaf) : Looked s (onPart s p (fun x => { x with tlb2 := f x })) c :=
  looked_onPart _ _ _ _ (fun _ => rfl)

theorem looked_icache (s : State) (c : Nat) (h : Sparse (List Byte)) : Looked s (onCore s c (fun x => { x with icache := h })) c :=
  looked_onCore _ _ _ (fun _ => rfl)

/-- What holds before a translation and is kept by counting a walk and by a change of the TLBs holds after it. -/
theorem findLeaf_keeps {P : State → Prop} (s : State) (c vf va : Nat) (h0 : P s) (hw : ∀ x, P x → P (walked x (partOf c)))
    (hc : ∀ x (f : Core → Core), (∀ y, { f y with tlb := [] } = { y with tlb := [] }) → P x → P (onCore x c f))
    (hp : ∀ x p (f : Part → Part), (∀ y, { f y with tlb2 := [] } = { y with tlb2 := [] }) → P x → P (onPart x p f)) :
    P (findLeaf s c vf va).2 := by
  have c1 : ∀ x l, P x → P (putTlb x c l) := fun x l h => hc x (fun y => { y with tlb := putLeaf x 4 tlbLeaves l y.tlb }) (fun _ => rfl) h
  have c2 : ∀ x l, P x → P (putTlb2 x (partOf c) l) := fun x l h =>
    hp x (partOf c) (fun y => { y with tlb2 := putLeaf x 5 tlb2Leaves l y.tlb2 }) (fun _ => rfl) h
  have h0' : ∀ x r, P x → P (walkGave x c r).2 := by
    intro x r h
    cases r with
    | error e => exact hw x h
    | ok l => exact c2 _ _ (c1 _ _ (hw x h))
  have h1 : ∀ x, P x → P (walkIn x c vf va).2 := fun x h => h0' x _ h
  have h2 : ∀ x, P x → P (findLeaf2 x c vf va).2 := by
    intro x h
    simp only [findLeaf2]
    split
    · split
      · exact c1 _ _ h
      · exact h1 _ (hp x (partOf c) (fun y => { y with tlb2 := y.tlb2.filter (fun z => !covers vf va z) }) (fun _ => rfl) h)
    · exact h1 x h
  simp only [findLeaf]
  split
  · split
    · exact h0
    · exact h2 _ (hc s (fun y => { y with tlb := y.tlb.filter (fun z => !covers vf va z) }) (fun _ => rfl) h0)
  · exact h2 s h0

theorem looked_findLeaf (s : State) (c vf va : Nat) : Looked s (findLeaf s c vf va).2 c :=
  findLeaf_keeps (P := fun x => Looked s x c) s c vf va (Looked.refl _ _) (fun _ h => h.trans (looked_walked _ _ _))
    (fun x f hf h => h.trans (looked_onCore x c f (fun y => by have := congrArg (fun z : Core => { z with icache := [] }) (hf y); exact this)))
    (fun x p f hf h => h.trans (looked_onPart x c p f hf))

theorem looked_translate (s : State) (c vf va : Nat) (a : Acc) (b : Bool) : Looked s (translate s c vf va a b).2 c := by
  unfold translate
  split
  · exact Looked.refl _ _
  · have := looked_findLeaf s c vf va
    cases hf : findLeaf s c vf va with
    | mk r t =>
      rw [hf] at this
      cases r with
      | error e => exact this
      | ok l =>
        dsimp only
        split <;> exact this

theorem any_sput (l : Sparse Part) (p n : Nat) (x : Part) (h : x.lost = (sget Part.blank l p).lost) :
    (sput l p x).any (fun e => nmem e.2.lost n) = l.any (fun e => nmem e.2.lost n) := by
  induction l with
  | nil =>
    have : x.lost = [] := h
    simp [sput, this, nmem]
  | cons e r ih =>
    obtain ⟨k, v⟩ := e
    simp only [sput]
    by_cases h1 : p < k
    · simp only [h1, if_true, List.any_cons]
      have hk : k ≠ p := by omega
      have h' : x.lost = (sget Part.blank r p).lost := by rw [h]; simp [sget, sfind, hk]
      rw [h']
      cases hf : sfind r p with
      | none => simp [sget, hf, Part.blank, nmem]
      | some y =>
        have hm : nmem y.lost n = true → r.any (fun e => nmem e.2.lost n) = true := by
          intro hy
          have hmem : ∀ (r : Sparse Part), sfind r p = some y → (p, y) ∈ r := by
            intro r; induction r with
            | nil => intro h; cases h
            | cons e r ih =>
              obtain ⟨k, v⟩ := e
              intro h
              simp only [sfind] at h
              split at h
              · rename_i hk; cases h; subst hk; simp
              · exact List.mem_cons_of_mem _ (ih h)
          exact List.any_eq_true.mpr ⟨_, hmem r hf, hy⟩
        have hs : (sget Part.blank r p).lost = y.lost := by simp [sget, hf]
        rw [hs]
        cases hy : nmem y.lost n
        · simp
        · simp [hm hy]
    · simp only [h1, if_false]
      by_cases h2 : p = k
      · subst h2
        have h' : x.lost = v.lost := by rw [h]; simp [sget, sfind]
        simp [h']
      · have hk : k ≠ p := fun h => h2 h.symm
        simp only [h2, if_false, List.any_cons]
        rw [ih (by rw [h]; simp [sget, sfind, hk])]

theorem root_onPart (s : State) (p : Nat) (f : Part → Part) (hf : ∀ x, (f x).lost = x.lost) : SameRoot s (onPart s p f) :=
  ⟨rfl, rfl, rfl, rfl, rfl, rfl, fun phys => any_sput _ _ _ _ (hf _)⟩

theorem root_tlb2 (s : State) (p : Nat) (f : Part → List Leaf) : SameRoot s (onPart s p (fun x => { x with tlb2 := f x })) :=
  root_onPart _ _ _ (fun _ => rfl)

theorem root_onCore (s : State) (c : Nat) (f : Core → Core) : SameRoot s (onCore s c f) := ⟨rfl, rfl, rfl, rfl, rfl, rfl, fun _ => rfl⟩

theorem root_walked (s : State) (p : Nat) : SameRoot s (walked s p) := ⟨rfl, rfl, rfl, rfl, rfl, rfl, fun _ => rfl⟩

theorem SameRoot.trans {s t u : State} (h : SameRoot s t) (g : SameRoot t u) : SameRoot s u :=
  ⟨g.mem.trans h.mem, g.unscrubbed.trans h.unscrubbed, g.bad.trans h.bad, g.tick.trans h.tick, g.device.trans h.device,
   g.vfs.trans h.vfs, fun p => (g.lost p).trans (h.lost p)⟩

theorem root_findLeaf (s : State) (c vf va : Nat) : SameRoot s (findLeaf s c vf va).2 :=
  findLeaf_keeps (P := fun x => SameRoot s x) s c vf va (SameRoot.refl _) (fun _ h => h.trans (root_walked _ _))
    (fun _ _ _ h => h.trans (root_onCore _ _ _))
    (fun x p f hf h => h.trans (root_onPart x p f (fun y => by have := congrArg Part.lost (hf y); exact this)))

theorem root_translate (s : State) (c vf va : Nat) (a : Acc) (b : Bool) : SameRoot s (translate s c vf va a b).2 := by
  unfold translate
  split
  · exact SameRoot.refl _
  · have := root_findLeaf s c vf va
    cases hf : findLeaf s c vf va with
    | mk r t =>
      rw [hf] at this
      cases r with
      | error e => exact this
      | ok l => dsimp only; split <;> exact this

theorem icache_findLeaf (s : State) (c vf va : Nat) : (getCore (findLeaf s c vf va).2 c).icache = (getCore s c).icache :=
  findLeaf_keeps (P := fun x => (getCore x c).icache = (getCore s c).icache) s c vf va rfl (fun _ h => h)
    (fun x f hf h => by rw [getCore_onCore_self]; have := congrArg Core.icache (hf (getCore x c)); exact this.trans h) (fun _ _ _ _ h => h)

theorem icache_translate (s : State) (c vf va : Nat) (a : Acc) (b : Bool) :
    (getCore (translate s c vf va a b).2 c).icache = (getCore s c).icache := by
  unfold translate
  split
  · rfl
  · have := icache_findLeaf s c vf va
    cases hf : findLeaf s c vf va with
    | mk r t =>
      rw [hf] at this
      cases r with
      | error e => exact this
      | ok l => dsimp only; split <;> exact this

theorem looked_fetchWord (s : State) (c vf va : Nat) (b : Bool) : Looked s (fetchWord s c vf va b).2 c := by
  unfold fetchWord
  have := looked_translate s c vf va .fetch b
  cases ht : translate s c vf va .fetch b with
  | mk r t =>
    rw [ht] at this
    cases r with
    | error e => exact this
    | ok k =>
      dsimp only
      split
      · exact this
      · exact this.trans (looked_icache _ _ _)

/-! ## A fetch after a lane instruction's own effect -/

/-- The leaf of an access, by what the TLBs hold and what the walk gives. -/
theorem findLeaf_fst (x : State) (c vf va : Nat) : (findLeaf x c vf va).1 =
    match tlbFind (getCore x c).tlb vf va with
    | some l => if Config.keeps x.tick 0 va then .ok l else (findLeaf2 (dropTlb x c vf va) c vf va).1
    | none => (findLeaf2 x c vf va).1 := by
  simp only [findLeaf]
  cases tlbFind (getCore x c).tlb vf va with
  | none => simp only
  | some l => simp only; split <;> simp only

theorem walkGave_fst (x : State) (c : Nat) (r : Except Nat Leaf) : (walkGave x c r).1 = r := by cases r <;> rfl

theorem walkIn_fst (x : State) (c vf va : Nat) : (walkIn x c vf va).1 = walk x vf va := walkGave_fst _ _ _

theorem findLeaf2_fst (x : State) (c vf va : Nat) : (findLeaf2 x c vf va).1 =
    match tlbFind (getPart x (partOf c)).tlb2 vf va with
    | some l => if Config.keeps x.tick 1 va then .ok l else walk x vf va
    | none => walk x vf va := by
  simp only [findLeaf2]
  cases tlbFind (getPart x (partOf c)).tlb2 vf va with
  | none => simp only [walkIn_fst]
  | some l =>
    have h := walk_root (root_tlb2 x (partOf c) (fun y => y.tlb2.filter (fun z => !covers vf va z))) vf va
    simp only
    split
    · simp only
    · rw [walkIn_fst]; exact h

theorem findLeaf_kept {s t : State} {c k : Nat} (h : Kept s t c k) (vf va : Nat) : (findLeaf t c vf va).1 = (findLeaf s c vf va).1 := by
  have htlb : (getCore t c).tlb = (getCore s c).tlb := by have := congrArg Core.tlb h.core; exact this
  have hp : t.parts = s.parts := by have := congrArg State.parts h.rest; exact this
  have h2 : ∀ (f : State → State), (∀ x, SameRoot x (f x)) → (∀ x, (f x).parts = x.parts) →
      (findLeaf2 (f t) c vf va).1 = (findLeaf2 (f s) c vf va).1 := by
    intro f hf hq
    rw [findLeaf2_fst, findLeaf2_fst, walk_root (hf t), walk_root (hf s), walk_root h.root, (hf t).tick, (hf s).tick, h.root.tick]
    simp only [getPart, hq, hp]
  have d := h2 (fun x => dropTlb x c vf va) (fun x => root_onCore _ _ _) (fun _ => rfl)
  have n := h2 id (fun x => SameRoot.refl _) (fun _ => rfl)
  simp only [id] at n
  rw [findLeaf_fst, findLeaf_fst, htlb, h.root.tick, d, n]

theorem translate_kept {s t : State} {c k : Nat} (h : Kept s t c k) (vf va : Nat) (a : Acc) (b : Bool) :
    (translate t c vf va a b).1 = (translate s c vf va a b).1 := by
  have h1 := findLeaf_kept h vf va
  simp only [translate]
  split
  · rfl
  · have r1 := root_findLeaf s c vf va
    have r2 := root_findLeaf t c vf va
    cases hs : findLeaf s c vf va with
    | mk rs s' =>
      cases ht : findLeaf t c vf va with
      | mk rt t' =>
        rw [hs, ht] at h1
        rw [hs] at r1
        rw [ht] at r2
        simp only at h1 r1 r2
        subst h1
        cases rt with
        | error e => rfl
        | ok l =>
          dsimp only
          split
          · rfl
          · simp only [leafKey, r1.device, r2.device, h.root.device]

/-- A fetched word depends on nothing that a lane instruction's own effect changes. -/
theorem fetchWord_kept {s t : State} {c k : Nat} (h : Kept s t c k) (vf va : Nat) (b : Bool) :
    (fetchWord t c vf va b).1 = (fetchWord s c vf va b).1 := by
  have h1 := translate_kept h vf va .fetch b
  have r1 := root_translate s c vf va .fetch b
  have r2 := root_translate t c vf va .fetch b
  have i1 := icache_translate s c vf va .fetch b
  have i2 := icache_translate t c vf va .fetch b
  have hi : (getCore t c).icache = (getCore s c).icache := by have := congrArg Core.icache h.core; exact this
  simp only [fetchWord]
  cases hs : translate s c vf va .fetch b with
  | mk rs s' =>
    cases ht : translate t c vf va .fetch b with
    | mk rt t' =>
      rw [hs] at h1 r1 i1
      rw [ht] at h1 r2 i2
      simp only at h1 r1 r2 i1 i2
      subst h1
      cases rt with
      | error e => rfl
      | ok key =>
        dsimp only
        rw [cacheLine_root r1, cacheLine_root (h.root.trans r2), i1, i2, hi]
        cases cacheLine s (getCore s c).icache 2 (key / 64) with
        | error e => rfl
        | ok d => rfl

/-- A transfer that lands goes to its target. -/
theorem landing_of {s t : State} {c k vf : Nat} {pc : Double} (hk : Kept s t c k) (h : lands s c vf pc) (prio : Half) :
    landing t c vf pc prio false = .to pc prio := by
  obtain ⟨h1, h2, h3⟩ := h
  have a : (pc.extractLsb' 0 2 != 0#2 || pc.extractLsb' 57 7 != 0#7) = false := by
    have e1 : pc.extractLsb' 0 2 = 0#2 := by
      apply BitVec.eq_of_toNat_eq
      simp [BitVec.extractLsb'_toNat, h1]
    have e2 : pc.extractLsb' 57 7 = 0#7 := by
      apply BitVec.eq_of_toNat_eq
      simp only [BitVec.extractLsb'_toNat, Nat.shiftRight_eq_div_pow, Nat.div_eq_of_lt h2]; rfl
    simp [e1, e2]
  have e := fetchWord_kept hk vf pc.toNat false
  simp only [landing, a, Bool.false_eq_true, if_false]
  cases hf : fetchWord t c vf pc.toNat false with
  | mk r t' =>
    cases r with
    | error x => rfl
    | ok x =>
      rw [hf] at e
      have hx : fetchWord s c vf pc.toNat false = (.ok x, (fetchWord s c vf pc.toNat false).2) := Prod.ext e.symm rfl
      have := h3 x _ hx
      have h7 : ¬ x.extractLsb' 29 3 = 7#3 := by
        intro h7
        apply this
        have := congrArg BitVec.toNat h7
        simp only [BitVec.extractLsb'_toNat, Nat.shiftRight_eq_div_pow] at this
        have hx := x.isLt
        norm_num at this
        omega
      simp only [h7, if_false]

end Sys2Proof.Machine
end

