-- ==== Sys2Proof/Laws/Clean.lean ====
section
/-!
SUPPORT. Caches that agree with memory: what a translation, a fetch and a load then give, whether or not the caches keep what they
hold (04 R444), and that they agree afterwards.
-/

namespace Sys2Proof.Machine

open Sys2Proof

/-- A core but for its caches and counters. -/
def Core.bare (x : Core) : Core := { x with tlb := [], icache := [], l1 := [], requests := 0, counts := [] }

/-- `s` is `o` but for the caches of core `c`, the second-level TLBs and counters; the TLBs hold no leaf but `l`, and the lines that the
core and its slice hold are those of memory. -/
structure Clean (o s : State) (c : Nat) (l : Leaf) : Prop where
  root : SameRoot o s
  launches : s.launches = o.launches
  bare : (getCore s c).bare = (getCore o c).bare
  tlb : ∀ y ∈ (getCore s c).tlb, y = l
  tlb2 : ∀ y ∈ (getPart s (partOf c)).tlb2, y = l
  l1 : ∀ k y, sfind (getCore s c).l1 k = some y → y = freshLine o k
  l2 : ∀ k y, sfind (sliceOf s c) k = some y → y = freshLine o k
  icache : ∀ k d, sfind (getCore s c).icache k = some d → d = memBytes o (k * 64) 64

theorem clean_core {o s : State} {c : Nat} {l : Leaf} (h : Clean o s c l) (f : Core → Core)
    (hb : (f (getCore s c)).bare = (getCore s c).bare) (ht : ∀ y ∈ (f (getCore s c)).tlb, y = l)
    (h1 : ∀ k y, sfind (f (getCore s c)).l1 k = some y → y = freshLine o k)
    (hi : ∀ k d, sfind (f (getCore s c)).icache k = some d → d = memBytes o (k * 64) 64) : Clean o (onCore s c f) c l := by
  refine ⟨h.root.trans (root_onCore _ _ _), h.launches, ?_, ?_, h.tlb2, ?_, h.l2, ?_⟩ <;> rw [getCore_onCore_self]
  · exact hb.trans h.bare
  · exact ht
  · exact h1
  · exact hi

theorem clean_walked {o s : State} {c : Nat} {l : Leaf} (h : Clean o s c l) (p : Nat) : Clean o (walked s p) c l :=
  ⟨h.root.trans (root_walked _ _), h.launches, h.bare, h.tlb, h.tlb2, h.l1, h.l2, h.icache⟩

theorem clean_tlb {o s : State} {c : Nat} {l : Leaf} (h : Clean o s c l) (f : Core → List Leaf) (hf : ∀ y ∈ f (getCore s c), y = l) :
    Clean o (onCore s c (fun x => { x with tlb := f x })) c l := clean_core h _ rfl hf h.l1 h.icache

theorem clean_part {o s : State} {c : Nat} {l : Leaf} (h : Clean o s c l) (f : Part → Part) (hl : ∀ x, (f x).lost = x.lost)
    (ht : ∀ y ∈ (f (getPart s (partOf c))).tlb2, y = l)
    (h2 : ∀ k y, sfind (f (getPart s (partOf c))).l2 k = some y → y = freshLine o k) : Clean o (onPart s (partOf c) f) c l := by
  refine ⟨h.root.trans (root_onPart _ _ _ hl), h.launches, h.bare, h.tlb, ?_, h.l1, ?_, h.icache⟩
  · rw [getPart_onPart_self]; exact ht
  · simp only [sliceOf, getPart_onPart_self]; exact h2

theorem clean_mark {o s : State} {c : Nat} {l : Leaf} (h : Clean o s c l) (p n k : Nat) : Clean o (markPart s p n k) c l :=
  ⟨h.root.trans ⟨rfl, rfl, rfl, rfl, rfl, rfl, fun _ => rfl⟩, h.launches, h.bare, h.tlb, h.tlb2, h.l1, h.l2, h.icache⟩

/-- A leaf put into a TLB of leaves `l`. -/
theorem mem_putLeaf {s : State} {a n : Nat} {l : Leaf} {ls : List Leaf} (h : ∀ y ∈ ls, y = l) : ∀ y ∈ putLeaf s a n l ls, y = l := by
  intro y hy
  simp only [putLeaf] at hy
  rcases List.mem_cons.mp hy with rfl | hy
  · rfl
  · split at hy
    · exact h y hy
    · exact h y (List.mem_of_mem_eraseIdx hy)

theorem clean_putTlb {o s : State} {c : Nat} {l : Leaf} (h : Clean o s c l) : Clean o (putTlb s c l) c l :=
  clean_core h _ rfl (mem_putLeaf h.tlb) h.l1 h.icache

theorem clean_putTlb2 {o s : State} {c : Nat} {l : Leaf} (h : Clean o s c l) : Clean o (putTlb2 s (partOf c) l) c l :=
  clean_part h _ (fun _ => rfl) (mem_putLeaf h.tlb2) h.l2

theorem walk_clean {o s : State} {c : Nat} {l : Leaf} (h : Clean o s c l) (vf va : Nat) : walk s vf va = walk o vf va := walk_root h.root _ _

theorem walkIn_clean {o s : State} {c : Nat} {l : Leaf} (h : Clean o s c l) {vf va : Nat} (hw : walk o vf va = .ok l) :
    ∃ t, walkIn s c vf va = (.ok l, t) ∧ Clean o t c l := by
  refine ⟨putTlb2 (putTlb (walked s (partOf c)) c l) (partOf c) l, ?_, clean_putTlb2 (clean_putTlb (clean_walked h _))⟩
  rw [walkIn, (walk_clean h _ _).trans hw]; rfl

theorem findLeaf2_clean {o s : State} {c : Nat} {l : Leaf} (h : Clean o s c l) {vf va : Nat} (hw : walk o vf va = .ok l) :
    ∃ t, findLeaf2 s c vf va = (.ok l, t) ∧ Clean o t c l := by
  have hd : Clean o (dropTlb2 s (partOf c) vf va) c l :=
    clean_part h _ (fun _ => rfl) (fun y hy => h.tlb2 y (List.mem_filter.mp hy).1) h.l2
  rw [findLeaf2]
  cases hg : tlbFind (getPart s (partOf c)).tlb2 vf va with
  | none => exact walkIn_clean h hw
  | some y =>
    obtain rfl := h.tlb2 y (List.mem_of_find?_eq_some hg)
    simp only
    split
    · exact ⟨_, rfl, clean_putTlb h⟩
    · exact walkIn_clean hd hw

/-- The leaf of an address on the page of `l`. -/
theorem findLeaf_clean {o s : State} {c : Nat} {l : Leaf} (h : Clean o s c l) {vf va : Nat} (hw : walk o vf va = .ok l) :
    ∃ t, findLeaf s c vf va = (.ok l, t) ∧ Clean o t c l := by
  have hd : Clean o (dropTlb s c vf va) c l := clean_core h _ rfl (fun y hy => h.tlb y (List.mem_filter.mp hy).1) h.l1 h.icache
  rw [findLeaf]
  cases hg : tlbFind (getCore s c).tlb vf va with
  | none => exact findLeaf2_clean h hw
  | some y =>
    obtain rfl := h.tlb y (List.mem_of_find?_eq_some hg)
    simp only
    split
    · exact ⟨_, rfl, h⟩
    · exact findLeaf2_clean hd hw

/-- A translation of an address on the page of `l`. -/
theorem translate_clean {o s : State} {c : Nat} {l : Leaf} (h : Clean o s c l) {vf va : Nat} {a : Acc} {b : Bool} (hw : walk o vf va = .ok l)
    (hp : pageCause l a b = none) (hv : va < 2 ^ 57) :
    ∃ t, translate s c vf va a b = (.ok (leafKey o l va), t) ∧ Clean o t c l := by
  obtain ⟨t, ht, hc⟩ := findLeaf_clean h hw
  refine ⟨t, ?_, hc⟩
  unfold translate
  rw [if_neg (by simp only [bne_iff_ne, ne_eq, not_not]; omega), ht]
  simp only [hp]
  rw [leafKey_root hc.root]

/-- The cause of an access that the page of `l` does not allow. -/
theorem translate_denied {o s : State} {c : Nat} {l : Leaf} (h : Clean o s c l) {vf va x : Nat} {a : Acc} {b : Bool} (hw : walk o vf va = .ok l)
    (hp : pageCause l a b = some x) (hv : va < 2 ^ 57) : ∃ t, translate s c vf va a b = (.error x, t) ∧ Clean o t c l := by
  obtain ⟨t, ht, hc⟩ := findLeaf_clean h hw
  refine ⟨t, ?_, hc⟩
  unfold translate
  rw [if_neg (by simp only [bne_iff_ne, ne_eq, not_not]; omega), ht]
  simp only [hp]

/-- A line as a cache of instructions gives it. -/
theorem cacheLine_clean {s : State} {held : Sparse (List Byte)} {cache line : Nat} (f : Nat → List Byte)
    (hf : ∀ k d, sfind held k = some d → d = f k) (hb : memBytes s (line * 64) 64 = f line) (hm : memBad s (line * 64) 64 = false) :
    ∃ held', cacheLine s held cache line = .ok (f line, held') ∧ ∀ k d, sfind held' k = some d → d = f k := by
  have hfill : ∃ held', fillLine s held cache line = .ok (f line, held') ∧ ∀ k d, sfind held' k = some d → d = f k := by
    simp only [fillLine, hm, hb, Bool.false_eq_true, if_false]
    refine ⟨_, rfl, fun k d hd => ?_⟩
    by_cases hk : k = line
    · rw [hk, sfind_sput_self] at hd; rw [hk]; exact (Option.some.inj hd).symm
    · rw [sfind_sput_ne _ _ hk] at hd
      split at hd
      · exact hf k d hd
      · exact hf k d (sfind_serase_some hd)
  rw [cacheLine]
  cases hx : sfind held line with
  | none => exact hfill
  | some d =>
    obtain rfl := hf _ _ hx
    simp only
    split
    · exact ⟨_, rfl, hf⟩
    · exact hfill

/-- A word fetched on the page of `l`, in a line that holds no poisoned data. -/
theorem fetchWord_clean {o s : State} {c : Nat} {l : Leaf} (h : Clean o s c l) {vf va : Nat} {b : Bool} (hw : walk o vf va = .ok l)
    (hp : pageCause l .fetch b = none) (hv : va < 2 ^ 57) {k : Nat} (hk : leafKey o l va = k) (hm : memBad o (k / 64 * 64) 64 = false) :
    ∃ t, fetchWord s c vf va b = (.ok (BitVec.ofNat 32 (natLE (((memBytes o (k / 64 * 64) 64).drop (k % 64)).take 4))), t) ∧
      Clean o t c l := by
  obtain ⟨t, ht, hc⟩ := translate_clean h hw hp hv
  rw [hk] at ht
  obtain ⟨held, h1, h2⟩ := cacheLine_clean (s := t) (held := (getCore t c).icache) (cache := 2) (line := k / 64)
    (fun k => memBytes o (k * 64) 64) hc.icache (memBytes_root hc.root _ _) ((memBad_root hc.root _ _).trans hm)
  refine ⟨onCore t c (fun x => { x with icache := held }), ?_, clean_core hc _ rfl hc.tlb hc.l1 h2⟩
  unfold fetchWord
  rw [ht]
  dsimp only
  rw [h1]

/-! ## Loads -/

theorem memBytes_take (s : State) (k n : Nat) : ∀ m, n ≤ m → (memBytes s k m).take n = memBytes s k n := by
  induction n generalizing k with
  | zero => intro m _; rfl
  | succ n ih =>
    intro m hm
    cases m with
    | zero => omega
    | succ m => simp only [memBytes, List.take_succ_cons]; rw [ih (k + 1) m (by omega)]

theorem memBytes_drop (s : State) (k i : Nat) : ∀ m, i ≤ m → (memBytes s k m).drop i = memBytes s (k + i) (m - i) := by
  induction i generalizing k with
  | zero => intro m _; rfl
  | succ i ih =>
    intro m hm
    cases m with
    | zero => omega
    | succ m =>
      simp only [memBytes, List.drop_succ_cons]
      rw [ih (k + 1) m (by omega), show k + 1 + i = k + (i + 1) by omega, show m + 1 - (i + 1) = m - i by omega]

theorem line_slice (s : State) (k n m : Nat) (hm : k % 64 + n ≤ m) :
    ((memBytes s (k / 64 * 64) m).drop (k % 64)).take n = memBytes s k n := by
  rw [memBytes_drop _ _ _ _ (by omega), memBytes_take _ _ _ _ (by omega), show k / 64 * 64 + k % 64 = k by omega]

theorem fresh_clean {o s : State} {c : Nat} {l : Leaf} (h : Clean o s c l) (k : Nat) : freshLine s k = freshLine o k := by
  simp only [freshLine, memBytes_root h.root]

/-- A line of memory in a cache whose lines are those of memory. -/
theorem sput_fresh {o : State} {t : Sparse Line} (h : ∀ k y, sfind t k = some y → y = freshLine o k) (j : Nat) :
    ∀ k y, sfind (sput t j (freshLine o j)) k = some y → y = freshLine o k := by
  intro k y hy
  by_cases hk : k = j
  · rw [hk, sfind_sput_self] at hy; rw [hk]; exact (Option.some.inj hy).symm
  · rw [sfind_sput_ne _ _ hk] at hy; exact h k y hy

/-- Lines that are those of memory leave a cache without a write. -/
theorem leaveL1_clean {o s : State} {c : Nat} {l : Leaf} (h : Clean o s c l) (line : Nat) : Clean o (leaveL1 s c line) c l := by
  rw [leaveL1]
  cases hx : sfind (getCore s c).l1 line with
  | none => exact h
  | some y =>
    have hy : y.dirty = 0#64 := by rw [h.l1 _ _ hx]; rfl
    simp only [putBelow, hy, if_true]
    exact clean_core h _ rfl h.tlb (fun k z hz => h.l1 k z (sfind_serase_some hz)) h.icache

theorem dropSlice_clean {o s : State} {c : Nat} {l : Leaf} (h : Clean o s c l) (line : Nat) : Clean o (dropSlice s (partOf c) line) c l := by
  rw [dropSlice]
  cases hx : sfind (getPart s (partOf c)).l2 line with
  | none => exact h
  | some y =>
    have hz : y = freshLine o line := h.l2 _ _ hx
    have hy : y.dirty = 0#64 := by rw [hz]; rfl
    have hb : y.bad = false := by rw [hz]; rfl
    simp only [writeBack, hy, hb, if_true, Bool.false_and, Bool.false_eq_true, if_false]
    exact clean_part h _ (fun _ => rfl) h.tlb2 (fun k z hz => h.l2 k z (sfind_serase_some hz))

theorem putL1_clean {o s : State} {c : Nat} {l : Leaf} (h : Clean o s c l) (line : Nat) : Clean o (putL1 s c line (freshLine o line)) c l := by
  have hx : Clean o (if (sfind (getCore s c).l1 line).isSome || (getCore s c).l1.length < l1Lines then s
      else leaveL1 s c (victimOf s 1 (getCore s c).l1)) c l := by
    split
    exacts [h, leaveL1_clean h _]
  exact clean_core hx (fun x => { x with l1 := sput x.l1 line (freshLine o line) }) rfl hx.tlb (sput_fresh hx.l1 _) hx.icache

theorem putSlice_clean {o s : State} {c : Nat} {l : Leaf} (h : Clean o s c l) (line : Nat) :
    Clean o (putSlice s (partOf c) line (freshLine o line)) c l := by
  have hx : Clean o (if (sfind (getPart s (partOf c)).l2 line).isSome || (getPart s (partOf c)).l2.length < sliceLines then s
      else dropSlice s (partOf c) (victimOf s 2 (getPart s (partOf c)).l2)) c l := by
    split
    exacts [h, dropSlice_clean h _]
  exact clean_part hx (fun x => { x with l2 := sput x.l2 line (freshLine o line) }) (fun _ => rfl) hx.tlb2 (sput_fresh hx.l2 _)

theorem count_clean {o s : State} {c : Nat} {l : Leaf} (h : Clean o s c l) (n k : Nat) : Clean o (onCore s c (fun x => countCore x n k)) c l :=
  clean_core h _ rfl h.tlb h.l1 h.icache

/-- What the slice serves of a line that holds no poisoned data. -/
theorem loadSlice_clean {o s : State} {c : Nat} {l : Leaf} (h : Clean o s c l) {k n : Nat} (hn : k % 64 + n ≤ 64) (hm : memBad o k n = false) :
    ∃ t, loadSlice s (partOf c) k n = (memBytes o k n, false, t) ∧ Clean o t c l := by
  have hd : ((freshLine o (k / 64)).data.drop (k % 64)).take n = memBytes o k n := line_slice _ _ _ _ hn
  have h1 := clean_mark h (partOf c) 0x200 1
  have hp : getPart (markPart s (partOf c) 0x200 1) (partOf c) = getPart s (partOf c) := rfl
  rw [loadSlice]
  simp only
  cases hx : sfind (getPart (markPart s (partOf c) 0x200 1) (partOf c)).l2 (k / 64) with
  | some y =>
    have hy : y = freshLine o (k / 64) := h.l2 _ _ (by rw [hp] at hx; exact hx)
    have hb : y.bad = false := by rw [hy]; rfl
    have hd' : (y.data.drop (k % 64)).take n = memBytes o k n := by rw [hy]; exact hd
    simp only [hb, Bool.false_and, Bool.false_eq_true, if_false, hd']
    exact ⟨_, rfl, h1⟩
  | none =>
    have h2 := clean_mark h1 (partOf c) 0x201 1
    have hbad : memBad (markPart (markPart s (partOf c) 0x200 1) (partOf c) 0x201 1) k n = false := (memBad_root h2.root _ _).trans hm
    simp only [hbad, Bool.false_eq_true, if_false]
    rw [fresh_clean h2]
    exact ⟨_, by rw [hd], putSlice_clean h2 (k / 64)⟩

/-- A load within a line that holds no poisoned data. -/
theorem loadLine_clean {o s : State} {c : Nat} {l : Leaf} (h : Clean o s c l) {k n : Nat} (hn : k % 64 + n ≤ 64) (hm : memBad o k n = false) :
    ∃ t, loadLine s c k n false = (memBytes o k n, false, t) ∧ Clean o t c l := by
  rw [loadLine]
  simp only [Bool.false_or]
  split
  · exact loadSlice_clean (count_clean (leaveL1_clean h _) _ _) hn hm
  · cases hx : sfind (getCore s c).l1 (k / 64) with
    | some z =>
      have hz : z = freshLine o (k / 64) := h.l1 _ _ hx
      have hy : z.bad = false := by rw [hz]; rfl
      have hd' : (z.data.drop (k % 64)).take n = memBytes o k n := by rw [hz]; exact line_slice _ _ _ _ hn
      simp only [hy, Bool.false_and, Bool.false_eq_true, if_false, hd']
      exact ⟨_, rfl, h⟩
    | none =>
      obtain ⟨t, ht, hc⟩ := loadSlice_clean (count_clean h 0x006 1) hn hm
      have hs : ({ sliceLine t (partOf c) (k / 64) with dirty := 0#64 } : Line) = freshLine o (k / 64) := by
        simp only [sliceLine]
        cases hy : sfind (getPart t (partOf c)).l2 (k / 64) with
        | none => simp only [fresh_clean hc]; rfl
        | some y =>
          have hz : y = freshLine o (k / 64) := hc.l2 _ _ hy
          have hb : y.bad = false := by rw [hz]; rfl
          simp only [hb, Bool.false_and, Bool.false_eq_true, if_false]
          rw [hz]; rfl
      simp only [ht, hs]
      exact ⟨_, rfl, putL1_clean hc _⟩

/-! ## What an agent sees -/

theorem weave_clean {o s : State} {c : Nat} {l : Leaf} (h : Clean o s c l) (k : Nat) : getWeave s c k = getWeave o c k := by
  have := congrArg Core.weaves h.bare
  simp only [Core.bare] at this
  simp only [getWeave, this]

theorem inst_clean {o s : State} {c : Nat} {l : Leaf} (h : Clean o s c l) (k : Nat) : getInst s c k = getInst o c k := by
  have := congrArg Core.insts h.bare
  simp only [Core.bare] at this
  simp only [getInst, this]

theorem launch_clean {o s : State} {c : Nat} {l : Leaf} (h : Clean o s c l) (k : Nat) (j : Nat) :
    agentLaunch s (.weave c k) = agentLaunch o (.weave c k) ∧ getLaunch s j = getLaunch o j := by
  have hl : ∀ n, getLaunch s n = getLaunch o n := fun n => by simp only [getLaunch, h.launches]
  refine ⟨?_, hl j⟩
  simp only [agentLaunch, agentInst, weave_clean h, inst_clean h, coreOf, hl]

theorem agentVf_clean {o s : State} {c : Nat} {l : Leaf} (h : Clean o s c l) (k : Nat) : agentVf s (.weave c k) = agentVf o (.weave c k) := by
  have hx := congrArg Core.loan h.bare
  simp only [Core.bare] at hx
  simp only [agentVf, (launch_clean h k 0).1, ownerOf, coreOf, hx, h.root.vfs]

theorem pending_clean {o s : State} {c : Nat} {l : Leaf} (h : Clean o s c l) (k : Nat) : pendingOf s (.weave c k) = pendingOf o (.weave c k) := by
  simp only [pendingOf, weave_clean h]

/-- What a weave's load reads on the page of `l`: its launch stages nothing and no store of its own is on its way. -/
theorem loadBytes_clean {o s : State} {c k j n : Nat} {l : Leaf} (h : Clean o s c l) {la : Launch} (hla : agentLaunch o (.weave c k) = some la)
    (hs : getLaunch o la.serial = some la) (hst : la.staged = []) (hp : pendingOf o (.weave c k) = []) (h0 : 0 < n) (hn : j % 64 + n ≤ 64)
    (hm : memBad o j n = false) :
    ∃ t, loadBytes s (.weave c k) j n false = (.ok (memBytes o j n), t) ∧ Clean o t c l := by
  obtain ⟨t, ht, hc⟩ := loadLine_clean h hn hm
  refine ⟨t, ?_, hc⟩
  have hser : serialOf s (.weave c k) = some la.serial := by simp only [serialOf, (launch_clean h k 0).1, hla, Option.map_some]
  have hg : getLaunch s la.serial = some la := (launch_clean h k _).2.trans hs
  have hg' : getLaunch t la.serial = some la := (launch_clean hc k _).2.trans hs
  have hno : allStaged s (some la.serial) j n = false := by
    simp only [allStaged, Option.bind_some, hg, stagedByte, hst]
    cases n with
    | zero => omega
    | succ n => simp [sfind, List.range_succ_eq_map]
  have hcov : coveredBy [] false j n = false := by
    cases n with
    | zero => omega
    | succ n => simp [coveredBy, List.range_succ_eq_map]
  unfold loadBytes
  dsimp only
  rw [pending_clean h, hp, hcov]
  simp only [Bool.false_eq_true, if_false, coreOf, hser, loadGlobal, hno, ht, overlay, Option.bind_some, hg', hst, List.isEmpty_nil, if_true,
    pendingOver]

/-- A read of a weave on the page of `l`. -/
theorem agentRd_clean {o s : State} {c k va n : Nat} {l : Leaf} (h : Clean o s c l) {la : Launch} (hla : agentLaunch o (.weave c k) = some la)
    (hs : getLaunch o la.serial = some la) (hst : la.staged = []) (hp : pendingOf o (.weave c k) = [])
    (hw : walk o (agentVf o (.weave c k)) va = .ok l) (hl : pageCause l .load false = none) (hv : va < 2 ^ 57) (h0 : 0 < n)
    (hn : leafKey o l va % 64 + n ≤ 64) (hm : memBad o (leafKey o l va) n = false) :
    ∃ t, agentRd (.weave c k) s va n = (.ok (natLE (memBytes o (leafKey o l va) n)), t) ∧ Clean o t c l := by
  obtain ⟨t, ht, hc⟩ := translate_clean h hw hl hv
  obtain ⟨t', ht', hc'⟩ := loadBytes_clean hc hla hs hst hp h0 hn hm
  refine ⟨t', ?_, hc'⟩
  unfold agentRd
  simp only [coreOf, isHandler, agentVf_clean h, ht, ht']

/-! ## Records, accesses of threads -/

/-- Eight bytes at `va` lie on the page of `l`, in one line, without poisoned data. -/
structure OnPage (o : State) (vf : Nat) (l : Leaf) (va n : Nat) : Prop where
  walks : walk o vf va = .ok l
  low : va < 2 ^ 57
  line : leafKey o l va % 64 + n ≤ 64
  good : memBad o (leafKey o l va) n = false

/-- Aligned pieces of eight bytes read by a weave. -/
theorem readPieces_clean {o : State} {c k : Nat} {l : Leaf} {la : Launch} (hla : agentLaunch o (.weave c k) = some la)
    (hs : getLaunch o la.serial = some la) (hst : la.staged = []) (hp : pendingOf o (.weave c k) = []) (hl : pageCause l .load false = none) :
    ∀ m fuel s va, m < fuel → va % 8 = 0 → (∀ i, i < m → OnPage o (agentVf o (.weave c k)) l (va + 8 * i) 8) → Clean o s c l →
      ∃ t, readPieces (agentRd (.weave c k)) fuel s va (8 * m)
        = (.ok ((List.range m).flatMap (fun i => bytesLE 8 (natLE (memBytes o (leafKey o l (va + 8 * i)) 8)))), t) ∧ Clean o t c l := by
  intro m
  induction m with
  | zero =>
    intro fuel s va hf _ _ h
    cases fuel with
    | zero => omega
    | succ fuel => exact ⟨s, by simp [readPieces], h⟩
  | succ m ih =>
    intro fuel s va hf hv hg h
    cases fuel with
    | zero => omega
    | succ fuel =>
      have g := hg 0 (by omega)
      rw [Nat.mul_zero, Nat.add_zero] at g
      obtain ⟨t, ht, hc⟩ := agentRd_clean h hla hs hst hp g.walks hl g.low (by omega) g.line g.good
      obtain ⟨t', ht', hc'⟩ := ih fuel t (va + 8) (by omega) (by omega) (fun i hi => by
        have := hg (i + 1) (by omega)
        rwa [show va + 8 * (i + 1) = va + 8 + 8 * i by omega] at this) hc
      refine ⟨t', ?_, hc'⟩
      unfold readPieces
      dsimp only
      rw [if_neg (by omega), show min (8 * (m + 1)) (8 - va % 8) = 8 by omega, ht]
      dsimp only
      rw [show 8 * (m + 1) - 8 = 8 * m by omega, ht']
      dsimp only
      rw [List.range_succ_eq_map, List.flatMap_cons, List.flatMap_map]
      have hx : ∀ (x : List Byte) (f g : Nat → List Byte), f = g → x ++ (List.range m).flatMap f = x ++ (List.range m).flatMap g :=
        fun x f g hfg => by rw [hfg]
      have hy : ∀ {x y : List Byte}, x = y → (Except.ok (ε := Cause) x, t') = (Except.ok y, t') := fun hxy => by rw [hxy]
      refine hy (hx _ _ _ (funext fun i => ?_))
      rw [show va + 8 + 8 * i = va + 8 * (i + 1) by omega]

theorem countRequest_clean {o s : State} {c k : Nat} {l : Leaf} (h : Clean o s c l) (h0 : (getVf o (agentVf o (.weave c k))).sampleExp = 0)
    (tid : Nat) (acc : Acc) (pc va : Nat) (r : Except Nat Nat) : Clean o (countRequest s (.weave c k) tid acc pc va r) c l := by
  have hv : (getVf s (agentVf s (.weave c k))).sampleExp = 0 := by
    rw [agentVf_clean h]; simpa only [getVf, h.root.vfs] using h0
  unfold countRequest
  dsimp only
  rw [hv]
  simp only [bne_self_eq_false, Bool.false_and, Bool.false_eq_true, if_false, coreOf]
  exact clean_core h _ rfl h.tlb h.l1 h.icache

theorem ownCauses_clean {o s : State} {c k : Nat} {l : Leaf} (h : Clean o s c l) (va n : Nat) (acc : Acc) (b d : Bool) :
    ownCauses s (.weave c k) va n acc b d = ownCauses o (.weave c k) va n acc b d := by
  have hv : getVf s (agentVf o (.weave c k)) = getVf o (agentVf o (.weave c k)) := by simp only [getVf, h.root.vfs]
  unfold ownCauses inSpill
  rw [(launch_clean h k 0).1, agentVf_clean h, hv]

/-- A thread's access on the page of `l` that meets no cause. -/
theorem globalSite_clean {o s : State} {c k va n : Nat} {l : Leaf} {acc : Acc} (h : Clean o s c l)
    (hw : walk o (agentVf o (.weave c k)) va = .ok l) (hl : pageCause l acc false = none) (hv : va < 2 ^ 57) {d skip : Bool}
    (ho : lowestCode (ownCauses o (.weave c k) va n acc d skip) = none) :
    ∃ t, globalSite s (.weave c k) va n acc d skip = (.ok (leafKey o l va), t) ∧ Clean o t c l := by
  obtain ⟨t, ht, hc⟩ := translate_clean h hw hl hv
  refine ⟨t, ?_, hc⟩
  unfold globalSite
  dsimp only
  rw [agentVf_clean h, show coreOf (.weave c k) = c from rfl, show isHandler (.weave c k) = false from rfl, ht, ownCauses_clean h, ho]

/-- A thread's load on the page of `l`. -/
theorem loadGlobalOne_clean {o s : State} {c k va tid : Nat} {l : Leaf} {la : Launch} {e : Entry} {q : LoadReq} (h : Clean o s c l)
    (hla : agentLaunch o (.weave c k) = some la) (hs : getLaunch o la.serial = some la) (hst : la.staged = [])
    (hp : pendingOf o (.weave c k) = []) (hq : q.nl1 = false) (h0 : (getVf o (agentVf o (.weave c k))).sampleExp = 0)
    (hw : walk o (agentVf o (.weave c k)) va = .ok l) (hl : pageCause l .load false = none) (hv : va < 2 ^ 57) {d : Bool}
    (ho : lowestCode (ownCauses o (.weave c k) va (widthBytes q.width) .load d (e.skipWatch.getLsbD tid)) = none)
    (hn : leafKey o l va % 64 + widthBytes q.width ≤ 64) (hm : memBad o (leafKey o l va) (widthBytes q.width) = false)
    (hpos : 0 < widthBytes q.width) :
    ∃ t, loadGlobalOne s (.weave c k) e q d tid va = (.ok (loadValue q.width (memBytes o (leafKey o l va) (widthBytes q.width))), t) ∧
      Clean o t c l := by
  obtain ⟨t, ht, hc⟩ := globalSite_clean h hw hl hv ho
  obtain ⟨t', ht', hc'⟩ := loadBytes_clean (countRequest_clean hc h0 tid .load e.pc.toNat va (.ok (leafKey o l va))) hla hs hst hp hpos hn hm
  refine ⟨t', ?_, hc'⟩
  unfold loadGlobalOne
  dsimp only
  rw [ht]
  dsimp only
  rw [hq, ht']

/-- A thread's store on the page of `l`. -/
theorem storeSite_clean {o s : State} {c k tid : Nat} {l : Leaf} {e : Entry} {q : StoreQ} {va v : Double} (h : Clean o s c l)
    (hq : q.circle = false) (h0 : (getVf o (agentVf o (.weave c k))).sampleExp = 0) (hw : walk o (agentVf o (.weave c k)) va.toNat = .ok l)
    (hl : pageCause l .store false = none) (hv : va.toNat < 2 ^ 57) {d : Bool}
    (ho : lowestCode (ownCauses o (.weave c k) va.toNat (widthBytes q.width) .store d (e.skipWatch.getLsbD tid)) = none) :
    ∃ t, storeSite s (.weave c k) e q d tid (.ok va) (.ok v)
      = (.ok { circle := false, va := va.toNat, key := leafKey o l va.toNat, data := bytesLE (widthBytes q.width) v.toNat, full := false, bits := [] }, t) ∧
      Clean o t c l := by
  obtain ⟨t, ht, hc⟩ := globalSite_clean h hw hl hv ho
  refine ⟨_, ?_, countRequest_clean hc h0 tid .store e.pc.toNat va.toNat (.ok (leafKey o l va.toNat))⟩
  unfold storeSite
  dsimp only
  rw [hq, if_neg (by decide), ht]

/-- A core's caches are empty. -/
theorem clean_refl {o : State} {c : Nat} (l : Leaf) (h1 : (getCore o c).tlb = []) (h2 : (getPart o (partOf c)).tlb2 = [])
    (h3 : (getCore o c).l1 = []) (h4 : (getCore o c).icache = []) (h5 : (getPart o (partOf c)).l2 = []) : Clean o o c l := by
  refine ⟨SameRoot.refl _, rfl, rfl, fun y hy => ?_, fun y hy => ?_, fun k y hy => ?_, fun k y hy => ?_, fun k d hd => ?_⟩
  · rw [h1] at hy; cases hy
  · rw [h2] at hy; cases hy
  · rw [h3] at hy; cases hy
  · simp only [sliceOf, h5] at hy; cases hy
  · rw [h4] at hd; cases hd

end Sys2Proof.Machine
end

