-- ==== Sys2Proof/Laws/Fields.lean ====
section
/-!
SUPPORT. The fields of the words and payloads that the encoder puts together (03 R29 to R45), each read back.
-/

namespace Sys2Proof.Laws

open Sys2Proof

theorem cat_raw_op (op : BitVec 9) (s : Bool) (c : Bool) (d : BitVec 7) (a : BitVec 7) (b : BitVec 7) : (op ++ BitVec.ofBool s ++ BitVec.ofBool c ++ d ++ a ++ b : BitVec 32).extractLsb' 23 9 = op := by
  apply BitVec.eq_of_getLsbD_eq; intro i hi
  simp only [BitVec.getLsbD_extractLsb', BitVec.getLsbD_append, hi, decide_true, Bool.true_and]
  simp (disch := omega) only [if_neg]
  congr 1; omega
theorem cat_raw_s (op : BitVec 9) (s : Bool) (c : Bool) (d : BitVec 7) (a : BitVec 7) (b : BitVec 7) : (op ++ BitVec.ofBool s ++ BitVec.ofBool c ++ d ++ a ++ b : BitVec 32).getLsbD 22 = s := by
  simp only [BitVec.getLsbD_append]; simp
theorem cat_raw_c (op : BitVec 9) (s : Bool) (c : Bool) (d : BitVec 7) (a : BitVec 7) (b : BitVec 7) : (op ++ BitVec.ofBool s ++ BitVec.ofBool c ++ d ++ a ++ b : BitVec 32).getLsbD 21 = c := by
  simp only [BitVec.getLsbD_append]; simp
theorem cat_raw_d (op : BitVec 9) (s : Bool) (c : Bool) (d : BitVec 7) (a : BitVec 7) (b : BitVec 7) : (op ++ BitVec.ofBool s ++ BitVec.ofBool c ++ d ++ a ++ b : BitVec 32).extractLsb' 14 7 = d := by
  apply BitVec.eq_of_getLsbD_eq; intro i hi
  simp only [BitVec.getLsbD_extractLsb', BitVec.getLsbD_append, hi, decide_true, Bool.true_and]
  simp (disch := omega) only [if_neg, if_pos]
  congr 1; omega
theorem cat_raw_a (op : BitVec 9) (s : Bool) (c : Bool) (d : BitVec 7) (a : BitVec 7) (b : BitVec 7) : (op ++ BitVec.ofBool s ++ BitVec.ofBool c ++ d ++ a ++ b : BitVec 32).extractLsb' 7 7 = a := by
  apply BitVec.eq_of_getLsbD_eq; intro i hi
  simp only [BitVec.getLsbD_extractLsb', BitVec.getLsbD_append, hi, decide_true, Bool.true_and]
  simp (disch := omega) only [if_neg, if_pos]
  congr 1; omega
theorem cat_raw_b (op : BitVec 9) (s : Bool) (c : Bool) (d : BitVec 7) (a : BitVec 7) (b : BitVec 7) : (op ++ BitVec.ofBool s ++ BitVec.ofBool c ++ d ++ a ++ b : BitVec 32).extractLsb' 0 7 = b := by
  apply BitVec.eq_of_getLsbD_eq; intro i hi
  simp only [BitVec.getLsbD_extractLsb', BitVec.getLsbD_append, hi, decide_true, Bool.true_and]
  simp (disch := omega) only [if_pos]
  congr 1; omega

theorem cat_lit_c0 (p : BitVec 28) : (14#4 ++ p : BitVec 32).extractLsb' 28 4 = 14#4 := by
  apply BitVec.eq_of_getLsbD_eq; intro i hi
  simp only [BitVec.getLsbD_extractLsb', BitVec.getLsbD_append, hi, decide_true, Bool.true_and]
  simp (disch := omega) only [if_neg]
  congr 1; omega
theorem cat_lit_p (p : BitVec 28) : (14#4 ++ p : BitVec 32).extractLsb' 0 28 = p := by
  apply BitVec.eq_of_getLsbD_eq; intro i hi
  simp only [BitVec.getLsbD_extractLsb', BitVec.getLsbD_append, hi, decide_true, Bool.true_and]
  simp (disch := omega) only [if_pos]
  congr 1; omega

theorem cat_mod_c0 (vc : BitVec 7) (na : BitVec 2) (nb : BitVec 2) (e : BitVec 8) (r : BitVec 3) (p : BitVec 3) (l : Bool) (u : Bool) : (15#4 ++ vc ++ na ++ nb ++ e ++ r ++ p ++ BitVec.ofBool l ++ BitVec.ofBool u ++ 0#1 : BitVec 32).extractLsb' 28 4 = 15#4 := by
  apply BitVec.eq_of_getLsbD_eq; intro i hi
  simp only [BitVec.getLsbD_extractLsb', BitVec.getLsbD_append, hi, decide_true, Bool.true_and]
  simp (disch := omega) only [if_neg]
  congr 1; omega
theorem cat_mod_vc (vc : BitVec 7) (na : BitVec 2) (nb : BitVec 2) (e : BitVec 8) (r : BitVec 3) (p : BitVec 3) (l : Bool) (u : Bool) : (15#4 ++ vc ++ na ++ nb ++ e ++ r ++ p ++ BitVec.ofBool l ++ BitVec.ofBool u ++ 0#1 : BitVec 32).extractLsb' 21 7 = vc := by
  apply BitVec.eq_of_getLsbD_eq; intro i hi
  simp only [BitVec.getLsbD_extractLsb', BitVec.getLsbD_append, hi, decide_true, Bool.true_and]
  simp (disch := omega) only [if_neg, if_pos]
  congr 1; omega
theorem cat_mod_na (vc : BitVec 7) (na : BitVec 2) (nb : BitVec 2) (e : BitVec 8) (r : BitVec 3) (p : BitVec 3) (l : Bool) (u : Bool) : (15#4 ++ vc ++ na ++ nb ++ e ++ r ++ p ++ BitVec.ofBool l ++ BitVec.ofBool u ++ 0#1 : BitVec 32).extractLsb' 19 2 = na := by
  apply BitVec.eq_of_getLsbD_eq; intro i hi
  simp only [BitVec.getLsbD_extractLsb', BitVec.getLsbD_append, hi, decide_true, Bool.true_and]
  simp (disch := omega) only [if_neg, if_pos]
  congr 1; omega
theorem cat_mod_nb (vc : BitVec 7) (na : BitVec 2) (nb : BitVec 2) (e : BitVec 8) (r : BitVec 3) (p : BitVec 3) (l : Bool) (u : Bool) : (15#4 ++ vc ++ na ++ nb ++ e ++ r ++ p ++ BitVec.ofBool l ++ BitVec.ofBool u ++ 0#1 : BitVec 32).extractLsb' 17 2 = nb := by
  apply BitVec.eq_of_getLsbD_eq; intro i hi
  simp only [BitVec.getLsbD_extractLsb', BitVec.getLsbD_append, hi, decide_true, Bool.true_and]
  simp (disch := omega) only [if_neg, if_pos]
  congr 1; omega
theorem cat_mod_e (vc : BitVec 7) (na : BitVec 2) (nb : BitVec 2) (e : BitVec 8) (r : BitVec 3) (p : BitVec 3) (l : Bool) (u : Bool) : (15#4 ++ vc ++ na ++ nb ++ e ++ r ++ p ++ BitVec.ofBool l ++ BitVec.ofBool u ++ 0#1 : BitVec 32).extractLsb' 9 8 = e := by
  apply BitVec.eq_of_getLsbD_eq; intro i hi
  simp only [BitVec.getLsbD_extractLsb', BitVec.getLsbD_append, hi, decide_true, Bool.true_and]
  simp (disch := omega) only [if_neg, if_pos]
  congr 1; omega
theorem cat_mod_r (vc : BitVec 7) (na : BitVec 2) (nb : BitVec 2) (e : BitVec 8) (r : BitVec 3) (p : BitVec 3) (l : Bool) (u : Bool) : (15#4 ++ vc ++ na ++ nb ++ e ++ r ++ p ++ BitVec.ofBool l ++ BitVec.ofBool u ++ 0#1 : BitVec 32).extractLsb' 6 3 = r := by
  apply BitVec.eq_of_getLsbD_eq; intro i hi
  simp only [BitVec.getLsbD_extractLsb', BitVec.getLsbD_append, hi, decide_true, Bool.true_and]
  simp (disch := omega) only [if_neg, if_pos]
  congr 1; omega
theorem cat_mod_p (vc : BitVec 7) (na : BitVec 2) (nb : BitVec 2) (e : BitVec 8) (r : BitVec 3) (p : BitVec 3) (l : Bool) (u : Bool) : (15#4 ++ vc ++ na ++ nb ++ e ++ r ++ p ++ BitVec.ofBool l ++ BitVec.ofBool u ++ 0#1 : BitVec 32).extractLsb' 3 3 = p := by
  apply BitVec.eq_of_getLsbD_eq; intro i hi
  simp only [BitVec.getLsbD_extractLsb', BitVec.getLsbD_append, hi, decide_true, Bool.true_and]
  simp (disch := omega) only [if_neg, if_pos]
  congr 1; omega
theorem cat_mod_l (vc : BitVec 7) (na : BitVec 2) (nb : BitVec 2) (e : BitVec 8) (r : BitVec 3) (p : BitVec 3) (l : Bool) (u : Bool) : (15#4 ++ vc ++ na ++ nb ++ e ++ r ++ p ++ BitVec.ofBool l ++ BitVec.ofBool u ++ 0#1 : BitVec 32).getLsbD 2 = l := by
  simp only [BitVec.getLsbD_append]; simp
theorem cat_mod_u (vc : BitVec 7) (na : BitVec 2) (nb : BitVec 2) (e : BitVec 8) (r : BitVec 3) (p : BitVec 3) (l : Bool) (u : Bool) : (15#4 ++ vc ++ na ++ nb ++ e ++ r ++ p ++ BitVec.ofBool l ++ BitVec.ofBool u ++ 0#1 : BitVec 32).getLsbD 1 = u := by
  simp only [BitVec.getLsbD_append]; simp
theorem cat_mod_c9 (vc : BitVec 7) (na : BitVec 2) (nb : BitVec 2) (e : BitVec 8) (r : BitVec 3) (p : BitVec 3) (l : Bool) (u : Bool) : (15#4 ++ vc ++ na ++ nb ++ e ++ r ++ p ++ BitVec.ofBool l ++ BitVec.ofBool u ++ 0#1 : BitVec 32).extractLsb' 0 1 = 0#1 := by
  apply BitVec.eq_of_getLsbD_eq; intro i hi
  simp only [BitVec.getLsbD_extractLsb', BitVec.getLsbD_append, hi, decide_true, Bool.true_and]
  simp (disch := omega) only [if_pos]
  congr 1; omega

theorem cat_qual_c0 (w : BitVec 3) (o : BitVec 3) (sc : BitVec 3) (fe : BitVec 2) (h : BitVec 2) : (0#4 ++ w ++ o ++ sc ++ fe ++ h ++ 0#11 : BitVec 28).extractLsb' 24 4 = 0#4 := by
  apply BitVec.eq_of_getLsbD_eq; intro i hi
  simp only [BitVec.getLsbD_extractLsb', BitVec.getLsbD_append, hi, decide_true, Bool.true_and]
  simp (disch := omega) only [if_neg]
  congr 1; omega
theorem cat_qual_w (w : BitVec 3) (o : BitVec 3) (sc : BitVec 3) (fe : BitVec 2) (h : BitVec 2) : (0#4 ++ w ++ o ++ sc ++ fe ++ h ++ 0#11 : BitVec 28).extractLsb' 21 3 = w := by
  apply BitVec.eq_of_getLsbD_eq; intro i hi
  simp only [BitVec.getLsbD_extractLsb', BitVec.getLsbD_append, hi, decide_true, Bool.true_and]
  simp (disch := omega) only [if_neg, if_pos]
  congr 1; omega
theorem cat_qual_o (w : BitVec 3) (o : BitVec 3) (sc : BitVec 3) (fe : BitVec 2) (h : BitVec 2) : (0#4 ++ w ++ o ++ sc ++ fe ++ h ++ 0#11 : BitVec 28).extractLsb' 18 3 = o := by
  apply BitVec.eq_of_getLsbD_eq; intro i hi
  simp only [BitVec.getLsbD_extractLsb', BitVec.getLsbD_append, hi, decide_true, Bool.true_and]
  simp (disch := omega) only [if_neg, if_pos]
  congr 1; omega
theorem cat_qual_sc (w : BitVec 3) (o : BitVec 3) (sc : BitVec 3) (fe : BitVec 2) (h : BitVec 2) : (0#4 ++ w ++ o ++ sc ++ fe ++ h ++ 0#11 : BitVec 28).extractLsb' 15 3 = sc := by
  apply BitVec.eq_of_getLsbD_eq; intro i hi
  simp only [BitVec.getLsbD_extractLsb', BitVec.getLsbD_append, hi, decide_true, Bool.true_and]
  simp (disch := omega) only [if_neg, if_pos]
  congr 1; omega
theorem cat_qual_fe (w : BitVec 3) (o : BitVec 3) (sc : BitVec 3) (fe : BitVec 2) (h : BitVec 2) : (0#4 ++ w ++ o ++ sc ++ fe ++ h ++ 0#11 : BitVec 28).extractLsb' 13 2 = fe := by
  apply BitVec.eq_of_getLsbD_eq; intro i hi
  simp only [BitVec.getLsbD_extractLsb', BitVec.getLsbD_append, hi, decide_true, Bool.true_and]
  simp (disch := omega) only [if_neg, if_pos]
  congr 1; omega
theorem cat_qual_h (w : BitVec 3) (o : BitVec 3) (sc : BitVec 3) (fe : BitVec 2) (h : BitVec 2) : (0#4 ++ w ++ o ++ sc ++ fe ++ h ++ 0#11 : BitVec 28).extractLsb' 11 2 = h := by
  apply BitVec.eq_of_getLsbD_eq; intro i hi
  simp only [BitVec.getLsbD_extractLsb', BitVec.getLsbD_append, hi, decide_true, Bool.true_and]
  simp (disch := omega) only [if_neg, if_pos]
  congr 1; omega
theorem cat_qual_c6 (w : BitVec 3) (o : BitVec 3) (sc : BitVec 3) (fe : BitVec 2) (h : BitVec 2) : (0#4 ++ w ++ o ++ sc ++ fe ++ h ++ 0#11 : BitVec 28).extractLsb' 0 11 = 0#11 := by
  apply BitVec.eq_of_getLsbD_eq; intro i hi
  simp only [BitVec.getLsbD_extractLsb', BitVec.getLsbD_append, hi, decide_true, Bool.true_and]
  simp (disch := omega) only [if_pos]
  congr 1; omega

theorem cat_atomq_op (op : BitVec 4) (ty : BitVec 3) (o : BitVec 3) (sc : BitVec 3) (ci : Bool) (rt : Bool) : (op ++ ty ++ o ++ sc ++ BitVec.ofBool ci ++ BitVec.ofBool rt ++ 0#13 : BitVec 28).extractLsb' 24 4 = op := by
  apply BitVec.eq_of_getLsbD_eq; intro i hi
  simp only [BitVec.getLsbD_extractLsb', BitVec.getLsbD_append, hi, decide_true, Bool.true_and]
  simp (disch := omega) only [if_neg]
  congr 1; omega
theorem cat_atomq_ty (op : BitVec 4) (ty : BitVec 3) (o : BitVec 3) (sc : BitVec 3) (ci : Bool) (rt : Bool) : (op ++ ty ++ o ++ sc ++ BitVec.ofBool ci ++ BitVec.ofBool rt ++ 0#13 : BitVec 28).extractLsb' 21 3 = ty := by
  apply BitVec.eq_of_getLsbD_eq; intro i hi
  simp only [BitVec.getLsbD_extractLsb', BitVec.getLsbD_append, hi, decide_true, Bool.true_and]
  simp (disch := omega) only [if_neg, if_pos]
  congr 1; omega
theorem cat_atomq_o (op : BitVec 4) (ty : BitVec 3) (o : BitVec 3) (sc : BitVec 3) (ci : Bool) (rt : Bool) : (op ++ ty ++ o ++ sc ++ BitVec.ofBool ci ++ BitVec.ofBool rt ++ 0#13 : BitVec 28).extractLsb' 18 3 = o := by
  apply BitVec.eq_of_getLsbD_eq; intro i hi
  simp only [BitVec.getLsbD_extractLsb', BitVec.getLsbD_append, hi, decide_true, Bool.true_and]
  simp (disch := omega) only [if_neg, if_pos]
  congr 1; omega
theorem cat_atomq_sc (op : BitVec 4) (ty : BitVec 3) (o : BitVec 3) (sc : BitVec 3) (ci : Bool) (rt : Bool) : (op ++ ty ++ o ++ sc ++ BitVec.ofBool ci ++ BitVec.ofBool rt ++ 0#13 : BitVec 28).extractLsb' 15 3 = sc := by
  apply BitVec.eq_of_getLsbD_eq; intro i hi
  simp only [BitVec.getLsbD_extractLsb', BitVec.getLsbD_append, hi, decide_true, Bool.true_and]
  simp (disch := omega) only [if_neg, if_pos]
  congr 1; omega
theorem cat_atomq_ci (op : BitVec 4) (ty : BitVec 3) (o : BitVec 3) (sc : BitVec 3) (ci : Bool) (rt : Bool) : (op ++ ty ++ o ++ sc ++ BitVec.ofBool ci ++ BitVec.ofBool rt ++ 0#13 : BitVec 28).getLsbD 14 = ci := by
  simp only [BitVec.getLsbD_append]; simp
theorem cat_atomq_rt (op : BitVec 4) (ty : BitVec 3) (o : BitVec 3) (sc : BitVec 3) (ci : Bool) (rt : Bool) : (op ++ ty ++ o ++ sc ++ BitVec.ofBool ci ++ BitVec.ofBool rt ++ 0#13 : BitVec 28).getLsbD 13 = rt := by
  simp only [BitVec.getLsbD_append]; simp
theorem cat_atomq_c6 (op : BitVec 4) (ty : BitVec 3) (o : BitVec 3) (sc : BitVec 3) (ci : Bool) (rt : Bool) : (op ++ ty ++ o ++ sc ++ BitVec.ofBool ci ++ BitVec.ofBool rt ++ 0#13 : BitVec 28).extractLsb' 0 13 = 0#13 := by
  apply BitVec.eq_of_getLsbD_eq; intro i hi
  simp only [BitVec.getLsbD_extractLsb', BitVec.getLsbD_append, hi, decide_true, Bool.true_and]
  simp (disch := omega) only [if_pos]
  congr 1; omega

theorem cat_cvtStd_c0 (s : BitVec 4) (r : BitVec 3) (d : BitVec 4) : (0#2 ++ s ++ r ++ 0#3 ++ d ++ 0#12 : BitVec 28).extractLsb' 26 2 = 0#2 := by
  apply BitVec.eq_of_getLsbD_eq; intro i hi
  simp only [BitVec.getLsbD_extractLsb', BitVec.getLsbD_append, hi, decide_true, Bool.true_and]
  simp (disch := omega) only [if_neg]
  congr 1; omega
theorem cat_cvtStd_s (s : BitVec 4) (r : BitVec 3) (d : BitVec 4) : (0#2 ++ s ++ r ++ 0#3 ++ d ++ 0#12 : BitVec 28).extractLsb' 22 4 = s := by
  apply BitVec.eq_of_getLsbD_eq; intro i hi
  simp only [BitVec.getLsbD_extractLsb', BitVec.getLsbD_append, hi, decide_true, Bool.true_and]
  simp (disch := omega) only [if_neg, if_pos]
  congr 1; omega
theorem cat_cvtStd_r (s : BitVec 4) (r : BitVec 3) (d : BitVec 4) : (0#2 ++ s ++ r ++ 0#3 ++ d ++ 0#12 : BitVec 28).extractLsb' 19 3 = r := by
  apply BitVec.eq_of_getLsbD_eq; intro i hi
  simp only [BitVec.getLsbD_extractLsb', BitVec.getLsbD_append, hi, decide_true, Bool.true_and]
  simp (disch := omega) only [if_neg, if_pos]
  congr 1; omega
theorem cat_cvtStd_c3 (s : BitVec 4) (r : BitVec 3) (d : BitVec 4) : (0#2 ++ s ++ r ++ 0#3 ++ d ++ 0#12 : BitVec 28).extractLsb' 16 3 = 0#3 := by
  apply BitVec.eq_of_getLsbD_eq; intro i hi
  simp only [BitVec.getLsbD_extractLsb', BitVec.getLsbD_append, hi, decide_true, Bool.true_and]
  simp (disch := omega) only [if_neg, if_pos]
  congr 1; omega
theorem cat_cvtStd_d (s : BitVec 4) (r : BitVec 3) (d : BitVec 4) : (0#2 ++ s ++ r ++ 0#3 ++ d ++ 0#12 : BitVec 28).extractLsb' 12 4 = d := by
  apply BitVec.eq_of_getLsbD_eq; intro i hi
  simp only [BitVec.getLsbD_extractLsb', BitVec.getLsbD_append, hi, decide_true, Bool.true_and]
  simp (disch := omega) only [if_neg, if_pos]
  congr 1; omega
theorem cat_cvtStd_c5 (s : BitVec 4) (r : BitVec 3) (d : BitVec 4) : (0#2 ++ s ++ r ++ 0#3 ++ d ++ 0#12 : BitVec 28).extractLsb' 0 12 = 0#12 := by
  apply BitVec.eq_of_getLsbD_eq; intro i hi
  simp only [BitVec.getLsbD_extractLsb', BitVec.getLsbD_append, hi, decide_true, Bool.true_and]
  simp (disch := omega) only [if_pos]
  congr 1; omega

theorem cat_cvtTo_c0 (s : BitVec 4) (r : BitVec 3) (k : BitVec 16) : (1#2 ++ s ++ r ++ 0#3 ++ k : BitVec 28).extractLsb' 26 2 = 1#2 := by
  apply BitVec.eq_of_getLsbD_eq; intro i hi
  simp only [BitVec.getLsbD_extractLsb', BitVec.getLsbD_append, hi, decide_true, Bool.true_and]
  simp (disch := omega) only [if_neg]
  congr 1; omega
theorem cat_cvtTo_s (s : BitVec 4) (r : BitVec 3) (k : BitVec 16) : (1#2 ++ s ++ r ++ 0#3 ++ k : BitVec 28).extractLsb' 22 4 = s := by
  apply BitVec.eq_of_getLsbD_eq; intro i hi
  simp only [BitVec.getLsbD_extractLsb', BitVec.getLsbD_append, hi, decide_true, Bool.true_and]
  simp (disch := omega) only [if_neg, if_pos]
  congr 1; omega
theorem cat_cvtTo_r (s : BitVec 4) (r : BitVec 3) (k : BitVec 16) : (1#2 ++ s ++ r ++ 0#3 ++ k : BitVec 28).extractLsb' 19 3 = r := by
  apply BitVec.eq_of_getLsbD_eq; intro i hi
  simp only [BitVec.getLsbD_extractLsb', BitVec.getLsbD_append, hi, decide_true, Bool.true_and]
  simp (disch := omega) only [if_neg, if_pos]
  congr 1; omega
theorem cat_cvtTo_c3 (s : BitVec 4) (r : BitVec 3) (k : BitVec 16) : (1#2 ++ s ++ r ++ 0#3 ++ k : BitVec 28).extractLsb' 16 3 = 0#3 := by
  apply BitVec.eq_of_getLsbD_eq; intro i hi
  simp only [BitVec.getLsbD_extractLsb', BitVec.getLsbD_append, hi, decide_true, Bool.true_and]
  simp (disch := omega) only [if_neg, if_pos]
  congr 1; omega
theorem cat_cvtTo_k (s : BitVec 4) (r : BitVec 3) (k : BitVec 16) : (1#2 ++ s ++ r ++ 0#3 ++ k : BitVec 28).extractLsb' 0 16 = k := by
  apply BitVec.eq_of_getLsbD_eq; intro i hi
  simp only [BitVec.getLsbD_extractLsb', BitVec.getLsbD_append, hi, decide_true, Bool.true_and]
  simp (disch := omega) only [if_pos]
  congr 1; omega

theorem cat_cvtFrom_c0 (s : BitVec 4) (r : BitVec 3) (k : BitVec 16) : (2#2 ++ s ++ r ++ 0#3 ++ k : BitVec 28).extractLsb' 26 2 = 2#2 := by
  apply BitVec.eq_of_getLsbD_eq; intro i hi
  simp only [BitVec.getLsbD_extractLsb', BitVec.getLsbD_append, hi, decide_true, Bool.true_and]
  simp (disch := omega) only [if_neg]
  congr 1; omega
theorem cat_cvtFrom_s (s : BitVec 4) (r : BitVec 3) (k : BitVec 16) : (2#2 ++ s ++ r ++ 0#3 ++ k : BitVec 28).extractLsb' 22 4 = s := by
  apply BitVec.eq_of_getLsbD_eq; intro i hi
  simp only [BitVec.getLsbD_extractLsb', BitVec.getLsbD_append, hi, decide_true, Bool.true_and]
  simp (disch := omega) only [if_neg, if_pos]
  congr 1; omega
theorem cat_cvtFrom_r (s : BitVec 4) (r : BitVec 3) (k : BitVec 16) : (2#2 ++ s ++ r ++ 0#3 ++ k : BitVec 28).extractLsb' 19 3 = r := by
  apply BitVec.eq_of_getLsbD_eq; intro i hi
  simp only [BitVec.getLsbD_extractLsb', BitVec.getLsbD_append, hi, decide_true, Bool.true_and]
  simp (disch := omega) only [if_neg, if_pos]
  congr 1; omega
theorem cat_cvtFrom_c3 (s : BitVec 4) (r : BitVec 3) (k : BitVec 16) : (2#2 ++ s ++ r ++ 0#3 ++ k : BitVec 28).extractLsb' 16 3 = 0#3 := by
  apply BitVec.eq_of_getLsbD_eq; intro i hi
  simp only [BitVec.getLsbD_extractLsb', BitVec.getLsbD_append, hi, decide_true, Bool.true_and]
  simp (disch := omega) only [if_neg, if_pos]
  congr 1; omega
theorem cat_cvtFrom_k (s : BitVec 4) (r : BitVec 3) (k : BitVec 16) : (2#2 ++ s ++ r ++ 0#3 ++ k : BitVec 28).extractLsb' 0 16 = k := by
  apply BitVec.eq_of_getLsbD_eq; intro i hi
  simp only [BitVec.getLsbD_extractLsb', BitVec.getLsbD_append, hi, decide_true, Bool.true_and]
  simp (disch := omega) only [if_pos]
  congr 1; omega

theorem cat_branch_op (op : BitVec 9) (prio : BitVec 16) (p : BitVec 3) (l : Bool) : (op ++ 0#2 ++ prio ++ p ++ BitVec.ofBool l ++ 0#1 : BitVec 32).extractLsb' 23 9 = op := by
  apply BitVec.eq_of_getLsbD_eq; intro i hi
  simp only [BitVec.getLsbD_extractLsb', BitVec.getLsbD_append, hi, decide_true, Bool.true_and]
  simp (disch := omega) only [if_neg]
  congr 1; omega
theorem cat_branch_c1 (op : BitVec 9) (prio : BitVec 16) (p : BitVec 3) (l : Bool) : (op ++ 0#2 ++ prio ++ p ++ BitVec.ofBool l ++ 0#1 : BitVec 32).extractLsb' 21 2 = 0#2 := by
  apply BitVec.eq_of_getLsbD_eq; intro i hi
  simp only [BitVec.getLsbD_extractLsb', BitVec.getLsbD_append, hi, decide_true, Bool.true_and]
  simp (disch := omega) only [if_neg, if_pos]
  congr 1; omega
theorem cat_branch_prio (op : BitVec 9) (prio : BitVec 16) (p : BitVec 3) (l : Bool) : (op ++ 0#2 ++ prio ++ p ++ BitVec.ofBool l ++ 0#1 : BitVec 32).extractLsb' 5 16 = prio := by
  apply BitVec.eq_of_getLsbD_eq; intro i hi
  simp only [BitVec.getLsbD_extractLsb', BitVec.getLsbD_append, hi, decide_true, Bool.true_and]
  simp (disch := omega) only [if_neg, if_pos]
  congr 1; omega
theorem cat_branch_p (op : BitVec 9) (prio : BitVec 16) (p : BitVec 3) (l : Bool) : (op ++ 0#2 ++ prio ++ p ++ BitVec.ofBool l ++ 0#1 : BitVec 32).extractLsb' 2 3 = p := by
  apply BitVec.eq_of_getLsbD_eq; intro i hi
  simp only [BitVec.getLsbD_extractLsb', BitVec.getLsbD_append, hi, decide_true, Bool.true_and]
  simp (disch := omega) only [if_neg, if_pos]
  congr 1; omega
theorem cat_branch_l (op : BitVec 9) (prio : BitVec 16) (p : BitVec 3) (l : Bool) : (op ++ 0#2 ++ prio ++ p ++ BitVec.ofBool l ++ 0#1 : BitVec 32).getLsbD 1 = l := by
  simp only [BitVec.getLsbD_append]; simp
theorem cat_branch_c5 (op : BitVec 9) (prio : BitVec 16) (p : BitVec 3) (l : Bool) : (op ++ 0#2 ++ prio ++ p ++ BitVec.ofBool l ++ 0#1 : BitVec 32).extractLsb' 0 1 = 0#1 := by
  apply BitVec.eq_of_getLsbD_eq; intro i hi
  simp only [BitVec.getLsbD_extractLsb', BitVec.getLsbD_append, hi, decide_true, Bool.true_and]
  simp (disch := omega) only [if_pos]
  congr 1; omega

theorem cat_mtile_op (op : BitVec 9) (rim : BitVec 3) (sa : BitVec 5) (sb : BitVec 5) (sc : BitVec 3) : (op ++ 0#2 ++ rim ++ sa ++ sb ++ sc ++ 0#5 : BitVec 32).extractLsb' 23 9 = op := by
  apply BitVec.eq_of_getLsbD_eq; intro i hi
  simp only [BitVec.getLsbD_extractLsb', BitVec.getLsbD_append, hi, decide_true, Bool.true_and]
  simp (disch := omega) only [if_neg]
  congr 1; omega
theorem cat_mtile_c1 (op : BitVec 9) (rim : BitVec 3) (sa : BitVec 5) (sb : BitVec 5) (sc : BitVec 3) : (op ++ 0#2 ++ rim ++ sa ++ sb ++ sc ++ 0#5 : BitVec 32).extractLsb' 21 2 = 0#2 := by
  apply BitVec.eq_of_getLsbD_eq; intro i hi
  simp only [BitVec.getLsbD_extractLsb', BitVec.getLsbD_append, hi, decide_true, Bool.true_and]
  simp (disch := omega) only [if_neg, if_pos]
  congr 1; omega
theorem cat_mtile_rim (op : BitVec 9) (rim : BitVec 3) (sa : BitVec 5) (sb : BitVec 5) (sc : BitVec 3) : (op ++ 0#2 ++ rim ++ sa ++ sb ++ sc ++ 0#5 : BitVec 32).extractLsb' 18 3 = rim := by
  apply BitVec.eq_of_getLsbD_eq; intro i hi
  simp only [BitVec.getLsbD_extractLsb', BitVec.getLsbD_append, hi, decide_true, Bool.true_and]
  simp (disch := omega) only [if_neg, if_pos]
  congr 1; omega
theorem cat_mtile_sa (op : BitVec 9) (rim : BitVec 3) (sa : BitVec 5) (sb : BitVec 5) (sc : BitVec 3) : (op ++ 0#2 ++ rim ++ sa ++ sb ++ sc ++ 0#5 : BitVec 32).extractLsb' 13 5 = sa := by
  apply BitVec.eq_of_getLsbD_eq; intro i hi
  simp only [BitVec.getLsbD_extractLsb', BitVec.getLsbD_append, hi, decide_true, Bool.true_and]
  simp (disch := omega) only [if_neg, if_pos]
  congr 1; omega
theorem cat_mtile_sb (op : BitVec 9) (rim : BitVec 3) (sa : BitVec 5) (sb : BitVec 5) (sc : BitVec 3) : (op ++ 0#2 ++ rim ++ sa ++ sb ++ sc ++ 0#5 : BitVec 32).extractLsb' 8 5 = sb := by
  apply BitVec.eq_of_getLsbD_eq; intro i hi
  simp only [BitVec.getLsbD_extractLsb', BitVec.getLsbD_append, hi, decide_true, Bool.true_and]
  simp (disch := omega) only [if_neg, if_pos]
  congr 1; omega
theorem cat_mtile_sc (op : BitVec 9) (rim : BitVec 3) (sa : BitVec 5) (sb : BitVec 5) (sc : BitVec 3) : (op ++ 0#2 ++ rim ++ sa ++ sb ++ sc ++ 0#5 : BitVec 32).extractLsb' 5 3 = sc := by
  apply BitVec.eq_of_getLsbD_eq; intro i hi
  simp only [BitVec.getLsbD_extractLsb', BitVec.getLsbD_append, hi, decide_true, Bool.true_and]
  simp (disch := omega) only [if_neg, if_pos]
  congr 1; omega
theorem cat_mtile_c6 (op : BitVec 9) (rim : BitVec 3) (sa : BitVec 5) (sb : BitVec 5) (sc : BitVec 3) : (op ++ 0#2 ++ rim ++ sa ++ sb ++ sc ++ 0#5 : BitVec 32).extractLsb' 0 5 = 0#5 := by
  apply BitVec.eq_of_getLsbD_eq; intro i hi
  simp only [BitVec.getLsbD_extractLsb', BitVec.getLsbD_append, hi, decide_true, Bool.true_and]
  simp (disch := omega) only [if_pos]
  congr 1; omega

theorem cat_box_tx (tx : BitVec 8) (n : BitVec 3) (e0 : BitVec 4) (e1 : BitVec 4) (sc : BitVec 3) (q : Bool) : (tx ++ n ++ e0 ++ e1 ++ sc ++ BitVec.ofBool q ++ 0#5 : BitVec 28).extractLsb' 20 8 = tx := by
  apply BitVec.eq_of_getLsbD_eq; intro i hi
  simp only [BitVec.getLsbD_extractLsb', BitVec.getLsbD_append, hi, decide_true, Bool.true_and]
  simp (disch := omega) only [if_neg]
  congr 1; omega
theorem cat_box_n (tx : BitVec 8) (n : BitVec 3) (e0 : BitVec 4) (e1 : BitVec 4) (sc : BitVec 3) (q : Bool) : (tx ++ n ++ e0 ++ e1 ++ sc ++ BitVec.ofBool q ++ 0#5 : BitVec 28).extractLsb' 17 3 = n := by
  apply BitVec.eq_of_getLsbD_eq; intro i hi
  simp only [BitVec.getLsbD_extractLsb', BitVec.getLsbD_append, hi, decide_true, Bool.true_and]
  simp (disch := omega) only [if_neg, if_pos]
  congr 1; omega
theorem cat_box_e0 (tx : BitVec 8) (n : BitVec 3) (e0 : BitVec 4) (e1 : BitVec 4) (sc : BitVec 3) (q : Bool) : (tx ++ n ++ e0 ++ e1 ++ sc ++ BitVec.ofBool q ++ 0#5 : BitVec 28).extractLsb' 13 4 = e0 := by
  apply BitVec.eq_of_getLsbD_eq; intro i hi
  simp only [BitVec.getLsbD_extractLsb', BitVec.getLsbD_append, hi, decide_true, Bool.true_and]
  simp (disch := omega) only [if_neg, if_pos]
  congr 1; omega
theorem cat_box_e1 (tx : BitVec 8) (n : BitVec 3) (e0 : BitVec 4) (e1 : BitVec 4) (sc : BitVec 3) (q : Bool) : (tx ++ n ++ e0 ++ e1 ++ sc ++ BitVec.ofBool q ++ 0#5 : BitVec 28).extractLsb' 9 4 = e1 := by
  apply BitVec.eq_of_getLsbD_eq; intro i hi
  simp only [BitVec.getLsbD_extractLsb', BitVec.getLsbD_append, hi, decide_true, Bool.true_and]
  simp (disch := omega) only [if_neg, if_pos]
  congr 1; omega
theorem cat_box_sc (tx : BitVec 8) (n : BitVec 3) (e0 : BitVec 4) (e1 : BitVec 4) (sc : BitVec 3) (q : Bool) : (tx ++ n ++ e0 ++ e1 ++ sc ++ BitVec.ofBool q ++ 0#5 : BitVec 28).extractLsb' 6 3 = sc := by
  apply BitVec.eq_of_getLsbD_eq; intro i hi
  simp only [BitVec.getLsbD_extractLsb', BitVec.getLsbD_append, hi, decide_true, Bool.true_and]
  simp (disch := omega) only [if_neg, if_pos]
  congr 1; omega
theorem cat_box_q (tx : BitVec 8) (n : BitVec 3) (e0 : BitVec 4) (e1 : BitVec 4) (sc : BitVec 3) (q : Bool) : (tx ++ n ++ e0 ++ e1 ++ sc ++ BitVec.ofBool q ++ 0#5 : BitVec 28).getLsbD 5 = q := by
  simp only [BitVec.getLsbD_append]; simp
theorem cat_box_c6 (tx : BitVec 8) (n : BitVec 3) (e0 : BitVec 4) (e1 : BitVec 4) (sc : BitVec 3) (q : Bool) : (tx ++ n ++ e0 ++ e1 ++ sc ++ BitVec.ofBool q ++ 0#5 : BitVec 28).extractLsb' 0 5 = 0#5 := by
  apply BitVec.eq_of_getLsbD_eq; intro i hi
  simp only [BitVec.getLsbD_extractLsb', BitVec.getLsbD_append, hi, decide_true, Bool.true_and]
  simp (disch := omega) only [if_pos]
  congr 1; omega

theorem cat_cpyg_len (len : BitVec 20) (sc : BitVec 3) (q : BitVec 2) : (len ++ sc ++ q ++ 0#3 : BitVec 28).extractLsb' 8 20 = len := by
  apply BitVec.eq_of_getLsbD_eq; intro i hi
  simp only [BitVec.getLsbD_extractLsb', BitVec.getLsbD_append, hi, decide_true, Bool.true_and]
  simp (disch := omega) only [if_neg]
  congr 1; omega
theorem cat_cpyg_sc (len : BitVec 20) (sc : BitVec 3) (q : BitVec 2) : (len ++ sc ++ q ++ 0#3 : BitVec 28).extractLsb' 5 3 = sc := by
  apply BitVec.eq_of_getLsbD_eq; intro i hi
  simp only [BitVec.getLsbD_extractLsb', BitVec.getLsbD_append, hi, decide_true, Bool.true_and]
  simp (disch := omega) only [if_neg, if_pos]
  congr 1; omega
theorem cat_cpyg_q (len : BitVec 20) (sc : BitVec 3) (q : BitVec 2) : (len ++ sc ++ q ++ 0#3 : BitVec 28).extractLsb' 3 2 = q := by
  apply BitVec.eq_of_getLsbD_eq; intro i hi
  simp only [BitVec.getLsbD_extractLsb', BitVec.getLsbD_append, hi, decide_true, Bool.true_and]
  simp (disch := omega) only [if_neg, if_pos]
  congr 1; omega
theorem cat_cpyg_c3 (len : BitVec 20) (sc : BitVec 3) (q : BitVec 2) : (len ++ sc ++ q ++ 0#3 : BitVec 28).extractLsb' 0 3 = 0#3 := by
  apply BitVec.eq_of_getLsbD_eq; intro i hi
  simp only [BitVec.getLsbD_extractLsb', BitVec.getLsbD_append, hi, decide_true, Bool.true_and]
  simp (disch := omega) only [if_pos]
  congr 1; omega

theorem cat_rim_tile (tile : BitVec 3) (tx : BitVec 8) (n : BitVec 3) (er : BitVec 3) (ec : BitVec 3) (r : BitVec 3) (sc : BitVec 3) (ci : Bool) : (tile ++ tx ++ n ++ er ++ ec ++ r ++ sc ++ BitVec.ofBool ci ++ 0#1 : BitVec 28).extractLsb' 25 3 = tile := by
  apply BitVec.eq_of_getLsbD_eq; intro i hi
  simp only [BitVec.getLsbD_extractLsb', BitVec.getLsbD_append, hi, decide_true, Bool.true_and]
  simp (disch := omega) only [if_neg]
  congr 1; omega
theorem cat_rim_tx (tile : BitVec 3) (tx : BitVec 8) (n : BitVec 3) (er : BitVec 3) (ec : BitVec 3) (r : BitVec 3) (sc : BitVec 3) (ci : Bool) : (tile ++ tx ++ n ++ er ++ ec ++ r ++ sc ++ BitVec.ofBool ci ++ 0#1 : BitVec 28).extractLsb' 17 8 = tx := by
  apply BitVec.eq_of_getLsbD_eq; intro i hi
  simp only [BitVec.getLsbD_extractLsb', BitVec.getLsbD_append, hi, decide_true, Bool.true_and]
  simp (disch := omega) only [if_neg, if_pos]
  congr 1; omega
theorem cat_rim_n (tile : BitVec 3) (tx : BitVec 8) (n : BitVec 3) (er : BitVec 3) (ec : BitVec 3) (r : BitVec 3) (sc : BitVec 3) (ci : Bool) : (tile ++ tx ++ n ++ er ++ ec ++ r ++ sc ++ BitVec.ofBool ci ++ 0#1 : BitVec 28).extractLsb' 14 3 = n := by
  apply BitVec.eq_of_getLsbD_eq; intro i hi
  simp only [BitVec.getLsbD_extractLsb', BitVec.getLsbD_append, hi, decide_true, Bool.true_and]
  simp (disch := omega) only [if_neg, if_pos]
  congr 1; omega
theorem cat_rim_er (tile : BitVec 3) (tx : BitVec 8) (n : BitVec 3) (er : BitVec 3) (ec : BitVec 3) (r : BitVec 3) (sc : BitVec 3) (ci : Bool) : (tile ++ tx ++ n ++ er ++ ec ++ r ++ sc ++ BitVec.ofBool ci ++ 0#1 : BitVec 28).extractLsb' 11 3 = er := by
  apply BitVec.eq_of_getLsbD_eq; intro i hi
  simp only [BitVec.getLsbD_extractLsb', BitVec.getLsbD_append, hi, decide_true, Bool.true_and]
  simp (disch := omega) only [if_neg, if_pos]
  congr 1; omega
theorem cat_rim_ec (tile : BitVec 3) (tx : BitVec 8) (n : BitVec 3) (er : BitVec 3) (ec : BitVec 3) (r : BitVec 3) (sc : BitVec 3) (ci : Bool) : (tile ++ tx ++ n ++ er ++ ec ++ r ++ sc ++ BitVec.ofBool ci ++ 0#1 : BitVec 28).extractLsb' 8 3 = ec := by
  apply BitVec.eq_of_getLsbD_eq; intro i hi
  simp only [BitVec.getLsbD_extractLsb', BitVec.getLsbD_append, hi, decide_true, Bool.true_and]
  simp (disch := omega) only [if_neg, if_pos]
  congr 1; omega
theorem cat_rim_r (tile : BitVec 3) (tx : BitVec 8) (n : BitVec 3) (er : BitVec 3) (ec : BitVec 3) (r : BitVec 3) (sc : BitVec 3) (ci : Bool) : (tile ++ tx ++ n ++ er ++ ec ++ r ++ sc ++ BitVec.ofBool ci ++ 0#1 : BitVec 28).extractLsb' 5 3 = r := by
  apply BitVec.eq_of_getLsbD_eq; intro i hi
  simp only [BitVec.getLsbD_extractLsb', BitVec.getLsbD_append, hi, decide_true, Bool.true_and]
  simp (disch := omega) only [if_neg, if_pos]
  congr 1; omega
theorem cat_rim_sc (tile : BitVec 3) (tx : BitVec 8) (n : BitVec 3) (er : BitVec 3) (ec : BitVec 3) (r : BitVec 3) (sc : BitVec 3) (ci : Bool) : (tile ++ tx ++ n ++ er ++ ec ++ r ++ sc ++ BitVec.ofBool ci ++ 0#1 : BitVec 28).extractLsb' 2 3 = sc := by
  apply BitVec.eq_of_getLsbD_eq; intro i hi
  simp only [BitVec.getLsbD_extractLsb', BitVec.getLsbD_append, hi, decide_true, Bool.true_and]
  simp (disch := omega) only [if_neg, if_pos]
  congr 1; omega
theorem cat_rim_ci (tile : BitVec 3) (tx : BitVec 8) (n : BitVec 3) (er : BitVec 3) (ec : BitVec 3) (r : BitVec 3) (sc : BitVec 3) (ci : Bool) : (tile ++ tx ++ n ++ er ++ ec ++ r ++ sc ++ BitVec.ofBool ci ++ 0#1 : BitVec 28).getLsbD 1 = ci := by
  simp only [BitVec.getLsbD_append]; simp
theorem cat_rim_c8 (tile : BitVec 3) (tx : BitVec 8) (n : BitVec 3) (er : BitVec 3) (ec : BitVec 3) (r : BitVec 3) (sc : BitVec 3) (ci : Bool) : (tile ++ tx ++ n ++ er ++ ec ++ r ++ sc ++ BitVec.ofBool ci ++ 0#1 : BitVec 28).extractLsb' 0 1 = 0#1 := by
  apply BitVec.eq_of_getLsbD_eq; intro i hi
  simp only [BitVec.getLsbD_extractLsb', BitVec.getLsbD_append, hi, decide_true, Bool.true_and]
  simp (disch := omega) only [if_pos]
  congr 1; omega

theorem cat_condL_k (k : BitVec 3) (p : BitVec 3) : (k ++ 0#1 ++ p : BitVec 7).extractLsb' 4 3 = k := by
  apply BitVec.eq_of_getLsbD_eq; intro i hi
  simp only [BitVec.getLsbD_extractLsb', BitVec.getLsbD_append, hi, decide_true, Bool.true_and]
  simp (disch := omega) only [if_neg]
  congr 1; omega
theorem cat_condL_c1 (k : BitVec 3) (p : BitVec 3) : (k ++ 0#1 ++ p : BitVec 7).extractLsb' 3 1 = 0#1 := by
  apply BitVec.eq_of_getLsbD_eq; intro i hi
  simp only [BitVec.getLsbD_extractLsb', BitVec.getLsbD_append, hi, decide_true, Bool.true_and]
  simp (disch := omega) only [if_neg, if_pos]
  congr 1; omega
theorem cat_condL_p (k : BitVec 3) (p : BitVec 3) : (k ++ 0#1 ++ p : BitVec 7).extractLsb' 0 3 = p := by
  apply BitVec.eq_of_getLsbD_eq; intro i hi
  simp only [BitVec.getLsbD_extractLsb', BitVec.getLsbD_append, hi, decide_true, Bool.true_and]
  simp (disch := omega) only [if_pos]
  congr 1; omega

theorem cat_condU_k (k : BitVec 3) (p : BitVec 2) : (k ++ 0#2 ++ p : BitVec 7).extractLsb' 4 3 = k := by
  apply BitVec.eq_of_getLsbD_eq; intro i hi
  simp only [BitVec.getLsbD_extractLsb', BitVec.getLsbD_append, hi, decide_true, Bool.true_and]
  simp (disch := omega) only [if_neg]
  congr 1; omega
theorem cat_condU_c1 (k : BitVec 3) (p : BitVec 2) : (k ++ 0#2 ++ p : BitVec 7).extractLsb' 2 2 = 0#2 := by
  apply BitVec.eq_of_getLsbD_eq; intro i hi
  simp only [BitVec.getLsbD_extractLsb', BitVec.getLsbD_append, hi, decide_true, Bool.true_and]
  simp (disch := omega) only [if_neg, if_pos]
  congr 1; omega
theorem cat_condU_p (k : BitVec 3) (p : BitVec 2) : (k ++ 0#2 ++ p : BitVec 7).extractLsb' 0 2 = p := by
  apply BitVec.eq_of_getLsbD_eq; intro i hi
  simp only [BitVec.getLsbD_extractLsb', BitVec.getLsbD_append, hi, decide_true, Bool.true_and]
  simp (disch := omega) only [if_pos]
  congr 1; omega

theorem cat_plogL_t (t : BitVec 4) (p : BitVec 3) : (t ++ p : BitVec 7).extractLsb' 3 4 = t := by
  apply BitVec.eq_of_getLsbD_eq; intro i hi
  simp only [BitVec.getLsbD_extractLsb', BitVec.getLsbD_append, hi, decide_true, Bool.true_and]
  simp (disch := omega) only [if_neg]
  congr 1; omega
theorem cat_plogL_p (t : BitVec 4) (p : BitVec 3) : (t ++ p : BitVec 7).extractLsb' 0 3 = p := by
  apply BitVec.eq_of_getLsbD_eq; intro i hi
  simp only [BitVec.getLsbD_extractLsb', BitVec.getLsbD_append, hi, decide_true, Bool.true_and]
  simp (disch := omega) only [if_pos]
  congr 1; omega

theorem cat_plogU_t (t : BitVec 4) (p : BitVec 2) : (t ++ 0#1 ++ p : BitVec 7).extractLsb' 3 4 = t := by
  apply BitVec.eq_of_getLsbD_eq; intro i hi
  simp only [BitVec.getLsbD_extractLsb', BitVec.getLsbD_append, hi, decide_true, Bool.true_and]
  simp (disch := omega) only [if_neg]
  congr 1; omega
theorem cat_plogU_c1 (t : BitVec 4) (p : BitVec 2) : (t ++ 0#1 ++ p : BitVec 7).extractLsb' 2 1 = 0#1 := by
  apply BitVec.eq_of_getLsbD_eq; intro i hi
  simp only [BitVec.getLsbD_extractLsb', BitVec.getLsbD_append, hi, decide_true, Bool.true_and]
  simp (disch := omega) only [if_neg, if_pos]
  congr 1; omega
theorem cat_plogU_p (t : BitVec 4) (p : BitVec 2) : (t ++ 0#1 ++ p : BitVec 7).extractLsb' 0 2 = p := by
  apply BitVec.eq_of_getLsbD_eq; intro i hi
  simp only [BitVec.getLsbD_extractLsb', BitVec.getLsbD_append, hi, decide_true, Bool.true_and]
  simp (disch := omega) only [if_pos]
  congr 1; omega

theorem cat_low3_c0 (a : BitVec 3) : (0#4 ++ a : BitVec 7).extractLsb' 3 4 = 0#4 := by
  apply BitVec.eq_of_getLsbD_eq; intro i hi
  simp only [BitVec.getLsbD_extractLsb', BitVec.getLsbD_append, hi, decide_true, Bool.true_and]
  simp (disch := omega) only [if_neg]
  congr 1; omega
theorem cat_low3_a (a : BitVec 3) : (0#4 ++ a : BitVec 7).extractLsb' 0 3 = a := by
  apply BitVec.eq_of_getLsbD_eq; intro i hi
  simp only [BitVec.getLsbD_extractLsb', BitVec.getLsbD_append, hi, decide_true, Bool.true_and]
  simp (disch := omega) only [if_pos]
  congr 1; omega

theorem cat_fence_c0 (k : BitVec 2) (sc : BitVec 3) : (0#2 ++ k ++ sc : BitVec 7).extractLsb' 5 2 = 0#2 := by
  apply BitVec.eq_of_getLsbD_eq; intro i hi
  simp only [BitVec.getLsbD_extractLsb', BitVec.getLsbD_append, hi, decide_true, Bool.true_and]
  simp (disch := omega) only [if_neg]
  congr 1; omega
theorem cat_fence_k (k : BitVec 2) (sc : BitVec 3) : (0#2 ++ k ++ sc : BitVec 7).extractLsb' 3 2 = k := by
  apply BitVec.eq_of_getLsbD_eq; intro i hi
  simp only [BitVec.getLsbD_extractLsb', BitVec.getLsbD_append, hi, decide_true, Bool.true_and]
  simp (disch := omega) only [if_neg, if_pos]
  congr 1; omega
theorem cat_fence_sc (k : BitVec 2) (sc : BitVec 3) : (0#2 ++ k ++ sc : BitVec 7).extractLsb' 0 3 = sc := by
  apply BitVec.eq_of_getLsbD_eq; intro i hi
  simp only [BitVec.getLsbD_extractLsb', BitVec.getLsbD_append, hi, decide_true, Bool.true_and]
  simp (disch := omega) only [if_pos]
  congr 1; omega

theorem cat_low4_c0 (m : BitVec 4) : (0#3 ++ m : BitVec 7).extractLsb' 4 3 = 0#3 := by
  apply BitVec.eq_of_getLsbD_eq; intro i hi
  simp only [BitVec.getLsbD_extractLsb', BitVec.getLsbD_append, hi, decide_true, Bool.true_and]
  simp (disch := omega) only [if_neg]
  congr 1; omega
theorem cat_low4_m (m : BitVec 4) : (0#3 ++ m : BitVec 7).extractLsb' 0 4 = m := by
  apply BitVec.eq_of_getLsbD_eq; intro i hi
  simp only [BitVec.getLsbD_extractLsb', BitVec.getLsbD_append, hi, decide_true, Bool.true_and]
  simp (disch := omega) only [if_pos]
  congr 1; omega

theorem cat_high3_r (r : BitVec 3) : (r ++ 0#4 : BitVec 7).extractLsb' 4 3 = r := by
  apply BitVec.eq_of_getLsbD_eq; intro i hi
  simp only [BitVec.getLsbD_extractLsb', BitVec.getLsbD_append, hi, decide_true, Bool.true_and]
  simp (disch := omega) only [if_neg]
  congr 1; omega
theorem cat_high3_c1 (r : BitVec 3) : (r ++ 0#4 : BitVec 7).extractLsb' 0 4 = 0#4 := by
  apply BitVec.eq_of_getLsbD_eq; intro i hi
  simp only [BitVec.getLsbD_extractLsb', BitVec.getLsbD_append, hi, decide_true, Bool.true_and]
  simp (disch := omega) only [if_pos]
  congr 1; omega

theorem cat_stat_c0 (l : Bool) (k : BitVec 3) : (0#3 ++ BitVec.ofBool l ++ k : BitVec 7).extractLsb' 4 3 = 0#3 := by
  apply BitVec.eq_of_getLsbD_eq; intro i hi
  simp only [BitVec.getLsbD_extractLsb', BitVec.getLsbD_append, hi, decide_true, Bool.true_and]
  simp (disch := omega) only [if_neg]
  congr 1; omega
theorem cat_stat_l (l : Bool) (k : BitVec 3) : (0#3 ++ BitVec.ofBool l ++ k : BitVec 7).getLsbD 3 = l := by
  simp only [BitVec.getLsbD_append]; simp
theorem cat_stat_k (l : Bool) (k : BitVec 3) : (0#3 ++ BitVec.ofBool l ++ k : BitVec 7).extractLsb' 0 3 = k := by
  apply BitVec.eq_of_getLsbD_eq; intro i hi
  simp only [BitVec.getLsbD_extractLsb', BitVec.getLsbD_append, hi, decide_true, Bool.true_and]
  simp (disch := omega) only [if_pos]
  congr 1; omega

theorem cat_low2_c0 (m : BitVec 2) : (0#5 ++ m : BitVec 7).extractLsb' 2 5 = 0#5 := by
  apply BitVec.eq_of_getLsbD_eq; intro i hi
  simp only [BitVec.getLsbD_extractLsb', BitVec.getLsbD_append, hi, decide_true, Bool.true_and]
  simp (disch := omega) only [if_neg]
  congr 1; omega
theorem cat_low2_m (m : BitVec 2) : (0#5 ++ m : BitVec 7).extractLsb' 0 2 = m := by
  apply BitVec.eq_of_getLsbD_eq; intro i hi
  simp only [BitVec.getLsbD_extractLsb', BitVec.getLsbD_append, hi, decide_true, Bool.true_and]
  simp (disch := omega) only [if_pos]
  congr 1; omega

theorem cat_vote_c0 (m : BitVec 2) (k : BitVec 3) : (0#2 ++ m ++ k : BitVec 7).extractLsb' 5 2 = 0#2 := by
  apply BitVec.eq_of_getLsbD_eq; intro i hi
  simp only [BitVec.getLsbD_extractLsb', BitVec.getLsbD_append, hi, decide_true, Bool.true_and]
  simp (disch := omega) only [if_neg]
  congr 1; omega
theorem cat_vote_m (m : BitVec 2) (k : BitVec 3) : (0#2 ++ m ++ k : BitVec 7).extractLsb' 3 2 = m := by
  apply BitVec.eq_of_getLsbD_eq; intro i hi
  simp only [BitVec.getLsbD_extractLsb', BitVec.getLsbD_append, hi, decide_true, Bool.true_and]
  simp (disch := omega) only [if_neg, if_pos]
  congr 1; omega
theorem cat_vote_k (m : BitVec 2) (k : BitVec 3) : (0#2 ++ m ++ k : BitVec 7).extractLsb' 0 3 = k := by
  apply BitVec.eq_of_getLsbD_eq; intro i hi
  simp only [BitVec.getLsbD_extractLsb', BitVec.getLsbD_append, hi, decide_true, Bool.true_and]
  simp (disch := omega) only [if_pos]
  congr 1; omega

theorem cat_hoop_h (h : BitVec 3) (n : Bool) : (h ++ 0#3 ++ BitVec.ofBool n : BitVec 7).extractLsb' 4 3 = h := by
  apply BitVec.eq_of_getLsbD_eq; intro i hi
  simp only [BitVec.getLsbD_extractLsb', BitVec.getLsbD_append, hi, decide_true, Bool.true_and]
  simp (disch := omega) only [if_neg]
  congr 1; omega
theorem cat_hoop_c1 (h : BitVec 3) (n : Bool) : (h ++ 0#3 ++ BitVec.ofBool n : BitVec 7).extractLsb' 1 3 = 0#3 := by
  apply BitVec.eq_of_getLsbD_eq; intro i hi
  simp only [BitVec.getLsbD_extractLsb', BitVec.getLsbD_append, hi, decide_true, Bool.true_and]
  simp (disch := omega) only [if_neg, if_pos]
  congr 1; omega
theorem cat_hoop_n (h : BitVec 3) (n : Bool) : (h ++ 0#3 ++ BitVec.ofBool n : BitVec 7).getLsbD 0 = n := by
  simp only [BitVec.getLsbD_append]; simp

theorem cat_flag_c0 (w : Bool) : (0#6 ++ BitVec.ofBool w : BitVec 7).extractLsb' 1 6 = 0#6 := by
  apply BitVec.eq_of_getLsbD_eq; intro i hi
  simp only [BitVec.getLsbD_extractLsb', BitVec.getLsbD_append, hi, decide_true, Bool.true_and]
  simp (disch := omega) only [if_neg]
  congr 1; omega
theorem cat_flag_w (w : Bool) : (0#6 ++ BitVec.ofBool w : BitVec 7).getLsbD 0 = w := by
  simp only [BitVec.getLsbD_append]; simp

theorem cat_sreg_c0 (n : BitVec 6) : (0#1 ++ n : BitVec 7).extractLsb' 6 1 = 0#1 := by
  apply BitVec.eq_of_getLsbD_eq; intro i hi
  simp only [BitVec.getLsbD_extractLsb', BitVec.getLsbD_append, hi, decide_true, Bool.true_and]
  simp (disch := omega) only [if_neg]
  congr 1; omega
theorem cat_sreg_n (n : BitVec 6) : (0#1 ++ n : BitVec 7).extractLsb' 0 6 = n := by
  apply BitVec.eq_of_getLsbD_eq; intro i hi
  simp only [BitVec.getLsbD_extractLsb', BitVec.getLsbD_append, hi, decide_true, Bool.true_and]
  simp (disch := omega) only [if_pos]
  congr 1; omega

theorem cat_ldt_tx (tx : BitVec 8) (n : BitVec 3) (f : Bool) : (tx ++ n ++ ofBool2 f ++ 0#3 ++ 0#11 : BitVec 28).extractLsb' 20 8 = tx := by
  apply BitVec.eq_of_getLsbD_eq; intro i hi
  simp only [BitVec.getLsbD_extractLsb', BitVec.getLsbD_append, hi, decide_true, Bool.true_and]
  simp (disch := omega) only [if_neg]
  congr 1; omega
theorem cat_ldt_n (tx : BitVec 8) (n : BitVec 3) (f : Bool) : (tx ++ n ++ ofBool2 f ++ 0#3 ++ 0#11 : BitVec 28).extractLsb' 17 3 = n := by
  apply BitVec.eq_of_getLsbD_eq; intro i hi
  simp only [BitVec.getLsbD_extractLsb', BitVec.getLsbD_append, hi, decide_true, Bool.true_and]
  simp (disch := omega) only [if_neg, if_pos]
  congr 1; omega
theorem cat_ldt_f (tx : BitVec 8) (n : BitVec 3) (f : Bool) : (tx ++ n ++ ofBool2 f ++ 0#3 ++ 0#11 : BitVec 28).getLsbD 14 = f := by
  simp only [BitVec.getLsbD_append]; cases f <;> rfl
theorem cat_ldt_c3 (tx : BitVec 8) (n : BitVec 3) (f : Bool) : (tx ++ n ++ ofBool2 f ++ 0#3 ++ 0#11 : BitVec 28).extractLsb' 11 3 = 0#3 := by
  apply BitVec.eq_of_getLsbD_eq; intro i hi
  simp only [BitVec.getLsbD_extractLsb', BitVec.getLsbD_append, hi, decide_true, Bool.true_and]
  simp (disch := omega) only [if_neg, if_pos]
  congr 1; omega
theorem cat_ldt_c4 (tx : BitVec 8) (n : BitVec 3) (f : Bool) : (tx ++ n ++ ofBool2 f ++ 0#3 ++ 0#11 : BitVec 28).extractLsb' 0 11 = 0#11 := by
  apply BitVec.eq_of_getLsbD_eq; intro i hi
  simp only [BitVec.getLsbD_extractLsb', BitVec.getLsbD_append, hi, decide_true, Bool.true_and]
  simp (disch := omega) only [if_pos]
  congr 1; omega

theorem cat_stt_tx (tx : BitVec 8) (n : BitVec 3) (f : Bool) (r : BitVec 3) : (tx ++ n ++ ofBool2 f ++ r ++ 0#11 : BitVec 28).extractLsb' 20 8 = tx := by
  apply BitVec.eq_of_getLsbD_eq; intro i hi
  simp only [BitVec.getLsbD_extractLsb', BitVec.getLsbD_append, hi, decide_true, Bool.true_and]
  simp (disch := omega) only [if_neg]
  congr 1; omega
theorem cat_stt_n (tx : BitVec 8) (n : BitVec 3) (f : Bool) (r : BitVec 3) : (tx ++ n ++ ofBool2 f ++ r ++ 0#11 : BitVec 28).extractLsb' 17 3 = n := by
  apply BitVec.eq_of_getLsbD_eq; intro i hi
  simp only [BitVec.getLsbD_extractLsb', BitVec.getLsbD_append, hi, decide_true, Bool.true_and]
  simp (disch := omega) only [if_neg, if_pos]
  congr 1; omega
theorem cat_stt_f (tx : BitVec 8) (n : BitVec 3) (f : Bool) (r : BitVec 3) : (tx ++ n ++ ofBool2 f ++ r ++ 0#11 : BitVec 28).getLsbD 14 = f := by
  simp only [BitVec.getLsbD_append]; cases f <;> rfl
theorem cat_stt_r (tx : BitVec 8) (n : BitVec 3) (f : Bool) (r : BitVec 3) : (tx ++ n ++ ofBool2 f ++ r ++ 0#11 : BitVec 28).extractLsb' 11 3 = r := by
  apply BitVec.eq_of_getLsbD_eq; intro i hi
  simp only [BitVec.getLsbD_extractLsb', BitVec.getLsbD_append, hi, decide_true, Bool.true_and]
  simp (disch := omega) only [if_neg, if_pos]
  congr 1; omega
theorem cat_stt_c4 (tx : BitVec 8) (n : BitVec 3) (f : Bool) (r : BitVec 3) : (tx ++ n ++ ofBool2 f ++ r ++ 0#11 : BitVec 28).extractLsb' 0 11 = 0#11 := by
  apply BitVec.eq_of_getLsbD_eq; intro i hi
  simp only [BitVec.getLsbD_extractLsb', BitVec.getLsbD_append, hi, decide_true, Bool.true_and]
  simp (disch := omega) only [if_pos]
  congr 1; omega

theorem cat_alloc_c0 (t : Bool) (p : BitVec 3) : (0#24 ++ BitVec.ofBool t ++ p : BitVec 28).extractLsb' 4 24 = 0#24 := by
  apply BitVec.eq_of_getLsbD_eq; intro i hi
  simp only [BitVec.getLsbD_extractLsb', BitVec.getLsbD_append, hi, decide_true, Bool.true_and]
  simp (disch := omega) only [if_neg]
  congr 1; omega
theorem cat_alloc_t (t : Bool) (p : BitVec 3) : (0#24 ++ BitVec.ofBool t ++ p : BitVec 28).getLsbD 3 = t := by
  simp only [BitVec.getLsbD_append]; simp
theorem cat_alloc_p (t : Bool) (p : BitVec 3) : (0#24 ++ BitVec.ofBool t ++ p : BitVec 28).extractLsb' 0 3 = p := by
  apply BitVec.eq_of_getLsbD_eq; intro i hi
  simp only [BitVec.getLsbD_extractLsb', BitVec.getLsbD_append, hi, decide_true, Bool.true_and]
  simp (disch := omega) only [if_pos]
  congr 1; omega

theorem cat_units_c0 (n : BitVec 6) : (0#22 ++ n : BitVec 28).extractLsb' 6 22 = 0#22 := by
  apply BitVec.eq_of_getLsbD_eq; intro i hi
  simp only [BitVec.getLsbD_extractLsb', BitVec.getLsbD_append, hi, decide_true, Bool.true_and]
  simp (disch := omega) only [if_neg]
  congr 1; omega
theorem cat_units_n (n : BitVec 6) : (0#22 ++ n : BitVec 28).extractLsb' 0 6 = n := by
  apply BitVec.eq_of_getLsbD_eq; intro i hi
  simp only [BitVec.getLsbD_extractLsb', BitVec.getLsbD_append, hi, decide_true, Bool.true_and]
  simp (disch := omega) only [if_pos]
  congr 1; omega

theorem cat_stk_slot (slot : BitVec 5) (tx : BitVec 8) (n : BitVec 3) (sc : BitVec 3) : (slot ++ tx ++ n ++ sc ++ 0#9 : BitVec 28).extractLsb' 23 5 = slot := by
  apply BitVec.eq_of_getLsbD_eq; intro i hi
  simp only [BitVec.getLsbD_extractLsb', BitVec.getLsbD_append, hi, decide_true, Bool.true_and]
  simp (disch := omega) only [if_neg]
  congr 1; omega
theorem cat_stk_tx (slot : BitVec 5) (tx : BitVec 8) (n : BitVec 3) (sc : BitVec 3) : (slot ++ tx ++ n ++ sc ++ 0#9 : BitVec 28).extractLsb' 15 8 = tx := by
  apply BitVec.eq_of_getLsbD_eq; intro i hi
  simp only [BitVec.getLsbD_extractLsb', BitVec.getLsbD_append, hi, decide_true, Bool.true_and]
  simp (disch := omega) only [if_neg, if_pos]
  congr 1; omega
theorem cat_stk_n (slot : BitVec 5) (tx : BitVec 8) (n : BitVec 3) (sc : BitVec 3) : (slot ++ tx ++ n ++ sc ++ 0#9 : BitVec 28).extractLsb' 12 3 = n := by
  apply BitVec.eq_of_getLsbD_eq; intro i hi
  simp only [BitVec.getLsbD_extractLsb', BitVec.getLsbD_append, hi, decide_true, Bool.true_and]
  simp (disch := omega) only [if_neg, if_pos]
  congr 1; omega
theorem cat_stk_sc (slot : BitVec 5) (tx : BitVec 8) (n : BitVec 3) (sc : BitVec 3) : (slot ++ tx ++ n ++ sc ++ 0#9 : BitVec 28).extractLsb' 9 3 = sc := by
  apply BitVec.eq_of_getLsbD_eq; intro i hi
  simp only [BitVec.getLsbD_extractLsb', BitVec.getLsbD_append, hi, decide_true, Bool.true_and]
  simp (disch := omega) only [if_neg, if_pos]
  congr 1; omega
theorem cat_stk_c4 (slot : BitVec 5) (tx : BitVec 8) (n : BitVec 3) (sc : BitVec 3) : (slot ++ tx ++ n ++ sc ++ 0#9 : BitVec 28).extractLsb' 0 9 = 0#9 := by
  apply BitVec.eq_of_getLsbD_eq; intro i hi
  simp only [BitVec.getLsbD_extractLsb', BitVec.getLsbD_append, hi, decide_true, Bool.true_and]
  simp (disch := omega) only [if_pos]
  congr 1; omega

theorem cat_switch_n (n : BitVec 4) : (n ++ 0#24 : BitVec 28).extractLsb' 24 4 = n := by
  apply BitVec.eq_of_getLsbD_eq; intro i hi
  simp only [BitVec.getLsbD_extractLsb', BitVec.getLsbD_append, hi, decide_true, Bool.true_and]
  simp (disch := omega) only [if_neg]
  congr 1; omega
theorem cat_switch_c1 (n : BitVec 4) : (n ++ 0#24 : BitVec 28).extractLsb' 0 24 = 0#24 := by
  apply BitVec.eq_of_getLsbD_eq; intro i hi
  simp only [BitVec.getLsbD_extractLsb', BitVec.getLsbD_append, hi, decide_true, Bool.true_and]
  simp (disch := omega) only [if_pos]
  congr 1; omega

theorem cat_trap_c0 (n : BitVec 16) : (0#12 ++ n : BitVec 28).extractLsb' 16 12 = 0#12 := by
  apply BitVec.eq_of_getLsbD_eq; intro i hi
  simp only [BitVec.getLsbD_extractLsb', BitVec.getLsbD_append, hi, decide_true, Bool.true_and]
  simp (disch := omega) only [if_neg]
  congr 1; omega
theorem cat_trap_n (n : BitVec 16) : (0#12 ++ n : BitVec 28).extractLsb' 0 16 = n := by
  apply BitVec.eq_of_getLsbD_eq; intro i hi
  simp only [BitVec.getLsbD_extractLsb', BitVec.getLsbD_append, hi, decide_true, Bool.true_and]
  simp (disch := omega) only [if_pos]
  congr 1; omega

theorem cat_calle_c0 (x : Bool) (o : BitVec 21) : (0#1 ++ BitVec.ofBool x ++ 0#5 ++ o : BitVec 28).extractLsb' 27 1 = 0#1 := by
  apply BitVec.eq_of_getLsbD_eq; intro i hi
  simp only [BitVec.getLsbD_extractLsb', BitVec.getLsbD_append, hi, decide_true, Bool.true_and]
  simp (disch := omega) only [if_neg]
  congr 1; omega
theorem cat_calle_x (x : Bool) (o : BitVec 21) : (0#1 ++ BitVec.ofBool x ++ 0#5 ++ o : BitVec 28).getLsbD 26 = x := by
  simp only [BitVec.getLsbD_append]; simp
theorem cat_calle_c2 (x : Bool) (o : BitVec 21) : (0#1 ++ BitVec.ofBool x ++ 0#5 ++ o : BitVec 28).extractLsb' 21 5 = 0#5 := by
  apply BitVec.eq_of_getLsbD_eq; intro i hi
  simp only [BitVec.getLsbD_extractLsb', BitVec.getLsbD_append, hi, decide_true, Bool.true_and]
  simp (disch := omega) only [if_neg, if_pos]
  congr 1; omega
theorem cat_calle_o (x : Bool) (o : BitVec 21) : (0#1 ++ BitVec.ofBool x ++ 0#5 ++ o : BitVec 28).extractLsb' 0 21 = o := by
  apply BitVec.eq_of_getLsbD_eq; intro i hi
  simp only [BitVec.getLsbD_extractLsb', BitVec.getLsbD_append, hi, decide_true, Bool.true_and]
  simp (disch := omega) only [if_pos]
  congr 1; omega

theorem cat_bucket_c0 (n : BitVec 2) : (0#26 ++ n : BitVec 28).extractLsb' 2 26 = 0#26 := by
  apply BitVec.eq_of_getLsbD_eq; intro i hi
  simp only [BitVec.getLsbD_extractLsb', BitVec.getLsbD_append, hi, decide_true, Bool.true_and]
  simp (disch := omega) only [if_neg]
  congr 1; omega
theorem cat_bucket_n (n : BitVec 2) : (0#26 ++ n : BitVec 28).extractLsb' 0 2 = n := by
  apply BitVec.eq_of_getLsbD_eq; intro i hi
  simp only [BitVec.getLsbD_extractLsb', BitVec.getLsbD_append, hi, decide_true, Bool.true_and]
  simp (disch := omega) only [if_pos]
  congr 1; omega

theorem cat_csr_c0 (n : BitVec 12) : (0#16 ++ n : BitVec 28).extractLsb' 12 16 = 0#16 := by
  apply BitVec.eq_of_getLsbD_eq; intro i hi
  simp only [BitVec.getLsbD_extractLsb', BitVec.getLsbD_append, hi, decide_true, Bool.true_and]
  simp (disch := omega) only [if_neg]
  congr 1; omega
theorem cat_csr_n (n : BitVec 12) : (0#16 ++ n : BitVec 28).extractLsb' 0 12 = n := by
  apply BitVec.eq_of_getLsbD_eq; intro i hi
  simp only [BitVec.getLsbD_extractLsb', BitVec.getLsbD_append, hi, decide_true, Bool.true_and]
  simp (disch := omega) only [if_pos]
  congr 1; omega

theorem cat_frame_g (g : BitVec 2) (t : BitVec 5) (r : BitVec 7) : (g ++ t ++ r ++ 0#14 : BitVec 28).extractLsb' 26 2 = g := by
  apply BitVec.eq_of_getLsbD_eq; intro i hi
  simp only [BitVec.getLsbD_extractLsb', BitVec.getLsbD_append, hi, decide_true, Bool.true_and]
  simp (disch := omega) only [if_neg]
  congr 1; omega
theorem cat_frame_t (g : BitVec 2) (t : BitVec 5) (r : BitVec 7) : (g ++ t ++ r ++ 0#14 : BitVec 28).extractLsb' 21 5 = t := by
  apply BitVec.eq_of_getLsbD_eq; intro i hi
  simp only [BitVec.getLsbD_extractLsb', BitVec.getLsbD_append, hi, decide_true, Bool.true_and]
  simp (disch := omega) only [if_neg, if_pos]
  congr 1; omega
theorem cat_frame_r (g : BitVec 2) (t : BitVec 5) (r : BitVec 7) : (g ++ t ++ r ++ 0#14 : BitVec 28).extractLsb' 14 7 = r := by
  apply BitVec.eq_of_getLsbD_eq; intro i hi
  simp only [BitVec.getLsbD_extractLsb', BitVec.getLsbD_append, hi, decide_true, Bool.true_and]
  simp (disch := omega) only [if_neg, if_pos]
  congr 1; omega
theorem cat_frame_c3 (g : BitVec 2) (t : BitVec 5) (r : BitVec 7) : (g ++ t ++ r ++ 0#14 : BitVec 28).extractLsb' 0 14 = 0#14 := by
  apply BitVec.eq_of_getLsbD_eq; intro i hi
  simp only [BitVec.getLsbD_extractLsb', BitVec.getLsbD_append, hi, decide_true, Bool.true_and]
  simp (disch := omega) only [if_pos]
  congr 1; omega

theorem cat_scope_c0 (sc : BitVec 3) : (0#25 ++ sc : BitVec 28).extractLsb' 3 25 = 0#25 := by
  apply BitVec.eq_of_getLsbD_eq; intro i hi
  simp only [BitVec.getLsbD_extractLsb', BitVec.getLsbD_append, hi, decide_true, Bool.true_and]
  simp (disch := omega) only [if_neg]
  congr 1; omega
theorem cat_scope_sc (sc : BitVec 3) : (0#25 ++ sc : BitVec 28).extractLsb' 0 3 = sc := by
  apply BitVec.eq_of_getLsbD_eq; intro i hi
  simp only [BitVec.getLsbD_extractLsb', BitVec.getLsbD_append, hi, decide_true, Bool.true_and]
  simp (disch := omega) only [if_pos]
  congr 1; omega

end Sys2Proof.Laws
end

