-- ==== Sys2Proof/Laws/Codes.lean ====
section
/-!
SUPPORT. Field codes and whole words read back: what the decoder makes of each code the encoder writes (03 R31 to R45).
-/

namespace Sys2Proof.Laws

open Sys2Proof

/-! ## Words and their fields -/

theorem raw_ofWord_toWord (r : Raw) : Raw.ofWord r.toWord = r := by
  cases r
  simp only [Raw.ofWord, Raw.toWord, cat_raw_op, cat_raw_s, cat_raw_c, cat_raw_d, cat_raw_a, cat_raw_b]

theorem raw_toWord_ofWord (w : Word) : (Raw.ofWord w).toWord = w := by
  apply BitVec.eq_of_getLsbD_eq; intro i hi
  simp only [Raw.ofWord, Raw.toWord, BitVec.getLsbD_append, BitVec.getLsbD_extractLsb', BitVec.getLsbD_ofBool]
  repeat' split
  all_goals first
    | (have : i = 21 := by omega); subst this; simp
    | (have : i = 22 := by omega); subst this; simp
    | (simp (disch := omega) only [decide_eq_true, Bool.true_and]; congr 1; omega)

theorem litPay_litWord (p : BitVec 28) : litPay (litWord p) = some p := by
  simp only [litPay, litWord, cat_lit_c0, cat_lit_p, if_pos]

theorem litWord_field (p : BitVec 28) (k w : Nat) (h : k + w ≤ 28) : (litWord p).extractLsb' k w = p.extractLsb' k w := by
  apply BitVec.eq_of_getLsbD_eq; intro i hi
  simp only [litWord, BitVec.getLsbD_extractLsb', BitVec.getLsbD_append]
  simp (disch := omega) only [if_pos]

theorem litWord_bit (p : BitVec 28) (k : Nat) (h : k < 28) : (litWord p).getLsbD k = p.getLsbD k := by
  simp only [litWord, BitVec.getLsbD_append]
  simp (disch := omega) only [if_pos]

/-! ## Field codes -/

theorem lsrc_v (n : BitVec 7) (h : n.toNat < 120) : LSrc.ofCode (LSrc.v n).code = some (.v n) := by
  simp only [LSrc.code, LSrc.ofCode, h, if_pos]

/-- A lane source whose register number is one of v0 to v119. -/
def LSrc.named : LSrc → Bool
  | .v n => decide (n.toNat < 120)
  | _ => true

theorem lsrc_code (a : LSrc) (h : LSrc.named a = true) : LSrc.ofCode a.code = some a := by
  cases a with
  | v n => exact lsrc_v n (by simpa [LSrc.named] using h)
  | latch k => revert k; decide
  | zero => decide
  | lit => decide
  | tid => decide

theorem dstOk_lt (w : Bool) (d : BitVec 7) (h : dstOk w d = true) : d.toNat < 120 := by
  simp only [dstOk, Bool.and_eq_true, decide_eq_true_eq] at h; exact h.1

theorem named_of_ok {a : LSrc} {w l : Bool} (h : a.ok w l = true) : LSrc.named a = true := by
  cases a <;> simp_all [LSrc.ok, LSrc.named, dstOk]
theorem named_of_base {a : LSrc} {w : Bool} (h : a.baseOk w = true) : LSrc.named a = true := by
  cases a <;> simp_all [LSrc.baseOk, LSrc.named, dstOk]
theorem named_of_pair {a : LSrc} (h : a.pairOk = true) : LSrc.named a = true := named_of_ok h
theorem named_of_reg {a : LSrc} {w : Bool} (h : a.regOk w = true) : LSrc.named a = true := by
  cases a <;> simp_all [LSrc.regOk, LSrc.named, dstOk]
theorem named_of_join {a : LSrc} (h : a.joinOk = true) : LSrc.named a = true := by
  cases a <;> simp_all [LSrc.joinOk, LSrc.named, dstOk]
theorem named_of_hclr {a : LSrc} (h : a.hclrOk = true) : LSrc.named a = true := by
  cases a <;> simp_all [LSrc.hclrOk, LSrc.baseOk, LSrc.named, dstOk]

theorem sreg_lt (n : BitVec 6) : (0#1 ++ n : BitVec 7).toNat < 64 := by revert n; decide
theorem sOfCode_code (n : BitVec 6) : sOfCode (0#1 ++ n) = some n := by revert n; decide
theorem usrc_code (a : USrc) : USrc.ofCode a.code = some a := by
  cases a with
  | s n => revert n; decide
  | sp x => cases x <;> decide
  | zero => decide
  | lit => decide
theorem udst_code (d : UDst) : UDst.ofCode d.code = some d := by
  cases d with
  | s n => revert n; decide
  | mode => decide
  | flags => decide
theorem udst_s_code (n : BitVec 6) : UDst.ofCode (0#1 ++ n) = some (.s n) := by revert n; decide
theorem cond_code (c : Cond) : Cond.ofCode c.code = c := by cases c <;> decide
theorem scope_code (c : Scope) : Scope.ofCode c.code = c := by cases c <;> decide
theorem nbr_code (c : Nbr) : Nbr.ofCode c.code = some c := by cases c <;> decide
theorem round_code (c : Round) : Round.ofCode c.code = some c := by cases c <;> decide
theorem memw_code (c : MemW) : MemW.ofCode c.code = some c := by cases c <;> decide
theorem order_code (c : Order) : Order.ofCode c.code = some c := by cases c <;> decide
theorem fe_code (c : FullEmpty) : FullEmpty.ofCode c.code = some c := by cases c <;> decide
theorem cache_code (c : CacheHint) : CacheHint.ofCode c.code = some c := by cases c <;> decide
theorem atomop_code (c : AtomOp) : AtomOp.ofCode c.code = some c := by cases c <;> decide
theorem atomty_code (c : AtomTy) : AtomTy.ofCode c.code = some c := by cases c <;> decide
theorem atomord_code (c : AtomOrd) : AtomOrd.ofCode c.code = some c := by cases c <;> decide
theorem fencekind_code (c : FenceKind) : FenceKind.ofCode c.code = some c := by cases c <;> decide
theorem cpyq_code (c : CpyQ) : CpyQ.ofCode c.code = some c := by cases c <;> decide

theorem edge_code (e : Edge) : Edge.ofCode (e.code.extractLsb' 6 2) (e.code.extractLsb' 0 6) = some e := by
  cases e with
  | zero => decide
  | wrap => decide
  | clamp => decide
  | fill f => revert f; decide

/-- The modifier layout reads back (R40). -/
theorem modPay_modWord (vc : BitVec 7) (m : Modif) (u : Bool) : modPay (modWord vc m u) = some (vc, m, u) := by
  rcases m with ⟨na, nb, e, r, ⟨p, l⟩⟩
  have hz : (modWord vc ⟨na, nb, e, r, ⟨p, l⟩⟩ u).getLsbD 0 = false := by
    simp only [modWord, BitVec.getLsbD_append]; simp
  have he : ∀ k w, k + w ≤ 8 → (modWord vc ⟨na, nb, e, r, ⟨p, l⟩⟩ u).extractLsb' (9 + k) w = e.code.extractLsb' k w := by
    intro k w h
    apply BitVec.eq_of_getLsbD_eq; intro i hi
    simp only [modWord, BitVec.getLsbD_extractLsb', BitVec.getLsbD_append, hi, decide_true, Bool.true_and]
    simp (disch := omega) only [if_neg, if_pos]
    congr 1; omega
  have h1 := he 6 2 (by decide)
  have h2 := he 0 6 (by decide)
  simp only [Nat.add_zero, Nat.reduceAdd] at h1 h2
  simp only [modPay, hz, h1, h2, edge_code]
  simp only [modWord, cat_mod_c0, cat_mod_vc, cat_mod_na, cat_mod_nb, cat_mod_r, cat_mod_p, cat_mod_l, cat_mod_u, nbr_code,
    round_code, and_self, if_pos]

theorem litPay_modWord (vc : BitVec 7) (m : Modif) (u : Bool) : litPay (modWord vc m u) = none := by
  simp only [litPay, modWord, cat_mod_c0]; rw [if_neg (by decide)]

theorem ext_word (e : Ext) : Ext.ofWord e.word = some e := by
  cases e with
  | lit p => simp only [Ext.word, Ext.ofWord, litPay_litWord]
  | mod m => simp [Ext.word, Ext.ofWord, litPay_modWord, modPay_modWord, keep]

theorem qual_word (q : Qual) : Qual.ofWord q.word = some q := by
  rcases q with ⟨w, o, sc, e, h⟩
  simp (disch := decide) only [Qual.ofWord, Qual.word, litPay_litWord, litWord_field, cat_qual_w, cat_qual_o, cat_qual_sc, cat_qual_fe,
    cat_qual_h, cat_qual_c0, cat_qual_c6, memw_code, order_code, scope_code, fe_code, cache_code]
  rfl

theorem atomq_word (q : AtomQ) (op : BitVec 4) : AtomQ.ofWord (litWord (q.code op)) = some (op, q) := by
  rcases q with ⟨t, o, sc, c, r⟩
  simp (disch := decide) only [AtomQ.ofWord, AtomQ.code, litPay_litWord, litWord_field, litWord_bit, cat_atomq_op, cat_atomq_ty, cat_atomq_o,
    cat_atomq_sc, cat_atomq_ci, cat_atomq_rt, cat_atomq_c6, atomty_code, atomord_code, scope_code]
  rfl

theorem cvtop_word (o : CvtOp) (r : Round) : CvtOp.ofWord (litWord (o.payload r)) = some (o, r) := by
  cases o with
  | std d s =>
    simp (disch := decide) only [CvtOp.ofWord, CvtOp.payload, litPay_litWord, litWord_field, cat_cvtStd_c0, cat_cvtStd_s, cat_cvtStd_r,
      cat_cvtStd_c3, cat_cvtStd_d, cat_cvtStd_c5, round_code]
    rfl
  | toNarrow s k =>
    simp (disch := decide) only [CvtOp.ofWord, CvtOp.payload, litPay_litWord, litWord_field, cat_cvtTo_c0, cat_cvtTo_s, cat_cvtTo_r,
      cat_cvtTo_c3, cat_cvtTo_k, round_code]
    rfl
  | fromNarrow s k =>
    simp (disch := decide) only [CvtOp.ofWord, CvtOp.payload, litPay_litWord, litWord_field, cat_cvtFrom_c0, cat_cvtFrom_s, cat_cvtFrom_r,
      cat_cvtFrom_c3, cat_cvtFrom_k, round_code]
    rfl

theorem ctr_code (c : Option (BitVec 7 × Scope)) (h : ctrOk c = true) : ctrOf (ctrReg c) (ctrScope c) = some c := by
  cases c with
  | none => decide
  | some p =>
    rcases p with ⟨r, s⟩
    have hr : r.toNat < 120 := by
      simp only [ctrOk, Bool.and_eq_true] at h; exact dstOk_lt _ _ h.1
    have hn : r ≠ 124#7 := by intro he; subst he; simp at hr
    simp only [ctrReg, ctrScope, ctrOf, hn, if_neg, hr, keep, decide_true, if_pos, scope_code, not_false_eq_true]

theorem uctr_code (c : Option (BitVec 6 × Scope)) : uCtrOf (uCtrReg c) (ctrScope c) = some c := by
  cases c with
  | none => decide
  | some p =>
    rcases p with ⟨r, s⟩
    have hn : (0#1 ++ r : BitVec 7) ≠ 124#7 := by revert r; decide
    simp only [uCtrReg, ctrScope, uCtrOf, hn, if_neg, sOfCode_code, scope_code, not_false_eq_true]

end Sys2Proof.Laws
end

