-- ==== Sys2Proof/Laws/Uniform.lean ====
section
/-!
SUPPORT. A uniform instruction on its turn: the end of a uniform instruction for each kind of agent, and a uniform arithmetic form as a
whole, which the statements about the uniform forms cite.
-/

namespace Sys2Proof.Machine

open Sys2Proof

/-! ## Nothing else changed -/

theorem KeptUni.trans {s t u : State} {a : Agent} (h : KeptUni s t a) (g : KeptUni t u a) : KeptUni s u a := by
  cases a with
  | weave c k =>
    obtain ⟨h1, w, w', h2, h3, h4⟩ := h
    obtain ⟨g1, v, v', g2, g3, g4⟩ := g
    obtain rfl : w' = v := by rw [h3] at g2; exact Option.some.inj g2
    exact ⟨h1.trans g1, w, v', h2, g3, g4.trans h4⟩
  | steer c k =>
    obtain ⟨h1, h2, h3, h4, h5, i, i', h6, h7, h8, h9⟩ := h
    obtain ⟨g1, g2, g3, g4, g5, j, j', g6, g7, g8, g9⟩ := g
    obtain rfl : i' = j := by rw [h7] at g6; exact Option.some.inj g6
    refine ⟨g1.trans h1, fun d hd => (g2 d hd).trans (h2 d hd), g3.trans h3, g4.trans h4, fun d hd => (g5 d hd).trans (h5 d hd),
      i, j', h6, g7, g8.trans h8, ?_⟩
    rw [← h9]
    have : { j' with steer := i.steer } = ({ { j' with steer := i'.steer } with steer := i.steer } : Inst) := rfl
    rw [this, g9]
  | handler c =>
    obtain ⟨h1, h2, h3, h4, h5⟩ := h
    obtain ⟨g1, g2, g3, g4, g5⟩ := g
    exact ⟨g1.trans h1, fun d hd => (g2 d hd).trans (h2 d hd), g3.trans h3, g4.trans h4, g5.trans h5⟩

/-- A change of a weave's file, flags and generators is no other change. -/
theorem keptUni_weave {s : State} {c k : Nat} {w w' : Weave} (hw : getWeave s c k = some w)
    (h : { w'.body with s := [], q := 0#4, mode := 0#32, sbad := [], flags := [], gens := [] }
        = { w.body with s := [], q := 0#4, mode := 0#32, sbad := [], flags := [], gens := [] }) :
    KeptUni s (putWeave s c k w') (.weave c k) :=
  ⟨kept_putWeave s c k w', w, w', hw, getWeave_putWeave_self s c k w', h⟩

theorem keptUni_steer {s : State} {c k : Nat} {i : Inst} (hi : getInst s c k = some i) {x : Steer} (h : x.rest = i.steer.rest) :
    KeptUni s (putInst s c k { i with steer := x }) (.steer c k) := by
  refine ⟨rfl, fun d hd => getCore_onCore_ne _ _ hd, ?_, ?_, fun j hj => getInst_putInst_ne _ _ _ hj, i, { i with steer := x }, hi,
    getInst_putInst_self _ _ _ _, h, rfl⟩
  · simp [putInst, Core.side]
  · simp [putInst]

theorem keptUni_handler (s : State) (c : Nat) {x : Handler} (h : x.rest = (getCore s c).handler.rest) :
    KeptUni s (onCore s c (fun y => { y with handler := x })) (.handler c) := by
  refine ⟨rfl, fun d hd => getCore_onCore_ne _ _ hd, ?_, ?_, ?_⟩
  · simp [Core.side]
  · simp
  · simp [h]

/-- A counter of the core. -/
theorem keptUni_count (s : State) (a : Agent) (n m : Nat) (hw : ∀ c k, a = .weave c k → ∃ w, getWeave s c k = some w)
    (hi : ∀ c k, a = .steer c k → ∃ i, getInst s c k = some i) : KeptUni s (onCore s (coreOf a) (fun x => countCore x n m)) a := by
  cases a with
  | weave c k =>
    obtain ⟨w, h⟩ := hw c k rfl
    refine ⟨kept_countCore _ _ _ _ _, w, w, h, ?_, rfl⟩
    exact (getWeave_onCore s c (fun x => countCore x n m) (fun _ => rfl) _ _).trans h
  | steer c k =>
    obtain ⟨i, h⟩ := hi c k rfl
    refine ⟨rfl, fun d hd => getCore_onCore_ne _ _ hd, ?_, ?_, fun j _ => getInst_onCore s c (fun x => countCore x n m) (fun _ => rfl) _ _, i, i, h, ?_, rfl, rfl⟩
    · simp [coreOf, Core.side, countCore]
    · simp [coreOf, countCore]
    · exact (getInst_onCore s c (fun x => countCore x n m) (fun _ => rfl) _ _).trans h
  | handler c =>
    refine ⟨rfl, fun d hd => getCore_onCore_ne _ _ hd, ?_, ?_, ?_⟩
    · simp [coreOf, Core.side, countCore]
    · simp [coreOf, countCore]
    · simp [coreOf, countCore]

/-! ## The end of a uniform instruction -/

theorem goesOn_trans {s t u : State} {a : Agent} {e : Entry} {pc : Double}
    (hs : ∀ c k, a = .weave c k → ∃ w v, getWeave s c k = some w ∧ getWeave t c k = some v ∧ v.frontier = w.frontier)
    (hh : ∀ c, a = .handler c → (getCore t c).handler.run = (getCore s c).handler.run)
    (h : goesOn t u a e pc) : goesOn s u a e pc := by
  cases a with
  | weave c k =>
    obtain ⟨w, v, h1, h2, h3⟩ := hs c k rfl
    obtain ⟨x, y, g1, g2, g3, g4⟩ := h
    obtain rfl : v = x := by rw [h2] at g1; exact Option.some.inj g1
    exact ⟨w, y, h1, g2, g3, fun z hz hm => g4 z (by rw [h3]; exact hz) hm⟩
  | steer c k => exact h
  | handler c => exact ⟨h.1, h.2.trans (hh c rfl)⟩

/-- What the end of a uniform instruction needs of its agent. -/
structure EndOk (s : State) (a : Agent) (e : Entry) : Prop where
  weave : ∀ c k, a = .weave c k → ∃ w, getWeave s c k = some w ∧ e.mask ≠ 0#32 ∧
    (held (w.frontier.filter (fun x => x.mask &&& e.mask == 0#32))).length < 16
  steer : ∀ c k, a = .steer c k → ∃ i, getInst s c k = some i

/-- A uniform instruction whose agent goes on: its end moves the agent and touches neither its file nor anything else. -/
theorem uniEnd_spec {a : Agent} {e : Entry} {size : Nat} {ch : Bool} {d : Done} (hd : d.wait = none) (hg : d.gs = [])
    (ok : EndOk d.s a e) :
    goesOn d.s (uniEnd a e size ch d) a e (e.pc + BitVec.ofNat 64 size) ∧ getFile (uniEnd a e size ch d) a = getFile d.s a ∧
      KeptUni d.s (uniEnd a e size ch d) a ∧
      (∀ u, flagsOf (uniEnd a e size ch d) a u = flagsOf d.s a u ∧ genOf (uniEnd a e size ch d) a u = genOf d.s a u) ∧
      uniGen (uniEnd a e size ch d) a e = uniGen d.s a e := by
  cases a with
  | weave c k =>
    obtain ⟨w, hw, hm, hr⟩ := ok.weave c k rfl
    have h1 : getWeave (onCore d.s c (fun x => countCore x 0x002 1)) c k = some w :=
      (getWeave_onCore d.s c (fun x => countCore x 0x002 1) (fun _ => rfl) c k).trans hw
    have k1 : Kept d.s (onCore d.s c (fun x => countCore x 0x002 1)) c k := kept_countCore _ _ _ _ _
    obtain ⟨w1, h2, b1, f1, k2⟩ := untag_spec (s := onCore d.s c (fun x => countCore x 0x002 1)) h1 d.wv d.ws
    obtain ⟨w2, h3, b2, -, -, -, -, p3, q3⟩ := retire_next (s := untag (onCore d.s c (fun x => countCore x 0x002 1)) c k d.wv d.ws) h2 hm
      (by rw [f1]; exact hr) size ch
    have hx : uniEnd (.weave c k) e size ch d
        = putWeave { untag (onCore d.s c (fun x => countCore x 0x002 1)) c k d.wv d.ws with
            seq := (untag (onCore d.s c (fun x => countCore x 0x002 1)) c k d.wv d.ws).seq + 1 } c k w2 := by
      simp only [uniEnd, hd, hg, coreOf, h3]
    have hb : w2.body = w.body := b2.trans b1
    have hg2 : getWeave (uniEnd (.weave c k) e size ch d) c k = some w2 := by rw [hx]; exact getWeave_putWeave_self _ _ _ _
    refine ⟨⟨w, w2, hw, hg2, p3, fun x hx' hm' => q3 x (by rw [f1]; exact hx') hm'⟩, ?_, ⟨?_, w, w2, hw, hg2, ?_⟩, fun u => ⟨?_, ?_⟩, ?_⟩
    · have f1 := congrArg Weave.s hb; have f2 := congrArg Weave.q hb
      have f3 := congrArg Weave.mode hb; have f4 := congrArg Weave.sbad hb
      simp only [Weave.body] at f1 f2 f3 f4
      simp only [getFile, hg2, hw, weaveFile, f1, f2, f3, f4]
    · rw [hx]; exact (k1.trans k2).trans kept_retire
    · rw [hb]
    · simp only [flagsOf, hg2, hw, readFlags_body hb]
    · simp only [genOf, hg2, hw, readGen_body hb]
    · simp only [uniGen, hg2, hw, readGen_body hb]
  | steer c k =>
    obtain ⟨i, hi⟩ := ok.steer c k rfl
    have h1 : getInst (onCore d.s c (fun x => countCore x 0x002 1)) c k = some i :=
      (getInst_onCore d.s c (fun x => countCore x 0x002 1) (fun _ => rfl) c k).trans hi
    let x : Steer := { i.steer with entry := some { e with pc := e.pc + BitVec.ofNat 64 size, state := .ready, skipWatch := 0#32 } }
    have hx : uniEnd (.steer c k) e size ch d
        = putInst (onCore d.s c (fun x => countCore x 0x002 1)) c k { i with steer := x } := by
      simp only [uniEnd, hd, hg, coreOf, soleGo, List.find?_nil, steerMove, onInst_some h1, x]
    have hg2 : getInst (uniEnd (.steer c k) e size ch d) c k = some { i with steer := x } := by rw [hx]; exact getInst_putInst_self _ _ _ _
    refine ⟨⟨_, _, hg2, rfl, rfl, rfl, rfl⟩, ?_, ?_, fun u => ⟨rfl, rfl⟩, ?_⟩
    · simp only [getFile, hg2, hi]; rfl
    · rw [hx]
      have := keptUni_count d.s (.steer c k) 0x002 1 (fun _ _ h => by cases h) (fun _ _ h => by cases h; exact ⟨i, hi⟩)
      exact this.trans (keptUni_steer h1 rfl)
    · simp only [uniGen, getFile, hg2, hi]; rfl
  | handler c =>
    let x : Handler := { (getCore d.s c).handler with pc := e.pc + BitVec.ofNat 64 size }
    have hx : uniEnd (.handler c) e size ch d
        = onCore (onCore d.s c (fun x => countCore x 0x002 1)) c (fun y => { y with handler := x }) := by
      simp only [uniEnd, hd, hg, coreOf, soleGo, List.find?_nil, handlerMove, x]
      simp only [onCore, getCore_putCore_self]; rfl
    refine ⟨⟨?_, ?_⟩, ?_, ?_, fun u => ⟨rfl, rfl⟩, ?_⟩
    · rw [hx]; simp [x]
    · rw [hx]; simp [x]
    · rw [hx]; simp [getFile, x, handlerFile]
    · rw [hx]
      have := keptUni_count d.s (.handler c) 0x002 1 (fun _ _ h => by cases h) (fun _ _ h => by cases h)
      exact this.trans (keptUni_handler _ _ (by simp [x, Handler.rest, countCore, coreOf]))
    · rw [hx]; simp [uniGen, getFile, x, handlerFile]

/-! ## The effect of a uniform arithmetic form -/

/-- Flags of some threads changed, and nothing else. -/
theorem foldFlags (g : Flags → Flags) (l : List Nat) (w : Weave) :
    let w' := l.foldl (fun w t => writeFlags w t (g (readFlags w t))) w
    { w' with flags := [] } = { w with flags := [] } ∧
      ((∀ f, g (g f) = g f) → ∀ u, readFlags w' u = if u ∈ l then g (readFlags w u) else readFlags w u) := by
  induction l generalizing w with
  | nil => exact ⟨rfl, fun _ u => rfl⟩
  | cons x r ih =>
    obtain ⟨i1, i2⟩ := ih (writeFlags w x (g (readFlags w x)))
    refine ⟨i1.trans rfl, fun hg u => (i2 hg u).trans ?_⟩
    by_cases h : u = x
    · subst h; by_cases h2 : u ∈ r <;> simp [readFlags_writeFlags, h2, hg]
    · by_cases h2 : u ∈ r <;> simp [readFlags_writeFlags, h, h2]

/-- What a uniform effect leaves of an agent beside its file and its threads' flags. -/
structure Effect (s t : State) (a : Agent) : Prop where
  kept : KeptUni s t a
  weave : ∀ c k, a = .weave c k → ∃ w v, getWeave s c k = some w ∧ getWeave t c k = some v ∧ v.frontier = w.frontier
  steer : ∀ c k, a = .steer c k → ∃ i, getInst t c k = some i
  run : ∀ c, a = .handler c → (getCore t c).handler.run = (getCore s c).handler.run

theorem Effect.trans {s t u : State} {a : Agent} (h : Effect s t a) (g : Effect t u a) : Effect s u a := by
  refine ⟨h.kept.trans g.kept, fun c k ha => ?_, g.steer, fun c ha => (g.run c ha).trans (h.run c ha)⟩
  obtain ⟨w, v, h1, h2, h3⟩ := h.weave c k ha
  obtain ⟨x, y, g1, g2, g3⟩ := g.weave c k ha
  obtain rfl : v = x := by rw [h2] at g1; exact Option.some.inj g1
  exact ⟨w, y, h1, g2, g3.trans h3⟩

/-- An agent that is there: a weave in its slot, a steer thread in its instance. -/
def Present (s : State) (a : Agent) : Prop :=
  (∀ c k, a = .weave c k → ∃ w, getWeave s c k = some w) ∧ (∀ c k, a = .steer c k → ∃ i, getInst s c k = some i)

theorem Effect.present {s t : State} {a : Agent} (h : Effect s t a) : Present t a :=
  ⟨fun c k ha => by obtain ⟨w, v, _, h2, _⟩ := h.weave c k ha; exact ⟨v, h2⟩, h.steer⟩

/-- An agent's file written: it reads as written, and its threads' flags and generators stand. -/
theorem putFile_spec {s : State} {a : Agent} (h : Present s a) (f : UFile) (hg : ∀ c k, a = .weave c k → f.gen = 1#64) :
    Effect s (putFile s a f) a ∧ getFile (putFile s a f) a = f ∧
      ∀ u, flagsOf (putFile s a f) a u = flagsOf s a u ∧ genOf (putFile s a f) a u = genOf s a u := by
  cases a with
  | weave c k =>
    obtain ⟨w, hw⟩ := h.1 c k rfl
    have hx : putFile s (.weave c k) f = putWeave s c k { w with s := f.s, q := f.q, mode := f.mode, sbad := f.bad } := by
      simp only [putFile, onWeave_some hw]
    have hgw : getWeave (putFile s (.weave c k) f) c k = some { w with s := f.s, q := f.q, mode := f.mode, sbad := f.bad } := by
      rw [hx]; exact getWeave_putWeave_self _ _ _ _
    refine ⟨⟨?_, fun c' k' hc => ?_, (fun _ _ hc => by cases hc), (fun _ hc => by cases hc)⟩, ?_, fun u => ⟨?_, ?_⟩⟩
    · rw [hx]; exact keptUni_weave hw rfl
    · cases hc; exact ⟨w, _, hw, hgw, rfl⟩
    · simp only [getFile, hgw, weaveFile]
      rw [← hg c k rfl]
    · simp only [flagsOf, hgw, hw]; rfl
    · simp only [genOf, hgw, hw]; rfl
  | steer c k =>
    obtain ⟨i, hi⟩ := h.2 c k rfl
    have hx : putFile s (.steer c k) f = putInst s c k { i with steer :=
        { i.steer with s := f.s, q := f.q, mode := f.mode, gen := f.gen, sbad := f.bad } } := by
      simp only [putFile, onInst_some hi]
    refine ⟨⟨?_, (fun _ _ hc => by cases hc), fun c' k' hc => ?_, (fun _ hc => by cases hc)⟩, ?_, fun u => ⟨rfl, rfl⟩⟩
    · rw [hx]; exact keptUni_steer hi rfl
    · cases hc; rw [hx]; exact ⟨_, getInst_putInst_self _ _ _ _⟩
    · rw [hx]; simp [getFile, steerFile]
  | handler c =>
    refine ⟨⟨?_, (fun _ _ hc => by cases hc), (fun _ _ hc => by cases hc), fun c' hc => ?_⟩, ?_, fun u => ⟨rfl, rfl⟩⟩
    · exact keptUni_handler s c rfl
    · cases hc; simp [putFile]
    · simp [putFile, getFile, handlerFile]

/-- Flags of the active threads of a weave changed: its file and generators stand; the other agents have no such flags. -/
theorem foldFlags_spec {s : State} {a : Agent} (h : Present s a) (m : Mask) (g : Flags → Flags) (hg : ∀ f, g (g f) = g f) (t : State)
    (hw : ∀ c k w, a = .weave c k → getWeave s c k = some w →
      t = putWeave s c k ((threadsOf m).foldl (fun w t => writeFlags w t (g (readFlags w t))) w))
    (ho : (∀ c k, a ≠ .weave c k) → t = s) :
    Effect s t a ∧ getFile t a = getFile s a ∧ (∀ u, genOf t a u = genOf s a u) ∧
      ∀ u, u < 32 → ∀ c k, a = .weave c k → flagsOf t a u = if m.getLsbD u then g (flagsOf s a u) else flagsOf s a u := by
  cases a with
  | weave c k =>
    obtain ⟨w, hwv⟩ := h.1 c k rfl
    obtain ⟨b1, b2⟩ := foldFlags g (threadsOf m) w
    have hx := hw c k w rfl hwv
    generalize hw' : (threadsOf m).foldl (fun w t => writeFlags w t (g (readFlags w t))) w = w' at hx b1 b2
    subst hx
    have hgw := getWeave_putWeave_self s c k w'
    have hb : ∀ {α : Type} (F : Weave → α), F { w' with flags := [] } = F { w with flags := [] } := fun F => congrArg F b1
    refine ⟨⟨keptUni_weave hwv ?_, fun c' k' hc => ?_, (fun _ _ hc => by cases hc), (fun _ hc => by cases hc)⟩, ?_, fun u => ?_, fun u hu c' k' hc => ?_⟩
    · exact hb (fun x => { x.body with s := [], q := 0#4, mode := 0#32, sbad := [], flags := [], gens := [] })
    · cases hc; exact ⟨w, w', hwv, hgw, hb (fun x => x.frontier)⟩
    · simp only [getFile, hgw, hwv]; exact hb weaveFile
    · simp only [genOf, hgw, hwv]; exact hb (fun x => readGen x u)
    · have hmu : (u ∈ threadsOf m) ↔ m.getLsbD u = true := by rw [mem_threadsOf]; exact ⟨fun h => h.2, fun h => ⟨hu, h⟩⟩
      simp only [flagsOf, hgw, hwv, b2 hg, hmu]
  | steer c k =>
    obtain rfl := ho (fun _ _ hc => by cases hc)
    obtain ⟨i, hi⟩ := h.2 c k rfl
    refine ⟨⟨⟨rfl, fun _ _ => rfl, rfl, rfl, fun _ _ => rfl, i, i, hi, hi, rfl, rfl⟩, (fun _ _ hc => by cases hc), h.2,
      (fun _ hc => by cases hc)⟩, rfl, fun _ => rfl, (fun _ _ _ _ hc => by cases hc)⟩
  | handler c =>
    obtain rfl := ho (fun _ _ hc => by cases hc)
    exact ⟨⟨⟨rfl, fun _ _ => rfl, rfl, rfl, rfl⟩, (fun _ _ hc => by cases hc), (fun _ _ hc => by cases hc), fun _ _ => rfl⟩, rfl, fun _ => rfl,
      (fun _ _ _ _ hc => by cases hc)⟩

theorem readS_writeSD (f : UFile) (n m : Nat) (x : Double) :
    readS (writeSD f n x) m = if m = n then x.setWidth 32 else if m = n + 1 then x.extractLsb' 32 32 else readS f m := by
  simp only [writeSD, readS_writeS, extract_low]
  by_cases h : m = n
  · subst h; simp
  · by_cases h2 : m = n + 1 <;> simp [h, h2]

theorem readQ_writeQ (f : UFile) (p q : Nat) (b : Bool) (hp : p < 4) (hq : q < 4) :
    readQ (writeQ f p b) q = if q = p then b else readQ f q := by
  have h1 : (1#4 <<< p).getLsbD q = decide (q = p) := by
    simp only [BitVec.getLsbD_shiftLeft, BitVec.getLsbD_one]
    by_cases h : q = p
    · subst h; simp [hq]
    · by_cases h2 : q < p
      · simp [h2, h]
      · have : q - p ≠ 0 := by omega
        simp [h, this]
  have h7 : q ≠ 7 := by omega
  simp only [readQ, h7, if_false, writeQ]
  cases b
  · simp only [Bool.false_eq_true, if_false, BitVec.getLsbD_and, BitVec.getLsbD_not, h1]
    by_cases h : q = p <;> simp [h, hq]
  · simp only [if_true, BitVec.getLsbD_or, h1]
    by_cases h : q = p <;> simp [h]

/-- The result of a uniform form without lineage, its flags raised and its destination written. -/
theorem uniPlain_spec {s : State} {a : Agent} (h : Present s a) (e : Entry) (f : UAluForm) (y : Double × Flags)
    (hp : ∀ p, f.dst = .pred p → p < 4) :
    let t := (uniPlain s a e f y).s
    Effect s t a ∧ (∀ r, readS (getFile t a) r = f.dst.writes y.1 r (readS (getFile s a) r)) ∧
      (∀ p, p < 4 → readQ (getFile t a) p = f.dst.sets y.1 p (readQ (getFile s a) p)) ∧
      (getFile t a).mode = f.dst.mode y.1 (getFile s a).mode ∧ (getFile t a).gen = (getFile s a).gen ∧
      (∀ u, genOf t a u = genOf s a u) ∧
      ∀ u, u < 32 → ∀ c k, a = .weave c k →
        flagsOf t a u = if e.mask.getLsbD u then f.dst.flags y.1 y.2 (flagsOf s a u) else flagsOf s a u := by
  intro t
  obtain ⟨e1, f1, g1, l1⟩ := foldFlags_spec h e.mask (fun x => x ||| y.2) (fun x => by simp [BitVec.or_assoc]) (uniFlags s a e.mask y.2)
    (fun c k w ha hw => by subst ha; simp only [uniFlags, onWeave_some hw]; rfl)
    (fun ha => by cases a with | weave c k => exact absurd rfl (ha c k) | steer c k => rfl | handler c => rfl)
  have gw : ∀ c k, a = .weave c k → (getFile (uniFlags s a e.mask y.2) a).gen = 1#64 := by
    intro c k ha
    subst ha
    obtain ⟨w, v, _, h2, _⟩ := e1.weave c k rfl
    simp only [getFile, h2, weaveFile]
  have ht : t = writeUDest (uniFlags s a e.mask y.2) a e.mask f.dst y.1 := rfl
  have put : ∀ F : UFile, F.gen = (getFile (uniFlags s a e.mask y.2) a).gen → t = putFile (uniFlags s a e.mask y.2) a F →
      (∀ x o, f.dst.flags x y.2 o = o ||| y.2) →
      Effect s t a ∧ getFile t a = F ∧ (∀ u, genOf t a u = genOf s a u) ∧
      ∀ u, u < 32 → ∀ c k, a = .weave c k →
        flagsOf t a u = if e.mask.getLsbD u then f.dst.flags y.1 y.2 (flagsOf s a u) else flagsOf s a u := by
    intro F hF hx hfl
    obtain ⟨e2, f2, l2⟩ := putFile_spec e1.present F (fun c k ha => hF.trans (gw c k ha))
    rw [← hx] at e2 f2 l2
    refine ⟨e1.trans e2, f2, fun u => (l2 u).2.trans (g1 u), fun u hu c k ha => ?_⟩
    rw [(l2 u).1, l1 u hu c k ha, hfl]
  cases hd : f.dst with
  | reg d wide =>
    cases d with
    | s n =>
      cases wide with
      | false =>
        obtain ⟨e2, f2, g2, l2⟩ := put (writeS (getFile (uniFlags s a e.mask y.2) a) n.toNat (y.1.setWidth 32)) rfl
          (by rw [ht, hd]; rfl) (by rw [hd]; exact fun _ _ => rfl)
        rw [hd] at l2
        refine ⟨e2, fun r => ?_, fun p _ => ?_, ?_, ?_, g2, l2⟩
        · rw [f2, readS_writeS, f1]; simp [UDest.writes]
        · rw [f2, f1]; rfl
        · rw [f2, f1]; rfl
        · rw [f2, f1]; rfl
      | true =>
        obtain ⟨e2, f2, g2, l2⟩ := put (writeSD (getFile (uniFlags s a e.mask y.2) a) n.toNat y.1) rfl
          (by rw [ht, hd]; rfl) (by rw [hd]; exact fun _ _ => rfl)
        rw [hd] at l2
        refine ⟨e2, fun r => ?_, fun p _ => ?_, ?_, ?_, g2, l2⟩
        · rw [f2, readS_writeSD, f1]; simp [UDest.writes]
        · rw [f2, f1]; rfl
        · rw [f2, f1]; rfl
        · rw [f2, f1]; rfl
    | mode =>
      obtain ⟨e2, f2, g2, l2⟩ := put { getFile (uniFlags s a e.mask y.2) a with
          mode := modeWrite (getFile (uniFlags s a e.mask y.2) a).mode (y.1.setWidth 32) } rfl
        (by rw [ht, hd]; rfl) (by rw [hd]; exact fun _ _ => rfl)
      rw [hd] at l2
      refine ⟨e2, fun r => ?_, fun p _ => ?_, ?_, ?_, g2, l2⟩
      · rw [f2, f1]; rfl
      · rw [f2, f1]; rfl
      · rw [f2, f1]; rfl
      · rw [f2, f1]
    | flags =>
      obtain ⟨e2, f2, g2, l2⟩ := foldFlags_spec e1.present e.mask (fun _ => flagsWrite (y.1.setWidth 32)) (fun _ => rfl) t
        (fun c k w ha hw => by
          subst ha
          rw [ht, hd]; simp only [writeUDest, writeUDst, onWeave_some hw])
        (fun ha => by rw [ht, hd]; cases a with | weave c k => exact absurd rfl (ha c k) | steer c k => rfl | handler c => rfl)
      refine ⟨e1.trans e2, fun r => ?_, fun p _ => ?_, ?_, ?_, fun u => (g2 u).trans (g1 u), fun u hu c k ha => ?_⟩
      · rw [f2, f1]; rfl
      · rw [f2, f1]; rfl
      · rw [f2, f1]; rfl
      · rw [f2, f1]
      · rw [l2 u hu c k ha, l1 u hu c k ha]
        cases e.mask.getLsbD u <;> rfl
  | pred p =>
    obtain ⟨e2, f2, g2, l2⟩ := put (writeQ (getFile (uniFlags s a e.mask y.2) a) p (y.1.getLsbD 0)) rfl
      (by rw [ht, hd]; rfl) (by rw [hd]; exact fun _ _ => rfl)
    rw [hd] at l2
    refine ⟨e2, fun r => ?_, fun q hq => ?_, ?_, ?_, g2, l2⟩
    · rw [f2, f1]; rfl
    · rw [f2, readQ_writeQ _ _ _ _ (hp p hd) hq, f1]; rfl
    · rw [f2, f1]; rfl
    · rw [f2, f1]; rfl

/-! ## A uniform arithmetic form on its turn -/

/-- A weave that issues is there, and its other entries leave room. -/
theorem uniTurn_ok {s : State} {a : Agent} {e : Entry} (h : UniTurn s a e) :
    Present (begin s a e) a ∧ ∀ t, Effect (begin s a e) t a → EndOk t a e := by
  have hp : Present (begin s a e) a := by
    refine ⟨fun c k ha => ?_, fun c k ha => ?_⟩
    · subst ha
      obtain ⟨w, hw⟩ := h.weave c k rfl
      exact ⟨w, by rw [begin_turn hw]; exact getWeave_putWeave_self _ _ _ _⟩
    · subst ha
      obtain ⟨i, hi⟩ := h.steer c k rfl
      simp only [begin, commitAgent, onInst_some hi]
      exact ⟨_, getInst_putInst_self _ _ _ _⟩
  refine ⟨hp, fun t ht => ⟨fun c k ha => ?_, ht.steer⟩⟩
  obtain ⟨w, hw⟩ := h.weave c k ha
  obtain ⟨x, v, h1, h2, h3⟩ := ht.weave c k ha
  subst ha
  rw [begin_turn hw, getWeave_putWeave_self] at h1
  obtain rfl := Option.some.inj h1
  exact ⟨v, h2, hw.live, by rw [h3]; exact hw.room⟩

/-- The effect of the turn of a uniform instruction that goes on. -/
theorem uniIssue_done {s : State} {a : Agent} {e : Entry} (h : UniTurn s a e) {q : UniReq} {body : State → Agent → Entry → Done}
    (hl : uniCause (begin s a e) a e q = none) (hd : (body (begin s a e) a e).wait = none) (hg : (body (begin s a e) a e).gs = [])
    (ht : Effect (begin s a e) (body (begin s a e) a e).s a) :
    ∃ t, uniIssue s q body = .next t ∧ KeptUni (begin s a e) t a ∧ goesOn (begin s a e) t a e (e.pc + BitVec.ofNat 64 q.size) ∧
      getFile t a = getFile (body (begin s a e) a e).s a ∧
      (∀ u, flagsOf t a u = flagsOf (body (begin s a e) a e).s a u ∧ genOf t a u = genOf (body (begin s a e) a e).s a u) ∧
      uniGen t a e = uniGen (body (begin s a e) a e).s a e := by
  obtain ⟨_, hok⟩ := uniTurn_ok h
  obtain ⟨g1, g2, g3, g4, g5⟩ := uniEnd_spec (size := q.size) (ch := q.chain) hd hg (hok _ ht)
  refine ⟨_, ?_, ht.kept.trans g3, goesOn_trans ht.weave ht.run g1, g2, g4, g5⟩
  simp only [uniIssue, h.focus, h.issues, uniBody, hl]

theorem uniGen_of {s : State} {a : Agent} (e : Entry) (h : Present s a) :
    uniGen s a e = (match a with | .weave _ _ => genOf s a (lowest e.mask) | _ => (getFile s a).gen) := by
  cases a with
  | weave c k => obtain ⟨w, hw⟩ := h.1 c k rfl; simp only [uniGen, genOf, hw]
  | steer c k => rfl
  | handler c => rfl

theorem putUniGen_spec {s : State} {a : Agent} (h : Present s a) (e : Entry) (g : Double) :
    let t := putUniGen s a e g
    Effect s t a ∧ (∀ r, readS (getFile t a) r = readS (getFile s a) r) ∧ (∀ p, readQ (getFile t a) p = readQ (getFile s a) p) ∧
      (getFile t a).mode = (getFile s a).mode ∧ (∀ u, flagsOf t a u = flagsOf s a u) ∧
      (∀ u, u ≠ lowest e.mask → genOf t a u = genOf s a u) ∧ uniGen t a e = g := by
  cases a with
  | weave c k =>
    obtain ⟨w, hw⟩ := h.1 c k rfl
    have hx : putUniGen s (.weave c k) e g = putWeave s c k (writeGen w (lowest e.mask) g) := by simp only [putUniGen, onWeave_some hw]
    have hgw : getWeave (putUniGen s (.weave c k) e g) c k = some (writeGen w (lowest e.mask) g) := by
      rw [hx]; exact getWeave_putWeave_self _ _ _ _
    have hf : getFile (putUniGen s (.weave c k) e g) (.weave c k) = getFile s (.weave c k) := by
      simp only [getFile, hgw, hw]; rfl
    refine ⟨⟨?_, fun c' k' hc => ?_, (fun _ _ hc => by cases hc), (fun _ hc => by cases hc)⟩, fun r => by rw [hf], fun p => by rw [hf],
      by rw [hf], fun u => ?_, fun u hu => ?_, ?_⟩
    · rw [hx]; exact keptUni_weave hw rfl
    · cases hc; exact ⟨w, _, hw, hgw, rfl⟩
    · simp only [flagsOf, hgw, hw]; rfl
    · simp only [genOf, hgw, hw, readGen_writeGen, hu, if_false]
    · simp only [uniGen, hgw, readGen_writeGen, if_true]
  | steer c k =>
    obtain ⟨e1, f1, l1⟩ := putFile_spec h { getFile s (.steer c k) with gen := g } (fun _ _ hc => by cases hc)
    refine ⟨e1, fun r => ?_, fun p => ?_, ?_, fun u => (l1 u).1, fun u _ => (l1 u).2, ?_⟩
    · simp only [putUniGen, f1]; rfl
    · simp only [putUniGen, f1]; rfl
    · simp only [putUniGen, f1]
    · simp only [putUniGen, uniGen, f1]
  | handler c =>
    obtain ⟨e1, f1, l1⟩ := putFile_spec h { getFile s (.handler c) with gen := g } (fun _ _ hc => by cases hc)
    refine ⟨e1, fun r => ?_, fun p => ?_, ?_, fun u => (l1 u).1, fun u _ => (l1 u).2, ?_⟩
    · simp only [putUniGen, f1]; rfl
    · simp only [putUniGen, f1]; rfl
    · simp only [putUniGen, f1]
    · simp only [putUniGen, uniGen, f1]

theorem takeDraws_none {rm : RMode} {n : Nat} (h : (rm = .rs && n != 0) = false) (g : Double) : (takeDraws rm n g).2 = g := by
  simp only [takeDraws, h, Bool.false_eq_true, if_false]

/-- What a uniform arithmetic form needs: a place that R48 and R56 allow, not looked up, its guard, readable operands, and no raised flag
that a weave's `$mode` enables to trap. -/
structure UniReady (s : State) (a : Agent) (e : Entry) (f : UAluForm) (va vb vc : Double) : Prop where
  legal : uniCause (begin s a e) a e { size := f.size, chain := f.chain, elig := true, place := .any } = none
  plain : ∀ c k w, a = .weave c k → getWeave (begin s a e) c k = some w → w.unlooked e
  guard : readQ (getFile (begin s a e) a) f.guard.p.toNat ≠ f.guard.pol
  reads : readUOpd (begin s a e) a f.a = .ok va ∧ readUOpd (begin s a e) a f.b = .ok vb ∧ readUOpd (begin s a e) a f.c = .ok vc
  quiet : ∀ c k, a = .weave c k → f.traps = true → fpTrap (getFile (begin s a e) a).mode
    (f.fn (takeDraws (resolve (getFile (begin s a e) a).mode f.round) f.draws (uniGen (begin s a e) a e)).1 va vb vc).2 = none

/-- A uniform arithmetic form on its turn: its result, its flags and its draws, and nothing else. -/
theorem uniAlu_done (f : UAluForm) (copy : Bool) {s : State} {a : Agent} {e : Entry} (h : UniTurn s a e) {va vb vc : Double}
    (r : UniReady s a e f va vb vc) (hp : ∀ p, f.dst = .pred p → p < 4) :
    let d := takeDraws (resolve (getFile (begin s a e) a).mode f.round) f.draws (uniGen (begin s a e) a e)
    let y := f.fn d.1 va vb vc
    ∃ t, uniAlu f copy s = .next t ∧ UniDone (begin s a e) t a e f.size f.dst y.1 y.2 d.2 := by
  intro d y
  obtain ⟨hpres, _⟩ := uniTurn_ok h
  obtain ⟨ra, rb, rc⟩ := r.reads
  let S := if resolve (getFile (begin s a e) a).mode f.round = .rs && f.draws != 0 then putUniGen (begin s a e) a e d.2 else begin s a e
  have hS : Effect (begin s a e) S a ∧ (∀ n, readS (getFile S a) n = readS (getFile (begin s a e) a) n) ∧
      (∀ p, readQ (getFile S a) p = readQ (getFile (begin s a e) a) p) ∧ (getFile S a).mode = (getFile (begin s a e) a).mode ∧
      (∀ u, flagsOf S a u = flagsOf (begin s a e) a u) ∧ (∀ u, u ≠ lowest e.mask → genOf S a u = genOf (begin s a e) a u) ∧
      uniGen S a e = d.2 := by
    by_cases hr : (resolve (getFile (begin s a e) a).mode f.round = .rs && f.draws != 0) = true
    · have : S = putUniGen (begin s a e) a e d.2 := by simp only [S, hr, if_true]
      rw [this]; exact putUniGen_spec hpres e d.2
    · have : S = begin s a e := by simp only [S, hr, Bool.false_eq_true, if_false]
      rw [this]
      refine ⟨⟨?_, fun c k ha => ?_, hpres.2, fun _ _ => rfl⟩, fun _ => rfl, fun _ => rfl, rfl, fun _ => rfl, fun _ _ => rfl, ?_⟩
      · cases a with
        | weave c k => obtain ⟨w, hw⟩ := hpres.1 c k rfl; exact ⟨Kept.refl _ _ _, w, w, hw, hw, rfl⟩
        | steer c k => obtain ⟨i, hi⟩ := hpres.2 c k rfl; exact ⟨rfl, fun _ _ => rfl, rfl, rfl, fun _ _ => rfl, i, i, hi, hi, rfl, rfl⟩
        | handler c => exact ⟨rfl, fun _ _ => rfl, rfl, rfl, rfl⟩
      · obtain ⟨w, hw⟩ := hpres.1 c k ha; exact ⟨w, w, hw, hw, rfl⟩
      · exact (takeDraws_none (Bool.eq_false_iff.mpr hr) _).symm
  obtain ⟨e1, s1, q1, m1, fl1, g1, u1⟩ := hS
  have hb : uniPlaced f copy (begin s a e) a e = uniPlain S a e f y := by
    have hq : (readQ (getFile (begin s a e) a) f.guard.p.toNat == f.guard.pol) = false := by simpa using r.guard
    simp only [uniPlaced, h.solo, Bool.false_and, Bool.false_eq_true, if_false, uniAluBody, hq, ra, rb, rc, gather, List.getD_cons_zero,
      List.getD_cons_succ]
    change (match a with
      | .weave c k => (match getWeave S c k with
        | some w => (match (if f.traps then fpTrap w.mode y.2 else none) with
          | some cause => uniTrap S c k w e f _ cause 0
          | none => if uniLookable w e f _ then uniLineage S c k w e f copy _ y else uniPlain S a e f y)
        | none => uniPlain S a e f y)
      | _ => uniPlain S a e f y) = _
    cases a with
    | weave c k =>
      obtain ⟨w, v, h1, h2, _⟩ := e1.weave c k rfl
      have hm : v.mode = (getFile (begin s (.weave c k) e) (.weave c k)).mode := by
        rw [← m1]; simp only [getFile, h2, weaveFile]
      have hlm : v.unlooked e := by
        obtain ⟨_, w', v', g1, g2, g3⟩ := e1.kept
        obtain rfl : w = w' := by rw [h1] at g1; exact Option.some.inj g1
        obtain rfl : v = v' := by rw [h2] at g2; exact Option.some.inj g2
        have := congrArg Weave.lmode g3
        simp only [Weave.body] at this
        rw [Weave.unlooked, this]; exact r.plain c k w rfl h1
      have ht : (if f.traps then fpTrap v.mode y.2 else none) = none := by
        cases hf : f.traps
        · rfl
        · rw [hm]; exact r.quiet c k rfl hf
      simp only [h2, ht]
      rw [if_neg]
      rcases hlm with hlm | hlm
      · simp [uniLookable, lookable, hlm]
      · rw [uniLookable, lookable, beq_eq_false_iff_ne.mpr hlm]; simp
    | steer c k => rfl
    | handler c => rfl
  obtain ⟨e2, s2, q2, m2, gen2, g2, fl2⟩ := uniPlain_spec e1.present e f y hp
  obtain ⟨t, t1, t2, t3, t4, t5, t6⟩ := uniIssue_done h (q := { size := f.size, chain := f.chain, elig := true, place := .any })
    (body := uniPlaced f copy) r.legal (by rw [hb]; rfl) (by rw [hb]; rfl) (by rw [hb]; exact e1.trans e2)
  rw [hb] at t4 t5 t6
  refine ⟨t, t1, t2, t3, fun n => ?_, fun p hp' => ?_, ?_, fun u hu c k ha => ?_, ?_, fun u _ hu c k _ => ?_⟩
  · rw [t4, s2, s1]
  · rw [t4, q2 p hp', q1]
  · rw [t4, m2, m1]
  · rw [(t5 u).1, fl2 u hu c k ha, fl1]
  · rw [t6]
    rw [← u1, uniGen_of e e1.present, uniGen_of e (e1.trans e2).present]
    cases a with
    | weave c k => exact g2 _
    | steer c k => exact gen2
    | handler c => exact gen2
  · rw [(t5 u).2, g2, g1 u hu]

theorem Effect.refl {s : State} {a : Agent} (h : Present s a) : Effect s s a := by
  refine ⟨?_, fun c k ha => ?_, h.2, fun _ _ => rfl⟩
  · cases a with
    | weave c k => obtain ⟨w, hw⟩ := h.1 c k rfl; exact ⟨Kept.refl _ _ _, w, w, hw, hw, rfl⟩
    | steer c k => obtain ⟨i, hi⟩ := h.2 c k rfl; exact ⟨rfl, fun _ _ => rfl, rfl, rfl, fun _ _ => rfl, i, i, hi, hi, rfl, rfl⟩
    | handler c => exact ⟨rfl, fun _ _ => rfl, rfl, rfl, rfl⟩
  · obtain ⟨w, hw⟩ := h.1 c k ha; exact ⟨w, w, hw, hw, rfl⟩

/-- A uniform arithmetic form whose guard does not hold only goes on (R265). -/
theorem uniAlu_skip (f : UAluForm) (copy : Bool) {s : State} {a : Agent} {e : Entry} (h : UniTurn s a e)
    (hl : uniCause (begin s a e) a e { size := f.size, chain := f.chain, elig := true, place := .any } = none)
    (hg : readQ (getFile (begin s a e) a) f.guard.p.toNat = f.guard.pol) :
    ∃ t, uniAlu f copy s = .next t ∧ UniSkip (begin s a e) t a e f.size := by
  have hb : uniPlaced f copy (begin s a e) a e = moved (begin s a e) [] 1 := by
    simp only [uniPlaced, h.solo, Bool.false_and, Bool.false_eq_true, if_false, uniAluBody, hg, beq_self_eq_true, if_true]
  obtain ⟨t, t1, t2, t3, t4, t5, _⟩ := uniIssue_done h (q := { size := f.size, chain := f.chain, elig := true, place := .any })
    (body := uniPlaced f copy) hl (by rw [hb]; rfl) (by rw [hb]; rfl) (by rw [hb]; exact Effect.refl (uniTurn_ok h).1)
  rw [hb] at t4 t5
  exact ⟨t, t1, t2, t3, t4, t5⟩

end Sys2Proof.Machine
end

