-- ==== Sys2Proof/Laws/Values.lean ====
section
/-!
SUPPORT. The machine's integer operations have the values of the rules of chapter 11: one lemma for each operation.
-/

namespace Sys2Proof.Machine

open Sys2Proof Sys2Proof.Rules

theorem add_eq (w) (a b : BitVec w) : Rules.add w a b = a + b := by
  simp only [Rules.add, Rules.wrap]
  apply BitVec.eq_of_toNat_eq
  simp [BitVec.toNat_ofInt, BitVec.toNat_add]
  norm_cast

theorem sub_eq (w) (a b : BitVec w) : Rules.sub w a b = a - b := by
  simp only [Rules.sub, Rules.wrap]
  apply BitVec.eq_of_toInt_eq
  simp [BitVec.toInt_ofInt, BitVec.toInt_sub]
  rw [BitVec.toInt_eq_toNat_bmod, BitVec.toInt_eq_toNat_bmod]; simp

theorem mul_eq (w) (a b : BitVec w) : Rules.mul w a b = a * b := by
  simp only [Rules.mul, Rules.wrap]
  apply BitVec.eq_of_toNat_eq
  simp [BitVec.toNat_ofInt, BitVec.toNat_mul]
  norm_cast

theorem mad_eq (w) (a b c : BitVec w) : Rules.mad w a b c = a * b + c := by
  simp only [Rules.mad, Rules.wrap]
  apply BitVec.eq_of_toNat_eq
  simp [BitVec.toNat_ofInt, BitVec.toNat_mul, BitVec.toNat_add]
  norm_cast

theorem mulhiN_eq (a b : Word) : Rules.mulhiN a b = Machine.mulhiN a b := by
  simp only [Rules.mulhiN, Machine.mulhiN, Rules.wrap]
  apply BitVec.eq_of_toNat_eq
  simp only [BitVec.extractLsb'_toNat, BitVec.toNat_ofNat, BitVec.toNat_ofInt, Nat.shiftRight_eq_div_pow]
  have h := a.isLt; have h' := b.isLt
  have : a.toNat * b.toNat < 2^64 := by nlinarith
  norm_cast
  rw [Nat.mod_eq_of_lt this]

theorem mulhiI_eq (a b : Word) : Rules.mulhiI a b = Machine.mulhiI a b := by
  simp only [Rules.mulhiI, Machine.mulhiI, Machine.wrapTo, Rules.wrap]
  apply BitVec.eq_of_toNat_eq
  simp only [BitVec.extractLsb'_toNat, BitVec.toNat_ofInt, Nat.shiftRight_eq_div_pow]
  generalize a.toInt * b.toInt = x
  simp only [Nat.cast_ofNat, Nat.reducePow]
  omega

theorem sat_eq (lo hi x : Int) (h : lo ≤ hi) :
    (satTo lo hi x).1 = Rules.sat lo hi x ∧ flagIf (satTo lo hi x).2 fSAT = Rules.clamped lo hi x := by
  have t1 : ∀ a : Flags, flagIf true a = a := fun a => rfl
  have t2 : ∀ a : Flags, flagIf false a = 0#6 := fun a => rfl
  simp only [satTo, Rules.sat, Rules.clamped]
  split
  · constructor
    · simp only; omega
    · rw [if_neg (by omega), t1]
  · split
    · constructor
      · simp only; omega
      · rw [if_neg (by omega), t1]
    · constructor
      · simp only; omega
      · rw [if_pos (by omega), t2]

theorem divN_eq (w) (a b : BitVec w) : Machine.udiv a b = Rules.divN w a b := by
  simp only [udiv, divN, Rules.wrap]
  have : (b = 0) ↔ b.toNat = 0 := by
    constructor
    · rintro rfl; simp
    · intro h; apply BitVec.eq_of_toNat_eq; simpa using h
  simp only [this]
  split
  · rfl
  · congr 1

theorem ofInt_div (w : Nat) (a b : Nat) : BitVec.ofInt w ((a : Int) / b) = BitVec.ofNat w (a/b) := by
  rw [← Int.natCast_div]; exact BitVec.ofInt_natCast w (a/b)

theorem divI_eq (w) (a b : BitVec w) : Machine.sdiv a b = Rules.divI w a b := by
  simp only [sdiv, divI, Rules.wrap, Machine.wrapTo]
  have : (b = 0) ↔ b.toInt = 0 := by
    constructor
    · rintro rfl; simp
    · intro h; apply BitVec.eq_of_toInt_eq; simpa using h
  simp only [this]
  have e1 : (-(2 ^ (w-1) - 1) - 1 : Int) = -(2^(w-1)) := by omega
  rw [e1]
  split
  · split <;> rfl
  · rfl

theorem remN_eq (a b : Word) : (if b = 0#32 then (z64 a, fDZ) else (z64 (BitVec.ofNat 32 (a.toNat % b.toNat)), 0#6))
    = ((Rules.remN a b).1.setWidth 64, (Rules.remN a b).2) := by
  simp only [Rules.remN, Rules.wrap]
  have : (b = 0#32) ↔ b.toNat = 0 := by
    constructor
    · rintro rfl; rfl
    · intro h; apply BitVec.eq_of_toNat_eq; simpa using h
  simp only [this]
  split
  · rfl
  · have : ((a.toNat : Int) - b.toNat * (a.toNat / b.toNat)) = ((a.toNat % b.toNat : Nat) : Int) := by
      rw [Int.natCast_mod, Int.emod_def]
    rw [this, BitVec.ofInt_natCast]; rfl

theorem remI_eq (a b : Word) : (if b = 0#32 then (z64 a, fDZ) else (z64 (Machine.wrapTo 32 (a.toInt.tmod b.toInt)), 0#6))
    = ((Rules.remI a b).1.setWidth 64, (Rules.remI a b).2) := by
  simp only [Rules.remI, Rules.wrap, Machine.wrapTo]
  have : (b = 0#32) ↔ b.toInt = 0 := by
    constructor
    · rintro rfl; rfl
    · intro h; apply BitVec.eq_of_toInt_eq; simpa using h
  simp only [this]
  split
  · rfl
  · rw [Int.tmod_def]; rfl

theorem minN_eq (a b : Word) : Machine.minN a b = smallerN a b := by
  simp only [Machine.minN, smallerN, Rules.wrap]
  split
  · rw [min_eq_left (by omega)]; simp
  · rw [min_eq_right (by omega)]; simp

theorem maxN_eq (a b : Word) : Machine.maxN a b = largerN a b := by
  simp only [Machine.maxN, largerN, Rules.wrap]
  split
  · rw [max_eq_right (by omega)]; simp
  · rw [max_eq_left (by omega)]; simp

theorem minI_eq (a b : Word) : Machine.minI a b = smallerI a b := by
  simp only [Machine.minI, smallerI, Rules.wrap]
  split
  · rw [min_eq_left (by omega)]; simp
  · rw [min_eq_right (by omega)]; simp

theorem maxI_eq (a b : Word) : Machine.maxI a b = largerI a b := by
  simp only [Machine.maxI, largerI, Rules.wrap]
  split
  · rw [max_eq_right (by omega)]; simp
  · rw [max_eq_left (by omega)]; simp

theorem shl_eq (w) (a : BitVec w) (n : Nat) : Machine.shlW a n = Rules.shl w a n := by
  simp only [Machine.shlW, Rules.shl, Rules.wrap]
  apply BitVec.eq_of_toNat_eq
  have e : BitVec.ofInt w ((a.toNat : Int) * 2 ^ n) = BitVec.ofNat w (a.toNat * 2 ^ n) := by
    rw [← BitVec.ofInt_natCast]; norm_cast
  rw [e]
  split
  · rename_i h
    obtain ⟨k, rfl⟩ := Nat.exists_eq_add_of_le h
    have : a.toNat * 2 ^ (w + k) = 2 ^ w * (a.toNat * 2 ^ k) := by ring
    simp [this]
  · simp [BitVec.toNat_shiftLeft, Nat.shiftLeft_eq]

theorem shr_eq (w) (a : BitVec w) (n : Nat) : Machine.shrW a n = Rules.shr w a n := by
  simp only [Machine.shrW, Rules.shr, Rules.wrap]
  have e : BitVec.ofInt w ((a.toNat : Int) / 2 ^ n) = BitVec.ofNat w (a.toNat / 2 ^ n) := by
    rw [← BitVec.ofInt_natCast]; norm_cast
  rw [e]
  apply BitVec.eq_of_toNat_eq
  have hlt := a.isLt
  split
  · rename_i h
    have : a.toNat / 2^n = 0 := Nat.div_eq_of_lt (lt_of_lt_of_le hlt (Nat.pow_le_pow_right (by omega) h))
    simp [this]
  · simp [Nat.shiftRight_eq_div_pow]
    rw [Nat.mod_eq_of_lt (lt_of_le_of_lt (Nat.div_le_self _ _) hlt)]

theorem sar_eq (w) (hw : 0 < w) (a : BitVec w) (n : Nat) : Machine.sarW a n = Rules.sar w a n := by
  simp only [Machine.sarW, Rules.sar, Rules.wrap]
  apply BitVec.eq_of_toInt_eq
  have h1 := BitVec.two_mul_toInt_lt (x := a)
  have h2 := BitVec.le_two_mul_toInt (x := a)
  obtain ⟨v, rfl⟩ : ∃ v, w = v + 1 := ⟨w - 1, by omega⟩
  have e : ((2 : Int) ^ (v+1)) = 2 * 2 ^ v := by ring
  rw [e] at h1 h2
  have key : ∀ m, v + 1 ≤ m → a.toInt / 2 ^ m = if a.toInt < 0 then -1 else 0 := by
    intro m hm
    have : (2:Int)^(v) ≤ 2 ^ m := by gcongr <;> omega
    have p : (0:Int) < 2 ^ m := by positivity
    split
    · apply Int.ediv_eq_neg_one_of_neg_of_le <;> omega
    · exact Int.ediv_eq_zero_of_lt (by omega) (by omega)
  have hb : ∀ x : Int, -(2^v) ≤ x → x < 2 ^ v → (BitVec.ofInt (v+1) x).toInt = x := by
    intro x h3 h4
    rw [BitVec.toInt_ofInt, Int.bmod_eq_of_le]
    · push_cast; rw [e]; omega
    · push_cast; rw [e]; omega
  have pv : (0:Int) < 2 ^ v := by positivity
  split
  · rename_i h
    rw [BitVec.toInt_sshiftRight, Int.shiftRight_eq_div_pow, key n h]
    push_cast
    rw [key _ le_rfl]
    split
    · exact (hb _ (by omega) (by omega)).symm
    · exact (hb _ (by omega) (by omega)).symm
  · rw [BitVec.toInt_sshiftRight, Int.shiftRight_eq_div_pow]
    push_cast
    have p : (0:Int) < 2 ^ n := by positivity
    refine (hb _ ?_ ?_).symm
    · have := Int.ediv_le_ediv p (show -(2^v) ≤ a.toInt by omega)
      refine le_trans ?_ this
      rw [Int.le_ediv_iff_mul_le p]
      nlinarith [show (1:Int) ≤ 2^n from by omega]
    · rw [Int.ediv_lt_iff_lt_mul p]
      nlinarith [show (1:Int) ≤ 2^n from by omega]


theorem popc_go (a : Word) : ∀ n, popCount a n = ((List.range n).filter a.getLsbD).length := by
  intro n
  induction n with
  | zero => rfl
  | succ n ih => simp [popCount, ih, List.range_succ, List.filter_append, List.filter_cons]; split <;> simp_all

theorem popc_eq (a : Word) : BitVec.ofNat 32 (popCount a 32) = Rules.popc a := by
  simp only [Rules.popc, Rules.wrap, popc_go, BitVec.ofInt_natCast]

theorem clz_go (a : Word) (n : Nat) (hn : n ≤ 31) (h1 : a.getLsbD n = true) (h2 : ∀ i, n < i → a.getLsbD i = false) :
    ((List.range 32).takeWhile (fun i => !a.getLsbD (31 - i))).length = 31 - n := by
  have e : List.range 32 = List.range (31 - n) ++ ((31 - n) :: (List.range n).map (fun i => 32 - n + i)) := by
    have : 32 = (31 - n) + (n + 1) := by omega
    conv_lhs => rw [this]
    rw [List.range_add, List.range_succ_eq_map]
    simp [List.map_map]
    intro x hx; omega
  rw [e, List.takeWhile_append_of_pos]
  · rw [List.takeWhile_cons_of_neg]
    · simp
    · have : 31 - (31 - n) = n := by omega
      simp [this, h1]
  · intro i hi
    simp at hi
    simp [h2 (31 - i) (by omega)]

theorem clz_eq (a : Word) : BitVec.ofNat 32 (if a.toNat = 0 then 32 else 31 - Nat.log2 a.toNat) = Rules.clz a := by
  simp only [Rules.clz, Rules.wrap, BitVec.ofInt_natCast]
  congr 1
  split
  · rename_i h
    have : a = 0#32 := BitVec.eq_of_toNat_eq (by simpa using h)
    subst this; decide
  · rename_i h
    refine (clz_go a _ ?_ ?_ ?_).symm
    · have := (Nat.log2_lt h).mpr a.isLt; omega
    · rw [BitVec.getLsbD, Nat.testBit_log2 h]
    · intro i hi
      rw [BitVec.getLsbD]
      exact Nat.testBit_lt_two_pow (lt_of_lt_of_le Nat.lt_log2_self (Nat.pow_le_pow_right (by omega) hi))

theorem brev_go (a : Word) : ∀ n, n ≤ 32 → ∀ i, i < 32 → (revBits a n).getLsbD i = (decide (32 - n ≤ i) && a.getLsbD (31 - i)) := by
  intro n
  induction n with
  | zero => intro _ i hi; simp [revBits]; omega
  | succ n ih =>
    intro hn i hi
    simp only [revBits, BitVec.getLsbD_or, ih (by omega) i hi]
    have hb : (1#32 <<< (31 - n)).getLsbD i = decide (i = 31 - n) := by
      simp only [BitVec.getLsbD_shiftLeft, BitVec.getLsbD_one]
      by_cases h : i = 31 - n
      · subst h; simp [hi]
      · by_cases h2 : i < 31 - n
        · simp [h2, h]
        · have : i - (31 - n) ≠ 0 := by omega
          simp [h, this]
    by_cases h : i = 31 - n
    · have : 31 - i = n := by omega
      rw [this]
      cases hx : a.getLsbD n
      · simp
      · simp [h]; omega
    · have e : decide (32 - (n+1) ≤ i) = decide (32 - n ≤ i) := by
        rw [decide_eq_decide]; omega
      rw [e]
      cases hx : a.getLsbD n <;> simp [hb, h]

theorem brev_eq (a : Word) : revBits a 32 = Rules.brev a := by
  apply BitVec.eq_of_getLsbD_eq
  intro i hi
  rw [brev_go a 32 le_rfl i hi, Rules.brev, BitVec.getLsbD_reverse, BitVec.getMsbD]
  simp [hi]

theorem shrr_eq (a : Word) (n : Nat) : shrrVal a.toInt n = Rules.shrr a n := rfl

theorem pdot2_eq (a b c : Double) : Machine.pdot2 a b c = of32x3 Rules.pdot2 a b c := by
  simp only [Machine.pdot2, of32x3, Rules.pdot2, Rules.satI32, sat32, el16, e16, lo32]
  have e : ∀ x : Double, ∀ k, k < 2 → (x.setWidth 32).extractLsb' (16 * k) 16 = x.extractLsb' (16 * k) 16 := by
    intro x k hk
    apply BitVec.eq_of_getLsbD_eq; intro i hi
    simp only [BitVec.getLsbD_extractLsb', BitVec.getLsbD_setWidth]
    have : 16 * k + i < 32 := by omega
    simp [this]
  simp only [e _ 0 (by omega), e _ 1 (by omega)]
  obtain ⟨h1, h2⟩ := sat_eq (-(2^31)) (2^31-1) ((c.setWidth 32).toInt + (a.extractLsb' (16*0) 16).toInt * (b.extractLsb' (16*0) 16).toInt + (a.extractLsb' (16*1) 16).toInt * (b.extractLsb' (16*1) 16).toInt) (by norm_num)
  rw [h1, h2]; rfl

theorem pack_eq (a b : Double) : Machine.packI16x2 a b = of32 Rules.pack a b := by
  simp only [Machine.packI16x2, of32, Rules.pack, lo32]
  obtain ⟨h1, h2⟩ := sat_eq (-32768) 32767 (a.setWidth 32).toInt (by norm_num)
  obtain ⟨h3, h4⟩ := sat_eq (-32768) 32767 (b.setWidth 32).toInt (by norm_num)
  rw [h1, h3, ← h2, ← h4]
  congr 1
  cases (satTo (-32768) 32767 (a.setWidth 32).toInt).2 <;> cases (satTo (-32768) 32767 (b.setWidth 32).toInt).2 <;> rfl

theorem el16_lo (x : Double) (k : Nat) (hk : k < 2) : e16 (x.setWidth 32) k = el16 x k := by
  apply BitVec.eq_of_getLsbD_eq; intro i hi
  simp only [e16, el16, BitVec.getLsbD_extractLsb', BitVec.getLsbD_setWidth]
  have : 16 * k + i < 32 := by omega
  simp [this]

theorem el8_lo (x : Double) (k : Nat) (hk : k < 4) : e8 (x.setWidth 32) k = el8 x k := by
  apply BitVec.eq_of_getLsbD_eq; intro i hi
  simp only [e8, el8, BitVec.getLsbD_extractLsb', BitVec.getLsbD_setWidth]
  have : 8 * k + i < 32 := by omega
  simp [this]

theorem halves_plain (f : Int → Int → Int) (a b : Double) : Machine.i16x2 (fun a b => (f a b, false)) a b = of32 (halves false f) a b := by
  simp only [Machine.i16x2, of32, halves, el16_lo _ 0 (by omega), el16_lo _ 1 (by omega), Bool.false_eq_true, if_false]
  rfl

theorem halves_sat (f : Int → Int → Int) (a b : Double) :
    Machine.i16x2 (fun a b => satTo (-32768) 32767 (f a b)) a b = of32 (halves true f) a b := by
  simp only [Machine.i16x2, of32, halves, el16_lo _ 0 (by omega), el16_lo _ 1 (by omega), if_true]
  obtain ⟨h1, h2⟩ := sat_eq (-32768) 32767 (f (el16 a 0).toInt (el16 b 0).toInt) (by norm_num)
  obtain ⟨h3, h4⟩ := sat_eq (-32768) 32767 (f (el16 a 1).toInt (el16 b 1).toInt) (by norm_num)
  rw [h1, h3, ← h2, ← h4]
  congr 1
  cases (satTo (-32768) 32767 (f (el16 a 0).toInt (el16 b 0).toInt)).2 <;> cases (satTo (-32768) 32767 (f (el16 a 1).toInt (el16 b 1).toInt)).2 <;> rfl

theorem bytes_plain (f : Int → Int → Int) (a b : Double) : Machine.n8x4 (fun a b => (f a b, false)) a b = of32 (bytes false f) a b := by
  simp only [Machine.n8x4, of32, bytes, el8_lo _ 0 (by omega), el8_lo _ 1 (by omega), el8_lo _ 2 (by omega), el8_lo _ 3 (by omega), Bool.false_eq_true, if_false]
  rfl

theorem bytes_sat (f : Int → Int → Int) (a b : Double) :
    Machine.n8x4 (fun a b => satTo 0 255 (f a b)) a b = of32 (bytes true f) a b := by
  simp only [Machine.n8x4, of32, bytes, el8_lo _ 0 (by omega), el8_lo _ 1 (by omega), el8_lo _ 2 (by omega), el8_lo _ 3 (by omega), if_true]
  have h := fun k => sat_eq 0 255 (f (el8 a k).toNat (el8 b k).toNat) (by norm_num)
  rw [(h 0).1, (h 1).1, (h 2).1, (h 3).1, ← (h 0).2, ← (h 1).2, ← (h 2).2, ← (h 3).2]
  congr 1
  cases (satTo 0 255 (f (el8 a 0).toNat (el8 b 0).toNat)).2 <;> cases (satTo 0 255 (f (el8 a 1).toNat (el8 b 1).toNat)).2 <;>
  cases (satTo 0 255 (f (el8 a 2).toNat (el8 b 2).toNat)).2 <;> cases (satTo 0 255 (f (el8 a 3).toNat (el8 b 3).toNat)).2 <;> rfl

theorem cond_eq (c : Cond) (a b : Int) : condInts c a b = holds c a b := by
  cases c <;> simp only [condInts, holds]
  · by_cases h : a = b <;> simp [h]
  · by_cases h : a < b <;> by_cases h2 : a = b <;> simp [h, h2] <;> omega
  · by_cases h : a < b <;> by_cases h2 : a = b <;> simp [h, h2] <;> omega
  · by_cases h : a < b <;> simp [h] <;> omega


theorem bfeN_eq (a b : Double) : Machine.bfe false a b = of32 (fun a b => (Rules.bfe false a b, 0#6)) a b := by
  simp only [Machine.bfe, of32, Rules.bfe, lo32, Bool.false_eq_true, if_false, Bool.false_and]
  generalize (BitVec.extractLsb' 8 8 (BitVec.setWidth 32 b)).toNat = q
  generalize (BitVec.extractLsb' 0 8 (BitVec.setWidth 32 b)).toNat = p
  generalize BitVec.setWidth 32 a = x
  split
  · rfl
  · congr 1
    rw [z64]; congr 1
    have e : ((x.toNat : Int) / 2 ^ p % 2 ^ min q 32) = ((x.toNat / 2 ^ p % 2 ^ min q 32 : Nat) : Int) := by push_cast; rfl
    rw [e, wrapTo, BitVec.ofInt_natCast]
    apply BitVec.eq_of_getLsbD_eq; intro i hi
    rw [BitVec.getLsbD_ofFnLE, dif_pos hi]
    simp only [BitVec.getLsbD_ofNat, hi, decide_true, Bool.true_and, Nat.testBit_mod_two_pow, Nat.testBit_div_two_pow, fieldBit, Bool.false_and]
    by_cases h : i < min q 32
    · simp only [h, decide_true, Bool.true_and, if_true, BitVec.getLsbD]
      split
      · rw [Nat.add_comm]
      · exact Nat.testBit_lt_two_pow (lt_of_lt_of_le x.isLt (Nat.pow_le_pow_right (by omega) (by omega)))
    · simp [h]

theorem bfeI_eq (a b : Double) : Machine.bfe true a b = of32 (fun a b => (Rules.bfe true a b, 0#6)) a b := by
  simp only [Machine.bfe, of32, Rules.bfe, lo32, if_true, Bool.true_and]
  generalize (BitVec.extractLsb' 8 8 (BitVec.setWidth 32 b)).toNat = q
  generalize (BitVec.extractLsb' 0 8 (BitVec.setWidth 32 b)).toNat = p
  generalize BitVec.setWidth 32 a = x
  split
  · rfl
  · rename_i hq
    congr 1
    rw [z64]; congr 1
    generalize hq' : min q 32 = r
    have hr1 : 0 < r := by omega
    have hr2 : r ≤ 32 := by omega
    let y : BitVec r := (x.sshiftRight p).setWidth r
    have ey : (y.toNat : Int) = x.toInt / 2 ^ p % 2 ^ r := by
      have h1 : x.toInt / 2 ^ p = (x.sshiftRight p).toInt := by
        rw [BitVec.toInt_sshiftRight, Int.shiftRight_eq_div_pow]; norm_cast
      rw [h1]
      simp only [y, BitVec.toNat_setWidth]
      push_cast
      have h2 : (x.sshiftRight p).toInt % 2 ^ 32 = (x.sshiftRight p).toNat := by
        have := BitVec.toInt_eq_toNat_bmod (x.sshiftRight p)
        rw [this, show ((2:Int)^32) = ((2^32 : Nat) : Int) by norm_cast, Int.bmod_emod]
        have := (x.sshiftRight p).isLt
        omega
      rw [← h2]
      exact Int.emod_emod_of_dvd _ (pow_dvd_pow 2 hr2)
    have ed : (if decide (2 ^ (r - 1) ≤ x.toInt / 2 ^ p % 2 ^ r) = true then x.toInt / 2 ^ p % 2 ^ r - 2 ^ r else x.toInt / 2 ^ p % 2 ^ r) = y.toInt := by
      rw [← ey, BitVec.toInt_eq_toNat_cond]
      obtain ⟨n, rfl⟩ : ∃ n, r = n + 1 := ⟨r - 1, by omega⟩
      have : (2:Nat) ^ (n+1) = 2 * 2 ^ n := by ring
      have hc : decide ((2:Int) ^ (n + 1 - 1) ≤ (y.toNat : Int)) = true ↔ ¬ (2 * y.toNat < 2 ^ (n+1)) := by
        rw [decide_eq_true_iff]
        simp only [Nat.add_sub_cancel]
        constructor
        · intro h; have : 2 ^ n ≤ y.toNat := by exact_mod_cast h
          omega
        · intro h; have : 2 ^ n ≤ y.toNat := by omega
          exact_mod_cast this
      by_cases h : 2 * y.toNat < 2 ^ (n+1)
      · rw [if_neg (by rw [hc]; exact not_not.mpr h), if_pos h]
      · rw [if_pos (hc.mpr h), if_neg h]; push_cast; rfl
    rw [ed]
    change y.signExtend 32 = _
    apply BitVec.eq_of_getLsbD_eq; intro i hi
    have fb : ∀ j, j < r → y.getLsbD j = fieldBit true x (p + j) := by
      intro j hj
      simp only [y, BitVec.getLsbD_setWidth, hj, decide_true, Bool.true_and, BitVec.getLsbD_sshiftRight, fieldBit]
      have : j < 32 := by omega
      simp [this, BitVec.msb_eq_getLsbD_last]
    rw [BitVec.getLsbD_ofFnLE, dif_pos hi]
    simp only [BitVec.getLsbD_signExtend, hi, decide_true, Bool.true_and]
    split
    · exact fb i ‹_›
    · rw [BitVec.msb_eq_getLsbD_last, fb (r - 1) (by omega)]
      congr 1; omega

theorem bfi_go (x y : Word) (p q : Nat) :
    (if q = 0 ∨ 32 ≤ p then x
     else (x &&& ~~~BitVec.ofNat 32 ((2 ^ min q (32 - p) - 1) * 2 ^ p)) ||| ((y <<< p) &&& BitVec.ofNat 32 ((2 ^ min q (32 - p) - 1) * 2 ^ p)))
    = BitVec.ofFnLE (fun i : Fin 32 => if p ≤ i.val ∧ i.val < p + q then y.getLsbD (i.val - p) else x.getLsbD i.val) := by
  apply BitVec.eq_of_getLsbD_eq; intro i hi
  rw [BitVec.getLsbD_ofFnLE, dif_pos hi]
  split
  · simp only; rw [if_neg (by omega)]
  · have hm : (BitVec.ofNat 32 ((2 ^ min q (32 - p) - 1) * 2 ^ p)).getLsbD i = decide (p ≤ i ∧ i < p + q) := by
      rw [BitVec.getLsbD_ofNat, Nat.testBit_mul_two_pow, Nat.testBit_two_pow_sub_one]
      simp only [hi, decide_true, Bool.true_and, ← Bool.decide_and]
      rw [decide_eq_decide]; omega
    simp only [BitVec.getLsbD_or, BitVec.getLsbD_and, BitVec.getLsbD_not, hm, hi, decide_true, Bool.true_and, BitVec.getLsbD_shiftLeft]
    by_cases h : p ≤ i ∧ i < p + q
    · simp [h]
    · simp [h]

theorem bfi_pair (x y : Word) (p q : Nat) :
    (if q = 0 ∨ 32 ≤ p then (z64 x, (0#6 : Flags))
     else (z64 ((x &&& ~~~BitVec.ofNat 32 ((2 ^ min q (32 - p) - 1) * 2 ^ p)) ||| ((y <<< p) &&& BitVec.ofNat 32 ((2 ^ min q (32 - p) - 1) * 2 ^ p))), 0#6))
    = ((BitVec.ofFnLE (fun i : Fin 32 => if p ≤ i.val ∧ i.val < p + q then y.getLsbD (i.val - p) else x.getLsbD i.val)).setWidth 64, 0#6) := by
  rw [← bfi_go]
  by_cases h : q = 0 ∨ 32 ≤ p
  · rw [if_pos h, if_pos h]; rfl
  · rw [if_neg h, if_neg h]; rfl

theorem bfi_eq (a b c : Double) : Machine.bfi a b c = of32x3 (fun a b c => (Rules.bfi a b c, 0#6)) a b c :=
  bfi_pair _ _ _ _

end Sys2Proof.Machine
end

