-- ==== Sys2Proof/Laws/Forms.lean ====
section
/-!
SUPPORT. From an arithmetic form of the machine to the row that states its rule: the one lemma of each shape.
-/

namespace Sys2Proof.Machine

open Sys2Proof

/-- A thread's run with readable operands and no enabled trap. -/
theorem runThread_ok (f : AluForm) (x : Core) (w : Weave) (rm : RMode) (u : Nat) {va vb vc : Double}
    (ha : readOpd x w f.edge u f.a = .ok va) (hb : readOpd x w f.edge u f.b = .ok vb) (hc : readOpd x w f.edge u f.c = .ok vc)
    (ht : f.traps = true → fpTrap w.mode (f.fn (takeDraws rm f.draws (readGen w u)).1 va vb vc).2 = none) :
    runThread f x w rm u = { tid := u, gen := (takeDraws rm f.draws (readGen w u)).2,
                             res := .ok (f.fn (takeDraws rm f.draws (readGen w u)).1 va vb vc) } := by
  simp only [runThread, ha, hb, hc, gather, List.getD_cons_zero, List.getD_cons_succ]
  cases h : f.traps
  · simp
  · simp [ht h]

/-- A lane form whose machine meaning is `f` satisfies the claim of a row with the same result, draws and traps. -/
theorem laneHolds_of {F : Type} (r : Rules.Row F) (i : Instr) (f : AluForm) (copy : Bool) (hx : ∀ s, exec i s = laneAlu f copy s)
    (hd : f.draws = r.draws) (ht : f.traps = r.traps) (hf : ∀ n a b c, f.fn n a b c = r.fn n a b c) :
    Rules.laneHolds r i f.size f.supp f.chain f.dst f.a f.b f.c f.edge f.guard f.round := by
  intro s k n e w va vb vc h hl hm hr htr
  rw [hx]
  refine laneAlu_done f copy h hl hm _ _ _ (fun u hu => ?_)
  obtain ⟨ha, hb, hc⟩ := hr u hu
  rw [runThread_ok f _ w _ u ha hb hc (fun h1 => by rw [hd, hf]; exact htr (ht ▸ h1) u hu), hd, hf]
  rfl

theorem rowR (r : Rules.Row LaneR) (y : FormTy) (g : Fn) (c : Bool) (h : ∀ f s, exec (r.form f) s = laneAlu (formR y g f) c s)
    (h1 : y.td = r.td) (h2 : y.ta = r.ta) (h3 : y.tb = r.tb) (h4 : y.draws = r.draws) (h5 : y.traps = r.traps)
    (hf : ∀ n a b c, g n a b c = r.fn n a b c) : Rules.holdsR r := by
  intro f
  cases y; cases r
  simp only at h1 h2 h3 h4 h5 h hf
  subst h1 h2 h3 h4 h5
  exact laneHolds_of _ _ (formR _ g f) c (h f) rfl rfl hf

theorem rowR1 (r : Rules.Row LaneR1) (y : FormTy) (g : Fn) (c : Bool) (h : ∀ f s, exec (r.form f) s = laneAlu (formR1 y g f) c s)
    (h1 : y.td = r.td) (h2 : y.ta = r.ta) (h3 : y.tb = r.tb) (h4 : y.draws = r.draws) (h5 : y.traps = r.traps)
    (hf : ∀ n a b c, g n a b c = r.fn n a b c) : Rules.holdsR1 r := by
  intro f
  cases y; cases r
  simp only at h1 h2 h3 h4 h5 h hf
  subst h1 h2 h3 h4 h5
  exact laneHolds_of _ _ (formR1 _ g f) c (h f) rfl rfl hf

theorem rowX3 (r : Rules.Row LaneX3) (y : FormTy) (g : Fn) (c : Bool) (h : ∀ f s, exec (r.form f) s = laneAlu (formX3 y g f) c s)
    (h1 : y.td = r.td) (h2 : y.ta = r.ta) (h3 : y.tb = r.tb) (h4 : y.draws = r.draws) (h5 : y.traps = r.traps)
    (hf : ∀ n a b c, g n a b c = r.fn n a b c) : Rules.holdsX3 r := by
  intro f
  cases y; cases r
  simp only at h1 h2 h3 h4 h5 h hf
  subst h1 h2 h3 h4 h5
  exact laneHolds_of _ _ (formX3 _ g f) c (h f) rfl rfl hf

theorem rowX (r : Rules.Row LaneX) (y : FormTy) (g : Fn) (c : Bool) (h : ∀ f s, exec (r.form f) s = laneAlu (formX y g f) c s)
    (h1 : y.td = r.td) (h2 : y.ta = r.ta) (h3 : y.tb = r.tb) (h4 : y.draws = r.draws) (h5 : y.traps = r.traps)
    (hf : ∀ n a b c, g n a b c = r.fn n a b c) : Rules.holdsX r := by
  intro f
  have := laneHolds_of r _ (formX y g f) c (h f) h4 h5 hf
  cases hx : f.ext <;> simpa only [formX, hx, h1, h2, h3, Rules.xsrc, Rules.edgeOf, Rules.guardOf, Rules.roundOf, extOpdA, extOpdB, extNbrA, extNbrB, extPayload, extEdge, extGuard, extRound, noGuard, Bool.false_eq_true, if_false, if_true] using this

theorem rowX1 (r : Rules.Row LaneX1) (y : FormTy) (g : Fn) (c : Bool) (h : ∀ f s, exec (r.form f) s = laneAlu (formX1 y g f) c s)
    (h1 : y.td = r.td) (h2 : y.ta = r.ta) (h4 : y.draws = r.draws) (h5 : y.traps = r.traps)
    (hf : ∀ n a b c, g n a b c = r.fn n a b c) : Rules.holdsX1 r := by
  intro f
  have := laneHolds_of r _ (formX1 y g f) c (h f) h4 h5 hf
  cases hx : f.ext <;> simpa only [formX1, hx, h1, h2, Rules.xsrc, Rules.edgeOf, Rules.guardOf, Rules.roundOf, extOpdA, extOpdB, extNbrA, extNbrB, extPayload, extEdge, extGuard, extRound, noGuard, Bool.false_eq_true, if_false, if_true] using this

theorem rowP (r : Cond → Rules.Row LaneP) (y : FormTy) (g : Cond → Fn) (c : Bool)
    (h : ∀ f s, exec ((r f.cond).form f) s = laneAlu (formP y g f) c s)
    (h2 : ∀ x, y.ta = (r x).ta) (h3 : ∀ x, y.tb = (r x).tb) (h4 : ∀ x, (r x).draws = 0) (h5 : ∀ x, y.traps = (r x).traps)
    (hf : ∀ x n a b c, g x n a b c = (r x).fn n a b c) : Rules.holdsP r := by
  intro f
  have := laneHolds_of (r f.cond) _ (formP y g f) c (h f) (h4 _).symm (h5 _) (hf _)
  simpa only [formP, plainOpd, noGuard, Rules.src, Rules.all, h2 f.cond, h3 f.cond] using this

theorem rowXP (r : Cond → Rules.Row LaneXP) (y : FormTy) (g : Cond → Fn) (c : Bool)
    (h : ∀ f s, exec ((r f.cond).form f) s = laneAlu (formXP y g f) c s)
    (h2 : ∀ x, y.ta = (r x).ta) (h3 : ∀ x, y.tb = (r x).tb) (h4 : ∀ x, (r x).draws = 0) (h5 : ∀ x, y.traps = (r x).traps)
    (hf : ∀ x n a b c, g x n a b c = (r x).fn n a b c) : Rules.holdsXP r := by
  intro f
  have := laneHolds_of (r f.cond) _ (formXP y g f) c (h f) (h4 _).symm (h5 _) (hf _)
  cases hx : f.ext <;> simpa only [formXP, hx, Rules.xsrc, Rules.edgeOf, Rules.guardOf, Rules.roundOf, extOpdA, extOpdB, extNbrA, extNbrB, extPayload, extEdge, extGuard, extRound, noGuard, h2 f.cond, h3 f.cond, Bool.false_eq_true, if_false, if_true] using this

/-! ## Operations of 32 and 64 bits -/

theorem pure_eq (f g : Word → Word → Word) (h : ∀ a b, f a b = g a b) (n a b c) : fn2 (op32 f) n a b c = Rules.pure32 g a b := by
  simp only [fn2, op32, h]; rfl

theorem pure64_eq (f g : Double → Double → Double) (h : ∀ a b, f a b = g a b) (n a b c) : fn2 (op64 f) n a b c = Rules.pure64 g a b := by
  simp only [fn2, op64, h]; rfl

theorem satN (x : Int) : sat32 0 (2 ^ 32 - 1) x = ((Rules.satN32 x).1.setWidth 64, (Rules.satN32 x).2) := by
  simp only [sat32, Rules.satN32, (sat_eq 0 (2^32-1) x (by norm_num)).1, (sat_eq 0 (2^32-1) x (by norm_num)).2]; rfl

theorem satI (x : Int) : sat32 (-(2^31)) (2 ^ 31 - 1) x = ((Rules.satI32 x).1.setWidth 64, (Rules.satI32 x).2) := by
  simp only [sat32, Rules.satI32, (sat_eq (-(2^31)) (2^31-1) x (by norm_num)).1, (sat_eq (-(2^31)) (2^31-1) x (by norm_num)).2]; rfl

/-! ## The uniform forms -/

/-- A uniform form whose machine meaning is `f` satisfies the claim of a row with the same result, draws and traps. -/
theorem uniHolds_of {F : Type} (r : Rules.Row F) (i : Instr) (f : UAluForm) (copy : Bool) (hx : ∀ s, exec i s = uniAlu f copy s)
    (hd : f.draws = r.draws) (ht : f.traps = r.traps) (hf : ∀ n a b c, f.fn n a b c = r.fn n a b c) (hp : ∀ p, f.dst = .pred p → p < 4) :
    Rules.uniHolds r i f.size f.chain f.dst f.a f.b f.c f.guard f.round := by
  intro s ag e va vb vc h hl hm file d
  refine ⟨fun hg => ?_, fun hg hr hq => ?_⟩
  · rw [hx]; exact uniAlu_skip f copy h hl hg
  · rw [hx]
    have := uniAlu_done f copy h (va := va) (vb := vb) (vc := vc)
      ⟨hl, hm, hg, hr, fun c k ha h1 => by rw [hd, hf]; exact hq c k ha (ht ▸ h1)⟩ hp
    simp only [hd, hf] at this
    exact this

theorem rowUR (r : Rules.Row UniR) (y : FormTy) (g : Fn) (c : Bool) (h : ∀ f s, exec (r.form f) s = uniAlu (uformR y g f) c s)
    (h1 : y.td = r.td) (h2 : y.ta = r.ta) (h3 : y.tb = r.tb) (h4 : y.draws = r.draws) (h5 : y.traps = r.traps)
    (hf : ∀ n a b c, g n a b c = r.fn n a b c) : Rules.holdsUR r := by
  intro f
  have := uniHolds_of r _ (uformR y g f) c (h f) h4 h5 hf (fun _ hp => by cases hp)
  simpa only [uformR, uplain, noGuard, Rules.usrc, Rules.all, h1, h2, h3] using this

theorem rowUR1 (r : Rules.Row UniR1) (y : FormTy) (g : Fn) (c : Bool) (h : ∀ f s, exec (r.form f) s = uniAlu (uformR1 y g f) c s)
    (h1 : y.td = r.td) (h2 : y.ta = r.ta) (h4 : y.draws = r.draws) (h5 : y.traps = r.traps)
    (hf : ∀ n a b c, g n a b c = r.fn n a b c) : Rules.holdsUR1 r := by
  intro f
  have := uniHolds_of r _ (uformR1 y g f) c (h f) h4 h5 hf (fun _ hp => by cases hp)
  simpa only [uformR1, uplain, noGuard, Rules.usrc, Rules.all, h1, h2] using this

theorem rowUX (r : Rules.Row UniX) (y : FormTy) (g : Fn) (c : Bool) (h : ∀ f s, exec (r.form f) s = uniAlu (uformX y g f) c s)
    (h1 : y.td = r.td) (h2 : y.ta = r.ta) (h3 : y.tb = r.tb) (h4 : y.draws = r.draws) (h5 : y.traps = r.traps)
    (hf : ∀ n a b c, g n a b c = r.fn n a b c) : Rules.holdsUX r := by
  intro f
  have := uniHolds_of r _ (uformX y g f) c (h f) h4 h5 hf (fun _ hp => by cases hp)
  cases hx : f.ext <;> simpa only [uformX, hx, uextOpd, extPayload, extGuard, extRound, noGuard, Rules.uxsrc, Rules.guardOf, Rules.roundOf, h1, h2, h3] using this

theorem rowUX1 (r : Rules.Row UniX1) (y : FormTy) (g : Fn) (c : Bool) (h : ∀ f s, exec (r.form f) s = uniAlu (uformX1 y g f) c s)
    (h1 : y.td = r.td) (h2 : y.ta = r.ta) (h4 : y.draws = r.draws) (h5 : y.traps = r.traps)
    (hf : ∀ n a b c, g n a b c = r.fn n a b c) : Rules.holdsUX1 r := by
  intro f
  have := uniHolds_of r _ (uformX1 y g f) c (h f) h4 h5 hf (fun _ hp => by cases hp)
  cases hx : f.ext <;> simpa only [uformX1, hx, uextOpd, extPayload, extGuard, extRound, noGuard, Rules.uxsrc, Rules.guardOf, Rules.roundOf, h1, h2] using this

theorem rowUX3 (r : Rules.Row UniX3) (y : FormTy) (g : Fn) (c : Bool) (h : ∀ f s, exec (r.form f) s = uniAlu (uformX3 y g f) c s)
    (h1 : y.td = r.td) (h2 : y.ta = r.ta) (h3 : y.tb = r.tb) (h4 : y.draws = r.draws) (h5 : y.traps = r.traps)
    (hf : ∀ n a b c, g n a b c = r.fn n a b c) : Rules.holdsUX3 r := by
  intro f
  have := uniHolds_of r _ (uformX3 y g f) c (h f) h4 h5 hf (fun _ hp => by cases hp)
  simpa only [uformX3, uplain, Rules.usrc, h1, h2, h3] using this

theorem rowUP (r : Cond → Rules.Row UniP) (y : FormTy) (g : Cond → Fn) (c : Bool)
    (h : ∀ f s, exec ((r f.cond).form f) s = uniAlu (uformP y g f) c s)
    (h2 : ∀ x, y.ta = (r x).ta) (h3 : ∀ x, y.tb = (r x).tb) (h4 : ∀ x, (r x).draws = 0) (h5 : ∀ x, y.traps = (r x).traps)
    (hf : ∀ x n a b c, g x n a b c = (r x).fn n a b c) : Rules.holdsUP r := by
  intro f
  have := uniHolds_of (r f.cond) _ (uformP y g f) c (h f) (h4 _).symm (h5 _) (hf _) (fun p hp => by
    simp only [uformP, UDest.pred.injEq] at hp; have := f.p.isLt; omega)
  simpa only [uformP, uplain, noGuard, Rules.usrc, Rules.all, h2 f.cond, h3 f.cond] using this

theorem rowUXP (r : Cond → Rules.Row UniXP) (y : FormTy) (g : Cond → Fn) (c : Bool)
    (h : ∀ f s, exec ((r f.cond).form f) s = uniAlu (uformXP y g f) c s)
    (h2 : ∀ x, y.ta = (r x).ta) (h3 : ∀ x, y.tb = (r x).tb) (h4 : ∀ x, (r x).draws = 0) (h5 : ∀ x, y.traps = (r x).traps)
    (hf : ∀ x n a b c, g x n a b c = (r x).fn n a b c) : Rules.holdsUXP r := by
  intro f
  have := uniHolds_of (r f.cond) _ (uformXP y g f) c (h f) (h4 _).symm (h5 _) (hf _) (fun p hp => by
    simp only [uformXP, UDest.pred.injEq] at hp; have := f.p.isLt; omega)
  cases hx : f.ext <;> simpa only [uformXP, hx, uextOpd, extPayload, extGuard, extRound, noGuard, Rules.uxsrc, Rules.guardOf, Rules.roundOf, h2 f.cond, h3 f.cond] using this

end Sys2Proof.Machine
end

