-- ==== Sys2Proof/Laws/Shapes.lean ====
section
/-!
SUPPORT. Each shape of an instruction read back: parsing the fields that the encoder writes gives the operands again (03 R31 to R45).
-/

namespace Sys2Proof.Laws

open Sys2Proof

/-! ## Bits that are zero -/

theorem bit_condL (k p : BitVec 3) : (k ++ 0#1 ++ p : BitVec 7).getLsbD 3 = false := by
  simp only [BitVec.getLsbD_append]; simp
theorem bit_plogU (t : BitVec 4) (p : BitVec 2) : (t ++ 0#1 ++ p : BitVec 7).getLsbD 2 = false := by
  simp only [BitVec.getLsbD_append]; simp
theorem bit_rim (tile : BitVec 3) (tx : BitVec 8) (n er ec r sc : BitVec 3) (c : Bool) :
    (tile ++ tx ++ n ++ er ++ ec ++ r ++ sc ++ BitVec.ofBool c ++ 0#1 : BitVec 28).getLsbD 0 = false := by
  simp only [BitVec.getLsbD_append]; simp
theorem bit_branch (op : BitVec 9) (prio : BitVec 16) (p : BitVec 3) (l : Bool) :
    (op ++ 0#2 ++ prio ++ p ++ BitVec.ofBool l ++ 0#1 : BitVec 32).getLsbD 0 = false := by
  simp only [BitVec.getLsbD_append]; simp
theorem bit_calle (x : Bool) (o : BitVec 21) : (0#1 ++ BitVec.ofBool x ++ 0#5 ++ o : BitVec 28).getLsbD 27 = false := by
  simp only [BitVec.getLsbD_append]; simp
theorem halves_append (off : BitVec 14) : (off.extractLsb' 7 7 ++ off.extractLsb' 0 7 : BitVec 14) = off := by
  apply BitVec.eq_of_getLsbD_eq; intro i hi
  simp only [BitVec.getLsbD_append, BitVec.getLsbD_extractLsb']
  split
  · simp_all
  · have : i - 7 < 7 := by omega
    simp only [this, decide_true, Bool.true_and]; congr 1; omega
theorem plain_branch (op : BitVec 9) (prio : BitVec 16) (p : BitVec 3) (l : Bool) :
    (Raw.ofWord (op ++ 0#2 ++ prio ++ p ++ BitVec.ofBool l ++ 0#1)).plain = true := by
  simp only [Raw.plain, Raw.ofWord, BitVec.getLsbD_append]; simp
theorem plain_mtile (op : BitVec 9) (r : BitVec 3) (a b : BitVec 5) (s : BitVec 3) :
    (Raw.ofWord (op ++ 0#2 ++ r ++ a ++ b ++ s ++ 0#5)).plain = true := by
  simp only [Raw.plain, Raw.ofWord, BitVec.getLsbD_append]; simp
theorem pad_ldt1 (tx : BitVec 8) (n : BitVec 3) (f : Bool) :
    (tx ++ n ++ ofBool2 f ++ 0#3 ++ 0#11 : BitVec 28).extractLsb' 15 2 = 0#2 := by
  apply BitVec.eq_of_getLsbD_eq; intro i hi
  simp only [BitVec.getLsbD_extractLsb', BitVec.getLsbD_append, hi, decide_true, Bool.true_and]
  simp (disch := omega) only [if_neg, if_pos]
  have : i = 0 ∨ i = 1 := by omega
  rcases this with rfl | rfl <;> cases f <;> rfl
theorem pad_ldt2 (tx : BitVec 8) (n : BitVec 3) (f : Bool) :
    (tx ++ n ++ ofBool2 f ++ 0#3 ++ 0#11 : BitVec 28).extractLsb' 0 14 = 0#14 := by
  apply BitVec.eq_of_getLsbD_eq; intro i hi
  simp only [BitVec.getLsbD_extractLsb', BitVec.getLsbD_append, hi, decide_true, Bool.true_and, Nat.zero_add]
  split
  · simp
  · rw [if_pos (by omega)]; simp
theorem pad_stt1 (tx : BitVec 8) (n : BitVec 3) (f : Bool) (r : BitVec 3) :
    (tx ++ n ++ ofBool2 f ++ r ++ 0#11 : BitVec 28).extractLsb' 15 2 = 0#2 := by
  apply BitVec.eq_of_getLsbD_eq; intro i hi
  simp only [BitVec.getLsbD_extractLsb', BitVec.getLsbD_append, hi, decide_true, Bool.true_and]
  simp (disch := omega) only [if_neg, if_pos]
  have : i = 0 ∨ i = 1 := by omega
  rcases this with rfl | rfl <;> cases f <;> rfl

/-! ## The shapes of 03 R31 to R45 read back -/

theorem laneR_rt {α : Type} {ok : LaneR → Bool} {mk : LaneR → α} {op : BitVec 9} {f : LaneR} (h : ok f = true) (ha : LSrc.named f.a = true) (hb : LSrc.named f.b = true) :
    LaneR.parse ok mk ⟨op, f.s, f.c, f.d, f.a.code, f.b.code⟩ = some (mk f) := by
  simp [LaneR.parse, h, ha, hb, keep, lsrc_code, -BitVec.getLsbD_eq_getElem]

theorem laneR1_rt {α : Type} {ok : LaneR1 → Bool} {mk : LaneR1 → α} {op : BitVec 9} {f : LaneR1} (h : ok f = true) (ha : LSrc.named f.a = true) :
    LaneR1.parse ok mk ⟨op, f.s, f.c, f.d, f.a.code, 0#7⟩ = some (mk f) := by
  simp [LaneR1.parse, h, ha, keep, Bool.and_self, decide_true, lsrc_code, -BitVec.getLsbD_eq_getElem]

theorem laneP_rt {α : Type} {ok : LaneP → Bool} {mk : LaneP → α} {op : BitVec 9} {f : LaneP} (h : ok f = true) (ha : LSrc.named f.a = true) (hb : LSrc.named f.b = true) :
    LaneP.parse ok mk ⟨op, false, f.c, f.cond.code ++ 0#1 ++ f.p, f.a.code, f.b.code⟩ = some (mk f) := by
  simp [LaneP.parse, cat_condL_k, cat_condL_p, bit_condL, h, ha, hb, keep, Bool.and_self, Bool.not_false, lsrc_code, cond_code, -BitVec.getLsbD_eq_getElem]

theorem lanePlog_rt {α : Type} {ok : LanePlog → Bool} {mk : LanePlog → α} {op : BitVec 9} {f : LanePlog} (h : ok f = true) :
    LanePlog.parse ok mk ⟨op, false, f.c, f.t ++ f.p, 0#4 ++ f.a, 0#4 ++ f.b⟩ = some (mk f) := by
  simp [LanePlog.parse, cat_plogL_t, cat_plogL_p, h, keep, Bool.and_self, Bool.not_false, decide_true, -BitVec.getLsbD_eq_getElem]

theorem laneX_rt {α : Type} {ok : LaneX → Bool} {mk : LaneX → α} {op : BitVec 9} {f : LaneX} (h : ok f = true) (ha : LSrc.named f.a = true) (hb : LSrc.named f.b = true) :
    LaneX.parse ok mk ⟨op, f.s, f.c, f.d, f.a.code, f.b.code⟩ f.ext.word = some (mk f) := by
  simp [LaneX.parse, h, ha, hb, keep, lsrc_code, ext_word, -BitVec.getLsbD_eq_getElem]

theorem laneX1_rt {α : Type} {ok : LaneX1 → Bool} {mk : LaneX1 → α} {op : BitVec 9} {f : LaneX1} (h : ok f = true) (ha : LSrc.named f.a = true) :
    LaneX1.parse ok mk ⟨op, f.s, f.c, f.d, f.a.code, 0#7⟩ f.ext.word = some (mk f) := by
  simp [LaneX1.parse, h, ha, keep, Bool.and_self, decide_true, lsrc_code, ext_word, -BitVec.getLsbD_eq_getElem]

theorem laneXP_rt {α : Type} {ok : LaneXP → Bool} {mk : LaneXP → α} {op : BitVec 9} {f : LaneXP} (h : ok f = true) (ha : LSrc.named f.a = true) (hb : LSrc.named f.b = true) :
    LaneXP.parse ok mk ⟨op, false, f.c, f.cond.code ++ 0#1 ++ f.p, f.a.code, f.b.code⟩ f.ext.word = some (mk f) := by
  simp [LaneXP.parse, cat_condL_k, cat_condL_p, bit_condL, h, ha, hb, keep, Bool.and_self, Bool.not_false, lsrc_code, cond_code, ext_word, -BitVec.getLsbD_eq_getElem]

theorem laneX3_rt {α : Type} {ok : LaneX3 → Bool} {mk : LaneX3 → α} {op : BitVec 9} {f : LaneX3} (h : ok f = true) (ha : LSrc.named f.a = true) (hb : LSrc.named f.b = true) (hvc : LSrc.named f.vc = true) :
    LaneX3.parse ok mk ⟨op, f.s, f.c, f.d, f.a.code, f.b.code⟩ (modWord f.vc.code f.m false) = some (mk f) := by
  simp [LaneX3.parse, h, ha, hb, hvc, keep, Bool.and_self, Bool.not_false, lsrc_code, modPay_modWord, -BitVec.getLsbD_eq_getElem]

theorem laneSel_rt {α : Type} {ok : LaneSel → Bool} {mk : LaneSel → α} {op : BitVec 9} {f : LaneSel} (h : ok f = true) (ha : LSrc.named f.a = true) (hb : LSrc.named f.b = true) :
    LaneSel.parse ok mk ⟨op, f.s, f.c, f.d, f.a.code, f.b.code⟩ (modWord (0#4 ++ f.k) f.m false) = some (mk f) := by
  simp [LaneSel.parse, cat_low3_c0, cat_low3_a, h, ha, hb, keep, Bool.and_self, Bool.not_false, decide_true, lsrc_code, modPay_modWord, -BitVec.getLsbD_eq_getElem]

theorem laneLd_rt {α : Type} {ok : LaneLd → Bool} {mk : LaneLd → α} {op : BitVec 9} {f : LaneLd} (h : ok f = true) (ha : LSrc.named f.a = true) (hb : LSrc.named f.b = true) :
    LaneLd.parse ok mk ⟨op, false, false, f.d, f.a.code, f.b.code⟩ = some (mk f) := by
  simp [LaneLd.parse, h, ha, hb, keep, Bool.and_self, Bool.not_false, lsrc_code, Raw.plain, -BitVec.getLsbD_eq_getElem]

theorem laneLdQ_rt {α : Type} {ok : LaneLd → Qual → Bool} {mk : LaneLd → Qual → α} {op : BitVec 9} {f : LaneLd} {q : Qual} (h : ok f q = true) (ha : LSrc.named f.a = true) (hb : LSrc.named f.b = true) :
    LaneLd.parseQ ok mk ⟨op, false, false, f.d, f.a.code, f.b.code⟩ q.word = some (mk f q) := by
  simp [LaneLd.parseQ, h, ha, hb, keep, Bool.and_self, Bool.not_false, lsrc_code, qual_word, Raw.plain, -BitVec.getLsbD_eq_getElem]

theorem laneLdK_rt {α : Type} {ok : LaneLd → BitVec 28 → Bool} {mk : LaneLd → BitVec 28 → α} {op : BitVec 9} {f : LaneLd} {k : BitVec 28} (h : ok f k = true) (ha : LSrc.named f.a = true) (hb : LSrc.named f.b = true) :
    LaneLd.parseK ok mk ⟨op, false, false, f.d, f.a.code, f.b.code⟩ (litWord k) = some (mk f k) := by
  simp [LaneLd.parseK, h, ha, hb, keep, Bool.and_self, Bool.not_false, lsrc_code, litPay_litWord, Raw.plain, -BitVec.getLsbD_eq_getElem]

theorem laneSt_rt {α : Type} {ok : LaneSt → Bool} {mk : LaneSt → α} {op : BitVec 9} {f : LaneSt} (h : ok f = true) (ht : LSrc.named f.t = true) (ha : LSrc.named f.a = true) (hb : LSrc.named f.b = true) :
    LaneSt.parse ok mk ⟨op, false, false, f.t.code, f.a.code, f.b.code⟩ = some (mk f) := by
  simp [LaneSt.parse, h, ht, ha, hb, keep, Bool.and_self, Bool.not_false, lsrc_code, Raw.plain, -BitVec.getLsbD_eq_getElem]

theorem laneStQ_rt {α : Type} {ok : LaneSt → Qual → Bool} {mk : LaneSt → Qual → α} {op : BitVec 9} {f : LaneSt} {q : Qual} (h : ok f q = true) (ht : LSrc.named f.t = true) (ha : LSrc.named f.a = true) (hb : LSrc.named f.b = true) :
    LaneSt.parseQ ok mk ⟨op, false, false, f.t.code, f.a.code, f.b.code⟩ q.word = some (mk f q) := by
  simp [LaneSt.parseQ, h, ht, ha, hb, keep, Bool.and_self, Bool.not_false, lsrc_code, qual_word, Raw.plain, -BitVec.getLsbD_eq_getElem]

theorem laneCvt_rt {α : Type} {ok : LaneCvt → Bool} {mk : LaneCvt → α} {op : BitVec 9} {f : LaneCvt} (h : ok f = true) (ha : LSrc.named f.a = true) :
    LaneCvt.parse ok mk ⟨op, f.s, f.c, f.d, f.a.code, 0#7⟩ (litWord (f.op.payload f.round)) = some (mk f) := by
  simp [LaneCvt.parse, h, ha, keep, Bool.and_self, decide_true, lsrc_code, cvtop_word, -BitVec.getLsbD_eq_getElem]

theorem laneBox_rt {α : Type} {ok : LaneBox → Bool} {mk : LaneBox → α} {op : BitVec 9} {f : LaneBox} (h : ok f = true) (hc : ctrOk f.ctr = true) (ho : LSrc.named f.o = true) :
    LaneBox.parse ok mk ⟨op, false, false, ctrReg f.ctr, f.x, f.o.code⟩ (litWord (f.tx ++ f.n ++ f.e0 ++ f.e1 ++ ctrScope f.ctr ++ BitVec.ofBool f.q ++ 0#5)) = some (mk f) := by
  simp [LaneBox.parse, cat_box_tx, cat_box_n, cat_box_e0, cat_box_e1, cat_box_sc, cat_box_q, cat_box_c6, litWord_field, litWord_bit, h, hc, ho, keep, Bool.and_self, Bool.not_false, decide_true, lsrc_code, litPay_litWord, ctr_code, Raw.plain, -BitVec.getLsbD_eq_getElem]

theorem uniBox_rt {α : Type} {ok : UniBox → Bool} {mk : UniBox → α} {op : BitVec 9} {f : UniBox} (h : ok f = true) :
    UniBox.parse ok mk ⟨op, false, false, uCtrReg f.ctr, 0#1 ++ f.x, f.o.code⟩ (litWord (f.tx ++ f.n ++ f.e0 ++ f.e1 ++ ctrScope f.ctr ++ BitVec.ofBool f.q ++ 0#5)) = some (mk f) := by
  simp [UniBox.parse, cat_box_tx, cat_box_n, cat_box_e0, cat_box_e1, cat_box_sc, cat_box_q, cat_box_c6, litWord_field, litWord_bit, h, keep, Bool.and_self, Bool.not_false, decide_true, usrc_code, sOfCode_code, litPay_litWord, uctr_code, Raw.plain, -BitVec.getLsbD_eq_getElem]

theorem laneCpyG_rt {α : Type} {ok : LaneCpyG → Bool} {mk : LaneCpyG → α} {op : BitVec 9} {f : LaneCpyG} (h : ok f = true) (hc : ctrOk f.ctr = true) (ha : LSrc.named f.a = true) (hb : LSrc.named f.b = true) :
    LaneCpyG.parse ok mk ⟨op, false, false, ctrReg f.ctr, f.a.code, f.b.code⟩ (litWord (f.len ++ ctrScope f.ctr ++ f.q.code ++ 0#3)) = some (mk f) := by
  simp [LaneCpyG.parse, cat_cpyg_len, cat_cpyg_sc, cat_cpyg_q, cat_cpyg_c3, litWord_field, h, hc, ha, hb, keep, Bool.and_self, Bool.not_false, decide_true, lsrc_code, litPay_litWord, ctr_code, cpyq_code, Raw.plain, -BitVec.getLsbD_eq_getElem]

theorem uniCpyG_rt {α : Type} {ok : UniCpyG → Bool} {mk : UniCpyG → α} {op : BitVec 9} {f : UniCpyG} (h : ok f = true) :
    UniCpyG.parse ok mk ⟨op, false, false, uCtrReg f.ctr, f.a.code, f.b.code⟩ (litWord (f.len ++ ctrScope f.ctr ++ f.q.code ++ 0#3)) = some (mk f) := by
  simp [UniCpyG.parse, cat_cpyg_len, cat_cpyg_sc, cat_cpyg_q, cat_cpyg_c3, litWord_field, h, keep, Bool.and_self, Bool.not_false, decide_true, usrc_code, litPay_litWord, uctr_code, cpyq_code, Raw.plain, -BitVec.getLsbD_eq_getElem]

theorem laneRim_rt {α : Type} {ok : LaneRim → Bool} {mk : LaneRim → α} {op : BitVec 9} {f : LaneRim} (h : ok f = true) (hc : ctrOk f.ctr = true) (hx : LSrc.named f.x = true) (ho : LSrc.named f.o = true) :
    LaneRim.parse ok mk ⟨op, false, false, ctrReg f.ctr, f.x.code, f.o.code⟩ (litWord (f.tile ++ f.tx ++ f.n ++ f.er ++ f.ec ++ f.round.code ++ ctrScope f.ctr ++ BitVec.ofBool f.circle ++ 0#1)) = some (mk f) := by
  simp [LaneRim.parse, cat_rim_tile, cat_rim_tx, cat_rim_n, cat_rim_er, cat_rim_ec, cat_rim_r, cat_rim_sc, cat_rim_ci, bit_rim, litWord_field, litWord_bit, h, hc, hx, ho, keep, Bool.and_self, Bool.not_false, lsrc_code, litPay_litWord, ctr_code, round_code, Raw.plain, -BitVec.getLsbD_eq_getElem]

theorem laneMtile_rt {α : Type} {ok : LaneMtile → Bool} {mk : LaneMtile → α} {op : BitVec 9} {f : LaneMtile} (h : ok f = true) (hc : ctrOk f.ctr = true) :
    LaneMtile.parse ok mk (Raw.ofWord (op ++ 0#2 ++ f.rim ++ f.sa ++ f.sb ++ ctrScope f.ctr ++ 0#5)) (modWord (ctrReg f.ctr) (Modif.only f.guard) f.reuse) = some (mk f) := by
  simp [LaneMtile.parse, plain_mtile, Modif.only, cat_mtile_rim, cat_mtile_sa, cat_mtile_sb, cat_mtile_sc, cat_mtile_c6, raw_toWord_ofWord, h, hc, keep, Bool.and_self, decide_true, modPay_modWord, ctr_code, -BitVec.getLsbD_eq_getElem]

theorem branch_rt {α : Type} {ok : Branch → Bool} {mk : Branch → α} {op : BitVec 9} {f : Branch} (h : ok f = true) :
    Branch.parse ok mk (Raw.ofWord (op ++ 0#2 ++ f.prio ++ f.p ++ BitVec.ofBool f.pol ++ 0#1)) (litWord f.off) = some (mk f) := by
  simp [Branch.parse, plain_branch, cat_branch_prio, cat_branch_p, cat_branch_l, bit_branch, raw_toWord_ofWord, h, keep, Bool.and_self, Bool.not_false, litPay_litWord, -BitVec.getLsbD_eq_getElem]

theorem uniR_rt {α : Type} {ok : UniR → Bool} {mk : UniR → α} {op : BitVec 9} {f : UniR} (h : ok f = true) :
    UniR.parse ok mk ⟨op, false, f.c, f.d.code, f.a.code, f.b.code⟩ = some (mk f) := by
  simp [UniR.parse, h, keep, Bool.and_self, Bool.not_false, usrc_code, udst_code, -BitVec.getLsbD_eq_getElem]

theorem uniR1_rt {α : Type} {ok : UniR1 → Bool} {mk : UniR1 → α} {op : BitVec 9} {f : UniR1} (h : ok f = true) :
    UniR1.parse ok mk ⟨op, false, f.c, f.d.code, f.a.code, 0#7⟩ = some (mk f) := by
  simp [UniR1.parse, h, keep, Bool.and_self, Bool.not_false, decide_true, usrc_code, udst_code, -BitVec.getLsbD_eq_getElem]

theorem uniP_rt {α : Type} {ok : UniP → Bool} {mk : UniP → α} {op : BitVec 9} {f : UniP} (h : ok f = true) :
    UniP.parse ok mk ⟨op, false, f.c, f.cond.code ++ 0#2 ++ f.p, f.a.code, f.b.code⟩ = some (mk f) := by
  simp [UniP.parse, cat_condU_k, cat_condU_p, cat_condU_c1, h, keep, Bool.and_self, Bool.not_false, decide_true, usrc_code, cond_code, -BitVec.getLsbD_eq_getElem]

theorem uniPlog_rt {α : Type} {ok : UniPlog → Bool} {mk : UniPlog → α} {op : BitVec 9} {f : UniPlog} (h : ok f = true) :
    UniPlog.parse ok mk ⟨op, false, f.c, f.t ++ 0#1 ++ f.p, 0#4 ++ f.a, 0#4 ++ f.b⟩ = some (mk f) := by
  simp [UniPlog.parse, cat_plogU_t, cat_plogU_p, bit_plogU, cat_low3_c0, cat_low3_a, h, keep, Bool.and_self, Bool.not_false, decide_true, -BitVec.getLsbD_eq_getElem]

theorem uniX_rt {α : Type} {ok : UniX → Bool} {mk : UniX → α} {op : BitVec 9} {f : UniX} (h : ok f = true) :
    UniX.parse ok mk ⟨op, false, f.c, f.d.code, f.a.code, f.b.code⟩ f.ext.word = some (mk f) := by
  simp [UniX.parse, h, keep, Bool.and_self, Bool.not_false, usrc_code, udst_code, ext_word, -BitVec.getLsbD_eq_getElem]

theorem uniX1_rt {α : Type} {ok : UniX1 → Bool} {mk : UniX1 → α} {op : BitVec 9} {f : UniX1} (h : ok f = true) :
    UniX1.parse ok mk ⟨op, false, f.c, f.d.code, f.a.code, 0#7⟩ f.ext.word = some (mk f) := by
  simp [UniX1.parse, h, keep, Bool.and_self, Bool.not_false, decide_true, usrc_code, udst_code, ext_word, -BitVec.getLsbD_eq_getElem]

theorem uniXP_rt {α : Type} {ok : UniXP → Bool} {mk : UniXP → α} {op : BitVec 9} {f : UniXP} (h : ok f = true) :
    UniXP.parse ok mk ⟨op, false, f.c, f.cond.code ++ 0#2 ++ f.p, f.a.code, f.b.code⟩ f.ext.word = some (mk f) := by
  simp [UniXP.parse, cat_condU_k, cat_condU_p, cat_condU_c1, h, keep, Bool.and_self, Bool.not_false, decide_true, usrc_code, cond_code, ext_word, -BitVec.getLsbD_eq_getElem]

theorem uniX3_rt {α : Type} {ok : UniX3 → Bool} {mk : UniX3 → α} {op : BitVec 9} {f : UniX3} (h : ok f = true) :
    UniX3.parse ok mk ⟨op, false, f.c, f.d.code, f.a.code, f.b.code⟩ (modWord f.vc.code f.m false) = some (mk f) := by
  simp [UniX3.parse, h, keep, Bool.and_self, Bool.not_false, usrc_code, udst_code, modPay_modWord, -BitVec.getLsbD_eq_getElem]

theorem uniSel_rt {α : Type} {ok : UniSel → Bool} {mk : UniSel → α} {op : BitVec 9} {f : UniSel} (h : ok f = true) :
    UniSel.parse ok mk ⟨op, false, f.c, f.d.code, f.a.code, f.b.code⟩ (modWord (0#4 ++ f.k) f.m false) = some (mk f) := by
  simp [UniSel.parse, cat_low3_c0, cat_low3_a, h, keep, Bool.and_self, Bool.not_false, decide_true, usrc_code, udst_code, modPay_modWord, -BitVec.getLsbD_eq_getElem]

theorem uniLd_rt {α : Type} {ok : UniLd → Bool} {mk : UniLd → α} {op : BitVec 9} {f : UniLd} (h : ok f = true) :
    UniLd.parse ok mk ⟨op, false, false, f.d.code, f.a.code, f.b.code⟩ = some (mk f) := by
  simp [UniLd.parse, h, keep, Bool.and_self, Bool.not_false, usrc_code, udst_code, Raw.plain, -BitVec.getLsbD_eq_getElem]

theorem uniLdQ_rt {α : Type} {ok : UniLd → Qual → Bool} {mk : UniLd → Qual → α} {op : BitVec 9} {f : UniLd} {q : Qual} (h : ok f q = true) :
    UniLd.parseQ ok mk ⟨op, false, false, f.d.code, f.a.code, f.b.code⟩ q.word = some (mk f q) := by
  simp [UniLd.parseQ, h, keep, Bool.and_self, Bool.not_false, usrc_code, udst_code, qual_word, Raw.plain, -BitVec.getLsbD_eq_getElem]

theorem uniLdK_rt {α : Type} {ok : UniLd → BitVec 28 → Bool} {mk : UniLd → BitVec 28 → α} {op : BitVec 9} {f : UniLd} {k : BitVec 28} (h : ok f k = true) :
    UniLd.parseK ok mk ⟨op, false, false, f.d.code, f.a.code, f.b.code⟩ (litWord k) = some (mk f k) := by
  simp [UniLd.parseK, h, keep, Bool.and_self, Bool.not_false, usrc_code, udst_code, litPay_litWord, Raw.plain, -BitVec.getLsbD_eq_getElem]

theorem uniSt_rt {α : Type} {ok : UniSt → Bool} {mk : UniSt → α} {op : BitVec 9} {f : UniSt} (h : ok f = true) :
    UniSt.parse ok mk ⟨op, false, false, f.t.code, f.a.code, f.b.code⟩ = some (mk f) := by
  simp [UniSt.parse, h, keep, Bool.and_self, Bool.not_false, usrc_code, Raw.plain, -BitVec.getLsbD_eq_getElem]

theorem uniStQ_rt {α : Type} {ok : UniSt → Qual → Bool} {mk : UniSt → Qual → α} {op : BitVec 9} {f : UniSt} {q : Qual} (h : ok f q = true) :
    UniSt.parseQ ok mk ⟨op, false, false, f.t.code, f.a.code, f.b.code⟩ q.word = some (mk f q) := by
  simp [UniSt.parseQ, h, keep, Bool.and_self, Bool.not_false, usrc_code, qual_word, Raw.plain, -BitVec.getLsbD_eq_getElem]

theorem uniCvt_rt {α : Type} {ok : UniCvt → Bool} {mk : UniCvt → α} {op : BitVec 9} {f : UniCvt} (h : ok f = true) :
    UniCvt.parse ok mk ⟨op, false, f.c, f.d.code, f.a.code, 0#7⟩ (litWord (f.op.payload f.round)) = some (mk f) := by
  simp [UniCvt.parse, h, keep, Bool.and_self, Bool.not_false, decide_true, usrc_code, udst_code, cvtop_word, -BitVec.getLsbD_eq_getElem]

theorem zero_rt {α : Type} {i : α} {op : BitVec 9}  :
    parse0 i ⟨op, false, false, 0#7, 0#7, 0#7⟩ = some i := by
  simp [parse0, keep, Bool.and_self, Bool.not_false, decide_true, Raw.plain, -BitVec.getLsbD_eq_getElem]

theorem a_rt {α : Type} {ok : LSrc → Bool} {mk : LSrc → α} {op : BitVec 9} {a : LSrc} (h : ok a = true) (ha : LSrc.named a = true) :
    parseA ok mk ⟨op, false, false, 0#7, a.code, 0#7⟩ = some (mk a) := by
  simp [parseA, h, ha, keep, Bool.and_self, Bool.not_false, decide_true, lsrc_code, Raw.plain, -BitVec.getLsbD_eq_getElem]

theorem ua_rt {α : Type} {ok : USrc → Bool} {mk : USrc → α} {op : BitVec 9} {a : USrc} (h : ok a = true)  :
    parseUA ok mk ⟨op, false, false, 0#7, a.code, 0#7⟩ = some (mk a) := by
  simp [parseUA, h, keep, Bool.and_self, Bool.not_false, decide_true, usrc_code, Raw.plain, -BitVec.getLsbD_eq_getElem]

theorem ab_rt {α : Type} {ok : LSrc → LSrc → Bool} {mk : LSrc → LSrc → α} {op : BitVec 9} {a : LSrc} {b : LSrc} (h : ok a b = true) (ha : LSrc.named a = true) (hb : LSrc.named b = true) :
    parseAB ok mk ⟨op, false, false, 0#7, a.code, b.code⟩ = some (mk a b) := by
  simp [parseAB, h, ha, hb, keep, Bool.and_self, Bool.not_false, decide_true, lsrc_code, Raw.plain, -BitVec.getLsbD_eq_getElem]

theorem litA_rt {α : Type} {ok : LSrc → BitVec 28 → Bool} {mk : LSrc → BitVec 28 → α} {op : BitVec 9} {a : LSrc} {k : BitVec 28} (h : ok a k = true) (ha : LSrc.named a = true) :
    parseLitA ok mk ⟨op, false, false, 0#7, a.code, 0#7⟩ (litWord k) = some (mk a k) := by
  simp [parseLitA, h, ha, keep, Bool.and_self, Bool.not_false, decide_true, lsrc_code, litPay_litWord, Raw.plain, -BitVec.getLsbD_eq_getElem]

theorem litAB_rt {α : Type} {ok : LSrc → LSrc → BitVec 28 → Bool} {mk : LSrc → LSrc → BitVec 28 → α} {op : BitVec 9} {a : LSrc} {b : LSrc} {k : BitVec 28} (h : ok a b k = true) (ha : LSrc.named a = true) (hb : LSrc.named b = true) :
    parseLitAB ok mk ⟨op, false, false, 0#7, a.code, b.code⟩ (litWord k) = some (mk a b k) := by
  simp [parseLitAB, h, ha, hb, keep, Bool.and_self, Bool.not_false, decide_true, lsrc_code, litPay_litWord, Raw.plain, -BitVec.getLsbD_eq_getElem]

theorem ulitAB_rt {α : Type} {ok : USrc → USrc → BitVec 28 → Bool} {mk : USrc → USrc → BitVec 28 → α} {op : BitVec 9} {a : USrc} {b : USrc} {k : BitVec 28} (h : ok a b k = true)  :
    parseULitAB ok mk ⟨op, false, false, 0#7, a.code, b.code⟩ (litWord k) = some (mk a b k) := by
  simp [parseULitAB, h, keep, Bool.and_self, Bool.not_false, decide_true, usrc_code, litPay_litWord, Raw.plain, -BitVec.getLsbD_eq_getElem]

theorem ldt_rt {α : Type} {ok : BitVec 7 → BitVec 7 → BitVec 8 → BitVec 3 → Bool → Bool} {mk : BitVec 7 → BitVec 7 → BitVec 8 → BitVec 3 → Bool → α} {op : BitVec 9} {d : BitVec 7} {x : BitVec 7} {tx : BitVec 8} {n : BitVec 3} {f : Bool} (h : ok d x tx n f = true)  :
    parseLdt ok mk ⟨op, false, false, d, x, 0#7⟩ (litWord (tx ++ n ++ ofBool2 f ++ 0#3 ++ 0#11)) = some (mk d x tx n f) := by
  simp [parseLdt, litWord_field, litWord_bit, cat_ldt_tx, cat_ldt_n, cat_ldt_f, pad_ldt1, pad_ldt2, h, keep, Bool.and_self, Bool.not_false, decide_true, litPay_litWord, Raw.plain, -BitVec.getLsbD_eq_getElem]

theorem stt_rt {α : Type} {ok : LSrc → BitVec 7 → BitVec 8 → BitVec 3 → Bool → Round → Bool} {mk : LSrc → BitVec 7 → BitVec 8 → BitVec 3 → Bool → Round → α} {op : BitVec 9} {t : LSrc} {x : BitVec 7} {tx : BitVec 8} {n : BitVec 3} {f : Bool} {r : Round} (h : ok t x tx n f r = true) (ht : LSrc.named t = true) :
    parseStt ok mk ⟨op, false, false, t.code, x, 0#7⟩ (litWord (tx ++ n ++ ofBool2 f ++ r.code ++ 0#11)) = some (mk t x tx n f r) := by
  simp [parseStt, litWord_field, litWord_bit, cat_stt_tx, cat_stt_n, cat_stt_f, cat_stt_r, cat_stt_c4, pad_stt1, h, ht, keep, Bool.and_self, Bool.not_false, decide_true, lsrc_code, litPay_litWord, round_code, Raw.plain, -BitVec.getLsbD_eq_getElem]

theorem atom_rt {α : Type} {ok : LaneLd → AtomOp → AtomQ → Bool} {mk : LaneLd → AtomOp → AtomQ → α} {op : BitVec 9} {f : LaneLd} {o : AtomOp} {q : AtomQ} (h : ok f o q = true) (ha : LSrc.named f.a = true) (hb : LSrc.named f.b = true) :
    parseAtom ok mk ⟨op, false, false, f.d, f.a.code, f.b.code⟩ (litWord (q.code o.code)) = some (mk f o q) := by
  simp [parseAtom, h, ha, hb, keep, Bool.and_self, Bool.not_false, lsrc_code, atomq_word, atomop_code, Raw.plain, -BitVec.getLsbD_eq_getElem]

theorem atomCas_rt {α : Type} {ok : LaneLd → AtomQ → Bool} {mk : LaneLd → AtomQ → α} {op : BitVec 9} {f : LaneLd} {q : AtomQ} (h : ok f q = true) (ha : LSrc.named f.a = true) (hb : LSrc.named f.b = true) :
    parseAtomCas ok mk ⟨op, false, false, f.d, f.a.code, f.b.code⟩ (litWord (q.code 0#4)) = some (mk f q) := by
  simp [parseAtomCas, h, ha, hb, keep, Bool.and_self, Bool.not_false, decide_true, lsrc_code, atomq_word, Raw.plain, -BitVec.getLsbD_eq_getElem]

theorem uatom_rt {α : Type} {ok : UniLd → AtomOp → AtomQ → Bool} {mk : UniLd → AtomOp → AtomQ → α} {op : BitVec 9} {f : UniLd} {o : AtomOp} {q : AtomQ} (h : ok f o q = true)  :
    parseUAtom ok mk ⟨op, false, false, f.d.code, f.a.code, f.b.code⟩ (litWord (q.code o.code)) = some (mk f o q) := by
  simp [parseUAtom, h, keep, Bool.and_self, Bool.not_false, usrc_code, udst_code, atomq_word, atomop_code, Raw.plain, -BitVec.getLsbD_eq_getElem]

theorem fence_rt {α : Type} {ok : FenceKind → Scope → Bool} {mk : FenceKind → Scope → α} {op : BitVec 9} {k : FenceKind} {s : Scope} (h : ok k s = true)  :
    parseFence ok mk ⟨op, false, false, 0#7, 0#7, 0#2 ++ k.code ++ s.code⟩ = some (mk k s) := by
  simp [parseFence, cat_fence_c0, cat_fence_k, cat_fence_sc, h, keep, Bool.and_self, Bool.not_false, decide_true, scope_code, fencekind_code, Raw.plain, -BitVec.getLsbD_eq_getElem]

theorem alloc_rt {α : Type} {ok : BitVec 7 → LSrc → Bool → BitVec 3 → Bool} {mk : BitVec 7 → LSrc → Bool → BitVec 3 → α} {op : BitVec 9} {d : BitVec 7} {a : LSrc} {t : Bool} {p : BitVec 3} (h : ok d a t p = true) (ha : LSrc.named a = true) :
    parseAlloc ok mk ⟨op, false, false, d, a.code, 0#7⟩ (litWord (0#24 ++ BitVec.ofBool t ++ p)) = some (mk d a t p) := by
  simp [parseAlloc, litWord_field, litWord_bit, cat_alloc_c0, cat_alloc_t, cat_alloc_p, h, ha, keep, Bool.and_self, Bool.not_false, decide_true, lsrc_code, litPay_litWord, Raw.plain, -BitVec.getLsbD_eq_getElem]

theorem ualloc_rt {α : Type} {ok : BitVec 6 → USrc → Bool → BitVec 3 → Bool} {mk : BitVec 6 → USrc → Bool → BitVec 3 → α} {op : BitVec 9} {d : BitVec 6} {a : USrc} {t : Bool} {p : BitVec 3} (h : ok d a t p = true)  :
    parseUAlloc ok mk ⟨op, false, false, 0#1 ++ d, a.code, 0#7⟩ (litWord (0#24 ++ BitVec.ofBool t ++ p)) = some (mk d a t p) := by
  simp [parseUAlloc, litWord_field, litWord_bit, cat_alloc_c0, cat_alloc_t, cat_alloc_p, h, keep, Bool.and_self, Bool.not_false, decide_true, usrc_code, sOfCode_code, litPay_litWord, Raw.plain, -BitVec.getLsbD_eq_getElem]

theorem qfence_rt {α : Type} {ok : BitVec 4 → Bool} {mk : BitVec 4 → α} {op : BitVec 9} {m : BitVec 4} (h : ok m = true)  :
    parseQfence ok mk ⟨op, false, false, 0#7, 0#7, 0#3 ++ m⟩ = some (mk m) := by
  simp [parseQfence, cat_low4_c0, cat_low4_m, h, keep, Bool.and_self, Bool.not_false, decide_true, Raw.plain, -BitVec.getLsbD_eq_getElem]

theorem units_rt {α : Type} {ok : BitVec 7 → BitVec 6 → Bool} {mk : BitVec 7 → BitVec 6 → α} {op : BitVec 9} {u : BitVec 7} {n : BitVec 6} (h : ok u n = true)  :
    parseUnits ok mk ⟨op, false, false, u, 125#7, 0#7⟩ (litWord (0#22 ++ n)) = some (mk u n) := by
  simp [parseUnits, litWord_field, cat_units_c0, cat_units_n, h, keep, Bool.and_self, Bool.not_false, decide_true, litPay_litWord, Raw.plain, -BitVec.getLsbD_eq_getElem]

theorem stkLd_rt {α : Type} {ok : (Option (BitVec 7 × Scope)) → BitVec 7 → BitVec 5 → BitVec 8 → BitVec 3 → Bool} {mk : (Option (BitVec 7 × Scope)) → BitVec 7 → BitVec 5 → BitVec 8 → BitVec 3 → α} {op : BitVec 9} {c : Option (BitVec 7 × Scope)} {x : BitVec 7} {s : BitVec 5} {tx : BitVec 8} {n : BitVec 3} (h : ok c x s tx n = true) (hc : ctrOk c = true) :
    parseStkLd ok mk ⟨op, false, false, ctrReg c, x, 0#7⟩ (litWord (s ++ tx ++ n ++ ctrScope c ++ 0#9)) = some (mk c x s tx n) := by
  simp [parseStkLd, litWord_field, cat_stk_slot, cat_stk_tx, cat_stk_n, cat_stk_sc, cat_stk_c4, h, hc, keep, Bool.and_self, Bool.not_false, decide_true, litPay_litWord, ctr_code, Raw.plain, -BitVec.getLsbD_eq_getElem]

theorem rzero_rt {α : Type} {ok : BitVec 3 → Bool} {mk : BitVec 3 → α} {op : BitVec 9} {r : BitVec 3} (h : ok r = true)  :
    parseRzero ok mk ⟨op, false, false, r ++ 0#4, 0#7, 0#7⟩ = some (mk r) := by
  simp [parseRzero, cat_high3_r, cat_high3_c1, h, keep, Bool.and_self, Bool.not_false, decide_true, Raw.plain, -BitVec.getLsbD_eq_getElem]

theorem stat_rt {α : Type} {ok : BitVec 7 → Bool → BitVec 3 → Bool} {mk : BitVec 7 → Bool → BitVec 3 → α} {op : BitVec 9} {d : BitVec 7} {l : Bool} {k : BitVec 3} (h : ok d l k = true)  :
    parseStat ok mk ⟨op, false, false, d, 0#7, 0#3 ++ BitVec.ofBool l ++ k⟩ = some (mk d l k) := by
  simp [parseStat, cat_stat_c0, cat_stat_l, cat_stat_k, h, keep, Bool.and_self, Bool.not_false, decide_true, Raw.plain, -BitVec.getLsbD_eq_getElem]

theorem switch_rt {α : Type} {ok : LSrc → BitVec 4 → Bool} {mk : LSrc → BitVec 4 → α} {op : BitVec 9} {a : LSrc} {n : BitVec 4} (h : ok a n = true) (ha : LSrc.named a = true) :
    parseSwitch ok mk ⟨op, false, false, 0#7, a.code, 0#7⟩ (litWord (n ++ 0#24)) = some (mk a n) := by
  simp [parseSwitch, litWord_field, cat_switch_n, cat_switch_c1, h, ha, keep, Bool.and_self, Bool.not_false, decide_true, lsrc_code, litPay_litWord, Raw.plain, -BitVec.getLsbD_eq_getElem]

theorem scope_rt {α : Type} {ok : BitVec 28 → Bool} {mk : BitVec 28 → α} {op : BitVec 9} {k : BitVec 28} (h : ok k = true)  :
    parseScope ok mk ⟨op, false, false, 0#7, 125#7, 0#7⟩ (litWord k) = some (mk k) := by
  simp [parseScope, h, keep, Bool.and_self, Bool.not_false, decide_true, litPay_litWord, Raw.plain, -BitVec.getLsbD_eq_getElem]

theorem wpop_rt {α : Type} {ok : BitVec 7 → BitVec 3 → Bool} {mk : BitVec 7 → BitVec 3 → α} {op : BitVec 9} {d : BitVec 7} {p : BitVec 3} (h : ok d p = true)  :
    parseWpop ok mk ⟨op, false, false, d, 0#7, 0#4 ++ p⟩ = some (mk d p) := by
  simp [parseWpop, cat_low3_c0, cat_low3_a, h, keep, Bool.and_self, Bool.not_false, decide_true, Raw.plain, -BitVec.getLsbD_eq_getElem]

theorem trap_rt {α : Type} {ok : BitVec 16 → Bool} {mk : BitVec 16 → α} {op : BitVec 9} {n : BitVec 16} (h : ok n = true)  :
    parseTrap ok mk ⟨op, false, false, 0#7, 0#7, 0#7⟩ (litWord (0#12 ++ n)) = some (mk n) := by
  simp [parseTrap, litWord_field, cat_trap_c0, cat_trap_n, h, keep, Bool.and_self, Bool.not_false, decide_true, litPay_litWord, Raw.plain, -BitVec.getLsbD_eq_getElem]

theorem lmode_rt {α : Type} {ok : BitVec 2 → Bool} {mk : BitVec 2 → α} {op : BitVec 9} {m : BitVec 2} (h : ok m = true)  :
    parseLmode ok mk ⟨op, false, false, 0#7, 0#7, 0#5 ++ m⟩ = some (mk m) := by
  simp [parseLmode, cat_low2_c0, cat_low2_m, h, keep, Bool.and_self, Bool.not_false, decide_true, Raw.plain, -BitVec.getLsbD_eq_getElem]

theorem shuf_rt {α : Type} {ok : BitVec 7 → BitVec 7 → LSrc → Bool} {mk : BitVec 7 → BitVec 7 → LSrc → α} {op : BitVec 9} {d : BitVec 7} {a : BitVec 7} {b : LSrc} (h : ok d a b = true) (hb : LSrc.named b = true) :
    parseShuf ok mk ⟨op, false, false, d, a, b.code⟩ = some (mk d a b) := by
  simp [parseShuf, h, hb, keep, Bool.and_self, Bool.not_false, lsrc_code, Raw.plain, -BitVec.getLsbD_eq_getElem]

theorem vote_rt {α : Type} {ok : BitVec 7 → BitVec 2 → BitVec 3 → Bool} {mk : BitVec 7 → BitVec 2 → BitVec 3 → α} {op : BitVec 9} {d : BitVec 7} {m : BitVec 2} {k : BitVec 3} (h : ok d m k = true)  :
    parseVote ok mk ⟨op, false, false, d, 0#2 ++ m ++ k, 0#7⟩ = some (mk d m k) := by
  simp [parseVote, cat_vote_c0, cat_vote_m, cat_vote_k, h, keep, Bool.and_self, Bool.not_false, decide_true, Raw.plain, -BitVec.getLsbD_eq_getElem]

theorem red_rt {α : Type} {ok : BitVec 7 → BitVec 7 → BitVec 4 → Bool} {mk : BitVec 7 → BitVec 7 → BitVec 4 → α} {op : BitVec 9} {d : BitVec 7} {a : BitVec 7} {o : BitVec 4} (h : ok d a o = true)  :
    parseRed ok mk ⟨op, false, false, d, a, 0#3 ++ o⟩ = some (mk d a o) := by
  simp [parseRed, cat_low4_c0, cat_low4_m, h, keep, Bool.and_self, Bool.not_false, decide_true, Raw.plain, -BitVec.getLsbD_eq_getElem]

theorem movs_rt {α : Type} {ok : Bool → Bool → BitVec 7 → USrc → Bool} {mk : Bool → Bool → BitVec 7 → USrc → α} {op : BitVec 9} {s c : Bool} {d : BitVec 7} {a : USrc} (h : ok s c d a = true) :
    parseMovs ok mk ⟨op, s, c, d, a.code, 0#7⟩ = some (mk s c d a) := by
  simp [parseMovs, h, keep, Bool.and_self, decide_true, usrc_code, -BitVec.getLsbD_eq_getElem]

theorem fcmpX2_rt {α : Type} {ok : Cond → BitVec 3 → LSrc → LSrc → Bool} {mk : Cond → BitVec 3 → LSrc → LSrc → α} {op : BitVec 9} {c : Cond} {p : BitVec 3} {a : LSrc} {b : LSrc} (h : ok c p a b = true) (ha : LSrc.named a = true) (hb : LSrc.named b = true) :
    parseFcmpX2 ok mk ⟨op, false, false, c.code ++ 0#1 ++ p, a.code, b.code⟩ = some (mk c p a b) := by
  simp [parseFcmpX2, cat_condL_k, cat_condL_p, bit_condL, h, ha, hb, keep, Bool.and_self, Bool.not_false, lsrc_code, cond_code, Raw.plain, -BitVec.getLsbD_eq_getElem]

theorem hclr_rt {α : Type} {ok : BitVec 3 → LSrc → BitVec 28 → Bool} {mk : BitVec 3 → LSrc → BitVec 28 → α} {op : BitVec 9} {v : BitVec 3} {a : LSrc} {k : BitVec 28} (h : ok v a k = true) (ha : LSrc.named a = true) :
    parseHclr ok mk ⟨op, false, false, v ++ 0#4, a.code, 0#7⟩ (litWord k) = some (mk v a k) := by
  simp [parseHclr, cat_high3_r, cat_high3_c1, h, ha, keep, Bool.and_self, Bool.not_false, decide_true, lsrc_code, litPay_litWord, Raw.plain, -BitVec.getLsbD_eq_getElem]

theorem hfma_rt {α : Type} {ok : BitVec 3 → Bool → LSrc → LSrc → Bool} {mk : BitVec 3 → Bool → LSrc → LSrc → α} {op : BitVec 9} {v : BitVec 3} {n : Bool} {a : LSrc} {b : LSrc} (h : ok v n a b = true) (ha : LSrc.named a = true) (hb : LSrc.named b = true) :
    parseHfma ok mk ⟨op, false, false, v ++ 0#3 ++ BitVec.ofBool n, a.code, b.code⟩ = some (mk v n a b) := by
  simp [parseHfma, cat_hoop_h, cat_hoop_n, cat_hoop_c1, h, ha, hb, keep, Bool.and_self, Bool.not_false, decide_true, lsrc_code, Raw.plain, -BitVec.getLsbD_eq_getElem]

theorem hfma3_rt {α : Type} {ok : BitVec 3 → Bool → LSrc → LSrc → LSrc → Guard → Bool} {mk : BitVec 3 → Bool → LSrc → LSrc → LSrc → Guard → α} {op : BitVec 9} {v : BitVec 3} {n : Bool} {a : LSrc} {b : LSrc} {c : LSrc} {g : Guard} (h : ok v n a b c g = true) (ha : LSrc.named a = true) (hb : LSrc.named b = true) (hc : LSrc.named c = true) :
    parseHfma3 ok mk ⟨op, false, false, v ++ 0#3 ++ BitVec.ofBool n, a.code, b.code⟩ (modWord c.code (Modif.only g) false) = some (mk v n a b c g) := by
  simp [parseHfma3, cat_hoop_h, cat_hoop_n, cat_hoop_c1, Modif.only, h, ha, hb, hc, keep, Bool.and_self, Bool.not_false, decide_true, lsrc_code, modPay_modWord, Raw.plain, -BitVec.getLsbD_eq_getElem]

theorem hadd_rt {α : Type} {ok : BitVec 3 → Bool → LSrc → Bool} {mk : BitVec 3 → Bool → LSrc → α} {op : BitVec 9} {v : BitVec 3} {n : Bool} {a : LSrc} (h : ok v n a = true) (ha : LSrc.named a = true) :
    parseHadd ok mk ⟨op, false, false, v ++ 0#3 ++ BitVec.ofBool n, a.code, 0#7⟩ = some (mk v n a) := by
  simp [parseHadd, cat_hoop_h, cat_hoop_n, cat_hoop_c1, h, ha, keep, Bool.and_self, Bool.not_false, decide_true, lsrc_code, Raw.plain, -BitVec.getLsbD_eq_getElem]

theorem hsgn_rt {α : Type} {ok : BitVec 7 → BitVec 3 → BitVec 3 → Bool} {mk : BitVec 7 → BitVec 3 → BitVec 3 → α} {op : BitVec 9} {d : BitVec 7} {v : BitVec 3} {p : BitVec 3} (h : ok d v p = true)  :
    parseHsgn ok mk ⟨op, false, false, d, v ++ 0#4, 0#4 ++ p⟩ = some (mk d v p) := by
  simp [parseHsgn, cat_high3_r, cat_high3_c1, cat_low3_c0, cat_low3_a, h, keep, Bool.and_self, Bool.not_false, decide_true, Raw.plain, -BitVec.getLsbD_eq_getElem]

theorem hrnd_rt {α : Type} {ok : BitVec 7 → BitVec 3 → Bool} {mk : BitVec 7 → BitVec 3 → α} {op : BitVec 9} {d : BitVec 7} {v : BitVec 3} (h : ok d v = true)  :
    parseHrnd ok mk ⟨op, false, false, d, v ++ 0#4, 0#7⟩ = some (mk d v) := by
  simp [parseHrnd, cat_high3_r, cat_high3_c1, h, keep, Bool.and_self, Bool.not_false, decide_true, Raw.plain, -BitVec.getLsbD_eq_getElem]

theorem dpush_rt {α : Type} {ok : USrc → Bool → Bool} {mk : USrc → Bool → α} {op : BitVec 9} {a : USrc} {w : Bool} (h : ok a w = true)  :
    parseDpush ok mk ⟨op, false, false, 0#6 ++ BitVec.ofBool w, a.code, 0#7⟩ = some (mk a w) := by
  simp [parseDpush, cat_flag_c0, cat_flag_w, h, keep, Bool.and_self, Bool.not_false, decide_true, usrc_code, Raw.plain, -BitVec.getLsbD_eq_getElem]

theorem dpop_rt {α : Type} {ok : UDst → Bool → Bool} {mk : UDst → Bool → α} {op : BitVec 9} {d : UDst} {w : Bool} (h : ok d w = true)  :
    parseDpop ok mk ⟨op, false, false, d.code, 0#7, 0#6 ++ BitVec.ofBool w⟩ = some (mk d w) := by
  simp [parseDpop, cat_flag_c0, cat_flag_w, h, keep, Bool.and_self, Bool.not_false, decide_true, udst_code, Raw.plain, -BitVec.getLsbD_eq_getElem]

theorem bucket_rt {α : Type} {ok : BitVec 6 → BitVec 6 → BitVec 2 → Bool} {mk : BitVec 6 → BitVec 6 → BitVec 2 → α} {op : BitVec 9} {d : BitVec 6} {a : BitVec 6} {n : BitVec 2} (h : ok d a n = true)  :
    parseBucket ok mk ⟨op, false, false, 0#1 ++ d, 0#1 ++ a, 0#7⟩ (litWord (0#26 ++ n)) = some (mk d a n) := by
  simp [parseBucket, litWord_field, cat_bucket_c0, cat_bucket_n, h, keep, Bool.and_self, Bool.not_false, decide_true, sOfCode_code, litPay_litWord, Raw.plain, -BitVec.getLsbD_eq_getElem]

theorem nodeput_rt {α : Type} {ok : UDst → USrc → Bool} {mk : UDst → USrc → α} {op : BitVec 9} {d : UDst} {a : USrc} (h : ok d a = true)  :
    parseNodeput ok mk ⟨op, false, false, d.code, a.code, 0#7⟩ = some (mk d a) := by
  simp [parseNodeput, h, keep, Bool.and_self, Bool.not_false, decide_true, usrc_code, udst_code, Raw.plain, -BitVec.getLsbD_eq_getElem]

theorem waitn_rt {α : Type} {ok : UDst → USrc → USrc → BitVec 28 → Bool} {mk : UDst → USrc → USrc → BitVec 28 → α} {op : BitVec 9} {d : UDst} {a : USrc} {b : USrc} {k : BitVec 28} (h : ok d a b k = true)  :
    parseWaitn ok mk ⟨op, false, false, d.code, a.code, b.code⟩ (litWord k) = some (mk d a b k) := by
  simp [parseWaitn, h, keep, Bool.and_self, Bool.not_false, usrc_code, udst_code, litPay_litWord, Raw.plain, -BitVec.getLsbD_eq_getElem]

theorem rdcnt_rt {α : Type} {ok : BitVec 6 → USrc → Bool} {mk : BitVec 6 → USrc → α} {op : BitVec 9} {d : BitVec 6} {a : USrc} (h : ok d a = true)  :
    parseRdcnt ok mk ⟨op, false, false, 0#1 ++ d, a.code, 0#7⟩ = some (mk d a) := by
  simp [parseRdcnt, h, keep, Bool.and_self, Bool.not_false, decide_true, usrc_code, sOfCode_code, Raw.plain, -BitVec.getLsbD_eq_getElem]

theorem csrr_rt {α : Type} {ok : UDst → BitVec 12 → Bool} {mk : UDst → BitVec 12 → α} {op : BitVec 9} {d : UDst} {n : BitVec 12} (h : ok d n = true)  :
    parseCsrr ok mk ⟨op, false, false, d.code, 125#7, 0#7⟩ (litWord (0#16 ++ n)) = some (mk d n) := by
  simp [parseCsrr, litWord_field, cat_csr_c0, cat_csr_n, h, keep, Bool.and_self, Bool.not_false, decide_true, udst_code, litPay_litWord, Raw.plain, -BitVec.getLsbD_eq_getElem]

theorem csrw_rt {α : Type} {ok : USrc → BitVec 12 → Bool} {mk : USrc → BitVec 12 → α} {op : BitVec 9} {b : USrc} {n : BitVec 12} (h : ok b n = true)  :
    parseCsrw ok mk ⟨op, false, false, 0#7, 125#7, b.code⟩ (litWord (0#16 ++ n)) = some (mk b n) := by
  simp [parseCsrw, litWord_field, cat_csr_c0, cat_csr_n, h, keep, Bool.and_self, Bool.not_false, decide_true, usrc_code, litPay_litWord, Raw.plain, -BitVec.getLsbD_eq_getElem]

theorem xlinv_rt {α : Type} {ok : USrc → USrc → Scope → Bool} {mk : USrc → USrc → Scope → α} {op : BitVec 9} {a : USrc} {b : USrc} {s : Scope} (h : ok a b s = true)  :
    parseXlinv ok mk ⟨op, false, false, 0#7, a.code, b.code⟩ (litWord (0#25 ++ s.code)) = some (mk a b s) := by
  simp [parseXlinv, litWord_field, cat_scope_c0, cat_scope_sc, h, keep, Bool.and_self, Bool.not_false, decide_true, usrc_code, scope_code, litPay_litWord, Raw.plain, -BitVec.getLsbD_eq_getElem]

theorem fgetPc_rt {α : Type} {g : Uni10 α} {op : BitVec 9} {d : BitVec 6} (h : sPairOk d = true) :
    parseFget g ⟨op, false, false, 0#1 ++ d, 0#7, 0#7⟩ (litWord (0#2 ++ 0#5 ++ 0#7 ++ 0#14)) = some (g.fgetPc d) := by
  simp [parseFget, litWord_field, udst_s_code, h, keep, Bool.and_self, Bool.not_false, decide_true, sOfCode_code, litPay_litWord, Raw.plain, -BitVec.getLsbD_eq_getElem]

theorem fgetMask_rt {α : Type} {g : Uni10 α} {op : BitVec 9} {d : UDst} (h : d.ok false = true) :
    parseFget g ⟨op, false, false, d.code, 0#7, 0#7⟩ (litWord (1#2 ++ 0#5 ++ 0#7 ++ 0#14)) = some (g.fgetMask d) := by
  simp [parseFget, litWord_field, h, keep, Bool.and_self, Bool.not_false, decide_true, udst_code, litPay_litWord, Raw.plain, -BitVec.getLsbD_eq_getElem]

theorem fgetPrio_rt {α : Type} {g : Uni10 α} {op : BitVec 9} {d : UDst} (h : d.ok false = true) :
    parseFget g ⟨op, false, false, d.code, 0#7, 0#7⟩ (litWord (2#2 ++ 0#5 ++ 0#7 ++ 0#14)) = some (g.fgetPrio d) := by
  simp [parseFget, litWord_field, h, keep, Bool.and_self, Bool.not_false, decide_true, udst_code, litPay_litWord, Raw.plain, -BitVec.getLsbD_eq_getElem]

theorem fgetReg_rt {α : Type} {g : Uni10 α} {op : BitVec 9} {d : UDst} {t : BitVec 5} {r : BitVec 7} (h : d.ok false = true) (h2 : dstOk false r = true) :
    parseFget g ⟨op, false, false, d.code, 0#7, 0#7⟩ (litWord (3#2 ++ t ++ r ++ 0#14)) = some (g.fgetReg d t r) := by
  simp [parseFget, litWord_field, cat_frame_g, cat_frame_t, cat_frame_r, cat_frame_c3, h, h2, keep, Bool.and_self, Bool.not_false, decide_true, udst_code, litPay_litWord, Raw.plain, -BitVec.getLsbD_eq_getElem]

theorem fsetPc_rt {α : Type} {g : Uni10 α} {op : BitVec 9} {a : USrc} (h : a.ok true false = true) :
    parseFset g ⟨op, false, false, 0#7, a.code, 0#7⟩ (litWord (0#2 ++ 0#5 ++ 0#7 ++ 0#14)) = some (g.fsetPc a) := by
  simp [parseFset, litWord_field, h, keep, Bool.and_self, Bool.not_false, decide_true, usrc_code, litPay_litWord, Raw.plain, -BitVec.getLsbD_eq_getElem]

theorem fsetMask_rt {α : Type} {g : Uni10 α} {op : BitVec 9} {a : USrc} (h : a.ok false false = true) :
    parseFset g ⟨op, false, false, 0#7, a.code, 0#7⟩ (litWord (1#2 ++ 0#5 ++ 0#7 ++ 0#14)) = some (g.fsetMask a) := by
  simp [parseFset, litWord_field, h, keep, Bool.and_self, Bool.not_false, decide_true, usrc_code, litPay_litWord, Raw.plain, -BitVec.getLsbD_eq_getElem]

theorem fsetReg_rt {α : Type} {g : Uni10 α} {op : BitVec 9} {a : USrc} {t : BitVec 5} {r : BitVec 7} (h : a.ok false false = true) (h2 : dstOk false r = true) :
    parseFset g ⟨op, false, false, 0#7, a.code, 0#7⟩ (litWord (3#2 ++ t ++ r ++ 0#14)) = some (g.fsetReg a t r) := by
  simp [parseFset, litWord_field, cat_frame_g, cat_frame_t, cat_frame_r, cat_frame_c3, h, h2, keep, Bool.and_self, Bool.not_false, decide_true, usrc_code, litPay_litWord, Raw.plain, -BitVec.getLsbD_eq_getElem]

theorem injsetSeed_rt {α : Type} {g : Uni10 α} {op : BitVec 9} {a : USrc} (h : a.ok true false = true) :
    parseInjset g ⟨op, false, false, 0#7, a.code, 0#7⟩ (litWord (0#25 ++ 0#3)) = some (g.injsetSeed a) := by
  simp [parseInjset, litWord_field, h, keep, Bool.and_self, Bool.not_false, decide_true, usrc_code, litPay_litWord, Raw.plain, -BitVec.getLsbD_eq_getElem]

theorem injsetRate_rt {α : Type} {g : Uni10 α} {op : BitVec 9} {a : USrc} (h : a.ok false false = true) :
    parseInjset g ⟨op, false, false, 0#7, a.code, 0#7⟩ (litWord (0#25 ++ 1#3)) = some (g.injsetRate a) := by
  simp [parseInjset, litWord_field, h, keep, Bool.and_self, Bool.not_false, decide_true, usrc_code, litPay_litWord, Raw.plain, -BitVec.getLsbD_eq_getElem]

theorem injsetClasses_rt {α : Type} {g : Uni10 α} {op : BitVec 9} {a : USrc} (h : a.ok false false = true) :
    parseInjset g ⟨op, false, false, 0#7, a.code, 0#7⟩ (litWord (0#25 ++ 2#3)) = some (g.injsetClasses a) := by
  simp [parseInjset, litWord_field, h, keep, Bool.and_self, Bool.not_false, decide_true, usrc_code, litPay_litWord, Raw.plain, -BitVec.getLsbD_eq_getElem]

theorem injsetShot_rt {α : Type} {g : Uni10 α} {op : BitVec 9} {a : USrc} (h : a.ok true false = true) :
    parseInjset g ⟨op, false, false, 0#7, a.code, 0#7⟩ (litWord (0#25 ++ 3#3)) = some (g.injsetShot a) := by
  simp [parseInjset, litWord_field, h, keep, Bool.and_self, Bool.not_false, decide_true, usrc_code, litPay_litWord, Raw.plain, -BitVec.getLsbD_eq_getElem]

theorem injsetArm_rt {α : Type} {g : Uni10 α} {op : BitVec 9} {a : USrc} (h : a.ok false false = true) :
    parseInjset g ⟨op, false, false, 0#7, a.code, 0#7⟩ (litWord (0#25 ++ 4#3)) = some (g.injsetArm a) := by
  simp [parseInjset, litWord_field, h, keep, Bool.and_self, Bool.not_false, decide_true, usrc_code, litPay_litWord, Raw.plain, -BitVec.getLsbD_eq_getElem]

theorem calle_rt {op : BitVec 9} {r : BitVec 7} {off : BitVec 14} {x : Bool} {o : BitVec 21} (h : dstOk true r = true) :
    parseCalle ⟨op, false, false, r, off.extractLsb' 7 7, off.extractLsb' 0 7⟩ (litWord (0#1 ++ BitVec.ofBool x ++ 0#5 ++ o)) = some (.calle r off x o) := by
  simp [parseCalle, cat_calle_x, cat_calle_o, cat_calle_c2, bit_calle, halves_append, h, keep, Bool.and_self, Bool.not_false, decide_true, litPay_litWord, Raw.plain, -BitVec.getLsbD_eq_getElem]

theorem calleRet_rt {op : BitVec 9} {r : BitVec 7} (h : dstOk true r = true) :
    parseCalle ⟨op, false, false, r, 0#7, 0#7⟩ (litWord (1#1 ++ 0#27)) = some (.calleRet r) := by
  simp [parseCalle, h, keep, Bool.and_self, Bool.not_false, decide_true, litPay_litWord, Raw.plain, -BitVec.getLsbD_eq_getElem]

end Sys2Proof.Laws
end

