-- ==== Sys2Proof/Laws/PerInstr.lean ====
section
/-!
SUPPORT. Decoding what the encoder writes, instruction by instruction: the words of a well-formed instruction decode to it, and
whether it has a second word is read from the first alone (03 R29 to R58, and each form's encoding in 06, 07, 10 to 13, 18, 23).
-/

namespace Sys2Proof.Laws

open Sys2Proof

/-! ## What well-formedness says of the source fields -/

theorem and2 {a b : Bool} (h : (a && b) = true) : a = true ∧ b = true := by simpa using h
theorem and3 {a b c : Bool} (h : (a && b && c) = true) : a = true ∧ b = true ∧ c = true := by
  cases a <;> cases b <;> cases c <;> simp_all
theorem and4 {a b c d : Bool} (h : (a && b && c && d) = true) : a = true ∧ b = true ∧ c = true ∧ d = true := by
  cases a <;> cases b <;> cases c <;> cases d <;> simp_all

theorem nLaneR {td ta tb : OpTy} {f : LaneR} (h : f.wf td ta tb = true) : LSrc.named f.a = true ∧ LSrc.named f.b = true :=
  ⟨named_of_ok (and4 h).2.2.1, named_of_ok (and4 h).2.2.2⟩
theorem nLaneR1 {td ta : OpTy} {f : LaneR1} (h : f.wf td ta = true) : LSrc.named f.a = true := named_of_ok (and3 h).2.2
theorem nLaneP {t : OpTy} {fp : Bool} {f : LaneP} (h : f.wf t fp = true) : LSrc.named f.a = true ∧ LSrc.named f.b = true :=
  ⟨named_of_ok (and4 h).2.2.1, named_of_ok (and4 h).2.2.2⟩
theorem nExt {fp : Bool} {a b : LSrc} {ta tb : OpTy} {e : Ext} (h : e.laneOk fp a ta b tb = true) :
    LSrc.named a = true ∧ LSrc.named b = true := by
  cases e with
  | lit p => exact ⟨named_of_ok (and3 h).1, named_of_ok (and3 h).2.1⟩
  | mod m => exact ⟨named_of_ok (and3 h).1, named_of_ok (and3 h).2.1⟩
theorem nLaneX {td ta tb : OpTy} {fp : Bool} {f : LaneX} (h : f.wf td ta tb fp = true) :
    LSrc.named f.a = true ∧ LSrc.named f.b = true := nExt (and3 h).2.2
theorem nLaneX1 {td ta : OpTy} {f : LaneX1} (h : f.wf td ta = true) : LSrc.named f.a = true := (nExt (and3 h).2.2).1
theorem nLaneXP {t : OpTy} {fp : Bool} {f : LaneXP} (h : f.wf t fp = true) : LSrc.named f.a = true ∧ LSrc.named f.b = true :=
  nExt (and3 h).2.2
theorem nLaneX3 {t : OpTy} {fp : Bool} {f : LaneX3} (h : f.wf t fp = true) :
    LSrc.named f.a = true ∧ LSrc.named f.b = true ∧ LSrc.named f.vc = true :=
  ⟨named_of_ok (and4 (and2 (and2 h).1).1).2.2.1, named_of_ok (and4 (and2 (and2 h).1).1).2.2.2, named_of_ok (and2 (and2 h).1).2⟩
theorem nLaneSel {t : OpTy} {f : LaneSel} (h : f.wf t = true) : LSrc.named f.a = true ∧ LSrc.named f.b = true :=
  ⟨named_of_ok (and4 (and2 h).1).2.2.1, named_of_ok (and4 (and2 h).1).2.2.2⟩
theorem nLaneLd {w p : Bool} {f : LaneLd} (h : f.wf w p = true) : LSrc.named f.a = true ∧ LSrc.named f.b = true :=
  ⟨named_of_base (and3 h).2.1, named_of_ok (and3 h).2.2⟩
theorem nLaneLdQ {w p q : Bool} {f : LaneLd} (h : (f.wf w p && q) = true) : LSrc.named f.a = true ∧ LSrc.named f.b = true :=
  nLaneLd (and2 h).1
theorem nLaneLdK {w : Bool} {k : BitVec 28} {f : LaneLd} (h : f.wfK w k = true) : LSrc.named f.a = true ∧ LSrc.named f.b = true :=
  ⟨named_of_base (and4 h).2.1, named_of_ok (and4 h).2.2.1⟩
theorem nLaneSt {w p : Bool} {f : LaneSt} (h : f.wf w p = true) :
    LSrc.named f.t = true ∧ LSrc.named f.a = true ∧ LSrc.named f.b = true :=
  ⟨named_of_ok (and3 h).1, named_of_base (and3 h).2.1, named_of_ok (and3 h).2.2⟩
theorem nLaneStQ {w p q : Bool} {f : LaneSt} (h : (f.wf w p && q) = true) :
    LSrc.named f.t = true ∧ LSrc.named f.a = true ∧ LSrc.named f.b = true := nLaneSt (and2 h).1
theorem nLaneCvt {f : LaneCvt} (h : f.wf = true) : LSrc.named f.a = true := named_of_ok (and4 h).2.2.2
theorem nLaneBox {f : LaneBox} (h : f.wf = true) : ctrOk f.ctr = true ∧ LSrc.named f.o = true :=
  ⟨(and4 h).1, named_of_ok (and4 h).2.2.1⟩
theorem nLaneCpyG {f : LaneCpyG} (h : f.wf = true) : ctrOk f.ctr = true ∧ LSrc.named f.a = true ∧ LSrc.named f.b = true :=
  ⟨(and3 h).1, named_of_ok (and3 h).2.1, named_of_ok (and3 h).2.2⟩
theorem nLaneRim {f : LaneRim} (h : f.wf = true) : ctrOk f.ctr = true ∧ LSrc.named f.x = true ∧ LSrc.named f.o = true := by
  have h4 := and4 h
  refine ⟨h4.1, ?_, named_of_ok h4.2.1⟩
  have hx := h4.2.2.2
  by_cases hc : f.circle = true
  · rw [if_pos hc] at hx; exact named_of_ok (and2 hx).1
  · rw [if_neg hc] at hx
    cases hf : f.x with
    | v x =>
      rw [hf] at hx
      have := (and3 hx)
      simp only [coordsOk, Bool.and_eq_true, decide_eq_true_eq] at hx
      simp only [LSrc.named, decide_eq_true_eq]; omega
    | _ => rfl
theorem nAtom {op : AtomOp} {q : AtomQ} {f : LaneLd} (h : f.wfAtom op q = true) : LSrc.named f.a = true ∧ LSrc.named f.b = true :=
  ⟨named_of_reg (and4 h).2.1, named_of_ok (and4 h).2.2.1⟩

end Sys2Proof.Laws

namespace Sys2Proof.Laws.DecodeEncode

open Sys2Proof Sys2Proof.Laws

/-- The words of a well-formed instruction decode to it, and the first word tells whether there is a second. -/
def Statement (i : Instr) : Prop :=
  i.wf = true → ∀ w x, encode i = some (w, x) → isTwoWord w = x.isSome ∧ decodeWords w (x.getD 0#32) = some i

/-! ## From the fields of a first word to its decoding -/

theorem topBit (r : Raw) : r.toWord.getLsbD 31 = r.op.getLsbD 8 := by
  simp only [Raw.toWord, BitVec.getLsbD_append]; simp

theorem topBit_word (w : Word) : w.getLsbD 31 = (Raw.ofWord w).op.getLsbD 8 := by
  simp only [Raw.ofWord, BitVec.getLsbD_extractLsb']; simp

theorem read_lane {w x : Word} {op : BitVec 9} {f : Form Instr} {i : Instr} (hop : (Raw.ofWord w).op = op) (h8 : op.getLsbD 8 = false)
    (hf : laneFormAt op = f) (hp : f.read (Raw.ofWord w) x = some i) : isTwoWord w = f.isTwo ∧ decodeWords w x = some i := by
  have ht : w.getLsbD 31 = false := by rw [topBit_word, hop, h8]
  have he : w.extractLsb' 23 9 = op := hop
  constructor
  · simp only [isTwoWord, ht, he, hf, Bool.false_eq_true, if_false]
  · simp only [decodeWords, ht, hop, hf, hp, Bool.false_eq_true, if_false]

theorem read_uni {w x : Word} {op : BitVec 9} {f : Form Instr} {g : Form Unit} {i : Instr} (hop : (Raw.ofWord w).op = op)
    (h8 : op.getLsbD 8 = true) (hf : uniFormAt instrUni00 instrUni01 instrUni10 op = f)
    (hg : uniFormAt unitUni00 unitUni01 unitUni10 op = g) (hp : f.read (Raw.ofWord w) x = some i) :
    isTwoWord w = g.isTwo ∧ decodeWords w x = some i := by
  have ht : w.getLsbD 31 = true := by rw [topBit_word, hop, h8]
  have he : w.extractLsb' 23 9 = op := hop
  constructor
  · simp only [isTwoWord, ht, he, hg, if_true]
  · simp only [decodeWords, ht, hop, hf, hp, if_true]

theorem of_one_l {i : Instr} {r : Raw} {op : BitVec 9} {p : Raw → Option Instr} (he : encode i = some (r.toWord, none)) (ho : r.op = op) (h8 : op.getLsbD 8 = false)
    (hf : laneFormAt op = .one p) (hp : p r = some i) (w : Word) (x : Option Word) (h : encode i = some (w, x)) :
    isTwoWord w = x.isSome ∧ decodeWords w (x.getD 0#32) = some i := by
  rw [he] at h; cases h
  exact read_lane (by rw [raw_ofWord_toWord, ho]) h8 hf (by rw [raw_ofWord_toWord]; exact hp)

theorem of_two_l {i : Instr} {r : Raw} {op : BitVec 9} {y : Word} {p : Raw → Word → Option Instr} (he : encode i = some (r.toWord, some y))
    (ho : r.op = op) (h8 : op.getLsbD 8 = false) (hf : laneFormAt op = .two p) (hp : p r y = some i) (w : Word) (x : Option Word)
    (h : encode i = some (w, x)) : isTwoWord w = x.isSome ∧ decodeWords w (x.getD 0#32) = some i := by
  rw [he] at h; cases h
  exact read_lane (by rw [raw_ofWord_toWord, ho]) h8 hf (by rw [raw_ofWord_toWord]; exact hp)

theorem of_word_l {i : Instr} {v y : Word} {op : BitVec 9} {p : Raw → Word → Option Instr} (he : encode i = some (v, some y))
    (h8 : op.getLsbD 8 = false) (hop : v.extractLsb' 23 9 = op) (hf : laneFormAt op = .two p) (hp : p (Raw.ofWord v) y = some i)
    (w : Word) (x : Option Word) (h : encode i = some (w, x)) : isTwoWord w = x.isSome ∧ decodeWords w (x.getD 0#32) = some i := by
  rw [he] at h; cases h
  exact read_lane hop h8 hf hp

theorem of_one_u {i : Instr} {r : Raw} {op : BitVec 9} {p : Raw → Option Instr} {q : Raw → Option Unit} (he : encode i = some (r.toWord, none))
    (ho : r.op = op) (h8 : op.getLsbD 8 = true) (hf : uniFormAt instrUni00 instrUni01 instrUni10 op = .one p)
    (hg : uniFormAt unitUni00 unitUni01 unitUni10 op = .one q) (hp : p r = some i) (w : Word) (x : Option Word)
    (h : encode i = some (w, x)) : isTwoWord w = x.isSome ∧ decodeWords w (x.getD 0#32) = some i := by
  rw [he] at h; cases h
  exact read_uni (by rw [raw_ofWord_toWord, ho]) h8 hf hg (by rw [raw_ofWord_toWord]; exact hp)

theorem of_two_u {i : Instr} {r : Raw} {op : BitVec 9} {y : Word} {p : Raw → Word → Option Instr} {q : Raw → Word → Option Unit}
    (he : encode i = some (r.toWord, some y)) (ho : r.op = op) (h8 : op.getLsbD 8 = true)
    (hf : uniFormAt instrUni00 instrUni01 instrUni10 op = .two p) (hg : uniFormAt unitUni00 unitUni01 unitUni10 op = .two q)
    (hp : p r y = some i) (w : Word) (x : Option Word) (h : encode i = some (w, x)) :
    isTwoWord w = x.isSome ∧ decodeWords w (x.getD 0#32) = some i := by
  rw [he] at h; cases h
  exact read_uni (by rw [raw_ofWord_toWord, ho]) h8 hf hg (by rw [raw_ofWord_toWord]; exact hp)

theorem of_word_u {i : Instr} {v y : Word} {op : BitVec 9} {p : Raw → Word → Option Instr} {q : Raw → Word → Option Unit}
    (he : encode i = some (v, some y)) (h8 : op.getLsbD 8 = true) (hop : v.extractLsb' 23 9 = op)
    (hf : uniFormAt instrUni00 instrUni01 instrUni10 op = .two p) (hg : uniFormAt unitUni00 unitUni01 unitUni10 op = .two q)
    (hp : p (Raw.ofWord v) y = some i) (w : Word) (x : Option Word) (h : encode i = some (w, x)) :
    isTwoWord w = x.isSome ∧ decodeWords w (x.getD 0#32) = some i := by
  rw [he] at h; cases h
  exact read_uni hop h8 hf hg hp

/-! ## One lemma for each constructor -/

theorem add32 (f : LaneR) : Statement (.add32 f) := fun h => by refine of_one_l (op := 0) rfl rfl rfl rfl ?_; exact laneR_rt h (nLaneR h).1 (nLaneR h).2
theorem sub32 (f : LaneR) : Statement (.sub32 f) := fun h => by refine of_one_l (op := 1) rfl rfl rfl rfl ?_; exact laneR_rt h (nLaneR h).1 (nLaneR h).2
theorem mul32 (f : LaneR) : Statement (.mul32 f) := fun h => by refine of_one_l (op := 2) rfl rfl rfl rfl ?_; exact laneR_rt h (nLaneR h).1 (nLaneR h).2
theorem mulhiN32 (f : LaneR) : Statement (.mulhiN32 f) := fun h => by refine of_one_l (op := 3) rfl rfl rfl rfl ?_; exact laneR_rt h (nLaneR h).1 (nLaneR h).2
theorem mulhiI32 (f : LaneR) : Statement (.mulhiI32 f) := fun h => by refine of_one_l (op := 4) rfl rfl rfl rfl ?_; exact laneR_rt h (nLaneR h).1 (nLaneR h).2
theorem idivN32 (f : LaneR) : Statement (.idivN32 f) := fun h => by refine of_one_l (op := 5) rfl rfl rfl rfl ?_; exact laneR_rt h (nLaneR h).1 (nLaneR h).2
theorem idivI32 (f : LaneR) : Statement (.idivI32 f) := fun h => by refine of_one_l (op := 6) rfl rfl rfl rfl ?_; exact laneR_rt h (nLaneR h).1 (nLaneR h).2
theorem remN32 (f : LaneR) : Statement (.remN32 f) := fun h => by refine of_one_l (op := 7) rfl rfl rfl rfl ?_; exact laneR_rt h (nLaneR h).1 (nLaneR h).2
theorem remI32 (f : LaneR) : Statement (.remI32 f) := fun h => by refine of_one_l (op := 8) rfl rfl rfl rfl ?_; exact laneR_rt h (nLaneR h).1 (nLaneR h).2
theorem addSatN32 (f : LaneR) : Statement (.addSatN32 f) := fun h => by refine of_one_l (op := 9) rfl rfl rfl rfl ?_; exact laneR_rt h (nLaneR h).1 (nLaneR h).2
theorem addSatI32 (f : LaneR) : Statement (.addSatI32 f) := fun h => by refine of_one_l (op := 10) rfl rfl rfl rfl ?_; exact laneR_rt h (nLaneR h).1 (nLaneR h).2
theorem subSatN32 (f : LaneR) : Statement (.subSatN32 f) := fun h => by refine of_one_l (op := 11) rfl rfl rfl rfl ?_; exact laneR_rt h (nLaneR h).1 (nLaneR h).2
theorem subSatI32 (f : LaneR) : Statement (.subSatI32 f) := fun h => by refine of_one_l (op := 12) rfl rfl rfl rfl ?_; exact laneR_rt h (nLaneR h).1 (nLaneR h).2
theorem minN32 (f : LaneR) : Statement (.minN32 f) := fun h => by refine of_one_l (op := 13) rfl rfl rfl rfl ?_; exact laneR_rt h (nLaneR h).1 (nLaneR h).2
theorem minI32 (f : LaneR) : Statement (.minI32 f) := fun h => by refine of_one_l (op := 14) rfl rfl rfl rfl ?_; exact laneR_rt h (nLaneR h).1 (nLaneR h).2
theorem maxN32 (f : LaneR) : Statement (.maxN32 f) := fun h => by refine of_one_l (op := 15) rfl rfl rfl rfl ?_; exact laneR_rt h (nLaneR h).1 (nLaneR h).2
theorem maxI32 (f : LaneR) : Statement (.maxI32 f) := fun h => by refine of_one_l (op := 16) rfl rfl rfl rfl ?_; exact laneR_rt h (nLaneR h).1 (nLaneR h).2
theorem andB32 (f : LaneR) : Statement (.andB32 f) := fun h => by refine of_one_l (op := 17) rfl rfl rfl rfl ?_; exact laneR_rt h (nLaneR h).1 (nLaneR h).2
theorem orB32 (f : LaneR) : Statement (.orB32 f) := fun h => by refine of_one_l (op := 18) rfl rfl rfl rfl ?_; exact laneR_rt h (nLaneR h).1 (nLaneR h).2
theorem xorB32 (f : LaneR) : Statement (.xorB32 f) := fun h => by refine of_one_l (op := 19) rfl rfl rfl rfl ?_; exact laneR_rt h (nLaneR h).1 (nLaneR h).2
theorem andnB32 (f : LaneR) : Statement (.andnB32 f) := fun h => by refine of_one_l (op := 20) rfl rfl rfl rfl ?_; exact laneR_rt h (nLaneR h).1 (nLaneR h).2
theorem shlB32 (f : LaneR) : Statement (.shlB32 f) := fun h => by refine of_one_l (op := 21) rfl rfl rfl rfl ?_; exact laneR_rt h (nLaneR h).1 (nLaneR h).2
theorem shrB32 (f : LaneR) : Statement (.shrB32 f) := fun h => by refine of_one_l (op := 22) rfl rfl rfl rfl ?_; exact laneR_rt h (nLaneR h).1 (nLaneR h).2
theorem sarB32 (f : LaneR) : Statement (.sarB32 f) := fun h => by refine of_one_l (op := 23) rfl rfl rfl rfl ?_; exact laneR_rt h (nLaneR h).1 (nLaneR h).2
theorem add64 (f : LaneR) : Statement (.add64 f) := fun h => by refine of_one_l (op := 24) rfl rfl rfl rfl ?_; exact laneR_rt h (nLaneR h).1 (nLaneR h).2
theorem sub64 (f : LaneR) : Statement (.sub64 f) := fun h => by refine of_one_l (op := 25) rfl rfl rfl rfl ?_; exact laneR_rt h (nLaneR h).1 (nLaneR h).2
theorem mul64 (f : LaneR) : Statement (.mul64 f) := fun h => by refine of_one_l (op := 26) rfl rfl rfl rfl ?_; exact laneR_rt h (nLaneR h).1 (nLaneR h).2
theorem idivN64 (f : LaneR) : Statement (.idivN64 f) := fun h => by refine of_one_l (op := 27) rfl rfl rfl rfl ?_; exact laneR_rt h (nLaneR h).1 (nLaneR h).2
theorem idivI64 (f : LaneR) : Statement (.idivI64 f) := fun h => by refine of_one_l (op := 28) rfl rfl rfl rfl ?_; exact laneR_rt h (nLaneR h).1 (nLaneR h).2
theorem andB64 (f : LaneR) : Statement (.andB64 f) := fun h => by refine of_one_l (op := 29) rfl rfl rfl rfl ?_; exact laneR_rt h (nLaneR h).1 (nLaneR h).2
theorem orB64 (f : LaneR) : Statement (.orB64 f) := fun h => by refine of_one_l (op := 30) rfl rfl rfl rfl ?_; exact laneR_rt h (nLaneR h).1 (nLaneR h).2
theorem xorB64 (f : LaneR) : Statement (.xorB64 f) := fun h => by refine of_one_l (op := 31) rfl rfl rfl rfl ?_; exact laneR_rt h (nLaneR h).1 (nLaneR h).2
theorem shlB64 (f : LaneR) : Statement (.shlB64 f) := fun h => by refine of_one_l (op := 32) rfl rfl rfl rfl ?_; exact laneR_rt h (nLaneR h).1 (nLaneR h).2
theorem shrB64 (f : LaneR) : Statement (.shrB64 f) := fun h => by refine of_one_l (op := 33) rfl rfl rfl rfl ?_; exact laneR_rt h (nLaneR h).1 (nLaneR h).2
theorem sarB64 (f : LaneR) : Statement (.sarB64 f) := fun h => by refine of_one_l (op := 34) rfl rfl rfl rfl ?_; exact laneR_rt h (nLaneR h).1 (nLaneR h).2
theorem cmpN32 (f : LaneP) : Statement (.cmpN32 f) := fun h => by refine of_one_l (op := 35) rfl rfl rfl rfl ?_; exact laneP_rt h (nLaneP h).1 (nLaneP h).2
theorem cmpI32 (f : LaneP) : Statement (.cmpI32 f) := fun h => by refine of_one_l (op := 36) rfl rfl rfl rfl ?_; exact laneP_rt h (nLaneP h).1 (nLaneP h).2
theorem cmpN64 (f : LaneP) : Statement (.cmpN64 f) := fun h => by refine of_one_l (op := 37) rfl rfl rfl rfl ?_; exact laneP_rt h (nLaneP h).1 (nLaneP h).2
theorem cmpI64 (f : LaneP) : Statement (.cmpI64 f) := fun h => by refine of_one_l (op := 38) rfl rfl rfl rfl ?_; exact laneP_rt h (nLaneP h).1 (nLaneP h).2
theorem plog (f : LanePlog) : Statement (.plog f) := fun h => by refine of_one_l (op := 39) rfl rfl rfl rfl ?_; exact lanePlog_rt h
theorem faddF32 (f : LaneR) : Statement (.faddF32 f) := fun h => by refine of_one_l (op := 40) rfl rfl rfl rfl ?_; exact laneR_rt h (nLaneR h).1 (nLaneR h).2
theorem fsubF32 (f : LaneR) : Statement (.fsubF32 f) := fun h => by refine of_one_l (op := 41) rfl rfl rfl rfl ?_; exact laneR_rt h (nLaneR h).1 (nLaneR h).2
theorem fmulF32 (f : LaneR) : Statement (.fmulF32 f) := fun h => by refine of_one_l (op := 42) rfl rfl rfl rfl ?_; exact laneR_rt h (nLaneR h).1 (nLaneR h).2
theorem fminF32 (f : LaneR) : Statement (.fminF32 f) := fun h => by refine of_one_l (op := 43) rfl rfl rfl rfl ?_; exact laneR_rt h (nLaneR h).1 (nLaneR h).2
theorem fmaxF32 (f : LaneR) : Statement (.fmaxF32 f) := fun h => by refine of_one_l (op := 44) rfl rfl rfl rfl ?_; exact laneR_rt h (nLaneR h).1 (nLaneR h).2
theorem fcmpF32 (f : LaneP) : Statement (.fcmpF32 f) := fun h => by refine of_one_l (op := 45) rfl rfl rfl rfl ?_; exact laneP_rt h (nLaneP h).1 (nLaneP h).2
theorem fdivF32 (f : LaneR) : Statement (.fdivF32 f) := fun h => by refine of_one_l (op := 46) rfl rfl rfl rfl ?_; exact laneR_rt h (nLaneR h).1 (nLaneR h).2
theorem fsqrtF32 (f : LaneR1) : Statement (.fsqrtF32 f) := fun h => by refine of_one_l (op := 47) rfl rfl rfl rfl ?_; exact laneR1_rt h (nLaneR1 h)
theorem faddF64 (f : LaneR) : Statement (.faddF64 f) := fun h => by refine of_one_l (op := 48) rfl rfl rfl rfl ?_; exact laneR_rt h (nLaneR h).1 (nLaneR h).2
theorem fsubF64 (f : LaneR) : Statement (.fsubF64 f) := fun h => by refine of_one_l (op := 49) rfl rfl rfl rfl ?_; exact laneR_rt h (nLaneR h).1 (nLaneR h).2
theorem fmulF64 (f : LaneR) : Statement (.fmulF64 f) := fun h => by refine of_one_l (op := 50) rfl rfl rfl rfl ?_; exact laneR_rt h (nLaneR h).1 (nLaneR h).2
theorem fminF64 (f : LaneR) : Statement (.fminF64 f) := fun h => by refine of_one_l (op := 51) rfl rfl rfl rfl ?_; exact laneR_rt h (nLaneR h).1 (nLaneR h).2
theorem fmaxF64 (f : LaneR) : Statement (.fmaxF64 f) := fun h => by refine of_one_l (op := 52) rfl rfl rfl rfl ?_; exact laneR_rt h (nLaneR h).1 (nLaneR h).2
theorem fcmpF64 (f : LaneP) : Statement (.fcmpF64 f) := fun h => by refine of_one_l (op := 53) rfl rfl rfl rfl ?_; exact laneP_rt h (nLaneP h).1 (nLaneP h).2
theorem fdivF64 (f : LaneR) : Statement (.fdivF64 f) := fun h => by refine of_one_l (op := 54) rfl rfl rfl rfl ?_; exact laneR_rt h (nLaneR h).1 (nLaneR h).2
theorem fsqrtF64 (f : LaneR1) : Statement (.fsqrtF64 f) := fun h => by refine of_one_l (op := 55) rfl rfl rfl rfl ?_; exact laneR1_rt h (nLaneR1 h)
theorem popcB32 (f : LaneR1) : Statement (.popcB32 f) := fun h => by refine of_one_l (op := 56) rfl rfl rfl rfl ?_; exact laneR1_rt h (nLaneR1 h)
theorem clzB32 (f : LaneR1) : Statement (.clzB32 f) := fun h => by refine of_one_l (op := 57) rfl rfl rfl rfl ?_; exact laneR1_rt h (nLaneR1 h)
theorem brevB32 (f : LaneR1) : Statement (.brevB32 f) := fun h => by refine of_one_l (op := 58) rfl rfl rfl rfl ?_; exact laneR1_rt h (nLaneR1 h)
theorem movB32 (f : LaneR1) : Statement (.movB32 f) := fun h => by refine of_one_l (op := 59) rfl rfl rfl rfl ?_; exact laneR1_rt h (nLaneR1 h)
theorem movB64 (f : LaneR1) : Statement (.movB64 f) := fun h => by refine of_one_l (op := 60) rfl rfl rfl rfl ?_; exact laneR1_rt h (nLaneR1 h)
theorem fclassF32 (f : LaneR1) : Statement (.fclassF32 f) := fun h => by refine of_one_l (op := 61) rfl rfl rfl rfl ?_; exact laneR1_rt h (nLaneR1 h)
theorem fclassF64 (f : LaneR1) : Statement (.fclassF64 f) := fun h => by refine of_one_l (op := 62) rfl rfl rfl rfl ?_; exact laneR1_rt h (nLaneR1 h)
theorem add32X (f : LaneX) : Statement (.add32X f) := fun h => by refine of_two_l (op := 64) rfl rfl rfl rfl ?_; exact laneX_rt h (nLaneX h).1 (nLaneX h).2
theorem sub32X (f : LaneX) : Statement (.sub32X f) := fun h => by refine of_two_l (op := 65) rfl rfl rfl rfl ?_; exact laneX_rt h (nLaneX h).1 (nLaneX h).2
theorem mul32X (f : LaneX) : Statement (.mul32X f) := fun h => by refine of_two_l (op := 66) rfl rfl rfl rfl ?_; exact laneX_rt h (nLaneX h).1 (nLaneX h).2
theorem andB32X (f : LaneX) : Statement (.andB32X f) := fun h => by refine of_two_l (op := 67) rfl rfl rfl rfl ?_; exact laneX_rt h (nLaneX h).1 (nLaneX h).2
theorem orB32X (f : LaneX) : Statement (.orB32X f) := fun h => by refine of_two_l (op := 68) rfl rfl rfl rfl ?_; exact laneX_rt h (nLaneX h).1 (nLaneX h).2
theorem xorB32X (f : LaneX) : Statement (.xorB32X f) := fun h => by refine of_two_l (op := 69) rfl rfl rfl rfl ?_; exact laneX_rt h (nLaneX h).1 (nLaneX h).2
theorem andnB32X (f : LaneX) : Statement (.andnB32X f) := fun h => by refine of_two_l (op := 70) rfl rfl rfl rfl ?_; exact laneX_rt h (nLaneX h).1 (nLaneX h).2
theorem shlB32X (f : LaneX) : Statement (.shlB32X f) := fun h => by refine of_two_l (op := 71) rfl rfl rfl rfl ?_; exact laneX_rt h (nLaneX h).1 (nLaneX h).2
theorem shrB32X (f : LaneX) : Statement (.shrB32X f) := fun h => by refine of_two_l (op := 72) rfl rfl rfl rfl ?_; exact laneX_rt h (nLaneX h).1 (nLaneX h).2
theorem sarB32X (f : LaneX) : Statement (.sarB32X f) := fun h => by refine of_two_l (op := 73) rfl rfl rfl rfl ?_; exact laneX_rt h (nLaneX h).1 (nLaneX h).2
theorem minN32X (f : LaneX) : Statement (.minN32X f) := fun h => by refine of_two_l (op := 74) rfl rfl rfl rfl ?_; exact laneX_rt h (nLaneX h).1 (nLaneX h).2
theorem minI32X (f : LaneX) : Statement (.minI32X f) := fun h => by refine of_two_l (op := 75) rfl rfl rfl rfl ?_; exact laneX_rt h (nLaneX h).1 (nLaneX h).2
theorem maxN32X (f : LaneX) : Statement (.maxN32X f) := fun h => by refine of_two_l (op := 76) rfl rfl rfl rfl ?_; exact laneX_rt h (nLaneX h).1 (nLaneX h).2
theorem maxI32X (f : LaneX) : Statement (.maxI32X f) := fun h => by refine of_two_l (op := 77) rfl rfl rfl rfl ?_; exact laneX_rt h (nLaneX h).1 (nLaneX h).2
theorem addSatN32X (f : LaneX) : Statement (.addSatN32X f) := fun h => by refine of_two_l (op := 78) rfl rfl rfl rfl ?_; exact laneX_rt h (nLaneX h).1 (nLaneX h).2
theorem addSatI32X (f : LaneX) : Statement (.addSatI32X f) := fun h => by refine of_two_l (op := 79) rfl rfl rfl rfl ?_; exact laneX_rt h (nLaneX h).1 (nLaneX h).2
theorem cmpN32X (f : LaneXP) : Statement (.cmpN32X f) := fun h => by refine of_two_l (op := 80) rfl rfl rfl rfl ?_; exact laneXP_rt h (nLaneXP h).1 (nLaneXP h).2
theorem cmpI32X (f : LaneXP) : Statement (.cmpI32X f) := fun h => by refine of_two_l (op := 81) rfl rfl rfl rfl ?_; exact laneXP_rt h (nLaneXP h).1 (nLaneXP h).2
theorem movB32X (f : LaneX1) : Statement (.movB32X f) := fun h => by refine of_two_l (op := 82) rfl rfl rfl rfl ?_; exact laneX1_rt h (nLaneX1 h)
theorem add64X (f : LaneX) : Statement (.add64X f) := fun h => by refine of_two_l (op := 83) rfl rfl rfl rfl ?_; exact laneX_rt h (nLaneX h).1 (nLaneX h).2
theorem sub64X (f : LaneX) : Statement (.sub64X f) := fun h => by refine of_two_l (op := 84) rfl rfl rfl rfl ?_; exact laneX_rt h (nLaneX h).1 (nLaneX h).2
theorem cmpN64X (f : LaneXP) : Statement (.cmpN64X f) := fun h => by refine of_two_l (op := 85) rfl rfl rfl rfl ?_; exact laneXP_rt h (nLaneXP h).1 (nLaneXP h).2
theorem cmpI64X (f : LaneXP) : Statement (.cmpI64X f) := fun h => by refine of_two_l (op := 86) rfl rfl rfl rfl ?_; exact laneXP_rt h (nLaneXP h).1 (nLaneXP h).2
theorem movB64X (f : LaneX1) : Statement (.movB64X f) := fun h => by refine of_two_l (op := 87) rfl rfl rfl rfl ?_; exact laneX1_rt h (nLaneX1 h)
theorem selB32 (f : LaneSel) : Statement (.selB32 f) := fun h => by refine of_two_l (op := 88) rfl rfl rfl rfl ?_; exact laneSel_rt h (nLaneSel h).1 (nLaneSel h).2
theorem selB64 (f : LaneSel) : Statement (.selB64 f) := fun h => by refine of_two_l (op := 89) rfl rfl rfl rfl ?_; exact laneSel_rt h (nLaneSel h).1 (nLaneSel h).2
theorem bfeN32 (f : LaneX) : Statement (.bfeN32 f) := fun h => by refine of_two_l (op := 90) rfl rfl rfl rfl ?_; exact laneX_rt h (nLaneX h).1 (nLaneX h).2
theorem bfeI32 (f : LaneX) : Statement (.bfeI32 f) := fun h => by refine of_two_l (op := 91) rfl rfl rfl rfl ?_; exact laneX_rt h (nLaneX h).1 (nLaneX h).2
theorem bfiB32 (f : LaneX3) : Statement (.bfiB32 f) := fun h => by refine of_two_l (op := 92) rfl rfl rfl rfl ?_; exact laneX3_rt h (nLaneX3 h).1 (nLaneX3 h).2.1 (nLaneX3 h).2.2
theorem mad32 (f : LaneX3) : Statement (.mad32 f) := fun h => by refine of_two_l (op := 93) rfl rfl rfl rfl ?_; exact laneX3_rt h (nLaneX3 h).1 (nLaneX3 h).2.1 (nLaneX3 h).2.2
theorem mad64 (f : LaneX3) : Statement (.mad64 f) := fun h => by refine of_two_l (op := 94) rfl rfl rfl rfl ?_; exact laneX3_rt h (nLaneX3 h).1 (nLaneX3 h).2.1 (nLaneX3 h).2.2
theorem shrrI32 (f : LaneX) : Statement (.shrrI32 f) := fun h => by refine of_two_l (op := 95) rfl rfl rfl rfl ?_; exact laneX_rt h (nLaneX h).1 (nLaneX h).2
theorem addI16x2 (f : LaneX) : Statement (.addI16x2 f) := fun h => by refine of_two_l (op := 96) rfl rfl rfl rfl ?_; exact laneX_rt h (nLaneX h).1 (nLaneX h).2
theorem subI16x2 (f : LaneX) : Statement (.subI16x2 f) := fun h => by refine of_two_l (op := 97) rfl rfl rfl rfl ?_; exact laneX_rt h (nLaneX h).1 (nLaneX h).2
theorem addSatI16x2 (f : LaneX) : Statement (.addSatI16x2 f) := fun h => by refine of_two_l (op := 98) rfl rfl rfl rfl ?_; exact laneX_rt h (nLaneX h).1 (nLaneX h).2
theorem subSatI16x2 (f : LaneX) : Statement (.subSatI16x2 f) := fun h => by refine of_two_l (op := 99) rfl rfl rfl rfl ?_; exact laneX_rt h (nLaneX h).1 (nLaneX h).2
theorem mulI16x2 (f : LaneX) : Statement (.mulI16x2 f) := fun h => by refine of_two_l (op := 100) rfl rfl rfl rfl ?_; exact laneX_rt h (nLaneX h).1 (nLaneX h).2
theorem minI16x2 (f : LaneX) : Statement (.minI16x2 f) := fun h => by refine of_two_l (op := 101) rfl rfl rfl rfl ?_; exact laneX_rt h (nLaneX h).1 (nLaneX h).2
theorem maxI16x2 (f : LaneX) : Statement (.maxI16x2 f) := fun h => by refine of_two_l (op := 102) rfl rfl rfl rfl ?_; exact laneX_rt h (nLaneX h).1 (nLaneX h).2
theorem packI16x2 (f : LaneX) : Statement (.packI16x2 f) := fun h => by refine of_two_l (op := 103) rfl rfl rfl rfl ?_; exact laneX_rt h (nLaneX h).1 (nLaneX h).2
theorem pdot2I16x2 (f : LaneX3) : Statement (.pdot2I16x2 f) := fun h => by refine of_two_l (op := 104) rfl rfl rfl rfl ?_; exact laneX3_rt h (nLaneX3 h).1 (nLaneX3 h).2.1 (nLaneX3 h).2.2
theorem shrrSatI16 (f : LaneX) : Statement (.shrrSatI16 f) := fun h => by refine of_two_l (op := 105) rfl rfl rfl rfl ?_; exact laneX_rt h (nLaneX h).1 (nLaneX h).2
theorem addN8x4 (f : LaneX) : Statement (.addN8x4 f) := fun h => by refine of_two_l (op := 106) rfl rfl rfl rfl ?_; exact laneX_rt h (nLaneX h).1 (nLaneX h).2
theorem subN8x4 (f : LaneX) : Statement (.subN8x4 f) := fun h => by refine of_two_l (op := 107) rfl rfl rfl rfl ?_; exact laneX_rt h (nLaneX h).1 (nLaneX h).2
theorem addSatN8x4 (f : LaneX) : Statement (.addSatN8x4 f) := fun h => by refine of_two_l (op := 108) rfl rfl rfl rfl ?_; exact laneX_rt h (nLaneX h).1 (nLaneX h).2
theorem subSatN8x4 (f : LaneX) : Statement (.subSatN8x4 f) := fun h => by refine of_two_l (op := 109) rfl rfl rfl rfl ?_; exact laneX_rt h (nLaneX h).1 (nLaneX h).2
theorem minN8x4 (f : LaneX) : Statement (.minN8x4 f) := fun h => by refine of_two_l (op := 110) rfl rfl rfl rfl ?_; exact laneX_rt h (nLaneX h).1 (nLaneX h).2
theorem maxN8x4 (f : LaneX) : Statement (.maxN8x4 f) := fun h => by refine of_two_l (op := 111) rfl rfl rfl rfl ?_; exact laneX_rt h (nLaneX h).1 (nLaneX h).2
theorem faddF32X (f : LaneX) : Statement (.faddF32X f) := fun h => by refine of_two_l (op := 112) rfl rfl rfl rfl ?_; exact laneX_rt h (nLaneX h).1 (nLaneX h).2
theorem fmulF32X (f : LaneX) : Statement (.fmulF32X f) := fun h => by refine of_two_l (op := 113) rfl rfl rfl rfl ?_; exact laneX_rt h (nLaneX h).1 (nLaneX h).2
theorem ffmaF32 (f : LaneX3) : Statement (.ffmaF32 f) := fun h => by refine of_two_l (op := 114) rfl rfl rfl rfl ?_; exact laneX3_rt h (nLaneX3 h).1 (nLaneX3 h).2.1 (nLaneX3 h).2.2
theorem fcmpF32X (f : LaneXP) : Statement (.fcmpF32X f) := fun h => by refine of_two_l (op := 115) rfl rfl rfl rfl ?_; exact laneXP_rt h (nLaneXP h).1 (nLaneXP h).2
theorem faddF64X (f : LaneX) : Statement (.faddF64X f) := fun h => by refine of_two_l (op := 116) rfl rfl rfl rfl ?_; exact laneX_rt h (nLaneX h).1 (nLaneX h).2
theorem fmulF64X (f : LaneX) : Statement (.fmulF64X f) := fun h => by refine of_two_l (op := 117) rfl rfl rfl rfl ?_; exact laneX_rt h (nLaneX h).1 (nLaneX h).2
theorem ffmaF64 (f : LaneX3) : Statement (.ffmaF64 f) := fun h => by refine of_two_l (op := 118) rfl rfl rfl rfl ?_; exact laneX3_rt h (nLaneX3 h).1 (nLaneX3 h).2.1 (nLaneX3 h).2.2
theorem fcmpF64X (f : LaneXP) : Statement (.fcmpF64X f) := fun h => by refine of_two_l (op := 119) rfl rfl rfl rfl ?_; exact laneXP_rt h (nLaneXP h).1 (nLaneXP h).2
theorem faddF16x2 (f : LaneX) : Statement (.faddF16x2 f) := fun h => by refine of_two_l (op := 120) rfl rfl rfl rfl ?_; exact laneX_rt h (nLaneX h).1 (nLaneX h).2
theorem fmulF16x2 (f : LaneX) : Statement (.fmulF16x2 f) := fun h => by refine of_two_l (op := 121) rfl rfl rfl rfl ?_; exact laneX_rt h (nLaneX h).1 (nLaneX h).2
theorem ffmaF16x2 (f : LaneX3) : Statement (.ffmaF16x2 f) := fun h => by refine of_two_l (op := 122) rfl rfl rfl rfl ?_; exact laneX3_rt h (nLaneX3 h).1 (nLaneX3 h).2.1 (nLaneX3 h).2.2
theorem faddBf16x2 (f : LaneX) : Statement (.faddBf16x2 f) := fun h => by refine of_two_l (op := 123) rfl rfl rfl rfl ?_; exact laneX_rt h (nLaneX h).1 (nLaneX h).2
theorem fmulBf16x2 (f : LaneX) : Statement (.fmulBf16x2 f) := fun h => by refine of_two_l (op := 124) rfl rfl rfl rfl ?_; exact laneX_rt h (nLaneX h).1 (nLaneX h).2
theorem ffmaBf16x2 (f : LaneX3) : Statement (.ffmaBf16x2 f) := fun h => by refine of_two_l (op := 125) rfl rfl rfl rfl ?_; exact laneX3_rt h (nLaneX3 h).1 (nLaneX3 h).2.1 (nLaneX3 h).2.2
theorem fsubF32X (f : LaneX) : Statement (.fsubF32X f) := fun h => by refine of_two_l (op := 126) rfl rfl rfl rfl ?_; exact laneX_rt h (nLaneX h).1 (nLaneX h).2
theorem fsubF64X (f : LaneX) : Statement (.fsubF64X f) := fun h => by refine of_two_l (op := 127) rfl rfl rfl rfl ?_; exact laneX_rt h (nLaneX h).1 (nLaneX h).2
theorem ldGN8 (f : LaneLd) : Statement (.ldGN8 f) := fun h => by refine of_one_l (op := 128) rfl rfl rfl rfl ?_; exact laneLd_rt h (nLaneLd h).1 (nLaneLd h).2
theorem ldGI8 (f : LaneLd) : Statement (.ldGI8 f) := fun h => by refine of_one_l (op := 129) rfl rfl rfl rfl ?_; exact laneLd_rt h (nLaneLd h).1 (nLaneLd h).2
theorem ldGN16 (f : LaneLd) : Statement (.ldGN16 f) := fun h => by refine of_one_l (op := 130) rfl rfl rfl rfl ?_; exact laneLd_rt h (nLaneLd h).1 (nLaneLd h).2
theorem ldGI16 (f : LaneLd) : Statement (.ldGI16 f) := fun h => by refine of_one_l (op := 131) rfl rfl rfl rfl ?_; exact laneLd_rt h (nLaneLd h).1 (nLaneLd h).2
theorem ldGB32 (f : LaneLd) : Statement (.ldGB32 f) := fun h => by refine of_one_l (op := 132) rfl rfl rfl rfl ?_; exact laneLd_rt h (nLaneLd h).1 (nLaneLd h).2
theorem ldGB64 (f : LaneLd) : Statement (.ldGB64 f) := fun h => by refine of_one_l (op := 133) rfl rfl rfl rfl ?_; exact laneLd_rt h (nLaneLd h).1 (nLaneLd h).2
theorem ldGQual (f : LaneLd) (q : Qual) : Statement (.ldGQual f q) := fun h => by refine of_two_l (op := 134) rfl rfl rfl rfl ?_; exact laneLdQ_rt h (nLaneLdQ h).1 (nLaneLdQ h).2
theorem stGB8 (f : LaneSt) : Statement (.stGB8 f) := fun h => by refine of_one_l (op := 135) rfl rfl rfl rfl ?_; exact laneSt_rt h (nLaneSt h).1 (nLaneSt h).2.1 (nLaneSt h).2.2
theorem stGB16 (f : LaneSt) : Statement (.stGB16 f) := fun h => by refine of_one_l (op := 136) rfl rfl rfl rfl ?_; exact laneSt_rt h (nLaneSt h).1 (nLaneSt h).2.1 (nLaneSt h).2.2
theorem stGB32 (f : LaneSt) : Statement (.stGB32 f) := fun h => by refine of_one_l (op := 137) rfl rfl rfl rfl ?_; exact laneSt_rt h (nLaneSt h).1 (nLaneSt h).2.1 (nLaneSt h).2.2
theorem stGB64 (f : LaneSt) : Statement (.stGB64 f) := fun h => by refine of_one_l (op := 138) rfl rfl rfl rfl ?_; exact laneSt_rt h (nLaneSt h).1 (nLaneSt h).2.1 (nLaneSt h).2.2
theorem stGQual (f : LaneSt) (q : Qual) : Statement (.stGQual f q) := fun h => by refine of_two_l (op := 139) rfl rfl rfl rfl ?_; exact laneStQ_rt h (nLaneStQ h).1 (nLaneStQ h).2.1 (nLaneStQ h).2.2
theorem ldkB32 (f : LaneLd) (k : BitVec 28) : Statement (.ldkB32 f k) := fun h => by refine of_two_l (op := 140) rfl rfl rfl rfl ?_; exact laneLdK_rt h (nLaneLdK h).1 (nLaneLdK h).2
theorem ldkB64 (f : LaneLd) (k : BitVec 28) : Statement (.ldkB64 f k) := fun h => by refine of_two_l (op := 141) rfl rfl rfl rfl ?_; exact laneLdK_rt h (nLaneLdK h).1 (nLaneLdK h).2
theorem ldt (d : BitVec 7) (x : BitVec 7) (tx : BitVec 8) (n : BitVec 3) (f32 : Bool) : Statement (.ldt d x tx n f32) := fun h => by refine of_two_l (op := 142) rfl rfl rfl rfl ?_; exact ldt_rt h
theorem stt (t : LSrc) (x : BitVec 7) (tx : BitVec 8) (n : BitVec 3) (f32 : Bool) (round : Round) : Statement (.stt t x tx n f32 round) := fun h => by refine of_two_l (op := 143) rfl rfl rfl rfl ?_; exact stt_rt h (named_of_ok (and3 h).1)
theorem ldCmN8 (f : LaneLd) : Statement (.ldCmN8 f) := fun h => by refine of_one_l (op := 144) rfl rfl rfl rfl ?_; exact laneLd_rt h (nLaneLd h).1 (nLaneLd h).2
theorem ldCmI8 (f : LaneLd) : Statement (.ldCmI8 f) := fun h => by refine of_one_l (op := 145) rfl rfl rfl rfl ?_; exact laneLd_rt h (nLaneLd h).1 (nLaneLd h).2
theorem ldCmN16 (f : LaneLd) : Statement (.ldCmN16 f) := fun h => by refine of_one_l (op := 146) rfl rfl rfl rfl ?_; exact laneLd_rt h (nLaneLd h).1 (nLaneLd h).2
theorem ldCmI16 (f : LaneLd) : Statement (.ldCmI16 f) := fun h => by refine of_one_l (op := 147) rfl rfl rfl rfl ?_; exact laneLd_rt h (nLaneLd h).1 (nLaneLd h).2
theorem ldCmB32 (f : LaneLd) : Statement (.ldCmB32 f) := fun h => by refine of_one_l (op := 148) rfl rfl rfl rfl ?_; exact laneLd_rt h (nLaneLd h).1 (nLaneLd h).2
theorem ldCmB64 (f : LaneLd) : Statement (.ldCmB64 f) := fun h => by refine of_one_l (op := 149) rfl rfl rfl rfl ?_; exact laneLd_rt h (nLaneLd h).1 (nLaneLd h).2
theorem ldCmQual (f : LaneLd) (q : Qual) : Statement (.ldCmQual f q) := fun h => by refine of_two_l (op := 150) rfl rfl rfl rfl ?_; exact laneLdQ_rt h (nLaneLdQ h).1 (nLaneLdQ h).2
theorem stCmB8 (f : LaneSt) : Statement (.stCmB8 f) := fun h => by refine of_one_l (op := 151) rfl rfl rfl rfl ?_; exact laneSt_rt h (nLaneSt h).1 (nLaneSt h).2.1 (nLaneSt h).2.2
theorem stCmB16 (f : LaneSt) : Statement (.stCmB16 f) := fun h => by refine of_one_l (op := 152) rfl rfl rfl rfl ?_; exact laneSt_rt h (nLaneSt h).1 (nLaneSt h).2.1 (nLaneSt h).2.2
theorem stCmB32 (f : LaneSt) : Statement (.stCmB32 f) := fun h => by refine of_one_l (op := 153) rfl rfl rfl rfl ?_; exact laneSt_rt h (nLaneSt h).1 (nLaneSt h).2.1 (nLaneSt h).2.2
theorem stCmB64 (f : LaneSt) : Statement (.stCmB64 f) := fun h => by refine of_one_l (op := 154) rfl rfl rfl rfl ?_; exact laneSt_rt h (nLaneSt h).1 (nLaneSt h).2.1 (nLaneSt h).2.2
theorem stCmQual (f : LaneSt) (q : Qual) : Statement (.stCmQual f q) := fun h => by refine of_two_l (op := 155) rfl rfl rfl rfl ?_; exact laneStQ_rt h (nLaneStQ h).1 (nLaneStQ h).2.1 (nLaneStQ h).2.2
theorem atom (f : LaneLd) (op : AtomOp) (q : AtomQ) : Statement (.atom f op q) := fun h => by refine of_two_l (op := 156) rfl rfl rfl rfl ?_; exact atom_rt h (nAtom (and2 h).1).1 (nAtom (and2 h).1).2
theorem atomCas (f : LaneLd) (q : AtomQ) : Statement (.atomCas f q) := fun h => by refine of_two_l (op := 157) rfl rfl rfl rfl ?_; exact atomCas_rt h (nAtom h).1 (nAtom h).2
theorem fence (k : FenceKind) (sc : Scope) : Statement (.fence k sc) := fun h => by refine of_one_l (op := 158) rfl rfl rfl rfl ?_; exact fence_rt h
theorem alloc (d : BitVec 7) (a : LSrc) (t : Bool) (p : BitVec 3) : Statement (.alloc d a t p) := fun h => by refine of_two_l (op := 159) rfl rfl rfl rfl ?_; exact alloc_rt h (named_of_ok (and2 h).2)
theorem free (a : LSrc) : Statement (.free a) := fun h => by refine of_one_l (op := 160) rfl rfl rfl rfl ?_; exact a_rt h (named_of_ok h)
theorem cpyIn (f : LaneBox) : Statement (.cpyIn f) := fun h => by refine of_two_l (op := 161) rfl rfl rfl rfl ?_; exact laneBox_rt h (nLaneBox h).1 (nLaneBox h).2
theorem cpyOut (f : LaneBox) : Statement (.cpyOut f) := fun h => by refine of_two_l (op := 162) rfl rfl rfl rfl ?_; exact laneBox_rt h (nLaneBox h).1 (nLaneBox h).2
theorem cpyG (f : LaneCpyG) : Statement (.cpyG f) := fun h => by refine of_two_l (op := 163) rfl rfl rfl rfl ?_; exact laneCpyG_rt h (nLaneCpyG h).1 (nLaneCpyG h).2.1 (nLaneCpyG h).2.2
theorem waitc (a : LSrc) (b : LSrc) (k : BitVec 28) : Statement (.waitc a b k) := fun h => by refine of_two_l (op := 164) rfl rfl rfl rfl ?_; exact litAB_rt h (named_of_ok (and3 h).1) (named_of_ok (and3 h).2.1)
theorem qfence (m : BitVec 4) : Statement (.qfence m) := fun h => by refine of_one_l (op := 165) rfl rfl rfl rfl ?_; exact qfence_rt h
theorem sclaim (u : BitVec 7) (n : BitVec 6) : Statement (.sclaim u n) := fun h => by refine of_two_l (op := 166) rfl rfl rfl rfl ?_; exact units_rt h
theorem srel (u : BitVec 7) (n : BitVec 6) : Statement (.srel u n) := fun h => by refine of_two_l (op := 167) rfl rfl rfl rfl ?_; exact units_rt h
theorem stkLd (ctr : Option (BitVec 7 × Scope)) (x : BitVec 7) (slot : BitVec 5) (tx : BitVec 8) (n : BitVec 3) : Statement (.stkLd ctr x slot tx n) := fun h => by refine of_two_l (op := 168) rfl rfl rfl rfl ?_; exact stkLd_rt h (and2 h).1
theorem mtile (f : LaneMtile) : Statement (.mtile f) := fun h => by refine of_word_l rfl rfl (cat_mtile_op _ _ _ _ _) rfl ?_; exact laneMtile_rt h h
theorem rzero (rim : BitVec 3) : Statement (.rzero rim) := fun h => by refine of_one_l (op := 170) rfl rfl rfl rfl ?_; exact rzero_rt h
theorem rimLd (f : LaneRim) : Statement (.rimLd f) := fun h => by refine of_two_l (op := 171) rfl rfl rfl rfl ?_; exact laneRim_rt h (nLaneRim h).1 (nLaneRim h).2.1 (nLaneRim h).2.2
theorem rimSt (f : LaneRim) : Statement (.rimSt f) := fun h => by refine of_two_l (op := 172) rfl rfl rfl rfl ?_; exact laneRim_rt h (nLaneRim h).1 (nLaneRim h).2.1 (nLaneRim h).2.2
theorem termrd (d : BitVec 7) (clr : Bool) (k : BitVec 3) : Statement (.termrd d clr k) := fun h => by refine of_one_l (op := 173) rfl rfl rfl rfl ?_; exact stat_rt h
theorem bra (f : Branch) : Statement (.bra f) := fun h => by refine of_word_l rfl rfl (cat_branch_op _ _ _ _) rfl ?_; exact branch_rt h
theorem brx (a : LSrc) (b : LSrc) (k : BitVec 28) : Statement (.brx a b k) := fun h => by refine of_two_l (op := 193) rfl rfl rfl rfl ?_; exact litAB_rt h (named_of_pair (and3 h).1) (named_of_ok (and3 h).2.1)
theorem switch (a : LSrc) (n : BitVec 4) : Statement (.switch a n) := fun h => by refine of_two_l (op := 194) rfl rfl rfl rfl ?_; exact switch_rt h (named_of_ok (and3 h).1)
theorem call (f : Branch) : Statement (.call f) := fun h => by refine of_word_l rfl rfl (cat_branch_op _ _ _ _) rfl ?_; exact branch_rt h
theorem ret (a : LSrc) : Statement (.ret a) := fun h => by refine of_one_l (op := 196) rfl rfl rfl rfl ?_; exact a_rt h (named_of_pair h)
theorem exit : Statement .exit := fun _ => by refine of_one_l (op := 197) rfl rfl rfl rfl ?_; exact zero_rt
theorem exitto (a : LSrc) (k : BitVec 28) : Statement (.exitto a k) := fun h => by refine of_two_l (op := 198) rfl rfl rfl rfl ?_; exact litA_rt h (named_of_ok (and2 h).1)
theorem rcb : Statement .rcb := fun _ => by refine of_one_l (op := 199) rfl rfl rfl rfl ?_; exact zero_rt
theorem bar : Statement .bar := fun _ => by refine of_one_l (op := 200) rfl rfl rfl rfl ?_; exact zero_rt
theorem join (a : LSrc) (b : LSrc) : Statement (.join a b) := fun h => by refine of_one_l (op := 201) rfl rfl rfl rfl ?_; exact ab_rt h (named_of_join (and2 h).1) (named_of_join (and2 h).2)
theorem leave : Statement .leave := fun _ => by refine of_one_l (op := 202) rfl rfl rfl rfl ?_; exact zero_rt
theorem rgnOpen : Statement .rgnOpen := fun _ => by refine of_one_l (op := 203) rfl rfl rfl rfl ?_; exact zero_rt
theorem rgnClose : Statement .rgnClose := fun _ => by refine of_one_l (op := 204) rfl rfl rfl rfl ?_; exact zero_rt
theorem scope (n : BitVec 28) : Statement (.scope n) := fun h => by refine of_two_l (op := 205) rfl rfl rfl rfl ?_; exact scope_rt h
theorem endscope : Statement .endscope := fun _ => by refine of_one_l (op := 206) rfl rfl rfl rfl ?_; exact zero_rt
theorem wpush (a : LSrc) : Statement (.wpush a) := fun h => by refine of_one_l (op := 207) rfl rfl rfl rfl ?_; exact a_rt h (named_of_ok h)
theorem wpop (d : BitVec 7) (p : BitVec 3) : Statement (.wpop d p) := fun h => by refine of_one_l (op := 208) rfl rfl rfl rfl ?_; exact wpop_rt h
theorem sleep (a : LSrc) (k : BitVec 28) : Statement (.sleep a k) := fun h => by refine of_two_l (op := 209) rfl rfl rfl rfl ?_; exact litA_rt h (named_of_ok (and2 h).1)
theorem brk : Statement .brk := fun _ => by refine of_one_l (op := 210) rfl rfl rfl rfl ?_; exact zero_rt
theorem trap (n : BitVec 16) : Statement (.trap n) := fun h => by refine of_two_l (op := 211) rfl rfl rfl rfl ?_; exact trap_rt h
theorem nop : Statement .nop := fun _ => by refine of_one_l (op := 212) rfl rfl rfl rfl ?_; exact zero_rt
theorem calle (r : BitVec 7) (off : BitVec 14) (x : Bool) (orig : BitVec 21) : Statement (.calle r off x orig) := fun h => by refine of_two_l (op := 213) rfl rfl rfl rfl ?_; exact calle_rt h
theorem calleRet (r : BitVec 7) : Statement (.calleRet r) := fun h => by refine of_two_l (op := 213) rfl rfl rfl rfl ?_; exact calleRet_rt h
theorem lmode (m : BitVec 2) : Statement (.lmode m) := fun h => by refine of_one_l (op := 214) rfl rfl rfl rfl ?_; exact lmode_rt h
theorem lstat (d : BitVec 7) (clr : Bool) (k : BitVec 3) : Statement (.lstat d clr k) := fun h => by refine of_one_l (op := 215) rfl rfl rfl rfl ?_; exact stat_rt h
theorem shuf (d : BitVec 7) (a : BitVec 7) (b : LSrc) : Statement (.shuf d a b) := fun h => by refine of_one_l (op := 216) rfl rfl rfl rfl ?_; exact shuf_rt h (named_of_ok (and3 h).2.2)
theorem vote (d : BitVec 7) (m : BitVec 2) (k : BitVec 3) : Statement (.vote d m k) := fun h => by refine of_one_l (op := 217) rfl rfl rfl rfl ?_; exact vote_rt h
theorem red (d : BitVec 7) (a : BitVec 7) (o : BitVec 4) : Statement (.red d a o) := fun h => by refine of_one_l (op := 218) rfl rfl rfl rfl ?_; exact red_rt h
theorem bcast (d : BitVec 7) (a : BitVec 7) (b : LSrc) : Statement (.bcast d a b) := fun h => by refine of_one_l (op := 219) rfl rfl rfl rfl ?_; exact shuf_rt h (named_of_ok (and3 h).2.2)
theorem movs (s : Bool) (c : Bool) (d : BitVec 7) (a : USrc) : Statement (.movs s c d a) := fun h => by refine of_one_l (op := 220) rfl rfl rfl rfl ?_; exact movs_rt h
theorem cvt (f : LaneCvt) : Statement (.cvt f) := fun h => by refine of_two_l (op := 221) rfl rfl rfl rfl ?_; exact laneCvt_rt h (nLaneCvt h)
theorem rcpF32 (f : LaneR1) : Statement (.rcpF32 f) := fun h => by refine of_one_l (op := 222) rfl rfl rfl rfl ?_; exact laneR1_rt h (nLaneR1 h)
theorem rcpF64 (f : LaneR1) : Statement (.rcpF64 f) := fun h => by refine of_one_l (op := 223) rfl rfl rfl rfl ?_; exact laneR1_rt h (nLaneR1 h)
theorem rsqF32 (f : LaneR1) : Statement (.rsqF32 f) := fun h => by refine of_one_l (op := 224) rfl rfl rfl rfl ?_; exact laneR1_rt h (nLaneR1 h)
theorem rsqF64 (f : LaneR1) : Statement (.rsqF64 f) := fun h => by refine of_one_l (op := 225) rfl rfl rfl rfl ?_; exact laneR1_rt h (nLaneR1 h)
theorem exp2F32 (f : LaneR1) : Statement (.exp2F32 f) := fun h => by refine of_one_l (op := 226) rfl rfl rfl rfl ?_; exact laneR1_rt h (nLaneR1 h)
theorem log2F32 (f : LaneR1) : Statement (.log2F32 f) := fun h => by refine of_one_l (op := 227) rfl rfl rfl rfl ?_; exact laneR1_rt h (nLaneR1 h)
theorem sinF32 (f : LaneR1) : Statement (.sinF32 f) := fun h => by refine of_one_l (op := 228) rfl rfl rfl rfl ?_; exact laneR1_rt h (nLaneR1 h)
theorem cosF32 (f : LaneR1) : Statement (.cosF32 f) := fun h => by refine of_one_l (op := 229) rfl rfl rfl rfl ?_; exact laneR1_rt h (nLaneR1 h)
theorem fminF16x2 (f : LaneR) : Statement (.fminF16x2 f) := fun h => by refine of_one_l (op := 230) rfl rfl rfl rfl ?_; exact laneR_rt h (nLaneR h).1 (nLaneR h).2
theorem fmaxF16x2 (f : LaneR) : Statement (.fmaxF16x2 f) := fun h => by refine of_one_l (op := 231) rfl rfl rfl rfl ?_; exact laneR_rt h (nLaneR h).1 (nLaneR h).2
theorem fminBf16x2 (f : LaneR) : Statement (.fminBf16x2 f) := fun h => by refine of_one_l (op := 232) rfl rfl rfl rfl ?_; exact laneR_rt h (nLaneR h).1 (nLaneR h).2
theorem fmaxBf16x2 (f : LaneR) : Statement (.fmaxBf16x2 f) := fun h => by refine of_one_l (op := 233) rfl rfl rfl rfl ?_; exact laneR_rt h (nLaneR h).1 (nLaneR h).2
theorem fcmpF16x2 (cond : Cond) (p : BitVec 3) (a : LSrc) (b : LSrc) : Statement (.fcmpF16x2 cond p a b) := fun h => by refine of_one_l (op := 234) rfl rfl rfl rfl ?_; exact fcmpX2_rt h (named_of_ok (and3 h).2.1) (named_of_ok (and3 h).2.2)
theorem fcmpBf16x2 (cond : Cond) (p : BitVec 3) (a : LSrc) (b : LSrc) : Statement (.fcmpBf16x2 cond p a b) := fun h => by refine of_one_l (op := 235) rfl rfl rfl rfl ?_; exact fcmpX2_rt h (named_of_ok (and3 h).2.1) (named_of_ok (and3 h).2.2)
theorem fclassF16x2 (f : LaneR1) : Statement (.fclassF16x2 f) := fun h => by refine of_one_l (op := 236) rfl rfl rfl rfl ?_; exact laneR1_rt h (nLaneR1 h)
theorem fclassBf16x2 (f : LaneR1) : Statement (.fclassBf16x2 f) := fun h => by refine of_one_l (op := 237) rfl rfl rfl rfl ?_; exact laneR1_rt h (nLaneR1 h)
theorem hclr (h : BitVec 3) (a : LSrc) (k : BitVec 28) : Statement (.hclr h a k) := fun h => by refine of_two_l (op := 238) rfl rfl rfl rfl ?_; exact hclr_rt h (named_of_hclr (and3 h).2.1)
theorem hfma (h : BitVec 3) (n : Bool) (a : LSrc) (b : LSrc) : Statement (.hfma h n a b) := fun h => by refine of_one_l (op := 239) rfl rfl rfl rfl ?_; exact hfma_rt h (named_of_base (and3 h).2.1) (named_of_base (and3 h).2.2)
theorem hfma3 (h : BitVec 3) (n : Bool) (a : LSrc) (b : LSrc) (vc : LSrc) (g : Guard) : Statement (.hfma3 h n a b vc g) := fun h => by refine of_two_l (op := 240) rfl rfl rfl rfl ?_; exact hfma3_rt h (named_of_base (and4 h).2.1) (named_of_base (and4 h).2.2.1) (named_of_base (and4 h).2.2.2)
theorem hadd (h : BitVec 3) (n : Bool) (a : LSrc) : Statement (.hadd h n a) := fun h => by refine of_one_l (op := 241) rfl rfl rfl rfl ?_; exact hadd_rt h (named_of_base (and2 h).2)
theorem hsgn (d : BitVec 7) (h : BitVec 3) (p : BitVec 3) : Statement (.hsgn d h p) := fun h => by refine of_one_l (op := 242) rfl rfl rfl rfl ?_; exact hsgn_rt h
theorem hrnd (d : BitVec 7) (h : BitVec 3) : Statement (.hrnd d h) := fun h => by refine of_one_l (op := 243) rfl rfl rfl rfl ?_; exact hrnd_rt h
theorem uAdd32 (f : UniR) : Statement (.uAdd32 f) := fun h => by refine of_one_u (op := 256) rfl rfl rfl rfl rfl ?_; exact uniR_rt h
theorem uSub32 (f : UniR) : Statement (.uSub32 f) := fun h => by refine of_one_u (op := 257) rfl rfl rfl rfl rfl ?_; exact uniR_rt h
theorem uMul32 (f : UniR) : Statement (.uMul32 f) := fun h => by refine of_one_u (op := 258) rfl rfl rfl rfl rfl ?_; exact uniR_rt h
theorem uMulhiN32 (f : UniR) : Statement (.uMulhiN32 f) := fun h => by refine of_one_u (op := 259) rfl rfl rfl rfl rfl ?_; exact uniR_rt h
theorem uMulhiI32 (f : UniR) : Statement (.uMulhiI32 f) := fun h => by refine of_one_u (op := 260) rfl rfl rfl rfl rfl ?_; exact uniR_rt h
theorem uIdivN32 (f : UniR) : Statement (.uIdivN32 f) := fun h => by refine of_one_u (op := 261) rfl rfl rfl rfl rfl ?_; exact uniR_rt h
theorem uIdivI32 (f : UniR) : Statement (.uIdivI32 f) := fun h => by refine of_one_u (op := 262) rfl rfl rfl rfl rfl ?_; exact uniR_rt h
theorem uRemN32 (f : UniR) : Statement (.uRemN32 f) := fun h => by refine of_one_u (op := 263) rfl rfl rfl rfl rfl ?_; exact uniR_rt h
theorem uRemI32 (f : UniR) : Statement (.uRemI32 f) := fun h => by refine of_one_u (op := 264) rfl rfl rfl rfl rfl ?_; exact uniR_rt h
theorem uAndB32 (f : UniR) : Statement (.uAndB32 f) := fun h => by refine of_one_u (op := 265) rfl rfl rfl rfl rfl ?_; exact uniR_rt h
theorem uOrB32 (f : UniR) : Statement (.uOrB32 f) := fun h => by refine of_one_u (op := 266) rfl rfl rfl rfl rfl ?_; exact uniR_rt h
theorem uXorB32 (f : UniR) : Statement (.uXorB32 f) := fun h => by refine of_one_u (op := 267) rfl rfl rfl rfl rfl ?_; exact uniR_rt h
theorem uShlB32 (f : UniR) : Statement (.uShlB32 f) := fun h => by refine of_one_u (op := 268) rfl rfl rfl rfl rfl ?_; exact uniR_rt h
theorem uShrB32 (f : UniR) : Statement (.uShrB32 f) := fun h => by refine of_one_u (op := 269) rfl rfl rfl rfl rfl ?_; exact uniR_rt h
theorem uSarB32 (f : UniR) : Statement (.uSarB32 f) := fun h => by refine of_one_u (op := 270) rfl rfl rfl rfl rfl ?_; exact uniR_rt h
theorem uMinN32 (f : UniR) : Statement (.uMinN32 f) := fun h => by refine of_one_u (op := 271) rfl rfl rfl rfl rfl ?_; exact uniR_rt h
theorem uMinI32 (f : UniR) : Statement (.uMinI32 f) := fun h => by refine of_one_u (op := 272) rfl rfl rfl rfl rfl ?_; exact uniR_rt h
theorem uMaxN32 (f : UniR) : Statement (.uMaxN32 f) := fun h => by refine of_one_u (op := 273) rfl rfl rfl rfl rfl ?_; exact uniR_rt h
theorem uMaxI32 (f : UniR) : Statement (.uMaxI32 f) := fun h => by refine of_one_u (op := 274) rfl rfl rfl rfl rfl ?_; exact uniR_rt h
theorem uAdd64 (f : UniR) : Statement (.uAdd64 f) := fun h => by refine of_one_u (op := 275) rfl rfl rfl rfl rfl ?_; exact uniR_rt h
theorem uSub64 (f : UniR) : Statement (.uSub64 f) := fun h => by refine of_one_u (op := 276) rfl rfl rfl rfl rfl ?_; exact uniR_rt h
theorem uMul64 (f : UniR) : Statement (.uMul64 f) := fun h => by refine of_one_u (op := 277) rfl rfl rfl rfl rfl ?_; exact uniR_rt h
theorem uShlB64 (f : UniR) : Statement (.uShlB64 f) := fun h => by refine of_one_u (op := 278) rfl rfl rfl rfl rfl ?_; exact uniR_rt h
theorem uShrB64 (f : UniR) : Statement (.uShrB64 f) := fun h => by refine of_one_u (op := 279) rfl rfl rfl rfl rfl ?_; exact uniR_rt h
theorem uCmpN32 (f : UniP) : Statement (.uCmpN32 f) := fun h => by refine of_one_u (op := 280) rfl rfl rfl rfl rfl ?_; exact uniP_rt h
theorem uCmpI32 (f : UniP) : Statement (.uCmpI32 f) := fun h => by refine of_one_u (op := 281) rfl rfl rfl rfl rfl ?_; exact uniP_rt h
theorem uCmpN64 (f : UniP) : Statement (.uCmpN64 f) := fun h => by refine of_one_u (op := 282) rfl rfl rfl rfl rfl ?_; exact uniP_rt h
theorem uCmpI64 (f : UniP) : Statement (.uCmpI64 f) := fun h => by refine of_one_u (op := 283) rfl rfl rfl rfl rfl ?_; exact uniP_rt h
theorem uPlog (f : UniPlog) : Statement (.uPlog f) := fun h => by refine of_one_u (op := 284) rfl rfl rfl rfl rfl ?_; exact uniPlog_rt h
theorem uMovB32 (f : UniR1) : Statement (.uMovB32 f) := fun h => by refine of_one_u (op := 285) rfl rfl rfl rfl rfl ?_; exact uniR1_rt h
theorem uMovB64 (f : UniR1) : Statement (.uMovB64 f) := fun h => by refine of_one_u (op := 286) rfl rfl rfl rfl rfl ?_; exact uniR1_rt h
theorem uPopcB32 (f : UniR1) : Statement (.uPopcB32 f) := fun h => by refine of_one_u (op := 287) rfl rfl rfl rfl rfl ?_; exact uniR1_rt h
theorem uAdd32X (f : UniX) : Statement (.uAdd32X f) := fun h => by refine of_two_u (op := 288) rfl rfl rfl rfl rfl ?_; exact uniX_rt h
theorem uSub32X (f : UniX) : Statement (.uSub32X f) := fun h => by refine of_two_u (op := 289) rfl rfl rfl rfl rfl ?_; exact uniX_rt h
theorem uMul32X (f : UniX) : Statement (.uMul32X f) := fun h => by refine of_two_u (op := 290) rfl rfl rfl rfl rfl ?_; exact uniX_rt h
theorem uAndB32X (f : UniX) : Statement (.uAndB32X f) := fun h => by refine of_two_u (op := 291) rfl rfl rfl rfl rfl ?_; exact uniX_rt h
theorem uOrB32X (f : UniX) : Statement (.uOrB32X f) := fun h => by refine of_two_u (op := 292) rfl rfl rfl rfl rfl ?_; exact uniX_rt h
theorem uXorB32X (f : UniX) : Statement (.uXorB32X f) := fun h => by refine of_two_u (op := 293) rfl rfl rfl rfl rfl ?_; exact uniX_rt h
theorem uShlB32X (f : UniX) : Statement (.uShlB32X f) := fun h => by refine of_two_u (op := 294) rfl rfl rfl rfl rfl ?_; exact uniX_rt h
theorem uShrB32X (f : UniX) : Statement (.uShrB32X f) := fun h => by refine of_two_u (op := 295) rfl rfl rfl rfl rfl ?_; exact uniX_rt h
theorem uSarB32X (f : UniX) : Statement (.uSarB32X f) := fun h => by refine of_two_u (op := 296) rfl rfl rfl rfl rfl ?_; exact uniX_rt h
theorem uMinN32X (f : UniX) : Statement (.uMinN32X f) := fun h => by refine of_two_u (op := 297) rfl rfl rfl rfl rfl ?_; exact uniX_rt h
theorem uMinI32X (f : UniX) : Statement (.uMinI32X f) := fun h => by refine of_two_u (op := 298) rfl rfl rfl rfl rfl ?_; exact uniX_rt h
theorem uMaxN32X (f : UniX) : Statement (.uMaxN32X f) := fun h => by refine of_two_u (op := 299) rfl rfl rfl rfl rfl ?_; exact uniX_rt h
theorem uMaxI32X (f : UniX) : Statement (.uMaxI32X f) := fun h => by refine of_two_u (op := 300) rfl rfl rfl rfl rfl ?_; exact uniX_rt h
theorem uAdd64X (f : UniX) : Statement (.uAdd64X f) := fun h => by refine of_two_u (op := 301) rfl rfl rfl rfl rfl ?_; exact uniX_rt h
theorem uCmpN32X (f : UniXP) : Statement (.uCmpN32X f) := fun h => by refine of_two_u (op := 302) rfl rfl rfl rfl rfl ?_; exact uniXP_rt h
theorem uCmpI32X (f : UniXP) : Statement (.uCmpI32X f) := fun h => by refine of_two_u (op := 303) rfl rfl rfl rfl rfl ?_; exact uniXP_rt h
theorem uCmpN64X (f : UniXP) : Statement (.uCmpN64X f) := fun h => by refine of_two_u (op := 304) rfl rfl rfl rfl rfl ?_; exact uniXP_rt h
theorem uCmpI64X (f : UniXP) : Statement (.uCmpI64X f) := fun h => by refine of_two_u (op := 305) rfl rfl rfl rfl rfl ?_; exact uniXP_rt h
theorem uMovB32X (f : UniX1) : Statement (.uMovB32X f) := fun h => by refine of_two_u (op := 306) rfl rfl rfl rfl rfl ?_; exact uniX1_rt h
theorem uMovB64X (f : UniX1) : Statement (.uMovB64X f) := fun h => by refine of_two_u (op := 307) rfl rfl rfl rfl rfl ?_; exact uniX1_rt h
theorem uSelB32 (f : UniSel) : Statement (.uSelB32 f) := fun h => by refine of_two_u (op := 308) rfl rfl rfl rfl rfl ?_; exact uniSel_rt h
theorem uSelB64 (f : UniSel) : Statement (.uSelB64 f) := fun h => by refine of_two_u (op := 309) rfl rfl rfl rfl rfl ?_; exact uniSel_rt h
theorem uBfeN32 (f : UniX) : Statement (.uBfeN32 f) := fun h => by refine of_two_u (op := 310) rfl rfl rfl rfl rfl ?_; exact uniX_rt h
theorem uMad32 (f : UniX3) : Statement (.uMad32 f) := fun h => by refine of_two_u (op := 311) rfl rfl rfl rfl rfl ?_; exact uniX3_rt h
theorem uFaddF32 (f : UniX) : Statement (.uFaddF32 f) := fun h => by refine of_two_u (op := 312) rfl rfl rfl rfl rfl ?_; exact uniX_rt h
theorem uFmulF32 (f : UniX) : Statement (.uFmulF32 f) := fun h => by refine of_two_u (op := 313) rfl rfl rfl rfl rfl ?_; exact uniX_rt h
theorem uFfmaF32 (f : UniX3) : Statement (.uFfmaF32 f) := fun h => by refine of_two_u (op := 314) rfl rfl rfl rfl rfl ?_; exact uniX3_rt h
theorem uFcmpF32 (f : UniXP) : Statement (.uFcmpF32 f) := fun h => by refine of_two_u (op := 315) rfl rfl rfl rfl rfl ?_; exact uniXP_rt h
theorem uFaddF64 (f : UniX) : Statement (.uFaddF64 f) := fun h => by refine of_two_u (op := 316) rfl rfl rfl rfl rfl ?_; exact uniX_rt h
theorem uFmulF64 (f : UniX) : Statement (.uFmulF64 f) := fun h => by refine of_two_u (op := 317) rfl rfl rfl rfl rfl ?_; exact uniX_rt h
theorem uFfmaF64 (f : UniX3) : Statement (.uFfmaF64 f) := fun h => by refine of_two_u (op := 318) rfl rfl rfl rfl rfl ?_; exact uniX3_rt h
theorem uCvt (f : UniCvt) : Statement (.uCvt f) := fun h => by refine of_two_u (op := 319) rfl rfl rfl rfl rfl ?_; exact uniCvt_rt h
theorem sBra (f : Branch) : Statement (.sBra f) := fun h => by refine of_word_u rfl rfl (cat_branch_op _ _ _ _) rfl rfl ?_; exact branch_rt h
theorem sBrx (a : USrc) (b : USrc) (k : BitVec 28) : Statement (.sBrx a b k) := fun h => by refine of_two_u (op := 321) rfl rfl rfl rfl rfl ?_; exact ulitAB_rt h
theorem sCall (f : Branch) : Statement (.sCall f) := fun h => by refine of_word_u rfl rfl (cat_branch_op _ _ _ _) rfl rfl ?_; exact branch_rt h
theorem sRet (a : USrc) : Statement (.sRet a) := fun h => by refine of_one_u (op := 323) rfl rfl rfl rfl rfl ?_; exact ua_rt h
theorem sExit : Statement .sExit := fun _ => by refine of_one_u (op := 324) rfl rfl rfl rfl rfl ?_; exact zero_rt
theorem dpush (a : USrc) (w : Bool) : Statement (.dpush a w) := fun h => by refine of_one_u (op := 325) rfl rfl rfl rfl rfl ?_; exact dpush_rt h
theorem dpop (d : UDst) (w : Bool) : Statement (.dpop d w) := fun h => by refine of_one_u (op := 326) rfl rfl rfl rfl rfl ?_; exact dpop_rt h
theorem bucket (d : BitVec 6) (a : BitVec 6) (n : BitVec 2) : Statement (.bucket d a n) := fun h => by refine of_two_u (op := 327) rfl rfl rfl rfl rfl ?_; exact bucket_rt h
theorem nodeput (d : UDst) (a : USrc) : Statement (.nodeput d a) := fun h => by refine of_one_u (op := 328) rfl rfl rfl rfl rfl ?_; exact nodeput_rt h
theorem waitn (d : UDst) (a : USrc) (b : USrc) (k : BitVec 28) : Statement (.waitn d a b k) := fun h => by refine of_two_u (op := 329) rfl rfl rfl rfl rfl ?_; exact waitn_rt h
theorem ckpt : Statement .ckpt := fun _ => by refine of_one_u (op := 330) rfl rfl rfl rfl rfl ?_; exact zero_rt
theorem yield : Statement .yield := fun _ => by refine of_one_u (op := 331) rfl rfl rfl rfl rfl ?_; exact zero_rt
theorem sNop : Statement .sNop := fun _ => by refine of_one_u (op := 333) rfl rfl rfl rfl rfl ?_; exact zero_rt
theorem uLdGB32 (f : UniLd) : Statement (.uLdGB32 f) := fun h => by refine of_one_u (op := 384) rfl rfl rfl rfl rfl ?_; exact uniLd_rt h
theorem uLdGB64 (f : UniLd) : Statement (.uLdGB64 f) := fun h => by refine of_one_u (op := 385) rfl rfl rfl rfl rfl ?_; exact uniLd_rt h
theorem uStGB32 (f : UniSt) : Statement (.uStGB32 f) := fun h => by refine of_one_u (op := 386) rfl rfl rfl rfl rfl ?_; exact uniSt_rt h
theorem uStGB64 (f : UniSt) : Statement (.uStGB64 f) := fun h => by refine of_one_u (op := 387) rfl rfl rfl rfl rfl ?_; exact uniSt_rt h
theorem uLdCmB32 (f : UniLd) : Statement (.uLdCmB32 f) := fun h => by refine of_one_u (op := 388) rfl rfl rfl rfl rfl ?_; exact uniLd_rt h
theorem uLdCmB64 (f : UniLd) : Statement (.uLdCmB64 f) := fun h => by refine of_one_u (op := 389) rfl rfl rfl rfl rfl ?_; exact uniLd_rt h
theorem uStCmB32 (f : UniSt) : Statement (.uStCmB32 f) := fun h => by refine of_one_u (op := 390) rfl rfl rfl rfl rfl ?_; exact uniSt_rt h
theorem uStCmB64 (f : UniSt) : Statement (.uStCmB64 f) := fun h => by refine of_one_u (op := 391) rfl rfl rfl rfl rfl ?_; exact uniSt_rt h
theorem uLdGQual (f : UniLd) (q : Qual) : Statement (.uLdGQual f q) := fun h => by refine of_two_u (op := 392) rfl rfl rfl rfl rfl ?_; exact uniLdQ_rt h
theorem uStGQual (f : UniSt) (q : Qual) : Statement (.uStGQual f q) := fun h => by refine of_two_u (op := 393) rfl rfl rfl rfl rfl ?_; exact uniStQ_rt h
theorem uLdCmQual (f : UniLd) (q : Qual) : Statement (.uLdCmQual f q) := fun h => by refine of_two_u (op := 394) rfl rfl rfl rfl rfl ?_; exact uniLdQ_rt h
theorem uStCmQual (f : UniSt) (q : Qual) : Statement (.uStCmQual f q) := fun h => by refine of_two_u (op := 395) rfl rfl rfl rfl rfl ?_; exact uniStQ_rt h
theorem uLdkB32 (f : UniLd) (k : BitVec 28) : Statement (.uLdkB32 f k) := fun h => by refine of_two_u (op := 396) rfl rfl rfl rfl rfl ?_; exact uniLdK_rt h
theorem uLdkB64 (f : UniLd) (k : BitVec 28) : Statement (.uLdkB64 f k) := fun h => by refine of_two_u (op := 397) rfl rfl rfl rfl rfl ?_; exact uniLdK_rt h
theorem uAtom (f : UniLd) (op : AtomOp) (q : AtomQ) : Statement (.uAtom f op q) := fun h => by refine of_two_u (op := 398) rfl rfl rfl rfl rfl ?_; exact uatom_rt h
theorem uFence (k : FenceKind) (sc : Scope) : Statement (.uFence k sc) := fun h => by refine of_one_u (op := 399) rfl rfl rfl rfl rfl ?_; exact fence_rt h
theorem uAlloc (d : BitVec 6) (a : USrc) (t : Bool) (p : BitVec 3) : Statement (.uAlloc d a t p) := fun h => by refine of_two_u (op := 400) rfl rfl rfl rfl rfl ?_; exact ualloc_rt h
theorem uFree (a : USrc) : Statement (.uFree a) := fun h => by refine of_one_u (op := 401) rfl rfl rfl rfl rfl ?_; exact ua_rt h
theorem uCpyIn (f : UniBox) : Statement (.uCpyIn f) := fun h => by refine of_two_u (op := 402) rfl rfl rfl rfl rfl ?_; exact uniBox_rt h
theorem uCpyOut (f : UniBox) : Statement (.uCpyOut f) := fun h => by refine of_two_u (op := 403) rfl rfl rfl rfl rfl ?_; exact uniBox_rt h
theorem uCpyG (f : UniCpyG) : Statement (.uCpyG f) := fun h => by refine of_two_u (op := 404) rfl rfl rfl rfl rfl ?_; exact uniCpyG_rt h
theorem uWaitc (a : USrc) (b : USrc) (k : BitVec 28) : Statement (.uWaitc a b k) := fun h => by refine of_two_u (op := 405) rfl rfl rfl rfl rfl ?_; exact ulitAB_rt h
theorem uQfence (m : BitVec 4) : Statement (.uQfence m) := fun h => by refine of_one_u (op := 406) rfl rfl rfl rfl rfl ?_; exact qfence_rt h
theorem rdcnt (d : BitVec 6) (a : USrc) : Statement (.rdcnt d a) := fun h => by refine of_one_u (op := 407) rfl rfl rfl rfl rfl ?_; exact rdcnt_rt h
theorem csrr (d : UDst) (n : BitVec 12) : Statement (.csrr d n) := fun h => by refine of_two_u (op := 408) rfl rfl rfl rfl rfl ?_; exact csrr_rt h
theorem csrw (b : USrc) (n : BitVec 12) : Statement (.csrw b n) := fun h => by refine of_two_u (op := 409) rfl rfl rfl rfl rfl ?_; exact csrw_rt h
theorem rft : Statement .rft := fun _ => by refine of_one_u (op := 410) rfl rfl rfl rfl rfl ?_; exact zero_rt
theorem fgetPc (d : BitVec 6) : Statement (.fgetPc d) := fun h => by refine of_two_u (op := 411) rfl rfl rfl rfl rfl ?_; exact fgetPc_rt h
theorem fgetMask (d : UDst) : Statement (.fgetMask d) := fun h => by refine of_two_u (op := 411) rfl rfl rfl rfl rfl ?_; exact fgetMask_rt h
theorem fgetPrio (d : UDst) : Statement (.fgetPrio d) := fun h => by refine of_two_u (op := 411) rfl rfl rfl rfl rfl ?_; exact fgetPrio_rt h
theorem fgetReg (d : UDst) (t : BitVec 5) (r : BitVec 7) : Statement (.fgetReg d t r) := fun h => by refine of_two_u (op := 411) rfl rfl rfl rfl rfl ?_; exact fgetReg_rt (and2 h).1 (and2 h).2
theorem fsetPc (a : USrc) : Statement (.fsetPc a) := fun h => by refine of_two_u (op := 412) rfl rfl rfl rfl rfl ?_; exact fsetPc_rt h
theorem fsetMask (a : USrc) : Statement (.fsetMask a) := fun h => by refine of_two_u (op := 412) rfl rfl rfl rfl rfl ?_; exact fsetMask_rt h
theorem fsetReg (a : USrc) (t : BitVec 5) (r : BitVec 7) : Statement (.fsetReg a t r) := fun h => by refine of_two_u (op := 412) rfl rfl rfl rfl rfl ?_; exact fsetReg_rt (and2 h).1 (and2 h).2
theorem xlinv (a : USrc) (b : USrc) (sc : Scope) : Statement (.xlinv a b sc) := fun h => by refine of_two_u (op := 413) rfl rfl rfl rfl rfl ?_; exact xlinv_rt h
theorem injsetSeed (a : USrc) : Statement (.injsetSeed a) := fun h => by refine of_two_u (op := 414) rfl rfl rfl rfl rfl ?_; exact injsetSeed_rt h
theorem injsetRate (a : USrc) : Statement (.injsetRate a) := fun h => by refine of_two_u (op := 414) rfl rfl rfl rfl rfl ?_; exact injsetRate_rt h
theorem injsetClasses (a : USrc) : Statement (.injsetClasses a) := fun h => by refine of_two_u (op := 414) rfl rfl rfl rfl rfl ?_; exact injsetClasses_rt h
theorem injsetShot (a : USrc) : Statement (.injsetShot a) := fun h => by refine of_two_u (op := 414) rfl rfl rfl rfl rfl ?_; exact injsetShot_rt h
theorem injsetArm (a : USrc) : Statement (.injsetArm a) := fun h => by refine of_two_u (op := 414) rfl rfl rfl rfl rfl ?_; exact injsetArm_rt h
theorem nodePost (vf : BitVec 8) (addr : Double) (part : BitVec 5) : Statement (.nodePost vf addr part) := fun _ _ _ e => nomatch e
theorem nodeputDone (a : Agent) : Statement (.nodeputDone a) := fun _ _ _ e => nomatch e
theorem instanceAdmit (part : Nat) : Statement (.instanceAdmit part) := fun _ _ _ e => nomatch e
theorem weaveAdmit (core : Nat) (inst : Nat) (role : Nat) : Statement (.weaveAdmit core inst role) := fun _ _ _ e => nomatch e
theorem admissionStarvation (part : Nat) : Statement (.admissionStarvation part) := fun _ _ _ e => nomatch e
theorem nodeAging (part : Nat) : Statement (.nodeAging part) := fun _ _ _ e => nomatch e
theorem balancerSample (core : Nat) : Statement (.balancerSample core) := fun _ _ _ e => nomatch e
theorem instanceYield (core : Nat) (inst : Nat) : Statement (.instanceYield core inst) := fun _ _ _ e => nomatch e
theorem instanceReadmit (part : Nat) : Statement (.instanceReadmit part) := fun _ _ _ e => nomatch e
theorem kernelNodeComplete (serial : Nat) : Statement (.kernelNodeComplete serial) := fun _ _ _ e => nomatch e
theorem tileNodeRun (part : Nat) : Statement (.tileNodeRun part) := fun _ _ _ e => nomatch e
theorem trapDelivery (core : Nat) : Statement (.trapDelivery core) := fun _ _ _ e => nomatch e
theorem poisonContainment (serial : Nat) : Statement (.poisonContainment serial) := fun _ _ _ e => nomatch e
theorem freeze (lsn : Nat) (dest : Nat) (base : Option Nat) : Statement (.freeze lsn dest base) := fun _ _ _ e => nomatch e
theorem resume (image : Nat) (vf : BitVec 8) : Statement (.resume image vf) := fun _ _ _ e => nomatch e
theorem weaveRestart (core : Nat) (slot : Nat) : Statement (.weaveRestart core slot) := fun _ _ _ e => nomatch e
theorem rcbRelease (core : Nat) (slot : Nat) : Statement (.rcbRelease core slot) := fun _ _ _ e => nomatch e
theorem sleepExpire (core : Nat) (slot : Nat) : Statement (.sleepExpire core slot) := fun _ _ _ e => nomatch e
theorem feLoadWake (core : Nat) (slot : Nat) : Statement (.feLoadWake core slot) := fun _ _ _ e => nomatch e
theorem joinGrant (core : Nat) (slot : Nat) : Statement (.joinGrant core slot) := fun _ _ _ e => nomatch e
theorem scopeGrant (core : Nat) : Statement (.scopeGrant core) := fun _ _ _ e => nomatch e
theorem sclaimGrant (core : Nat) : Statement (.sclaimGrant core) := fun _ _ _ e => nomatch e
theorem dpushAppend (core : Nat) (k : Nat) : Statement (.dpushAppend core k) := fun _ _ _ e => nomatch e
theorem dpopTake (core : Nat) (slot : Nat) : Statement (.dpopTake core slot) := fun _ _ _ e => nomatch e
theorem wpushAppend (core : Nat) (slot : Nat) : Statement (.wpushAppend core slot) := fun _ _ _ e => nomatch e
theorem wpopTake (core : Nat) (slot : Nat) : Statement (.wpopTake core slot) := fun _ _ _ e => nomatch e
theorem waitcComplete (a : Agent) : Statement (.waitcComplete a) := fun _ _ _ e => nomatch e
theorem waitnComplete (a : Agent) : Statement (.waitnComplete a) := fun _ _ _ e => nomatch e
theorem waitnLimit (a : Agent) : Statement (.waitnLimit a) := fun _ _ _ e => nomatch e
theorem yieldComplete (core : Nat) (slot : Nat) : Statement (.yieldComplete core slot) := fun _ _ _ e => nomatch e
theorem ckptRecord (core : Nat) (slot : Nat) : Statement (.ckptRecord core slot) := fun _ _ _ e => nomatch e
theorem pairedExitRelease (core : Nat) (slot : Nat) : Statement (.pairedExitRelease core slot) := fun _ _ _ e => nomatch e
theorem memoryResultArrive (a : Agent) : Statement (.memoryResultArrive a) := fun _ _ _ e => nomatch e
theorem storeQueueDrain (a : Agent) : Statement (.storeQueueDrain a) := fun _ _ _ e => nomatch e
theorem cpyInPerform (core : Nat) (q : Nat) : Statement (.cpyInPerform core q) := fun _ _ _ e => nomatch e
theorem cpyOutPerform (core : Nat) (q : Nat) : Statement (.cpyOutPerform core q) := fun _ _ _ e => nomatch e
theorem cpyGPerform (core : Nat) (q : Nat) : Statement (.cpyGPerform core q) := fun _ _ _ e => nomatch e
theorem stkLdPerform (core : Nat) : Statement (.stkLdPerform core) := fun _ _ _ e => nomatch e
theorem mtileStart (core : Nat) : Statement (.mtileStart core) := fun _ _ _ e => nomatch e
theorem mtileComplete (core : Nat) : Statement (.mtileComplete core) := fun _ _ _ e => nomatch e
theorem rzeroPerform (core : Nat) : Statement (.rzeroPerform core) := fun _ _ _ e => nomatch e
theorem rimLdPerform (core : Nat) : Statement (.rimLdPerform core) := fun _ _ _ e => nomatch e
theorem rimStPerform (core : Nat) : Statement (.rimStPerform core) := fun _ _ _ e => nomatch e
theorem srelPerform (core : Nat) : Statement (.srelPerform core) := fun _ _ _ e => nomatch e
theorem valueStoreEpochFlush (core : Nat) : Statement (.valueStoreEpochFlush core) := fun _ _ _ e => nomatch e
theorem pairCompare (core : Nat) (slot : Nat) : Statement (.pairCompare core slot) := fun _ _ _ e => nomatch e
theorem injectorFire (part : Nat) (cls : BitVec 5) (site : ErrorSite) : Statement (.injectorFire part cls site) := fun _ _ _ e => nomatch e
theorem coreErrorWindow (core : Nat) : Statement (.coreErrorWindow core) := fun _ _ _ e => nomatch e
theorem patternTestDone (core : Nat) (pass : Bool) : Statement (.patternTestDone core pass) := fun _ _ _ e => nomatch e
theorem channelRetire (part : Nat) (chan : Nat) : Statement (.channelRetire part chan) := fun _ _ _ e => nomatch e
theorem coreLend (core : Nat) (part : Nat) : Statement (.coreLend core part) := fun _ _ _ e => nomatch e
theorem revoke (core : Nat) : Statement (.revoke core) := fun _ _ _ e => nomatch e
theorem revokeFreezeTimeout (core : Nat) (inst : Nat) : Statement (.revokeFreezeTimeout core inst) := fun _ _ _ e => nomatch e
theorem coreScrub (core : Nat) : Statement (.coreScrub core) := fun _ _ _ e => nomatch e
theorem start (power : PowerOn) (stageOk : List Nat) (element : Half) : Statement (.start power stageOk element) := fun _ _ _ e => nomatch e
theorem startWatchdogExpire : Statement .startWatchdogExpire := fun _ _ _ e => nomatch e
theorem firmwareLoad (digest : BitVec 512) (sig : List Byte) : Statement (.firmwareLoad digest sig) := fun _ _ _ e => nomatch e
theorem fullStartRequest : Statement .fullStartRequest := fun _ _ _ e => nomatch e
theorem undervoltageStop : Statement .undervoltageStop := fun _ _ _ e => nomatch e
theorem thermalStep (temp : Int) : Statement (.thermalStep temp) := fun _ _ _ e => nomatch e
theorem powerCapWindow (watts : Nat) : Statement (.powerCapWindow watts) := fun _ _ _ e => nomatch e
theorem setPowerCap (watts : Nat) : Statement (.setPowerCap watts) := fun _ _ _ e => nomatch e
theorem partitionConfigWrite (part : Nat) (value : Double) : Statement (.partitionConfigWrite part value) := fun _ _ _ e => nomatch e
theorem vfRecordWrite (vf : BitVec 8) (w : VfWrite) : Statement (.vfRecordWrite vf w) := fun _ _ _ e => nomatch e
theorem vfStateWrite (vf : BitVec 8) (st : Byte) : Statement (.vfStateWrite vf st) := fun _ _ _ e => nomatch e
theorem heapWrite (vf : BitVec 8) (heap : Option Double) (heapsz : Option Word) : Statement (.heapWrite vf heap heapsz) := fun _ _ _ e => nomatch e
theorem scopePolicyWrite (vf : BitVec 8) (v : Byte) : Statement (.scopePolicyWrite vf v) := fun _ _ _ e => nomatch e
theorem mgmtRegisterWrite (vf : BitVec 8) (part : Nat) (num : BitVec 12) (value : Double) : Statement (.mgmtRegisterWrite vf part num value) := fun _ _ _ e => nomatch e
theorem counterLowRead (vf : BitVec 8) (core : Nat) (num : BitVec 12) : Statement (.counterLowRead vf core num) := fun _ _ _ e => nomatch e
theorem counterHighRead (vf : BitVec 8) : Statement (.counterHighRead vf) := fun _ _ _ e => nomatch e
theorem granuleTakeBack (granule : Nat) : Statement (.granuleTakeBack granule) := fun _ _ _ e => nomatch e
theorem backgroundScrub (granule : Nat) : Statement (.backgroundScrub granule) := fun _ _ _ e => nomatch e
theorem shootdownMessage (vf : BitVec 8) (addr : Double) (pages : Nat) (sc : Scope) : Statement (.shootdownMessage vf addr pages sc) := fun _ _ _ e => nomatch e
theorem shootdownComplete (id : Nat) : Statement (.shootdownComplete id) := fun _ _ _ e => nomatch e
theorem writeTrapAck (vf : BitVec 8) : Statement (.writeTrapAck vf) := fun _ _ _ e => nomatch e
theorem rmaWrite (vf : BitVec 8) (addr : Double) (data : List Byte) : Statement (.rmaWrite vf addr data) := fun _ _ _ e => nomatch e
theorem rmaRead (vf : BitVec 8) (addr : Double) (n : Nat) : Statement (.rmaRead vf addr n) := fun _ _ _ e => nomatch e
theorem rmaAtomic (vf : BitVec 8) (addr : Double) : Statement (.rmaAtomic vf addr) := fun _ _ _ e => nomatch e
theorem remoteAccess (dev : BitVec 8) (phys : Nat) (op : RemoteOp) : Statement (.remoteAccess dev phys op) := fun _ _ _ e => nomatch e
theorem attestationRequest (vf : Option (BitVec 8)) (nonce : BitVec 256) : Statement (.attestationRequest vf nonce) := fun _ _ _ e => nomatch e
theorem watchpointWrite (vf : BitVec 8) (k : BitVec 2) (w : Watch) : Statement (.watchpointWrite vf k w) := fun _ _ _ e => nomatch e
theorem samplingExponentWrite (vf : BitVec 8) (k : Nat) : Statement (.samplingExponentWrite vf k) := fun _ _ _ e => nomatch e
theorem traceMessageSend (part : Nat) : Statement (.traceMessageSend part) := fun _ _ _ e => nomatch e
theorem errorThresholdWrite (n : Nat) : Statement (.errorThresholdWrite n) := fun _ _ _ e => nomatch e
theorem coreBinReset (core : Nat) : Statement (.coreBinReset core) := fun _ _ _ e => nomatch e
theorem wordNotInstruction : Statement .wordNotInstruction := fun _ _ _ e => nomatch e
theorem l1Eviction (core : Nat) (line : Nat) : Statement (.l1Eviction core line) := fun _ _ _ e => nomatch e
theorem softError (site : ErrorSite) (correctable : Bool) : Statement (.softError site correctable) := fun _ _ _ e => nomatch e
theorem inputBelow40v : Statement .inputBelow40v := fun _ _ _ e => nomatch e
theorem unimplementedModePacket (port : Nat) : Statement (.unimplementedModePacket port) := fun _ _ _ e => nomatch e
theorem trustListInstall (key : List Byte) : Statement (.trustListInstall key) := fun _ _ _ e => nomatch e

end Sys2Proof.Laws.DecodeEncode
end

