-- ==== Sys2Proof/Tests/Slice0.lean ====
section
/-!
SUPPORT. Tests: the specification's own words and examples, ill-formed terms, and for each statement a state and operands that meet
its hypotheses. No test states what an obligation states.
-/

namespace Sys2Proof.Tests

open Sys2Proof Sys2Proof.Machine

set_option Elab.async false

/-! ## A small machine -/

/-- Core 0 runs one weave of 32 threads, lineage off, and its steer thread; one page of code and data is mapped one to one. -/
@[irreducible] noncomputable def m0 : State :=
  onWeave { State.reset.withFetchWord 32 0 with focus := .weave 0 0, turns := [] } 0 0 (fun w => { w with lmode := 0#2 })

def W : Agent := .weave 0 0

/-- The entry an agent issues from. -/
@[irreducible] noncomputable def en (s : State) (a : Agent) : Entry := (issuing s a).getD default

/-- Weave 0 of core 0, its results arrived. -/
@[irreducible] noncomputable def wv (s : State) : Weave := ((getWeave s 0 0).map commitWeave).getD default

/-- The machine with its weave changed. -/
noncomputable def weaved (f : Weave → Weave) : State := onWeave m0 0 0 f

noncomputable def turnB (s : State) : Bool :=
  decide (s.focus = W ∧ (issuing s W).isSome = true ∧ (getWeave s 0 0).isSome = true ∧ (en s W).mask ≠ 0#32 ∧
    (∀ x ∈ (wv s).frontier, x.mask = (en s W).mask → x.spill = none) ∧
    (held ((wv s).frontier.filter (fun x => x.mask &&& (en s W).mask == 0#32))).length < 16)

theorem laneTurn_of {s : State} (h : turnB s = true) : LaneTurn s 0 0 (en s W) (wv s) := by
  obtain ⟨a, b, c, d, e, f⟩ := of_decide_eq_true h
  refine ⟨a, ?_, ?_, d, e, f⟩
  · unfold en; cases hi : issuing s W with
    | none => rw [hi] at b; cases b
    | some x => exact hi
  · unfold wv; cases hw : getWeave s 0 0 with
    | none => rw [hw] at c; cases c
    | some x => rfl

theorem all_of {m : Mask} {P : Nat → Prop} (h : ∀ u, u < 32 → m.getLsbD u = true → P u) : ∀ u, m.getLsbD u = true → P u :=
  fun u hu => h u (Nat.lt_of_not_le (fun hl => by rw [BitVec.getLsbD_of_ge m u hl] at hu; cases hu)) hu

theorem turn_m0 : LaneTurn m0 0 0 (en m0 W) (wv m0) := laneTurn_of (by decide +kernel)

theorem plain_of {w : Weave} (h : w.pair = none ∧ w.region = none ∧ w.storeq = []) : w.Plain := ⟨h.1, h.2.1, h.2.2⟩

theorem sfind_mem {α : Type} {t : Sparse α} {i : Nat} {x : α} (h : sfind t i = some x) : (i, x) ∈ t := by
  induction t with
  | nil => simp [sfind] at h
  | cons y t ih =>
    obtain ⟨j, y⟩ := y
    simp only [sfind] at h
    split at h
    · rename_i hj; cases h; cases hj; exact List.mem_cons_self ..
    · exact List.mem_cons_of_mem _ (ih h)

def isBar (e : EntryState) : Bool := match e with | .atBar _ => true | _ => false

theorem noBar_of {s : State} {c : Nat} (h : ∀ x ∈ (getCore s c).weaves, ∀ y ∈ x.2.frontier, isBar y.state = false) : noBar s c := by
  intro j w hj x hx n hn
  have := h (j, w) (sfind_mem hj) x hx
  rw [hn] at this; cases this

noncomputable def landsB (s : State) (c vf : Nat) (pc : Double) : Bool :=
  decide (pc.toNat % 4 = 0 ∧ pc.toNat < 2 ^ 57) &&
    match (fetchWord s c vf pc.toNat false).1 with
    | .ok x => x.toNat / 2 ^ 29 != 7
    | .error _ => true

theorem lands_of {s : State} {c vf : Nat} {pc : Double} (h : landsB s c vf pc = true) : lands s c vf pc := by
  unfold landsB at h
  rw [Bool.and_eq_true, decide_eq_true_eq] at h
  refine ⟨h.1.1, h.1.2, fun x t hx => ?_⟩
  have h2 := h.2
  rw [hx] at h2
  simpa using h2

theorem pair_of {α β : Type} {x : α × β} {a : α} (h : x.1 = a) : x = (a, x.2) := by rw [← h]

/-- A result is the value `a`. -/
def gives {α : Type} [DecidableEq α] (x : Except Nat α) (a : α) : Bool := match x with | .ok b => decide (b = a) | .error _ => false

theorem ok_of {α : Type} [DecidableEq α] {x : Except Nat α} {a : α} (h : gives x a = true) : x = .ok a := by
  unfold gives at h
  cases x with
  | error _ => cases h
  | ok b => simp at h; rw [h]

theorem reads_of {s : State} {w : Weave} {m : Mask} {a : LSrc} {wide : Bool} {lit : Double} {v : Nat → Double}
    (h : (List.range 32).all (fun u => !m.getLsbD u || gives (readLSrc (laneCore s 0 0 w) w u a wide lit) (v u)) = true) :
    ∀ u, m.getLsbD u = true → readLSrc (laneCore s 0 0 w) w u a wide lit = .ok (v u) := by
  refine all_of fun u hu hm => ok_of ?_
  have := List.all_eq_true.mp h u (List.mem_range.mpr hu)
  simpa [hm] using this

noncomputable abbrev e0 : Entry := en m0 W
noncomputable abbrev w0 : Weave := wv m0

/-! ## Control -/

def toNext : Branch := { prio := 0#16, p := 0#3, pol := true, off := 2#28 }

theorem meets_LaneTransfers :
    LaneTurn m0 0 0 e0 w0 ∧ illegalHere w0 e0 4 false false [] = false ∧ illegalHere w0 e0 8 false false (lsrcRegs (.v 4#7) 2) = false ∧
      w0.fits e0 2 ∧ lands m0 0 (vfAt m0 0 0 w0) (branchTo e0 toNext) ∧
      (∀ u, e0.mask.getLsbD u = true → readLSrc (laneCore m0 0 0 w0) w0 u .lit true 0x10000#64 = .ok 0x10000#64) ∧
      lands m0 0 (vfAt m0 0 0 w0) 0x10000#64 :=
  ⟨turn_m0, by decide +kernel, by decide +kernel, by unfold Weave.fits; decide +kernel, lands_of (by decide +kernel),
    reads_of (by decide +kernel), lands_of (by decide +kernel)⟩

theorem plain_m0 : w0.Plain := plain_of (by decide +kernel)
theorem noBar_m0 : noBar m0 0 := noBar_of (by decide +kernel)

/-- A link of 0; a `sleep` of 0 and one of 1 cycle. -/
theorem meets_LaneTrapsWaits :
    LaneTurn m0 0 0 e0 w0 ∧ w0.Plain ∧ noBar m0 0 ∧ illegalHere w0 e0 4 false false (lsrcRegs (.v 14#7) 2) = false ∧
      (∀ u, e0.mask.getLsbD u = true → readLSrc (laneCore m0 0 0 w0) w0 u (.v 14#7) true 0#64 = .ok 0#64) ∧
      readLSrc (laneCore m0 0 0 w0) w0 (lowest e0.mask) .lit false (litValue .w32 0#28) = .ok 0#64 ∧
      readLSrc (laneCore m0 0 0 w0) w0 (lowest e0.mask) .lit false (litValue .w32 1#28) = .ok 1#64 :=
  ⟨turn_m0, plain_m0, noBar_m0, by decide +kernel, reads_of (by decide +kernel), ok_of (by decide +kernel), ok_of (by decide +kernel)⟩

theorem meets_DecodeEncode : ∃ w x, encode (.bra toNext) = some (w, some x) ∧ (Instr.bra toNext).wf = true := by
  refine ⟨_, _, rfl, by decide +kernel⟩

/-- A weave's turn whose words decode, and a turn that is an event. -/
@[irreducible] noncomputable def m1 : State := State.reset.withFetchWord 64 0xe000006420007f7d

theorem meets_StepRunsDecoded :
    turnOf m1 = .issue W ∧ (turnEntry (tickOf m1) W).isSome = true ∧
      (match (fetchAt (focused (tickOf m1) W) W 0x10000#64).1 with | .ok (w, x) => (decodeWords w x).isSome | _ => false) = true ∧
      turnOf { m1 with turns := [.event .fullStartRequest] } = .event .fullStartRequest ∧ isEvent .fullStartRequest = true := by
  refine ⟨?_, ?_, ?_, ?_, ?_⟩ <;> decide +kernel

theorem meets_StepKeepsMemory : m1.Inv ∧ ∃ t, step m1 = .next t := by
  refine ⟨by unfold State.Inv; decide +kernel, ?_⟩
  have h : (match step m1 with | .next _ => true | _ => false) = true := by decide +kernel
  split at h
  · exact ⟨_, ‹_›⟩
  · cases h

theorem meets_StepKeepsCaches : m1.Caches ∧ ∃ t, step m1 = .next t := by
  refine ⟨⟨fun c => ?_, fun p => ?_⟩, meets_StepKeepsMemory.2⟩
  · have h : m1.cores.all (fun e => e.2.l1 == []) = true := by decide +kernel
    have h0 : (getCore m1 c).l1 = [] := by
      unfold getCore sget
      cases hf : sfind m1.cores c with
      | none => rfl
      | some x => simpa using List.all_eq_true.mp h _ (sfind_mem hf)
    rw [h0]
    exact ⟨rfl, fun e he => by cases he⟩
  · have h : m1.parts.all (fun e => e.2.l2 == []) = true := by decide +kernel
    have h0 : (getPart m1 p).l2 = [] := by
      unfold getPart sget
      cases hf : sfind m1.parts p with
      | none => rfl
      | some x => simpa using List.all_eq_true.mp h _ (sfind_mem hf)
    rw [h0]
    exact ⟨rfl, fun e he => by cases he⟩

/-! ## Operands -/

/-- Register v1 of thread 0 and s5 poisoned, and latch 0 of the weave's lane valid. -/
@[irreducible] noncomputable def mBad : State :=
  onCore (onWeave m0 0 0 (fun w => { w with vbad := [32], sbad := [5] })) 0 (fun x => { x with lanes := [(0, { Lane.blank with valid := 1#4 })] })

noncomputable def wBad : Weave := (getWeave mBad 0 0).getD default

theorem meets_LaneSources :
    vPoisoned (getCore mBad 0) wBad 0 1 = true ∧ vPoisoned (getCore mBad 0) wBad 1 1 = false ∧ vPoisoned (getCore mBad 0) wBad 1 2 = false ∧
      (sget Lane.blank (getCore mBad 0).lanes wBad.lane).valid.getLsbD 0 = true ∧
      (sget Lane.blank (getCore mBad 0).lanes wBad.lane).valid.getLsbD 1 = false ∧
      nmem (sget Lane.blank (getCore mBad 0).lanes wBad.lane).bad 0 = false ∧
      (let bad := fun j => nmem wBad.sbad j || tagBad (getCore mBad 0) (stag wBad j);
      bad 4 = false ∧ bad 5 = true ∧ bad 6 = false ∧ bad 7 = false) := by
  refine ⟨?_, ?_, ?_, ?_, ?_, ?_, ?_⟩ <;> decide +kernel

/-! ## Lane arithmetic: every row, with operands of zero in v4, v6 and v8, to v2 -/

/-- What a statement of a lane row assumes. -/
def laneMeets {F : Type} (r : Rules.Row F) (size : Nat) (chain : Bool) (dst : LDst) (a b c : Opd) (edge : Edge) (guard : Guard) (round : Round) :
    Prop :=
  ∃ (s : State) (k n : Nat) (e : Entry) (w : Weave) (va vb vc : Nat → Double), LaneTurn s k n e w ∧
    illegalHere w e size chain true
      (opdRegs a ++ opdRegs b ++ opdRegs c ++ (match dst with | .reg d wide => [(d, if wide then 2 else 1)] | _ => [])) = false ∧
    w.unlooked e ∧
    (∀ u, acts w e guard u → readOpd (laneCore s k n w) w edge u a = .ok (va u) ∧ readOpd (laneCore s k n w) w edge u b = .ok (vb u) ∧
      readOpd (laneCore s k n w) w edge u c = .ok (vc u)) ∧
    (r.traps = true → ∀ u, acts w e guard u → fpTrap w.mode (r.fn (Rules.drawn r w round u).1 (va u) (vb u) (vc u)).2 = none)

noncomputable def laneB (size : Nat) (chain : Bool) (dst : LDst) (a b c : Opd) (edge : Edge) : Bool :=
  !illegalHere w0 e0 size chain true
      (opdRegs a ++ opdRegs b ++ opdRegs c ++ (match dst with | .reg d wide => [(d, if wide then 2 else 1)] | _ => [])) &&
    (List.range 32).all (fun u => gives (readOpd (laneCore m0 0 0 w0) w0 edge u a) 0#64 && gives (readOpd (laneCore m0 0 0 w0) w0 edge u b) 0#64 &&
      gives (readOpd (laneCore m0 0 0 w0) w0 edge u c) 0#64)

theorem unlooked_m0 : w0.unlooked e0 := Or.inl (by decide +kernel)

/-- At its start value `$mode` enables no trap (R221). -/
theorem noTrap_m0 (f : Flags) : fpTrap w0.mode f = none := by
  have h : (List.range 64).all (fun n => decide (fpTrap w0.mode (BitVec.ofNat 6 n) = none)) = true := by decide +kernel
  have := List.all_eq_true.mp h f.toNat (List.mem_range.mpr f.isLt)
  simpa using this

theorem laneMeets_of {F : Type} {r : Rules.Row F} {size : Nat} {chain : Bool} {dst : LDst} {a b c : Opd} {edge : Edge} {guard : Guard}
    {round : Round} (h : laneB size chain dst a b c edge = true) : laneMeets r size chain dst a b c edge guard round := by
  unfold laneB at h
  rw [Bool.and_eq_true, Bool.not_eq_true'] at h
  refine ⟨m0, 0, 0, e0, w0, fun _ => 0#64, fun _ => 0#64, fun _ => 0#64, turn_m0, h.1, unlooked_m0, fun u hu => ?_, fun _ u _ => noTrap_m0 _⟩
  have := List.all_eq_true.mp h.2 u (List.mem_range.mpr hu.1)
  simp only [Bool.and_eq_true] at this
  exact ⟨ok_of this.1.1, ok_of this.1.2, ok_of this.2⟩

/-- Neighbours to the left and right, at an edge of zeros, under the guard of p1. -/
def near : Modif := { na := .left, nb := .right, edge := .zero, guard := { p := 1#3, pol := true }, round := .dflt }

theorem lit0 (t : OpTy) : litValue t 0#28 = 0#64 := by cases t <;> decide

theorem meets_LaneInteger :
    (∀ r ∈ Rules.laneR, laneMeets r 4 true (.reg 2 r.td.wide) (Rules.src (.v 4#7) r.ta) (Rules.src (.v 6#7) r.tb) .none .zero Rules.all .dflt) ∧
      (∀ r ∈ Rules.laneX, laneMeets r 8 false (.reg 2 r.td.wide) (Rules.xsrc (.v 4#7) r.ta (.mod near) false)
        (Rules.xsrc (.v 6#7) r.tb (.mod near) true) .none .zero near.guard .dflt ∧
        laneMeets r 8 false (.reg 118 r.td.wide) (Rules.xsrc .zero r.ta (.lit 0#28) false) (Rules.xsrc .lit r.tb (.lit 0#28) true) .none .zero
          Rules.all .dflt) ∧
      (∀ r ∈ Rules.laneR1, laneMeets r 4 true (.reg 2 r.td.wide) (Rules.src (.v 4#7) r.ta) .none .none .zero Rules.all .dflt) ∧
      ∀ r ∈ Rules.laneX1, laneMeets r 8 true (.reg 2 r.td.wide) (Rules.xsrc .lit r.ta (.lit 0#28) false) .none .none .zero Rules.all .dflt := by
  refine ⟨fun r _ => laneMeets_of ?_, fun r _ => ⟨laneMeets_of ?_, laneMeets_of ?_⟩, fun r _ => laneMeets_of ?_, fun r _ => laneMeets_of ?_⟩ <;>
    simp only [Rules.src, Rules.xsrc, lit0] <;> generalize r.td.wide = d <;> generalize r.ta.wide = a
  · generalize r.tb.wide = b; revert d a b; decide +kernel
  · generalize r.tb.wide = b; revert d a b; decide +kernel
  · generalize r.tb.wide = b; revert d a b; decide +kernel
  · revert d a; decide +kernel
  · revert d a; decide +kernel
theorem meets_LanePackedThree :
    (∀ r ∈ Rules.lanePacked, laneMeets r 8 false (.reg 2 r.td.wide) (Rules.xsrc (.v 4#7) r.ta (.mod near) false)
        (Rules.xsrc (.v 6#7) r.tb (.mod near) true) .none .zero near.guard .dflt) ∧
      (∀ r ∈ Rules.laneX3, laneMeets r 8 true (.reg 2 r.td.wide) (.src (.v 4#7) r.ta.wide .left 0#64 0#28) (.src (.v 6#7) r.tb.wide .self 0#64 0#28)
        (.src (.v 2#7) r.td.wide .self 0#64 0#28) .zero near.guard .dflt) ∧
      laneMeets (Rules.sel Instr.selB64 .w64) 8 false (.reg 118 true) (.src (.v 4#7) true .right 0#64 0#28) (.src .zero true .self 0#64 0#28)
        (.pred 0#3) .zero Rules.all .dflt := by
  refine ⟨fun r _ => laneMeets_of ?_, fun r _ => laneMeets_of ?_, laneMeets_of (by decide +kernel)⟩ <;> (try simp only [Rules.xsrc, lit0]) <;>
    generalize r.td.wide = d <;> generalize r.ta.wide = a <;> generalize r.tb.wide = b <;> revert d a b <;> decide +kernel

theorem meets_LanePredicates :
    (∀ r ∈ Rules.laneP, ∀ c, laneMeets (r c) 4 true (.pred 3) (Rules.src (.v 4#7) (r c).ta) (Rules.src (.v 6#7) (r c).tb) .none .zero Rules.all
        .dflt) ∧
      (∀ r ∈ Rules.laneXP, ∀ c, laneMeets (r c) 8 false (.pred 7) (Rules.xsrc (.v 4#7) (r c).ta (.mod near) false)
        (Rules.xsrc (.v 6#7) (r c).tb (.mod near) true) .none .zero near.guard .dflt) ∧
      laneMeets (Rules.plog Instr.plog 8#4) 4 false (.pred 3) (.pred 1#3) (.pred 2#3) .none .zero Rules.all .dflt := by
  refine ⟨fun r _ c => laneMeets_of ?_, fun r _ c => laneMeets_of ?_, laneMeets_of (by decide +kernel)⟩ <;> generalize r c = r <;>
    simp only [Rules.src, Rules.xsrc, lit0] <;> generalize r.ta.wide = a <;> generalize r.tb.wide = b <;> revert a b <;> decide +kernel

theorem meets_LaneFloat :
    (∀ r ∈ Rules.laneFpR, laneMeets r 4 true (.reg 2 r.td.wide) (Rules.src (.v 4#7) r.ta) (Rules.src (.v 6#7) r.tb) .none .zero Rules.all .dflt) ∧
      (∀ r ∈ Rules.laneFpX, laneMeets r 8 false (.reg 2 r.td.wide) (Rules.xsrc (.v 4#7) r.ta (.mod near) false)
        (Rules.xsrc (.v 6#7) r.tb (.mod near) true) .none .zero near.guard .rs) ∧
      (∀ r ∈ Rules.laneFpX3, laneMeets r 8 true (.reg 2 r.td.wide) (.src (.v 4#7) r.ta.wide .left 0#64 0#28)
        (.src (.v 6#7) r.tb.wide .self 0#64 0#28) (.src (.v 2#7) r.td.wide .self 0#64 0#28) .zero near.guard .rz) ∧
      ∀ r ∈ Rules.laneFpR1, laneMeets r 4 true (.reg 2 r.td.wide) (Rules.src (.v 4#7) r.ta) .none .none .zero Rules.all .dflt := by
  refine ⟨fun r _ => laneMeets_of ?_, fun r _ => laneMeets_of ?_, fun r _ => laneMeets_of ?_, fun r _ => laneMeets_of ?_⟩ <;>
    (try simp only [Rules.src, Rules.xsrc, lit0]) <;> generalize r.td.wide = d <;> generalize r.ta.wide = a
  · generalize r.tb.wide = b; revert d a b; decide +kernel
  · generalize r.tb.wide = b; revert d a b; decide +kernel
  · generalize r.tb.wide = b; revert d a b; decide +kernel
  · revert d a; decide +kernel

theorem meets_LaneOrderConvert :
    (∀ r ∈ Rules.lanePick, laneMeets r 4 true (.reg 2 r.td.wide) (Rules.src (.v 4#7) r.ta) (Rules.src (.v 6#7) r.tb) .none .zero Rules.all .dflt) ∧
      (∀ r ∈ Rules.laneClass, laneMeets r 4 true (.reg 2 r.td.wide) (Rules.src (.v 4#7) r.ta) .none .none .zero Rules.all .dflt) ∧
      (∀ r ∈ Rules.laneFpP, ∀ c, laneMeets (r c) 4 true (.pred 3) (Rules.src (.v 4#7) (r c).ta) (Rules.src (.v 6#7) (r c).tb) .none .zero Rules.all
        .dflt) ∧
      (∀ r ∈ Rules.laneFpXP, ∀ c, laneMeets (r c) 8 false (.pred 7) (Rules.xsrc (.v 4#7) (r c).ta (.mod near) false)
        (Rules.xsrc (.v 6#7) (r c).tb (.mod near) true) .none .zero near.guard .dflt) ∧
      (∀ c, laneMeets (Rules.fcmp2 (fun (_ : Unit) => Instr.fcmpF16x2 c 2#3 .zero (.v 4#7)) .f16 c) 4 false (.pred2 2) (Rules.src .zero .h2)
        (Rules.src (.v 4#7) .h2) .none .zero Rules.all .dflt) ∧
      ∀ op, laneMeets (Rules.cvt Instr.cvt op) 8 false (.reg 2 (cvtTyWide op.dst)) (.src (.v 4#7) (cvtTyWide op.src) .self 0#64 0#28) .none .none
        .zero Rules.all .dflt := by
  refine ⟨fun r _ => laneMeets_of ?_, fun r _ => laneMeets_of ?_, fun r _ c => laneMeets_of ?_, fun r _ c => laneMeets_of ?_,
    fun c => laneMeets_of (by decide +kernel), fun op => laneMeets_of ?_⟩
  · simp only [Rules.src]; generalize r.td.wide = d; generalize r.ta.wide = a; generalize r.tb.wide = b; revert d a b; decide +kernel
  · simp only [Rules.src]; generalize r.td.wide = d; generalize r.ta.wide = a; revert d a; decide +kernel
  · generalize r c = r; simp only [Rules.src]; generalize r.ta.wide = a; generalize r.tb.wide = b; revert a b; decide +kernel
  · generalize r c = r; simp only [Rules.xsrc, lit0]; generalize r.ta.wide = a; generalize r.tb.wide = b; revert a b; decide +kernel
  · generalize cvtTyWide op.dst = d; generalize cvtTyWide op.src = a; revert d a; decide +kernel

theorem meets_LatchesLineage :
    (∀ r ∈ Rules.laneR, laneMeets r 4 true (.reg 2 r.td.wide) (Rules.src (.v 4#7) r.ta) (Rules.src (.v 6#7) r.tb) .none .zero Rules.all .dflt) ∧
      w0.pair = none ∧ illegalHere w0 e0 4 false false [(118, 2)] = false :=
  ⟨meets_LaneInteger.1, by decide +kernel, by decide +kernel⟩

/-! ## Uniform arithmetic, issued by a weave, a steer thread and the handler slot -/

/-- The steer thread's turn, at the same code. -/
@[irreducible] noncomputable def mS : State := { m0 with focus := .steer 0 0 }

/-- The turn of the handler slot, which serves the weave's entry. -/
@[irreducible] noncomputable def mH : State :=
  onWeave (onCore { m0 with focus := .handler 0 } 0 (fun x =>
    { x with handler := { x.handler with run := some bootDelivery, pc := BitVec.ofNat 64 bootVa } })) 0 0
    (fun w => { w with frontier := w.frontier.map (fun x => { x with state := .parked, cause := cBRK, delivering := true }) })

noncomputable def uniB (s : State) (a : Agent) : Bool :=
  decide (s.focus = a ∧ (issuing s a).isSome = true ∧ isPaired (begin s a (en s a)) a = false)

theorem issues_of {s : State} {a : Agent} (h : (issuing s a).isSome = true) : issuing s a = some (en s a) := by
  unfold en; cases hi : issuing s a with
  | none => rw [hi] at h; cases h
  | some x => rfl

theorem uniTurn_weave {s : State} (h : turnB s = true) (h2 : uniB s W = true) : UniTurn s W (en s W) := by
  obtain ⟨a, b, c⟩ := of_decide_eq_true h2
  exact ⟨a, issues_of b, fun _ _ e => by cases e; exact ⟨_, laneTurn_of h⟩, fun _ _ e => (by cases e), c⟩

theorem uniTurn_steer {s : State} (h : (getInst s 0 0).isSome = true) (h2 : uniB s (.steer 0 0) = true) :
    UniTurn s (.steer 0 0) (en s (.steer 0 0)) := by
  obtain ⟨a, b, c⟩ := of_decide_eq_true h2
  exact ⟨a, issues_of b, fun _ _ e => (by cases e), fun _ _ e => by cases e; exact Option.isSome_iff_exists.mp h, c⟩

theorem uniTurn_handler {s : State} (h2 : uniB s (.handler 0) = true) : UniTurn s (.handler 0) (en s (.handler 0)) := by
  obtain ⟨a, b, c⟩ := of_decide_eq_true h2
  exact ⟨a, issues_of b, fun _ _ e => (by cases e), fun _ _ e => (by cases e), c⟩

theorem turn_W : UniTurn m0 W e0 := uniTurn_weave (by decide +kernel) (by decide +kernel)
theorem turn_S : UniTurn mS (.steer 0 0) (en mS (.steer 0 0)) := uniTurn_steer (by decide +kernel) (by decide +kernel)
theorem turn_H : UniTurn mH (.handler 0) (en mH (.handler 0)) := uniTurn_handler (by decide +kernel)

/-- The three turns. -/
noncomputable def turns : List (State × Agent) := [(m0, W), (mS, .steer 0 0), (mH, .handler 0)]

theorem turn_of {x : State × Agent} (h : x ∈ turns) : UniTurn x.1 x.2 (en x.1 x.2) := by
  simp only [turns, List.mem_cons, List.not_mem_nil, or_false] at h
  rcases h with rfl | rfl | rfl
  · exact turn_W
  · exact turn_S
  · exact turn_H

theorem unlooked_of {x : State × Agent} (h : x ∈ turns) : ∀ k n w, x.2 = .weave k n → getWeave (begin x.1 x.2 (en x.1 x.2)) k n = some w →
    w.unlooked (en x.1 x.2) := by
  simp only [turns, List.mem_cons, List.not_mem_nil, or_false] at h
  rcases h with rfl | rfl | rfl
  · intro k n w hk hw
    cases hk
    have h : (match getWeave (begin m0 W (en m0 W)) 0 0 with | some w => decide (w.lmode = 0#2) | none => true) = true := by decide +kernel
    simp only [W] at h hw ⊢
    rw [hw] at h
    exact Or.inl (of_decide_eq_true h)
  · intro _ _ _ hk; cases hk
  · intro _ _ _ hk; cases hk

noncomputable def uniLegalB (size : Nat) (chain : Bool) (a b c : UOpd) : Bool :=
  turns.all (fun x => decide (uniCause (begin x.1 x.2 (en x.1 x.2)) x.2 (en x.1 x.2) { size := size, chain := chain, elig := true, place := .any }
      = none) && [a, b, c].all (fun o => gives (readUOpd (begin x.1 x.2 (en x.1 x.2)) x.2 o) 0#64))

/-- What a statement of a uniform row assumes, where its guard holds and where it does not. -/
def uniMeets {F : Type} (r : Rules.Row F) (size : Nat) (chain : Bool) (a b c : UOpd) (round : Round) : Prop :=
  ∀ x ∈ turns, UniTurn x.1 x.2 (en x.1 x.2) ∧
    uniCause (begin x.1 x.2 (en x.1 x.2)) x.2 (en x.1 x.2) { size := size, chain := chain, elig := true, place := .any } = none ∧
    (∀ k n w, x.2 = .weave k n → getWeave (begin x.1 x.2 (en x.1 x.2)) k n = some w → w.unlooked (en x.1 x.2)) ∧
    readUOpd (begin x.1 x.2 (en x.1 x.2)) x.2 a = .ok 0#64 ∧ readUOpd (begin x.1 x.2 (en x.1 x.2)) x.2 b = .ok 0#64 ∧
    readUOpd (begin x.1 x.2 (en x.1 x.2)) x.2 c = .ok 0#64 ∧
    let file := getFile (begin x.1 x.2 (en x.1 x.2)) x.2
    readQ file 0 = false ∧
    (∀ k n, x.2 = .weave k n → r.traps = true → fpTrap file.mode
      (r.fn (takeDraws (resolve file.mode round) r.draws (uniGen (begin x.1 x.2 (en x.1 x.2)) x.2 (en x.1 x.2))).1 0#64 0#64 0#64).2 = none)

theorem quiet_of {x : State × Agent} (h : x ∈ turns) (f : Flags) : fpTrap (getFile (begin x.1 x.2 (en x.1 x.2)) x.2).mode f = none := by
  have hm : turns.all (fun x => (List.range 64).all (fun n =>
      decide (fpTrap (getFile (begin x.1 x.2 (en x.1 x.2)) x.2).mode (BitVec.ofNat 6 n) = none))) = true := by decide +kernel
  have := List.all_eq_true.mp (List.all_eq_true.mp hm x h) f.toNat (List.mem_range.mpr f.isLt)
  simpa using this

theorem uniMeets_of {F : Type} {r : Rules.Row F} {size : Nat} {chain : Bool} {a b c : UOpd} {round : Round} (h : uniLegalB size chain a b c = true) :
    uniMeets r size chain a b c round := by
  intro x hx
  have h1 := List.all_eq_true.mp h x hx
  have hq : turns.all (fun x => !readQ (getFile (begin x.1 x.2 (en x.1 x.2)) x.2) 0) = true := by decide +kernel
  have h2 := List.all_eq_true.mp hq x hx
  simp only [Bool.and_eq_true, List.all_cons, List.all_nil, Bool.and_true, decide_eq_true_eq] at h1
  exact ⟨turn_of hx, h1.1, unlooked_of hx, ok_of h1.2.1, ok_of h1.2.2.1, ok_of h1.2.2.2, by simpa using h2, fun _ _ _ _ => quiet_of hx _⟩

theorem meets_UniformArithmetic :
    (∀ r ∈ Rules.uniR, uniMeets r 4 false (Rules.usrc (.s 4#6) r.ta) (Rules.usrc (.s 6#6) r.tb) .none .dflt) ∧
      (∀ r ∈ Rules.uniX, uniMeets r 8 false (Rules.uxsrc (.s 4#6) r.ta (.mod near)) (Rules.uxsrc .lit r.tb (.lit 0#28)) .none .dflt) ∧
      (∀ r ∈ Rules.uniX3, uniMeets r 8 false (Rules.usrc (.s 4#6) r.ta) (Rules.usrc .zero r.tb) (Rules.usrc (.s 2#6) r.td) .dflt) ∧
      (∀ r ∈ Rules.uniP, ∀ c, uniMeets (r c) 4 false (Rules.usrc (.s 4#6) (r c).ta) (Rules.usrc (.s 6#6) (r c).tb) .none .dflt) ∧
      (∀ r ∈ Rules.uniXP, ∀ c, uniMeets (r c) 8 false (Rules.uxsrc (.s 4#6) (r c).ta (.mod near)) (Rules.uxsrc .lit (r c).tb (.lit 0#28)) .none
        .dflt) ∧
      uniMeets (Rules.plog Instr.uPlog 8#4) 4 false (.pred 0#3) (.pred 1#3) .none .dflt ∧
      (∀ r ∈ Rules.uniR1, uniMeets r 4 false (Rules.usrc (.s 60#6) r.ta) .none .none .dflt) ∧
      (∀ r ∈ Rules.uniX1, uniMeets r 8 false (Rules.uxsrc .lit r.ta (.lit 0#28)) .none .none .dflt) ∧
      uniMeets (Rules.sel Instr.uSelB64 .w64) 8 false (Rules.usrc (.s 4#6) .w64) (Rules.usrc .zero .w64) (.pred 0#3) .dflt ∧
      ∀ op, uniMeets (Rules.cvt Instr.uCvt op) 8 false (.src (.s 4#6) (cvtTyWide op.src) 0#64 0#28) .none .none .rs := by
  refine ⟨fun r _ => uniMeets_of ?_, fun r _ => uniMeets_of ?_, fun r _ => uniMeets_of ?_, fun r _ c => uniMeets_of ?_, fun r _ c => uniMeets_of ?_,
    uniMeets_of (by decide +kernel), fun r _ => uniMeets_of ?_, fun r _ => uniMeets_of ?_, uniMeets_of (by decide +kernel), fun op => uniMeets_of ?_⟩
  · simp only [Rules.usrc]; generalize r.ta.wide = a; generalize r.tb.wide = b; revert a b; decide +kernel
  · simp only [Rules.uxsrc, lit0]; generalize r.ta.wide = a; generalize r.tb.wide = b; revert a b; decide +kernel
  · simp only [Rules.usrc]; generalize r.ta.wide = a; generalize r.tb.wide = b; generalize r.td.wide = d; revert a b d; decide +kernel
  · generalize r c = r; simp only [Rules.usrc]; generalize r.ta.wide = a; generalize r.tb.wide = b; revert a b; decide +kernel
  · generalize r c = r; simp only [Rules.uxsrc, lit0]; generalize r.ta.wide = a; generalize r.tb.wide = b; revert a b; decide +kernel
  · simp only [Rules.usrc]; generalize r.ta.wide = a; revert a; decide +kernel
  · simp only [Rules.uxsrc, lit0]; generalize r.ta.wide = a; revert a; decide +kernel
  · generalize cvtTyWide op.src = a; revert a; decide +kernel
/-! ## Across threads, the hoop, ends, circles, scopes, wales -/

theorem regs_of {s : State} {w : Weave} {m : Mask} {r : Nat} {wide : Bool} {v : Nat → Double}
    (h : (List.range 32).all (fun u => !m.getLsbD u || gives (readReg (laneCore s 0 0 w) w u r wide) (v u)) = true) :
    ∀ u, m.getLsbD u = true → readReg (laneCore s 0 0 w) w u r wide = .ok (v u) := by
  refine all_of fun u hu hm => ok_of ?_
  have := List.all_eq_true.mp h u (List.mem_range.mpr hu)
  simpa [hm] using this

/-- Every reduction, the 64-bit one among them. -/
theorem meets_CrossThread :
    LaneTurn m0 0 0 e0 w0 ∧ illegalHere w0 e0 4 false false [(2, 2), (4, 2), (6, 1)] = false ∧
      (∀ u, e0.mask.getLsbD u = true → readLSrc (laneCore m0 0 0 w0) w0 u .tid false 0#64 = .ok (BitVec.ofNat 64 u)) ∧
      (∀ u, e0.mask.getLsbD u = true → readReg (laneCore m0 0 0 w0) w0 u 4 true = .ok 0#64) ∧
      (∀ u, e0.mask.getLsbD u = true → readReg (laneCore m0 0 0 w0) w0 u 4 false = .ok 0#64) ∧
      ∀ f : Flags, fpTrap w0.mode f = none :=
  ⟨turn_m0, by decide +kernel, reads_of (by decide +kernel), regs_of (by decide +kernel), regs_of (by decide +kernel), noTrap_m0⟩

theorem some_of {α : Type} {x : Option α} (h : x.isSome = true) (d : α) : x = some (x.getD d) := by
  cases x with
  | none => cases h
  | some _ => rfl

noncomputable def i0 (s : State) : Inst := (getInst s 0 0).getD default
noncomputable def l0 (s : State) : Launch := (getLaunch s 1).getD default

theorem meets_UniformSources :
    getWeave m0 0 0 = some ((getWeave m0 0 0).getD default) ∧ getInst m0 0 ((getWeave m0 0 0).getD default).inst = some (i0 m0) ∧
      getLaunch m0 (i0 m0).serial = some (l0 m0) ∧ w0.sbad = [] ∧ w0.stags = [] ∧ LaneTurn m0 0 0 e0 w0 ∧ w0.unlooked e0 ∧ w0.pair = none ∧
      illegalHere w0 e0 4 true true [(119, 1)] = false ∧ readUSrc (laneState m0 0 0 w0) W (.s 63#6) false 0#64 = .ok 0#64 :=
  ⟨some_of (by decide +kernel) _, by rw [show ((getWeave m0 0 0).getD default).inst = 0 by decide +kernel]; exact some_of (by decide +kernel) _,
    by rw [show (i0 m0).serial = 1 by decide +kernel]; exact some_of (by decide +kernel) _, by decide +kernel, by decide +kernel, turn_m0, unlooked_m0,
    by decide +kernel, by decide +kernel, ok_of (by decide +kernel)⟩

/-- The last hoop, with the bases at both ends of their range. -/
theorem meets_HoopForms :
    LaneTurn m0 0 0 e0 w0 ∧ illegalHere w0 e0 8 false false ((96, 16) :: (lsrcRegs (.v 4#7) 2 ++ lsrcRegs (.v 6#7) 2)) = false ∧
      illegalHere w0 e0 4 false false [(118, 2), (96, 16)] = false ∧
      (∀ u, e0.mask.getLsbD u = true → ∀ r, r < 16 → vPoisoned (laneCore m0 0 0 w0) w0 u (96 + r) = false) ∧
      (∀ u, e0.mask.getLsbD u = true → readLSrc (laneCore m0 0 0 w0) w0 u (.v 4#7) true 0#64 = .ok 0#64) ∧
      (∀ n : BitVec 28, n.toInt = -32768 ∨ n.toInt = 32767 → ∀ u,
        readLSrc (laneCore m0 0 0 w0) w0 u .lit false (litValue .w32 n) = .ok (litValue .w32 n)) ∧
      ((litValue .w32 (BitVec.ofInt 28 (-32768))).setWidth 32 : Word).toInt = -32768 ∧ ∀ f : Flags, fpTrap w0.mode f = none := by
  refine ⟨turn_m0, by decide +kernel, by decide +kernel, all_of ?_, reads_of (by decide +kernel), fun n _ u => rfl, by decide, noTrap_m0⟩
  decide +kernel

/-- Two entries of 16 threads. -/
@[irreducible] noncomputable def mSplit : State :=
  onWeave m0 0 0 (fun w => { w with frontier := [entryAt 0x10000#64 0#16 0xffff#32 .ready, entryAt 0x10008#64 0#16 0xffff0000#32 .ready] })

/-- A launch of two roles, with wales of one record, successor entries, buckets and a pool. -/
@[irreducible] noncomputable def mR : State :=
  onInst (onLaunch m0 1 (fun l => { l with header := { l.header with
    wdepth := [1, 1, 1], pool := 64,
    roles := [{ pc := 0x10000#64, allot := 120, scopeMax := 8, min := 1, max := 1, region := 65536 },
              { pc := 0x10000#64, allot := 120, scopeMax := 8, min := 1, max := 1, region := 65536 }],
    succents := [{ pc := 0x10008#64, role := 0, allot := 16, kept := 8 }],
    buckets := [{ ranges := [(0, 4), (0, 4), (0, 4)], bounds := [8#32, 8#32, 8#32] }] } })) 0 0 (fun i => { i with poolSize := 64 })

/-- It with its weave changed. -/
@[irreducible] noncomputable def mW (f : Weave → Weave) : State := onWeave mR 0 0 f

theorem meets_ThreadEnds :
    (LaneTurn m0 0 0 e0 w0 ∧ w0.Plain ∧ noBar m0 0 ∧ illegalHere w0 e0 4 false false [] = false ∧
      (∀ x ∈ w0.frontier, x.mask &&& e0.mask ≠ 0#32) ∧ w0.restart = none) ∧
    (LaneTurn mSplit 0 0 (en mSplit W) (wv mSplit) ∧ (wv mSplit).Plain ∧ noBar mSplit 0 ∧
      illegalHere (wv mSplit) (en mSplit W) 4 false false [] = false ∧ ∃ x ∈ (wv mSplit).frontier, x.mask &&& (en mSplit W).mask = 0#32) ∧
    LaneTurn mR 0 0 (en mR W) (wv mR) ∧ (wv mR).Plain ∧ noBar mR 0 ∧ illegalHere (wv mR) (en mR W) 8 false false (lsrcRegs .lit 1) = false ∧
      agentLaunch (laneState mR 0 0 (wv mR)) W = some (l0 mR) ∧ 0 < (l0 mR).header.succents.length ∧
      ∀ u, (en mR W).mask.getLsbD u = true → readLSrc (laneCore mR 0 0 (wv mR)) (wv mR) u .lit false (litValue .w32 0#28) = .ok (BitVec.ofNat 64 0) := by
  refine ⟨⟨turn_m0, plain_m0, noBar_m0, by decide +kernel, by decide +kernel, by decide +kernel⟩,
    ⟨laneTurn_of (by decide +kernel), plain_of (by decide +kernel), noBar_of (by decide +kernel), by decide +kernel, by decide +kernel⟩,
    laneTurn_of (by decide +kernel), plain_of (by decide +kernel), noBar_of (by decide +kernel), by decide +kernel, ?_, by decide +kernel,
    reads_of (by decide +kernel)⟩
  have : (agentLaunch (laneState mR 0 0 (wv mR)) W) = getLaunch mR 1 := by decide +kernel
  rw [this]; exact some_of (by decide +kernel) _

theorem inst_of {s : State} {w : Weave} (h : w.inst = 0 ∧ (getInst s 0 0).isSome = true) : getInst s 0 w.inst = some (i0 s) := by
  rw [h.1]; exact some_of h.2 _

theorem launch_of {s : State} {i : Inst} (h : i.serial = 1 ∧ (getLaunch s 1).isSome = true) : getLaunch s i.serial = some (l0 s) := by
  rw [h.1]; exact some_of h.2 _

/-- Weave 0 has arrived at a barrier of its circle, or another of its entries has not. -/
theorem meets_BarriersCircles :
    (LaneTurn m0 0 0 e0 w0 ∧ w0.Plain ∧ illegalHere w0 e0 4 false false [] = false ∧ getInst m0 0 w0.inst = some (i0 m0) ∧
      (∃ z, (i0 m0).circles.find? (fun y => y.id == w0.circles.headD 0) = some z ∧ z.members = [0]) ∧
      ∀ x, getWeave m0 0 0 = some x → ∀ y ∈ x.frontier, y.mask &&& e0.mask ≠ 0#32) ∧
    (LaneTurn mSplit 0 0 (en mSplit W) (wv mSplit) ∧ (wv mSplit).Plain ∧
      ∃ x, getWeave mSplit 0 0 = some x ∧ ∃ y ∈ x.frontier, y.mask &&& (en mSplit W).mask = 0#32 ∧ y.state = .ready) ∧
    (LaneTurn mR 0 0 (en mR W) (wv mR) ∧ (wv mR).Plain ∧ noBar mR 0 ∧ getInst mR 0 (wv mR).inst = some (i0 mR) ∧
      readLSrc (laneCore mR 0 0 (wv mR)) (wv mR) (lowest (en mR W).mask) .zero false 0#64 = .ok 0#64 ∧
      (wv mR).circles.length < 4 ∧ (i0 mR).circles.find? (fun y => y.role.isNone && y.tag == 0) = none ∧
      (((i0 mR).circles.filter (fun y => y.role.isNone)).map (fun y => y.size)).sum + 64 ≤ (i0 mR).poolSize ∧
      (i0 mR).poolSize < (((i0 mR).circles.filter (fun y => y.role.isNone)).map (fun y => y.size)).sum + 80 ∧
      ∀ y ∈ (i0 mR).circles, y.id < (i0 mR).nextCircle) ∧
    (let s := mW (fun w => { w with circles := [1, 0] });
    LaneTurn s 0 0 (en s W) (wv s) ∧ (wv s).Plain ∧ noBar s 0 ∧ (wv s).circles = [1, 0]) ∧
    noBar m0 0 ∧ w0.circles.length = 1 := by
  refine ⟨⟨turn_m0, plain_m0, by decide +kernel, inst_of (by decide +kernel), ?_, ?_⟩, ⟨laneTurn_of (by decide +kernel), plain_of (by decide +kernel), ?_⟩,
    ⟨laneTurn_of (by decide +kernel), plain_of (by decide +kernel), noBar_of (by decide +kernel), inst_of (by decide +kernel), ok_of (by decide +kernel),
      by decide +kernel, by decide +kernel, by decide +kernel, by decide +kernel, by decide +kernel⟩,
    ⟨laneTurn_of (by decide +kernel), plain_of (by decide +kernel), noBar_of (by decide +kernel), by decide +kernel⟩,
    noBar_of (by decide +kernel), by decide +kernel⟩
  · exact ⟨((i0 m0).circles.find? (fun y => y.id == w0.circles.headD 0)).getD default, some_of (by decide +kernel) _, by decide +kernel⟩
  · have h : (match getWeave m0 0 0 with | some x => x.frontier.all (fun y => y.mask &&& e0.mask != 0#32) | none => true) = true := by decide +kernel
    intro x hx y hy
    rw [hx] at h
    simpa using List.all_eq_true.mp h y hy
  · exact ⟨(getWeave mSplit 0 0).getD default, some_of (by decide +kernel) _, by decide +kernel⟩

/-- Scopes that fill the core's registers and that pass them by 1; a wale with room, full, empty, and ended. -/
theorem meets_RegionsScopesWales :
    (LaneTurn mR 0 0 (en mR W) (wv mR) ∧ (wv mR).Plain ∧ getInst mR 0 (wv mR).inst = some (i0 mR) ∧ getLaunch mR (i0 mR).serial = some (l0 mR) ∧
      ((l0 mR).header.roles[(wv mR).role]?).map (fun r => r.scopeMax) = some 8 ∧ (wv mR).scopes = [] ∧
      illegalHere (wv mR) (en mR W) 8 false false [] = false ∧
      (∀ x ∈ (laneCore mR 0 0 (wv mR)).weaves, x.1 ≠ 0 → growOf (laneState mR 0 0 (wv mR)) (laneCore mR 0 0 (wv mR)) x.2 = none) ∧
      ((laneCore mR 0 0 (wv mR)).weaves.map (fun x => x.2.allot)).sum + 8 ≤ 8192 ∧
      (wv mR).role + 1 < (l0 mR).header.roles.length ∧ ((i0 mR).wales.getD (wv mR).role []).length < (l0 mR).header.wdepth.getD (wv mR).role 0 ∧
      stageWaits (laneCore mR 0 0 (wv mR)) (wv mR).inst (wv mR).role isWpush = []) ∧
    (let s := mW (fun w => { w with allot := 8185, scopes := [8] });
      LaneTurn s 0 0 (en s W) (wv s) ∧ (wv s).Plain ∧ 8192 < ((laneCore s 0 0 (wv s)).weaves.map (fun x => x.2.allot)).sum + 8 ∧
      (wv s).scopes = [8] ∧ 8 ≤ (wv s).allot) ∧
    let s := mW (fun w => { w with role := 1 });
    LaneTurn s 0 0 (en s W) (wv s) ∧ (wv s).Plain ∧ (wv s).role ≠ 0 ∧ (i0 s).wales.getD ((wv s).role - 1) [] = [] ∧
      stageCount (laneCore s 0 0 (wv s)) (wv s).inst ((wv s).role - 1) = 0 ∧
      stageWaits (laneCore s 0 0 (wv s)) (wv s).inst (wv s).role isWpop = []  ∧ noBar mR 0 := by
  refine ⟨⟨laneTurn_of (by decide +kernel), plain_of (by decide +kernel), inst_of (by decide +kernel), launch_of (by decide +kernel), ?_, ?_, ?_, ?_, ?_, ?_,
    ?_, ?_⟩, ⟨laneTurn_of (by decide +kernel), plain_of (by decide +kernel), ?_, ?_, ?_⟩,
    laneTurn_of (by decide +kernel), plain_of (by decide +kernel), ?_, ?_, ?_, ?_, noBar_of (by decide +kernel)⟩ <;> decide +kernel
/-! ## Memory -/

/-- The page may be written, and v4.d holds an address of 8 bytes of its own for each thread. -/
@[irreducible] noncomputable def mM : State :=
  onWeave (onVf (writeMem mR (memKey mR.device 0x3000) (bytesLE 8 0xcf00000000000000)) 0 (fun v => { v with scope := 2#8 })) 0 0 (fun w =>
    (List.range 32).foldl (fun w u => writeV w u 4 (BitVec.ofNat 32 (0x20400 + 8 * u))) w)

noncomputable abbrev eM : Entry := en mM W
noncomputable abbrev wM : Weave := wv mM
noncomputable abbrev sM : State := laneState mM 0 0 wM

/-- The address of thread u. -/
def at_ (u : Nat) : Double := BitVec.ofNat 64 (0x20400 + 8 * u)

/-- The page. -/
def leafM : Leaf :=
  { vf := 0, va := 0, size := 30, state := .priv, r := true, w := true, x := false, h := false, p := false, home := 0, frame := 0 }

theorem turn_M : LaneTurn mM 0 0 eM wM := laneTurn_of (by decide +kernel)
theorem plain_M : wM.Plain := plain_of (by decide +kernel)
theorem noBar_M : noBar mM 0 := noBar_of (by decide +kernel)

noncomputable def reachB (s : State) (a : Agent) (va n : Nat) (acc : Acc) (l : Leaf) : Bool :=
  decide (va % n = 0 ∧ va < 2 ^ 57 ∧ (getCore s (coreOf a)).tlb = [] ∧ (getPart s (partOf (coreOf a))).tlb2 = [] ∧
    pageCause l acc (isHandler a) = none ∧ inSpill s a va n = false ∧ watched (getVf s (agentVf s a)) acc va n = false) &&
    gives (walk s (agentVf s a) va) l

theorem reaches_of {s : State} {a : Agent} {va n : Nat} {acc : Acc} {l : Leaf} (h : reachB s a va n acc l = true) : Reaches s a va n acc l := by
  unfold reachB at h
  rw [Bool.and_eq_true, decide_eq_true_eq] at h
  obtain ⟨⟨h1, h2, h3, h4, h5, h6, h7⟩, h8⟩ := h
  refine ⟨h1, h2, ok_of h8, ?_, h5, fun _ => ⟨h6, h7⟩⟩
  intro y hy
  rw [h3, h4] at hy
  rcases hy with hy | hy <;> cases hy

theorem sound_of {s : State} {c k : Nat} (h : ((getCore s c).l1 = [] ∧ sliceOf s c = []) ∧ memBad s (k / 64 * 64) 64 = false) : sound s c k :=
  ⟨fun l hl => (by rw [h.1.1, h.1.2] at hl; rcases hl with hl | hl <;> cases hl), h.2⟩

theorem caches_of {s : State} {c : Nat} (h : (getCore s c).l1 = [] ∧ sliceOf s c = []) : CachesOk s c := by
  unfold CachesOk linesOk
  rw [h.1, h.2]
  exact ⟨⟨rfl, fun e he => (by cases he)⟩, ⟨rfl, fun e he => (by cases he)⟩⟩

theorem all_reach {s : State} {a : Agent} {m : Mask} {va key : Nat → Nat} {n : Nat} {acc : Acc} {l : Leaf}
    (h : (List.range 32).all (fun u => !m.getLsbD u || (reachB s a (va u) n acc l && decide (((getCore s 0).l1 = [] ∧ sliceOf s 0 = []) ∧
      memBad s (key u / 64 * 64) 64 = false))) = true) :
    ∀ u, m.getLsbD u = true → Reaches s a (va u) n acc l ∧ sound s 0 (key u) := by
  refine all_of fun u hu hm => ?_
  have := List.all_eq_true.mp h u (List.mem_range.mpr hu)
  simp only [hm, Bool.not_true, Bool.false_or, Bool.and_eq_true, decide_eq_true_eq] at this
  exact ⟨reaches_of this.1, sound_of this.2⟩

theorem agree_const (s : State) (a : Agent) (m : Mask) (va : Nat → Nat) (l : Leaf) : agree s a m va (fun _ => l) := fun _ _ _ _ _ => rfl

theorem meets_LaneLoads :
    LaneTurn mM 0 0 eM wM ∧ wM.Plain ∧ illegalHere wM eM 8 false false ([(118, 2)] ++ lsrcRegs (.v 4#7) 2 ++ lsrcRegs .zero 1) = false ∧
      (∀ u, eM.mask.getLsbD u = true → readLSrc (laneCore mM 0 0 wM) wM u (.v 4#7) true 0#64 = .ok (at_ u)) ∧
      (∀ u, eM.mask.getLsbD u = true → readLSrc (laneCore mM 0 0 wM) wM u .zero false 0#64 = .ok 0#64) ∧
      agree sM W eM.mask (fun u => (offsetBy (at_ u) 0#64).toNat) (fun _ => leafM) ∧ CachesOk mM 0 ∧ scopeDenied sM W .pt = false ∧
      ∀ u, eM.mask.getLsbD u = true → Reaches sM W (offsetBy (at_ u) 0#64).toNat 8 .load leafM ∧
        sound sM 0 (leafKey sM leafM (offsetBy (at_ u) 0#64).toNat) :=
  ⟨turn_M, plain_M, by decide +kernel, reads_of (by decide +kernel), reads_of (by decide +kernel), agree_const _ _ _ _ _, caches_of (by decide +kernel),
    by decide +kernel, all_reach (by decide +kernel)⟩

/-- Every granule of the first 32 words of the circle is full, or none is. -/
theorem meets_CircleLoads :
    LaneTurn m0 0 0 e0 w0 ∧ w0.Plain ∧ illegalHere w0 e0 8 false false ([(118, 2)] ++ lsrcRegs (.v 4#7) 1 ++ lsrcRegs .tid 1) = false ∧
      (∃ z, circleWindow (laneState m0 0 0 w0) W = some z ∧ z.size = 65536 ∧ feWaiting (laneCore m0 0 0 w0) = [] ∧
        (∀ u, e0.mask.getLsbD u = true → readLSrc (laneCore m0 0 0 w0) w0 u .zero false 0#64 = .ok 0#64) ∧
        (∀ u, u < 32 → circleBad (laneCore m0 0 0 w0) (z.base + 0) 8 = false) ∧ nmem (laneCore m0 0 0 w0).full (z.base / 16) = false) ∧
      CachesOk m0 0 ∧ scopeDenied (laneState m0 0 0 w0) W .cl = false ∧
      ∃ s z, LaneTurn s 0 0 (en s W) (wv s) ∧ circleWindow (laneState s 0 0 (wv s)) W = some z ∧ nmem (laneCore s 0 0 (wv s)).full (z.base / 16) = true := by
  refine ⟨turn_m0, plain_m0, by decide +kernel, ⟨(circleWindow (laneState m0 0 0 w0) W).getD default, some_of (by decide +kernel) _, by decide +kernel,
    by decide +kernel, reads_of (by decide +kernel), fun _ _ => (by decide +kernel), by decide +kernel⟩, caches_of (by decide +kernel), by decide +kernel,
    onCore m0 0 (fun x => { x with full := [((circleWindow (laneState m0 0 0 w0) W).getD default).base / 16] }), _, laneTurn_of (by decide +kernel),
    some_of (by decide +kernel) default, by decide +kernel⟩

/-- A queue with room for one store, a full one, and an open region with room for one store of every thread. -/
theorem meets_LaneStores :
    LaneTurn mM 0 0 eM wM ∧ wM.pair = none ∧ wM.region = none ∧ wM.storeq.length < 64 ∧
      illegalHere wM eM 8 false false (lsrcRegs (.v 6#7) 2 ++ lsrcRegs (.v 4#7) 2 ++ lsrcRegs .zero 1) = false ∧
      (∀ u, eM.mask.getLsbD u = true → readLSrc (laneCore mM 0 0 wM) wM u (.v 6#7) true 0#64 = .ok 0#64) ∧
      (∀ u, eM.mask.getLsbD u = true → Reaches sM W (offsetBy (at_ u) 0#64).toNat 8 .store leafM ∧ sound sM 0 0) ∧
      agree sM W eM.mask (fun u => (offsetBy (at_ u) 0#64).toNat) (fun _ => leafM) ∧ scopeDenied sM W .tn = false ∧
      (∃ z, circleWindow sM W = some z ∧ ∀ u, u < 32 → (at_ u + 0#64).toNat % 2 ^ 32 % 8 = 0) ∧
      (let s := mW (fun w => { w with storeq := List.replicate 64 default });
        LaneTurn s 0 0 (en s W) (wv s) ∧ 64 ≤ (wv s).storeq.length) ∧
      let s := mW (fun w => { w with region := some { pc := 0#64, prio := 0#16, mask := 1#32, stores := List.replicate 7 { (default : StoreReq) with mask := 0xffffffff#32 } } });
      LaneTurn s 0 0 (en s W) (wv s) ∧ ∃ g, (wv s).region = some g ∧ regionCount g + countOf (en s W).mask ≤ 256 := by
  refine ⟨turn_M, by decide +kernel, by decide +kernel, by decide +kernel, by decide +kernel, reads_of (by decide +kernel), all_reach (by decide +kernel),
    agree_const _ _ _ _ _, by decide +kernel, ⟨(circleWindow sM W).getD default, some_of (by decide +kernel) _, by decide +kernel⟩,
    ⟨laneTurn_of (by decide +kernel), by decide +kernel⟩, laneTurn_of (by decide +kernel), _, some_of (by decide +kernel) default, by decide +kernel⟩
/-! ## Uniform control and the handler slot -/

/-- The steer thread's turn and the handler slot's, with the launch of two roles. -/
@[irreducible] noncomputable def mRS : State := { mR with focus := .steer 0 0 }

noncomputable abbrev eS : Entry := en mRS (.steer 0 0)
noncomputable abbrev sS : State := begin mRS (.steer 0 0) eS

theorem turn_RS : UniTurn mRS (.steer 0 0) eS := uniTurn_steer (by decide +kernel) (by decide +kernel)

noncomputable def landsForB (s : State) (a : Agent) (pc : Double) : Bool :=
  decide (pc.toNat % 4 = 0 ∧ pc.toNat < 2 ^ 57) &&
    match (fetchWord s (coreOf a) (agentVf s a) pc.toNat (isHandler a)).1 with
    | .ok x => x.toNat / 2 ^ 29 != 7
    | .error _ => true

theorem landsFor_of {s : State} {a : Agent} {pc : Double} (h : landsForB s a pc = true) : landsFor s a pc := by
  unfold landsForB at h
  rw [Bool.and_eq_true, decide_eq_true_eq] at h
  refine ⟨h.1.1, h.1.2, fun x t hx => ?_⟩
  have h2 := h.2
  rw [hx] at h2
  simpa using h2

theorem soleMask_of {x : State × Agent} (h : x ∈ turns) : soleMask x.2 (en x.1 x.2) := by
  simp only [turns, List.mem_cons, List.not_mem_nil, or_false] at h
  rcases h with rfl | rfl | rfl
  · intro c k h; cases h
  · intro c k h; decide +kernel
  · intro c k h; cases h

/-- One turn of each agent; a queue of decisions with one, with none, and ended. -/
theorem meets_UniformTransfers :
    (∀ x ∈ turns, UniTurn x.1 x.2 (en x.1 x.2) ∧ soleMask x.2 (en x.1 x.2) ∧ uniOk (begin x.1 x.2 (en x.1 x.2)) x.2 (en x.1 x.2) 4 .any ∧
      uniOk (begin x.1 x.2 (en x.1 x.2)) x.2 (en x.1 x.2) 8 .any ∧ landsFor (begin x.1 x.2 (en x.1 x.2)) x.2 (branchTo (en x.1 x.2) toNext) ∧
      readUSrc (begin x.1 x.2 (en x.1 x.2)) x.2 .lit true 0x10000#64 = .ok 0x10000#64 ∧ landsFor (begin x.1 x.2 (en x.1 x.2)) x.2 0x10000#64) ∧
    (LaneTurn mR 0 0 (en mR W) (wv mR) ∧ (wv mR).Plain ∧ getInst mR 0 (wv mR).inst = some (i0 mR) ∧ uniOk (begin mR W (en mR W)) W (en mR W) 4 .weave ∧
      instWaits (getCore (begin mR W (en mR W)) 0) (wv mR).inst isDpop = [] ∧ (i0 mR).decisions = [] ∧ (i0 mR).steer.entry ≠ none) ∧
    (let s := onInst mR 0 0 (fun i => { i with decisions := [5#64] });
      LaneTurn s 0 0 (en s W) (wv s) ∧ (wv s).Plain ∧ (i0 s).decisions = 5#64 :: []) ∧
    let s := onInst mR 0 0 (fun i => { i with steer := { i.steer with entry := none } });
    LaneTurn s 0 0 (en s W) (wv s) ∧ (wv s).Plain ∧ (i0 s).decisions = [] ∧ (i0 s).steer.entry = none := by
  refine ⟨fun x hx => ⟨turn_of hx, soleMask_of hx, ?_⟩, ⟨laneTurn_of (by decide +kernel), plain_of (by decide +kernel), inst_of (by decide +kernel),
    by unfold uniOk; decide +kernel, by decide +kernel, by decide +kernel, by decide +kernel⟩,
    ⟨laneTurn_of (by decide +kernel), plain_of (by decide +kernel), by decide +kernel⟩,
    laneTurn_of (by decide +kernel), plain_of (by decide +kernel), by decide +kernel, by decide +kernel⟩
  have h : turns.all (fun x => decide (uniCause (begin x.1 x.2 (en x.1 x.2)) x.2 (en x.1 x.2) { size := 4, chain := false, elig := false, place := .any }
        = none ∧ uniCause (begin x.1 x.2 (en x.1 x.2)) x.2 (en x.1 x.2) { size := 8, chain := false, elig := false, place := .any } = none) &&
      landsForB (begin x.1 x.2 (en x.1 x.2)) x.2 (branchTo (en x.1 x.2) toNext) && landsForB (begin x.1 x.2 (en x.1 x.2)) x.2 0x10000#64 &&
      gives (readUSrc (begin x.1 x.2 (en x.1 x.2)) x.2 .lit true 0x10000#64) 0x10000#64) = true := by decide +kernel
  have := List.all_eq_true.mp h x hx
  simp only [Bool.and_eq_true, decide_eq_true_eq] at this
  exact ⟨this.1.1.1.1, this.1.1.1.2, landsFor_of this.1.1.2, ok_of this.2, landsFor_of this.1.2⟩

/-- A decision queue one short of full, and full; values inside a bucket, and no bucket. -/
theorem meets_SteerPrivileged :
    (UniTurn mRS (.steer 0 0) eS ∧ eS.mask = 1#32 ∧ getInst sS 0 0 = some (i0 sS) ∧ agentLaunch sS (.steer 0 0) = some (l0 mRS) ∧
      (i0 sS).steer.storeq = [] ∧ uniOk sS (.steer 0 0) eS 4 .steer ∧ uniOk sS (.steer 0 0) eS 8 .steer ∧
      (∃ j w, getWeave sS 0 j = some w ∧ w.inst = 0) ∧ readUSrc sS (.steer 0 0) (.s 4#6) true 0#64 = .ok 0#64 ∧
      (∀ j, j < 3 → readSReg sS (.steer 0 0) (4 + j) false = .ok 0#64) ∧
      (∃ b, (l0 mRS).header.buckets[0]? = some b ∧ ∀ p ∈ ([0, 0, 0] : List Nat).zip b.ranges, p.2.1 ≤ p.1 ∧ p.1 ≤ p.2.2)) ∧
    (∀ n, n = 31 ∨ n = 32 →
      let s := onInst mRS 0 0 (fun i => { i with decisions := List.replicate n 0#64 });
      UniTurn s (.steer 0 0) (en s (.steer 0 0)) ∧ (i0 s).decisions.length = n) ∧
    (l0 mS).header.buckets = [] ∧ LaneTurn m0 0 0 e0 w0 ∧ w0.Plain ∧ noBar m0 0 ∧ illegalHere w0 e0 8 false false [] = false := by
  refine ⟨⟨turn_RS, by decide +kernel, some_of (by decide +kernel) _, ?_, by decide +kernel, by unfold uniOk; decide +kernel,
    by unfold uniOk; decide +kernel, ⟨0, (getWeave sS 0 0).getD default, some_of (by decide +kernel) _, by decide +kernel⟩, ok_of (by decide +kernel), ?_,
    ⟨((l0 mRS).header.buckets[0]?).getD default, some_of (by decide +kernel) _, by decide +kernel⟩⟩, ?_, by decide +kernel, turn_m0, plain_m0, noBar_m0,
    by decide +kernel⟩
  · have : agentLaunch sS (.steer 0 0) = getLaunch mRS 1 := by decide +kernel
    rw [this]; exact some_of (by decide +kernel) _
  · have h : (List.range 3).all (fun j => gives (readSReg sS (.steer 0 0) (4 + j) false) 0#64) = true := by decide +kernel
    exact fun j hj => ok_of (List.all_eq_true.mp h j (List.mem_range.mpr hj))
  · rintro n (rfl | rfl)
    · exact ⟨uniTurn_steer (by decide +kernel) (by decide +kernel), by decide +kernel⟩
    · exact ⟨uniTurn_steer (by decide +kernel) (by decide +kernel), by decide +kernel⟩

/-- The handler slot, its partition a test partition. -/
@[irreducible] noncomputable def mHT : State := onPart mH 0 (fun p => { p with config := p.config ||| 0x80000000#64 })

noncomputable abbrev eH : Entry := en mHT (.handler 0)
noncomputable abbrev sH : State := begin mHT (.handler 0) eH

theorem turn_HT : UniTurn mHT (.handler 0) eH := uniTurn_handler (by decide +kernel)

theorem meets_ControlRegisters :
    (∀ x ∈ turns, UniTurn x.1 x.2 (en x.1 x.2) ∧ uniOk (begin x.1 x.2 (en x.1 x.2)) x.2 (en x.1 x.2) 4 .any ∧
      ∀ n ∈ [0, 6, 7, 0xff, 0x100, 0x103, 0x104, 0x1ff, 0x200], readUSrc (begin x.1 x.2 (en x.1 x.2)) x.2 .lit false (BitVec.ofNat 64 n)
        = .ok (BitVec.ofNat 64 n)) ∧
    UniTurn mHT (.handler 0) eH ∧ uniOk sH (.handler 0) eH 8 .handler ∧ (getCore sH 0).handler.run = some bootDelivery ∧ pairSrc (.s 4#6) = true ∧
      readUSrc sH (.handler 0) (.s 4#6) true 0#64 = .ok 0#64 ∧ readUSrc sH (.handler 0) (.s 4#6) false 0#64 = .ok 0#64 ∧
      (getPart sH (partOf 0)).config.getLsbD 31 = true ∧ scopeDenied sH (.handler 0) .pt = false := by
  refine ⟨fun x hx => ⟨turn_of hx, ?_, fun n _ => rfl⟩, turn_HT, by unfold uniOk; decide +kernel, by decide +kernel, by decide, ok_of (by decide +kernel),
    ok_of (by decide +kernel), by decide +kernel, by decide +kernel⟩
  have h : turns.all (fun x => decide (uniCause (begin x.1 x.2 (en x.1 x.2)) x.2 (en x.1 x.2)
    { size := 4, chain := false, elig := false, place := .any } = none)) = true := by decide +kernel
  have := List.all_eq_true.mp h x hx
  rw [decide_eq_true_eq] at this
  exact this

noncomputable def y0 : Entry := (((getWeave sH 0 0).getD default).frontier[0]?).getD default

theorem meets_Deliveries :
    UniTurn mHT (.handler 0) eH ∧ uniOk sH (.handler 0) eH 8 .handler ∧ uniOk sH (.handler 0) eH 4 .handler ∧
      (getCore sH 0).handler.run = some bootDelivery ∧ bootDelivery.target = .weave 0 0 ∧
      ∃ w, getWeave sH 0 0 = some w ∧ w.frontier = [y0] ∧ y0.delivering = true ∧ y0.mask = BitVec.allOnes 32 ∧ 119 < w.allot ∧
        readReg (getCore (commitAgent sH W) 0) (commitWeave w) 31 119 false = .ok 0#64 ∧ w.pair = none ∧ noBar sH 0 ∧
        readUSrc sH (.handler 0) .lit false 1#64 = .ok 1#64 ∧ y0.mask &&& 1#32 ≠ 0#32 ∧
        (getCore sH 0).handler.storeq = [] ∧ (getCore sH 0).l1 = [] ∧ (held (w.frontier.filter (fun x => !x.delivering))).length < 16 ∧
        lands sH 0 (agentVf sH (.handler 0)) y0.pc := by
  refine ⟨turn_HT, by unfold uniOk; decide +kernel, by unfold uniOk; decide +kernel, by decide +kernel, rfl, (getWeave sH 0 0).getD default,
    some_of (by decide +kernel) _, by decide +kernel, by decide +kernel, by decide +kernel, by decide +kernel, ok_of (by decide +kernel), by decide +kernel,
    noBar_of (by decide +kernel), rfl, by decide +kernel, by decide +kernel, by decide +kernel, by decide +kernel, lands_of (by decide +kernel)⟩
/-! ## Engines -/

/-- A tensor of 256 by 256 FP16 elements at 0x30000, its record at 0x22000; slot 0 loaded and slot 1 claimed by weave 0, slot 2 claimed by another. -/
@[irreducible] noncomputable def mT : State :=
  onCore (onLaunch (writeMem (writeMem mM (memKey mM.device 0x22000)
      (bytesLE 64 (0x30000 + 256 * 2 ^ 57 + 256 * 2 ^ 89 + 64 * 2 ^ 217 + 2 ^ 459 + 2 * 2 ^ 479)))
      (memKey mM.device 0x30000) (bytesLE 2 0x3c00)) 1
    (fun l => { l with header := { l.header with tensors := 0x22000, kbank := 0x30000, ksize := 64 } })) 0 (fun x =>
      { x with slots := [(0, { Slot.blank with state := .loaded, desc := { Slot.blank.desc with fmt := 1#16 } }), (1, { Slot.blank with state := .claimed }),
                         (2, { Slot.blank with state := .claimed, weave := 1, wid := 1 })] })

noncomputable abbrev eT : Entry := en mT W
noncomputable abbrev wT : Weave := wv mT
noncomputable abbrev sT : State := laneState mT 0 0 wT
noncomputable abbrev bT : State := begin mT W eT

theorem turn_T : LaneTurn mT 0 0 eT wT := laneTurn_of (by decide +kernel)
theorem plain_T : wT.Plain := plain_of (by decide +kernel)
theorem uniTurn_T : UniTurn mT W eT := uniTurn_weave (by decide +kernel) (by decide +kernel)

noncomputable def laT : Launch := l0 mT

/-- The page as reads meet it. -/
noncomputable def onPageB (o : State) (va n : Nat) : Bool :=
  gives (walk o (agentVf o W) va) leafM && decide (va < 2 ^ 57 ∧ leafKey o leafM va % 64 + n ≤ 64 ∧ memBad o (leafKey o leafM va) n = false)

theorem onPage_of {o : State} {va n : Nat} (h : onPageB o va n = true) : OnPage o (agentVf o W) leafM va n := by
  unfold onPageB at h
  rw [Bool.and_eq_true, decide_eq_true_eq] at h
  exact ⟨ok_of h.1, h.2.1, h.2.2.1, h.2.2.2⟩

/-- Weave 0's reads see memory, and its core's caches are empty. -/
noncomputable def seesB (o : State) : Bool :=
  decide (agentLaunch o W = some (l0 o) ∧ getLaunch o (l0 o).serial = some (l0 o) ∧ (l0 o).staged = [] ∧ pendingOf o W = [] ∧
    pageCause leafM .load false = none ∧ (getCore o 0).tlb = [] ∧ (getPart o (partOf 0)).tlb2 = [] ∧ (getCore o 0).l1 = [] ∧ (getCore o 0).icache = [] ∧
    (getPart o (partOf 0)).l2 = [])

theorem clean_of {o : State} (h : seesB o = true) : Clean o o 0 leafM := by
  obtain ⟨-, -, -, -, -, h1, h2, h3, h4, h5⟩ := of_decide_eq_true h
  exact clean_refl _ h1 h2 h3 h4 h5

/-- The bytes of a record as memory holds them. -/
noncomputable def recAt (o : State) (va : Nat) : Nat :=
  natLE ((List.range 8).flatMap (fun i => bytesLE 8 (natLE (memBytes o (leafKey o leafM (va + 8 * i)) 8))))

theorem readRec_of {o : State} {va : Nat} (h : seesB o = true) (hp : (List.range 8).all (fun i => onPageB o (va + 8 * i) 8) = true)
    (ha : va % 8 = 0) (hr : recOk (TRec.of (recAt o va)) = true) :
    ∃ t, readRec (agentRd W) o va = (.ok (TRec.of (recAt o va), recAt o va), t) ∧ Clean o t 0 leafM := by
  obtain ⟨h1, h2, h3, h4, h5, -⟩ := of_decide_eq_true h
  obtain ⟨t, ht, hc⟩ := readPieces_clean h1 h2 h3 h4 h5 8 10 o va (by omega) ha
    (fun i hi => onPage_of (List.all_eq_true.mp hp i (List.mem_range.mpr hi))) (clean_of h)
  refine ⟨t, ?_, hc⟩
  unfold readRec
  rw [show (64 : Nat) = 8 * 8 from rfl, show readPieces (agentRd W) 10 o va (8 * 8) = _ from ht]
  dsimp only
  rw [if_pos (by exact hr)]
  rfl

theorem issueRec_of {o : State} (h : seesB o = true) (h0 : (l0 o).header.tensors = 0x22000)
    (hp : (List.range 8).all (fun i => onPageB o (0x22000 + 8 * i) 8) = true) (hr : recOk (TRec.of (recAt o 0x22000)) = true) :
    ∃ t, issueRec o W 0 = (.ok (TRec.of (recAt o 0x22000), recAt o 0x22000), t) ∧ Clean o t 0 leafM := by
  obtain ⟨t, ht, hc⟩ := readRec_of h hp (by omega) hr
  refine ⟨t, ?_, hc⟩
  unfold issueRec
  rw [(of_decide_eq_true h).1]
  dsimp only
  rw [show tensorAddr (l0 o) 0 = 0x22000 by unfold tensorAddr; rw [h0], ht]

/-- The tensor. -/
def rT : TRec :=
  { gen := 0, spare := 0, rank := 2, bsize := 0, imm := false, esc := false, fmt := 1#16, obase := 0, sbase := 0, strides := [64, 0, 0, 0],
    dims := [256, 256, 0, 0, 0], base := 0x30000 }

noncomputable def recB (o : State) : Bool :=
  seesB o && decide ((l0 o).header.tensors = 0x22000 ∧ TRec.of (recAt o 0x22000) = rT ∧ recOk rT = true) &&
    (List.range 8).all (fun i => onPageB o (0x22000 + 8 * i) 8)

theorem record_of {o : State} (h : recB o = true) : ∃ s2, issueRec o W 0 = (.ok (rT, recAt o 0x22000), s2) ∧ Clean o s2 0 leafM := by
  unfold recB at h
  simp only [Bool.and_eq_true, decide_eq_true_eq] at h
  have := issueRec_of h.1.1 h.1.2.1 h.2 (by rw [h.1.2.2.1]; exact h.1.2.2.2)
  rwa [h.1.2.2.1] at this

theorem queues_clean {o s : State} {l : Leaf} (h : Clean o s 0 l) : (getCore s 0).queues = (getCore o 0).queues := by
  have := congrArg Core.queues h.bare
  exact this

/-- A queue with room and a full one. -/
@[irreducible] noncomputable def mFull : State := onCore mT 0 (fun x => { x with queues := x.queues.map (fun _ => List.replicate 16 default) })

theorem meets_EngineCopies :
    LaneTurn mT 0 0 eT wT ∧ wT.Plain ∧ noBar mT 0 ∧ illegalHere wT eT 8 false false (ctrRegs none ++ [(10, 2)] ++ lsrcRegs .zero 1) = false ∧
      threadCoords (laneCore mT 0 0 wT) wT (lowest eT.mask) 10 2 = .ok [0, 0, 0, 0, 0] ∧
      readLSrc (laneCore mT 0 0 wT) wT (lowest eT.mask) .zero false 0#64 = .ok 0#64 ∧
      readLSrc (laneCore mT 0 0 wT) wT (lowest eT.mask) (.v 10#7) true 0#64 = .ok 0#64 ∧
      readLSrc (laneCore mT 0 0 wT) wT (lowest eT.mask) (.v 4#7) true 0#64 = .ok 0x20400#64 ∧
      laneCtr (laneCore mT 0 0 wT) wT (lowest eT.mask) (some (4#7, .pt)) = .ok (some (0x20400#64, .pt)) ∧
      ctrFine sT W (some (0x20400#64, .pt)) ∧
      (∃ raw s2 z, issueRec sT W 0 = (.ok (rT, raw), s2) ∧ circleWindow sT W = some z ∧ packedSize (recFmt rT) 4 4 ≤ z.size ∧
        boxInside rT [0, 0, 0, 0, 0] (2 ^ 4) (2 ^ 4) = true ∧ (inQueue s2 0 0).length < 16) ∧
      ∃ raw s2, issueRec (laneState mFull 0 0 (wv mFull)) W 0 = (.ok (rT, raw), s2) ∧ 16 ≤ (inQueue s2 0 0).length ∧
        LaneTurn mFull 0 0 (en mFull W) (wv mFull) := by
  have hs : scopeDenied sT W .pt = false := by decide +kernel
  refine ⟨turn_T, plain_T, noBar_of (by decide +kernel), by decide +kernel, ok_of (by decide +kernel), ok_of (by decide +kernel), ok_of (by decide +kernel),
    ok_of (by decide +kernel), ok_of (by decide +kernel), fun v sc h => (by cases h; exact ⟨by decide, hs⟩), ?_, ?_⟩
  · obtain ⟨s2, h, hc⟩ := record_of (o := sT) (by decide +kernel)
    have hq : (inQueue sT 0 0).length < 16 := by decide +kernel
    exact ⟨_, s2, _, h, some_of (by decide +kernel) default, by decide +kernel, by decide +kernel, by
      unfold inQueue at hq ⊢; rwa [queues_clean hc]⟩
  · obtain ⟨s2, h, hc⟩ := record_of (o := laneState mFull 0 0 (wv mFull)) (by decide +kernel)
    have hq : 16 ≤ (inQueue (laneState mFull 0 0 (wv mFull)) 0 0).length := by decide +kernel
    exact ⟨_, s2, h, by unfold inQueue at hq ⊢; rwa [queues_clean hc], laneTurn_of (by decide +kernel)⟩

/-- The rows of the slath: a window that ends at the edge of the tile, the first and the last slot. -/
theorem meets_EngineTiles :
    LaneTurn mT 0 0 eT wT ∧ wT.Plain ∧ noBar mT 0 ∧ illegalHere wT eT 8 false false (ctrRegs none ++ [(10, 2)]) = false ∧
      illegalHere wT eT 4 false false [] = false ∧ illegalHere wT eT 8 false false (ctrRegs none ++ lsrcRegs (.v 10#7) 2 ++ lsrcRegs .zero 1) = false ∧
      (∀ i, 31 ≤ i → i < 32 → (getSlot (laneCore mT 0 0 wT) i).state = .free) ∧ claimsWaiting (laneCore mT 0 0 wT) = [] ∧
      (∃ y ∈ (laneCore mT 0 0 wT).slots, slotHeld y.2 wT 0 = true) ∧ (getSlot (laneCore mT 0 0 wT) 2).state ≠ .free ∧
      (∀ y ∈ (laneCore (mW id) 0 0 (wv (mW id))).slots, slotHeld y.2 (wv (mW id)) 0 = false) ∧ LaneTurn (mW id) 0 0 (en (mW id) W) (wv (mW id)) ∧
      slotHeld (getSlot (laneCore mT 0 0 wT) 0) wT 0 = true ∧ slotOf (getSlot (laneCore mT 0 0 wT) 0) wT 0 = true ∧
      (getSlot (laneCore mT 0 0 wT) 0).state = .loaded ∧ blocksClash (laneCore mT 0 0 wT) 0 0 = false ∧
      (∀ i, i < 8 → rimTaken (laneCore mT 0 0 wT) i wT.inst = false) ∧
      threadCoords (laneCore mT 0 0 wT) wT (lowest eT.mask) 10 2 = .ok [0, 0, 0, 0, 0] ∧
      laneCtr (laneCore mT 0 0 wT) wT (lowest eT.mask) none = .ok none ∧ ctrFine sT W none ∧
      (∃ raw s2 z, issueRec sT W 0 = (.ok (rT, raw), s2) ∧ stkCauses rT [0, 0, 0, 0, 0] 2 = [] ∧ circleWindow sT W = some z ∧
        rimCauses rT (some z) { row := 0, col := 0, er := 7, ec := 7 } false true [0, 0, 0, 0, 0] 0 = [] ∧
        rimCauses rT (some z) { row := 0, col := 0, er := 7, ec := 7 } true true [0, 0, 0, 0, 0] 16 = []) ∧
      (∀ circle, rimArgs (laneCore mT 0 0 wT) wT (lowest eT.mask)
        { ctr := none, x := .v 10#7, o := .zero, tile := 0#3, tx := 0#8, n := 2#3, er := 7#3, ec := 7#3, round := .rn, circle := circle }
          = .ok (([0, 0, 0, 0, 0], 0), 0#64, none)) ∧
      activeMask wT eT { p := 1#3, pol := true } ≠ 0#32 := by
  refine ⟨turn_T, plain_T, noBar_of (by decide +kernel), by decide +kernel, by decide +kernel, by decide +kernel, ?_, by decide +kernel, by decide +kernel,
    by decide +kernel, by decide +kernel, laneTurn_of (by decide +kernel), by decide +kernel, by decide +kernel, by decide +kernel, by decide +kernel,
    by decide +kernel, ok_of (by decide +kernel), rfl, fun v sc h => (by cases h), ?_, ?_, by decide +kernel⟩
  · intro i h1 h2
    obtain rfl : i = 31 := by omega
    decide +kernel
  · obtain ⟨s2, h, hc⟩ := record_of (o := sT) (by decide +kernel)
    exact ⟨_, s2, _, h, by decide +kernel, some_of (by decide +kernel) default, by decide +kernel, by decide +kernel⟩
  · intro circle
    cases circle <;> exact ok_of (by decide +kernel)

/-- A counter at its count and below it. -/
theorem meets_UniformEngines :
    LaneTurn mT 0 0 eT wT ∧ wT.Plain ∧ illegalHere wT eT 8 false false (lsrcRegs (.v 4#7) 2 ++ lsrcRegs .lit 1) = false ∧
      illegalHere wT eT 4 false false [(118, 2)] = false ∧
      readLSrc (laneCore mT 0 0 wT) wT (lowest eT.mask) (.v 4#7) true 0#64 = .ok 0x20400#64 ∧
      readLSrc (laneCore mT 0 0 wT) wT (lowest eT.mask) .lit false (litValue .w32 1#28) = .ok 1#64 ∧ Reaches sT W 0x20400 8 .load leafM ∧
      sound sT 0 (leafKey sT leafM 0x20400) ∧ CachesOk mT 0 ∧
      natLE ((List.range 8).map (fun j => ownByte sT W (homeByte sT 0) (leafKey sT leafM 0x20400 + j))) = 0 ∧
      UniTurn mT W eT ∧ settled bT W ∧ uniOk bT W eT 8 .any ∧ uniOk bT W eT 4 .any ∧ uniOk bT W eT 8 .weaveSteer ∧
      uniOk bT W eT 4 .weaveSteer ∧ agentInst bT W = some 0 ∧ uniCoords bT W 10 2 = .ok [0, 0, 0, 0, 0] ∧
      readUSrc bT W .zero false 0#64 = .ok 0#64 ∧ uniCtr bT W none = .ok none ∧ ctrFine bT W none ∧
      (∃ raw s2 z, issueRec bT W 0 = (.ok (rT, raw), s2) ∧ circleWindow bT W = some z ∧ packedSize (recFmt rT) 4 4 ≤ z.size) ∧
      readUSrc bT W .lit true 0x20400#64 = .ok 0x20400#64 ∧ Reaches bT W 0x20400 8 .load leafM ∧ sound bT 0 (leafKey bT leafM 0x20400) ∧
      CachesOk bT 0 := by
  refine ⟨turn_T, plain_T, by decide +kernel, by decide +kernel, ok_of (by decide +kernel), ok_of (by decide +kernel), reaches_of (by decide +kernel), sound_of (by decide +kernel),
    caches_of (by decide +kernel), by decide +kernel, uniTurn_T, ?_, by unfold uniOk; decide +kernel, by unfold uniOk; decide +kernel,
    by unfold uniOk; decide +kernel, by unfold uniOk; decide +kernel, by decide +kernel, ok_of (by decide +kernel), ok_of (by decide +kernel), rfl, fun v sc h => (by cases h), ?_, rfl, reaches_of (by decide +kernel),
    sound_of (by decide +kernel), caches_of (by decide +kernel)⟩
  · refine ⟨by decide +kernel, fun c k w h hw => ?_⟩
    cases h
    rw [show bT = _ from begin_turn turn_T, getWeave_putWeave_self] at hw
    cases hw
    exact plain_T
  · obtain ⟨s2, h, hc⟩ := record_of (o := bT) (by decide +kernel)
    exact ⟨_, s2, _, h, some_of (by decide +kernel) default, by decide +kernel⟩
/-! ## Blocks -/

theorem keep_page {s : State} (hl : rangeLost s 0 = false) : keepLeaf s leafM = .ok leafM := by
  have h : rangeLost s (leafBase leafM + 2 ^ leafM.size - 1) = rangeLost s 0 := by
    unfold rangeLost
    rw [show channelOf (leafBase leafM + 2 ^ leafM.size - 1) = channelOf 0 from by decide +kernel]
  unfold keepLeaf
  rw [h, show leafBase leafM = 0 from by decide +kernel, hl]
  rfl

/-- Every address of the first GiB lies on the page. -/
theorem walk_page {s : State} {va : Nat} (hv : va < 2 ^ 30) (hr : (getVf s 0).root.toNat / 4096 * 4096 = 0x1000)
    (h4 : readPte s 0x1000 = (0x8000000000002000, false)) (h3 : readPte s 0x2000 = (0x8000000000003000, false))
    (h2 : readPte s 0x3000 = (0xcf00000000000000, false)) (hl : rangeLost s 0 = false) : walk s 0 va = .ok leafM := by
  have b4 : bits va (12 + 9 * 4) 9 = 0 := by unfold bits; rw [Nat.shiftRight_eq_div_pow, Nat.div_eq_of_lt (by omega), Nat.zero_mod]
  have b3 : bits va (12 + 9 * 3) 9 = 0 := by unfold bits; rw [Nat.shiftRight_eq_div_pow, Nat.div_eq_of_lt (by omega), Nat.zero_mod]
  have b2 : bits va (12 + 9 * 2) 9 = 0 := by unfold bits; rw [Nat.shiftRight_eq_div_pow, Nat.div_eq_of_lt (by omega), Nat.zero_mod]
  have d4 : decodePte 0 va 4 0x8000000000002000 = .table 0x2000 := rfl
  have d3 : decodePte 0 va 3 0x8000000000003000 = .table 0x3000 := rfl
  have d2 : decodePte 0 va 2 0xcf00000000000000 = .leaf leafM := by
    have hz : va / 2 ^ 30 * 2 ^ 30 = 0 := by rw [Nat.div_eq_of_lt hv, Nat.zero_mul]
    have : decodePte 0 va 2 0xcf00000000000000 = .leaf { leafM with va := va / 2 ^ 30 * 2 ^ 30 } := rfl
    rw [this, hz]; rfl
  unfold walk
  rw [hr]
  unfold walkFrom
  dsimp only
  rw [b4, Nat.mul_zero, Nat.add_zero, h4]
  simp only [Bool.false_eq_true, if_false, Nat.reduceAdd, d4]
  unfold walkFrom
  dsimp only
  rw [b3, Nat.mul_zero, Nat.add_zero, h3]
  simp only [Bool.false_eq_true, if_false, Nat.reduceAdd, d3]
  unfold walkFrom
  dsimp only
  rw [b2, Nat.mul_zero, Nat.add_zero, h2]
  simp only [Bool.false_eq_true, if_false, Nat.reduceAdd, d2]
  exact keep_page hl

/-- A heap of 40 chunks at 1 MiB. -/
@[irreducible] noncomputable def mA : State :=
  onVf mM 0 (fun v => { v with heap := 0x100000#64, heapsz := 40#32, chunks := [(39, 0)], blocks := [(0x2800000, 0)] })

noncomputable abbrev eA : Entry := en mA W
noncomputable abbrev wA : Weave := wv mA
noncomputable abbrev sA : State := laneState mA 0 0 wA
noncomputable abbrev bA : State := begin mA W eA

theorem turn_A : LaneTurn mA 0 0 eA wA := laneTurn_of (by decide +kernel)
theorem plain_A : wA.Plain := plain_of (by decide +kernel)
theorem uniTurn_A : UniTurn mA W eA := uniTurn_weave (by decide +kernel) (by decide +kernel)

noncomputable def heapB (s : State) : Bool :=
  decide ((getVf s 0).root.toNat / 4096 * 4096 = 0x1000 ∧ readPte s 0x1000 = (0x8000000000002000, false) ∧
    readPte s 0x2000 = (0x8000000000003000, false) ∧ readPte s 0x3000 = (0xcf00000000000000, false) ∧ rangeLost s 0 = false ∧
    (getVf s 0).heap = 0x100000#64 ∧ (getVf s 0).heapsz = 40#32 ∧ (getVf s 0).chunks = [(39, 0)] ∧ (getVf s 0).blocks = [(0x2800000, 0)])

theorem writable_page {s : State} {a : Nat} (h : walk s 0 a = .ok leafM) : blockCause s 0 a = none := by
  unfold blockCause
  rw [h]
  rfl

theorem heapWritable_of {s : State} (h : heapB s = true) : heapWritable s 0 := by
  obtain ⟨h1, h2, h3, h4, h5, h6, h7, -, -⟩ := of_decide_eq_true h
  intro a h0 ha
  have e1 : (0x100000#64).toNat = 0x100000 := by decide +kernel
  have e2 : (40#32).toNat = 40 := by decide +kernel
  rw [h6, h7, e1, e2] at ha
  exact writable_page (walk_page (Nat.lt_trans ha (by decide +kernel)) h1 h2 h3 h4 h5)

theorem heapOk_of {s : State} (h : heapB s = true) : HeapOk (getVf s 0) := by
  obtain ⟨-, -, -, -, -, h6, h7, h8, h9⟩ := of_decide_eq_true h
  refine ⟨by rw [h8]; decide, fun j cls hj => ?_, fun a cls ha => ?_⟩
  · rw [h8] at hj
    unfold sfind at hj
    by_cases hx : 39 = j
    · rw [if_pos hx] at hj
      rw [← hx, ← Option.some.inj hj, h7]
      decide +kernel
    · rw [if_neg hx] at hj
      cases hj
  · rw [h9] at ha
    unfold sfind at ha
    by_cases hx : 0x2800000 = a
    · rw [if_pos hx] at ha
      rw [← hx, ← Option.some.inj ha]
      exact ⟨39, 0, by rw [h8]; rfl, by decide +kernel, by rw [h6]; decide +kernel⟩
    · rw [if_neg hx] at ha
      cases ha

noncomputable def directB (s : State) (a : Agent) : Bool :=
  match agentLaunch s a with
  | some l => decide (staging l = false ∧ l.staged = [] ∧ l.freed = [])
  | none => true

theorem direct_of {s : State} {a : Agent} (h : directB s a = true) : direct s a := by
  intro l hl
  unfold directB at h
  rw [hl] at h
  exact of_decide_eq_true h

theorem settled_T {s : State} {e : Entry} {w : Weave} (h : LaneTurn s 0 0 e w) (hp : w.Plain) : settled (begin s W e) W := by
  have hb : begin s W e = putWeave s 0 0 w := begin_turn h
  refine ⟨?_, fun c k x hx hw => ?_⟩
  · rw [hb]
    show (match getWeave (putWeave s 0 0 w) 0 0 with | some w => w.storeq | none => []) = []
    rw [getWeave_putWeave_self]; exact hp.drained
  · cases hx
    rw [hb, getWeave_putWeave_self] at hw
    cases hw
    exact hp

/-- Requests that the heap meets, a request of more than 1 MiB, a block allocated, and an address of 0. -/
theorem meets_Allocation :
    LaneTurn mA 0 0 eA wA ∧ wA.Plain ∧ vfAt mA 0 0 wA = 0 ∧ direct sA W ∧ CachesOk mA 0 ∧ HeapOk (getVf mA 0) ∧ heapWritable mA 0 ∧
      illegalHere wA eA 8 false false ([(118, 2)] ++ lsrcRegs .lit 1) = false ∧ illegalHere wA eA 4 false false (lsrcRegs (.v 4#7) 2) = false ∧
      (∀ u, eA.mask.getLsbD u = true → readLSrc (laneCore mA 0 0 wA) wA u .tid false 0#64 = .ok (BitVec.ofNat 64 u)) ∧
      (∀ u, u < 32 → (BitVec.ofNat 64 u).toNat % 2 ^ 32 ≤ 2 ^ 20) ∧ 32 ≤ (freeChunks (getVf mA 0)).length ∧
      (∀ u, eA.mask.getLsbD u = true → readLSrc (laneCore mA 0 0 wA) wA u .zero true 0#64 = .ok 0#64) ∧
      UniTurn mA W eA ∧ settled bA W ∧ agentVf bA W = 0 ∧ direct bA W ∧ CachesOk bA 0 ∧ HeapOk (getVf bA 0) ∧ heapWritable bA 0 ∧
      uniOk bA W eA 8 .any ∧ uniOk bA W eA 4 .any ∧ freeChunks (getVf bA 0) ≠ [] ∧
      (∀ n ∈ [0, 1, 2 ^ 20, 2 ^ 20 + 1], readUSrc bA W .lit false (BitVec.ofNat 64 n) = .ok (BitVec.ofNat 64 n)) ∧
      readUSrc bA W .lit true 0x2800000#64 = .ok 0x2800000#64 ∧ sfind (getVf bA 0).blocks 0x2800000 ≠ none := by
  have hA : heapB mA = true := by decide +kernel
  have hB : heapB bA = true := by decide +kernel
  exact ⟨turn_A, plain_A, by decide +kernel, direct_of (by decide +kernel), caches_of (by decide +kernel), heapOk_of hA, heapWritable_of hA,
    by decide +kernel, by decide +kernel, reads_of (by decide +kernel), by decide, by decide +kernel, reads_of (by decide +kernel), uniTurn_A,
    settled_T turn_A plain_A, by decide +kernel, direct_of (by decide +kernel), caches_of (by decide +kernel), heapOk_of hB, heapWritable_of hB,
    by unfold uniOk; decide +kernel, by unfold uniOk; decide +kernel, by decide +kernel, fun n _ => rfl, rfl, by decide +kernel⟩

/-! ## Atomics and fences -/

/-- Every operation and type, on memory and on the circle. -/
theorem meets_LaneAtomics (op : AtomOp) (q : AtomQ) :
    LaneTurn mM 0 0 eM wM ∧ wM.Plain ∧
      illegalHere wM eM 8 false false ((if q.ret then [(2, if atomWide q.ty then 2 else 1)] else []) ++
        lsrcRegs (.v 4#7) (if q.circle then 1 else 2) ++ lsrcRegs (.v 6#7) (if atomWide q.ty then 2 else 1)) = false ∧
      (∀ u, eM.mask.getLsbD u = true → readLSrc (laneCore mM 0 0 wM) wM u (.v 4#7) true 0#64 = .ok (at_ u) ∧
        readLSrc (laneCore mM 0 0 wM) wM u (.v 8#7) false 0#64 = .ok 0#64 ∧
        readLSrc (laneCore mM 0 0 wM) wM u (.v 6#7) (atomWide q.ty) 0#64 = .ok 0#64 ∧
        (op = .cas → readReg (laneCore mM 0 0 wM) wM u 2 (atomWide q.ty) = .ok 0#64)) ∧ scopeDenied sM W q.scope = false ∧
      direct sM W ∧ CachesOk mM 0 ∧ agree sM W eM.mask (fun u => (at_ u).toNat) (fun _ => leafM) ∧
      (∀ u, eM.mask.getLsbD u = true → Reaches sM W (at_ u).toNat (if atomWide q.ty then 8 else 4) .atomic leafM ∧
        sound sM 0 (leafKey sM leafM (at_ u).toNat)) ∧
      ∃ z, circleWindow sM W = some z ∧ 8 ≤ z.size ∧ circleBad (laneCore mM 0 0 wM) z.base (if atomWide q.ty then 8 else 4) = false := by
  obtain ⟨ty, order, scope, circle, ret⟩ := q
  dsimp only
  generalize atomWide ty = wd
  refine ⟨turn_M, plain_M, ?_, fun u hu => ⟨?_, ?_, ?_, fun _ => ?_⟩, ?_,
    direct_of (by decide +kernel), caches_of (by decide +kernel), agree_const _ _ _ _ _, by cases wd <;> exact all_reach (by decide +kernel),
    _, some_of (by decide +kernel) default, by decide +kernel, by cases wd <;> decide +kernel⟩
  · have h : ∀ ret circle wd : Bool, illegalHere wM eM 8 false false ((if ret then [(2, if wd then 2 else 1)] else []) ++
        lsrcRegs (.v 4#7) (if circle then 1 else 2) ++ lsrcRegs (.v 6#7) (if wd then 2 else 1)) = false := by decide +kernel
    exact h _ _ _
  · exact reads_of (s := mM) (w := wM) (wide := true) (lit := 0#64) (v := at_) (by decide +kernel) u hu
  · exact reads_of (s := mM) (w := wM) (wide := false) (lit := 0#64) (v := fun _ => 0#64) (by decide +kernel) u hu
  · cases wd <;> exact reads_of (s := mM) (w := wM) (lit := 0#64) (v := fun _ => 0#64) (by decide +kernel) u hu
  · cases wd <;> exact regs_of (s := mM) (w := wM) (v := fun _ => 0#64) (by decide +kernel) u hu
  · cases scope <;> decide +kernel

noncomputable abbrev bM : State := begin mM W eM
theorem uniTurn_M : UniTurn mM W eM := uniTurn_weave (by decide +kernel) (by decide +kernel)

/-- A machine whose policy denies the device scope. -/
@[irreducible] noncomputable def mDeny : State := onVf mM 0 (fun v => { v with scope := 0xff#8 })

theorem meets_UniformAtomicsFences :
    UniTurn mM W eM ∧ settled bM W ∧ uniOk bM W eM 8 .any ∧ uniOk bM W eM 4 .any ∧ readUSrc bM W .lit true 0x20400#64 = .ok 0x20400#64 ∧
      (∀ wd, readUSrc bM W (.s 4#6) wd 0#64 = .ok 0#64 ∧ readUDst bM W (.s 4#6) wd = .ok 0#64) ∧
      (∀ sc, scopeDenied bM W sc = false ∧ scopeDenied sM W sc = false) ∧ direct bM W ∧ CachesOk bM 0 ∧
      (∀ n, n = 4 ∨ n = 8 → Reaches bM W 0x20400 n .atomic leafM) ∧ sound bM 0 (leafKey bM leafM 0x20400) ∧
      (∃ z, circleWindow bM W = some z ∧ 8 ≤ z.size ∧ ∀ n, n = 4 ∨ n = 8 → circleBad (getCore bM 0) (z.base + 0) n = false) ∧
      LaneTurn mM 0 0 eM wM ∧ wM.Plain ∧ illegalHere wM eM 4 false false [] = false ∧ CachesOk mM 0 ∧
      LaneTurn mDeny 0 0 (en mDeny W) (wv mDeny) ∧ (wv mDeny).Plain ∧ noBar mDeny 0 ∧ ∃ sc, scopeDenied (laneState mDeny 0 0 (wv mDeny)) W sc = true := by
  refine ⟨uniTurn_M, settled_T turn_M plain_M, by unfold uniOk; decide +kernel, by unfold uniOk; decide +kernel, rfl, fun wd => ?_, ?_,
    direct_of (by decide +kernel), caches_of (by decide +kernel), ?_, sound_of (by decide +kernel), ⟨_, some_of (by decide +kernel) default, by decide +kernel,
      ?_⟩, turn_M, plain_M, by decide +kernel, caches_of (by decide +kernel), laneTurn_of (by decide +kernel), plain_of (by decide +kernel),
    noBar_of (by decide +kernel), .dv, by decide +kernel⟩
  · cases wd <;> exact ⟨ok_of (by decide +kernel), ok_of (by decide +kernel)⟩
  · intro sc; cases sc <;> decide +kernel
  · rintro n (rfl | rfl) <;> exact reaches_of (by decide +kernel)
  · rintro n (rfl | rfl) <;> decide +kernel
/-! ## Tensors -/

/-- The first element. -/
def xs0 : List Nat := [0, 0, 0, 0, 0]

/-- Tensor accesses of weave 0 from `o`: what they rest on. -/
noncomputable def elemB (o : State) (e : Entry) (acc : Acc) : Bool :=
  seesB o && onPageB o 0x30000 2 && onPageB o 0x30000 1 && decide (pageCause leafM acc false = none ∧ beyondWindow (windowOf o W) xs0 = false ∧
    (getVf o (agentVf o W)).sampleExp = 0) &&
    (List.range 32).all (fun u => decide (elemCause o W e u acc rT xs0 = none ∧
      lowestCode (ownCauses o W 0x30000 1 acc false (e.skipWatch.getLsbD u)) = none))

theorem window_clean {o s : State} {l : Leaf} (h : Clean o s 0 l) : windowOf s W = windowOf o W := by
  unfold windowOf agentInst W
  simp only [weave_clean h, inst_clean h, coreOf]

theorem elemCause_clean {o s : State} {l : Leaf} (h : Clean o s 0 l) (e : Entry) (u : Nat) (acc : Acc) (r : TRec) (xs : List Nat) :
    elemCause s W e u acc r xs = elemCause o W e u acc r xs := by
  unfold elemCause W
  rw [ownCauses_clean h]

/-- The site of the first element, where the page allows the access and no other cause stands. -/
theorem elemSite_of {o s : State} {e : Entry} {u n : Nat} {acc : Acc} (h : Clean o s 0 leafM) (hb : onPageB o 0x30000 n = true)
    (hp : pageCause leafM acc false = none) (hc : elemCause o W e u acc rT xs0 = none) :
    ∃ t, elemSite s W e u acc rT xs0 = (.ok (leafKey o leafM 0x30000), t) ∧ Clean o t 0 leafM := by
  obtain ⟨b1, b2, -⟩ := onPage_of hb
  obtain ⟨t, ht, hc'⟩ := translate_clean h b1 hp b2
  refine ⟨t, ?_, hc'⟩
  unfold elemSite
  rw [elemCause_clean h, hc, show elemAddr rT xs0 = 0x30000 by decide +kernel, show agentVf s W = agentVf o W from agentVf_clean h 0,
    show translate s (coreOf W) (agentVf o W) 0x30000 acc (isHandler W) = _ from ht]

/-- What a thread's `ldt` as FP32 gives. -/
noncomputable def one_ (o : State) : Double × Flags :=
  elemF32 (recFmt rT) { code := bits (natLE (memBytes o (leafKey o leafM 0x30000) 2)) 0 16, scale := none, outlier := none }

theorem ldtOne_of {o s : State} {e : Entry} {u : Nat} (h : Clean o s 0 leafM) (hb : elemB o e .load = true) (hu : u < 32) :
    ∃ t, ldtOne s W e rT true u xs0 = (.ok (one_ o), t) ∧ Clean o t 0 leafM := by
  unfold elemB at hb
  simp only [Bool.and_eq_true, decide_eq_true_eq, List.all_eq_true, List.mem_range] at hb
  obtain ⟨⟨⟨⟨h1, h2⟩, -⟩, h3, h4, h5⟩, h6⟩ := hb
  obtain ⟨a1, a2, a3, a4, a5, -⟩ := of_decide_eq_true h1
  obtain ⟨b1, b2, b3, b4⟩ := onPage_of h2
  obtain ⟨t0, h0, hc0⟩ := elemSite_of h h2 h3 (h6 u hu).1
  obtain ⟨t, ht, hc⟩ := agentRd_clean hc0 a1 a2 a3 a4 b1 a5 b2 (by omega) b3 b4
  refine ⟨countRequest t W u .load e.pc.toNat (elemAddr rT xs0) (.ok 0), ?_, countRequest_clean hc h5 _ _ _ _ _⟩
  have hd : inDims rT xs0 = true := by decide
  have hr : readElem (agentRd W) rT xs0 t0
      = (.ok { code := bits (natLE (memBytes o (leafKey o leafM 0x30000) 2)) 0 16, scale := none, outlier := none }, t) := by
    unfold readElem readCode
    rw [show elemAddr rT xs0 = 0x30000 by decide +kernel, show elemBytes rT xs0 = 2 by decide +kernel, show elemShift rT xs0 = 0 by decide +kernel,
      show (recFmt rT).width = 16 by decide +kernel, show agentRd W t0 0x30000 2 = _ from ht]
    rfl
  unfold ldtOne
  rw [hd, window_clean h, h4, h0]
  simp only [Bool.not_true, Bool.false_eq_true, if_false, if_true, hr, one_]

theorem ldtAll_of {o : State} {e : Entry} (hb : elemB o e .load = true) : ∀ (l : List Nat) (s : State), (∀ u ∈ l, u < 32) → Clean o s 0 leafM →
    ∃ t, ldtAll W e rT true s (l.map (fun u => (u, .ok xs0))) = (l.map (fun u => (u, .ok (one_ o))), t) ∧ Clean o t 0 leafM := by
  intro l
  induction l with
  | nil => intro s _ h; exact ⟨s, rfl, h⟩
  | cons u l ih =>
    intro s hl h
    obtain ⟨t, ht, hc⟩ := ldtOne_of h hb (hl u (List.mem_cons_self ..))
    obtain ⟨t', ht', hc'⟩ := ih t (fun x hx => hl x (List.mem_cons_of_mem _ hx)) hc
    refine ⟨t', ?_, hc'⟩
    rw [List.map_cons, List.map_cons]
    unfold ldtAll
    rw [ht]
    dsimp only
    rw [ht']

/-- The store of a thread's `stt` of 0. -/
noncomputable def store_ (o : State) : ThreadStore := sttStore rT xs0 (leafKey o leafM 0x30000) 0

theorem sttOne_of {o s : State} {e : Entry} {w : Weave} {u : Nat} (h : Clean o s 0 leafM) (hb : elemB o e .store = true) (hu : u < 32) :
    ∃ t, sttOne s W e w rT false .rn u xs0 0#64 = ({ tid := u, gen := readGen w u, res := .ok (some (store_ o), 0#6) }, t) ∧
      Clean o t 0 leafM := by
  unfold elemB at hb
  simp only [Bool.and_eq_true, decide_eq_true_eq, List.all_eq_true, List.mem_range] at hb
  obtain ⟨⟨⟨⟨h1, -⟩, h2⟩, h3, h4, h5⟩, h6⟩ := hb
  obtain ⟨t, ht, hc⟩ := elemSite_of h h2 h3 (h6 u hu).1
  refine ⟨countRequest t W u .store e.pc.toNat (elemAddr rT xs0) (.ok (leafKey o leafM 0x30000)), ?_, countRequest_clean hc h5 _ _ _ _ _⟩
  have hd : inDims rT xs0 = true := by decide
  have hf : fpTrap w.mode 0#6 = none := by unfold fpTrap; simp
  unfold sttOne
  rw [hd, window_clean h, h4, ht]
  simp only [Bool.not_true, Bool.false_eq_true, if_false, Bool.false_and, takeDraws]
  have hs : sttCode rT false { mode := .rn, d0 := 0#32, d1 := 0#32 } none 0#64 = { bits := 0, flags := 0#6 } := by decide +kernel
  simp [hs, hf, store_]

theorem sttAll_of {o : State} {e : Entry} {w : Weave} (hb : elemB o e .store = true) : ∀ (l : List Nat) (s : State), (∀ u ∈ l, u < 32) →
    Clean o s 0 leafM → ∃ t, sttAll W e w rT false .rn s (l.map (fun u => (u, .ok (xs0, 0#64))))
      = (l.map (fun u => { tid := u, gen := readGen w u, res := .ok (some (store_ o), 0#6) }), t) ∧ Clean o t 0 leafM := by
  intro l
  induction l with
  | nil => intro s _ h; exact ⟨s, rfl, h⟩
  | cons u l ih =>
    intro s hl h
    obtain ⟨t, ht, hc⟩ := sttOne_of (w := w) h hb (hl u (List.mem_cons_self ..))
    obtain ⟨t', ht', hc'⟩ := ih t (fun x hx => hl x (List.mem_cons_of_mem _ hx)) hc
    refine ⟨t', ?_, hc'⟩
    rw [List.map_cons, List.map_cons]
    unfold sttAll
    rw [ht]
    dsimp only
    rw [ht']


theorem coords_clean {o s : State} {l : Leaf} (h : Clean o s 0 l) (w : Weave) (u va n : Nat) :
    threadCoords (getCore s 0) w u va n = threadCoords (getCore o 0) w u va n := by
  have hs := congrArg Core.store h.bare
  simp only [Core.bare] at hs
  have hp : ∀ r, vPoisoned (getCore s 0) w u r = vPoisoned (getCore o 0) w u r := fun r => by unfold vPoisoned tagBad; rw [hs]
  have hr : ∀ r b, readReg (getCore s 0) w u r b = readReg (getCore o 0) w u r b := fun r b => by unfold readReg; rw [hp, hp]
  unfold threadCoords
  rw [show (fun i => readReg (getCore s 0) w u (va + i) false) = (fun i => readReg (getCore o 0) w u (va + i) false) from funext fun i => hr _ _]

theorem map_ok {α β : Type} {l : List Nat} {f g : Nat → Except α β} (h : ∀ u ∈ l, f u = g u) :
    l.map (fun u => (u, f u)) = l.map (fun u => (u, g u)) := List.map_congr_left fun u hu => by rw [h u hu]

/-- A bank load at the end of its bank; `ldt` and `stt` of one element by every thread. -/
theorem meets_ConstantsTensors :
    LaneTurn mT 0 0 eT wT ∧ wT.Plain ∧ wT.unlooked eT ∧
      illegalHere wT eT 8 false false ([(118, 2)] ++ lsrcRegs .zero 1 ++ lsrcRegs .lit 1) = false ∧
      (∀ u, readLSrc (laneCore mT 0 0 wT) wT u .lit false ((56#28).setWidth 64) = .ok 56#64) ∧
      (∀ n, n = 4 ∨ n = 8 → BankReaches sT W n 56 leafM ∧ BankReaches bT W n 56 leafM) ∧ agree sT W eT.mask (fun _ => 0x30000 + 56) (fun _ => leafM) ∧
      UniTurn mT W eT ∧ uniOk bT W eT 8 .any ∧ readUSrc bT W .zero false 0#64 = .ok 0#64 ∧
      readUSrc bT W .lit false ((56#28).setWidth 64) = .ok 56#64 ∧
      ∃ la raw s1, agentLaunch sT W = some la ∧ readRec (agentRd W) sT (tensorAddr la 0) = (.ok (rT, raw), s1) ∧ CachesOk mT 0 ∧
        (∃ (v : Nat → Double) (fl : Nat → Flags) (s2 : State), illegalHere wT eT 8 false false [(2, 1), (10, 2)] = false ∧
          ldtAll W eT rT true s1 ((threadsOf eT.mask).map (fun u => (u, threadCoords (laneCore mT 0 0 wT) wT u 10 2)))
            = ((threadsOf eT.mask).map (fun u => (u, .ok (v u, fl u))), s2) ∧ v 0 = 0x3f800000#64 ∧ ∀ u, fpTrap wT.mode (fl u) = none) ∧
        ∃ (st : Nat → Option ThreadStore) (s2 : State), illegalHere wT eT 8 false false ([(10, 2)] ++ lsrcRegs .zero 1) = false ∧
          rT.imm = false ∧ rT.esc = false ∧ (st 0).isSome = true ∧
          sttAll W eT wT rT false (resolve wT.mode .rn) s1 ((threadsOf eT.mask).map (fun u => (u, sttArgs (getCore s1 0) wT u 10 2 .zero)))
            = ((threadsOf eT.mask).map (fun u => { tid := u, gen := readGen wT u, res := .ok (st u, 0#6) }), s2) := by
  have hu : wT.unlooked eT := Or.inl (by decide +kernel)
  have hbank : ∀ (s : State) (n : Nat), (getCore s 0).ccache = [] → reachB s W ((bankOf s W).1 + 56) 1 .load leafM = true →
      decide (56 % n = 0 ∧ 56 + n ≤ (bankOf s W).2.1 ∧ (bankOf s W).1 % 8 = 0 ∧
        memBad s (leafKey s leafM ((bankOf s W).1 + 56) / 64 * 64) 64 = false) = true → BankReaches s W n 56 leafM := by
    intro s n h1 h2 h3
    obtain ⟨a, b, c, d⟩ := of_decide_eq_true h3
    exact ⟨⟨a, b⟩, c, reaches_of h2, d, fun x d hx => by rw [show coreOf W = 0 from rfl, h1] at hx; cases hx⟩
  refine ⟨turn_T, plain_T, hu, by decide +kernel, fun _ => rfl, ?_, agree_const _ _ _ _ _, uniTurn_T, by unfold uniOk; decide +kernel,
    ok_of (by decide +kernel), rfl, ?_⟩
  · rintro n (rfl | rfl) <;>
      exact ⟨hbank _ _ (by decide +kernel) (by decide +kernel) (by decide +kernel), hbank _ _ (by decide +kernel) (by decide +kernel) (by decide +kernel)⟩
  have hrec : recB sT = true := by decide +kernel
  unfold recB at hrec
  simp only [Bool.and_eq_true, decide_eq_true_eq] at hrec
  obtain ⟨s1, h1, hc⟩ := readRec_of hrec.1.1 hrec.2 (by omega) (by rw [hrec.1.2.2.1]; exact hrec.1.2.2.2)
  rw [hrec.1.2.2.1] at h1
  have hco : ∀ u ∈ threadsOf eT.mask, threadCoords (laneCore mT 0 0 wT) wT u 10 2 = .ok xs0 := by
    have h : (threadsOf eT.mask).all (fun u => gives (threadCoords (laneCore mT 0 0 wT) wT u 10 2) xs0) = true := by decide +kernel
    exact fun u hu => ok_of (List.all_eq_true.mp h u hu)
  have noTrap_T : fpTrap wT.mode (one_ sT).2 = none := by decide +kernel
  have hlt : ∀ u ∈ threadsOf eT.mask, u < 32 := by
    have h : (threadsOf eT.mask).all (fun u => decide (u < 32)) = true := by decide +kernel
    exact fun u hu => of_decide_eq_true (List.all_eq_true.mp h u hu)
  refine ⟨_, _, s1, (of_decide_eq_true hrec.1.1).1, by unfold tensorAddr; rw [hrec.1.2.1]; exact h1, caches_of (by decide +kernel), ?_, ?_⟩
  · obtain ⟨s2, h2, -⟩ := ldtAll_of (o := sT) (e := eT) (by decide +kernel) (threadsOf eT.mask) s1 hlt hc
    refine ⟨fun _ => (one_ sT).1, fun _ => (one_ sT).2, s2, by decide +kernel, ?_, by decide +kernel, fun _ => noTrap_T⟩
    · rw [map_ok hco]; exact h2
  · obtain ⟨s2, h2, -⟩ := sttAll_of (o := sT) (e := eT) (w := wT) (by decide +kernel) (threadsOf eT.mask) s1 hlt hc
    refine ⟨fun _ => some (store_ sT), s2, by decide +kernel, rfl, rfl, rfl, ?_⟩
    rw [show resolve wT.mode .rn = .rn by decide +kernel, map_ok (g := fun _ => .ok (xs0, 0#64)) fun u hu => ?_]
    · exact h2
    · unfold sttArgs
      rw [coords_clean hc, show getCore sT 0 = laneCore mT 0 0 wT from rfl, hco u hu]
      rfl
/-! ## Uniform memory, nodes, emulation calls -/

/-- s4.d holds 0x20400, where the status of a node record is 3; the first granule of the circle is full; the windows start at 0x100000. -/
@[irreducible] noncomputable def mU : State :=
  onCore (onWeave (onLaunch (writeMem mM (memKey mM.device 0x20412) (bytesLE 2 3)) 1 (fun l => { l with header := { l.header with priv := 0x100000 } })) 0 0
    (fun w => { w with s := [(4, 0x20400#32)] })) 0 (fun x => { x with full := [((circleWindow mM W).getD default).base / 16] })

noncomputable abbrev eU : Entry := en mU W
noncomputable abbrev wU : Weave := wv mU
noncomputable abbrev sU : State := laneState mU 0 0 wU
noncomputable abbrev bU : State := begin mU W eU

theorem turn_U : LaneTurn mU 0 0 eU wU := laneTurn_of (by decide +kernel)
theorem plain_U : wU.Plain := plain_of (by decide +kernel)
theorem uniTurn_U : UniTurn mU W eU := uniTurn_weave (by decide +kernel) (by decide +kernel)

theorem meets_UniformMemory :
    UniTurn mU W eU ∧ settled bU W ∧ uniOk bU W eU 4 .any ∧ uniOk bU W eU 8 .any ∧ readUSrc bU W (.s 4#6) true 0#64 = .ok 0x20400#64 ∧
      readUSrc bU W .zero false 0#64 = .ok 0#64 ∧ readUSrc bU W .zero true 0#64 = .ok 0#64 ∧
      (∀ n, n = 1 ∨ n = 2 ∨ n = 4 ∨ n = 8 → Reaches bU W 0x20400 n .load leafM ∧ Reaches bU W 0x20400 n .store leafM) ∧
      sound bU 0 (leafKey bU leafM 0x20400) ∧ CachesOk bU 0 ∧ (∀ sc, scopeDenied bU W sc = false) ∧
      ∃ z, circleWindow bU W = some z ∧ 8 ≤ z.size ∧ feWaiting (getCore bU 0) = [] ∧ nmem (getCore bU 0).full (z.base / 16) = true ∧ z.base % 16 = 0 ∧
        ∀ n, n = 1 ∨ n = 2 ∨ n = 4 ∨ n = 8 → circleBad (getCore bU 0) z.base n = false := by
  refine ⟨uniTurn_U, settled_T turn_U plain_U, by unfold uniOk; decide +kernel, by unfold uniOk; decide +kernel, ok_of (by decide +kernel),
    ok_of (by decide +kernel), ok_of (by decide +kernel), ?_, sound_of (by decide +kernel), caches_of (by decide +kernel), ?_,
    _, some_of (by decide +kernel) default, by decide +kernel, by decide +kernel, by decide +kernel, by decide +kernel, ?_⟩
  · rintro n (rfl | rfl | rfl | rfl) <;> exact ⟨reaches_of (by decide +kernel), reaches_of (by decide +kernel)⟩
  · intro sc; cases sc <;> decide +kernel
  · rintro n (rfl | rfl | rfl | rfl) <;> decide +kernel

/-! ## Node records -/

theorem nodeSite_of {o s : State} {addr : Double} (h : Clean o s 0 leafM) (hw : walk o (agentVf o W) addr.toNat = .ok leafM)
    (hl : pageCause leafM .load false = none) (hv : addr.toNat < 2 ^ 57) (ha : addr.toNat % 64 = 0) :
    ∃ t, nodeSite s W addr = (.ok (leafKey o leafM addr.toNat), t) ∧ Clean o t 0 leafM ∧
      (getCore t 0).l1 = (getCore s 0).l1 ∧ (getPart t (partOf 0)).l2 = (getPart s (partOf 0)).l2 := by
  obtain ⟨t, ht, hc⟩ := translate_clean h hw hl hv
  have h1 : (getCore t 0).l1 = (getCore s 0).l1 := by
    have := (looked_translate s 0 (agentVf o W) addr.toNat .load false).core
    rw [ht] at this
    have h2 := congrArg Core.l1 this
    dsimp only at h2
    exact h2
  have h2 : (getPart t (partOf 0)).l2 = (getPart s (partOf 0)).l2 := by
    have := (looked_translate s 0 (agentVf o W) addr.toNat .load false).parts (partOf 0)
    rw [ht] at this
    have h3 := congrArg Part.l2 this
    dsimp only at h3
    exact h3
  refine ⟨t, ?_, hc, h1, h2⟩
  unfold nodeSite
  rw [show agentVf s W = agentVf o W from agentVf_clean h 0, show coreOf W = 0 from rfl, show isHandler W = false from rfl, ht]
  dsimp only
  rw [ha]
  rfl

theorem dropLine_none {t : State} (h : (getCore t 0).l1 = [] ∧ (getPart t (partOf 0)).l2 = []) (l : List Nat) : l.foldl (fun s u => dropLine s 0 u) t = t := by
  induction l with
  | nil => rfl
  | cons u l ih =>
    have : dropLine t 0 u = t := by
      unfold dropLine leaveL1; rw [h.1]; unfold dropSlice; dsimp only [sfind]; rw [h.2]; rfl
    rw [List.foldl_cons, this, ih]

theorem readHome_of {o t : State} {n k : Nat} {la : Launch} (hc : Clean o t 0 leafM) (h1 : (getCore t 0).l1 = [] ∧ (getPart t (partOf 0)).l2 = []) (hg : getLaunch t n = some la)
    (hst : la.staged = []) (hm : memBad o k 2 = false) : readHome t 0 (some n) k 2 = (memBytes o k 2, false, t) := by
  have hov : overlay t (some n) k (memBytes t k 2) = memBytes o k 2 := by
    unfold overlay
    simp only [Option.bind_some, hg, hst, List.isEmpty_nil, if_true, memBytes_root hc.root]
  unfold readHome
  dsimp only
  rw [dropLine_none h1, hov, memBad_root hc.root, hm, Bool.false_and]

theorem statusOf {s t : State} {addr : Double} {k n : Nat} {d : List Byte} (h : nodeSite s W addr = (.ok k, t)) (hs : serialOf t W = some n)
    (hr : readHome t 0 (some n) (k + 18) 2 = (d, false, t)) : readNodeStatus s W addr = (.ok (natLE d), t) := by
  unfold readNodeStatus
  rw [h]
  dsimp only
  rw [hs, show coreOf W = 0 from rfl, hr]

theorem readNodeStatus_of {o s : State} {addr : Double} (h : Clean o s 0 leafM) (hs : seesB o = true)
    (hw : walk o (agentVf o W) addr.toNat = .ok leafM) (hv : addr.toNat < 2 ^ 57) (ha : addr.toNat % 64 = 0) (hm : memBad o (leafKey o leafM addr.toNat + 18) 2 = false)
    (h1 : (getCore s 0).l1 = [] ∧ (getPart s (partOf 0)).l2 = []) :
    ∃ t, readNodeStatus s W addr = (.ok (natLE (memBytes o (leafKey o leafM addr.toNat + 18) 2)), t) := by
  obtain ⟨a1, a2, a3, a4, a5, -⟩ := of_decide_eq_true hs
  obtain ⟨t, ht, hc, h2, h3⟩ := nodeSite_of h hw a5 hv ha
  rw [h1.1] at h2
  rw [h1.2] at h3
  have hg : getLaunch t (l0 o).serial = some (l0 o) := ((launch_clean hc 0 (l0 o).serial).2).trans a2
  have hse : serialOf t W = some (l0 o).serial := by
    unfold serialOf
    rw [show agentLaunch t W = agentLaunch o W from (launch_clean hc 0 0).1, a1]
    rfl
  exact ⟨t, statusOf ht hse (readHome_of hc ⟨h2, h3⟩ hg a3 hm)⟩

/-- A record whose status is 3, and one whose status is 0. -/
theorem meets_NodeForms :
    UniTurn mU W eU ∧ settled bU W ∧ direct bU W ∧ CachesOk bU 0 ∧ readUSrc bU W (.s 4#6) true 0#64 = .ok 0x20400#64 ∧
      uniOk bU W eU 4 .weaveSteer ∧ uniOk bU W eU 8 .weaveSteer ∧ readUSrc bU W .lit false (litValue .w32 0#28) = .ok 0#64 ∧
      (∃ key s2 s3, nodeSite bU W 0x20400#64 = (.ok key, s2) ∧ readNodeStatus s2 W 0x20400#64 = (.ok 3, s3)) ∧
      ∃ key s2 s3, nodeSite bU W 0x20480#64 = (.ok key, s2) ∧ readNodeStatus s2 W 0x20480#64 = (.ok 0, s3) := by
  have hs : seesB bU = true := by decide +kernel
  have h0 : (getCore bU 0).l1 = [] ∧ (getPart bU (partOf 0)).l2 = [] := by decide +kernel
  have hl : pageCause leafM .load false = none := by simp [pageCause, leafM]
  have node : ∀ (addr : Double) (n : Nat), gives (walk bU (agentVf bU W) addr.toNat) leafM = true → decide (addr.toNat < 2 ^ 57 ∧ addr.toNat % 64 = 0 ∧
      memBad bU (leafKey bU leafM addr.toNat + 18) 2 = false ∧ natLE (memBytes bU (leafKey bU leafM addr.toNat + 18) 2) = n) = true →
      ∃ key s2 s3, nodeSite bU W addr = (.ok key, s2) ∧ readNodeStatus s2 W addr = (.ok n, s3) := by
    intro addr n hw hd
    obtain ⟨h1, h2, h3, h4⟩ := of_decide_eq_true hd
    obtain ⟨s2, e2, hc, hl1, hl2⟩ := nodeSite_of (clean_of hs) (ok_of hw) hl h1 h2
    obtain ⟨s3, e3⟩ := readNodeStatus_of hc hs (ok_of hw) h1 h2 h3 ⟨hl1.trans h0.1, hl2.trans h0.2⟩
    rw [h4] at e3
    exact ⟨_, s2, s3, e2, e3⟩
  exact ⟨uniTurn_U, settled_T turn_U plain_U, direct_of (by decide +kernel), caches_of (by decide +kernel), ok_of (by decide +kernel),
    by unfold uniOk; decide +kernel, by unfold uniOk; decide +kernel, rfl, node _ _ (by decide +kernel) (by decide +kernel),
    node _ _ (by decide +kernel) (by decide +kernel)⟩
/-! ## Emulation calls -/

/-- What the accesses of weave 0's threads rest on, apart from their addresses. -/
noncomputable def baseB (o : State) : Bool :=
  decide (agentLaunch o W = some (l0 o) ∧ getLaunch o (l0 o).serial = some (l0 o) ∧ (l0 o).staged = [] ∧ pendingOf o W = [] ∧
    (getVf o (agentVf o W)).sampleExp = 0 ∧ (getCore o 0).tlb = [] ∧ (getPart o (partOf 0)).tlb2 = [] ∧ (getCore o 0).l1 = [] ∧
    (getCore o 0).icache = [] ∧ (getPart o (partOf 0)).l2 = [])

/-- One access. -/
noncomputable def siteB (o : State) (e : Entry) (l : Leaf) (acc : Acc) (va n u : Nat) : Bool :=
  gives (walk o (agentVf o W) va) l && decide (va < 2 ^ 57 ∧ (pageCause l acc false).isNone = true ∧
    (lowestCode (ownCauses o W va n acc false (e.skipWatch.getLsbD u))).isNone = true ∧ leafKey o l va % 64 + n ≤ 64 ∧
    memBad o (leafKey o l va) n = false ∧ 0 < n)

theorem loads_of {o : State} {e : Entry} {q : LoadReq} {l : Leaf} {va : Nat → Nat} (hb : baseB o = true) (hq : q.nl1 = false) :
    ∀ (us : List Nat) (s : State), us.all (fun u => siteB o e l .load (va u) (widthBytes q.width) u) = true → Clean o s 0 l →
      ∃ t, loadGlobals s W e q false (us.map (fun u => (u, .ok (va u))))
        = (us.map (fun u => (u, .ok (loadValue q.width (memBytes o (leafKey o l (va u)) (widthBytes q.width))))), t) ∧ Clean o t 0 l := by
  obtain ⟨a1, a2, a3, a4, a5, -⟩ := of_decide_eq_true hb
  intro us
  induction us with
  | nil => intro s _ h; exact ⟨s, rfl, h⟩
  | cons u us ih =>
    intro s hu h
    rw [List.all_cons, Bool.and_eq_true] at hu
    have h1 := hu.1
    unfold siteB at h1
    rw [Bool.and_eq_true, decide_eq_true_eq] at h1
    obtain ⟨b1, b2, b3, b4, b5, b6, b7⟩ := h1
    obtain ⟨t, ht, hc⟩ := loadGlobalOne_clean (tid := u) (e := e) (d := false) h a1 a2 a3 a4 hq a5 (ok_of b1) (Option.isNone_iff_eq_none.mp b3) b2
      (Option.isNone_iff_eq_none.mp b4) b5 b6 b7
    obtain ⟨t', ht', hc'⟩ := ih t hu.2 hc
    refine ⟨t', ?_, hc'⟩
    rw [List.map_cons, List.map_cons]
    unfold loadGlobals
    rw [show loadGlobalOne s W e q false u (va u) = _ from ht]
    dsimp only
    rw [ht']

/-- The store of a call at a place of a save area. -/
noncomputable def callStore (o : State) (b : Nat) (x : Nat × MemW × Double) : ThreadStore :=
  { circle := false, va := (BitVec.ofNat 64 (b + x.1)).toNat, key := leafKey o leafM (BitVec.ofNat 64 (b + x.1)).toNat,
    data := bytesLE (widthBytes x.2.1) x.2.2.toNat, full := false, bits := [] }

theorem callSites_of {o : State} {e : Entry} {u b : Nat} (hb : baseB o = true) : ∀ (st : List (Nat × MemW × Double)) (s : State),
    st.all (fun x => siteB o e leafM .store (BitVec.ofNat 64 (b + x.1)).toNat (widthBytes x.2.1) u) = true → Clean o s 0 leafM →
      ∃ t, callSites s W e u b st = (.ok (st.map (callStore o b)), t) ∧ Clean o t 0 leafM := by
  obtain ⟨a1, a2, a3, a4, a5, -⟩ := of_decide_eq_true hb
  intro st
  induction st with
  | nil => intro s _ h; exact ⟨s, rfl, h⟩
  | cons x st ih =>
    intro s hu h
    rw [List.all_cons, Bool.and_eq_true] at hu
    have h1 := hu.1
    unfold siteB at h1
    rw [Bool.and_eq_true, decide_eq_true_eq] at h1
    obtain ⟨b1, b2, b3, b4, -⟩ := h1
    obtain ⟨t, ht, hc⟩ := storeSite_clean (tid := u) (e := e) (q := plainStore false x.2.1) (va := BitVec.ofNat 64 (b + x.1)) (v := x.2.2) (d := false) h rfl a5
      (ok_of b1) (Option.isNone_iff_eq_none.mp b3) b2 (Option.isNone_iff_eq_none.mp b4)
    obtain ⟨t', ht', hc'⟩ := ih t hu.2 hc
    refine ⟨t', ?_, hc'⟩
    obtain ⟨off, wd, v⟩ := x
    unfold callSites
    rw [show storeSite s W e (plainStore false wd) false u (.ok (BitVec.ofNat 64 (b + off))) (.ok v) = _ from ht]
    dsimp only
    rw [ht']
    rfl

theorem callAll_of {o : State} {e : Entry} {b : Nat → Nat} {st : Nat → List (Nat × MemW × Double)} (hb : baseB o = true) :
    ∀ (us : List Nat) (s : State), us.all (fun u => (st u).all (fun x => siteB o e leafM .store (BitVec.ofNat 64 (b u + x.1)).toNat (widthBytes x.2.1) u))
        = true → Clean o s 0 leafM →
      ∃ t, callAll W e s (us.map (fun u => (u, b u, .ok (st u)))) = (us.map (fun u => (u, .ok ((st u).map (callStore o (b u))))), t) ∧
        Clean o t 0 leafM := by
  intro us
  induction us with
  | nil => intro s _ h; exact ⟨s, rfl, h⟩
  | cons u us ih =>
    intro s hu h
    rw [List.all_cons, Bool.and_eq_true] at hu
    obtain ⟨t, ht, hc⟩ := callSites_of (u := u) (b := b u) (e := e) hb (st u) s hu.1 h
    obtain ⟨t', ht', hc'⟩ := ih t hu.2 hc
    refine ⟨t', ?_, hc'⟩
    rw [List.map_cons, List.map_cons]
    unfold callAll
    rw [ht]
    dsimp only
    rw [ht']

theorem cleanBase {o : State} (h : baseB o = true) (l : Leaf) : Clean o o 0 l := by
  obtain ⟨-, -, -, -, -, h1, h2, h3, h4, h5⟩ := of_decide_eq_true h
  exact clean_refl _ h1 h2 h3 h4 h5

/-- The page of the code, which may be read and fetched. -/
def leafX : Leaf := { leafM with w := false, x := true }

/-- Each thread's save area holds the link 0x10040 + 4u. -/
@[irreducible] noncomputable def mC : State :=
  onLaunch ((List.range 32).foldl (fun s u => writeMem s (memKey s.device (0x100000 + 512 * u + 256 + 240)) (bytesLE 8 (0x10040 + 4 * u))) mR) 1
    (fun l => { l with header := { l.header with priv := 0x100000 } })

noncomputable abbrev eC : Entry := en mC W
noncomputable abbrev wC : Weave := wv mC
noncomputable abbrev sC : State := laneState mC 0 0 wC

def links : List Double := (List.range 15).map (fun u => BitVec.ofNat 64 (0x10040 + 4 * u))

noncomputable def landsL (o : State) (pc : Double) : Bool :=
  gives (walk o (agentVf o W) pc.toNat) leafX && decide (pc.toNat % 4 = 0 ∧ pc.toNat < 2 ^ 57 ∧ memBad o (leafKey o leafX pc.toNat / 64 * 64) 64 = false ∧
    (BitVec.ofNat 32 (natLE (((memBytes o (leafKey o leafX pc.toNat / 64 * 64) 64).drop (leafKey o leafX pc.toNat % 64)).take 4))).toNat / 2 ^ 29 ≠ 7)

theorem lands_clean {o s : State} {pc : Double} (hc : Clean o s 0 leafX) (h : landsL o pc = true) : lands s 0 (agentVf o W) pc := by
  unfold landsL at h
  rw [Bool.and_eq_true, decide_eq_true_eq] at h
  obtain ⟨h1, h2, h3, h4, h5⟩ := h
  obtain ⟨t, ht, -⟩ := fetchWord_clean (b := false) hc (ok_of h1) (by simp [pageCause, leafX, leafM]) h3 rfl h4
  refine ⟨h2, h3, fun x t' hx => ?_⟩
  rw [← Except.ok.inj (Prod.mk.inj (ht.symm.trans hx)).1]
  exact h5

/-- A place on a page that may not be fetched: the transfer lands there, and the next fetch meets EXEC. -/
theorem lands_denied {o s : State} {pc : Double} (hc : Clean o s 0 leafM) (h : gives (walk o (agentVf o W) pc.toNat) leafM = true)
    (h2 : pc.toNat % 4 = 0) (h3 : pc.toNat < 2 ^ 57) : lands s 0 (agentVf o W) pc := by
  obtain ⟨t, ht, -⟩ := translate_denied (a := .fetch) (b := false) hc (ok_of h) (x := cEXEC) (by simp [pageCause, leafM]) h3
  refine ⟨h2, h3, fun x t' hx => ?_⟩
  unfold fetchWord at hx
  rw [ht] at hx
  cases hx

/-- Half of the weave's threads return, to 15 places. -/
@[irreducible] noncomputable def mC15 : State :=
  onWeave mC 0 0 (fun w => { w with frontier := [entryAt 0x10000#64 0#16 0x7fff#32 .ready] })

theorem meets_EmulationCalls :
    (LaneTurn mU 0 0 eU wU ∧ wU.Plain ∧ illegalHere wU eU 8 false false [(118, 2)] = false ∧ wU.fits eU 1 ∧ CachesOk mU 0 ∧
      argWord sU 0 (vfAt mU 0 0 wU) eU false = (.ok 0#32, sU) ∧
      (∀ u, eU.mask.getLsbD u = true → readReg (laneCore mU 0 0 wU) wU u 118 true = .ok 0#64) ∧
      ∃ (st : Nat → List ThreadStore) (s2 : State), callAll W eU sU ((threadsOf eU.mask).map (fun u => (u, areaOf sU 0 wU u, .ok (callStores 0#64 (eU.pc + 8#64) 0#32 0#32))))
        = ((threadsOf eU.mask).map (fun u => (u, .ok (st u))), s2) ∧ lands s2 0 (vfAt mU 0 0 wU) 0x10020#64) ∧
    (LaneTurn mC15 0 0 (en mC15 W) (wv mC15) ∧ (wv mC15).Plain ∧ illegalHere (wv mC15) (en mC15 W) 8 false false [(118, 2)] = false ∧
      (wv mC15).fits (en mC15 W) links.length ∧ CachesOk mC15 0 ∧
      ∃ (link saved : Nat → Double) (s1 s2 : State),
        let s0 := laneState mC15 0 0 (wv mC15)
        let asks := fun (o : Nat) => (threadsOf (en mC15 W).mask).map (fun u => (u, (.ok (areaOf s0 0 (wv mC15) u + o) : Except Nat Nat)))
        loadGlobals s0 W (en mC15 W) (plainLoad false .b64) false (asks 240) = ((threadsOf (en mC15 W).mask).map (fun u => (u, .ok (link u))), s1) ∧
        loadGlobals s1 W (en mC15 W) (plainLoad false .b64) false (asks 224) = ((threadsOf (en mC15 W).mask).map (fun u => (u, .ok (saved u))), s2) ∧
        ∀ u, (en mC15 W).mask.getLsbD u = true → link u ≠ 0#64 ∧ link u ∈ links ∧ lands s2 0 (vfAt mC15 0 0 (wv mC15)) (link u)) := by
  refine ⟨⟨turn_U, plain_U, by decide +kernel, by unfold Weave.fits; decide +kernel, caches_of (by decide +kernel), rfl, regs_of (by decide +kernel), ?_⟩,
    laneTurn_of (by decide +kernel), plain_of (by decide +kernel), by decide +kernel, by unfold Weave.fits; decide +kernel, caches_of (by decide +kernel), ?_⟩
  · have hb : baseB sU = true := by decide +kernel
    obtain ⟨s2, h2, hc⟩ := callAll_of (o := sU) (e := eU) (b := areaOf sU 0 wU) (st := fun _ => callStores 0#64 (eU.pc + 8#64) 0#32 0#32) hb
      (threadsOf eU.mask) sU (by decide +kernel) (cleanBase hb _)
    exact ⟨_, s2, h2, lands_denied hc (by decide +kernel) (by decide) (by decide)⟩
  · have hb : baseB (laneState mC15 0 0 (wv mC15)) = true := by decide +kernel
    obtain ⟨s1, h1, hc⟩ := loads_of (o := laneState mC15 0 0 (wv mC15)) (e := en mC15 W) (q := plainLoad false .b64) (l := leafX)
      (va := fun u => areaOf (laneState mC15 0 0 (wv mC15)) 0 (wv mC15) u + 240) hb rfl (threadsOf (en mC15 W).mask) _ (by decide +kernel) (cleanBase hb _)
    obtain ⟨s2, h2, hc2⟩ := loads_of (o := laneState mC15 0 0 (wv mC15)) (e := en mC15 W) (q := plainLoad false .b64) (l := leafX)
      (va := fun u => areaOf (laneState mC15 0 0 (wv mC15)) 0 (wv mC15) u + 224) hb rfl (threadsOf (en mC15 W).mask) s1 (by decide +kernel) hc
    refine ⟨_, _, s1, s2, h1, h2, ?_⟩
    have h : ∀ u, u < 32 → (en mC15 W).mask.getLsbD u = true →
        (let x := loadValue .b64 (memBytes (laneState mC15 0 0 (wv mC15)) (leafKey (laneState mC15 0 0 (wv mC15)) leafX
          (areaOf (laneState mC15 0 0 (wv mC15)) 0 (wv mC15) u + 240)) 8)
        x ≠ 0#64 ∧ x ∈ links ∧ landsL (laneState mC15 0 0 (wv mC15)) x = true) := by decide +kernel
    exact all_of fun u hu hm => ⟨(h u hu hm).1, (h u hu hm).2.1, lands_clean hc2 (h u hu hm).2.2⟩
/-! ## Events: arrivals and releases -/

noncomputable def gw (s : State) : Weave := (getWeave s 0 0).getD default
noncomputable def fe (s : State) (i : Nat) : Entry := ((gw s).frontier[i]?).getD default

noncomputable def standB (s : State) (i : Nat) : Bool :=
  decide ((getWeave s 0 0).isSome = true ∧ fe s i ∈ (gw s).frontier ∧ (fe s i).mask ≠ 0#32 ∧
    (∀ x ∈ (gw s).frontier, x.mask &&& (fe s i).mask ≠ 0#32 → x = fe s i) ∧ (fe s i).spill = none ∧
    (held ((gw s).frontier.filter (fun x => x.mask &&& (fe s i).mask == 0#32))).length < 16)

theorem standing_of {s : State} {i : Nat} (h : standB s i = true) : Standing s 0 0 (fe s i) (gw s) := by
  obtain ⟨a, b, c, d, e, f⟩ := of_decide_eq_true h
  exact ⟨some_of a _, b, c, d, e, f⟩

theorem gw_of {s : State} (h : (getWeave s 0 0).isSome = true) : getWeave s 0 0 = some (gw s) := some_of h _

/-- An entry that waits at its instruction. -/
def waitAt (m : Mask) (v : Wait) : Entry := { entryAt 0x10000#64 0#16 m .ready with state := .waiting v }

/-- The machine with the frontier of weave 0 given. -/
@[irreducible] noncomputable def mF (l : List Entry) : State := mW (fun w => { w with frontier := l })

def one (circle : Bool) (key : Nat) : ThreadStore := { circle := circle, va := key, key := key, data := [1#8, 2#8], full := circle, bits := [] }
def oneReq (circle : Bool) : StoreReq := { (default : StoreReq) with writes := [one circle 0x20400, one circle 0x20401], rel := none }
def twoReq (circle : Bool) : StoreReq := { oneReq circle with writes := [one circle 0x20400, one circle 0x20402] }
def arriving : Result := { v := [(32, 7#32)], u := [(4, 9#32)], p := [(33, true)] }

/-- A result on its way to each agent, a dirty line, serials that run out, stores of both kinds. -/
@[irreducible] noncomputable def mQ : State :=
  onCore (onInst (mW (fun w => { w with inflight := [arriving, arriving], storeq := [twoReq false, twoReq true] })) 0 0
    (fun i => { i with steer := { i.steer with inflight := [arriving] } })) 0 (fun x =>
      { x with nextSerial := 2 ^ 40, handler := { x.handler with inflight := [arriving] },
               l1 := [(5, { data := List.replicate 64 1#8, dirty := 1#64, bad := false })] })

theorem l1Ok_mQ : CachesOk mQ 0 := by
  have h : (getCore mQ 0).l1 = [(5, { data := List.replicate 64 1#8, dirty := 1#64, bad := false })] := by decide +kernel
  unfold CachesOk linesOk
  rw [h, show sliceOf mQ 0 = [] by decide +kernel]
  exact ⟨⟨by decide, fun e he => by simp only [List.mem_singleton] at he; rw [he]; rfl⟩, rfl, fun e he => by cases he⟩

theorem meets_Arrivals :
    (∃ w rest, getWeave mQ 0 0 = some w ∧ w.inflight = arriving :: rest) ∧ (∃ i rest, getInst mQ 0 0 = some i ∧ i.steer.inflight = arriving :: rest) ∧
      (getCore mQ 0).handler.inflight = [arriving] ∧ CachesOk mQ 0 ∧ 2 ^ 40 ≤ (getCore mQ 0).nextSerial ∧ (getCore mR 0).nextSerial < 2 ^ 40 ∧
      queueOf mQ W = [twoReq false, twoReq true] ∧ (∀ x ∈ (twoReq false).writes, wholeStore false x) ∧ direct mQ W ∧
      ∃ s, queueOf s W = [twoReq true] ∧ (∀ x ∈ (twoReq true).writes, wholeStore true x) ∧ (twoReq true).rel = none := by
  have hw : ∀ b, ∀ x ∈ (twoReq b).writes, wholeStore b x := by
    intro b x hx
    simp only [twoReq, List.mem_cons, List.not_mem_nil, or_false] at hx
    rcases hx with rfl | rfl <;> exact ⟨rfl, rfl, by simp [one], by cases b <;> decide⟩
  exact ⟨⟨gw mQ, [arriving], gw_of (by decide +kernel), by decide +kernel⟩, ⟨i0 mQ, [], some_of (by decide +kernel) _, by decide +kernel⟩, by decide +kernel,
    l1Ok_mQ, by decide +kernel, by decide +kernel, by decide +kernel, hw false, direct_of (by decide +kernel),
    mW (fun w => { w with storeq := [twoReq true] }), by decide +kernel, hw true, rfl⟩

def rcb (prio : Half) (m : Mask) : Entry := { entryAt 0x10000#64 prio m .ready with state := .atRcb }
def slept (n : Nat) : Entry := { entryAt 0x10000#64 0#16 0xffff#32 .ready with state := .sleeping n }

/-- A weave waits at a `scope` of n registers, in a role whose scopes hold at most `most`. -/
noncomputable def mGrow (n most : Nat) : State :=
  onLaunch (mF [waitAt 0xffff#32 (.grow n)]) 1 (fun l =>
    { l with header := { l.header with roles := l.header.roles.map (fun r => { r with scopeMax := most }) } })

/-- A weave waits to claim slots 30 and 31: both free, slot 31 another weave's, slot 0 its own. -/
noncomputable def mClaim (l : Sparse Slot) : State := onCore (mF [waitAt 0xffff#32 (.sclaim 30 2 0)]) 0 (fun x => { x with slots := l })
def slotBy (k : Nat) : Slot := { Slot.blank with state := .claimed, weave := k, wid := k }

/-- A weave whose threads have left, with `others` members beside it in its role's circle. -/
noncomputable def mLeft (others : List Nat) : State :=
  onInst (mW (fun w => { w with frontier := [], restart := some (0, 1#32) })) 0 0 (fun i =>
    { i with circles := i.circles.map (fun z => { z with members := others }) })

theorem meets_Releases :
    (∀ l ∈ [[rcb 5#16 0xffff#32, entryAt 0x10000#64 5#16 0xffff0000#32 .ready], [rcb 5#16 0xffff#32, entryAt 0x10000#64 4#16 0xffff0000#32 .ready]],
      Standing (mF l) 0 0 (fe (mF l) 0) (gw (mF l)) ∧ (gw (mF l)).pair = none ∧ (fe (mF l) 0).state = .atRcb ∧ (gw (mF l)).frontier = l ∧
      ∀ x ∈ (gw (mF l)).frontier, x.state = .atRcb → x = fe (mF l) 0) ∧
    (∀ n, n = 0 ∨ n = 1 → Standing (mF [slept n]) 0 0 (fe (mF [slept n]) 0) (gw (mF [slept n])) ∧ (fe (mF [slept n]) 0).state = .sleeping n ∧
      (gw (mF [slept n])).frontier = [fe (mF [slept n]) 0] ∧ coreCycles (mF [slept n]) 0 = 0) ∧
    (∀ x ∈ [(8072, 8072), (8080, 8080), (8, 7)],
      let s := mGrow x.1 x.2
      Standing s 0 0 (fe s 0) (gw s) ∧ (gw s).pair = none ∧ (gw s).Plain ∧ noBar s 0 ∧ (fe s 0).state = .waiting (.grow x.1) ∧
        waitingOf s W isGrow = some (fe s 0, .grow x.1) ∧ oldestGrow s 0 = some (0, gw s) ∧ getInst s 0 (gw s).inst = some (i0 s) ∧
        getLaunch s (i0 s).serial = some (l0 s) ∧ (∃ r, (l0 s).header.roles[(gw s).role]? = some r ∧ r.scopeMax = x.2) ∧ (gw s).scopes = [] ∧
        ((getCore s 0).weaves.map (fun x => x.2.allot)).sum = 120) ∧
    (∀ l ∈ [[], [(31, slotBy 1)], [(0, slotBy 0)]], let s := mClaim l
      Standing s 0 0 (fe s 0) (gw s) ∧ (gw s).Plain ∧ noBar s 0 ∧ (fe s 0).state = .waiting (.sclaim 30 2 0) ∧
        (∀ x ∈ (getCore s 0).weaves, x.1 = 0 ∧ x.2.frontier = [fe s 0]) ∧
        ((getSlot (getCore s 0) 30).state = .free) ∧ ((getSlot (getCore s 0) 31).state = .free ↔ l ≠ [(31, slotBy 1)]) ∧
        ((∃ y ∈ (getCore s 0).slots, slotHeld y.2 (gw s) 0 = true) ↔ l = [(0, slotBy 0)])) ∧
    (∀ size, size = 64 ∨ size = 80 →
      let s := mF [waitAt 0xffff#32 (.join 3 size)]
      Standing s 0 0 (fe s 0) (gw s) ∧ waitingOf s W isJoin = some (fe s 0, .join 3 size) ∧ getInst s 0 (gw s).inst = some (i0 s) ∧ noBar s 0 ∧
        (gw s).circles.length < 4 ∧ (i0 s).circles.find? (fun y => y.role.isNone && y.tag == 3) = none ∧
        (((i0 s).circles.filter (fun y => y.role.isNone)).map (fun y => y.size)).sum = 0 ∧ (i0 s).poolSize = 64 ∧ ∀ y ∈ (i0 s).circles, y.id < (i0 s).nextCircle) ∧
    ∀ l, l = [] ∨ l = List.range' 1 32 →
      let s := mLeft l
      getWeave s 0 0 = some (gw s) ∧ (gw s).frontier = [] ∧ (gw s).storeq = [] ∧ (gw s).restart = some (0, 1#32) ∧ getInst s 0 (gw s).inst = some (i0 s) ∧
        getLaunch s (i0 s).serial = some (l0 s) ∧ noBar s 0 ∧ (∀ x ∈ (getCore s 0).weaves, x.1 ≠ 0 → x.2.restart = none) ∧
        ∃ r z, (l0 s).header.succents[0]? = some r ∧ r.allot ≤ (gw s).allot ∧ (i0 s).circles.find? (fun z => z.id == r.role) = some z ∧
          (nerase z.members 0).length = l.length ∧ placesTaken s 0 (gw s).inst 0 r.role (gw s) = l.length ∧
          lands s 0 (agentVf s (.weave 0 0)) r.pc := by
  refine ⟨?_, ?_, ?_, ?_, ?_, ?_⟩
  · intro l hl
    simp only [List.mem_cons, List.not_mem_nil, or_false] at hl
    rcases hl with rfl | rfl <;>
      exact ⟨standing_of (by decide +kernel), by decide +kernel, by decide +kernel, by decide +kernel, by decide +kernel⟩
  · rintro n (rfl | rfl) <;> exact ⟨standing_of (by decide +kernel), by decide +kernel, by decide +kernel, by decide +kernel⟩
  · intro x hx
    simp only [List.mem_cons, List.not_mem_nil, or_false] at hx
    rcases hx with rfl | rfl | rfl <;>
      exact ⟨standing_of (by decide +kernel), by decide +kernel, plain_of (by decide +kernel), noBar_of (by decide +kernel), by decide +kernel,
        by decide +kernel, by decide +kernel, inst_of (by decide +kernel), launch_of (by decide +kernel),
        ⟨_, some_of (by decide +kernel) default, by decide +kernel⟩, by decide +kernel, by decide +kernel⟩
  · intro l hl
    simp only [List.mem_cons, List.not_mem_nil, or_false] at hl
    rcases hl with rfl | rfl | rfl <;>
      exact ⟨standing_of (by decide +kernel), plain_of (by decide +kernel), noBar_of (by decide +kernel), by decide +kernel, by decide +kernel,
        by decide +kernel, by decide +kernel, by decide +kernel⟩
  · rintro n (rfl | rfl) <;>
      exact ⟨standing_of (by decide +kernel), by decide +kernel, inst_of (by decide +kernel), noBar_of (by decide +kernel), by decide +kernel,
        by decide +kernel, by decide +kernel, by decide +kernel, by decide +kernel⟩
  · rintro l (rfl | rfl) <;>
      exact ⟨gw_of (by decide +kernel), by decide +kernel, by decide +kernel, by decide +kernel, inst_of (by decide +kernel), launch_of (by decide +kernel),
        noBar_of (by decide +kernel), by decide +kernel, _, _, some_of (by decide +kernel) default, by decide +kernel,
        some_of (by decide +kernel) default, by decide +kernel, by decide +kernel, lands_of (by decide +kernel)⟩
/-! ## Events: wakes, waits that end, engines -/

def feReq (clear : Bool) : FeLoad := { dst := .lane 10, width := .b64, clear := clear, addrs := (threadsOf 0xffff#32).map (fun u => (u, 16 * u)), seq := 0 }

/-- One of granule 0 by a uniform thread. -/
def feUni (clear : Bool) : FeLoad := { dst := .uni (.s 4#6), width := .b64, clear := clear, addrs := [(0, 0)], seq := 0 }

/-- A full/empty load of 16 granules that waits, its granules full or the last one empty. -/
noncomputable def mFe (full : Bool) : State :=
  onCore (mF [waitAt 0xffff#32 (.feLoad (feReq true))]) 0 (fun x => { x with full := List.range (if full then 16 else 15) })

/-- The load of a steer thread, or of the handler slot, that waits; granule 0 full or not. -/
noncomputable def mFeSteer (full : Bool) : State :=
  onInst (onCore mR 0 (fun x => { x with full := if full then [0] else [] })) 0 0 (fun i =>
    { i with steer := { i.steer with entry := some (waitAt 1#32 (.feLoad (feUni true))) } })
noncomputable def mFeHandler (full : Bool) : State :=
  onCore mR 0 (fun x => { x with full := if full then [0] else [], handler := { x.handler with wait := some (.feLoad (feUni true)) } })

/-- The steer thread waits to append to a queue of `n` decisions. -/
noncomputable def mPush (n : Nat) : State :=
  onInst mR 0 0 (fun i =>
    { i with decisions := List.replicate n 0#64, steer := { i.steer with entry := some (waitAt 1#32 (.dpush 7#64)) } })

/-- A weave waits for a decision, with and without one, with and without a steer thread. -/
noncomputable def mPop (l : List Double) (steer : Bool) : State :=
  onInst (mF [waitAt 0xffff#32 (.dpop (.s 4#6) true)]) 0 0 (fun i =>
    { i with decisions := l, steer := { i.steer with entry := if steer then i.steer.entry else none } })

/-- A weave of role 1 waits at its wale, or one of role 0 to append to it. -/
noncomputable def mWale (role : Nat) (v : Wait) (wale : List (List Word)) : State :=
  onInst (mW (fun w => { w with role := role, frontier := [waitAt 0xffff#32 v] })) 0 0 (fun i => { i with wales := [wale, [], []] })

def line1 : List Word := List.replicate 32 5#32

theorem meets_Wakes :
    (∀ b, Standing (mFe b) 0 0 (fe (mFe b) 0) (gw (mFe b)) ∧ (gw (mFe b)).Plain ∧ (fe (mFe b) 0).state = .waiting (.feLoad (feReq true)) ∧
      (gw (mFe b)).frontier = [fe (mFe b) 0] ∧ (fe (mFe b) 0).mask = 0xffff#32 ∧
      feWaiting (getCore (mFe b) 0) = [(0, feReq true)] ∧ (nmem (getCore (mFe b) 0).full 15 = b) ∧
      (∀ g, g < 15 → nmem (getCore (mFe b) 0).full g = true) ∧ ∀ u, u < 16 → circleBad (getCore (mFe b) 0) (16 * u) 8 = false) ∧
    (∀ b, ∀ x ∈ [(mFeSteer b, Agent.steer 0 0), (mFeHandler b, .handler 0)],
      (∃ p, waitingOf x.1 x.2 isFe = some p ∧ p.2 = .feLoad (feUni true) ∧ Waiting x.1 x.2 p.1) ∧ settled x.1 x.2 ∧ isPaired x.1 x.2 = false ∧
        feWaiting (getCore x.1 0) = [(0, feUni true)] ∧ circleBad (getCore x.1 0) 0 8 = false ∧ nmem (getCore x.1 0).full 0 = b) ∧
    (∀ n, n = 31 ∨ n = 32 → getInst (mPush n) 0 0 = some (i0 (mPush n)) ∧ (i0 (mPush n)).decisions.length = n ∧ (i0 (mPush n)).steer.storeq = [] ∧
      (i0 (mPush n)).steer.entry = some (waitAt 1#32 (.dpush 7#64))) ∧
    (∀ l ∈ [[5#64], []], ∀ b, let s := mPop l b;
      Standing s 0 0 (fe s 0) (gw s) ∧ (gw s).pair = none ∧ getInst s 0 (gw s).inst = some (i0 s) ∧ getLaunch s (i0 s).serial = some (l0 s) ∧
        waitingOf s W isDpop = some (fe s 0, .dpop (.s 4#6) true) ∧ (∀ x ∈ instWaits (getCore s 0) (gw s).inst isDpop, (fe s 0).parkedAt ≤ x.1) ∧
        (i0 s).decisions = l ∧ ((i0 s).steer.entry = none ↔ b = false)) ∧
    (∀ l ∈ [[], [line1]], let s := mWale 0 (.wpush line1) l;
      Standing s 0 0 (fe s 0) (gw s) ∧ getInst s 0 (gw s).inst = some (i0 s) ∧ getLaunch s (i0 s).serial = some (l0 s) ∧
        waitingOf s W isWpush = some (fe s 0, .wpush line1) ∧ (∀ x ∈ stageWaits (getCore s 0) (gw s).inst (gw s).role isWpush, (fe s 0).parkedAt ≤ x.1) ∧
        (i0 s).wales.getD (gw s).role [] = l ∧ (l0 s).header.wdepth.getD (gw s).role 0 = 1) ∧
    ∀ l ∈ [[], [line1]], let s := mWale 1 (.wpop 12#7 2#3) l;
      Standing s 0 0 (fe s 0) (gw s) ∧ waitingOf s W isWpop = some (fe s 0, .wpop 12#7 2#3) ∧
        (∀ x ∈ stageWaits (getCore s 0) (gw s).inst (gw s).role isWpop, (fe s 0).parkedAt ≤ x.1) ∧ (i0 s).wales.getD ((gw s).role - 1) [] = l ∧
        stageCount (getCore s 0) (gw s).inst ((gw s).role - 1) = 0 := by
  refine ⟨?_, ?_, ?_, ?_, ?_, ?_⟩
  · intro b
    cases b <;>
      exact ⟨standing_of (by decide +kernel), plain_of (by decide +kernel), by decide +kernel, by decide +kernel, by decide +kernel, by decide +kernel,
        by decide +kernel, by decide +kernel, by decide +kernel⟩
  · intro b x hx
    simp only [List.mem_cons, List.not_mem_nil, or_false] at hx
    rcases hx with rfl | rfl <;> cases b <;>
      exact ⟨⟨_, some_of (by decide +kernel) (default, Wait.yieldQ), by decide +kernel, fun _ _ h => (by cases h), by decide +kernel⟩,
        ⟨by decide +kernel, fun _ _ _ h => (by cases h)⟩, by decide +kernel, by decide +kernel, by decide +kernel, by decide +kernel⟩
  · rintro n (rfl | rfl) <;> exact ⟨some_of (by decide +kernel) _, by decide +kernel, by decide +kernel, by decide +kernel⟩
  · intro l hl b
    simp only [List.mem_cons, List.not_mem_nil, or_false] at hl
    rcases hl with rfl | rfl <;> cases b <;>
      exact ⟨standing_of (by decide +kernel), by decide +kernel, inst_of (by decide +kernel), launch_of (by decide +kernel), by decide +kernel,
        by decide +kernel, by decide +kernel, by decide +kernel⟩
  · intro l hl
    simp only [List.mem_cons, List.not_mem_nil, or_false] at hl
    rcases hl with rfl | rfl <;>
      exact ⟨standing_of (by decide +kernel), inst_of (by decide +kernel), launch_of (by decide +kernel), by decide +kernel, by decide +kernel,
        by decide +kernel, by decide +kernel⟩
  · intro l hl
    simp only [List.mem_cons, List.not_mem_nil, or_false] at hl
    rcases hl with rfl | rfl <;>
      exact ⟨standing_of (by decide +kernel), by decide +kernel, by decide +kernel, by decide +kernel, by decide +kernel⟩

/-- As mU, with weave 0 waiting. -/
@[irreducible] noncomputable def mWait (v : Wait) : State := onWeave mU 0 0 (fun w => { w with frontier := [waitAt 0xffff#32 v] })

theorem waiting_of {s : State} (h : standB s 0 = true) (h2 : decide (commitAgent s W = s) = true) : Waiting s W (fe s 0) :=
  ⟨fun _ _ e => by cases e; exact ⟨_, standing_of h⟩, of_decide_eq_true h2⟩

theorem settled_of {s : State} (h : (getWeave s 0 0).isSome = true) (hp : (gw s).Plain) : settled s W := by
  refine ⟨?_, fun c k w hx hw => ?_⟩
  · show (match getWeave s 0 0 with | some w => w.storeq | none => []) = []
    rw [gw_of h]; exact hp.drained
  · cases hx
    rw [gw_of h] at hw
    cases hw
    exact hp

/-- A counter of 0 with counts of 0 and 1; records of status 3 and 0, with the limit passed and ahead; a post; a quiescent weave and another. -/
theorem meets_WaitsEnd :
    (∀ n, n = 0 ∨ n = 1 → let s := mWait (.waitc 0x20480#64 n);
      waitingOf s W isWaitc = some (fe s 0, .waitc 0x20480#64 n) ∧ (∀ x ∈ waitersOf s W isWaitc, x.1 = fe s 0) ∧ Waiting s W (fe s 0) ∧ settled s W ∧ Reaches s W 0x20480 8 .load leafM ∧
        sound s 0 (leafKey s leafM 0x20480) ∧ CachesOk s 0 ∧
        natLE ((List.range 8).map (fun j => ownByte s W (homeByte s 0) (leafKey s leafM 0x20480 + j))) = 0) ∧
    (∀ v, v = 0 ∨ v = 1 → let s := mWait (.waitn (.s 4#6) 0x20400#64 (some v));
      waitingOf s W isWaitn = some (fe s 0, .waitn (.s 4#6) 0x20400#64 (some v)) ∧ Waiting s W (fe s 0) ∧ isPaired s W = false ∧ CachesOk s 0 ∧
        coreCycles s 0 = 0 ∧ (∀ x ∈ waitersOf s W isWaitn, x.1 = fe s 0) ∧ ∃ s3, readNodeStatus s W 0x20400#64 = (.ok 3, s3)) ∧
    (let s := mWait (.waitn (.s 4#6) 0x20480#64 none);
      waitingOf s W isWaitn = some (fe s 0, .waitn (.s 4#6) 0x20480#64 none) ∧ (∀ x ∈ waitersOf s W isWaitn, x.1 = fe s 0) ∧
        Waiting s W (fe s 0) ∧ ∃ s3, readNodeStatus s W 0x20480#64 = (.ok 0, s3)) ∧
    (let s := mWait (.nodeput (.s 4#6) 0x20400#64);
      waitingOf s W isNodeput = some (fe s 0, .nodeput (.s 4#6) 0x20400#64) ∧
        Waiting (postCode (postNode s (agentVf s W) 0x20400 (partOf 0))).2 W (fe s 0)) ∧
    ∀ b, let s := onWeave (mWait .yieldQ) 0 0 (fun w => { w with inflight := if b then [] else [arriving] });
      Standing s 0 0 (fe s 0) (gw s) ∧ (gw s).frontier = [fe s 0] ∧ (fe s 0).state = .waiting .yieldQ ∧ (gw s).pair = none ∧
        getInst s 0 (gw s).inst = some (i0 s) ∧ getLaunch s (i0 s).serial = some (l0 s) ∧ (l0 s).node.yieldable = false ∧
        weaveQuiet (getCore s 0) 0 (gw s) = b := by
  refine ⟨?_, ?_, ⟨by decide +kernel, by decide +kernel, waiting_of (by decide +kernel) (by decide +kernel), _, pair_of (ok_of (by decide +kernel))⟩,
    ⟨by decide +kernel, ?_⟩, ?_⟩
  · rintro n (rfl | rfl) <;>
      exact ⟨by decide +kernel, by decide +kernel, waiting_of (by decide +kernel) (by decide +kernel), settled_of (by decide +kernel) (plain_of (by decide +kernel)),
        reaches_of (by decide +kernel), sound_of (by decide +kernel), caches_of (by decide +kernel), by decide +kernel⟩
  · rintro n (rfl | rfl) <;>
      exact ⟨by decide +kernel, waiting_of (by decide +kernel) (by decide +kernel), by decide +kernel, caches_of (by decide +kernel), by decide +kernel,
        by decide +kernel, _, pair_of (ok_of (by decide +kernel))⟩
  · have h : standB (postCode (postNode (mWait (.nodeput (.s 4#6) 0x20400#64)) (agentVf (mWait (.nodeput (.s 4#6) 0x20400#64)) W) 0x20400 (partOf 0))).2 0 = true ∧
        fe (postCode (postNode (mWait (.nodeput (.s 4#6) 0x20400#64)) (agentVf (mWait (.nodeput (.s 4#6) 0x20400#64)) W) 0x20400 (partOf 0))).2 0
          = fe (mWait (.nodeput (.s 4#6) 0x20400#64)) 0 := by decide +kernel
    have := waiting_of h.1 (by decide +kernel)
    rwa [h.2] at this
  · intro b
    cases b <;>
      exact ⟨standing_of (by decide +kernel), by decide +kernel, by decide +kernel, by decide +kernel, inst_of (by decide +kernel), launch_of (by decide +kernel),
        by decide +kernel, by decide +kernel⟩
noncomputable def cmd (op : CmdOp) : Cmd :=
  { op := op, issuer := W, inst := 0, pc := 0x10000#64, prio := 0#16, tid := 0, ctr := none, seq := 0, window := [none, none, none], fault := none, started := false,
    held := false }

/-- A command at the head of queue `q`. -/
noncomputable def mCmd (q : Nat) (m : Cmd) : State := onCore mT 0 (fun x => { x with queues := (List.replicate 4 ([] : List Cmd)).set q [m] })

theorem performs_of {s : State} {q : Nat} {m : Cmd} (h : decide (headCmd s 0 q = some m ∧ (pairOf s m.issuer).isNone = true ∧
    (getCore s 0).tile = none ∧ (weavesOf (getCore s 0) m.inst).isEmpty = false) = true) : Performs s 0 q m := by
  obtain ⟨a, b, c, d⟩ := of_decide_eq_true h
  exact ⟨a, Option.isNone_iff_eq_none.mp b, fun _ => c, fun e => by rw [e] at d; cases d⟩

/-- The record of the tensor. -/
def rawT : Nat := 0x30000 + 256 * 2 ^ 57 + 256 * 2 ^ 89 + 64 * 2 ^ 217 + 2 ^ 459 + 2 * 2 ^ 479

/-- What an evaluation gives, whatever its kind of error. -/
def has {ε α : Type} [DecidableEq α] (x : Except ε α) (a : α) : Bool := match x with | .ok b => decide (b = a) | .error _ => false

theorem has_of {ε α : Type} [DecidableEq α] {x : Except ε α} {a : α} (h : has x a = true) : x = .ok a := by
  unfold has at h
  cases x with
  | error _ => cases h
  | ok b => simp at h; rw [h]

def winT : RimWin := { row := 127, col := 127, er := 0, ec := 0 }
noncomputable def cIn : Cmd := cmd (.cpyIn rawT xs0 0 0 0)
noncomputable def cInBad : Cmd := cmd (.cpyIn rawT [0, 2 ^ 32 - 1, 0, 0, 0] 0 0 0)
noncomputable def cOut : Cmd := cmd (.cpyOut rawT xs0 0 0 0)
noncomputable def cG : Cmd := cmd (.cpyG 0x30000 0x50000000 16)
noncomputable def cStk : Cmd := { cmd (.stkLd 0 0 rawT xs0) with window := [some 0, none, none] }
noncomputable def cRzero : Cmd := cmd (.rzero 7)
noncomputable def cLd (k : Option Nat) : Cmd := cmd (.rimLd 7 rawT xs0 winT .rn k)
noncomputable def cSt (k : Option Nat) : Cmd := cmd (.rimSt 7 rawT xs0 winT .rn k)
noncomputable def cSrel (u n : Nat) : Cmd := cmd (.srel u n 0 0)
noncomputable def cCtr : Cmd := { cRzero with ctr := some (0x20480#64, .tn) }

/-- The second GiB, mapped to the same frames; its copies are another page. -/
noncomputable def mTwo (q : Nat) (m : Cmd) : State := writeMem (mCmd q m) (memKey (mCmd q m).device 0x3008) (bytesLE 8 0xcf00000000000000)

/-- One element, one unit, one row; the last place of a tile; slots and tiles at both ends of their numbers. -/
theorem meets_EnginePerforms :
    (Performs (mCmd 0 cIn) 0 0 cIn ∧ ∃ d, (readRows (homeRd (engOf (mCmd 0 cIn) 0 0 cIn)) (TRec.of rawT) cIn.window xs0 (2 ^ 0) (List.range (2 ^ 0))
        (flushL1 (mCmd 0 cIn) 0)).1 = .ok d) ∧
    (Performs (mCmd 1 cInBad) 0 1 cInBad ∧ (readRows (homeRd (engOf (mCmd 1 cInBad) 0 1 cInBad)) (TRec.of rawT) cInBad.window [0, 2 ^ 32 - 1, 0, 0, 0]
        (2 ^ 0) (List.range (2 ^ 0)) (flushL1 (mCmd 1 cInBad) 0)).1 = .error (cNOTPRESENT, 0x2000002fe00)) ∧
    (Performs (mCmd 0 cOut) 0 0 cOut ∧ circleBad (getCore (flushL1 (mCmd 0 cOut) 0) 0) 0 (packedSize (recFmt (TRec.of rawT)) 0 0) = false ∧
      (writeElems (engOf (mCmd 0 cOut) 0 0 cOut) (TRec.of rawT) cOut.window (boxElems (recFmt (TRec.of rawT))
        (circleBytes (getCore (flushL1 (mCmd 0 cOut) 0) 0) 0 (packedSize (recFmt (TRec.of rawT)) 0 0)) xs0 0 0) (flushL1 (mCmd 0 cOut) 0)).1 = .ok ()) ∧
    (Performs (mTwo 3 cG) 0 3 cG ∧ (copyUnits (engOf (mTwo 3 cG) 0 3 cG) (flushL1 (mTwo 3 cG) 0) 0x30000 0x50000000 (List.range (16 / 16))
        (flushL1 (mTwo 3 cG) 0)).1 = .ok ()) ∧
    (Performs (mCmd 2 cStk) 0 2 cStk ∧ (loadBox (engOf (mCmd 2 cStk) 0 2 cStk) (homeRd (engOf (mCmd 2 cStk) 0 2 cStk)) 0 0 (TRec.of rawT) xs0
        (flushL1 (mCmd 2 cStk) 0)).1 = .ok () ∧ Performs (mCmd 2 cRzero) 0 2 cRzero ∧ (∀ k, k = none ∨ k = some 64 → Performs (mCmd 2 (cLd k)) 0 2 (cLd k) ∧
        Performs (mCmd 2 (cSt k)) 0 2 (cSt k) ∧ (getRim (getCore (flushL1 (mCmd 2 (cLd k)) 0) 0) 7).bad = false) ∧
      (loadWin (engOf (mCmd 2 (cLd none)) 0 2 (cLd none)) (homeRd (engOf (mCmd 2 (cLd none)) 0 2 (cLd none))) 7 (TRec.of rawT) xs0 winT .rn
        (flushL1 (mCmd 2 (cLd none)) 0)).1 = .ok () ∧
      (storeWin (engOf (mCmd 2 (cSt none)) 0 2 (cSt none)) 7 (TRec.of rawT) xs0 winT .rn (flushL1 (mCmd 2 (cSt none)) 0)).1 = .ok () ∧
      (winT.row + 2 ^ winT.er ≤ 128 ∧ winT.col + 2 ^ winT.ec ≤ 128) ∧
      circleBad (getCore (flushL1 (mCmd 2 (cLd (some 64))) 0) 0) 64 (packedSize (recFmt (TRec.of rawT)) 0 0) = false ∧
      Performs (mCmd 2 (cSrel 31 1)) 0 2 (cSrel 31 1) ∧ Performs (mCmd 2 (cSrel 32 8)) 0 2 (cSrel 32 8)) ∧
    let g := engOf (mCmd 2 cCtr) 0 2 cCtr;
    g.trail = false ∧ (∀ l, g.serial.bind (getLaunch (mCmd 2 cCtr)) = some l → staging l = false ∧ l.staged = []) ∧ CachesOk (mCmd 2 cCtr) 0 ∧
      ∃ k s1, k % 8 = 0 ∧ translate (mCmd 2 cCtr) 0 g.vf 0x20480 .atomic false = (.ok k, s1) ∧ sound s1 0 k := by
  refine ⟨⟨performs_of (by decide +kernel), [0#8, 0x3c#8, 0#8, 0#8, 0#8, 0#8, 0#8, 0#8], has_of (by decide +kernel)⟩, ⟨performs_of (by decide +kernel), ?_⟩,
    ⟨performs_of (by decide +kernel), by decide +kernel, has_of (by decide +kernel)⟩, ⟨performs_of (by decide +kernel), has_of (by decide +kernel)⟩,
    ⟨performs_of (by decide +kernel), has_of (by decide +kernel), performs_of (by decide +kernel), ?_, has_of (by decide +kernel), has_of (by decide +kernel), by decide,
      by decide +kernel, performs_of (by decide +kernel), performs_of (by decide +kernel)⟩, by decide +kernel, ?_, caches_of (by decide +kernel), ?_⟩
  · have h : (match (readRows (homeRd (engOf (mCmd 1 cInBad) 0 1 cInBad)) (TRec.of rawT) cInBad.window [0, 2 ^ 32 - 1, 0, 0, 0]
        (2 ^ 0) (List.range (2 ^ 0)) (flushL1 (mCmd 1 cInBad) 0)).1 with | .ok _ => (0, 0) | .error c => c) = (cNOTPRESENT, 0x2000002fe00) := by decide +kernel
    split at h
    · simp [cNOTPRESENT] at h
    · rename_i hx; rw [hx, h]
  · rintro k (rfl | rfl) <;> exact ⟨performs_of (by decide +kernel), performs_of (by decide +kernel), by decide +kernel⟩
  · have h : directB (mCmd 2 cCtr) W = true := by decide +kernel
    have hb : (engOf (mCmd 2 cCtr) 0 2 cCtr).serial.bind (getLaunch (mCmd 2 cCtr)) = agentLaunch (mCmd 2 cCtr) W := by decide +kernel
    intro l hl
    rw [hb] at hl
    exact ⟨(direct_of h l hl).1, (direct_of h l hl).2.1⟩
  · exact ⟨0x20480, _, by decide, pair_of (ok_of (by decide +kernel)), sound_of (by decide +kernel)⟩
/-! ## Events: exceptions, containment, paired copies -/

/-- A parked entry. -/
def parkedAs (cause : Nat) (addr : Double) : Entry := { waitAt 0xffff0000#32 .ckpt with state := .parked, cause := cause, addr := addr }

/-- Weave 0 with a parked entry, the trap vector given. -/
noncomputable def mPark (cause : Nat) (tvec : Double) : State :=
  onVf (mF [entryAt 0x10000#64 0#16 0xffff#32 .ready, parkedAs cause 0x1234#64]) 0 (fun v => { v with tvec := tvec })

/-- The steer thread parked. -/
noncomputable def mParkS : State :=
  onVf (onInst mR 0 0 (fun i => { i with steer := { i.steer with entry := some { parkedAs 0x12 5#64 with mask := 1#32 } } })) 0 (fun v => { v with tvec := 0x100#64 })

noncomputable def cBad : Cmd := { cRzero with fault := some (0x12, 7#64, 3) }

/-- A stopped queue. -/
noncomputable def mStop : State := onVf (mCmd 2 cBad) 0 (fun v => { v with tvec := 0x100#64 })

theorem launchOf {s : State} {n : Nat} (h : n = 1 ∧ (getLaunch s 1).isSome = true) : getLaunch s n = some (l0 s) := by
  rw [h.1]; exact some_of h.2 _

/-- A cause in the range of the address register, one below it, and PAIR_FAIL, with a vector and without. -/
theorem meets_ExceptionsTaken :
    (∀ cause tvec, (cause, tvec) ∈ [(0x10, 0x100#64), (0x0f, 0x100#64), (0x10, 0#64), (cPAIRFAIL, 0x100#64)] →
      let s := mPark cause tvec;
      let p : Pending := { cause := cause, at_ := 0, target := .weave 0 16, serial := 1 };
      (getCore s 0).handler.run = none ∧ pendings s 0 = [p] ∧ cause ≠ cPOISON ∧ getLaunch s p.serial = some (l0 s) ∧ (l0 s).vf = 0 ∧ (getVf s 0).tvec = tvec ∧
        getWeave s 0 0 = some (gw s) ∧ (gw s).frontier[1]? = some (fe s 1) ∧ lowest (fe s 1).mask = 16 ∧ (fe s 1).state = .parked ∧ (fe s 1).spill = none ∧
        (∀ x ∈ (gw s).frontier, x.state = .parked → x = fe s 1) ∧ (∀ x ∈ (gw s).frontier, x.mask = (fe s 1).mask → x = fe s 1) ∧
        (gw s).frontier[0]? ≠ some (fe s 1) ∧ getInst s 0 (gw s).inst = some (i0 s)) ∧
    (pendings mParkS 0 = [{ cause := 0x12, at_ := 0, target := .steer 0, serial := 1 }] ∧ (getCore mParkS 0).handler.run = none ∧
      getLaunch mParkS 1 = some (l0 mParkS) ∧ (getVf mParkS (l0 mParkS).vf).tvec ≠ 0#64 ∧ getInst mParkS 0 0 = some (i0 mParkS) ∧
      (i0 mParkS).steer.entry = some { parkedAs 0x12 5#64 with mask := 1#32 }) ∧
    pendings mStop 0 = [{ cause := 0x12, at_ := 3, target := .engine 2, serial := 1 }] ∧ (getCore mStop 0).handler.run = none ∧
      getLaunch mStop 1 = some (l0 mStop) ∧ (getVf mStop (l0 mStop).vf).tvec ≠ 0#64 ∧ inQueue mStop 0 2 = [cBad] ∧ cBad.issuer = .weave 0 0 ∧
      getWeave mStop 0 0 = some (gw mStop) ∧ getInst mStop 0 cBad.inst = some (i0 mStop) := by
  refine ⟨?_, ⟨by decide +kernel, by decide +kernel, launchOf (by decide +kernel), by decide +kernel, some_of (by decide +kernel) _, by decide +kernel⟩,
    by decide +kernel, by decide +kernel, launchOf (by decide +kernel), by decide +kernel, by decide +kernel, rfl, gw_of (by decide +kernel),
    some_of (by decide +kernel) _⟩
  intro cause tvec h
  simp only [List.mem_cons, Prod.mk.injEq, List.not_mem_nil, or_false] at h
  rcases h with ⟨rfl, rfl⟩ | ⟨rfl, rfl⟩ | ⟨rfl, rfl⟩ | ⟨rfl, rfl⟩ <;>
    exact ⟨by decide +kernel, by decide +kernel, by decide, launchOf (by decide +kernel), by decide +kernel, by decide +kernel, gw_of (by decide +kernel),
      by decide +kernel, by decide +kernel, by decide +kernel, by decide +kernel, by decide +kernel, by decide +kernel, by decide +kernel,
      inst_of (by decide +kernel)⟩

/-- A launch that consumed poisoned data: restartable and put back `n` times, or not restartable. -/
noncomputable def mPoison (restartable : Bool) (n : Nat) : State :=
  onLaunch mR 1 (fun l => { l with poison := some 5, requeues := n, node := { l.node with restartable := restartable } })

theorem meets_Contained :
    LaneTurn m0 0 0 e0 w0 ∧ w0.Plain ∧ noBar m0 0 ∧ UniTurn mS (.steer 0 0) (en mS (.steer 0 0)) ∧ getLaunch mR (l0 mR).serial = some (l0 mR) ∧
      (l0 mR).poison = none ∧ getLaunch mR 7 = none ∧
      ∀ b n, (b, n) ∈ [(true, 2), (true, 3), (false, 0)] → let s := mPoison b n;
        getLaunch s (l0 s).serial = some (l0 s) ∧ (l0 s).poison = some 5 ∧ (l0 s).requeues = n ∧ staging (l0 s) = b := by
  refine ⟨turn_m0, plain_m0, noBar_m0, turn_S, launchOf (by decide +kernel), by decide +kernel, by decide +kernel, ?_⟩
  intro b n h
  simp only [List.mem_cons, Prod.mk.injEq, List.not_mem_nil, or_false] at h
  rcases h with ⟨rfl, rfl⟩ | ⟨rfl, rfl⟩ | ⟨rfl, rfl⟩ <;>
    exact ⟨launchOf (by decide +kernel), by decide +kernel, by decide +kernel, by decide +kernel⟩

def pair0 (trailing : Bool) (l : List Group) : Pair :=
  { trailing := trailing, peerCore := if trailing then 0 else 1, peerSlot := 0, lvq := [], members := [], count := 0, open_ := [], num := 1, closed := l,
    base := none, log := [], full := false, replay := [], upTo := 0, mismatch := [], lines := 0 }

/-- A leading and a trailing copy on cores 0 and 1. -/
@[irreducible] noncomputable def mCopies (l : List Entry) (allot : Nat) (p q : Pair) : State :=
  let s := mW (fun w => { w with frontier := l, allot := allot, pair := some p });
  onWeave (putCore s 1 (getCore s 0)) 1 0 (fun w => { w with pair := some q })

noncomputable def gw1 (s : State) : Weave := (getWeave s 1 0).getD default
noncomputable def fe1 (s : State) : Entry := ((gw1 s).frontier[0]?).getD default

def grp (n : Nat) (sig : BitVec 64) : Group := { num := n, sig := sig, ops := [] }
def both0 : List Entry := [entryAt 0x10000#64 0#16 0xffffffff#32 .ready]

/-- A pair whose checkpoint may be returned to. -/
noncomputable def based (p : Pair) : Pair := { p with base := some (snapOf (gw mR)) }

noncomputable def mCkpt (allot : Nat) : State := mCopies [waitAt 0xffffffff#32 .ckpt] allot (pair0 false []) (pair0 true [])

theorem standing1_of {s : State} (h : decide ((getWeave s 1 0).isSome = true ∧ (gw1 s).frontier = [fe1 s] ∧ (fe1 s).mask ≠ 0#32 ∧ (fe1 s).spill = none ∧
    (held ((gw1 s).frontier.filter (fun x => x.mask &&& (fe1 s).mask == 0#32))).length < 16) = true) : Standing s 1 0 (fe1 s) (gw1 s) := by
  obtain ⟨a, b, c, d, e⟩ := of_decide_eq_true h
  refine ⟨some_of a _, by rw [b]; exact List.mem_singleton.mpr rfl, c, fun x hx _ => ?_, d, e⟩
  rw [b] at hx
  exact List.mem_singleton.mp hx

theorem signed_of {s : State} {w x : Weave} (h : decide (w.v = x.v ∧ w.preds = x.preds ∧ w.flags = x.flags ∧ w.mode = x.mode ∧ w.s = x.s ∧ w.q = x.q) = true)
    (h2 : decide (w.frontier.map (fun e => (e.pc, e.prio, e.mask)) = x.frontier.map (fun e => (e.pc, e.prio, e.mask)) ∧ w.scopes = x.scopes ∧
      stackNames s 0 w = stackNames s 1 x ∧ w.gens = x.gens) = true) : signedState s 0 w = signedState s 1 x := by
  obtain ⟨a, b, c, d, e, f⟩ := of_decide_eq_true h
  obtain ⟨g, i, j, k⟩ := of_decide_eq_true h2
  unfold signedState
  rw [a, b, c, d, e, f, g, i, j, k]

/-- Oldest groups that are equal, differ, differ with a checkpoint to return to, and have other numbers; room for a checkpoint and none; an exit with
nothing unmatched and with a group. -/
theorem meets_PairedCopies :
    (∀ p q, (p, q) ∈ [(pair0 false [grp 1 5#64], pair0 true [grp 1 5#64]), (pair0 false [grp 1 5#64], pair0 true [grp 1 6#64]),
        (pair0 false [grp 1 5#64], pair0 true [grp 2 5#64]), (based (pair0 false [grp 1 5#64]), based (pair0 true [grp 1 6#64]))] →
      let s := mCopies both0 120 p q;
      bothCopies s (pairAgent 0 0) = some ((.weave 0 0, p), (.weave 1 0, q)) ∧ getWeave s 0 0 = some (gw s) ∧ getWeave s 1 0 = some (gw1 s) ∧
        (gw s).frontier = both0 ∧ (gw1 s).frontier = both0 ∧ agentLaunch s (.weave 0 0) = some (l0 s)) ∧
    covered 1 (based (pair0 false [])) = true ∧ covered 1 (pair0 false []) = false ∧
    (∀ n, n = 120 ∨ n = 10000000 → let s := mCkpt n;
      bothCopies s (.weave 0 0) = some ((.weave 0 0, pair0 false []), (.weave 1 0, pair0 true [])) ∧ waitingOf s (.weave 0 0) isCkpt = some (fe s 0, .ckpt) ∧
        waitingOf s (.weave 1 0) isCkpt = some (fe1 s, .ckpt) ∧ Standing s 0 0 (fe s 0) (gw s) ∧ Standing s 1 0 (fe1 s) (gw1 s) ∧
        signedState s 0 (gw s) = signedState s 1 (gw1 s) ∧ getInst s 0 (gw s).inst = some (i0 s) ∧ getLaunch s (i0 s).serial = some (l0 s) ∧
        (lineAvailable s (l0 s).part (l0 s).vf (checkpointLines (gw s) - 0) = true ↔ n = 120)) ∧
    ∀ g, g = [] ∨ g = [grp 1 5#64] → let s := mCopies [waitAt 0xffff#32 .pairExit, entryAt 0x10000#64 0#16 0xffff0000#32 .ready] 120 (pair0 false g) (pair0 true []);
      Standing s 0 0 (fe s 0) (gw s) ∧ (gw s).pair = some (pair0 false g) ∧ noBar s 0 ∧
        waitingOf s (.weave 0 0) (fun v => v == .pairExit) = some (fe s 0, .pairExit) ∧ ∃ x ∈ (gw s).frontier, x.mask &&& (fe s 0).mask = 0#32 := by
  refine ⟨?_, by decide +kernel, by decide, ?_, ?_⟩
  · intro p q h
    simp only [List.mem_cons, Prod.mk.injEq, List.not_mem_nil, or_false] at h
    have ha : ∀ s : State, agentLaunch s (.weave 0 0) = getLaunch s 1 → (getLaunch s 1).isSome = true → agentLaunch s (.weave 0 0) = some (l0 s) :=
      fun s h1 h2 => by rw [h1]; exact some_of h2 _
    rcases h with ⟨rfl, rfl⟩ | ⟨rfl, rfl⟩ | ⟨rfl, rfl⟩ | ⟨rfl, rfl⟩ <;>
      exact ⟨by decide +kernel, gw_of (by decide +kernel), some_of (by decide +kernel) _, by decide +kernel, by decide +kernel,
        ha _ (by decide +kernel) (by decide +kernel)⟩
  · rintro n (rfl | rfl) <;>
      exact ⟨by decide +kernel, by decide +kernel, by decide +kernel, standing_of (by decide +kernel), standing1_of (by decide +kernel),
        signed_of (by decide +kernel) (by decide +kernel), inst_of (by decide +kernel), launch_of (by decide +kernel), by decide +kernel⟩
  · rintro n (rfl | rfl) <;>
      exact ⟨standing_of (by decide +kernel), by decide +kernel, noBar_of (by decide +kernel), by decide +kernel, by decide +kernel⟩
/-! ## Events: errors, the module, management -/

theorem getCore_put (s : State) (x : Core) : getCore (putCore s 0 x) 0 = x := by rw [getCore_putCore_self]

/-- An injector armed for class 0, its shot at event `n` or its rate given. -/
def inj (arm : Double) (shot rate : Nat) : Injector :=
  { seed := 0#64, rate := 0#64, classes := 0#64, shot := 0#64, arm := arm, gen := 1#64, count := 4, liveRate := rate, liveClasses := 1#32, liveShot := shot }

noncomputable def mInj (i : Injector) : State := onPart mR 0 (fun p => { p with config := 0x80000000#64, inj := i })

/-- A core whose window of a second is over, with `n` errors, at a bin. -/
noncomputable def mErr (n bin : Nat) : State := { onCore mR 0 (fun x => { x with errors := n, bin := bin }) with now := second }

/-- Partition 0 with `g` guaranteed channels. -/
noncomputable def mChan (g : Nat) : State := onPart mR 0 (fun p => { p with config := BitVec.ofNat 64 (g * 2 ^ 23) })

/-- A dirty line in the slice of partition 0, none in an L1. -/
noncomputable def mSlice : State := onPart mR 0 (fun p => { p with l2 := [(5, { data := List.replicate 64 1#8, dirty := 1#64, bad := false })] })

theorem meets_Errors :
    (getWeave mR 0 0 = some (gw mR) ∧ ∃ d, sfind (getCore mQ 0).l1 5 = some d ∧ d.dirty ≠ 0#64) ∧
    ((getPart mR 0).inj.arm.getLsbD 0 = false ∧ ∀ shot rate, (shot, rate) ∈ [(5, 0), (6, 0), (0, 63)] → let s := mInj (inj 1#64 shot rate);
      testPart s 0 = true ∧ (getPart s 0).inj = inj 1#64 shot rate ∧ (inj 1#64 shot rate).arm.getLsbD 0 = true ∧
        (inj 1#64 shot rate).liveClasses.getLsbD 0 = true ∧ classSite 0 (.vreg 0 0 0 0) = true ∧ classCopy s 0 (.vreg 0 0 0 0) = true ∧
        sitePart s (.vreg 0 0 0 0) = 0) ∧
    (drawStep 1#64).toNat / 2 ^ (64 - 63) ≠ 0 ∧ (mR.now < (getCore mR 0).windowAt + second) ∧
    (∀ n b, (n, b) ∈ [(64, 0), (65, 1), (65, 2)] → let s := mErr n b;
      (getCore s 0).windowAt + second ≤ s.now ∧ (getCore s 0).errors = n ∧ (getCore s 0).bin = b ∧ s.mgmt.threshold = 64 ∧ (getCore s 0).retired = false ∧
        (getCore s 0).loan = none) ∧
    (∃ s d, (∀ x ∈ (getCore s 0).l1, x.1 = 5 → x.2.dirty = 0#64) ∧ sfind (sliceOf s 0) 5 = some d ∧ d.dirty ≠ 0#64) ∧
    (∃ s, (getCore s 0).testing = true ∧ coreEmpty (getCore s 0) = true) ∧ (getCore mR 0).testing = false ∧
    (∀ g, g = 31 ∨ g = 32 → let s := mChan g; nmem (getPart s 0).chans 31 = false ∧ gchanOf s 0 = g ∧ (getPart s 0).chans = []) := by
  refine ⟨⟨gw_of (by decide +kernel), _, some_of (by decide +kernel) default, by decide +kernel⟩, ⟨by decide +kernel, ?_⟩, by decide +kernel, by decide +kernel,
    ?_, ⟨mSlice, _, by decide +kernel, some_of (by decide +kernel) default, by decide +kernel⟩, ⟨putCore mR 0 { Core.blank with testing := true }, by rw [getCore_put], by rw [getCore_put]; rfl⟩, by decide +kernel, ?_⟩
  · intro shot rate h
    simp only [List.mem_cons, Prod.mk.injEq, List.not_mem_nil, or_false] at h
    rcases h with ⟨rfl, rfl⟩ | ⟨rfl, rfl⟩ | ⟨rfl, rfl⟩ <;> exact ⟨by decide +kernel, by decide +kernel, by decide, by decide, by decide, by decide +kernel, by decide +kernel⟩
  · intro n b h
    simp only [List.mem_cons, Prod.mk.injEq, List.not_mem_nil, or_false] at h
    rcases h with ⟨rfl, rfl⟩ | ⟨rfl, rfl⟩ | ⟨rfl, rfl⟩ <;>
      exact ⟨by decide +kernel, by decide +kernel, by decide +kernel, by decide +kernel, by decide +kernel, by decide +kernel⟩
  · rintro g (rfl | rfl) <;> exact ⟨by decide +kernel, by decide +kernel, by decide +kernel⟩

/-- The module in a phase. -/
noncomputable def mPhase (f : Mgmt → Mgmt) : State := { mR with mgmt := f mR.mgmt, now := 2 * millisecond }

/-- Every clause's condition on the module, at the edges of the clock and of the temperatures. -/
theorem meets_ModuleEvents :
    mayStart (mPhase id).mgmt = false ∧ mayStart (mPhase fun m => { m with phase := .off }).mgmt = true ∧ (mPhase id).mgmt.fwValid = false ∧
      (mPhase fun m => { m with phase := .off, nfail := 3 }).mgmt.fullRequested = false ∧ (mPhase fun m => { m with phase := .minimal 2 }).mgmt.reachable = true ∧
      running (mPhase id) = true ∧ running (mPhase fun m => { m with phase := .stopped }) = false ∧
      (mPhase id).mgmt.lastThermal + millisecond ≤ (mPhase id).now ∧ (mPhase id).mgmt.lastPower + millisecond ≤ (mPhase id).now ∧
      (mPhase id).mgmt.reachable = true ∧ running mR = true ∧ mR.now < mR.mgmt.lastThermal + millisecond ∧ mR.now < mR.mgmt.lastPower + millisecond ∧
      (mPhase id).mgmt.clock = 4000 ∧ (mPhase fun m => { m with clock := 2000 }).mgmt.clock = 2000 ∧
      (mPhase fun m => { m with thermalClock := 3900 }).mgmt.thermalClock < 4000 ∧ (mPhase fun m => { m with powerClock := 2000 }).mgmt.powerClock ≤ 2000 ∧
      (mPhase fun m => { m with idleOn := true }).mgmt.idleOn = true ∧ (mPhase id).mgmt.idleOn = false ∧ mgmtUp (mPhase id) = true ∧
      ∃ l ∈ (mPhase id).launches, getLaunch (mPhase id) l.serial = some l := by
  refine ⟨?_, ?_, ?_, ?_, ?_, ?_, ?_, ?_, ?_, ?_, ?_, ?_, ?_, ?_, ?_, ?_, ?_, ?_, ?_, ?_, l0 (mPhase id), ?_, launchOf (by decide +kernel)⟩ <;> decide +kernel

def write0 (l : Option (List (BitVec 16))) (reserved : Bool) : VfWrite :=
  { weight := some 3#8, endpoint := none, scope := some 2#8, root := none, tvec := some 0x100#64, cpol := none, cores := l, reserved := reserved }

def noCores : List (BitVec 16) := List.replicate 16 0#16

/-- A machine without work, virtual function 0 bound. -/
@[irreducible] noncomputable def mIdle : State := { putCore mR 0 Core.blank with launches := [] }

/-- The configuration with `g` guaranteed channels and the bits 29 and 30 given. -/
def conf (g : Nat) (bits : Nat) : Double := BitVec.ofNat 64 (g * 2 ^ 23 + bits * 2 ^ 29)

/-- Legal, illegal and held values; a partition and a virtual function with and without work; a reachable endpoint and an unreachable one. -/
theorem meets_ManagementWrites :
    hypUp mR = true ∧ hypUp (mPhase fun m => { m with phase := .off }) = false ∧
      configBad mR 0 (conf 0 0) = true ∧ configBad mR 0 (conf 33 0) = true ∧ configBad mR 0 (conf 32 3) = false ∧ configBad mIdle 0 (conf 1 3) = false ∧
      (conf 32 3 ^^^ (getPart mR 0).config) &&& 0xffffffff9f800000#64 ≠ 0#64 ∧ partIdle mR 0 = false ∧ partIdle mIdle 0 = true ∧
      vfWriteBad mIdle 0 (write0 none true) = true ∧ vfWriteBad mIdle 0 (write0 none false) = false ∧ vfWriteBad mIdle 0 (write0 (some noCores) false) = false ∧
      risingFrom 0 mIdle.vfs = true ∧ (∀ e ∈ mIdle.vfs, e.1 ≠ 0 → e.2.pendingCores = none) ∧ canApply mIdle 0 noCores = true ∧
      risingFrom 0 mR.vfs = true ∧ vfWriteBad mR 0 (write0 (some noCores) false) = false ∧ canApply mR 0 noCores = false ∧
      (∃ c, c < 256 ∧ hasCore (getVf mR 0).cores c = true ∧ hasCore noCores c = false) ∧
      (vfBusy mR 0 = true ∧ vfBusy mIdle 0 = false ∧ ∃ m ∈ (getVf mIdle 0).cores, m ≠ 0#16) ∧ (∀ m ∈ (getVf mIdle 1).cores, m = 0#16) ∧
      vfBusy mIdle 1 = false ∧ (getVf mR 0).heldResumes = [] ∧ (∃ l ∈ mR.launches, l.vf = 0) ∧ ∀ l ∈ mIdle.launches, l.vf ≠ 0 := by
  have h1 : mIdle.vfs.all (fun e => e.1 == 0 || e.2.pendingCores == none) = true := by decide +kernel
  have h2 : (getVf mIdle 0).cores.any (fun m => m != 0#16) = true := by decide +kernel
  have h3 : (getVf mIdle 1).cores.all (fun m => m == 0#16) = true := by decide +kernel
  have h4 : mIdle.launches.all (fun l => l.vf != 0) = true := by decide +kernel
  have h5 : mR.launches.any (fun l => l.vf == 0) = true := by decide +kernel
  refine ⟨?_, ?_, ?_, ?_, ?_, ?_, ?_, ?_, ?_, ?_, ?_, ?_, ?_, fun e he h => ?_, ?_, ?_, ?_, ?_, ⟨0, by omega, ?_, ?_⟩, ⟨?_, ?_, by simpa using h2⟩,
    fun m hm => by simpa using List.all_eq_true.mp h3 m hm, ?_, ?_, by simpa using h5, fun l hl => by simpa using List.all_eq_true.mp h4 l hl⟩
  pick_goal 14
  · have := List.all_eq_true.mp h1 e he
    simpa [h] using this
  all_goals decide +kernel

/-! ## Events: tile products, loans, the outside -/

noncomputable def cMtile (started : Bool) : Cmd := { cmd (.mtile 0 0 1 false) with started := started }

/-- Slots 0 and 1 loaded and fresh, the product of them at the head of the tile queue, the engine as given. -/
noncomputable def mTile (started : Bool) (tile : Option (Nat × Nat)) (now : Nat) : State :=
  { onCore (mCmd 2 (cMtile started)) 0 (fun x => { x with tile := tile, slots :=
      [(0, { Slot.blank with state := .loaded, kept := { Slot.blank.kept with fmt := 1#16 }, fresh := true }), (1, { Slot.blank with state := .loaded, kept := { Slot.blank.kept with fmt := 1#16 }, fresh := true })] })
    with now := now }

theorem counterAdd_none {g : Eng} {s : State} (h : g.m.ctr.isNone = true) : counterAdd g s = (.ok (), s) := by
  unfold counterAdd
  rw [Option.isNone_iff_eq_none.mp h]

/-- A product about to start, one in progress, and one whose time is over, the last instant of the one and the first of the other. -/
theorem meets_TileProducts :
    (let s := mTile false none 0; let x := getCore s 0;
      headCmd s 0 2 = some (cMtile false) ∧ x.tile = none ∧ (getSlot x 0).fresh = true ∧ (getSlot x 1).fresh = true ∧ (getSlot x 0).bad = false ∧
        (getSlot x 1).bad = false ∧ (getRim x 0).bad = false ∧ s.mgmt.idleOn = false) ∧
    ∀ now, now = 99 ∨ now = 100 → let s := mTile true (some (100, 12)) now;
      headCmd s 0 2 = some (cMtile true) ∧ (getCore s 0).tile = some (100, 12) ∧ pairOf s (cMtile true).issuer = none ∧
        weavesOf (getCore s 0) (cMtile true).inst ≠ [] ∧ coreCycles s 0 = now ∧ ∀ y, counterAdd (engOf s 0 2 (cMtile true)) (putCore s 0 y) = (.ok (), putCore s 0 y) := by
  refine ⟨⟨by decide +kernel, by decide +kernel, by decide +kernel, by decide +kernel, by decide +kernel, by decide +kernel, by decide +kernel,
    by decide +kernel⟩, ?_⟩
  rintro now (rfl | rfl) <;>
    exact ⟨by decide +kernel, by decide +kernel, by decide +kernel, by decide +kernel, by decide +kernel, fun y => counterAdd_none (by decide +kernel)⟩

/-- A queued node of the boot record, which may yield. -/
def nodeR : Ready :=
  { addr := 0x40, vf := 0, node := { bootNode with yieldable := true }, header := some bootHeader, level := 0, base := 0, readyAt := 0, seq := 3, requeues := 0 }

/-- Core 0 empty and marginal; partition 1, on the same die, wants a core and has none. -/
@[irreducible] noncomputable def mLend : State :=
  onPart (onPart mIdle 0 (fun p => { p with config := 0x140000000#64 })) 1 (fun p => { p with config := 0x20000000#64, ready := [nodeR] })

noncomputable def mLoan (s : State) (revoked : Option Nat) : State := onCore s 0 (fun x => { x with loan := some { part := 1, vf := 0, since := 0, revoked := revoked } })

/-- The core of the launch is taken out of use. -/
@[irreducible] noncomputable def mRetired : State := onCore mR 0 (fun x => { x with retired := true })

theorem lone_of {s : State} (h : decide ((getInst s 0 0).isSome = true ∧ (i0 s).serial = 1 ∧ (getLaunch s 1).isSome = true ∧ copiesOf s 0 0 = [(0, 0)] ∧
    (getCore s 0).tile = none ∧ risingFrom 0 (getCore s 0).weaves = true) = true) : Lone s 0 0 (i0 s) (l0 s) := by
  obtain ⟨a, b, c, d, e, f⟩ := of_decide_eq_true h
  exact ⟨some_of a _, launch_of ⟨b, c⟩, d, e, f⟩

/-- Virtual function 0 is to give up its cores. -/
@[irreducible] noncomputable def mShrunk : State := onVf mIdle 0 (fun v => { v with pendingCores := some noCores })

/-- A configuration write that ends loans: core 0 is lent, its owner takes back the right to lend. -/
theorem meets_ManagementWrites_loans :
    let s := mLoan (onPart mIdle 0 (fun p => { p with config := conf 32 3 })) none
    hypUp s = true ∧ configBad s 0 (conf 32 0) = false ∧ (conf 32 0 ^^^ (getPart s 0).config) &&& 0xffffffff9f800000#64 = 0#64 ∧
      (getPart s 0).config.getLsbD 30 = true ∧ (conf 32 0).getLsbD 30 = false ∧
      (getCore s 0).loan = some { part := 1, vf := 0, since := 0, revoked := none } := by
  refine ⟨?_, ?_, ?_, ?_, ?_, ?_⟩ <;> decide +kernel

theorem meets_CoreLoans :
    (lendable mLend 0 = true ∧ takerOf mLend 0 = some (1, ((candsOf mLend 1)[0]?).getD default)) ∧ lendable mR 0 = false ∧
    ((getCore (mLoan mR none) 0).loan = some { part := 1, vf := 0, since := 0, revoked := none }) ∧ (getCore mR 0).loan = none ∧
    coreEmpty (getCore mR 0) = false ∧ (coreEmpty (getCore (mLoan mIdle (some 5)) 0) = true ∧
      (getCore (mLoan mIdle (some 5)) 0).loan = some { part := 1, vf := 0, since := 0, revoked := some 5 }) ∧ leaving mR 0 = false ∧
    ((getCore mR 0).retired = false ∧ (getCore mR 0).testing = false) ∧ (mLoan mIdle (some 5)).now < 5 + 30 * microsecond ∧
    (∀ e ∈ (mLoan mIdle (some 5)).vfs, e.2.pendingCores = none) ∧ (coreEmpty (getCore mShrunk 0) = true ∧ (getCore mShrunk 0).loan = none ∧ leaving mShrunk 0 = true) ∧
    Lone mRetired 0 0 (i0 mRetired) (l0 mRetired) ∧ mustLeave mRetired 0 = true ∧ yieldable mRetired 0 0 = false ∧
      underDelivery (getCore mRetired 0) 0 = false ∧ groupsMatched (getCore mRetired 0) 0 = true ∧ (i0 mRetired).trailing = false := by
  refine ⟨⟨by decide +kernel, by decide +kernel⟩, by decide +kernel, by decide +kernel, by decide +kernel, by decide +kernel, ⟨by decide +kernel, by decide +kernel⟩,
    by decide +kernel, ⟨by decide +kernel, by decide +kernel⟩, by decide +kernel, by decide +kernel,
    ⟨by decide +kernel, by decide +kernel, by decide +kernel⟩, lone_of (by decide +kernel), by decide +kernel, by decide +kernel, by decide +kernel,
    by decide +kernel, by decide +kernel⟩

/-- The second GiB, its page under migration. -/
@[irreducible] noncomputable def mMoved : State := writeMem mM (memKey mM.device 0x3008) (bytesLE 8 0xcf20000000000000)

noncomputable def mTraps (n : Nat) (l : List (Nat × Nat)) : State := onVf mR 0 (fun x => { x with trapsHeld := n, heldPosts := l })

def failed {α : Type} (x : Except Nat α) (e : Nat) : Bool := match x with | .error c => c == e | .ok _ => false

theorem err_of {α : Type} {x : Except Nat α} {e : Nat} (h : failed x e = true) : x = .error e := by
  unfold failed at h
  cases x with
  | error c => simp at h; rw [h]
  | ok _ => cases h

/-- A virtual function that is bound and one that is not; pages present and absent, under migration and not, writable and not; and another device's
accesses, to the last byte of memory. -/
theorem meets_HostAccesses :
    vfUp mR 1 = false ∧ vfUp mM 0 = true ∧ selfRead mM 0 0x30000 3 false = .ok [0#8, 0#8, 0#8] ∧ selfRead mM 0 0x50000000 1 false = .error cNOTPRESENT ∧
    (0x3fff % 4096 + [1#8].length ≤ 4096 ∧ diverts mM 0 0x3fff = false ∧ selfKey mM 0 0x3fff true = .ok (memKey mM.device 0x3fff)) ∧
    (diverts mMoved 0 0x50000000 = true) ∧ (diverts mR 0 0x30000 = false ∧ selfKey mR 0 0x30000 true = .error cWRITEPROT) ∧ hypUp mR = true ∧
    (∀ n l, (n, l) ∈ [(0, []), (1, []), (1, [(0x40, 0)]), (2, [])] → (getVf (mTraps n l) 0).trapsHeld = n ∧ (getVf (mTraps n l) 0).heldPosts = l) ∧
    (mPhase fun m => { m with phase := .off }).mgmt.phase ≠ .full ∧ mR.mgmt.phase = .full ∧
    (rangeLost (onPart mR 3 (fun p => { p with lost := [7] })) (7 * 3750 * 10 ^ 6) = true) ∧ rangeLost mR (1920 * 10 ^ 9 - 8) = false ∧
      memBad mR (memKey mR.device (1920 * 10 ^ 9 - 8)) 8 = false ∧ memBad { mR with bad := [memKey mR.device 0x1000 / 64] } (memKey mR.device 0x1000) 8 = true := by
  refine ⟨by decide +kernel, by decide +kernel, ok_of (by decide +kernel), err_of (by decide +kernel), ⟨by decide, by decide +kernel, ok_of (by decide +kernel)⟩,
    by decide +kernel, ⟨by decide +kernel, err_of (by decide +kernel)⟩, by decide +kernel, ?_, by decide +kernel, by decide +kernel, by decide +kernel, by decide +kernel,
    by decide +kernel, by decide +kernel⟩
  intro n l h
  simp only [List.mem_cons, Prod.mk.injEq, List.not_mem_nil, or_false] at h
  rcases h with ⟨rfl, rfl⟩ | ⟨rfl, rfl⟩ | ⟨rfl, rfl⟩ | ⟨rfl, rfl⟩ <;> exact ⟨by decide +kernel, by decide +kernel⟩

def shoot (core : Option Nat) : Shoot := { id := 4, vf := 0, va := 0x10000, pages := 1, scope := .pt, core := core }

/-- A shootdown under way, its core at the instruction that waits for it. -/
@[irreducible] noncomputable def mShoot (core : Option Nat) (busy : Bool) : State :=
  let s := onCore { mR with shoots := [shoot core] } 0 (fun x => { x with handler := { x.handler with wait := some (.xlinv 4) } });
  if busy then onWeave s 0 0 (fun w => { w with inflight := [default] }) else s

noncomputable def clearB (s : State) (h : Shoot) : Bool := s.cores.all (fun e => !inShoot h e.1 || coreClear s h e.1 e.2)

theorem clear_of {s : State} {h : Shoot} (b : clearB s h = true) : ∀ e ∈ s.cores, inShoot h e.1 = true → coreClear s h e.1 e.2 = true := by
  intro e he hi
  have := List.all_eq_true.mp b e he
  simpa [hi] using this

theorem busy_of {s : State} {h : Shoot} (b : clearB s h = false) : ¬ ∀ e ∈ s.cores, inShoot h e.1 = true → coreClear s h e.1 e.2 = true := by
  intro hc
  have : clearB s h = true := List.all_eq_true.mpr fun e he => by
    cases hi : inShoot h e.1 with
    | false => rfl
    | true => rw [hc e he hi]; rfl
  rw [b] at this; cases this

theorem meets_OutsideEvents :
    hypUp mR = true ∧ hypUp (mPhase fun m => { m with phase := .off }) = false ∧ wide .pt = true ∧ wide .co = false ∧
    (∀ c, c = none ∨ c = some 0 → (mShoot c false).shoots.find? (fun y => y.id == (shoot c).id) = some (shoot c) ∧
      (∀ e ∈ (mShoot c false).cores, inShoot (shoot c) e.1 = true → coreClear (mShoot c false) (shoot c) e.1 e.2 = true)) ∧
    ((mShoot (some 0) true).shoots.find? (fun y => y.id == (shoot (some 0)).id) = some (shoot (some 0)) ∧
      ¬ ∀ e ∈ (mShoot (some 0) true).cores, inShoot (shoot (some 0)) e.1 = true → coreClear (mShoot (some 0) true) (shoot (some 0)) e.1 e.2 = true) ∧
    ((getCore (mShoot (some 0) false) 0).handler.wait = some (.xlinv 4) ∧ CachesOk (mShoot (some 0) false) 0) ∧
    (∀ c, c = none ∨ c = some 0 → (∀ e ∈ (mShoot c false).cores, e.2.l1 = []) ∧ ∀ e ∈ (mShoot c false).parts, e.2.l2 = []) ∧ vfUp mR 0 = true ∧
    (getPart (onPart mR 2 (fun p => { p with traces := [(0, 7, [1#8])] })) 2).traces = [(0, 7, [1#8])] := by
  refine ⟨by decide +kernel, by decide +kernel, rfl, rfl, ?_, ⟨by decide +kernel, busy_of (by decide +kernel)⟩, ⟨by decide +kernel, caches_of (by decide +kernel)⟩,
    ?_, by decide +kernel, by decide +kernel⟩
  · rintro c (rfl | rfl) <;> exact ⟨by decide +kernel, clear_of (by decide +kernel)⟩
  · rintro c (rfl | rfl) <;> exact ⟨by decide +kernel, by decide +kernel⟩

/-! ## Events: nodes -/

/-- A launch header of one role. -/
def rawHeader : Nat := 0x00014c48 + 2 ^ 32 + 0x10000 * 2 ^ 64 + 512 * 2 ^ 448 + 0x10000 * 2 ^ 512 + 120 * 2 ^ 576 + 2 ^ 592 + 2 ^ 600 + 65536 * 2 ^ 608

/-- A kernel node of one instance on partition `part`, its status and wait count given. -/
def rawNode (status wait part : Nat) : Nat := 1 + part * 2 ^ 24 + wait * 2 ^ 32 + status * 2 ^ 144 + 0x24000 * 2 ^ 192 + 2 ^ 256

/-- The record of a node in memory, and its header. -/
@[irreducible] noncomputable def mNode (s : State) (raw : Nat) : State :=
  writeMem (writeMem s (memKey s.device 0x24000) (bytesLE 128 rawHeader)) (memKey s.device 0x23000) (bytesLE 64 raw)

def isOk {ε α : Type} (x : Except ε α) : Bool := match x with | .ok _ => true | .error _ => false

theorem isOk_of {ε α : Type} {x : Except ε α} (h : isOk x = true) : ∃ a, x = .ok a := by
  cases x with
  | ok a => exact ⟨a, rfl⟩
  | error _ => cases h

theorem isErr_of {ε α : Type} {x : Except ε α} (h : isOk x = false) : ∃ e, x = .error e := by
  cases x with
  | ok _ => cases h
  | error e => exact ⟨e, rfl⟩

/-- The first GiB of virtual function 0 is the page. -/
noncomputable def lowB (s : State) : Bool :=
  decide ((getVf s 0).root = 0x1000#64 ∧ readPte s 0x1000 = (0x8000000000002000, false) ∧ readPte s 0x2000 = (0x8000000000003000, false) ∧
    readPte s 0x3000 = (0xcf00000000000000, false) ∧ rangeLost s 0 = false ∧ s.bad = [])

theorem walk_low {s : State} (h : lowB s = true) {va : Nat} (hva : va < 2 ^ 30) : walk s 0 va = .ok leafM := by
  obtain ⟨h1, h2, h3, h4, h5, -⟩ := of_decide_eq_true h
  have b4 : bits va 48 9 = 0 := by unfold bits; omega
  have b3 : bits va 39 9 = 0 := by unfold bits; omega
  have b2 : bits va 30 9 = 0 := by unfold bits; omega
  have d : decodePte 0 va 2 0xcf00000000000000 = .leaf { leafM with va := va / 2 ^ 30 * 2 ^ 30 } := rfl
  have e : va / 2 ^ 30 * 2 ^ 30 = 0 := by omega
  unfold walk
  rw [h1, show ((0x1000#64 : Double).toNat / 4096 * 4096) = 0x1000 from rfl]
  simp only [walkFrom, Nat.reduceAdd, Nat.reduceMul, b4, b3, b2, Nat.mul_zero, Nat.add_zero, h2, Bool.false_eq_true, if_false]
  rw [show decodePte 0 va 4 0x8000000000002000 = .table 0x2000 from rfl]
  dsimp only
  rw [h3]
  simp only [Bool.false_eq_true, if_false]
  rw [show decodePte 0 va 3 0x8000000000003000 = .table 0x3000 from rfl]
  dsimp only
  rw [h4]
  simp only [Bool.false_eq_true, if_false]
  rw [d, e]
  exact keep_page h5

theorem selfKey_low {s : State} (h : lowB s = true) {va : Nat} (hva : va < 2 ^ 30) (wr : Bool) : selfKey s 0 va wr = .ok (leafKey s leafM va) := by
  unfold selfKey
  rw [walk_low h hva]
  cases wr <;> simp [leafM] <;> omega

theorem go_low {s : State} (h : lowB s = true) (wr : Bool) : ∀ fuel va n, va + n ≤ 2 ^ 30 → ∃ d, selfRead.go s 0 wr fuel va n = .ok d := by
  have hb : ∀ k n, memBad s k n = false := by
    intro k n
    unfold memBad
    rw [(of_decide_eq_true h).2.2.2.2.2]
    exact List.any_eq_false.mpr fun u _ => by simp [nmem]
  intro fuel
  induction fuel with
  | zero => intro va n _; exact ⟨_, rfl⟩
  | succ f ih =>
    intro va n hn
    unfold selfRead.go
    split
    · exact ⟨_, rfl⟩
    · rename_i h0
      have hm : min n (16 - va % 16) ≤ n := Nat.min_le_left _ _
      obtain ⟨d, hd⟩ := ih (va + min n (16 - va % 16)) (n - min n (16 - va % 16)) (by omega)
      rw [selfKey_low h (by omega)]
      dsimp only
      rw [hb]
      simp only [Bool.false_eq_true, if_false]
      rw [hd]
      exact ⟨_, rfl⟩

theorem tableReason_low {s : State} (h : lowB s = true) {a : Nat} (ha : a + 16384 ≤ 2 ^ 30) : tableReason s 0 a = none := by
  obtain ⟨d, hd⟩ := go_low h false (16384 / 16 + 2) a 16384 ha
  unfold tableReason selfRead
  rw [hd]

/-- What a check of a kernel node's record and header finds. -/
noncomputable def goodB (s : State) (a post : Nat) (n : NodeRec) : Bool :=
  nodeFields a n && ownsIn s 0 (partFor n post) && n.kind == 1 &&
    match selfRead s 0 n.header headerSize false with
    | .ok d => (headerReason d (headerOf d) n).isNone && decide ((headerOf d).tensors + 16384 ≤ 2 ^ 30)
    | .error _ => false

theorem check_low {s : State} (h : lowB s = true) {a post : Nat} {n : NodeRec} (hg : goodB s a post n = true) : ∃ x, checkRec s 0 a post n = .ok x := by
  unfold goodB at hg
  simp only [Bool.and_eq_true, beq_iff_eq] at hg
  obtain ⟨⟨⟨h1, h2⟩, h3⟩, h4⟩ := hg
  unfold checkRec
  cases hr : selfRead s 0 n.header headerSize false with
  | error _ => rw [hr] at h4; cases h4
  | ok d =>
    rw [hr] at h4
    dsimp only at h4
    rw [Bool.and_eq_true, decide_eq_true_eq] at h4
    rw [h1, h2, h3]
    simp only [Bool.not_true, Bool.false_eq_true, if_false, OfNat.one_ne_ofNat]
    rw [Option.isNone_iff_eq_none.mp h4.1]
    dsimp only
    rw [tableReason_low h h4.2]
    exact ⟨_, rfl⟩

noncomputable def postB (status wait : Nat) : Bool :=
  lowB (mNode mM (rawNode status wait 0)) && gives (readNode (mNode mM (rawNode status wait 0)) 0 0x23000) (nodeOf (rawNode status wait 0)) &&
    goodB (mNode mM (rawNode status wait 0)) 0x23000 0 (nodeOf (rawNode status wait 0))

theorem post_of {n w : Nat} (h : postB n w = true) : readNode (mNode mM (rawNode n w 0)) 0 0x23000 = .ok (nodeOf (rawNode n w 0)) ∧
    ∃ h, checkRec (mNode mM (rawNode n w 0)) 0 0x23000 0 (nodeOf (rawNode n w 0)) = .ok h := by
  unfold postB at h
  rw [Bool.and_eq_true, Bool.and_eq_true] at h
  exact ⟨ok_of h.1.2, check_low h.1.1 h.2⟩

theorem post6 : postB 6 0 = true := by decide +kernel
theorem post41 : postB 4 1 = true := by decide +kernel
theorem post40 : postB 4 0 = true := by decide +kernel

/-- An unbound function and held writes; a record that cannot be read; a busy record; a record of another's partition; a record that would be good but for
its status; one that waits and one that is ready, at status 4. -/
theorem meets_Posts :
    (getVf mR 1).state = 0 ∧ ((getVf (mTraps 1 []) 0).state ≠ 0 ∧ 0 < (getVf (mTraps 1 []) 0).trapsHeld) ∧
    ((getVf mM 0).state ≠ 0 ∧ (getVf mM 0).trapsHeld = 0) ∧ ((∃ r, readNode mM 0 0x50000000 = .error r) ∧ ∃ e, selfRead mM 0 0x50000000 64 false = .error e) ∧
    ((∃ r, readNode mR 0 0x30000 = .error r) ∧ ∃ d, selfRead mR 0 0x30000 64 false = .ok d) ∧
    (∀ n, n = 1 ∨ n = 2 ∨ n = 5 → readNode (mNode mM (rawNode n 0 0)) 0 0x23000 = .ok (nodeOf (rawNode n 0 0)) ∧ (nodeOf (rawNode n 0 0)).status = n) ∧
    (readNode (mNode mM (rawNode 0 0 1)) 0 0x23000 = .ok (nodeOf (rawNode 0 0 1)) ∧ checkRec (mNode mM (rawNode 0 0 1)) 0 0x23000 0 (nodeOf (rawNode 0 0 1)) = .error 9) ∧
    ∀ n w, (n, w) ∈ [(6, 0), (4, 1), (4, 0)] → let s := mNode mM (rawNode n w 0);
      readNode s 0 0x23000 = .ok (nodeOf (rawNode n w 0)) ∧ (∃ h, checkRec s 0 0x23000 0 (nodeOf (rawNode n w 0)) = .ok h) ∧
        (nodeOf (rawNode n w 0)).status = n ∧ (nodeOf (rawNode n w 0)).wait = w := by
  refine ⟨by decide +kernel, ⟨by decide +kernel, by decide +kernel⟩, ⟨by decide +kernel, by decide +kernel⟩, ⟨isErr_of (by decide +kernel), isErr_of (by decide +kernel)⟩,
    ⟨isErr_of (by decide +kernel), isOk_of (by decide +kernel)⟩, ?_,
    ⟨ok_of (by decide +kernel), err_of (by decide +kernel)⟩, ?_⟩
  · rintro n (rfl | rfl | rfl) <;> exact ⟨ok_of (by decide +kernel), by decide⟩
  · intro n w h
    simp only [List.mem_cons, Prod.mk.injEq, List.not_mem_nil, or_false] at h
    rcases h with ⟨rfl, rfl⟩ | ⟨rfl, rfl⟩ | ⟨rfl, rfl⟩
    · exact ⟨(post_of post6).1, (post_of post6).2, by decide, by decide⟩
    · exact ⟨(post_of post41).1, (post_of post41).2, by decide, by decide⟩
    · exact ⟨(post_of post40).1, (post_of post40).2, by decide, by decide⟩

/-- A queued node, its partition's one core open. -/
@[irreducible] noncomputable def mQueued : State := onPart mIdle 0 (fun p => { p with ready := [nodeR] })

/-- A running launch with an instance still to come. -/
@[irreducible] noncomputable def mMore : State := onLaunch mR 1 (fun l => { l with node := { l.node with ninst := 2 } })

/-- A stage of one weave that wants another. -/
@[irreducible] noncomputable def mStage : State := onInst mR 0 0 (fun i => { i with stages := i.stages.map (fun z => { z with target := z.target + 1 }) })

/-- The node or launch that partition 0 would serve next. -/
noncomputable def chosen (s : State) : Cand :=
  ((openCands (noteFit s 0 (candsOf s 0)) 0 (candsOf s 0)).find? (fun c => (coresFor (noteFit s 0 (candsOf s 0)) 0 c).isSome)).getD default

/-- A node or launch to serve, on core 0 alone, which has a place for an instance. -/
def Serves (s : State) : Prop :=
  (openCands (noteFit s 0 (candsOf s 0)) 0 (candsOf s 0)).find? (fun c => (coresFor (noteFit s 0 (candsOf s 0)) 0 c).isSome) = some (chosen s) ∧
    coresFor (noteFit s 0 (candsOf s 0)) 0 (chosen s) = some [0] ∧ (∀ j w, getWeave s 0 j = some w → getInst s 0 w.inst ≠ none) ∧
    ∃ i, i < 4 ∧ getInst s 0 i = none

noncomputable def servesB (s : State) : Bool :=
  decide (((openCands (noteFit s 0 (candsOf s 0)) 0 (candsOf s 0)).find? (fun c => (coresFor (noteFit s 0 (candsOf s 0)) 0 c).isSome)).isSome = true ∧
    coresFor (noteFit s 0 (candsOf s 0)) 0 (chosen s) = some [0] ∧ getInst s 0 3 = none) &&
      (getCore s 0).weaves.all (fun e => (getInst s 0 e.2.inst).isSome)

theorem serves_of {s : State} (h : servesB s = true) : Serves s := by
  unfold servesB at h
  rw [Bool.and_eq_true, decide_eq_true_eq] at h
  obtain ⟨⟨a, b, c⟩, f⟩ := h
  refine ⟨some_of a _, b, fun j w hj hn => ?_, 3, by omega, c⟩
  have := List.all_eq_true.mp f (j, w) (sfind_mem hj)
  rw [hn] at this; cases this

/-- A queued node and a running launch that may be admitted, a stage below its target and one at it. -/
theorem meets_Admissions :
    candsOf mIdle 0 = [] ∧
    (let s := mQueued; Serves s ∧ (∃ h, (chosen s).header = some h ∧ h.roles.length ≤ 4) ∧ (chosen s).saved = [] ∧ (chosen s).launch = none ∧
      (getPart s 0).ready.find? (fun y => y.seq == (chosen s).seq) = some nodeR ∧ getLaunch s s.nextLsn = none) ∧
    (let s := mMore; Serves s ∧ (chosen s).header = some (l0 s).header ∧ (chosen s).saved = [] ∧ (chosen s).launch = some 1 ∧
      getLaunch s 1 = some (l0 s) ∧ (l0 s).header.roles.length ≤ 4) ∧
    ∀ s, s = mStage ∨ s = mR → getInst s 0 0 = some (i0 s) ∧ getLaunch s (i0 s).serial = some (l0 s) ∧ (l0 s).header.roles[0]?.isSome = true ∧
      (i0 s).stages[0]?.map (fun z => (z.target, z.admitted)) = some (if s = mStage then 2 else 1, 1) ∧
      (getPart s (partOf 0)).up = true ∧ coreOpen s 0 = true ∧ (s = mStage → stageOpen s 0 0 0 = true) ∧ (i0 s).peer = none := by
  refine ⟨by decide +kernel, ⟨serves_of (by decide +kernel), ⟨_, some_of (by decide +kernel) default, by decide +kernel⟩, by decide +kernel, by decide +kernel,
    by decide +kernel, by decide +kernel⟩, ⟨serves_of (by decide +kernel), by decide +kernel, by decide +kernel, by decide +kernel, launchOf (by decide +kernel),
    by decide +kernel⟩, ?_⟩
  have hn : mR ≠ mStage := fun h => absurd (congrArg (fun s => (i0 s).stages[0]?) h) (by decide +kernel)
  rintro s (rfl | rfl)
  · exact ⟨some_of (by decide +kernel) _, launch_of (by decide +kernel), by decide +kernel, by rw [if_pos rfl]; decide +kernel, by decide +kernel,
      by decide +kernel, fun _ => by decide +kernel, by decide +kernel⟩
  · exact ⟨some_of (by decide +kernel) _, launch_of (by decide +kernel), by decide +kernel, by rw [if_neg hn]; decide +kernel, by decide +kernel,
      by decide +kernel, fun h => absurd h hn, by decide +kernel⟩

/-- A queued node at a time. -/
noncomputable def mAged (now : Nat) : State := { onPart mQueued 0 (fun p => { p with config := 0x7f0000#64 }) with now := now }

/-- A node that fits nowhere since time 0. -/
noncomputable def mStarved (seq now : Nat) : State := { onPart mLend 1 (fun p => { p with unfit := some (seq, 0) }) with now := now }

/-- Two stages with a wale of 4 between them, `o` of it taken, at a time. -/
noncomputable def mFlow (o now : Nat) : State :=
  { onInst (onLaunch mR 1 (fun l => { l with header := { l.header with wdepth := [4, 0, 0] } })) 0 0 (fun i =>
      { i with stages := [{ target := 1, share := 2, admitted := 1, closed := false }, { target := 1, share := 2, admitted := 0, closed := false }], wales := [List.replicate o []] }) with now := now }

def dueB (cap now : Nat) (r : Ready) : Bool := decide (r.level < min cap (r.base + (now - r.readyAt) / 2 ^ 23))

/-- The last instant before a node ages and the first at which it does; the same of starvation and of a sample; a wale with room and one that is full. -/
theorem meets_QueueOrder :
    ((getPart (mAged (2 ^ 23)) 0).config.extractLsb' 16 7).toNat = 127 ∧ (∀ r ∈ (getPart (mAged (2 ^ 23 - 1)) 0).ready, dueB 127 (2 ^ 23 - 1) r = false) ∧
    (∃ r ∈ (getPart (mAged (2 ^ 23)) 0).ready, dueB 127 (2 ^ 23) r = true) ∧
    (∀ n now, (n, now) ∈ [(3, 2 ^ 23), (3, 2 ^ 23 - 1), (4, 2 ^ 23)] → let s := mStarved n now;
      ∃ top, (candsOf s 1).find? (fun c => c.header.isSome) = some top ∧ (getPart s 1).unfit = some (n, 0) ∧ top.seq = 3 ∧ coresFor s 1 top = none ∧ s.now = now) ∧
    (coreCycles (mFlow 0 1023) 0 / 1024 ≤ (getCore (mFlow 0 1023) 0).sampled) ∧
    ∀ o, o = 0 ∨ o = 3 ∨ o = 4 → let s := mFlow o 1024;
      (getCore s 0).sampled < coreCycles s 0 / 1024 ∧ getInst s 0 0 = some (i0 s) ∧ getLaunch s (i0 s).serial = some (l0 s) ∧ (l0 s).header.roles.length = 2 ∧
        (i0 s).stages.length = 2 ∧ (l0 s).header.wdepth.getD 0 0 = 4 ∧ ((i0 s).wales.getD 0 []).length = o := by
  have h1 : (getPart (mAged (2 ^ 23 - 1)) 0).ready.all (fun r => !dueB 127 (2 ^ 23 - 1) r) = true := by decide +kernel
  have h2 : (getPart (mAged (2 ^ 23)) 0).ready.any (dueB 127 (2 ^ 23)) = true := by decide +kernel
  refine ⟨by decide +kernel, fun r hr => by simpa using List.all_eq_true.mp h1 r hr, by simpa using h2, ?_, by decide +kernel, ?_⟩
  · intro n now h
    simp only [List.mem_cons, Prod.mk.injEq, List.not_mem_nil, or_false] at h
    rcases h with ⟨rfl, rfl⟩ | ⟨rfl, rfl⟩ | ⟨rfl, rfl⟩ <;>
      exact ⟨_, some_of (by decide +kernel) default, by decide +kernel, by decide +kernel, by decide +kernel, by decide +kernel⟩
  · rintro o (rfl | rfl | rfl) <;>
      exact ⟨by decide +kernel, some_of (by decide +kernel) _, launch_of (by decide +kernel), by decide +kernel, by decide +kernel, by decide +kernel, by decide +kernel⟩

/-- A launch whose instance has ended, with `n` successors. -/
def lDone (n : Nat) : Launch :=
  { bootLaunch 1 with addr := 0x26000, ended := 1, cores := [], node := { bootNode with nsucc := n, succ := 0x25000 } }

/-- It, and its successor's record, which waits for `w` nodes. -/
@[irreducible] noncomputable def mDone (n w : Nat) : State :=
  { putCore (writeMem (mNode mM (rawNode 0 w 0)) (memKey mM.device 0x25000) (bytesLE 8 0x23000)) 0 Core.blank with launches := [lDone n] }

noncomputable def mOver (n w : Nat) : State := writeStatus (mDone n w) 0 0x26000 3

noncomputable def overB (n w : Nat) : Bool :=
  decide ((getLaunch (mDone n w) 1).isSome = true ∧ l0 (mDone n w) = lDone n ∧ launchOver (mDone n w) (lDone n) = true) &&
    gives (selfRead (mOver n w) 0 0x25000 8 true) (bytesLE 8 0x23000) && gives (readWait (mOver n w) 0 0x23000) w &&
    gives (selfKey (mOver n w) 0 0x23004 true) (memKey mM.device 0x23004)

theorem over_of {n w : Nat} (h : overB n w = true) : getLaunch (mDone n w) (lDone n).serial = some (lDone n) ∧ launchOver (mDone n w) (lDone n) = true ∧
    selfRead (mOver n w) 0 0x25000 8 true = .ok (bytesLE 8 0x23000) ∧ readWait (mOver n w) 0 0x23000 = .ok w ∧
    selfKey (mOver n w) 0 0x23004 true = .ok (memKey mM.device 0x23004) := by
  unfold overB at h
  rw [Bool.and_eq_true, Bool.and_eq_true, Bool.and_eq_true, decide_eq_true_eq] at h
  obtain ⟨⟨⟨⟨a, b, c⟩, d⟩, e⟩, f⟩ := h
  refine ⟨?_, c, ok_of d, ok_of e, ok_of f⟩
  have := some_of a default
  rw [show (getLaunch (mDone n w) 1).getD default = lDone n from b] at this
  exact this

/-- The successor's record, its count run out. -/
noncomputable def mFree : State := selfWrite (mOver 1 1) 0 0x23004 (bytesLE 4 0)

noncomputable def freeB : Bool :=
  lowB mFree && gives (readNode mFree 0 0x23000) (nodeOf (rawNode 0 0 0)) && goodB mFree 0x23000 0 (nodeOf (rawNode 0 0 0))

theorem free_of (h : freeB = true) : readNode mFree 0 0x23000 = .ok (nodeOf (rawNode 0 0 0)) ∧ ∃ h, checkRec mFree 0 0x23000 0 (nodeOf (rawNode 0 0 0)) = .ok h := by
  unfold freeB at h
  rw [Bool.and_eq_true, Bool.and_eq_true] at h
  exact ⟨ok_of h.1.2, check_low h.1.1 h.2⟩

/-- A tile node of one product, its tensor table given, restartable or not. -/
def tileR (tensors : Nat) (again : Bool) : Ready :=
  { addr := 0x26000, vf := 0, node := { nodeOf (2 + 2 ^ 248 + 2 ^ 352 + tensors * 2 ^ 384) with restartable := again }, header := none, level := 0, base := 0, readyAt := 0, seq := 3, requeues := 0 }

/-- It is queued, core 0 empty or its slath at work. -/
@[irreducible] noncomputable def mTileNode (tensors : Nat) (again : Bool) (tile : Option (Nat × Nat)) : State :=
  onPart (onCore { putCore mM 0 Core.blank with launches := [] } 0 (fun x => { x with tile := tile })) 0 (fun p => { p with ready := [tileR tensors again] })

/-- A launch that runs; one that is over, without successors, with one that waits for two nodes, and with one that waits for it alone; a tile node without a
core, and one whose tensor table is not present. -/
theorem meets_NodesComplete :
    (getLaunch mR (l0 mR).serial = some (l0 mR) ∧ launchOver mR (l0 mR) = false) ∧
    (∀ n w, (n, w) ∈ [(0, 2), (1, 2), (1, 1)] → (lDone n).node.nsucc = n ∧ (lDone n).addr = 0x26000 ∧ (lDone n).poison = none ∧ (lDone n).staged = [] ∧
      (lDone n).freed = [] ∧ (lDone n).cores.foldl flushL1 (mDone n w) = mDone n w ∧ getLaunch (mDone n w) (lDone n).serial = some (lDone n) ∧
      launchOver (mDone n w) (lDone n) = true ∧ selfRead (mOver n w) 0 0x25000 8 true = .ok (bytesLE 8 0x23000) ∧
      readWait (mOver n w) 0 (natLE (bytesLE 8 0x23000)) = .ok w ∧ selfKey (mOver n w) 0 (natLE (bytesLE 8 0x23000) + 4) true = .ok (memKey mM.device 0x23004) ∧
      memKey mM.device 0x23004 % 4 = 0) ∧
    (readNode mFree 0 0x23000 = .ok (nodeOf (rawNode 0 0 0)) ∧ (nodeOf (rawNode 0 0 0)).status = 0 ∧
      ∃ h, checkRec mFree 0 0x23000 0 (nodeOf (rawNode 0 0 0)) = .ok h) ∧
    topTile (mTileNode 0x50000000 false (some (1, 1))) 0 = none ∧
    ∀ b : Bool, let s := mTileNode 0x50000000 b none;
      topTile s 0 = some (tileR 0x50000000 b) ∧ tileCore s 0 (tileR 0x50000000 b).vf = some (0, 0, 1, 0) ∧
        (tileRun (tileEng 0 0) (tileOf (tileR 0x50000000 b).node.raw) 0 1 0 (tileBegin s 0 (tileR 0x50000000 b) 0 0)).1 = .error (cNOTPRESENT, 0x50000000) ∧
        (tileR 0x50000000 b).node.restartable = b ∧ cNOTPRESENT ≠ cPOISON := by
  refine ⟨⟨launchOf (by decide +kernel), by decide +kernel⟩, ?_, ?_, by decide +kernel, fun b => ?_⟩
  · intro n w h
    have hk : natLE (bytesLE 8 0x23000) = 0x23000 := by decide
    rw [hk]
    simp only [List.mem_cons, Prod.mk.injEq, List.not_mem_nil, or_false] at h
    rcases h with ⟨rfl, rfl⟩ | ⟨rfl, rfl⟩ | ⟨rfl, rfl⟩ <;>
      exact ⟨rfl, rfl, rfl, rfl, rfl, rfl, (over_of (by decide +kernel)).1, (over_of (by decide +kernel)).2.1, (over_of (by decide +kernel)).2.2.1,
        (over_of (by decide +kernel)).2.2.2.1, (over_of (by decide +kernel)).2.2.2.2, by decide +kernel⟩
  · exact ⟨(free_of (by decide +kernel)).1, by decide, (free_of (by decide +kernel)).2⟩
  · cases b <;> exact ⟨by decide +kernel, by decide +kernel, by decide +kernel, by decide, by decide⟩

/-! ## Events: yield, freeze, resume -/

/-- An instance whose yield is demanded, its node with the right to yield or not. -/
@[irreducible] noncomputable def mAsked (right : Bool) : State :=
  onInst (onLaunch mR 1 (fun l => { l with node := { l.node with yieldable := right, save := 0x100000 } })) 0 0 (fun i => { i with demanded := true })

/-- What a yield of the instance saves. -/
noncomputable def saved0 : Saved := savedOf mR 0 0 (i0 mR)

/-- The launch off its core, its instance saved. -/
@[irreducible] noncomputable def mSaved : State := { putCore mR 0 Core.blank with launches := [{ l0 mR with cores := [], names := [], saved := [saved0] }] }

/-- No demand; a demand of an instance that may not yield and of one that may; an instance to put back. -/
theorem meets_Yields :
    yieldWanted mR 0 0 = false ∧
    (∀ b : Bool, Lone (mAsked b) 0 0 (i0 (mAsked b)) (l0 (mAsked b)) ∧ yieldWanted (mAsked b) 0 0 = true ∧ (l0 (mAsked b)).node.paired = false ∧
      yieldable (mAsked b) 0 0 = b) ∧ candsOf mIdle 0 = [] ∧
    (let s := mSaved; Serves s ∧ (chosen s).launch = some 1 ∧ getLaunch s 1 = some (l0 s) ∧ firstSaved (chosen s).saved = [saved0] ∧ saved0.cmds = [] ∧
      saved0.fences = [] ∧ ∀ b, (0, b) ∉ (l0 s).names) := by
  refine ⟨by decide +kernel, ?_, by decide +kernel, serves_of (by decide +kernel), by decide +kernel, launchOf (by decide +kernel), by decide +kernel,
    by decide +kernel, by decide +kernel, fun b => ?_⟩
  · intro b
    cases b <;> exact ⟨lone_of (by decide +kernel), by decide +kernel, by decide +kernel, by decide +kernel⟩
  · rw [show (l0 mSaved).names = [] by decide +kernel]
    exact List.not_mem_nil

/-- A delivery of the launch runs. -/
@[irreducible] noncomputable def mServed : State := onCore mR 0 (fun x => { x with handler := { x.handler with run := some bootDelivery } })

noncomputable def mStain (bad : List Nat) : State := { mSaved with bad := bad }

noncomputable def foundB (s : State) : Bool :=
  decide (s.launches.find? (fun l => l.lsn.toNat == 1) = some (l0 s) ∧ (l0 s).serial = 1 ∧ (getLaunch s 1).isSome = true)

theorem found_of {s : State} (h : foundB s = true) : s.launches.find? (fun l => l.lsn.toNat == 1) = some (l0 s) ∧ getLaunch s (l0 s).serial = some (l0 s) := by
  obtain ⟨a, b, c⟩ := of_decide_eq_true h
  exact ⟨a, launchOf ⟨b, c⟩⟩

/-- An image of a launch that has not started: its section table not yet laid out. -/
def bare : Image :=
  { id := 5, lsn := 9#64, vf := 0, cls := deviceClass, when_ := 0, node := { bootNode with ninst := 1 }, nodeAddr := 0x40, header := bootHeader, hdrBytes := [],
    next := 0, ended := 0, ncore := 1, saved := [], pages := [], dirtyOnly := false, base := none, paired := false, signed := false, digest := 0#512, sig := [],
    bank := [], tensors := [], spare := [], table := [], device := 0, cores := [], readySeq := 0 }

/-- The image with its table and a digest, its reserved bytes zero or not. -/
def image (d : BitVec 512) (good : Bool) : Image :=
  { bare with table := placedSections bare, digest := d, spare := if good then [] else [1#8] }

/-- R118 by hand: magic, version 1, header size 256, and an image of one page-free launch: 4 sections, no flag, class 0x4016. -/
theorem test_image_header : (imageHeader mIdle (image 0#512 true)).length = 256 ∧
    (imageHeader mIdle (image 0#512 true)).take 16 =
      [0x4e#8, 0x47#8, 0x41#8, 0x45#8, 0x43#8, 0x00#8, 0x01#8, 0x00#8, 1#8, 0#8, 0#8, 0#8, 0#8, 1#8, 0#8, 0#8] ∧
    ((imageHeader mIdle (image 0#512 true)).drop 24).take 8 = [4#8, 0#8, 0#8, 0#8, 0#8, 0#8, 0#8, 0#8] ∧
    ((imageHeader mIdle (image 0#512 true)).drop 40).take 4 = [0x16#8, 0x40#8, 0#8, 0#8] := by
  decide +kernel

/-- R119 by hand: a footprint of 196,672 bytes gives 196,672 + 1,536 + 4,096 bytes of section 0x06. -/
theorem test_image_section :
    (savedSections { bootHeader with roles := [], wdepth := [], pool := 196672 } (default : Saved)).find? (fun x => x.1 == 0x06) =
      some (0x06, 0, 202304, 1) := by
  decide +kernel

/-- The digest that the image's contents give. -/
noncomputable def digest0 : BitVec 512 := Config.shake512 (imageInput (image 0#512 true))

theorem input_image (d : BitVec 512) (b : Bool) : imageInput (image d b) = imageInput (image 0#512 true) := rfl

theorem formed_image (d : BitVec 512) : wellFormed (image d true) = wellFormed (image 0#512 true) := rfl

theorem formed : wellFormed (image 0#512 true) = true := by decide +kernel

noncomputable def mImage (m : Image) : State := { mIdle with images := [m] }

theorem fits_image (m : Image) (d : BitVec 512) : residencyFits (mImage m) 0 (image d true) = residencyFits mIdle 0 (image 0#512 true) := rfl

theorem part_image (m : Image) (d : BitVec 512) : resumePart (mImage m) 0 (image d true).node = resumePart mIdle 0 (image 0#512 true).node := rfl

theorem status0 : resumeStatus (mImage (image digest0 true)) 0 (image digest0 true) = 0 := by
  unfold resumeStatus
  rw [if_neg (by rw [formed_image, formed]; decide), input_image, if_neg (by simp [image, digest0]), if_neg (by simp [image, bare]), if_neg (by simp [image, bare]), if_neg (by simp [image, bare]),
    if_neg (by simp [image, bare])]
  have : residencyFits mIdle 0 (image 0#512 true) = true := by decide +kernel
  rw [if_neg (by rw [fits_image, this]; decide)]

theorem other_digest : ~~~digest0 ≠ digest0 := by
  intro h
  have := congrArg (fun x => x.getLsbD 0) h
  simp at this

/-- A poisoned launch, one that a delivery serves, one that may go; a launch off its cores over sound and over poisoned memory; images that fail the first and
the second check, and one that passes all. The check of a signature is left out: what verifies is free. -/
theorem meets_FreezeResume :
    ((mPoison false 0).launches.find? (fun l => l.lsn.toNat == 1) = some (l0 (mPoison false 0)) ∧ (l0 (mPoison false 0)).poison ≠ none ∧
      getLaunch (mPoison false 0) (l0 (mPoison false 0)).serial = some (l0 (mPoison false 0))) ∧
    (∀ s, s = mServed ∨ s = mR → s.launches.find? (fun l => l.lsn.toNat == 1) = some (l0 s) ∧ getLaunch s (l0 s).serial = some (l0 s) ∧ (l0 s).poison = none ∧
      (l0 s).node.paired = false) ∧ freezeReady mServed (l0 mServed).serial = false ∧ freezeReady mR (l0 mR).serial = true ∧
    (∀ b, b = [] ∨ b = [memKey mR.device 0x3fffffff / 64] → let s := mStain b;
      s.launches.find? (fun l => l.lsn.toNat == 1) = some (l0 s) ∧ getLaunch s (l0 s).serial = some (l0 s) ∧ (l0 s).poison = none ∧
        freezeReady s (l0 s).serial = true ∧ residents s (l0 s).serial = [] ∧ (l0 s).cores = [] ∧ staging (l0 s) = false ∧
        (pagesOf s (l0 s).vf).any (fun p => ((none : Option Nat).isNone || pageDirty s p) && pageBad s p) = !b.isEmpty) ∧
    mR.launches.find? (fun l => l.lsn.toNat == 2) = none ∧ (getVf mR 1).state = 0 ∧ (getVf (onVf mR 0 (fun v => { v with state := 2 })) 0).state = 2 ∧
    (∀ m, m = image 0#512 false ∨ m = image (~~~digest0) true ∨ m = image digest0 true → (getVf (mImage m) 0).state = 1 ∧
      (mImage m).images.find? (fun m => m.id == 5) = some m) ∧
    wellFormed (image 0#512 false) = false ∧ wellFormed (image (~~~digest0) true) = true ∧ (image (~~~digest0) true).digest ≠ Config.shake512 (imageInput (image (~~~digest0) true)) ∧
      resumeStatus (mImage (image digest0 true)) 0 (image digest0 true) = 0 ∧ resumePart (mImage (image digest0 true)) 0 (image digest0 true).node = some 0 := by
  refine ⟨⟨(found_of (by decide +kernel)).1, by decide +kernel, (found_of (by decide +kernel)).2⟩, ?_, by decide +kernel, by decide +kernel, ?_, by decide +kernel,
    by decide +kernel, by decide +kernel, fun m _ => ⟨by rw [show (getVf (mImage m) 0) = getVf mIdle 0 from rfl]; decide +kernel, ?_⟩, by decide +kernel,
    by rw [formed_image, formed], by rw [input_image]; exact other_digest, status0, ?_⟩
  · rintro s (rfl | rfl) <;> exact ⟨(found_of (by decide +kernel)).1, (found_of (by decide +kernel)).2, by decide +kernel, by decide +kernel⟩
  · rintro b (rfl | rfl) <;>
      exact ⟨(found_of (by decide +kernel)).1, (found_of (by decide +kernel)).2, by decide +kernel, by decide +kernel, by decide +kernel, by decide +kernel,
        by decide +kernel, by decide +kernel⟩
  · rename_i h
    rcases h with rfl | rfl | rfl <;> rfl
  · rw [part_image]
    decide +kernel

/-- An image with its table and the digest of its contents. -/
noncomputable def sealed (x : Image) : Image :=
  { x with table := placedSections x, digest := Config.shake512 (imageInput { x with table := placedSections x }) }

theorem sealed_digest (x : Image) : (sealed x).digest = Config.shake512 (imageInput (sealed x)) := rfl

/-- A page that virtual function 0 does not map. -/
def lostPage : ImgPage := { leaf := { leafM with va := 0x50000000, size := 12 }, cells := [] }

/-- A sound image of another class; one over another base; one with a page that is not mapped; one whose launch finds no core; one with a reserved bit set. -/
theorem meets_FreezeResume_checks :
    (∀ x, x = { bare with cls := 1 } ∨ x = { bare with dirtyOnly := true, base := some 3 } ∨ x = { bare with pages := [lostPage] } ∨ x = bare →
      wellFormed (sealed x) = true ∧ (sealed x).digest = Config.shake512 (imageInput (sealed x)) ∧ (sealed x).signed = false) ∧
    (sealed { bare with cls := 1 }).cls ≠ 0x00004016#32 ∧ bare.cls = 0x00004016#32 ∧ (getVf mIdle 0).lastImage = none ∧
    pageMapped mIdle 0 lostPage = false ∧ residencyFits (onVf mIdle 0 (fun v => { v with cores := noCores })) 0 (sealed bare) = false ∧
    bits (sealed { bare with node := { bare.node with raw := 2 ^ 15 } }).node.raw 15 1 ≠ 0 := by
  refine ⟨?_, ?_, ?_, ?_, ?_, ?_, ?_⟩
  · rintro x (rfl | rfl | rfl | rfl) <;> exact ⟨by decide +kernel, sealed_digest _, rfl⟩
  all_goals decide +kernel

/-! ## The table of a switch -/

noncomputable def wordAt (o : State) (pc : Double) : Word :=
  BitVec.ofNat 32 (natLE (((memBytes o (leafKey o leafX pc.toNat / 64 * 64) 64).drop (leafKey o leafX pc.toNat % 64)).take 4))

theorem wordAt_eq (o : State) (pc : Double) : wordAt o pc =
    BitVec.ofNat 32 (natLE (((memBytes o (leafKey o leafX pc.toNat / 64 * 64) 64).drop (leafKey o leafX pc.toNat % 64)).take 4)) := rfl

noncomputable def codeB (o : State) (pc : Double) : Bool :=
  gives (walk o (agentVf o W) pc.toNat) leafX && decide (pc.toNat < 2 ^ 57 ∧ memBad o (leafKey o leafX pc.toNat / 64 * 64) 64 = false)

theorem code_raw {o s : State} {pc : Double} (hc : Clean o s 0 leafX) (h1 : gives (walk o (agentVf o W) pc.toNat) leafX = true) (h2 : pc.toNat < 2 ^ 57)
    (h3 : memBad o (leafKey o leafX pc.toNat / 64 * 64) 64 = false) : ∃ t, fetchWord s 0 (agentVf o W) pc.toNat false
      = (.ok (BitVec.ofNat 32 (natLE (((memBytes o (leafKey o leafX pc.toNat / 64 * 64) 64).drop (leafKey o leafX pc.toNat % 64)).take 4))), t) ∧
      Clean o t 0 leafX :=
  fetchWord_clean (b := false) hc (ok_of h1) (by simp [pageCause, leafX, leafM]) h2 rfl h3

theorem code_of {o s : State} {pc : Double} (hc : Clean o s 0 leafX) (h : codeB o pc = true) :
    ∃ t, fetchWord s 0 (agentVf o W) pc.toNat false = (.ok (wordAt o pc), t) ∧ Clean o t 0 leafX := by
  unfold codeB at h
  rw [Bool.and_eq_true, decide_eq_true_eq] at h
  rw [wordAt_eq]
  exact code_raw hc h.1 h.2.1 h.2.2

/-- One step of the four fetches. -/
def fourStep (c vf : Nat) (pc : Double) (acc : Except Nat (List Word) × State) (i : Nat) : Except Nat (List Word) × State :=
  match fetchWord acc.2 c vf (pc + BitVec.ofNat 64 (4 * i)).toNat false, acc.1 with
  | (.ok w, s), .ok ws => (.ok (ws ++ [w]), s)
  | (.ok _, s), .error e => (.error e, s)
  | (.error e, s), .ok _ => (.error e, s)
  | (.error e, s), .error e' => (.error (min e e'), s)

theorem fourStep_ok {acc : Except Nat (List Word) × State} {t : State} {c vf : Nat} {pc : Double} {ws : List Word} {i : Nat} {w : Word}
    (h : fetchWord acc.2 c vf (pc + BitVec.ofNat 64 (4 * i)).toNat false = (.ok w, t)) (h2 : acc.1 = .ok ws) :
    fourStep c vf pc acc i = (.ok (ws ++ [w]), t) := by
  unfold fourStep
  rw [h, h2]

theorem fourStep_of {o s : State} {pc : Double} {ws : List Word} {i : Nat} (hc : Clean o s 0 leafX) (h : codeB o (pc + BitVec.ofNat 64 (4 * i)) = true) :
    ∃ t, fourStep 0 (agentVf o W) pc (.ok ws, s) i = (.ok (ws ++ [wordAt o (pc + BitVec.ofNat 64 (4 * i))]), t) ∧ Clean o t 0 leafX := by
  obtain ⟨t, ht, hc'⟩ := code_of hc h
  exact ⟨t, fourStep_ok (acc := (.ok ws, s)) ht rfl, hc'⟩

theorem fourSteps_of {o : State} {pc : Double} : ∀ (is : List Nat) (ws : List Word) (s : State), Clean o s 0 leafX →
    is.all (fun i => codeB o (pc + BitVec.ofNat 64 (4 * i))) = true → ∃ t, is.foldl (fourStep 0 (agentVf o W) pc) (.ok ws, s)
      = (.ok (ws ++ is.map (fun i => wordAt o (pc + BitVec.ofNat 64 (4 * i)))), t) ∧ Clean o t 0 leafX := by
  intro is
  induction is with
  | nil => intro ws s hc _; exact ⟨s, by simp, hc⟩
  | cons i is ih =>
    intro ws s hc h
    rw [List.all_cons, Bool.and_eq_true] at h
    obtain ⟨t, ht, hc'⟩ := fourStep_of (ws := ws) hc h.1
    obtain ⟨t', ht', hc''⟩ := ih (ws ++ [wordAt o (pc + BitVec.ofNat 64 (4 * i))]) t hc' h.2
    refine ⟨t', ?_, hc''⟩
    rw [List.foldl_cons, ht, ht', List.map_cons, List.append_assoc]
    rfl

theorem four_of {o s : State} {pc : Double} (hc : Clean o s 0 leafX) (h : (List.range 4).all (fun i => codeB o (pc + BitVec.ofNat 64 (4 * i))) = true) :
    ∃ t, fetchFour s 0 (agentVf o W) pc = (.ok ((List.range 4).map (fun i => wordAt o (pc + BitVec.ofNat 64 (4 * i)))), t) ∧ Clean o t 0 leafX :=
  fourSteps_of (List.range 4) [] s hc h

noncomputable abbrev o0 : State := laneState m0 0 0 w0

/-- A switch without cases over memory of zeros: its default goes to the switch itself. -/
theorem meets_LaneTransfers_switch :
    LaneTurn m0 0 0 e0 w0 ∧ w0.fits e0 [((0x10000#64 : Double), (0#16 : Half))].length ∧ illegalHere w0 e0 8 false false (lsrcRegs (.v 4#7) 1) = false ∧
    (∃ s2, readCases o0 0 (vfAt m0 0 0 w0) e0.pc 0 = (.ok [{ imm := 0#32, off := 0#32, prio := 0#16 }], s2) ∧
      lands s2 0 (vfAt m0 0 0 w0) (e0.pc + BitVec.ofInt 64 (4 * (0#32 : Word).toInt))) ∧
    e0.pc = 0x10000#64 ∧ ∀ u, e0.mask.getLsbD u = true → readLSrc (laneCore m0 0 0 w0) w0 u (.v 4#7) false 0#64 = .ok 0#64 := by
  refine ⟨turn_m0, by unfold Weave.fits; decide +kernel, by decide +kernel, ?_, by decide +kernel, reads_of (v := fun _ => 0#64) (by decide +kernel)⟩
  have hv : vfAt m0 0 0 w0 = agentVf o0 W := by decide +kernel
  have hp : e0.pc = 0x10000#64 := by decide +kernel
  obtain ⟨t, ht, hc⟩ := four_of (pc := e0.pc + BitVec.ofNat 64 8) (cleanBase (o := o0) (by decide +kernel) leafX) (by decide +kernel)
  have hw : (List.range 4).map (fun i => wordAt o0 (e0.pc + BitVec.ofNat 64 8 + BitVec.ofNat 64 (4 * i))) = [0#32, 0#32, 0#32, 0#32] := by decide +kernel
  rw [hw] at ht
  rw [hv]
  refine ⟨t, ?_, lands_clean hc (by decide +kernel)⟩
  unfold readCases
  simp only [List.range, List.range.loop, List.foldl, Nat.mul_zero, Nat.add_zero, ht]
  rfl

/-! ## Words that the specification writes out -/

/-- add.n32 v1, $tid, #100 (11) -/
theorem test_decode_add_n32 : decodeWords 0x20007f7d#32 0xe0000064#32 =
    some (.add32X ⟨false, false, 1#7, .tid, .lit, .lit 100#28⟩) := by decide +kernel
/-- idiv.i32 v7, v5, v6 (11) -/
theorem test_decode_idiv_i32 : decodeWords 0x0301c286#32 0x0#32 =
    some (.idivI32 ⟨false, false, 7#7, .v 5#7, .v 6#7⟩) := by decide +kernel
/-- cmp.lt.i32 p2, v4, #-5 (11) -/
theorem test_decode_cmp_i32 : decodeWords 0x2888827d#32 0xeffffffb#32 =
    some (.cmpI32X ⟨false, .lt, 2#3, .v 4#7, .lit, .lit 268435451#28⟩) := by decide +kernel
/-- plog.and p3, p1, p2 (11) -/
theorem test_decode_plog : decodeWords 0x1390c082#32 0x0#32 =
    some (.plog ⟨false, 8#4, 3#3, 1#3, 2#3⟩) := by decide +kernel
/-- sel.b32 v5, v6, v7, p2 (11) -/
theorem test_decode_sel_b32 : decodeWords 0x2c014307#32 0xf0400038#32 =
    some (.selB32 ⟨false, false, 5#7, .v 6#7, .v 7#7, 2#3, ⟨.self, .self, .zero, .dflt, ⟨7#3, false⟩⟩⟩) := by decide +kernel
/-- bfe.n32 v5, v6, #16, #8 (11) -/
theorem test_decode_bfe_n32 : decodeWords 0x2d01437d#32 0xe0000810#32 =
    some (.bfeN32 ⟨false, false, 5#7, .v 6#7, .lit, .lit 2064#28⟩) := by decide +kernel
/-- pdot2.i16x2 v10, v6, v8, v10 (11) -/
theorem test_decode_pdot2 : decodeWords 0x34028308#32 0xf1400038#32 =
    some (.pdot2I16x2 ⟨false, false, 10#7, .v 6#7, .v 8#7, .v 10#7, ⟨.self, .self, .zero, .dflt, ⟨7#3, false⟩⟩⟩) := by decide +kernel
/-- shrr.sat.i16 v11, v10, #15 (11) -/
theorem test_decode_shrr : decodeWords 0x3482c57d#32 0xe000000f#32 =
    some (.shrrSatI16 ⟨false, false, 11#7, .v 10#7, .lit, .lit 15#28⟩) := by decide +kernel
/-- movs v3, $shape0 (11) -/
theorem test_decode_movs : decodeWords 0x6e00e400#32 0x0#32 =
    some (.movs false false 3#7 (.sp .shape0)) := by decide +kernel
/-- or.b32 v12, v12, v13 (15) -/
theorem test_decode_or_b32 : decodeWords 0x0903060d#32 0x0#32 =
    some (.orB32 ⟨false, false, 12#7, .v 12#7, .v 13#7⟩) := by decide +kernel
/-- shl.b32 v13, rt(v6), v30, fill(s4) (15) -/
theorem test_decode_shl_b32 : decodeWords 0x2383431e#32 0xf0118838#32 =
    some (.shlB32X ⟨false, false, 13#7, .v 6#7, .v 30#7, .mod ⟨.right, .self, .fill 4#6, .dflt, ⟨7#3, false⟩⟩⟩) := by decide +kernel
/-- fmul.f32.c _, v6, v7 (R47) -/
theorem test_decode_fmul_chain : decodeWords 0x15600307#32 0x0#32 =
    some (.fmulF32 ⟨true, true, 0#7, .v 6#7, .v 7#7⟩) := by decide +kernel
/-- fadd.f32.c _, b0, v8 (R47) -/
theorem test_decode_fadd_latch : decodeWords 0x14603c08#32 0x0#32 =
    some (.faddF32 ⟨true, true, 0#7, .latch 0#2, .v 8#7⟩) := by decide +kernel
/-- fmul.f32 v2, v1, #-2.25, from the fields of its example (12) -/
theorem test_decode_fmul_lit : decodeWords 0x388080fd#32 0xec010000#32 =
    some (.fmulF32X ⟨false, false, 2#7, .v 1#7, .lit, .lit 201392128#28⟩) := by decide +kernel
/-- fadd.f32.rz v3, v1, v2 (12) -/
theorem test_decode_fadd_rz : decodeWords 0x3800c082#32 0xf00000b8#32 =
    some (.faddF32X ⟨false, false, 3#7, .v 1#7, .v 2#7, .mod ⟨.self, .self, .zero, .rz, ⟨7#3, false⟩⟩⟩) := by decide +kernel
/-- ffma.f32 v9, v6, v7, v8 (12) -/
theorem test_decode_ffma : decodeWords 0x39024307#32 0xf1000038#32 =
    some (.ffmaF32 ⟨false, false, 9#7, .v 6#7, .v 7#7, .v 8#7, ⟨.self, .self, .zero, .dflt, ⟨7#3, false⟩⟩⟩) := by decide +kernel
/-- fcmp.lt.f64 p2, v4.d, v6.d (12) -/
theorem test_decode_fcmp_f64 : decodeWords 0x1a888206#32 0x0#32 =
    some (.fcmpF64 ⟨false, .lt, 2#3, .v 4#7, .v 6#7⟩) := by decide +kernel
/-- fdiv.f64 v10.d, v4.d, v6.d (12) -/
theorem test_decode_fdiv_f64 : decodeWords 0x1b028206#32 0x0#32 =
    some (.fdivF64 ⟨false, false, 10#7, .v 4#7, .v 6#7⟩) := by decide +kernel
/-- rcp.f32 v5, v4 (12) -/
theorem test_decode_rcp_f32 : decodeWords 0x6f014200#32 0x0#32 =
    some (.rcpF32 ⟨false, false, 5#7, .v 4#7⟩) := by decide +kernel
/-- cvt.e2m1.f32.rn v5, v4 (R298) -/
theorem test_decode_cvt : decodeWords 0x6e814200#32 0xe5889101#32 =
    some (.cvt ⟨false, false, 5#7, .v 4#7, .toNarrow 6#4 37121#16, .rn⟩) := by decide +kernel
/-- vote.ballot v7, p1 (12) -/
theorem test_decode_vote : decodeWords 0x6c81c080#32 0x0#32 =
    some (.vote 7#7 0#2 1#3) := by decide +kernel
/-- hclr v32, #-120 (R302) -/
theorem test_decode_hclr : decodeWords 0x77083e80#32 0xefffff88#32 =
    some (.hclr 2#3 .lit 268435336#28) := by decide +kernel
/-- hfma.neg v32, v4, v6 (R302) -/
theorem test_decode_hfma_neg : decodeWords 0x77884206#32 0x0#32 =
    some (.hfma 2#3 true (.v 4#7) (.v 6#7)) := by decide +kernel
/-- hsgn v48, v32, p1 (R302) -/
theorem test_decode_hsgn : decodeWords 0x790c1001#32 0x0#32 =
    some (.hsgn 48#7 2#3 1#3) := by decide +kernel
/-- hrnd v50.d, v32 (R302) -/
theorem test_decode_hrnd : decodeWords 0x798c9000#32 0x0#32 =
    some (.hrnd 50#7 2#3) := by decide +kernel
/-- bra p1, even, #30, 24 bytes ahead (06) -/
theorem test_decode_bra : decodeWords 0x600003c4#32 0xe0000006#32 =
    some (.bra ⟨30#16, 1#3, false, 6#28⟩) := by decide +kernel
/-- call p7, 64 bytes ahead (06) -/
theorem test_decode_call : decodeWords 0x619ffffc#32 0xe0000010#32 =
    some (.call ⟨65535#16, 7#3, false, 16#28⟩) := by decide +kernel
/-- switch v3 of two cases (R132) -/
theorem test_decode_switch : decodeWords 0x61000180#32 0xe2000000#32 =
    some (.switch (.v 3#7) 2#4) := by decide +kernel
/-- scope #16 (R141) -/
theorem test_decode_scope : decodeWords 0x66803e80#32 0xe0000010#32 =
    some (.scope 16#28) := by decide +kernel
/-- wpop v12, p2 (06) -/
theorem test_decode_wpop : decodeWords 0x68030002#32 0x0#32 =
    some (.wpop 12#7 2#3) := by decide +kernel
/-- lmode #2 (10) -/
theorem test_decode_lmode : decodeWords 0x6b000002#32 0x0#32 =
    some (.lmode 2#2) := by decide +kernel
/-- lstat.clr v40.d, #1 (10) -/
theorem test_decode_lstat : decodeWords 0x6b8a0009#32 0x0#32 =
    some (.lstat 40#7 true 1#3) := by decide +kernel
/-- s.bra q0, 24 bytes back (03) -/
theorem test_decode_s_bra : decodeWords 0xa0000000#32 0xeffffffa#32 =
    some (.sBra ⟨0#16, 0#3, false, 268435450#28⟩) := by decide +kernel
/-- dpush s1 (03) -/
theorem test_decode_dpush : decodeWords 0xa2800080#32 0x0#32 =
    some (.dpush (.s 1#6) false) := by decide +kernel
/-- dpop s6.d (06) -/
theorem test_decode_dpop : decodeWords 0xa3018001#32 0x0#32 =
    some (.dpop (.s 6#6) true) := by decide +kernel
/-- bucket s8, s0, #2 (16) -/
theorem test_decode_bucket : decodeWords 0xa3820000#32 0xe0000002#32 =
    some (.bucket 8#6 0#6 2#2) := by decide +kernel
/-- add.n32 s1, s1, #1 (03) -/
theorem test_decode_u_add : decodeWords 0x900040fd#32 0xe0000001#32 =
    some (.uAdd32X ⟨false, .s 1#6, .s 1#6, .lit, .lit 1#28⟩) := by decide +kernel
/-- cmp.lt.n32 q0, s1, s0 (03) -/
theorem test_decode_u_cmp : decodeWords 0x8c080080#32 0x0#32 =
    some (.uCmpN32 ⟨false, .lt, 0#2, .s 1#6, .s 0#6⟩) := by decide +kernel
/-- mov.b32 s1, #0 (03) -/
theorem test_decode_u_mov : decodeWords 0x99007e80#32 0xe0000000#32 =
    some (.uMovB32X ⟨false, .s 1#6, .lit, .lit 0#28⟩) := by decide +kernel
/-- cmp.eq.n32 q1, s6, #-1 (16) -/
theorem test_decode_u_cmp_lit : decodeWords 0x9700437d#32 0xefffffff#32 =
    some (.uCmpN32X ⟨false, .eq, 1#2, .s 6#6, .lit, .lit 268435455#28⟩) := by decide +kernel
/-- st.cm.b32.sf [v10], v9 (R164) -/
theorem test_decode_st_sf : decodeWords 0x4d82457c#32 0xe0802000#32 =
    some (.stCmQual ⟨.v 9#7, .v 10#7, .zero⟩ ⟨.b32, .none, .th, .fe, .dflt⟩) := by decide +kernel
/-- ld.cm.b32.fec v11, [v10] (R164) -/
theorem test_decode_ld_fec : decodeWords 0x4b02c57c#32 0xe0804000#32 =
    some (.ldCmQual ⟨11#7, .v 10#7, .zero⟩ ⟨.b32, .none, .th, .fec, .dflt⟩) := by decide +kernel
/-- ldk.b64 v4.d, #0 (07) -/
theorem test_decode_ldk_b64 : decodeWords 0x46813e7d#32 0xe0000000#32 =
    some (.ldkB64 ⟨4#7, .zero, .lit⟩ 0#28) := by decide +kernel
/-- ldk.n32 s0, #4 (03) -/
theorem test_decode_u_ldk : decodeWords 0xc6003e7d#32 0xe0000004#32 =
    some (.uLdkB32 ⟨.s 0#6, .zero, .lit⟩ 4#28) := by decide +kernel
/-- ld.g.b32 s4, [s0.d + s6] (15) -/
theorem test_decode_u_ld : decodeWords 0xc0010006#32 0x0#32 =
    some (.uLdGB32 ⟨.s 4#6, .s 0#6, .s 6#6⟩) := by decide +kernel
/-- st.g.b64 [v28.d + v12], v0.d (16) -/
theorem test_decode_st_g_b64 : decodeWords 0x45000e0c#32 0x0#32 =
    some (.stGB64 ⟨.v 0#7, .v 28#7, .v 12#7⟩) := by decide +kernel
/-- atom.add.n32.rel.dv v7, [v4.d], v5 (R170) -/
theorem test_decode_atom : decodeWords 0x4e01c205#32 0xe00b2000#32 =
    some (.atom ⟨7#7, .v 4#7, .v 5#7⟩ .add ⟨.n32, .rel, .dv, false, true⟩) := by decide +kernel
/-- fence.dv (R172) -/
theorem test_decode_fence : decodeWords 0x4f000006#32 0x0#32 =
    some (.fence .ar .dv) := by decide +kernel
/-- fence.rel.co (R172) -/
theorem test_decode_u_fence : decodeWords 0xc7800013#32 0x0#32 =
    some (.uFence .rel .co) := by decide +kernel
/-- alloc v30.d, v5, p3 (R174) -/
theorem test_decode_alloc : decodeWords 0x4f878280#32 0xe0000003#32 =
    some (.alloc 30#7 (.v 5#7) false 3#3) := by decide +kernel
/-- cpy.in.co v22, tx3, v20, v21, #5, #4, [v24.d] (R179) -/
theorem test_decode_cpy_in : decodeWords 0x50860a16#32 0xe034a8c0#32 =
    some (.cpyIn ⟨some ⟨24#7, .co⟩, 20#7, .v 22#7, 3#8, 2#3, 5#4, 4#4, false⟩) := by decide +kernel
/-- waitc [v24.d], #1 (13) -/
theorem test_decode_waitc : decodeWords 0x52000c7d#32 0xe0000001#32 =
    some (.waitc (.v 24#7) .lit 1#28) := by decide +kernel
/-- sclaim sl0, #2 (13) -/
theorem test_decode_sclaim : decodeWords 0x53003e80#32 0xe0000002#32 =
    some (.sclaim 0#7 2#6) := by decide +kernel
/-- stk.ld sl1, tx2, v21, v22 (13) -/
theorem test_decode_stk_ld : decodeWords 0x541f0a80#32 0xe0812000#32 =
    some (.stkLd .none 21#7 1#5 2#8 2#3) := by decide +kernel
/-- mtile.reuse rim0, sl0, sl1, [v24.d] (16) -/
theorem test_decode_mtile : decodeWords 0x54800160#32 0xf300003a#32 =
    some (.mtile ⟨0#3, 0#5, 1#5, some ⟨24#7, .co⟩, ⟨7#3, false⟩, true⟩) := by decide +kernel
/-- rim.st.rn rim0, tx3, v20, v21, #0, #7, #7, [v24.d] (R325) -/
theorem test_decode_rim_st : decodeWords 0x56060a7c#32 0xe006bf2c#32 =
    some (.rimSt ⟨some ⟨24#7, .co⟩, .v 20#7, .zero, 0#3, 3#8, 2#3, 7#3, 7#3, .rn, false⟩) := by decide +kernel
/-- rzero rim0 (13) -/
theorem test_decode_rzero : decodeWords 0x55000000#32 0x0#32 =
    some (.rzero 0#3) := by decide +kernel
/-- termrd.clr v40.d, #0 (R326) -/
theorem test_decode_termrd : decodeWords 0x568a0008#32 0x0#32 =
    some (.termrd 40#7 true 0#3) := by decide +kernel
/-- srel sl0, #2 (13) -/
theorem test_decode_srel : decodeWords 0x53803e80#32 0xe0000002#32 =
    some (.srel 0#7 2#6) := by decide +kernel
/-- exit (06) -/
theorem test_decode_exit : decodeWords 0x62800000#32 0x0#32 =
    some .exit := by decide +kernel
/-- rgn.open (06) -/
theorem test_decode_rgn_open : decodeWords 0x65800000#32 0x0#32 =
    some .rgnOpen := by decide +kernel
/-- sleep #100, from its fields (06) -/
theorem test_decode_sleep : decodeWords 0x68803e80#32 0xe0000064#32 =
    some (.sleep .lit 100#28) := by decide +kernel
/-- rft (18) -/
theorem test_decode_rft : decodeWords 0xcd000000#32 0x0#32 =
    some .rft := by decide +kernel
/-- csrr s4, register 0x10, from its fields (18) -/
theorem test_decode_csrr : decodeWords 0xcc013e80#32 0xe0000010#32 =
    some (.csrr (.s 4#6) 16#12) := by decide +kernel

/-! ## Ill-formed terms -/

def okM : Modif := { na := .self, nb := .self, edge := .zero, round := .dflt, guard := { p := 7#3, pol := false } }

/-- Each is refused: a destination past v119; an odd pair; S with a destination; a literal in a one-word form; a floating condition of an integer compare; predicate
7 written; a payload without a literal; a packed literal of 17 bits; a selector on zero; an odd fill register of a pair; a rounding of an integer form; a
special register that uniform forms do not read; `$rng` written as a pair; and so on, a check each. -/
theorem test_illformed : [
    Instr.add32 { s := false, c := false, d := 120#7, a := .v 1#7, b := .v 2#7 },
    .add64 { s := false, c := false, d := 3#7, a := .v 2#7, b := .v 4#7 },
    .add64 { s := false, c := false, d := 2#7, a := .v 3#7, b := .v 4#7 },
    .add32 { s := true, c := false, d := 1#7, a := .v 1#7, b := .v 2#7 },
    .add32 { s := false, c := false, d := 1#7, a := .lit, b := .v 2#7 },
    .cmpN32 { c := false, cond := .un, p := 1#3, a := .v 1#7, b := .v 2#7 },
    .cmpN32 { c := false, cond := .lt, p := 7#3, a := .v 1#7, b := .v 2#7 },
    .plog { c := false, t := 8#4, p := 7#3, a := 1#3, b := 2#3 },
    .add32X { s := false, c := false, d := 1#7, a := .v 1#7, b := .v 2#7, ext := .lit 1#28 },
    .faddF16x2 { s := false, c := false, d := 1#7, a := .v 1#7, b := .lit, ext := .lit 65536#28 },
    .add32X { s := false, c := false, d := 1#7, a := .zero, b := .v 2#7, ext := .mod { okM with na := .left } },
    .add64X { s := false, c := false, d := 2#7, a := .v 2#7, b := .v 4#7, ext := .mod { okM with na := .left, edge := .fill 3#6 } },
    .add32X { s := false, c := false, d := 1#7, a := .v 1#7, b := .v 2#7, ext := .mod { okM with round := .rz } },
    .uAdd32X { c := false, d := .s 1#6, a := .s 1#6, b := .s 2#6, ext := .mod { okM with nb := .right } },
    .uAdd32X { c := false, d := .s 1#6, a := .s 1#6, b := .s 2#6, ext := .mod { okM with guard := { p := 4#3, pol := false } } },
    .uAdd32X { c := false, d := .s 1#6, a := .sp .flags, b := .s 2#6, ext := .mod okM },
    .movs false false 1#7 .zero,
    .ldGB32 { d := 1#7, a := .v 3#7, b := .zero },
    .ldGB32 { d := 1#7, a := .lit, b := .zero },
    .ldkB32 { d := 1#7, a := .zero, b := .v 1#7 } 4#28,
    .ldGQual { d := 1#7, a := .v 4#7, b := .zero } { width := .b32, order := .rel, scope := .dv, fe := .none, cache := .dflt },
    .ldGQual { d := 1#7, a := .v 4#7, b := .zero } { width := .b32, order := Order.none, scope := .dv, fe := .none, cache := .dflt },
    .stGQual { t := .v 1#7, a := .v 4#7, b := .zero } { width := .b32, order := .acq, scope := .dv, fe := .none, cache := .dflt },
    .ldGQual { d := 1#7, a := .v 4#7, b := .zero } { width := .b32, order := .acq, scope := .dv, fe := .fe, cache := .dflt },
    .ldCmQual { d := 1#7, a := .v 4#7, b := .zero } { width := .b32, order := .acq, scope := .dv, fe := .none, cache := .dflt },
    .atom { d := 7#7, a := .v 4#7, b := .v 5#7 } .add { ty := .f32, order := .relaxed, scope := .dv, circle := false, ret := true },
    .atom { d := 7#7, a := .v 4#7, b := .v 5#7 } .cas { ty := .n32, order := .relaxed, scope := .dv, circle := false, ret := false },
    .atom { d := 7#7, a := .v 4#7, b := .v 5#7 } .add { ty := .n32, order := .relaxed, scope := .dv, circle := true, ret := true },
    .waitc (.v 25#7) .lit 1#28,
    .sclaim 31#7 2#6,
    .sclaim 0#7 0#6,
    .stkLd none 117#7 0#5 0#8 4#3,
    .stkLd (some (24#7, .wv)) 0#7 0#5 0#8 2#3,
    .hrnd 51#7 0#3,
    .hfma 7#3 false (.v 1#7) (.v 2#7),
    .cvt { s := false, c := false, d := 1#7, a := .v 2#7, op := .toNarrow 6#4 0x8000#16, round := .dflt },
    .cvt { s := false, c := false, d := 1#7, a := .v 2#7, op := .std 8#4 6#4, round := .dflt },
    .brx (.v 3#7) .zero 0#28,
    .bucket 61#6 0#6 1#2,
    .bucket 0#6 62#6 3#2,
    .qfence 0#4,
    .csrr (.s 0#6) 7#12,
    .csrr (.s 1#6) 1#12,
    .xlinv (.s 0#6) (.s 2#6) .co].all (fun i => !i.wf) = true := by decide +kernel

/-- Their neighbours, one field put right in each, are accepted. -/
theorem test_wellformed : [
    Instr.add32 { s := false, c := false, d := 119#7, a := .v 1#7, b := .v 2#7 },
    .add64 { s := false, c := false, d := 118#7, a := .v 2#7, b := .v 4#7 },
    .add32 { s := true, c := false, d := 0#7, a := .v 1#7, b := .v 2#7 },
    .fcmpF32 { c := false, cond := .un, p := 6#3, a := .v 1#7, b := .v 2#7 },
    .add32X { s := false, c := false, d := 1#7, a := .v 1#7, b := .lit, ext := .lit 1#28 },
    .faddF16x2 { s := false, c := false, d := 1#7, a := .v 1#7, b := .lit, ext := .lit 65535#28 },
    .add64X { s := false, c := false, d := 2#7, a := .v 2#7, b := .v 4#7, ext := .mod { okM with na := .left, edge := .fill 2#6 } },
    .faddF32X { s := false, c := false, d := 1#7, a := .v 1#7, b := .v 2#7, ext := .mod { okM with round := .rz } },
    .ldGQual { d := 1#7, a := .v 4#7, b := .zero } { width := .b32, order := .acq, scope := .dv, fe := .none, cache := .dflt },
    .ldCmQual { d := 1#7, a := .v 4#7, b := .zero } { width := .b32, order := .acq, scope := .co, fe := .fec, cache := .dflt },
    .sclaim 30#7 2#6, .sclaim 39#7 1#6, .stkLd none 116#7 0#5 0#8 4#3, .bucket 60#6 61#6 3#2, .csrr (.s 2#6) 68#12].all (fun i => i.wf) = true := by decide +kernel

/-! ## Single steps -/

/-- v`r` of thread `t` after one step of the weave that runs a word, its results arrived. -/
noncomputable def ranV (nbits w t r : Nat) : Word :=
  match step (State.reset.withFetchWord nbits w) with
  | .next s => readV (wv s) t r
  | _ => 0xdead#32

/-- `add.n32 v1, $tid, #100` (11). -/
theorem test_step_add : ranV 64 0xe000006420007f7d 5 1 = 105#32 := by decide +kernel

/-- `movs v3, $shape0` of a launch whose shape is 0. -/
theorem test_step_movs : ranV 32 0x6e00e400 9 3 = 0#32 := by decide +kernel

/-- `trap #3` parks the entry with SOFT (R149). -/
theorem test_step_trap : (match step (State.reset.withFetchWord 64 0xe000000369800000) with
    | .next s => (gw s).frontier.map (fun e => (e.state, e.cause))
    | _ => []) = [(.parked, cSOFT)] := by decide +kernel

/-- R269, R272, R275, R276: the examples of their entries. -/
theorem test_int_rules : mulhiI 0xffffffff#32 2#32 = 0xffffffff#32 ∧ mulhiN 0xffffffff#32 2#32 = 1#32 ∧ minN 0xffffffff#32 1#32 = 1#32 ∧
    minI 0xffffffff#32 1#32 = 0xffffffff#32 ∧ (bfe false 0x12abcdef#64 0x810#64).1 = 0xab#64 ∧ (bfe true 0x12abcdef#64 0x810#64).1 = 0xffffffab#64 ∧
    (clzB32 0#64).1 = 32#64 ∧ (shlB32 1#64 0xffffffff#64).1 = 0#64 := by decide +kernel

/-- R271: the table of divisions. -/
theorem test_division : idivI32 5#64 0#64 = (0x7fffffff#64, fDZ) ∧ idivI32 0xfffffffb#64 0#64 = (0x80000000#64, fDZ) ∧
    idivI32 0x80000000#64 0xffffffff#64 = (0x7fffffff#64, fSAT) ∧ remI32 0x80000000#64 0xffffffff#64 = (0#64, 0#6) ∧
    idivI32 0xfffffff9#64 2#64 = (0xfffffffd#64, 0#6) ∧ remI32 0xfffffff9#64 2#64 = (0xffffffff#64, 0#6) := by decide +kernel

/-- The lines of "A dot product narrowed to samples" (11). -/
theorem test_packed : pdot2 0x4e207530#64 0x7fff7fff#64 0x3b9aca00#64 = (0x7fffffff#64, fSAT) ∧ shrrSatI16 0x7fffffff#64 15#64 = (0x7fff#64, fSAT) ∧
    shrrSatI16 0xc000#64 15#64 = (2#64, 0#6) ∧ shrrSatI16 0xffff4000#64 15#64 = (0xffffffff#64, 0#6) ∧ packI16x2 2#64 0xffffffff#64 = (0xffff0002#64, 0#6) :=
  by decide +kernel

/-- R404: the sum of the nine digits, as published for this polynomial. -/
theorem test_crc : crc64 [0x31#8, 0x32#8, 0x33#8, 0x34#8, 0x35#8, 0x36#8, 0x37#8, 0x38#8, 0x39#8] = 0x62ec59e3f1a4f00a#64 := by decide +kernel

/-- R231, R298: 2.5625 rounds to e2m1's 3, and 12: 1.0 and 2.0 added. -/
theorem test_fp : cvtOp (.toNarrow 6#4 0x9101#16) rnRnd 0x40240000#64 = (5#64, fNX) ∧ faddT .f32 rnRnd 0x3f800000#64 0x40000000#64 = (0x40400000#64, 0#6) := by
  decide +kernel

/-- The hoop of the orientation test (12) after each of its lines. -/
theorem test_hoop :
    let h0 : Hoop := { w := 0, base := -120, hi := false, lo := false };
    let h1 := h0.accum false [Fmt.f64.value 0x3ff0000000000001, Fmt.f64.value 0x3fefffffffffffff];
    let h2 := h1.accum true [Fmt.f64.value 0x3ff0000000000000, Fmt.f64.value 0x3ff0000000000000];
    h0.words.getD 15 0#32 = 0xff88#32 ∧ h1.w = 2 ^ 120 + 2 ^ 67 - 2 ^ 15 ∧ h1.lo = false ∧ h2.words.take 4 = [0xffff8000#32, 0xffffffff#32, 7#32, 0#32] ∧
      h2.sign = 1#32 ∧ h2.round rnRnd = (0x3c9ffffffffffffe#64, 0#6) := by decide +kernel

def oneEl : El := ⟨.fin false 1 0 false, false, 1⟩

/-- R239: one element under two blockings. -/
theorem test_blockings :
    let b := (List.range 64).map (fun k => if k = 3 ∨ k = 20 then oneEl else El.zero);
    rimElement true 16 0x4b800000 (List.replicate 64 oneEl) b = 0x4b800000 ∧ rimElement true 32 0x4b800000 (List.replicate 64 oneEl) b = 0x4b800001 := by decide +kernel

end Sys2Proof.Tests
end

/-!
# Steps keep memory and the caches in their canonical form

`KeepsForm s t` says that from `s` to `t` memory stays in its form (`State.Inv`) and the caches in theirs (`State.Caches`). A rule of the same name
as each function of the state says that the function keeps it, so the proof about an operation reads as the chain of the updates it makes.
-/

namespace Sys2Proof.Machine

-- One declaration after the other: many short ones at once take more threads than the check has room for.
set_option Elab.async false

/-! ## The forms that every step keeps -/

/-- From `s` to `t` memory stays in its canonical form, and the caches in theirs. -/
structure KeepsForm (s t : State) : Prop where
  inv : s.Inv → t.Inv
  caches : s.Caches → t.Caches

/-- Whatever state an outcome leads to, it keeps the forms. -/
def OutKeeps (s : State) : Out → Prop
  | .next t => KeepsForm s t
  | _ => True

theorem OutKeeps.next {s t : State} {o : Out} (h : OutKeeps s o) (e : o = .next t) : KeepsForm s t := by
  subst e; exact h

/-! ## Caches in their form (R199) -/

section Lines

variable {t : Sparse Line} {line : Nat} {l : Line}

theorem linesOk_nil : linesOk [] := ⟨rfl, fun _ he => by cases he⟩

theorem linesOk_sfind (h : linesOk t) (e : sfind t line = some l) : l.data.length = 64 := by
  induction t with
  | nil => cases e
  | cons x r ih =>
    obtain ⟨k, y⟩ := x
    simp only [sfind] at e
    split at e
    · cases e; exact h.2 (k, l) List.mem_cons_self
    · refine ih ⟨?_, fun z hz => h.2 z (List.mem_cons_of_mem _ hz)⟩ e
      have hr := h.1
      simp only [risingFrom, Bool.and_eq_true] at hr
      exact rising_mono r hr.2 (Nat.zero_le _)

theorem linesOk_filter (h : linesOk t) (p : Nat × Line → Bool) : linesOk (t.filter p) :=
  ⟨rising_filter t p h.1, fun e he => h.2 e (List.mem_of_mem_filter he)⟩

theorem linesOk_skeep (h : linesOk t) (p : Nat → Bool) : linesOk (skeep t p) := linesOk_filter h _

/-- `linesOk` in the form for which the rules of `List.all` stand. -/
theorem linesOk_iff : linesOk t ↔ risingFrom 0 t = true ∧ t.all (fun e => decide (e.2.data.length = 64)) = true := by
  simp only [linesOk, List.all_eq_true, decide_eq_true_eq]

theorem linesOk_serase (h : linesOk t) (line : Nat) : linesOk (serase t line) :=
  linesOk_iff.mpr ⟨rising_serase t line h.1, all_serase _ t line (linesOk_iff.mp h).2⟩

theorem linesOk_sput (h : linesOk t) (line : Nat) (hl : l.data.length = 64) : linesOk (sput t line l) :=
  linesOk_iff.mpr ⟨rising_sput t line l h.1 (Nat.zero_le _), all_sput _ t line l (linesOk_iff.mp h).2 (by simpa using hl)⟩

theorem rising_map (t : Sparse Line) (f : Nat × Line → Nat × Line) (hf : ∀ e, (f e).1 = e.1) {n : Nat} (h : risingFrom n t = true) :
    risingFrom n (t.map f) = true := by
  induction t generalizing n with
  | nil => rfl
  | cons e r ih =>
    simp only [List.map_cons, risingFrom, Bool.and_eq_true, decide_eq_true_eq, hf] at h ⊢
    exact ⟨h.1, ih h.2⟩

/-- Lines changed in place, none in its length. -/
theorem linesOk_map (h : linesOk t) (f : Nat × Line → Nat × Line) (hf : ∀ e, (f e).1 = e.1)
    (hd : ∀ e, (f e).2.data.length = e.2.data.length) : linesOk (t.map f) := by
  refine ⟨rising_map t f hf h.1, fun e he => ?_⟩
  obtain ⟨x, hx, rfl⟩ := List.mem_map.mp he
  exact (hd x).trans (h.2 x hx)

theorem linesOk_cleaned (h : linesOk t) : linesOk (cleaned t) :=
  linesOk_map (linesOk_filter h _) _ (fun _ => rfl) (fun _ => rfl)

theorem length_patch (d x : List Byte) (o : Nat) : (patch d o x).length = d.length := by
  induction x generalizing d o with
  | nil => rfl
  | cons b r ih => exact (ih _ _).trans List.length_set

theorem length_store (l : Line) (k : Nat) (d : List Byte) : (l.store k d).data.length = l.data.length := length_patch _ _ _

theorem length_memBytes (s : State) (k n : Nat) : (memBytes s k n).length = n := by
  induction n generalizing k with
  | zero => rfl
  | succ n ih => exact congrArg (· + 1) (ih (k + 1))

theorem length_freshLine (s : State) (line : Nat) : (freshLine s line).data.length = 64 := length_memBytes _ _ _

theorem length_mergeLine (up low : Line) : (mergeLine up low).data.length = 64 := by simp [mergeLine]

end Lines

theorem length_sliceLine {s : State} (h : s.Caches) (p line : Nat) : (sliceLine s p line).data.length = 64 := by
  unfold sliceLine
  split
  · rename_i l e
    split
    · exact length_freshLine _ _
    · exact linesOk_sfind (h.2 p) e
  · exact length_freshLine _ _

theorem sfind_map {α : Type} (t : Sparse α) (f : Nat × α → Nat × α) (hf : ∀ e, (f e).1 = e.1) (i : Nat) :
    sfind (t.map f) i = (sfind t i).map (fun x => (f (i, x)).2) := by
  induction t with
  | nil => rfl
  | cons e r ih =>
    obtain ⟨k, v⟩ := e
    have hk : f (k, v) = (k, (f (k, v)).2) := Prod.ext (hf (k, v)) rfl
    rw [List.map_cons, hk]
    simp only [sfind]
    split
    · rename_i h; subst h; rfl
    · exact ih

/-- A change made to each entry of a table reaches what a reader finds there, or leaves it with the default. -/
theorem sget_map {α : Type} {P : α → Prop} (d : α) (t : Sparse α) (f : Nat × α → Nat × α) (hf : ∀ e, (f e).1 = e.1) (i : Nat)
    (hp : ∀ e, P e.2 → P (f e).2) (h : P (sget d t i)) : P (sget d (t.map f) i) := by
  unfold sget at h ⊢
  rw [sfind_map t f hf]
  cases e : sfind t i with
  | none => rw [e] at h; exact h
  | some x => rw [e] at h; exact hp (i, x) h

/-- What holds of every entry of a table, and of the default, holds of what a reader finds there. -/
theorem sget_of_forall {α : Type} {P : α → Prop} {d : α} {t : Sparse α} {i : Nat} (hd : P d) (h : ∀ e ∈ t, P e.2) : P (sget d t i) := by
  induction t with
  | nil => exact hd
  | cons e r ih =>
    obtain ⟨k, v⟩ := e
    simp only [sget, sfind]
    split
    · exact h _ List.mem_cons_self
    · exact ih fun x hx => h x (List.mem_cons_of_mem _ hx)

/-! ### What leaves an L1 as it is -/

theorem foldl_l1 {α β : Type} (l : List α) (f : Core × β → α → Core × β) (hf : ∀ p e, (f p e).1.l1 = p.1.l1) (p : Core × β) :
    (l.foldl f p).1.l1 = p.1.l1 := by
  induction l generalizing p with
  | nil => rfl
  | cons e r ih => exact (ih _).trans (hf p e)

theorem foldl_core_l1 {α : Type} {l : List α} {f : Core → α → Core} {x : Core}
    (hf : ∀ x e, (f x e).l1 = x.l1 := by exact fun _ _ => rfl) : (l.foldl f x).l1 = x.l1 := by
  induction l generalizing x with
  | nil => rfl
  | cons e r ih => exact ih.trans (hf x e)

section

variable (x : Core) (w : Weave)

@[simp] theorem refEntry_l1 (n : Nat) (up : Bool) : (refEntry x n up).l1 = x.l1 := by unfold refEntry; split <;> rfl

@[simp] theorem setVTag_l1 (r n : Nat) : (setVTag x w r n).1.l1 = x.l1 := by simp [setVTag]

@[simp] theorem setSTag_l1 (r n : Nat) : (setSTag x w r n).1.l1 = x.l1 := by simp [setSTag]

@[simp] theorem bindV_l1 (rs ns : List Nat) : (bindV x w rs ns).1.l1 = x.l1 := foldl_l1 _ _ (fun _ _ => setVTag_l1 ..) _

@[simp] theorem bindS_l1 (rs ns : List Nat) : (bindS x w rs ns).1.l1 = x.l1 := foldl_l1 _ _ (fun _ _ => setSTag_l1 ..) _

@[simp] theorem untagV_l1 (rs : List Nat) : (untagV x w rs).1.l1 = x.l1 :=
  foldl_l1 _ _ (fun _ _ => by split <;> simp) _

@[simp] theorem untagS_l1 (rs : List Nat) : (untagS x w rs).1.l1 = x.l1 :=
  foldl_l1 _ _ (fun _ _ => by split <;> simp) _

@[simp] theorem markReleasing_l1 (u n : Nat) : (markReleasing x u n).l1 = x.l1 := by
  unfold markReleasing
  split
  · rfl
  · exact foldl_core_l1

@[simp] theorem grantClaim_l1 (k u n : Nat) : (grantClaim x w k u n).l1 = x.l1 := foldl_core_l1

@[simp] theorem freeUnits_l1 (u n : Nat) : (freeUnits x u n).l1 = x.l1 := by
  unfold freeUnits
  split <;> exact foldl_core_l1

@[simp] theorem dropLoad_l1 (m : Cmd) : (dropLoad x m).l1 = x.l1 := by
  unfold dropLoad
  split
  · split <;> rfl
  · rfl

@[simp] theorem strikeS_l1 (slot r : Nat) : (strikeS x slot r).l1 = x.l1 := by
  unfold strikeS
  split
  · split <;> rfl
  split
  · split <;> rfl
  · rfl

@[simp] theorem strikeCircle_l1 (inst : Nat) (isRole : Bool) (tag g : Nat) : (strikeCircle x inst isRole tag g).l1 = x.l1 := by
  unfold strikeCircle
  split
  · split <;> rfl
  · rfl

@[simp] theorem untagAll_l1 : (untagAll x w).1.l1 = x.l1 := by simp [untagAll]

theorem evictOne_l1 {x y : Core} (h : evictOne x = some y) : y.l1 = x.l1 := by
  obtain ⟨b, -, rfl⟩ := Option.map_eq_some_iff.mp h
  rfl

theorem makeRoom_l1 {k n : Nat} {x y : Core} (h : makeRoom k x n = some y) : y.l1 = x.l1 := by
  induction k generalizing x with
  | zero => cases h
  | succ k ih =>
    unfold makeRoom at h
    split at h
    · cases h; rfl
    split at h
    · rename_i e
      exact (ih h).trans (evictOne_l1 e)
    · cases h

end

/-! ## One rule for each update of the state -/

section

variable {s t u : State}

protected theorem KeepsForm.refl (s : State) : KeepsForm s s := ⟨id, id⟩

protected theorem KeepsForm.trans (h : KeepsForm s t) (g : KeepsForm t u) : KeepsForm s u := ⟨g.inv ∘ h.inv, g.caches ∘ h.caches⟩

/-- An update that touches neither memory nor cores nor partitions. -/
protected theorem KeepsForm.frame (h : KeepsForm s t) (hm : u.mem = t.mem := by rfl) (hc : u.cores = t.cores := by rfl)
    (hp : u.parts = t.parts := by rfl) : KeepsForm s u := by
  refine h.trans ⟨fun hi => ?_, fun hi => ⟨fun c => ?_, fun p => ?_⟩⟩
  · unfold State.Inv; rw [hm]; exact hi
  · unfold getCore; rw [hc]; exact hi.1 c
  · unfold getPart; rw [hp]; exact hi.2 p

/-- An update of memory alone. -/
protected theorem KeepsForm.memory (h : KeepsForm s t) (hm : memWf t.mem = true → memWf u.mem = true) (hc : u.cores = t.cores := by rfl)
    (hp : u.parts = t.parts := by rfl) : KeepsForm s u := by
  refine h.trans ⟨hm, fun hi => ⟨fun c => ?_, fun p => ?_⟩⟩
  · unfold getCore; rw [hc]; exact hi.1 c
  · unfold getPart; rw [hp]; exact hi.2 p

/-- An update of one core; what it does to the L1 may count on the form that the caches had at first. -/
protected theorem KeepsForm.putCoreOf {c : Nat} {x : Core} (h : KeepsForm s t) (hx : s.Caches → linesOk x.l1) : KeepsForm s (putCore t c x) := by
  refine ⟨h.inv, fun hi => ⟨fun d => ?_, (h.caches hi).2⟩⟩
  by_cases hd : d = c
  · subst hd; rw [getCore_putCore_self]; exact hx hi
  · rw [getCore_putCore_ne _ _ hd]; exact (h.caches hi).1 d

protected theorem KeepsForm.putPartOf {p : Nat} {x : Part} (h : KeepsForm s t) (hx : s.Caches → linesOk x.l2) : KeepsForm s (putPart t p x) := by
  refine ⟨h.inv, fun hi => ⟨(h.caches hi).1, fun q => ?_⟩⟩
  by_cases hq : q = p
  · subst hq; rw [getPart_putPart_self]; exact hx hi
  · rw [getPart_putPart_ne _ _ hq]; exact (h.caches hi).2 q

/-- An update of one core that keeps the form of any L1. -/
protected theorem KeepsForm.onL1 {c : Nat} {f : Core → Core} (h : KeepsForm s t) (hf : ∀ x : Core, linesOk x.l1 → linesOk (f x).l1) :
    KeepsForm s (onCore t c f) := h.putCoreOf fun hi => hf _ ((h.caches hi).1 c)

protected theorem KeepsForm.onL2 {p : Nat} {f : Part → Part} (h : KeepsForm s t) (hf : ∀ x : Part, linesOk x.l2 → linesOk (f x).l2) :
    KeepsForm s (onPart t p f) := h.putPartOf fun hi => hf _ ((h.caches hi).2 p)

/-- An update of one core that leaves its L1 as it is. -/
protected theorem KeepsForm.onCore {c : Nat} {f : Core → Core} (h : KeepsForm s t) (hf : ∀ x, (f x).l1 = x.l1 := by exact fun _ => rfl) :
    KeepsForm s (onCore t c f) := h.onL1 fun x hx => (hf x).symm ▸ hx

protected theorem KeepsForm.putCore {c : Nat} {x : Core} (h : KeepsForm s t) (hx : x.l1 = (getCore t c).l1 := by rfl) :
    KeepsForm s (putCore t c x) := h.putCoreOf fun hi => hx ▸ (h.caches hi).1 c

protected theorem KeepsForm.onPart {p : Nat} {f : Part → Part} (h : KeepsForm s t) (hf : ∀ x, (f x).l2 = x.l2 := by exact fun _ => rfl) :
    KeepsForm s (onPart t p f) := h.onL2 fun x hx => (hf x).symm ▸ hx

/-- A change made to every core. -/
protected theorem KeepsForm.mapCores {f : Nat × Core → Nat × Core} (h : KeepsForm s t) (hk : ∀ e, (f e).1 = e.1)
    (hf : ∀ e, linesOk e.2.l1 → linesOk (f e).2.l1) : KeepsForm s { t with cores := t.cores.map f } :=
  h.trans ⟨id, fun hi => ⟨fun c => sget_map (P := fun x : Core => linesOk x.l1) _ _ f hk c hf (hi.1 c), hi.2⟩⟩

protected theorem KeepsForm.mapParts {f : Nat × Part → Nat × Part} (h : KeepsForm s t) (hk : ∀ e, (f e).1 = e.1)
    (hf : ∀ e, linesOk e.2.l2 → linesOk (f e).2.l2) : KeepsForm s { t with parts := t.parts.map f } :=
  h.trans ⟨id, fun hi => ⟨hi.1, fun p => sget_map (P := fun x : Part => linesOk x.l2) _ _ f hk p hf (hi.2 p)⟩⟩

protected theorem KeepsForm.putWeave {c k : Nat} {w : Weave} (h : KeepsForm s t) : KeepsForm s (putWeave t c k w) := h.onCore

protected theorem KeepsForm.onWeave {c k : Nat} {f : Weave → Weave} (h : KeepsForm s t) : KeepsForm s (onWeave t c k f) := by
  unfold onWeave
  split
  · exact h.putWeave
  · exact h

protected theorem KeepsForm.putInst {c i : Nat} {x : Inst} (h : KeepsForm s t) : KeepsForm s (putInst t c i x) := h.onCore

protected theorem KeepsForm.onInst {c i : Nat} {f : Inst → Inst} (h : KeepsForm s t) : KeepsForm s (onInst t c i f) := by
  unfold onInst
  split
  · exact h.putInst
  · exact h

protected theorem KeepsForm.putVf {v : Nat} {x : Vf} (h : KeepsForm s t) : KeepsForm s (putVf t v x) := h.frame
protected theorem KeepsForm.onVf {v : Nat} {f : Vf → Vf} (h : KeepsForm s t) : KeepsForm s (onVf t v f) := h.frame
protected theorem KeepsForm.onLaunch {n : Nat} {f : Launch → Launch} (h : KeepsForm s t) : KeepsForm s (onLaunch t n f) := h.frame
protected theorem KeepsForm.mark {n k : Nat} (h : KeepsForm s t) : KeepsForm s (mark t n k) := h.frame
protected theorem KeepsForm.markPart {p n k : Nat} (h : KeepsForm s t) : KeepsForm s (markPart t p n k) := h.frame
protected theorem KeepsForm.nextSeq (h : KeepsForm s t) : KeepsForm s (nextSeq t).2 := h.frame
protected theorem KeepsForm.send {m : Msg} (h : KeepsForm s t) : KeepsForm s (send t m) := h.frame
protected theorem KeepsForm.poisonUnit {k : Nat} (h : KeepsForm s t) : KeepsForm s (poisonUnit t k) := h.frame

/-! ### Ways to go on -/

protected theorem KeepsForm.ite (h : KeepsForm s t) (g : KeepsForm s u) {p : Prop} {_ : Decidable p} : KeepsForm s (if p then t else u) := by
  split
  · exact h
  · exact g

protected theorem KeepsForm.foldl (h : KeepsForm s t) {α : Type} {l : List α} {f : State → α → State}
    (hf : ∀ {u x}, KeepsForm s u → KeepsForm s (f u x)) : KeepsForm s (l.foldl f t) := by
  induction l generalizing t with
  | nil => exact h
  | cons x r ih => exact ih (hf h)

protected theorem KeepsForm.foldl_snd {α β : Type} {l : List α} {f : β × State → α → β × State} {p : β × State} (h : KeepsForm s p.2)
    (hf : ∀ {q x}, KeepsForm s q.2 → KeepsForm s (f q x).2) : KeepsForm s (l.foldl f p).2 := by
  induction l generalizing p with
  | nil => exact h
  | cons x r ih => exact ih (hf h)

protected theorem KeepsForm.foldl_fst {α β : Type} {l : List α} {f : State × β → α → State × β} {p : State × β} (h : KeepsForm s p.1)
    (hf : ∀ {q x}, KeepsForm s q.1 → KeepsForm s (f q x).1) : KeepsForm s (l.foldl f p).1 := by
  induction l generalizing p with
  | nil => exact h
  | cons x r ih => exact ih (hf h)

/-- The state in a result that is known. -/
theorem KeepsForm.of_eq {ρ : Type} {f : ρ → State} {r r' : ρ} (h : KeepsForm s (f r)) (e : r = r') : KeepsForm s (f r') := e ▸ h

theorem KeepsForm.of_pair {α : Type} {p : α × State} {a : α} (h : KeepsForm s p.2) (e : p = (a, u)) : KeepsForm s u := by
  subst e; exact h

theorem KeepsForm.of_fst {α : Type} {p : State × α} {a : α} (h : KeepsForm s p.1) (e : p = (u, a)) : KeepsForm s u := by
  subst e; exact h

theorem KeepsForm.of_third {α β : Type} {p : α × β × State} {a : α} {b : β} (h : KeepsForm s p.2.2) (e : p = (a, b, u)) :
    KeepsForm s u := by
  subst e; exact h

theorem KeepsForm.of_mid {α β : Type} {p : α × State × β} {a : α} {b : β} (h : KeepsForm s p.2.1) (e : p = (a, u, b)) :
    KeepsForm s u := by
  subst e; exact h

/-! ## Memory and caches (08) -/

protected theorem KeepsForm.scrubGranule {g : Nat} (h : KeepsForm s t) : KeepsForm s (scrubGranule t g) := by
  unfold scrubGranule
  split
  · exact h.memory (canonical_skeep memBlank t.mem fun k => k >>> 16 != g)
  · exact h

protected theorem KeepsForm.writeMem {k : Nat} {d : List Byte} (h : KeepsForm s t) : KeepsForm s (writeMem t k d) := by
  unfold writeMem
  split
  · exact h
  · exact (h.foldl .scrubGranule).memory (storeBytes_wf _ _ _)

protected theorem KeepsForm.writeBack {k : Nat} {l : Line} (h : KeepsForm s t) : KeepsForm s (writeBack t k l) := by
  unfold writeBack
  extract_lets u
  have hu : KeepsForm s u := h.ite (h.writeMem.ite (h.foldl .writeMem))
  exact hu.poisonUnit.ite hu

protected theorem KeepsForm.dropSlice {p line : Nat} (h : KeepsForm s t) : KeepsForm s (dropSlice t p line) := by
  unfold dropSlice
  split
  · exact h.writeBack.onL2 fun _ h => linesOk_serase h _
  · exact h

/-- A line put into a slice is whole. -/
protected theorem KeepsForm.putSlice {p line : Nat} {l : Line} (h : KeepsForm s t) (hl : s.Caches → l.data.length = 64) :
    KeepsForm s (putSlice t p line l) := by
  unfold putSlice
  extract_lets x u
  have hu : KeepsForm s u := h.ite h.dropSlice
  exact hu.putPartOf fun hi => linesOk_sput ((hu.caches hi).2 p) line (hl hi)

protected theorem KeepsForm.putBelow {p line : Nat} {l : Line} (h : KeepsForm s t) : KeepsForm s (putBelow t p line l) :=
  h.ite (h.dropSlice.writeBack.ite (h.putSlice fun _ => length_mergeLine _ _))

protected theorem KeepsForm.leaveL1 {c line : Nat} (h : KeepsForm s t) : KeepsForm s (leaveL1 t c line) := by
  unfold leaveL1
  split
  · exact (h.onL1 fun _ h => linesOk_serase h _).putBelow
  · exact h

/-- A line put into an L1 is whole. -/
protected theorem KeepsForm.putL1 {c line : Nat} {l : Line} (h : KeepsForm s t) (hl : s.Caches → l.data.length = 64) :
    KeepsForm s (putL1 t c line l) := by
  unfold putL1
  extract_lets x u
  have hu : KeepsForm s u := h.ite h.leaveL1
  exact hu.putCoreOf fun hi => linesOk_sput ((hu.caches hi).1 c) line (hl hi)

protected theorem KeepsForm.dropLine {c line : Nat} (h : KeepsForm s t) : KeepsForm s (dropLine t c line) := h.leaveL1.dropSlice

protected theorem KeepsForm.flushCore {c : Nat} (h : KeepsForm s t) : KeepsForm s (flushCore t c) := by
  unfold flushCore
  exact .onL1 (.foldl h .putBelow) fun _ h => linesOk_cleaned h

protected theorem KeepsForm.flushPart {p : Nat} (h : KeepsForm s t) : KeepsForm s (flushPart t p) := by
  unfold flushPart
  exact .onL2 (.foldl h .writeBack) fun _ h => linesOk_cleaned h

protected theorem KeepsForm.flushL1 {c : Nat} (h : KeepsForm s t) : KeepsForm s (flushL1 t c) := h.flushCore.flushPart

protected theorem KeepsForm.dropCore {c : Nat} (h : KeepsForm s t) : KeepsForm s (dropCore t c) := h.flushCore.onL1 fun _ _ => linesOk_nil

protected theorem KeepsForm.dropPart {p : Nat} (h : KeepsForm s t) : KeepsForm s (dropPart t p) := h.flushPart.onL2 fun _ _ => linesOk_nil

protected theorem KeepsForm.dropL1 {c : Nat} (h : KeepsForm s t) : KeepsForm s (dropL1 t c) := h.dropCore.dropPart

protected theorem KeepsForm.purgeLine {line : Nat} (h : KeepsForm s t) : KeepsForm s (purgeLine t line) :=
  .foldl (.foldl h .leaveL1) .dropSlice

protected theorem KeepsForm.dropGranule {g : Nat} (h : KeepsForm s t) : KeepsForm s (dropGranule t g) := by
  have hc := h.mapCores (f := fun e => (e.1, { e.2 with l1 := skeep e.2.l1 fun line => line >>> 10 != g })) (fun _ => rfl)
    fun _ he => linesOk_skeep he fun line => line >>> 10 != g
  exact hc.mapParts (f := fun e => (e.1, { e.2 with l2 := skeep e.2.l2 fun line => line >>> 10 != g })) (fun _ => rfl)
    fun _ he => linesOk_skeep he fun line => line >>> 10 != g

protected theorem KeepsForm.storeSlice {c k : Nat} {d : List Byte} (h : KeepsForm s t) : KeepsForm s (storeSlice t c k d) :=
  have hl := fun hi => length_sliceLine (h.leaveL1.caches hi) _ _
  h.leaveL1.dropSlice.writeMem.ite (h.leaveL1.putSlice fun hi => (length_store _ _ _).trans (hl hi))

protected theorem KeepsForm.storeLine {c k : Nat} {d : List Byte} {dp : Depth} (h : KeepsForm s t) : KeepsForm s (storeLine t c k d dp) := by
  unfold storeLine
  refine h.dropLine.writeMem.ite (h.storeSlice.ite ?_)
  split
  · rename_i l e
    exact h.putL1 fun hi => (length_store _ _ _).trans (linesOk_sfind ((h.caches hi).1 c) e)
  · have hl := fun hi => length_sliceLine (h.caches hi) (partOf c) (k / 64)
    dsimp only
    exact h.dropLine.writeMem.ite ((h.ite (h.putSlice hl)).putL1 fun hi => by rw [length_store]; exact hl hi)

protected theorem KeepsForm.loadSlice {p k n : Nat} (h : KeepsForm s t) : KeepsForm s (loadSlice t p k n).2.2 := by
  unfold loadSlice
  dsimp only
  split
  · split <;> dsimp only
    · exact .onL2 h.markPart fun _ h => linesOk_serase h _
    · exact h.markPart
  · split
    · exact h.markPart.markPart
    · exact h.markPart.markPart.putSlice fun _ => length_freshLine _ _

protected theorem KeepsForm.loadLine {c k n : Nat} {nl1 : Bool} (h : KeepsForm s t) : KeepsForm s (loadLine t c k n nl1).2.2 := by
  unfold loadLine
  dsimp only
  split
  · exact h.leaveL1.onCore.loadSlice
  split
  · split
    · exact (h.onL1 fun _ h => linesOk_serase h _).loadSlice
    · exact h
  split
  · rename_i e
    exact h.onCore.loadSlice.of_third e
  · rename_i e
    have hu := h.onCore.loadSlice.of_third e
    exact hu.putL1 fun hi => length_sliceLine (hu.caches hi) _ _

/-! ### Stages (20 R398, R399) -/

protected theorem KeepsForm.commitLine {m : List Host.Cell} {line : Nat} (h : KeepsForm s t) : KeepsForm s (commitLine m t line) :=
  h.writeMem.ite (.foldl h .writeMem)

protected theorem KeepsForm.commitStage {n : Nat} {early : Bool} (h : KeepsForm s t) : KeepsForm s (commitStage t n early) := by
  unfold commitStage
  split
  · exact h
  · exact .onLaunch (.foldl (.foldl (.foldl h .purgeLine) .commitLine) .onVf)

protected theorem KeepsForm.writeFor {n : Option Nat} {k : Nat} {d : List Byte} {direct : State → State} (h : KeepsForm s t)
    (hd : ∀ {u}, KeepsForm s u → KeepsForm s (direct u)) : KeepsForm s (writeFor t n k d direct) := by
  unfold writeFor
  split
  · exact hd h
  · exact (h.onLaunch.ite (hd h.commitStage)).ite (hd h)

/-! ### Accesses of an agent's core -/

protected theorem KeepsForm.loadGlobal {c k n : Nat} {l : Option Nat} {nl1 : Bool} (h : KeepsForm s t) :
    KeepsForm s (loadGlobal t c l k n nl1).2.2 := by
  unfold loadGlobal
  split
  · exact h
  · exact h.loadLine

protected theorem KeepsForm.storeGlobal {c k : Nat} {l : Option Nat} {d : List Byte} {dp : Depth} (h : KeepsForm s t) :
    KeepsForm s (storeGlobal t c l k d dp) := h.writeFor .storeLine

protected theorem KeepsForm.readHome {c k n : Nat} {l : Option Nat} (h : KeepsForm s t) : KeepsForm s (readHome t c l k n).2.2 :=
  .foldl h .dropLine

protected theorem KeepsForm.writeHome {c k : Nat} {l : Option Nat} {d : List Byte} (h : KeepsForm s t) : KeepsForm s (writeHome t c l k d) :=
  .writeFor (.foldl h .dropLine) .writeMem

/-! ## Results that carry the state
`state` is the state that a result leaves, and `d` where it carries none. -/

def Take.state (d : State) : Take → State
  | .given _ s => s
  | _ => d

def Own.state (d : State) : Own → State
  | .replay _ s => s
  | _ => d

def Once.state (d : State) : Once → State
  | .given _ s => s
  | .wait _ s => s
  | _ => d

def BackRead.state (d : State) : BackRead → State
  | .got _ s => s
  | _ => d

def Reading.state : Reading → State
  | .read r => r.s
  | .wait s => s
  | .broken s => s

def AtomEnd.state : AtomEnd → State
  | .got _ s => s
  | .hold _ _ _ s => s
  | .wait _ s => s
  | .broken s => s

def AllocEnd.state : AllocEnd → State
  | .got _ s => s
  | .hold _ s => s
  | .stall s => s
  | .broken s => s

def Posted.state : Posted → State
  | .accepted s => s
  | .refused s => s
  | .busy _ s => s

/-- A way of reading (09 R234) keeps the forms. -/
def RdKeeps (rd : Rd) : Prop := ∀ ⦃s t : State⦄ ⦃va n : Nat⦄, KeepsForm s t → KeepsForm s (rd t va n).2

/-! ## Registers -/

/-! ### Uniform registers, of a weave, a steer thread or the handler slot -/

protected theorem KeepsForm.putFile {a : Agent} {f : UFile} (h : KeepsForm s t) : KeepsForm s (putFile t a f) := by
  unfold putFile
  split
  · exact h.onWeave
  · exact h.onInst
  · exact h.onCore

/-! ## Translation and fetch (08) -/

protected theorem KeepsForm.walked {p : Nat} (h : KeepsForm s t) : KeepsForm s (walked t p) := h.markPart.markPart

protected theorem KeepsForm.putTlb {c : Nat} {l : Leaf} (h : KeepsForm s t) : KeepsForm s (putTlb t c l) := h.onCore

protected theorem KeepsForm.putTlb2 {p : Nat} {l : Leaf} (h : KeepsForm s t) : KeepsForm s (putTlb2 t p l) := h.onPart

protected theorem KeepsForm.dropTlb {c vf va : Nat} (h : KeepsForm s t) : KeepsForm s (dropTlb t c vf va) := h.onCore

protected theorem KeepsForm.dropTlb2 {p vf va : Nat} (h : KeepsForm s t) : KeepsForm s (dropTlb2 t p vf va) := h.onPart

protected theorem KeepsForm.walkGave {c : Nat} {r : Except Nat Leaf} (h : KeepsForm s t) : KeepsForm s (walkGave t c r).2 := by
  unfold walkGave
  split
  · exact h.walked
  · exact h.walked.putTlb.putTlb2

protected theorem KeepsForm.walkIn {c vf va : Nat} (h : KeepsForm s t) : KeepsForm s (walkIn t c vf va).2 := h.walkGave

protected theorem KeepsForm.findLeaf2 {c vf va : Nat} (h : KeepsForm s t) : KeepsForm s (findLeaf2 t c vf va).2 := by
  unfold findLeaf2
  split
  · split
    · exact h.putTlb
    · exact h.dropTlb2.walkIn
  · exact h.walkIn

protected theorem KeepsForm.findLeaf {c vf va : Nat} (h : KeepsForm s t) : KeepsForm s (findLeaf t c vf va).2 := by
  unfold findLeaf
  split
  · split
    · exact h
    · exact h.dropTlb.findLeaf2
  · exact h.findLeaf2

protected theorem KeepsForm.translate {c vf va : Nat} {a : Acc} {handler : Bool} (h : KeepsForm s t) :
    KeepsForm s (translate t c vf va a handler).2 := by
  unfold translate
  split
  · exact h
  split
  · rename_i e
    exact h.findLeaf.of_pair e
  rename_i e
  split <;> exact h.findLeaf.of_pair e

/-! ### Instruction fetch -/

protected theorem KeepsForm.fetchWord {c vf va : Nat} {handler : Bool} (h : KeepsForm s t) :
    KeepsForm s (fetchWord t c vf va handler).2 := by
  unfold fetchWord
  split
  all_goals
    rename_i e
    have h₁ := h.translate.of_pair e
  · exact h₁
  split
  · exact h₁
  · dsimp only
    exact h₁.onCore

/-! ## Frontiers, circles, barriers -/

/-! ### Spilling (R69) -/

protected theorem KeepsForm.writeSpill {c k : Nat} {en : Entry} {i : Nat} (h : KeepsForm s t) : KeepsForm s (writeSpill t c k en i) := by
  unfold writeSpill
  dsimp only
  split
  · exact h
  split
  · exact h
  split
  · exact h
  split
  · rename_i e
    exact h.translate.of_pair e
  rename_i e
  exact (h.translate.of_pair e).storeGlobal

protected theorem KeepsForm.spillDown {n c k : Nat} {sel : Mask} (h : KeepsForm s t) : KeepsForm s (spillDown n t c k sel) := by
  induction n generalizing t with
  | zero => exact h
  | succ n ih =>
    unfold spillDown
    split
    · exact h
    split
    · exact h
    split
    · exact h
    · exact ih h.writeSpill.onWeave

protected theorem KeepsForm.fillEntry {c k : Nat} {m sel : Mask} (h : KeepsForm s t) : KeepsForm s (fillEntry t c k m sel) := by
  unfold fillEntry
  split
  · exact h
  · exact h.onWeave.spillDown.ite h

/-! ### Circles and barriers (R77 to R80) -/

protected theorem KeepsForm.settleBarrier {c inst circle : Nat} (h : KeepsForm s t) : KeepsForm s (settleBarrier t c inst circle) := by
  unfold settleBarrier
  split
  · exact h
  split
  · exact h
  · exact .ite (.foldl h .onWeave) h

protected theorem KeepsForm.settleBarriers {c inst : Nat} (h : KeepsForm s t) : KeepsForm s (settleBarriers t c inst) := by
  unfold settleBarriers
  split
  · exact h
  · exact .foldl h .settleBarrier

/-! ## Stores -/

/-! ### The store queue -/

protected theorem KeepsForm.releaseAt {c : Nat} {sc : Scope} (h : KeepsForm s t) :
    KeepsForm s (releaseAt t c sc) := h.flushL1.ite (h.flushCore.ite h)

protected theorem KeepsForm.acquireAt {c : Nat} {sc : Scope} (h : KeepsForm s t) :
    KeepsForm s (acquireAt t c sc) := h.dropL1.ite (h.dropCore.ite h)

protected theorem KeepsForm.performThread {c : Nat} {serial : Option Nat} {dp : Depth} {tn : ThreadStore} (h : KeepsForm s t) :
    KeepsForm s (performThread t c serial dp tn) := by
  unfold performThread
  split
  · exact h.onCore
  split
  · split
    rename_i e
    exact (h.readHome.of_third e).writeHome
  · exact h.storeGlobal

protected theorem KeepsForm.performStore {c : Nat} {serial : Option Nat} {r : StoreReq} (h : KeepsForm s t) :
    KeepsForm s (performStore t c serial r) := by
  unfold performStore
  split
  · exact .foldl h.releaseAt .performThread
  · exact .foldl h .performThread

protected theorem KeepsForm.setQueue {a : Agent} {q : List StoreReq} (h : KeepsForm s t) : KeepsForm s (setQueue t a q) := by
  unfold setQueue
  split
  · exact h.onWeave
  · exact h.onInst
  · exact h.onCore

protected theorem KeepsForm.drainOne {a : Agent} (h : KeepsForm s t) : KeepsForm s (drainOne t a) := by
  unfold drainOne
  split
  · exact h
  · exact h.setQueue.performStore

protected theorem KeepsForm.performAll {c : Nat} {serial : Option Nat} {l : List StoreReq} (h : KeepsForm s t) :
    KeepsForm s (performAll t c serial l) := .foldl h .performStore

protected theorem KeepsForm.drainAll {a : Agent} (h : KeepsForm s t) : KeepsForm s (drainAll t a) := h.setQueue.performAll

/-! ## What ends -/

/-! ### The Fjolar's own accesses to a virtual function's memory (R445, R446) -/

protected theorem KeepsForm.selfWrite {vf va : Nat} {d : List Byte} (h : KeepsForm s t) : KeepsForm s (selfWrite t vf va d) := by
  unfold selfWrite
  split
  · exact h
  · exact h.writeMem

protected theorem KeepsForm.writeStatus {vf addr status : Nat} (h : KeepsForm s t) :
    KeepsForm s (writeStatus t vf addr status) := h.selfWrite

/-! ### Logical names (22 R418) -/

protected theorem KeepsForm.record {r : FailRec} (h : KeepsForm s t) : KeepsForm s (record t r) := h.frame

/-! ### Circles (R77 to R80) -/

protected theorem KeepsForm.dissolve {c inst : Nat} (h : KeepsForm s t) : KeepsForm s (dissolve t c inst) := h.onInst

protected theorem KeepsForm.leaveCircle {c inst k id : Nat} (h : KeepsForm s t) : KeepsForm s (leaveCircle t c inst k id) := h.onInst

protected theorem KeepsForm.joinCircle {c inst k id : Nat} (h : KeepsForm s t) : KeepsForm s (joinCircle t c inst k id) := h.onInst

/-! ### The ends of weaves -/

protected theorem KeepsForm.releaseSlots {c k : Nat} {w : Weave} (h : KeepsForm s t) :
    KeepsForm s (releaseSlots t c k w) := .foldl h fun h => h.nextSeq.onCore

protected theorem KeepsForm.removeInst {c i : Nat} (h : KeepsForm s t) : KeepsForm s (removeInst t c i) := by
  unfold removeInst
  split
  · exact h
  · exact h.onCore fun x => by dsimp only; split <;> rfl

protected theorem KeepsForm.settleInst {c i : Nat} (h : KeepsForm s t) : KeepsForm s (settleInst t c i) := by
  unfold settleInst
  split
  · split
    · exact h
    · exact h.removeInst.ite h.removeInst.onLaunch
  · exact h

protected theorem KeepsForm.closeStages {c i : Nat} (h : KeepsForm s t) : KeepsForm s (closeStages t c i) := h.onInst

protected theorem KeepsForm.endWeave {c k : Nat} (h : KeepsForm s t) : KeepsForm s (endWeave t c k) := by
  unfold endWeave
  dsimp only
  split
  · exact h
  split
  · exact h.drainAll
  · exact .settleInst (.dissolve (.settleBarriers (.closeStages (.onCore (.releaseSlots (.foldl h.drainAll .leaveCircle))
      fun x => untagAll_l1 x _))))

protected theorem KeepsForm.settleWeave {c k : Nat} (h : KeepsForm s t) : KeepsForm s (settleWeave t c k) := by
  unfold settleWeave
  split
  · exact h
  split
  · split
    · exact h.endWeave.ite h
    · exact h.endWeave
  · exact h

/-! ### Stopping a launch -/

protected theorem KeepsForm.removeLaunch {serial : Nat} (h : KeepsForm s t) : KeepsForm s (removeLaunch t serial) := by
  unfold removeLaunch
  refine .foldl h fun h => .foldl h fun h => .ite (.removeInst (.onCore h fun x => ?_)) h
  split
  · split <;> rfl
  · rfl

protected theorem KeepsForm.failLaunch {serial reason cause cause2 : Nat} (h : KeepsForm s t) :
    KeepsForm s (failLaunch t serial reason cause cause2) := by
  unfold failLaunch
  split
  · exact h
  · exact .send (.writeStatus (.frame (.foldl (.removeLaunch (.foldl h .flushL1)) .onVf)))

/-! ## The issue of an instruction -/

/-! ### Results outstanding (R62, R63) -/

protected theorem KeepsForm.commitAgent {ag : Agent} (h : KeepsForm s t) : KeepsForm s (commitAgent t ag) := by
  unfold commitAgent
  split
  · exact h.onWeave
  · exact h.onInst
  · exact h.onCore

/-! ### The issuing entry -/

protected theorem KeepsForm.begin {a : Agent} {en : Entry} (h : KeepsForm s t) : KeepsForm s (begin t a en) := by
  unfold begin
  split
  · exact h.commitAgent.fillEntry
  · exact h.commitAgent
  · exact h.commitAgent.onCore

/-! ### Parking (R106, R109) -/

protected theorem KeepsForm.notePoison {a : Agent} {tid : Nat} (h : KeepsForm s t) : KeepsForm s (notePoison t a tid) := by
  unfold notePoison
  split
  · exact h.onLaunch
  · exact h

protected theorem KeepsForm.parkRegion {c k : Nat} (h : KeepsForm s t) : KeepsForm s (parkRegion t c k) := by
  unfold parkRegion
  split
  · exact h.putWeave.drainAll.ite h
  · exact h

/-! ### The end of an instruction of a weave (R67, R68, R69) -/

protected theorem KeepsForm.moveThreads {c k : Nat} {e : Entry} {size : Nat} {head : Double} {chain : Option Chain} {gs : Groups} (h : KeepsForm s t) :
    KeepsForm s (moveThreads t c k e size head chain gs) := by
  unfold moveThreads
  extract_lets u₁ u₂
  have h₁ : KeepsForm s u₂ := .foldl (h.parkRegion.ite h) .notePoison
  split
  · exact h₁
  · exact .settleWeave (.ite h₁.nextSeq.putWeave.spillDown.settleBarriers h₁.nextSeq.putWeave.spillDown)

protected theorem KeepsForm.retire {c k : Nat} {en : Entry} {size : Nat} {chainC : Bool} {gs : Groups} (h : KeepsForm s t) :
    KeepsForm s (retire t c k en size chainC gs) := by
  unfold retire
  split
  · exact h
  · exact h.moveThreads

protected theorem KeepsForm.proceed {c k : Nat} {en : Entry} {size : Nat} {gs : Groups} (h : KeepsForm s t) :
    KeepsForm s (proceed t c k en size gs) := by
  unfold proceed
  split
  · exact h
  · exact h.moveThreads

protected theorem KeepsForm.holdEntry {c k : Nat} {en : Entry} {st : EntryState} (h : KeepsForm s t) :
    KeepsForm s (holdEntry t c k en st) := h.nextSeq.onWeave

/-! ### Lane instructions -/

protected theorem KeepsForm.claimLane {c k : Nat} {w : Weave} (h : KeepsForm s t) : KeepsForm s (claimLane t c k w) :=
  h.onCore fun x => by dsimp only; split <;> rfl

protected theorem KeepsForm.moved {gs : Groups} {cycles : Nat} (h : KeepsForm s t) : KeepsForm s (moved t gs cycles).s := h

protected theorem KeepsForm.waits {st : EntryState} (h : KeepsForm s t) : KeepsForm s (waits t st).s := h

protected theorem KeepsForm.parkAll {m : Mask} {cause : Nat} {addr : Double} (h : KeepsForm s t) :
    KeepsForm s (parkAll t m cause addr).s := h

protected theorem KeepsForm.untag {c k : Nat} {wv ws : List Nat} (h : KeepsForm s t) : KeepsForm s (untag t c k wv ws) := by
  unfold untag
  split
  · exact h
  · exact h.ite (h.onCore fun x => by simp)

protected theorem KeepsForm.laneEnd {c k : Nat} {e : Entry} {size : Nat} {chain : Bool} {d : Done} (h : KeepsForm s d.s) :
    KeepsForm s (laneEnd c k e size chain d) := by
  unfold laneEnd
  split
  · exact h.holdEntry
  · exact h.untag.onCore.onWeave.retire

/-- A lane instruction keeps the forms where its own effect does. -/
protected theorem KeepsForm.laneBody {c k : Nat} {e : Entry} {q : LaneReq} {body : State → Nat → Nat → Weave → Entry → Mask → Done}
    (h : KeepsForm s t) (hb : ∀ {u c k w e m}, KeepsForm s u → KeepsForm s (body u c k w e m).s) : KeepsForm s (laneBody t c k e q body) := by
  unfold laneBody
  dsimp only
  split
  · exact h.begin
  · exact h.begin.retire.ite (hb h.begin.claimLane).laneEnd

/-! ### Steer threads and the handler slot -/

protected theorem KeepsForm.handlerFault {c cause : Nat} (h : KeepsForm s t) : KeepsForm s (handlerFault t c cause) := by
  unfold handlerFault
  split
  · exact h.notePoison.onCore.ite h.failLaunch
  · exact h.onCore

protected theorem KeepsForm.endSteer {c k : Nat} (h : KeepsForm s t) : KeepsForm s (endSteer t c k) := h.drainAll.onInst.settleInst

protected theorem KeepsForm.steerMove {c k : Nat} {en : Entry} {size : Nat} {g : Go} (h : KeepsForm s t) :
    KeepsForm s (steerMove t c k en size g) := by
  unfold steerMove
  split
  · exact h.onInst
  · exact h.onInst
  · exact h.onInst
  · exact h.onInst
  · exact (h.nextSeq.notePoison.ite h.nextSeq).onInst
  · exact h.nextSeq.onInst
  · exact h.endSteer

protected theorem KeepsForm.handlerMove {c : Nat} {en : Entry} {size : Nat} {g : Go} (h : KeepsForm s t) :
    KeepsForm s (handlerMove t c en size g) := by
  unfold handlerMove
  split
  · exact h.onCore
  · exact h.onCore
  · exact h.onCore
  · exact h
  · exact h.onCore
  · exact h.handlerFault
  · exact h.handlerFault
  · exact h

protected theorem KeepsForm.parkAgent {a : Agent} {en : Entry} {size cause : Nat} (h : KeepsForm s t) :
    KeepsForm s (parkAgent t a en size cause) := by
  unfold parkAgent
  split
  · exact h.retire
  · exact h.steerMove
  · exact h.handlerMove

protected theorem KeepsForm.laneIssue {q : LaneReq} {body : State → Nat → Nat → Weave → Entry → Mask → Done} (h : KeepsForm s t)
    (hb : ∀ {u c k w e m}, KeepsForm s u → KeepsForm s (body u c k w e m).s) : OutKeeps s (laneIssue t q body) := by
  unfold laneIssue
  split
  · trivial
  split
  · exact h.laneBody hb
  · exact h.begin.parkAgent

/-! ### Uniform instructions -/

protected theorem KeepsForm.uniEnd {a : Agent} {e : Entry} {size : Nat} {chain : Bool} {d : Done} (h : KeepsForm s d.s) :
    KeepsForm s (uniEnd a e size chain d) := by
  unfold uniEnd
  split
  · split
    · exact h.holdEntry
    · exact h.steerMove
    · exact h.handlerMove
  · split
    · exact h.onCore.untag.retire
    · exact h.onCore.steerMove
    · exact h.onCore.handlerMove

/-- A uniform instruction keeps the forms where its own effect does. -/
protected theorem KeepsForm.uniBody {a : Agent} {e : Entry} {q : UniReq} {body : State → Agent → Entry → Done} (h : KeepsForm s t)
    (hb : ∀ {u a e}, KeepsForm s u → KeepsForm s (body u a e).s) : KeepsForm s (uniBody t a e q body) := by
  unfold uniBody
  dsimp only
  split
  · exact h.begin.parkAgent
  · exact (hb h.begin).uniEnd

protected theorem KeepsForm.uniIssue {q : UniReq} {body : State → Agent → Entry → Done} (h : KeepsForm s t)
    (hb : ∀ {u a e}, KeepsForm s u → KeepsForm s (body u a e).s) : OutKeeps s (uniIssue t q body) := by
  unfold uniIssue
  split
  · trivial
  · exact h.uniBody hb

/-! ### Delivery (R107, R379, R380) -/

protected theorem KeepsForm.startDelivery {c vf : Nat} {d : Delivery} (h : KeepsForm s t) : KeepsForm s (startDelivery t c vf d) := h.onCore

protected theorem KeepsForm.deliverWeave {c vf k tid : Nat} (h : KeepsForm s t) : KeepsForm s (deliverWeave t c vf k tid) := by
  unfold deliverWeave
  split
  · exact h
  split
  · exact h
  split
  · exact h
  · exact h.fillEntry.onWeave.startDelivery

protected theorem KeepsForm.deliverSteer {c vf k : Nat} (h : KeepsForm s t) : KeepsForm s (deliverSteer t c vf k) := by
  unfold deliverSteer
  split
  · exact h
  split
  · exact h
  · exact h.onInst.startDelivery

protected theorem KeepsForm.deliverEngine {c vf q : Nat} (h : KeepsForm s t) : KeepsForm s (deliverEngine t c vf q) := by
  unfold deliverEngine
  split
  · exact h
  split
  · exact h
  · exact h.startDelivery

protected theorem KeepsForm.takeDelivery {c : Nat} (h : KeepsForm s t) : KeepsForm s (takeDelivery t c) := by
  unfold takeDelivery
  split
  · exact h
  split
  · exact h
  split
  · exact h
  split
  · exact h.failLaunch
  split
  · exact h.failLaunch
  split
  · exact h.deliverWeave
  · exact h.deliverSteer
  · exact h.deliverEngine

/-! ### The return from a delivery (R385) -/

protected theorem KeepsForm.readyEntry {c k vf cause : Nat} {tpc : Double} (h : KeepsForm s t) :
    KeepsForm s (readyEntry t c k vf cause tpc) := by
  unfold readyEntry
  split
  · exact h
  split
  · exact h
  · exact h.nextSeq.onWeave.spillDown

protected theorem KeepsForm.readySteer {c k vf : Nat} {tpc : Double} (h : KeepsForm s t) : KeepsForm s (readySteer t c k vf tpc) := by
  unfold readySteer
  split
  · exact h
  split
  · exact h
  · exact h.nextSeq.onInst.ite h

protected theorem KeepsForm.endDelivery {c : Nat} (h : KeepsForm s t) : KeepsForm s (endDelivery t c) := by
  unfold endDelivery
  split
  · exact h
  split
  · exact h.drainAll.flushL1.onCore.readyEntry
  · exact h.drainAll.flushL1.onCore.readySteer
  · exact h.drainAll.flushL1.onCore.onCore

/-! ## Pairing (20) -/

protected theorem KeepsForm.onPair {a : Agent} {f : Pair → Pair} (h : KeepsForm s t) : KeepsForm s (onPair t a f) := by
  unfold onPair
  split
  · exact h.onWeave
  · exact h.onInst
  · exact h

protected theorem KeepsForm.pairFail {a : Agent} (h : KeepsForm s t) : KeepsForm s (pairFail t a) := by
  unfold pairFail
  split
  · exact h.failLaunch
  · exact h

protected theorem KeepsForm.takeValue {a : Agent} {pc : Double} {act : Mask} (h : KeepsForm s t) :
    KeepsForm s ((takeValue t a pc act).state t) := by
  unfold takeValue
  split
  · exact h
  split
  · split
    · exact h.onPair
    · exact h
  split
  · split
    · exact h.onPair
    · exact h
  · split <;> exact h

protected theorem KeepsForm.giveValue {a : Agent} {pc : Double} {vals : List (Nat × Double)} (h : KeepsForm s t) :
    KeepsForm s (giveValue t a pc vals) := by
  unfold giveValue
  split
  · exact h
  · exact h.ite h.onPair.onPair

protected theorem KeepsForm.takeLog {a : Agent} (h : KeepsForm s t) : KeepsForm s ((takeLog t a).state t) := by
  unfold takeLog
  split
  · exact h
  split
  · split
    · exact h.onPair
    · exact h
  · exact h

protected theorem KeepsForm.logOwn {a : Agent} {en : LogEntry} (h : KeepsForm s t) : KeepsForm s (logOwn t a en) := h.ite h.onPair

protected theorem KeepsForm.joinGroup {a : Agent} {bytes : List Byte} {op : PairOp} (h : KeepsForm s t) :
    KeepsForm s (joinGroup t a bytes op) := h.onPair

/-! ### The stores of regions enter the queue before the closing instruction acts (05 R110, 08 R196) -/

protected theorem KeepsForm.closeFor {c k : Nat} (h : KeepsForm s t) : KeepsForm s (closeFor t c k) := h.onWeave.drainAll

protected theorem KeepsForm.closeAgent {ag : Agent} (h : KeepsForm s t) : KeepsForm s (closeAgent t ag) := by
  unfold closeAgent
  split
  · exact h.closeFor
  · exact h.drainAll

protected theorem KeepsForm.afterFlow {a : Agent} {k : State → Done} (h : KeepsForm s t)
    (hk : ∀ {u}, KeepsForm s u → KeepsForm s (k u).s) : KeepsForm s (afterFlow t a k).s := by
  unfold afterFlow
  split
  · split
    · exact h.closeAgent
    · exact h.closeAgent.onPair
  · exact hk h.closeAgent

/-! ## Operands -/

/-! ### Uniform sources -/

protected theorem KeepsForm.writeUDst {a : Agent} {active : Mask} {d : UDst} {wide : Bool} {v : Double} (h : KeepsForm s t) :
    KeepsForm s (writeUDst t a active d wide v) := by
  unfold writeUDst
  split
  · exact h.putFile
  · exact h.putFile
  split
  · exact h.onWeave
  · exact h

/-! ## Arithmetic -/

/-! ### Lineage of a lane form -/

protected theorem KeepsForm.lookup {c k : Nat} {w : Weave} {launch vf n : Nat} {names : Weave → Option (List Nat)} (h : KeepsForm s t) :
    KeepsForm s (lookup t c k w launch vf n names).2.1 := by
  unfold lookup
  split
  · exact h
  dsimp only
  split
  · dsimp only
    exact h.onCore
  split
  · have h₁ : ∀ {p : Prop} [Decidable p], KeepsForm s (if p then onCore t c epochFlush else t) := h.onCore.ite h
    split
    · exact h₁.putWeave
    split
    · rename_i e
      refine h₁.putCore ?_
      exact (makeRoom_l1 e :)
    · exact h₁
  · exact h

protected theorem KeepsForm.bindHit {c k : Nat} {w : Weave} {f : LDst} {shifts : Bool} {e : VsEntry} (h : KeepsForm s t) :
    KeepsForm s (bindHit t c k w f shifts e).s := by
  unfold bindHit
  refine .putWeave (h.putCore ?_)
  dsimp only
  split <;> exact bindV_l1 ..

protected theorem KeepsForm.commitRuns {c k : Nat} {w : Weave} {dst : LDst} {supp shifts : Bool} {occ : Nat} {ins : Option (List Nat)} {rs : List Run}
    (h : KeepsForm s t) : KeepsForm s (commitRuns t c k w dst supp shifts occ ins rs).s := by
  unfold commitRuns
  extract_lets bad w u regs done
  have hu : KeepsForm s u := h.onCore.ite h
  split
  · exact hu.putWeave
  split
  · exact hu.putCore.putWeave
  · refine .putWeave (hu.putCore ?_)
    exact bindV_l1 ..

protected theorem KeepsForm.untagMissed {d : Done} {regs : List Nat} (h : KeepsForm s d.s) : KeepsForm s (untagMissed d regs).s := h

protected theorem KeepsForm.laneFound {f : Found × State × Weave} {c k : Nat} {dst : LDst} {supp shifts : Bool} {occ : Nat} {rs : List Run}
    (h : KeepsForm s f.2.1) : KeepsForm s (laneFound f c k dst supp shifts occ rs).s := by
  unfold laneFound
  split
  · split
    · exact h.bindHit
    · exact h.commitRuns
  · exact h.commitRuns
  · exact h.commitRuns.untagMissed
  · exact h.commitRuns

protected theorem KeepsForm.aluBody {f : AluForm} {copy : Bool} {c k : Nat} {w : Weave} {e : Entry} {act : Mask} (h : KeepsForm s t) :
    KeepsForm s (aluBody f copy t c k w e act).s := by
  unfold aluBody
  dsimp only
  split
  · split
    · split
      · exact (h.commitRuns.onCore.putCore (bindV_l1 ..)).putWeave
      · exact h.commitRuns
    · exact h.lookup.laneFound
  · exact h.commitRuns

protected theorem KeepsForm.laneAlu {f : AluForm} {copy : Bool} (h : KeepsForm s t) : OutKeeps s (laneAlu f copy t) := h.laneIssue .aluBody

/-! ### Uniform arithmetic forms -/

protected theorem KeepsForm.putUniGen {a : Agent} {en : Entry} {g : Double} (h : KeepsForm s t) : KeepsForm s (putUniGen t a en g) := by
  unfold putUniGen
  split
  · exact h.onWeave
  · exact h.putFile

protected theorem KeepsForm.uniFlags {a : Agent} {m : Mask} {f : Flags} (h : KeepsForm s t) : KeepsForm s (uniFlags t a m f) := by
  unfold uniFlags
  split
  · exact h.onWeave
  · exact h

protected theorem KeepsForm.writeUDest {a : Agent} {m : Mask} {d : UDest} {v : Double} (h : KeepsForm s t) :
    KeepsForm s (writeUDest t a m d v) := by
  unfold writeUDest
  split
  · exact h.writeUDst
  · exact h.putFile

protected theorem KeepsForm.uniPlain {a : Agent} {en : Entry} {f : UAluForm} {y : Double × Flags} (h : KeepsForm s t) :
    KeepsForm s (uniPlain t a en f y).s := h.uniFlags.writeUDest

protected theorem KeepsForm.uniBind {c k : Nat} {regs serials : List Nat} (h : KeepsForm s t) :
    KeepsForm s (uniBind t c k regs serials) := by
  unfold uniBind
  split
  · exact (h.putCore (bindS_l1 ..)).putWeave
  · exact h

protected theorem KeepsForm.uniLineage {c k : Nat} {w : Weave} {en : Entry} {f : UAluForm} {copy : Bool} {rm : RMode} {y : Double × Flags}
    (h : KeepsForm s t) : KeepsForm s (uniLineage t c k w en f copy rm y).s := by
  unfold uniLineage
  dsimp only
  split
  · exact h.putWeave.onCore.uniPlain.uniBind
  split
  · rename_i e
    exact (h.lookup.of_mid e).putWeave.uniPlain.uniBind
  · rename_i e
    exact (h.lookup.of_mid e).putWeave.putCore.uniPlain.uniBind
  rename_i e
  exact (h.lookup.of_mid e).putWeave.uniPlain

protected theorem KeepsForm.uniTrap {c k : Nat} {w : Weave} {en : Entry} {f : UAluForm} {rm : RMode} {cause va : Nat} (h : KeepsForm s t) :
    KeepsForm s (uniTrap t c k w en f rm cause va).s := by
  unfold uniTrap
  dsimp only
  split
  · split
    · rename_i e
      exact (h.lookup.of_mid e).onCore.putWeave
    · rename_i e
      exact (h.lookup.of_mid e).putWeave
    rename_i e
    exact (h.lookup.of_mid e).putWeave
  · exact h

protected theorem KeepsForm.uniFail {a : Agent} {en : Entry} {f : UAluForm} {rm : RMode} {cause va : Nat} (h : KeepsForm s t) :
    KeepsForm s (uniFail t a en f rm cause va).s := by
  unfold uniFail
  split
  · split
    · exact h.uniTrap
    · exact h
  · exact h

protected theorem KeepsForm.uniAluBody {f : UAluForm} {copy : Bool} {a : Agent} {e : Entry} (h : KeepsForm s t) :
    KeepsForm s (uniAluBody f copy t a e).s := by
  unfold uniAluBody
  split
  · exact h
  dsimp only
  split
  · exact h.uniFail
  have h₁ : ∀ {p : Prop} [Decidable p] {g}, KeepsForm s (if p then putUniGen t a e g else t) := h.putUniGen.ite h
  split
  · split
    · split
      · exact h₁.uniTrap
      split
      · exact h₁.uniLineage
      · exact h₁.uniPlain
    · exact h₁.uniPlain
  · exact h₁.uniPlain

protected theorem KeepsForm.uniPlaced {f : UAluForm} {copy : Bool} {a : Agent} {en : Entry} (h : KeepsForm s t) :
    KeepsForm s (uniPlaced f copy t a en).s := by
  unfold uniPlaced
  dsimp only
  split
  · split
    · exact h.giveValue.uniAluBody
    · rename_i e
      exact (h.takeValue.of_eq e).uniAluBody
    · exact h
    · exact h.pairFail
  · exact h.uniAluBody

protected theorem KeepsForm.uniAlu {f : UAluForm} {copy : Bool} (h : KeepsForm s t) : OutKeeps s (uniAlu f copy t) := h.uniIssue .uniPlaced

/-! ## Across threads -/

/-! ### Results of a lane form thread by thread -/

protected theorem KeepsForm.laneResults {c k : Nat} {w : Weave} {d n : Nat} {rs : Words} (h : KeepsForm s t) :
    KeepsForm s (laneResults t c k w d n rs).s := h.putWeave

/-! ### Cross-thread operations -/

protected theorem KeepsForm.execShuf {d a : BitVec 7} {b : LSrc} (h : KeepsForm s t) :
    OutKeeps s (execShuf d a b t) := h.laneIssue .laneResults

protected theorem KeepsForm.execBcast {d a : BitVec 7} {b : LSrc} (h : KeepsForm s t) :
    OutKeeps s (execBcast d a b t) := h.laneIssue .laneResults

protected theorem KeepsForm.execVote {d : BitVec 7} {m : BitVec 2} {k : BitVec 3} (h : KeepsForm s t) :
    OutKeeps s (execVote d m k t) := h.laneIssue .laneResults

protected theorem KeepsForm.execRed {d a : BitVec 7} {o : BitVec 4} (h : KeepsForm s t) : OutKeeps s (execRed d a o t) := by
  unfold execRed
  dsimp only
  refine h.laneIssue fun h => ?_
  split
  · exact h.laneResults
  · split <;> exact h.laneResults

/-! ### movs -/

protected theorem KeepsForm.movsBody {sup : Bool} {d : BitVec 7} {a : USrc} {placed : Option Double} {c k : Nat} {w : Weave} {e : Entry}
    {act : Mask} (h : KeepsForm s t) : KeepsForm s (movsBody sup d a placed t c k w e act).s := by
  unfold movsBody
  dsimp only
  split
  · exact h.lookup.laneFound
  · exact h.commitRuns

protected theorem KeepsForm.execMovs {sup ch : Bool} {d : BitVec 7} {a : USrc} (h : KeepsForm s t) :
    OutKeeps s (execMovs sup ch d a t) := by
  unfold execMovs
  dsimp only
  refine h.laneIssue fun h => ?_
  split
  · split
    · split
      · exact h.giveValue.movsBody
      · exact h.giveValue
    · rename_i e
      have h₁ := h.takeValue.of_eq e
      split
      · exact h₁.movsBody
      · exact h₁
    · exact h
    · exact h.pairFail
  · exact h.movsBody

/-! ### Lineage instructions -/

protected theorem KeepsForm.execLmode {m : BitVec 2} (h : KeepsForm s t) : OutKeeps s (execLmode m t) := h.laneIssue .putWeave

protected theorem KeepsForm.counterRead {c k : Nat} {e : Entry} {own : Double} {f : State → Double → Done} (h : KeepsForm s t)
    (hf : ∀ {u x}, KeepsForm s u → KeepsForm s (f u x).s) : KeepsForm s (counterRead t c k e own f).s := by
  unfold counterRead
  dsimp only
  split
  · exact hf h.giveValue
  · rename_i e
    exact hf (h.takeValue.of_eq e)
  · exact h
  · exact h.pairFail

protected theorem KeepsForm.allPair {c k d : Nat} {act : Mask} {v : Double} (h : KeepsForm s t) :
    KeepsForm s (allPair t c k d act v).s := by
  unfold allPair
  split
  · exact h.laneResults
  · exact h

protected theorem KeepsForm.execLstat {d : BitVec 7} {clr : Bool} {i : BitVec 3} (h : KeepsForm s t) :
    OutKeeps s (execLstat d clr i t) := h.laneIssue fun h => h.counterRead (fun h => (h.onWeave.ite h).allPair)

/-! ### The hoop -/

protected theorem KeepsForm.execHclr {hoop : BitVec 3} {a : LSrc} {k : BitVec 28} (h : KeepsForm s t) :
    OutKeeps s (execHclr hoop a k t) := h.laneIssue .laneResults

protected theorem KeepsForm.haccIssue {size : Nat} {hoop : BitVec 3} {n : Bool} {srcs : List LSrc} {g : Guard} (h : KeepsForm s t) :
    OutKeeps s (haccIssue size hoop n srcs g t) := h.laneIssue .laneResults

protected theorem KeepsForm.execHsgn {d : BitVec 7} {hoop p : BitVec 3} (h : KeepsForm s t) :
    OutKeeps s (execHsgn d hoop p t) := h.laneIssue .laneResults

protected theorem KeepsForm.execHrnd {d : BitVec 7} {hoop : BitVec 3} (h : KeepsForm s t) :
    OutKeeps s (execHrnd d hoop t) := h.laneIssue .commitRuns

/-! ## Control flow -/

/-! ### Transfers (R126 to R131) -/

protected theorem KeepsForm.execBra {f : Branch} (h : KeepsForm s t) : OutKeeps s (execBra f t) := h.laneIssue id

protected theorem KeepsForm.execCall {f : Branch} (h : KeepsForm s t) : OutKeeps s (execCall f t) := h.laneIssue .putWeave

protected theorem KeepsForm.execBrx {a b : LSrc} {p : BitVec 28} (h : KeepsForm s t) : OutKeeps s (execBrx a b p t) := h.laneIssue id

protected theorem KeepsForm.execRet {a : LSrc} (h : KeepsForm s t) : OutKeeps s (execRet a t) := h.laneIssue id

protected theorem KeepsForm.fetchFour {c vf : Nat} {pc : Double} (h : KeepsForm s t) : KeepsForm s (fetchFour t c vf pc).2 := by
  unfold fetchFour
  refine h.foldl_snd fun h => ?_
  split
  all_goals
    rename_i e _
    exact h.fetchWord.of_pair e

protected theorem KeepsForm.readCases {c vf : Nat} {pc : Double} {n : Nat} (h : KeepsForm s t) : KeepsForm s (readCases t c vf pc n).2 := by
  unfold readCases
  refine h.foldl_snd fun {q i} h => ?_
  have h₁ : KeepsForm s (fetchFour q.2 c vf (pc + BitVec.ofNat 64 (8 + 16 * i))).2 := h.fetchFour
  dsimp only
  split <;> exact h₁

protected theorem KeepsForm.execSwitch {a : LSrc} {n : BitVec 4} (h : KeepsForm s t) : OutKeeps s (execSwitch a n t) := by
  unfold execSwitch
  refine h.laneIssue fun h => ?_
  split
  all_goals
    rename_i e
    exact h.readCases.of_pair e

/-! ### Uniform transfers -/

protected theorem KeepsForm.goAll {a : Agent} {en : Entry} {pc : Double} {prio : Half} (h : KeepsForm s t) :
    KeepsForm s (goAll t a en pc prio).s := h

protected theorem KeepsForm.execSBra {f : Branch} (h : KeepsForm s t) : OutKeeps s (execSBra f t) := by
  unfold execSBra
  refine h.uniIssue fun h => ?_
  split <;> exact h

protected theorem KeepsForm.execSCall {f : Branch} (h : KeepsForm s t) : OutKeeps s (execSCall f t) := by
  unfold execSCall
  refine h.uniIssue fun h => ?_
  split
  · exact h.putFile
  · exact h

protected theorem KeepsForm.execSBrx {a b : USrc} {p : BitVec 28} (h : KeepsForm s t) : OutKeeps s (execSBrx a b p t) := by
  unfold execSBrx
  refine h.uniIssue fun h => ?_
  split <;> exact h

protected theorem KeepsForm.execSRet {a : USrc} (h : KeepsForm s t) : OutKeeps s (execSRet a t) := by
  unfold execSRet
  refine h.uniIssue fun h => ?_
  split
  · exact h
  · split <;> exact h

protected theorem KeepsForm.execSNop (h : KeepsForm s t) : OutKeeps s (execSNop t) := h.uniIssue id

protected theorem KeepsForm.execSExit (h : KeepsForm s t) : OutKeeps s (execSExit t) := h.uniIssue id

/-! ### Breakpoints, traps, filler -/

protected theorem KeepsForm.execNop (h : KeepsForm s t) : OutKeeps s (execNop t) := h.laneIssue id

protected theorem KeepsForm.execBrk (h : KeepsForm s t) : OutKeeps s (execBrk t) := h.laneIssue id

protected theorem KeepsForm.execTrap {n : BitVec 16} (h : KeepsForm s t) : OutKeeps s (execTrap n t) := h.laneIssue id

/-! ### Ends of threads (R132, R133, R415) -/

protected theorem KeepsForm.endThreads {c k : Nat} {live ending : Mask} {rest : Groups} {n : Nat} (h : KeepsForm s t) :
    KeepsForm s (endThreads t c k live ending rest n).s := by
  have h₁ : KeepsForm s (onPair t (.weave c k) endGroup) := h.onPair
  unfold endThreads
  extract_lets a
  have h₂ : KeepsForm s (if live &&& ~~~ending == 0#32 && groupsLeft (onPair t a endGroup) a then
      moved (onPair t a endGroup) (rest ++ [(ending, .hold (.waiting .pairExit))]) n
    else moved (onPair t a endGroup) (rest ++ [(ending, .gone)]) n).s := by
    split <;> exact h₁
  split
  · split
    · exact h
    · exact h₂
  · split
    · exact h
    · exact h₂

protected theorem KeepsForm.execExit (h : KeepsForm s t) : OutKeeps s (execExit t) := h.laneIssue fun h => h.closeFor.endThreads

protected theorem KeepsForm.execExitto {a : LSrc} {p : BitVec 28} (h : KeepsForm s t) :
    OutKeeps s (execExitto a p t) := h.laneIssue fun h => h.closeFor.onWeave.endThreads

/-! ### Waits (R135 to R137) -/

protected theorem KeepsForm.execRcb (h : KeepsForm s t) : OutKeeps s (execRcb t) := by
  unfold execRcb
  dsimp only
  refine h.laneIssue fun h => ?_
  split
  · exact h
  split
  · exact h
  · exact h.onWeave

protected theorem KeepsForm.execBar (h : KeepsForm s t) : OutKeeps s (execBar t) := by
  unfold execBar
  refine h.laneIssue fun h => h.afterFlow fun h => ?_
  split
  · exact h
  · rename_i e
    exact h.takeLog.of_eq e
  · exact h.pairFail

protected theorem KeepsForm.execSleep {a : LSrc} {p : BitVec 28} (h : KeepsForm s t) : OutKeeps s (execSleep a p t) := by
  unfold execSleep
  refine h.laneIssue fun h => ?_
  split <;> exact h

/-! ### Circles (R138, R139) -/

protected theorem KeepsForm.createCircle {c i tag size : Nat} (h : KeepsForm s t) : KeepsForm s (createCircle t c i tag size) := by
  unfold createCircle
  split
  · exact h
  · exact h.putInst.onCore

protected theorem KeepsForm.grantJoin {c k i tag size : Nat} (h : KeepsForm s t) : KeepsForm s (grantJoin t c k i tag size) := by
  unfold grantJoin
  dsimp only
  split
  · split
    · exact h
    · exact h.createCircle
  split
  · exact h.joinCircle.onWeave.settleBarriers.logOwn
  · exact h.createCircle.joinCircle.onWeave.settleBarriers.logOwn

protected theorem KeepsForm.replayJoin {c k i tag : Nat} (h : KeepsForm s t) : KeepsForm s (replayJoin t c k i tag) := by
  unfold replayJoin
  split <;> exact h.onWeave

protected theorem KeepsForm.execJoin {a b : LSrc} (h : KeepsForm s t) : OutKeeps s (execJoin a b t) := by
  unfold execJoin
  dsimp only
  refine h.laneIssue fun h => ?_
  split
  · exact h
  refine h.afterFlow fun h => ?_
  split
  · rename_i e
    exact (h.takeLog.of_eq e).replayJoin
  · rename_i e
    exact (h.takeLog.of_eq e).pairFail
  · exact h.pairFail
  split
  · exact h
  split
  · exact h
  · exact h
  · exact h.grantJoin

protected theorem KeepsForm.popCircle {c k : Nat} {w : Weave} {leave : Bool} (h : KeepsForm s t) :
    KeepsForm s (popCircle t c k w leave) := by
  unfold popCircle
  split
  · exact h
  · exact h.onWeave.leaveCircle.settleBarriers.dissolve.ite h.onWeave.settleBarriers

protected theorem KeepsForm.execLeave (h : KeepsForm s t) : OutKeeps s (execLeave t) := by
  unfold execLeave
  refine h.laneIssue fun h => h.afterFlow fun h => ?_
  split
  · exact h
  · exact h.popCircle

/-! ### Regions (R140) -/

protected theorem KeepsForm.execRgnOpen (h : KeepsForm s t) : OutKeeps s (execRgnOpen t) := h.laneIssue fun h => h.closeFor.onWeave

protected theorem KeepsForm.execRgnClose (h : KeepsForm s t) : OutKeeps s (execRgnClose t) := h.laneIssue fun h => h.afterFlow id

/-! ### Register scopes (R141; 04 R89 to R92) -/

protected theorem KeepsForm.grantScope {c k n : Nat} (h : KeepsForm s t) : KeepsForm s (grantScope t c k n) := h.onWeave

protected theorem KeepsForm.execScope {n : BitVec 28} (h : KeepsForm s t) : OutKeeps s (execScope n t) := by
  unfold execScope
  dsimp only
  refine h.laneIssue fun h => ?_
  split
  · exact h
  refine h.afterFlow fun h => ?_
  split
  · exact h
  split
  · exact h.grantScope
  · exact h

protected theorem KeepsForm.endScope {c k : Nat} {w : Weave} (h : KeepsForm s t) : KeepsForm s (endScope t c k w) := by
  unfold endScope
  split
  · exact h
  · exact h.untag.onWeave

protected theorem KeepsForm.execEndscope (h : KeepsForm s t) : OutKeeps s (execEndscope t) := by
  unfold execEndscope
  refine h.laneIssue fun h => h.afterFlow fun h => ?_
  split
  · exact h
  · exact h.endScope

/-! ### Wales (R143; 04 R84) -/

protected theorem KeepsForm.setWale {c i wale : Nat} {l : List (List Word)} (h : KeepsForm s t) :
    KeepsForm s (setWale t c i wale l) := h.onInst

protected theorem KeepsForm.pushWale {c i wale : Nat} {line : List Word} (h : KeepsForm s t) : KeepsForm s (pushWale t c i wale line) := by
  unfold pushWale
  split
  · exact h.setWale
  · exact h

protected theorem KeepsForm.execWpush {a : LSrc} (h : KeepsForm s t) : OutKeeps s (execWpush a t) := by
  unfold execWpush
  dsimp only
  refine h.laneIssue fun h => h.afterFlow fun h => ?_
  split
  · exact h
  split
  · exact h
  split
  · exact h
  split
  · exact h
  · exact h.pushWale

protected theorem KeepsForm.writePop {c k : Nat} {act : Mask} {d : BitVec 7} {p : BitVec 3} {r : Option (List Word)} (h : KeepsForm s t) :
    KeepsForm s (writePop t c k act d p r) := h.onWeave.untag

protected theorem KeepsForm.performPop {c k : Nat} {w : Weave} {act : Mask} {d : BitVec 7} {p : BitVec 3} {n : PopNow} (h : KeepsForm s t) :
    KeepsForm s (performPop t c k w act d p n) := by
  unfold performPop
  split
  · split
    · exact h.setWale.logOwn.writePop
    · exact h.logOwn.writePop
  · exact h.logOwn.writePop
  · exact h

protected theorem KeepsForm.execWpop {d : BitVec 7} {p : BitVec 3} (h : KeepsForm s t) : OutKeeps s (execWpop d p t) := by
  unfold execWpop
  refine h.laneIssue fun h => h.afterFlow fun h => ?_
  split
  · exact h
  split
  · rename_i e
    exact (h.takeLog.of_eq e).writePop
  · rename_i e
    exact (h.takeLog.of_eq e).pairFail
  · exact h.pairFail
  split
  · exact h
  split
  · exact h
  · exact h.performPop

/-! ### The decision queue (R144; 04 R86) -/

protected theorem KeepsForm.appendDecision {c i : Nat} {v : Double} (h : KeepsForm s t) :
    KeepsForm s (appendDecision t c i v) := h.drainAll.onInst

protected theorem KeepsForm.execDpush {a : USrc} {wide : Bool} (h : KeepsForm s t) : OutKeeps s (execDpush a wide t) := by
  unfold execDpush
  refine h.uniIssue fun h => ?_
  split
  · exact h
  · refine h.afterFlow fun h => ?_
    split
    · exact h
    split
    · exact h
    · exact h.appendDecision
  · exact h

protected theorem KeepsForm.takeDecision {c k i : Nat} {act : Mask} {d : UDst} {wide : Bool} {v : Double} (h : KeepsForm s t) :
    KeepsForm s (takeDecision t c k i act d wide v) := h.onInst.logOwn.writeUDst.untag

protected theorem KeepsForm.execDpop {d : UDst} {wide : Bool} (h : KeepsForm s t) : OutKeeps s (execDpop d wide t) := by
  unfold execDpop
  dsimp only
  refine h.uniIssue fun h => ?_
  split
  · refine h.afterFlow fun h => ?_
    split
    · rename_i e
      exact (h.takeLog.of_eq e).writeUDst
    · rename_i e
      exact (h.takeLog.of_eq e).pairFail
    · exact h.pairFail
    split
    · exact h
    split
    · exact h
    · exact h.takeDecision
  · exact h

/-! ### bucket (R145; 04 R87, R88) -/

protected theorem KeepsForm.execBucket {d a : BitVec 6} {n : BitVec 2} (h : KeepsForm s t) : OutKeeps s (execBucket d a n t) := by
  unfold execBucket
  dsimp only
  refine h.uniIssue fun h => ?_
  split
  · exact h
  split
  · exact h.putFile.onInst
  · exact h.putFile

/-! ### yield (R142) -/

protected theorem KeepsForm.execYield (h : KeepsForm s t) : OutKeeps s (execYield t) := by
  unfold execYield
  refine h.uniIssue fun h => ?_
  split
  · dsimp only [waits]
    exact h.closeFor.onPair
  · exact h

/-! ## Loads and stores (10) -/

/-! ### Causes of an access (R160) -/

protected theorem KeepsForm.globalSite {a : Agent} {va n : Nat} {acc : Acc} {denied skip : Bool} (h : KeepsForm s t) :
    KeepsForm s (globalSite t a va n acc denied skip).2 := by
  unfold globalSite
  dsimp only
  split
  all_goals
    rename_i e _
    exact h.translate.of_pair e

/-! ### Sampled requests (22 R421 to R423) -/

protected theorem KeepsForm.holdTrace {p vf : Nat} {b : List Byte} (h : KeepsForm s t) :
    KeepsForm s (holdTrace t p vf b) := h.onPart.ite h.mark

protected theorem KeepsForm.countRequest {a : Agent} {tid : Nat} {acc : Acc} {pc va : Nat} {r : Except Nat Nat} (h : KeepsForm s t) :
    KeepsForm s (countRequest t a tid acc pc va r) := h.onCore.holdTrace.ite h.onCore

/-! ### Loads -/

protected theorem KeepsForm.loadBytes {a : Agent} {k n : Nat} {nl1 : Bool} (h : KeepsForm s t) : KeepsForm s (loadBytes t a k n nl1).2 := by
  unfold loadBytes
  dsimp only
  split
  · exact h
  split
  all_goals
    rename_i e
    exact h.loadGlobal.of_third e

protected theorem KeepsForm.loadGlobalOne {a : Agent} {e : Entry} {q : LoadReq} {denied : Bool} {i va : Nat} (h : KeepsForm s t) :
    KeepsForm s (loadGlobalOne t a e q denied i va).2 := by
  unfold loadGlobalOne
  dsimp only
  split
  all_goals
    rename_i e₁
    have h₁ := h.globalSite.of_pair e₁
  · dsimp only
    exact h₁.countRequest
  split
  all_goals
    rename_i e₂
    exact h₁.countRequest.loadBytes.of_pair e₂

protected theorem KeepsForm.loadGlobals {a : Agent} {e : Entry} {q : LoadReq} {denied : Bool} {l : Addrs} (h : KeepsForm s t) :
    KeepsForm s (loadGlobals t a e q denied l).2 := by
  induction l generalizing t with
  | nil => exact h
  | cons x r ih =>
    obtain ⟨i, _ | va⟩ := x
    · exact ih h
    · exact ih h.loadGlobalOne

protected theorem KeepsForm.beforeLoad {a : Agent} {q : LoadReq} (h : KeepsForm s t) : KeepsForm s (beforeLoad t a q) := by
  unfold beforeLoad
  dsimp only
  split
  · exact (h.closeAgent.ite h).acquireAt
  · exact h.closeAgent.ite h

protected theorem KeepsForm.readGlobal {a : Agent} {e : Entry} {q : LoadReq} {act : Mask} {l : Addrs} (h : KeepsForm s t) :
    KeepsForm s (readGlobal t a e q act l).state := by
  have h₁ : KeepsForm s (beforeLoad t a q) := h.beforeLoad
  unfold readGlobal
  extract_lets
  split
  · exact h₁
  split
  · split
    rename_i e₁
    have h₂ := h₁.loadGlobals.of_pair e₁
    exact h₂.ite h₂.giveValue
  · rename_i e₁
    have h₂ := h₁.takeValue.of_eq e₁
    split
    exact h₂
  · split <;> exact h₁
  · exact h₁

protected theorem KeepsForm.readCircle {a : Agent} {q : LoadReq} {act : Mask} {l : Addrs} (h : KeepsForm s t) :
    KeepsForm s (readCircle t a q act l).state := by
  have h₁ : KeepsForm s (beforeLoad t a q) := h.beforeLoad
  unfold readCircle
  extract_lets
  split
  · exact h₁
  split
  · exact h₁.logOwn
  · rename_i e
    have h₂ := h₁.takeLog.of_eq e
    split
    exact h₂
  · rename_i e
    exact h₁.takeLog.of_eq e
  · exact h₁

/-! ### Where results go (R62, R158) -/

protected theorem KeepsForm.fly {a : Agent} {r : Result} (h : KeepsForm s t) : KeepsForm s (fly t a r) := by
  unfold fly
  split
  · exact h.onWeave
  · exact h.onInst
  · exact h.onCore

protected theorem KeepsForm.flyLane {a : Agent} {d : Nat} {wide : Bool} {vals : List (Nat × Double)} (h : KeepsForm s t) :
    KeepsForm s (flyLane t a d wide vals) := h.ite h.fly

protected theorem KeepsForm.flyUni {a : Agent} {m : Mask} {d : UDst} {wide : Bool} {v : Double} (h : KeepsForm s t) :
    KeepsForm s (flyUni t a m d wide v) := by
  unfold flyUni
  split
  · exact h.fly
  · exact h.writeUDst

protected theorem KeepsForm.laneLoaded {a : Agent} {d : Nat} {w : MemW} {l : Addrs} {r : Reading} (h : KeepsForm s r.state) :
    KeepsForm s (laneLoaded a d w l r).s := by
  cases r with
  | read r => exact h.flyLane
  | wait u => exact h
  | broken u => exact h.pairFail

protected theorem KeepsForm.uniLoaded {a : Agent} {e : Entry} {d : UDst} {w : MemW} {l : Addrs} {r : Reading} (h : KeepsForm s r.state) :
    KeepsForm s (uniLoaded a e d w l r).s := by
  cases r with
  | wait u => exact h
  | broken u => exact h.pairFail
  | read r =>
    unfold uniLoaded
    dsimp only
    split
    · exact h.flyUni
    · exact h
    · exact h

/-! ### Full/empty loads (R164, R165) -/

protected theorem KeepsForm.performFe {c k : Nat} {act : Mask} {r : FeLoad} (h : KeepsForm s t) :
    KeepsForm s (performFe t c k act r).1 := by
  unfold performFe
  dsimp only
  split
  · split
    · exact (h.onCore.ite h).logOwn.flyUni.untag
    · exact (h.onCore.ite h).logOwn
    · exact (h.onCore.ite h).logOwn
  · exact (h.onCore.ite h).logOwn.flyLane.untag

protected theorem KeepsForm.feIssue {c k : Nat} {act : Mask} {dst : FeDst} {q : LoadReq} {l : Addrs} (h : KeepsForm s t) :
    KeepsForm s (feIssue t c k act dst q l).s := by
  have h₁ : KeepsForm s (beforeLoad t (.weave c k) q) := h.beforeLoad
  unfold feIssue
  dsimp only
  split
  · exact h₁
  split
  · rename_i e
    have h₂ := h₁.takeLog.of_eq e
    split
    · exact h₂.flyUni
    · exact h₂.flyLane
  · rename_i e
    exact (h₁.takeLog.of_eq e).pairFail
  · exact h₁.pairFail
  split
  · exact h₁.performFe
  · exact h₁

protected theorem KeepsForm.feTake {a : Agent} {e : Entry} {q : LoadReq} {r : FeLoad} {d : UDst} {l : Addrs} (h : KeepsForm s t) :
    KeepsForm s (feTake t a e q r d l).s := by
  have h₁ : KeepsForm s (uniLoaded a e d q.width l (readCircle t a q 1#32 l)).s := h.readCircle.uniLoaded
  unfold feTake
  split
  · dsimp only
    exact h₁.onCore
  · exact h₁

protected theorem KeepsForm.feAlone {a : Agent} {en : Entry} {d : UDst} {q : LoadReq} {l : Addrs} (h : KeepsForm s t) :
    KeepsForm s (feAlone t a en d q l).s := by
  unfold feAlone
  dsimp only
  split
  · split
    · exact h.beforeLoad.feTake
    · exact h.beforeLoad
  · exact h.beforeLoad.readCircle.uniLoaded

/-! ### Stores -/

protected theorem KeepsForm.storeSite {a : Agent} {e : Entry} {q : StoreQ} {denied : Bool} {i : Nat} {addr data : Except Nat Double}
    (h : KeepsForm s t) : KeepsForm s (storeSite t a e q denied i addr data).2 := by
  unfold storeSite
  dsimp only
  split
  · exact h
  · exact h
  · exact h
  split
  · split <;> exact h
  split
  all_goals
    rename_i e₁
    dsimp only
    exact (h.globalSite.of_pair e₁).countRequest

protected theorem KeepsForm.storeSites {a : Agent} {e : Entry} {q : StoreQ} {denied : Bool} {l : List (Nat × Except Nat Nat × Except Nat Double)}
    (h : KeepsForm s t) : KeepsForm s (storeSites t a e q denied l).2 := by
  induction l generalizing t with
  | nil => exact h
  | cons x r ih => exact ih h.storeSite

protected theorem KeepsForm.enterFor {a : Agent} {r : StoreReq} (h : KeepsForm s t) : KeepsForm s (enterFor t a r) := by
  unfold enterFor
  split
  · exact h.onWeave
  · exact h.onInst
  · exact h.onCore

/-- The state that the stores of an instruction leave. -/
def storeEnd {α : Type} : Except (Wait × State) (α × State) → State
  | .error (_, s) => s
  | .ok (_, s) => s

protected theorem KeepsForm.storeAll {a : Agent} {e : Entry} {q : StoreQ} {l : List (Nat × Except Nat Nat × Except Nat Double)}
    (h : KeepsForm s t) : KeepsForm s (storeEnd (storeAll t a e q l)) := by
  unfold storeAll
  extract_lets denied buf u
  have hu : KeepsForm s u := by
    refine h.ite ?_
    split
    · exact h.closeFor.ite h
    · exact h
  split
  · exact hu
  split
  rename_i e
  have h₁ := hu.storeSites.of_pair e
  refine h₁.ite (.ite ?_ h₁.enterFor)
  split
  · exact h₁.onWeave
  · exact h₁

/-! ### The issue of plain and qualified accesses -/

protected theorem KeepsForm.loadFlow {a : Agent} {q : LoadReq} {k : State → Done} (h : KeepsForm s t)
    (hk : ∀ {u}, KeepsForm s u → KeepsForm s (k u).s) : KeepsForm s (loadFlow t a q k).s := by
  unfold loadFlow
  split
  · exact h.afterFlow hk
  · exact hk h

protected theorem KeepsForm.laneLoad {f : LaneLd} {q : LoadReq} {size : Nat} (h : KeepsForm s t) : OutKeeps s (laneLoad f q size t) := by
  unfold laneLoad
  refine h.laneIssue fun h => h.loadFlow fun h => ?_
  split
  · exact h.feIssue
  split
  · exact h.readCircle.laneLoaded
  · exact h.readGlobal.laneLoaded

protected theorem KeepsForm.uniLoad {f : UniLd} {q : LoadReq} {size : Nat} (h : KeepsForm s t) : OutKeeps s (uniLoad f q size t) := by
  unfold uniLoad
  refine h.uniIssue fun h => h.loadFlow fun h => ?_
  split
  · split
    · exact h.feIssue
    · exact h.feAlone
  split
  · exact h.readCircle.uniLoaded
  · exact h.readGlobal.uniLoaded

protected theorem KeepsForm.laneStore {f : LaneSt} {q : StoreQ} {size : Nat} (h : KeepsForm s t) : OutKeeps s (laneStore f q size t) := by
  unfold laneStore
  refine h.laneIssue fun h => ?_
  dsimp only
  split
  all_goals
    rename_i e
    exact h.storeAll.of_eq e

protected theorem KeepsForm.uniStore {f : UniSt} {q : StoreQ} {size : Nat} (h : KeepsForm s t) : OutKeeps s (uniStore f q size t) := by
  unfold uniStore
  refine h.uniIssue fun h => ?_
  dsimp only
  split
  all_goals
    rename_i e
    exact h.storeAll.of_eq e

/-! ## Atomics, fences, the skein -/

/-! ### Once-performed members of a paired agent -/

protected theorem KeepsForm.joinOnce {a : Agent} {pc : Double} {act : Mask} {bytes : List Byte} {op : PairOp} (h : KeepsForm s t) :
    KeepsForm s ((joinOnce t a pc act bytes op).state t) := by
  unfold joinOnce
  split
  · exact h
  split
  · split
    · rename_i e
      exact (h.takeValue.of_eq e).joinGroup
    · exact h
  · exact h.joinGroup

/-! ### Atomic operations (R171) -/

protected theorem KeepsForm.atomOne {c : Nat} {see keep : Option Nat} {op : AtomOp} {ty : AtomTy} {i : AtomItem} (h : KeepsForm s t) :
    KeepsForm s (atomOne t c see keep op ty i).2 := by
  unfold atomOne
  dsimp only
  split
  · rename_i e
    exact h.readHome.of_third e
  rename_i e
  exact (h.readHome.of_third e).writeHome

protected theorem KeepsForm.atomAll {c : Nat} {see keep : Option Nat} {op : AtomOp} {ty : AtomTy} {l : List AtomItem} (h : KeepsForm s t) :
    KeepsForm s (atomAll c see keep op ty t l).2 := by
  induction l generalizing t with
  | nil => exact h
  | cons i r ih => exact ih h.atomOne

protected theorem KeepsForm.atomCircle {c : Nat} {op : AtomOp} {ty : AtomTy} {l : List AtomItem} (h : KeepsForm s t) :
    KeepsForm s (atomCircle c op ty t l).2 := by
  induction l generalizing t with
  | nil => exact h
  | cons i r ih =>
    unfold atomCircle
    dsimp only
    split
    · exact ih h
    · exact ih h.putCore

protected theorem KeepsForm.atomSite {a : Agent} {en : Entry} {q : AtomQ} {denied : Bool} {tn va : Nat} (h : KeepsForm s t) :
    KeepsForm s (atomSite t a en q denied tn va).2 := by
  unfold atomSite
  split
  · exact h
  split
  rename_i e
  exact (h.globalSite.of_pair e).countRequest

protected theorem KeepsForm.atomItems {a : Agent} {e : Entry} {q : AtomQ} {denied : Bool} {l : AtomAsk} (h : KeepsForm s t) :
    KeepsForm s (atomItems a e q denied t l).2.2 := by
  induction l generalizing t with
  | nil => exact h
  | cons x r ih =>
    obtain ⟨i, _ | vs⟩ := x
    · exact ih h
    unfold atomItems
    dsimp only
    split
    all_goals
      rename_i e
      exact ih (h.atomSite.of_pair e)

protected theorem KeepsForm.atomRun {a : Agent} {e : Entry} {op : AtomOp} {q : AtomQ} {dst : FeDst} {asks : AtomAsk} (h : KeepsForm s t) :
    KeepsForm s (atomRun t a e op q dst asks).state := by
  have h₁ : KeepsForm s (closeAgent t a) := h.closeAgent
  unfold atomRun
  dsimp only
  split
  · split
    · exact h₁
    · exact h₁.onPair
  have h₂ : KeepsForm s (atomItems a e q (scopeDenied (closeAgent t a) a q.scope) (closeAgent t a) asks).2.2 := h₁.atomItems
  split
  · exact h₂
  split
  · split
    · exact h₂.atomCircle.logOwn
    · rename_i e₁
      exact h₂.takeLog.of_eq e₁
    · rename_i e₁
      exact h₂.takeLog.of_eq e₁
    · exact h₂
  split
  · split
    · split
      · rename_i e₁
        exact h₂.joinOnce.of_eq e₁
      · rename_i e₁
        exact h₂.joinOnce.of_eq e₁
      · exact h₂
      · exact h₂
    split
    · exact h₂
    · exact h₂.joinGroup
  · refine .ite (.acquireAt ?_) ?_
    all_goals exact (h₂.releaseAt.ite h₂).atomAll

protected theorem KeepsForm.laneAtom {f : LaneLd} {op : AtomOp} {q : AtomQ} (h : KeepsForm s t) : OutKeeps s (laneAtom f op q t) := by
  unfold laneAtom
  dsimp only
  refine h.laneIssue fun h => ?_
  split
  · rename_i e
    have h₁ := h.atomRun.of_eq e
    exact h₁.flyLane.ite h₁
  · rename_i e
    exact h.atomRun.of_eq e
  · rename_i e
    exact h.atomRun.of_eq e
  rename_i e
  exact (h.atomRun.of_eq e).pairFail

protected theorem KeepsForm.execUAtom {f : UniLd} {op : AtomOp} {q : AtomQ} (h : KeepsForm s t) : OutKeeps s (execUAtom f op q t) := by
  unfold execUAtom
  dsimp only
  refine h.uniIssue fun h => ?_
  split
  all_goals
    rename_i e
    have h₁ := h.atomRun.of_eq e
  · split
    · exact h₁
    · split
      · exact h₁.flyUni
      · exact h₁
    · exact h₁
  · exact h₁
  · exact h₁
  · exact h₁.pairFail

/-! ### Fences (R172) -/

protected theorem KeepsForm.fenceAct {c : Nat} {k : FenceKind} {sc : Scope} (h : KeepsForm s t) :
    KeepsForm s (fenceAct t c k sc) := (h.releaseAt.ite h).acquireAt.ite (h.releaseAt.ite h)

protected theorem KeepsForm.fenceRun {a : Agent} {m : Mask} {k : FenceKind} {sc : Scope} {cycles : Nat} (h : KeepsForm s t) :
    KeepsForm s (fenceRun t a m k sc cycles).s := by
  unfold fenceRun
  dsimp only
  split
  · exact h.closeAgent
  split
  · split
    · exact h.closeAgent
    · split <;> exact h.closeAgent.joinGroup
  · exact h.closeAgent.fenceAct

protected theorem KeepsForm.execFence {k : FenceKind} {sc : Scope} (h : KeepsForm s t) :
    OutKeeps s (execFence k sc t) := h.laneIssue .fenceRun

protected theorem KeepsForm.execUFence {k : FenceKind} {sc : Scope} (h : KeepsForm s t) :
    OutKeeps s (execUFence k sc t) := h.uniIssue .fenceRun

/-! ### The skein (R173 to R176; 17 R354) -/

protected theorem KeepsForm.allocOne {vf : Nat} {keep : Option Nat} {i n : Nat} (h : KeepsForm s t) :
    KeepsForm s (allocOne t vf keep i n).2 := by
  -- The walk to a block's leaf stays a variable here: the kernel would unfold it.
  obtain ⟨cause, hcause⟩ : ∃ f, blockCause t vf = f := ⟨_, rfl⟩
  unfold allocOne
  rw [hcause]
  split
  · exact h
  split
  · exact h
  split
  · exact h
  dsimp only
  split
  · exact h.putVf.onLaunch.ite h.putVf
  · exact h.putVf

protected theorem KeepsForm.allocAll {vf : Nat} {keep : Option Nat} {l : List (Nat × Nat)} (h : KeepsForm s t) :
    KeepsForm s (allocAll vf keep t l).2 := by
  induction l generalizing t with
  | nil => exact h
  | cons x r ih => exact ih h.allocOne

protected theorem KeepsForm.allocRun {a : Agent} {e : Entry} {trap uni : Bool} {d p : Nat} {sizes : List (Nat × Nat)} (h : KeepsForm s t) :
    KeepsForm s (allocRun t a e trap uni d p sizes).state := by
  have h₁ : KeepsForm s (closeAgent t a) := h.closeAgent
  unfold allocRun
  dsimp only
  split
  · exact h₁
  split
  · split
    · rename_i e
      exact h₁.joinOnce.of_eq e
    · rename_i e
      exact h₁.joinOnce.of_eq e
    · exact h₁
    · exact h₁
  · exact h₁.allocAll.dropL1

protected theorem KeepsForm.flyServed {a : Agent} {d p : Nat} {trap : Bool} {l : List (Nat × Served)} (h : KeepsForm s t) :
    KeepsForm s (flyServed t a d p trap l) := h.ite h.fly

protected theorem KeepsForm.execAlloc {d : BitVec 7} {x : LSrc} {tn : Bool} {p : BitVec 3} (h : KeepsForm s t) :
    OutKeeps s (execAlloc d x tn p t) := by
  unfold execAlloc
  dsimp only
  refine h.laneIssue fun h => ?_
  split
  · rename_i e
    exact (h.allocRun.of_eq e).flyServed
  · rename_i e
    exact h.allocRun.of_eq e
  · rename_i e
    exact h.allocRun.of_eq e
  rename_i e
  exact (h.allocRun.of_eq e).pairFail

protected theorem KeepsForm.uniServed {a : Agent} {en : Entry} {d p : Nat} {trap : Bool} {r : Served} (h : KeepsForm s t) :
    KeepsForm s (uniServed t a en d p trap r).s := by
  unfold uniServed
  split
  · exact h
  · exact h.fly.putFile.ite h.fly

protected theorem KeepsForm.execUAlloc {d : BitVec 6} {x : USrc} {trap : Bool} {p : BitVec 3} (h : KeepsForm s t) :
    OutKeeps s (execUAlloc d x trap p t) := by
  unfold execUAlloc
  refine h.uniIssue fun h => ?_
  split
  · exact h
  split
  all_goals
    rename_i e
    have h₁ := h.allocRun.of_eq e
  · split
    · exact h₁.uniServed
    · exact h₁
  · exact h₁
  · exact h₁
  · exact h₁.pairFail

protected theorem KeepsForm.freeOne {vf : Nat} {keep : Option Nat} {addr : Nat} (h : KeepsForm s t) :
    KeepsForm s (freeOne t vf keep addr) := by
  unfold freeOne
  split
  · exact h
  split
  · exact h.onLaunch.ite h.onVf
  · exact h.onVf

protected theorem KeepsForm.freeAll {vf : Nat} {keep : Option Nat} {l : List (Nat × Nat)} (h : KeepsForm s t) :
    KeepsForm s (freeAll vf keep t l).2 := by
  induction l generalizing t with
  | nil => exact h
  | cons x r ih =>
    unfold freeAll
    split
    · exact ih h
    · exact ih h.freeOne

/-- The state that a request to free blocks leaves. -/
def freeEnd {α : Type} : Except State (α × State) → State
  | .error s => s
  | .ok (_, s) => s

protected theorem KeepsForm.freeRun {a : Agent} {l : List (Nat × Nat)} (h : KeepsForm s t) : KeepsForm s (freeEnd (freeRun t a l)) := by
  unfold freeRun
  dsimp only
  split
  · exact h.closeAgent
  split
  · split
    · exact h.closeAgent
    · exact h.closeAgent.ite h.closeAgent.joinGroup
  · exact h.closeAgent.flushL1.freeAll

protected theorem KeepsForm.execFree {x : LSrc} (h : KeepsForm s t) : OutKeeps s (execFree x t) := by
  unfold execFree
  refine h.laneIssue fun h => ?_
  dsimp only
  split
  all_goals
    rename_i e
    exact h.freeRun.of_eq e

protected theorem KeepsForm.execUFree {x : USrc} (h : KeepsForm s t) : OutKeeps s (execUFree x t) := by
  unfold execUFree
  refine h.uniIssue fun h => ?_
  split
  · exact h
  split
  · rename_i e
    exact h.freeRun.of_eq e
  rename_i e
  split <;> exact h.freeRun.of_eq e

/-! ## Constant banks -/

protected theorem KeepsForm.bankLoad {a : Agent} {off n : Nat} (h : KeepsForm s t) : KeepsForm s (bankLoad t a off n).2 := by
  unfold bankLoad
  extract_lets
  split
  all_goals
    rename_i e _
    have h₁ := h.translate.of_pair e
  · exact h₁
  · exact h₁
  · exact h₁
  split
  · exact h₁
  · dsimp only
    exact h₁.onCore

protected theorem KeepsForm.bankLoads {a : Agent} {n : Nat} {l : Addrs} (h : KeepsForm s t) : KeepsForm s (bankLoads a n t l).2 := by
  induction l generalizing t with
  | nil => exact h
  | cons x r ih =>
    obtain ⟨i, _ | off⟩ := x
    · exact ih h
    · exact ih h.bankLoad

protected theorem KeepsForm.loadLookup {c k : Nat} {w : Weave} {en : Entry} {act : Mask} {n : Nat} {key : List Nat}
    {names : Weave → Option (List Nat)} (h : KeepsForm s t) : KeepsForm s (loadLookup t c k w en act n key names).2.1 := by
  unfold loadLookup
  dsimp only
  split
  · exact h.lookup
  · exact h

protected theorem KeepsForm.ldkLane {c k : Nat} {w : Weave} {e : Entry} {act : Mask} {d n : Nat} {key : List Nat}
    {names : Weave → Option (List Nat)} {own : Bool} {addrs : Addrs} {vals : State → Loaded × Mask × State} (h : KeepsForm s t)
    (hv : ∀ {u}, KeepsForm s u → KeepsForm s (vals u).2.2) : KeepsForm s (ldkLane t c k w e act d n key names own addrs vals).s := by
  unfold ldkLane
  extract_lets a dst run clean
  have hrun : ∀ {ins u w}, KeepsForm s u → KeepsForm s (run ins u w).s := fun {ins u w} h => by
    have h₁ := hv (h.putWeave (c := c) (k := k) (w := w))
    unfold run
    dsimp only
    split
    · exact (h₁.giveValue.ite h₁).commitRuns
    · exact h₁.giveValue.ite h₁
  split
  all_goals
    rename_i e₁
    have h₁ := h.loadLookup.of_mid e₁
  · split
    · split
      · exact h₁.bindHit.giveValue
      · exact h₁.bindHit
    · exact hrun h₁
  · exact hrun h₁
  · exact (hrun h₁).untagMissed
  · exact hrun h₁

protected theorem KeepsForm.laneLdk {row : Nat} {f : LaneLd} {k : BitVec 28} {wide : Bool} (h : KeepsForm s t) :
    OutKeeps s (laneLdk row f k wide t) := by
  unfold laneLdk
  refine h.laneIssue fun h => ?_
  dsimp only
  split
  · exact h
  split
  · exact h.ldkLane .bankLoads
  · rename_i e
    exact (h.takeValue.of_eq e).ldkLane id
  · exact h
  · exact h.pairFail

protected theorem KeepsForm.ldkEnd {a : Agent} {en : Entry} {f : UAluForm} {v : Double} (h : KeepsForm s t) :
    KeepsForm s (ldkEnd t a en f v).s := by
  unfold ldkEnd
  dsimp only
  split
  · split
    · split
      · exact h.uniLineage
      · exact h.uniPlain
    · exact h
  · exact h.uniPlain

protected theorem KeepsForm.uniLdk {row : Nat} {f : UniLd} {k : BitVec 28} {wide : Bool} (h : KeepsForm s t) :
    OutKeeps s (uniLdk row f k wide t) := by
  unfold uniLdk
  dsimp only
  refine h.uniIssue fun h => ?_
  split
  · exact h.uniFail
  split
  · split
    · exact h.giveValue.ldkEnd
    split
    · rename_i e
      exact (h.bankLoad.of_pair e).uniFail
    rename_i e
    exact (h.bankLoad.of_pair e).giveValue.ldkEnd
  · rename_i e
    exact (h.takeValue.of_eq e).ldkEnd
  · split
    · exact h.uniFail
    · exact h
  · exact h.pairFail

/-! ## Tensor elements -/

/-! ### Reads -/

protected theorem KeepsForm.readPieces {rd : Rd} {fuel va n : Nat} (h : KeepsForm s t) (hr : RdKeeps rd) :
    KeepsForm s (readPieces rd fuel t va n).2 := by
  induction fuel generalizing t va n with
  | zero => exact h
  | succ fuel ih =>
    unfold readPieces
    dsimp only
    split
    · exact h
    split
    all_goals
      rename_i e
      have h₁ := (hr h).of_pair e
    · exact h₁
    split
    all_goals
      rename_i e₂
      exact (ih h₁).of_pair e₂

protected theorem KeepsForm.readRec {rd : Rd} {addr : Nat} (h : KeepsForm s t) (hr : RdKeeps rd) : KeepsForm s (readRec rd t addr).2 := by
  unfold readRec
  split
  · rename_i e
    exact (h.readPieces hr).of_pair e
  rename_i e
  split <;> exact (h.readPieces hr).of_pair e

protected theorem KeepsForm.readCode {rd : Rd} {r : TRec} {xs : List Nat} (h : KeepsForm s t) (hr : RdKeeps rd) :
    KeepsForm s (readCode rd r xs t).2 := by
  unfold readCode
  split
  all_goals
    rename_i e
    exact (hr h).of_pair e

protected theorem KeepsForm.readSide {rd : Rd} {r : TRec} {xs : List Nat} (h : KeepsForm s t) (hr : RdKeeps rd) :
    KeepsForm s (readSide rd r xs t).2 := by
  unfold readSide
  split
  all_goals
    rename_i e
    have h₁ := (hr h).of_pair e
  · exact h₁
  · split <;> exact h₁

protected theorem KeepsForm.countEscapes {rd : Rd} {r : TRec} {xs : List Nat} {n i : Nat} (h : KeepsForm s t) (hr : RdKeeps rd) :
    KeepsForm s (countEscapes rd r xs n i t).2 := by
  induction n generalizing t i with
  | zero => exact h
  | succ n ih =>
    unfold countEscapes
    split
    all_goals
      rename_i e
      have h₁ := (h.readCode hr).of_pair e
    · exact h₁
    split
    all_goals
      rename_i e₂
      exact (ih h₁).of_pair e₂

protected theorem KeepsForm.readOutlier {rd : Rd} {r : TRec} {xs : List Nat} {side : Nat} (h : KeepsForm s t) (hr : RdKeeps rd) :
    KeepsForm s (readOutlier rd r xs side t).2 := by
  unfold readOutlier
  dsimp only
  split
  · rename_i e
    exact (h.countEscapes hr).of_pair e
  rename_i e
  exact hr ((h.countEscapes hr).of_pair e)

protected theorem KeepsForm.readElem {rd : Rd} {r : TRec} {xs : List Nat} (h : KeepsForm s t) (hr : RdKeeps rd) :
    KeepsForm s (readElem rd r xs t).2 := by
  unfold readElem
  dsimp only
  split
  all_goals
    rename_i e
    have h₁ := (h.readCode hr).of_pair e
  · exact h₁
  split
  · exact h₁
  split
  all_goals
    rename_i e₂
    have h₂ := (h₁.readSide hr).of_pair e₂
  · exact h₂
  split
  · split
    · rename_i e₃
      exact (h₂.readOutlier hr).of_pair e₃
    rename_i e₃
    exact (h₂.readOutlier hr).of_pair e₃
  · exact h₂

/-! ### Threads' reads and coordinates -/

protected theorem RdKeeps.agentRd {a : Agent} : RdKeeps (agentRd a) := fun {s t va n} h => by
  unfold agentRd
  split
  all_goals
    rename_i e
    have h₁ := h.translate.of_pair e
  · exact h₁
  split
  all_goals
    rename_i e₂
    exact h₁.loadBytes.of_pair e₂

protected theorem KeepsForm.elemSite {a : Agent} {e : Entry} {i : Nat} {acc : Acc} {r : TRec} {xs : List Nat} (h : KeepsForm s t) :
    KeepsForm s (elemSite t a e i acc r xs).2 := by
  unfold elemSite
  split
  all_goals
    rename_i e _
    exact h.translate.of_pair e

/-- What an element's read gives, whether its value is asked for or its code. -/
protected theorem KeepsForm.elemRead {rd : Rd} {r : TRec} {f32 : Bool} {xs : List Nat} (h : KeepsForm s t) (hr : RdKeeps rd) :
    KeepsForm s (if f32 then readElem rd r xs t else
      match readCode rd r xs t with
      | (.error c, s) => (.error c, s)
      | (.ok code, s) =>
        if r.esc && r.bsize = 0 then
          match readSide rd r xs s with
          | (.error c, s) => (.error c, s)
          | (.ok _, s) => (.ok { code := code, scale := none, outlier := none }, s)
        else (.ok { code := code, scale := none, outlier := none }, s)).2 := by
  split
  · exact h.readElem hr
  split
  all_goals
    rename_i e
    have h₁ := (h.readCode hr).of_pair e
  · exact h₁
  split
  · split
    all_goals
      rename_i e₂
      exact (h₁.readSide hr).of_pair e₂
  · exact h₁

protected theorem KeepsForm.ldtOne {a : Agent} {e : Entry} {r : TRec} {f32 : Bool} {i : Nat} {xs : List Nat} (h : KeepsForm s t) :
    KeepsForm s (ldtOne t a e r f32 i xs).2 := by
  unfold ldtOne
  split
  · exact h
  split
  · exact h
  split
  all_goals
    rename_i e₁
    have h₁ := h.elemSite.of_pair e₁
  · dsimp only
    exact h₁.countRequest
  split
  all_goals
    rename_i e₂
    dsimp only
    exact ((h₁.elemRead RdKeeps.agentRd).of_pair e₂).countRequest

protected theorem KeepsForm.ldtAll {a : Agent} {e : Entry} {r : TRec} {f32 : Bool} {l : List (Nat × Except Nat (List Nat))} (h : KeepsForm s t) :
    KeepsForm s (ldtAll a e r f32 t l).2 := by
  induction l generalizing t with
  | nil => exact h
  | cons x rest ih =>
    obtain ⟨i, _ | xs⟩ := x
    · exact ih h
    · exact ih h.ldtOne

protected theorem KeepsForm.ldtEnd {c k d : Nat} {ins : Option (List Nat)} {l : Elems} {late : Mask} (h : KeepsForm s t) :
    KeepsForm s (ldtEnd t c k d ins l late).s := by
  unfold ldtEnd
  split
  · exact h
  · exact h.commitRuns

protected theorem KeepsForm.ldtLookup {c k : Nat} {w : Weave} {en : Entry} {act : Mask} {x tx n : Nat} {f32 : Bool} {raw : Nat} {xs : List
    (Nat × Except Nat (List Nat))} (h : KeepsForm s t) : KeepsForm s (ldtLookup t c k w en act x tx n f32 raw xs).2.1 := by
  unfold ldtLookup
  split
  · exact h.loadLookup
  · exact h

protected theorem KeepsForm.ldtFound {f : Found × State × Weave} {c k d : Nat} {xs : List (Nat × Except Nat (List Nat))}
    {run : Option (List Nat) → State → Done} {give : State → List (Nat × Double) → State} (h : KeepsForm s f.2.1)
    (hr : ∀ {ins u}, KeepsForm s u → KeepsForm s (run ins u).s) (hg : ∀ {u l}, KeepsForm s u → KeepsForm s (give u l)) :
    KeepsForm s (ldtFound f c k d xs run give).s := by
  unfold ldtFound
  split
  · split
    · exact hg h.bindHit
    · exact hr h.putWeave
  · exact hr h.putWeave
  · exact (hr h.putWeave).untagMissed
  · exact hr h.putWeave

protected theorem KeepsForm.ldtOwn {c k : Nat} {w : Weave} {e : Entry} {act : Mask} {d x tx n : Nat} {f32 : Bool}
    {xs : List (Nat × Except Nat (List Nat))} (h : KeepsForm s t) : KeepsForm s (ldtOwn t c k w e act d x tx n f32 xs).s := by
  unfold ldtOwn
  dsimp only
  split
  · exact h
  split
  all_goals
    rename_i e
    have h₁ := (h.readRec RdKeeps.agentRd).of_pair e
  · exact h₁
  · exact h₁.ldtLookup.ldtFound (fun h => (h.ldtAll.ite h.ldtAll.giveValue).ldtEnd) fun h => h.ite h.giveValue

protected theorem KeepsForm.ldtGiven {c k : Nat} {w : Weave} {e : Entry} {act : Mask} {d x tx n : Nat} {f32 : Bool}
    {xs : List (Nat × Except Nat (List Nat))} {vals : List (Nat × Double)} (h : KeepsForm s t) :
    KeepsForm s (ldtGiven t c k w e act d x tx n f32 xs vals).s := by
  unfold ldtGiven
  split
  · exact h.ldtLookup.ldtFound .ldtEnd id
  · exact h.ldtEnd

protected theorem KeepsForm.execLdt {d x : BitVec 7} {tx : BitVec 8} {n : BitVec 3} {f32 : Bool} (h : KeepsForm s t) :
    OutKeeps s (execLdt d x tx n f32 t) := by
  unfold execLdt
  dsimp only
  refine h.laneIssue fun h => ?_
  split
  · exact h
  split
  · exact h.ldtOwn
  · rename_i e
    exact (h.takeValue.of_eq e).ldtGiven
  · exact h
  · exact h.pairFail

/-! ### Tensor element stores -/

/-- The scale that an element's store is made with. -/
protected theorem KeepsForm.scaleRead {rd : Rd} {r : TRec} {p : Prop} {_ : Decidable p} {xs : List Nat} (h : KeepsForm s t) (hr : RdKeeps rd) :
    KeepsForm s (if p then
      match readSide rd r xs t with
      | (.ok v, s) => (.ok (some (v % 256)), s)
      | (.error c, s) => (.error c, s)
      else ((.ok none : Except Cause (Option Nat)), t)).2 := by
  split
  · split
    all_goals
      rename_i e
      exact (h.readSide hr).of_pair e
  · exact h

protected theorem KeepsForm.sttOne {a : Agent} {e : Entry} {w : Weave} {r : TRec} {f32 : Bool} {rm : RMode} {i : Nat} {xs : List Nat}
    {data : Double} (h : KeepsForm s t) : KeepsForm s (sttOne t a e w r f32 rm i xs data).2 := by
  unfold sttOne
  dsimp only
  split
  · exact h
  split
  · exact h
  split
  all_goals
    rename_i e₁
    have h₁ := h.elemSite.of_pair e₁
  · dsimp only
    exact h₁.countRequest
  split
  all_goals
    rename_i e₂
    have h₂ := (h₁.countRequest.scaleRead RdKeeps.agentRd).of_pair e₂
  · exact h₂
  · split <;> exact h₂

protected theorem KeepsForm.sttAll {a : Agent} {e : Entry} {w : Weave} {r : TRec} {f32 : Bool} {rm : RMode}
    {l : List (Nat × Except Nat (List Nat × Double))} (h : KeepsForm s t) : KeepsForm s (sttAll a e w r f32 rm t l).2 := by
  induction l generalizing t with
  | nil => exact h
  | cons x rest ih =>
    obtain ⟨i, _ | y⟩ := x
    · exact ih h
    · exact ih h.sttOne

protected theorem KeepsForm.execStt {v : LSrc} {x : BitVec 7} {tx : BitVec 8} {n : BitVec 3} {f32 : Bool} {round : Round} (h : KeepsForm s t) :
    OutKeeps s (execStt v x tx n f32 round t) := by
  unfold execStt
  dsimp only
  refine h.laneIssue fun h => ?_
  split
  · exact h.closeFor
  split
  · exact h.closeFor
  · exact h.closeFor
  split
  all_goals
    rename_i e
    have h₁ := (h.closeFor.readRec RdKeeps.agentRd).of_pair e
  · exact h₁
  split
  · exact h₁
  · exact h₁.sttAll.onWeave.ite h₁.sttAll.onWeave.enterFor

/-! ## Commands -/

/-! ### The issue of a command (R177) -/

protected theorem KeepsForm.pushCmd {a : Agent} {en : Entry} {tid : Nat} {k : Ask} {hold : Bool} (h : KeepsForm s t) :
    KeepsForm s (pushCmd t a en tid k hold) := by
  unfold pushCmd
  exact h.nextSeq.onCore

protected theorem KeepsForm.issueCmd {a : Agent} {e : Entry} {act : Mask} {tid : Nat} {k : Ask} {after : State → State} (h : KeepsForm s t)
    (ha : ∀ {u}, KeepsForm s u → KeepsForm s (after u)) : KeepsForm s (issueCmd t a e act tid k after).s := by
  unfold issueCmd
  split
  · exact h
  split
  · exact h
  split
  · split
    · exact h
    dsimp only
    split
    · exact h.joinGroup
    · exact (ha h.pushCmd).joinGroup
  split
  · exact h
  split
  · exact ha h.pushCmd
  split
  · exact h
  · exact (ha h.pushCmd).onPair

/-! ### Box copies (R178) -/

protected theorem KeepsForm.issueRec {a : Agent} {tx : Nat} (h : KeepsForm s t) : KeepsForm s (issueRec t a tx).2 := by
  unfold issueRec
  split
  · exact h
  split
  all_goals
    rename_i e
    exact (h.readRec RdKeeps.agentRd).of_pair e

protected theorem KeepsForm.boxIssue {a : Agent} {en : Entry} {act : Mask} {tid : Nat} {out : Bool} {tx q e0 e1 : Nat} {xs : List Nat}
    {off : Nat} {ctr : Option (Double × Scope)} (h : KeepsForm s t) :
    KeepsForm s (boxIssue t a en act tid out tx q e0 e1 xs off ctr).s := by
  unfold boxIssue
  split
  · rename_i e
    exact h.issueRec.of_pair e
  rename_i e
  exact (h.issueRec.of_pair e).issueCmd id

protected theorem KeepsForm.laneBox {f : LaneBox} {out : Bool} (h : KeepsForm s t) : OutKeeps s (laneBox f out t) := by
  unfold laneBox
  dsimp only
  refine h.laneIssue fun h => ?_
  split
  · exact h.closeFor
  split
  · exact h.closeFor
  · exact h.closeFor.boxIssue

protected theorem KeepsForm.execCpyIn {f : LaneBox} (h : KeepsForm s t) : OutKeeps s (execCpyIn f t) := h.laneBox

protected theorem KeepsForm.execCpyOut {f : LaneBox} (h : KeepsForm s t) : OutKeeps s (execCpyOut f t) := h.laneBox

protected theorem KeepsForm.uniBox {f : UniBox} {out : Bool} (h : KeepsForm s t) : OutKeeps s (uniBox f out t) := by
  unfold uniBox
  dsimp only
  refine h.uniIssue fun h => ?_
  split
  · exact h.closeAgent
  · exact h.closeAgent.boxIssue

protected theorem KeepsForm.execUCpyIn {f : UniBox} (h : KeepsForm s t) : OutKeeps s (execUCpyIn f t) := h.uniBox

protected theorem KeepsForm.execUCpyOut {f : UniBox} (h : KeepsForm s t) : OutKeeps s (execUCpyOut f t) := h.uniBox

/-! ### Global copies (R179) -/

protected theorem KeepsForm.copyIssue {a : Agent} {en : Entry} {act : Mask} {tid q len src dst : Nat} {ctr : Option (Double × Scope)}
    (h : KeepsForm s t) : KeepsForm s (copyIssue t a en act tid q len src dst ctr).s := h.issueCmd id

protected theorem KeepsForm.execCpyG {f : LaneCpyG} (h : KeepsForm s t) : OutKeeps s (execCpyG f t) := by
  unfold execCpyG
  dsimp only
  refine h.laneIssue fun h => ?_
  split
  · exact h.closeFor
  split
  · exact h.closeFor
  · exact h.closeFor.copyIssue

protected theorem KeepsForm.execUCpyG {f : UniCpyG} (h : KeepsForm s t) : OutKeeps s (execUCpyG f t) := by
  unfold execUCpyG
  dsimp only
  refine h.uniIssue fun h => ?_
  split
  · exact h.closeAgent
  · exact h.closeAgent.copyIssue

/-! ### waitc, qfence (R181, R182) -/

protected theorem KeepsForm.readCounter {a : Agent} {addr : Double} (h : KeepsForm s t) : KeepsForm s (readCounter t a addr).2 := by
  unfold readCounter
  split
  · split
    · rename_i e
      exact h.translate.of_pair e
    rename_i e
    exact h.translate.of_pair e
  split
  all_goals
    rename_i e
    have h₁ := h.translate.of_pair e
  · exact h₁
  split
  all_goals
    rename_i e₂
    exact h₁.readHome.of_third e₂

protected theorem KeepsForm.tryWaitc {a : Agent} {en : Entry} {addr : Double} {n : Nat} (h : KeepsForm s t) :
    KeepsForm s (tryWaitc t a en addr n).s := by
  unfold tryWaitc
  split
  all_goals
    rename_i e
    have h₁ := h.readCounter.of_pair e
  · exact h₁
  split
  · exact h₁.dropL1
  · exact h₁

protected theorem KeepsForm.execWaitc {a b : LSrc} {k : BitVec 28} (h : KeepsForm s t) : OutKeeps s (execWaitc a b k t) := by
  unfold execWaitc
  dsimp only
  refine h.laneIssue fun h => ?_
  split
  · exact h
  split
  · exact h
  · exact h.tryWaitc

protected theorem KeepsForm.execUWaitc {a b : USrc} {k : BitVec 28} (h : KeepsForm s t) : OutKeeps s (execUWaitc a b k t) := by
  unfold execUWaitc
  refine h.uniIssue fun h => ?_
  split
  · exact h
  · exact h.tryWaitc

protected theorem KeepsForm.addFence {a : Agent} {m : BitVec 4} (h : KeepsForm s t) : KeepsForm s (addFence t a m) := by
  unfold addFence
  exact h.nextSeq.onCore

protected theorem KeepsForm.execQfence {m : BitVec 4} (h : KeepsForm s t) : OutKeeps s (execQfence m t) := by
  unfold execQfence
  dsimp only
  refine h.laneIssue fun h => ?_
  split
  · exact h.closeFor
  · exact h.closeFor.addFence

protected theorem KeepsForm.execUQfence {m : BitVec 4} (h : KeepsForm s t) : OutKeeps s (execUQfence m t) := by
  unfold execUQfence
  dsimp only
  refine h.uniIssue fun h => ?_
  split
  · exact h.closeAgent
  · exact h.closeAgent.addFence

/-! ### Slath units (13 R314 to R317) -/

protected theorem KeepsForm.execSclaim {i : BitVec 7} {n : BitVec 6} (h : KeepsForm s t) : OutKeeps s (execSclaim i n t) := by
  unfold execSclaim
  dsimp only
  refine h.laneIssue fun h => ?_
  split
  · exact h.closeFor
  split
  · split
    · exact h.closeFor
    · exact h.closeFor.putCore foldl_core_l1
  split
  · exact h.closeFor
  split
  · exact h.closeFor.putCore (grantClaim_l1 ..)
  · exact h.closeFor

protected theorem KeepsForm.execSrel {i : BitVec 7} {n : BitVec 6} (h : KeepsForm s t) : OutKeeps s (execSrel i n t) := by
  unfold execSrel
  refine h.laneIssue fun h => ?_
  split
  · exact h.closeFor
  · exact h.closeFor.issueCmd fun h => h.onCore fun x => markReleasing_l1 x _ _

/-! ### Operand loads (R318, R319) -/

protected theorem KeepsForm.execStkLd {ctr : Option (BitVec 7 × Scope)} {x : BitVec 7} {slot : BitVec 5} {tx : BitVec 8} {n : BitVec 3}
    (h : KeepsForm s t) : OutKeeps s (execStkLd ctr x slot tx n t) := by
  unfold execStkLd
  dsimp only
  refine h.laneIssue fun h => ?_
  split
  · exact h.closeFor
  split
  · exact h.closeFor
  split
  · rename_i e
    exact h.closeFor.issueRec.of_pair e
  rename_i e
  exact (h.closeFor.issueRec.of_pair e).issueCmd .onCore

/-! ### mtile and rim commands (R321 to R326) -/

protected theorem KeepsForm.execMtile {f : LaneMtile} (h : KeepsForm s t) : OutKeeps s (execMtile f t) := by
  unfold execMtile
  dsimp only
  refine h.laneIssue fun h => ?_
  split
  · exact h
  split
  · exact h.closeFor
  · exact h.closeFor.issueCmd .onCore

protected theorem KeepsForm.execRzero {rim : BitVec 3} (h : KeepsForm s t) : OutKeeps s (execRzero rim t) := by
  unfold execRzero
  refine h.laneIssue fun h => ?_
  split
  · exact h.closeFor
  · exact h.closeFor.issueCmd .onCore

protected theorem KeepsForm.laneRim {f : LaneRim} {out : Bool} (h : KeepsForm s t) : OutKeeps s (laneRim f out t) := by
  unfold laneRim
  dsimp only
  refine h.laneIssue fun h => ?_
  split
  · exact h.closeFor
  split
  · exact h.closeFor
  split
  · rename_i e
    exact h.closeFor.issueRec.of_pair e
  rename_i e
  exact (h.closeFor.issueRec.of_pair e).issueCmd (fun h => h.ite h.onCore)

protected theorem KeepsForm.execRimLd {f : LaneRim} (h : KeepsForm s t) : OutKeeps s (execRimLd f t) := h.laneRim

protected theorem KeepsForm.execRimSt {f : LaneRim} (h : KeepsForm s t) : OutKeeps s (execRimSt f t) := h.laneRim

/-! ### termrd (R327) -/

protected theorem KeepsForm.execTermrd {d : BitVec 7} {clr : Bool} {i : BitVec 3} (h : KeepsForm s t) :
    OutKeeps s (execTermrd d clr i t) := by
  unfold execTermrd
  refine h.laneIssue fun h => ?_
  split
  · exact h
  · exact h.counterRead (fun h => (h.onCore.ite h).allPair)

/-! ## The engines at work -/

/-! ### Queues (R177, R182, R183) -/

protected theorem KeepsForm.setHead {c q : Nat} {f : Cmd → Cmd} (h : KeepsForm s t) : KeepsForm s (setHead t c q f) := h.onCore

protected theorem KeepsForm.stopQueue {c q : Nat} {m : Cmd} {cause va : Nat} (h : KeepsForm s t) :
    KeepsForm s (stopQueue t c q m cause va) := by
  unfold stopQueue
  refine .ite ?_ (h.nextSeq.setHead.onCore.ite h.nextSeq.setHead)
  split
  · exact (h.nextSeq.setHead.onCore.ite h.nextSeq.setHead).onLaunch
  · exact h.nextSeq.setHead.onCore.ite h.nextSeq.setHead

/-! ### What an engine works with -/

protected theorem RdKeeps.homeRd {g : Eng} : RdKeeps (homeRd g) := fun {s t va n} h => by
  unfold homeRd
  split
  all_goals
    rename_i e
    have h₁ := h.translate.of_pair e
  · exact h₁
  split
  all_goals
    rename_i e₂
    exact h₁.readHome.of_third e₂

protected theorem RdKeeps.keepRd {g : Eng} : RdKeeps (keepRd g) := fun {s t va n} h => by
  unfold keepRd
  split
  · rename_i e
    exact (RdKeeps.homeRd h).of_pair e |>.onPair
  · rename_i e
    exact (RdKeeps.homeRd h).of_pair e

protected theorem RdKeeps.givenRd {vals : List (Nat × Double)} : RdKeeps (givenRd vals) := fun {s t va n} h => by
  unfold givenRd
  split <;> exact h

protected theorem KeepsForm.giveReads {a : Agent} {pc : Double} (h : KeepsForm s t) : KeepsForm s (giveReads t a pc) := by
  unfold giveReads
  split
  · exact h.ite (h.onPair.ite h.onPair.onPair)
  · exact h

/-- Where a command's reads come from keeps the forms, and so does each read. -/
def SourceKeeps (s : State) : Source → Prop
  | .from_ rd t => RdKeeps rd ∧ KeepsForm s t
  | .wait => True

theorem SourceKeeps.of_eq {x : Source} {rd : Rd} (h : SourceKeeps s x) (e : x = .from_ rd t) : RdKeeps rd ∧ KeepsForm s t := by
  subst e; exact h

protected theorem KeepsForm.sourceOf {g : Eng} (h : KeepsForm s t) : SourceKeeps s (sourceOf t g) := by
  unfold sourceOf
  split
  · exact ⟨RdKeeps.homeRd, h⟩
  split
  · split
    · exact ⟨RdKeeps.givenRd, h.onPair⟩
    · trivial
  split
  · exact ⟨RdKeeps.keepRd, h.onPair⟩
  · trivial

protected theorem KeepsForm.engWrite {g : Eng} {va : Nat} {d bits : List Byte} (h : KeepsForm s t) :
    KeepsForm s (engWrite g t va d bits).2 := by
  unfold engWrite
  split
  · exact h
  split
  all_goals
    rename_i e
    have h₁ := h.translate.of_pair e
  · exact h₁
  split
  · exact h₁.writeHome
  split
  rename_i e₂
  exact (h₁.readHome.of_third e₂).writeHome

protected theorem KeepsForm.counterAdd {g : Eng} (h : KeepsForm s t) : KeepsForm s (counterAdd g t).2 := by
  unfold counterAdd
  split
  · exact h
  split
  · exact h
  split
  all_goals
    rename_i e
    have h₁ := h.translate.of_pair e
  · exact h₁
  split
  · rename_i e₂
    exact h₁.readHome.of_third e₂
  rename_i e₂
  exact (h₁.readHome.of_third e₂).writeHome

protected theorem KeepsForm.completeCmd {g : Eng} (h : KeepsForm s t) : KeepsForm s (completeCmd t g) := by
  unfold completeCmd
  split
  · rename_i e
    exact (h.counterAdd.of_pair e).stopQueue
  rename_i e
  exact (h.counterAdd.of_pair e).giveReads.onCore.dissolve.settleInst

/-- An engine's command keeps the forms where its own effect does. -/
protected theorem KeepsForm.perform {c q : Nat} {ok : CmdOp → Bool} {body : Eng → Rd → State → Except Cause Unit × State} (h : KeepsForm s t)
    (hb : ∀ {g rd u}, KeepsForm s u → RdKeeps rd → KeepsForm s (body g rd u).2) : KeepsForm s (perform t c q ok body) := by
  unfold perform
  split
  · exact h
  refine .ite ?_ h
  dsimp only
  split
  · exact h
  rename_i e
  obtain ⟨hr, hu⟩ := h.sourceOf.of_eq e
  split
  · rename_i e₂
    exact ((hb hu.flushL1 hr).of_pair e₂).stopQueue
  · rename_i e₂
    exact ((hb hu.flushL1 hr).of_pair e₂).completeCmd

/-! ### Packed boxes (R178, 13 R325) -/

protected theorem KeepsForm.readCodes {rd : Rd} {r : TRec} {win : List (Option Nat)} {l : List (List Nat)} (h : KeepsForm s t) (hr : RdKeeps rd) :
    KeepsForm s (readCodes rd r win l t).2 := by
  induction l generalizing t with
  | nil => exact h
  | cons xs rest ih =>
    unfold readCodes
    have h₁ : KeepsForm s (if beyondWindow win xs then (.ok 0, t) else readCode rd r xs t).2 := by
      split
      · exact h
      · exact h.readCode hr
    split
    · rename_i e
      exact h₁.of_pair e
    rename_i e
    have h₂ := ih (h₁.of_pair e)
    split
    all_goals
      rename_i e₂
      exact h₂.of_pair e₂

protected theorem KeepsForm.rowCheck {rd : Rd} {r : TRec} {win : List (Option Nat)} {cs : List (List Nat)} (h : KeepsForm s t)
    (hr : RdKeeps rd) : KeepsForm s (rowCheck rd r win cs t).2 := by
  unfold rowCheck
  split
  · split
    · exact h
    split
    all_goals
      rename_i e
      exact (h.readSide hr).of_pair e
  · exact h

protected theorem KeepsForm.readRows {rd : Rd} {r : TRec} {win : List (Option Nat)} {xs : List Nat} {n : Nat} {l : List Nat} (h : KeepsForm s t)
    (hr : RdKeeps rd) : KeepsForm s (readRows rd r win xs n l t).2 := by
  induction l generalizing t with
  | nil => exact h
  | cons b rest ih =>
    unfold readRows
    split
    · rename_i e
      exact (h.rowCheck hr).of_pair e
    rename_i e
    have h₁ := ((h.rowCheck hr).of_pair e).readCodes (r := r) (win := win) (l := rowCoords xs b n) hr
    split
    · rename_i e₂
      exact h₁.of_pair e₂
    rename_i e₂
    have h₂ := ih (h₁.of_pair e₂)
    split
    all_goals
      rename_i e₃
      exact h₂.of_pair e₃

protected theorem KeepsForm.engElem {g : Eng} {r : TRec} {xs : List Nat} {code : Nat} (h : KeepsForm s t) :
    KeepsForm s (engElem g r xs code t).2 := h.engWrite

protected theorem KeepsForm.writeElems {g : Eng} {r : TRec} {win : List (Option Nat)} {l : List (List Nat × Nat)} (h : KeepsForm s t) :
    KeepsForm s (writeElems g r win l t).2 := by
  induction l generalizing t with
  | nil => exact h
  | cons x rest ih =>
    obtain ⟨xs, code⟩ := x
    unfold writeElems
    have h₁ : KeepsForm s (if beyondWindow win xs then (.ok (), t) else engElem g r xs code t).2 := by
      split
      · exact h
      · exact h.engElem
    split
    · rename_i e
      exact h₁.of_pair e
    · rename_i e
      exact ih (h₁.of_pair e)

protected theorem KeepsForm.execCpyInPerform {core q : Nat} (h : KeepsForm s t) : OutKeeps s (execCpyInPerform core q t) := by
  unfold execCpyInPerform
  refine h.perform fun h hr => ?_
  split
  · split
    all_goals
      rename_i e
      have h₁ := (h.readRows hr).of_pair e
    · exact h₁
    · dsimp only
      exact h₁.onCore
  · exact h

protected theorem KeepsForm.execCpyOutPerform {core q : Nat} (h : KeepsForm s t) : OutKeeps s (execCpyOutPerform core q t) := by
  unfold execCpyOutPerform
  refine h.perform fun h _ => ?_
  split
  · dsimp only
    split
    · exact h
    · exact h.writeElems
  · exact h

protected theorem KeepsForm.copyUnit {g : Eng} {old : State} {src dst i : Nat} (h : KeepsForm s t) :
    KeepsForm s (copyUnit g old t src dst i).2 := by
  unfold copyUnit
  split
  · rename_i e
    exact h.translate.of_pair e
  rename_i e
  split
  rename_i e₂ _
  have h₁ := (h.translate.of_pair e).readHome.of_third e₂
  split
  · exact h₁
  · exact h₁.engWrite

protected theorem KeepsForm.copyUnits {g : Eng} {old : State} {src dst : Nat} {l : List Nat} (h : KeepsForm s t) :
    KeepsForm s (copyUnits g old src dst l t).2 := by
  induction l generalizing t with
  | nil => exact h
  | cons i rest ih =>
    unfold copyUnits
    split
    · rename_i e
      exact h.copyUnit.of_pair e
    · rename_i e
      exact ih (h.copyUnit.of_pair e)

protected theorem KeepsForm.execCpyGPerform {core q : Nat} (h : KeepsForm s t) : OutKeeps s (execCpyGPerform core q t) := by
  unfold execCpyGPerform
  refine h.perform fun h _ => ?_
  split
  · split
    · exact h
    · exact h.copyUnits
  · exact h

/-! ### Operand loads (13 R318) -/

protected theorem KeepsForm.lineScales {rd : Rd} {r : TRec} {xs : List Nat} {line : Nat} {l : List Nat} (h : KeepsForm s t) (hr : RdKeeps rd) :
    KeepsForm s (lineScales rd r xs line l t).2 := by
  induction l generalizing t with
  | nil => exact h
  | cons b rest ih =>
    unfold lineScales
    split
    · rename_i e
      exact (h.readSide hr).of_pair e
    rename_i e
    have h₁ := ih ((h.readSide hr).of_pair e)
    split
    all_goals
      rename_i e₂
      exact h₁.of_pair e₂

protected theorem KeepsForm.lineOutliers {rd : Rd} {r : TRec} {win : List (Option Nat)} {line : Nat} {l : List (Nat × List Nat × Nat)}
    (h : KeepsForm s t) (hr : RdKeeps rd) : KeepsForm s (lineOutliers rd r win line l t).2 := by
  induction l generalizing t with
  | nil => exact h
  | cons x rest ih =>
    obtain ⟨i, xs, code⟩ := x
    unfold lineOutliers
    split
    · split
      · rename_i e
        exact (h.readSide hr).of_pair e
      rename_i e
      have h₁ := fun side => ((h.readSide hr).of_pair e).readOutlier (r := r) (xs := xs) (side := side) hr
      split
      · rename_i e₂
        exact (h₁ _).of_pair e₂
      rename_i e₂
      have h₂ := ih ((h₁ _).of_pair e₂)
      split
      all_goals
        rename_i e₃
        exact h₂.of_pair e₃
    · exact ih h

protected theorem KeepsForm.lineSide {rd : Rd} {r : TRec} {win : List (Option Nat)} {xs : List Nat} {line : Nat} {codes : List Nat}
    (h : KeepsForm s t) (hr : RdKeeps rd) : KeepsForm s (lineSide rd r win xs line codes t).2 := by
  unfold lineSide
  extract_lets n cs head
  have hh : KeepsForm s head.2 := by
    unfold head
    split
    · exact h.lineScales hr
    split
    · split
      all_goals
        rename_i e
        exact (h.readSide hr).of_pair e
    · exact h
  clear_value head
  split
  · exact hh
  split
  all_goals
    rename_i e
    exact (hh.lineOutliers hr).of_pair e

protected theorem KeepsForm.boxSide {rd : Rd} {r : TRec} {win : List (Option Nat)} {xs : List Nat} {l : List (Nat × List Nat)} (h : KeepsForm s t)
    (hr : RdKeeps rd) : KeepsForm s (boxSide rd r win xs l t).2 := by
  induction l generalizing t with
  | nil => exact h
  | cons x rest ih =>
    obtain ⟨line, codes⟩ := x
    unfold boxSide
    split
    · rename_i e
      exact (h.lineSide hr).of_pair e
    rename_i e
    have h₁ := ih ((h.lineSide hr).of_pair e)
    split
    all_goals
      rename_i e₂
      exact h₁.of_pair e₂

protected theorem KeepsForm.boxCodes {rd : Rd} {r : TRec} {win : List (Option Nat)} {xs l : List Nat} (h : KeepsForm s t) (hr : RdKeeps rd) :
    KeepsForm s (boxCodes rd r win xs l t).2 := by
  induction l generalizing t with
  | nil => exact h
  | cons line rest ih =>
    unfold boxCodes
    split
    · rename_i e
      exact (h.readCodes hr).of_pair e
    rename_i e
    have h₁ := ih ((h.readCodes hr).of_pair e)
    split
    all_goals
      rename_i e₂
      exact h₁.of_pair e₂

protected theorem KeepsForm.loadBox {g : Eng} {rd : Rd} {i tx : Nat} {r : TRec} {xs : List Nat} (h : KeepsForm s t) (hr : RdKeeps rd) :
    KeepsForm s (loadBox g rd i tx r xs t).2 := by
  unfold loadBox
  split
  all_goals
    rename_i e
    have h₁ := (h.boxCodes hr).of_pair e
  · exact h₁
  split
  all_goals
    rename_i e₂
    have h₂ := (h₁.boxSide hr).of_pair e₂
  · exact h₂
  split
  · exact h₂
  · dsimp only
    exact h₂.onCore

protected theorem KeepsForm.execStkLdPerform {core : Nat} (h : KeepsForm s t) : OutKeeps s (execStkLdPerform core t) := by
  unfold execStkLdPerform
  refine h.perform fun h hr => ?_
  split
  · exact h.loadBox hr
  · exact h

/-! ### mtile (13 R321 to R323) -/

protected theorem KeepsForm.refill {g : Eng} {rd : Rd} {i : Nat} (h : KeepsForm s t) (hr : RdKeeps rd) :
    KeepsForm s (refill g rd i t).2 := by
  unfold refill
  dsimp only
  split
  · exact h
  split
  · exact h
  split
  all_goals
    rename_i e
    have h₁ := (h.readRec hr).of_pair e
  · exact h₁
  split
  all_goals
    rename_i e₂
    have h₂ := (h₁.boxSide hr).of_pair e₂
  · exact h₂
  · dsimp only
    exact h₂.onCore

protected theorem KeepsForm.startTile {g : Eng} {rd : Rd} {rim sa sb : Nat} (h : KeepsForm s t) (hr : RdKeeps rd) :
    KeepsForm s (startTile t g rd rim sa sb) := by
  unfold startTile
  split
  · rename_i e
    exact ((h.refill hr).of_pair e).stopQueue
  rename_i e
  have h₁ := (h.refill hr).of_pair e
  split
  · rename_i e₂
    exact ((h₁.refill hr).of_pair e₂).stopQueue
  rename_i e₂
  have h₂ := (h₁.refill hr).of_pair e₂
  exact h₂.stopQueue.ite (h₂.setHead.mark.ite h₂.setHead).onCore

protected theorem KeepsForm.execMtileStart {core : Nat} (h : KeepsForm s t) : OutKeeps s (execMtileStart core t) := by
  unfold execMtileStart
  show KeepsForm s _
  split
  · exact h
  split
  · refine h.ite ?_
    have hs : ∀ {p : Prop} {_ : Decidable p} {g}, SourceKeeps s (if p then .from_ (homeRd g) t else sourceOf t g) := fun {p _ g} => by
      split
      · exact ⟨RdKeeps.homeRd, h⟩
      · exact h.sourceOf
    dsimp only
    split
    · exact h
    rename_i e
    obtain ⟨hr, hu⟩ := hs.of_eq e
    exact hu.startTile hr
  · exact h

protected theorem KeepsForm.execMtileComplete {core : Nat} (h : KeepsForm s t) : OutKeeps s (execMtileComplete core t) := by
  unfold execMtileComplete
  split
  · split
    · exact h.onCore.completeCmd.ite h
    · exact h
  · exact h

/-! ### rzero, rim.ld, rim.st, srel (13 R316, R324, R326) -/

protected theorem KeepsForm.execRzeroPerform {core : Nat} (h : KeepsForm s t) : OutKeeps s (execRzeroPerform core t) := by
  unfold execRzeroPerform
  refine h.perform fun h _ => ?_
  split
  · dsimp only
    exact h.onCore
  · exact h

protected theorem KeepsForm.winOne {rd : Rd} {r : TRec} {win : List (Option Nat)} {mode : RMode} {cs : List Nat} (h : KeepsForm s t)
    (hr : RdKeeps rd) : KeepsForm s (winOne rd r win mode cs t).2 := by
  unfold winOne
  split
  · exact h
  split
  all_goals
    rename_i e
    exact (h.readElem hr).of_pair e

protected theorem KeepsForm.winValues {rd : Rd} {r : TRec} {win : List (Option Nat)} {mode : RMode} {xs : List Nat} {l : List (Nat × Nat)}
    (h : KeepsForm s t) (hr : RdKeeps rd) : KeepsForm s (winValues rd r win mode xs l t).2 := by
  induction l generalizing t with
  | nil => exact h
  | cons p rest ih =>
    unfold winValues
    split
    · rename_i e
      exact (h.winOne hr).of_pair e
    rename_i e
    have h₁ := ih ((h.winOne hr).of_pair e)
    split
    all_goals
      rename_i e₂
      exact h₁.of_pair e₂

protected theorem KeepsForm.loadWin {g : Eng} {rd : Rd} {rim : Nat} {r : TRec} {xs : List Nat} {w : RimWin} {mode : RMode} (h : KeepsForm s t)
    (hr : RdKeeps rd) : KeepsForm s (loadWin g rd rim r xs w mode t).2 := by
  unfold loadWin
  split
  all_goals
    rename_i e
    have h₁ := (h.winValues hr).of_pair e
  · exact h₁
  · dsimp only
    exact h₁.onCore

protected theorem KeepsForm.execRimLdPerform {core : Nat} (h : KeepsForm s t) : OutKeeps s (execRimLdPerform core t) := by
  unfold execRimLdPerform
  refine h.perform fun h hr => ?_
  split
  · dsimp only
    split
    · exact h
    split
    · exact h.loadWin hr
    split
    · exact h
    · dsimp only
      exact h.onCore
  · exact h

protected theorem KeepsForm.storeWin {g : Eng} {rim : Nat} {r : TRec} {xs : List Nat} {w : RimWin} {mode : RMode} (h : KeepsForm s t) :
    KeepsForm s (storeWin g rim r xs w mode t).2 := h.writeElems

protected theorem KeepsForm.execRimStPerform {core : Nat} (h : KeepsForm s t) : OutKeeps s (execRimStPerform core t) := by
  unfold execRimStPerform
  refine h.perform fun h _ => ?_
  split
  · dsimp only
    split
    · exact h
    split
    · exact h.storeWin
    · dsimp only
      exact h.onCore
  · exact h

protected theorem KeepsForm.execSrelPerform {core : Nat} (h : KeepsForm s t) : OutKeeps s (execSrelPerform core t) := by
  unfold execSrelPerform
  refine h.perform fun h _ => ?_
  split
  · exact h.onCore fun x => freeUnits_l1 x _ _
  · exact h

/-! ## Nodes (05) -/

/-! ### The checks of a post (R94, R98, R445) -/

protected theorem KeepsForm.waitsOn {vf addr : Nat} (h : KeepsForm s t) : KeepsForm s (waitsOn t vf addr) := h.onVf

protected theorem KeepsForm.waitsNot {vf addr : Nat} (h : KeepsForm s t) : KeepsForm s (waitsNot t vf addr) := h.onVf

protected theorem KeepsForm.refuseNode {vf addr reason : Nat} {tag : Word} (h : KeepsForm s t) :
    KeepsForm s (refuseNode t vf addr reason tag) := h.waitsNot.writeStatus.send

protected theorem KeepsForm.writeLink {vf addr : Nat} {v : Double} (h : KeepsForm s t) : KeepsForm s (writeLink t vf addr v) := h.selfWrite

protected theorem KeepsForm.relink {p : Nat} (h : KeepsForm s t) : KeepsForm s (relink t p) := .foldl h .writeLink

protected theorem KeepsForm.enqueue {p vf addr requeues : Nat} {n : NodeRec} {hd : Option Header} (h : KeepsForm s t) :
    KeepsForm s (enqueue t p vf addr requeues n hd) := h.writeStatus.nextSeq.onPart.relink

protected theorem KeepsForm.makeReady {vf addr p : Nat} {n : NodeRec} {hd : Option Header} (h : KeepsForm s t) :
    KeepsForm s (makeReady t vf addr p n hd) := h.waitsNot.enqueue

protected theorem KeepsForm.leaveQueue {p : Nat} {r : Ready} (h : KeepsForm s t) :
    KeepsForm s (leaveQueue t p r) := h.onPart.writeLink.relink

protected theorem KeepsForm.postNode {vf addr post : Nat} (h : KeepsForm s t) : KeepsForm s (postNode t vf addr post).state := by
  unfold postNode
  split
  · exact h.refuseNode
  split
  · exact h
  split
  · exact h.refuseNode
  split
  · exact h.refuseNode
  split
  · exact h.makeReady
  · exact h.waitsOn.writeStatus

protected theorem KeepsForm.servePost {vf addr post : Nat} (h : KeepsForm s t) : KeepsForm s (servePost t vf addr post) := by
  unfold servePost
  split
  · rename_i e
    exact h.postNode.of_eq e
  · rename_i e
    exact h.postNode.of_eq e
  rename_i e
  exact (h.postNode.of_eq e).send

protected theorem KeepsForm.execNodePost {vf : BitVec 8} {addr : Double} {part : BitVec 5} (h : KeepsForm s t) :
    OutKeeps s (execNodePost vf addr part t) := h.ite (h.onVf.ite h.servePost)

/-! ### Agents that wait at an instruction -/

protected theorem KeepsForm.endWait {a : Agent} {en : Entry} {size : Nat} {ws : List Nat} {gs : Groups} (h : KeepsForm s t) :
    KeepsForm s (endWait t a en size ws gs) := by
  unfold endWait
  split
  · exact h.untag.proceed
  · exact h.steerMove
  · exact h.onCore.handlerMove

/-! ### nodeput (R146) -/

protected theorem KeepsForm.commitEarly {a : Agent} (h : KeepsForm s t) : KeepsForm s (commitEarly t a) := by
  unfold commitEarly
  split
  · exact h.commitStage.ite h
  · exact h

protected theorem KeepsForm.nodeRelease {a : Agent} (h : KeepsForm s t) : KeepsForm s (nodeRelease t a) := h.closeAgent.flushL1.commitEarly

protected theorem KeepsForm.nodeSite {a : Agent} {addr : Double} (h : KeepsForm s t) : KeepsForm s (nodeSite t a addr).2 := by
  unfold nodeSite
  split
  · rename_i e
    exact h.translate.of_pair e
  rename_i e
  split <;> exact h.translate.of_pair e

protected theorem KeepsForm.postCode {r : Posted} (h : KeepsForm s r.state) : KeepsForm s (postCode r).2 := by
  cases r <;> exact h

protected theorem KeepsForm.execNodeput {d : UDst} {x : USrc} (h : KeepsForm s t) : OutKeeps s (execNodeput d x t) := by
  unfold execNodeput
  dsimp only
  refine h.uniIssue fun h => ?_
  split
  · exact h
  split
  all_goals
    rename_i e
    have h₁ := h.nodeSite.of_pair e
  · exact h₁
  split
  · split
    · rename_i e₂
      exact (h₁.nodeRelease.joinOnce.of_eq e₂).writeUDst
    · rename_i e₂
      exact h₁.nodeRelease.joinOnce.of_eq e₂
    · exact h₁.nodeRelease
    · exact h₁.nodeRelease.pairFail
  · exact h₁.nodeRelease

protected theorem KeepsForm.execNodeputDone {a : Agent} (h : KeepsForm s t) : OutKeeps s (execNodeputDone a t) := by
  unfold execNodeputDone
  split
  · split
    rename_i e
    exact (h.postNode.postCode.of_pair e).writeUDst.endWait
  · exact h

/-! ### waitn (R147) -/

protected theorem KeepsForm.readNodeStatus {a : Agent} {addr : Double} (h : KeepsForm s t) : KeepsForm s (readNodeStatus t a addr).2 := by
  unfold readNodeStatus
  split
  all_goals
    rename_i e
    have h₁ := h.nodeSite.of_pair e
  · exact h₁
  split
  all_goals
    rename_i e₂
    exact h₁.readHome.of_third e₂

protected theorem KeepsForm.waitnWrite {a : Agent} {en : Entry} {d : UDst} {n : Nat} (h : KeepsForm s t) :
    KeepsForm s (waitnWrite t a en d n) := (h.dropL1.ite h).writeUDst

protected theorem KeepsForm.tryWaitn {a : Agent} {en : Entry} {d : UDst} {addr : Double} {lim : Nat} (h : KeepsForm s t) :
    KeepsForm s (tryWaitn t a en d addr lim).s := by
  unfold tryWaitn
  split
  · rename_i e
    exact (h.takeValue.of_eq e).waitnWrite
  · exact h
  · exact h.pairFail
  split
  all_goals
    rename_i e
    have h₁ := h.readNodeStatus.of_pair e
  · exact h₁
  split
  · exact h₁.giveValue.waitnWrite
  · exact h₁

protected theorem KeepsForm.execWaitn {d : UDst} {x y : USrc} {k : BitVec 28} (h : KeepsForm s t) : OutKeeps s (execWaitn d x y k t) := by
  unfold execWaitn
  dsimp only
  refine h.uniIssue fun h => ?_
  split
  · exact h
  split
  · rename_i e
    exact h.nodeSite.of_pair e
  rename_i e
  exact (h.nodeSite.of_pair e).commitEarly.tryWaitn

protected theorem KeepsForm.endWaitn {a : Agent} {en : Entry} {d : UDst} {n : Nat} (h : KeepsForm s t) :
    KeepsForm s (endWaitn t a en d n) := h.giveValue.waitnWrite.endWait

protected theorem KeepsForm.execWaitnComplete {a : Agent} (h : KeepsForm s t) : OutKeeps s (execWaitnComplete a t) := by
  unfold execWaitnComplete
  split
  · split
    · rename_i e
      exact (h.readNodeStatus.of_pair e).endWait
    rename_i e
    have h₁ := h.readNodeStatus.of_pair e
    exact h₁.endWaitn.ite h₁
  · exact h

protected theorem KeepsForm.execWaitnLimit {a : Agent} (h : KeepsForm s t) : OutKeeps s (execWaitnLimit a t) := by
  unfold execWaitnLimit
  split
  · split
    · split
      · rename_i e
        exact (h.readNodeStatus.of_pair e).endWait
      rename_i e
      exact (h.readNodeStatus.of_pair e).endWaitn
    · exact h
  · exact h

/-! ### Completion (R96, R446) -/

protected theorem KeepsForm.wakeNode {vf addr post : Nat} {lsn : Double} (h : KeepsForm s t) :
    KeepsForm s (wakeNode t vf addr post lsn) := by
  unfold wakeNode
  split
  · exact h.refuseNode
  split
  · exact h.waitsNot.record
  split
  · exact h.refuseNode
  · exact h.makeReady

protected theorem KeepsForm.serveSucc {vf post list : Nat} {lsn : Double} (h : KeepsForm s t) :
    KeepsForm s (serveSucc t vf post list lsn).1 := by
  unfold serveSucc
  dsimp only
  split
  · exact h.record
  split
  · exact h.record
  · exact h
  · exact h.selfWrite.wakeNode.ite h.selfWrite

protected theorem KeepsForm.serveSuccs {vf post : Nat} {lsn : Double} {l : List Nat} (h : KeepsForm s t) :
    KeepsForm s (serveSuccs vf post lsn l t).1 := by
  induction l generalizing t with
  | nil => exact h
  | cons a r ih => exact ih h.serveSucc

protected theorem KeepsForm.finishNode {vf addr part : Nat} {n : NodeRec} {lsn : Double} (h : KeepsForm s t) :
    KeepsForm s (finishNode t vf addr part n lsn) := by
  have h₁ := h.writeStatus (vf := vf) (addr := addr) (status := 3)
    |>.serveSuccs (vf := vf) (post := part) (lsn := lsn) (l := (List.range n.nsucc).map fun i => (n.succ + 8 * i) % 2 ^ 64)
  exact (h₁.ite h₁.record).send.ite (h₁.ite h₁.record)

protected theorem KeepsForm.execKernelNodeComplete {serial : Nat} (h : KeepsForm s t) : OutKeeps s (execKernelNodeComplete serial t) := by
  unfold execKernelNodeComplete
  split
  · exact h
  · exact .ite (.finishNode (.frame (.commitStage (.foldl h .flushL1)))) h

/-! ## Admission -/

/-! ### Start states (R59, R85) -/

protected theorem KeepsForm.addStageWeave {c i role : Nat} (h : KeepsForm s t) : KeepsForm s (addStageWeave t c i role) := by
  unfold addStageWeave
  split
  · exact h
  split
  · exact h
  split
  · exact h.putCore.onInst.joinCircle
  · exact h

protected theorem KeepsForm.startInst {c : Nat} {l : Launch} {num : Nat} {trailing : Bool} (h : KeepsForm s t) :
    KeepsForm s (startInst t c l num trailing).1 := .foldl h.nextSeq.putInst .addStageWeave

/-! ### The two copies of a pair (20 R401) -/

protected theorem KeepsForm.linkCopy {c i d j : Nat} (h : KeepsForm s t) : KeepsForm s (linkCopy t c i d j) := by
  unfold linkCopy
  refine .onInst (.onPair (.foldl h fun h => ?_))
  split
  · exact h.onPair
  · exact h

protected theorem KeepsForm.linkCopies {c i c' i' : Nat} (h : KeepsForm s t) : KeepsForm s (linkCopies t c i c' i') := h.linkCopy.linkCopy

protected theorem KeepsForm.startAcquire {c : Nat} (h : KeepsForm s t) : KeepsForm s (startAcquire t c) := h.dropL1.onCore

protected theorem KeepsForm.startOn {l : Launch} {num : Nat} {cs : List Nat} (h : KeepsForm s t) : KeepsForm s (startOn t l num cs) := by
  unfold startOn
  split
  · exact h.startAcquire.startInst
  · split
    rename_i e
    have h₁ := h.startAcquire.startInst.of_fst e
    split
    rename_i e₂
    exact (h₁.startAcquire.startInst.of_fst e₂).linkCopies
  · exact h

/-! ### The queue's order (R99, R101) -/

protected theorem KeepsForm.noteFit {p : Nat} {cs : List Cand} (h : KeepsForm s t) : KeepsForm s (noteFit t p cs) := by
  unfold noteFit
  split
  · exact h
  refine h.onPart fun x => ?_
  split
  · rfl
  split
  · split <;> rfl
  · rfl

/-! ### Dispatch and admission (R101) -/

protected theorem KeepsForm.dispatchNode {p seq : Nat} {hd : Header} (h : KeepsForm s t) : KeepsForm s (dispatchNode t p seq hd) := by
  unfold dispatchNode
  split
  · exact h
  · exact h.writeStatus.leaveQueue.frame.markPart

protected theorem KeepsForm.admitInst {serial : Nat} {cs : List Nat} (h : KeepsForm s t) : KeepsForm s (admitInst t serial cs) := by
  unfold admitInst
  split
  · exact h
  · exact h.startOn.onLaunch

protected theorem KeepsForm.admitCand {p : Nat} {c : Cand} {cs : List Nat} (h : KeepsForm s t) : KeepsForm s (admitCand t p c cs) := by
  unfold admitCand
  split
  · exact h.admitInst
  split
  · exact h.dispatchNode.admitInst
  · exact h

protected theorem KeepsForm.execInstanceAdmit {part : Nat} (h : KeepsForm s t) : OutKeeps s (execInstanceAdmit part t) := by
  unfold execInstanceAdmit
  dsimp only
  split
  · exact h.noteFit
  split
  · exact h.noteFit.admitCand.ite h.noteFit
  · exact h.noteFit

protected theorem KeepsForm.execAdmissionStarvation {part : Nat} (h : KeepsForm s t) : OutKeeps s (execAdmissionStarvation part t) := by
  unfold execAdmissionStarvation
  split
  · exact h.onPart.ite h
  · exact h

protected theorem KeepsForm.execNodeAging {part : Nat} (h : KeepsForm s t) : OutKeeps s (execNodeAging part t) := h.ite h.onPart.markPart

/-! ### Further weaves (R83, R105) -/

protected theorem KeepsForm.execWeaveAdmit {core inst role : Nat} (h : KeepsForm s t) : OutKeeps s (execWeaveAdmit core inst role t) := by
  unfold execWeaveAdmit
  split
  · split
    · exact h.addStageWeave
    split
    · exact h
    · exact h.addStageWeave.addStageWeave.linkCopies.ite h
  · exact h

/-! ### The balancer (R104) -/

protected theorem KeepsForm.execBalancerSample {core : Nat} (h : KeepsForm s t) : OutKeeps s (execBalancerSample core t) := h.onCore.ite h

protected theorem KeepsForm.takeTurn {c k : Nat} {w : Weave} (h : KeepsForm s t) : KeepsForm s (takeTurn t c k w) := h.onCore

/-! ## Yield and readmission -/

/-! ### The state saved (R112, R115, R152) -/

protected theorem KeepsForm.settleAgents {c i : Nat} (h : KeepsForm s t) : KeepsForm s (settleAgents t c i) := by
  unfold settleAgents
  refine .foldl h.drainAll.commitAgent fun h => ?_
  dsimp only
  split
  · exact h.drainAll.commitAgent
  · exact h.drainAll.commitAgent.onCore fun x => untagAll_l1 x _

protected theorem KeepsForm.takeOff {c i : Nat} {f : Weave → Weave} (h : KeepsForm s t) : KeepsForm s (takeOff t c i f) := by
  unfold takeOff
  dsimp only
  split
  · exact h.settleAgents.flushL1.onCore
  · exact h.settleAgents.flushL1.onCore.removeInst.onLaunch

protected theorem KeepsForm.writeSaveArea {l : Launch} {num : Nat} (h : KeepsForm s t) :
    KeepsForm s (writeSaveArea t l num) := .ite h (.foldl h .selfWrite)

protected theorem KeepsForm.withSaveArea {c i : Nat} {f : State → State} (h : KeepsForm s t) (hf : ∀ {u}, KeepsForm s u → KeepsForm s (f u)) :
    KeepsForm s (withSaveArea t c i f) := by
  unfold withSaveArea
  split
  · exact (hf h).writeSaveArea
  · exact hf h

protected theorem KeepsForm.yieldInst {c i : Nat} (h : KeepsForm s t) :
    KeepsForm s (yieldInst t c i) := h.withSaveArea (fun h => .foldl h .takeOff)

/-! ### The demand for a yield (R102, R114) -/

protected theorem KeepsForm.endGroups {c i : Nat} (h : KeepsForm s t) :
    KeepsForm s (endGroups t c i) := .foldl h fun h => .foldl h.onPair .onPair

protected theorem KeepsForm.execInstanceYield {core inst : Nat} (h : KeepsForm s t) : OutKeeps s (execInstanceYield core inst t) := by
  unfold execInstanceYield
  split
  · split
    · exact h.yieldInst
    split
    · exact h.endGroups.ite h
    · exact h
  · exact h

protected theorem KeepsForm.execYieldComplete {core slot : Nat} (h : KeepsForm s t) : OutKeeps s (execYieldComplete core slot t) := by
  unfold execYieldComplete
  split
  · exact (h.proceed.onWeave.yieldInst.ite h.proceed.onWeave).ite h
  · exact h

/-! ### Readmission (R113, R122) -/

protected theorem KeepsForm.placeSaved {c i : Nat} {ws : List Weave} (h : KeepsForm s t) :
    KeepsForm s (placeSaved t c i ws).1 := h.foldl_fst fun h => h.putCore.spillDown

protected theorem KeepsForm.reissue {c i : Nat} {ks : List Nat} {m : Nat × Cmd} (h : KeepsForm s t) : KeepsForm s (reissue c i ks t m) := by
  unfold reissue
  exact h.nextSeq.onCore

protected theorem KeepsForm.refence {c i : Nat} {f : QFence} (h : KeepsForm s t) : KeepsForm s (refence c i t f) := by
  unfold refence
  exact h.nextSeq.onCore

protected theorem KeepsForm.reissueAll {c i : Nat} {ks : List Nat} {v : Saved} (h : KeepsForm s t) :
    KeepsForm s (reissueAll c i ks t v) := .foldl h fun h => .foldl (.foldl h .refence) .reissue

protected theorem KeepsForm.putBack {c : Nat} {v : Saved} (h : KeepsForm s t) : KeepsForm s (putBack t c v).1 :=
  h.startAcquire.putInst.placeSaved.onInst.onCore.reissueAll

protected theorem KeepsForm.putBackAll {vs : List Saved} {cs : List Nat} (h : KeepsForm s t) : KeepsForm s (putBackAll t vs cs) := by
  unfold putBackAll
  split
  · exact h.putBack
  · split
    rename_i e
    have h₁ := h.putBack.of_eq e
    split
    rename_i e₂
    exact (h₁.putBack.of_eq e₂).linkCopies
  · exact h

protected theorem KeepsForm.execInstanceReadmit {part : Nat} (h : KeepsForm s t) : OutKeeps s (execInstanceReadmit part t) := by
  unfold execInstanceReadmit
  dsimp only
  split
  · exact h.noteFit
  split
  · exact h.noteFit.ite h.noteFit.onLaunch.putBackAll
  · exact h.noteFit

/-! ## System instructions -/

/-! ### rdcnt (R386; 17 R368; 22 R424) -/

protected theorem KeepsForm.uniCounter {a : Agent} {e : Entry} {own : Double} {f : State → Double → Done} (h : KeepsForm s t)
    (hf : ∀ {u x}, KeepsForm s u → KeepsForm s (f u x).s) : KeepsForm s (uniCounter t a e own f).s := by
  unfold uniCounter
  split
  · exact hf h.giveValue
  · rename_i e
    exact hf (h.takeValue.of_eq e)
  · exact h
  · exact h.pairFail

protected theorem KeepsForm.execRdcnt {d : BitVec 6} {x : USrc} (h : KeepsForm s t) : OutKeeps s (execRdcnt d x t) := by
  unfold execRdcnt
  refine h.uniIssue fun h => ?_
  split
  · exact h
  · exact h.uniCounter .putFile

/-! ### Control registers (R379 to R381) -/

protected theorem KeepsForm.execCsrr {d : UDst} {n : BitVec 12} (h : KeepsForm s t) : OutKeeps s (execCsrr d n t) := by
  unfold execCsrr
  refine h.uniIssue fun h => ?_
  split
  · exact h
  split
  · exact h
  split
  · exact h
  · exact h.writeUDst

protected theorem KeepsForm.execCsrw {x : USrc} {n : BitVec 12} (h : KeepsForm s t) : OutKeeps s (execCsrw x n t) := by
  unfold execCsrw
  refine h.uniIssue fun h => ?_
  split
  · exact h
  split
  · exact h
  split
  · exact h
  split
  · exact h
  split
  · exact h
  · exact h.onVf.moved

/-! ### The parked entry (R382 to R385) -/

protected theorem KeepsForm.fgetWrite {a : Agent} {en : Entry} {d : UDst} {wide : Bool} {v : Double} (h : KeepsForm s t) :
    KeepsForm s (fgetWrite t a en d wide v).s := h.writeUDst

protected theorem KeepsForm.fgetField {d : UDst} {wide : Bool} {f : Entry → Double} (h : KeepsForm s t) :
    OutKeeps s (fgetField t d wide f) := by
  unfold fgetField
  refine h.uniIssue fun h => ?_
  split
  · exact h
  · exact h.fgetWrite

protected theorem KeepsForm.execFgetPc {d : BitVec 6} (h : KeepsForm s t) : OutKeeps s (execFgetPc d t) := h.fgetField

protected theorem KeepsForm.execFgetMask {d : UDst} (h : KeepsForm s t) : OutKeeps s (execFgetMask d t) := h.fgetField

protected theorem KeepsForm.execFgetPrio {d : UDst} (h : KeepsForm s t) : OutKeeps s (execFgetPrio d t) := h.fgetField

protected theorem KeepsForm.execFgetReg {d : UDst} {tn : BitVec 5} {r : BitVec 7} (h : KeepsForm s t) :
    OutKeeps s (execFgetReg d tn r t) := by
  unfold execFgetReg
  refine h.uniIssue fun h => ?_
  split
  · exact h
  split
  · exact h
  split
  · exact h
  · exact h.commitAgent.fgetWrite

protected theorem KeepsForm.onServed {c k : Nat} {f : Entry → Entry} (h : KeepsForm s t) : KeepsForm s (onServed t c k f) := h.onWeave

protected theorem KeepsForm.execFsetPc {x : USrc} (h : KeepsForm s t) : OutKeeps s (execFsetPc x t) := by
  unfold execFsetPc
  refine h.uniIssue fun h => ?_
  split
  · exact h
  · exact h
  split
  · exact h.onServed
  · exact h.onInst
  · exact h

protected theorem KeepsForm.clearWeave {c k : Nat} {keep : Mask} (h : KeepsForm s t) : KeepsForm s (clearWeave t c k keep) := by
  unfold clearWeave
  split
  · exact h
  · exact h.putWeave.settleBarriers.settleWeave

protected theorem KeepsForm.dropCommand {c q : Nat} {d : Delivery} (h : KeepsForm s t) : KeepsForm s (dropCommand t c q d) := by
  unfold dropCommand
  split
  · exact h
  · refine .settleInst (.dissolve (h.onCore fun x => ?_))
    exact dropLoad_l1 x _

protected theorem KeepsForm.execFsetMask {x : USrc} (h : KeepsForm s t) : OutKeeps s (execFsetMask x t) := by
  unfold execFsetMask
  dsimp only
  refine h.uniIssue fun h => ?_
  split
  · exact h
  · exact h
  split
  · exact h.clearWeave
  · split
    · exact h.endSteer
    · exact h
  split
  · exact h.dropCommand
  · exact h

protected theorem KeepsForm.regWrite {a : Agent} {tn r : Nat} {v : Word} (h : KeepsForm s t) : KeepsForm s (regWrite t a tn r v) := by
  unfold regWrite
  split
  · exact h.onWeave.untag
  · exact h.putFile

protected theorem KeepsForm.execFsetReg {x : USrc} {tn : BitVec 5} {r : BitVec 7} (h : KeepsForm s t) :
    OutKeeps s (execFsetReg x tn r t) := by
  unfold execFsetReg
  refine h.uniIssue fun h => ?_
  split
  · exact h
  · exact h
  split
  · exact h
  split
  · exact h
  · exact h.commitAgent.regWrite

protected theorem KeepsForm.execRft (h : KeepsForm s t) : OutKeeps s (execRft t) := h.uniIssue .endDelivery

/-! ### Shootdowns (R387; 17 R365) -/

protected theorem KeepsForm.addShoot {vf va pages : Nat} {sc : Scope} {core : Option Nat} (h : KeepsForm s t) :
    KeepsForm s (addShoot t vf va pages sc core).1 := h.nextSeq.frame

protected theorem KeepsForm.execXlinv {x y : USrc} {sc : Scope} (h : KeepsForm s t) : OutKeeps s (execXlinv x y sc t) := by
  unfold execXlinv
  dsimp only
  refine h.uniIssue fun h => ?_
  split
  · exact h
  split
  · exact h
  · exact h.addShoot

/-! ### The injector's fields (R389) -/

protected theorem KeepsForm.injset {f : Nat} {wide : Bool} {x : USrc} (h : KeepsForm s t) : OutKeeps s (injset f wide x t) := by
  unfold injset
  dsimp only
  refine h.uniIssue fun h => ?_
  split
  · exact h
  split
  · exact h
  split
  · exact h
  · exact h.onPart.moved

protected theorem KeepsForm.execInjsetSeed {x : USrc} (h : KeepsForm s t) : OutKeeps s (execInjsetSeed x t) := h.injset

protected theorem KeepsForm.execInjsetRate {x : USrc} (h : KeepsForm s t) : OutKeeps s (execInjsetRate x t) := h.injset

protected theorem KeepsForm.execInjsetClasses {x : USrc} (h : KeepsForm s t) : OutKeeps s (execInjsetClasses x t) := h.injset

protected theorem KeepsForm.execInjsetShot {x : USrc} (h : KeepsForm s t) : OutKeeps s (execInjsetShot x t) := h.injset

protected theorem KeepsForm.execInjsetArm {x : USrc} (h : KeepsForm s t) : OutKeeps s (execInjsetArm x t) := h.injset

/-! ### Checkpoints (R388; 20 R407) -/

protected theorem KeepsForm.execCkpt (h : KeepsForm s t) : OutKeeps s (execCkpt t) := by
  unfold execCkpt
  dsimp only
  refine h.uniIssue fun h => ?_
  split
  · split
    · exact h.closeFor
    split
    · exact h.closeFor
    split
    · exact h.closeFor.onWeave.onPair.moved
    split
    · exact h.closeFor
    · exact h.closeFor.onPair.waits
  · exact h

/-! ### Emulation calls (23 R429) -/

protected theorem KeepsForm.callSites {a : Agent} {e : Entry} {i b : Nat} {l : List (Nat × MemW × Double)} (h : KeepsForm s t) :
    KeepsForm s (callSites t a e i b l).2 := by
  induction l generalizing t with
  | nil => exact h
  | cons x r ih =>
    unfold callSites
    dsimp only
    split
    all_goals
      rename_i e₁
      exact (ih h.storeSite).of_pair e₁

protected theorem KeepsForm.callAll {a : Agent} {e : Entry} {l : List (Nat × Nat × Except Nat (List (Nat × MemW × Double)))} (h : KeepsForm s t) :
    KeepsForm s (callAll a e t l).2 := by
  induction l generalizing t with
  | nil => exact h
  | cons x r ih =>
    obtain ⟨i, b, _ | st⟩ := x
    · exact ih h
    · exact ih h.callSites

protected theorem KeepsForm.argWord {c vf : Nat} {en : Entry} {x : Bool} (h : KeepsForm s t) : KeepsForm s (argWord t c vf en x).2 := by
  unfold argWord
  split
  · exact h.fetchWord
  · exact h

protected theorem KeepsForm.execCalle {r : BitVec 7} {off : BitVec 14} {x : Bool} {orig : BitVec 21} (h : KeepsForm s t) :
    OutKeeps s (execCalle r off x orig t) := by
  unfold execCalle
  dsimp only
  refine h.laneIssue fun h => ?_
  split
  · exact h
  split
  · exact h
  split
  all_goals
    rename_i e
    have h₁ := h.argWord.of_pair e
  · exact h₁
  · exact .onWeave (.ite (h₁.callAll.ite h₁.callAll.closeFor)
      (.foldl (h₁.callAll.ite h₁.callAll.closeFor) fun h => h.onWeave.ite h.enterFor))

protected theorem KeepsForm.readBacks {a : Agent} {e : Entry} {act : Mask} {areas : List (Nat × Nat)} (h : KeepsForm s t) :
    KeepsForm s ((readBacks t a e act areas).state t) := by
  unfold readBacks
  split
  · exact h.loadGlobals.loadGlobals.ite h.loadGlobals.loadGlobals.giveValue
  · rename_i e
    exact h.takeValue.of_eq e
  · exact h
  · exact h

protected theorem KeepsForm.execCalleRet {r : BitVec 7} (h : KeepsForm s t) : OutKeeps s (execCalleRet r t) := by
  unfold execCalleRet
  dsimp only
  refine h.laneIssue fun h => ?_
  split
  · exact h
  split
  · exact h
  · exact h.pairFail
  rename_i e
  exact (h.readBacks.of_eq e).onWeave

/-! ## The ends of waits -/

/-! ### exitto (R76) -/

protected theorem KeepsForm.leaveAll {c k : Nat} {w : Weave} (h : KeepsForm s t) :
    KeepsForm s (leaveAll t c k w) := .dissolve (.onWeave (.foldl h fun h => h.leaveCircle.settleBarriers))

protected theorem KeepsForm.restartEntry {c vf : Nat} {en : SuccEnt} {m : Mask} (h : KeepsForm s t) :
    KeepsForm s (restartEntry t c vf en m).1 := by
  unfold restartEntry
  split
  · exact h.nextSeq
  · exact h

protected theorem KeepsForm.restartWeave {c k : Nat} {w : Weave} {e : SuccEnt} {m : Mask} (h : KeepsForm s t) :
    KeepsForm s (restartWeave t c k w e m) := by
  unfold restartWeave
  refine .settleBarriers (.joinCircle (.closeStages (.onCore h.drainAll.leaveAll.untag.restartEntry.onWeave fun x => ?_)))
  dsimp only
  split <;> rfl

protected theorem KeepsForm.execWeaveRestart {core slot : Nat} (h : KeepsForm s t) : OutKeeps s (execWeaveRestart core slot t) := by
  unfold execWeaveRestart
  split
  · exact h
  split
  · split
    · exact h.commitAgent.restartWeave.ite h
    · exact h
  · exact h

/-! ### rcb, sleep -/

protected theorem KeepsForm.execRcbRelease {core slot : Nat} (h : KeepsForm s t) : OutKeeps s (execRcbRelease core slot t) := by
  unfold execRcbRelease
  split
  · exact h.proceed
  · exact h

protected theorem KeepsForm.execSleepExpire {core slot : Nat} (h : KeepsForm s t) : OutKeeps s (execSleepExpire core slot t) := by
  unfold execSleepExpire
  split
  · exact h.proceed
  · exact h

/-! ### Waits on circle memory, circles, registers, slots -/

protected theorem KeepsForm.wakeAlone {a : Agent} {en : Entry} {r : FeLoad} (h : KeepsForm s t) : KeepsForm s (wakeAlone t a en r) := by
  unfold wakeAlone
  dsimp only
  split
  · exact h.endWait
  · exact (h.onCore.ite h).logOwn.flyUni.endWait

protected theorem KeepsForm.execFeLoadWake {core slot : Nat} (h : KeepsForm s t) : OutKeeps s (execFeLoadWake core slot t) := by
  unfold execFeLoadWake
  dsimp only [OutKeeps]
  split
  · split
    · split
      · exact h.performFe.proceed
      · exact h
    · exact h
  · split
    · exact h.wakeAlone.ite h
    · exact h

protected theorem KeepsForm.execJoinGrant {core slot : Nat} (h : KeepsForm s t) : OutKeeps s (execJoinGrant core slot t) := by
  unfold execJoinGrant
  split
  · split
    · exact h
    split
    · exact h
    · exact h.proceed
    · exact h.grantJoin.proceed
  · exact h

protected theorem KeepsForm.execScopeGrant {core : Nat} (h : KeepsForm s t) : OutKeeps s (execScopeGrant core t) := by
  unfold execScopeGrant
  split
  · exact h
  split
  · exact h.proceed.ite (h.grantScope.proceed.ite h)
  · exact h

protected theorem KeepsForm.execSclaimGrant {core : Nat} (h : KeepsForm s t) : OutKeeps s (execSclaimGrant core t) := by
  unfold execSclaimGrant
  split
  · split
    · exact h.proceed.ite (h.putCore (grantClaim_l1 ..)).proceed
    · exact h
  · exact h

/-! ### Decisions and wales (R84, R86) -/

protected theorem KeepsForm.execDpushAppend {core k : Nat} (h : KeepsForm s t) : OutKeeps s (execDpushAppend core k t) := by
  unfold execDpushAppend
  split
  · exact h.ite h.appendDecision.endWait
  · exact h

protected theorem KeepsForm.execDpopTake {core slot : Nat} (h : KeepsForm s t) : OutKeeps s (execDpopTake core slot t) := by
  unfold execDpopTake
  split
  · split
    · exact h.takeDecision.proceed.ite h
    · exact h
  · exact h

protected theorem KeepsForm.execWpushAppend {core slot : Nat} (h : KeepsForm s t) : OutKeeps s (execWpushAppend core slot t) := by
  unfold execWpushAppend
  split
  · exact h.pushWale.proceed.ite h
  · exact h

protected theorem KeepsForm.execWpopTake {core slot : Nat} (h : KeepsForm s t) : OutKeeps s (execWpopTake core slot t) := by
  unfold execWpopTake
  split
  · split
    · exact h
    · exact h.performPop.proceed.ite h
  · exact h

/-! ### waitc -/

protected theorem KeepsForm.execWaitcComplete {a : Agent} (h : KeepsForm s t) : OutKeeps s (execWaitcComplete a t) := by
  unfold execWaitcComplete
  split
  · split
    · rename_i e
      exact (h.readCounter.of_pair e).endWait
    rename_i e
    have h₁ := h.readCounter.of_pair e
    exact h₁.dropL1.endWait.ite h₁
  · exact h

/-! ### Results, stores, lines, epochs -/

protected theorem KeepsForm.execMemoryResultArrive {a : Agent} (h : KeepsForm s t) : OutKeeps s (execMemoryResultArrive a t) := by
  unfold execMemoryResultArrive
  split
  · exact h.onWeave
  · exact h.onInst
  · refine h.onCore fun x => ?_
    split <;> rfl

protected theorem KeepsForm.execStoreQueueDrain {a : Agent} (h : KeepsForm s t) : OutKeeps s (execStoreQueueDrain a t) := h.drainOne

protected theorem KeepsForm.execL1Eviction {core line : Nat} (h : KeepsForm s t) :
    OutKeeps s (execL1Eviction core line t) := h.leaveL1.ite h.dropLine

protected theorem KeepsForm.execValueStoreEpochFlush {core : Nat} (h : KeepsForm s t) :
    OutKeeps s (execValueStoreEpochFlush core t) := h.onCore.ite h

/-! ### Deliveries and words that are no instruction -/

protected theorem KeepsForm.execTrapDelivery {core : Nat} (h : KeepsForm s t) : OutKeeps s (execTrapDelivery core t) := h.takeDelivery

protected theorem KeepsForm.execWordNotInstruction (h : KeepsForm s t) : OutKeeps s (execWordNotInstruction t) := by
  unfold execWordNotInstruction
  split
  · trivial
  · exact h.begin.parkAgent

/-! ### Containment (20 R397) -/

protected theorem KeepsForm.recordPoisons {l : Launch} {action : Nat} (h : KeepsForm s t) :
    KeepsForm s (recordPoisons t l action) := .foldl h .record

protected theorem KeepsForm.requeueNode {l : Launch} (h : KeepsForm s t) :
    KeepsForm s (requeueNode t l) := .enqueue (.frame (.foldl h.removeLaunch .onVf))

protected theorem KeepsForm.execPoisonContainment {serial : Nat} (h : KeepsForm s t) : OutKeeps s (execPoisonContainment serial t) := by
  unfold execPoisonContainment
  split
  · exact h
  split
  · exact h
  · exact h.recordPoisons.requeueNode.ite h.recordPoisons.failLaunch

/-! ## Performed groups of a pair -/

/-! ### Results of a performed member for both copies (R402) -/

/-- What a member gives to an agent is written without touching memory or caches. -/
def GivenKeeps (g : Given) : Prop := ∀ {s t : State} {a : Agent} {e : Entry}, KeepsForm s t → KeepsForm s (g.write t a e).1

protected theorem KeepsForm.handResult {num : Nat} {g : Given} {a : Agent} (h : KeepsForm s t) (hg : GivenKeeps g) :
    KeepsForm s (handResult num g t a) := by
  unfold handResult
  split
  · exact h
  dsimp only
  split
  · exact (hg h.onPair).untag.endWait
  · exact (hg h.onPair).endWait

protected theorem KeepsForm.writeGiven {a : Agent} {en : Entry} {dst : FeDst} {wide : Bool} {vals : List (Nat × Double)}
    (h : KeepsForm s t) : KeepsForm s (writeGiven t a en dst wide vals) := by
  unfold writeGiven
  split
  · exact h.writeUDst
  split
  · exact h.onWeave
  · exact h

/-! ### The release of a group (R405) -/

theorem givenKeeps_atomGiven {q : AtomQ} {dst : FeDst} {l : Loaded} : GivenKeeps (atomGiven q dst l) := fun {s t a e} h => by
  unfold atomGiven
  dsimp only
  split
  · exact h
  · exact h.writeGiven

theorem givenKeeps_allocGiven {uni trap : Bool} {d p : Nat} {l : List (Nat × Served)} : GivenKeeps (allocGiven uni trap d p l) :=
  fun {s t a e} h => by
  unfold allocGiven
  dsimp only
  split
  · split
    · exact h.putFile
    · exact h
  split
  · exact h.onWeave
  · exact h

theorem givenKeeps_nodeGiven {d : UDst} {v : Double} : GivenKeeps (nodeGiven d v) := fun h => h.writeUDst

protected theorem KeepsForm.queueStore {a : Agent} {r : StoreReq} (h : KeepsForm s t) : KeepsForm s (queueStore t a r) := h.setQueue

protected theorem KeepsForm.releaseCmd {c q seq : Nat} (h : KeepsForm s t) : KeepsForm s (releaseCmd t c q seq) := h.onCore

protected theorem KeepsForm.performAtom {a : Agent} {op : AtomOp} {q : AtomQ} {items : List (Nat × Nat × Double × Double)} (h : KeepsForm s t) :
    KeepsForm s (performAtom t a op q items).2 := by
  refine .ite (.acquireAt ?_) ?_
  all_goals exact (h.drainAll.releaseAt.ite h.drainAll).atomAll

protected theorem KeepsForm.passFence {num : Nat} {a : Agent} (h : KeepsForm s t) : KeepsForm s (passFence num t a) := by
  unfold passFence
  split
  · exact h
  · exact h.endWait

protected theorem KeepsForm.performOp {num : Nat} {a b : Agent} {op : PairOp} (h : KeepsForm s t) :
    KeepsForm s (performOp num a b t op) := by
  have both : ∀ {g u}, GivenKeeps g → KeepsForm s u → KeepsForm s (handResult num g (handResult num g u a) b) :=
    fun hg h => (h.handResult hg).handResult hg
  cases op with
  | stores r => exact h.queueStore
  | atom o q dst items => exact (both givenKeeps_atomGiven h.performAtom).ite h.performAtom
  | alloc uni trap d p sizes => exact both givenKeeps_allocGiven h.drainAll.allocAll.dropL1.dropL1
  | free addrs => exact h.drainAll.flushL1.freeAll
  | command q seq => exact h.drainAll.releaseCmd
  | nodeput d addr => exact both givenKeeps_nodeGiven h.drainAll.flushL1.postNode.postCode
  | fence k sc => exact (h.drainAll.fenceAct.acquireAt.ite h.drainAll.fenceAct).passFence.passFence
  | checkpoint => exact h

protected theorem KeepsForm.dropGroup {a b : Agent} (h : KeepsForm s t) : KeepsForm s (dropGroup t a b) := h.onPair.onPair

/-! ### Rollback (R406, R409) -/

protected theorem KeepsForm.rollBack {n : Nat} {a : Agent} (h : KeepsForm s t) : KeepsForm s (rollBack n t a) := by
  unfold rollBack
  split
  · exact h
  split
  · split
    · exact h
    · exact h.onCore fun x => untagAll_l1 x _
  · exact h.onInst
  · exact h

protected theorem KeepsForm.mismatchAt {n : Nat} {a b : Agent} {p q : Pair} (h : KeepsForm s t) :
    KeepsForm s (mismatchAt t n a b p q) := h.record.rollBack.rollBack.ite h.record.pairFail

protected theorem KeepsForm.settleCopy {a : Agent} (h : KeepsForm s t) : KeepsForm s (settleCopy t a) := by
  unfold settleCopy
  split
  · exact h.settleWeave
  · exact h.settleInst
  · exact h

protected theorem KeepsForm.execPairCompare {core slot : Nat} (h : KeepsForm s t) : OutKeeps s (execPairCompare core slot t) := by
  unfold execPairCompare
  split
  · exact h
  split
  · exact .ite h (.ite (.settleCopy (.settleCopy (.foldl h.dropGroup .performOp))) h.mismatchAt)
  · exact h

protected theorem KeepsForm.execPairedExitRelease {core slot : Nat} (h : KeepsForm s t) :
    OutKeeps s (execPairedExitRelease core slot t) := by
  unfold execPairedExitRelease
  split
  · exact h.proceed.ite h
  · exact h.settleWeave
  · exact h

/-! ### Checkpoints (R407) -/

protected theorem KeepsForm.passCkpt {c k c' k' : Nat} {e e' : Entry} {f : Weave → Weave} (h : KeepsForm s t) :
    KeepsForm s (passCkpt t c k c' k' e e' f) := h.onWeave.proceed.onWeave.proceed

protected theorem KeepsForm.execCkptRecord {core slot : Nat} (h : KeepsForm s t) : OutKeeps s (execCkptRecord core slot t) := by
  unfold execCkptRecord
  dsimp only [OutKeeps]
  split
  · split
    · split
      · exact h
      split
      · exact h.mismatchAt
      split
      · exact h
      split
      · exact .onPair (.onPair (.passCkpt h))
      · exact .passCkpt h
    · exact h
  · exact h

/-! ## Freeze and resume -/

/-! ### The freeze (R115, R116) -/

protected theorem KeepsForm.finishTile {c i : Nat} (h : KeepsForm s t) : KeepsForm s (finishTile t c i) := by
  unfold finishTile
  split
  · split
    · exact h.onCore.completeCmd.ite h
    · exact h
  · exact h

protected theorem KeepsForm.freezeCopy {c i : Nat} {keepTrailing : Bool} (h : KeepsForm s t) :
    KeepsForm s (freezeCopy t c i keepTrailing) := by
  unfold freezeCopy
  dsimp only
  split
  · exact h.finishTile
  · exact h.finishTile.removeInst.ite h.finishTile.takeOff

/-! ### Payloads -/

protected theorem KeepsForm.clearDirty {m : Image} (h : KeepsForm s t) : KeepsForm s (clearDirty t m) := h.frame

protected theorem KeepsForm.freezeLaunch {l : Launch} {dest : Nat} {base : Option Nat} (h : KeepsForm s t) :
    KeepsForm s (freezeLaunch t l dest base) := by
  unfold freezeLaunch
  extract_lets u₁ u₂ u₃
  have h₁ : KeepsForm s u₃ := .foldl (.foldl (h.commitStage.ite h) .freezeCopy) .flushL1
  clear_value u₃
  split
  · exact h₁
  refine h₁.onLaunch.send.ite ?_
  split
  · exact h₁.onLaunch.send
  · split
    rename_i e
    extract_lets m v
    have hv : KeepsForm s v := (h₁.nextSeq.of_pair e).clearDirty
    exact hv.frame.writeStatus.send

protected theorem KeepsForm.execFreeze {lsn dest : Nat} {base : Option Nat} (h : KeepsForm s t) :
    OutKeeps s (execFreeze lsn dest base t) := by
  unfold execFreeze
  split
  · exact h
  · exact .ite h.send (.ite h.freezeLaunch (.ite (.foldl h .endGroups) h))

/-! ### Resume (R120 to R122) -/

/-- A part of memory written anew: what stood there is dropped, and the cells are set one by one. -/
protected theorem KeepsForm.putCells {cells : List Host.Cell} {p : Nat → Bool} {k : Nat → Nat} {bad dirty : List Nat} (h : KeepsForm s t) :
    KeepsForm s { t with mem := cells.foldl (fun m c => sset memBlank m (k c.1) c.2) (skeep t.mem p), bad := bad, dirty := dirty } := by
  refine h.memory fun hm => ?_
  have h₁ : memWf (skeep t.mem p) = true := canonical_skeep memBlank t.mem p hm
  generalize skeep t.mem p = x at h₁
  induction cells generalizing x with
  | nil => exact h₁
  | cons c r ih => exact ih _ (canonical_sset memBlank x _ _ h₁)

protected theorem KeepsForm.writePartAt {p : ImgPage} {i : Nat} {r : Except Nat Leaf} (h : KeepsForm s t) :
    KeepsForm s (writePartAt t p i r) := by
  cases r with
  | error e => exact h
  | ok l =>
    unfold writePartAt
    exact .putCells (k := fun o => leafKey t l (p.leaf.va + 4096 * i) + (o - 4096 * i)) (.foldl h .scrubGranule)

protected theorem KeepsForm.writePart {vf : Nat} {p : ImgPage} {i : Nat} (h : KeepsForm s t) :
    KeepsForm s (writePart t vf p i) := h.writePartAt

protected theorem KeepsForm.writePage {vf : Nat} {p : ImgPage} (h : KeepsForm s t) :
    KeepsForm s (writePage vf t p) := .ite h (.foldl h .writePart)

protected theorem KeepsForm.placeWindows {vf serial : Nat} {l : List Saved} (h : KeepsForm s t) :
    KeepsForm s (placeWindows vf serial l t).2 := by
  induction l generalizing t with
  | nil => exact h
  | cons v r ih => exact ih h.nextSeq

protected theorem KeepsForm.resumeLaunch {vf : Nat} {m : Image} {p : Nat} (h : KeepsForm s t) : KeepsForm s (resumeLaunch t vf m p) := by
  have h₁ : KeepsForm s (m.pages.foldl (writePage vf) t) := .foldl h .writePage
  exact h₁.placeWindows.nextSeq.frame.onVf.writeStatus

protected theorem KeepsForm.tryResume {vf id : Nat} (h : KeepsForm s t) : KeepsForm s (tryResume t vf id) := by
  unfold tryResume
  split
  · exact h
  split
  · exact h.resumeLaunch.send.ite h.send
  · exact h.send

protected theorem KeepsForm.execResume {image : Nat} {vf : BitVec 8} (h : KeepsForm s t) :
    OutKeeps s (execResume image vf t) := h.onVf.ite (h.ite h.tryResume)

/-! ### One frozen alone (R114; 17 R347, R357) -/

protected theorem KeepsForm.execRevokeFreezeTimeout {core inst : Nat} (h : KeepsForm s t) :
    OutKeeps s (execRevokeFreezeTimeout core inst t) := ((h.withSaveArea (fun h => .foldl h .freezeCopy)).ite h.endGroups).ite h

/-! ## Requests from outside -/

/-! ### Who can be reached (20 R413; 01 R20) -/

protected theorem KeepsForm.answer {status : Nat} {v : Double} (h : KeepsForm s t) : KeepsForm s (answer t status v) := h.send

/-! ### Host accesses (R364, R371) -/

protected theorem KeepsForm.writePieces {vf base : Nat} {d : List Byte} {ps : List (Nat × Nat)} (h : KeepsForm s t) :
    KeepsForm s (writePieces t vf base d ps) := by
  unfold writePieces
  refine h.foldl fun h => ?_
  split
  · exact h.writeMem
  · exact h

protected theorem KeepsForm.execRmaWrite {vf : BitVec 8} {addr : Double} {data : List Byte} (h : KeepsForm s t) :
    OutKeeps s (execRmaWrite vf addr data t) := h.ite (h.send.ite (h.onVf.send.send.ite h.writePieces.send))

protected theorem KeepsForm.execRmaRead {vf : BitVec 8} {addr : Double} {n : Nat} (h : KeepsForm s t) :
    OutKeeps s (execRmaRead vf addr n t) := by
  unfold execRmaRead
  split
  · exact h
  · split <;> exact h.send

protected theorem KeepsForm.execRmaAtomic {vf : BitVec 8} {addr : Double} (h : KeepsForm s t) :
    OutKeeps s (execRmaAtomic vf addr t) := h.send.ite h

protected theorem KeepsForm.execWriteTrapAck {vf : BitVec 8} (h : KeepsForm s t) :
    OutKeeps s (execWriteTrapAck vf t) := .ite h (.ite (.foldl h.onVf .servePost) h.onVf)

/-! ### Accesses from another Fjolar (08 R203; 17 R371) -/

protected theorem KeepsForm.execRemoteAccess {dev : BitVec 8} {phys : Nat} {op : RemoteOp} (h : KeepsForm s t) :
    OutKeeps s (execRemoteAccess dev phys op t) := by
  unfold execRemoteAccess
  dsimp only
  split
  · exact h
  split
  · exact h.send
  split
  · exact h.send.ite h.send
  · exact h.writeMem.send
  · exact h.send.ite h.writeMem.send

/-! ### Granules (R353) -/

protected theorem KeepsForm.execGranuleTakeBack {granule : Nat} (h : KeepsForm s t) :
    OutKeeps s (execGranuleTakeBack granule t) := h.frame.dropGranule.ite h

protected theorem KeepsForm.execBackgroundScrub {granule : Nat} (h : KeepsForm s t) :
    OutKeeps s (execBackgroundScrub granule t) := h.scrubGranule

/-! ### Shootdowns (R365) -/

protected theorem KeepsForm.execShootdownMessage {vf : BitVec 8} {addr : Double} {pages : Nat} {sc : Scope} (h : KeepsForm s t) :
    OutKeeps s (execShootdownMessage vf addr pages sc t) := h.addShoot.ite h

protected theorem KeepsForm.shootDrop {x : Shoot} (h : KeepsForm s t) : KeepsForm s (shootDrop t x) := by
  unfold shootDrop
  refine .mapParts (.mapCores h ?_ ?_) ?_ ?_
  all_goals
    intro e
    split
  all_goals simp

protected theorem KeepsForm.shootLines {hd : Shoot} (h : KeepsForm s t) :
    KeepsForm s (shootLines t hd) := .foldl (.foldl h fun h => h.dropCore.ite h) fun h => h.dropPart.ite h

protected theorem KeepsForm.shootAck {hd : Shoot} (h : KeepsForm s t) : KeepsForm s (shootAck t hd) := by
  unfold shootAck
  dsimp only
  split
  · exact h.send
  split
  · exact h.dropL1.endWait
  · exact h.dropL1

protected theorem KeepsForm.execShootdownComplete {id : Nat} (h : KeepsForm s t) : OutKeeps s (execShootdownComplete id t) := by
  unfold execShootdownComplete
  split
  · exact h
  · exact h.frame.shootDrop.shootLines.shootAck.ite h

/-! ### Counters (R368, R369) -/

protected theorem KeepsForm.execCounterLowRead {vf : BitVec 8} {core : Nat} {num : BitVec 12} (h : KeepsForm s t) :
    OutKeeps s (execCounterLowRead vf core num t) := h.onVf.answer.ite h

protected theorem KeepsForm.execCounterHighRead {vf : BitVec 8} (h : KeepsForm s t) :
    OutKeeps s (execCounterHighRead vf t) := h.answer.ite h

/-! ### Attestation (R373, R374) -/

protected theorem KeepsForm.execAttestationRequest {vf : Option (BitVec 8)} {nonce : BitVec 256} (h : KeepsForm s t) :
    OutKeeps s (execAttestationRequest vf nonce t) := h.send.ite h

protected theorem KeepsForm.execTrustListInstall {key : List Byte} (h : KeepsForm s t) :
    OutKeeps s (execTrustListInstall key t) := h.frame.ite h

/-! ### Trace messages, sampling, watchpoints (22 R419 to R423), packets (17 R370) -/

protected theorem KeepsForm.execTraceMessageSend {part : Nat} (h : KeepsForm s t) : OutKeeps s (execTraceMessageSend part t) := by
  unfold execTraceMessageSend
  split
  · exact h.onPart.send.ite h
  · exact h

protected theorem KeepsForm.execSamplingExponentWrite {vf : BitVec 8} {k : Nat} (h : KeepsForm s t) :
    OutKeeps s (execSamplingExponentWrite vf k t) := h.ite (h.onVf.answer.ite h.answer)

protected theorem KeepsForm.execWatchpointWrite {vf : BitVec 8} {k : BitVec 2} {w : Watch} (h : KeepsForm s t) :
    OutKeeps s (execWatchpointWrite vf k w t) := h.ite (h.onVf.answer.ite h.answer)

protected theorem KeepsForm.execUnimplementedModePacket {port : Nat} (h : KeepsForm s t) :
    OutKeeps s (execUnimplementedModePacket port t) := h.mark.ite h

/-! ## Management -/

/-! ### Clocks (01 R14, R21, R22; 20 R412) -/

protected theorem KeepsForm.retime (h : KeepsForm s t) : KeepsForm s (retime t) := .foldl h.frame .onCore

/-! ### The scrub (R351) -/

protected theorem KeepsForm.scrubCore {c : Nat} (h : KeepsForm s t) : KeepsForm s (scrubCore t c) :=
  h.flushL1.onL1 fun _ _ => linesOk_nil

protected theorem KeepsForm.demandAll {c : Nat} (h : KeepsForm s t) : KeepsForm s (demandAll t c) := h.onCore

/-! ### Held writes of cores masks (R350) -/

protected theorem KeepsForm.applyMasks {v : Nat} {l : List (BitVec 16)} (h : KeepsForm s t) : KeepsForm s (applyMasks t v l) := by
  unfold applyMasks
  exact .onVf (.foldl h .scrubCore)

protected theorem KeepsForm.tryMasks {v : Nat} (h : KeepsForm s t) : KeepsForm s (tryMasks t v) := by
  unfold tryMasks
  split
  · exact h.applyMasks.ite h
  · exact h

protected theorem KeepsForm.settleMasks (h : KeepsForm s t) : KeepsForm s (settleMasks t) := .foldl (.foldl h .tryMasks) .tryMasks

protected theorem KeepsForm.writeMasks {v : Nat} {l : List (BitVec 16)} (h : KeepsForm s t) :
    KeepsForm s (writeMasks t v l) := .settleMasks (.onVf (.foldl h .demandAll))

/-! ### Revocation (R347) -/

protected theorem KeepsForm.startRevoke {c : Nat} (h : KeepsForm s t) : KeepsForm s (startRevoke t c) := by
  unfold startRevoke
  split
  · exact h.ite h.onCore.demandAll
  · exact h

protected theorem KeepsForm.execRevoke {core : Nat} (h : KeepsForm s t) : OutKeeps s (execRevoke core t) := h.startRevoke

protected theorem KeepsForm.execCoreScrub {core : Nat} (h : KeepsForm s t) : OutKeeps s (execCoreScrub core t) := by
  unfold execCoreScrub
  dsimp only
  split
  · exact h
  split
  · exact h.scrubCore.onCore.settleMasks.ite h
  · exact h.scrubCore.settleMasks.ite h

/-! ### Lending (R346) -/

protected theorem KeepsForm.execCoreLend {core part : Nat} (h : KeepsForm s t) : OutKeeps s (execCoreLend core part t) := by
  unfold execCoreLend
  split
  · split
    · exact h.scrubCore.onCore.ite h
    · exact h
  · exact h

/-! ### Partition configuration (R344, R345) -/

protected theorem KeepsForm.lowerReady {p : Nat} (h : KeepsForm s t) : KeepsForm s (lowerReady t p) := h.onPart

protected theorem KeepsForm.takeConfig {p : Nat} {v : Double} (h : KeepsForm s t) :
    KeepsForm s (takeConfig t p v) :=
  .lowerReady (.ite (.foldl (.ite (.foldl h.onPart .startRevoke) h.onPart) .startRevoke) (.ite (.foldl h.onPart .startRevoke) h.onPart))

protected theorem KeepsForm.writeConfig {p : Nat} {v : Double} (h : KeepsForm s t) :
    KeepsForm s (writeConfig t p v) := h.answer.ite (h.answer.ite h.takeConfig.answer)

protected theorem KeepsForm.execPartitionConfigWrite {part : Nat} {value : Double} (h : KeepsForm s t) :
    OutKeeps s (execPartitionConfigWrite part value t) := h.writeConfig.ite h

/-! ### Virtual function records (R348) -/

protected theorem KeepsForm.execVfRecordWrite {vf : BitVec 8} {w : VfWrite} (h : KeepsForm s t) :
    OutKeeps s (execVfRecordWrite vf w t) := by
  unfold execVfRecordWrite
  dsimp only
  split
  · exact h
  split
  · exact h.answer
  split
  · exact h.onVf.writeMasks.answer
  · exact h.onVf.answer

protected theorem KeepsForm.writeState {v st : Nat} (h : KeepsForm s t) :
    KeepsForm s (writeState t v st) := h.answer.ite (h.answer.ite h.onVf.answer)

protected theorem KeepsForm.setState {v st : Nat} (h : KeepsForm s t) :
    KeepsForm s (setState t v st) := .ite (.foldl h.writeState .tryResume) h.writeState

protected theorem KeepsForm.execVfStateWrite {vf : BitVec 8} {st : Byte} (h : KeepsForm s t) :
    OutKeeps s (execVfStateWrite vf st t) := h.setState.ite h

protected theorem KeepsForm.writeHeap {v : Nat} {heap : Option Double} {size : Option Word} (h : KeepsForm s t) :
    KeepsForm s (writeHeap t v heap size) := h.answer.ite h.onVf.answer

protected theorem KeepsForm.execHeapWrite {vf : BitVec 8} {heap : Option Double} {heapsz : Option Word} (h : KeepsForm s t) :
    OutKeeps s (execHeapWrite vf heap heapsz t) := h.writeHeap.ite h

protected theorem KeepsForm.writeScope {v : Nat} {x : Byte} (h : KeepsForm s t) : KeepsForm s (writeScope t v x) := h.onVf.answer

protected theorem KeepsForm.execScopePolicyWrite {vf : BitVec 8} {v : Byte} (h : KeepsForm s t) :
    OutKeeps s (execScopePolicyWrite vf v t) := h.writeScope.ite h

protected theorem KeepsForm.execMgmtRegisterWrite {vf : BitVec 8} {part : Nat} {num : BitVec 12} {value : Double} (h : KeepsForm s t) :
    OutKeeps s (execMgmtRegisterWrite vf part num value t) :=
  h.ite <| h.onVf.answer.ite <| h.writeScope.ite <| h.writeHeap.ite <| h.writeHeap.ite <| h.setState.ite <| h.writeConfig.ite <|
    h.onVf.answer.ite <| h.onVf.answer.ite <| (h.answer.ite h.onVf.answer).ite <| (h.answer.ite h.onPart.answer).ite h.answer

/-! ### Retirement (R356 to R359) -/

protected theorem KeepsForm.capacityNotice {p elem : Nat} (h : KeepsForm s t) : KeepsForm s (capacityNotice t p elem) := h.record.send

protected theorem KeepsForm.setConfigBit {p i : Nat} {b : Bool} (h : KeepsForm s t) : KeepsForm s (setConfigBit t p i b) := h.onPart

protected theorem KeepsForm.reown {c : Nat} {repl : Option Nat} (h : KeepsForm s t) : KeepsForm s (reown t c repl) := by
  unfold reown
  split
  · exact h
  split
  · exact h.writeMasks
  split
  · exact (h.ite h.writeMasks).writeMasks
  · exact h.writeMasks

protected theorem KeepsForm.retireCore {c : Nat} (h : KeepsForm s t) : KeepsForm s (retireCore t c) := by
  unfold retireCore
  dsimp only
  split
  · exact h.onCore.startRevoke.demandAll.setConfigBit.reown.capacityNotice
  split
  · split
    · exact h.onCore.startRevoke.demandAll.startRevoke.setConfigBit.setConfigBit.setConfigBit.reown.capacityNotice
    · exact h.onCore.startRevoke.demandAll.setConfigBit.reown.capacityNotice
  · exact h.onCore.startRevoke.demandAll.reown.capacityNotice

protected theorem KeepsForm.loseChannel {p chan : Nat} {spare : Bool} (h : KeepsForm s t) :
    KeepsForm s (loseChannel t p chan spare) := h.onPart

protected theorem KeepsForm.shrinkGuarantee {p : Nat} (h : KeepsForm s t) : KeepsForm s (shrinkGuarantee t p) := h.onPart

protected theorem KeepsForm.execChannelRetire {part chan : Nat} (h : KeepsForm s t) :
    OutKeeps s (execChannelRetire part chan t) := h.ite (h.loseChannel.shrinkGuarantee.ite h.loseChannel).capacityNotice

/-! ## Errors -/

/-! ### Where an error strikes (R395) -/

protected theorem KeepsForm.corrected {c : Nat} (h : KeepsForm s t) : KeepsForm s (corrected t c) := h.onCore

protected theorem KeepsForm.dropClean {c : Nat} (h : KeepsForm s t) : KeepsForm s (dropClean t c) :=
  .onL2 (h.onL1 fun _ hx => linesOk_filter hx _) fun _ hx => linesOk_filter hx _

protected theorem KeepsForm.strikeLine {c line : Nat} (h : KeepsForm s t) : KeepsForm s (strikeLine t c line) := by
  have hit : ∀ {l : Sparse Line}, linesOk l →
      linesOk (l.map fun e => if e.1 = line && e.2.dirty != 0#64 then (e.1, { e.2 with bad := true }) else e) := fun hl =>
    linesOk_map hl _ (fun _ => by split <;> rfl) fun _ => by split <;> rfl
  exact (h.onL1 fun _ hx => hit hx).ite (h.onL2 fun _ hx => hit hx)

protected theorem KeepsForm.strike {site : ErrorSite} (h : KeepsForm s t) : KeepsForm s (strike t site) := by
  cases site with
  | vreg => exact h.onWeave
  | sreg => exact h.onCore fun x => strikeS_l1 x _ _
  | circle => exact h.onCore fun x => strikeCircle_l1 x _ _ _ _
  | latch | stake | rim | valueStore =>
    unfold strike
    exact h.onCore
  | ownerEntry | link => exact h.notePoison
  | cleanLine => exact h.dropClean.corrected
  | dirtyLine => exact h.strikeLine
  | memory => exact h.poisonUnit
  | port => exact h

protected theorem KeepsForm.execSoftError {site : ErrorSite} {correctable : Bool} (h : KeepsForm s t) :
    OutKeeps s (execSoftError site correctable t) := by
  unfold execSoftError
  split
  · split
    · exact h.mark
    split
    · exact h.corrected
    · exact h
  · exact h.strike

/-! ### The injector (R411) -/

protected theorem KeepsForm.flipResult {site : ErrorSite} {bit : Nat} (h : KeepsForm s t) : KeepsForm s (flipResult t site bit) := by
  unfold flipResult
  split
  · exact h.onWeave
  · exact h

protected theorem KeepsForm.inject {cls : Nat} {site : ErrorSite} {bit : Nat} (h : KeepsForm s t) :
    KeepsForm s (inject t cls site bit) := by
  unfold inject
  split
  · exact h.flipResult
  split
  · exact h.mark
  split
  · split
    · exact h.corrected
    · exact h
  · exact h.strike

protected theorem KeepsForm.fire {p cls : Nat} {site : ErrorSite} (h : KeepsForm s t) :
    KeepsForm s (fire t p cls site) := h.onPart.record.inject

protected theorem KeepsForm.execInjectorFire {part : Nat} {cls : BitVec 5} {site : ErrorSite} (h : KeepsForm s t) :
    OutKeeps s (execInjectorFire part cls site t) := by
  unfold execInjectorFire
  dsimp only [OutKeeps]
  split
  · split
    · exact h.onPart.fire
    · exact h.onPart
  · exact h

/-! ### Marginal cores (R412) -/

protected theorem KeepsForm.setBin {c b : Nat} (h : KeepsForm s t) : KeepsForm s (setBin t c b) := h.onCore.record

protected theorem KeepsForm.execCoreErrorWindow {core : Nat} (h : KeepsForm s t) :
    OutKeeps s (execCoreErrorWindow core t) := h.ite (h.onCore.ite (h.onCore.retireCore.ite h.onCore.onCore.setBin.startRevoke.demandAll))

protected theorem KeepsForm.execPatternTestDone {core : Nat} {pass : Bool} (h : KeepsForm s t) :
    OutKeeps s (execPatternTestDone core pass t) := (h.scrubCore.onCore.ite h.scrubCore.retireCore).ite h

protected theorem KeepsForm.execErrorThresholdWrite {n : Nat} (h : KeepsForm s t) :
    OutKeeps s (execErrorThresholdWrite n t) := h.ite (h.frame.answer.ite h.answer)

protected theorem KeepsForm.execCoreBinReset {core : Nat} (h : KeepsForm s t) :
    OutKeeps s (execCoreBinReset core t) := h.onCore.answer.ite h

/-! ## Starts and stops -/

/-! ### The start (20 R413) -/

protected theorem KeepsForm.failStart {stage code : Nat} {element : Half} (h : KeepsForm s t) :
    KeepsForm s (failStart t stage code element) := h.frame.record

protected theorem KeepsForm.startSets (h : KeepsForm s t) : KeepsForm s (startSets t) := .foldl h fun h => h.setConfigBit.setConfigBit.ite h

protected theorem KeepsForm.bringUp {ps : List Nat} {phase : Phase} (h : KeepsForm s t) : KeepsForm s (bringUp t ps phase) := by
  refine .startSets (h.trans ⟨id, fun _ => ⟨fun c => ?_, fun p => ?_⟩⟩)
  · refine sget_of_forall (P := fun x : Core => linesOk x.l1) linesOk_nil fun e he => ?_
    obtain ⟨_, _, rfl⟩ := List.mem_map.mp he
    exact linesOk_nil
  · refine sget_of_forall (P := fun x : Part => linesOk x.l2) linesOk_nil fun e he => ?_
    obtain ⟨_, _, rfl⟩ := List.mem_map.mp he
    exact linesOk_nil

protected theorem KeepsForm.execStart {power : PowerOn} {stageOk : List Nat} {element : Half} (h : KeepsForm s t) :
    OutKeeps s (execStart power stageOk element t) := by
  unfold execStart
  dsimp only
  split
  · exact h
  split
  · exact h.failStart
  split
  · exact h.failStart
  · exact h.bringUp.ite h.bringUp

protected theorem KeepsForm.execStartWatchdogExpire (h : KeepsForm s t) : OutKeeps s (execStartWatchdogExpire t) := h.failStart.ite h

protected theorem KeepsForm.execFirmwareLoad {digest : BitVec 512} {sig : List Byte} (h : KeepsForm s t) :
    OutKeeps s (execFirmwareLoad digest sig t) := by
  unfold execFirmwareLoad
  split
  · exact h.ite (h.frame.answer.ite h.answer)
  · exact h

protected theorem KeepsForm.execFullStartRequest (h : KeepsForm s t) : OutKeeps s (execFullStartRequest t) := by
  unfold execFullStartRequest
  split
  · exact h.frame.ite h
  · exact h

/-! ### Stops of all partitions (01 R20, R21) -/

protected theorem KeepsForm.stopAll (h : KeepsForm s t) : KeepsForm s (stopAll t) := by
  unfold stopAll
  extract_lets v
  have hv : KeepsForm s v := .foldl h fun h => h.record.failLaunch
  exact .frame (hv.mapParts (f := fun e => (e.1, { e.2 with up := false })) (fun _ => rfl) fun _ he => he)

protected theorem KeepsForm.execUndervoltageStop (h : KeepsForm s t) : OutKeeps s (execUndervoltageStop t) := h.stopAll.ite h

protected theorem KeepsForm.execInputBelow40v (h : KeepsForm s t) : OutKeeps s (execInputBelow40v t) := h.frame

/-! ### Coolant and power (01 R14, R21, R22) -/

protected theorem KeepsForm.thermalTo {mhz : Nat} (h : KeepsForm s t) : KeepsForm s (thermalTo t mhz) := h.frame.retime

protected theorem KeepsForm.execThermalStep {temp : Int} (h : KeepsForm s t) :
    OutKeeps s (execThermalStep temp t) := h.ite (h.stopAll.ite (h.ite (h.thermalTo.mark.ite (h.thermalTo.ite h))))

protected theorem KeepsForm.execPowerCapWindow {watts : Nat} (h : KeepsForm s t) :
    OutKeeps s (execPowerCapWindow watts t) :=
  h.ite ((h.frame.frame.retime.mark.ite h.frame.frame).ite (h.frame.frame.ite (h.frame.frame.retime.ite h.frame)))

protected theorem KeepsForm.execSetPowerCap {watts : Nat} (h : KeepsForm s t) :
    OutKeeps s (execSetPowerCap watts t) := h.ite (h.frame.answer.ite h.answer)

/-! ## Tile nodes -/

protected theorem KeepsForm.tileLoad {g : Eng} {tn : Tile} {un tx : Nat} {xs : List Nat} (h : KeepsForm s t) :
    KeepsForm s (tileLoad g tn un tx xs t).2 := by
  unfold tileLoad
  split
  all_goals
    rename_i e
    have h₁ := (h.readRec RdKeeps.homeRd).of_pair e
  · exact h₁
  split
  · exact h₁
  · exact h₁.onCore.loadBox RdKeeps.homeRd

protected theorem KeepsForm.tileProduct {g : Eng} {x : Tile} {sa sb rim kt : Nat} (h : KeepsForm s t) :
    KeepsForm s (tileProduct g x sa sb rim kt t).2 := by
  unfold tileProduct
  split
  all_goals
    rename_i e
    have h₁ := h.tileLoad.of_pair e
  · exact h₁
  split
  all_goals
    rename_i e₂
    have h₂ := h₁.tileLoad.of_pair e₂
  · exact h₂
  split
  · exact h₂
  · dsimp only
    exact h₂.onCore

protected theorem KeepsForm.tileSteps {g : Eng} {x : Tile} {sa sb rim n kt : Nat} (h : KeepsForm s t) :
    KeepsForm s (tileSteps g x sa sb rim n kt t).2 := by
  induction n generalizing t kt with
  | zero => exact h
  | succ n ih =>
    unfold tileSteps
    split
    · rename_i e
      exact h.tileProduct.of_pair e
    · rename_i e
      exact ih (h.tileProduct.of_pair e)

protected theorem KeepsForm.tileFirst {g : Eng} {x : Tile} {rim : Nat} (h : KeepsForm s t) : KeepsForm s (tileFirst g x rim t).2 := by
  unfold tileFirst
  dsimp only
  split
  · dsimp only
    exact h.onCore
  split
  all_goals
    rename_i e
    have h₁ := (h.readRec RdKeeps.homeRd).of_pair e
  · exact h₁
  split
  · exact h₁
  · exact h₁.loadWin RdKeeps.homeRd

protected theorem KeepsForm.tileLast {g : Eng} {tn : Tile} {rim : Nat} (h : KeepsForm s t) : KeepsForm s (tileLast g tn rim t).2 := by
  unfold tileLast
  dsimp only
  split
  all_goals
    rename_i e
    have h₁ := (h.readRec RdKeeps.homeRd).of_pair e
  · exact h₁
  split
  · exact h₁
  · exact h₁.storeWin

protected theorem KeepsForm.tileRun {g : Eng} {tn : Tile} {sa sb rim : Nat} (h : KeepsForm s t) :
    KeepsForm s (tileRun g tn sa sb rim t).2 := by
  unfold tileRun
  split
  all_goals
    rename_i e
    have h₁ := h.tileFirst.of_pair e
  · exact h₁
  split
  · rename_i e₂
    exact h₁.tileSteps.of_pair e₂
  rename_i e₂
  exact (h₁.tileSteps.of_pair e₂).tileLast

/-! ### How it ends -/

protected theorem KeepsForm.tileFree {c a b r : Nat} (h : KeepsForm s t) : KeepsForm s (tileFree t c a b r) :=
  h.onCore fun x => by simp

protected theorem KeepsForm.tileFail {r : Ready} {lsn reason cause : Nat} (h : KeepsForm s t) :
    KeepsForm s (tileFail t r lsn reason cause) := h.writeStatus.send

protected theorem KeepsForm.tilePoison {p : Nat} {r : Ready} {c lsn : Nat} (h : KeepsForm s t) :
    KeepsForm s (tilePoison t p r c lsn) := h.record.enqueue.ite h.record.tileFail

protected theorem KeepsForm.tileBegin {p : Nat} {r : Ready} {c rim : Nat} (h : KeepsForm s t) : KeepsForm s (tileBegin t p r c rim) := by
  unfold tileBegin
  extract_lets u v
  have hv : KeepsForm s v := h.writeStatus.leaveQueue.onCore
  exact hv.frame.markPart

protected theorem KeepsForm.runTile {p : Nat} {r : Ready} {c a b rim : Nat} (h : KeepsForm s t) :
    KeepsForm s (runTile t p r c a b rim) := by
  unfold runTile
  extract_lets lsn u
  have hu : KeepsForm s u := h.tileBegin
  split
  · rename_i e
    exact (hu.tileRun.of_pair e).finishNode.tileFree
  · rename_i e
    extract_lets v
    have hv : KeepsForm s v := hu.frame.ite (hu.tileRun.of_pair e)
    exact hv.tileFree.tilePoison.ite hv.tileFree.tileFail

protected theorem KeepsForm.execTileNodeRun {part : Nat} (h : KeepsForm s t) : OutKeeps s (execTileNodeRun part t) := by
  unfold execTileNodeRun
  split
  · exact h
  split
  · exact h
  · exact h.runTile

/-! ## Every instruction and event -/

protected theorem KeepsForm.exec {i : Instr} (h : KeepsForm s t) : OutKeeps s (exec i t) := by
  cases i with
  | add32 | sub32 | mul32 | mulhiN32 | mulhiI32 | idivN32 | idivI32 | remN32 | remI32 | addSatN32 | addSatI32 | subSatN32 | subSatI32
  | minN32 | minI32 | maxN32 | maxI32 | andB32 | orB32 | xorB32 | andnB32 | shlB32 | shrB32 | sarB32 | add64 | sub64 | mul64 | idivN64
  | idivI64 | andB64 | orB64 | xorB64 | shlB64 | shrB64 | sarB64 | cmpN32 | cmpI32 | cmpN64 | cmpI64 | plog | faddF32 | fsubF32 | fmulF32
  | fminF32 | fmaxF32 | fcmpF32 | fdivF32 | fsqrtF32 | faddF64 | fsubF64 | fmulF64 | fminF64 | fmaxF64 | fcmpF64 | fdivF64 | fsqrtF64
  | popcB32 | clzB32 | brevB32 | movB32 | movB64 | fclassF32 | fclassF64 | add32X | sub32X | mul32X | andB32X | orB32X | xorB32X | andnB32X
  | shlB32X | shrB32X | sarB32X | minN32X | minI32X | maxN32X | maxI32X | addSatN32X | addSatI32X | cmpN32X | cmpI32X | movB32X | add64X
  | sub64X | cmpN64X | cmpI64X | movB64X | selB32 | selB64 | bfeN32 | bfeI32 | bfiB32 | mad32 | mad64 | shrrI32 | addI16x2 | subI16x2
  | addSatI16x2 | subSatI16x2 | mulI16x2 | minI16x2 | maxI16x2 | packI16x2 | pdot2I16x2 | shrrSatI16 | addN8x4 | subN8x4 | addSatN8x4
  | subSatN8x4 | minN8x4 | maxN8x4 | faddF32X | fmulF32X | ffmaF32 | fcmpF32X | faddF64X | fmulF64X | ffmaF64 | fcmpF64X | faddF16x2
  | fmulF16x2 | ffmaF16x2 | faddBf16x2 | fmulBf16x2 | ffmaBf16x2 | fsubF32X | fsubF64X | cvt | rcpF32 | rcpF64 | rsqF32 | rsqF64 | exp2F32
  | log2F32 | sinF32 | cosF32 | fminF16x2 | fmaxF16x2 | fminBf16x2 | fmaxBf16x2 | fcmpF16x2 | fcmpBf16x2 | fclassF16x2 | fclassBf16x2 => exact h.laneAlu
  | ldGN8 | ldGI8 | ldGN16 | ldGI16 | ldGB32 | ldGB64 | ldGQual | ldCmN8 | ldCmI8 | ldCmN16 | ldCmI16 | ldCmB32 | ldCmB64 | ldCmQual => exact h.laneLoad
  | stGB8 | stGB16 | stGB32 | stGB64 | stGQual | stCmB8 | stCmB16 | stCmB32 | stCmB64 | stCmQual => exact h.laneStore
  | ldkB32 | ldkB64 => exact h.laneLdk
  | atom | atomCas => exact h.laneAtom
  | hfma | hfma3 | hadd => exact h.haccIssue
  | uAdd32 | uSub32 | uMul32 | uMulhiN32 | uMulhiI32 | uIdivN32 | uIdivI32 | uRemN32 | uRemI32 | uAndB32 | uOrB32 | uXorB32 | uShlB32
  | uShrB32 | uSarB32 | uMinN32 | uMinI32 | uMaxN32 | uMaxI32 | uAdd64 | uSub64 | uMul64 | uShlB64 | uShrB64 | uCmpN32 | uCmpI32 | uCmpN64
  | uCmpI64 | uPlog | uMovB32 | uMovB64 | uPopcB32 | uAdd32X | uSub32X | uMul32X | uAndB32X | uOrB32X | uXorB32X | uShlB32X | uShrB32X
  | uSarB32X | uMinN32X | uMinI32X | uMaxN32X | uMaxI32X | uAdd64X | uCmpN32X | uCmpI32X | uCmpN64X | uCmpI64X | uMovB32X | uMovB64X
  | uSelB32 | uSelB64 | uBfeN32 | uMad32 | uFaddF32 | uFmulF32 | uFfmaF32 | uFcmpF32 | uFaddF64 | uFmulF64 | uFfmaF64 | uCvt => exact h.uniAlu
  | uLdGB32 | uLdGB64 | uLdCmB32 | uLdCmB64 | uLdGQual | uLdCmQual => exact h.uniLoad
  | uStGB32 | uStGB64 | uStCmB32 | uStCmB64 | uStGQual | uStCmQual => exact h.uniStore
  | uLdkB32 | uLdkB64 => exact h.uniLdk
  | ldt => exact h.execLdt
  | stt => exact h.execStt
  | fence => exact h.execFence
  | alloc => exact h.execAlloc
  | free => exact h.execFree
  | cpyIn => exact h.execCpyIn
  | cpyOut => exact h.execCpyOut
  | cpyG => exact h.execCpyG
  | waitc => exact h.execWaitc
  | qfence => exact h.execQfence
  | sclaim => exact h.execSclaim
  | srel => exact h.execSrel
  | stkLd => exact h.execStkLd
  | mtile => exact h.execMtile
  | rzero => exact h.execRzero
  | rimLd => exact h.execRimLd
  | rimSt => exact h.execRimSt
  | termrd => exact h.execTermrd
  | bra => exact h.execBra
  | brx => exact h.execBrx
  | switch => exact h.execSwitch
  | call => exact h.execCall
  | ret => exact h.execRet
  | exit => exact h.execExit
  | exitto => exact h.execExitto
  | rcb => exact h.execRcb
  | bar => exact h.execBar
  | join => exact h.execJoin
  | leave => exact h.execLeave
  | rgnOpen => exact h.execRgnOpen
  | rgnClose => exact h.execRgnClose
  | scope => exact h.execScope
  | endscope => exact h.execEndscope
  | wpush => exact h.execWpush
  | wpop => exact h.execWpop
  | sleep => exact h.execSleep
  | brk => exact h.execBrk
  | trap n => exact h.execTrap (n := n)
  | nop => exact h.execNop
  | calle => exact h.execCalle
  | calleRet => exact h.execCalleRet
  | lmode => exact h.execLmode
  | lstat => exact h.execLstat
  | shuf => exact h.execShuf
  | vote => exact h.execVote
  | red => exact h.execRed
  | bcast => exact h.execBcast
  | movs => exact h.execMovs
  | hclr => exact h.execHclr
  | hsgn => exact h.execHsgn
  | hrnd => exact h.execHrnd
  | sBra => exact h.execSBra
  | sBrx => exact h.execSBrx
  | sCall => exact h.execSCall
  | sRet => exact h.execSRet
  | sExit => exact h.execSExit
  | dpush => exact h.execDpush
  | dpop => exact h.execDpop
  | bucket => exact h.execBucket
  | nodeput => exact h.execNodeput
  | waitn => exact h.execWaitn
  | ckpt => exact h.execCkpt
  | yield => exact h.execYield
  | sNop => exact h.execSNop
  | uAtom => exact h.execUAtom
  | uFence => exact h.execUFence
  | uAlloc => exact h.execUAlloc
  | uFree => exact h.execUFree
  | uCpyIn => exact h.execUCpyIn
  | uCpyOut => exact h.execUCpyOut
  | uCpyG => exact h.execUCpyG
  | uWaitc => exact h.execUWaitc
  | uQfence => exact h.execUQfence
  | rdcnt => exact h.execRdcnt
  | csrr => exact h.execCsrr
  | csrw => exact h.execCsrw
  | rft => exact h.execRft
  | fgetPc => exact h.execFgetPc
  | fgetMask => exact h.execFgetMask
  | fgetPrio => exact h.execFgetPrio
  | fgetReg => exact h.execFgetReg
  | fsetPc => exact h.execFsetPc
  | fsetMask => exact h.execFsetMask
  | fsetReg => exact h.execFsetReg
  | xlinv => exact h.execXlinv
  | injsetSeed => exact h.execInjsetSeed
  | injsetRate => exact h.execInjsetRate
  | injsetClasses => exact h.execInjsetClasses
  | injsetShot => exact h.execInjsetShot
  | injsetArm => exact h.execInjsetArm
  | nodePost => exact h.execNodePost
  | nodeputDone => exact h.execNodeputDone
  | instanceAdmit => exact h.execInstanceAdmit
  | weaveAdmit => exact h.execWeaveAdmit
  | admissionStarvation => exact h.execAdmissionStarvation
  | nodeAging => exact h.execNodeAging
  | balancerSample => exact h.execBalancerSample
  | instanceYield => exact h.execInstanceYield
  | instanceReadmit => exact h.execInstanceReadmit
  | kernelNodeComplete => exact h.execKernelNodeComplete
  | tileNodeRun => exact h.execTileNodeRun
  | trapDelivery => exact h.execTrapDelivery
  | poisonContainment => exact h.execPoisonContainment
  | freeze => exact h.execFreeze
  | resume => exact h.execResume
  | weaveRestart => exact h.execWeaveRestart
  | rcbRelease => exact h.execRcbRelease
  | sleepExpire => exact h.execSleepExpire
  | feLoadWake => exact h.execFeLoadWake
  | joinGrant => exact h.execJoinGrant
  | scopeGrant => exact h.execScopeGrant
  | sclaimGrant => exact h.execSclaimGrant
  | dpushAppend => exact h.execDpushAppend
  | dpopTake => exact h.execDpopTake
  | wpushAppend => exact h.execWpushAppend
  | wpopTake => exact h.execWpopTake
  | waitcComplete => exact h.execWaitcComplete
  | waitnComplete => exact h.execWaitnComplete
  | waitnLimit => exact h.execWaitnLimit
  | yieldComplete => exact h.execYieldComplete
  | ckptRecord => exact h.execCkptRecord
  | pairedExitRelease => exact h.execPairedExitRelease
  | memoryResultArrive => exact h.execMemoryResultArrive
  | storeQueueDrain => exact h.execStoreQueueDrain
  | cpyInPerform => exact h.execCpyInPerform
  | cpyOutPerform => exact h.execCpyOutPerform
  | cpyGPerform => exact h.execCpyGPerform
  | stkLdPerform => exact h.execStkLdPerform
  | mtileStart => exact h.execMtileStart
  | mtileComplete => exact h.execMtileComplete
  | rzeroPerform => exact h.execRzeroPerform
  | rimLdPerform => exact h.execRimLdPerform
  | rimStPerform => exact h.execRimStPerform
  | srelPerform => exact h.execSrelPerform
  | valueStoreEpochFlush => exact h.execValueStoreEpochFlush
  | pairCompare => exact h.execPairCompare
  | injectorFire => exact h.execInjectorFire
  | coreErrorWindow => exact h.execCoreErrorWindow
  | patternTestDone => exact h.execPatternTestDone
  | channelRetire => exact h.execChannelRetire
  | coreLend => exact h.execCoreLend
  | revoke => exact h.execRevoke
  | revokeFreezeTimeout => exact h.execRevokeFreezeTimeout
  | coreScrub => exact h.execCoreScrub
  | start => exact h.execStart
  | startWatchdogExpire => exact h.execStartWatchdogExpire
  | firmwareLoad => exact h.execFirmwareLoad
  | fullStartRequest => exact h.execFullStartRequest
  | undervoltageStop => exact h.execUndervoltageStop
  | thermalStep => exact h.execThermalStep
  | powerCapWindow => exact h.execPowerCapWindow
  | setPowerCap => exact h.execSetPowerCap
  | partitionConfigWrite => exact h.execPartitionConfigWrite
  | vfRecordWrite => exact h.execVfRecordWrite
  | vfStateWrite => exact h.execVfStateWrite
  | heapWrite => exact h.execHeapWrite
  | scopePolicyWrite => exact h.execScopePolicyWrite
  | mgmtRegisterWrite => exact h.execMgmtRegisterWrite
  | counterLowRead => exact h.execCounterLowRead
  | counterHighRead => exact h.execCounterHighRead
  | granuleTakeBack => exact h.execGranuleTakeBack
  | backgroundScrub => exact h.execBackgroundScrub
  | shootdownMessage => exact h.execShootdownMessage
  | shootdownComplete => exact h.execShootdownComplete
  | writeTrapAck => exact h.execWriteTrapAck
  | rmaWrite => exact h.execRmaWrite
  | rmaRead => exact h.execRmaRead
  | rmaAtomic vf addr => exact h.execRmaAtomic (addr := addr)
  | remoteAccess => exact h.execRemoteAccess
  | attestationRequest => exact h.execAttestationRequest
  | watchpointWrite => exact h.execWatchpointWrite
  | samplingExponentWrite => exact h.execSamplingExponentWrite
  | traceMessageSend => exact h.execTraceMessageSend
  | errorThresholdWrite => exact h.execErrorThresholdWrite
  | coreBinReset => exact h.execCoreBinReset
  | wordNotInstruction => exact h.execWordNotInstruction
  | l1Eviction => exact h.execL1Eviction
  | softError => exact h.execSoftError
  | inputBelow40v => exact h.execInputBelow40v
  | unimplementedModePacket => exact h.execUnimplementedModePacket
  | trustListInstall => exact h.execTrustListInstall

/-! ### Fetch -/

protected theorem KeepsForm.fetchPair {c vf va : Nat} {handler : Bool} (h : KeepsForm s t) :
    KeepsForm s (fetchPair t c vf va handler).2 := by
  unfold fetchPair
  split
  all_goals
    rename_i e
    have h₁ := h.translate.of_pair e
  · exact h₁
  split
  · exact h₁
  · dsimp only
    exact h₁.onCore

protected theorem KeepsForm.fetchAt {a : Agent} {pc : Double} (h : KeepsForm s t) : KeepsForm s (fetchAt t a pc).2 := by
  unfold fetchAt
  split
  · exact h
  split
  all_goals
    rename_i e
    exact h.fetchPair.of_pair e

/-! ### Meaning of words -/

protected theorem KeepsForm.execWords {w x : Word} (h : KeepsForm s t) : OutKeeps s (execWords w x t) := by
  unfold execWords
  split <;> exact h.exec

protected theorem KeepsForm.tickOf (h : KeepsForm s t) : KeepsForm s (tickOf t) := h.frame

protected theorem KeepsForm.focused {a : Agent} (h : KeepsForm s t) : KeepsForm s (focused t a) := by
  unfold focused
  split
  · split
    · exact h.frame.takeTurn
    · exact h.frame
  · exact h.frame

protected theorem KeepsForm.issueTurn {a : Agent} (h : KeepsForm s t) : OutKeeps s (issueTurn t a) := by
  unfold issueTurn
  split
  · exact h
  split
  all_goals
    rename_i e
    have h₁ := h.focused.fetchAt.of_pair e
  · exact h₁.begin.parkAgent
  · exact h₁.execWords

protected theorem KeepsForm.step (h : KeepsForm s t) : OutKeeps s (step t) := by
  unfold step
  split
  · exact h.tickOf.issueTurn
  split
  · exact h.tickOf.exec
  · exact h.tickOf

/-! ## The obligation -/

/-- A step from a state leads to one whose memory and caches are in their form where those of the first are. -/
theorem step_keeps (h : step s = .next t) : KeepsForm s t := (KeepsForm.refl s).step.next h

end

/-- Settles O6: by case analysis of the turn, the instruction or event and its effect on the state, every update keeps the form (R3, R188). -/
theorem stepKeepsMemory : Obligations.StepKeepsMemory := fun _ _ hi h => (step_keeps h).inv hi

end Sys2Proof.Machine

/-!
# The module: starts and stops, coolant and power

A start fails at a stage or brings its partitions up; a stop fails every launch in turn and leaves the rest of the management processor as it was;
a change of a clock limit sets the clock of every core. Each is said once, and the obligation is assembled from them.
-/

namespace Sys2Proof.Machine

/-! ## The start (20 R413) -/

/-! ### When it takes place, and how it ends -/

section Start

variable {s : State} {mv : Nat} {ok : Bool} {ps : List Nat} {el : Half}

theorem lowestOf_eq_none (h : ∀ p ∈ ps, 16 ≤ p) : lowestOf ps = none := by
  refine List.find?_eq_none.mpr fun p hp hc => ?_
  have := h p (List.contains_iff_mem.mp hc)
  have := List.mem_range.mp hp
  omega

/-- The search for the lowest number finds one where the list names a partition. -/
theorem exists_lowestOf (h : ∃ p ∈ ps, p < 16) : ∃ p, lowestOf ps = some p := by
  obtain ⟨p, hp, hlt⟩ := h
  exact Option.isSome_iff_exists.mp (List.find?_isSome.mpr ⟨p, List.mem_range.mpr hlt, List.contains_iff_mem.mpr hp⟩)

theorem lowestOf_eq_some {p : Nat} (hp : p ∈ ps) (hlt : p < 16) (hmin : ∀ q ∈ ps, p ≤ q) : lowestOf ps = some p := by
  obtain ⟨q, hq⟩ := exists_lowestOf ⟨p, hp, hlt⟩
  obtain ⟨hqs, as, bs, hr, has⟩ := List.find?_eq_some_iff_append.mp hq
  have hpq : p ≤ q := hmin q (List.contains_iff_mem.mp hqs)
  have hqp : q ≤ p := by
    have hm : p ∈ as ++ q :: bs := hr ▸ List.mem_range.mpr hlt
    have hs : (as ++ q :: bs).Pairwise (· < ·) := hr ▸ List.pairwise_lt_range
    rcases List.mem_append.mp hm with h | h
    · simpa [hp] using has p h
    · rcases List.mem_cons.mp h with h | h
      · exact h.ge
      · exact (List.rel_of_pairwise_cons (List.pairwise_append.mp hs).2.1 h).le
  rw [hq, Nat.le_antisymm hpq hqp]

theorem execStart_barred (h : mayStart s.mgmt = false ∨ mv < 44000 ∨ 56000 < mv) : execStart ⟨mv, ok⟩ ps el s = .next s := by
  have hb : (!mayStart s.mgmt || !inputOk mv) = true := by
    rcases h with h | h
    · simp [h]
    · have : inputOk mv = false := by simp only [inputOk, Bool.and_eq_false_iff, decide_eq_false_iff_not]; omega
      simp [this]
  simp [execStart, hb]

/-- A start that may take place whose firmware does not verify fails at the first stage. -/
theorem execStart_unverified (hm : mayStart s.mgmt = true) (h44 : 44000 ≤ mv) (h56 : mv ≤ 56000) (hv : s.mgmt.fwValid = false) :
    execStart ⟨mv, false⟩ ps el s = .next (failStart s 1 1 noElement) := by
  have hb : (!mayStart s.mgmt || !inputOk mv) = false := by simp [hm, inputOk, h44, h56]
  simp [execStart, hb, hv]

/-- A start that may take place, its firmware verified, brings up what passed the later stages. -/
theorem execStart_verified (hm : mayStart s.mgmt = true) (h44 : 44000 ≤ mv) (h56 : mv ≤ 56000) (hv : ok = true ∨ s.mgmt.fwValid = true) :
    execStart ⟨mv, ok⟩ ps el s = .next (match lowestOf ps with
      | none => failStart s 5 3 el
      | some p => if 3 ≤ s.mgmt.nfail ∧ s.mgmt.fullRequested = false then bringUp s [p] (.minimal p) else bringUp s ps .full) := by
  have hb : (!mayStart s.mgmt || !inputOk mv) = false := by simp [hm, inputOk, h44, h56]
  have hv' : (ok || s.mgmt.fwValid) = true := by simpa using hv
  cases h : lowestOf ps <;> simp [execStart, hb, hv', h]

section Verified

variable (hm : mayStart s.mgmt = true) (h44 : 44000 ≤ mv) (h56 : mv ≤ 56000) (hv : ok = true ∨ s.mgmt.fwValid = true)

include hm h44 h56 hv

theorem execStart_noPartition (h : ∀ p ∈ ps, 16 ≤ p) : execStart ⟨mv, ok⟩ ps el s = .next (failStart s 5 3 el) := by
  rw [execStart_verified hm h44 h56 hv, lowestOf_eq_none h]

theorem execStart_minimal {p : Nat} (hp : p ∈ ps) (hlt : p < 16) (hmin : ∀ q ∈ ps, p ≤ q) (h3 : 3 ≤ s.mgmt.nfail)
    (hf : s.mgmt.fullRequested = false) : execStart ⟨mv, ok⟩ ps el s = .next (bringUp s [p] (.minimal p)) := by
  rw [execStart_verified hm h44 h56 hv, lowestOf_eq_some hp hlt hmin]
  exact congrArg _ (if_pos ⟨h3, hf⟩)

theorem execStart_full (h : ∃ p ∈ ps, p < 16) (hn : s.mgmt.nfail < 3 ∨ s.mgmt.fullRequested = true) :
    execStart ⟨mv, ok⟩ ps el s = .next (bringUp s ps .full) := by
  obtain ⟨p, hp⟩ := exists_lowestOf h
  have hc : ¬ (3 ≤ s.mgmt.nfail ∧ s.mgmt.fullRequested = false) := by
    rcases hn with hn | hn
    · exact fun hc => absurd hc.1 (by omega)
    · simp [hn]
  rw [execStart_verified hm h44 h56 hv, hp]
  exact congrArg _ (if_neg hc)

end Verified

end Start

theorem execStartWatchdogExpire_starting {s : State} (h : mayStart s.mgmt = true) :
    execStartWatchdogExpire s = .next (failStart s 6 4 noElement) := by simp only [execStartWatchdogExpire, h, if_true]

theorem execStartWatchdogExpire_idle {s : State} (h : mayStart s.mgmt = false) : execStartWatchdogExpire s = .next s := by
  simp only [execStartWatchdogExpire, h, Bool.false_eq_true, if_false]

/-! ### Minimal mode -/

section Minimal

variable {s : State} {p : Nat} (hp : s.mgmt.phase = .minimal p) (hr : s.mgmt.reachable = true)

include hp hr

theorem execFullStartRequest_minimal : execFullStartRequest s = .next { s with mgmt := { s.mgmt with fullRequested := true } } := by
  simp only [execFullStartRequest, hp, hr, if_true]

theorem execFirmwareLoad_minimal {d : BitVec 512} {sig : List Byte} :
    execFirmwareLoad d sig s = .next (if Config.firmwareVerifies d sig
      then { s with mgmt := { s.mgmt with fwDigest := d, fwValid := true }, out := s.out ++ [.mgmt 0 0#64] }
      else { s with out := s.out ++ [.mgmt 1 0#64] }) := by
  simp only [execFirmwareLoad, hp, hr, Bool.not_true, Bool.false_eq_true, if_false, answer, send]

end Minimal

/-! ### What it brings up -/

/-- In these states the same partitions are up, with the same queues and retired channels, and all but configurations is alike. -/
structure SameButConfig (s t : State) : Prop where
  parts : ∀ p, { getPart t p with config := 0#64 } = { getPart s p with config := 0#64 }
  rest : { t with parts := [] } = { s with parts := [] }

theorem SameButConfig.refl (s : State) : SameButConfig s s := ⟨fun _ => rfl, rfl⟩

theorem SameButConfig.trans {s t u : State} (h : SameButConfig s t) (g : SameButConfig t u) : SameButConfig s u :=
  ⟨fun p => (g.parts p).trans (h.parts p), g.rest.trans h.rest⟩

/-- What does not look at the partitions is the same in both. -/
theorem SameButConfig.field {s t : State} {β : Type} (h : SameButConfig s t) (f : State → β)
    (hf : ∀ x : State, f { x with parts := [] } = f x := by exact fun _ => rfl) : f t = f s := by
  rw [← hf t, h.rest, hf s]

theorem sameButConfig_setConfigBit (s : State) (p i : Nat) (b : Bool) : SameButConfig s (setConfigBit s p i b) := by
  refine ⟨fun q => ?_, rfl⟩
  by_cases hq : q = p
  · subst hq; simp only [setConfigBit, getPart_onPart_self]
  · exact congrArg (fun x : Part => { x with config := 0#64 }) (getPart_putPart_ne s _ hq)

theorem sameButConfig_startSets (s : State) : SameButConfig s (startSets s) := by
  unfold startSets
  generalize s.cores = cs
  induction cs generalizing s with
  | nil => exact .refl s
  | cons e r ih =>
    refine SameButConfig.trans ?_ (ih _)
    dsimp only
    split
    · exact (sameButConfig_setConfigBit ..).trans (sameButConfig_setConfigBit ..)
    · exact .refl s

theorem sfind_numbered {α : Type} (f : Nat → α) (l : List Nat) {p : Nat} (h : p ∈ l) : sfind (l.map fun q => (q, f q)) p = some (f p) := by
  induction l with
  | nil => cases h
  | cons q r ih =>
    simp only [List.map_cons, sfind]
    split
    · rename_i hq; rw [hq]
    · rename_i hq
      exact ih ((List.mem_cons.mp h).resolve_left (Ne.symm hq))

/-- What a reader finds in a table after a change made to each entry, where the default is as good as its change. -/
theorem sget_map_rel {α : Type} {R : α → α → Prop} (d : α) (t : Sparse α) (f : α → α) (i : Nat) (hd : R d d) (hf : ∀ x, R x (f x)) :
    R (sget d t i) (sget d (t.map fun e => (e.1, f e.2)) i) := by
  unfold sget
  rw [sfind_map t (fun e => (e.1, f e.2)) fun _ => rfl]
  cases sfind t i with
  | none => exact hd
  | some x => exact hf x

/-- A core without work, of the same retirement. -/
def Workless (x y : Core) : Prop := y.weaves = [] ∧ y.insts = [] ∧ y.handler.run = none ∧ y.retired = x.retired

theorem workless_startCore (now : Nat) (x : Core) : Workless x (startCore now x) := ⟨rfl, rfl, rfl, rfl⟩

/-- What a start brings up (R413): memory as it stands, no launch, no virtual function, its partitions, cores without work. -/
structure BroughtUp (s t : State) (ps : List Nat) (phase : Phase) : Prop where
  mem : t.mem = s.mem
  bad : t.bad = s.bad
  launches : t.launches = []
  vfs : t.vfs = []
  phase : t.mgmt.phase = phase
  reachable : t.mgmt.reachable = true
  fullRequested : t.mgmt.fullRequested = false
  parts : ∀ p, p < 16 → (getPart t p).up = ps.contains p ∧ (getPart t p).ready = [] ∧ (getPart t p).chans = (getPart s p).chans
  cores : ∀ c, Workless (getCore s c) (getCore t c)

theorem broughtUp_bringUp (s : State) (ps : List Nat) (phase : Phase) : BroughtUp s (bringUp s ps phase) ps phase := by
  unfold bringUp
  extract_lets m
  generalize hu : ({ s with cores := _, parts := _, vfs := _, launches := _, shoots := _, marks := _, mgmt := _ } : State) = u
  have h := sameButConfig_startSets u
  have hparts (p : Nat) (hp : p < 16) : getPart u p = startPart ps p (getPart s p) := by
    subst hu
    simp only [getPart, sget, sfind_numbered _ _ (List.mem_range.mpr hp), Option.getD_some]
  have hcores (c : Nat) : Workless (getCore s c) (getCore u c) := by
    subst hu
    exact sget_map_rel Core.blank s.cores (startCore s.now) c ⟨rfl, rfl, rfl, rfl⟩ (workless_startCore s.now)
  subst hu
  constructor
  case mem => exact h.field State.mem
  case bad => exact h.field State.bad
  case launches => exact h.field State.launches
  case vfs => exact h.field State.vfs
  case phase => exact h.field (·.mgmt.phase)
  case reachable => exact h.field (·.mgmt.reachable)
  case fullRequested => exact h.field (·.mgmt.fullRequested)
  case parts =>
    intro p hp
    have e := h.parts p
    rw [hparts p hp] at e
    exact ⟨(congrArg Part.up e :), (congrArg Part.ready e :), (congrArg Part.chans e :)⟩
  case cores =>
    intro c
    have e := h.field (getCore · c)
    exact e ▸ hcores c

/-! ## Stops (01 R20, R21) -/

/-! ### What sends nothing and ends no launch -/

/-- From `s` to `t` nothing was sent, and the launches and the management processor stand as they were. -/
structure Quiet (s t : State) : Prop where
  out : t.out = s.out
  launches : t.launches = s.launches
  mgmt : t.mgmt = s.mgmt

section Quiet

variable {s t u : State}

protected theorem Quiet.refl (s : State) : Quiet s s := ⟨rfl, rfl, rfl⟩

protected theorem Quiet.trans (h : Quiet s t) (g : Quiet t u) : Quiet s u :=
  ⟨g.out.trans h.out, g.launches.trans h.launches, g.mgmt.trans h.mgmt⟩

/-- An update of other fields. -/
protected theorem Quiet.frame (h : Quiet s t) (ho : u.out = t.out := by rfl) (hl : u.launches = t.launches := by rfl)
    (hm : u.mgmt = t.mgmt := by rfl) : Quiet s u := h.trans ⟨ho, hl, hm⟩

protected theorem Quiet.ite (h : Quiet s t) (g : Quiet s u) {p : Prop} {_ : Decidable p} : Quiet s (if p then t else u) := by
  split
  · exact h
  · exact g

protected theorem Quiet.foldl {α : Type} {l : List α} {f : State → α → State} (h : Quiet s t) (hf : ∀ {u x}, Quiet s u → Quiet s (f u x)) :
    Quiet s (l.foldl f t) := by
  induction l generalizing t with
  | nil => exact h
  | cons x r ih => exact ih (hf h)

protected theorem Quiet.scrubGranule {g : Nat} (h : Quiet s t) : Quiet s (scrubGranule t g) := h.frame.ite h

protected theorem Quiet.writeMem {k : Nat} {d : List Byte} (h : Quiet s t) : Quiet s (writeMem t k d) :=
  h.ite (.frame (.foldl h .scrubGranule))

protected theorem Quiet.writeBack {key : Nat} {l : Line} (h : Quiet s t) : Quiet s (writeBack t key l) := by
  unfold writeBack
  extract_lets v
  have hv : Quiet s v := h.ite (h.writeMem.ite (.foldl h .writeMem))
  exact hv.frame.ite hv

protected theorem Quiet.dropSlice {p line : Nat} (h : Quiet s t) : Quiet s (dropSlice t p line) := by
  unfold dropSlice
  split
  · exact h.writeBack.frame
  · exact h

protected theorem Quiet.putSlice {p line : Nat} {l : Line} (h : Quiet s t) : Quiet s (putSlice t p line l) :=
  .frame (h.ite h.dropSlice)

protected theorem Quiet.putBelow {p line : Nat} {l : Line} (h : Quiet s t) : Quiet s (putBelow t p line l) :=
  h.ite (h.dropSlice.writeBack.ite h.putSlice)

protected theorem Quiet.flushCore {c : Nat} (h : Quiet s t) : Quiet s (flushCore t c) := .frame (.foldl h .putBelow)

protected theorem Quiet.flushPart {p : Nat} (h : Quiet s t) : Quiet s (flushPart t p) := .frame (.foldl h .writeBack)

protected theorem Quiet.flushL1 {c : Nat} (h : Quiet s t) : Quiet s (flushL1 t c) := h.flushCore.flushPart

protected theorem Quiet.removeInst {c i : Nat} (h : Quiet s t) : Quiet s (removeInst t c i) := by
  unfold removeInst
  split
  · exact h
  · exact h.frame

protected theorem Quiet.removeLaunch {n : Nat} (h : Quiet s t) : Quiet s (removeLaunch t n) :=
  .foldl h fun h => .foldl h fun h => h.frame.removeInst.ite h

protected theorem Quiet.selfWrite {vf va : Nat} {d : List Byte} (h : Quiet s t) : Quiet s (selfWrite t vf va d) := by
  unfold selfWrite
  split
  · exact h
  · exact h.writeMem

end Quiet

/-! ### One launch failed -/

/-- The notice of a launch that failed (R108, R372). -/
def failNotice (l : Launch) (reason cause cause2 : Nat) : Msg :=
  .notice l.vf (noticeBytes 2 reason cause cause2 l.node.tag l.addr l.lsn 0)

section Fail

variable {s : State} {n reason cause cause2 : Nat} {l : Launch}

theorem failLaunch_of_none (h : getLaunch s n = none) : failLaunch s n reason cause cause2 = s := by
  unfold failLaunch; rw [h]

/-- The launch is gone, its notice sent. -/
theorem failLaunch_of_some (h : getLaunch s n = some l) :
    Quiet { s with launches := s.launches.filter (·.serial != n), out := s.out ++ [failNotice l reason cause cause2] }
      (failLaunch s n reason cause cause2) := by
  simp -zeta only [failLaunch, h]
  extract_lets v w x
  have hv : Quiet s v := .removeLaunch (.foldl (.refl s) .flushL1)
  have hw : Quiet s w := .foldl hv .frame
  have hx : Quiet { s with launches := s.launches.filter (·.serial != n) } x :=
    ⟨hw.out, congrArg (List.filter _) hw.launches, hw.mgmt⟩
  have hs := hx.selfWrite (vf := l.vf) (va := l.addr + 18) (d := bytesLE 2 4)
  exact ⟨congrArg (· ++ [_]) hs.out, hs.launches, hs.mgmt⟩

theorem failLaunch_launches (s : State) (n reason cause cause2 : Nat) :
    (failLaunch s n reason cause cause2).launches = s.launches.filter (·.serial != n) := by
  cases h : getLaunch s n with
  | none =>
    rw [failLaunch_of_none h, List.filter_eq_self.mpr]
    intro l hl
    simpa using List.find?_eq_none.mp h l hl
  | some l => exact (failLaunch_of_some h).launches

theorem failLaunch_mgmt (s : State) (n reason cause cause2 : Nat) : (failLaunch s n reason cause cause2).mgmt = s.mgmt := by
  cases h : getLaunch s n with
  | none => rw [failLaunch_of_none h]
  | some l => exact (failLaunch_of_some h).mgmt

theorem mem_failLaunch_out {m : Msg} (hm : m ∈ s.out) : m ∈ (failLaunch s n reason cause cause2).out := by
  cases h : getLaunch s n with
  | none => rwa [failLaunch_of_none h]
  | some l => rw [(failLaunch_of_some h).out]; exact List.mem_append_left _ hm

theorem failNotice_mem (h : getLaunch s n = some l) : failNotice l reason cause cause2 ∈ (failLaunch s n reason cause cause2).out := by
  rw [(failLaunch_of_some h).out]
  exact List.mem_append_right _ List.mem_cons_self

theorem getLaunch_failLaunch_ne {k : Nat} (h : k ≠ n) : getLaunch (failLaunch s n reason cause cause2) k = getLaunch s k := by
  unfold getLaunch
  rw [failLaunch_launches, List.find?_filter]
  congr 1
  funext l
  by_cases hl : l.serial = k
  · simp [hl, h]
  · simp [hl]

end Fail

/-! ### Every launch failed in turn -/

/-- What a stop of all partitions does to one launch of those that there were. -/
def stopLaunch (s : State) (l : Launch) : State := failLaunch (record s (nodeEntry s kindStopped l.addr 19 l.lsn)) l.serial 19 0 0

theorem stopAll_eq (s : State) :
    stopAll s = { s.launches.foldl stopLaunch s with
      parts := (s.launches.foldl stopLaunch s).parts.map fun e => (e.1, { e.2 with up := false })
      mgmt := { (s.launches.foldl stopLaunch s).mgmt with phase := .stopped } } := rfl

theorem foldl_stopLaunch_mgmt (ls : List Launch) (s : State) : (ls.foldl stopLaunch s).mgmt = s.mgmt := by
  induction ls generalizing s with
  | nil => rfl
  | cons x r ih => exact (ih _).trans (failLaunch_mgmt ..)

theorem mem_foldl_stopLaunch_out (ls : List Launch) {s : State} {m : Msg} (h : m ∈ s.out) : m ∈ (ls.foldl stopLaunch s).out := by
  induction ls generalizing s with
  | nil => exact h
  | cons x r ih => exact ih (mem_failLaunch_out h)

/-- What is left was there, and none of those that were failed is left. -/
theorem mem_foldl_stopLaunch {ls : List Launch} {s : State} {y : Launch} (h : y ∈ (ls.foldl stopLaunch s).launches) :
    y ∈ s.launches ∧ ∀ x ∈ ls, y.serial ≠ x.serial := by
  induction ls generalizing s with
  | nil => exact ⟨h, by simp⟩
  | cons x r ih =>
    obtain ⟨hy, hr⟩ := ih h
    rw [stopLaunch, failLaunch_launches] at hy
    obtain ⟨hs, hx⟩ := List.mem_filter.mp hy
    exact ⟨hs, List.forall_mem_cons.mpr ⟨by simpa using hx, hr⟩⟩

/-- The launch that a serial number stands for gets its notice when the first of that number is stopped. -/
theorem failNotice_mem_foldl_stopLaunch {ls : List Launch} {s : State} {l : Launch} (hl : l ∈ ls) (hg : getLaunch s l.serial = some l) :
    failNotice l 19 0 0 ∈ (ls.foldl stopLaunch s).out := by
  induction ls generalizing s with
  | nil => cases hl
  | cons x r ih =>
    by_cases hx : l.serial = x.serial
    · exact mem_foldl_stopLaunch_out r (failNotice_mem (hx ▸ hg))
    · have hr : l ∈ r := (List.mem_cons.mp hl).resolve_left fun e => hx (congrArg Launch.serial e)
      exact ih hr ((getLaunch_failLaunch_ne hx).trans hg)

/-- What a stop of all partitions leaves (R20, R21). -/
structure AllStopped (s t : State) : Prop where
  launches : t.launches = []
  down : ∀ p, (getPart t p).up = false
  mgmt : t.mgmt = { s.mgmt with phase := .stopped }
  notices : ∀ l ∈ s.launches, getLaunch s l.serial = some l → failNotice l 19 0 0 ∈ t.out

theorem allStopped_stopAll (s : State) : AllStopped s (stopAll s) := by
  rw [stopAll_eq]
  constructor
  case launches =>
    refine List.eq_nil_iff_forall_not_mem.mpr fun y hy => ?_
    obtain ⟨hs, hne⟩ := mem_foldl_stopLaunch hy
    exact hne y hs rfl
  case down =>
    refine fun p => sget_of_forall (P := fun x : Part => x.up = false) rfl fun e he => ?_
    obtain ⟨_, _, rfl⟩ := List.mem_map.mp he
    rfl
  case mgmt => exact congrArg (fun m : Mgmt => { m with phase := .stopped }) (foldl_stopLaunch_mgmt ..)
  case notices => exact fun l hl hg => failNotice_mem_foldl_stopLaunch hl hg

theorem execUndervoltageStop_running {s : State} (h : running s = true) : execUndervoltageStop s = .next (stopAll s) := by
  simp only [execUndervoltageStop, h, if_true]

theorem execUndervoltageStop_down {s : State} (h : running s = false) : execUndervoltageStop s = .next s := by
  simp only [execUndervoltageStop, h, Bool.false_eq_true, if_false]

/-! ## Clocks (01 R14) -/

/-- A core's clock set by the limits of a state. -/
def clocked (s : State) (x : Core) : Core := setClock s.now (clockOf s.mgmt x.bin) x

def clockCore (s : State) (c : Nat) : State := onCore s c (clocked s)

/-- Setting the clocks of cores touches nothing else. -/
theorem foldl_clockCore_rest (cs : List Nat) (s : State) : { cs.foldl clockCore s with cores := [] } = { s with cores := [] } := by
  induction cs generalizing s with
  | nil => rfl
  | cons c r ih => exact ih _

theorem getCore_foldl_clockCore_of_not_mem {cs : List Nat} {c : Nat} (h : c ∉ cs) (s : State) : getCore (cs.foldl clockCore s) c = getCore s c := by
  induction cs generalizing s with
  | nil => rfl
  | cons d r ih =>
    obtain ⟨hd, hr⟩ := List.ne_and_not_mem_of_not_mem_cons h
    exact (ih hr _).trans (getCore_onCore_ne s _ hd)

theorem getCore_foldl_clockCore_of_mem {cs : List Nat} (hn : cs.Nodup) {c : Nat} (h : c ∈ cs) (s : State) :
    getCore (cs.foldl clockCore s) c = clocked s (getCore s c) := by
  induction cs generalizing s with
  | nil => cases h
  | cons d r ih =>
    obtain ⟨hd, hr⟩ := List.nodup_cons.mp hn
    by_cases hc : c = d
    · subst hc
      exact (getCore_foldl_clockCore_of_not_mem hd _).trans (getCore_onCore_self s c _)
    · have e : getCore (clockCore s d) c = getCore s c := getCore_onCore_ne s _ hc
      rw [List.foldl_cons, ih hr ((List.mem_cons.mp h).resolve_left hc), e]
      rfl

/-- The clock of every core by the limits of `m`, what it counted so far kept; all else but marks as it was. -/
structure Retimed (s t : State) (m : Mgmt) : Prop where
  rest : { t with cores := [], marks := [] } = { s with cores := [], marks := [], mgmt := { m with clock := min m.thermalClock m.powerClock } }
  cores : ∀ c, c < 256 → getCore t c = setClock s.now (clockOf m (getCore s c).bin) (getCore s c)

theorem retimed_foldl_clockCore {cs : List Nat} (hn : cs.Nodup) (hm : ∀ c, c < 256 → c ∈ cs) (s : State) (m : Mgmt) :
    Retimed s (cs.foldl clockCore { s with mgmt := { m with clock := min m.thermalClock m.powerClock } }) m :=
  ⟨congrArg (fun x : State => { x with marks := [] }) (foldl_clockCore_rest cs _),
    fun c hc => getCore_foldl_clockCore_of_mem hn (hm c hc) _⟩

theorem retimed_retime (s : State) (m : Mgmt) : Retimed s (retime { s with mgmt := m }) m :=
  retimed_foldl_clockCore List.nodup_range (fun _ => List.mem_range.mpr) s m

theorem Retimed.mark {s t : State} {m : Mgmt} (h : Retimed s t m) (n k : Nat) : Retimed s (mark t n k) m := ⟨h.rest, h.cores⟩

/-! ## What each event does, case by case -/

/-! ### Coolant (R21) -/

section Thermal

variable {s : State} {temp : Int}

theorem execThermalStep_down (hr : running s = false) : execThermalStep temp s = .next s := by simp [execThermalStep, hr]

theorem execThermalStep_stops (hr : running s = true) (h : 105 ≤ temp ∨ 95 < temp ∧ s.mgmt.clock ≤ 2000) :
    execThermalStep temp s = .next (stopAll s) := by
  have hs : (105 ≤ temp || (95 < temp && s.mgmt.clock ≤ 2000) : Bool) = true := by simpa using h
  simp only [execThermalStep, hr, hs, Bool.not_true, Bool.false_eq_true, if_false, if_true]

/-- Below what stops the partitions. -/
theorem execThermalStep_runs (hr : running s = true) (h : temp < 105) (hc : temp ≤ 95 ∨ 2000 < s.mgmt.clock) :
    execThermalStep temp s = .next (
      if s.now < s.mgmt.lastThermal + millisecond then s
      else if 95 < temp then mark (thermalTo s (s.mgmt.thermalClock - 100)) 0x400 1
      else if temp < 90 ∧ s.mgmt.thermalClock < 4000 then thermalTo s (s.mgmt.thermalClock + 100)
      else s) := by
  have hs : (105 ≤ temp || (95 < temp && s.mgmt.clock ≤ 2000) : Bool) = false := by
    simp only [Bool.or_eq_false_iff, Bool.and_eq_false_iff, decide_eq_false_iff_not]; omega
  simp only [execThermalStep, hr, hs, Bool.not_true, Bool.false_eq_true, if_false, Bool.and_eq_true, decide_eq_true_eq]

theorem execThermalStep_early (hr : running s = true) (h : temp < 105) (hc : temp ≤ 95 ∨ 2000 < s.mgmt.clock)
    (hn : s.now < s.mgmt.lastThermal + millisecond) : execThermalStep temp s = .next s := by
  rw [execThermalStep_runs hr h hc, if_pos hn]

section Window

variable (hr : running s = true) (hn : s.mgmt.lastThermal + millisecond ≤ s.now)

include hr hn

theorem execThermalStep_hot (h : temp < 105) (h95 : 95 < temp) (hc : 2000 < s.mgmt.clock) :
    execThermalStep temp s = .next (mark (thermalTo s (s.mgmt.thermalClock - 100)) 0x400 1) := by
  rw [execThermalStep_runs hr h (.inr hc), if_neg hn.not_gt, if_pos h95]

theorem execThermalStep_cool (h90 : temp < 90) (hc : s.mgmt.thermalClock < 4000) :
    execThermalStep temp s = .next (thermalTo s (s.mgmt.thermalClock + 100)) := by
  rw [execThermalStep_runs hr (by omega) (.inl (by omega)), if_neg hn.not_gt, if_neg (by omega), if_pos ⟨h90, hc⟩]

theorem execThermalStep_between (h90 : 90 ≤ temp) (h95 : temp ≤ 95) : execThermalStep temp s = .next s := by
  rw [execThermalStep_runs hr (by omega) (.inl h95), if_neg hn.not_gt, if_neg (by omega), if_neg (by omega)]

end Window

theorem retimed_thermalTo (s : State) (mhz : Nat) :
    Retimed s (thermalTo s mhz) { s.mgmt with thermalClock := mhz, lastThermal := s.now } := retimed_retime s _

end Thermal

/-! ### Power (R22) -/

section Power

variable {s : State} {w : Nat}

/-- The power's clock limit one step down or up. -/
def powerTo (s : State) (mhz : Nat) : State := retime { s with mgmt := { s.mgmt with powerClock := mhz, lastPower := s.now } }

theorem retimed_powerTo (s : State) (mhz : Nat) :
    Retimed s (powerTo s mhz) { s.mgmt with powerClock := mhz, lastPower := s.now } := retimed_retime s _

theorem execPowerCapWindow_early (h : running s = false ∨ s.now < s.mgmt.lastPower + millisecond) : execPowerCapWindow w s = .next s := by
  have hb : (!running s || s.now < s.mgmt.lastPower + millisecond : Bool) = true := by simpa using h
  simp only [execPowerCapWindow, hb, if_true]

/-- What a window does once it is over. -/
theorem execPowerCapWindow_over (hr : running s = true) (h : s.mgmt.lastPower + millisecond ≤ s.now) :
    execPowerCapWindow w s = .next (
      if s.mgmt.cap < w then
        if 2000 < s.mgmt.powerClock then mark (powerTo s (s.mgmt.powerClock - 100)) 0x400 1
        else { s with mgmt := { s.mgmt with idleOn := true, lastPower := s.now } }
      else if s.mgmt.idleOn then { s with mgmt := { s.mgmt with idleOn := false, lastPower := s.now } }
      else if s.mgmt.powerClock < 4000 then powerTo s (s.mgmt.powerClock + 100)
      else { s with mgmt := { s.mgmt with lastPower := s.now } }) := by
  have hb : (!running s || s.now < s.mgmt.lastPower + millisecond : Bool) = false := by simpa [hr] using h
  simp only [execPowerCapWindow, hb, Bool.false_eq_true, if_false, powerTo]

section Over

variable (hr : running s = true) (hn : s.mgmt.lastPower + millisecond ≤ s.now)

include hr hn

theorem execPowerCapWindow_above (hw : s.mgmt.cap < w) (hc : 2000 < s.mgmt.powerClock) :
    execPowerCapWindow w s = .next (mark (powerTo s (s.mgmt.powerClock - 100)) 0x400 1) := by
  rw [execPowerCapWindow_over hr hn, if_pos hw, if_pos hc]

theorem execPowerCapWindow_idles (hw : s.mgmt.cap < w) (hc : s.mgmt.powerClock ≤ 2000) :
    execPowerCapWindow w s = .next { s with mgmt := { s.mgmt with idleOn := true, lastPower := s.now } } := by
  rw [execPowerCapWindow_over hr hn, if_pos hw, if_neg hc.not_gt]

theorem execPowerCapWindow_resumes (hw : w ≤ s.mgmt.cap) (hi : s.mgmt.idleOn = true) :
    execPowerCapWindow w s = .next { s with mgmt := { s.mgmt with idleOn := false, lastPower := s.now } } := by
  rw [execPowerCapWindow_over hr hn, if_neg hw.not_gt, if_pos hi]

theorem execPowerCapWindow_below (hw : w ≤ s.mgmt.cap) (hi : s.mgmt.idleOn = false) (hc : s.mgmt.powerClock < 4000) :
    execPowerCapWindow w s = .next (powerTo s (s.mgmt.powerClock + 100)) := by
  rw [execPowerCapWindow_over hr hn, if_neg hw.not_gt, if_neg (by simp [hi]), if_pos hc]

end Over

end Power

/-! ### What the management endpoint is told -/

section Told

variable {s : State} (hu : mgmtUp s = true)

include hu

theorem execSetPowerCap_up (n : Nat) : execSetPowerCap n s = .next (
    if 1500 ≤ n ∧ n ≤ 3600 then { s with mgmt := { s.mgmt with cap := n }, out := s.out ++ [.mgmt 0 0#64] }
    else { s with out := s.out ++ [.mgmt 1 0#64] }) := by
  simp only [execSetPowerCap, hu, Bool.not_true, Bool.false_eq_true, if_false, Bool.and_eq_true, decide_eq_true_eq, answer, send]

theorem execErrorThresholdWrite_up (n : Nat) : execErrorThresholdWrite n s = .next (
    if 1 ≤ n ∧ n ≤ 65535 then { s with mgmt := { s.mgmt with threshold := n }, out := s.out ++ [.mgmt 0 0#64] }
    else { s with out := s.out ++ [.mgmt 1 0#64] }) := by
  simp only [execErrorThresholdWrite, hu, Bool.not_true, Bool.false_eq_true, if_false, Bool.and_eq_true, decide_eq_true_eq, answer, send]

theorem execCoreBinReset_up {c : Nat} (hc : c < 256) : execCoreBinReset c s = .next
    { onCore s c (fun x => { x with nextBin := some 0 }) with out := s.out ++ [.mgmt 0 0#64] } := by
  simp only [execCoreBinReset, hu, hc, decide_true, Bool.and_true, if_true, answer, send, onCore_out]

end Told

/-! ## The obligation -/

/-- Settles O50: each event does one of few things, a failed start, a bring-up, a stop, a change of a clock limit, or one field of the
management processor; which of them, its guards say. -/
theorem moduleEvents : Obligations.ModuleEvents := by
  unfold Obligations.ModuleEvents
  refine ⟨fun s => ?starts, fun s => ?runs⟩
  case starts =>
    intro m fails up
    have hfails {i : Instr} {stage code : Nat} {el : Half} (h : exec i s = .next (failStart s stage code el)) : fails i stage code el := ⟨_, h⟩
    have hup {i : Instr} {ps : List Nat} {phase : Phase} (h : exec i s = .next (bringUp s ps phase)) : up i ps phase :=
      have b := broughtUp_bringUp s ps phase
      ⟨_, h, b.mem, b.bad, b.launches, b.vfs, b.phase, b.reachable, b.fullRequested, b.parts, b.cores⟩
    refine ⟨fun mv ok ps el => execStart_barred, fun hm mv h44 h56 => ⟨?_, ?_, fun ok ps el hv => ⟨?_, ?_, ?_⟩⟩, ?_, ?_⟩
    · exact hfails (execStartWatchdogExpire_starting hm)
    · exact fun ps el hv => hfails (execStart_unverified hm h44 h56 hv)
    · exact fun h => hfails (execStart_noPartition hm h44 h56 hv h)
    · exact fun p hp hlt hmin h3 hf => hup (execStart_minimal hm h44 h56 hv hp hlt hmin h3 hf)
    · exact fun h hn => hup (execStart_full hm h44 h56 hv h hn)
    · exact execStartWatchdogExpire_idle
    · exact fun p d sig hp hr => ⟨execFullStartRequest_minimal hp hr, execFirmwareLoad_minimal hp hr⟩
  case runs =>
    intro m stops retimed
    have hstops {i : Instr} (h : exec i s = .next (stopAll s)) : stops i :=
      have b := allStopped_stopAll s
      ⟨_, h, b.launches, b.down, b.mgmt, b.notices⟩
    have hretimed {i : Instr} {t : State} {m' : Mgmt} (h : exec i s = .next t) (b : Retimed s t m') : ∃ t, exec i s = .next t ∧ retimed t m' :=
      ⟨t, h, b.rest, b.cores⟩
    refine ⟨rfl, execUndervoltageStop_down, fun hr => hstops (execUndervoltageStop_running hr), fun temp => ⟨?_, ?_, ?_, fun hr hn => ⟨?_, ?_, ?_⟩⟩,
      ?_, fun hr hn w v hw hv => ⟨?_, ?_, ?_, ?_⟩, ?_⟩
    · exact execThermalStep_down
    · exact fun hr h => hstops (execThermalStep_stops hr h)
    · exact execThermalStep_early
    · exact fun h h95 hc => hretimed (execThermalStep_hot hr hn h h95 hc) ((retimed_thermalTo s _).mark _ _)
    · exact fun h90 hc => hretimed (execThermalStep_cool hr hn h90 hc) (retimed_thermalTo s _)
    · exact execThermalStep_between hr hn
    · exact fun w => execPowerCapWindow_early
    · exact fun hc => hretimed (execPowerCapWindow_above hr hn hw hc) ((retimed_powerTo s _).mark _ _)
    · exact execPowerCapWindow_idles hr hn hw
    · exact execPowerCapWindow_resumes hr hn hv
    · exact fun hi hc => hretimed (execPowerCapWindow_below hr hn hv hi hc) (retimed_powerTo s _)
    · exact fun hu n => ⟨execSetPowerCap_up hu n, execErrorThresholdWrite_up hu n, execCoreBinReset_up hu⟩

end Sys2Proof.Machine

/-!
# Encoding

The bytes of an instruction are those of its first word, then of its second where it has one. What the encoder writes for each
constructor decodes to it (`Laws/PerInstr`); here the constructors are taken together, and the words are read back from their bytes.
-/

namespace Sys2Proof.Laws.DecodeEncode

open Sys2Proof

/-! ## Words as bytes (R3) -/

theorem bytesOfNat_word (w : Word) :
    bytesOfNat 4 w.toNat = [w.extractLsb' 0 8, w.extractLsb' 8 8, w.extractLsb' 16 8, w.extractLsb' 24 8] := by
  simp only [bytesOfNat, List.cons.injEq, and_true]
  refine ⟨?_, ?_, ?_, ?_⟩ <;> apply BitVec.eq_of_toNat_eq <;> simp [BitVec.extractLsb'_toNat, Nat.shiftRight_eq_div_pow, Nat.div_div_eq_div_mul]

theorem wordOfBytes_extract (w : Word) :
    wordOfBytes (w.extractLsb' 0 8) (w.extractLsb' 8 8) (w.extractLsb' 16 8) (w.extractLsb' 24 8) = w := by
  apply BitVec.eq_of_getLsbD_eq; intro i hi
  simp only [wordOfBytes, BitVec.getLsbD_append, BitVec.getLsbD_extractLsb']
  grind

theorem decodeBytes_one {w : Word} {i : Instr} (h1 : isTwoWord w = false) (h : decodeWords w 0#32 = some i) (rest : List Byte) :
    decodeBytes (bytesOfNat 4 w.toNat ++ rest) = some (i, rest) := by
  simp only [bytesOfNat_word, List.cons_append, List.nil_append, decodeBytes, wordOfBytes_extract, h1, h, Bool.false_eq_true, if_false]

theorem decodeBytes_two {w y : Word} {i : Instr} (h2 : isTwoWord w = true) (h : decodeWords w y = some i) (rest : List Byte) :
    decodeBytes (bytesOfNat 4 w.toNat ++ bytesOfNat 4 y.toNat ++ rest) = some (i, rest) := by
  simp only [bytesOfNat_word, List.cons_append, List.nil_append, decodeBytes, wordOfBytes_extract, h2, h, if_true]

/-! ## Every constructor -/

/-- The lemmas of `Laws/PerInstr`, one for each constructor, in the order of the constructors. -/
theorem words_decode (i : Instr) : Statement i :=
  i.rec (motive := Statement)
    add32 sub32 mul32 mulhiN32 mulhiI32 idivN32 idivI32 remN32 remI32 addSatN32 addSatI32 subSatN32 subSatI32 minN32 minI32 maxN32 maxI32
    andB32 orB32 xorB32 andnB32 shlB32 shrB32 sarB32 add64 sub64 mul64 idivN64 idivI64 andB64 orB64 xorB64 shlB64 shrB64 sarB64 cmpN32
    cmpI32 cmpN64 cmpI64 plog faddF32 fsubF32 fmulF32 fminF32 fmaxF32 fcmpF32 fdivF32 fsqrtF32 faddF64 fsubF64 fmulF64 fminF64 fmaxF64
    fcmpF64 fdivF64 fsqrtF64 popcB32 clzB32 brevB32 movB32 movB64 fclassF32 fclassF64 add32X sub32X mul32X andB32X orB32X xorB32X andnB32X
    shlB32X shrB32X sarB32X minN32X minI32X maxN32X maxI32X addSatN32X addSatI32X cmpN32X cmpI32X movB32X add64X sub64X cmpN64X cmpI64X
    movB64X selB32 selB64 bfeN32 bfeI32 bfiB32 mad32 mad64 shrrI32 addI16x2 subI16x2 addSatI16x2 subSatI16x2 mulI16x2 minI16x2 maxI16x2
    packI16x2 pdot2I16x2 shrrSatI16 addN8x4 subN8x4 addSatN8x4 subSatN8x4 minN8x4 maxN8x4 faddF32X fmulF32X ffmaF32 fcmpF32X faddF64X
    fmulF64X ffmaF64 fcmpF64X faddF16x2 fmulF16x2 ffmaF16x2 faddBf16x2 fmulBf16x2 ffmaBf16x2 fsubF32X fsubF64X ldGN8 ldGI8 ldGN16 ldGI16
    ldGB32 ldGB64 ldGQual stGB8 stGB16 stGB32 stGB64 stGQual ldkB32 ldkB64 ldt stt ldCmN8 ldCmI8 ldCmN16 ldCmI16 ldCmB32 ldCmB64 ldCmQual
    stCmB8 stCmB16 stCmB32 stCmB64 stCmQual atom atomCas fence alloc free cpyIn cpyOut cpyG waitc qfence sclaim srel stkLd mtile rzero rimLd
    rimSt termrd bra brx switch call ret exit exitto rcb bar join leave rgnOpen rgnClose scope endscope wpush wpop sleep brk trap nop calle
    calleRet lmode lstat shuf vote red bcast movs cvt rcpF32 rcpF64 rsqF32 rsqF64 exp2F32 log2F32 sinF32 cosF32 fminF16x2 fmaxF16x2
    fminBf16x2 fmaxBf16x2 fcmpF16x2 fcmpBf16x2 fclassF16x2 fclassBf16x2 hclr hfma hfma3 hadd hsgn hrnd uAdd32 uSub32 uMul32 uMulhiN32
    uMulhiI32 uIdivN32 uIdivI32 uRemN32 uRemI32 uAndB32 uOrB32 uXorB32 uShlB32 uShrB32 uSarB32 uMinN32 uMinI32 uMaxN32 uMaxI32 uAdd64 uSub64
    uMul64 uShlB64 uShrB64 uCmpN32 uCmpI32 uCmpN64 uCmpI64 uPlog uMovB32 uMovB64 uPopcB32 uAdd32X uSub32X uMul32X uAndB32X uOrB32X uXorB32X
    uShlB32X uShrB32X uSarB32X uMinN32X uMinI32X uMaxN32X uMaxI32X uAdd64X uCmpN32X uCmpI32X uCmpN64X uCmpI64X uMovB32X uMovB64X uSelB32
    uSelB64 uBfeN32 uMad32 uFaddF32 uFmulF32 uFfmaF32 uFcmpF32 uFaddF64 uFmulF64 uFfmaF64 uCvt sBra sBrx sCall sRet sExit dpush dpop bucket
    nodeput waitn ckpt yield sNop uLdGB32 uLdGB64 uStGB32 uStGB64 uLdCmB32 uLdCmB64 uStCmB32 uStCmB64 uLdGQual uStGQual uLdCmQual uStCmQual
    uLdkB32 uLdkB64 uAtom uFence uAlloc uFree uCpyIn uCpyOut uCpyG uWaitc uQfence rdcnt csrr csrw rft fgetPc fgetMask fgetPrio fgetReg
    fsetPc fsetMask fsetReg xlinv injsetSeed injsetRate injsetClasses injsetShot injsetArm nodePost nodeputDone instanceAdmit weaveAdmit
    admissionStarvation nodeAging balancerSample instanceYield instanceReadmit kernelNodeComplete tileNodeRun trapDelivery poisonContainment
    freeze resume weaveRestart rcbRelease sleepExpire feLoadWake joinGrant scopeGrant sclaimGrant dpushAppend dpopTake wpushAppend wpopTake
    waitcComplete waitnComplete waitnLimit yieldComplete ckptRecord pairedExitRelease memoryResultArrive storeQueueDrain cpyInPerform
    cpyOutPerform cpyGPerform stkLdPerform mtileStart mtileComplete rzeroPerform rimLdPerform rimStPerform srelPerform valueStoreEpochFlush
    pairCompare injectorFire coreErrorWindow patternTestDone channelRetire coreLend revoke revokeFreezeTimeout coreScrub start
    startWatchdogExpire firmwareLoad fullStartRequest undervoltageStop thermalStep powerCapWindow setPowerCap partitionConfigWrite
    vfRecordWrite vfStateWrite heapWrite scopePolicyWrite mgmtRegisterWrite counterLowRead counterHighRead granuleTakeBack backgroundScrub
    shootdownMessage shootdownComplete writeTrapAck rmaWrite rmaRead rmaAtomic remoteAccess attestationRequest watchpointWrite
    samplingExponentWrite traceMessageSend errorThresholdWrite coreBinReset wordNotInstruction l1Eviction softError inputBelow40v
    unimplementedModePacket trustListInstall

end Sys2Proof.Laws.DecodeEncode

namespace Sys2Proof.Laws

/-- Settles O3: the words of an instruction decode to it, constructor by constructor, and whether a second word is read depends on the
first alone, so the bytes of the words are read back whether there are four or eight. -/
theorem decodeEncode : Obligations.DecodeEncode := by
  unfold Obligations.DecodeEncode
  intro i hi w x he rest
  obtain ⟨h2, hd⟩ := DecodeEncode.words_decode i hi w x he
  cases x with
  | none => simpa using DecodeEncode.decodeBytes_one h2 hd rest
  | some y => exact DecodeEncode.decodeBytes_two h2 hd rest

/-- Settles O4: each word decoded by the kernel. -/
theorem specWords : Obligations.SpecWords := by
  unfold Obligations.SpecWords
  refine ⟨?_, ?_, ?_, ?_⟩ <;> decide +kernel

end Sys2Proof.Laws

/-!
# Operands

The value of a literal by the operand's type, of a lane source, and of a source with a neighbour selector: inside the weave and at its edges.
-/

namespace Sys2Proof.Machine

open Sys2Proof

/-! ## Literals (R38) -/

section Literals

variable (p : BitVec 28)

theorem toInt_litValue_w32 : ((litValue .w32 p).setWidth 32 : Word).toInt = p.toInt := by
  have h : ((litValue .w32 p).setWidth 32 : Word) = p.signExtend 32 := BitVec.setWidth_setWidth_of_le _ (by omega)
  rw [h, BitVec.toInt_signExtend_of_le (by omega)]

theorem toNat_litValue_w32_lt : (litValue .w32 p).toNat < 2 ^ 32 := by
  simp only [litValue, BitVec.toNat_setWidth]
  have := (p.signExtend 32).isLt
  omega

theorem toInt_litValue_w64 : (litValue .w64 p).toInt = p.toInt := BitVec.toInt_signExtend_of_le (by omega)

theorem toNat_litValue_f32 : (litValue .f32 p).toNat = p.toNat * 2 ^ 4 := by
  have := p.isLt
  simp only [litValue, BitVec.toNat_setWidth, BitVec.toNat_append, BitVec.toNat_ofNat, Nat.zero_mod, Nat.or_zero, Nat.shiftLeft_eq]
  omega

theorem toNat_litValue_f64 : (litValue .f64 p).toNat = p.toNat * 2 ^ 36 := by
  simp only [litValue, BitVec.toNat_append, BitVec.toNat_ofNat, Nat.zero_mod, Nat.or_zero, Nat.shiftLeft_eq]

/-- Two bit vectors side by side as a number. -/
theorem toNat_append_eq {m n : Nat} (x : BitVec m) (y : BitVec n) : (x ++ y).toNat = x.toNat * 2 ^ n + y.toNat := by
  rw [BitVec.toNat_append, Nat.shiftLeft_eq, Nat.mul_comm, Nat.two_pow_add_eq_or_of_lt y.isLt]

theorem toNat_litValue_h2 : (litValue .h2 p).toNat = p.toNat % 2 ^ 16 * 0x10001 := by
  simp only [litValue, BitVec.toNat_setWidth, toNat_append_eq, BitVec.extractLsb'_toNat, Nat.shiftRight_zero]
  omega

theorem toNat_litValue_b4 : (litValue .b4 p).toNat = p.toNat % 2 ^ 8 * 0x1010101 := by
  simp only [litValue, BitVec.toNat_setWidth, toNat_append_eq, BitVec.extractLsb'_toNat, Nat.shiftRight_zero]
  omega

end Literals

/-! ## Registers and latches (R31, R32, R40, R47) -/

section Sources

variable {x : Core} {w : Weave} {u r : Nat} {wide : Bool}

theorem readReg_single (h : vPoisoned x w u r = false) : readReg x w u r false = .ok ((readV w u r).setWidth 64) := by
  simp only [readReg, h, Bool.false_eq_true, if_false]

theorem readReg_pair (h : vPoisoned x w u r = false) (h1 : vPoisoned x w u (r + 1) = false) :
    readReg x w u r true = .ok (readV w u (r + 1) ++ readV w u r) := by
  simp only [readReg, h, h1, Bool.or_false, Bool.false_eq_true, if_false, if_true, readVD]

theorem readReg_poisoned (h : vPoisoned x w u r = true) : readReg x w u r wide = .error 0x01 := by
  cases wide <;> simp only [readReg, h, Bool.true_or, Bool.false_eq_true, if_false, if_true, cPOISON]

theorem readLatch_invalid {l : Lane} {k : Nat} (h : l.valid.getLsbD k = false) : readLatch l u k wide = .error 0x0b := by
  simp only [readLatch, h, Bool.not_false, if_true, cLATCH]

theorem setWidth_low (v : Double) : ((v.setWidth 32).setWidth 64 : Double) = v &&& 0xffffffff#64 := by
  apply BitVec.eq_of_toNat_eq
  rw [BitVec.toNat_and, show (0xffffffff#64).toNat = 2 ^ 32 - 1 from rfl, Nat.and_two_pow_sub_one_eq_mod]
  simp only [BitVec.toNat_setWidth]
  omega

theorem readLatch_valid {l : Lane} {k : Nat} (h : l.valid.getLsbD k = true) (hb : nmem l.bad (32 * k + u) = false) :
    readLatch l u k wide = .ok (if wide then sget 0#64 l.latches (32 * k + u) else sget 0#64 l.latches (32 * k + u) &&& 0xffffffff#64) := by
  simp only [readLatch, latchKey, h, hb, Bool.not_true, Bool.false_eq_true, if_false, setWidth_low]

/-! ## Neighbours and edges (R304) -/

variable {n : BitVec 7} {edge : Edge} {lit : Double} {p : BitVec 28} {f : BitVec 6}

/-- The thread at the left of thread `u`, or what the edge gives thread 0. -/
theorem readOpd_left : readOpd x w edge u (.src (.v n) wide .left lit p) =
    if 0 < u then readReg x w (u - 1) n.toNat wide
    else match edge with
      | .zero => .ok 0#64
      | .wrap => readReg x w 31 n.toNat wide
      | .clamp => readReg x w u n.toNat wide
      | .fill f => fillValue x w f.toNat wide := by
  simp only [readOpd, readNbr, Bool.true_and, decide_eq_true_eq, Bool.not_true, Bool.false_and, Bool.false_eq_true, if_false, if_true] <;> rfl

/-- The thread at the right of thread `u`, or what the edge gives thread 31. -/
theorem readOpd_right : readOpd x w edge u (.src (.v n) wide .right lit p) =
    if u < 31 then readReg x w (u + 1) n.toNat wide
    else match edge with
      | .zero => .ok 0#64
      | .wrap => readReg x w 0 n.toNat wide
      | .clamp => readReg x w u n.toNat wide
      | .fill f => fillValue x w f.toNat wide := by
  simp only [readOpd, readNbr, Bool.true_and, decide_eq_true_eq, Bool.not_false, Bool.false_and, Bool.false_eq_true, if_false] <;> rfl

/-- Whether the fill register, or the value it is bound to, is poisoned. -/
def fillPoisoned (x : Core) (w : Weave) (j : Nat) : Bool := nmem w.sbad j || tagBad x (stag w j)

theorem fillValue_single {f : Nat} (h : fillPoisoned x w f = false) : fillValue x w f false = .ok ((readS (weaveFile w) f).setWidth 64) := by
  have h' : (nmem (weaveFile w).bad f || tagBad x (stag w f)) = false := h
  simp only [fillValue, h', Bool.false_and, Bool.or_false, Bool.false_eq_true, if_false]

theorem fillValue_pair {f : Nat} (h : fillPoisoned x w f = false) (h1 : fillPoisoned x w (f + 1) = false) :
    fillValue x w f true = .ok (readS (weaveFile w) (f + 1) ++ readS (weaveFile w) f) := by
  have h' : (nmem (weaveFile w).bad f || tagBad x (stag w f)) = false := h
  have h1' : (nmem (weaveFile w).bad (f + 1) || tagBad x (stag w (f + 1))) = false := h1
  simp only [fillValue, h', h1', Bool.and_false, Bool.or_false, Bool.false_eq_true, if_false, if_true, readSD]

theorem fillValue_poisoned {f : Nat} (h : fillPoisoned x w f = true) : fillValue x w f wide = .error 0x01 := by
  have h' : (nmem (weaveFile w).bad f || tagBad x (stag w f)) = true := h
  simp only [fillValue, h', Bool.true_or, if_true, cPOISON]

end Sources

/-- Settles O9: each kind of source by its own reading rule; a neighbour's edge by the edge field, the two ends apart. -/
theorem laneSources : Obligations.LaneSources := by
  unfold Obligations.LaneSources
  refine ⟨fun x w u lit n k => ?sources, fun p => ?literals, fun x w u n wide edge lit p hu => ?neighbours⟩
  case sources =>
    exact ⟨readReg_single, readReg_pair, fun h _ => readReg_poisoned h, fun _ => ⟨rfl, rfl, rfl⟩, fun h _ => readLatch_invalid h,
      fun h hb => ⟨readLatch_valid h hb, readLatch_valid h hb⟩⟩
  case literals =>
    exact ⟨toInt_litValue_w32 p, toNat_litValue_w32_lt p, toInt_litValue_w64 p, toNat_litValue_f32 p, toNat_litValue_f64 p,
      toNat_litValue_h2 p, toNat_litValue_b4 p⟩
  case neighbours =>
    refine ⟨fun h => by rw [readOpd_left, if_pos h], fun h => by rw [readOpd_right, if_pos h], readOpd_left, readOpd_right, readOpd_left,
      readOpd_right, readOpd_left, readOpd_right, fun f => ?_⟩
    intro bad fill
    have hl (wide : Bool) : fill 0 .left wide = fillValue x w f.toNat wide := readOpd_left
    have hr (wide : Bool) : fill 31 .right wide = fillValue x w f.toNat wide := readOpd_right
    simp only [hl, hr]
    exact ⟨fun h => ⟨fillValue_single h, fillValue_single h⟩, fun h h1 => ⟨fillValue_pair h h1, fillValue_pair h h1⟩,
      fun h => ⟨fillValue_poisoned h, fillValue_poisoned h⟩⟩

end Sys2Proof.Machine

/-!
# Latch history and lineage

A one-word form with a register destination shifts the history of its lane, and the end of the instruction leaves the lanes and the lineage
counters alone. The forms with two register sources are matched with the rows of their rules once, so that the statement about each of them
follows from one lemma about the history.
-/

namespace Sys2Proof.Machine

open Sys2Proof

/-! ## The latch history (R47) -/

theorem sget_ssetAll_map {α : Type} [DecidableEq α] (d : α) (t : Sparse α) (l : List Nat) (f : Nat → α) (i : Nat) :
    sget d (ssetAll d t (l.map fun u => (u, f u))) i = if i ∈ l then f i else sget d t i := by
  induction l generalizing t with
  | nil => rfl
  | cons u r ih =>
    rw [List.map_cons, ssetAll, ih, sget_sset]
    by_cases hr : i ∈ r
    · simp [hr]
    · by_cases hu : i = u
      · subst hu; simp
      · simp [hr, hu]

/-- The three younger latches as they stand after the shift. -/
theorem sfind_older {α : Type} (t : Sparse α) (i : Nat) :
    sfind ((t.filter (fun e => e.1 < 96)).map (fun e => (e.1 + 32, e.2))) i = if 32 ≤ i ∧ i < 128 then sfind t (i - 32) else none := by
  induction t with
  | nil => simp [sfind]
  | cons e r ih =>
    obtain ⟨k, v⟩ := e
    by_cases hi : 32 ≤ i ∧ i < 128
    · simp only [hi, and_self, if_true, List.filter_cons] at ih ⊢
      by_cases h : k + 32 = i
      · subst h
        simp [sfind, show k < 96 by omega]
      · have h' : ¬ k = i - 32 := by omega
        split <;> simp [sfind, h, h', ih]
    · simp only [hi, if_false, List.filter_cons] at ih ⊢
      split
      · rename_i hk
        simp only [decide_eq_true_eq] at hk
        simp [sfind, ih, show ¬ k + 32 = i by omega]
      · exact ih

theorem sget_shiftLatches (l : Lane) (ts : List Nat) (f : Nat → Double) (i : Nat) :
    sget 0#64 (shiftLatches l (ts.map fun u => (u, f u))).latches i =
      if i ∈ ts then f i else if 32 ≤ i ∧ i < 128 then sget 0#64 l.latches (i - 32) else 0#64 := by
  simp only [shiftLatches, sget_ssetAll_map]
  congr 1
  simp only [sget, sfind_older]
  split <;> rfl

theorem latchRuns_cleanRuns (d : LDst) (l : List Nat) (g v : Nat → Double) (fl : Nat → Flags) :
    latchRuns d (cleanRuns l g v fl) = l.map fun u => (u, latchOf d (v u)) := by
  simp only [latchRuns, cleanRuns, List.filterMap_map]
  exact congrFun (List.filterMap_eq_map (f := fun u => (u, latchOf d (v u)))) l

/-- The lane as a lane instruction's effect finds it is its weave's. -/
theorem owner_laneCore (s : State) (c k : Nat) (w : Weave) : (sget Lane.blank (laneCore s c k w).lanes w.lane).owner = some k := by
  simp only [laneCore, laneState, claimLane, getCore_onCore_self]
  split
  · assumption
  · simp only [sget_sput_self]

/-! ## What the end of a lane instruction leaves -/

theorem refEntry_lanes (x : Core) (n : Nat) (b : Bool) : (refEntry x n b).lanes = x.lanes := by
  unfold refEntry; split <;> rfl

theorem untagV_lanes (rs : List Nat) (x : Core) (w : Weave) : (untagV x w rs).1.lanes = x.lanes := by
  unfold untagV
  induction rs generalizing x w with
  | nil => rfl
  | cons r rs ih =>
    rw [List.foldl_cons]
    split
    · exact ih x w
    · exact (ih _ _).trans ((refEntry_lanes _ _ _).trans (refEntry_lanes _ _ _))

theorem untagS_lanes (rs : List Nat) (x : Core) (w : Weave) : (untagS x w rs).1.lanes = x.lanes := by
  unfold untagS
  induction rs generalizing x w with
  | nil => rfl
  | cons r rs ih =>
    rw [List.foldl_cons]
    split
    · exact ih x w
    · exact (ih _ _).trans ((refEntry_lanes _ _ _).trans (refEntry_lanes _ _ _))

theorem untag_lanes (s : State) (c k : Nat) (wv ws : List Nat) : (getCore (untag s c k wv ws) c).lanes = (getCore s c).lanes := by
  unfold untag
  split
  · rfl
  · split
    · rfl
    · rw [getCore_onCore_self]
      exact (untagS_lanes _ _ _).trans (untagV_lanes _ _ _)

theorem untag_lstat {s : State} {c k : Nat} {w w' : Weave} {wv ws : List Nat} (hw : getWeave s c k = some w)
    (h : getWeave (untag s c k wv ws) c k = some w') : w'.lstat = w.lstat := by
  simp only [untag, hw] at h
  split at h
  · rw [hw] at h; cases h; rfl
  · simp only [getWeave, getCore_onCore_self, sfind_sput_self, Option.some.injEq] at h
    obtain ⟨-, -, g, hv⟩ := untagV_spec wv (getCore s c) w
    obtain ⟨-, -, g', hs⟩ := untagS_spec ws (untagV (getCore s c) w wv).1 (untagV (getCore s c) w wv).2
    rw [← h, hs, hv]

section End

variable {c k : Nat} {e : Entry} {d : Done} {w : Weave} (hd : d.wait = none) (hg : d.gs = []) (hw : getWeave d.s c k = some w)
  (hm : e.mask ≠ 0#32) (hr : (held (w.frontier.filter (fun x => x.mask &&& e.mask == 0#32))).length < 16)

include hd hg hw hm hr

/-- A lane instruction whose threads all fall through: its end touches neither the lanes nor the lineage counters. -/
theorem laneEnd_lineage (size : Nat) (ch : Bool) : (getCore (laneEnd c k e size ch d) c).lanes = (getCore d.s c).lanes ∧
    ∀ w', getWeave (laneEnd c k e size ch d) c k = some w' → w'.lstat = w.lstat := by
  obtain ⟨w1, h1, -, f1, -⟩ := untag_spec hw d.wv d.ws
  let u := onCore (untag d.s c k d.wv d.ws) c (fun x => countCore x 0x001 1)
  have h2 : getWeave u c k = some w1 := (getWeave_onCore _ c (fun x => countCore x 0x001 1) (fun _ => rfl) c k).trans h1
  let w2 := countWeave w1 0x103 (max 1 d.cycles)
  obtain ⟨w3, h3, -, -, -, l3, -⟩ := retire_next (s := putWeave u c k w2) (w := w2) (getWeave_putWeave_self _ _ _ _) hm
    (by rw [show w2.frontier = w.frontier from f1]; exact hr) size ch
  have he : laneEnd c k e size ch d = putWeave { putWeave u c k w2 with seq := (putWeave u c k w2).seq + 1 } c k w3 := by
    rw [← h3]
    simp only [laneEnd, hd, hg, onWeave_some h2, u, w2]
  have hl : (getCore u c).lanes = (getCore d.s c).lanes := by
    rw [getCore_onCore_self]; exact untag_lanes _ _ _ _ _
  rw [he]
  refine ⟨?_, fun w' hw' => ?_⟩
  · rw [getCore_putWeave]
    exact (congrArg Core.lanes (getCore_putWeave u c k w2) :).trans hl
  · rw [getWeave_putWeave_self] at hw'
    cases hw'
    have hl3 : w3.lstat = w1.lstat := l3
    exact hl3.trans (untag_lstat hw h1)

end End

/-! ## A lane arithmetic form on its turn -/

section Alu

variable (f : AluForm) (copy : Bool) {s : State} {c k : Nat} {e : Entry} {w : Weave} (h : LaneTurn s c k e w)
  (hl : illegalHere w e f.size f.chain (mayChain f.dst) f.regs = false) (hm : w.unlooked e) {g v : Nat → Double} {fl : Nat → Flags}
  (hrun : ∀ u, acts w e f.guard u →
    runThread f (laneCore s c k w) w (resolve w.mode f.round) u = { tid := u, gen := g u, res := .ok (v u, fl u) })

include h hl hm hrun

/-- The results of a form that is not looked up, its effect and the end of the instruction. -/
theorem laneAlu_commits : laneAlu f copy s = .next (laneEnd c k e f.size f.chain
    (commitRuns (laneState s c k w) c k w f.dst f.supp (shiftsHistory f.dst) f.occ none (cleanRuns (threadsOf (activeMask w e f.guard)) g v fl))) := by
  have hrs : (threadsOf (activeMask w e f.guard)).map (runThread f (laneCore s c k w) w (resolve w.mode f.round))
      = cleanRuns (threadsOf (activeMask w e f.guard)) g v fl := List.map_congr_left fun u hu => hrun u (mem_activeMask.mp hu)
  have hnot : lookable w e (activeMask w e f.guard) f.supp f.key f.guard (resolve w.mode f.round) = false := by
    rcases hm with hm | hm
    · simp [lookable, hm]
    · rw [lookable, beq_eq_false_iff_ne.mpr hm]; simp
  refine (laneIssue_turn h _ hl _).trans ?_
  simp only [aluBody, hnot, Bool.false_and, Bool.false_eq_true, if_false]
  rw [← hrs]
  rfl

/-- A form with a register destination: the history of the weave's lane shifts, S bit or not. -/
theorem laneAlu_shifts (hd : shiftsHistory f.dst = true) : ∃ t, laneAlu f copy s = .next t ∧
    sget Lane.blank (getCore t c).lanes w.lane = shiftLatches (sget Lane.blank (laneCore s c k w).lanes w.lane)
      ((threadsOf (activeMask w e f.guard)).map fun u => (u, latchOf f.dst (v u))) := by
  refine ⟨_, laneAlu_commits f copy h hl hm hrun, ?_⟩
  generalize hrs : cleanRuns (threadsOf (activeMask w e f.guard)) g v fl = rs
  have hf : (applyRuns w f.supp f.dst rs).frontier = w.frontier := applyRuns_frontier _ _ _ _
  have hn : (applyRuns w f.supp f.dst rs).lane = w.lane := (congrArg Weave.lane (applyRuns_base w f.supp f.dst rs) :)
  have hgs : runGroups rs = [] := hrs ▸ runGroups_clean _ _ _ _
  have hend := (laneEnd_lineage (d := commitRuns (laneState s c k w) c k w f.dst f.supp (shiftsHistory f.dst) f.occ none rs) (c := c) (k := k)
    (e := e) (w := applyRuns w f.supp f.dst rs) rfl hgs (getWeave_putWeave_self _ _ _ _) h.live (by rw [hf]; exact h.room) f.size f.chain).1
  rw [hend]
  simp only [commitRuns, hd, if_true, getCore_putWeave, getCore_onCore_self, onLane, hn, sget_sput_self]
  rw [← hrs, latchRuns_cleanRuns]
  rfl

end Alu

/-! ## The one-word forms with two register sources and their rules (11 R266 to R275) -/

/-- The machine's meaning of a row: a form of the same types, without draws and traps, whose results are the rule's; a one-register result has no
bit above it. -/
structure RowMeant (r : Rules.Row LaneR) (y : FormTy) (g : Fn) : Prop where
  meaning : ∀ f s, exec (r.form f) s = laneAlu (formR y g f) false s
  td : y.td = r.td
  ta : y.ta = r.ta
  tb : y.tb = r.tb
  draws : y.draws = 0
  traps : y.traps = false
  fn : ∀ n a b c, g n a b c = r.fn n a b c
  fits : r.td.wide = false → ∀ n a b c, ((r.fn n a b c).1.setWidth 32).setWidth 64 = (r.fn n a b c).1

/-- The types of a one-word form of 32-bit operands: its table key and its cycles. -/
def types32 (key occ : Nat) : FormTy := { key := key, td := .w32, ta := .w32, tb := .w32, occ := occ, draws := 0, traps := false }

/-- The types of a one-word form of 64-bit operands. -/
def types64 (key occ : Nat) : FormTy := { key := key, td := .w64, ta := .w64, tb := .w64, occ := occ, draws := 0, traps := false }

/-- The types of a one-word 64-bit shift. -/
def typesShift (key : Nat) : FormTy := { key := key, td := .w64, ta := .w64, tb := .w32, occ := 1, draws := 0, traps := false }

section Rows

variable {mk : LaneR → Instr} {key occ : Nat} {op : Op2}

theorem meant_i32 {f : Word → Word → Word × Flags} (hx : ∀ x s, exec (mk x) s = laneAlu (formR (types32 key occ) (fn2 op) x) false s)
    (hf : ∀ n a b c, fn2 op n a b c = Rules.of32 f a b) : ∃ y g, RowMeant (Rules.i32 mk (Rules.of32 f)) y g :=
  ⟨_, _, hx, rfl, rfl, rfl, rfl, rfl, hf,
    fun _ _ _ _ _ => congrArg (BitVec.setWidth 64) ((BitVec.setWidth_setWidth_of_le _ (by omega)).trans (BitVec.setWidth_eq _))⟩

theorem meant_pure32 {f g : Word → Word → Word} (hx : ∀ x s, exec (mk x) s = laneAlu (formR (types32 key occ) (fn2 (op32 f)) x) false s)
    (hf : ∀ a b, f a b = g a b) : ∃ y g', RowMeant (Rules.i32 mk (Rules.pure32 g)) y g' :=
  meant_i32 hx (pure_eq f g hf)

theorem meant_i64 {f : Double → Double → Double × Flags} (hx : ∀ x s, exec (mk x) s = laneAlu (formR (types64 key occ) (fn2 op) x) false s)
    (hf : ∀ n a b c, fn2 op n a b c = f a b) : ∃ y g, RowMeant (Rules.i64 mk f) y g :=
  ⟨_, _, hx, rfl, rfl, rfl, rfl, rfl, hf, fun h => by cases h⟩

theorem meant_pure64 {f g : Double → Double → Double}
    (hx : ∀ x s, exec (mk x) s = laneAlu (formR (types64 key occ) (fn2 (op64 f)) x) false s) (hf : ∀ a b, f a b = g a b) :
    ∃ y g', RowMeant (Rules.i64 mk (Rules.pure64 g)) y g' :=
  meant_i64 hx (pure64_eq f g hf)

theorem meant_s64 {f : Double → Nat → Double} (hx : ∀ x s, exec (mk x) s = laneAlu (formR (typesShift key) (fn2 op) x) false s)
    (hf : ∀ n a b c, fn2 op n a b c = Rules.shift64 f a b) : ∃ y g, RowMeant (Rules.s64 mk f) y g :=
  ⟨_, _, hx, rfl, rfl, rfl, rfl, rfl, hf, fun h => by cases h⟩

/-- A 32-bit result with its flags, as a thread's result. -/
def widened (r : Word × Flags) : Double × Flags := (r.1.setWidth 64, r.2)

/-- Every one-word integer form with two register sources, in the order of the table. -/
theorem laneR_meant : ∀ r ∈ Rules.laneR, ∃ y g, RowMeant r y g := by
  simp only [Rules.laneR, List.forall_mem_cons]
  refine ⟨meant_pure32 (key := 0) (occ := 1) (fun _ _ => rfl) fun a b => (add_eq 32 a b).symm,
    meant_pure32 (key := 1) (occ := 1) (fun _ _ => rfl) fun a b => (sub_eq 32 a b).symm,
    meant_pure32 (key := 2) (occ := 1) (fun _ _ => rfl) fun a b => (mul_eq 32 a b).symm,
    meant_pure32 (key := 3) (occ := 1) (fun _ _ => rfl) fun a b => (mulhiN_eq a b).symm,
    meant_pure32 (key := 4) (occ := 1) (fun _ _ => rfl) fun a b => (mulhiI_eq a b).symm,
    meant_i32 (key := 5) (occ := 4) (fun _ _ => rfl) fun _ a b _ => congrArg widened (divN_eq 32 (lo32 a) (lo32 b)),
    meant_i32 (key := 6) (occ := 4) (fun _ _ => rfl) fun _ a b _ => congrArg widened (divI_eq 32 (lo32 a) (lo32 b)),
    meant_i32 (key := 7) (occ := 4) (fun _ _ => rfl) fun _ a b _ => remN_eq (lo32 a) (lo32 b),
    meant_i32 (key := 8) (occ := 4) (fun _ _ => rfl) fun _ a b _ => remI_eq (lo32 a) (lo32 b),
    meant_i32 (key := 9) (occ := 1) (fun _ _ => rfl) fun _ _ _ _ => satN _,
    meant_i32 (key := 10) (occ := 1) (fun _ _ => rfl) fun _ _ _ _ => satI _,
    meant_i32 (key := 11) (occ := 1) (fun _ _ => rfl) fun _ _ _ _ => satN _,
    meant_i32 (key := 12) (occ := 1) (fun _ _ => rfl) fun _ _ _ _ => satI _,
    meant_pure32 (key := 13) (occ := 1) (fun _ _ => rfl) minN_eq,
    meant_pure32 (key := 14) (occ := 1) (fun _ _ => rfl) minI_eq,
    meant_pure32 (key := 15) (occ := 1) (fun _ _ => rfl) maxN_eq,
    meant_pure32 (key := 16) (occ := 1) (fun _ _ => rfl) maxI_eq,
    meant_pure32 (key := 17) (occ := 1) (fun _ _ => rfl) fun _ _ => rfl,
    meant_pure32 (key := 18) (occ := 1) (fun _ _ => rfl) fun _ _ => rfl,
    meant_pure32 (key := 19) (occ := 1) (fun _ _ => rfl) fun _ _ => rfl,
    meant_pure32 (key := 20) (occ := 1) (fun _ _ => rfl) fun _ _ => rfl,
    meant_pure32 (key := 21) (occ := 1) (f := fun a b => shlW a b.toNat) (fun _ _ => rfl) fun a b => shl_eq 32 a b.toNat,
    meant_pure32 (key := 22) (occ := 1) (f := fun a b => shrW a b.toNat) (fun _ _ => rfl) fun a b => shr_eq 32 a b.toNat,
    meant_pure32 (key := 23) (occ := 1) (f := fun a b => sarW a b.toNat) (fun _ _ => rfl) fun a b => sar_eq 32 (by decide) a b.toNat,
    meant_pure64 (key := 24) (occ := 1) (fun _ _ => rfl) fun a b => (add_eq 64 a b).symm,
    meant_pure64 (key := 25) (occ := 1) (fun _ _ => rfl) fun a b => (sub_eq 64 a b).symm,
    meant_pure64 (key := 26) (occ := 1) (fun _ _ => rfl) fun a b => (mul_eq 64 a b).symm,
    meant_i64 (key := 27) (occ := 8) (fun _ _ => rfl) fun _ a b _ => divN_eq 64 a b,
    meant_i64 (key := 28) (occ := 8) (fun _ _ => rfl) fun _ a b _ => divI_eq 64 a b,
    meant_pure64 (key := 29) (occ := 1) (fun _ _ => rfl) fun _ _ => rfl,
    meant_pure64 (key := 30) (occ := 1) (fun _ _ => rfl) fun _ _ => rfl,
    meant_pure64 (key := 31) (occ := 1) (fun _ _ => rfl) fun _ _ => rfl,
    meant_s64 (key := 32) (fun _ _ => rfl) fun _ a b _ => congrArg (·, 0#6) (shl_eq 64 a (lo32 b).toNat),
    meant_s64 (key := 33) (fun _ _ => rfl) fun _ a b _ => congrArg (·, 0#6) (shr_eq 64 a (lo32 b).toNat),
    meant_s64 (key := 34) (fun _ _ => rfl) fun _ a b _ => congrArg (·, 0#6) (sar_eq 64 (by decide) a (lo32 b).toNat), by simp⟩

end Rows

theorem acts_noGuard {w : Weave} {e : Entry} {u : Nat} : acts w e noGuard u ↔ u < 32 ∧ e.mask.getLsbD u = true := by
  rw [← mem_activeMask, activeMask_noGuard, mem_threadsOf]

theorem regs_formR (y : FormTy) (g : Fn) (f : LaneR) :
    (formR y g f).regs = opdRegs (plainOpd f.a y.ta) ++ opdRegs (plainOpd f.b y.tb) ++ [(f.d.toNat, if y.td.wide then 2 else 1)] :=
  congrArg (· ++ _) (List.append_nil _)

/-- A row's form on its turn: the lane's history shifts, the rule's results its youngest. -/
theorem RowMeant.shifts {r : Rules.Row LaneR} {y : FormTy} {g : Fn} (hr : RowMeant r y g) (f : LaneR) {s : State} {c k : Nat} {e : Entry}
    {w : Weave} {va vb : Nat → Double} (h : LaneTurn s c k e w)
    (hl : illegalHere w e 4 f.c true (opdRegs (Rules.src f.a r.ta) ++ opdRegs (Rules.src f.b r.tb) ++ [(f.d.toNat, if r.td.wide then 2 else 1)])
      = false) (hm : w.unlooked e)
    (ho : ∀ u, e.mask.getLsbD u = true → readOpd (laneCore s c k w) w .zero u (Rules.src f.a r.ta) = .ok (va u) ∧
      readOpd (laneCore s c k w) w .zero u (Rules.src f.b r.tb) = .ok (vb u)) :
    ∃ t, exec (r.form f) s = .next t ∧ sget Lane.blank (getCore t c).lanes w.lane =
      shiftLatches (sget Lane.blank (laneCore s c k w).lanes w.lane) ((threadsOf e.mask).map fun u =>
        (u, (r.fn { mode := resolve w.mode .dflt, d0 := 0#32, d1 := 0#32 } (va u) (vb u) 0#64).1)) := by
  obtain ⟨hx, htd, hta, htb, hdraws, htraps, hfn, hfits⟩ := hr
  have hdr (gen : Double) : takeDraws (resolve w.mode .dflt) y.draws gen = ({ mode := resolve w.mode .dflt, d0 := 0#32, d1 := 0#32 }, gen) := by
    simp [takeDraws, hdraws]
  have hrun (u : Nat) (hu : acts w e noGuard u) : runThread (formR y g f) (laneCore s c k w) w (resolve w.mode .dflt) u =
      { tid := u, gen := readGen w u, res := .ok (r.fn { mode := resolve w.mode .dflt, d0 := 0#32, d1 := 0#32 } (va u) (vb u) 0#64) } := by
    obtain ⟨ha, hb⟩ := ho u (acts_noGuard.mp hu).2
    rw [runThread_ok (formR y g f) _ w _ u (va := va u) (vb := vb u) (vc := 0#64) (by rw [← ha, ← hta]; rfl) (by rw [← hb, ← htb]; rfl) rfl
      (fun ht => by cases htraps.symm.trans ht)]
    simp only [formR, hdr, hfn]
  rw [hx]
  obtain ⟨t, h1, h2⟩ := laneAlu_shifts (formR y g f) false h
    (by rw [regs_formR, htd, hta, htb]; exact hl) hm hrun rfl
  refine ⟨t, h1, h2.trans ?_⟩
  simp only [formR, activeMask_noGuard]
  congr 1
  refine List.map_congr_left fun u _ => congrArg (Prod.mk u) ?_
  rw [htd]
  cases hw : r.td.wide
  · exact hfits hw _ _ _ _
  · rfl

/-- A shift of the history, thread by thread: what each thread has in its youngest latch, and the latches before it one place older. -/
theorem shiftLatches_latches (l : Lane) (m : Mask) (f : Nat → Double) {u : Nat} (hu : u < 32) :
    sget 0#64 (shiftLatches l ((threadsOf m).map fun u => (u, f u))).latches u = (if m.getLsbD u then f u else 0#64) ∧
    ∀ j, j < 3 → sget 0#64 (shiftLatches l ((threadsOf m).map fun u => (u, f u))).latches (32 * (j + 1) + u) = sget 0#64 l.latches (32 * j + u) := by
  refine ⟨?_, fun j hj => ?_⟩
  · rw [sget_shiftLatches, if_neg (by omega : ¬ (32 ≤ u ∧ u < 128))]
    simp only [mem_threadsOf, hu, true_and]
  · rw [sget_shiftLatches, if_neg (fun h => by have := threadsOf_lt h; omega), if_pos (by omega)]
    congr 1; omega

/-! ## The lineage counters (09 R262) -/

/-- The same words for every thread of a mask: all of them are written, and no thread parks. -/
theorem okWords_sameForAll (m : Mask) (ws : List Word) : okWords (sameForAll m (.ok ws)) = (threadsOf m).map fun t => (t, ws) := by
  simp only [okWords, sameForAll, List.filterMap_map]
  exact congrFun (List.filterMap_eq_map (f := fun t => (t, ws))) _

theorem errGroups_sameForAll (m : Mask) (ws : List Word) : errGroups (sameForAll m (.ok ws)) = [] := by
  simp [errGroups, sameForAll, List.filterMap_map]

/-- A value in the same destination of each thread of a list. -/
def writeEach (d : LDst) (x : Double) (l : List Nat) (w : Weave) : Weave := l.foldl (fun w t => writeDst w t d x) w

/-- A 64-bit value written as its two words is a write of the register pair. -/
theorem laneResults_word2 (s : State) (c k : Nat) (w : Weave) (d : Nat) (m : Mask) (x : Double) :
    (laneResults s c k w d 2 (sameForAll m (.ok (word2 x)))).s = putWeave s c k (writeEach (.reg d true) x (threadsOf m) w) := by
  simp only [laneResults, okWords_sameForAll, List.foldl_map]
  rfl

/-- A destination written twice with a value holds it as after one write. -/
theorem LDst.writes_writes (d : LDst) (x : Double) (r : Nat) (old : Word) : d.writes x r (d.writes x r old) = d.writes x r old := by
  cases d with
  | reg n wide =>
    simp only [LDst.writes]
    split
    · rfl
    · split <;> rfl
  | pred p => rfl
  | pred2 p => rfl

section WriteEach

variable (d : LDst) (x : Double) (l : List Nat) (w : Weave)

theorem writeEach_rest {β : Type} (f : Weave → β) (hf : ∀ w t, f (writeDst w t d x) = f w) : f (writeEach d x l w) = f w := by
  induction l generalizing w with
  | nil => rfl
  | cons t r ih => exact (ih _).trans (hf w t)

variable {l} (hl : ∀ t ∈ l, t < 32) {u : Nat} (hu : u < 32)

include hl hu

theorem readV_writeEach (r : Nat) : readV (writeEach d x l w) u r = if u ∈ l then d.writes x r (readV w u r) else readV w u r := by
  induction l generalizing w with
  | nil => rfl
  | cons t ts ih =>
    have h := ih (writeDst w t d x) fun y hy => hl y (List.mem_cons_of_mem _ hy)
    rw [readV_writeDst _ _ _ _ (hl t List.mem_cons_self) hu] at h
    refine h.trans ?_
    by_cases ht : u = t
    · simp only [ht, if_true, List.mem_cons, true_or, LDst.writes_writes, ite_self]
    · simp only [ht, if_false, List.mem_cons, false_or]

end WriteEach

/-- The weave as `lstat` leaves it before its result: the counters cleared where it is told to. -/
def clearLstat (clr : Bool) (w : Weave) : Weave := { w with lstat := if clr then [] else w.lstat }

/-- The effect of `lstat` on a weave apart: the counter, as it stands before the clearing, in the pair of each thread. -/
theorem lstat_effect (s : State) {c k : Nat} {w : Weave} (hw : getWeave s c k = some w) (hp : w.pair = none) (e : Entry) (m : Mask) (d : Nat)
    (clr : Bool) (v : Double) : ∃ t, Kept s t c k ∧
      counterRead s c k e v (fun s v => allPair (if clr then onWeave s c k (fun w => { w with lstat := [] }) else s) c k d m v)
        = laneResults t c k (clearLstat clr w) d 2 (sameForAll m (.ok (word2 v))) := by
  have hpair : pairOf s (.weave c k) = none := by rw [pairOf, hw]; exact hp
  simp only [counterRead, takeValue, giveValue, hpair]
  cases clr
  · exact ⟨s, .refl _ _ _, by simp only [Bool.false_eq_true, if_false, allPair, hw]; rfl⟩
  · refine ⟨putWeave s c k (clearLstat true w), kept_putWeave _ _ _ _, ?_⟩
    simp only [if_true, onWeave_some hw, allPair, getWeave_putWeave_self]
    rfl

/-- The end of a lane instruction that wrote one value to the register pair of each of its threads. -/
theorem laneEnd_pair {s t : State} {c k : Nat} {e : Entry} {w : Weave} (h : LaneTurn s c k e w) (hk : Kept s t c k) {d : Nat} {clr : Bool}
    {x : Double} {r : Done} (hwait : r.wait = none) (hgs : r.gs = [])
    (hs : r.s = putWeave t c k (writeEach (.reg d true) x (threadsOf e.mask) (clearLstat clr w))) :
    AluDone s (laneEnd c k e 4 false r) c k e w 4 Rules.all false (.reg d true) (fun _ => x) (fun _ => 0#6) (readGen w) ∧
    ∀ w', getWeave (laneEnd c k e 4 false r) c k = some w' → w'.lstat = if clr then [] else w.lstat := by
  generalize hy : writeEach (.reg d true) x (threadsOf e.mask) (clearLstat clr w) = y at hs
  have rest {β : Type} (f : Weave → β) (hf : ∀ w t, f (writeDst w t (.reg d true) x) = f w) : f y = f (clearLstat clr w) :=
    hy ▸ writeEach_rest _ _ _ _ f hf
  have hyw : getWeave r.s c k = some y := by rw [hs, getWeave_putWeave_self]
  have hfr : y.frontier = w.frontier := rest _ fun _ _ => rfl
  have hroom : (held (y.frontier.filter (fun x => x.mask &&& e.mask == 0#32))).length < 16 := by rw [hfr]; exact h.room
  obtain ⟨w', h1, h2, ⟨h3, h4⟩, h5⟩ := laneEnd_spec (size := 4) (ch := false) hwait hgs hyw h.live hroom
  obtain ⟨-, hls⟩ := laneEnd_lineage hwait hgs hyw h.live hroom 4 false
  refine ⟨⟨hk.trans (Kept.trans ?_ h5), w', h1, ?_, h3, fun x hx hm => h4 x (by rw [hfr]; exact hx) hm, fun u hu => ?_⟩,
    fun w' hw' => (hls w' hw').trans (rest _ fun _ _ => rfl)⟩
  · rw [hs]; exact kept_putWeave _ _ _ _
  · exact (base_body h2).trans (rest _ fun _ _ => rfl)
  · have hv (q : Nat) : readV w' u q = if u ∈ threadsOf e.mask then LDst.writes (.reg d true) x q (readV w u q) else readV w u q := by
      rw [readV_body h2, ← hy, readV_writeEach _ _ _ (fun _ => threadsOf_lt) hu]; rfl
    have hpr (p : Nat) : readP w' u p = readP w u p := (readP_body h2 u p).trans (rest (readP · u p) fun _ _ => rfl)
    have hfl : readFlags w' u = readFlags w u := (readFlags_body h2 u).trans (rest (readFlags · u) fun _ _ => rfl)
    have hgen : readGen w' u = readGen w u := (readGen_body h2 u).trans (rest (readGen · u) fun _ _ => rfl)
    have hmem : u ∈ threadsOf e.mask ↔ acts w e Rules.all u := mem_threadsOf.trans acts_noGuard.symm
    refine ⟨fun ha => ⟨fun q => ?_, hpr, ?_, hgen⟩, fun ha => ⟨fun q => ?_, hpr, hfl, hgen⟩⟩
    · rw [hv, if_pos (hmem.mpr ha)]; rfl
    · rw [hfl]; simp
    · rw [hv, if_neg (fun hu => ha (hmem.mp hu))]

theorem execLstat_done {s : State} {c k : Nat} {e : Entry} {w : Weave} (h : LaneTurn s c k e w) (hp : w.pair = none) (d : BitVec 7)
    (clr : Bool) (i : BitVec 3) (hl : illegalHere w e 4 false false [(d.toNat, 2)] = false) :
    ∃ t, exec (.lstat d clr i) s = .next t ∧
      AluDone s t c k e w 4 Rules.all false (.reg d.toNat true) (fun _ => BitVec.ofNat 64 (sget 0 w.lstat i.toNat)) (fun _ => 0#6)
        (readGen w) ∧ ∀ w', getWeave t c k = some w' → w'.lstat = if clr then [] else w.lstat := by
  obtain ⟨t, hk, hb⟩ := lstat_effect (laneState s c k w) (getWeave_laneState s c k w) hp e e.mask d.toNat clr
    (BitVec.ofNat 64 (sget 0 w.lstat i.toNat))
  refine ⟨_, laneIssue_turn h (oneWord [(d.toNat, 2)]) hl _, ?_⟩
  have hend := laneEnd_pair h ((kept_laneState s c k w).trans hk) rfl (errGroups_sameForAll _ _)
    (laneResults_word2 t c k (clearLstat clr w) d.toNat e.mask (BitVec.ofNat 64 (sget 0 w.lstat i.toNat)))
  rw [← hb] at hend
  simp only [oneWord, activeMask_noGuard]
  exact hend

/-! ## The lineage mode (09 R261) -/

theorem execLmode_done {s : State} {c k : Nat} {e : Entry} {w : Weave} (h : LaneTurn s c k e w) (m : BitVec 2)
    (hl : illegalHere w e 4 false false [] = false) :
    ∃ t, exec (.lmode m) s = .next t ∧ LaneDone s t c k e w { w with lmode := m } (onward e 4) := by
  obtain ⟨t, h1, h2⟩ := laneIssue_onward h (oneWord []) hl
    (fun s c k w _ act => moved (putWeave s c k { w with lmode := m }) [] (countOf act)) rfl rfl rfl (getWeave_putWeave_self _ _ _ _) rfl
  exact ⟨t, h1, h2.since ((kept_laneState s c k w).trans (kept_putWeave _ _ _ _))⟩

/-- Settles O15: each row of the integer forms by the shift of its lane's history; `lmode` and `lstat` by their effects on a weave apart. -/
theorem latchesLineage : Obligations.LatchesLineage := by
  unfold Obligations.LatchesLineage
  refine ⟨fun r hr f s c k e w va vb h hl hm ho => ?history, fun s c k e w h => ⟨execLmode_done h, fun d clr i hp hl => execLstat_done h hp d clr i hl⟩⟩
  obtain ⟨y, g, hmeant⟩ := laneR_meant r hr
  obtain ⟨t, ht, hnew⟩ := hmeant.shifts f h hl hm ho
  refine ⟨t, ht, ?_⟩
  simp only [hnew]
  exact ⟨owner_laneCore s c k w, rfl, fun u hu => shiftLatches_latches _ _ _ hu⟩

end Sys2Proof.Machine

/-!
# Containment

What the end of a launch leaves: no instances of it on a core, its node's status in memory, its notice sent; what a node put back into its
queue leaves. The words that are no instruction park their entry.
-/

namespace Sys2Proof.Machine

open Sys2Proof

/-! ## Bytes written in memory (R353) -/

theorem nmem_nerase (s : NatSet) (g i : Nat) : nmem (nerase s g) i = (nmem s i && i != g) := by
  rw [Bool.eq_iff_iff]
  simp [nmem, nerase]

theorem sget_skeep {α : Type} (d : α) (t : Sparse α) (q : Nat → Bool) (i : Nat) : sget d (skeep t q) i = if q i then sget d t i else d := by
  induction t with
  | nil => simp [skeep, sget, sfind]
  | cons e r ih =>
    obtain ⟨k, v⟩ := e
    simp only [skeep, List.filter_cons, sget, sfind] at ih ⊢
    by_cases hk : k = i
    · subst hk
      by_cases hq : q k = true
      · simp [sfind, hq]
      · simp only [hq, Bool.false_eq_true, if_false] at ih ⊢
        exact ih
    · by_cases hq : q k = true
      · simpa [sfind, hk, hq] using ih
      · simpa [hk, hq] using ih

/-- A granule reads as zero before it is scrubbed, and holds zeros after. -/
theorem memByte_scrubGranule (s : State) (g j : Nat) : memByte (scrubGranule s g) j = memByte s j := by
  unfold scrubGranule
  split
  · rename_i hg
    simp only [memByte, nmem_nerase, sget_skeep]
    by_cases hj : j >>> 16 = g
    · simp [hj, hg, memBlank]
    · simp [hj]
  · rfl

theorem memByte_foldl_scrubGranule (gs : List Nat) (s : State) (j : Nat) : memByte (gs.foldl scrubGranule s) j = memByte s j := by
  induction gs generalizing s with
  | nil => rfl
  | cons g r ih => exact (ih _).trans (memByte_scrubGranule s g j)

theorem nmem_unscrubbed_scrubGranule (s : State) (g i : Nat) : nmem (scrubGranule s g).unscrubbed i = (nmem s.unscrubbed i && i != g) := by
  unfold scrubGranule
  split
  · exact nmem_nerase _ _ _
  · rename_i hg
    by_cases hi : i = g
    · subst hi; simpa using hg
    · simp [hi]

theorem scrubbed_foldl (gs : List Nat) (s : State) (i : Nat) (h : i ∈ gs ∨ nmem s.unscrubbed i = false) :
    nmem (gs.foldl scrubGranule s).unscrubbed i = false := by
  induction gs generalizing s with
  | nil => simpa using h
  | cons g r ih =>
    refine ih _ ?_
    rw [nmem_unscrubbed_scrubGranule]
    rcases h with h | h
    · rcases List.mem_cons.mp h with rfl | h
      · exact .inr (by simp)
      · exact .inl h
    · exact .inr (by simp [h])

/-- A byte read back after a write performed in memory. -/
theorem memByte_writeMem (s : State) (k : Nat) (d : List Byte) (j : Nat) :
    memByte (writeMem s k d) j = if k ≤ j ∧ j < k + d.length then d.getD (j - k) 0#8 else memByte s j := by
  unfold writeMem
  split
  · rename_i hd
    obtain rfl : d = [] := List.isEmpty_iff.mp hd
    rw [if_neg (by simp only [List.length_nil]; omega)]
  · extract_lets gs v
    split
    · rename_i hj
      have hg : j >>> 16 ∈ gs := by
        rw [Nat.shiftRight_eq_div_pow]
        exact List.mem_map.mpr ⟨j / 65536 - k / 65536, List.mem_range.mpr (by omega), by omega⟩
      simp only [memByte, v, scrubbed_foldl gs s _ (.inl hg), Bool.false_eq_true, if_false, sget_storeBytes, hj, and_self, if_true]
    · rename_i hj
      rw [← memByte_foldl_scrubGranule gs s j]
      simp only [memByte, sget_storeBytes, hj, if_false, v]

/-! ## What changes memory alone -/

/-- From `s` to `t` nothing changed but memory and its marks of scrubbing, poison and recent writes. -/
def OnlyMem (s t : State) : Prop :=
  { t with mem := [], bad := [], unscrubbed := [], dirty := [] } = { s with mem := [], bad := [], unscrubbed := [], dirty := [] }

section OnlyMem

variable {s t u : State}

theorem OnlyMem.refl (s : State) : OnlyMem s s := rfl

theorem OnlyMem.trans (h : OnlyMem s t) (g : OnlyMem t u) : OnlyMem s u := Eq.trans g h

/-- What does not look at memory is the same in both. -/
theorem OnlyMem.field {β : Type} (h : OnlyMem s t) (f : State → β)
    (hf : ∀ x : State, f { x with mem := [], bad := [], unscrubbed := [], dirty := [] } = f x := by exact fun _ => rfl) : f t = f s := by
  rw [← hf t, h, hf s]

theorem OnlyMem.foldl {α : Type} {l : List α} {f : State → α → State} (hf : ∀ t x, OnlyMem t (f t x)) (s : State) : OnlyMem s (l.foldl f s) := by
  induction l generalizing s with
  | nil => exact .refl s
  | cons x r ih => exact (hf s x).trans (ih _)

theorem onlyMem_scrubGranule (s : State) (g : Nat) : OnlyMem s (scrubGranule s g) := by
  unfold scrubGranule
  split <;> rfl

theorem onlyMem_writeMem (s : State) (k : Nat) (d : List Byte) : OnlyMem s (writeMem s k d) := by
  unfold writeMem
  split
  · rfl
  · exact OnlyMem.foldl onlyMem_scrubGranule s

theorem onlyMem_selfWrite (s : State) (vf va : Nat) (d : List Byte) : OnlyMem s (selfWrite s vf va d) := by
  unfold selfWrite
  split
  · rfl
  · exact onlyMem_writeMem _ _ _

theorem onlyMem_relink (s : State) (p : Nat) : OnlyMem s (relink s p) := OnlyMem.foldl (fun _ _ => onlyMem_selfWrite _ _ _ _) s

end OnlyMem

/-! ## Instances taken off the cores -/

/-- From `s` to `t` cores alone changed, and no instances stand in `t` but those that stood in `s`. -/
structure Shrunk (s t : State) : Prop where
  rest : { t with cores := [] } = { s with cores := [] }
  insts : ∀ {c i y}, getInst t c i = some y → getInst s c i = some y

section Shrunk

variable {s t u : State}

theorem Shrunk.refl (s : State) : Shrunk s s := ⟨rfl, id⟩

theorem Shrunk.trans (h : Shrunk s t) (g : Shrunk t u) : Shrunk s u := ⟨g.rest.trans h.rest, fun e => h.insts (g.insts e)⟩

theorem Shrunk.foldl {α : Type} {l : List α} {f : State → α → State} (hf : ∀ t x, Shrunk t (f t x)) (s : State) : Shrunk s (l.foldl f s) := by
  induction l generalizing s with
  | nil => exact .refl s
  | cons x r ih => exact (hf s x).trans (ih _)

theorem getInst_removeInst_self (s : State) (c i : Nat) : getInst (removeInst s c i) c i = none := by
  unfold removeInst
  split
  · assumption
  · simp only [getInst, getCore_onCore_self]
    split <;> exact sfind_serase_self _ _

theorem shrunk_removeInst (s : State) (c i : Nat) : Shrunk s (removeInst s c i) := by
  unfold removeInst
  split
  · exact .refl s
  · refine ⟨rfl, fun {d j y} e => ?_⟩
    by_cases hd : d = c
    · subst hd
      simp only [getInst, getCore_onCore_self] at e ⊢
      split at e <;> exact sfind_serase_some e
    · rwa [getInst, getCore_onCore_ne _ _ hd] at e

/-- A delivery that runs for one of the core's instances ended. -/
def endServing (i : Nat) (x : Core) : Core :=
  match x.handler.run with
  | some d => if serves x i d then { x with handler := { x.handler with run := none, wait := none } } else x
  | none => x

theorem endServing_insts (i : Nat) (x : Core) : (endServing i x).insts = x.insts := by
  unfold endServing
  split
  · split <;> rfl
  · rfl

/-- One of the instances of core `c`, taken off where it is the launch's, and left where it is not. -/
def dropOf (serial c : Nat) (s : State) (i : Nat × Inst) : State :=
  if i.2.serial == serial then removeInst (onCore s c (endServing i.1)) c i.1 else s

/-- The instances of a launch taken off a core. -/
def dropFrom (serial : Nat) (s : State) (e : Nat × Core) : State := e.2.insts.foldl (dropOf serial e.1) s

theorem removeLaunch_eq (s : State) (n : Nat) : removeLaunch s n = s.cores.foldl (dropFrom n) s := rfl

theorem shrunk_dropOf (n c : Nat) (s : State) (i : Nat × Inst) : Shrunk s (dropOf n c s i) := by
  unfold dropOf
  split
  · have h : Shrunk s (onCore s c (endServing i.1)) :=
      ⟨rfl, fun e => by rwa [getInst_onCore _ _ _ (endServing_insts i.1)] at e⟩
    exact h.trans (shrunk_removeInst _ _ _)
  · exact .refl s

theorem shrunk_dropFrom (n : Nat) (s : State) (e : Nat × Core) : Shrunk s (dropFrom n s e) := Shrunk.foldl (shrunk_dropOf n e.1) s

theorem shrunk_removeLaunch (s : State) (n : Nat) : Shrunk s (removeLaunch s n) :=
  removeLaunch_eq s n ▸ Shrunk.foldl (shrunk_dropFrom n) s

/-- Instances absent stay absent. -/
theorem Shrunk.absent (h : Shrunk s t) {c i : Nat} (e : getInst s c i = none) : getInst t c i = none := by
  cases ht : getInst t c i with
  | none => rfl
  | some y => rw [h.insts ht] at e; cases e

/-- What one step of a fold makes absent is absent at the end. -/
theorem absent_foldl {α : Type} {l : List α} {f : State → α → State} (hf : ∀ t x, Shrunk t (f t x)) {x : α} (hx : x ∈ l) {c i : Nat}
    (hg : ∀ t, getInst (f t x) c i = none) (s : State) : getInst (l.foldl f s) c i = none := by
  obtain ⟨a, b, rfl⟩ := List.append_of_mem hx
  rw [List.foldl_append, List.foldl_cons]
  exact (Shrunk.foldl hf _).absent (hg _)

theorem mem_of_sfind {α : Type} {t : Sparse α} {i : Nat} {x : α} (h : sfind t i = some x) : (i, x) ∈ t := by
  induction t with
  | nil => cases h
  | cons e r ih =>
    obtain ⟨k, v⟩ := e
    simp only [sfind] at h
    split at h
    · rename_i hk; cases h; subst hk; exact List.mem_cons_self
    · exact List.mem_cons_of_mem _ (ih h)

/-- Instances stand on listed cores and in their lists. -/
theorem mem_of_getInst {c i : Nat} {y : Inst} (h : getInst s c i = some y) : ∃ x, (c, x) ∈ s.cores ∧ (i, y) ∈ x.insts := by
  simp only [getInst, getCore, sget] at h
  cases hc : sfind s.cores c with
  | none => rw [hc] at h; cases h
  | some x => rw [hc] at h; exact ⟨x, mem_of_sfind hc, mem_of_sfind h⟩

/-- No core holds instances of a launch that was removed. -/
theorem removeLaunch_serial_ne {n c i : Nat} {y : Inst} (h : getInst (removeLaunch s n) c i = some y) : y.serial ≠ n := by
  intro hy
  obtain ⟨x, hx, hi⟩ := mem_of_getInst ((shrunk_removeLaunch s n).insts h)
  have hin (t : State) : getInst (dropOf n c t (i, y)) c i = none := by
    simp only [dropOf, hy, beq_self_eq_true, if_true]
    exact getInst_removeInst_self _ _ _
  have hfrom (t : State) : getInst (dropFrom n t (c, x)) c i = none := absent_foldl (shrunk_dropOf n c) hi hin t
  rw [removeLaunch_eq, absent_foldl (shrunk_dropFrom n) hx hfrom s] at h
  cases h

end Shrunk

/-! ## A launch gone with its blocks -/

/-- The machine without a launch: no instances of it, its blocks of a staged run returned. -/
def withoutLaunch (s : State) (l : Launch) : State :=
  { l.blocks.foldl (fun s a => onVf s l.vf (fun v => { v with blocks := serase v.blocks a })) (removeLaunch s l.serial) with
    launches := s.launches.filter (fun y => y.serial != l.serial) }

theorem foldl_blocks_rest (bs : List Nat) (v : Nat) (s : State) :
    { bs.foldl (fun s a => onVf s v (fun x => { x with blocks := serase x.blocks a })) s with vfs := [] } = { s with vfs := [] } := by
  induction bs generalizing s with
  | nil => rfl
  | cons b r ih => exact ih _

theorem foldl_blocks_root (bs : List Nat) (v u : Nat) (s : State) :
    (getVf (bs.foldl (fun s a => onVf s v (fun x => { x with blocks := serase x.blocks a })) s) u).root = (getVf s u).root := by
  induction bs generalizing s with
  | nil => rfl
  | cons b r ih =>
    refine (ih _).trans ?_
    by_cases hu : u = v
    · subst hu; rw [getVf_onVf_self]
    · exact congrArg Vf.root (getVf_putVf_ne s _ hu)

section Without

variable (s : State) (l : Launch)

theorem withoutLaunch_rest : { withoutLaunch s l with cores := [], vfs := [], launches := [] } = { s with cores := [], vfs := [], launches := [] } :=
  (congrArg (fun t : State => { t with cores := [], launches := [] }) (foldl_blocks_rest l.blocks l.vf (removeLaunch s l.serial))).trans
    (congrArg (fun t : State => { t with vfs := [], launches := [] }) (shrunk_removeLaunch s l.serial).rest)

theorem withoutLaunch_cores : (withoutLaunch s l).cores = (removeLaunch s l.serial).cores :=
  (congrArg State.cores (foldl_blocks_rest l.blocks l.vf (removeLaunch s l.serial)) :)

theorem withoutLaunch_root (v : Nat) : (getVf (withoutLaunch s l) v).root = (getVf s v).root :=
  (foldl_blocks_root l.blocks l.vf v (removeLaunch s l.serial)).trans
    (congrArg (fun t : State => (getVf t v).root) (shrunk_removeLaunch s l.serial).rest :)

theorem getInst_withoutLaunch {c i : Nat} {y : Inst} (h : getInst (withoutLaunch s l) c i = some y) : y.serial ≠ l.serial := by
  refine removeLaunch_serial_ne (s := s) (c := c) (i := i) ?_
  rwa [getInst, getCore, withoutLaunch_cores] at h

theorem getLaunch_withoutLaunch : getLaunch (withoutLaunch s l) l.serial = none := by
  simp [getLaunch, withoutLaunch]

theorem walkFrom_vfs (vs : Sparse Vf) (vf va n p : Nat) : walkFrom { s with vfs := vs } vf va n p = walkFrom s vf va n p := by
  induction n generalizing p with
  | zero => rfl
  | succ n ih => simp only [walkFrom, ih]; rfl

/-- The tables stand as they stood. -/
theorem selfKey_withoutLaunch (vf va : Nat) (wr : Bool) : selfKey (withoutLaunch s l) vf va wr = selfKey s vf va wr := by
  have hr := withoutLaunch_rest s l
  have root : SameRoot s { withoutLaunch s l with vfs := s.vfs } :=
    ⟨(congrArg State.mem hr :), (congrArg State.unscrubbed hr :), (congrArg State.bad hr :), (congrArg State.tick hr :),
      (congrArg State.device hr :), rfl, fun ph => (congrArg (rangeLost · ph) hr :)⟩
  have hw : walk (withoutLaunch s l) vf va = walk s vf va := by
    have h := walkFrom_root root vf va 4 ((getVf s vf).root.toNat / 4096 * 4096)
    rw [walkFrom_vfs] at h
    rw [walk, withoutLaunch_root, h, walk]
  have hk (x : Leaf) : leafKey (withoutLaunch s l) x va = leafKey s x va := leafKey_root root x va
  simp only [selfKey, hw, hk]

end Without

/-! ## A launch failed (R108, R372) -/

section Failing

variable {s : State} {l : Launch} {reason cause cause2 : Nat}

/-- The status is written where the machine without the launch permits it, then the notice is sent. -/
theorem failLaunch_eq (h : getLaunch s l.serial = some l) : failLaunch s l.serial reason cause cause2 =
    send (writeStatus (withoutLaunch (l.cores.foldl flushL1 s) l) l.vf l.addr 4) (failNotice l reason cause cause2) := by
  have hl : (l.blocks.foldl (fun s a => onVf s l.vf (fun v => { v with blocks := serase v.blocks a }))
      (removeLaunch (l.cores.foldl flushL1 s) l.serial)).launches = (l.cores.foldl flushL1 s).launches :=
    (congrArg State.launches (foldl_blocks_rest l.blocks l.vf _) :).trans (congrArg State.launches (shrunk_removeLaunch _ _).rest :)
  simp only [failLaunch, h, hl, withoutLaunch, failNotice]

/-- A launch that fails leaves no instances, its node with status 4, and its notice. -/
theorem failed_failLaunch (h : getLaunch s l.serial = some l) (reason cause cause2 : Nat) :
    Failed s (failLaunch s l.serial reason cause cause2) l reason cause cause2 where
  gone := by
    simp [getLaunch, failLaunch_launches]
  others n hn := getLaunch_failLaunch_ne hn
  insts c i y hy := by
    rw [failLaunch_eq h] at hy
    have hc := (onlyMem_selfWrite (withoutLaunch (l.cores.foldl flushL1 s) l) l.vf (l.addr + 18) (bytesLE 2 4)).field (getInst · c i)
    exact getInst_withoutLaunch _ l (hc.symm.trans hy)
  notice := (failLaunch_of_some h).out
  status k hk hs := by
    rw [← selfKey_withoutLaunch _ l] at hs
    have hw : writeStatus (withoutLaunch (l.cores.foldl flushL1 s) l) l.vf l.addr 4
        = writeMem (withoutLaunch (l.cores.foldl flushL1 s) l) k [4#8, 0#8] := by
      simp only [writeStatus, selfWrite, hs]; rfl
    have hb (j : Nat) : memByte (failLaunch s l.serial reason cause cause2) j
        = memByte (writeMem (withoutLaunch (l.cores.foldl flushL1 s) l) k [4#8, 0#8]) j := by
      rw [failLaunch_eq h, hw]; rfl
    rw [hb, hb, memByte_writeMem, memByte_writeMem]
    simp

end Failing

/-! ## A node put back into its queue (R99, R397) -/

/-- A node put into its partition's queue, ready from now on with its capped priority; the rest of the machine but memory as it was. -/
theorem enqueue_spec (s : State) (p vf addr requeues : Nat) (n : NodeRec) (h : Option Header) :
    ∃ r : Ready, (getPart (enqueue s p vf addr requeues n h) p).ready = (getPart s p).ready ++ [r] ∧
      r = { addr := addr, vf := vf, node := n, header := h, level := min n.prio (capOf s p), base := min n.prio (capOf s p), readyAt := s.now,
            seq := s.seq, requeues := requeues } ∧
      { enqueue s p vf addr requeues n h with mem := [], bad := [], unscrubbed := [], dirty := [], parts := [], seq := 0 }
        = { s with mem := [], bad := [], unscrubbed := [], dirty := [], parts := [], seq := 0 } := by
  have hw := onlyMem_selfWrite s vf (addr + 18) (bytesLE 2 1)
  refine ⟨_, ?_, rfl, ?_⟩
  · simp only [enqueue, nextSeq]
    rw [(onlyMem_relink _ p).field (getPart · p), getPart_onPart_self]
    have hp : getPart (writeStatus s vf addr 1) p = getPart s p := hw.field (getPart · p)
    have hn : (writeStatus s vf addr 1).now = s.now := hw.field State.now
    have hq : (writeStatus s vf addr 1).seq = s.seq := hw.field State.seq
    simp only [capOf, getPart] at hp ⊢
    rw [hp, hn, hq]
  · have hr {t : State} (ht : OnlyMem s { t with parts := s.parts, seq := s.seq }) :
        { relink t p with mem := [], bad := [], unscrubbed := [], dirty := [], parts := [], seq := 0 }
          = { s with mem := [], bad := [], unscrubbed := [], dirty := [], parts := [], seq := 0 } :=
      (congrArg (fun t : State => { t with parts := [], seq := 0 }) (onlyMem_relink t p) :).trans
        (congrArg (fun t : State => { t with parts := [], seq := 0 }) ht :)
    exact hr (congrArg (fun t : State => { t with parts := s.parts, seq := s.seq }) hw :)

/-! ## Containment (20 R397) -/

/-- The entries of the failure record for the POISONs that a launch met. -/
def poisonRecords (s : State) (l : Launch) (action : Nat) : State :=
  { s with failures := s.failures ++ l.poisons.map (fun p =>
    { kind := 1, element := p.1, name := p.2, action := action, detail := cPOISON, time := s.now : FailRec }) }

theorem recordPoisons_eq (s : State) (l : Launch) (action : Nat) : recordPoisons s l action = poisonRecords s l action := by
  unfold recordPoisons poisonRecords
  generalize l.poisons = ps
  induction ps generalizing s with
  | nil => simp
  | cons p r ih =>
    rw [List.foldl_cons, ih]
    simp [record, poisonEntry, kindPoison]

section Containment

variable {s : State} {l : Launch} {n : Nat}

theorem execPoisonContainment_none (h : getLaunch s n = none) : execPoisonContainment n s = .next s := by
  simp only [execPoisonContainment, h]

theorem execPoisonContainment_clean (h : getLaunch s l.serial = some l) (hp : l.poison = none) :
    execPoisonContainment l.serial s = .next s := by
  simp only [execPoisonContainment, h, hp]

theorem execPoisonContainment_requeues (h : getLaunch s l.serial = some l) (hp : l.poison ≠ none) (hs : staging l = true) (hr : l.requeues < 3) :
    execPoisonContainment l.serial s = .next (requeueNode (poisonRecords s l 1) l) := by
  obtain ⟨b, hb⟩ := Option.ne_none_iff_exists'.mp hp
  simp only [execPoisonContainment, h, hb, hs, hr, decide_true, Bool.and_self, if_true, recordPoisons_eq]

theorem execPoisonContainment_fails (h : getLaunch s l.serial = some l) (hp : l.poison ≠ none) (hf : staging l = false ∨ 3 ≤ l.requeues) :
    execPoisonContainment l.serial s = .next (failLaunch (poisonRecords s l 2) l.serial (if l.freezeBad then 20 else 17)
      (if l.freezeBad then 0 else cPOISON) 0) := by
  obtain ⟨b, hb⟩ := Option.ne_none_iff_exists'.mp hp
  have hc : (staging l && decide (l.requeues < 3)) = false := by
    rcases hf with hf | hf
    · simp [hf]
    · simp only [Bool.and_eq_false_iff, decide_eq_false_iff_not]; exact .inr (by omega)
  simp only [execPoisonContainment, h, hb, hc, Bool.false_eq_true, if_false, recordPoisons_eq]

/-- A node put back: its launch is gone without a trace on the cores, and it is the last of its partition's ready nodes. -/
theorem requeueNode_spec (s : State) (l : Launch) :
    ∃ r : Ready, (requeueNode s l).failures = s.failures ∧ getLaunch (requeueNode s l) l.serial = none ∧
      (∀ c i y, getInst (requeueNode s l) c i = some y → y.serial ≠ l.serial) ∧
      (getPart (requeueNode s l) l.part).ready = (getPart s l.part).ready ++ [r] ∧
      r = { addr := l.addr, vf := l.vf, node := l.node, header := some l.header, level := min l.node.prio (capOf s l.part),
            base := min l.node.prio (capOf s l.part), readyAt := s.now, seq := s.seq, requeues := l.requeues + 1 } := by
  have hl : (l.blocks.foldl (fun s a => onVf s l.vf (fun v => { v with blocks := serase v.blocks a })) (removeLaunch s l.serial)).launches
      = s.launches :=
    (congrArg State.launches (foldl_blocks_rest l.blocks l.vf _) :).trans (congrArg State.launches (shrunk_removeLaunch _ _).rest :)
  have hq : requeueNode s l = enqueue (withoutLaunch s l) l.part l.vf l.addr (l.requeues + 1) l.node (some l.header) := by
    simp only [requeueNode, hl, withoutLaunch]
  obtain ⟨r, h1, h2, h3⟩ := enqueue_spec (withoutLaunch s l) l.part l.vf l.addr (l.requeues + 1) l.node (some l.header)
  rw [← hq] at h1 h3
  have hw := withoutLaunch_rest s l
  have hp : getPart (withoutLaunch s l) l.part = getPart s l.part := (congrArg (getPart · l.part) hw :)
  refine ⟨r, (congrArg State.failures h3 :).trans (congrArg State.failures hw :), ?_, fun c i y hy => ?_, ?_, ?_⟩
  · exact (congrArg (getLaunch · l.serial) h3 :).trans (getLaunch_withoutLaunch s l)
  · exact getInst_withoutLaunch s l ((congrArg (getInst · c i) h3 :).symm.trans hy)
  · rw [h1, hp]
  · rw [h2]
    simp only [capOf, hp]
    rw [(congrArg State.now hw :), (congrArg State.seq hw :)]

end Containment

/-! ## Words that are no instruction (03 R56) -/

/-- An entry of a weave apart parks with a cause at the instruction, or at the head of its chain. -/
theorem parkAgent_weave {s : State} {c k : Nat} {e : Entry} {w : Weave} (h : LaneTurn s c k e w) (hp : w.Plain) (hn : noBar s c) (size : Nat)
    {cause : Nat} (hc : cause ≠ cPOISON) (go : Nat → EntryState × Double) :
    LaneParked s (parkAgent (begin s (.weave c k) e) (.weave c k) e size cause) c k e w w e.mask cause 0#64 go := by
  have hz : e.mask &&& ~~~e.mask = 0#32 := by
    apply BitVec.eq_of_getLsbD_eq; intro i hi
    simp [hi]
  have hG : groupsOf e.mask [(e.mask, .park cause 0#64)] = [(e.mask, .park cause 0#64), (0#32, .next)] := by simp [groupsOf, hz]
  have hm : Moves (putWeave s c k w) c w e (groupsOf e.mask [(e.mask, .park cause 0#64)]) := by
    rw [hG]
    refine ⟨?_, .inl ⟨(e.mask, .park cause 0#64), by simp, h.live, by simp⟩, fun _ => ⟨hp.solo, hp.closed⟩, fun _ => ?_, rfl, ?_⟩
    · have : occupied [(e.mask, Go.park cause 0#64), (0#32, .next)] = 1 := by simp [occupied, h.live]
      rw [this]; exact h.fits
    · refine noBar_kept hn (kept_putWeave s c k w) fun w' hw' => ?_
      rw [getWeave_putWeave_self] at hw'
      cases hw'
      obtain ⟨w0, h0, rfl⟩ := Option.map_eq_some_iff.mp h.weave
      exact ⟨w0, h0, commitWeave_frontier w0⟩
    · simp [poisonThreads, hc]
  have hk : parkedPiece (groupsOf e.mask [(e.mask, .park cause 0#64)]) = some (e.mask, cause, 0#64) := by
    rw [hG]; simp [parkedPiece, h.live]
  obtain ⟨w', h1, h2, -, h4, -, h6⟩ := retire_moves (getWeave_putWeave_self s c k w) size false _ hm
  rw [begin_turn h]
  simp only [parkAgent, h1]
  refine ⟨(kept_putWeave s c k w).trans kept_retire, w', getWeave_putWeave_self _ _ _ _, h2, h6, h4 _ _ _ hk, fun u hu => ?_⟩
  rw [hz] at hu; simp at hu

/-- A steer thread parks with a cause at its instruction. -/
theorem parkAgent_steer {s : State} {c k : Nat} {i : Inst} (hi : getInst s c k = some i) (e : Entry) (size : Nat) {cause : Nat}
    (hc : cause ≠ cPOISON) :
    ∃ (j : Inst) (x : Entry), getInst (parkAgent s (.steer c k) e size cause) c k = some j ∧ j.steer.entry = some x ∧ x.state = .parked ∧
      x.cause = cause ∧ x.pc = e.pc ∧ KeptUni s (parkAgent s (.steer c k) e size cause) (.steer c k) := by
  have hi' : getInst (nextSeq s).2 c k = some i := hi
  have hp : parkAgent s (.steer c k) e size cause = putInst (nextSeq s).2 c k { i with steer := { i.steer with
      entry := some { e with state := .parked, cause := cause, addr := 0#64, parkedAt := s.seq } } } := by
    simp only [parkAgent, steerMove, hc, if_false]
    exact onInst_some hi' _
  rw [hp]
  refine ⟨_, _, getInst_putInst_self _ _ _ _, rfl, rfl, rfl, rfl, KeptUni.trans (t := (nextSeq s).2) ?_ (keptUni_steer hi' rfl)⟩
  exact ⟨rfl, fun _ _ => rfl, rfl, rfl, fun _ _ => rfl, i, i, hi, hi', rfl, rfl⟩

theorem execWordNotInstruction_issues {s : State} {a : Agent} {e : Entry} (hf : s.focus = a) (h : issuing s a = some e) :
    execWordNotInstruction s = .next (parkAgent (begin s a e) a e 4 cILLEGAL) := by
  subst hf
  simp only [execWordNotInstruction, h]

/-- Something stands where a steer thread's turn begins. -/
theorem getInst_begin_steer {s : State} {c k : Nat} {i : Inst} (h : getInst s c k = some i) (e : Entry) :
    ∃ j, getInst (begin s (.steer c k) e) c k = some j := by
  simp only [begin, commitAgent, onInst_some h]
  exact ⟨_, getInst_putInst_self _ _ _ _⟩

/-- Settles O47: a word that is no instruction parks the agent that would issue it; containment, its entries recorded, puts the node back or fails
its launch, and where there is nothing to contain it does nothing. -/
theorem contained : Obligations.Contained := by
  unfold Obligations.Contained
  refine ⟨fun s c k e w h hp hn => ?weave, fun s c k e h => ?steer, fun s l hl => ⟨fun hp => ?clean, fun hp => ?_⟩, fun s n h => ?absent,
    fun s n => ⟨_, rfl⟩⟩
  case weave => exact ⟨_, execWordNotInstruction_issues h.focus h.issues, parkAgent_weave h hp hn 4 (by decide) _⟩
  case steer =>
    obtain ⟨i, hi⟩ := h.steer c k rfl
    obtain ⟨j, hj⟩ := getInst_begin_steer hi e
    obtain ⟨y, x, hx⟩ := parkAgent_steer hj e 4 (cause := cILLEGAL) (by decide)
    exact ⟨_, y, x, execWordNotInstruction_issues h.focus h.issues, hx⟩
  case clean => exact execPoisonContainment_clean hl hp
  case absent => exact execPoisonContainment_none h
  intro s1
  refine ⟨fun hs hr => ?requeued, fun hf => ?failed⟩
  case requeued =>
    obtain ⟨r, h1, h2, h3, h4, rfl⟩ := requeueNode_spec (poisonRecords s l 1) l
    exact ⟨_, _, execPoisonContainment_requeues hl hp hs hr, h1, h2, h3, h4, rfl, rfl, rfl, rfl, rfl, rfl, rfl, rfl⟩
  case failed => exact ⟨_, execPoisonContainment_fails hl hp hf, failed_failLaunch (s := poisonRecords s l 2) hl _ _ _⟩

end Sys2Proof.Machine

/-!
# Steps

The fetch of an agent's words changes caches alone, so a step that issues runs what the words decode to in a state that keeps the rest.
-/

namespace Sys2Proof.Machine

open Sys2Proof

theorem looked_fetchPair (s : State) (c vf va : Nat) (b : Bool) : Looked s (fetchPair s c vf va b).2 c := by
  have h := looked_translate s c vf va .fetch b
  unfold fetchPair
  split
  next e t ht => rw [ht] at h; exact h
  next k t ht =>
    rw [ht] at h
    split
    · exact h
    · exact h.trans (looked_icache _ _ _)

theorem looked_fetchAt (s : State) (a : Agent) (pc : Double) : Looked s (fetchAt s a pc).2 (coreOf a) := by
  have h := looked_fetchPair s (coreOf a) (agentVf s a) pc.toNat (isHandler a)
  unfold fetchAt
  split
  · exact Looked.refl _ _
  · split
    next c t ht => rw [ht] at h; exact h
    next w x t ht => rw [ht] at h; exact h

/-- The turn of a weave counts on its lane, in the core alone. -/
theorem focused_rest (s : State) (a : Agent) : { focused s a with cores := [] } = { s with cores := [], focus := a } := by
  unfold focused
  split
  · split <;> rfl
  · rfl

/-- From the turn to the fetched words: the agent in focus, and beside cores, partitions and marks nothing else changed. -/
theorem fetched_rest (s : State) (a : Agent) (pc : Double) :
    { (fetchAt (focused s a) a pc).2 with cores := [], parts := [], marks := [] } = { s with cores := [], parts := [], marks := [], focus := a } :=
  (looked_fetchAt (focused s a) a pc).rest.trans (congrArg (fun t : State => { t with parts := [], marks := [] }) (focused_rest s a))

/-- An agent's turn whose words are fetched and decode to an instruction. -/
theorem step_issue {s t : State} {a : Agent} {e : Entry} {w x : Word} {i : Instr} (ha : turnOf s = .issue a)
    (he : turnEntry (tickOf s) a = some e) (hf : fetchAt (focused (tickOf s) a) a e.pc = (.ok (w, x), t)) (hd : decodeWords w x = some i) :
    step s = exec i t := by
  simp only [step, ha, issueTurn, he, hf, execWords, hd]

theorem step_event {s : State} {i : Instr} (h : turnOf s = .event i) (hi : isEvent i = true) : step s = exec i (tickOf s) := by
  simp only [step, h, hi, if_true]

/-- Settles O5: an agent's turn is its fetch, then the meaning of what its words decode to; the fetch keeps all but caches and their counts. -/
theorem stepRunsDecoded : Obligations.StepRunsDecoded := by
  unfold Obligations.StepRunsDecoded
  intro s
  refine ⟨fun a e w x i t ha he hf hd => ⟨step_issue ha he hf hd, ?_⟩, fun i h hi => step_event h hi⟩
  have hr := fetched_rest (tickOf s) a e.pc
  rw [hf] at hr
  exact ⟨(congrArg State.focus hr :), (congrArg State.turns hr :), (congrArg State.tick hr :), (congrArg State.mem hr :)⟩

end Sys2Proof.Machine

/-!
# Threads that end, circles, scopes: what their forms share

Writes at one place, the closing of a region that holds no store, and an entry that waits at its instruction.
-/

namespace Sys2Proof.Machine

open Sys2Proof

/-! ## Sets of numbers -/

theorem mem_ninsert {l : NatSet} {k j : Nat} : j ∈ ninsert l k ↔ j = k ∨ j ∈ l := by
  induction l with
  | nil => simp [ninsert]
  | cons x r ih =>
    simp only [ninsert]
    split
    · exact List.mem_cons
    · split
      · rename_i h; subst h; simp
      · rw [List.mem_cons, ih, List.mem_cons, or_left_comm]

/-! ## Writes at one place -/

theorem sput_sput {α : Type} (t : Sparse α) (i : Nat) (x y : α) : sput (sput t i x) i y = sput t i y := by
  induction t with
  | nil => simp [sput]
  | cons e r ih =>
    obtain ⟨j, v⟩ := e
    by_cases h1 : i < j
    · simp [sput, h1]
    · by_cases h2 : i = j
      · simp [sput, h2]
      · simp [sput, h1, h2, ih]

theorem putCore_putCore (s : State) (c : Nat) (x y : Core) : putCore (putCore s c x) c y = putCore s c y := by
  simp only [putCore, sput_sput]

theorem onCore_onCore (s : State) (c : Nat) (f g : Core → Core) : onCore (onCore s c f) c g = onCore s c (fun x => g (f x)) := by
  simp only [onCore, putCore_putCore, getCore_putCore_self]

theorem putWeave_putWeave (s : State) (c k : Nat) (w v : Weave) : putWeave (putWeave s c k w) c k v = putWeave s c k v := by
  simp only [putWeave, onCore_onCore, sput_sput]

theorem putInst_putInst (s : State) (c i : Nat) (x y : Inst) : putInst (putInst s c i x) c i y = putInst s c i y := by
  simp only [putInst, onCore_onCore, sput_sput]

theorem putWeave_laneState (s : State) (c k : Nat) (w : Weave) : putWeave (laneState s c k w) c k w = laneState s c k w := by
  simp only [laneState, claimLane, putWeave, onCore_onCore]
  congr 1
  funext x
  split <;> simp only [sput_sput]

/-! ## The closing of a weave's region that holds no store (05 R110) -/

/-- Nothing of the weave is on its way to memory: its queue is empty, and so is an open region. -/
structure Weave.Idle (w : Weave) : Prop where
  drained : w.storeq = []
  empty : ∀ r, w.region = some r → r.stores = []

theorem Weave.Plain.idle {w : Weave} (h : w.Plain) : w.Idle := ⟨h.drained, fun r hr => by rw [h.closed] at hr; cases hr⟩

theorem closeRegion_idle {w : Weave} (h : w.Idle) : closeRegion w = { w with region := none } := by
  unfold closeRegion
  split
  next hr => rw [← hr]
  next r hr => rw [h.empty r hr]; rfl

theorem closeFor_idle {s : State} {c k : Nat} {w : Weave} (hw : getWeave s c k = some w) (h : w.Idle) :
    closeFor s c k = putWeave s c k { w with region := none } := by
  have hq : queueOf (putWeave s c k { w with region := none }) (.weave c k) = [] := by
    simp only [queueOf, getWeave_putWeave_self, h.drained]
  simp only [closeFor, onWeave_some hw, closeRegion_idle h, drainAll, hq, performAll, List.foldl_nil, setQueue,
    onWeave_some (getWeave_putWeave_self s c k _), putWeave_putWeave]
  rw [← h.drained]

theorem closeFor_plain (s : State) (c k : Nat) {w : Weave} (h : w.Plain) : closeFor (laneState s c k w) c k = laneState s c k w := by
  rw [closeFor_idle (getWeave_laneState s c k w) h.idle, ← h.closed, putWeave_laneState]

theorem pairOf_weave {s : State} {c k : Nat} {w : Weave} (hw : getWeave s c k = some w) : pairOf s (.weave c k) = w.pair := by
  simp only [pairOf, hw, Option.bind_some]

/-- An instruction that orders earlier stores, of a weave that is no paired copy. -/
theorem afterFlow_solo {s : State} {c k : Nat} {w : Weave} (hw : getWeave s c k = some w) (hp : w.pair = none) (f : State → Done) :
    afterFlow s (.weave c k) f = f (closeFor s c k) := by
  simp only [afterFlow, isPaired, pairOf_weave hw, hp, Option.isSome_none, Bool.false_and, Bool.false_eq_true, if_false, closeAgent]

theorem afterFlow_plain (s : State) (c k : Nat) {w : Weave} (h : w.Plain) (f : State → Done) :
    afterFlow (laneState s c k w) (.weave c k) f = f (laneState s c k w) := by
  rw [afterFlow_solo (getWeave_laneState s c k w) h.solo, closeFor_plain s c k h]

theorem takeLog_solo {s : State} {c k : Nat} {w : Weave} (hw : getWeave s c k = some w) (hp : w.pair = none) :
    takeLog s (.weave c k) = .fresh := by
  simp only [takeLog, pairOf_weave hw, hp]

theorem isReplaying_solo {s : State} {c k : Nat} {w : Weave} (hw : getWeave s c k = some w) (hp : w.pair = none) :
    isReplaying s (.weave c k) = false := by
  simp only [isReplaying, pairOf_weave hw, hp]

theorem onPair_solo {s : State} {c k : Nat} {w : Weave} (hw : getWeave s c k = some w) (hp : w.pair = none) (f : Pair → Pair) :
    onPair s (.weave c k) f = putWeave s c k w := by
  simp only [onPair, onWeave_some hw, hp, Option.map_none]
  rw [← hp]

/-! ## The entry that issues stands in its weave (R66) -/

theorem firstOf_mem {l : List Entry} {e : Entry} (h : firstOf l = some e) : e ∈ l := by
  induction l generalizing e with
  | nil => cases h
  | cons x r ih =>
    simp only [firstOf] at h
    split at h
    · cases h; exact List.mem_cons_self
    · rename_i y hy
      split at h <;> cases h
      · exact List.mem_cons_of_mem _ (ih hy)
      · exact List.mem_cons_self

theorem selected_mem {s : State} {c : Nat} {w : Weave} {e : Entry} (h : selected s c w = some e) : e ∈ w.frontier := by
  unfold selected at h
  split at h
  · exact List.mem_of_mem_filter (List.mem_of_find?_eq_some h)
  · exact List.mem_of_mem_filter (firstOf_mem h)

/-- The weave as it stood before its results arrived. -/
theorem LaneTurn.before {s : State} {c k : Nat} {e : Entry} {w : Weave} (h : LaneTurn s c k e w) :
    ∃ w0, getWeave s c k = some w0 ∧ commitWeave w0 = w := Option.map_eq_some_iff.mp h.weave

theorem LaneTurn.inIt {s : State} {c k : Nat} {e : Entry} {w : Weave} (h : LaneTurn s c k e w) : e ∈ w.frontier := by
  obtain ⟨w0, h0, rfl⟩ := h.before
  have hi := h.issues
  unfold issuing at hi
  split at hi
  · cases hi
  · simp only [issuingOf, h0] at hi
    rw [commitWeave_frontier]
    exact selected_mem hi

/-! ## An entry that waits at its instruction (log entry 14) -/

/-- The entry in its state of waiting, the others where they stood. -/
theorem holdEntry_spec {s : State} {c k : Nat} {e : Entry} {w : Weave} (hw : getWeave s c k = some w) (he : e ∈ w.frontier)
    (hm : e.mask ≠ 0#32) (st : EntryState) :
    ∃ w', getWeave (holdEntry s c k e st) c k = some w' ∧ w'.body = w.body ∧ Kept s (holdEntry s c k e st) c k ∧
      w'.standAs e.mask (fun _ => (st, e.pc)) ∧ w.others w' e.mask := by
  have hw' : getWeave (nextSeq s).2 c k = some w := hw
  simp only [holdEntry, onWeave_some hw']
  refine ⟨_, getWeave_putWeave_self _ _ _ _, rfl, (kept_nextSeq s c k).trans (kept_putWeave _ _ _ _), fun u hu => ?_, fun x hx hz => ?_⟩
  · exact ⟨_, List.mem_map.mpr ⟨e, he, if_pos (by simpa using hm)⟩, hu, rfl, rfl⟩
  · exact ⟨x, List.mem_map.mpr ⟨x, hx, if_neg (by simpa using hz)⟩, by simp, rfl, rfl⟩

/-- A lane instruction that waits at its place. -/
theorem laneIssue_waits {s : State} {c k : Nat} {e : Entry} {w : Weave} (h : LaneTurn s c k e w) (q : LaneReq)
    (hl : illegalHere w e q.size q.chain q.elig q.regs = false) (body : State → Nat → Nat → Weave → Entry → Mask → Done)
    {s1 : State} {st : EntryState} (hb : body (laneState s c k w) c k w e (activeMask w e q.guard) = waits s1 st)
    {w1 : Weave} (hw : getWeave s1 c k = some w1) (hf : w1.frontier = w.frontier) :
    ∃ t, laneIssue s q body = .next t ∧ LaneDone s1 t c k e w w1 (fun _ => (st, e.pc)) := by
  obtain ⟨w', h1, h2, h3, h4, h5⟩ := holdEntry_spec hw (hf ▸ h.inIt) h.live st
  refine ⟨_, laneIssue_turn h q hl body, ?_⟩
  simp only [hb, laneEnd, waits]
  exact ⟨h3, w', h1, h2, h4, fun x hx => h5 x (hf ▸ hx)⟩

/-! ## What a lane instruction keeps beside a change of its instance -/

theorem Kept.insts {s t : State} {c k : Nat} (h : Kept s t c k) (i : Nat) : getInst t c i = getInst s c i := by
  have := congrArg Core.insts h.core
  simp only [Core.rest] at this
  simp only [getInst, this]

theorem getInst_laneState (s : State) (c k : Nat) (w : Weave) (i : Nat) : getInst (laneState s c k w) c i = getInst s c i :=
  (kept_laneState s c k w).insts i

theorem Kept.launches {s t : State} {c k : Nat} (h : Kept s t c k) : t.launches = s.launches := (congrArg State.launches h.rest :)

theorem Kept.queues {s t : State} {c k : Nat} (h : Kept s t c k) : (getCore t c).queues = (getCore s c).queues :=
  (congrArg Core.queues h.core :)

theorem Kept.cmem {s t : State} {c k : Nat} (h : Kept s t c k) : (getCore t c).cmem = (getCore s c).cmem := (congrArg Core.cmem h.core :)

theorem Kept.full {s t : State} {c k : Nat} (h : Kept s t c k) : (getCore t c).full = (getCore s c).full := (congrArg Core.full h.core :)

theorem rest_putWeave (s : State) (c k : Nat) (w : Weave) :
    { putWeave s c k w with cores := [], seq := 0 } = { s with cores := [], seq := 0 } := rfl

theorem rest_putInst (s : State) (c i : Nat) (x : Inst) :
    { putInst s c i x with cores := [], seq := 0 } = { s with cores := [], seq := 0 } := rfl

theorem rest_onCore (s : State) (c : Nat) (f : Core → Core) :
    { onCore s c f with cores := [], seq := 0 } = { s with cores := [], seq := 0 } := rfl

@[simp] theorem getWeave_onInst (s : State) (c i : Nat) (f : Inst → Inst) (d k : Nat) : getWeave (onInst s c i f) d k = getWeave s d k := by
  unfold onInst
  split
  · exact getWeave_putInst _ _ _ _ _ _
  · rfl

theorem Kept.onInst {s t : State} {c k : Nat} (h : Kept s t c k) (i : Nat) (f : Inst → Inst) : Kept (onInst s c i f) (onInst t c i f) c k := by
  unfold Machine.onInst
  rw [h.insts]
  split
  next x hx =>
    refine ⟨?_, fun d hd => ?_, ?_, fun j hj => ?_⟩
    · exact h.rest
    · simp only [putInst, getCore_onCore_ne _ _ hd]; exact h.cores d hd
    · have hi : (getCore t c).insts = (getCore s c).insts := (congrArg Core.insts h.core :)
      simp only [putInst, getCore_onCore_self, Core.rest, hi]
      have hc := congrArg (fun y : Core => ({ y with insts := sput (getCore s c).insts i (f x) } : Core)) h.core
      simpa only [Core.rest, hi] using hc
    · simp only [getWeave_putInst]; exact h.weaves j hj
  next => exact h

end Sys2Proof.Machine

/-!
# Ends of threads

What a weave leaves when it ends, and the mark for restart.
-/

namespace Sys2Proof.Machine

open Sys2Proof

/-! ## A weave that is no more -/

theorem sfind_none_iff {α : Type} {t : Sparse α} {i : Nat} : sfind t i = none ↔ ∀ x ∈ t, x.1 ≠ i := by
  induction t with
  | nil => simp [sfind]
  | cons e r ih =>
    obtain ⟨j, v⟩ := e
    by_cases h : j = i <;> simp [sfind, h, ih]

theorem sfind_filter_none {α : Type} {t : Sparse α} {i : Nat} (h : sfind t i = none) (p : Nat × α → Bool) : sfind (t.filter p) i = none :=
  sfind_none_iff.mpr fun x hx => sfind_none_iff.mp h x (List.mem_of_mem_filter hx)

theorem getWeave_onWeave_none {s : State} {c k : Nat} (h : getWeave s c k = none) (j : Nat) (f : Weave → Weave) :
    getWeave (onWeave s c j f) c k = none := by
  unfold onWeave
  split
  next w hw =>
    have hj : k ≠ j := by rintro rfl; rw [h] at hw; cases hw
    exact (getWeave_putWeave_ne _ _ _ hj).trans h
  next => exact h

theorem getWeave_settleBarrier_none {s : State} {c k : Nat} (h : getWeave s c k = none) (i z : Nat) :
    getWeave (settleBarrier s c i z) c k = none := by
  have hf : ∀ (l : List (Nat × Weave)) (s : State), getWeave s c k = none →
      getWeave (l.foldl (fun s e => onWeave s c e.1 (fun w => releaseBar w z)) s) c k = none := by
    intro l
    induction l with
    | nil => exact fun s h => h
    | cons x r ih => exact fun s h => ih _ (getWeave_onWeave_none h _ _)
  unfold settleBarrier
  split
  · exact h
  · split
    · exact h
    · dsimp only
      split
      · exact hf _ _ h
      · exact h

theorem getWeave_settleBarriers_none {s : State} {c k : Nat} (h : getWeave s c k = none) (i : Nat) :
    getWeave (settleBarriers s c i) c k = none := by
  have hf : ∀ (l : List Machine.Circle) (s : State), getWeave s c k = none →
      getWeave (l.foldl (fun s z => settleBarrier s c i z.id) s) c k = none := by
    intro l
    induction l with
    | nil => exact fun s h => h
    | cons x r ih => exact fun s h => ih _ (getWeave_settleBarrier_none h _ _)
  unfold settleBarriers
  split
  · exact h
  · exact hf _ _ h

theorem getWeave_removeInst_none {s : State} {c k : Nat} (h : getWeave s c k = none) (i : Nat) : getWeave (removeInst s c i) c k = none := by
  unfold removeInst
  split
  · exact h
  · simp only [getWeave, getCore_onCore_self]
    split <;> exact sfind_filter_none h _

theorem getWeave_settleInst_none {s : State} {c k : Nat} (h : getWeave s c k = none) (i : Nat) : getWeave (settleInst s c i) c k = none := by
  unfold settleInst
  split
  · split
    · exact h
    · dsimp only
      split <;> exact getWeave_removeInst_none h i
  · exact h

theorem getWeave_endWeave (s : State) (c k : Nat) : getWeave (endWeave s c k) c k = none := by
  unfold endWeave
  split
  · assumption
  · dsimp only
    split
    · assumption
    · refine getWeave_settleInst_none ?_ _
      simp only [dissolve, getWeave_onInst]
      refine getWeave_settleBarriers_none ?_ _
      simp only [closeStages, getWeave_onInst]
      simp only [getWeave, getCore_onCore_self, sfind_serase_self]

/-! ## Threads that end (R75, R132) -/

/-- The end of a lane instruction up to where its threads go: the weave's names for results and counters alone change. -/
theorem laneEnd_retire {c k : Nat} (e : Entry) (size : Nat) (ch : Bool) {d : Done} {w : Weave} (hd : d.wait = none)
    (hw : getWeave d.s c k = some w) :
    ∃ s2 w2, laneEnd c k e size ch d = retire s2 c k e size ch d.gs ∧ Kept d.s s2 c k ∧ getWeave s2 c k = some w2 ∧ w2.body = w.body ∧
      w2.frontier = w.frontier := by
  obtain ⟨w1, h1, b1, f1, k1⟩ := untag_spec hw d.wv d.ws
  have h2 : getWeave (onCore (untag d.s c k d.wv d.ws) c (fun x => countCore x 0x001 1)) c k = some w1 :=
    (getWeave_onCore _ c (fun x => countCore x 0x001 1) (fun _ => rfl) c k).trans h1
  refine ⟨onWeave (onCore (untag d.s c k d.wv d.ws) c (fun x => countCore x 0x001 1)) c k (fun w => countWeave w 0x103 (max 1 d.cycles)),
    countWeave w1 0x103 (max 1 d.cycles), by simp only [laneEnd, hd], ?_, ?_, b1, f1⟩
  · rw [onWeave_some h2]
    exact (k1.trans (kept_countCore _ _ _ _ _)).trans (kept_putWeave _ _ _ _)
  · rw [onWeave_some h2, getWeave_putWeave_self]

/-- What is left of a weave whose entry's threads ended. -/
def Weave.without (w : Weave) (e : Entry) (ch : Option Chain) : Weave :=
  { w with frontier := w.frontier.filter (fun x => x.mask &&& e.mask == 0#32), chain := ch }

theorem Weave.mem_without {w : Weave} {e : Entry} {ch : Option Chain} {x : Entry} :
    x ∈ (w.without e ch).frontier ↔ x ∈ w.frontier ∧ x.mask &&& e.mask = 0#32 := by simp [Weave.without]

theorem groupsOf_gone (m : Mask) : groupsOf m [(m, .gone)] = [(m, .gone), (0#32, .next)] := by simp [groupsOf]

theorem noBar_without {s : State} {c k : Nat} {e : Entry} {w : Weave} (hw : getWeave s c k = some w) (hn : noBar s c) (ch : Option Chain) :
    noBar (putWeave (nextSeq s).2 c k (w.without e ch)) c := by
  intro j x hx y hy n
  by_cases hj : j = k
  · subst hj
    rw [getWeave_putWeave_self] at hx
    cases hx
    exact hn _ w hw y (Weave.mem_without.mp hy).1 n
  · rw [getWeave_putWeave_ne _ _ _ hj] at hx
    exact hn j x hx y hy n

/-- An entry whose threads all end leaves the frontier; nobody waits at a barrier, so that the weave's own end alone can follow. -/
theorem retire_gone {s : State} {c k : Nat} {e : Entry} {w : Weave} (hw : getWeave s c k = some w) (hn : noBar s c)
    (hr : (held (w.frontier.filter (fun x => x.mask &&& e.mask == 0#32))).length < 16) (size : Nat) (cc : Bool) :
    ∃ ch, retire s c k e size cc [(e.mask, .gone)] = settleWeave (putWeave (nextSeq s).2 c k (w.without e ch)) c k := by
  refine ⟨chainAfter w e cc [(e.mask, .gone), (0#32, .next)], ?_⟩
  generalize hch : chainAfter w e cc [(e.mask, .gone), (0#32, .next)] = ch
  have hpark : anyPark [(e.mask, Go.gone), (0#32, .next)] = false := by simp [anyPark]
  have hpoison : poisonThreads [(e.mask, Go.gone), (0#32, .next)] = [] := rfl
  have hpieces : ∀ head n, pieces e head size n [(e.mask, .gone), (0#32, .next)] = [] := by
    intro head n; simp [pieces, parkedPiece]
  have hwithout : ({ w with frontier := regroup w.frontier e [], chain := ch } : Weave) = w.without e ch := rfl
  simp only [retire, hw, groupsOf_gone, moveThreads, hpark, hpoison, hch, List.foldl_nil, hpieces, hwithout, Bool.false_eq_true, if_false]
  rw [spillDown_held 32 _ (getWeave_putWeave_self _ _ _ _) (by exact Nat.le_of_lt hr), settleBarriers_still (noBar_without hw hn ch), ite_self]

/-- A weave with threads left, or with threads marked for restart, goes on. -/
theorem settleWeave_stays {s : State} {c k : Nat} {w : Weave} (hw : getWeave s c k = some w) (h : w.frontier ≠ [] ∨ w.restart ≠ none) :
    settleWeave s c k = s := by
  rcases h with h | h
  · exact settleWeave_live hw h
  · have hr : w.restart.isNone = false := by cases hw' : w.restart <;> simp_all
    simp only [settleWeave, hw, hr, Bool.and_false, Bool.false_eq_true, if_false]

theorem settleWeave_ends {s : State} {c k : Nat} {w : Weave} (hw : getWeave s c k = some w) (hf : w.frontier = []) (hr : w.restart = none)
    (hp : w.pair = none) : settleWeave s c k = endWeave s c k := by
  simp only [settleWeave, hw, hf, hr, hp, List.isEmpty_nil, Option.isNone_none, Bool.and_self, if_true]

section Ends

variable {s : State} {c k : Nat} {e : Entry} {w w1 : Weave} {d : Done} {q : LaneReq}
  {body : State → Nat → Nat → Weave → Entry → Mask → Done}

/-- A lane instruction that ends its threads, of a weave that has others or is marked for restart. -/
theorem laneIssue_gone (h : LaneTurn s c k e w) (hn : noBar s c) (hl : illegalHere w e q.size q.chain q.elig q.regs = false)
    (hb : body (laneState s c k w) c k w e (activeMask w e q.guard) = d) (hd : d.wait = none) (hg : d.gs = [(e.mask, .gone)])
    (hk : Kept s d.s c k) (hw : getWeave d.s c k = some w1) (hf : w1.frontier = w.frontier)
    (hstay : (∃ x ∈ w.frontier, x.mask &&& e.mask = 0#32) ∨ w1.restart ≠ none) :
    ∃ t, laneIssue s q body = .next t ∧ LaneGone s t c k e w w1 := by
  obtain ⟨s2, w2, h1, h2, h3, h4, h5⟩ := laneEnd_retire e q.size q.chain hd hw
  have hn2 : noBar s2 c := by
    refine noBar_kept hn (hk.trans h2) fun w' hw' => ?_
    obtain ⟨w0, h0, rfl⟩ := h.before
    rw [h3] at hw'; cases hw'
    exact ⟨w0, h0, by rw [h5, hf, commitWeave_frontier]⟩
  have hf2 : w2.frontier = w.frontier := h5.trans hf
  obtain ⟨ch, h6⟩ := retire_gone (e := e) h3 hn2 (by rw [hf2]; exact h.room) q.size q.chain
  have hs : settleWeave (putWeave (nextSeq s2).2 c k (w2.without e ch)) c k = putWeave (nextSeq s2).2 c k (w2.without e ch) := by
    refine settleWeave_stays (getWeave_putWeave_self _ _ _ _) ?_
    rcases hstay with ⟨x, hx, hm⟩ | hr
    · exact .inl (List.ne_nil_of_mem (Weave.mem_without.mpr ⟨hf2 ▸ hx, hm⟩))
    · exact .inr ((congrArg Weave.restart h4 :).trans_ne hr)
  refine ⟨_, (laneIssue_turn h q hl body).trans (by rw [hb, h1, hg, h6, hs]; rfl), hk.trans (h2.trans kept_retire), w2.without e ch,
    getWeave_putWeave_self _ _ _ _, h4, fun x hx hm => ?_, fun x hx => (Weave.mem_without.mp hx).2⟩
  exact ⟨x, Weave.mem_without.mpr ⟨hf2 ▸ hx, hm⟩, by simp, rfl, rfl⟩

/-- A lane instruction that ends the last threads of its weave. -/
theorem laneIssue_last (h : LaneTurn s c k e w) (hn : noBar s c) (hl : illegalHere w e q.size q.chain q.elig q.regs = false)
    (hb : body (laneState s c k w) c k w e (activeMask w e q.guard) = d) (hd : d.wait = none) (hg : d.gs = [(e.mask, .gone)])
    (hk : Kept s d.s c k) (hw : getWeave d.s c k = some w1) (hf : w1.frontier = w.frontier) (hp : w1.pair = none) (hr : w1.restart = none)
    (hlast : ∀ x ∈ w.frontier, x.mask &&& e.mask ≠ 0#32) :
    ∃ t, laneIssue s q body = .next t ∧ getWeave t c k = none := by
  obtain ⟨s2, w2, h1, h2, h3, h4, h5⟩ := laneEnd_retire e q.size q.chain hd hw
  have hn2 : noBar s2 c := by
    refine noBar_kept hn (hk.trans h2) fun w' hw' => ?_
    obtain ⟨w0, h0, rfl⟩ := h.before
    rw [h3] at hw'; cases hw'
    exact ⟨w0, h0, by rw [h5, hf, commitWeave_frontier]⟩
  have hf2 : w2.frontier = w.frontier := h5.trans hf
  obtain ⟨ch, h6⟩ := retire_gone (e := e) h3 hn2 (by rw [hf2]; exact h.room) q.size q.chain
  have hnil : (w2.without e ch).frontier = [] :=
    List.eq_nil_iff_forall_not_mem.mpr fun x hx => hlast x (hf2 ▸ (Weave.mem_without.mp hx).1) (Weave.mem_without.mp hx).2
  refine ⟨_, (laneIssue_turn h q hl body).trans (by
    rw [hb, h1, hg, h6, settleWeave_ends (getWeave_putWeave_self _ _ _ _) hnil ((congrArg Weave.restart h4 :).trans hr)
      ((congrArg Weave.pair h4 :).trans hp)]), getWeave_endWeave _ _ _⟩

end Ends

/-- Threads of a weave that is no paired copy end at once. -/
theorem endThreads_solo {s : State} {c k : Nat} {w : Weave} (hw : getWeave s c k = some w) (hp : w.pair = none) (live ending : Mask)
    (rest : Groups) (n : Nat) : endThreads s c k live ending rest n = moved (putWeave s c k w) (rest ++ [(ending, .gone)]) n := by
  have h1 : pairOf s (.weave c k) = none := (pairOf_weave hw).trans hp
  have h2 : groupsLeft (putWeave s c k w) (.weave c k) = false := by
    simp only [groupsLeft, pairOf_weave (getWeave_putWeave_self s c k w), hp]
  simp only [endThreads, groupStall, h1, onPair_solo hw hp, h2, Bool.and_false, Bool.false_eq_true, if_false]

/-! ## The mark for restart (R76) -/

/-- `(j, m)`: the lowest index among `r`'s and those that `v` gives the threads `l`, and the threads for which it stands. -/
structure Marked (r : Option (Nat × Mask)) (l : List Nat) (v : Nat → Nat) (j : Nat) (m : Mask) : Prop where
  least : ∀ u ∈ l, j ≤ v u
  leastOld : ∀ j' m', r = some (j', m') → j ≤ j'
  attained : (∃ u ∈ l, v u = j) ∨ ∃ m', r = some (j, m')
  threads : ∀ u, u < 32 → (m.getLsbD u = true ↔ (u ∈ l ∧ v u = j) ∨ ∃ m', r = some (j, m') ∧ m'.getLsbD u = true)

theorem markRestart_marked (r : Option (Nat × Mask)) (v : Nat → Nat) {t : Nat} (ht : t < 32) :
    ∃ j m, markRestart r (v t) t = some (j, m) ∧ Marked r [t] v j m := by
  have hm : ∀ u, (maskOf [t]).getLsbD u = decide (u = t) := fun u => by
    rw [getLsbD_maskOf [t] (by simpa using ht)]; simp
  match r with
  | none => exact ⟨v t, maskOf [t], rfl, by simp, by simp, by simp, fun u _ => by simp +contextual [hm]⟩
  | some (j, m) =>
    by_cases h1 : v t < j
    · refine ⟨v t, maskOf [t], by simp [markRestart, h1], by simp, by simp; omega, by simp, fun u _ => ?_⟩
      have : j ≠ v t := by omega
      simp +contextual [hm, this]
    · by_cases h2 : v t = j
      · refine ⟨j, m ||| maskOf [t], by simp [markRestart, h2], by simp [h2], by simp, by simp [h2], fun u _ => ?_⟩
        simp only [BitVec.getLsbD_or, hm, Bool.or_eq_true, decide_eq_true_eq, List.mem_singleton, Option.some.injEq, Prod.mk.injEq, true_and,
          exists_eq_left']
        constructor
        · rintro (h | rfl)
          · exact .inr h
          · exact .inl ⟨rfl, h2⟩
        · rintro (⟨rfl, -⟩ | h)
          · exact .inr rfl
          · exact .inl h
      · refine ⟨j, m, by simp [markRestart, h1, h2], by simp; omega, by simp, by simp, fun u _ => ?_⟩
        simp only [List.mem_singleton, Option.some.injEq, Prod.mk.injEq, true_and, exists_eq_left']
        exact ⟨.inr, fun h => h.resolve_left (by rintro ⟨h3, h⟩; exact h2 (h3 ▸ h))⟩

theorem Marked.cons {r : Option (Nat × Mask)} {l : List Nat} {v : Nat → Nat} {t j1 j : Nat} {m1 m : Mask} (h1 : Marked r [t] v j1 m1)
    (h : Marked (some (j1, m1)) l v j m) : Marked r (t :: l) v j m := by
  have hj : j ≤ j1 := h.leastOld _ _ rfl
  refine ⟨?_, fun j' m' h' => hj.trans (h1.leastOld _ _ h'), ?_, fun u hu => ?_⟩
  · rintro u (_ | ⟨_, hu⟩)
    · exact hj.trans (h1.least _ (by simp))
    · exact h.least u hu
  · rcases h.attained with ⟨u, hu, hv⟩ | ⟨m', hm'⟩
    · exact .inl ⟨u, List.mem_cons_of_mem _ hu, hv⟩
    · cases hm'
      refine h1.attained.imp_left ?_
      rintro ⟨u, hu, hv⟩
      exact ⟨u, by simp at hu; simp [hu], hv⟩
  · rw [h.threads u hu]
    by_cases hjj : j = j1
    · subst hjj
      simp only [Option.some.injEq, Prod.mk.injEq, true_and, exists_eq_left', h1.threads u hu, List.mem_cons]
      grind
    · have ht : v t ≠ j := fun ht => hjj (le_antisymm hj (ht ▸ h1.least t (by simp)))
      have hr : ∀ m', r ≠ some (j, m') := fun m' hr => hjj (le_antisymm hj (h1.leastOld _ _ hr))
      simp only [List.mem_cons]
      constructor
      · rintro (⟨h1, h2⟩ | ⟨m', h1, -⟩)
        · exact .inl ⟨.inr h1, h2⟩
        · cases h1; exact absurd rfl hjj
      · rintro (⟨rfl | h1, h2⟩ | ⟨m', h1, -⟩)
        · exact absurd h2 ht
        · exact .inl ⟨h1, h2⟩
        · exact absurd h1 (hr m')

theorem foldl_markRestart {v : Nat → Nat} {l : List Nat} (hl : ∀ u ∈ l, u < 32) (hne : l ≠ []) (r : Option (Nat × Mask)) :
    ∃ j m, l.foldl (fun r u => markRestart r (v u) u) r = some (j, m) ∧ Marked r l v j m := by
  induction l generalizing r with
  | nil => exact absurd rfl hne
  | cons t l ih =>
    obtain ⟨j1, m1, h1, h2⟩ := markRestart_marked r v (hl t (by simp))
    by_cases hn : l = []
    · subst hn; exact ⟨j1, m1, h1, h2⟩
    · obtain ⟨j, m, h3, h4⟩ := ih (fun u hu => hl u (List.mem_cons_of_mem _ hu)) hn (some (j1, m1))
      exact ⟨j, m, by rw [List.foldl_cons, h1, h3], h2.cons h4⟩

/-! ## The two forms (R132, R133) -/

theorem maskOf_threadsOf (m : Mask) : maskOf (threadsOf m) = m := by
  apply BitVec.eq_of_getLsbD_eq
  intro u hu
  rw [getLsbD_maskOf _ (fun x hx => threadsOf_lt hx)]
  simp [mem_threadsOf, hu]

theorem threadsOf_ne_nil {m : Mask} (h : m ≠ 0#32) : threadsOf m ≠ [] := by
  obtain ⟨u, hu⟩ := exists_thread h
  exact List.ne_nil_of_mem (mem_threadsOf.mpr ⟨BitVec.lt_of_getLsbD hu, hu⟩)

theorem setWidth_ofNat_of_lt {n : Nat} (h : n < 2 ^ 32) : ((BitVec.ofNat 64 n).setWidth 32 : Word).toNat = n := by
  simp only [BitVec.toNat_setWidth, BitVec.toNat_ofNat]; omega

section Forms

variable {s : State} {c k : Nat} {e : Entry} {w : Weave}

/-- What `exit` does on its turn. -/
theorem exit_body (hp : w.Plain) (live : Mask) (n : Nat) :
    endThreads (closeFor (laneState s c k w) c k) c k live e.mask [] n = moved (laneState s c k w) [(e.mask, .gone)] n := by
  rw [closeFor_plain _ _ _ hp, endThreads_solo (getWeave_laneState _ _ _ _) hp.solo, putWeave_laneState]
  rfl

theorem exec_exit (h : LaneTurn s c k e w) (hp : w.Plain) (hn : noBar s c) (hl : illegalHere w e 4 false false [] = false) :
    ((∃ x ∈ w.frontier, x.mask &&& e.mask = 0#32) ∨ w.restart ≠ none → ∃ t, exec .exit s = .next t ∧ LaneGone s t c k e w w) ∧
    ((∀ x ∈ w.frontier, x.mask &&& e.mask ≠ 0#32) ∧ w.restart = none → ∃ t, exec .exit s = .next t ∧ getWeave t c k = none) := by
  have hb : (fun s c k w (_ : Entry) act => endThreads (closeFor s c k) c k (liveMask w) act [] (countOf act)) (laneState s c k w) c k w e
      (activeMask w e (oneWord []).guard) = moved (laneState s c k w) [(e.mask, .gone)] (countOf e.mask) := by
    simp only [oneWord, activeMask_noGuard, exit_body hp]
  refine ⟨fun hs => laneIssue_gone h hn hl hb rfl rfl (kept_laneState s c k w) (getWeave_laneState _ _ _ _) rfl hs, fun ⟨hlast, hr⟩ => ?_⟩
  exact laneIssue_last h hn hl hb rfl rfl (kept_laneState s c k w) (getWeave_laneState _ _ _ _) rfl hp.solo hr hlast

theorem exec_exitto (h : LaneTurn s c k e w) (hp : w.Plain) (hn : noBar s c) {a : LSrc} {p : BitVec 28} {v : Nat → Nat} {l : Launch}
    (hl : illegalHere w e 8 false false (lsrcRegs a 1) = false) (ha : agentLaunch (laneState s c k w) (.weave c k) = some l)
    (hv : ∀ u, e.mask.getLsbD u = true → v u < l.header.succents.length ∧ v u < 2 ^ 32 ∧
      readLSrc (laneCore s c k w) w u a false (litValue .w32 p) = .ok (BitVec.ofNat 64 (v u))) :
    ∃ t j m, exec (.exitto a p) s = .next t ∧ LaneGone s t c k e w { w with restart := some (j, m) } ∧ Marked w.restart (threadsOf e.mask) v j m := by
  obtain ⟨j, m, hf, hm⟩ := foldl_markRestart (v := v) (fun u hu => threadsOf_lt hu) (threadsOf_ne_nil h.live) w.restart
  have hg : getWeave (putWeave (laneState s c k w) c k { w with restart := some (j, m) }) c k = some { w with restart := some (j, m) } :=
    getWeave_putWeave_self _ _ _ _
  have key : ∃ t, exec (.exitto a p) s = .next t ∧ LaneGone s t c k e w { w with restart := some (j, m) } := by
    refine laneIssue_gone (q := twoWord (lsrcRegs a 1)) (w1 := { w with restart := some (j, m) })
      (d := moved (putWeave (laneState s c k w) c k { w with restart := some (j, m) }) [(e.mask, .gone)] (countOf e.mask)) h hn hl ?_
      rfl rfl ((kept_laneState s c k w).trans (kept_putWeave _ _ _ _)) hg rfl (.inr (by simp))
    simp only [twoWord, activeMask_noGuard, ha]
    rw [List.map_congr_left (l := threadsOf e.mask) (g := fun t => ((t, .ok (v t)) : Nat × Except Nat Nat))]
    · simp only [List.filterMap_map, Function.comp_def, List.filterMap_eq_map', List.filterMap_none, closeFor_plain _ _ _ hp,
        onWeave_some (getWeave_laneState s c k w), List.foldl_map, hf, List.map_map, List.map_id', maskOf_threadsOf]
      rw [endThreads_solo hg hp.solo, putWeave_putWeave]
      rfl
    · intro t ht
      obtain ⟨h1, h2, h3⟩ := hv t (mem_threadsOf.mp ht).2
      simp only [laneCore] at h3
      simp only [h3, setWidth_ofNat_of_lt h2, if_neg (Nat.not_le.mpr h1)]
  obtain ⟨t, h1, h2⟩ := key
  exact ⟨t, j, m, h1, h2, hm⟩

end Forms

/-- Settles O20: the threads of the entry leave the frontier, and the weave with its last thread, unless threads are marked; the mark is the
lowest index met. -/
theorem threadEnds : Obligations.ThreadEnds := by
  unfold Obligations.ThreadEnds
  refine fun s c k e w h hp hn => ⟨fun hl => exec_exit h hp hn hl, fun a p v l hl ha hv => ?_⟩
  obtain ⟨t, j, m, h1, h2, h3, h4, h5, h6⟩ := exec_exitto h hp hn hl ha hv
  have hmem : ∀ u, u ∈ threadsOf e.mask ↔ e.mask.getLsbD u = true :=
    fun u => mem_threadsOf.trans ⟨And.right, fun hu => ⟨BitVec.lt_of_getLsbD hu, hu⟩⟩
  simp only [hmem] at h3 h5 h6
  exact ⟨t, j, m, h1, h2, h3, h4, h5, h6⟩

end Sys2Proof.Machine

/-!
# Barriers

What a completed barrier changes, and when a circle's members have arrived.
-/

namespace Sys2Proof.Machine

open Sys2Proof

/-! ## What arriving results change (R62) -/

/-- A weave but for the registers that a result names, and the results still on their way. -/
def Weave.fixed (w : Weave) : Weave := { w with v := [], vbad := [], preds := [], s := [], sbad := [], inflight := [] }

theorem foldl_fixed {α : Type} (f : Weave → α → Weave) (hf : ∀ w x, (f w x).fixed = w.fixed) (l : List α) (w : Weave) :
    (l.foldl f w).fixed = w.fixed := by
  induction l generalizing w with
  | nil => rfl
  | cons x r ih => exact (ih _).trans (hf w x)

theorem writeP_fixed (w : Weave) (t p : Nat) (b : Bool) : (writeP w t p b).fixed = w.fixed := by
  unfold writeP; split <;> rfl

theorem applyResult_fixed (w : Weave) (r : Result) : (applyResult w r).fixed = w.fixed :=
  (foldl_fixed _ (fun w _ => writeP_fixed w _ _ _) r.p _).trans (foldl_fixed (fun w (e : Nat × Word) => writeV w (e.1 % 32) (e.1 / 32) e.2) (fun _ _ => rfl) r.v w)

theorem commitWeave_fixed (w : Weave) : (commitWeave w).fixed = w.fixed := foldl_fixed _ applyResult_fixed w.inflight w

theorem commitWeave_circles (w : Weave) : (commitWeave w).circles = w.circles := (congrArg Weave.circles (commitWeave_fixed w) :)

/-! ## What a barrier changes -/

/-- From `s` to `t` nothing changed but weaves of core `c`, its lanes, counters and value store. -/
structure KeptCore (s t : State) (c : Nat) : Prop where
  rest : { t with cores := [], seq := 0 } = { s with cores := [], seq := 0 }
  cores : ∀ d, d ≠ c → getCore t d = getCore s d
  core : (getCore t c).rest = (getCore s c).rest

theorem KeptCore.refl (s : State) (c : Nat) : KeptCore s s c := ⟨rfl, fun _ _ => rfl, rfl⟩

theorem KeptCore.trans {s t u : State} {c : Nat} (h : KeptCore s t c) (g : KeptCore t u c) : KeptCore s u c :=
  ⟨g.rest.trans h.rest, fun d hd => (g.cores d hd).trans (h.cores d hd), g.core.trans h.core⟩

theorem Kept.keptCore {s t : State} {c k : Nat} (h : Kept s t c k) : KeptCore s t c := ⟨h.rest, h.cores, h.core⟩

theorem keptCore_onWeave (s : State) (c k : Nat) (f : Weave → Weave) : KeptCore s (onWeave s c k f) c := by
  unfold onWeave
  split
  · exact (kept_putWeave _ _ _ _).keptCore
  · exact .refl s c

theorem keptCore_settleBarrier (s : State) (c i n : Nat) : KeptCore s (settleBarrier s c i n) c := by
  have hf : ∀ (l : List (Nat × Weave)) (s : State), KeptCore s (l.foldl (fun s e => onWeave s c e.1 (fun w => releaseBar w n)) s) c := by
    intro l
    induction l with
    | nil => exact fun s => .refl s c
    | cons x r ih => exact fun s => (keptCore_onWeave s c x.1 _).trans (ih _)
  unfold settleBarrier
  split
  · exact .refl s c
  · split
    · exact .refl s c
    · dsimp only
      split
      · exact hf _ _
      · exact .refl s c

theorem keptCore_settleCircles (s : State) (c i : Nat) (l : List Machine.Circle) :
    KeptCore s (l.foldl (fun s z => settleBarrier s c i z.id) s) c := by
  induction l generalizing s with
  | nil => exact .refl s c
  | cons z r ih => exact (keptCore_settleBarrier s c i z.id).trans (ih _)

/-! ## Entries that stand (R68, R80) -/

/-- Threads `m` of weave `j` stand in an entry in a state at a program counter. -/
def StandsIn (s : State) (c j : Nat) (m : Mask) (st : EntryState) (pc : Double) : Prop :=
  ∃ x y, getWeave s c j = some x ∧ y ∈ x.frontier ∧ y.mask &&& m = m ∧ y.state = st ∧ y.pc = pc

theorem mergeAll_keeps {l : List Entry} {y : Entry} (h : y ∈ l) {m : Mask} (hm : y.mask &&& m = m) :
    ∃ x ∈ mergeAll l, x.mask &&& m = m ∧ x.state = y.state ∧ x.pc = y.pc := by
  obtain ⟨x, h1, h2, h3, h4⟩ := addAll_self l [] y h
  refine ⟨x, h1, ?_, h4, h3⟩
  calc x.mask &&& m = x.mask &&& y.mask &&& m := by rw [BitVec.and_assoc, hm]
    _ = m := by rw [h2, hm]

theorem releaseBar_keeps {w : Weave} {n : Nat} {y : Entry} (h : y ∈ w.frontier) {m : Mask} (hm : y.mask &&& m = m) (hs : y.state ≠ .atBar n) :
    ∃ x ∈ (releaseBar w n).frontier, x.mask &&& m = m ∧ x.state = y.state ∧ x.pc = y.pc :=
  mergeAll_keeps (List.mem_map.mpr ⟨y, h, by rw [if_neg hs]⟩) hm

theorem releaseBar_frees {w : Weave} {n : Nat} {y : Entry} (h : y ∈ w.frontier) {m : Mask} (hm : y.mask &&& m = m) (hs : y.state = .atBar n) :
    ∃ x ∈ (releaseBar w n).frontier, x.mask &&& m = m ∧ x.state = .ready ∧ x.pc = y.pc + 4#64 :=
  mergeAll_keeps (y := { y with state := .ready, pc := y.pc + 4#64 }) (List.mem_map.mpr ⟨y, h, by rw [if_pos hs]⟩) hm

section Stand

variable {s : State} {c j n : Nat} {m : Mask} {pc : Double}

theorem StandsIn.release_other (h : StandsIn s c j m st pc) (k : Nat) (hs : j = k → st ≠ .atBar n) :
    StandsIn (onWeave s c k (fun w => releaseBar w n)) c j m st pc := by
  obtain ⟨x, y, hx, hy, hm, hst, hpc⟩ := h
  by_cases hj : j = k
  · subst hj
    obtain ⟨y', h1, h2, h3, h4⟩ := releaseBar_keeps hy hm (n := n) (hst ▸ hs rfl)
    rw [onWeave_some hx]
    exact ⟨_, y', getWeave_putWeave_self _ _ _ _, h1, h2, h3.trans hst, h4.trans hpc⟩
  · refine ⟨x, y, ?_, hy, hm, hst, hpc⟩
    unfold onWeave
    split
    · rw [getWeave_putWeave_ne _ _ _ hj, hx]
    · exact hx

theorem StandsIn.release_self (h : StandsIn s c j m (.atBar n) pc) :
    StandsIn (onWeave s c j (fun w => releaseBar w n)) c j m .ready (pc + 4#64) := by
  obtain ⟨x, y, hx, hy, hm, hst, hpc⟩ := h
  obtain ⟨y', h1, h2, h3, h4⟩ := releaseBar_frees hy hm hst
  rw [onWeave_some hx]
  exact ⟨_, y', getWeave_putWeave_self _ _ _ _, h1, h2, h3, by rw [h4, hpc]⟩

/-- Ready threads stay where they are while weaves pass a barrier. -/
theorem StandsIn.released_ready (h : StandsIn s c j m .ready pc) (l : List (Nat × Weave)) :
    StandsIn (l.foldl (fun s e => onWeave s c e.1 (fun w => releaseBar w n)) s) c j m .ready pc := by
  induction l generalizing s with
  | nil => exact h
  | cons e r ih => exact ih (h.release_other e.1 fun _ => by simp)

/-- The threads at the barrier go on after it once their weave's turn comes. -/
theorem StandsIn.released (h : StandsIn s c j m (.atBar n) pc) {l : List (Nat × Weave)} (hl : ∃ e ∈ l, e.1 = j) :
    StandsIn (l.foldl (fun s e => onWeave s c e.1 (fun w => releaseBar w n)) s) c j m .ready (pc + 4#64) := by
  induction l generalizing s with
  | nil => simp at hl
  | cons e r ih =>
    by_cases he : j = e.1
    · subst he; exact h.release_self.released_ready r
    · refine ih (h.release_other e.1 fun hj => absurd hj he) ?_
      obtain ⟨x, hx, hj⟩ := hl
      rcases List.mem_cons.mp hx with rfl | hx
      · exact absurd hj.symm he
      · exact ⟨x, hx, hj⟩

theorem StandsIn.settle_ready (h : StandsIn s c j m .ready pc) (i n : Nat) : StandsIn (settleBarrier s c i n) c j m .ready pc := by
  unfold settleBarrier
  split
  · exact h
  · split
    · exact h
    · dsimp only
      split
      · exact h.released_ready _
      · exact h

theorem StandsIn.settle_circles (h : StandsIn s c j m .ready pc) (i : Nat) (l : List Machine.Circle) :
    StandsIn (l.foldl (fun s z => settleBarrier s c i z.id) s) c j m .ready pc := by
  induction l generalizing s with
  | nil => exact h
  | cons z r ih => exact ih (h.settle_ready i z.id)

end Stand

/-! ## When a circle's barrier completes (R80) -/

section Settle

variable {s : State} {c a n : Nat} {i : Inst} {z : Machine.Circle}

/-- A member that has not arrived keeps the barrier closed. -/
theorem settleBarrier_awaits (hi : getInst s c a = some i) (hz : i.circles.find? (fun y => y.id == n) = some z) {j : Nat} (hj : j ∈ z.members)
    {x : Weave} (hx : getWeave s c j = some x) (hn : arrived x n = false) : settleBarrier s c a n = s := by
  have hall : (z.members.filterMap (fun k => (getWeave s c k).map (fun w => (k, w)))).all (fun e => arrived e.2 n) = false := by
    rw [List.all_eq_false]
    exact ⟨(j, x), List.mem_filterMap.mpr ⟨j, hj, by rw [hx]; rfl⟩, by simp [hn]⟩
  simp only [settleBarrier, hi, hz, hall, Bool.false_and, Bool.false_eq_true, if_false]

/-- The barrier completes: every member has arrived, and some entry waits there. -/
theorem settleBarrier_opens (hi : getInst s c a = some i) (hz : i.circles.find? (fun y => y.id == n) = some z)
    (hall : ∀ j ∈ z.members, ∀ x, getWeave s c j = some x → arrived x n = true) {k : Nat} (hk : k ∈ z.members)
    (hw : ∃ m pc, StandsIn s c k m (.atBar n) pc) {j : Nat} (hj : j ∈ z.members) {m : Mask} {pc : Double} (h : StandsIn s c j m (.atBar n) pc) :
    StandsIn (settleBarrier s c a n) c j m .ready (pc + 4#64) := by
  generalize hws : z.members.filterMap (fun k => (getWeave s c k).map (fun w => (k, w))) = ws
  have hmem : ∀ {j x}, j ∈ z.members → getWeave s c j = some x → (j, x) ∈ ws := by
    rintro j x hj hx
    rw [← hws]
    exact List.mem_filterMap.mpr ⟨j, hj, by rw [hx]; rfl⟩
  have h1 : ws.all (fun e => arrived e.2 n) = true := by
    rw [List.all_eq_true, ← hws]
    rintro _ he
    obtain ⟨j, hj, he⟩ := List.mem_filterMap.mp he
    obtain ⟨x, hx, rfl⟩ := Option.map_eq_some_iff.mp he
    exact hall j hj x hx
  have h2 : ws.any (fun e => e.2.frontier.any (fun y => y.state = .atBar n)) = true := by
    obtain ⟨m, pc, x, y, hx, hy, -, hst, -⟩ := hw
    rw [List.any_eq_true]
    exact ⟨(k, x), hmem hk hx, List.any_eq_true.mpr ⟨y, hy, by simpa using hst⟩⟩
  simp only [settleBarrier, hi, hz, hws, h1, h2, Bool.and_self, if_true]
  obtain ⟨x, y, hx, -⟩ := id h
  exact h.released ⟨(j, x), hmem hj hx, rfl⟩

end Settle

/-! ## `bar` (R136) -/

/-- The entry in which threads wait at the barrier of a circle. -/
def barEntry (e : Entry) (n : Nat) : Entry := { entryAt e.pc e.prio e.mask (.atBar n) with skipWatch := e.skipWatch &&& e.mask }

theorem pieces_bar_entry (e : Entry) (head : Double) (size seq n : Nat) (hm : e.mask ≠ 0#32) :
    pieces e head size seq (groupsOf e.mask [(e.mask, .hold (.atBar n))]) = [barEntry e n] := by
  simp [pieces, groupsOf, parkedPiece, hm, barEntry, placeOf, entryAt]

/-- The threads of an entry at a barrier: what has arrived is looked at, in the machine where they wait. -/
theorem retire_bar {s : State} {c k : Nat} {e : Entry} {w : Weave} (hw : getWeave s c k = some w) (hm : e.mask ≠ 0#32)
    (hr : (held (w.frontier.filter (fun x => x.mask &&& e.mask == 0#32))).length < 16) (size n : Nat) (cc : Bool) :
    ∃ w', retire s c k e size cc [(e.mask, .hold (.atBar n))] =
        settleWeave (settleBarriers (putWeave (nextSeq s).2 c k w') c w.inst) c k ∧ w'.body = w.body ∧
      w'.frontier = addEntry (w.frontier.filter (fun x => x.mask &&& e.mask == 0#32)) (barEntry e n) := by
  generalize hg : groupsOf e.mask [(e.mask, .hold (.atBar n))] = gs
  have hpieces : ∀ head seq, pieces e head size seq gs = [barEntry e n] := fun head seq => hg ▸ pieces_bar_entry e head size seq n hm
  have hpark : anyPark gs = false := by simp [← hg, groupsOf, anyPark]
  have hbar : anyBar gs = true := by simp [← hg, groupsOf, anyBar]
  have hpoison : poisonThreads gs = [] := by rw [← hg]; rfl
  let w' : Weave := { w with
    frontier := addEntry (w.frontier.filter (fun x => x.mask &&& e.mask == 0#32)) (barEntry e n), chain := chainAfter w e cc gs }
  have hheld : (held w'.frontier).length ≤ 16 := (held_addEntry _ _).trans (by omega)
  refine ⟨w', ?_, rfl, rfl⟩
  simp only [retire, hw, hg, moveThreads, hpark, hbar, hpoison, List.foldl_nil, hpieces, Bool.false_eq_true, if_false, Bool.or_true, if_true]
  exact congrArg (fun s => settleWeave (settleBarriers s c w.inst) c k) (spillDown_held 32 _ (getWeave_putWeave_self _ _ _ w') hheld)

section Bar

variable {s : State} {c k : Nat} {e : Entry} {w : Weave}

/-- `bar` on its turn: the machine `t` in which the entry waits, and then what its arrival completes. -/
theorem exec_bar (h : LaneTurn s c k e w) (hp : w.Plain) (hl : illegalHere w e 4 false false [] = false) :
    ∃ t w', exec .bar s = .next (settleWeave (settleBarriers t c w.inst) c k) ∧ Kept s t c k ∧ getWeave t c k = some w' ∧ w'.body = w.body ∧
      w'.frontier = addEntry (w.frontier.filter (fun x => x.mask &&& e.mask == 0#32)) (barEntry e (w.circles.headD 0)) := by
  have hx : exec .bar s = .next (laneEnd c k e 4 false
      (moved (laneState s c k w) [(e.mask, .hold (.atBar (w.circles.headD 0)))] (countOf e.mask))) := by
    refine (laneIssue_turn h (oneWord []) hl _).trans ?_
    simp only [oneWord, activeMask_noGuard, afterFlow_plain _ _ _ hp, takeLog_solo (getWeave_laneState s c k w) hp.solo, currentCircle]
  obtain ⟨s2, w2, h1, h2, h3, h4, h5⟩ := laneEnd_retire e 4 false
    (d := moved (laneState s c k w) [(e.mask, .hold (.atBar (w.circles.headD 0)))] (countOf e.mask)) rfl (getWeave_laneState s c k w)
  obtain ⟨w', h6, h7, h8⟩ := retire_bar h3 h.live (by rw [h5]; exact h.room) 4 (w.circles.headD 0) false
  have hin : w2.inst = w.inst := (congrArg Weave.inst h4 :)
  refine ⟨putWeave (nextSeq s2).2 c k w', w', ?_, ?_, getWeave_putWeave_self _ _ _ _, h7.trans h4, by rw [h8, h5]⟩
  · rw [hx, h1, ← hin, ← h6]; rfl
  · exact ((kept_laneState s c k w).trans h2).trans kept_retire

/-- The weave in which the entry waits, its entries each where they stood or at the barrier. -/
theorem mem_barred {n : Nat} {x : Entry} (hx : x ∈ addEntry (w.frontier.filter (fun x => x.mask &&& e.mask == 0#32)) (barEntry e n)) :
    x.state = .atBar n ∨ ∃ y ∈ w.frontier, y.mask &&& e.mask = 0#32 ∧ x.state = y.state := by
  rcases addEntry_state _ _ _ hx with h1 | ⟨y, hy, h2⟩
  · exact .inl h1
  · obtain ⟨h3, h4⟩ := List.mem_filter.mp hy
    exact .inr ⟨y, h3, by simpa using h4, h2⟩

end Bar

/-! ### The circle's members -/

/-- Whether a member of a circle has arrived at its barrier, with the entry `e` of weave `k` there. -/
def hereAt (s : State) (c k : Nat) (e : Entry) (n j : Nat) : Prop :=
  ∀ x, getWeave s c j = some x → (j ≠ k ∧ x.frontier = []) ∨ (x.circles.headD 0 = n ∧
    ∀ y ∈ x.frontier, (j = k → y.mask &&& e.mask = 0#32) → y.state = .parked ∨ y.state = .atBar n)

section Members

variable {s t : State} {c k : Nat} {e : Entry} {w w' : Weave} {i : Inst} {z : Machine.Circle}

/-- The machine `t` in which the entry waits at the barrier of its weave's current circle. -/
structure Barred (s t : State) (c k : Nat) (e : Entry) (w w' : Weave) : Prop where
  turn : LaneTurn s c k e w
  kept : Kept s t c k
  weave : getWeave t c k = some w'
  body : w'.body = w.body
  frontier : w'.frontier = addEntry (w.frontier.filter (fun x => x.mask &&& e.mask == 0#32)) (barEntry e (w.circles.headD 0))

theorem Barred.circles (h : Barred s t c k e w w') : w'.circles = w.circles := (congrArg Weave.circles h.body :)

theorem Barred.self (h : Barred s t c k e w w') :
    ∃ x ∈ w'.frontier, x.pc = e.pc ∧ x.state = .atBar (w.circles.headD 0) ∧ x.mask &&& e.mask = e.mask := by
  rw [h.frontier]; exact addEntry_self _ _

theorem Barred.others (h : Barred s t c k e w w') : w.others w' e.mask := fun x hx hm => by
  rw [h.frontier]
  exact addEntry_keeps _ _ x (List.mem_filter.mpr ⟨hx, by simpa using hm⟩)

theorem Barred.ne_nil (h : Barred s t c k e w w') : w'.frontier ≠ [] := by rw [h.frontier]; exact addEntry_ne_nil _ _

theorem Barred.state (h : Barred s t c k e w w') {x : Entry} (hx : x ∈ w'.frontier) :
    x.state = .atBar (w.circles.headD 0) ∨ ∃ y ∈ w.frontier, y.mask &&& e.mask = 0#32 ∧ x.state = y.state :=
  mem_barred (h.frontier ▸ hx)

theorem Barred.inst (h : Barred s t c k e w w') (a : Nat) : getInst t c a = getInst s c a := h.kept.insts a

/-- A member has arrived, as the barrier sees it, exactly where the statement says so. -/
theorem Barred.arrived (h : Barred s t c k e w w') {j : Nat} {x : Weave} (hx : getWeave t c j = some x)
    (hh : hereAt s c k e (w.circles.headD 0) j) : Machine.arrived x (w.circles.headD 0) = true := by
  simp only [Machine.arrived, Bool.or_eq_true, List.isEmpty_iff, Bool.and_eq_true, beq_iff_eq, List.all_eq_true, decide_eq_true_eq]
  by_cases hj : j = k
  · subst hj
    rw [h.weave] at hx
    cases hx
    obtain ⟨w0, h0, rfl⟩ := h.turn.before
    refine .inr ⟨by rw [currentCircle, h.circles], fun y hy => ?_⟩
    rcases h.state hy with h1 | ⟨y0, h1, h2, h3⟩
    · exact .inr h1
    · obtain ⟨h4, -⟩ | ⟨-, h4⟩ := hh w0 h0
      · exact absurd rfl h4
      · exact h3 ▸ h4 y0 (commitWeave_frontier w0 ▸ h1) fun _ => h2
  · rw [h.kept.weaves j hj] at hx
    obtain ⟨-, h1⟩ | ⟨h1, h2⟩ := hh x hx
    · exact .inl h1
    · exact .inr ⟨h1, fun y hy => h2 y hy fun hjk => absurd hjk hj⟩

theorem not_arrived_of_circle {x : Weave} {n : Nat} (hf : x.frontier ≠ []) (hc : x.circles.headD 0 ≠ n) : Machine.arrived x n = false := by
  have h1 : x.frontier.isEmpty = false := by simpa using hf
  simp only [Machine.arrived, h1, currentCircle, beq_false_of_ne hc, Bool.false_and, Bool.or_false]

theorem not_arrived_of_entry {x : Weave} {n : Nat} {y : Entry} (hy : y ∈ x.frontier) (hp : y.state ≠ .parked) (hb : y.state ≠ .atBar n) :
    Machine.arrived x n = false := by
  have h1 : x.frontier.isEmpty = false := by simpa using List.ne_nil_of_mem hy
  have h2 : x.frontier.all (fun e => e.state = .parked || e.state = .atBar n) = false :=
    List.all_eq_false.mpr ⟨y, hy, by simp [hp, hb]⟩
  simp only [Machine.arrived, h1, h2, Bool.and_false, Bool.or_false]

theorem Barred.not_arrived (h : Barred s t c k e w w') {j : Nat} (hh : ¬ hereAt s c k e (w.circles.headD 0) j) :
    ∃ x, getWeave t c j = some x ∧ Machine.arrived x (w.circles.headD 0) = false := by
  simp only [hereAt, not_forall, not_or, not_and, exists_prop] at hh
  obtain ⟨x, hx, h1, h2⟩ := hh
  by_cases hj : j = k
  · subst hj
    obtain ⟨w0, h0, hc⟩ := h.turn.before
    rw [h0] at hx
    cases hx
    obtain ⟨y, hy, hm, hp, hb⟩ := h2 (by rw [← hc, commitWeave_circles])
    obtain ⟨y', hy', -, -, hst⟩ := h.others y (by rw [← hc, commitWeave_frontier]; exact hy) (hm rfl)
    exact ⟨w', h.weave, not_arrived_of_entry hy' (hst ▸ hp) (hst ▸ hb)⟩
  · refine ⟨x, by rw [h.kept.weaves j hj, hx], ?_⟩
    by_cases hc : x.circles.headD 0 = w.circles.headD 0
    · obtain ⟨y, hy, -, hp, hb⟩ := h2 hc
      exact not_arrived_of_entry hy hp hb
    · exact not_arrived_of_circle (h1 hj) hc

/-- Threads that wait at the barrier, those of the entry among them. -/
theorem Barred.waits (h : Barred s t c k e w w') {j : Nat} {x : Weave} {y : Entry} (hx : getWeave s c j = some x) (hy : y ∈ x.frontier)
    (hw : (y.state = .atBar (w.circles.headD 0) ∧ (j = k → y.mask &&& e.mask = 0#32)) ∨ (j = k ∧ y = e)) :
    StandsIn t c j y.mask (.atBar (w.circles.headD 0)) y.pc := by
  by_cases hj : j = k
  · subst hj
    obtain ⟨w0, h0, hc⟩ := h.turn.before
    rw [h0] at hx
    cases hx
    rcases hw with ⟨hs, hm⟩ | ⟨-, rfl⟩
    · obtain ⟨y', h1, h2, h3, h4⟩ := h.others y (by rw [← hc, commitWeave_frontier]; exact hy) (hm rfl)
      exact ⟨w', y', h.weave, h1, h2, h4.trans hs, h3⟩
    · obtain ⟨y', h1, h2, h3, h4⟩ := h.self
      exact ⟨w', y', h.weave, h1, h4, h3, h2⟩
  · rcases hw with ⟨hs, -⟩ | ⟨hjk, -⟩
    · exact ⟨x, y, by rw [h.kept.weaves j hj, hx], hy, by simp, hs, rfl⟩
    · exact absurd hjk hj

/-- Barriers of the other circles find nobody there. -/
theorem Barred.still (h : Barred s t c k e w w')
    (hn : ∀ j x, getWeave s c j = some x → ∀ y ∈ x.frontier, ∀ m, y.state = .atBar m → m = w.circles.headD 0)
    {a m : Nat} (hm : m ≠ w.circles.headD 0) : settleBarrier t c a m = t := by
  refine settleBarrier_still fun j x hx y hy hs => ?_
  by_cases hj : j = k
  · subst hj
    rw [h.weave] at hx
    cases hx
    obtain ⟨w0, h0, hc⟩ := h.turn.before
    rcases h.state hy with h1 | ⟨y0, h1, -, h3⟩
    · rw [hs] at h1; cases h1; exact hm rfl
    · exact hm (hn j w0 h0 y0 (by rw [← commitWeave_frontier w0, hc]; exact h1) m (h3 ▸ hs))
  · rw [h.kept.weaves j hj] at hx
    exact hm (hn j x hx y hy m hs)

/-- With a member still on its way, nothing follows. -/
theorem Barred.awaits (h : Barred s t c k e w w') (hi : getInst s c w.inst = some i)
    (hn : ∀ j x, getWeave s c j = some x → ∀ y ∈ x.frontier, ∀ m, y.state = .atBar m → m = w.circles.headD 0)
    (hz : i.circles.find? (fun y => y.id == w.circles.headD 0) = some z) (hj : ∃ j ∈ z.members, ¬ hereAt s c k e (w.circles.headD 0) j) :
    settleBarriers t c w.inst = t := by
  obtain ⟨j, hj, hh⟩ := hj
  obtain ⟨x, hx, hx'⟩ := h.not_arrived hh
  have hi' : getInst t c w.inst = some i := (h.inst _).trans hi
  have hf : ∀ l : List Machine.Circle, l.foldl (fun s z => settleBarrier s c w.inst z.id) t = t := by
    intro l
    induction l with
    | nil => rfl
    | cons y r ih =>
      have hy : settleBarrier t c w.inst y.id = t := by
        by_cases hid : y.id = w.circles.headD 0
        · rw [hid]; exact settleBarrier_awaits hi' hz hj hx hx'
        · exact h.still hn hid
      rw [List.foldl_cons, hy, ih]
  simp only [settleBarriers, hi', hf]

/-- With every member there, those that wait go on. -/
theorem Barred.opens (h : Barred s t c k e w w') (hi : getInst s c w.inst = some i)
    (hn : ∀ j x, getWeave s c j = some x → ∀ y ∈ x.frontier, ∀ m, y.state = .atBar m → m = w.circles.headD 0)
    (hz : i.circles.find? (fun y => y.id == w.circles.headD 0) = some z) (hk : k ∈ z.members)
    (hall : ∀ j ∈ z.members, hereAt s c k e (w.circles.headD 0) j) {j : Nat} (hj : j ∈ z.members) {m : Mask} {pc : Double}
    (hw : StandsIn t c j m (.atBar (w.circles.headD 0)) pc) : StandsIn (settleBarriers t c w.inst) c j m .ready (pc + 4#64) := by
  have hi' : getInst t c w.inst = some i := (h.inst _).trans hi
  obtain ⟨hid, as, bs, hl, has⟩ := List.find?_eq_some_iff_append.mp hz
  have hbefore : ∀ l : List Machine.Circle, (∀ y ∈ l, y.id ≠ w.circles.headD 0) →
      l.foldl (fun s z => settleBarrier s c w.inst z.id) t = t := by
    intro l
    induction l with
    | nil => exact fun _ => rfl
    | cons y r ih =>
      exact fun hy => by rw [List.foldl_cons, h.still hn (hy y (by simp)), ih fun x hx => hy x (List.mem_cons_of_mem _ hx)]
  have hself : ∃ m pc, StandsIn t c k m (.atBar (w.circles.headD 0)) pc := by
    obtain ⟨y', h1, h2, h3, h4⟩ := h.self
    exact ⟨e.mask, e.pc, w', y', h.weave, h1, h4, h3, h2⟩
  have hopen := settleBarrier_opens hi' hz (fun j hj x hx => h.arrived hx (hall j hj)) hk hself hj hw
  simp only [settleBarriers, hi', hl, List.foldl_append, List.foldl_cons, hbefore as fun y hy => by simpa using has y hy]
  rw [show z.id = w.circles.headD 0 by simpa using hid]
  exact hopen.settle_circles _ _

end Members

/-- A `bar` issued where it may be: the entry waits, or the barrier completes. -/
theorem exec_bar_settles {s : State} {c k : Nat} {e : Entry} {w : Weave} {i : Inst} {z : Machine.Circle} (h : LaneTurn s c k e w) (hp : w.Plain)
    (hl : illegalHere w e 4 false false [] = false) (hi : getInst s c w.inst = some i)
    (hz : i.circles.find? (fun y => y.id == w.circles.headD 0) = some z)
    (hn : ∀ j x, getWeave s c j = some x → ∀ y ∈ x.frontier, ∀ m, y.state = .atBar m → m = w.circles.headD 0) :
    ((∃ j ∈ z.members, ¬ hereAt s c k e (w.circles.headD 0) j) →
      ∃ t, exec .bar s = .next t ∧ LaneDone s t c k e w w (fun _ => (.atBar (w.circles.headD 0), e.pc))) ∧
    (k ∈ z.members → (∀ j ∈ z.members, hereAt s c k e (w.circles.headD 0) j) → ∃ t, exec .bar s = .next t ∧ KeptCore s t c ∧
      ∀ j ∈ z.members, ∀ x, getWeave s c j = some x → ∀ y ∈ x.frontier,
        (y.state = .atBar (w.circles.headD 0) ∧ (j = k → y.mask &&& e.mask = 0#32)) ∨ (j = k ∧ y = e) →
        StandsIn t c j y.mask .ready (y.pc + 4#64)) := by
  obtain ⟨t, w', h1, h2, h3, h4, h5⟩ := exec_bar h hp hl
  have hb : Barred s t c k e w w' := ⟨h, h2, h3, h4, h5⟩
  refine ⟨fun hj => ?_, fun hk hall => ?_⟩
  · rw [hb.awaits hi hn hz hj, settleWeave_live h3 hb.ne_nil] at h1
    refine ⟨t, h1, h2, w', h3, h4, fun u hu => ?_, hb.others⟩
    obtain ⟨x, hx, hpc, hst, hm⟩ := hb.self
    exact ⟨x, hx, getLsbD_of_and hm hu, hst, hpc⟩
  · have hstands := fun j hj x hx y hy hw => hb.opens hi hn hz hk hall (j := j) hj (hb.waits (x := x) (y := y) hx hy hw)
    have hlive : settleWeave (settleBarriers t c w.inst) c k = settleBarriers t c w.inst := by
      obtain ⟨w0, h0, hc⟩ := h.before
      obtain ⟨x, y, hx, hy, -⟩ := hstands k hk w0 h0 e (by rw [← commitWeave_frontier, hc]; exact h.inIt) (.inr ⟨rfl, rfl⟩)
      exact settleWeave_live hx (List.ne_nil_of_mem hy)
    rw [hlive] at h1
    refine ⟨_, h1, h2.keptCore.trans ?_, hstands⟩
    simp only [settleBarriers, (hb.inst w.inst).trans hi]
    exact keptCore_settleCircles _ _ _ _



end Sys2Proof.Machine

/-!
# Leaving a circle

The current circle popped, and what then dissolves.
-/

namespace Sys2Proof.Machine

open Sys2Proof

/-! ## Instances changed in turn -/

theorem onInst_onInst (s : State) (c i : Nat) (f g : Inst → Inst) : onInst (onInst s c i f) c i g = onInst s c i (fun x => g (f x)) := by
  cases hi : getInst s c i with
  | none =>
    have h1 : ∀ f, onInst s c i f = s := fun f => by simp only [onInst, hi]
    rw [h1, h1, h1]
  | some x => rw [onInst_some hi, onInst_some (getInst_putInst_self _ _ _ _), putInst_putInst, onInst_some hi]

theorem onInst_congr {s : State} {c i : Nat} {x : Inst} (hi : getInst s c i = some x) {f g : Inst → Inst} (h : f x = g x) :
    onInst s c i f = onInst s c i g := by
  rw [onInst_some hi, onInst_some hi, h]

/-- A state in which every weave stands where it stood has nobody at a barrier. -/
theorem noBar_of_weaves {s t : State} {c : Nat} (hn : noBar s c)
    (h : ∀ j w, getWeave t c j = some w → ∃ v, getWeave s c j = some v ∧ w.frontier = v.frontier) : noBar t c := by
  intro j w hw x hx
  obtain ⟨v, hv, hf⟩ := h j w hw
  exact hn j v hv x (hf ▸ hx)

theorem noBar_putWeave {s : State} {c k : Nat} {w v : Weave} (hn : noBar s c) (hw : getWeave s c k = some w) (hf : v.frontier = w.frontier) :
    noBar (putWeave s c k v) c := by
  refine noBar_of_weaves hn fun j x hx => ?_
  by_cases hj : j = k
  · subst hj
    rw [getWeave_putWeave_self] at hx
    cases hx
    exact ⟨w, hw, hf⟩
  · exact ⟨x, by rwa [getWeave_putWeave_ne _ _ _ hj] at hx, rfl⟩

theorem noBar_onInst {s : State} {c : Nat} (hn : noBar s c) (i : Nat) (f : Inst → Inst) : noBar (onInst s c i f) c :=
  noBar_of_weaves hn fun j w hw => ⟨w, by rwa [getWeave_onInst] at hw, rfl⟩

/-! ## `leave` (R139) -/

section Leave

variable {s : State} {c k : Nat} {e : Entry} {w : Weave} {i : Inst} {z y : Nat} {r : List Nat}

theorem exec_leave_bounds (h : LaneTurn s c k e w) (hp : w.Plain) (hn : noBar s c) (hl : illegalHere w e 4 false false [] = false)
    (hz : w.circles = [z]) : ∃ t, exec .leave s = .next t ∧ LaneParked s t c k e w w e.mask cBOUNDS 0#64 (onward e 4) := by
  obtain ⟨t, h1, h2⟩ := laneIssue_parked h (oneWord []) hl (fun s c k w e act =>
    afterFlow s (.weave c k) (fun s =>
      if w.circles.length ≤ 1 then parkAll s e.mask cBOUNDS 0#64
      else moved (popCircle s c k w (!isReplaying s (.weave c k))) [] (countOf act)))
    (d := parkAll (laneState s c k w) e.mask cBOUNDS 0#64) (by simp [afterFlow_plain _ _ _ hp, hz]) rfl rfl (by decide)
    (getWeave_laneState _ _ _ _) rfl rfl hp.solo hp.closed (noBar_laneState h hn) (onward e 4)
  exact ⟨t, h1, h2.since (kept_laneState s c k w)⟩

/-- A circle without the member `k`. -/
def withoutMember (z k : Nat) (x : Machine.Circle) : Machine.Circle := if x.id = z then { x with members := nerase x.members k } else x

theorem dissolves_congr {x y : Core} (h : x.queues = y.queues) (a : Nat) (z : Machine.Circle) : dissolves x a z = dissolves y a z := by
  simp only [dissolves, h]

/-- What dissolves depends on the core's queues alone. -/
theorem dissolve_of_queues {s : State} {c : Nat} {x : Core} (h : (getCore s c).queues = x.queues) (a : Nat) :
    dissolve s c a = onInst s c a (fun y => { y with circles := y.circles.filter (fun z => !dissolves x a z) }) := by
  simp only [dissolve, dissolves_congr h]

theorem queues_onInst (s : State) (c a : Nat) (f : Inst → Inst) : (getCore (onInst s c a f) c).queues = (getCore s c).queues := by
  unfold onInst
  split
  · simp only [putInst, getCore_onCore_self]
  · rfl

/-- A circle left, with what then dissolves. -/
theorem popCircle_leaves {s0 : State} (hw : getWeave s0 c k = some w) (hi : getInst s0 c w.inst = some i) (hn : noBar s0 c)
    (hz : w.circles = z :: y :: r) :
    popCircle s0 c k w true = if z ∈ y :: r then putWeave s0 c k { w with circles := y :: r }
      else onInst (putWeave s0 c k { w with circles := y :: r }) c w.inst (fun _ => { i with
        circles := (i.circles.map (withoutMember z k)).filter (fun x => !dissolves (getCore s0 c) w.inst x) }) := by
  have hq : noBar (putWeave s0 c k { w with circles := y :: r }) c := noBar_putWeave hn hw rfl
  have hi' : getInst (putWeave s0 c k { w with circles := y :: r }) c w.inst = some i := (getInst_putWeave _ _ _ _ _ _).trans hi
  simp only [popCircle, hz, onWeave_some hw, Bool.true_and, Bool.not_eq_true', List.contains_eq_mem, decide_eq_false_iff_not, ite_not]
  split
  · exact settleBarriers_still hq _
  · simp only [leaveCircle, settleBarriers_still (noBar_onInst hq _ _)]
    rw [dissolve_of_queues ((queues_onInst _ _ _ _).trans (kept_putWeave s0 c k { w with circles := y :: r }).queues), onInst_onInst]
    refine onInst_congr hi' ?_
    simp only [beq_iff_eq]
    rfl

theorem exec_leave (h : LaneTurn s c k e w) (hp : w.Plain) (hn : noBar s c) (hi : getInst s c w.inst = some i)
    (hl : illegalHere w e 4 false false [] = false) (hz : w.circles = z :: y :: r) :
    ∃ t, exec .leave s = .next t ∧ LaneDone (if z ∈ y :: r then s else onInst s c w.inst (fun x => { x with
        circles := (i.circles.map (withoutMember z k)).filter (fun x => !dissolves (getCore s c) w.inst x) })) t c k e w
      { w with circles := y :: r } (onward e 4) := by
  have hi0 : getInst (laneState s c k w) c w.inst = some i := (getInst_laneState s c k w _).trans hi
  have hb := popCircle_leaves (getWeave_laneState s c k w) hi0 (noBar_laneState h hn) hz
  have hk : Kept s (putWeave (laneState s c k w) c k { w with circles := y :: r }) c k :=
    (kept_laneState s c k w).trans (kept_putWeave _ _ _ _)
  have hlen : ¬ w.circles.length ≤ 1 := by rw [hz]; simp
  have key : ∃ t, exec .leave s = .next t ∧ LaneDone (popCircle (laneState s c k w) c k w true) t c k e w { w with circles := y :: r }
      (onward e 4) := by
    refine laneIssue_onward (d := moved (popCircle (laneState s c k w) c k w true) [] (countOf e.mask)) h (oneWord []) hl _ ?_ rfl rfl ?_ rfl
    · simp only [oneWord, activeMask_noGuard, afterFlow_plain _ _ _ hp, if_neg hlen, isReplaying_solo (getWeave_laneState s c k w) hp.solo,
        Bool.not_false]
    · simp only [moved, hb]
      split
      · exact getWeave_putWeave_self _ _ _ _
      · rw [getWeave_onInst, getWeave_putWeave_self]
  obtain ⟨t, h1, h2⟩ := key
  rw [hb] at h2
  refine ⟨t, h1, h2.since ?_⟩
  split
  · exact hk
  · have hd := fun x => dissolves_congr (kept_laneState s c k w).queues w.inst x
    simp only [hd]
    have hi1 : getInst (putWeave (laneState s c k w) c k { w with circles := y :: r }) c w.inst = some i := (hk.insts _).trans hi
    rw [onInst_congr hi1 (f := fun _ => { i with
      circles := (i.circles.map (withoutMember z k)).filter (fun x => !dissolves (getCore s c) w.inst x) }) (g := fun x => { x with
      circles := (i.circles.map (withoutMember z k)).filter (fun x => !dissolves (getCore s c) w.inst x) }) rfl]
    exact hk.onInst _ _

end Leave

end Sys2Proof.Machine

/-!
# Joining a circle

The join pool, and a circle found or created.
-/

namespace Sys2Proof.Machine

open Sys2Proof

/-! ## The join pool (R78) -/

theorem poolUsed_sum (i : Inst) : poolUsed i = ((i.circles.filter (fun y => y.role.isNone)).map (fun y => y.size)).sum := by
  rw [poolUsed, List.sum_eq_foldl, List.foldl_map]

/-- A new region lies beside those of the joined circles: after the last of them there is always room for its keys. -/
theorem regionPlace_apart (i : Inst) (size : Nat) :
    ∀ y ∈ i.circles.filter (fun y => y.role.isNone), regionPlace i size + size ≤ y.base ∨ y.base + y.size ≤ regionPlace i size := by
  generalize hp : i.circles.filter (fun y => y.role.isNone) = pool
  let ends := i.poolBase :: pool.map (fun z => z.base + z.size)
  let clash := fun b => pool.any (fun z => b < z.base + z.size && z.base < b + size)
  have hfind : ∃ b, ends.find? (fun b => !clash b) = some b := by
    obtain ⟨m, hm, hmax⟩ := Finset.exists_max_image ends.toFinset id ⟨i.poolBase, by simp [ends]⟩
    refine Option.isSome_iff_exists.mp (List.find?_isSome.mpr ⟨m, List.mem_toFinset.mp hm, ?_⟩)
    simp only [clash, Bool.not_eq_true', List.any_eq_false, Bool.and_eq_true, decide_eq_true_eq, not_and_or, not_lt]
    intro z hz
    exact .inl (hmax (z.base + z.size) (by simp only [ends, List.mem_toFinset]; exact List.mem_cons_of_mem _ (List.mem_map_of_mem hz)))
  obtain ⟨b, hb⟩ := hfind
  have hr : regionPlace i size = b := by
    simp only [regionPlace, hp]
    exact congrArg (·.getD i.poolBase) hb
  rw [hr]
  have hc := List.find?_some hb
  simp only [clash, Bool.not_eq_true', List.any_eq_false, Bool.and_eq_true, decide_eq_true_eq, not_and_or, not_lt] at hc
  exact fun y hy => (hc y hy).symm

/-! ## `join` (R138) -/

theorem gather_ok₂ (a b : Double) : gather [.ok a, .ok b] = .ok [a, b] := rfl

section Join

variable {s : State} {c k : Nat} {e : Entry} {w : Weave} {i : Inst} {tag size : Nat} {z : Machine.Circle}

theorem joinNow_found (hw : w.circles.length < 4) (h0 : size ≠ 0) (h16 : size % 16 = 0) (hz : circleOf i tag = some z) (hs : z.size = size)
    (hm : z.members.length < 32) : joinNow i w tag size = .grant := by
  simp [joinNow, hz, hs, h0, h16, Nat.not_le.mpr hw, Nat.not_le.mpr hm]

theorem joinNow_new (hw : w.circles.length < 4) (h0 : size ≠ 0) (h16 : size % 16 = 0) (hz : circleOf i tag = none) :
    joinNow i w tag size = if i.poolSize < poolUsed i + size then .wait else .grant := by
  simp [joinNow, hz, h0, h16, Nat.not_le.mpr hw]

/-- The weave on its own stack, its log as it was. -/
theorem joined_logOwn {s : State} (hw : getWeave s c k = some w) (hp : w.pair = none) (hn : noBar s c) (a id : Nat) :
    logOwn (settleBarriers (onWeave s c k (fun w => { w with circles := id :: w.circles })) c a) (.weave c k) .join =
      putWeave s c k { w with circles := id :: w.circles } := by
  have hg : getWeave (putWeave s c k { w with circles := id :: w.circles }) c k = some { w with circles := id :: w.circles } :=
    getWeave_putWeave_self _ _ _ _
  rw [onWeave_some hw, settleBarriers_still (noBar_putWeave (v := { w with circles := id :: w.circles }) hn hw rfl), logOwn,
    isReplaying_solo hg hp, if_neg (by simp), onPair_solo hg hp, putWeave_putWeave]

/-- A `join` of a circle that exists. -/
theorem grantJoin_found {s : State} (hw : getWeave s c k = some w) (hp : w.pair = none) (hn : noBar s c) {a : Nat} (hi : getInst s c a = some i)
    (hz : circleOf i tag = some z) :
    grantJoin s c k a tag size = putWeave (joinCircle s c a k z.id) c k { w with circles := z.id :: w.circles } := by
  have hb : (getInst s c a).bind (circleOf · tag) = some z := by rw [hi]; exact hz
  simp only [grantJoin, hb]
  exact joined_logOwn ((getWeave_onInst _ _ _ _ _ _).trans hw) hp (noBar_onInst hn _ _) _ _

/-- The circle that a `join` creates. -/
def newCircle (i : Inst) (tag size : Nat) : Machine.Circle :=
  { id := i.nextCircle, role := none, tag := tag, base := regionPlace i size, size := size, members := [] }

/-- The instance with a circle created. -/
def withCircle (i : Inst) (z : Machine.Circle) : Inst := { i with circles := i.circles ++ [z], nextCircle := i.nextCircle + 1 }

/-- A core's circle memory with a region emptied. -/
def clearRegion (base size : Nat) (y : Core) : Core :=
  { y with
    cmem := skeep y.cmem (fun o => o < base || base + size ≤ o),
    full := y.full.filter (fun g => g * 16 < base || base + size ≤ g * 16),
    cbad := y.cbad.filter (fun g => g * 16 < base || base + size ≤ g * 16) }

theorem createCircle_eq {s : State} {a : Nat} (hi : getInst s c a = some i) :
    createCircle s c a tag size = onCore (putInst s c a (withCircle i (newCircle i tag size))) c (clearRegion (regionPlace i size) size) := by
  simp only [createCircle, hi]
  rfl

theorem circleOf_new (hz : circleOf i tag = none) : circleOf (withCircle i (newCircle i tag size)) tag = some (newCircle i tag size) := by
  rw [circleOf] at hz
  simp [circleOf, withCircle, List.find?_append, hz, newCircle]

/-- The instance once its new circle has its first member. -/
def joinedInst (i : Inst) (tag size k : Nat) : Inst :=
  { i with nextCircle := i.nextCircle + 1, circles := i.circles ++
    [{ id := i.nextCircle, role := none, tag := tag, base := regionPlace i size, size := size, members := [k] }] }

theorem joinCircle_new {s : State} {a : Nat} (hi : getInst s c a = some (withCircle i (newCircle i tag size)))
    (hid : ∀ y ∈ i.circles, y.id < i.nextCircle) : joinCircle s c a k i.nextCircle = putInst s c a (joinedInst i tag size k) := by
  have hold : i.circles.map (fun z => if z.id == i.nextCircle then { z with members := ninsert z.members k } else z) = i.circles := by
    refine (List.map_congr_left fun y hy => ?_).trans (List.map_id _)
    rw [if_neg (by simpa using (hid y hy).ne)]; rfl
  simp only [joinCircle, onInst_some hi, withCircle, List.map_append, hold]
  simp [joinedInst, newCircle, ninsert]

/-- A `join` that creates its circle. -/
theorem grantJoin_new {s : State} (hw : getWeave s c k = some w) (hp : w.pair = none) (hn : noBar s c) {a : Nat} (hi : getInst s c a = some i)
    (hz : circleOf i tag = none) (hid : ∀ y ∈ i.circles, y.id < i.nextCircle) :
    grantJoin s c k a tag size = putWeave (putInst (createCircle s c a tag size) c a (joinedInst i tag size k)) c k
      { w with circles := i.nextCircle :: w.circles } := by
  have hb : (getInst s c a).bind (circleOf · tag) = none := by rw [hi]; exact hz
  have hi' : getInst (createCircle s c a tag size) c a = some (withCircle i (newCircle i tag size)) := by
    rw [createCircle_eq hi]
    exact (getInst_onCore _ _ (clearRegion _ _) (fun _ => rfl) _ _).trans (getInst_putInst_self _ _ _ _)
  have hb' : (getInst (createCircle s c a tag size) c a).bind (circleOf · tag) = some (newCircle i tag size) := by
    rw [hi']; exact circleOf_new hz
  have hweave : ∀ j, getWeave (createCircle s c a tag size) c j = getWeave s c j := fun j => by
    rw [createCircle_eq hi]
    exact (getWeave_onCore _ _ (clearRegion _ _) (fun _ => rfl) _ _).trans (getWeave_putInst _ _ _ _ _ _)
  simp only [grantJoin, hb, hb']
  have hj := joinCircle_new (k := k) hi' hid
  rw [show (newCircle i tag size).id = i.nextCircle from rfl, hj]
  refine joined_logOwn ((getWeave_putInst _ _ _ _ _ _).trans ((hweave k).trans hw)) hp (noBar_of_weaves hn fun j x hx => ⟨x, ?_, rfl⟩) a _
  rwa [getWeave_putInst, hweave] at hx

/-- What a `join` that is granted leaves beside its weave. -/
theorem joinDone_found {a : Nat} (ha : a = w.inst) (h : LaneTurn s c k e w) (hp : w.Plain) (hn : noBar s c) (hi : getInst s c a = some i)
    (hz : circleOf i tag = some z) {t : State} (ht : LaneDone (grantJoin (laneState s c k w) c k a tag size) t c k e w
      { w with circles := z.id :: w.circles } (onward e 4)) : JoinDone s t c k e w i tag size := by
  subst ha
  refine ⟨fun z' hz' => ?_, fun hno => by rw [circleOf] at hz; rw [hz] at hno; cases hno⟩
  obtain rfl : z' = z := by rw [circleOf] at hz; rw [hz] at hz'; cases hz'; rfl
  rw [grantJoin_found (getWeave_laneState s c k w) hp.solo (noBar_laneState h hn) ((getInst_laneState s c k w _).trans hi) hz] at ht
  simp only [joinCircle, beq_iff_eq] at ht
  exact ht.since (((kept_laneState s c k w).onInst _ _).trans (kept_putWeave _ _ _ _))

theorem joinDone_new (h : LaneTurn s c k e w) (hp : w.Plain) (hn : noBar s c) (hi : getInst s c w.inst = some i)
    (hz : circleOf i tag = none) (hid : ∀ y ∈ i.circles, y.id < i.nextCircle) {t : State}
    (ht : LaneDone (grantJoin (laneState s c k w) c k w.inst tag size) t c k e w { w with circles := i.nextCircle :: w.circles } (onward e 4)) :
    JoinDone s t c k e w i tag size := by
  refine ⟨fun z' hz' => by (rw [circleOf] at hz; rw [hz] at hz'; cases hz'), fun _ => ⟨regionPlace i size, ?_⟩⟩
  have h0 := kept_laneState s c k w
  have hi0 : getInst (laneState s c k w) c w.inst = some i := (getInst_laneState s c k w _).trans hi
  rw [grantJoin_new (getWeave_laneState s c k w) hp.solo (noBar_laneState h hn) hi0 hz hid, createCircle_eq hi0] at ht
  obtain ⟨hk, w', h1, h2, h3, h4⟩ := ht
  have hmem : (getCore t c).cmem = skeep (getCore s c).cmem (fun o => o < regionPlace i size || regionPlace i size + size ≤ o) := by
    rw [hk.cmem, ← h0.cmem]
    simp only [putWeave, putInst, getCore_onCore_self, clearRegion]
  have hfull : (getCore t c).full = (getCore s c).full.filter (fun g => g * 16 < regionPlace i size || regionPlace i size + size ≤ g * 16) := by
    rw [hk.full, ← h0.full]
    simp only [putWeave, putInst, getCore_onCore_self, clearRegion]
  have hrest := hk.rest
  rw [rest_putWeave, rest_putInst, rest_onCore, rest_putInst] at hrest
  refine ⟨hrest.trans h0.rest, fun d hd => ?_, fun j hj => ?_, fun j hj => ?_, regionPlace_apart i size, ?_, fun o h1 h2 => ?_,
    fun g h1 h2 => ?_, fun o ho => ?_, w', h1, h2, h3, h4⟩
  · rw [hk.cores d hd, getCore_putWeave_ne _ _ _ hd]
    simp only [putInst, getCore_onCore_ne _ _ hd]
    exact h0.cores d hd
  · rw [hk.weaves j hj, getWeave_putWeave_ne _ _ _ hj, getWeave_putInst, getWeave_onCore _ _ (clearRegion _ _) (fun _ => rfl), getWeave_putInst]
    exact h0.weaves j hj
  · rw [hk.insts, getInst_putWeave, getInst_putInst_ne _ _ _ hj, getInst_onCore _ _ (clearRegion _ _) (fun _ => rfl),
      getInst_putInst_ne _ _ _ hj]
    exact h0.insts j
  · rw [hk.insts, getInst_putWeave, getInst_putInst_self]; rfl
  · rw [hmem, sget_skeep, if_neg (by simp; omega)]
  · rw [hfull, nmem, List.contains_eq_mem, decide_eq_false_iff_not, List.mem_filter, not_and]
    intro _; simp; omega
  · rw [hmem, sget_skeep, if_pos (by simpa using ho)]

variable {a b : LSrc} {va vb : Double}

/-- `join` on its turn, of a weave apart. -/
theorem exec_join_now (h : LaneTurn s c k e w) (hp : w.Plain) (hi : getInst s c w.inst = some i)
    (hl : illegalHere w e 4 false false (lsrcRegs a 1 ++ lsrcRegs b 1) = false)
    (ha : readLSrc (laneCore s c k w) w (lowest e.mask) a false 0#64 = .ok va)
    (hb : readLSrc (laneCore s c k w) w (lowest e.mask) b false 0#64 = .ok vb) {w1 : Weave} (hf : w1.frontier = w.frontier) :
    (joinNow i w (va.toNat % 2 ^ 32) (vb.toNat % 2 ^ 32) = .wait → ∃ t, exec (.join a b) s = .next t ∧
      LaneDone s t c k e w w (fun _ => (.waiting (.join (va.toNat % 2 ^ 32) (vb.toNat % 2 ^ 32)), e.pc))) ∧
    (joinNow i w (va.toNat % 2 ^ 32) (vb.toNat % 2 ^ 32) = .grant →
      getWeave (grantJoin (laneState s c k w) c k w.inst (va.toNat % 2 ^ 32) (vb.toNat % 2 ^ 32)) c k = some w1 →
      ∃ t, exec (.join a b) s = .next t ∧
        LaneDone (grantJoin (laneState s c k w) c k w.inst (va.toNat % 2 ^ 32) (vb.toNat % 2 ^ 32)) t c k e w w1 (onward e 4)) := by
  have hi0 : getInst (laneState s c k w) c w.inst = some i := (getInst_laneState s c k w _).trans hi
  simp only [laneCore] at ha hb
  constructor
  · intro hj
    have key : ∃ t, exec (.join a b) s = .next t ∧ LaneDone (laneState s c k w) t c k e w w
        (fun _ => (.waiting (.join (va.toNat % 2 ^ 32) (vb.toNat % 2 ^ 32)), e.pc)) := by
      refine laneIssue_waits h (oneWord (lsrcRegs a 1 ++ lsrcRegs b 1)) hl _ (s1 := laneState s c k w)
        (st := .waiting (.join (va.toNat % 2 ^ 32) (vb.toNat % 2 ^ 32))) ?_ (getWeave_laneState s c k w) rfl
      simp only [oneWord, activeMask_noGuard, ha, hb, gather_ok₂, List.getD_cons_zero, List.getD_cons_succ, BitVec.toNat_setWidth,
        afterFlow_plain _ _ _ hp, takeLog_solo (getWeave_laneState s c k w) hp.solo, hi0, hj]
    obtain ⟨t, h1, h2⟩ := key
    exact ⟨t, h1, h2.since (kept_laneState s c k w)⟩
  · intro hj hw
    refine laneIssue_onward (d := moved (grantJoin (laneState s c k w) c k w.inst (va.toNat % 2 ^ 32) (vb.toNat % 2 ^ 32)) []
      (countOf e.mask)) h (oneWord (lsrcRegs a 1 ++ lsrcRegs b 1)) hl _ ?_ rfl rfl hw hf
    simp only [oneWord, activeMask_noGuard, ha, hb, gather_ok₂, List.getD_cons_zero, List.getD_cons_succ, BitVec.toNat_setWidth,
      afterFlow_plain _ _ _ hp, takeLog_solo (getWeave_laneState s c k w) hp.solo, hi0, hj]

theorem exec_join (h : LaneTurn s c k e w) (hp : w.Plain) (hn : noBar s c) (hi : getInst s c w.inst = some i)
    (hl : illegalHere w e 4 false false (lsrcRegs a 1 ++ lsrcRegs b 1) = false)
    (ha : readLSrc (laneCore s c k w) w (lowest e.mask) a false 0#64 = .ok va)
    (hb : readLSrc (laneCore s c k w) w (lowest e.mask) b false 0#64 = .ok vb)
    (hw : w.circles.length < 4) (h0 : vb.toNat % 2 ^ 32 ≠ 0) (h16 : vb.toNat % 2 ^ 32 % 16 = 0)
    (hfound : ∀ z, circleOf i (va.toNat % 2 ^ 32) = some z → z.size = vb.toNat % 2 ^ 32 ∧ z.members.length < 32)
    (hnew : circleOf i (va.toNat % 2 ^ 32) = none →
      poolUsed i + vb.toNat % 2 ^ 32 ≤ i.poolSize ∧ ∀ y ∈ i.circles, y.id < i.nextCircle) :
    ∃ t, exec (.join a b) s = .next t ∧ JoinDone s t c k e w i (va.toNat % 2 ^ 32) (vb.toNat % 2 ^ 32) := by
  have hi0 : getInst (laneState s c k w) c w.inst = some i := (getInst_laneState s c k w _).trans hi
  cases hz : circleOf i (va.toNat % 2 ^ 32) with
  | some z =>
    obtain ⟨hs, hm⟩ := hfound z hz
    have hg := grantJoin_found (size := vb.toNat % 2 ^ 32) (getWeave_laneState s c k w) hp.solo (noBar_laneState h hn) hi0 hz
    obtain ⟨t, h1, h2⟩ := (exec_join_now (w1 := { w with circles := z.id :: w.circles }) h hp hi hl ha hb rfl).2
      (joinNow_found hw h0 h16 hz hs hm) (by rw [hg, getWeave_putWeave_self])
    exact ⟨t, h1, joinDone_found rfl h hp hn hi hz h2⟩
  | none =>
    obtain ⟨hroom, hid⟩ := hnew hz
    have hg := grantJoin_new (size := vb.toNat % 2 ^ 32) (getWeave_laneState s c k w) hp.solo (noBar_laneState h hn) hi0 hz hid
    obtain ⟨t, h1, h2⟩ := (exec_join_now (w1 := { w with circles := i.nextCircle :: w.circles }) h hp hi hl ha hb rfl).2
      ((joinNow_new hw h0 h16 hz).trans (if_neg (Nat.not_lt.mpr hroom))) (by rw [hg, getWeave_putWeave_self])
    exact ⟨t, h1, joinDone_new h hp hn hi hz hid h2⟩

end Join

/-- Settles O21: the barrier looks at its members' arrivals in the machine where the entry waits; `join` and `leave` change the instance's circles
and the weave's own stack. -/
theorem barriersCircles : Obligations.BarriersCircles := by
  unfold Obligations.BarriersCircles
  refine ⟨fun s c k e w i z h hp hl hi => ?bar, fun s c k e w i h hp hn hi => ⟨fun a b va vb hl ha hb => ?join, ?leave, ?last⟩⟩
  case bar =>
    intro n here hz hn
    obtain ⟨h1, h2⟩ := exec_bar_settles h hp hl hi hz hn
    refine ⟨h1, fun hk hall => ?_⟩
    obtain ⟨t, h3, h4, h5⟩ := h2 hk hall
    exact ⟨t, h3, h4.rest, h4.cores, h4.core, h5⟩
  case join =>
    intro tag size joined hw h0 h16 found
    refine ⟨fun hf hnew => exec_join h hp hn hi hl ha hb hw h0 h16 hf fun hz => ?_, fun hz hpool => ?_⟩
    · rw [poolUsed_sum]; exact hnew hz
    · refine (exec_join_now h hp hi hl ha hb rfl).1 ((joinNow_new hw h0 h16 hz).trans (if_pos ?_))
      rw [poolUsed_sum]; exact hpool
  case leave => exact fun z y r hl hz => exec_leave h hp hn hi hl hz
  case last => exact fun z hl hz => exec_leave_bounds h hp hn hl hz

end Sys2Proof.Machine

/-!
# Regions and scopes

The forms that close the region of the weave that issues.
-/

namespace Sys2Proof.Machine

open Sys2Proof

theorem LaneDone.of_body {s t : State} {c k : Nat} {e : Entry} {w w1 w2 : Weave} {go : Nat → EntryState × Double}
    (h : LaneDone s t c k e w w1 go) (hb : w1.body = w2.body) : LaneDone s t c k e w w2 go := by
  obtain ⟨hk, w', h1, h2, h3⟩ := h
  exact ⟨hk, w', h1, h2.trans hb, h3⟩

/-! ## Regions (R140) -/

/-- The weave with its region closed. -/
def Weave.closedUp (w : Weave) : Weave := { w with region := none }

/-- The machine in which the region of the weave that issues is closed. -/
def closedState (s : State) (c k : Nat) (w : Weave) : State := putWeave (laneState s c k w) c k w.closedUp

section Closed

variable {s : State} {c k : Nat} {e : Entry} {w : Weave}

theorem closeFor_lane (s : State) (c k : Nat) (hi : w.Idle) : closeFor (laneState s c k w) c k = closedState s c k w :=
  closeFor_idle (getWeave_laneState s c k w) hi

theorem afterFlow_lane (s : State) (c k : Nat) (hp : w.pair = none) (hi : w.Idle) (f : State → Done) :
    afterFlow (laneState s c k w) (.weave c k) f = f (closedState s c k w) := by
  rw [afterFlow_solo (getWeave_laneState s c k w) hp, closeFor_lane s c k hi]

theorem getWeave_closedState (s : State) (c k : Nat) (w : Weave) : getWeave (closedState s c k w) c k = some w.closedUp :=
  getWeave_putWeave_self _ _ _ _

theorem kept_closedState (s : State) (c k : Nat) (w : Weave) : Kept s (closedState s c k w) c k :=
  (kept_laneState s c k w).trans (kept_putWeave _ _ _ _)

theorem noBar_closedState (h : LaneTurn s c k e w) (hn : noBar s c) : noBar (closedState s c k w) c :=
  noBar_putWeave (noBar_laneState h hn) (getWeave_laneState s c k w) rfl

theorem openRegion_body (w : Weave) (pc : Double) (e : Entry) : (openRegion w.closedUp pc e).body =
    { w with region := if w.frontier.length = 1 then some { pc := pc, prio := e.prio, mask := e.mask, stores := [] } else none }.body := by
  have hf : w.closedUp.frontier = w.frontier := rfl
  unfold openRegion
  rw [hf]
  split <;> rfl

theorem openRegion_frontier (w : Weave) (pc : Double) (e : Entry) : (openRegion w pc e).frontier = w.frontier := by
  unfold openRegion; split <;> rfl

theorem exec_rgnOpen (h : LaneTurn s c k e w) (hi : w.Idle) (hl : illegalHere w e 4 false false [] = false) :
    ∃ t, exec .rgnOpen s = .next t ∧ LaneDone s t c k e w { w with
      region := if w.frontier.length = 1 then some { pc := e.pc + 4#64, prio := e.prio, mask := e.mask, stores := [] } else none } (onward e 4) := by
  have key : ∃ t, exec .rgnOpen s = .next t ∧ LaneDone (putWeave (closedState s c k w) c k (openRegion w.closedUp (e.pc + 4#64) e)) t c k e w
      (openRegion w.closedUp (e.pc + 4#64) e) (onward e 4) := by
    refine laneIssue_onward (d := moved (putWeave (closedState s c k w) c k (openRegion w.closedUp (e.pc + 4#64) e)) [] (countOf e.mask)) h
      (oneWord []) hl _ ?_ rfl rfl (getWeave_putWeave_self _ _ _ _) (openRegion_frontier _ _ _)
    simp only [oneWord, activeMask_noGuard, closeFor_lane s c k hi, onWeave_some (getWeave_closedState s c k w)]
  obtain ⟨t, h1, h2⟩ := key
  exact ⟨t, h1, (h2.since ((kept_closedState s c k w).trans (kept_putWeave _ _ _ _))).of_body (openRegion_body w _ e)⟩

theorem exec_rgnClose (h : LaneTurn s c k e w) (hp : w.pair = none) (hi : w.Idle) (hl : illegalHere w e 4 false false [] = false) :
    ∃ t, exec .rgnClose s = .next t ∧ LaneDone s t c k e w { w with region := none } (onward e 4) := by
  have key : ∃ t, exec .rgnClose s = .next t ∧ LaneDone (closedState s c k w) t c k e w w.closedUp (onward e 4) := by
    refine laneIssue_onward (d := moved (closedState s c k w) [] (countOf e.mask)) h (oneWord []) hl _ ?_ rfl rfl
      (getWeave_closedState s c k w) rfl
    simp only [oneWord, activeMask_noGuard, afterFlow_lane s c k hp hi]
  obtain ⟨t, h1, h2⟩ := key
  exact ⟨t, h1, h2.since (kept_closedState s c k w)⟩

/-! ## Register scopes (R89, R90, R141) -/

/-- The registers below a number alone left. -/
theorem readV_below {w v : Weave} {n u q : Nat} (hu : u < 32) (hv : v.v = skeep w.v (fun i => i / 32 < n)) :
    readV v u q = if q < n then readV w u q else 0#32 := by
  have hk : vkey u q / 32 = q := by simp only [vkey]; omega
  simp only [readV, hv, sget_skeep, hk, decide_eq_true_eq]

/-- The weave without its innermost scope. -/
def Weave.scopeEnded (w : Weave) (n : Nat) (r : List Nat) : Weave :=
  { w with region := none, allot := w.allot - n, scopes := r, v := skeep w.v (fun i => i / 32 < w.allot - n),
           vbad := w.vbad.filter (fun i => i / 32 < w.allot - n) }

theorem exec_endscope (h : LaneTurn s c k e w) (hp : w.pair = none) (hi : w.Idle) (hl : illegalHere w e 4 false false [] = false)
    {n : Nat} {r : List Nat} (hs : w.scopes = n :: r) :
    ∃ t, exec .endscope s = .next t ∧ LaneDone s t c k e w (w.scopeEnded n r) (onward e 4) := by
  obtain ⟨w2, h1, h2, h3, h4⟩ := untag_spec (getWeave_closedState s c k w) ((List.range n).map (w.allot - n + ·)) []
  generalize ht : untag (closedState s c k w) c k ((List.range n).map (w.allot - n + ·)) [] = t at h1 h4
  let w3 : Weave := { w2 with allot := w.allot - n, scopes := r, v := skeep w2.v (fun i => i / 32 < w.allot - n),
                              vbad := w2.vbad.filter (fun i => i / 32 < w.allot - n) }
  have hb : endScope (closedState s c k w) c k w = putWeave t c k w3 := by
    simp only [endScope, hs, ht, onWeave_some h1]; rfl
  have key : ∃ t', exec .endscope s = .next t' ∧ LaneDone (putWeave t c k w3) t' c k e w w3 (onward e 4) := by
    refine laneIssue_onward (d := moved (putWeave t c k w3) [] (countOf e.mask)) h (oneWord []) hl _ ?_ rfl rfl
      (getWeave_putWeave_self _ _ _ _) h3
    have hne : w.scopes.isEmpty = false := by rw [hs]; rfl
    simp only [oneWord, activeMask_noGuard, afterFlow_lane s c k hp hi, hne, Bool.false_eq_true, if_false, hb]
  obtain ⟨t', h5, h6⟩ := key
  refine ⟨t', h5, (h6.since (((kept_closedState s c k w).trans h4).trans (kept_putWeave _ _ _ _))).of_body ?_⟩
  exact congrArg (fun x : Weave => { x with
    allot := w.allot - n, scopes := r, v := skeep x.v (fun i => i / 32 < w.allot - n), vbad := x.vbad.filter (fun i => i / 32 < w.allot - n) }) h2

theorem exec_endscope_bounds (h : LaneTurn s c k e w) (hp : w.pair = none) (hi : w.Idle) (hn : noBar s c)
    (hl : illegalHere w e 4 false false [] = false) (hs : w.scopes = []) :
    ∃ t, exec .endscope s = .next t ∧ LaneParked s t c k e w { w with region := none } e.mask cBOUNDS 0#64 (onward e 4) := by
  have key : ∃ t, exec .endscope s = .next t ∧ LaneParked (closedState s c k w) t c k e w w.closedUp e.mask cBOUNDS 0#64 (onward e 4) := by
    refine laneIssue_parked h (oneWord []) hl _ (d := parkAll (closedState s c k w) e.mask cBOUNDS 0#64) ?_ rfl rfl (by decide)
      (getWeave_closedState s c k w) rfl rfl hp rfl (noBar_closedState h hn) (onward e 4)
    simp only [oneWord, activeMask_noGuard, afterFlow_lane s c k hp hi, hs, List.isEmpty_nil, if_true]
  obtain ⟨t, h1, h2⟩ := key
  exact ⟨t, h1, h2.since (kept_closedState s c k w)⟩

/-! ### What a grant looks at (R91) -/

theorem usedRegs_sum (x : Core) : usedRegs x = (x.weaves.map (fun y => y.2.allot)).sum := by
  rw [usedRegs, List.sum_eq_foldl, List.foldl_map]

theorem map_sput_congr {α β : Type} {f : Nat × α → β} {k : Nat} {x y : α} (h : f (k, x) = f (k, y)) (t : Sparse α) :
    (sput t k x).map f = (sput t k y).map f := by
  induction t with
  | nil => simp [sput, h]
  | cons e r ih =>
    simp only [sput]
    split
    · simp [h]
    · split
      · simp [h]
      · simp [ih]

theorem mem_sput_of_ne {α : Type} {t : Sparse α} {k : Nat} {x : α} (y : α) {e : Nat × α} (h : e ∈ sput t k x) (hk : e.1 ≠ k) :
    e ∈ sput t k y := by
  have hx : e ≠ (k, x) := fun he => hk (he ▸ rfl)
  induction t with
  | nil => exact absurd (by simpa [sput] using h) hx
  | cons z r ih =>
    simp only [sput] at h ⊢
    split
    next h1 =>
      rw [if_pos h1] at h
      exact List.mem_cons_of_mem _ ((List.mem_cons.mp h).resolve_left hx)
    next h1 =>
      rw [if_neg h1] at h
      split
      next h2 =>
        rw [if_pos h2] at h
        exact List.mem_cons_of_mem _ ((List.mem_cons.mp h).resolve_left hx)
      next h2 =>
        rw [if_neg h2] at h
        rcases List.mem_cons.mp h with h | h
        · exact h ▸ List.mem_cons_self
        · exact List.mem_cons_of_mem _ (ih h)

theorem weaves_laneState (s : State) (c k : Nat) (w : Weave) : (laneCore s c k w).weaves = sput (getCore s c).weaves k w := by
  have hl : ∀ x : Core, (getCore (claimLane (putWeave s c k w) c k w) c).weaves = (getCore (putWeave s c k w) c).weaves := by
    intro _
    simp only [claimLane, getCore_onCore_self]
    split <;> rfl
  simp only [laneCore, laneState, hl (getCore s c)]
  simp only [putWeave, getCore_onCore_self]

theorem weaves_closedState (s : State) (c k : Nat) (w : Weave) : (getCore (closedState s c k w) c).weaves = sput (getCore s c).weaves k w.closedUp := by
  have h := weaves_laneState s c k w
  simp only [laneCore] at h
  simp only [closedState, putWeave, getCore_onCore_self, h, sput_sput]

theorem usedRegs_closedState (s : State) (c k : Nat) (w : Weave) :
    usedRegs (getCore (closedState s c k w) c) = ((laneCore s c k w).weaves.map (fun x => x.2.allot)).sum := by
  rw [usedRegs_sum, weaves_closedState, weaves_laneState]
  exact congrArg List.sum (map_sput_congr (f := fun y : Nat × Weave => y.2.allot) (x := w.closedUp) (y := w) rfl _)

theorem insts_closedState (s : State) (c k : Nat) (w : Weave) : (getCore (closedState s c k w) c).insts = (laneCore s c k w).insts := by
  simp only [closedState, putWeave, getCore_onCore_self, laneCore]

theorem olderGrow_closedState {s : State} {c k : Nat} {w : Weave}
    (h : ∀ x ∈ (laneCore s c k w).weaves, x.1 ≠ k → growOf (laneState s c k w) (laneCore s c k w) x.2 = none) (a : Nat) :
    olderGrow (closedState s c k w) c k a = false := by
  have hg : ∀ v, growOf (closedState s c k w) (getCore (closedState s c k w) c) v = growOf (laneState s c k w) (laneCore s c k w) v := by
    intro v
    simp only [growOf, insts_closedState]
    rfl
  simp only [olderGrow, List.any_eq_false, Bool.and_eq_true, bne_iff_ne, ne_eq, decide_eq_true_eq, not_and, hg, Bool.not_eq_true,
    Option.isSome_eq_false_iff, Option.isNone_iff_eq_none]
  rintro x hx ⟨hk, -⟩
  refine h x ?_ hk
  rw [weaves_closedState] at hx
  rw [weaves_laneState]
  exact mem_sput_of_ne w hx hk

theorem growNow_closedState {s : State} {c k : Nat} {w : Weave} {n : Nat}
    (h : ∀ x ∈ (laneCore s c k w).weaves, x.1 ≠ k → growOf (laneState s c k w) (laneCore s c k w) x.2 = none)
    (hr : ((laneCore s c k w).weaves.map (fun x => x.2.allot)).sum + n ≤ 8192) : growNow (closedState s c k w) c k w n = true := by
  simp only [growNow, olderGrow_closedState h, usedRegs_closedState, coreRegs, hr, Bool.not_false, decide_true, Bool.and_self]

theorem growNow_full {s : State} {c k : Nat} {w : Weave} {n : Nat}
    (hr : 8192 < ((laneCore s c k w).weaves.map (fun x => x.2.allot)).sum + n) : growNow (closedState s c k w) c k w n = false := by
  simp only [growNow, usedRegs_closedState, coreRegs, Nat.not_le.mpr hr, decide_false, Bool.and_false]

/-- The weave with a scope granted. -/
def Weave.scopeOpened (w : Weave) (n : Nat) : Weave :=
  { w with region := none, allot := w.allot + n, scopes := n :: w.scopes, v := skeep w.v (fun i => i / 32 < w.allot) }

theorem grantScope_closedState (s : State) (c k n : Nat) (w : Weave) :
    grantScope (closedState s c k w) c k n = putWeave (closedState s c k w) c k (w.scopeOpened n) :=
  onWeave_some (getWeave_closedState s c k w) _

theorem scopeBounds_closedState {i : Inst} {l : Launch} {r : RoleRec} {n : Nat} (hi : getInst s c w.inst = some i)
    (hl : getLaunch s i.serial = some l) (hr : l.header.roles[w.role]? = some r) (h0 : n ≠ 0) (h4 : w.scopes.length < 4)
    (hm : w.scopes.sum + n ≤ r.scopeMax) : scopeBounds (closedState s c k w) c w n = false := by
  have hrole : roleOf (closedState s c k w) c w = some r := by
    have hi' : getInst (closedState s c k w) c w.inst = some i := ((kept_closedState s c k w).insts _).trans hi
    have hl' : getLaunch (closedState s c k w) i.serial = some l := hl
    simp only [roleOf, hi', Option.bind_some, hl', hr]
  simp [scopeBounds, hrole, h0, h4, hm]

theorem exec_scope (h : LaneTurn s c k e w) (hp : w.pair = none) (hi : w.Idle) {n : BitVec 28} (hl : illegalHere w e 8 false false [] = false)
    (h8 : n.toNat % 8 = 0) (hb : scopeBounds (closedState s c k w) c w n.toNat = false) :
    (growNow (closedState s c k w) c k w n.toNat = true →
      ∃ t, exec (.scope n) s = .next t ∧ LaneDone s t c k e w (w.scopeOpened n.toNat) (onward e 8)) ∧
    (growNow (closedState s c k w) c k w n.toNat = false →
      ∃ t, exec (.scope n) s = .next t ∧ LaneDone s t c k e w { w with region := none } (fun _ => (.waiting (.grow n.toNat), e.pc))) := by
  have h8' : (n.toNat % 8 != 0) = false := by simp [h8]
  constructor <;> intro hg
  · have key : ∃ t, exec (.scope n) s = .next t ∧ LaneDone (putWeave (closedState s c k w) c k (w.scopeOpened n.toNat)) t c k e w
        (w.scopeOpened n.toNat) (onward e 8) := by
      refine laneIssue_onward (d := moved (putWeave (closedState s c k w) c k (w.scopeOpened n.toNat)) [] (countOf e.mask)) h (twoWord []) hl _
        ?_ rfl rfl (getWeave_putWeave_self _ _ _ _) rfl
      simp only [twoWord, activeMask_noGuard, h8', afterFlow_lane s c k hp hi, hb, hg, Bool.false_eq_true, if_false, if_true,
        grantScope_closedState]
    obtain ⟨t, h1, h2⟩ := key
    exact ⟨t, h1, h2.since ((kept_closedState s c k w).trans (kept_putWeave _ _ _ _))⟩
  · have key : ∃ t, exec (.scope n) s = .next t ∧ LaneDone (closedState s c k w) t c k e w w.closedUp
        (fun _ => (.waiting (.grow n.toNat), e.pc)) := by
      refine laneIssue_waits h (twoWord []) hl _ (s1 := closedState s c k w) (st := .waiting (.grow n.toNat)) ?_
        (getWeave_closedState s c k w) rfl
      simp only [twoWord, activeMask_noGuard, h8', afterFlow_lane s c k hp hi, hb, hg, Bool.false_eq_true, if_false]
    obtain ⟨t, h1, h2⟩ := key
    exact ⟨t, h1, h2.since (kept_closedState s c k w)⟩

end Closed

end Sys2Proof.Machine

/-!
# Wales

A record appended or taken whole.
-/

namespace Sys2Proof.Machine

open Sys2Proof

/-! ## Wales (R84, R143) -/

theorem gather_oks {α : Type} (l : List α) (v : α → Double) : gather (l.map (fun u => .ok (v u))) = .ok (l.map v) := by
  induction l with
  | nil => rfl
  | cons u r ih => simp only [List.map_cons, gather, ih]

/-- What a list of threads with values holds for a thread. -/
theorem find_threads {l : List Nat} (v : Nat → Double) (t : Nat) :
    (l.zip (l.map v)).find? (fun y => y.1 == t) = if t ∈ l then some (t, v t) else none := by
  induction l with
  | nil => rfl
  | cons u r ih =>
    simp only [List.map_cons, List.zip_cons_cons, List.find?_cons, List.mem_cons]
    by_cases h : u = t
    · subst h; simp
    · have : (u == t) = false := beq_false_of_ne h
      simp only [this, ih, Ne.symm h, false_or]

theorem find_threads_mask {m : Mask} {v : Nat → Double} {u : Nat} (hu : u < 32) :
    ((threadsOf m).zip ((threadsOf m).map v)).find? (fun y => y.1 == u) = if m.getLsbD u then some (u, v u) else none := by
  simp only [find_threads, mem_threadsOf, hu, true_and]

section Wales

variable {s : State} {c k : Nat} {e : Entry} {w : Weave} {i : Inst} {l : Launch}

/-- The launch of an instance, in the machine as a lane instruction finds it. -/
theorem launch_laneState (hi : getInst s c w.inst = some i) (hl : getLaunch s i.serial = some l) :
    (getInst (laneState s c k w) c w.inst).bind (fun x => getLaunch (laneState s c k w) x.serial) = some l := by
  rw [getInst_laneState, hi]
  exact hl

theorem waleFull_laneState (hi : getInst s c w.inst = some i) (hl : getLaunch s i.serial = some l) (n : Nat) :
    waleFull (laneState s c k w) c w.inst n = decide (l.header.wdepth.getD n 0 ≤ (i.wales.getD n []).length) := by
  have hd : waleDepth (laneState s c k w) c w.inst n = l.header.wdepth.getD n 0 := by simp only [waleDepth, launch_laneState hi hl]
  simp only [waleFull, (getInst_laneState s c k w _).trans hi, hd, waleOf]

/-- The record that a `wpush` appends: the words of the threads of a mask, zero for the others. -/
def waleLine (m : Mask) (v : Nat → Double) : List Word := (List.range 32).map (fun u => if m.getLsbD u then (v u).setWidth 32 else 0#32)

theorem waleLine_of {m : Mask} {v : Nat → Double} {f : Nat → Word} (h : ∀ u, u < 32 → f u = if m.getLsbD u then (v u).setWidth 32 else 0#32) :
    allThreads.map f = waleLine m v := List.map_congr_left fun u hu => h u (List.mem_range.mp hu)

/-- The wale of a stage replaced in its instance. -/
def waled (n : Nat) (ls : List (List Word)) (x : Inst) : Inst := { x with wales := x.wales.set n ls }

theorem exec_wpush (h : LaneTurn s c k e w) (hp : w.Plain) (hi : getInst s c w.inst = some i) (hl : getLaunch s i.serial = some l) {a : LSrc}
    {v : Nat → Double} (hill : illegalHere w e 4 false false (lsrcRegs a 1) = false) (hrole : w.role + 1 < l.header.roles.length)
    (hv : ∀ u, e.mask.getLsbD u = true → readLSrc (laneCore s c k w) w u a false 0#64 = .ok (v u)) :
    ((i.wales.getD w.role []).length < l.header.wdepth.getD w.role 0 → stageWaits (laneCore s c k w) w.inst w.role isWpush = [] →
      ∃ t, exec (.wpush a) s = .next t ∧
        LaneDone (onInst s c w.inst (waled w.role (i.wales.getD w.role [] ++ [waleLine e.mask v]))) t c k e w w (onward e 4)) ∧
    (l.header.wdepth.getD w.role 0 ≤ (i.wales.getD w.role []).length →
      ∃ t, exec (.wpush a) s = .next t ∧ LaneDone s t c k e w w (fun _ => (.waiting (.wpush (waleLine e.mask v)), e.pc))) := by
  have hlast : ¬ rolesOf (laneState s c k w) c w.inst ≤ w.role + 1 := by
    simp only [rolesOf, launch_laneState hi hl]; omega
  have hread : (threadsOf e.mask).map (fun t => readLSrc (getCore (laneState s c k w) c) w t a false 0#64) =
      (threadsOf e.mask).map (fun t => .ok (v t)) :=
    List.map_congr_left fun t ht => hv t (mem_threadsOf.mp ht).2
  have hrep := isReplaying_solo (getWeave_laneState s c k w) hp.solo
  constructor
  · intro hroom hwait
    have hfull : waleFull (laneState s c k w) c w.inst w.role = false := by
      rw [waleFull_laneState hi hl]; exact decide_eq_false (Nat.not_le.mpr hroom)
    have hpush : pushWale (laneState s c k w) c w.inst w.role (waleLine e.mask v) =
        onInst (laneState s c k w) c w.inst (waled w.role (i.wales.getD w.role [] ++ [waleLine e.mask v])) := by
      simp only [pushWale, (getInst_laneState s c k w _).trans hi, setWale, waleOf]; rfl
    have key : ∃ t, exec (.wpush a) s = .next t ∧ LaneDone (onInst (laneState s c k w) c w.inst
        (waled w.role (i.wales.getD w.role [] ++ [waleLine e.mask v]))) t c k e w w (onward e 4) := by
      refine laneIssue_onward (d := moved (onInst (laneState s c k w) c w.inst
        (waled w.role (i.wales.getD w.role [] ++ [waleLine e.mask v]))) [] (countOf e.mask)) h (oneWord (lsrcRegs a 1)) hill _ ?_ rfl rfl
        ((getWeave_onInst _ _ _ _ _ _).trans (getWeave_laneState s c k w)) rfl
      simp only [laneCore] at hwait
      simp only [oneWord, activeMask_noGuard, afterFlow_plain _ _ _ hp, hread, gather_oks, hlast, hrep, hfull, hwait,
        List.isEmpty_nil, Bool.not_true, Bool.or_self, Bool.false_eq_true, if_false]
      rw [waleLine_of]
      · rw [hpush]
      · intro u hu; rw [find_threads_mask hu]; cases e.mask.getLsbD u <;> rfl
    obtain ⟨t, h1, h2⟩ := key
    exact ⟨t, h1, h2.since ((kept_laneState s c k w).onInst _ _)⟩
  · intro hroom
    have hfull : waleFull (laneState s c k w) c w.inst w.role = true := by
      rw [waleFull_laneState hi hl]; exact decide_eq_true hroom
    have key : ∃ t, exec (.wpush a) s = .next t ∧ LaneDone (laneState s c k w) t c k e w w
        (fun _ => (.waiting (.wpush (waleLine e.mask v)), e.pc)) := by
      refine laneIssue_waits h (oneWord (lsrcRegs a 1)) hill _ (s1 := laneState s c k w) (st := .waiting (.wpush (waleLine e.mask v))) ?_
        (getWeave_laneState s c k w) rfl
      simp only [oneWord, activeMask_noGuard, afterFlow_plain _ _ _ hp, hread, gather_oks, hlast, hrep, hfull,
        Bool.true_or, Bool.false_eq_true, if_false, if_true]
      rw [waleLine_of]
      intro u hu; rw [find_threads_mask hu]; cases e.mask.getLsbD u <;> rfl
    obtain ⟨t, h1, h2⟩ := key
    exact ⟨t, h1, h2.since (kept_laneState s c k w)⟩

/-! ### `wpop` -/

/-- The weave with a word and an end predicate for each of some threads. -/
def popInto (d p : Nat) (b : Bool) (val : Nat → Word) (l : List Nat) (w : Weave) : Weave :=
  l.foldl (fun w t => writeP (writeV w t d (val t)) t p b) w

/-- What a pop leaves alone. -/
def Weave.unpopped (w : Weave) : Weave := { w with v := [], vbad := [], preds := [] }

theorem popInto_unpopped (d p : Nat) (b : Bool) (val : Nat → Word) (l : List Nat) (w : Weave) :
    (popInto d p b val l w).unpopped = w.unpopped := by
  induction l generalizing w with
  | nil => rfl
  | cons t r ih => exact (ih _).trans (by unfold writeP; split <;> rfl)

theorem readV_popInto (d p : Nat) (b : Bool) (val : Nat → Word) {l : List Nat} (hl : ∀ t ∈ l, t < 32) (w : Weave) {u : Nat} (hu : u < 32) (q : Nat) :
    readV (popInto d p b val l w) u q = if u ∈ l ∧ q = d then val u else readV w u q := by
  induction l generalizing w with
  | nil => simp [popInto]
  | cons t r ih =>
    have ht := hl t (by simp)
    have hstep : readV (writeP (writeV w t d (val t)) t p b) u q = if u = t ∧ q = d then val t else readV w u q := by
      rw [← readV_writeV w d q (val t) ht hu]
      unfold writeP; split <;> rfl
    rw [popInto, List.foldl_cons]
    refine (ih (fun t ht => hl t (List.mem_cons_of_mem _ ht)) _).trans ?_
    rw [hstep]
    by_cases h1 : u = t
    · subst h1; by_cases h2 : q = d <;> simp [h2]
    · simp [h1]

theorem readP_popInto (d p : Nat) (b : Bool) (val : Nat → Word) {l : List Nat} (hl : ∀ t ∈ l, t < 32) (w : Weave) {u : Nat} (hu : u < 32) (q : Nat) :
    readP (popInto d p b val l w) u q = if u ∈ l ∧ q = p ∧ q ≠ 7 then b else readP w u q := by
  induction l generalizing w with
  | nil => simp [popInto]
  | cons t r ih =>
    have hstep := readP_writeP_any (writeV w t d (val t)) p q b (hl t (by simp)) hu
    rw [readP_writeV] at hstep
    rw [popInto, List.foldl_cons]
    refine (ih (fun t ht => hl t (List.mem_cons_of_mem _ ht)) _).trans ?_
    rw [hstep]
    by_cases h1 : u = t
    · subst h1; by_cases h2 : q = p
      · subst h2; by_cases h3 : q = 7 <;> simp [h3]
      · simp [h2]
    · simp [h1]

/-- What a record popped leaves in the weave. -/
theorem popped_popInto (w : Weave) (e : Entry) (d p : Nat) (b : Bool) {val : Nat → Word} {r : List Word} (hr : ∀ u, val u = r.getD u 0#32) :
    Popped w (popInto d p b val (threadsOf e.mask) w) e d p r b := by
  have hl : ∀ t ∈ threadsOf e.mask, t < 32 := fun t ht => threadsOf_lt ht
  refine ⟨congrArg (fun x : Weave => { x with v := w.v, vbad := w.vbad, preds := w.preds }) (popInto_unpopped d p b val (threadsOf e.mask) w),
    fun u hu => ⟨fun q => ?_, fun q => ?_⟩⟩
  · rw [readV_popInto _ _ _ _ hl _ hu, hr]
    simp only [mem_threadsOf, hu, true_and]
  · rw [readP_popInto _ _ _ _ hl _ hu]
    simp only [mem_threadsOf, hu, true_and]

theorem popInto_frontier (d p : Nat) (b : Bool) (val : Nat → Word) (l : List Nat) (w : Weave) : (popInto d p b val l w).frontier = w.frontier :=
  (congrArg Weave.frontier (popInto_unpopped d p b val l w) :)

/-- The word that a popped record, or none, holds for a thread. -/
def wordFor (r : Option (List Word)) (t : Nat) : Word := match r with | some l => l.getD t 0#32 | none => 0#32

/-- The machine once a record is popped into the weave's registers. -/
theorem writePop_spec {s : State} (hw : getWeave s c k = some w) (hp : w.pair = none) (m : Mask) (d : BitVec 7) (p : BitVec 3)
    (r : Option (List Word)) :
    ∃ t w2, writePop (logOwn s (.weave c k) (.wale r)) c k m d p r = t ∧ Kept s t c k ∧ getWeave t c k = some w2 ∧
      w2.body = (popInto d.toNat p.toNat r.isSome (wordFor r) (threadsOf m) w).body ∧ w2.frontier = w.frontier := by
  have hlog : logOwn s (.weave c k) (.wale r) = putWeave s c k w := by
    rw [logOwn, isReplaying_solo hw hp, if_neg (by simp), onPair_solo hw hp]
  have hon : onWeave (putWeave s c k w) c k (popInto d.toNat p.toNat r.isSome (wordFor r) (threadsOf m)) =
      putWeave s c k (popInto d.toNat p.toNat r.isSome (wordFor r) (threadsOf m) w) := by
    rw [onWeave_some (getWeave_putWeave_self s c k w), putWeave_putWeave]
  obtain ⟨w2, h1, h2, h3, h4⟩ := untag_spec
    (getWeave_putWeave_self s c k (popInto d.toNat p.toNat r.isSome (wordFor r) (threadsOf m) w)) [d.toNat] []
  refine ⟨_, w2, ?_, (kept_putWeave _ _ _ _).trans h4, h1, h2, h3.trans (popInto_frontier _ _ _ _ _ _)⟩
  rw [hlog, ← hon]
  rfl

/-- `wpop` on its turn, of a weave apart in a role above the first. -/
theorem exec_wpop (h : LaneTurn s c k e w) (hp : w.Plain) {d : BitVec 7} {p : BitVec 3} (hill : illegalHere w e 4 false false [(d.toNat, 1)] = false)
    (hrole : w.role ≠ 0) :
    (popNow (laneState s c k w) c w.inst w.role = .wait →
      ∃ t, exec (.wpop d p) s = .next t ∧ LaneDone s t c k e w w (fun _ => (.waiting (.wpop d p), e.pc))) ∧
    (∀ n, popNow (laneState s c k w) c w.inst w.role = n → n ≠ .wait → stageWaits (laneCore s c k w) w.inst w.role isWpop = [] →
      ∀ {w2 : Weave}, getWeave (performPop (laneState s c k w) c k w e.mask d p n) c k = some w2 → w2.frontier = w.frontier →
        ∃ t, exec (.wpop d p) s = .next t ∧ LaneDone (performPop (laneState s c k w) c k w e.mask d p n) t c k e w w2 (onward e 4)) := by
  have hlog := takeLog_solo (getWeave_laneState s c k w) hp.solo
  refine ⟨fun hpop => ?_, fun n hpop hn hwait w2 hw hf => ?_⟩
  · have key : ∃ t, exec (.wpop d p) s = .next t ∧ LaneDone (laneState s c k w) t c k e w w (fun _ => (.waiting (.wpop d p), e.pc)) := by
      refine laneIssue_waits h (oneWord [(d.toNat, 1)]) hill _ (s1 := laneState s c k w) (st := .waiting (.wpop d p)) ?_
        (getWeave_laneState s c k w) rfl
      simp only [oneWord, afterFlow_plain _ _ _ hp, hrole, if_false, hlog, hpop]
    obtain ⟨t, h1, h2⟩ := key
    exact ⟨t, h1, h2.since (kept_laneState s c k w)⟩
  · refine laneIssue_onward (d := moved (performPop (laneState s c k w) c k w e.mask d p n) [] (countOf e.mask)) h (oneWord [(d.toNat, 1)]) hill _
      ?_ rfl rfl hw hf
    simp only [laneCore] at hwait
    simp only [oneWord, activeMask_noGuard, afterFlow_plain _ _ _ hp, hrole, if_false, hlog, hpop, hwait, List.isEmpty_nil, Bool.not_true,
      Bool.false_eq_true]

theorem exec_wpop_got (h : LaneTurn s c k e w) (hp : w.Plain) (hi : getInst s c w.inst = some i) {d : BitVec 7} {p : BitVec 3}
    (hill : illegalHere w e 4 false false [(d.toNat, 1)] = false) (hrole : w.role ≠ 0) {r : List Word} {rest : List (List Word)}
    (hwale : i.wales.getD (w.role - 1) [] = r :: rest) (hwait : stageWaits (laneCore s c k w) w.inst w.role isWpop = []) :
    ∃ t w1, exec (.wpop d p) s = .next t ∧ Popped w w1 e d.toNat p.toNat r true ∧
      LaneDone (onInst s c w.inst (waled (w.role - 1) rest)) t c k e w w1 (onward e 4) := by
  have hi0 : getInst (laneState s c k w) c w.inst = some i := (getInst_laneState s c k w _).trans hi
  have hpop : popNow (laneState s c k w) c w.inst w.role = .got r := by simp only [popNow, hi0, waleOf, hwale]
  obtain ⟨t, w2, h1, h2, h3, h4, h5⟩ := writePop_spec (s := onInst (laneState s c k w) c w.inst (waled (w.role - 1) rest))
    ((getWeave_onInst _ _ _ _ _ _).trans (getWeave_laneState s c k w)) hp.solo e.mask d p (some r)
  have hperf : performPop (laneState s c k w) c k w e.mask d p (.got r) = t := by
    rw [← h1]; simp only [performPop, hi0, waleOf, hwale, setWale, List.drop_succ_cons, List.drop_zero]; rfl
  obtain ⟨t', h6, h7⟩ := (exec_wpop h hp hill hrole).2 _ hpop (by simp) hwait (hperf ▸ h3) h5
  rw [hperf] at h7
  exact ⟨t', _, h6, popped_popInto w e d.toNat p.toNat true fun _ => rfl,
    (h7.since (((kept_laneState s c k w).onInst _ _).trans h2)).of_body h4⟩

theorem exec_wpop_ended (h : LaneTurn s c k e w) (hp : w.Plain) (hi : getInst s c w.inst = some i) {d : BitVec 7} {p : BitVec 3}
    (hill : illegalHere w e 4 false false [(d.toNat, 1)] = false) (hrole : w.role ≠ 0) (hwale : i.wales.getD (w.role - 1) [] = [])
    (hend : stageCount (laneCore s c k w) w.inst (w.role - 1) = 0) (hwait : stageWaits (laneCore s c k w) w.inst w.role isWpop = []) :
    ∃ t w1, exec (.wpop d p) s = .next t ∧ Popped w w1 e d.toNat p.toNat [] false ∧ LaneDone s t c k e w w1 (onward e 4) := by
  have hi0 : getInst (laneState s c k w) c w.inst = some i := (getInst_laneState s c k w _).trans hi
  simp only [laneCore] at hend
  have hpop : popNow (laneState s c k w) c w.inst w.role = .ended := by simp only [popNow, hi0, waleOf, hwale, hend, if_true]
  obtain ⟨t, w2, h1, h2, h3, h4, h5⟩ := writePop_spec (getWeave_laneState s c k w) hp.solo e.mask d p none
  have hperf : performPop (laneState s c k w) c k w e.mask d p .ended = t := h1
  obtain ⟨t', h6, h7⟩ := (exec_wpop h hp hill hrole).2 _ hpop (by simp) hwait (hperf ▸ h3) h5
  rw [hperf] at h7
  exact ⟨t', _, h6, popped_popInto w e d.toNat p.toNat false fun _ => rfl,
    (h7.since ((kept_laneState s c k w).trans h2)).of_body h4⟩

theorem exec_wpop_waits (h : LaneTurn s c k e w) (hp : w.Plain) (hi : getInst s c w.inst = some i) {d : BitVec 7} {p : BitVec 3}
    (hill : illegalHere w e 4 false false [(d.toNat, 1)] = false) (hrole : w.role ≠ 0) (hwale : i.wales.getD (w.role - 1) [] = [])
    (hend : stageCount (laneCore s c k w) w.inst (w.role - 1) ≠ 0) :
    ∃ t, exec (.wpop d p) s = .next t ∧ LaneDone s t c k e w w (fun _ => (.waiting (.wpop d p), e.pc)) := by
  have hi0 : getInst (laneState s c k w) c w.inst = some i := (getInst_laneState s c k w _).trans hi
  simp only [laneCore] at hend
  exact (exec_wpop h hp hill hrole).1 (by simp only [popNow, hi0, waleOf, hwale, hend, if_false])

end Wales

/-- Settles O22: regions and scopes act on the weave with its region closed; a wale's record is appended or taken whole. -/
theorem regionsScopesWales : Obligations.RegionsScopesWales := by
  unfold Obligations.RegionsScopesWales
  refine ⟨fun s c k e w h hp hq hr => ?regions, fun s c k e w i l h hp hi hl => ⟨fun a v hill hrole hv => ?wpush, fun d p hill hrole => ?wpop⟩⟩
  case regions =>
    have hidle : w.Idle := ⟨hq, hr⟩
    refine ⟨fun hl => ⟨exec_rgnOpen h hidle hl, exec_rgnClose h hp hidle hl, fun n r hs _ => ?_, fun hs hn => ?_⟩,
      fun n i l r hl hi hla hro h8 h0 h4 hm => ⟨fun hold hroom => ?_, fun hfull => ?_⟩⟩
    · obtain ⟨t, h1, h2⟩ := exec_endscope h hp hidle hl hs
      exact ⟨t, _, h1, h2, rfl, fun u q hu hq => (readV_below hu rfl).trans (if_pos hq)⟩
    · exact exec_endscope_bounds h hp hidle hn hl hs
    · obtain ⟨t, h1, h2⟩ := (exec_scope h hp hidle hl h8 (scopeBounds_closedState hi hla hro h0 h4 hm)).1 (growNow_closedState hold hroom)
      exact ⟨t, _, h1, h2, rfl, fun u q hu => readV_below hu rfl⟩
    · exact (exec_scope h hp hidle hl h8 (scopeBounds_closedState hi hla hro h0 h4 hm)).2 (growNow_full hfull)
  case wpush => exact exec_wpush h hp hi hl hill hrole hv
  case wpop =>
    exact ⟨fun r rest hwale hwait => exec_wpop_got h hp hi hill hrole hwale hwait,
      fun hwale hend hwait => exec_wpop_ended h hp hi hill hrole hwale hend hwait,
      fun hwale hend => exec_wpop_waits h hp hi hill hrole hwale hend⟩

end Sys2Proof.Machine

/-!
# A weave's restart in a core that names a number twice

The places that R91 counts run over a core's list of weaves, while a weave is read by its number.
-/

namespace Sys2Proof.Machine

open Sys2Proof

/-! ## A core that holds two weaves at one number -/

/-- A weave without threads, marked for the launch's first successor entry. -/
def restartingWeave (wid : Nat) : Weave := { (default : Weave) with wid := wid, allot := 8, restart := some (0, 1#32) }

/-- An instance with the circle of role 0, which has no members. -/
def restartInst : Inst :=
  { (default : Inst) with serial := 1, circles := [{ id := 0, role := some 0, tag := 0, base := 0, size := 0, members := [] }] }

/-- A core whose list of weaves names number 1 twice: first with a weave that restarts nowhere, then with an older one that waits to restart. -/
def twiceNamedCore : Core :=
  { Core.blank with
    insts := [(0, restartInst)],
    weaves := [(0, restartingWeave 1), (1, { restartingWeave 2 with restart := none }), (1, restartingWeave 0)] }

def restartEnt : SuccEnt := { pc := 0#64, role := 0, allot := 8, kept := 0 }

def restartLaunch : Launch := { (default : Launch) with serial := 1, header := { (default : Header) with succents := [restartEnt] } }

/-- The machine at reset but for that core and a launch with one successor entry. -/
def twiceNamed : State := { State.reset with cores := [(0, twiceNamedCore)], launches := [restartLaunch] }

theorem twiceNamed_noBar : noBar twiceNamed 0 := by
  intro j w hw x hx
  have hm : (j, w) ∈ twiceNamedCore.weaves := mem_of_sfind hw
  have hf : ∀ y ∈ twiceNamedCore.weaves, y.2.frontier = [] := by decide +kernel
  rw [hf _ hm] at hx
  cases hx

/-- An address whose fetch faults lands: what stands there is not seen (03 R56). -/
theorem lands_of_fault {s : State} {c vf n : Nat} {pc : Double} (h4 : pc.toNat % 4 = 0) (h57 : pc.toNat < 2 ^ 57)
    (hf : (fetchWord s c vf pc.toNat false).1 = .error n) : lands s c vf pc :=
  ⟨h4, h57, fun x t hx => by rw [hx] at hf; cases hf⟩

/-- No page is mapped at the entry. -/
theorem twiceNamed_lands : lands twiceNamed 0 (agentVf twiceNamed (.weave 0 0)) restartEnt.pc :=
  lands_of_fault (n := cNOTPRESENT) (by decide) (by decide) rfl

/-- Read by its number, no other weave of the core restarts. -/
theorem twiceNamed_alone {j : Nat} {x : Weave} (hx : getWeave twiceNamed 0 j = some x) (hj : j ≠ 0) : x.restart = none := by
  have hl : getWeave twiceNamed 0 j = sfind twiceNamedCore.weaves j := rfl
  rw [hl] at hx
  simp only [twiceNamedCore, sfind] at hx
  split at hx
  · omega
  · split at hx
    · cases hx; rfl
    · cases hx

/-- The older restart takes a place all the same: the count of R91 runs over the list. -/
theorem twiceNamed_taken : placesTaken twiceNamed 0 0 0 0 (restartingWeave 1) = 1 := by decide +kernel

/-- Refutes O41: where a core's list names a weave's number twice, `getWeave` reads the first only, while the places that older restarts
wait for are counted over the whole list; so no other weave read by its number restarts, and yet a place more is taken. -/
theorem not_releases : ¬ Obligations.Releases := by
  unfold Obligations.Releases
  rintro ⟨-, h⟩
  obtain ⟨h1, -⟩ := h twiceNamed 0 0 0 1#32 (restartingWeave 1) restartInst restartLaunch restartEnt rfl rfl rfl rfl rfl rfl rfl
    (by decide) twiceNamed_noBar twiceNamed_lands _ rfl
  have ht := h1 fun j x hx hj => twiceNamed_alone hx hj
  exact absurd (twiceNamed_taken.symm.trans ht) (by decide)

end Sys2Proof.Machine

/-!
# The steer thread's forms and the privileged forms

What ends the steer thread, its decision queue, its buckets, and the stop of a form of the handler slot.
-/

namespace Sys2Proof.Machine

open Sys2Proof

/-! ## A steer thread on its turn -/

/-- Nothing of a steer thread is on its way to memory. -/
theorem drainAll_steer {s : State} {c k : Nat} {i : Inst} (hi : getInst s c k = some i) (hq : i.steer.storeq = []) :
    drainAll s (.steer c k) = putInst s c k i := by
  have h : ({ i with steer := { i.steer with storeq := [] } } : Inst) = i := by rw [← hq]
  simp only [drainAll, queueOf, hi, hq, performAll, List.foldl_nil, setQueue, onInst_some hi, h]

/-- A steer thread that issues, no store of its own on its way. -/
structure SteerTurn (s : State) (c k : Nat) (e : Entry) (i : Inst) : Prop where
  turn : UniTurn s (.steer c k) e
  inst : getInst (begin s (.steer c k) e) c k = some i
  drained : i.steer.storeq = []

section Steer

variable {s : State} {c k : Nat} {e : Entry} {i : Inst}

theorem SteerTurn.solo (h : SteerTurn s c k e i) : i.steer.pair = none := by
  have hs := h.turn.solo
  simp only [isPaired, pairOf, h.inst, Option.bind_some] at hs
  simpa using hs

/-- A uniform instruction of a steer thread, legal at its place. -/
theorem SteerTurn.issue (h : SteerTurn s c k e i) {q : UniReq} (hl : uniCause (begin s (.steer c k) e) (.steer c k) e q = none)
    (body : State → Agent → Entry → Done) :
    uniIssue s q body = .next (uniEnd (.steer c k) e q.size q.chain (body (begin s (.steer c k) e) (.steer c k) e)) := by
  simp only [uniIssue, h.turn.focus, h.turn.issues, uniBody, hl]

theorem getInst_count (t : State) (c k n m : Nat) : getInst (onCore t c (fun x => countCore x n m)) c k = getInst t c k :=
  getInst_onCore t c (fun x => countCore x n m) (fun _ => rfl) c k

theorem getWeave_count (t : State) (c j n m : Nat) : getWeave (onCore t c (fun x => countCore x n m)) c j = getWeave t c j :=
  getWeave_onCore t c (fun x => countCore x n m) (fun _ => rfl) c j

theorem keptUni_steer_count {t : State} {j : Inst} (hj : getInst t c k = some j) (n m : Nat) :
    KeptUni t (onCore t c (fun x => countCore x n m)) (.steer c k) :=
  keptUni_count t (.steer c k) n m (fun _ _ h => by cases h) (fun _ _ h => by cases h; exact ⟨j, hj⟩)

/-! ### `s.exit` (R134) -/

/-- An instance with a weave has not ended. -/
theorem settleInst_live {t : State} {j : Nat} {w : Weave} (hw : getWeave t c j = some w) (hk : w.inst = k) : settleInst t c k = t := by
  have hn : (weavesOf (getCore t c) k).isEmpty = false := by
    have hm : (j, w) ∈ weavesOf (getCore t c) k := List.mem_filter.mpr ⟨mem_of_sfind hw, by simpa using hk⟩
    simpa using List.ne_nil_of_mem hm
  have he : instEnded (getCore t c) k = false := by
    unfold instEnded
    split
    · rfl
    · simp only [hn, Bool.false_and]
  simp only [settleInst, he, Bool.false_eq_true, if_false]

/-- An instance whose steer thread has ended. -/
def Inst.steerEnded (i : Inst) : Inst := { i with steer := { i.steer with entry := none } }

theorem endSteer_live {t : State} {j : Nat} {w : Weave} (hi : getInst t c k = some i) (hq : i.steer.storeq = []) (hp : i.steer.pair = none)
    (hw : getWeave t c j = some w) (hk : w.inst = k) : endSteer t c k = putInst t c k i.steerEnded := by
  have hs : ({ i with steer := { i.steer with entry := none, pair := i.steer.pair.map endGroup } } : Inst) = i.steerEnded := by
    rw [hp, Option.map_none, ← hp]; rfl
  simp only [endSteer, drainAll_steer hi hq, onInst_some (getInst_putInst_self _ _ _ _), putInst_putInst, hs]
  exact settleInst_live ((getWeave_putInst _ _ _ _ _ _).trans hw) hk

theorem SteerTurn.exec_sExit (h : SteerTurn s c k e i) (he : e.mask = 1#32) (hl : uniOk (begin s (.steer c k) e) (.steer c k) e 4 .steer)
    {j : Nat} {w : Weave} (hw : getWeave (begin s (.steer c k) e) c j = some w) (hk : w.inst = k) :
    ∃ t, exec .sExit s = .next t ∧ KeptUni (begin s (.steer c k) e) t (.steer c k) ∧
      getFile t (.steer c k) = getFile (begin s (.steer c k) e) (.steer c k) ∧ getInst t c k = some i.steerEnded := by
  generalize hb : begin s (.steer c k) e = b at hl hw
  have hi := h.inst
  rw [hb] at hi
  let t := onCore b c (fun x => countCore x 0x002 1)
  have hit : getInst t c k = some i := (getInst_count b c k _ _).trans hi
  have hx : exec .sExit s = .next (putInst t c k i.steerEnded) := by
    refine (h.issue (q := uniAt 4 .steer) (hb ▸ hl) _).trans ?_
    simp only [hb, moved, uniEnd, soleGo, he, List.find?_cons, BitVec.getLsbD_one, Nat.zero_lt_succ, decide_true, Bool.and_self, steerMove]
    exact congrArg _ (endSteer_live hit h.drained h.solo ((getWeave_count b c j _ _).trans hw) hk)
  refine ⟨_, hx, (keptUni_steer_count hi _ _).trans (keptUni_steer hit rfl), ?_, getInst_putInst_self _ _ _ _⟩
  simp only [getFile, getInst_putInst_self, hi]
  rfl

/-! ### The end of a steer thread's instruction that changed its instance -/

/-- A steer thread goes on after an instruction that changed its instance from `j` to `i'`, the thread's registers among it. -/
theorem SteerTurn.uniMoved (h : SteerTurn s c k e i) {q : UniReq} (hl : uniCause (begin s (.steer c k) e) (.steer c k) e q = none)
    {body : State → Agent → Entry → Done} {j i' : Inst}
    (hb : body (begin s (.steer c k) e) (.steer c k) e = moved (putInst (begin s (.steer c k) e) c k i') [] 1)
    (hr : i'.steer.rest = j.steer.rest) (hj : { i' with steer := j.steer } = j) :
    ∃ t, uniIssue s q body = .next t ∧
      UniMoved (putInst (begin s (.steer c k) e) c k j) t (.steer c k) e (e.pc + BitVec.ofNat 64 q.size) (steerFile i'.steer) := by
  generalize hbg : begin s (.steer c k) e = b at *
  have hi' := getInst_putInst_self b c k i'
  obtain ⟨h1, h2, h3, h4, -⟩ := uniEnd_spec (a := .steer c k) (e := e) (size := q.size) (ch := q.chain) (d := moved (putInst b c k i') [] 1)
    rfl rfl ⟨fun _ _ h => by (cases h), fun _ _ h => by (cases h; exact ⟨i', hi'⟩)⟩
  have hk : KeptUni (putInst b c k j) (putInst b c k i') (.steer c k) := by
    have hs : i' = { j with steer := i'.steer } := by rw [← hj]
    have := keptUni_steer (getInst_putInst_self b c k j) hr
    rwa [putInst_putInst, ← hs] at this
  refine ⟨_, (h.issue (hbg ▸ hl) body).trans (by rw [hbg, hb]), hk.trans h3, h1, ?_, fun u => ⟨rfl, rfl⟩⟩
  rw [h2]
  simp only [moved, getFile, hi']

/-! ### `dpush` (R144) -/

/-- The instance with a decision appended. -/
def Inst.decided (i : Inst) (v : Double) : Inst := { i with decisions := i.decisions ++ [v] }

theorem SteerTurn.afterFlow (h : SteerTurn s c k e i) (f : State → Done) :
    afterFlow (begin s (.steer c k) e) (.steer c k) f = f (putInst (begin s (.steer c k) e) c k i) := by
  simp only [Machine.afterFlow, h.turn.solo, Bool.false_and, Bool.false_eq_true, if_false, closeAgent, drainAll_steer h.inst h.drained]

theorem isReplaying_steer {t : State} (hi : getInst t c k = some i) (hp : i.steer.pair = none) : isReplaying t (.steer c k) = false := by
  simp only [isReplaying, pairOf, hi, Option.bind_some, hp]

theorem SteerTurn.exec_dpush (h : SteerTurn s c k e i) (hl : uniOk (begin s (.steer c k) e) (.steer c k) e 4 .steer) {x : USrc} {wide : Bool}
    {v : Double} (hv : readUSrc (begin s (.steer c k) e) (.steer c k) x wide 0#64 = .ok v) (hroom : i.decisions.length < 32) :
    ∃ t, exec (.dpush x wide) s = .next t ∧ UniMoved (putInst (begin s (.steer c k) e) c k (i.decided v)) t (.steer c k) e (e.pc + 4#64)
      (getFile (begin s (.steer c k) e) (.steer c k)) := by
  have hg := getInst_putInst_self (begin s (.steer c k) e) c k i
  have hfile : getFile (begin s (.steer c k) e) (.steer c k) = steerFile (i.decided v).steer := by simp only [getFile, h.inst]; rfl
  rw [hfile]
  refine h.uniMoved (q := uniAt 4 .steer) hl ?_ rfl rfl
  simp only [hv, h.afterFlow, isReplaying_steer hg h.solo, Bool.false_eq_true, if_false, decisionsFull, hg, queueDepth, Nat.not_le.mpr hroom,
    decide_false, appendDecision, drainAll_steer hg h.drained, putInst_putInst, onInst_some hg]
  rfl

theorem SteerTurn.exec_dpush_full (h : SteerTurn s c k e i) (hl : uniOk (begin s (.steer c k) e) (.steer c k) e 4 .steer) {x : USrc}
    {wide : Bool} {v : Double} (hv : readUSrc (begin s (.steer c k) e) (.steer c k) x wide 0#64 = .ok v) (hfull : 32 ≤ i.decisions.length) :
    ∃ t, exec (.dpush x wide) s = .next t ∧ UniWaits (begin s (.steer c k) e) t (.steer c k) e (.dpush v) := by
  have hg := getInst_putInst_self (begin s (.steer c k) e) c k i
  let y : Steer := { i.steer with entry := some { e with state := .waiting (.dpush v) } }
  have hx : exec (.dpush x wide) s = .next (putInst (begin s (.steer c k) e) c k { i with steer := y }) := by
    refine (h.issue (q := uniAt 4 .steer) hl _).trans ?_
    simp only [hv, h.afterFlow, isReplaying_steer hg h.solo, Bool.false_eq_true, if_false, decisionsFull, hg, queueDepth, hfull, decide_true,
      if_true, waits, uniEnd, steerMove, onInst_some hg, putInst_putInst, y]
  refine ⟨_, hx, keptUni_steer h.inst rfl, ?_, _, _, getInst_putInst_self _ _ _ _, rfl, rfl, rfl⟩
  simp only [getFile, getInst_putInst_self, h.inst]
  rfl

/-! ### `bucket` (R87, R88, R145) -/

theorem bucketHolds_iff (b : Bucket) (vs : List Nat) : bucketHolds b vs = true ↔ ∀ p ∈ vs.zip b.ranges, p.2.1 ≤ p.1 ∧ p.1 ≤ p.2.2 := by
  simp only [bucketHolds, List.all_eq_true, Bool.and_eq_true, decide_eq_true_eq]

theorem bucketFor_first {bs : List Bucket} {vs : List Nat} {j : Nat} {b : Bucket} (hj : bs[j]? = some b) (hb : bucketHolds b vs = true)
    (hbefore : ∀ j' b', j' < j → bs[j']? = some b' → ¬ bucketHolds b' vs = true) :
    bucketFor bs vs = (BitVec.ofNat 32 j, b.bounds.take vs.length) := by
  obtain ⟨hlt, hget⟩ := List.getElem?_eq_some_iff.mp hj
  have hf : bs.findIdx? (fun b => bucketHolds b vs) = some j := by
    rw [List.findIdx?_eq_some_iff_getElem]
    refine ⟨hlt, hget ▸ hb, fun j' hj' => ?_⟩
    exact hbefore j' _ hj' (List.getElem?_eq_getElem (hj'.trans hlt))
  simp only [bucketFor, hf, hj, Option.map_some, Option.getD_some]

theorem bucketFor_none {bs : List Bucket} {vs : List Nat} (hb : ∀ b ∈ bs, ¬ bucketHolds b vs = true) :
    bucketFor bs vs = (BitVec.allOnes 32, vs.map (BitVec.ofNat 32)) := by
  have hf : bs.findIdx? (fun b => bucketHolds b vs) = none := List.findIdx?_eq_none_iff.mpr fun b hm => by simpa using hb b hm
  simp only [bucketFor, hf]

/-- A file with a bucket's index and its three bounds, padded with all ones. -/
def bucketFile (f : UFile) (d : Nat) (y : Word × List Word) : UFile :=
  (((y.2 ++ List.replicate 3 (BitVec.allOnes 32)).take 3).zip (List.range 3)).foldl (fun f p => writeS f (d + 1 + p.2) p.1) (writeS f d y.1)

theorem take_padded {α : Type} (l : List α) (x : α) : (l ++ List.replicate 3 x).take 3 = [l.getD 0 x, l.getD 1 x, l.getD 2 x] := by
  match l with
  | [] | [_] | [_, _] | _ :: _ :: _ :: _ => rfl

theorem readS_bucketFile (f : UFile) (d : Nat) (y : Word × List Word) (r : Nat) :
    readS (bucketFile f d y) r = if r = d then y.1 else if d < r ∧ r ≤ d + 3 then y.2.getD (r - d - 1) (BitVec.allOnes 32) else readS f r := by
  have hz : (List.range 3) = [0, 1, 2] := rfl
  simp only [bucketFile, take_padded, hz, List.zip_cons_cons, List.zip_nil_right, List.foldl_cons, List.foldl_nil, readS_writeS]
  have hcases : r = d ∨ r = d + 1 ∨ r = d + 2 ∨ r = d + 3 ∨ (r ≠ d ∧ r ≠ d + 1 ∧ r ≠ d + 2 ∧ r ≠ d + 3 ∧ ¬(d < r ∧ r ≤ d + 3)) := by omega
  rcases hcases with rfl | rfl | rfl | rfl | ⟨h0, h1, h2, h3, h4⟩
  · simp [Nat.add_assoc]
  · simp [Nat.add_assoc]
  · simp [Nat.add_assoc]
  · simp [Nat.add_assoc]
  · simp [Nat.add_assoc, h0, h1, h2, h3, h4]

/-- An instance with its true-shape window set. -/
def Inst.windowed (i : Inst) (vs : List Nat) : Inst := { i with window := vs.map some }

theorem SteerTurn.exec_bucket (h : SteerTurn s c k e i) (hl : uniOk (begin s (.steer c k) e) (.steer c k) e 8 .steer) {l : Launch}
    (ha : agentLaunch (begin s (.steer c k) e) (.steer c k) = some l) {d x : BitVec 6} {n : BitVec 2} {v : Nat → Double}
    (hv : ∀ j, j < n.toNat → readSReg (begin s (.steer c k) e) (.steer c k) (x.toNat + j) false = .ok (v j)) {y : Word × List Word}
    (hy : bucketFor l.header.buckets ((List.range n.toNat).map (fun j => (v j).toNat % 2 ^ 32)) = y) :
    ∃ t, exec (.bucket d x n) s = .next t ∧
      UniMoved (putInst (begin s (.steer c k) e) c k (i.windowed ((List.range n.toNat).map (fun j => (v j).toNat % 2 ^ 32)))) t (.steer c k) e
        (e.pc + 8#64) (bucketFile (getFile (begin s (.steer c k) e) (.steer c k)) d.toNat y) := by
  have hread : (List.range n.toNat).map (fun j => readSReg (begin s (.steer c k) e) (.steer c k) (x.toNat + j) false) =
      (List.range n.toNat).map (fun j => .ok (v j)) := List.map_congr_left fun j hj => hv j (List.mem_range.mp hj)
  let f := bucketFile (getFile (begin s (.steer c k) e) (.steer c k)) d.toNat y
  let i' : Inst := { i.windowed ((List.range n.toNat).map (fun j => (v j).toNat % 2 ^ 32)) with
    steer := { i.steer with s := f.s, q := f.q, mode := f.mode, gen := f.gen, sbad := f.bad } }
  refine h.uniMoved (q := uniAt 8 .steer) (i' := i') hl ?_ rfl rfl
  simp only [hread, gather_oks, List.map_map, Function.comp_def, BitVec.toNat_setWidth, ha]
  rw [hy]
  simp only [putFile, onInst_some h.inst, onInst_some (getInst_putInst_self _ _ _ _), putInst_putInst, i', f, bucketFile, Inst.windowed,
    List.map_map, Function.comp_def]

end Steer

/-! ## The handler slot's forms, of a weave (R55, R57, R378) -/

/-- A form of the handler slot that a weave issues parks its entry. -/
theorem uniIssue_priv {s : State} {c k : Nat} {e : Entry} {w : Weave} (h : LaneTurn s c k e w) (hp : w.Plain) (hn : noBar s c) {size : Nat}
    (hl : illegalHere w e size false false [] = false) (body : State → Agent → Entry → Done) :
    ∃ t, uniIssue s (uniAt size .handler) body = .next t ∧ LaneParked s t c k e w w e.mask cPRIV 0#64 (onward e 4) := by
  have hc : uniCause (begin s (.weave c k) e) (.weave c k) e (uniAt size .handler) = some cPRIV := by
    simp only [uniCause, uniAt, begin_turn h, getWeave_putWeave_self, hl, placeOk, Bool.false_eq_true, if_false, if_true]
  refine ⟨_, ?_, parkAgent_weave h hp hn size (by decide) (onward e 4)⟩
  simp only [uniIssue, h.focus, h.issues, uniBody, hc]
  rfl

/-- Settles O27: the forms of the steer thread change its instance and the thread alone; a weave's turn at a privileged form parks. -/
theorem steerPrivileged : Obligations.SteerPrivileged := by
  unfold Obligations.SteerPrivileged
  refine ⟨fun s c k e i l ht he hi hl hq => ?_, fun s c k e w h hp hn i => ?_⟩
  · have h : SteerTurn s c k e i := ⟨ht, hi, hq⟩
    refine ⟨fun hok => ⟨?exit, fun x wide v hv => ⟨fun hroom => ?push, fun hfull => h.exec_dpush_full hok hv hfull⟩⟩,
      fun d x n v hok hv => ⟨fun j b hj hb hbefore => ?first, fun hnone => ?none⟩⟩
    case exit =>
      rintro ⟨j, w, hw, hk⟩
      obtain ⟨t, h1, h2, h3, h4⟩ := h.exec_sExit he hok hw hk
      exact ⟨t, _, h1, h2, h3, h4, rfl⟩
    case push =>
      rw [onInst_some hi]
      exact h.exec_dpush hok hv hroom
    case first =>
      obtain ⟨t, h1, h2⟩ := h.exec_bucket hok hl (d := d) hv (bucketFor_first hj ((bucketHolds_iff _ _).mpr hb)
        fun j' b' hj' hb' hh => hbefore j' b' hj' hb' ((bucketHolds_iff _ _).mp hh))
      refine ⟨t, _, h1, by rw [onInst_some hi]; exact h2, fun r => ?_⟩
      rw [readS_bucketFile, List.length_map, List.length_range]
    case none =>
      obtain ⟨t, h1, h2⟩ := h.exec_bucket hok hl (d := d) hv (bucketFor_none fun b hb hh => hnone b hb ((bucketHolds_iff _ _).mp hh))
      refine ⟨t, _, h1, by rw [onInst_some hi]; exact h2, fun r => ?_⟩
      rw [readS_bucketFile, List.take_of_length_le (by simp)]
  · rintro (⟨hl, hi⟩ | ⟨hl, rfl⟩)
    · rcases hi with ⟨d, n, rfl⟩ | ⟨x, n, rfl⟩ | ⟨d, rfl⟩ | ⟨d, rfl⟩ | ⟨d, rfl⟩ | ⟨d, u, r, rfl⟩ | ⟨x, rfl⟩ | ⟨x, rfl⟩ | ⟨x, u, r, rfl⟩ |
        ⟨x, y, sc, rfl⟩ | ⟨x, rfl⟩ | ⟨x, rfl⟩ | ⟨x, rfl⟩ | ⟨x, rfl⟩ | ⟨x, rfl⟩ <;> exact uniIssue_priv h hp hn hl _
    · exact uniIssue_priv h hp hn hl _

end Sys2Proof.Machine

/-!
# What the cache operations leave unchanged

Each moves lines between the L1s, the slices and memory, and changes nothing else.
-/

namespace Sys2Proof.Machine

open Sys2Proof

/-! ## What the moves of lines keep -/

/-- From `s` to `t` lines moved between the L1 of core `c`, its partition's slice and memory: nothing else changed but marks of scrubbing,
poison and recent writes. -/
structure LinesMoved (s t : State) (c : Nat) : Prop where
  rest : { t with cores := [], parts := [], mem := [], bad := [], unscrubbed := [], dirty := [] }
    = { s with cores := [], parts := [], mem := [], bad := [], unscrubbed := [], dirty := [] }
  parts : ∀ p, { getPart t p with l2 := [] } = { getPart s p with l2 := [] }
  slices : ∀ p, p ≠ partOf c → (getPart t p).l2 = (getPart s p).l2
  others : ∀ d, d ≠ c → getCore t d = getCore s d
  core : { getCore t c with l1 := [] } = { getCore s c with l1 := [] }

theorem LinesMoved.refl (s : State) (c : Nat) : LinesMoved s s c := ⟨rfl, fun _ => rfl, fun _ _ => rfl, fun _ _ => rfl, rfl⟩

section Moved

variable {s t u : State} {c : Nat}

theorem LinesMoved.trans (h : LinesMoved s t c) (g : LinesMoved t u c) : LinesMoved s u c :=
  ⟨g.rest.trans h.rest, fun p => (g.parts p).trans (h.parts p), fun p hp => (g.slices p hp).trans (h.slices p hp),
    fun d hd => (g.others d hd).trans (h.others d hd), g.core.trans h.core⟩

theorem getPart_onPart (s : State) (p : Nat) (f : Part → Part) (q : Nat) :
    getPart (onPart s p f) q = if q = p then f (getPart s p) else getPart s q := by
  simp only [getPart, onPart, putPart, sget]
  by_cases h : q = p
  · subst h; rw [sfind_sput_self, if_pos rfl]; rfl
  · rw [sfind_sput_ne _ _ h, if_neg h]

theorem linesMoved_onL1 (s : State) (c : Nat) (f : Sparse Line → Sparse Line) : LinesMoved s (onCore s c (fun x => { x with l1 := f x.l1 })) c :=
  ⟨rfl, fun _ => rfl, fun _ _ => rfl, fun _ hd => getCore_onCore_ne _ _ hd, by rw [getCore_onCore_self]⟩

theorem linesMoved_onL2 (s : State) (c : Nat) (f : Sparse Line → Sparse Line) :
    LinesMoved s (onPart s (partOf c) (fun q => { q with l2 := f q.l2 })) c := by
  refine ⟨rfl, fun p => ?_, fun p hp => ?_, fun _ _ => rfl, rfl⟩
  · rw [getPart_onPart]; split
    · rename_i h; rw [h]
    · rfl
  · rw [getPart_onPart, if_neg hp]

theorem linesMoved_of_onlyMem (h : OnlyMem s t) (c : Nat) : LinesMoved s t c :=
  ⟨congrArg (fun x : State => { x with cores := [], parts := [] }) h, fun p => congrArg (fun y : Part => { y with l2 := [] }) (h.field (getPart · p)),
    fun p _ => congrArg Part.l2 (h.field (getPart · p)), fun d _ => h.field (getCore · d), congrArg (fun y : Core => { y with l1 := [] }) (h.field (getCore · c))⟩

theorem LinesMoved.foldl {α : Type} {f : State → α → State} (hf : ∀ t x, LinesMoved t (f t x) c) (l : List α) (s : State) :
    LinesMoved s (l.foldl f s) c := by
  induction l generalizing s with
  | nil => exact .refl s c
  | cons x r ih => exact (hf s x).trans (ih _)

theorem onlyMem_writeBack (s : State) (key : Nat) (l : Line) : OnlyMem s (writeBack s key l) := by
  have h : OnlyMem s (if l.dirty = 0#64 then s else if l.dirty = BitVec.allOnes 64 then writeMem s (key * 64) l.data
      else (dirtyRuns key l).foldl (fun s e => writeMem s e.1 [e.2]) s) := by
    split
    · exact .refl s
    · split
      · exact onlyMem_writeMem _ _ _
      · exact OnlyMem.foldl (fun _ _ => onlyMem_writeMem _ _ _) s
  unfold writeBack
  dsimp only
  split
  · exact h.trans rfl
  · exact h

theorem linesMoved_writeBack (s : State) (c key : Nat) (l : Line) : LinesMoved s (writeBack s key l) c :=
  linesMoved_of_onlyMem (onlyMem_writeBack s key l) c

theorem linesMoved_dropSlice (s : State) (c line : Nat) : LinesMoved s (dropSlice s (partOf c) line) c := by
  unfold dropSlice
  split
  · exact (linesMoved_writeBack s c _ _).trans (linesMoved_onL2 _ c (serase · line))
  · exact .refl s c

theorem linesMoved_putSlice (s : State) (c line : Nat) (l : Line) : LinesMoved s (putSlice s (partOf c) line l) c := by
  unfold putSlice
  dsimp only
  refine LinesMoved.trans ?_ (linesMoved_onL2 _ c (sput · line l))
  split
  · exact .refl s c
  · exact linesMoved_dropSlice s c _

theorem linesMoved_putBelow (s : State) (c line : Nat) (l : Line) : LinesMoved s (putBelow s (partOf c) line l) c := by
  unfold putBelow
  split
  · exact .refl s c
  · split
    · exact (linesMoved_dropSlice s c line).trans (linesMoved_writeBack _ c _ _)
    · exact linesMoved_putSlice s c line _

theorem linesMoved_leaveL1 (s : State) (c line : Nat) : LinesMoved s (leaveL1 s c line) c := by
  unfold leaveL1
  split
  · exact (linesMoved_onL1 s c (serase · line)).trans (linesMoved_putBelow _ c _ _)
  · exact .refl s c

theorem linesMoved_putL1 (s : State) (c line : Nat) (l : Line) : LinesMoved s (putL1 s c line l) c := by
  unfold putL1
  dsimp only
  refine LinesMoved.trans ?_ (linesMoved_onL1 _ c (sput · line l))
  split
  · exact .refl s c
  · exact linesMoved_leaveL1 s c _

theorem linesMoved_flushCore (s : State) (c : Nat) : LinesMoved s (flushCore s c) c :=
  (LinesMoved.foldl (f := fun s (e : Nat × Line) => putBelow s (partOf c) e.1 e.2) (fun _ _ => linesMoved_putBelow _ c _ _) _ s).trans
    (linesMoved_onL1 _ c cleaned)

theorem linesMoved_flushPart (s : State) (c : Nat) : LinesMoved s (flushPart s (partOf c)) c :=
  (LinesMoved.foldl (f := fun s (e : Nat × Line) => writeBack s e.1 e.2) (fun _ _ => linesMoved_writeBack _ c _ _) _ s).trans
    (linesMoved_onL2 _ c cleaned)

theorem linesMoved_dropL1 (s : State) (c : Nat) : LinesMoved s (dropL1 s c) c :=
  ((linesMoved_flushCore s c).trans (linesMoved_onL1 _ c fun _ => [])).trans ((linesMoved_flushPart _ c).trans (linesMoved_onL2 _ c fun _ => []))

theorem l1_dropL1 (s : State) (c : Nat) : (getCore (dropL1 s c) c).l1 = [] := by
  have h : getCore (dropL1 s c) c = getCore (dropCore s c) c := by
    have hf : ∀ (l : List (Nat × Line)) (s : State), OnlyMem s (l.foldl (fun s e => writeBack s e.1 e.2) s) :=
      fun l s => OnlyMem.foldl (fun _ _ => onlyMem_writeBack _ _ _) s
    exact (hf _ _).field (getCore · c)
  rw [h, dropCore, getCore_onCore_self]

theorem sliceOf_dropL1 (s : State) (c : Nat) : sliceOf (dropL1 s c) c = [] := by
  simp only [sliceOf, dropL1, dropPart, getPart_onPart, if_true]

theorem LinesMoved.weaves (h : LinesMoved s t c) (k : Nat) : getWeave t c k = getWeave s c k := by
  have := congrArg Core.weaves h.core
  simp only at this
  simp only [getWeave, this]

theorem LinesMoved.insts (h : LinesMoved s t c) (i : Nat) : getInst t c i = getInst s c i := by
  have := congrArg Core.insts h.core
  simp only at this
  simp only [getInst, this]

theorem LinesMoved.launches (h : LinesMoved s t c) : t.launches = s.launches := (congrArg State.launches h.rest :)

end Moved

end Sys2Proof.Machine

/-!
# What a node's dispatch and an instance's start leave unchanged

The tables that the admission of an instance reads again.
-/

namespace Sys2Proof.Machine

open Sys2Proof

/-! ## A weave at its start (R59, R82, R83) -/

theorem fresh_weaveStart (i role wid num : Nat) (lsn : Double) (r : RoleRec) (l : Nat) :
    Fresh { weaveStart i role wid num lsn r with lane := l } r lsn num := by
  refine ⟨rfl, rfl, rfl, rfl, fun _ _ => rfl, fun _ => rfl, fun u hu => ?_⟩
  have h := sget_ssetAll_map 1#64 [] allThreads (fun t => genStart lsn num role wid t) u
  rw [if_pos (show u ∈ allThreads from List.mem_range.mpr hu)] at h
  exact h

/-- The weave that a stage admits next, on a lane. -/
def admittedWeave (i role : Nat) (st : Stage) (y : Inst) (l : Launch) (r : RoleRec) (lane : Nat) : Weave :=
  { (if l.node.paired then pairWeave y.trailing (weaveStart i role st.admitted y.num l.lsn r) else weaveStart i role st.admitted y.num l.lsn r) with
    lane := lane }

section Admit

variable {s t : State} {c i role : Nat} {y : Inst} {l : Launch} {r : RoleRec} {st : Stage}

theorem admittedWeave_fresh (lane : Nat) : Fresh (admittedWeave i role st y l r lane) r l.lsn y.num := by
  have h := fresh_weaveStart i role st.admitted y.num l.lsn r lane
  unfold admittedWeave
  split <;> exact h

theorem admittedWeave_fields (lane : Nat) : (admittedWeave i role st y l r lane).inst = i ∧ (admittedWeave i role st y l r lane).role = role ∧
    (admittedWeave i role st y l r lane).wid = st.admitted := by
  unfold admittedWeave
  split <;> exact ⟨rfl, rfl, rfl⟩

/-- The instance once the weave `k` is admitted to a stage. -/
def admittedInst (y : Inst) (role k : Nat) (st : Stage) : Inst :=
  { y with stages := y.stages.set role { st with admitted := st.admitted + 1 },
           circles := y.circles.map (fun z => if z.id == role then { z with members := ninsert z.members k } else z) }

/-- A weave admitted to a stage: it stands in a slot of the core, its instance counts it, and beside lanes nothing else changed. -/
structure WeaveAdded (s t : State) (c i role : Nat) (y : Inst) (st : Stage) (k : Nat) (w : Weave) : Prop where
  rest : { t with cores := [] } = { s with cores := [] }
  core : { getCore t c with insts := [], weaves := [], lanes := [] } = { getCore s c with insts := [], weaves := [], lanes := [] }
  weaves : ∀ j, getWeave t c j = if j = k then some w else getWeave s c j
  inst : getInst t c i = some (admittedInst y role k st)

theorem addStageWeave_spec (hi : getInst s c i = some y) (hl : getLaunch s y.serial = some l) (hr : l.header.roles[role]? = some r)
    (hst : y.stages[role]? = some st) : ∃ k lane, WeaveAdded s (addStageWeave s c i role) c i role y st k (admittedWeave i role st y l r lane) := by
  generalize hw : (if l.node.paired then pairWeave y.trailing (weaveStart i role st.admitted y.num l.lsn r)
    else weaveStart i role st.admitted y.num l.lsn r) = w
  let x := (addWeave (getCore s c) w).1
  let k := (addWeave (getCore s c) w).2
  have hw' : admittedWeave i role st y l r (placeLane (getCore s c)) = { w with lane := placeLane (getCore s c) } := by rw [admittedWeave, hw]
  have hi' : getInst (putCore s c x) c i = some y := by simp only [getInst, getCore_putCore_self]; exact hi
  have hx : addStageWeave s c i role = putInst (putCore s c x) c i (admittedInst y role k st) := by
    simp only [addStageWeave, hi, hl, hr, hst, hw]
    simp only [joinCircle, onInst_some hi', onInst_some (getInst_putInst_self _ _ _ _), putInst_putInst, x, k]
    rfl
  refine ⟨k, placeLane (getCore s c), ?_⟩
  rw [hx, hw']
  refine ⟨rfl, ?_, fun j => ?_, getInst_putInst_self _ _ _ _⟩
  · simp only [putInst, getCore_onCore_self, getCore_putCore_self]; rfl
  · rw [getWeave_putInst]
    simp only [getWeave, getCore_putCore_self]
    by_cases hj : j = k
    · subst hj; rw [if_pos rfl]; exact sfind_sput_self _ _ _
    · rw [if_neg hj]; exact sfind_sput_ne _ _ hj

end Admit

/-! ## An instance at its start (R83, R85) -/

/-- The roles of an instance's first weaves, in the order of their admission. -/
def firstRoles (roles : List RoleRec) : List Nat := ((List.range roles.length).zip roles).flatMap (fun e => List.replicate e.2.min e.1)

theorem firstRoles_lt {roles : List RoleRec} {j : Nat} (h : j ∈ firstRoles roles) : j < roles.length := by
  obtain ⟨e, he, hj⟩ := List.mem_flatMap.mp h
  obtain rfl := List.eq_of_mem_replicate hj
  exact List.mem_range.mp (List.of_mem_zip he).1

theorem count_firstRoles_from (roles : List RoleRec) (n j : Nat) :
    (((List.range' n roles.length).zip roles).flatMap (fun e => List.replicate e.2.min e.1)).count j =
      if n ≤ j then (roles[j - n]?.map RoleRec.min).getD 0 else 0 := by
  induction roles generalizing n with
  | nil => simp
  | cons r rs ih =>
    simp only [List.length_cons, List.range'_succ, List.zip_cons_cons, List.flatMap_cons, List.count_append, ih, List.count_replicate, beq_iff_eq]
    rcases Nat.lt_trichotomy n j with h | rfl | h
    · obtain ⟨d, rfl⟩ : ∃ d, j = n + 1 + d := ⟨j - (n + 1), by omega⟩
      rw [if_neg (by omega), if_pos (by omega), if_pos (by omega), show n + 1 + d - n = d + 1 by omega, show n + 1 + d - (n + 1) = d by omega]
      simp
    · simp
    · rw [if_neg (by omega), if_neg (by omega), if_neg (by omega)]

theorem count_firstRoles {roles : List RoleRec} {j : Nat} {r : RoleRec} (h : roles[j]? = some r) : (firstRoles roles).count j = r.min := by
  rw [firstRoles, List.range_eq_range', count_firstRoles_from]
  simp [h]

/-- What an instance's admissions leave of it: all but its circles and its stages. -/
def Inst.unstaged (y : Inst) : Inst := { y with circles := [], stages := [] }

/-- An instance whose stages have admitted `n` weaves each, all of them fresh, beside `s` in whose core it stands. -/
structure Staffed (s t : State) (c i : Nat) (y : Inst) (l : Launch) (n : Nat → Nat) : Prop where
  rest : { t with cores := [] } = { s with cores := [] }
  core : { getCore t c with insts := [], weaves := [], lanes := [] } = { getCore s c with insts := [], weaves := [], lanes := [] }
  inst : ∃ z, getInst t c i = some z ∧ z.unstaged = y.unstaged ∧ z.stages.map (·.admitted) = (List.range l.header.roles.length).map n
  weaves : ∀ j w, getWeave t c j = some w → w.inst = i → ∃ r, l.header.roles[w.role]? = some r ∧ w.wid < n w.role ∧ Fresh w r l.lsn y.num

section Staff

variable {s t : State} {c i : Nat} {y : Inst} {l : Launch} {n : Nat → Nat}

theorem Staffed.launch (h : Staffed s t c i y l n) (m : Nat) : getLaunch t m = getLaunch s m := (congrArg (getLaunch · m) h.rest :)

/-- One more weave for a role. -/
theorem Staffed.add (h : Staffed s t c i y l n) (hl : getLaunch s y.serial = some l) {role : Nat} (hrole : role < l.header.roles.length) :
    Staffed s (addStageWeave t c i role) c i y l (fun j => n j + if j = role then 1 else 0) := by
  obtain ⟨z, hz, hzy, hzs⟩ := h.inst
  have hser : z.serial = y.serial := (congrArg Inst.serial hzy :)
  have hnum : z.num = y.num := (congrArg Inst.num hzy :)
  have hlz : getLaunch t z.serial = some l := by rw [h.launch, hser, hl]
  have hlen : z.stages.length = l.header.roles.length := by simpa using congrArg List.length hzs
  obtain ⟨r, hr⟩ : ∃ r, l.header.roles[role]? = some r := ⟨_, List.getElem?_eq_getElem hrole⟩
  obtain ⟨st, hst⟩ : ∃ st, z.stages[role]? = some st := ⟨_, List.getElem?_eq_getElem (hlen ▸ hrole)⟩
  have hadm : st.admitted = n role := by
    have := congrArg (·[role]?) hzs
    simpa [hst, hrole] using this
  obtain ⟨k, lane, hk⟩ := addStageWeave_spec hz hlz hr hst
  refine ⟨hk.rest.trans h.rest, hk.core.trans h.core, ⟨_, hk.inst, hzy, ?_⟩, fun j w hw hi => ?_⟩
  · simp only [admittedInst, List.map_set, hzs, hadm]
    apply List.ext_getElem?
    intro j
    by_cases hj : j = role
    · subst hj; simp [hrole]
    · rw [List.getElem?_set_ne (Ne.symm hj)]
      by_cases hlt : j < l.header.roles.length <;> simp [hlt, hj]
  · rw [hk.weaves] at hw
    split at hw
    · cases hw
      obtain ⟨-, f2, f3⟩ := admittedWeave_fields (i := i) (role := role) (y := z) (l := l) (r := r) (st := st) lane
      refine ⟨r, by rw [f2, hr], by rw [f2, f3, hadm, if_pos rfl]; omega, hnum ▸ admittedWeave_fresh lane⟩
    · obtain ⟨r', h1, h2, h3⟩ := h.weaves j w hw hi
      exact ⟨r', h1, by omega, h3⟩

theorem Staffed.addAll (h : Staffed s t c i y l n) (hl : getLaunch s y.serial = some l) {todo : List Nat}
    (ht : ∀ j ∈ todo, j < l.header.roles.length) :
    Staffed s (todo.foldl (fun s role => addStageWeave s c i role) t) c i y l (fun j => n j + todo.count j) := by
  induction todo generalizing t n with
  | nil => exact h
  | cons role rs ih =>
    have h1 := ih (h.add hl (ht role (by simp))) fun j hj => ht j (List.mem_cons_of_mem _ hj)
    have hn : (fun j => n j + (if j = role then 1 else 0) + rs.count j) = fun j => n j + (role :: rs).count j := by
      funext j
      rw [List.count_cons]
      by_cases hj : j = role
      · simp [hj]; omega
      · simp [hj, Ne.symm hj]
    rw [hn] at h1
    exact h1

end Staff

end Sys2Proof.Machine

/-!
# The weaves of an admitted instance

Each weave of a stage's minimum is fresh, and the weaves before it stay.
-/

namespace Sys2Proof.Machine

open Sys2Proof

/-- An instance of a launch started on a core: its steer thread at its start, the minimum of weaves of every role, at the lowest free number. -/
structure InstStarted (s t : State) (c : Nat) (l : Launch) (num logical i : Nat) (y : Inst) : Prop where
  free : getInst s c i = none
  rest : { t with cores := [], seq := 0 } = { s with cores := [], seq := 0 }
  core : { getCore t c with insts := [], weaves := [], lanes := [] } = { getCore s c with insts := [], weaves := [], lanes := [] }
  inst : getInst t c i = some y
  fields : y.serial = l.serial ∧ y.num = num ∧ y.decisions = [] ∧ y.logical = logical
  steer : ∃ e, y.steer.entry = some e ∧ e.pc = l.header.steer ∧ e.state = .ready
  stages : y.stages.map (fun z => z.admitted) = l.header.roles.map (fun r => r.min)
  weaves : ∀ j w, getWeave t c j = some w → w.inst = i → ∃ r, l.header.roles[w.role]? = some r ∧ w.wid < r.min ∧ Fresh w r l.lsn num

theorem freeInst_none {x : Core} (h : ∃ i, i < 4 ∧ sfind x.insts i = none) : sfind x.insts (freeInst x) = none := by
  obtain ⟨i, hi, hn⟩ := h
  obtain ⟨j, hj⟩ := Option.isSome_iff_exists.mp
    (List.find?_isSome.mpr ⟨i, List.mem_range.mpr hi, by rw [hn]; rfl⟩ : ((List.range 4).find? (fun i => (sfind x.insts i).isNone)).isSome)
  have := List.find?_some hj
  simp only [freeInst, hj, Option.getD_some]
  simpa using this

section Start

variable {s : State} {c num : Nat} {l l' : Launch}

/-- The instance as it stands before its weaves. -/
def bareInst (s : State) (c : Nat) (l : Launch) (num : Nat) : Inst :=
  { instStart l num false (s.seq * windowSize) with logical := logicalCore l c }

theorem bareInst_steer (s : State) (c : Nat) (l : Launch) (num : Nat) :
    (bareInst s c l num).steer.entry = some (entryAt l.header.steer 0#16 1#32 .ready) := by
  simp only [bareInst, instStart]
  split <;> rfl

theorem startInst_spec (hl : getLaunch s l.serial = some l) (hs : l'.serial = l.serial) (hh : l'.header = l.header)
    (hw : ∀ j w, getWeave s c j = some w → getInst s c w.inst ≠ none) (hf : ∃ i, i < 4 ∧ getInst s c i = none) :
    ∃ i y, InstStarted s (startInst s c l' num false).1 c l num (logicalCore l' c) i y := by
  have hfree : getInst s c (freeInst (getCore s c)) = none := freeInst_none hf
  generalize hi : freeInst (getCore s c) = i at hfree
  let y := bareInst s c l' num
  let s2 := putInst (nextSeq s).2 c i y
  have hbase : Staffed s2 s2 c i y l (fun _ => 0) := by
    refine ⟨rfl, rfl, ⟨y, getInst_putInst_self _ _ _ _, rfl, ?_⟩, fun j w hj hin => ?_⟩
    · simp only [y, bareInst, instStart, List.map_map, Function.comp_def, hh]
      exact List.ext_getElem (by simp) fun _ _ _ => by simp
    · rw [show getWeave s2 c j = getWeave s c j from getWeave_putInst _ _ _ _ _ _] at hj
      exact absurd (hin ▸ hfree) (hw j w hj)
  have hst := hbase.addAll (by rw [show y.serial = l.serial from hs]; exact hl) (todo := firstRoles l.header.roles) fun j hj => firstRoles_lt hj
  have ht : (startInst s c l' num false).1 = (firstRoles l.header.roles).foldl (fun s role => addStageWeave s c i role) s2 := by
    have hi' : freeInst (getCore (nextSeq s).2 c) = i := hi
    simp only [startInst, hi', hh, firstRoles]
    rfl
  rw [ht]
  obtain ⟨z, hz, hzy, hzs⟩ := hst.inst
  have hcount : ∀ (j : Nat) (r : RoleRec), l.header.roles[j]? = some r → 0 + (firstRoles l.header.roles).count j = r.min :=
    fun j r hr => by rw [count_firstRoles hr]; omega
  have hcore : { getCore s2 c with insts := [], weaves := [], lanes := [] } = { getCore s c with insts := [], weaves := [], lanes := [] } := by
    simp only [s2, putInst, getCore_onCore_self]
    rfl
  refine ⟨i, z, hfree, congrArg (fun x : State => { x with seq := 0 }) hst.rest, hst.core.trans hcore, hz,
    ⟨(congrArg Inst.serial hzy :).trans hs, (congrArg Inst.num hzy :), (congrArg Inst.decisions hzy :), (congrArg Inst.logical hzy :)⟩,
    ⟨_, (congrArg (fun x : Inst => x.steer.entry) hzy :).trans (bareInst_steer s c l' num), congrArg Header.steer hh, rfl⟩, ?_, fun j w hj hin => ?_⟩
  · rw [hzs]
    apply List.ext_getElem?
    intro j
    by_cases hj : j < l.header.roles.length
    · have hr := List.getElem?_eq_getElem hj
      simp only [List.getElem?_map, List.getElem?_range hj, hr, Option.map_some, hcount j _ hr]
    · simp [hj]
  · obtain ⟨r, hr, hwid, hfresh⟩ := hst.weaves j w hj hin
    exact ⟨r, hr, hcount _ r hr ▸ hwid, hfresh⟩

/-! ## A launch's next instance (R101) -/

theorem nameCores_self (l : Launch) (k : Nat) : k ∈ (nameCores l [k]).cores ∧ (k, logicalCore (nameCores l [k]) k) ∈ (nameCores l [k]).names := by
  have hn : ∃ e ∈ (nameCores l [k]).names, e.1 = k := by
    simp only [nameCores, List.foldl_cons, List.foldl_nil]
    split
    next h => simpa using h
    next => exact ⟨(k, l.ncore), by simp, rfl⟩
  refine ⟨?_, ?_⟩
  · have hc : (nameCores l [k]).cores = addCores l.cores [k] := by
      simp only [nameCores, List.foldl_cons, List.foldl_nil]; split <;> rfl
    rw [hc]
    simp only [addCores, List.foldl_cons, List.foldl_nil]
    split
    · rename_i h; simpa using h
    · simp
  · obtain ⟨e, he, hk⟩ := hn
    obtain ⟨e', he'⟩ := Option.isSome_iff_exists.mp
      (List.find?_isSome.mpr ⟨e, he, by simpa using hk⟩ : ((nameCores l [k]).names.find? (fun e => e.1 == k)).isSome)
    have hk' : e'.1 = k := by simpa using List.find?_some he'
    have := List.mem_of_find?_eq_some he'
    have hkk : (k, e'.2) = e' := Prod.ext hk'.symm rfl
    simp only [logicalCore, he']
    exact hkk ▸ this

theorem nameCores_fields (l : Launch) (cs : List Nat) : (nameCores l cs).serial = l.serial ∧ (nameCores l cs).header = l.header ∧ (nameCores l cs).next = l.next := by
  have hf : ∀ (cs : List Nat) (l : Launch), let m := cs.foldl (fun l c => if l.names.any (fun e => e.1 == c) then l
      else { l with names := l.names ++ [(c, l.ncore)], ncore := l.ncore + 1 }) l
      m.serial = l.serial ∧ m.header = l.header ∧ m.next = l.next := by
    intro cs
    induction cs with
    | nil => exact fun _ => ⟨rfl, rfl, rfl⟩
    | cons c r ih =>
      intro l
      obtain ⟨h1, h2, h3⟩ := ih (if l.names.any (fun e => e.1 == c) then l else { l with names := l.names ++ [(c, l.ncore)], ncore := l.ncore + 1 })
      refine ⟨h1.trans ?_, h2.trans ?_, h3.trans ?_⟩ <;> split <;> rfl
  exact hf cs _

theorem getLaunch_onLaunch {s : State} {n : Nat} {l : Launch} (hl : getLaunch s n = some l) {f : Launch → Launch} (hf : ∀ x, (f x).serial = x.serial) :
    getLaunch (onLaunch s n f) n = some (f l) := by
  have hc : ((fun x : Launch => x.serial == n) ∘ fun x => if x.serial == n then f x else x) = fun x => x.serial == n := by
    funext x
    simp only [Function.comp_apply]
    split <;> simp_all
  simp only [getLaunch, onLaunch] at hl ⊢
  have hn : (l.serial == n) = true := List.find?_some (p := fun x : Launch => x.serial == n) hl
  rw [List.find?_map, hc, hl, Option.map_some, if_pos hn]

/-- A launch's next instance was started on core `k`: as `starts` in the statement. -/
def Starts (s t : State) (k : Nat) (l : Launch) : Prop :=
  ∃ i y, getInst s k i = none ∧ getInst t k i = some y ∧ y.serial = l.serial ∧ y.num = l.next ∧
    y.decisions = [] ∧ (∃ e, y.steer.entry = some e ∧ e.pc = l.header.steer ∧ e.state = .ready) ∧
    y.stages.map (fun z => z.admitted) = l.header.roles.map (fun r => r.min) ∧
    (∀ j w, getWeave t k j = some w → w.inst = i → ∃ r, l.header.roles[w.role]? = some r ∧ w.wid < r.min ∧ Fresh w r l.lsn l.next) ∧
    (getCore t k).l1 = [] ∧ sliceOf t k = [] ∧ (getCore t k).ccache = [] ∧
    ∃ l', getLaunch t l.serial = some l' ∧ l'.next = l.next + 1 ∧ k ∈ l'.cores ∧ (k, y.logical) ∈ l'.names

/-- The acquire at a start empties the core's caches and leaves what stands on it. -/
theorem startAcquire_spec (s : State) (k : Nat) :
    { startAcquire s k with cores := [], parts := [], mem := [], bad := [], unscrubbed := [], dirty := [] }
      = { s with cores := [], parts := [], mem := [], bad := [], unscrubbed := [], dirty := [] } ∧
    (∀ p, { getPart (startAcquire s k) p with l2 := [] } = { getPart s p with l2 := [] }) ∧
    (∀ i, getInst (startAcquire s k) k i = getInst s k i) ∧ (∀ j, getWeave (startAcquire s k) k j = getWeave s k j) ∧
    (getCore (startAcquire s k) k).l1 = [] ∧ sliceOf (startAcquire s k) k = [] ∧ (getCore (startAcquire s k) k).ccache = [] := by
  have h := linesMoved_dropL1 s k
  refine ⟨h.rest, h.parts, fun i => ?_, fun j => ?_, ?_, sliceOf_dropL1 s k, ?_⟩
  · exact (getInst_onCore (dropL1 s k) k (fun x => { x with ccache := [] }) (fun _ => rfl) _ _).trans (h.insts i)
  · exact (getWeave_onCore (dropL1 s k) k (fun x => { x with ccache := [] }) (fun _ => rfl) _ _).trans (h.weaves j)
  · simp only [startAcquire, getCore_onCore_self, l1_dropL1]
  · simp only [startAcquire, getCore_onCore_self]

theorem getLaunch_serial {n : Nat} (h : getLaunch s n = some l) : l.serial = n := by
  have := List.find?_some (p := fun x : Launch => x.serial == n) h
  simpa using this

variable {k n p : Nat}

theorem admitInst_spec (hl : getLaunch s n = some l) (hw : ∀ j w, getWeave s k j = some w → getInst s k w.inst ≠ none)
    (hf : ∃ i, i < 4 ∧ getInst s k i = none) :
    Starts s (admitInst s n [k]) k l ∧ (admitInst s n [k]).nextLsn = s.nextLsn ∧
      ∀ p, (getPart (admitInst s n [k]) p).ready = (getPart s p).ready := by
  obtain rfl := getLaunch_serial hl
  obtain ⟨a1, a2, a3, a4, a5, a6, a7⟩ := startAcquire_spec s k
  obtain ⟨f1, f2, f3⟩ := nameCores_fields l [k]
  obtain ⟨n1, n2⟩ := nameCores_self l k
  have hl1 : getLaunch (startAcquire s k) l.serial = some l := (congrArg (getLaunch · l.serial) a1 :).trans hl
  obtain ⟨i, y, h⟩ := startInst_spec (num := (nameCores l [k]).next) hl1 f1 f2 (fun j w hj => by rw [a3]; exact hw j w ((a4 j).symm.trans hj))
    (by simpa only [a3] using hf)
  generalize hu : (startInst (startAcquire s k) k (nameCores l [k]) (nameCores l [k]).next false).1 = u at h
  have ht : admitInst s l.serial [k] = onLaunch u l.serial (fun y => { y with
      next := y.next + 1, cores := (nameCores l [k]).cores, names := (nameCores l [k]).names, ncore := (nameCores l [k]).ncore }) := by
    simp only [admitInst, hl, startOn, hu]
  have hlu : getLaunch u l.serial = some l := (congrArg (getLaunch · l.serial) h.rest :).trans hl1
  obtain ⟨g1, g2, g3, g4⟩ := h.fields
  rw [ht]
  refine ⟨⟨i, y, (a3 i).symm.trans h.free, h.inst, g1, g2.trans f3, g3, h.steer, h.stages, ?_, ?_, ?_, ?_, _,
    getLaunch_onLaunch hlu fun _ => rfl, rfl, n1, by rw [g4]; exact n2⟩, ?_, fun p => ?_⟩
  · rw [← f3]; exact h.weaves
  · exact (congrArg Core.l1 h.core :).trans a5
  · exact (congrArg (sliceOf · k) h.rest :).trans a6
  · exact (congrArg Core.ccache h.core :).trans a7
  · exact (congrArg State.nextLsn h.rest :).trans (congrArg State.nextLsn a1 :)
  · exact (congrArg (fun x => (getPart x p).ready) h.rest :).trans (congrArg Part.ready (a2 p) :)

end Start

/-! ## A ready node dispatched -/

/-- The launch of a node dispatched. -/
def newLaunch (s : State) (p : Nat) (r : Ready) (h : Header) : Launch :=
  { serial := s.nextLsn, lsn := BitVec.ofNat 64 s.nextLsn, vf := r.vf, part := p, addr := r.addr, node := r.node, header := h,
    readyAt := r.readyAt, seq := r.seq, next := 0, ended := 0, saved := [], cores := [], names := [], ncore := 0, requeues := r.requeues,
    staged := [], blocks := [], freed := [], early := false, poison := none, poisons := [], freezeBad := false }

/-- A partition's queue without a node. -/
def unqueued (s : State) (p seq : Nat) : State := onPart s p (fun x => { x with ready := x.ready.filter (fun y => y.seq != seq) })

theorem onPart_onlyMem {s t : State} (h : OnlyMem s t) (p : Nat) (f : Part → Part) : OnlyMem (onPart s p f) (onPart t p f) := by
  have hp : t.parts = s.parts := h.field State.parts
  have hg : getPart t p = getPart s p := h.field (getPart · p)
  simp only [OnlyMem, onPart, putPart, hp, hg]
  exact congrArg (fun x : State => { x with parts := sput s.parts p (f (getPart s p)) }) h

theorem leaveQueue_onlyMem (s : State) (p : Nat) (r : Ready) : OnlyMem (unqueued s p r.seq) (leaveQueue s p r) :=
  (onlyMem_selfWrite _ _ _ _).trans (onlyMem_relink _ _)

/-- A node dispatched: its launch, out of its queue; beside memory and marks nothing else changed. -/
theorem dispatchNode_spec {s : State} {p seq : Nat} {h : Header} {r : Ready} (hr : (getPart s p).ready.find? (fun y => y.seq == seq) = some r)
    (hn : getLaunch s s.nextLsn = none) :
    getLaunch (dispatchNode s p seq h) s.nextLsn = some (newLaunch s p r h) ∧ (dispatchNode s p seq h).nextLsn = s.nextLsn + 1 ∧
      (dispatchNode s p seq h).cores = s.cores ∧ (getPart (dispatchNode s p seq h) p).ready = (getPart s p).ready.filter (fun y => y.seq != seq) := by
  have hs : r.seq = seq := by simpa using List.find?_some (p := fun y : Ready => y.seq == seq) hr
  have hm : OnlyMem (unqueued s p r.seq) (leaveQueue (writeStatus s r.vf r.addr 2) p r) :=
    (onPart_onlyMem (onlyMem_selfWrite _ _ _ _) p _).trans (leaveQueue_onlyMem _ p r)
  have hd : dispatchNode s p seq h = markPart { leaveQueue (writeStatus s r.vf r.addr 2) p r with
      nextLsn := s.nextLsn + 1, launches := (leaveQueue (writeStatus s r.vf r.addr 2) p r).launches ++ [newLaunch s p r h] } p 0x206 1 := by
    simp only [dispatchNode, hr]; rfl
  have hla : (leaveQueue (writeStatus s r.vf r.addr 2) p r).launches = s.launches := hm.field State.launches
  rw [hd]
  refine ⟨?_, rfl, hm.field State.cores, ?_⟩
  · simp only [markPart, mark, getLaunch, hla, List.find?_append]
    rw [show s.launches.find? (fun l => l.serial == s.nextLsn) = none from hn]
    simp [newLaunch]
  · refine (hm.field (fun x => (getPart x p).ready) :).trans ?_
    simp only [unqueued, getPart_onPart, if_true, hs]

end Sys2Proof.Machine

/-!
# Admission of an instance, and of one weave more

The candidate that fits first is started; a stage below its target takes a weave.
-/

namespace Sys2Proof.Machine

open Sys2Proof

/-! ## The node served next (R99, R101) -/

/-- What is noted of the highest node leaves all but its partition's marks of it. -/
theorem noteFit_spec (s : State) (p : Nat) (cs : List Cand) :
    { noteFit s p cs with parts := [] } = { s with parts := [] } ∧
      ∀ q, { getPart (noteFit s p cs) q with unfit := none, blocked := none } = { getPart s q with unfit := none, blocked := none } := by
  unfold noteFit
  split
  · exact ⟨rfl, fun _ => rfl⟩
  · refine ⟨rfl, fun q => ?_⟩
    rw [getPart_onPart]
    split
    · rename_i h
      subst h
      dsimp only
      split
      · rfl
      · split
        · split <;> rfl
        · rfl
    · rfl

section Serve

variable {s : State} {p k : Nat}

theorem noteFit_ready (s : State) (p : Nat) (cs : List Cand) (q : Nat) : (getPart (noteFit s p cs) q).ready = (getPart s q).ready :=
  (congrArg Part.ready ((noteFit_spec s p cs).2 q) :)

theorem candsOf_noteFit (s : State) (p : Nat) (cs : List Cand) : candsOf (noteFit s p cs) p = candsOf s p := by
  obtain ⟨h1, h2⟩ := noteFit_spec s p cs
  have hl : (noteFit s p cs).launches = s.launches := (congrArg State.launches h1 :)
  have hv : ∀ v, served (noteFit s p cs) v = served s v := fun v => (congrArg (served · v) h1 :)
  have hc : capOf (noteFit s p cs) p = capOf s p := congrArg (fun c : Double => (c.extractLsb' 16 7).toNat) (congrArg Part.config (h2 p) :)
  simp only [candsOf, hl, hv, hc, noteFit_ready]

theorem exec_instanceAdmit_none (h : candsOf s p = []) : exec (.instanceAdmit p) s = .next s := by
  have hn : noteFit s p [] = s := rfl
  have hs : nextServed s p = none := by
    simp only [nextServed, h, openCands, topCand, List.find?_nil]
  change execInstanceAdmit p s = _
  simp only [execInstanceAdmit, h, hn, hs]

theorem exec_instanceAdmit (cand : Cand) {h : Header}
    (hc : (openCands (noteFit s p (candsOf s p)) p (candsOf s p)).find? (fun c => (coresFor (noteFit s p (candsOf s p)) p c).isSome) = some cand)
    (hk : coresFor (noteFit s p (candsOf s p)) p cand = some [k]) (hh : cand.header = some h) (hs : cand.saved = []) :
    exec (.instanceAdmit p) s = .next (admitCand (noteFit s p (candsOf s p)) p cand [k]) := by
  have hn : nextServed (noteFit s p (candsOf s p)) p = some cand := by rw [nextServed, candsOf_noteFit]; exact hc
  change execInstanceAdmit p s = _
  simp only [execInstanceAdmit, hn, hk, hh, hs, Option.isSome_some, List.isEmpty_nil, Bool.and_self, if_true]

theorem Starts.of_cores {s0 t : State} {l : Launch} (h : Starts s0 t k l) (hc : s0.cores = s.cores) : Starts s t k l := by
  obtain ⟨i, y, h1, h2⟩ := h
  exact ⟨i, y, by simp only [getInst, getCore, hc] at h1 ⊢; exact h1, h2⟩

/-- The hypotheses of an admission, read in a machine with the same cores. -/
theorem resident_of_cores {s0 : State} (hc : s0.cores = s.cores) (hw : ∀ j w, getWeave s k j = some w → getInst s k w.inst ≠ none)
    (hf : ∃ i, i < 4 ∧ getInst s k i = none) :
    (∀ j w, getWeave s0 k j = some w → getInst s0 k w.inst ≠ none) ∧ ∃ i, i < 4 ∧ getInst s0 k i = none := by
  have hg : getCore s0 k = getCore s k := by simp only [getCore, hc]
  simp only [getWeave, getInst, hg] at hw hf ⊢
  exact ⟨hw, hf⟩

end Serve

/-! ## A further weave (R105) -/

section Further

variable {s : State} {c i role : Nat} {y : Inst} {l : Launch} {r : RoleRec} {st : Stage}

theorem stageOpen_eq (hi : getInst s c i = some y) (hl : getLaunch s y.serial = some l) (hr : l.header.roles[role]? = some r)
    (hst : y.stages[role]? = some st) :
    stageOpen s c i role = (!st.closed && st.admitted < st.target && roleMembers y role < 32 && roomFor s c r) := by
  simp only [stageOpen, hi, hl, Option.bind_some, hr, hst]

theorem exec_weaveAdmit_closed (hi : getInst s c i = some y) (hl : getLaunch s y.serial = some l) (hr : l.header.roles[role]? = some r)
    (hst : y.stages[role]? = some st)
    (h : (getPart s (partOf c)).up = false ∨ coreOpen s c = false ∨ st.target ≤ st.admitted ∨ st.closed = true ∨ 32 ≤ roleMembers y role ∨
      128 ≤ (getCore s c).weaves.length) : exec (.weaveAdmit c i role) s = .next s := by
  have hc : ((getPart s (partOf c)).up && coreOpen s c && stageOpen s c i role) = false := by
    rw [stageOpen_eq hi hl hr hst]
    rcases h with h | h | h | h | h | h
    · simp [h]
    · simp [h]
    · simp [Nat.not_lt.mpr h]
    · simp [h]
    · simp [Nat.not_lt.mpr h]
    · simp [roomFor, Nat.not_lt.mpr h]
  change execWeaveAdmit c i role s = _
  simp only [execWeaveAdmit, hc, Bool.false_eq_true, if_false]

theorem exec_weaveAdmit_open (hi : getInst s c i = some y) (hl : getLaunch s y.serial = some l) (hr : l.header.roles[role]? = some r)
    (hst : y.stages[role]? = some st) (hu : (getPart s (partOf c)).up = true) (ho : coreOpen s c = true) (hs : stageOpen s c i role = true)
    (hp : y.peer = none) : ∃ t k w y', exec (.weaveAdmit c i role) s = .next t ∧ getWeave t c k = some w ∧ w.inst = i ∧ w.role = role ∧
      w.wid = st.admitted ∧ Fresh w r l.lsn y.num ∧ getInst t c i = some y' ∧ y'.stages = y.stages.set role { st with admitted := st.admitted + 1 } ∧
      ∀ z ∈ y'.circles, z.id = role → k ∈ z.members := by
  obtain ⟨k, lane, h⟩ := addStageWeave_spec hi hl hr hst
  obtain ⟨f1, f2, f3⟩ := admittedWeave_fields (i := i) (role := role) (y := y) (l := l) (r := r) (st := st) lane
  have hx : exec (.weaveAdmit c i role) s = .next (addStageWeave s c i role) := by
    change execWeaveAdmit c i role s = _
    simp only [execWeaveAdmit, hu, ho, hs, Bool.and_self, if_true, hi, Option.bind_some, hp]
  refine ⟨_, k, _, _, hx, (h.weaves k).trans (if_pos rfl), f1, f2, f3, admittedWeave_fresh lane, h.inst, rfl, fun z hz hid => ?_⟩
  obtain ⟨z0, -, rfl⟩ := List.mem_map.mp hz
  by_cases h0 : (z0.id == role) = true
  · rw [if_pos h0]
    exact mem_ninsert.mpr (.inl rfl)
  · rw [if_neg h0] at hid
    exact absurd (by simpa using hid) h0

end Further

/-- Settles O56: the node served next has its instance started in the machine where its fit is noted; a stage's further weave is fresh. -/
theorem admissions : Obligations.Admissions := by
  unfold Obligations.Admissions
  refine ⟨fun s p h => exec_instanceAdmit_none h, fun s p k cand h => ?_, fun s c i role y l r st hi hl hr hst =>
    ⟨exec_weaveAdmit_closed hi hl hr hst, exec_weaveAdmit_open hi hl hr hst⟩⟩
  intro s0 hc hk hh hs hw hf starts
  have hx := exec_instanceAdmit cand hc hk hh hs
  have hcores : s0.cores = s.cores := (congrArg State.cores (noteFit_spec s p (candsOf s p)).1 :)
  have hlsn : s0.nextLsn = s.nextLsn := (congrArg State.nextLsn (noteFit_spec s p (candsOf s p)).1 :)
  have hlaunch : ∀ n, getLaunch s0 n = getLaunch s n := fun n => (congrArg (getLaunch · n) (noteFit_spec s p (candsOf s p)).1 :)
  refine ⟨fun n l hn hl _ _ => ?_, fun r hn hr hnew _ => ?_⟩
  · obtain ⟨hw0, hf0⟩ := resident_of_cores hcores hw hf
    obtain ⟨h1, -⟩ := admitInst_spec ((hlaunch n).trans hl) hw0 hf0
    exact ⟨_, hx, by simp only [admitCand, hn]; exact h1.of_cores hcores⟩
  · have hr0 : (getPart s0 p).ready.find? (fun y => y.seq == cand.seq) = some r := by rw [noteFit_ready]; exact hr
    obtain ⟨d1, d2, d3, d4⟩ := dispatchNode_spec (h := h) hr0 (by rw [hlsn, hlaunch]; exact hnew)
    obtain ⟨hw1, hf1⟩ := resident_of_cores (d3.trans hcores) hw hf
    obtain ⟨h1, h2, h3⟩ := admitInst_spec d1 hw1 hf1
    have ht : admitCand s0 p cand [k] = admitInst (dispatchNode s0 p cand.seq h) s0.nextLsn [k] := by simp only [admitCand, hn, hh]
    refine ⟨_, newLaunch s0 p r h, hx, ?_, hlsn, congrArg (BitVec.ofNat 64) hlsn, rfl, rfl, rfl, rfl, rfl, rfl, ?_, ?_⟩
    · rw [ht]; exact h1.of_cores (d3.trans hcores)
    · rw [ht, h2, d2, hlsn]
    · rw [ht, h3, d4, noteFit_ready]

end Sys2Proof.Machine

/-!
# Bytes of lines

What a line, and a table of lines, lays over the bytes below it; a line written back.
-/

namespace Sys2Proof.Machine

open Sys2Proof

/-! ## Bytes of lines -/

/-- A byte below a line with what the line has stored over it. -/
def Line.over (l : Line) (k : Nat) (b : Byte) : Byte := if l.dirty.getLsbD (k % 64) then l.data.getD (k % 64) 0#8 else b

/-- A byte below a table of lines with what its line, if any, has stored over it. -/
def overTable (t : Sparse Line) (k : Nat) (b : Byte) : Byte := ((sfind t (k / 64)).map (fun l => l.over k b)).getD b

/-- A byte with a store of some bytes over it. -/
def putAt (k : Nat) (d : List Byte) (j : Nat) (b : Byte) : Byte := if k ≤ j ∧ j < k + d.length then d.getD (j - k) 0#8 else b

theorem lowByte_eq (s : State) (c k : Nat) : lowByte s c k = overTable (sliceOf s c) k (memByte s k) := by
  unfold lowByte overTable
  split <;> rename_i h <;> rw [h] <;> rfl

theorem homeByte_eq (s : State) (c k : Nat) : homeByte s c k = overTable (getCore s c).l1 k (lowByte s c k) := by
  unfold homeByte overTable
  split <;> rename_i h <;> rw [h] <;> rfl

theorem overTable_none {t : Sparse Line} {k : Nat} (h : sfind t (k / 64) = none) (b : Byte) : overTable t k b = b := by
  rw [overTable, h]; rfl

theorem overTable_some {t : Sparse Line} {k : Nat} {l : Line} (h : sfind t (k / 64) = some l) (b : Byte) : overTable t k b = l.over k b := by
  rw [overTable, h]; rfl

theorem overTable_sput (t : Sparse Line) (line : Nat) (l : Line) (k : Nat) (b : Byte) :
    overTable (sput t line l) k b = if k / 64 = line then l.over k b else overTable t k b := by
  split
  · rename_i h; subst h; exact overTable_some (sfind_sput_self _ _ _) b
  · rename_i h; rw [overTable, sfind_sput_ne _ _ h]; rfl

theorem overTable_serase (t : Sparse Line) (line k : Nat) (b : Byte) :
    overTable (serase t line) k b = if k / 64 = line then b else overTable t k b := by
  split
  · rename_i h; subst h; exact overTable_none (sfind_serase_self _ _) b
  · rename_i h; rw [overTable, sfind_serase_ne _ h]; rfl

theorem Line.over_clean {l : Line} (h : l.dirty = 0#64) (k : Nat) (b : Byte) : l.over k b = b := by
  simp [Line.over, h]

theorem Line.over_merge (up low : Line) (k : Nat) (b : Byte) : (mergeLine up low).over k b = up.over k (low.over k b) := by
  have hk : k % 64 < 64 := Nat.mod_lt _ (by decide)
  simp only [Line.over, mergeLine, BitVec.getLsbD_or, List.getD_eq_getElem?_getD, List.getElem?_map, List.getElem?_range hk, Option.map_some,
    Option.getD_some]
  cases up.dirty.getLsbD (k % 64) <;> simp

theorem getD_patch (data d : List Byte) (o i : Nat) (h : o + d.length ≤ data.length) :
    (patch data o d).getD i 0#8 = if o ≤ i ∧ i < o + d.length then d.getD (i - o) 0#8 else data.getD i 0#8 := by
  induction d generalizing data o with
  | nil => simp [patch]
  | cons b r ih =>
    rw [List.length_cons] at h
    rw [patch, ih _ _ (by rw [List.length_set]; omega)]
    by_cases hi : i = o
    · subst hi
      rw [if_neg (by omega), if_pos (by rw [List.length_cons]; omega), List.getD_eq_getElem?_getD,
        List.getElem?_set_self (by omega), Nat.sub_self]
      rfl
    · by_cases h2 : o + 1 ≤ i ∧ i < o + 1 + r.length
      · obtain ⟨n, rfl⟩ : ∃ n, i = o + 1 + n := ⟨i - (o + 1), by omega⟩
        rw [if_pos h2, if_pos (by rw [List.length_cons]; omega), Nat.add_sub_cancel_left, show o + 1 + n - o = n + 1 by omega]
        rfl
      · rw [if_neg h2, if_neg (by rw [List.length_cons]; omega), List.getD_eq_getElem?_getD, List.getElem?_set_ne (Ne.symm hi)]
        rfl

theorem getLsbD_dirtyMask (o n i : Nat) (hi : i < 64) : (dirtyMask o n).getLsbD i = decide (o ≤ i ∧ i < o + n) := by
  simp only [dirtyMask, BitVec.getLsbD_shiftLeft, BitVec.getLsbD_ofNat, Nat.testBit_two_pow_sub_one, hi]
  by_cases h : i < o
  · simp [h]
  · simp only [h, decide_false, Bool.not_false, Bool.and_true, decide_true, Bool.true_and]
    rw [show decide (i - o < 64) = true from decide_eq_true (by omega), Bool.true_and]
    exact decide_eq_decide.mpr (by omega)

/-- A line that was stored to lies over what is below by the store, and by what it had stored before. -/
theorem Line.over_store (l : Line) {k : Nat} {d : List Byte} (hl : l.data.length = 64) (hd : k % 64 + d.length ≤ 64) {j : Nat} (hj : j / 64 = k / 64)
    (b : Byte) : (l.store k d).over j b = putAt k d j (l.over j b) := by
  have hm : j % 64 < 64 := Nat.mod_lt _ (by decide)
  have hp := getD_patch l.data d (k % 64) (j % 64) (by omega)
  simp only [Line.over, Line.store, putAt, BitVec.getLsbD_or, getLsbD_dirtyMask _ _ _ hm, hp]
  by_cases h : k ≤ j ∧ j < k + d.length
  · have h2 : k % 64 ≤ j % 64 ∧ j % 64 < k % 64 + d.length := by omega
    rw [if_pos h, if_pos h2, show j % 64 - k % 64 = j - k by omega]
    simp [h2]
  · have h2 : ¬(k % 64 ≤ j % 64 ∧ j % 64 < k % 64 + d.length) := by omega
    rw [if_neg h, if_neg h2]
    simp [h2]

/-! ## A line written back to memory -/

theorem memByte_foldl_writeMem (l : List (Nat × Byte)) (s : State) (j : Nat) :
    memByte (l.foldl (fun s e => writeMem s e.1 [e.2]) s) j = ((l.reverse.find? (fun e => e.1 == j)).map (·.2)).getD (memByte s j) := by
  induction l generalizing s with
  | nil => rfl
  | cons e r ih =>
    rw [List.foldl_cons, ih, List.reverse_cons, List.find?_append, memByte_writeMem]
    cases r.reverse.find? (fun e => e.1 == j) with
    | some x => rfl
    | none =>
      by_cases h : e.1 = j
      · subst h; simp
      · rw [if_neg (by rw [List.length_singleton]; omega)]
        simp [h]

theorem mem_dirtyRuns {key : Nat} {l : Line} {e : Nat × Byte} : e ∈ dirtyRuns key l ↔
    e.1 / 64 = key ∧ l.dirty.getLsbD (e.1 % 64) = true ∧ e.2 = l.data.getD (e.1 % 64) 0#8 := by
  obtain ⟨j, b⟩ := e
  simp only [dirtyRuns, List.mem_filterMap, List.mem_range]
  constructor
  · rintro ⟨i, hi, he⟩
    split at he
    · rename_i hb
      obtain ⟨rfl, rfl⟩ := Prod.mk.inj (Option.some.inj he)
      have : (key * 64 + i) % 64 = i := by omega
      exact ⟨by omega, by rw [this]; exact hb, by rw [this]⟩
    · cases he
  · rintro ⟨rfl, hb, rfl⟩
    refine ⟨j % 64, Nat.mod_lt _ (by decide), ?_⟩
    rw [if_pos hb, show j / 64 * 64 + j % 64 = j by omega]

theorem memByte_poisonUnit (s : State) (u j : Nat) : memByte (poisonUnit s u) j = memByte s j := rfl

theorem memByte_writeBack (s : State) (key : Nat) {l : Line} (hl : l.data.length = 64) (j : Nat) :
    memByte (writeBack s key l) j = if j / 64 = key then l.over j (memByte s j) else memByte s j := by
  have h : memByte (if l.dirty = 0#64 then s else if l.dirty = BitVec.allOnes 64 then writeMem s (key * 64) l.data
      else (dirtyRuns key l).foldl (fun s e => writeMem s e.1 [e.2]) s) j = if j / 64 = key then l.over j (memByte s j) else memByte s j := by
    split
    · rename_i h0; rw [Line.over_clean h0, ite_self]
    · split
      · rename_i h1
        rw [memByte_writeMem, hl]
        by_cases hj : j / 64 = key
        · rw [if_pos hj, if_pos (by omega), Line.over, h1, BitVec.getLsbD_allOnes, show j - key * 64 = j % 64 by omega]
          rw [if_pos (decide_eq_true (Nat.mod_lt _ (by decide)))]
        · rw [if_neg hj, if_neg (by omega)]
      · rw [memByte_foldl_writeMem]
        cases hf : (dirtyRuns key l).reverse.find? (fun e => e.1 == j) with
        | some e =>
          obtain ⟨h1, h2, h3⟩ := mem_dirtyRuns.mp (List.mem_reverse.mp (List.mem_of_find?_eq_some hf))
          obtain rfl : e.1 = j := by simpa using List.find?_some hf
          rw [if_pos h1, Line.over, if_pos h2]
          exact h3
        | none =>
          by_cases hj : j / 64 = key
          · have hb : l.dirty.getLsbD (j % 64) ≠ true := fun hb =>
              absurd (List.find?_eq_none.mp hf (j, l.data.getD (j % 64) 0#8) (List.mem_reverse.mpr (mem_dirtyRuns.mpr ⟨hj, hb, rfl⟩))) (by simp)
            rw [if_pos hj, Line.over, if_neg hb]; rfl
          · rw [if_neg hj]; rfl
  unfold writeBack
  dsimp only
  split
  · rw [memByte_poisonUnit]; exact h
  · exact h

end Sys2Proof.Machine

/-!
# Moves of lines below an L1

What the slice and memory give after a line is put into the slice, taken out of it, or written home.
-/

namespace Sys2Proof.Machine

open Sys2Proof

/-! ## Lines put into a slice and taken out -/

/-- From `s` to `t` a core's L1 stands as it was, its slice is in its form, and the bytes below the L1 changed by `f`. -/
structure SliceStep (s t : State) (c : Nat) (f : Nat → Byte → Byte) : Prop where
  l1 : (getCore t c).l1 = (getCore s c).l1
  slice : linesOk (sliceOf t c)
  low : ∀ k, lowByte t c k = f k (lowByte s c k)

/-- A byte of one line changed, those of other lines not. -/
def onLine (line : Nat) (f : Nat → Byte → Byte) (k : Nat) (b : Byte) : Byte := if k / 64 = line then f k b else b

section Slice

variable {s t u : State} {c line : Nat} {l : Line}

theorem SliceStep.refl (h : linesOk (sliceOf s c)) : SliceStep s s c (fun _ b => b) := ⟨rfl, h, fun _ => rfl⟩

theorem SliceStep.trans {f g : Nat → Byte → Byte} (h : SliceStep s t c f) (k : SliceStep t u c g) : SliceStep s u c (fun j b => g j (f j b)) :=
  ⟨k.l1.trans h.l1, k.slice, fun j => by rw [k.low, h.low]⟩

theorem SliceStep.congr {f g : Nat → Byte → Byte} (h : SliceStep s t c f) (e : ∀ k, f k (lowByte s c k) = g k (lowByte s c k)) : SliceStep s t c g :=
  ⟨h.l1, h.slice, fun k => (h.low k).trans (e k)⟩

theorem OnlyMem.sliceOf (h : OnlyMem s t) (c : Nat) : Machine.sliceOf t c = Machine.sliceOf s c := h.field (Machine.sliceOf · c)

theorem OnlyMem.l1 (h : OnlyMem s t) (c : Nat) : (getCore t c).l1 = (getCore s c).l1 := h.field fun x => (getCore x c).l1

theorem sliceOf_onPart (s : State) (c : Nat) (f : Sparse Line → Sparse Line) :
    sliceOf (onPart s (partOf c) (fun q => { q with l2 := f q.l2 })) c = f (sliceOf s c) := by
  simp only [sliceOf, getPart_onPart, if_true]

theorem memByte_onPart (s : State) (p : Nat) (f : Part → Part) (k : Nat) : memByte (onPart s p f) k = memByte s k := rfl

theorem sliceOf_dropSlice (s : State) (c line : Nat) : sliceOf (dropSlice s (partOf c) line) c = serase (sliceOf s c) line ∨
    (sfind (sliceOf s c) line = none ∧ dropSlice s (partOf c) line = s) := by
  unfold dropSlice
  split
  · left; rw [sliceOf_onPart (f := (serase · line)), (onlyMem_writeBack s line _).sliceOf]
  · rename_i h; exact .inr ⟨h, rfl⟩

theorem sfind_dropSlice (s : State) (c line : Nat) : sfind (sliceOf (dropSlice s (partOf c) line) c) line = none := by
  rcases sliceOf_dropSlice s c line with h | ⟨h, h2⟩
  · rw [h, sfind_serase_self]
  · rw [h2, h]

theorem memByte_dropSlice (hs : linesOk (sliceOf s c)) (line k : Nat) :
    memByte (dropSlice s (partOf c) line) k = if k / 64 = line then lowByte s c k else memByte s k := by
  unfold dropSlice
  split
  · rename_i l h
    rw [memByte_onPart, memByte_writeBack _ _ (linesOk_sfind hs h)]
    by_cases hk : k / 64 = line
    · rw [if_pos hk, if_pos hk, lowByte_eq, overTable_some (by rw [hk]; exact h)]
    · rw [if_neg hk, if_neg hk]
  · rename_i h
    by_cases hk : k / 64 = line
    · rw [if_pos hk, lowByte_eq, overTable_none (by rw [hk]; exact h)]
    · rw [if_neg hk]

theorem getCore_dropSlice (s : State) (p line c : Nat) : getCore (dropSlice s p line) c = getCore s c := by
  unfold dropSlice
  split
  · exact (onlyMem_writeBack s line _).field (getCore · c)
  · rfl

theorem linesOk_dropSlice (hs : linesOk (sliceOf s c)) (line : Nat) : linesOk (sliceOf (dropSlice s (partOf c) line) c) := by
  rcases sliceOf_dropSlice s c line with h | ⟨-, h⟩
  · rw [h]; exact linesOk_serase hs line
  · rw [h]; exact hs

theorem sliceStep_dropSlice (hs : linesOk (sliceOf s c)) (line : Nat) : SliceStep s (dropSlice s (partOf c) line) c (fun _ b => b) := by
  refine ⟨congrArg Core.l1 (getCore_dropSlice _ _ _ _), linesOk_dropSlice hs line, fun k => ?_⟩
  rw [lowByte_eq, memByte_dropSlice hs]
  by_cases hk : k / 64 = line
  · rw [if_pos hk, overTable_none (by rw [hk]; exact sfind_dropSlice s c line)]
  · rw [if_neg hk]
    rcases sliceOf_dropSlice s c line with h | ⟨-, h⟩
    · rw [h, overTable_serase, if_neg hk, lowByte_eq]
    · rw [h, lowByte_eq]

/-- Memory written where the slice holds no line of it. -/
theorem sliceStep_onlyMem {f : Nat → Byte → Byte} (hs : linesOk (sliceOf s c)) (hm : OnlyMem s t) (hn : sfind (sliceOf s c) line = none)
    (hf : ∀ k, memByte t k = onLine line f k (memByte s k)) : SliceStep s t c (onLine line f) := by
  refine ⟨hm.l1 c, by rw [hm.sliceOf]; exact hs, fun k => ?_⟩
  rw [lowByte_eq, hm.sliceOf, hf, lowByte_eq]
  unfold onLine
  by_cases hk : k / 64 = line
  · rw [if_pos hk, if_pos hk, overTable_none (by rw [hk]; exact hn), overTable_none (by rw [hk]; exact hn)]
  · rw [if_neg hk, if_neg hk]

theorem sliceStep_writeBack (hs : linesOk (sliceOf s c)) (hl : l.data.length = 64) (hn : sfind (sliceOf s c) line = none) :
    SliceStep s (writeBack s line l) c (onLine line l.over) :=
  sliceStep_onlyMem hs (onlyMem_writeBack s line l) hn fun k => memByte_writeBack s line hl k

/-- A line put into a slice gives its bytes over those of memory. -/
theorem sliceStep_putSlice (hs : linesOk (sliceOf s c)) (hl : l.data.length = 64) {f : Nat → Byte → Byte}
    (hf : ∀ k, k / 64 = line → l.over k (memByte s k) = f k (lowByte s c k)) : SliceStep s (putSlice s (partOf c) line l) c (onLine line f) := by
  unfold putSlice
  extract_lets x u
  obtain ⟨hu, hm⟩ : SliceStep s u c (fun _ b => b) ∧ ∀ k, k / 64 = line → memByte u k = memByte s k := by
    by_cases hx : ((sfind x line).isSome || decide (x.length < sliceLines)) = true
    · rw [show u = s from if_pos hx]
      exact ⟨.refl hs, fun _ _ => rfl⟩
    · rw [show u = dropSlice s (partOf c) (victimOf s 2 x) from if_neg hx]
      refine ⟨sliceStep_dropSlice hs _, fun k hk => ?_⟩
      rw [memByte_dropSlice hs, lowByte_eq, overTable_none, ite_self]
      rw [hk]
      simp only [Bool.or_eq_true, not_or, Bool.not_eq_true, Option.isSome_eq_false_iff, Option.isNone_iff_eq_none] at hx
      exact hx.1
  refine ⟨hu.l1, by rw [sliceOf_onPart (f := (sput · line l))]; exact linesOk_sput hu.slice line hl, fun k => ?_⟩
  rw [lowByte_eq, sliceOf_onPart (f := (sput · line l)), memByte_onPart, overTable_sput, onLine]
  by_cases hk : k / 64 = line
  · rw [if_pos hk, if_pos hk, hm k hk, hf k hk]
  · rw [if_neg hk, if_neg hk, ← lowByte_eq, hu.low]

theorem sliceLine_length (hs : linesOk (sliceOf s c)) (line : Nat) : (sliceLine s (partOf c) line).data.length = 64 := by
  unfold sliceLine
  split
  · rename_i l e
    split
    · exact length_freshLine _ _
    · exact linesOk_sfind hs e
  · exact length_freshLine _ _

theorem sliceLine_over (s : State) (c : Nat) {k line : Nat} (hk : k / 64 = line) : (sliceLine s (partOf c) line).over k (memByte s k) = lowByte s c k := by
  subst hk
  unfold sliceLine
  rw [lowByte_eq]
  split
  · rename_i l e
    rw [overTable_some (t := sliceOf s c) e]
    split
    · rename_i h
      simp only [Bool.and_eq_true, decide_eq_true_eq] at h
      rw [Line.over_clean rfl, Line.over_clean h.2]
    · rfl
  · rename_i e
    rw [overTable_none (t := sliceOf s c) e, Line.over_clean rfl]

theorem sliceStep_putBelow (hs : linesOk (sliceOf s c)) (hl : l.data.length = 64) :
    SliceStep s (putBelow s (partOf c) line l) c (onLine line l.over) := by
  unfold putBelow
  split
  · rename_i h
    refine (SliceStep.refl hs).congr fun k => ?_
    simp only [onLine, Line.over_clean h, ite_self]
  · split
    · exact (sliceStep_dropSlice hs line).trans (sliceStep_writeBack (linesOk_dropSlice hs line) hl (sfind_dropSlice s c line))
    · exact sliceStep_putSlice hs (length_mergeLine _ _) fun k hk => by rw [Line.over_merge, sliceLine_over s c hk]

end Slice

end Sys2Proof.Machine

/-!
# Moves of lines of an L1, and stores in it

A move leaves every byte as the core stored it; a store within a line changes its own bytes.
-/

namespace Sys2Proof.Machine

open Sys2Proof

/-! ## Lines put into an L1 and taken out -/

/-- From `s` to `t` lines moved about core `c`, its caches stay in their form, and the bytes as the core stored them changed by `f`. -/
structure CacheStep (s t : State) (c : Nat) (f : Nat → Byte → Byte) : Prop where
  moved : LinesMoved s t c
  ok : CachesOk t c
  home : ∀ k, homeByte t c k = f k (homeByte s c k)

section Caches

variable {s t u : State} {c line : Nat} {l : Line}

theorem CacheStep.refl (h : CachesOk s c) : CacheStep s s c (fun _ b => b) := ⟨.refl s c, h, fun _ => rfl⟩

theorem CacheStep.trans {f g : Nat → Byte → Byte} (h : CacheStep s t c f) (k : CacheStep t u c g) : CacheStep s u c (fun j b => g j (f j b)) :=
  ⟨h.moved.trans k.moved, k.ok, fun j => by rw [k.home, h.home]⟩

theorem CacheStep.congr {f g : Nat → Byte → Byte} (h : CacheStep s t c f) (e : ∀ k, f k (homeByte s c k) = g k (homeByte s c k)) : CacheStep s t c g :=
  ⟨h.moved, h.ok, fun k => (h.home k).trans (e k)⟩

/-- A step below an L1 that holds nothing of the bytes it changes. -/
theorem SliceStep.cacheStep {f : Nat → Byte → Byte} (h : SliceStep s t c f) (hm : LinesMoved s t c) (ho : CachesOk s c)
    (hf : ∀ k b, overTable (getCore s c).l1 k (f k b) = f k (overTable (getCore s c).l1 k b)) : CacheStep s t c f :=
  ⟨hm, ⟨by rw [h.l1]; exact ho.1, h.slice⟩, fun k => by rw [homeByte_eq, h.l1, h.low, hf, homeByte_eq]⟩

theorem onLine_overTable (hn : sfind (getCore s c).l1 line = none) (f : Nat → Byte → Byte) (k : Nat) (b : Byte) :
    overTable (getCore s c).l1 k (onLine line f k b) = onLine line f k (overTable (getCore s c).l1 k b) := by
  unfold onLine
  by_cases hk : k / 64 = line
  · rw [if_pos hk, if_pos hk, overTable_none (by rw [hk]; exact hn), overTable_none (by rw [hk]; exact hn)]
  · rw [if_neg hk, if_neg hk]

theorem lowByte_onL1 (s : State) (c : Nat) (f : Core → Core) (k : Nat) : lowByte (onCore s c f) c k = lowByte s c k := rfl

theorem sfind_l1_leaveL1 (ho : CachesOk s c) (line j : Nat) :
    sfind (getCore (leaveL1 s c line) c).l1 j = if j = line then none else sfind (getCore s c).l1 j := by
  unfold leaveL1
  split
  · rename_i l h
    rw [(sliceStep_putBelow (s := onCore s c _) ho.2 (linesOk_sfind ho.1 h)).l1, getCore_onCore_self]
    by_cases hj : j = line
    · rw [if_pos hj, hj]; exact sfind_serase_self _ _
    · rw [if_neg hj]; exact sfind_serase_ne _ hj
  · rename_i h
    split
    · rename_i hj; rw [hj]; exact h
    · rfl

theorem sfind_leaveL1 (ho : CachesOk s c) (line : Nat) : sfind (getCore (leaveL1 s c line) c).l1 line = none :=
  (sfind_l1_leaveL1 ho line line).trans (if_pos rfl)

theorem cacheStep_leaveL1 (ho : CachesOk s c) (line : Nat) : CacheStep s (leaveL1 s c line) c (fun _ b => b) := by
  suffices h : CachesOk (leaveL1 s c line) c ∧ ∀ k, homeByte (leaveL1 s c line) c k = homeByte s c k from ⟨linesMoved_leaveL1 s c line, h.1, h.2⟩
  unfold leaveL1
  split
  · rename_i l h
    have hp := sliceStep_putBelow (s := onCore s c (fun x => { x with l1 := serase x.l1 line })) (line := line) ho.2 (linesOk_sfind ho.1 h)
    refine ⟨⟨by rw [hp.l1, getCore_onCore_self]; exact linesOk_serase ho.1 line, hp.slice⟩, fun k => ?_⟩
    rw [homeByte_eq, hp.l1, hp.low, getCore_onCore_self, overTable_serase, lowByte_onL1, onLine, homeByte_eq]
    by_cases hk : k / 64 = line
    · rw [if_pos hk, if_pos hk, overTable_some (by rw [hk]; exact h)]
    · rw [if_neg hk, if_neg hk]
  · exact ⟨ho, fun _ => rfl⟩

theorem cacheStep_dropLine (ho : CachesOk s c) (line : Nat) : CacheStep s (dropLine s c line) c (fun _ b => b) := by
  have h := cacheStep_leaveL1 ho line
  exact h.trans ((sliceStep_dropSlice h.ok.2 line).cacheStep (linesMoved_dropSlice _ c line) h.ok fun _ _ => rfl)

theorem sfind_dropLine_l1 (ho : CachesOk s c) (line : Nat) : sfind (getCore (dropLine s c line) c).l1 line = none := by
  rw [dropLine, getCore_dropSlice]
  exact sfind_leaveL1 ho line

/-- A line put into an L1 gives its bytes over those below. -/
theorem cacheStep_putL1 (ho : CachesOk s c) (hl : l.data.length = 64) {f : Nat → Byte → Byte}
    (hf : ∀ k, k / 64 = line → l.over k (lowByte s c k) = f k (homeByte s c k)) : CacheStep s (putL1 s c line l) c (onLine line f) := by
  suffices h : CachesOk (putL1 s c line l) c ∧ ∀ k, homeByte (putL1 s c line l) c k = onLine line f k (homeByte s c k) from
    ⟨linesMoved_putL1 s c line l, h.1, h.2⟩
  unfold putL1
  extract_lets x u
  obtain ⟨hu, hm⟩ : CacheStep s u c (fun _ b => b) ∧ ∀ k, k / 64 = line → lowByte u c k = lowByte s c k := by
    by_cases hx : ((sfind x line).isSome || decide (x.length < l1Lines)) = true
    · rw [show u = s from if_pos hx]
      exact ⟨.refl ho, fun _ _ => rfl⟩
    · rw [show u = leaveL1 s c (victimOf s 1 x) from if_neg hx]
      have hv := cacheStep_leaveL1 ho (victimOf s 1 x)
      simp only [Bool.or_eq_true, not_or, Bool.not_eq_true, Option.isSome_eq_false_iff, Option.isNone_iff_eq_none] at hx
      refine ⟨hv, fun k hk => ?_⟩
      have hn : sfind (getCore (leaveL1 s c (victimOf s 1 x)) c).l1 (k / 64) = none := by
        rw [sfind_l1_leaveL1 ho, hk, hx.1, ite_self]
      have := hv.home k
      rwa [homeByte_eq, overTable_none hn, homeByte_eq, overTable_none (by rw [hk]; exact hx.1)] at this
  refine ⟨⟨by rw [getCore_onCore_self]; exact linesOk_sput hu.ok.1 line hl, hu.ok.2⟩, fun k => ?_⟩
  rw [homeByte_eq, getCore_onCore_self, lowByte_onL1, overTable_sput, onLine]
  by_cases hk : k / 64 = line
  · rw [if_pos hk, if_pos hk, hm k hk, hf k hk]
  · rw [if_neg hk, if_neg hk, ← homeByte_eq, hu.home]

/-! ## A store within one line -/

theorem putAt_outside {k : Nat} {d : List Byte} (hd : k % 64 + d.length ≤ 64) {j : Nat} (h : j / 64 ≠ k / 64) (b : Byte) : putAt k d j b = b :=
  if_neg (by omega)

theorem onLine_putAt {k : Nat} {d : List Byte} (hd : k % 64 + d.length ≤ 64) : onLine (k / 64) (putAt k d) = putAt k d := by
  funext j b
  unfold onLine
  split
  · rfl
  · rename_i h; exact (putAt_outside hd h b).symm

/-- Bytes written in memory once neither the L1 nor the slice holds a line of them. -/
theorem cacheStep_writeMem {k : Nat} {d : List Byte} (hd : k % 64 + d.length ≤ 64) (ho : CachesOk s c)
    (h1 : sfind (getCore s c).l1 (k / 64) = none) (h2 : sfind (sliceOf s c) (k / 64) = none) : CacheStep s (writeMem s k d) c (putAt k d) := by
  have h := sliceStep_onlyMem (f := putAt k d) ho.2 (onlyMem_writeMem s k d) h2
    fun j => by rw [onLine_putAt hd]; exact memByte_writeMem s k d j
  rw [← onLine_putAt hd]
  exact h.cacheStep (linesMoved_of_onlyMem (onlyMem_writeMem s k d) c) ho (onLine_overTable h1 _)

theorem cacheStep_writeHome {k : Nat} {d : List Byte} (hd : k % 64 + d.length ≤ 64) (ho : CachesOk s c) :
    CacheStep s (writeMem (dropLine s c (k / 64)) k d) c (putAt k d) := by
  have h := cacheStep_dropLine ho (k / 64)
  exact h.trans (cacheStep_writeMem hd h.ok (sfind_dropLine_l1 ho _) (sfind_dropSlice _ c _))

theorem cacheStep_storeSlice {k : Nat} {d : List Byte} (hd : k % 64 + d.length ≤ 64) (ho : CachesOk s c) :
    CacheStep s (storeSlice s c k d) c (putAt k d) := by
  have h := cacheStep_leaveL1 ho (k / 64)
  have hn := sfind_leaveL1 ho (k / 64)
  unfold storeSlice
  extract_lets line u
  refine h.trans ?_
  split
  · have hw := (sliceStep_dropSlice h.ok.2 line).cacheStep (linesMoved_dropSlice _ c line) h.ok fun _ _ => rfl
    exact hw.trans (cacheStep_writeMem hd hw.ok (by rw [getCore_dropSlice]; exact hn) (sfind_dropSlice _ c _))
  · have hl := sliceLine_length h.ok.2 line
    have hp := sliceStep_putSlice (f := putAt k d) (line := line) h.ok.2 ((length_store _ k d).trans hl) fun j hj => by
      rw [Line.over_store _ hl hd hj, sliceLine_over _ c hj]
    rw [← onLine_putAt hd]
    exact hp.cacheStep (linesMoved_putSlice _ c line _) h.ok (onLine_overTable hn _)

theorem cacheStep_storeLine {k : Nat} {d : List Byte} (hd : k % 64 + d.length ≤ 64) (ho : CachesOk s c) (dp : Depth) :
    CacheStep s (storeLine s c k d dp) c (putAt k d) := by
  unfold storeLine
  extract_lets line l u
  split
  · exact cacheStep_writeHome hd ho
  split
  · exact cacheStep_storeSlice hd ho
  split
  · rename_i m h
    have hl := linesOk_sfind ho.1 h
    rw [← onLine_putAt hd]
    refine cacheStep_putL1 ho ((length_store m k d).trans hl) fun j hj => ?_
    rw [Line.over_store m hl hd hj, homeByte_eq, overTable_some (by rw [hj]; exact h)]
  · rename_i h
    split
    · exact cacheStep_writeHome hd ho
    · have hl : l.data.length = 64 := sliceLine_length ho.2 line
      have hu : SliceStep s u c (fun _ b => b) := by
        by_cases hi : (sfind (sliceOf s c) line).isSome = true
        · rw [show u = s from if_pos hi]; exact .refl ho.2
        · rw [show u = putSlice s (partOf c) line l from if_neg hi]
          refine (sliceStep_putSlice (f := fun _ b => b) ho.2 hl fun j hj => sliceLine_over s c hj).congr fun j => ?_
          exact ite_self _
      have hm : LinesMoved s u c := by
        by_cases hi : (sfind (sliceOf s c) line).isSome = true
        · rw [show u = s from if_pos hi]; exact .refl s c
        · rw [show u = putSlice s (partOf c) line l from if_neg hi]; exact linesMoved_putSlice s c line l
      have hc := hu.cacheStep hm ho fun _ _ => rfl
      refine hc.trans ?_
      rw [← onLine_putAt hd]
      refine cacheStep_putL1 (line := line) hc.ok ((length_store { l with dirty := 0#64 } k d).trans hl) fun j hj => ?_
      rw [Line.over_store { l with dirty := 0#64 } hl hd hj, Line.over_clean rfl, homeByte_eq,
        overTable_none (by rw [hu.l1, hj]; exact h)]

end Caches

end Sys2Proof.Machine

/-!
# Releases, and thread stores in order

Caches written back whole, and the newest thread store that writes a byte.
-/

namespace Sys2Proof.Machine

open Sys2Proof

/-! ## Caches written back whole -/

/-- No line of a table holds a store. -/
def CleanTable (t : Sparse Line) : Prop := ∀ line l, sfind t line = some l → l.dirty = 0#64

/-- Neither the L1 of a core nor its slice holds a store. -/
def AllClean (s : State) (c : Nat) : Prop := CleanTable (getCore s c).l1 ∧ CleanTable (sliceOf s c)

theorem cleanTable_cleaned (t : Sparse Line) : CleanTable (cleaned t) := by
  intro line l h
  obtain ⟨e, -, he⟩ := List.mem_map.mp (mem_of_sfind h)
  rw [← (Prod.mk.inj he).2]

theorem CleanTable.serase {t : Sparse Line} (h : CleanTable t) (line : Nat) : CleanTable (serase t line) :=
  fun j l hl => h j l (sfind_serase_some hl)

theorem CleanTable.over {t : Sparse Line} (h : CleanTable t) (k : Nat) (b : Byte) : overTable t k b = b := by
  cases hf : sfind t (k / 64) with
  | none => exact overTable_none hf b
  | some l => rw [overTable_some hf, Line.over_clean (h _ _ hf)]

theorem sfind_of_rising {α : Type} {t : Sparse α} {n j : Nat} (h : risingFrom n t = true) (hj : j < n) : sfind t j = none := by
  induction t generalizing n with
  | nil => rfl
  | cons e r ih =>
    obtain ⟨k, x⟩ := e
    simp only [risingFrom, Bool.and_eq_true, decide_eq_true_eq] at h
    rw [sfind, if_neg (by omega)]
    exact ih h.2 (by omega)

theorem overTable_cons {line : Nat} {l : Line} {r : Sparse Line} (h : risingFrom (line + 1) r = true) (k : Nat) (b : Byte) :
    overTable ((line, l) :: r) k b = overTable r k (onLine line l.over k b) := by
  by_cases hk : k / 64 = line
  · rw [overTable_some (l := l) (by rw [sfind, if_pos hk.symm]), onLine, if_pos hk,
      overTable_none (sfind_of_rising h (by omega))]
  · rw [onLine, if_neg hk, overTable, sfind, if_neg (Ne.symm hk), overTable]

section Flush

variable {s t : State} {c : Nat}

/-- The lines of a table, each once and whole, put below one after the other lie over what was there. -/
theorem sliceStep_foldl_putBelow (ls : Sparse Line) {n : Nat} (hr : risingFrom n ls = true) (hl : ∀ e ∈ ls, e.2.data.length = 64)
    (hs : linesOk (sliceOf s c)) : SliceStep s (ls.foldl (fun s e => putBelow s (partOf c) e.1 e.2) s) c (overTable ls) := by
  induction ls generalizing s n with
  | nil => exact .refl hs
  | cons e r ih =>
    obtain ⟨line, l⟩ := e
    simp only [risingFrom, Bool.and_eq_true] at hr
    have h := sliceStep_putBelow (line := line) (l := l) hs (hl (line, l) List.mem_cons_self)
    refine (h.trans (ih hr.2 (fun e he => hl e (List.mem_cons_of_mem _ he)) h.slice)).congr fun k => ?_
    exact (overTable_cons hr.2 k _).symm

theorem memByte_foldl_writeBack (ls : Sparse Line) {n : Nat} (hr : risingFrom n ls = true) (hl : ∀ e ∈ ls, e.2.data.length = 64) (k : Nat) :
    memByte (ls.foldl (fun s e => writeBack s e.1 e.2) s) k = overTable ls k (memByte s k) := by
  induction ls generalizing s n with
  | nil => rfl
  | cons e r ih =>
    obtain ⟨line, l⟩ := e
    simp only [risingFrom, Bool.and_eq_true] at hr
    rw [List.foldl_cons, ih hr.2 (fun e he => hl e (List.mem_cons_of_mem _ he)), memByte_writeBack s line (hl (line, l) List.mem_cons_self),
      overTable_cons hr.2]
    rfl

theorem cacheStep_flushCore (ho : CachesOk s c) : CacheStep s (flushCore s c) c (fun _ b => b) ∧ CleanTable (getCore (flushCore s c) c).l1 := by
  have h := sliceStep_foldl_putBelow _ ho.1.1 ho.1.2 ho.2
  have h1 : (getCore (flushCore s c) c).l1 = cleaned (getCore s c).l1 := by
    rw [flushCore, getCore_onCore_self]; exact congrArg cleaned h.l1
  have hc : CleanTable (getCore (flushCore s c) c).l1 := h1 ▸ cleanTable_cleaned _
  refine ⟨⟨linesMoved_flushCore s c, ⟨h1 ▸ linesOk_cleaned ho.1, h.slice⟩, fun k => ?_⟩, hc⟩
  rw [homeByte_eq, hc.over, homeByte_eq]
  exact h.low k

theorem onlyMem_foldl_writeBack (ls : Sparse Line) (s : State) : OnlyMem s (ls.foldl (fun s e => writeBack s e.1 e.2) s) :=
  OnlyMem.foldl (fun _ _ => onlyMem_writeBack _ _ _) s

theorem l1_flushPart (s : State) (p c : Nat) : (getCore (flushPart s p) c).l1 = (getCore s c).l1 := (onlyMem_foldl_writeBack _ s).l1 c

theorem cacheStep_flushPart (ho : CachesOk s c) :
    CacheStep s (flushPart s (partOf c)) c (fun _ b => b) ∧ CleanTable (sliceOf (flushPart s (partOf c)) c) := by
  have h1 : sliceOf (flushPart s (partOf c)) c = cleaned (sliceOf s c) := by
    rw [flushPart, sliceOf_onPart (f := cleaned)]
    exact congrArg cleaned ((onlyMem_foldl_writeBack _ s).sliceOf c)
  have hc : CleanTable (sliceOf (flushPart s (partOf c)) c) := h1 ▸ cleanTable_cleaned _
  refine ⟨⟨linesMoved_flushPart s c, ⟨by rw [l1_flushPart]; exact ho.1, h1 ▸ linesOk_cleaned ho.2⟩, fun k => ?_⟩, hc⟩
  rw [homeByte_eq, l1_flushPart, lowByte_eq, hc.over, homeByte_eq, lowByte_eq]
  exact congrArg (overTable _ k) (memByte_foldl_writeBack _ ho.2.1 ho.2.2 k)

theorem cacheStep_flushL1 (ho : CachesOk s c) : CacheStep s (flushL1 s c) c (fun _ b => b) ∧ AllClean (flushL1 s c) c := by
  obtain ⟨h1, c1⟩ := cacheStep_flushCore ho
  obtain ⟨h2, c2⟩ := cacheStep_flushPart h1.ok
  exact ⟨h1.trans h2, by rw [flushL1, l1_flushPart]; exact c1, c2⟩

theorem cacheStep_releaseAt (ho : CachesOk s c) (sc : Scope) :
    CacheStep s (releaseAt s c sc) c (fun _ b => b) ∧ (beyond sc = true → AllClean (releaseAt s c sc) c) := by
  unfold releaseAt
  split
  · exact ⟨(cacheStep_flushL1 ho).1, fun _ => (cacheStep_flushL1 ho).2⟩
  · rename_i hb
    refine ⟨?_, fun h => absurd h hb⟩
    split
    · exact (cacheStep_flushCore ho).1
    · exact .refl ho

/-! ## Caches that hold no store -/

/-- Where no line holds a store, memory is as the core stored it. -/
theorem AllClean.memByte (h : AllClean s c) (k : Nat) : memByte s k = homeByte s c k := by
  rw [homeByte_eq, h.1.over, lowByte_eq, h.2.over]

theorem AllClean.leaveL1 (h : AllClean s c) (line : Nat) : AllClean (leaveL1 s c line) c := by
  unfold Machine.leaveL1
  split
  · rename_i l hl
    rw [putBelow, if_pos (h.1 _ _ hl)]
    exact ⟨by rw [getCore_onCore_self]; exact h.1.serase line, h.2⟩
  · exact h

theorem AllClean.dropSlice (h : AllClean s c) (line : Nat) : AllClean (dropSlice s (partOf c) line) c := by
  refine ⟨by rw [getCore_dropSlice]; exact h.1, ?_⟩
  rcases sliceOf_dropSlice s c line with e | ⟨-, e⟩
  · rw [e]; exact h.2.serase line
  · rw [e]; exact h.2

theorem AllClean.storeMemory (h : AllClean s c) (k : Nat) (d : List Byte) : AllClean (storeLine s c k d .memory) c := by
  have hd := (h.leaveL1 (k / 64)).dropSlice (k / 64)
  have hm := onlyMem_writeMem (dropLine s c (k / 64)) k d
  exact ⟨by rw [storeLine, if_pos (by rfl), hm.l1]; exact hd.1, by rw [storeLine, if_pos (by rfl), hm.sliceOf]; exact hd.2⟩

/-! ## Thread stores performed in order -/

/-- The last of some thread stores that writes a byte gives it. -/
theorem newest_cons_getD (x : ThreadStore) (r : List ThreadStore) (k : Nat) (b : Byte) :
    (newest (x :: r) k).getD b = (newest r k).getD (putAt x.key x.data k b) := by
  unfold newest
  rw [List.reverse_cons, List.find?_append]
  cases hf : r.reverse.find? (fun x => decide (x.key ≤ k) && decide (k < x.key + x.data.length)) with
  | some y =>
    have hy := List.find?_some hf
    simp only [Bool.and_eq_true, decide_eq_true_eq] at hy
    simp only [Option.some_or, Option.bind_some, List.getElem?_eq_getElem (show k - y.key < y.data.length by omega), Option.getD_some]
  | none =>
    simp only [Option.none_or, List.find?_singleton, putAt, Option.bind_none, Option.getD_none]
    by_cases hx : x.key ≤ k ∧ k < x.key + x.data.length
    · simp [hx, show k - x.key < x.data.length by omega]
    · simp only [Bool.and_eq_true, decide_eq_true_eq, hx, if_false, Option.bind_none, Option.getD_none]

theorem wholeStore_line {x : ThreadStore} (h : wholeStore false x) : x.key % 64 + x.data.length ≤ 64 := by
  obtain ⟨-, -, hl, ha⟩ := h
  simp only [List.mem_cons, List.not_mem_nil, or_false] at hl
  rcases hl with hl | hl | hl | hl <;> rw [hl] at ha ⊢ <;> omega

/-- A launch whose writes are not staged. -/
def unstaged (s : State) (serial : Option Nat) : Prop := ∀ l, serial.bind (getLaunch s) = some l → staging l = false

theorem unstaged_of_launches {serial : Option Nat} (h : unstaged s serial) (he : t.launches = s.launches) : unstaged t serial := by
  have : getLaunch t = getLaunch s := by funext n; rw [getLaunch, he]; rfl
  unfold unstaged; rw [this]; exact h

theorem performThread_whole {serial : Option Nat} {dp : Depth} {x : ThreadStore} (hx : wholeStore false x) (hu : unstaged s serial) :
    performThread s c serial dp x = storeLine s c x.key x.data dp := by
  obtain ⟨hc, hb, -, -⟩ := hx
  rw [performThread, if_neg (by rw [hc]; decide), if_neg (by rw [hb]; decide), storeGlobal, writeFor]
  split
  · rfl
  · rename_i l h
    rw [if_neg (by rw [hu l h]; decide)]

theorem cacheStep_performThreads {serial : Option Nat} {dp : Depth} (ws : List ThreadStore) (hw : ∀ x ∈ ws, wholeStore false x)
    (hu : unstaged s serial) (ho : CachesOk s c) :
    CacheStep s (ws.foldl (fun s x => performThread s c serial dp x) s) c (fun k b => (newest ws k).getD b) ∧
      (dp = .memory → AllClean s c → AllClean (ws.foldl (fun s x => performThread s c serial dp x) s) c) := by
  induction ws generalizing s with
  | nil => exact ⟨.refl ho, fun _ h => h⟩
  | cons x r ih =>
    have hx := hw x List.mem_cons_self
    have h := cacheStep_storeLine (wholeStore_line hx) ho dp
    obtain ⟨hr, hc⟩ := ih (fun y hy => hw y (List.mem_cons_of_mem _ hy)) (unstaged_of_launches hu h.moved.launches) h.ok
    rw [List.foldl_cons, performThread_whole hx hu]
    refine ⟨(h.trans hr).congr fun k => (newest_cons_getD x r k _).symm, fun hd ha => hc hd ?_⟩
    subst hd
    exact ha.storeMemory _ _

/-- The thread stores of a store instruction performed in the caches, those of a release at .tn or wider in memory. -/
theorem cacheStep_performStore {serial : Option Nat} {r : StoreReq} (hw : ∀ x ∈ r.writes, wholeStore false x) (hu : unstaged s serial)
    (ho : CachesOk s c) : CacheStep s (performStore s c serial r) c (fun k b => (newest r.writes k).getD b) ∧
      ∀ sc, r.rel = some sc → beyond sc = true → AllClean (performStore s c serial r) c := by
  unfold performStore
  cases hr : r.rel with
  | none => exact ⟨(cacheStep_performThreads _ hw hu ho).1, fun _ h => by cases h⟩
  | some sc =>
    obtain ⟨h, hc⟩ := cacheStep_releaseAt ho sc
    obtain ⟨h2, hc2⟩ := cacheStep_performThreads (dp := depthOf r) _ hw (unstaged_of_launches hu h.moved.launches) h.ok
    refine ⟨h.trans h2, fun x hx hb => ?_⟩
    obtain rfl := Option.some.inj hx
    exact hc2 (by simp only [depthOf, hr, hb, if_true]) (hc hb)

end Flush

end Sys2Proof.Machine

/-!
# The oldest store of a queue, and a line that leaves an L1

An agent's queue shortened, then a step of the caches.
-/

namespace Sys2Proof.Machine

open Sys2Proof

/-! ## The store queue of an agent -/

/-- A core with another store queue for one of its agents. -/
def Core.withQueue (x : Core) (a : Agent) (q : List StoreReq) : Core :=
  match a with
  | .weave _ k => { x with weaves := ((sfind x.weaves k).map (fun w => sput x.weaves k { w with storeq := q })).getD x.weaves }
  | .steer _ k =>
    { x with insts := ((sfind x.insts k).map (fun i => sput x.insts k { i with steer := { i.steer with storeq := q } })).getD x.insts }
  | .handler _ => { x with handler := { x.handler with storeq := q } }

section Queue

variable {s t u : State} {a : Agent} {q : List StoreReq}

theorem setQueue_eq (h : queueOf s a ≠ []) (q : List StoreReq) :
    setQueue s a q = putCore s (coreOf a) ((getCore s (coreOf a)).withQueue a q) := by
  cases a with
  | weave c k =>
    simp only [queueOf] at h
    split at h
    · rename_i w hw
      rw [setQueue, onWeave_some hw, putWeave, onCore, Core.withQueue]
      rw [getWeave] at hw
      rw [coreOf, hw]; rfl
    · exact absurd rfl h
  | steer c k =>
    simp only [queueOf] at h
    split at h
    · rename_i i hi
      rw [setQueue, onInst_some hi, putInst, onCore, Core.withQueue]
      rw [getInst] at hi
      rw [coreOf, hi]; rfl
    · exact absurd rfl h
  | handler c => rfl

theorem queueOf_setQueue (h : queueOf s a ≠ []) (q : List StoreReq) : queueOf (setQueue s a q) a = q := by
  cases a with
  | weave c k =>
    simp only [queueOf] at h
    split at h
    · rename_i w hw
      rw [setQueue, onWeave_some hw, queueOf, getWeave_putWeave_self]
    · exact absurd rfl h
  | steer c k =>
    simp only [queueOf] at h
    split at h
    · rename_i i hi
      rw [setQueue, onInst_some hi, queueOf, getInst_putInst_self]
    · exact absurd rfl h
  | handler c => simp only [setQueue, queueOf, getCore_onCore_self]

theorem quiet_withQueue (x : Core) (a : Agent) (q : List StoreReq) : (x.withQueue a q).quiet = x.quiet := by
  cases a <;> rfl

theorem l1_withQueue (x : Core) (a : Agent) (q : List StoreReq) : (x.withQueue a q).l1 = x.l1 := by
  cases a <;> rfl

theorem keptAgent_setQueue (h : queueOf s a ≠ []) (q : List StoreReq) : KeptAgent s (setQueue s a q) a := by
  cases a with
  | weave c k =>
    simp only [queueOf] at h
    split at h
    · rename_i w hw
      rw [setQueue, onWeave_some hw]
      exact ⟨w, _, hw, getWeave_putWeave_self _ _ _ _, rfl⟩
    · exact absurd rfl h
  | steer c k =>
    simp only [queueOf] at h
    split at h
    · rename_i i hi
      rw [setQueue, onInst_some hi]
      exact ⟨i, _, hi, getInst_putInst_self _ _ _ _, rfl, rfl⟩
    · exact absurd rfl h
  | handler c => simp only [KeptAgent, setQueue, getCore_onCore_self]; rfl

theorem sfind_weaves_withQueue (x : Core) (a : Agent) (q : List StoreReq) {c j : Nat} (h : a ≠ .weave c j) (hc : coreOf a = c) :
    sfind (x.withQueue a q).weaves j = sfind x.weaves j := by
  cases a with
  | weave d k =>
    have hj : j ≠ k := fun e => h (by rw [e, ← hc]; rfl)
    simp only [Core.withQueue]
    cases sfind x.weaves k with
    | none => rfl
    | some w => exact sfind_sput_ne _ _ hj
  | steer d k => rfl
  | handler d => rfl

theorem sfind_insts_withQueue (x : Core) (a : Agent) (q : List StoreReq) {c j : Nat} (h : a ≠ .steer c j) (hc : coreOf a = c) :
    sfind (x.withQueue a q).insts j = sfind x.insts j := by
  cases a with
  | weave d k => rfl
  | steer d k =>
    have hj : j ≠ k := fun e => h (by rw [e, ← hc]; rfl)
    simp only [Core.withQueue]
    cases sfind x.insts k with
    | none => rfl
    | some i => exact sfind_sput_ne _ _ hj
  | handler d => rfl

theorem handler_withQueue (x : Core) (a : Agent) (q : List StoreReq) (h : a ≠ .handler (coreOf a)) : (x.withQueue a q).handler = x.handler := by
  cases a with
  | weave d k => rfl
  | steer d k => rfl
  | handler d => exact absurd rfl h

theorem accessed_setQueue (h : queueOf s a ≠ []) (q : List StoreReq) : Accessed s (setQueue s a q) a still := by
  rw [setQueue_eq h]
  refine ⟨rfl, fun _ => rfl, fun _ _ => rfl, fun d hd => getCore_putCore_ne _ _ hd, ?_, fun j hj => ?_, fun j hj => ?_, fun hh => ?_, fun k => ?_⟩
  · rw [getCore_putCore_self, quiet_withQueue]
  · rw [getWeave, getCore_putCore_self, sfind_weaves_withQueue _ _ _ hj rfl]; rfl
  · rw [getInst, getCore_putCore_self, sfind_insts_withQueue _ _ _ hj rfl]; rfl
  · rw [getCore_putCore_self, handler_withQueue _ _ _ hh]
  · rw [homeByte_eq, getCore_putCore_self, l1_withQueue, homeByte_eq]; rfl

/-! ## A step of the caches as an access of an agent -/

theorem LinesMoved.keptAgent (h : LinesMoved t u (coreOf a)) (k : KeptAgent s t a) : KeptAgent s u a := by
  cases a with
  | weave c j => obtain ⟨w, w', h1, h2, h3⟩ := k; exact ⟨w, w', h1, (h.weaves j).trans h2, h3⟩
  | steer c j => obtain ⟨w, w', h1, h2, h3⟩ := k; exact ⟨w, w', h1, (h.insts j).trans h2, h3⟩
  | handler c =>
    have hh : (getCore u c).handler = (getCore t c).handler := (congrArg Core.handler h.core :)
    simp only [KeptAgent] at k ⊢
    rw [hh]; exact k

theorem LinesMoved.queueOf (h : LinesMoved t u (coreOf a)) : queueOf u a = queueOf t a := by
  cases a with
  | weave c j => simp only [Machine.queueOf, show getWeave u c j = getWeave t c j from h.weaves j]
  | steer c j => simp only [Machine.queueOf, show getInst u c j = getInst t c j from h.insts j]
  | handler c => exact (congrArg (fun x => x.handler.storeq) h.core :)

theorem Accessed.cacheStep {f : Nat → Byte → Byte} {put : Nat → Option Byte} (h : Accessed s t a still) (g : CacheStep t u (coreOf a) f)
    (hf : ∀ k b, f k b = (put k).getD b) : Accessed s u a put where
  rest := (congrArg (fun x : State => { x with marks := [], seq := 0 }) g.moved.rest).trans h.rest
  parts p := (congrArg (fun x : Part => { x with tlb2 := [], traces := [] }) (g.moved.parts p)).trans (h.parts p)
  slices p hp := (g.moved.slices p hp).trans (h.slices p hp)
  cores d hd := (g.moved.others d hd).trans (h.cores d hd)
  core := (congrArg Core.quiet g.moved.core).trans h.core
  weaves j hj := (g.moved.weaves j).trans (h.weaves j hj)
  insts j hj := (g.moved.insts j).trans (h.insts j hj)
  handler hh := (congrArg Core.handler g.moved.core :).trans (h.handler hh)
  bytes k := by rw [g.home, hf, h.bytes]; rfl

theorem Accessed.refl (s : State) (a : Agent) : Accessed s s a still :=
  ⟨rfl, fun _ => rfl, fun _ _ => rfl, fun _ _ => rfl, rfl, fun _ _ => rfl, fun _ _ => rfl, fun _ => rfl, fun _ => rfl⟩

/-! ## The oldest store leaves its queue -/

theorem serial_of_getLaunch {n : Nat} {l : Launch} (h : getLaunch s n = some l) : l.serial = n := by
  simpa using List.find?_some h

theorem agentLaunch_serial {l : Launch} (h : agentLaunch s a = some l) : getLaunch s l.serial = some l := by
  simp only [agentLaunch] at h
  split at h
  · split at h
    · rw [serial_of_getLaunch h]; exact h
    · cases h
  · cases h

theorem unstaged_of_direct (h : direct s a) : unstaged s (stageOf s a) := by
  intro l hl
  have hs : ∀ {n}, n = serialOf s a → n.bind (getLaunch s) = some l → staging l = false := fun hn hb => by
    subst hn
    obtain ⟨n, hn, hg⟩ := Option.bind_eq_some_iff.mp hb
    obtain ⟨m, hm, rfl⟩ := Option.map_eq_some_iff.mp hn
    obtain rfl := Option.some.inj ((agentLaunch_serial hm).symm.trans hg)
    exact (h m hm).1
  cases a with
  | weave c k => exact hs rfl hl
  | steer c k => exact hs rfl hl
  | handler c => cases hl

theorem drainOne_cons {r : StoreReq} {rest : List StoreReq} (h : queueOf s a = r :: rest) :
    drainOne s a = performStore (setQueue s a rest) (coreOf a) (stageOf s a) r := by
  simp only [drainOne, h]

theorem launches_setQueue (s : State) (a : Agent) (q : List StoreReq) : (setQueue s a q).launches = s.launches := by
  cases a with
  | weave c k => simp only [setQueue, onWeave]; split <;> rfl
  | steer c k => simp only [setQueue, onInst]; split <;> rfl
  | handler c => rfl

theorem cachesOk_setQueue (h : queueOf s a ≠ []) (q : List StoreReq) (ho : CachesOk s (coreOf a)) : CachesOk (setQueue s a q) (coreOf a) := by
  rw [setQueue_eq h]
  exact ⟨by rw [getCore_putCore_self, l1_withQueue]; exact ho.1, ho.2⟩

/-- The oldest store of a queue to global memory takes place in its core's caches, a release at .tn or wider in memory. -/
theorem exec_storeQueueDrain_global {r : StoreReq} {rest : List StoreReq} (hq : queueOf s a = r :: rest)
    (hw : ∀ x ∈ r.writes, wholeStore false x) (ho : CachesOk s (coreOf a)) (hd : direct s a) :
    ∃ t, exec (.storeQueueDrain a) s = .next t ∧ queueOf t a = rest ∧ Accessed s t a (newest r.writes) ∧ KeptAgent s t a ∧
      ∀ sc, r.rel = some sc → beyond sc = true → ∀ j, memByte t j = (newest r.writes j).getD (homeByte s (coreOf a) j) := by
  have hn : queueOf s a ≠ [] := by rw [hq]; exact List.cons_ne_nil _ _
  have hu := unstaged_of_launches (unstaged_of_direct hd) (launches_setQueue s a rest)
  have ha := accessed_setQueue hn rest
  obtain ⟨h, hc⟩ := cacheStep_performStore hw hu (cachesOk_setQueue hn rest ho)
  have hx : exec (.storeQueueDrain a) s = .next (performStore (setQueue s a rest) (coreOf a) (stageOf s a) r) := by
    rw [← drainOne_cons hq]; rfl
  refine ⟨_, hx, h.moved.queueOf.trans (queueOf_setQueue hn rest), ha.cacheStep h fun _ _ => rfl, h.moved.keptAgent (keptAgent_setQueue hn rest),
    fun sc hr hb j => ?_⟩
  rw [(hc sc hr hb).memByte, h.home, ha.bytes]
  rfl

/-! ## A line leaves an L1 -/

/-- A line that leaves an L1, whether or not its slice keeps it, leaves every byte as the core stored it. -/
theorem exec_l1Eviction {c : Nat} (ho : CachesOk s c) (line : Nat) :
    ∃ t, exec (.l1Eviction c line) s = .next t ∧ sfind (getCore t c).l1 line = none ∧ ∀ a, coreOf a = c → Accessed s t a still := by
  refine ⟨_, rfl, ?_⟩
  split
  · exact ⟨sfind_leaveL1 ho line, fun a ha => (Accessed.refl s a).cacheStep (ha ▸ cacheStep_leaveL1 ho line) fun _ _ => rfl⟩
  · exact ⟨sfind_dropLine_l1 ho line, fun a ha => (Accessed.refl s a).cacheStep (ha ▸ cacheStep_dropLine ho line) fun _ _ => rfl⟩

end Queue

end Sys2Proof.Machine

/-!
# Stores to circle memory

Bytes, full bits and poison marks after thread stores in order.
-/

namespace Sys2Proof.Machine

open Sys2Proof

/-! ## Stores to circle memory -/

theorem sget_putBytes (m : Sparse Byte) (o : Nat) (d : List Byte) (j : Nat) : sget 0#8 (putBytes m o d) j = putAt o d j (sget 0#8 m j) := by
  induction d generalizing m o with
  | nil => simp [putBytes, putAt]
  | cons b r ih =>
    rw [putBytes, ih, sget_sset]
    unfold putAt
    rw [List.length_cons]
    by_cases hj : j = o
    · subst hj
      rw [if_neg (by omega), if_pos rfl, if_pos (by omega), Nat.sub_self]
      rfl
    · rw [if_neg hj]
      by_cases h : o + 1 ≤ j ∧ j < o + 1 + r.length
      · rw [if_pos h, if_pos (by omega), show j - o = (j - (o + 1)) + 1 by omega]
        rfl
      · rw [if_neg h, if_neg (by omega)]

theorem mem_ninsertAll {l : List Nat} {s : NatSet} {g : Nat} : g ∈ ninsertAll s l ↔ g ∈ s ∨ g ∈ l := by
  induction l generalizing s with
  | nil => simp [ninsertAll]
  | cons x r ih =>
    refine (ih (s := ninsert s x)).trans ?_
    rw [mem_ninsert, List.mem_cons, or_comm (a := g = x), or_assoc]

theorem nmem_iff {s : NatSet} {g : Nat} : nmem s g = true ↔ g ∈ s := List.contains_iff_mem

/-- A core with thread stores made to its circle memory in order. -/
def circleWrites (x : Core) (ws : List ThreadStore) : Core := ws.foldl (fun x y => circleWrite x y.key y.data y.full) x

theorem circleWrites_frame (x : Core) (ws : List ThreadStore) :
    { circleWrites x ws with cmem := x.cmem, cbad := x.cbad, full := x.full } = x := by
  have h : ∀ (ws : List ThreadStore) (y : Core), { circleWrites y ws with cmem := x.cmem, cbad := x.cbad, full := x.full } =
      { y with cmem := x.cmem, cbad := x.cbad, full := x.full } := by
    intro ws
    induction ws with
    | nil => exact fun _ => rfl
    | cons w r ih => exact fun y => ih _
  exact h ws x

theorem sget_circleWrites (x : Core) (ws : List ThreadStore) (o : Nat) :
    sget 0#8 (circleWrites x ws).cmem o = (newest ws o).getD (sget 0#8 x.cmem o) := by
  induction ws generalizing x with
  | nil => rfl
  | cons w r ih =>
    rw [newest_cons_getD, ← sget_putBytes]
    exact ih _

theorem nmem_full_circleWrites (x : Core) (ws : List ThreadStore) (g : Nat) :
    nmem (circleWrites x ws).full g = true ↔ nmem x.full g = true ∨ ∃ y ∈ ws, y.full = true ∧ g ∈ granules y.key y.data.length := by
  induction ws generalizing x with
  | nil => simp [circleWrites]
  | cons w r ih =>
    have h : nmem (circleWrite x w.key w.data w.full).full g = true ↔
        nmem x.full g = true ∨ (w.full = true ∧ g ∈ granules w.key w.data.length) := by
      cases hw : w.full with
      | false => simp [circleWrite]
      | true => simp [circleWrite, nmem_iff, mem_ninsertAll]
    refine (ih _).trans ?_
    rw [h, List.exists_mem_cons_iff, or_assoc]

theorem nmem_cbad_circleWrites (x : Core) (ws : List ThreadStore) (g : Nat) (h : nmem (circleWrites x ws).cbad g = true) :
    nmem x.cbad g = true := by
  induction ws generalizing x with
  | nil => exact h
  | cons w r ih =>
    have := nmem_iff.mp (ih _ h)
    exact nmem_iff.mpr (List.mem_of_mem_filter this)

theorem circleWrites_withQueue (x : Core) (a : Agent) (q : List StoreReq) (ws : List ThreadStore) :
    circleWrites (x.withQueue a q) ws = (circleWrites x ws).withQueue a q := by
  induction ws generalizing x with
  | nil => rfl
  | cons w r ih =>
    have h : circleWrite (x.withQueue a q) w.key w.data w.full = (circleWrite x w.key w.data w.full).withQueue a q := by
      cases a <;> rfl
    rw [circleWrites, List.foldl_cons, h]
    exact ih _

section Circle

variable {s : State} {a : Agent}

theorem foldl_performThread_circle {c : Nat} {serial : Option Nat} {dp : Depth} (ws : List ThreadStore) (hw : ∀ x ∈ ws, x.circle = true) (x : Core) :
    ws.foldl (fun s y => performThread s c serial dp y) (putCore s c x) = putCore s c (circleWrites x ws) := by
  induction ws generalizing x with
  | nil => rfl
  | cons w r ih =>
    rw [List.foldl_cons, performThread, if_pos (hw w List.mem_cons_self), onCore, getCore_putCore_self, putCore_putCore]
    exact ih (fun y hy => hw y (List.mem_cons_of_mem _ hy)) _

theorem queueOf_circleWrites (s : State) (a : Agent) (ws : List ThreadStore) :
    queueOf (putCore s (coreOf a) (circleWrites (getCore s (coreOf a)) ws)) a = queueOf s a := by
  have h := circleWrites_frame (getCore s (coreOf a)) ws
  cases a with
  | weave c k =>
    simp only [queueOf, getWeave, coreOf, getCore_putCore_self]
    rw [show (circleWrites (getCore s c) ws).weaves = (getCore s c).weaves from (congrArg Core.weaves h :)]
  | steer c k =>
    simp only [queueOf, getInst, coreOf, getCore_putCore_self]
    rw [show (circleWrites (getCore s c) ws).insts = (getCore s c).insts from (congrArg Core.insts h :)]
  | handler c =>
    simp only [queueOf, coreOf, getCore_putCore_self]
    rw [show (circleWrites (getCore s c) ws).handler = (getCore s c).handler from (congrArg Core.handler h :)]

/-- The oldest store of a queue to circle memory takes place there, its full bits with it. -/
theorem exec_storeQueueDrain_circle {r : StoreReq} {rest : List StoreReq} (hq : queueOf s a = r :: rest) (hw : ∀ x ∈ r.writes, wholeStore true x)
    (hr : r.rel = none) :
    ∃ t x, exec (.storeQueueDrain a) s = .next t ∧ t = setQueue (putCore s (coreOf a) x) a rest ∧
      { x with cmem := (getCore s (coreOf a)).cmem, cbad := (getCore s (coreOf a)).cbad, full := (getCore s (coreOf a)).full } = getCore s (coreOf a) ∧
      (∀ o, sget 0#8 x.cmem o = (newest r.writes o).getD (sget 0#8 (getCore s (coreOf a)).cmem o)) ∧
      (∀ g, nmem x.full g = true ↔ nmem (getCore s (coreOf a)).full g = true ∨
        ∃ y ∈ r.writes, y.full = true ∧ g ∈ granules y.key y.data.length) ∧
      ∀ g, nmem x.cbad g = true → nmem (getCore s (coreOf a)).cbad g = true := by
  have hn : queueOf s a ≠ [] := by rw [hq]; exact List.cons_ne_nil _ _
  refine ⟨_, circleWrites (getCore s (coreOf a)) r.writes, rfl, ?_, circleWrites_frame _ _, sget_circleWrites _ _, nmem_full_circleWrites _ _,
    nmem_cbad_circleWrites _ _⟩
  rw [drainOne_cons hq, performStore, hr, setQueue_eq hn, setQueue_eq (by rw [queueOf_circleWrites]; exact hn), getCore_putCore_self,
    putCore_putCore, ← circleWrites_withQueue]
  exact foldl_performThread_circle r.writes (fun x hx => (hw x hx).1) _

end Circle

end Sys2Proof.Machine

/-!
# Results that arrive, and the end of a serial epoch

The registers that a result names, and the rest of the obligation about arrivals.
-/

namespace Sys2Proof.Machine

open Sys2Proof

/-! ## The registers that an arriving result writes (R62) -/

theorem latest_cons_getD {α : Type} (e : Nat × α) (l : List (Nat × α)) (i : Nat) (b : α) :
    (latest (e :: l) i).getD b = (latest l i).getD (if i = e.1 then e.2 else b) := by
  simp only [latest, List.reverse_cons, List.find?_append]
  cases l.reverse.find? (fun e => e.1 == i) with
  | some x => rfl
  | none =>
    by_cases h : i = e.1
    · simp [h]
    · simp [h, Ne.symm h]

/-- A weave with a vector register written under the key of its thread and number. -/
def writeVKey (w : Weave) (e : Nat × Word) : Weave := writeV w (e.1 % 32) (e.1 / 32) e.2

/-- A weave with a predicate written under the key of its thread and number. -/
def writePKey (w : Weave) (e : Nat × Bool) : Weave := writeP w (e.1 % 32) (e.1 / 32) e.2

/-- A file with uniform registers written in order. -/
def writeAllS (f : UFile) (l : List (Nat × Word)) : UFile := l.foldl (fun f e => writeS f e.1 e.2) f

theorem applyResult_eq (w : Weave) (r : Result) : applyResult w r =
    { r.p.foldl writePKey (r.v.foldl writeVKey w) with
      s := (writeAllS (weaveFile (r.p.foldl writePKey (r.v.foldl writeVKey w))) r.u).s
      sbad := (writeAllS (weaveFile (r.p.foldl writePKey (r.v.foldl writeVKey w))) r.u).bad } := rfl

theorem readV_writeVKeys (l : List (Nat × Word)) (w : Weave) {u : Nat} (hu : u < 32) (n : Nat) :
    readV (l.foldl writeVKey w) u n = (latest l (32 * n + u)).getD (readV w u n) := by
  induction l generalizing w with
  | nil => rfl
  | cons e r ih =>
    rw [List.foldl_cons, ih, latest_cons_getD, writeVKey, readV_writeV _ _ _ _ (Nat.mod_lt _ (by decide)) hu]
    exact congrArg _ (if_congr (by omega) rfl rfl)

theorem readP_writePKeys (l : List (Nat × Bool)) (w : Weave) {u p : Nat} (hu : u < 32) (hp : p ≠ 7) :
    readP (l.foldl writePKey w) u p = (latest l (32 * p + u)).getD (readP w u p) := by
  induction l generalizing w with
  | nil => rfl
  | cons e r ih =>
    rw [List.foldl_cons, ih, latest_cons_getD, writePKey, readP_writeP_any _ _ _ _ (Nat.mod_lt _ (by decide)) hu]
    exact congrArg _ (if_congr (by omega) rfl rfl)

theorem readV_writePKeys (l : List (Nat × Bool)) (w : Weave) (u n : Nat) : readV (l.foldl writePKey w) u n = readV w u n := by
  induction l generalizing w with
  | nil => rfl
  | cons e r ih => exact (ih _).trans (readV_writeP _ _ _ _ _ _)

theorem readP_writeVKeys (l : List (Nat × Word)) (w : Weave) (u p : Nat) : readP (l.foldl writeVKey w) u p = readP w u p := by
  induction l generalizing w with
  | nil => rfl
  | cons e r ih => exact (ih _).trans (readP_writeV _ _ _ _ _ _)

theorem readS_writeAllS (l : List (Nat × Word)) (f : UFile) (n : Nat) : readS (writeAllS f l) n = (latest l n).getD (readS f n) := by
  induction l generalizing f with
  | nil => rfl
  | cons e r ih => rw [latest_cons_getD, ← readS_writeS]; exact ih _

theorem weaveFile_writeVKeys (l : List (Nat × Word)) (w : Weave) : weaveFile (l.foldl writeVKey w) = weaveFile w := by
  induction l generalizing w with
  | nil => rfl
  | cons e r ih => exact ih _

theorem weaveFile_writePKeys (l : List (Nat × Bool)) (w : Weave) : weaveFile (l.foldl writePKey w) = weaveFile w := by
  induction l generalizing w with
  | nil => rfl
  | cons e r ih => exact (ih _).trans (by unfold writePKey writeP; split <;> rfl)

/-! ### Results still on their way -/

/-- A weave with other results on their way. -/
def Weave.awaits (w : Weave) (l : List Result) : Weave := { w with inflight := l }

theorem foldl_awaits {α : Type} {f : Weave → α → Weave} {q : List Result} (hf : ∀ w x, f (w.awaits q) x = (f w x).awaits q) (l : List α) (w : Weave) :
    l.foldl f (w.awaits q) = (l.foldl f w).awaits q := by
  induction l generalizing w with
  | nil => rfl
  | cons x r ih => rw [List.foldl_cons, hf, ih]; rfl

theorem applyResult_awaits (w : Weave) (q : List Result) (r : Result) : applyResult (w.awaits q) r = (applyResult w r).awaits q := by
  have hv := foldl_awaits (f := writeVKey) (q := q) (fun _ _ => rfl) r.v w
  have hp := foldl_awaits (f := writePKey) (q := q) (fun w e => by unfold writePKey writeP; split <;> rfl) r.p (r.v.foldl writeVKey w)
  rw [applyResult_eq, hv, hp]; rfl

theorem commitWeave_arrived {w : Weave} {r : Result} {rest : List Result} (h : w.inflight = r :: rest) :
    commitWeave ((applyResult w r).awaits rest) = commitWeave w := by
  have := foldl_awaits (f := applyResult) (fun w r => applyResult_awaits w rest r) rest (applyResult w r)
  simp only [commitWeave, h, List.foldl_cons]
  rw [show ((applyResult w r).awaits rest).inflight = rest from rfl, this]
  rfl

section Arrive

variable {s : State} {r : Result} {rest : List Result} {c k : Nat}

theorem exec_memoryResultArrive_weave {w : Weave} (hw : getWeave s c k = some w) (h : w.inflight = r :: rest) :
    ∃ w', exec (.memoryResultArrive (.weave c k)) s = .next (putWeave s c k w') ∧ w'.inflight = rest ∧ commitWeave w' = commitWeave w ∧
      { w' with v := w.v, vbad := w.vbad, preds := w.preds, s := w.s, sbad := w.sbad, inflight := w.inflight } = w ∧
      (∀ u n, u < 32 → readV w' u n = (latest r.v (32 * n + u)).getD (readV w u n)) ∧
      (∀ u p, u < 32 → p ≠ 7 → readP w' u p = (latest r.p (32 * p + u)).getD (readP w u p)) ∧
      ∀ n, readS (weaveFile w') n = (latest r.u n).getD (readS (weaveFile w) n) := by
  have hx : exec (.memoryResultArrive (.weave c k)) s = .next (putWeave s c k ((applyResult w r).awaits rest)) := by
    change execMemoryResultArrive (.weave c k) s = _
    simp only [execMemoryResultArrive, onWeave_some hw, h]
    rfl
  refine ⟨_, hx, rfl, commitWeave_arrived h, ?_, fun u n hu => ?_, fun u p hu hp => ?_, fun n => ?_⟩
  · exact congrArg (fun x : Weave => { x with v := w.v, vbad := w.vbad, preds := w.preds, s := w.s, sbad := w.sbad, inflight := w.inflight })
      (applyResult_fixed w r)
  · exact (readV_writePKeys r.p _ u n).trans (readV_writeVKeys r.v w hu n)
  · exact (readP_writePKeys r.p _ hu hp).trans (congrArg _ (readP_writeVKeys r.v w u p))
  · have hf : weaveFile (r.p.foldl writePKey (r.v.foldl writeVKey w)) = weaveFile w := by rw [weaveFile_writePKeys, weaveFile_writeVKeys]
    rw [← hf]
    exact readS_writeAllS r.u _ n

theorem exec_memoryResultArrive_steer {i : Inst} (hi : getInst s c k = some i) (h : i.steer.inflight = r :: rest) :
    ∃ i', exec (.memoryResultArrive (.steer c k)) s = .next (putInst s c k i') ∧ { i' with steer := i.steer } = i ∧
      { i'.steer with s := i.steer.s, sbad := i.steer.sbad, inflight := r :: i'.steer.inflight } = { i.steer with inflight := r :: rest } ∧
      ∀ n, readS (steerFile i'.steer) n = (latest r.u n).getD (readS (steerFile i.steer) n) := by
  have hx : exec (.memoryResultArrive (.steer c k)) s = .next (putInst s c k { i with steer := { i.steer with
      s := (writeAllS (steerFile i.steer) r.u).s, sbad := (writeAllS (steerFile i.steer) r.u).bad, inflight := rest } }) := by
    change execMemoryResultArrive (.steer c k) s = _
    simp only [execMemoryResultArrive, onInst_some hi, h]
    rfl
  exact ⟨_, hx, rfl, rfl, readS_writeAllS r.u _⟩

theorem exec_memoryResultArrive_handler (h : (getCore s c).handler.inflight = r :: rest) :
    ∃ y, exec (.memoryResultArrive (.handler c)) s = .next (onCore s c (fun x => { x with handler := y })) ∧
      { y with s := (getCore s c).handler.s, sbad := (getCore s c).handler.sbad, inflight := r :: y.inflight } = (getCore s c).handler ∧
      ∀ n, readS (handlerFile y) n = (latest r.u n).getD (readS (handlerFile (getCore s c).handler) n) := by
  let f := writeAllS (handlerFile (getCore s c).handler) r.u
  have hx : exec (.memoryResultArrive (.handler c)) s =
      .next (onCore s c (fun x => { x with handler := { (getCore s c).handler with s := f.s, sbad := f.bad, inflight := rest } })) := by
    change execMemoryResultArrive (.handler c) s = _
    simp only [execMemoryResultArrive, onCore, h]
    rfl
  exact ⟨_, hx, by simp only [← h], readS_writeAllS r.u _⟩

/-! ## The end of a serial epoch (R255) -/

theorem exec_valueStoreEpochFlush_end (h : 2 ^ 40 ≤ (getCore s c).nextSerial) :
    ∃ x, exec (.valueStoreEpochFlush c) s = .next (putCore s c x) ∧ x.store = [] ∧ x.nextSerial = 1 ∧
      { x with store := (getCore s c).store, nextSerial := (getCore s c).nextSerial, weaves := [] } = { getCore s c with weaves := [] } ∧
      ∀ k, (sfind x.weaves k).map (fun w => { w with lstat := [] }) =
        (getWeave s c k).map (fun w => { w with vtags := [], stags := [], lstat := [] }) := by
  have hx : exec (.valueStoreEpochFlush c) s = .next (putCore s c (epochFlush (getCore s c))) := by
    change execValueStoreEpochFlush c s = _
    rw [execValueStoreEpochFlush, if_pos h]
    rfl
  refine ⟨_, hx, rfl, rfl, rfl, fun k => ?_⟩
  simp only [epochFlush, getWeave]
  rw [sfind_map _ (fun e => (e.1, countL { e.2 with vtags := [], stags := [] } 5)) fun _ => rfl, Option.map_map]
  rfl

theorem exec_valueStoreEpochFlush_before (h : (getCore s c).nextSerial < 2 ^ 40) : exec (.valueStoreEpochFlush c) s = .next s := by
  change execValueStoreEpochFlush c s = _
  rw [execValueStoreEpochFlush, if_neg (Nat.not_le.mpr h)]

end Arrive

/-- Settles O40: results reach the registers they name, stores their bytes through the caches' moves of lines, and an epoch's end the tags. -/
theorem arrivals : Obligations.Arrivals := by
  unfold Obligations.Arrivals
  refine ⟨⟨fun s r rest c k => ⟨fun w hw h => exec_memoryResultArrive_weave hw h, fun i hi h => exec_memoryResultArrive_steer hi h,
    exec_memoryResultArrive_handler⟩, fun s c line ho => exec_l1Eviction ho line, fun s c => ⟨exec_valueStoreEpochFlush_before, exec_valueStoreEpochFlush_end⟩⟩,
    fun s a r rest hq => ⟨fun hw ho hd => exec_storeQueueDrain_global hq hw ho hd, fun hw hr => ?_⟩⟩
  exact exec_storeQueueDrain_circle hq hw hr

end Sys2Proof.Machine

/-!
# The order of the queue, and the balancer

What is served first, what the age of a node changes, and what a sample of the wales changes.
-/

namespace Sys2Proof.Machine

open Sys2Proof

/-! ## The order in which nodes are served (R99) -/

/-- A candidate stands no lower than one served after it, and was ready no later than one of its own level. -/
def ServedBefore (a b : Cand) : Prop := b.level ≤ a.level ∧ (b.level = a.level → a.readyAt ≤ b.readyAt)

theorem ServedBefore.trans {a b c : Cand} (h : ServedBefore a b) (g : ServedBefore b c) : ServedBefore a c := by
  obtain ⟨h1, h2⟩ := h
  obtain ⟨g1, g2⟩ := g
  refine ⟨g1.trans h1, fun e => ?_⟩
  have hb : b.level = a.level := by omega
  exact (h2 hb).trans (g2 (by omega))

theorem servedBefore_of_candBefore {a b : Cand} (h : candBefore a b = true) : ServedBefore a b := by
  simp only [candBefore, Bool.or_eq_true, Bool.and_eq_true, decide_eq_true_eq, beq_iff_eq] at h
  unfold ServedBefore
  omega

theorem servedBefore_of_not_candBefore {a b : Cand} (h : candBefore a b = false) : ServedBefore b a := by
  simp only [candBefore, Bool.or_eq_false_iff, Bool.and_eq_false_iff, decide_eq_false_iff_not, beq_eq_false_iff_ne] at h
  unfold ServedBefore
  omega

theorem mem_insertCand {c x : Cand} {l : List Cand} (h : x ∈ insertCand c l) : x = c ∨ x ∈ l := by
  induction l with
  | nil => exact .inl (by simpa [insertCand] using h)
  | cons y r ih =>
    simp only [insertCand] at h
    split at h
    · simpa using h
    · rcases List.mem_cons.mp h with rfl | h
      · exact .inr List.mem_cons_self
      · exact (ih h).imp id (List.mem_cons_of_mem _)

theorem pairwise_insertCand {c : Cand} {l : List Cand} (h : l.Pairwise ServedBefore) : (insertCand c l).Pairwise ServedBefore := by
  induction l with
  | nil => exact List.pairwise_singleton _ _
  | cons y r ih =>
    obtain ⟨hy, hr⟩ := List.pairwise_cons.mp h
    simp only [insertCand]
    split
    · rename_i hc
      have hcy := servedBefore_of_candBefore hc
      refine List.pairwise_cons.mpr ⟨fun x hx => ?_, h⟩
      rcases List.mem_cons.mp hx with rfl | hx
      · exact hcy
      · exact hcy.trans (hy x hx)
    · rename_i hc
      refine List.pairwise_cons.mpr ⟨fun x hx => ?_, ih hr⟩
      rcases mem_insertCand hx with rfl | hx
      · exact servedBefore_of_not_candBefore (by simpa using hc)
      · exact hy x hx

theorem pairwise_candsOf (s : State) (p : Nat) : (candsOf s p).Pairwise ServedBefore := by
  have hf : ∀ (cs l : List Cand), l.Pairwise ServedBefore → (cs.foldl (fun l c => insertCand c l) l).Pairwise ServedBefore := by
    intro cs
    induction cs with
    | nil => exact fun _ h => h
    | cons c r ih => exact fun l h => ih _ (pairwise_insertCand h)
  exact hf _ [] List.Pairwise.nil

/-! ## Aging (R100) and the node that keeps others out (R101) -/

section Queue

variable {s : State} {p : Nat}

/-- A ready node that gains a level now. -/
def dueNow (s : State) (p : Nat) (r : Ready) : Bool := decide (r.level < agedLevel s p r)

theorem exec_nodeAging_none (h : ∀ r ∈ (getPart s p).ready, dueNow s p r = false) : exec (.nodeAging p) s = .next s := by
  have hn : (getPart s p).ready.filter (fun r => decide (r.level < agedLevel s p r)) = [] :=
    List.filter_eq_nil_iff.mpr fun r hr => by simpa [dueNow] using h r hr
  change execNodeAging p s = _
  simp only [execNodeAging, hn, List.length_nil, if_true]

theorem exec_nodeAging_some (h : ∃ r ∈ (getPart s p).ready, dueNow s p r = true) : exec (.nodeAging p) s = .next (markPart
    (onPart s p (fun x => { x with ready := x.ready.map (fun r => if dueNow s p r then { r with level := r.level + 1 } else r) })) p 0x207
    ((getPart s p).ready.filter (dueNow s p)).length) := by
  obtain ⟨r, hr, hd⟩ := h
  have hn : ((getPart s p).ready.filter (fun r => decide (r.level < agedLevel s p r))).length ≠ 0 := fun h0 =>
    List.filter_eq_nil_iff.mp (List.eq_nil_of_length_eq_zero h0) r hr hd
  change execNodeAging p s = _
  simp only [execNodeAging, hn, if_false]
  simp only [dueNow, decide_eq_true_eq]
  rfl

theorem exec_admissionStarvation {top : Cand} {n since : Nat} (ht : (candsOf s p).find? (fun c => c.header.isSome) = some top)
    (hu : (getPart s p).unfit = some (n, since)) : exec (.admissionStarvation p) s = .next
      (if n = top.seq && since + fabric (2 ^ 22) ≤ s.now && (coresFor s p top).isNone then onPart s p (fun x => { x with blocked := some n }) else s) := by
  change execAdmissionStarvation p s = _
  simp only [execAdmissionStarvation, topCand, ht, hu]

end Queue

/-! ## The balancer (R104) -/

section Balance

variable {s : State} {c : Nat}

/-- A wale between the stages of a pipeline of two: nearly full, the producer is held back; nearly empty, it is let on. -/
theorem sampleWale_two (r0 r1 : RoleRec) (a b : Stage) (d o : Nat) : sampleWale [r0, r1] [a, b] 0 d o =
    if 3 * d < 4 * o then [lowerStage r0 a, raiseStage r1 b] else if 4 * o < d then [raiseStage r0 a, lowerStage r1 b] else [a, b] := by
  unfold sampleWale
  by_cases h1 : 3 * d < 4 * o
  · have h2 : ¬ 4 * o < d := by omega
    simp [h1, h2, onStage]
  · by_cases h2 : 4 * o < d <;> simp [h1, h2, onStage]

theorem sampleInst_two {l : Launch} {y : Inst} {r0 r1 : RoleRec} {a b : Stage} (hr : l.header.roles = [r0, r1]) (hs : y.stages = [a, b]) :
    sampleInst l.header y = { y with stages := sampleWale [r0, r1] [a, b] 0 (l.header.wdepth.getD 0 0) (y.wales.getD 0 []).length } := by
  simp only [sampleInst, hr, hs]
  rfl

theorem exec_balancerSample_early (h : coreCycles s c / 1024 ≤ (getCore s c).sampled) : exec (.balancerSample c) s = .next s := by
  change execBalancerSample c s = _
  simp only [execBalancerSample, Nat.not_lt.mpr h, if_false]

/-- An instance's entry in its core's list, its wales sampled. -/
def sampledEntry (s : State) (e : Nat × Inst) : Nat × Inst :=
  match getLaunch s e.2.serial with | some l => (e.1, sampleInst l.header e.2) | none => e

theorem exec_balancerSample_due (h : (getCore s c).sampled < coreCycles s c / 1024) : ∃ t, exec (.balancerSample c) s = .next t ∧
    ∀ i y l, getInst s c i = some y → getLaunch s y.serial = some l → getInst t c i = some (sampleInst l.header y) := by
  have hx : exec (.balancerSample c) s = .next (onCore s c (fun x =>
      { x with sampled := coreCycles s c / 1024, insts := x.insts.map (sampledEntry s) })) := by
    change execBalancerSample c s = _
    simp only [execBalancerSample, h, if_true]
    rfl
  refine ⟨_, hx, fun i y l hi hl => ?_⟩
  have hk : ∀ e, (sampledEntry s e).1 = e.1 := fun e => by unfold sampledEntry; split <;> rfl
  simp only [getInst] at hi
  simp only [getInst, getCore_onCore_self, sfind_map _ _ hk, hi, Option.map_some, sampledEntry, hl]

end Balance

/-- Settles O57: the queue is a sorted insertion; aging, starvation and the sample of a wale are the three events' own tests. -/
theorem queueOrder : Obligations.QueueOrder := by
  unfold Obligations.QueueOrder
  refine ⟨fun s p => ⟨fun h => exec_nodeAging_none h, fun h => ⟨_, _, exec_nodeAging_some h, rfl, rfl, rfl⟩, fun top n since ht hu => ?_,
    pairwise_candsOf s p⟩, fun s c => ⟨exec_balancerSample_early, fun h => ?_⟩⟩
  · rw [exec_admissionStarvation ht hu]
    have hf : fabric (2 ^ 22) = 2 ^ 23 := rfl
    rw [hf]
    refine ⟨fun h1 h2 h3 => ?_, fun h => ?_⟩
    · rw [if_pos]
      simp only [Bool.and_eq_true, decide_eq_true_eq]
      exact ⟨⟨h1, h2⟩, by rw [h3]; rfl⟩
    · rw [if_neg]
      simp only [Bool.and_eq_true, decide_eq_true_eq]
      rintro ⟨⟨h1, h2⟩, -⟩
      exact h.elim (· h1) (Nat.not_lt.mpr h2)
  · obtain ⟨t, ht, hi⟩ := exec_balancerSample_due h
    refine ⟨t, ht, fun i y l r0 r1 a b h1 h2 h3 h4 => ?_⟩
    rw [hi i y l h1 h2, sampleInst_two h3 h4, sampleWale_two]
    rfl

end Sys2Proof.Machine

/-!
# Readmission with a spilled frontier

A readmitted instance starts with an empty L1, but a weave that was saved with more than 16 entries spills some of them at once
(R69), through the core's L1.
-/

namespace Sys2Proof.Machine

open Sys2Proof

/-- Three levels of tables, and a leaf of 1 GiB that grants loads and stores (17 R360). -/
def writableTables (s : State) : State :=
  let k := memKey s.device
  writeMem (writeMem (writeMem s (k bootRoot) (bytesLE 8 0x8000000000002000)) (k 0x2000) (bytesLE 8 0x8000000000003000)) (k 0x3000)
    (bytesLE 8 0xcf00000000000000)

/-- Seventeen ready entries of one thread each, no two at one pc. -/
def spreadEntries : List Entry :=
  (List.range 17).map fun n => entryAt (BitVec.ofNat 64 (bootVa + 4 * n)) 0#16 (BitVec.ofNat 32 (2 ^ n)) .ready

/-- An instance saved with one weave, whose frontier holds more entries than a core does. -/
def spreadSaved : Saved :=
  { inst := instStart (bootLaunch 1) 0 false 0, weaves := [{ weaveStart 0 0 0 0 1#64 (bootHeader.roles.headD default) with frontier := spreadEntries }],
    cmem := [], full := [], cbad := [], slots := [], rims := [], cmds := [], fences := [] }

/-- Its launch, on no core. -/
def spreadLaunch : Launch := { bootLaunch 1 with cores := [], names := [], saved := [spreadSaved] }

/-- What the queue serves: the launch with its saved instance. -/
def spreadCand : Cand :=
  { level := 0, readyAt := 0, seq := 0, node := bootNode, header := some bootHeader, vf := 0, launch := some 1, saved := [spreadSaved] }

/-- Core 0 is empty, and the launch waits to be readmitted to it. -/
def spreadState : State :=
  onPart { writableTables State.reset with vfs := [(0, bootVf)], launches := [spreadLaunch], nextLsn := 2 } 0 (fun p => { p with up := true })

/-- What the readmission leaves. -/
noncomputable def spreadNext : State := match exec (.instanceReadmit 0) spreadState with | .next t => t | _ => spreadState

theorem l1_spreadNext : (getCore spreadNext 0).l1 ≠ [] := by decide +kernel

theorem spreadState_served : (openCands (noteFit spreadState 0 (candsOf spreadState 0)) 0 (candsOf spreadState 0)).find?
    (fun c => (coresFor (noteFit spreadState 0 (candsOf spreadState 0)) 0 c).isSome) = some spreadCand := by decide +kernel

theorem spreadState_core : coresFor (noteFit spreadState 0 (candsOf spreadState 0)) 0 spreadCand = some [0] := by decide +kernel

/-- Refutes O59: the weave put back spills its seventeenth entry through the L1, which then holds the line of its spill area. -/
theorem not_yields : ¬ Obligations.Yields := by
  unfold Obligations.Yields
  rintro ⟨-, -, h⟩
  have hw : ∀ j, getWeave spreadState 0 j = none := fun _ => rfl
  obtain ⟨t, i, y, hx, -, -, hl, -⟩ := h spreadState 0 0 1 spreadCand spreadSaved spreadLaunch spreadState_served spreadState_core rfl rfl
    (by decide) rfl rfl (fun j w hj => by rw [hw j] at hj; cases hj) ⟨0, by decide, rfl⟩
  have ht : spreadNext = t := by rw [spreadNext, hx]
  exact l1_spreadNext (ht ▸ hl)

end Sys2Proof.Machine

/-!
# Exceptions taken by the handler slot

Which pending delivery is next (R107), and what each kind of delivery starts (R379, R380).
-/

namespace Sys2Proof.Machine

open Sys2Proof

/-! ## The next delivery (R107) -/

/-- One pending delivery comes ahead of another: a lower cause, or the same cause and parked earlier. -/
def Pending.Ahead (p q : Pending) : Prop := p.cause < q.cause ∨ (p.cause = q.cause ∧ p.at_ < q.at_)

theorem Pending.Ahead.asymm {p q : Pending} (h : p.Ahead q) : ¬ q.Ahead p := by
  unfold Ahead at *
  omega

theorem Pending.not_ahead_self (p : Pending) : ¬ p.Ahead p := fun h => h.asymm h

/-- The delivery kept of two. -/
def aheadOf (acc : Option Pending) (p : Pending) : Option Pending :=
  match acc with
  | none => some p
  | some b => if p.cause < b.cause || (p.cause == b.cause && p.at_ < b.at_) then some p else acc

theorem aheadOf_of_ahead {p b : Pending} (h : p.Ahead b) : aheadOf (some b) p = some p := by
  unfold Pending.Ahead at h
  simp only [aheadOf]
  exact if_pos (by simpa using h)

theorem aheadOf_of_not_ahead {p b : Pending} (h : ¬ p.Ahead b) : aheadOf (some b) p = some b := by
  unfold Pending.Ahead at h
  simp only [aheadOf]
  exact if_neg (by simpa using h)

theorem foldl_aheadOf_self {p : Pending} {l : List Pending} (h : ∀ q ∈ l, q = p ∨ p.Ahead q) : l.foldl aheadOf (some p) = some p := by
  induction l with
  | nil => rfl
  | cons q r ih =>
    have hq : aheadOf (some p) q = some p := by
      rcases h q List.mem_cons_self with rfl | hq
      · exact aheadOf_of_not_ahead q.not_ahead_self
      · exact aheadOf_of_not_ahead hq.asymm
    rw [List.foldl_cons, hq]
    exact ih fun x hx => h x (List.mem_cons_of_mem _ hx)

theorem foldl_aheadOf {p : Pending} {l : List Pending} (acc : Option Pending) (ha : ∀ b, acc = some b → b = p ∨ p.Ahead b) (hp : p ∈ l)
    (h : ∀ q ∈ l, q = p ∨ p.Ahead q) : l.foldl aheadOf acc = some p := by
  induction l generalizing acc with
  | nil => cases hp
  | cons q r ih =>
    have hr : ∀ x ∈ r, x = p ∨ p.Ahead x := fun x hx => h x (List.mem_cons_of_mem _ hx)
    have hn : ∀ b, aheadOf acc q = some b → b = p ∨ p.Ahead b := by
      intro b hb
      cases acc with
      | none => cases hb; exact h q List.mem_cons_self
      | some a =>
        simp only [aheadOf] at hb
        split at hb <;> cases hb
        · exact h q List.mem_cons_self
        · exact ha _ rfl
    rw [List.foldl_cons]
    rcases List.mem_cons.mp hp with rfl | hp
    · have hq : aheadOf acc p = some p := by
        cases acc with
        | none => rfl
        | some a =>
          rcases ha a rfl with rfl | ha
          · exact aheadOf_of_not_ahead (Pending.not_ahead_self _)
          · exact aheadOf_of_ahead ha
      rw [hq]
      exact foldl_aheadOf_self hr
    · exact ih _ hn hp hr

/-- The pending delivery that every other one comes after is the next. -/
theorem nextPending_eq {p : Pending} {l : List Pending} (hp : p ∈ l) (h : ∀ q ∈ l, q = p ∨ p.Ahead q) : nextPending l = some p :=
  foldl_aheadOf none (fun _ hb => by cases hb) hp h

/-! ## What the handler slot starts (R379, R380) -/

section Deliver

variable {s : State} {c vf k q : Nat} {p : Pending} {l : Launch} {e : Entry} {w : Weave} {i : Inst} {m : Cmd}

theorem takeDelivery_next (hr : (getCore s c).handler.run = none) (hp : p ∈ pendings s c) (hc : p.cause ≠ cPOISON)
    (hm : ∀ q ∈ pendings s c, q.cause ≠ cPOISON → q = p ∨ p.Ahead q) (hl : getLaunch s p.serial = some l) :
    takeDelivery s c =
      if p.cause = cPAIRFAIL then failLaunch s p.serial 18 cPAIRFAIL 0
      else if (getVf s l.vf).tvec = 0#64 then failLaunch s p.serial 16 p.cause 0
      else match p.target with
        | .weave k tid => deliverWeave s c l.vf k tid
        | .steer k => deliverSteer s c l.vf k
        | .engine q => deliverEngine s c l.vf q := by
  have hn : nextPending ((pendings s c).filter (fun p => p.cause != cPOISON)) = some p :=
    nextPending_eq (List.mem_filter.mpr ⟨hp, by simpa using hc⟩) fun q hq => by
      obtain ⟨hq, hn⟩ := List.mem_filter.mp hq
      exact hm q hq (by simpa using hn)
  simp only [takeDelivery, hr, Option.isSome_none, Bool.false_eq_true, if_false, hn, hl] <;> rfl

/-- The handler slot at work on a delivery, from a state with other tables of cores. -/
theorem startDelivery_of_vfs {s s2 : State} (h : getVf s2 vf = getVf s vf) (c : Nat) (d : Delivery) :
    startDelivery s2 c vf d = onCore s2 c (fun x =>
      { x with handler := { x.handler with run := some d, pc := (getVf s vf).tvec, wait := none, mode := modeStart } }) := by
  rw [startDelivery, h]

theorem taddrOf_eq (cause : Nat) (a : Double) : taddrOf cause a = if 0x10 ≤ cause ∧ cause ≤ 0x19 then a else 0#64 := by
  simp only [taddrOf, Bool.and_eq_true, decide_eq_true_eq]

theorem tentOf_weave (role wid idx n : Nat) :
    tentOf 0 role wid 0 idx n = BitVec.ofNat 32 (role * 2 ^ 28 + wid * 2 ^ 23 + idx % 32 * 2 ^ 16 + n % 2 ^ 16) := by
  unfold tentOf
  exact congrArg (BitVec.ofNat 32) (by omega)

theorem tentOf_steer (n : Nat) : tentOf 1 0 0 0 0 n = BitVec.ofNat 32 (2 ^ 30 + n % 2 ^ 16) := by
  unfold tentOf
  exact congrArg (BitVec.ofNat 32) (by omega)

theorem tentOf_engine (role wid q n : Nat) :
    tentOf 2 role wid q 0 n = BitVec.ofNat 32 (2 * 2 ^ 30 + role * 2 ^ 28 + wid * 2 ^ 23 + q * 2 ^ 21 + n % 2 ^ 16) := by
  unfold tentOf
  exact congrArg (BitVec.ofNat 32) (by omega)

/-- An entry held in the core is not filled again. -/
theorem fillEntry_held (hw : getWeave s c k = some w) (hu : ∀ x ∈ w.frontier, x.mask = e.mask → x = e) (hs : e.spill = none) (sel : Mask) :
    fillEntry s c k e.mask sel = s := by
  simp only [fillEntry, hw]
  refine if_neg fun h => ?_
  obtain ⟨x, hx, hm⟩ := List.any_eq_true.mp h
  simp only [Bool.and_eq_true, beq_iff_eq, bne_iff_ne] at hm
  obtain ⟨hm, hn⟩ := hm
  exact hn (hu x hx hm ▸ hs)

/-- The first place of an entry is the first with its mask, where no other entry has it. -/
theorem findIdx_mask {f : List Entry} {idx : Nat} (hi : f[idx]? = some e) (hu : ∀ x ∈ f, x.mask = e.mask → x = e) (hf : ∀ j, j < idx → f[j]? ≠ some e) :
    f.findIdx (fun y => y.mask == e.mask) = idx := by
  obtain ⟨hlt, he⟩ := List.getElem?_eq_some_iff.mp hi
  refine (List.findIdx_eq hlt).mpr ⟨by rw [he]; exact beq_self_eq_true _, fun j hj => ?_⟩
  have hjl := hj.trans hlt
  refine beq_eq_false_iff_ne.mpr fun hm => hf j hj ?_
  rw [List.getElem?_eq_getElem hjl, hu _ (List.getElem_mem hjl) hm]

theorem deliverWeave_eq {tid idx : Nat} (hw : getWeave s c k = some w) (hi : w.frontier[idx]? = some e) (ht : lowest e.mask = tid) (hp : e.state = .parked)
    (ho : ∀ x ∈ w.frontier, x.state = .parked → lowest x.mask = tid → x = e) (hu : ∀ x ∈ w.frontier, x.mask = e.mask → x = e)
    (hf : ∀ j, j < idx → w.frontier[j]? ≠ some e) (hs : e.spill = none) (hx : getInst s c w.inst = some i) :
    deliverWeave s c vf k tid =
      startDelivery (onWeave s c k (fun w => { w with frontier := w.frontier.map (fun y => if y = e then { y with delivering := true } else y) })) c vf
        { target := .weave k tid, tcause := e.cause, tpc := e.pc, tmask := e.mask, tprio := e.prio,
          tent := BitVec.ofNat 32 (w.role * 2 ^ 28 + w.wid * 2 ^ 23 + idx % 32 * 2 ^ 16 + i.num % 2 ^ 16),
          taddr := taddrOf e.cause e.addr, tinst := BitVec.ofNat 32 i.num } := by
  have hme : e ∈ w.frontier := List.mem_of_getElem? hi
  have hfind : w.frontier.find? (fun e => e.state = .parked && lowest e.mask == tid) = some e := by
    cases hy : w.frontier.find? (fun e => e.state = .parked && lowest e.mask == tid) with
    | none => exact absurd (List.find?_eq_none.mp hy e hme) (by simp [hp, ht])
    | some y =>
      have hyp := List.find?_some hy
      simp only [Bool.and_eq_true, decide_eq_true_eq, beq_iff_eq] at hyp
      obtain ⟨h1, h2⟩ := hyp
      rw [ho y (List.mem_of_find?_eq_some hy) h1 h2]
  have hmap : w.frontier.map (fun y => if y.mask == e.mask then { y with delivering := true } else y) =
      w.frontier.map (fun y => if y = e then { y with delivering := true } else y) := by
    refine List.map_congr_left fun y hy => ?_
    by_cases he : y = e
    · simp [he]
    · rw [if_neg he, if_neg (by simpa using fun hm => he (hu y hy hm))]
  simp only [deliverWeave, hw, hfind, hx, fillEntry_held hw hu hs, findIdx_mask hi hu hf, onWeave_some hw, hmap, tentOf_weave]

theorem deliverSteer_eq (hi : getInst s c k = some i) (he : i.steer.entry = some e) :
    deliverSteer s c vf k = startDelivery (onInst s c k (fun i => { i with steer := { i.steer with entry := some { e with delivering := true } } })) c vf
      { target := .steer k, tcause := e.cause, tpc := e.pc, tmask := 1#32, tprio := e.prio, tent := BitVec.ofNat 32 (2 ^ 30 + i.num % 2 ^ 16),
        taddr := taddrOf e.cause e.addr, tinst := BitVec.ofNat 32 i.num } := by
  simp only [deliverSteer, hi, he, tentOf_steer]

theorem deliverEngine_eq {rest : List Cmd} {cause n : Nat} {va : Double} {d : Nat} (hq : inQueue s c q = m :: rest) (hf : m.fault = some (cause, va, n))
    (ha : m.issuer = .weave d k) (hw : getWeave s c k = some w) (hi : getInst s c m.inst = some i) :
    deliverEngine s c vf q = startDelivery s c vf
      { target := .engine q, tcause := cause, tpc := m.pc, tmask := 1#32 <<< m.tid, tprio := m.prio,
        tent := BitVec.ofNat 32 (2 * 2 ^ 30 + w.role * 2 ^ 28 + w.wid * 2 ^ 23 + q * 2 ^ 21 + i.num % 2 ^ 16),
        taddr := taddrOf cause va, tinst := BitVec.ofNat 32 i.num } := by
  simp only [inQueue] at hq
  simp only [deliverEngine, hq, List.head?_cons, hf, hi, ha, hw, tentOf_engine]

theorem getVf_onWeave (f : Weave → Weave) : getVf (onWeave s c k f) vf = getVf s vf := by
  unfold onWeave
  split <;> rfl

theorem getVf_onInst (f : Inst → Inst) : getVf (onInst s c k f) vf = getVf s vf := by
  unfold onInst
  split <;> rfl

end Deliver

/-- Settles O46: the fold over the pending deliveries keeps the one ahead of the others, and each kind of delivery fills the control registers. -/
theorem exceptionsTaken : Obligations.ExceptionsTaken := by
  unfold Obligations.ExceptionsTaken
  intro s c p l hr hp hc hm hl
  have hx : exec (.trapDelivery c) s = .next (takeDelivery s c) := rfl
  rw [takeDelivery_next hr hp hc hm hl] at hx
  have hser := getLaunch_serial hl
  rw [← hser] at hl hx
  refine ⟨fun hn hv => ⟨fun k tid w e i idx ht hw hi he hs ho hu hf hsp hinst => ?_, fun k i e ht hi he => ?_, fun q m k w i va n rest ht hq hf ha hw hi => ?_⟩,
    fun h => ?_, fun hn hv => ?_⟩
  · rw [hx, if_neg hn, if_neg hv, ht]
    simp only [← taddrOf_eq]
    rw [deliverWeave_eq hw hi he hs ho hu hf hsp hinst, startDelivery_of_vfs (getVf_onWeave _)]
  · rw [hx, if_neg hn, if_neg hv, ht]
    simp only [← taddrOf_eq]
    rw [deliverSteer_eq hi he, startDelivery_of_vfs (getVf_onInst _)]
  · rw [hx, if_neg hn, if_neg hv, ht]
    simp only [← taddrOf_eq]
    rw [deliverEngine_eq hq hf ha hw hi, startDelivery_of_vfs rfl]
  · rw [if_pos h] at hx
    exact ⟨_, hx, failed_failLaunch hl 18 cPAIRFAIL 0⟩
  · rw [if_neg hn, if_pos hv] at hx
    exact ⟨_, hx, failed_failLaunch hl 16 p.cause 0⟩

end Sys2Proof.Machine

/-!
# Posts

What the Fjolar's own reads and writes of a node record depend on, and what a post leaves: a refusal's status and notice, a node that waits,
a node in its queue.
-/

namespace Sys2Proof.Machine

open Sys2Proof

/-! ## On what the Fjolar's accesses depend (R445, R446) -/

/-- Two states alike in memory, in the shadow tables' roots and in what each virtual function owns. -/
structure SameTables (s t : State) : Prop where
  mem : t.mem = s.mem
  unscrubbed : t.unscrubbed = s.unscrubbed
  bad : t.bad = s.bad
  tick : t.tick = s.tick
  device : t.device = s.device
  lost : ∀ phys, rangeLost t phys = rangeLost s phys
  roots : ∀ v, (getVf t v).root = (getVf s v).root
  owns : ∀ v p, ownsIn t v p = ownsIn s v p

section Tables

variable {s t u : State}

theorem SameTables.refl (s : State) : SameTables s s := ⟨rfl, rfl, rfl, rfl, rfl, fun _ => rfl, fun _ => rfl, fun _ _ => rfl⟩

theorem SameTables.trans (h : SameTables s t) (g : SameTables t u) : SameTables s u :=
  ⟨g.mem.trans h.mem, g.unscrubbed.trans h.unscrubbed, g.bad.trans h.bad, g.tick.trans h.tick, g.device.trans h.device,
    fun p => (g.lost p).trans (h.lost p), fun v => (g.roots v).trans (h.roots v), fun v p => (g.owns v p).trans (h.owns v p)⟩

/-- With the one's virtual functions, the other is alike in all that walks read. -/
theorem SameTables.root (h : SameTables s t) : SameRoot s { t with vfs := s.vfs } := ⟨h.mem, h.unscrubbed, h.bad, h.tick, h.device, rfl, h.lost⟩

theorem SameTables.memByte (h : SameTables s t) (k : Nat) : Machine.memByte t k = Machine.memByte s k := memByte_root h.root k

theorem SameTables.memBytes (h : SameTables s t) (k n : Nat) : Machine.memBytes t k n = Machine.memBytes s k n := by
  induction n generalizing k with
  | zero => rfl
  | succ n ih => simp only [Machine.memBytes, ih, h.memByte]

theorem SameTables.memBad (h : SameTables s t) (k n : Nat) : Machine.memBad t k n = Machine.memBad s k n := memBad_root h.root k n

theorem SameTables.walk (h : SameTables s t) (vf va : Nat) : Machine.walk t vf va = Machine.walk s vf va := by
  have hw := walkFrom_root h.root vf va 4 ((getVf s vf).root.toNat / 4096 * 4096)
  rw [walkFrom_vfs] at hw
  rw [Machine.walk, h.roots, hw, Machine.walk]

theorem SameTables.selfKey (h : SameTables s t) (vf va : Nat) (wr : Bool) : Machine.selfKey t vf va wr = Machine.selfKey s vf va wr := by
  have hk (l : Leaf) : leafKey t l va = leafKey s l va := leafKey_root h.root l va
  simp only [Machine.selfKey, h.walk, hk]

theorem SameTables.selfRead (h : SameTables s t) (vf va n : Nat) (wr : Bool) : Machine.selfRead t vf va n wr = Machine.selfRead s vf va n wr := by
  have hg : ∀ fuel va n, selfRead.go t vf wr fuel va n = selfRead.go s vf wr fuel va n := by
    intro fuel
    induction fuel with
    | zero => exact fun _ _ => rfl
    | succ f ih => intro va n; simp only [selfRead.go, h.selfKey, h.memBad, h.memBytes, ih]
  exact hg _ _ _

theorem SameTables.readNode (h : SameTables s t) (vf addr : Nat) : Machine.readNode t vf addr = Machine.readNode s vf addr := by
  simp only [Machine.readNode, h.selfRead]

theorem SameTables.checkRec (h : SameTables s t) (vf addr post : Nat) (n : NodeRec) :
    Machine.checkRec t vf addr post n = Machine.checkRec s vf addr post n := by
  simp only [Machine.checkRec, h.owns, h.selfRead, tableReason]

/-- A change of a virtual function that leaves its root, its state and its cores. -/
theorem sameTables_onVf (s : State) (v : Nat) (f : Vf → Vf) (hr : ∀ x, (f x).root = x.root) (hs : ∀ x, (f x).state = x.state)
    (hc : ∀ x, (f x).cores = x.cores) : SameTables s (onVf s v f) := by
  have hv : ∀ u, (getVf (onVf s v f) u).root = (getVf s u).root ∧ (getVf (onVf s v f) u).state = (getVf s u).state ∧
      (getVf (onVf s v f) u).cores = (getVf s u).cores := by
    intro u
    by_cases h : u = v
    · subst h; rw [getVf_onVf_self]; exact ⟨hr _, hs _, hc _⟩
    · have he : getVf (onVf s v f) u = getVf s u := sget_sput_ne _ _ _ h
      rw [he]; exact ⟨rfl, rfl, rfl⟩
  refine ⟨rfl, rfl, rfl, rfl, rfl, fun _ => rfl, fun u => (hv u).1, fun u p => ?_⟩
  obtain ⟨-, h1, h2⟩ := hv u
  rw [ownsIn, ownsIn, h1, h2]

theorem sameTables_waitsOn (s : State) (vf addr : Nat) : SameTables s (waitsOn s vf addr) := sameTables_onVf s vf _ (fun _ => rfl) (fun _ => rfl) fun _ => rfl

theorem sameTables_waitsNot (s : State) (vf addr : Nat) : SameTables s (waitsNot s vf addr) := sameTables_onVf s vf _ (fun _ => rfl) (fun _ => rfl) fun _ => rfl

/-! ## A status as it is written (R93) -/

/-- Bytes that stand one by one in memory are read as they stand. -/
theorem memBytes_of_memByte {d : List Byte} {k : Nat} (h : ∀ i, i < d.length → memByte s (k + i) = d.getD i 0#8) : memBytes s k d.length = d := by
  induction d generalizing k with
  | nil => rfl
  | cons b r ih =>
    have h0 := h 0 (Nat.zero_lt_succ _)
    have hr : memBytes s (k + 1) r.length = r := ih fun i hi => by
      have := h (i + 1) (Nat.succ_lt_succ hi)
      rwa [show k + (i + 1) = k + 1 + i by omega] at this
    exact congrArg₂ List.cons h0 hr

/-- Bytes read back where they were written. -/
theorem memBytes_writeMem_self (s : State) (k : Nat) (d : List Byte) : memBytes (writeMem s k d) k d.length = d :=
  memBytes_of_memByte fun i hi => by rw [memByte_writeMem, if_pos ⟨by omega, by omega⟩, Nat.add_sub_cancel_left]

/-- A status written where the tables stand as in the state before is the record's status. -/
theorem statusIs_writeStatus (h : SameTables s t) (vf addr n : Nat) : statusIs s (writeStatus t vf addr n) vf addr n := by
  intro k _ hs
  rw [← h.selfKey] at hs
  simp only [writeStatus, selfWrite, hs]
  exact memBytes_writeMem_self t k (bytesLE 2 n)

theorem onlyMem_writeStatus (s : State) (vf addr n : Nat) : OnlyMem s (writeStatus s vf addr n) := onlyMem_selfWrite _ _ _ _

/-! ## Where a key stands in its line: as its address does in a page -/

theorem pageShift_ge (n : Nat) : 6 ≤ pageShift n := by
  unfold pageShift
  split <;> decide

theorem size_decodePte {vf va level e : Nat} {l : Leaf} (h : decodePte vf va level e = .leaf l) : 6 ≤ l.size := by
  simp only [decodePte] at h
  split at h
  · cases h
  · split at h
    · split at h <;> cases h
    · split at h
      · cases h
      · split at h
        · cases h
        · cases h; exact pageShift_ge _

theorem size_keepLeaf {l m : Leaf} (h : keepLeaf s l = .ok m) (hl : 6 ≤ l.size) : 6 ≤ m.size := by
  simp only [keepLeaf] at h
  split at h <;> cases h
  exact hl

theorem size_walkFrom {vf va level table : Nat} {l : Leaf} (h : walkFrom s vf va level table = .ok l) : 6 ≤ l.size := by
  induction level generalizing table with
  | zero =>
    simp only [walkFrom] at h
    split at h
    · cases h
    · split at h
      · exact size_keepLeaf h (size_decodePte ‹_›)
      · cases h
  | succ n ih =>
    simp only [walkFrom] at h
    split at h
    · cases h
    · split at h
      · cases h
      · exact size_keepLeaf h (size_decodePte ‹_›)
      · exact ih h

theorem leafKey_mod (s : State) {l : Leaf} (hl : 6 ≤ l.size) (va : Nat) : leafKey s l va % 64 = va % 64 := by
  have hp : 64 ∣ 2 ^ l.size := pow_dvd_pow 2 hl
  have hb : 64 ∣ leafBase l := hp.mul_left _
  have hv : va % 2 ^ l.size % 64 = va % 64 := Nat.mod_mod_of_dvd va hp
  simp only [leafKey, memKey]
  omega

theorem selfKey_mod {vf va k : Nat} {wr : Bool} (h : selfKey s vf va wr = .ok k) : k % 64 = va % 64 := by
  simp only [selfKey] at h
  split at h
  · cases h
  · split at h
    · cases h
    · split at h
      · cases h
      · split at h <;> cases h
        exact leafKey_mod s (size_walkFrom ‹_›) va

/-! ## What the link fields' writes leave (R93, R99) -/

/-- A link field is the last word of a record on a line of its own. -/
theorem memByte_writeLink {addr j : Nat} (ha : addr % 64 = 0) (hj : j % 64 < 56) (vf : Nat) (v : Double) :
    memByte (writeLink s vf addr v) j = memByte s j := by
  unfold writeLink selfWrite
  split
  · rfl
  · rename_i k hk
    have hm := selfKey_mod hk
    have hl : (bytesLE 8 v.toNat).length = 8 := rfl
    rw [memByte_writeMem, hl, if_neg]
    omega

theorem memByte_relink {p j : Nat} (hr : ∀ r ∈ (getPart s p).ready, r.addr % 64 = 0) (hj : j % 64 < 56) : memByte (relink s p) j = memByte s j := by
  have hf : ∀ (rs : List Ready) (t : State), (∀ r ∈ rs, r.addr % 64 = 0) →
      memByte (rs.foldl (fun s r => writeLink s r.vf r.addr (Config.linkValue s.tick r.seq)) t) j = memByte t j := by
    intro rs
    induction rs with
    | nil => exact fun _ _ => rfl
    | cons r rest ih =>
      intro t h
      rw [List.foldl_cons, ih _ fun x hx => h x (List.mem_cons_of_mem _ hx)]
      exact memByte_writeLink (h r List.mem_cons_self) hj _ _
  exact hf _ s hr

/-! ## A node put into its queue (R94, R99) -/

/-- The queue's entry of a node that becomes ready. -/
def readyOf (s : State) (p vf addr requeues : Nat) (n : NodeRec) (h : Option Header) : Ready :=
  { addr := addr, vf := vf, node := n, header := h, level := min n.prio (capOf s p), base := min n.prio (capOf s p), readyAt := s.now,
    seq := s.seq, requeues := requeues }

theorem readyOf_writeStatus (s : State) (v a st p vf addr requeues : Nat) (n : NodeRec) (h : Option Header) :
    readyOf (writeStatus s v a st) p vf addr requeues n h = readyOf s p vf addr requeues n h :=
  (onlyMem_writeStatus s v a st).field (readyOf · p vf addr requeues n h)

theorem enqueue_eq (s : State) (p vf addr requeues : Nat) (n : NodeRec) (h : Option Header) : enqueue s p vf addr requeues n h =
    relink (onPart (nextSeq (writeStatus s vf addr 1)).2 p (fun x => { x with ready := x.ready ++ [readyOf s p vf addr requeues n h] })) p := by
  rw [← readyOf_writeStatus s vf addr 1]
  rfl

theorem getPart_nextSeq_writeStatus (s : State) (v a st p : Nat) : getPart (nextSeq (writeStatus s v a st)).2 p = getPart s p :=
  (onlyMem_writeStatus s v a st).field (getPart · p)

variable {p vf addr requeues : Nat} {n : NodeRec} {h : Option Header}

theorem getPart_enqueue_self : getPart (enqueue s p vf addr requeues n h) p =
    { getPart s p with ready := (getPart s p).ready ++ [readyOf s p vf addr requeues n h] } := by
  rw [enqueue_eq, (onlyMem_relink _ p).field (getPart · p), getPart_onPart_self, getPart_nextSeq_writeStatus]

theorem getPart_enqueue_ne {d : Nat} (hd : d ≠ p) : getPart (enqueue s p vf addr requeues n h) d = getPart s d := by
  rw [enqueue_eq, (onlyMem_relink _ p).field (getPart · d), getPart_onPart, if_neg hd, getPart_nextSeq_writeStatus]

theorem out_enqueue : (enqueue s p vf addr requeues n h).out = s.out := by
  rw [enqueue_eq, (onlyMem_relink _ p).field State.out]
  exact (onlyMem_writeStatus s vf addr 1).field State.out

/-- The status of a node put into its queue is 1, whatever the link fields of the queue's records become. -/
theorem statusIs_enqueue (ht : SameTables s t) (ha : addr % 64 = 0) (hr : ∀ r ∈ (getPart t p).ready, r.addr % 64 = 0) :
    statusIs s (enqueue t p vf addr requeues n h) vf addr 1 := by
  intro k hk hs
  have hm : k % 64 = 18 := by rw [selfKey_mod hs]; omega
  have hu : ∀ r ∈ (getPart (onPart (nextSeq (writeStatus t vf addr 1)).2 p
      (fun x => { x with ready := x.ready ++ [readyOf t p vf addr requeues n h] })) p).ready, r.addr % 64 = 0 := by
    intro r hq
    rw [getPart_onPart_self, getPart_nextSeq_writeStatus] at hq
    rcases List.mem_append.mp hq with hq | hq
    · exact hr r hq
    · obtain rfl := List.mem_singleton.mp hq
      exact ha
  have hb : ∀ j, j % 64 < 56 → memByte (enqueue t p vf addr requeues n h) j = memByte (writeStatus t vf addr 1) j := fun j hj => by
    rw [enqueue_eq, memByte_relink hu hj]
    rfl
  have hs1 := statusIs_writeStatus ht vf addr 1 k hk hs
  simp only [memBytes] at hs1 ⊢
  rw [hb k (by omega), hb (k + 1) (by omega)]
  exact hs1

end Tables

/-! ## A post served (R94, R95) -/

section Post

variable {s : State} {vf : BitVec 8} {addr : Double} {part : BitVec 5} {v a p : Nat} {n : NodeRec}

theorem exec_nodePost_unbound (h : (getVf s vf.toNat).state = 0) : exec (.nodePost vf addr part) s = .next s := by
  change execNodePost vf addr part s = _
  simp only [execNodePost, h, if_true]

theorem exec_nodePost_held (h : (getVf s vf.toNat).state ≠ 0) (ht : 0 < (getVf s vf.toNat).trapsHeld) :
    exec (.nodePost vf addr part) s = .next (onVf s vf.toNat (fun y => { y with heldPosts := y.heldPosts ++ [(addr.toNat, part.toNat)] })) := by
  change execNodePost vf addr part s = _
  simp only [execNodePost, h, ht, if_false, if_true]

theorem exec_nodePost_served (h : (getVf s vf.toNat).state ≠ 0) (ht : (getVf s vf.toNat).trapsHeld = 0) :
    exec (.nodePost vf addr part) s = .next (servePost s vf.toNat addr.toNat part.toNat) := by
  change execNodePost vf addr part s = _
  simp only [execNodePost, h, ht, if_false, Nat.lt_irrefl]

theorem postNode_unread {r : Nat} (h : readNode s v a = .error r) : postNode s v a p = .refused (refuseNode s v a r (tagAt s v a)) := by
  simp only [postNode, h]

theorem postNode_busy (h : readNode s v a = .ok n) (hs : n.status = 1 ∨ n.status = 2 ∨ n.status = 5) : postNode s v a p = .busy n.tag s := by
  have hb : (n.status = 1 || n.status = 2 || n.status = 5) = true := by simpa [or_assoc] using hs
  simp only [postNode, h, hb, if_true]

/-- The checks of a record that no launch and no queue holds. -/
theorem postNode_idle (h : readNode s v a = .ok n) (h1 : n.status ≠ 1) (h2 : n.status ≠ 2) (h5 : n.status ≠ 5) : postNode s v a p =
    match checkRec s v a p n with
    | .error r => .refused (refuseNode s v a r n.tag)
    | .ok h =>
      if 5 < n.status then .refused (refuseNode s v a 1 n.tag)
      else if n.wait = 0 then .accepted (makeReady s v a (partFor n p) n h)
      else .accepted (writeStatus (waitsOn s v a) v a 0) := by
  simp only [postNode, h, h1, h2, h5, decide_false, Bool.or_self, Bool.false_eq_true, if_false] <;> rfl

theorem tagAt_ok {d : List Byte} (h : selfRead s v a 64 false = .ok d) : tagAt s v a = (nodeOf (natLE d)).tag := by simp only [tagAt, h]

theorem tagAt_error {e : Nat} (h : selfRead s v a 64 false = .error e) : tagAt s v a = 0#32 := by simp only [tagAt, h]

/-- A refusal leaves status 4 and sends its notice; no queue changes. -/
theorem refuseNode_spec (s : State) (v a r : Nat) (tag : Word) : statusIs s (refuseNode s v a r tag) v a 4 ∧ (refuseNode s v a r tag).parts = s.parts ∧
    (refuseNode s v a r tag).out = s.out ++ [.notice v (noticeBytes 2 r (if r = 22 then cPOISON else 0) 0 tag a 0#64 0)] := by
  have hw := onlyMem_writeStatus (waitsNot s v a) v a 4
  refine ⟨fun k hk hs => ?_, hw.field State.parts, ?_⟩
  · exact statusIs_writeStatus (sameTables_waitsNot s v a) v a 4 k hk hs
  · exact congrArg (· ++ [_]) (hw.field State.out)

/-- A node that waits has status 0, and nothing is sent. -/
theorem waits_spec (s : State) (v a : Nat) : statusIs s (writeStatus (waitsOn s v a) v a 0) v a 0 ∧
    (writeStatus (waitsOn s v a) v a 0).parts = s.parts ∧ (writeStatus (waitsOn s v a) v a 0).out = s.out :=
  ⟨statusIs_writeStatus (sameTables_waitsOn s v a) v a 0, (onlyMem_writeStatus _ v a 0).field State.parts, (onlyMem_writeStatus _ v a 0).field State.out⟩

theorem nodeFields_of_checkRec {h : Option Header} (hc : checkRec s v a p n = .ok h) : nodeFields a n = true := by
  simp only [checkRec] at hc
  split at hc
  · cases hc
  · rename_i hf
    simpa using hf

theorem aligned_of_checkRec {h : Option Header} (hc : checkRec s v a p n = .ok h) : a % 64 = 0 := by
  have hn := nodeFields_of_checkRec hc
  simp only [nodeFields, Bool.and_assoc, Bool.and_eq_true, beq_iff_eq] at hn
  exact hn.1

/-- A node that becomes ready has status 1 and stands last in its partition's queue. -/
theorem makeReady_spec {h : Option Header} (s : State) (v a q : Nat) (n : NodeRec) (ha : a % 64 = 0) :
    ((∀ y ∈ (getPart s q).ready, y.addr % 64 = 0) → statusIs s (makeReady s v a q n h) v a 1) ∧ (makeReady s v a q n h).out = s.out ∧
      (∀ d, d ≠ q → getPart (makeReady s v a q n h) d = getPart s d) ∧
      getPart (makeReady s v a q n h) q = { getPart s q with ready := (getPart s q).ready ++ [readyOf s q v a 0 n h] } :=
  ⟨fun hr => statusIs_enqueue (sameTables_waitsNot s v a) ha hr, out_enqueue, fun _ hd => getPart_enqueue_ne hd, getPart_enqueue_self⟩

end Post

/-- Settles O55: the status that the record holds decides, then its checks; the status written stands in its own half of the record's line. -/
theorem posts : Obligations.Posts := by
  unfold Obligations.Posts
  intro s vf addr part
  refine ⟨exec_nodePost_unbound, exec_nodePost_held, fun hx ht => ?_⟩
  have hs := exec_nodePost_served (addr := addr) (part := part) hx ht
  generalize hv : vf.toNat = v at hs ⊢
  generalize ha : addr.toNat = a at hs ⊢
  generalize hp : part.toNat = p at hs ⊢
  have accepted : ∀ {t}, postNode s v a p = .accepted t → exec (.nodePost vf addr part) s = .next t ∧ postCode (postNode s v a p) = (0#64, t) :=
    fun h => by rw [hs, servePost, h]; exact ⟨rfl, rfl⟩
  have refused : ∀ {r : Nat} {tag : Word}, postNode s v a p = .refused (refuseNode s v a r tag) → ∃ t,
      (exec (.nodePost vf addr part) s = .next t ∧ postCode (postNode s v a p) = (1#64, t)) ∧ statusIs s t v a 4 ∧ t.parts = s.parts ∧
        t.out = s.out ++ [.notice v (noticeBytes 2 r (if r = 22 then cPOISON else 0) 0 tag a 0#64 0)] :=
    fun h => ⟨_, by rw [hs, servePost, h]; exact ⟨rfl, rfl⟩, refuseNode_spec _ _ _ _ _⟩
  refine ⟨fun r hr => ⟨fun d hd => ?_, fun e he => ?_⟩, fun n hn => ⟨fun hb => ?_, fun h1 h2 h5 => ?_⟩⟩
  · exact refused (by rw [postNode_unread hr, tagAt_ok hd])
  · exact refused (by rw [postNode_unread hr, tagAt_error he])
  · have hp := postNode_busy (p := p) hn hb
    rw [hs, servePost, hp]
    exact ⟨rfl, rfl⟩
  · have hi := postNode_idle (p := p) hn h1 h2 h5
    refine ⟨fun r hc => ?_, fun h hc h6 => ?_, fun h hc h6 hw => ?_, fun h hc h6 hw => ?_⟩ <;> rw [hc] at hi <;> dsimp only at hi
    · exact refused hi
    · rw [if_pos h6] at hi
      exact refused hi
    · rw [if_neg (by omega), if_neg hw] at hi
      exact ⟨_, accepted hi, waits_spec s v a⟩
    · rw [if_neg (by omega), if_pos hw] at hi
      obtain ⟨r1, r2, r3, r4⟩ := makeReady_spec (h := h) s v a (partFor n p) n (aligned_of_checkRec hc)
      exact ⟨_, readyOf s (partFor n p) v a 0 n h, accepted hi, r1, r2, r3, r4, rfl, rfl, rfl, rfl, rfl, rfl, rfl, rfl⟩

end Sys2Proof.Machine

/-!
# What stays while stores and commands settle

Stores that drain, commands that complete and engines that read and write move bytes and lines; they send no message, make no image, give no
launch serial, and keep every launch's name. No instance comes of it that was not there.
-/

namespace Sys2Proof.Machine

-- One declaration after the other: many short ones at once take more threads than the check has room for.
set_option Elab.async false

open Sys2Proof

/-! ## The relation -/

/-- What names a launch: its serials, its virtual function, its node's address, its header, and how many instances were admitted. -/
def launchName (l : Launch) : Nat × Double × Nat × Nat × Header × Nat := (l.serial, l.lsn, l.vf, l.addr, l.header, l.next)

/-- From `s` to `t` nothing was sent, no image made and no launch serial given; every launch keeps its name, and every instance of `t` stood in
`s` with its launch. -/
structure Steady (s t : State) : Prop where
  nextLsn : t.nextLsn = s.nextLsn
  out : t.out = s.out
  images : t.images = s.images
  launches : t.launches.map launchName = s.launches.map launchName
  insts : ∀ {c i y}, getInst t c i = some y → ∃ x, getInst s c i = some x ∧ x.serial = y.serial

/-- The launch of a serial is found by its name alone. -/
theorem getLaunch_names {s t : State} (h : t.launches.map launchName = s.launches.map launchName) (n : Nat) :
    (getLaunch t n).map launchName = (getLaunch s n).map launchName := by
  have hf : ∀ ls : List Launch, (ls.find? (fun l => l.serial == n)).map launchName = (ls.map launchName).find? (fun k => k.1 == n) := fun ls => by
    rw [List.find?_map]
    rfl
  rw [getLaunch, getLaunch, hf, hf, h]

theorem Steady.getLaunch {s t : State} (h : Steady s t) {n : Nat} {l : Launch} (hl : Machine.getLaunch s n = some l) :
    ∃ l', Machine.getLaunch t n = some l' ∧ launchName l' = launchName l := by
  have hm := getLaunch_names h.launches n
  rw [hl] at hm
  exact Option.map_eq_some_iff.mp hm

section Steady

variable {s t u : State}

protected theorem Steady.refl (s : State) : Steady s s := ⟨rfl, rfl, rfl, rfl, fun h => ⟨_, h, rfl⟩⟩

protected theorem Steady.trans (h : Steady s t) (g : Steady t u) : Steady s u :=
  ⟨g.nextLsn.trans h.nextLsn, g.out.trans h.out, g.images.trans h.images, g.launches.trans h.launches, fun e => by
    obtain ⟨x, hx, hs⟩ := g.insts e
    obtain ⟨z, hz, hs'⟩ := h.insts hx
    exact ⟨z, hz, hs'.trans hs⟩⟩

/-- An update of other fields. -/
protected theorem Steady.frame (h : Steady s t) (hn : u.nextLsn = t.nextLsn := by rfl) (ho : u.out = t.out := by rfl)
    (hi : u.images = t.images := by rfl) (hl : u.launches = t.launches := by rfl) (hc : u.cores = t.cores := by rfl) : Steady s u :=
  h.trans ⟨hn, ho, hi, congrArg _ hl, fun e => ⟨_, by rwa [getInst, getCore, hc] at e, rfl⟩⟩

protected theorem Steady.onlyMem (h : Steady s t) (g : OnlyMem t u) : Steady s u :=
  h.frame (g.field State.nextLsn) (g.field State.out) (g.field State.images) (g.field State.launches) (g.field State.cores)

/-- An update of one core whose instances stood there with their launches. -/
protected theorem Steady.onInsts {c : Nat} {f : Core → Core} (h : Steady s t)
    (hf : ∀ i y, sfind (f (getCore t c)).insts i = some y → ∃ x, sfind (getCore t c).insts i = some x ∧ x.serial = y.serial) : Steady s (onCore t c f) := by
  refine h.trans ⟨rfl, rfl, rfl, rfl, fun {d i y} e => ?_⟩
  by_cases hd : d = c
  · subst hd
    rw [getInst, getCore_onCore_self] at e
    exact hf i y e
  · rw [getInst, getCore_onCore_ne _ _ hd] at e
    exact ⟨y, e, rfl⟩

/-- An update of one core that leaves its instances. -/
protected theorem Steady.onCore {c : Nat} {f : Core → Core} (h : Steady s t) (hf : ∀ x, (f x).insts = x.insts := by exact fun _ => rfl) :
    Steady s (onCore t c f) := h.onInsts fun _ y e => ⟨y, hf _ ▸ e, rfl⟩

protected theorem Steady.putWeave {c k : Nat} {w : Weave} (h : Steady s t) : Steady s (putWeave t c k w) := h.onCore

protected theorem Steady.onWeave {c k : Nat} {f : Weave → Weave} (h : Steady s t) : Steady s (onWeave t c k f) := by
  unfold Machine.onWeave
  split
  · exact h.putWeave
  · exact h

protected theorem Steady.onInst {c i : Nat} {f : Inst → Inst} (h : Steady s t) (hf : ∀ x, (f x).serial = x.serial := by exact fun _ => rfl) :
    Steady s (onInst t c i f) := by
  unfold Machine.onInst
  split
  · rename_i x hx
    refine h.onInsts fun j y e => ?_
    by_cases hj : j = i
    · subst hj
      rw [sfind_sput_self] at e
      obtain rfl := Option.some.inj e
      exact ⟨x, hx, (hf x).symm⟩
    · rw [sfind_sput_ne _ _ hj] at e
      exact ⟨y, e, rfl⟩
  · exact h

protected theorem Steady.onPart {p : Nat} {f : Part → Part} (h : Steady s t) : Steady s (onPart t p f) := h.frame
protected theorem Steady.onVf {v : Nat} {f : Vf → Vf} (h : Steady s t) : Steady s (onVf t v f) := h.frame
protected theorem Steady.mark {n k : Nat} (h : Steady s t) : Steady s (mark t n k) := h.frame
protected theorem Steady.markPart {p n k : Nat} (h : Steady s t) : Steady s (markPart t p n k) := h.frame
protected theorem Steady.nextSeq (h : Steady s t) : Steady s (nextSeq t).2 := h.frame

protected theorem Steady.onLaunch {n : Nat} {f : Launch → Launch} (h : Steady s t) (hf : ∀ l, launchName (f l) = launchName l := by exact fun _ => rfl) :
    Steady s (onLaunch t n f) := by
  refine h.trans ⟨rfl, rfl, rfl, ?_, fun e => ⟨_, e, rfl⟩⟩
  simp only [Machine.onLaunch, List.map_map]
  refine List.map_congr_left fun l _ => ?_
  simp only [Function.comp_apply]
  split
  · exact hf l
  · rfl

/-! ### Ways to go on -/

protected theorem Steady.ite (h : Steady s t) (g : Steady s u) {p : Prop} {_ : Decidable p} : Steady s (if p then t else u) := by
  split
  · exact h
  · exact g

protected theorem Steady.foldl (h : Steady s t) {α : Type} {l : List α} {f : State → α → State} (hf : ∀ {u x}, Steady s u → Steady s (f u x)) :
    Steady s (l.foldl f t) := by
  induction l generalizing t with
  | nil => exact h
  | cons x r ih => exact ih (hf h)

/-- The state in a result that is known. -/
theorem Steady.of_pair {α : Type} {p : α × State} {a : α} (h : Steady s p.2) (e : p = (a, u)) : Steady s u := by
  subst e; exact h

theorem Steady.of_third {α β : Type} {p : α × β × State} {a : α} {b : β} (h : Steady s p.2.2) (e : p = (a, b, u)) : Steady s u := by
  subst e; exact h

/-! ## Memory and caches (08) -/

protected theorem Steady.writeMem {k : Nat} {d : List Byte} (h : Steady s t) : Steady s (writeMem t k d) := h.onlyMem (onlyMem_writeMem t k d)

protected theorem Steady.writeBack {k : Nat} {l : Line} (h : Steady s t) : Steady s (writeBack t k l) := h.onlyMem (onlyMem_writeBack t k l)

protected theorem Steady.dropSlice {p line : Nat} (h : Steady s t) : Steady s (dropSlice t p line) := by
  unfold Machine.dropSlice
  split
  · exact h.writeBack.onPart
  · exact h

protected theorem Steady.putSlice {p line : Nat} {l : Line} (h : Steady s t) : Steady s (putSlice t p line l) := by
  unfold Machine.putSlice
  exact (h.ite h.dropSlice).onPart

protected theorem Steady.putBelow {p line : Nat} {l : Line} (h : Steady s t) : Steady s (putBelow t p line l) :=
  h.ite (h.dropSlice.writeBack.ite h.putSlice)

protected theorem Steady.leaveL1 {c line : Nat} (h : Steady s t) : Steady s (leaveL1 t c line) := by
  unfold Machine.leaveL1
  split
  · exact h.onCore.putBelow
  · exact h

protected theorem Steady.putL1 {c line : Nat} {l : Line} (h : Steady s t) : Steady s (putL1 t c line l) := by
  unfold Machine.putL1
  exact (h.ite h.leaveL1).onCore

protected theorem Steady.dropLine {c line : Nat} (h : Steady s t) : Steady s (dropLine t c line) := h.leaveL1.dropSlice

protected theorem Steady.flushCore {c : Nat} (h : Steady s t) : Steady s (flushCore t c) := by
  unfold Machine.flushCore
  exact (Steady.foldl h .putBelow).onCore

protected theorem Steady.flushPart {p : Nat} (h : Steady s t) : Steady s (flushPart t p) := by
  unfold Machine.flushPart
  exact (Steady.foldl h .writeBack).onPart

protected theorem Steady.flushL1 {c : Nat} (h : Steady s t) : Steady s (flushL1 t c) := h.flushCore.flushPart

protected theorem Steady.purgeLine {line : Nat} (h : Steady s t) : Steady s (purgeLine t line) := .foldl (.foldl h .leaveL1) .dropSlice

protected theorem Steady.storeSlice {c k : Nat} {d : List Byte} (h : Steady s t) : Steady s (storeSlice t c k d) :=
  h.leaveL1.dropSlice.writeMem.ite h.leaveL1.putSlice

protected theorem Steady.storeLine {c k : Nat} {d : List Byte} {dp : Depth} (h : Steady s t) : Steady s (storeLine t c k d dp) := by
  unfold Machine.storeLine
  refine h.dropLine.writeMem.ite (h.storeSlice.ite ?_)
  split
  · exact h.putL1
  · exact h.dropLine.writeMem.ite (h.ite h.putSlice).putL1

/-! ### Stages (20 R398, R399) -/

protected theorem Steady.commitLine {m : List Host.Cell} {line : Nat} (h : Steady s t) : Steady s (commitLine m t line) :=
  h.writeMem.ite (.foldl h .writeMem)

protected theorem Steady.commitStage {n : Nat} {early : Bool} (h : Steady s t) : Steady s (commitStage t n early) := by
  unfold Machine.commitStage
  split
  · exact h
  · exact .onLaunch (.foldl (.foldl (.foldl h .purgeLine) .commitLine) .onVf)

protected theorem Steady.writeFor {n : Option Nat} {k : Nat} {d : List Byte} {direct : State → State} (h : Steady s t)
    (hd : ∀ {u}, Steady s u → Steady s (direct u)) : Steady s (writeFor t n k d direct) := by
  unfold Machine.writeFor
  split
  · exact hd h
  · exact (h.onLaunch.ite (hd h.commitStage)).ite (hd h)

/-! ### Accesses of a core -/

protected theorem Steady.storeGlobal {c k : Nat} {l : Option Nat} {d : List Byte} {dp : Depth} (h : Steady s t) : Steady s (storeGlobal t c l k d dp) :=
  h.writeFor .storeLine

protected theorem Steady.readHome {c k n : Nat} {l : Option Nat} (h : Steady s t) : Steady s (readHome t c l k n).2.2 := .foldl h .dropLine

protected theorem Steady.writeHome {c k : Nat} {l : Option Nat} {d : List Byte} (h : Steady s t) : Steady s (writeHome t c l k d) :=
  .writeFor (.foldl h .dropLine) .writeMem

/-- A search for a leaf changes the TLBs and counts walks. -/
protected theorem Steady.findLeaf {c vf va : Nat} (h : Steady s t) : Steady s (findLeaf t c vf va).2 :=
  findLeaf_keeps (P := fun x => Steady s x) t c vf va h (fun _ h => h.frame) (fun _ _ hf h => h.onCore fun y => (congrArg Core.insts (hf y) :)) (fun _ _ _ _ h => h.onPart)

protected theorem Steady.translate {c vf va : Nat} {a : Acc} {handler : Bool} (h : Steady s t) : Steady s (translate t c vf va a handler).2 := by
  unfold Machine.translate
  split
  · exact h
  split
  · rename_i e
    exact h.findLeaf.of_pair e
  · rename_i e
    split <;> exact h.findLeaf.of_pair e

/-! ## Stores that drain (07 R159) -/

protected theorem Steady.releaseAt {c : Nat} {sc : Scope} (h : Steady s t) : Steady s (releaseAt t c sc) := h.flushL1.ite (h.flushCore.ite h)

protected theorem Steady.performThread {c : Nat} {serial : Option Nat} {dp : Depth} {x : ThreadStore} (h : Steady s t) :
    Steady s (performThread t c serial dp x) := by
  unfold Machine.performThread
  split
  · exact h.onCore
  split
  · exact (h.readHome (l := serial)).writeHome
  · exact h.storeGlobal

protected theorem Steady.performStore {c : Nat} {serial : Option Nat} {r : StoreReq} (h : Steady s t) : Steady s (performStore t c serial r) := by
  unfold Machine.performStore
  split
  · exact .foldl h.releaseAt .performThread
  · exact .foldl h .performThread

protected theorem Steady.setQueue {a : Agent} {q : List StoreReq} (h : Steady s t) : Steady s (setQueue t a q) := by
  unfold Machine.setQueue
  split
  · exact h.onWeave
  · exact h.onInst
  · exact h.onCore

protected theorem Steady.drainAll {a : Agent} (h : Steady s t) : Steady s (drainAll t a) := .foldl h.setQueue .performStore

protected theorem Steady.commitAgent {a : Agent} (h : Steady s t) : Steady s (commitAgent t a) := by
  unfold Machine.commitAgent
  split
  · exact h.onWeave
  · exact h.onInst
  · exact h.onCore

protected theorem Steady.onPair {a : Agent} {f : Pair → Pair} (h : Steady s t) : Steady s (onPair t a f) := by
  cases a with
  | weave c k => exact h.onWeave
  | steer c k => exact h.onInst
  | handler c => exact h

/-! ## Commands that complete (R177) -/

theorem insts_untagAll (x : Core) (w : Weave) : (untagAll x w).1.insts = x.insts := by
  have h1 := (untagV_spec (w.vtags.map (·.1)) x w).1
  have h2 := (untagS_spec (w.stags.map (·.1)) (untagV x w (w.vtags.map (·.1))).1 (untagV x w (w.vtags.map (·.1))).2).1
  have hi := congrArg Core.insts h1
  exact (congrArg Core.insts h2).trans hi

protected theorem Steady.setHead {c q : Nat} {f : Cmd → Cmd} (h : Steady s t) : Steady s (setHead t c q f) := h.onCore

protected theorem Steady.stopQueue {c q : Nat} {m : Cmd} {cause va : Nat} (h : Steady s t) : Steady s (stopQueue t c q m cause va) := by
  unfold Machine.stopQueue
  refine .ite ?_ (h.nextSeq.setHead.onCore.ite h.nextSeq.setHead)
  split
  · exact (h.nextSeq.setHead.onCore.ite h.nextSeq.setHead).onLaunch
  · exact h.nextSeq.setHead.onCore.ite h.nextSeq.setHead

protected theorem Steady.giveReads {a : Agent} {pc : Double} (h : Steady s t) : Steady s (giveReads t a pc) := by
  unfold Machine.giveReads
  split
  · exact h.ite (h.onPair.ite h.onPair.onPair)
  · exact h

/-- Instances removed leave those that stood there. -/
protected theorem Steady.shrunk (h : Steady s t) (g : Shrunk t u) : Steady s u :=
  h.trans ⟨(congrArg State.nextLsn g.rest :), (congrArg State.out g.rest :), (congrArg State.images g.rest :),
    congrArg _ (congrArg State.launches g.rest :), fun e => ⟨_, g.insts e, rfl⟩⟩

protected theorem Steady.removeInst {c i : Nat} (h : Steady s t) : Steady s (removeInst t c i) := h.shrunk (shrunk_removeInst t c i)

protected theorem Steady.settleInst {c i : Nat} (h : Steady s t) : Steady s (settleInst t c i) := by
  unfold Machine.settleInst
  split
  · split
    · exact h
    · exact h.removeInst.ite h.removeInst.onLaunch
  · exact h

protected theorem Steady.counterAdd {g : Eng} (h : Steady s t) : Steady s (counterAdd g t).2 := by
  unfold Machine.counterAdd
  split
  · exact h
  split
  · exact h
  split <;> rename_i e
  · exact h.translate.of_pair e
  have h₁ := h.translate.of_pair e
  split <;> rename_i e₂
  · exact h₁.readHome.of_third e₂
  · exact (h₁.readHome.of_third e₂).writeHome

protected theorem Steady.completeCmd {g : Eng} (h : Steady s t) : Steady s (completeCmd t g) := by
  unfold Machine.completeCmd
  split <;> rename_i e
  · exact (h.counterAdd.of_pair e).stopQueue
  · exact ((h.counterAdd.of_pair e).giveReads.onCore).onInst.settleInst

/-! ## Tensors read and written (13) -/

/-- A read that moves nothing but bytes and lines. -/
def SteadyRd (rd : Rd) : Prop := ∀ ⦃t : State⦄ ⦃va n : Nat⦄, Steady t (rd t va n).2

theorem Steady.rd {rd : Rd} {va n : Nat} (h : Steady s t) (hr : SteadyRd rd) : Steady s (rd t va n).2 := h.trans (@hr t va n)

theorem steadyRd_homeRd (g : Eng) : SteadyRd (homeRd g) := fun t va n => by
  unfold homeRd
  split <;> rename_i e
  · exact (Steady.refl t).translate.of_pair e
  have h₁ := (Steady.refl t).translate.of_pair e
  split <;> rename_i e₂ <;> exact h₁.readHome.of_third e₂

section Read

variable {rd : Rd} {r : TRec} {xs : List Nat} {win : List (Option Nat)}

protected theorem Steady.readPieces {fuel va n : Nat} (h : Steady s t) (hr : SteadyRd rd) : Steady s (readPieces rd fuel t va n).2 := by
  induction fuel generalizing t va n with
  | zero => exact h
  | succ fuel ih =>
    unfold Machine.readPieces
    dsimp only
    split
    · exact h
    split <;> rename_i e
    · exact (h.rd hr).of_pair e
    have h₁ := (h.rd hr).of_pair e
    split <;> rename_i e₂ <;> exact (ih h₁).of_pair e₂

protected theorem Steady.readRec {addr : Nat} (h : Steady s t) (hr : SteadyRd rd) : Steady s (readRec rd t addr).2 := by
  unfold Machine.readRec
  split <;> rename_i e
  · exact (h.readPieces hr).of_pair e
  split <;> exact (h.readPieces hr).of_pair e

protected theorem Steady.readCode (h : Steady s t) (hr : SteadyRd rd) : Steady s (readCode rd r xs t).2 := by
  unfold Machine.readCode
  split <;> rename_i e <;> exact (h.rd hr).of_pair e

protected theorem Steady.readSide (h : Steady s t) (hr : SteadyRd rd) : Steady s (readSide rd r xs t).2 := by
  unfold Machine.readSide
  split <;> rename_i e
  · exact (h.rd hr).of_pair e
  split <;> exact (h.rd hr).of_pair e

protected theorem Steady.countEscapes {n i : Nat} (h : Steady s t) (hr : SteadyRd rd) : Steady s (countEscapes rd r xs n i t).2 := by
  induction n generalizing t i with
  | zero => exact h
  | succ n ih =>
    unfold Machine.countEscapes
    split <;> rename_i e
    · exact (h.readCode hr).of_pair e
    have h₁ := (h.readCode hr).of_pair e
    split <;> rename_i e₂ <;> exact (ih h₁).of_pair e₂

protected theorem Steady.readOutlier {side : Nat} (h : Steady s t) (hr : SteadyRd rd) : Steady s (readOutlier rd r xs side t).2 := by
  unfold Machine.readOutlier
  dsimp only
  split <;> rename_i e
  · exact (h.countEscapes hr).of_pair e
  · exact ((h.countEscapes hr).of_pair e).rd hr

protected theorem Steady.readElem (h : Steady s t) (hr : SteadyRd rd) : Steady s (readElem rd r xs t).2 := by
  unfold Machine.readElem
  dsimp only
  split <;> rename_i e
  · exact (h.readCode hr).of_pair e
  have h₁ := (h.readCode hr).of_pair e
  split
  · exact h₁
  split <;> rename_i e₂
  · exact (h₁.readSide hr).of_pair e₂
  have h₂ := (h₁.readSide hr).of_pair e₂
  split
  · split <;> rename_i e₃ <;> exact (h₂.readOutlier hr).of_pair e₃
  · exact h₂

protected theorem Steady.readCodes {l : List (List Nat)} (h : Steady s t) (hr : SteadyRd rd) : Steady s (readCodes rd r win l t).2 := by
  induction l generalizing t with
  | nil => exact h
  | cons xs rest ih =>
    unfold Machine.readCodes
    have h₁ : Steady s (if beyondWindow win xs then (.ok 0, t) else readCode rd r xs t).2 := by
      split
      · exact h
      · exact h.readCode hr
    split <;> rename_i e
    · exact h₁.of_pair e
    have h₂ := ih (h₁.of_pair e)
    split <;> rename_i e₂ <;> exact h₂.of_pair e₂

protected theorem Steady.lineScales {line : Nat} {l : List Nat} (h : Steady s t) (hr : SteadyRd rd) : Steady s (lineScales rd r xs line l t).2 := by
  induction l generalizing t with
  | nil => exact h
  | cons b rest ih =>
    unfold Machine.lineScales
    split <;> rename_i e
    · exact (h.readSide hr).of_pair e
    have h₁ := ih ((h.readSide hr).of_pair e)
    split <;> rename_i e₂ <;> exact h₁.of_pair e₂

protected theorem Steady.lineOutliers {line : Nat} {l : List (Nat × List Nat × Nat)} (h : Steady s t) (hr : SteadyRd rd) :
    Steady s (lineOutliers rd r win line l t).2 := by
  induction l generalizing t with
  | nil => exact h
  | cons x rest ih =>
    obtain ⟨i, xs, code⟩ := x
    unfold Machine.lineOutliers
    split
    · split <;> rename_i e
      · exact (h.readSide hr).of_pair e
      have h₁ := (h.readSide hr).of_pair e
      split <;> rename_i e₂
      · exact (h₁.readOutlier hr).of_pair e₂
      have h₂ := ih ((h₁.readOutlier hr).of_pair e₂)
      split <;> rename_i e₃ <;> exact h₂.of_pair e₃
    · exact ih h

protected theorem Steady.lineSide {line : Nat} {codes : List Nat} (h : Steady s t) (hr : SteadyRd rd) : Steady s (lineSide rd r win xs line codes t).2 := by
  unfold Machine.lineSide
  extract_lets n cs head
  have hh : Steady s head.2 := by
    unfold head
    split
    · exact h.lineScales hr
    split
    · split <;> rename_i e <;> exact (h.readSide hr).of_pair e
    · exact h
  clear_value head
  split
  · exact hh
  split <;> rename_i e <;> exact (hh.lineOutliers hr).of_pair e

protected theorem Steady.boxSide {l : List (Nat × List Nat)} (h : Steady s t) (hr : SteadyRd rd) : Steady s (boxSide rd r win xs l t).2 := by
  induction l generalizing t with
  | nil => exact h
  | cons x rest ih =>
    obtain ⟨line, codes⟩ := x
    unfold Machine.boxSide
    split <;> rename_i e
    · exact (h.lineSide hr).of_pair e
    have h₁ := ih ((h.lineSide hr).of_pair e)
    split <;> rename_i e₂ <;> exact h₁.of_pair e₂

protected theorem Steady.boxCodes {l : List Nat} (h : Steady s t) (hr : SteadyRd rd) : Steady s (boxCodes rd r win xs l t).2 := by
  induction l generalizing t with
  | nil => exact h
  | cons line rest ih =>
    unfold Machine.boxCodes
    split <;> rename_i e
    · exact (h.readCodes hr).of_pair e
    have h₁ := ih ((h.readCodes hr).of_pair e)
    split <;> rename_i e₂ <;> exact h₁.of_pair e₂

protected theorem Steady.loadBox {g : Eng} {i tx : Nat} (h : Steady s t) (hr : SteadyRd rd) : Steady s (loadBox g rd i tx r xs t).2 := by
  unfold Machine.loadBox
  split <;> rename_i e
  · exact (h.boxCodes hr).of_pair e
  have h₁ := (h.boxCodes hr).of_pair e
  split <;> rename_i e₂
  · exact (h₁.boxSide hr).of_pair e₂
  split
  · exact (h₁.boxSide hr).of_pair e₂
  · dsimp only
    exact ((h₁.boxSide hr).of_pair e₂).onCore

protected theorem Steady.winOne {mode : RMode} {cs : List Nat} (h : Steady s t) (hr : SteadyRd rd) : Steady s (winOne rd r win mode cs t).2 := by
  unfold Machine.winOne
  split
  · exact h
  split <;> rename_i e <;> exact (h.readElem hr).of_pair e

protected theorem Steady.winValues {mode : RMode} {l : List (Nat × Nat)} (h : Steady s t) (hr : SteadyRd rd) :
    Steady s (winValues rd r win mode xs l t).2 := by
  induction l generalizing t with
  | nil => exact h
  | cons p rest ih =>
    unfold Machine.winValues
    split <;> rename_i e
    · exact (h.winOne hr).of_pair e
    have h₁ := ih ((h.winOne hr).of_pair e)
    split <;> rename_i e₂ <;> exact h₁.of_pair e₂

protected theorem Steady.loadWin {g : Eng} {rim : Nat} {w : RimWin} {mode : RMode} (h : Steady s t) (hr : SteadyRd rd) :
    Steady s (loadWin g rd rim r xs w mode t).2 := by
  unfold Machine.loadWin
  split <;> rename_i e
  · exact (h.winValues hr).of_pair e
  · dsimp only
    exact ((h.winValues hr).of_pair e).onCore

protected theorem Steady.engWrite {g : Eng} {va : Nat} {d m : List Byte} (h : Steady s t) : Steady s (engWrite g t va d m).2 := by
  unfold Machine.engWrite
  split
  · exact h
  split <;> rename_i e
  · exact h.translate.of_pair e
  have h₁ := h.translate.of_pair e
  split
  · exact h₁.writeHome
  · exact (h₁.readHome (l := g.serial)).writeHome

protected theorem Steady.writeElems {g : Eng} {l : List (List Nat × Nat)} (h : Steady s t) : Steady s (writeElems g r win l t).2 := by
  induction l generalizing t with
  | nil => exact h
  | cons x rest ih =>
    obtain ⟨xs, code⟩ := x
    unfold Machine.writeElems
    have h₁ : Steady s (if beyondWindow win xs then (.ok (), t) else engElem g r xs code t).2 := by
      split
      · exact h
      · exact h.engWrite
    split <;> rename_i e
    · exact h₁.of_pair e
    · exact ih (h₁.of_pair e)

protected theorem Steady.storeWin {g : Eng} {rim : Nat} {w : RimWin} {mode : RMode} (h : Steady s t) : Steady s (storeWin g rim r xs w mode t).2 :=
  h.writeElems

end Read

/-! ## Tile nodes (R329) -/

section Tile

variable {g : Eng} {x : Tile}

protected theorem Steady.tileLoad {u tx : Nat} {xs : List Nat} (h : Steady s t) : Steady s (tileLoad g x u tx xs t).2 := by
  unfold Machine.tileLoad
  split <;> rename_i e
  · exact (h.readRec (steadyRd_homeRd g)).of_pair e
  have h₁ := (h.readRec (steadyRd_homeRd g)).of_pair e
  split
  · exact h₁
  · exact h₁.onCore.loadBox (steadyRd_homeRd g)

protected theorem Steady.tileProduct {sa sb rim kt : Nat} (h : Steady s t) : Steady s (tileProduct g x sa sb rim kt t).2 := by
  unfold Machine.tileProduct
  split <;> rename_i e
  · exact h.tileLoad.of_pair e
  have h₁ := h.tileLoad.of_pair e
  split <;> rename_i e₂
  · exact h₁.tileLoad.of_pair e₂
  have h₂ := h₁.tileLoad.of_pair e₂
  split
  · exact h₂
  · dsimp only
    exact h₂.onCore

protected theorem Steady.tileSteps {sa sb rim n kt : Nat} (h : Steady s t) : Steady s (tileSteps g x sa sb rim n kt t).2 := by
  induction n generalizing t kt with
  | zero => exact h
  | succ n ih =>
    unfold Machine.tileSteps
    split <;> rename_i e
    · exact h.tileProduct.of_pair e
    · exact ih (h.tileProduct.of_pair e)

protected theorem Steady.tileFirst {rim : Nat} (h : Steady s t) : Steady s (tileFirst g x rim t).2 := by
  unfold Machine.tileFirst
  dsimp only
  split
  · dsimp only
    exact h.onCore
  split <;> rename_i e
  · exact (h.readRec (steadyRd_homeRd g)).of_pair e
  have h₁ := (h.readRec (steadyRd_homeRd g)).of_pair e
  split
  · exact h₁
  · exact h₁.loadWin (steadyRd_homeRd g)

protected theorem Steady.tileLast {rim : Nat} (h : Steady s t) : Steady s (tileLast g x rim t).2 := by
  unfold Machine.tileLast
  dsimp only
  split <;> rename_i e
  · exact (h.readRec (steadyRd_homeRd g)).of_pair e
  have h₁ := (h.readRec (steadyRd_homeRd g)).of_pair e
  split
  · exact h₁
  · exact h₁.storeWin

/-- A tile node's run gives no launch serial. -/
protected theorem Steady.tileRun {sa sb rim : Nat} (h : Steady s t) : Steady s (tileRun g x sa sb rim t).2 := by
  unfold Machine.tileRun
  split <;> rename_i e
  · exact h.tileFirst.of_pair e
  have h₁ := h.tileFirst.of_pair e
  split <;> rename_i e₂
  · exact h₁.tileSteps.of_pair e₂
  · exact (h₁.tileSteps.of_pair e₂).tileLast

end Tile

end Steady

end Sys2Proof.Machine

/-!
# Nodes complete

A kernel node whose instances have all ended leaves its launch, writes its status and serves its successors; a tile node is run whole, its units
free again.
-/

namespace Sys2Proof.Machine

open Sys2Proof

/-! ## A launch taken off the list -/

section Off

variable {s t : State}

/-- The machine with another list of launches. -/
def withLaunches (s : State) (ls : List Launch) : State := { s with launches := ls }

theorem sameTables_withLaunches (s : State) (ls : List Launch) : SameTables s (withLaunches s ls) :=
  ⟨rfl, rfl, rfl, rfl, rfl, fun _ => rfl, fun _ => rfl, fun _ _ => rfl⟩

theorem writeMem_withLaunches (s : State) (ls : List Launch) (k : Nat) (d : List Byte) :
    writeMem (withLaunches s ls) k d = withLaunches (writeMem s k d) ls := by
  have hg : ∀ (gs : List Nat) (s : State), gs.foldl scrubGranule (withLaunches s ls) = withLaunches (gs.foldl scrubGranule s) ls := by
    intro gs
    induction gs with
    | nil => exact fun _ => rfl
    | cons g r ih =>
      intro s
      have hs : scrubGranule (withLaunches s ls) g = withLaunches (scrubGranule s g) ls := by
        by_cases hu : nmem s.unscrubbed g = true
        · simp only [scrubGranule, withLaunches, hu, if_true]
        · simp only [scrubGranule, withLaunches, hu, Bool.false_eq_true, if_false]
      rw [List.foldl_cons, List.foldl_cons, hs, ih]
  unfold writeMem
  split
  · rfl
  · simp only [hg]
    rfl

theorem selfWrite_withLaunches (s : State) (ls : List Launch) (vf va : Nat) (d : List Byte) :
    selfWrite (withLaunches s ls) vf va d = withLaunches (selfWrite s vf va d) ls := by
  unfold selfWrite
  rw [(sameTables_withLaunches s ls).selfKey]
  split
  · rfl
  · exact writeMem_withLaunches _ _ _ _

theorem filter_onLaunch (s : State) {f : Launch → Launch} (hf : ∀ l, (f l).serial = l.serial) (n : Nat) :
    (onLaunch s n f).launches.filter (fun y => y.serial != n) = s.launches.filter (fun y => y.serial != n) := by
  simp only [onLaunch]
  induction s.launches with
  | nil => rfl
  | cons l r ih =>
    rw [List.map_cons, List.filter_cons, List.filter_cons, ih]
    by_cases h : l.serial = n <;> simp [h, hf]

theorem getLaunch_without_self (s : State) (n : Nat) : getLaunch (withLaunches s (s.launches.filter (fun y => y.serial != n))) n = none := by
  simp [getLaunch, withLaunches]

theorem getLaunch_without_ne (s : State) {n m : Nat} (h : m ≠ n) :
    getLaunch (withLaunches s (s.launches.filter (fun y => y.serial != n))) m = getLaunch s m := by
  simp only [getLaunch, withLaunches, List.find?_filter]
  congr 1
  funext l
  by_cases hl : l.serial = m
  · simp [hl, h]
  · simp [hl]

/-- A launch once its stage is committed (20 R398). -/
def asCommitted (early : Bool) (l : Launch) : Launch := { l with staged := [], freed := [], blocks := [], early := early || l.early }

/-- A stage without bytes and freed blocks changes its launch alone. -/
theorem commitStage_empty {n : Nat} {l : Launch} (hl : getLaunch s n = some l) (hs : l.staged = []) (hf : l.freed = []) (early : Bool) :
    commitStage s n early = onLaunch s n (asCommitted early) := by
  simp only [commitStage, hl, hs, hf, linesOf, List.foldl_nil]
  rfl

end Off

/-! ## Caches flushed -/

/-- Stores of some cores written to memory: no launch, no message, no queue changes. -/
theorem foldl_flushL1_spec (cs : List Nat) (s : State) : (cs.foldl flushL1 s).launches = s.launches ∧ (cs.foldl flushL1 s).out = s.out ∧
    ∀ p, (getPart (cs.foldl flushL1 s) p).ready = (getPart s p).ready := by
  induction cs generalizing s with
  | nil => exact ⟨rfl, rfl, fun _ => rfl⟩
  | cons c r ih =>
    obtain ⟨h1, h2, h3⟩ := ih (flushL1 s c)
    have hm : LinesMoved s (flushL1 s c) c := (linesMoved_flushCore s c).trans (linesMoved_flushPart _ c)
    exact ⟨h1.trans (congrArg State.launches hm.rest :), h2.trans (congrArg State.out hm.rest :),
      fun p => (h3 p).trans (congrArg Part.ready (hm.parts p) :)⟩

/-! ## Kernel nodes (R96, R446) -/

section Kernel

variable {s : State} {l : Launch}

theorem exec_kernelNodeComplete_runs (hl : getLaunch s l.serial = some l) (h : launchOver s l = false) : exec (.kernelNodeComplete l.serial) s = .next s := by
  change execKernelNodeComplete l.serial s = _
  simp only [execKernelNodeComplete, hl, h, Bool.and_false, Bool.false_eq_true, if_false]

/-- The machine in which a node that is over finishes: its stores in memory, its launch gone. -/
def overState (s : State) (l : Launch) : State := withLaunches (l.cores.foldl flushL1 s) (s.launches.filter (fun y => y.serial != l.serial))

theorem exec_kernelNodeComplete_over (hl : getLaunch s l.serial = some l) (h : launchOver s l = true) (hp : l.poison = none) (hs : l.staged = [])
    (hf : l.freed = []) : exec (.kernelNodeComplete l.serial) s = .next (finishNode (overState s l) l.vf l.addr l.part l.node l.lsn) := by
  obtain ⟨h1, -, -⟩ := foldl_flushL1_spec l.cores s
  have hl1 : getLaunch (l.cores.foldl flushL1 s) l.serial = some l := by rw [getLaunch, h1]; exact hl
  have hu : withLaunches (onLaunch (l.cores.foldl flushL1 s) l.serial (asCommitted false))
      ((onLaunch (l.cores.foldl flushL1 s) l.serial (asCommitted false)).launches.filter (fun y => y.serial != l.serial)) = overState s l := by
    rw [filter_onLaunch _ (f := asCommitted false) (fun _ => rfl), h1]
    rfl
  change execKernelNodeComplete l.serial s = _
  simp only [execKernelNodeComplete, hl, hp, h, Option.isNone_none, Bool.and_self, if_true, commitStage_empty hl1 hs hf]
  exact congrArg (fun t => Host.Outcome.next (finishNode t l.vf l.addr l.part l.node l.lsn)) hu

/-- Where nothing changed the launches of that machine, the node's launch is gone and the others stand. -/
theorem gone_of_launches {t : State} (h : t.launches = (overState s l).launches) :
    getLaunch t l.serial = none ∧ ∀ n, n ≠ l.serial → getLaunch t n = getLaunch s n := by
  have hg : ∀ n, getLaunch t n = getLaunch (withLaunches s (s.launches.filter (fun y => y.serial != l.serial))) n := fun n => by
    rw [getLaunch, h]
    rfl
  exact ⟨(hg _).trans (getLaunch_without_self s _), fun n hn => (hg n).trans (getLaunch_without_ne s hn)⟩

/-- What a node sends when it completes (R96). -/
def endNotice (l : Launch) : List Msg := if l.node.notify then [.notice l.vf (noticeBytes 1 0 0 0 l.node.tag l.addr l.lsn 0)] else []

/-- A node that drops no decrement: its status, its successors as they leave the machine, its notice. -/
theorem finishNode_of_succs {s t : State} {vf addr part : Nat} {n : NodeRec} {lsn : Double}
    (h : serveSuccs vf part lsn ((List.range n.nsucc).map (fun i => (n.succ + 8 * i) % 2 ^ 64)) (writeStatus s vf addr 3) = (t, 0)) :
    finishNode s vf addr part n lsn = { t with out := t.out ++ (if n.notify then [.notice vf (noticeBytes 1 0 0 0 n.tag addr lsn 0)] else []) } := by
  simp only [finishNode, h, if_true]
  split
  · rfl
  · rw [List.append_nil]

theorem serveSuccs_none {s : State} {vf post : Nat} {lsn : Double} {n : NodeRec} (h : n.nsucc = 0) :
    serveSuccs vf post lsn ((List.range n.nsucc).map (fun i => (n.succ + 8 * i) % 2 ^ 64)) s = (s, 0) := by
  rw [h]
  rfl

theorem serveSuccs_one {s t : State} {vf post : Nat} {lsn : Double} {n : NodeRec} (h : n.nsucc = 1) (hs : n.succ < 2 ^ 64)
    (hx : serveSucc s vf post n.succ lsn = (t, 0)) : serveSuccs vf post lsn ((List.range n.nsucc).map (fun i => (n.succ + 8 * i) % 2 ^ 64)) s = (t, 0) := by
  have hl : (List.range n.nsucc).map (fun i => (n.succ + 8 * i) % 2 ^ 64) = [n.succ] := by
    rw [h]
    simp only [List.range_one, List.map_cons, List.map_nil, Nat.mul_zero, Nat.add_zero, Nat.mod_eq_of_lt hs]
  rw [hl]
  simp only [serveSuccs, hx]

end Kernel

/-! ### Successors -/

section Succ

variable {s t : State} {vf post list k : Nat} {lsn : Double} {d : List Byte}

theorem SameTables.readWait (h : SameTables s t) (vf addr : Nat) : Machine.readWait t vf addr = Machine.readWait s vf addr := by
  simp only [Machine.readWait, h.selfRead]

/-- A successor that waits for more has one less to wait for. -/
theorem serveSucc_waits {w : Nat} (hd : selfRead s vf list 8 true = .ok d) (hw : readWait s vf (natLE d) = .ok (w + 2)) :
    serveSucc s vf post list lsn = (selfWrite s vf (natLE d + 4) (bytesLE 4 (w + 1)), 0) := by
  simp only [serveSucc, hd, hw, Nat.add_eq_zero_iff, Nat.one_ne_zero, and_false, if_false]

/-- A successor that waits for this node alone is checked and becomes ready. -/
theorem serveSucc_wakes {n : NodeRec} {h : Option Header} (hd : selfRead s vf list 8 true = .ok d) (hw : readWait s vf (natLE d) = .ok 1)
    (hn : readNode (selfWrite s vf (natLE d + 4) (bytesLE 4 0)) vf (natLE d) = .ok n) (hz : n.status = 0)
    (hc : checkRec (selfWrite s vf (natLE d + 4) (bytesLE 4 0)) vf (natLE d) post n = .ok h) :
    serveSucc s vf post list lsn = (makeReady (selfWrite s vf (natLE d + 4) (bytesLE 4 0)) vf (natLE d) (partFor n post) n h, 0) := by
  simp only [serveSucc, hd, hw, if_true, wakeNode, hn, hz, hc, bne_self_eq_false, Bool.false_eq_true, if_false]

theorem memBytes_selfWrite_four (h : selfKey s vf k true = .ok list) (n : Nat) : memBytes (selfWrite s vf k (bytesLE 4 n)) list 4 = bytesLE 4 n := by
  simp only [selfWrite, h]
  exact memBytes_writeMem_self s list (bytesLE 4 n)

end Succ

/-- A status depends on the tables that permit its write and on memory alone. -/
theorem statusIs.congr {s s' t t' : State} {vf addr n : Nat} (h : statusIs s' t vf addr n) (hs : SameTables s s') (ht : ∀ j, memByte t' j = memByte t j) :
    statusIs s t' vf addr n := by
  intro k hk hw
  have hb := h k hk ((hs.selfKey _ _ _).trans hw)
  simp only [memBytes] at hb ⊢
  rw [ht, ht]
  exact hb

theorem launches_makeReady {s : State} {vf addr p : Nat} {n : NodeRec} {h : Option Header} : (makeReady s vf addr p n h).launches = s.launches := by
  rw [makeReady, enqueue_eq, (onlyMem_relink _ p).field State.launches]
  exact (onlyMem_writeStatus _ vf addr 1).field State.launches

/-! ### What a kernel node's completion leaves -/

section Finish

variable {s t : State} {l : Launch}

/-- The machine once the status of a node that is over is 3, before its successors. -/
def endedState (s : State) (l : Launch) : State := writeStatus (l.cores.foldl flushL1 s) l.vf l.addr 3

theorem out_endedState (s : State) (l : Launch) : (endedState s l).out = s.out :=
  ((onlyMem_writeStatus _ l.vf l.addr 3).field State.out).trans (foldl_flushL1_spec l.cores s).2.1

theorem ready_endedState (s : State) (l : Launch) (p : Nat) : (getPart (endedState s l) p).ready = (getPart s p).ready :=
  ((onlyMem_writeStatus _ l.vf l.addr 3).field fun x => (getPart x p).ready).trans ((foldl_flushL1_spec l.cores s).2.2 p)

/-- The launches that stay. -/
def staying (s : State) (l : Launch) : List Launch := s.launches.filter (fun y => y.serial != l.serial)

/-- A kernel node whose successors leave the machine `t` with no decrement dropped: what its completion leaves besides. -/
theorem kernelNode_ends (hl : getLaunch s l.serial = some l) (h : launchOver s l = true) (hp : l.poison = none) (hs : l.staged = []) (hf : l.freed = [])
    (hx : serveSuccs l.vf l.part l.lsn ((List.range l.node.nsucc).map (fun i => (l.node.succ + 8 * i) % 2 ^ 64)) (withLaunches (endedState s l) (staying s l)) = (t, 0))
    (ht : t.launches = staying s l) (ho : t.out = s.out) :
    (exec (.kernelNodeComplete l.serial) s = .next { t with out := s.out ++ endNotice l } ∧ getLaunch { t with out := s.out ++ endNotice l } l.serial = none ∧
      ∀ n, n ≠ l.serial → getLaunch { t with out := s.out ++ endNotice l } n = getLaunch s n) := by
  have hw : writeStatus (overState s l) l.vf l.addr 3 = withLaunches (endedState s l) (staying s l) := selfWrite_withLaunches _ _ _ _ _
  refine ⟨?_, gone_of_launches (l := l) ht⟩
  rw [exec_kernelNodeComplete_over hl h hp hs hf, finishNode_of_succs (hw ▸ hx), ho]
  rfl

end Finish

/-! ## Tile nodes (R328, R329) -/

section Units

variable {x : Core} {u v : Nat}

theorem getSlot_freeUnits_self (x : Core) (hu : u < 32) : (getSlot (freeUnits x u 1) u).state = .free := by
  rw [freeUnits, if_neg (Nat.not_le.mpr hu)]
  simp only [unitsFrom, List.range_one, List.map_cons, List.map_nil, Nat.add_zero, List.foldl_cons, List.foldl_nil, getSlot, putSlot, sget_sput_self]
  rfl

theorem getSlot_freeUnits_ne (x : Core) (h : v ≠ u) : getSlot (freeUnits x u 1) v = getSlot x v := by
  unfold freeUnits
  split
  · rfl
  · simp only [unitsFrom, List.range_one, List.map_cons, List.map_nil, Nat.add_zero, List.foldl_cons, List.foldl_nil, getSlot, putSlot, sget_sput_ne _ _ _ h]

theorem getSlot_freeUnits_rim (x : Core) (r : Nat) : getSlot (freeUnits x (32 + r) 1) v = getSlot x v := by
  rw [freeUnits, if_pos (Nat.le_add_right _ _)]
  rfl

theorem getRim_freeUnits_self (x : Core) (r : Nat) : (getRim (freeUnits x (32 + r) 1) r).holder = .free := by
  rw [freeUnits, if_pos (Nat.le_add_right _ _)]
  simp only [unitsFrom, Nat.add_sub_cancel_left, List.range_one, List.map_cons, List.map_nil, Nat.add_zero, List.foldl_cons, List.foldl_nil, getRim, putRim,
    sget_sput_self]

/-- The slots of a tile node are two of the 32 (R328). -/
theorem lt_of_tileUnits {a b r : Nat} (h : tileUnits x = some (a, b, r)) : a < 32 ∧ b < 32 := by
  simp only [tileUnits] at h
  split at h
  · split at h
    · rename_i a' b' l r' m hs hr
      cases h
      have hm : ∀ y ∈ freeSlots x, y < 32 := fun y hy => List.mem_range.mp (List.mem_filter.mp hy).1
      rw [hs] at hm
      exact ⟨hm _ List.mem_cons_self, hm _ (List.mem_cons_of_mem _ List.mem_cons_self)⟩
    · cases h
  · cases h

theorem lt_of_tileCore {s : State} {p vf c a b r : Nat} (h : tileCore s p vf = some (c, a, b, r)) : a < 32 ∧ b < 32 := by
  obtain ⟨d, -, hd⟩ := List.exists_of_findSome?_eq_some h
  obtain ⟨⟨a', b', r'⟩, hu, he⟩ := Option.map_eq_some_iff.mp hd
  cases he
  exact lt_of_tileUnits hu

end Units

section Tile

variable {s t : State} {c a b rim p : Nat} {r : Ready}

/-- The units of a tile node are free. -/
def UnitsFree (t : State) (c a b rim : Nat) : Prop :=
  (getSlot (getCore t c) a).state = .free ∧ (getSlot (getCore t c) b).state = .free ∧ (getRim (getCore t c) rim).holder = .free

theorem unitsFree_tileFree (s : State) (c rim : Nat) (ha : a < 32) (hb : b < 32) (h : a ≠ b) : UnitsFree (tileFree s c a b rim) c a b rim := by
  unfold UnitsFree
  simp only [tileFree, getCore_onCore_self, getSlot_freeUnits_rim, getRim_freeUnits_self, and_true]
  exact ⟨by rw [getSlot_freeUnits_ne _ h]; exact getSlot_freeUnits_self _ ha, getSlot_freeUnits_self _ hb⟩

theorem sameTables_tileFree (s : State) (c a b rim : Nat) : SameTables s (tileFree s c a b rim) :=
  ⟨rfl, rfl, rfl, rfl, rfl, fun _ => rfl, fun _ => rfl, fun _ _ => rfl⟩

theorem exec_tileNodeRun_none (h : topTile s p = none) : exec (.tileNodeRun p) s = .next s := by
  change execTileNodeRun p s = _
  simp only [execTileNodeRun, h]

theorem exec_tileNodeRun_some (h : topTile s p = some r) (hc : tileCore s p r.vf = some (c, a, b, rim)) :
    exec (.tileNodeRun p) s = .next (runTile s p r c a b rim) := by
  change execTileNodeRun p s = _
  simp only [execTileNodeRun, h, hc]

variable {s2 : State} {e : Cause}

theorem runTile_ok (h : tileRun (tileEng c r.vf) (tileOf r.node.raw) a b rim (tileBegin s p r c rim) = (.ok (), s2)) :
    runTile s p r c a b rim = tileFree (finishNode s2 r.vf r.addr p r.node (BitVec.ofNat 64 s.nextLsn)) c a b rim := by
  simp only [runTile, h]

theorem runTile_error (h : tileRun (tileEng c r.vf) (tileOf r.node.raw) a b rim (tileBegin s p r c rim) = (.error e, s2)) (he : e.1 ≠ cPOISON) :
    runTile s p r c a b rim =
      tileFail (tileFree (if r.node.restartable then { tileBegin s p r c rim with seq := s2.seq } else s2) c a b rim) r s.nextLsn 16 e.1 := by
  simp only [runTile, h, he, if_false]

/-- A tile node that failed: its units free, its status 4, its notice sent; memory but the status as it was. -/
theorem tileFail_spec (u : State) (r : Ready) (c rim lsn cause : Nat) (ha : a < 32) (hb : b < 32) (h : a ≠ b) :
    UnitsFree (tileFail (tileFree u c a b rim) r lsn 16 cause) c a b rim ∧ (tileFail (tileFree u c a b rim) r lsn 16 cause).nextLsn = u.nextLsn ∧
      statusIs u (tileFail (tileFree u c a b rim) r lsn 16 cause) r.vf r.addr 4 ∧
      (tileFail (tileFree u c a b rim) r lsn 16 cause).out = u.out ++ [.notice r.vf (noticeBytes 2 16 cause 0 r.node.tag r.addr (BitVec.ofNat 64 lsn) 0)] ∧
      ∀ j, (∀ k, selfKey u r.vf (r.addr + 18) true = .ok k → j < k ∨ k + 2 ≤ j) → memByte (tileFail (tileFree u c a b rim) r lsn 16 cause) j = memByte u j := by
  have ho := onlyMem_writeStatus (tileFree u c a b rim) r.vf r.addr 4
  refine ⟨?_, ho.field State.nextLsn, fun k hk hs => ?_, congrArg (· ++ [_]) (ho.field State.out), fun j hj => ?_⟩
  · exact (ho.field (UnitsFree · c a b rim)).mpr (unitsFree_tileFree u c rim ha hb h)
  · exact statusIs_writeStatus (sameTables_tileFree u c a b rim) r.vf r.addr 4 k hk hs
  · change memByte (writeStatus (tileFree u c a b rim) r.vf r.addr 4) j = memByte (tileFree u c a b rim) j
    rw [← (sameTables_tileFree u c a b rim).selfKey] at hj
    unfold writeStatus selfWrite
    split
    · rfl
    · rename_i k hk
      have hl : (bytesLE 2 4).length = 2 := rfl
      have hn := hj k hk
      rw [memByte_writeMem, hl, if_neg (by omega)]

/-- A tile node that completed without successors. -/
theorem tileDone_spec (u : State) (r : Ready) (p c rim : Nat) (lsn : Double) (hn : r.node.nsucc = 0) (ha : a < 32) (hb : b < 32) (h : a ≠ b) :
    UnitsFree (tileFree (finishNode u r.vf r.addr p r.node lsn) c a b rim) c a b rim ∧
      (tileFree (finishNode u r.vf r.addr p r.node lsn) c a b rim).nextLsn = u.nextLsn ∧
      statusIs u (tileFree (finishNode u r.vf r.addr p r.node lsn) c a b rim) r.vf r.addr 3 ∧
      (tileFree (finishNode u r.vf r.addr p r.node lsn) c a b rim).out =
        u.out ++ (if r.node.notify then [.notice r.vf (noticeBytes 1 0 0 0 r.node.tag r.addr lsn 0)] else []) := by
  have ho := onlyMem_writeStatus u r.vf r.addr 3
  rw [finishNode_of_succs (serveSuccs_none hn)]
  refine ⟨unitsFree_tileFree _ c rim ha hb h, ho.field State.nextLsn, fun k hk hs => ?_, congrArg (· ++ _) (ho.field State.out)⟩
  exact statusIs_writeStatus (SameTables.refl u) r.vf r.addr 3 k hk hs

end Tile

/-- Settles O58: a finished launch leaves the list, its node's record and its successors' are written through tables that no launch changes; a tile
node's run ends by its result. -/
theorem nodesComplete : Obligations.NodesComplete := by
  unfold Obligations.NodesComplete
  refine ⟨fun s l hl => ⟨exec_kernelNodeComplete_runs hl, fun h hp hs hf => ?_⟩, fun s p => exec_tileNodeRun_none, fun s p r hr c a b rim s2 x hc => ?_⟩
  · have hst := sameTables_withLaunches (endedState s l) (staying s l)
    refine ⟨fun h0 => ?_, fun d w k h1 hb hd hw hk hk' => ?_, fun d n h' h1 hb hd hw => ?_⟩
    · have ht := kernelNode_ends hl h hp hs hf (serveSuccs_none h0) rfl (out_endedState s l)
      exact ⟨_, ht, fun k hk hs => statusIs_writeStatus (SameTables.refl _) l.vf l.addr 3 k hk hs, rfl⟩
    · have hx := serveSucc_waits (post := l.part) (lsn := l.lsn) ((hst.selfRead _ _ _ _).trans hd) ((hst.readWait _ _).trans hw)
      rw [selfWrite_withLaunches] at hx
      have ht := kernelNode_ends hl h hp hs hf (serveSuccs_one h1 hb hx) rfl
        (((onlyMem_selfWrite (endedState s l) _ _ _).field State.out).trans (out_endedState s l))
      exact ⟨_, ht, memBytes_selfWrite_four hk' (w + 1), rfl⟩
    · intro a s3 hn hz hck q
      have hs3 := sameTables_withLaunches s3 (staying s l)
      have hw3 : selfWrite (withLaunches (endedState s l) (staying s l)) l.vf (natLE d + 4) (bytesLE 4 0) = withLaunches s3 (staying s l) :=
        selfWrite_withLaunches _ _ _ _ _
      have hx := serveSucc_wakes (post := l.part) (lsn := l.lsn) ((hst.selfRead _ _ _ _).trans hd) ((hst.readWait _ _).trans hw)
        (hw3 ▸ (hs3.readNode _ _).trans hn) hz (hw3 ▸ (hs3.checkRec _ _ _ _).trans hck)
      rw [hw3] at hx
      obtain ⟨m1, m2, -, m4⟩ := makeReady_spec (h := h') (withLaunches s3 (staying s l)) l.vf a q n (aligned_of_checkRec hck)
      have hm := onlyMem_selfWrite (endedState s l) l.vf (natLE d + 4) (bytesLE 4 0)
      have hq : (getPart (withLaunches s3 (staying s l)) q).ready = (getPart s q).ready :=
        (hm.field fun x => (getPart x q).ready).trans (ready_endedState s l q)
      have ht := kernelNode_ends hl h hp hs hf (serveSuccs_one h1 hb hx) launches_makeReady
        (m2.trans ((hm.field State.out).trans (out_endedState s l)))
      rw [hq] at m1
      exact ⟨_, _, ht, fun hr => (m1 hr).congr hs3 fun _ => rfl, (congrArg Part.ready m4).trans (congrArg (· ++ [_]) hq), rfl, rfl, rfl, rfl⟩
  · intro free hrun hab
    obtain ⟨ha, hb⟩ := lt_of_tileCore hc
    have hx := exec_tileNodeRun_some hr hc
    refine ⟨fun he hn => ?_, fun e he hp hre => ?_, fun e he hp hre => ?_⟩ <;> subst he
    · rw [runTile_ok hrun] at hx
      obtain ⟨⟨f1, f2, f3⟩, f4, f5, f6⟩ := tileDone_spec s2 r p c rim (BitVec.ofNat 64 s.nextLsn) hn ha hb hab
      exact ⟨_, hx, ⟨f1, f2, f3, f4⟩, f5, f6⟩
    · rw [runTile_error hrun hp, hre, if_neg Bool.false_ne_true] at hx
      obtain ⟨⟨f1, f2, f3⟩, f4, f5, f6, -⟩ := tileFail_spec s2 r c rim s.nextLsn e.1 ha hb hab
      exact ⟨_, hx, ⟨f1, f2, f3, f4⟩, f5, f6⟩
    · intro s1
      rw [runTile_error hrun hp, hre, if_pos rfl] at hx
      have hst : Steady s1 s2 := (Steady.refl s1).tileRun.of_pair hrun
      obtain ⟨⟨f1, f2, f3⟩, f4, f5, f6, f7⟩ := tileFail_spec { s1 with seq := s2.seq } r c rim s.nextLsn e.1 ha hb hab
      have hq : SameTables s1 { s1 with seq := s2.seq } := ⟨rfl, rfl, rfl, rfl, rfl, fun _ => rfl, fun _ => rfl, fun _ _ => rfl⟩
      exact ⟨_, hx, ⟨f1, f2, f3, f4.trans hst.nextLsn.symm⟩, f5.congr hq fun _ => rfl, f6,
        fun j hj => f7 j fun k hk => hj k ((hq.selfKey _ _ _).symm.trans hk)⟩

end Sys2Proof.Machine

/-!
# Freeze and resume

A freeze stops a launch's copies one by one and records what is left as an image; a resume checks an image in order and queues its launch again.
-/

namespace Sys2Proof.Machine

-- One declaration after the other: many short ones at once take more threads than the check has room for.
set_option Elab.async false

open Sys2Proof

/-! ## A launch without instances stays so while its stage is committed -/

/-- No core holds instances of a launch. -/
def Vacant (n : Nat) (s : State) : Prop := ∀ e ∈ s.cores, ∀ i ∈ e.2.insts, i.2.serial ≠ n

theorem residents_eq_nil {s : State} {n : Nat} : residents s n = [] ↔ Vacant n s := by
  simp only [residents, List.flatMap_eq_nil_iff, List.filterMap_eq_nil_iff, Vacant]
  refine forall₂_congr fun e _ => forall₂_congr fun i _ => ?_
  by_cases h : i.2.serial = n <;> simp [h]

theorem mem_or_of_mem_sput {α : Type} {t : Sparse α} {k : Nat} {x : α} {e : Nat × α} (h : e ∈ sput t k x) : e = (k, x) ∨ e ∈ t := by
  induction t with
  | nil => exact .inl (by simpa [sput] using h)
  | cons z r ih =>
    simp only [sput] at h
    split at h
    · simpa using h
    split at h
    · exact (List.mem_cons.mp h).imp id (List.mem_cons_of_mem _)
    · rcases List.mem_cons.mp h with rfl | h
      · exact .inr List.mem_cons_self
      · exact (ih h).imp id (List.mem_cons_of_mem _)

/-- From `s` to `t` every launch stands as it stood, and no core came to hold an instance. -/
structure Unmoved (s t : State) : Prop where
  launches : t.launches = s.launches
  vacant : ∀ {n}, Vacant n s → Vacant n t

section Unmoved

variable {s t u : State}

protected theorem Unmoved.refl (s : State) : Unmoved s s := ⟨rfl, id⟩

protected theorem Unmoved.frame (h : Unmoved s t) (hl : u.launches = t.launches := by rfl) (hc : u.cores = t.cores := by rfl) : Unmoved s u :=
  ⟨hl.trans h.launches, fun hv => by unfold Vacant; rw [hc]; exact h.vacant hv⟩

protected theorem Unmoved.onlyMem (h : Unmoved s t) (g : OnlyMem t u) : Unmoved s u := h.frame (g.field State.launches) (g.field State.cores)

protected theorem Unmoved.onCore {c : Nat} {f : Core → Core} (h : Unmoved s t) (hf : ∀ x, (f x).insts = x.insts := by exact fun _ => rfl) :
    Unmoved s (onCore t c f) := by
  refine ⟨h.launches, fun {n} hv e he i hi => ?_⟩
  have ht := h.vacant hv
  rcases mem_or_of_mem_sput he with rfl | he
  · dsimp only at hi
    rw [hf] at hi
    simp only [getCore, sget] at hi
    cases hs : sfind t.cores c with
    | none => rw [hs] at hi; cases hi
    | some x => rw [hs] at hi; exact ht _ (mem_of_sfind hs) i hi
  · exact ht e he i hi

protected theorem Unmoved.ite (h : Unmoved s t) (g : Unmoved s u) {p : Prop} {_ : Decidable p} : Unmoved s (if p then t else u) := by
  split
  · exact h
  · exact g

protected theorem Unmoved.foldl (h : Unmoved s t) {α : Type} {l : List α} {f : State → α → State} (hf : ∀ {u x}, Unmoved s u → Unmoved s (f u x)) :
    Unmoved s (l.foldl f t) := by
  induction l generalizing t with
  | nil => exact h
  | cons x r ih => exact ih (hf h)

protected theorem Unmoved.writeMem {k : Nat} {d : List Byte} (h : Unmoved s t) : Unmoved s (writeMem t k d) := h.onlyMem (onlyMem_writeMem t k d)

protected theorem Unmoved.writeBack {k : Nat} {l : Line} (h : Unmoved s t) : Unmoved s (writeBack t k l) := h.onlyMem (onlyMem_writeBack t k l)

protected theorem Unmoved.dropSlice {p line : Nat} (h : Unmoved s t) : Unmoved s (dropSlice t p line) := by
  unfold Machine.dropSlice
  split
  · exact h.writeBack.frame
  · exact h

protected theorem Unmoved.putSlice {p line : Nat} {l : Line} (h : Unmoved s t) : Unmoved s (putSlice t p line l) := by
  unfold Machine.putSlice
  exact (h.ite h.dropSlice).frame

protected theorem Unmoved.putBelow {p line : Nat} {l : Line} (h : Unmoved s t) : Unmoved s (putBelow t p line l) :=
  h.ite (h.dropSlice.writeBack.ite h.putSlice)

protected theorem Unmoved.leaveL1 {c line : Nat} (h : Unmoved s t) : Unmoved s (leaveL1 t c line) := by
  unfold Machine.leaveL1
  split
  · exact h.onCore.putBelow
  · exact h

protected theorem Unmoved.purgeLine {line : Nat} (h : Unmoved s t) : Unmoved s (purgeLine t line) := .foldl (.foldl h .leaveL1) .dropSlice

protected theorem Unmoved.commitLine {m : List Host.Cell} {line : Nat} (h : Unmoved s t) : Unmoved s (commitLine m t line) :=
  h.writeMem.ite (.foldl h .writeMem)

/-- A stage committed changes its launch alone among the launches. -/
theorem commitStage_eq {n : Nat} {l : Launch} (hl : getLaunch s n = some l) (early : Bool) :
    ∃ t, Unmoved s t ∧ commitStage s n early = onLaunch t n (asCommitted early) := by
  refine ⟨_, ?_, by simp only [commitStage, hl]; rfl⟩
  exact .foldl (.foldl (.foldl (.refl s) .purgeLine) .commitLine) fun h => h.frame

end Unmoved

/-! ## Copies stopped (R115) -/

section Stop

variable {s t : State} {c i : Nat}

protected theorem Steady.settleAgents (h : Steady s t) : Steady s (settleAgents t c i) := by
  unfold Machine.settleAgents
  refine .foldl h.drainAll.commitAgent fun h => ?_
  dsimp only
  split
  · exact h.drainAll.commitAgent
  · exact h.drainAll.commitAgent.onCore fun x => insts_untagAll x _

protected theorem Steady.takeOff {f : Weave → Weave} (h : Steady s t) : Steady s (takeOff t c i f) := by
  unfold Machine.takeOff
  dsimp only
  split
  · exact h.settleAgents.flushL1.onCore
  · exact h.settleAgents.flushL1.onCore.removeInst.onLaunch

protected theorem Steady.finishTile (h : Steady s t) : Steady s (finishTile t c i) := by
  unfold Machine.finishTile
  split
  · split
    · exact h.onCore.completeCmd.ite h
    · exact h
  · exact h

protected theorem Steady.freezeCopy {keep : Bool} (h : Steady s t) : Steady s (freezeCopy t c i keep) := by
  unfold Machine.freezeCopy
  dsimp only
  split
  · exact h.finishTile
  · exact h.finishTile.removeInst.ite h.finishTile.takeOff

theorem getInst_onLaunch (s : State) (n : Nat) (f : Launch → Launch) (c i : Nat) : getInst (onLaunch s n f) c i = getInst s c i := rfl

theorem getInst_takeOff_self (s : State) (c i : Nat) (f : Weave → Weave) : getInst (takeOff s c i f) c i = none := by
  unfold takeOff
  dsimp only
  split
  · assumption
  · rw [getInst_onLaunch]
    exact getInst_removeInst_self _ c i

/-- A copy that is stopped is off its core. -/
theorem getInst_freezeCopy_self (s : State) (c i : Nat) (keep : Bool) : getInst (freezeCopy s c i keep) c i = none := by
  unfold freezeCopy
  dsimp only
  split
  · assumption
  · split
    · exact getInst_removeInst_self _ c i
    · exact getInst_takeOff_self _ c i _

/-- An instance that is absent stays so. -/
theorem Steady.absent (h : Steady s t) (e : getInst s c i = none) : getInst t c i = none := by
  cases ht : getInst t c i with
  | none => rfl
  | some y =>
    obtain ⟨x, hx, -⟩ := h.insts ht
    rw [e] at hx
    cases hx

theorem steady_foldl_freezeCopy (l : List (Nat × Nat)) (s : State) : Steady s (l.foldl (fun s e => freezeCopy s e.1 e.2 false) s) :=
  .foldl (.refl s) .freezeCopy

theorem getInst_foldl_freezeCopy {l : List (Nat × Nat)} (h : (c, i) ∈ l) (s : State) :
    getInst (l.foldl (fun s e => freezeCopy s e.1 e.2 false) s) c i = none := by
  obtain ⟨a, b, rfl⟩ := List.append_of_mem h
  rw [List.foldl_append, List.foldl_cons]
  exact (steady_foldl_freezeCopy b _).absent (getInst_freezeCopy_self _ c i false)

theorem mem_residents {n : Nat} {y : Inst} (h : getInst s c i = some y) (hn : y.serial = n) : (c, i) ∈ residents s n := by
  obtain ⟨x, hx, hi⟩ := mem_of_getInst h
  exact List.mem_flatMap.mpr ⟨(c, x), hx, List.mem_filterMap.mpr ⟨(i, y), hi, by rw [hn, beq_self_eq_true, if_pos rfl]⟩⟩

end Stop

section Stopped

variable {s : State} {l : Launch}

/-- The stage of a launch that is frozen is committed (20 R399). -/
def committedState (s : State) (l : Launch) : State := if staging l then commitStage s l.serial true else s

/-- The machine once a launch is stopped: its copies saved, its stores in memory. -/
def stoppedState (s : State) (l : Launch) : State :=
  l.cores.foldl flushL1 ((residents (committedState s l) l.serial).foldl (fun s e => freezeCopy s e.1 e.2 false) (committedState s l))

theorem steady_foldl_flushL1 (cs : List Nat) (s : State) : Steady s (cs.foldl flushL1 s) := .foldl (.refl s) .flushL1

theorem steady_committedState (s : State) (l : Launch) : Steady s (committedState s l) := Steady.ite (.commitStage (.refl s)) (.refl s)

theorem steady_stoppedState (s : State) (l : Launch) : Steady s (stoppedState s l) :=
  ((steady_committedState s l).trans (steady_foldl_freezeCopy _ _)).trans (steady_foldl_flushL1 _ _)

/-- No core holds an instance of a stopped launch. -/
theorem serial_ne_of_stoppedState {c i : Nat} {y : Inst} (h : getInst (stoppedState s l) c i = some y) : y.serial ≠ l.serial := by
  intro hy
  obtain ⟨x, hx, hs⟩ := (steady_foldl_flushL1 _ _).insts h
  obtain ⟨z, hz, hs'⟩ := (steady_foldl_freezeCopy _ _).insts hx
  rw [getInst_foldl_freezeCopy (mem_residents hz (hs'.trans (hs.trans hy)))] at hx
  cases hx

/-- A launch without instances as it is when it is stopped. -/
def asStopped (l : Launch) : Launch := if staging l then asCommitted true l else l

theorem getLaunch_committedState (hl : getLaunch s l.serial = some l) : getLaunch (committedState s l) l.serial = some (asStopped l) := by
  unfold committedState asStopped
  split
  · obtain ⟨t, ht, he⟩ := commitStage_eq hl true
    have hg : getLaunch t l.serial = some l := by rw [getLaunch, ht.launches]; exact hl
    rw [he, getLaunch_onLaunch (f := asCommitted true) hg fun _ => rfl]
  · exact hl

theorem residents_committedState (hl : getLaunch s l.serial = some l) (h : residents s l.serial = []) : residents (committedState s l) l.serial = [] := by
  unfold committedState
  split
  · obtain ⟨t, ht, he⟩ := commitStage_eq hl true
    rw [he]
    exact residents_eq_nil.mpr (ht.vacant (residents_eq_nil.mp h))
  · exact h

/-- Nothing of a launch without instances is saved anew. -/
theorem getLaunch_stoppedState (hl : getLaunch s l.serial = some l) (h : residents s l.serial = []) :
    getLaunch (stoppedState s l) l.serial = some (asStopped l) := by
  rw [stoppedState, residents_committedState hl h, getLaunch, (foldl_flushL1_spec _ _).1]
  exact getLaunch_committedState hl

theorem stoppedState_idle (h : residents s l.serial = []) (hc : l.cores = []) (hs : staging l = false) : stoppedState s l = s := by
  have hk : committedState s l = s := by simp only [committedState, hs, Bool.false_eq_true, if_false]
  rw [stoppedState, hk, h, hc, List.foldl_nil, List.foldl_nil]

end Stopped

/-! ## What a freeze records (R116 to R119) -/

section Freeze

variable {s : State} {l l' : Launch} {dest : Nat} {base : Option Nat}

/-- The pages of which recording meets poisoned data. -/
def meetsBad (s : State) (base : Option Nat) (p : Leaf) : Bool := (base.isNone || pageDirty s p) && pageBad s p

/-- The image of a stopped launch. -/
def frozenImage (u : State) (l : Launch) (base : Option Nat) : Image := imageOf (nextSeq u).2 l u.seq base

/-- The machine once the image of a launch is made and the launch gone, before its status. -/
def imagedState (u : State) (l : Launch) (base : Option Nat) : State :=
  { clearDirty (nextSeq u).2 (frozenImage u l base) with
    images := u.images ++ [frozenImage u l base], launches := u.launches.filter (fun y => y.serial != l.serial) }

theorem freezeLaunch_poison (hl : getLaunch (stoppedState s l) l.serial = some l') (hp : l'.poison ≠ none) : freezeLaunch s l dest base =
    send (onLaunch (stoppedState s l) l'.serial (fun l => { l with freezeBad := true })) (.freezeFailed l'.vf l'.serial) := by
  have hs : l'.poison.isSome = true := Option.isSome_iff_ne_none.mpr hp
  simp only [stoppedState, committedState] at hl ⊢
  simp only [freezeLaunch, hl, hs, if_true]

theorem freezeLaunch_bad {p : Leaf} (hl : getLaunch (stoppedState s l) l.serial = some l') (hp : l'.poison = none)
    (hb : (pagesOf (stoppedState s l) l'.vf).find? (meetsBad (stoppedState s l) base) = some p) : freezeLaunch s l dest base =
    send (onLaunch (stoppedState s l) l'.serial (fun l => { taint (256 + channelOf (leafBase p)) (BitVec.ofNat 128 (l.lsn.toNat * 2 ^ 64)) l with freezeBad := true }))
      (.freezeFailed l'.vf l'.serial) := by
  have hs : l'.poison.isSome = false := by rw [hp]; rfl
  unfold meetsBad at hb
  simp only [stoppedState, committedState] at hl hb ⊢
  simp only [freezeLaunch, hl, hs, Bool.false_eq_true, if_false, hb]

theorem freezeLaunch_done (hl : getLaunch (stoppedState s l) l.serial = some l') (hp : l'.poison = none)
    (hb : (pagesOf (stoppedState s l) l'.vf).find? (meetsBad (stoppedState s l) base) = none) : freezeLaunch s l dest base =
    send (writeStatus (imagedState (stoppedState s l) l' base) l'.vf l'.addr 5) (.image (frozenImage (stoppedState s l) l' base).id dest) := by
  have hs : l'.poison.isSome = false := by rw [hp]; rfl
  unfold meetsBad at hb
  simp only [stoppedState, committedState] at hl hb ⊢
  simp only [freezeLaunch, hl, hs, Bool.false_eq_true, if_false, hb]
  rfl

end Freeze

/-! ### The image is sealed -/

/-- A payload but the signature's own looks at neither digest nor signature. -/
theorem payloadOf_sealed (m : Image) (d : BitVec 512) (g : List Byte) {x : SecRec} (h : x.type ≠ 0x20) :
    payloadOf { m with digest := d, sig := g } x = payloadOf m x := by
  simp only [payloadOf, h, if_false]
  rfl

/-- What the digest covers does not change with it. -/
theorem imageInput_sealed (m : Image) (d : BitVec 512) (g : List Byte) : imageInput { m with digest := d, sig := g } = imageInput m := by
  have hx : ∀ x ∈ m.table.filter (fun x => x.type != 0x20), payloadOf { m with digest := d, sig := g } x = payloadOf m x := fun x hx =>
    payloadOf_sealed m d g (by simpa using (List.mem_filter.mp hx).2)
  simp only [imageInput]
  rw [List.flatMap_congr hx]

/-- The sections of an image are laid out by its other fields. -/
theorem table_imageOf (s : State) (l : Launch) (id : Nat) (base : Option Nat) : (imageOf s l id base).table = placedSections (imageOf s l id base) := by
  simp only [imageOf, placedSections, sectionsOf, recordedGranules]

theorem digest_imageOf (s : State) (l : Launch) (id : Nat) (base : Option Nat) :
    (imageOf s l id base).digest = Config.shake512 (imageInput (imageOf s l id base)) := by
  unfold imageOf
  exact congrArg Config.shake512 (imageInput_sealed _ _ _).symm

theorem sig_imageOf (s : State) (l : Launch) (id : Nat) (base : Option Nat) : (imageOf s l id base).sig = Config.sign (imageOf s l id base).digest := rfl

/-! ### How a freeze ends -/

section Ends

variable {s u : State} {l l' : Launch} {base : Option Nat}

theorem names_eq (h : launchName l' = launchName l) :
    l'.serial = l.serial ∧ l'.lsn = l.lsn ∧ l'.vf = l.vf ∧ l'.addr = l.addr ∧ l'.header = l.header ∧ l'.next = l.next := by
  simpa only [launchName, Prod.mk.injEq] using h

/-- A freeze ended: it is reported, its launch marked for containment (R116). -/
def FreezeFailed (s t : State) (l : Launch) : Prop :=
  t.images = s.images ∧ t.out = s.out ++ [.freezeFailed l.vf l.serial] ∧ ∃ l', getLaunch t l.serial = some l' ∧ l'.poison ≠ none ∧ l'.freezeBad = true

/-- A launch off the device as a signed image that was sent (R115, R118, R119). -/
def Frozen (s t : State) (l : Launch) (dest : Nat) (base : Option Nat) : Prop :=
  (getLaunch t l.serial = none ∧ ∀ c i y, getInst t c i = some y → y.serial ≠ l.serial) ∧ ∃ m, t.images = s.images ++ [m] ∧ t.out = s.out ++ [.image m.id dest] ∧
    m.lsn = l.lsn ∧ m.vf = l.vf ∧ m.nodeAddr = l.addr ∧ m.header = l.header ∧ m.next = l.next ∧ m.base = base ∧ m.digest = Config.shake512 (imageInput m) ∧
    m.sig = Config.sign m.digest ∧ m.table = placedSections m ∧
    (residents s l.serial = [] → m.ended = l.ended ∧ m.saved = l.saved.filter (fun v => !v.inst.trailing))

theorem freezeFailed_of_steady (hu : Steady s u) (hl : getLaunch u l.serial = some l') (hn : launchName l' = launchName l) {f : Launch → Launch}
    (hf : ∀ x, (f x).serial = x.serial) (hp : (f l').poison ≠ none) (hb : (f l').freezeBad = true) :
    FreezeFailed s (send (onLaunch u l'.serial f) (.freezeFailed l'.vf l'.serial)) l := by
  obtain ⟨h1, -, h3, -⟩ := names_eq hn
  rw [h1, h3]
  exact ⟨hu.images, congrArg (· ++ [_]) hu.out, f l', getLaunch_onLaunch hl hf, hp, hb⟩

variable {dest : Nat}

theorem freezeFailed_of_poison (hl : getLaunch (stoppedState s l) l.serial = some l') (hn : launchName l' = launchName l) (hp : l'.poison ≠ none) :
    FreezeFailed s (freezeLaunch s l dest base) l := by
  rw [freezeLaunch_poison hl hp]
  exact freezeFailed_of_steady (steady_stoppedState s l) hl hn (fun _ => rfl) hp rfl

theorem freezeFailed_of_bad {p : Leaf} (hl : getLaunch (stoppedState s l) l.serial = some l') (hn : launchName l' = launchName l) (hp : l'.poison = none)
    (hb : (pagesOf (stoppedState s l) l'.vf).find? (meetsBad (stoppedState s l) base) = some p) : FreezeFailed s (freezeLaunch s l dest base) l := by
  rw [freezeLaunch_bad hl hp hb]
  exact freezeFailed_of_steady (steady_stoppedState s l) hl hn (fun _ => rfl) (Option.some_ne_none _) rfl

/-- Where no poisoned data is met, the image holds what the launch's name says and what its instances left. -/
theorem frozen_of_done (hs : getLaunch s l.serial = some l) (hl : getLaunch (stoppedState s l) l.serial = some l') (hn : launchName l' = launchName l)
    (hp : l'.poison = none) (hb : (pagesOf (stoppedState s l) l'.vf).find? (meetsBad (stoppedState s l) base) = none) :
    Frozen s (freezeLaunch s l dest base) l dest base := by
  obtain ⟨h1, h2, h3, h4, h5, h6⟩ := names_eq hn
  have hu := steady_stoppedState s l
  have ho := onlyMem_writeStatus (imagedState (stoppedState s l) l' base) l'.vf l'.addr 5
  rw [freezeLaunch_done hl hp hb]
  refine ⟨⟨?_, fun c i y h => serial_ne_of_stoppedState ((ho.field (getInst · c i)).symm.trans h)⟩, frozenImage (stoppedState s l) l' base,
    (ho.field State.images).trans (congrArg (· ++ [_]) hu.images), congrArg (· ++ [_]) ((ho.field State.out).trans hu.out), h2, h3, h4, h5, h6, rfl,
    digest_imageOf _ _ _ _, sig_imageOf _ _ _ _, table_imageOf _ _ _ _, fun hv => ?_⟩
  · refine (ho.field (getLaunch · l.serial)).trans ?_
    rw [← h1]
    exact getLaunch_without_self (stoppedState s l) l'.serial
  · obtain rfl : l' = asStopped l := Option.some.inj (hl.symm.trans (getLaunch_stoppedState hs hv))
    have he : (asStopped l).ended = l.ended ∧ (asStopped l).saved = l.saved := by
      unfold asStopped
      split <;> exact ⟨rfl, rfl⟩
    exact ⟨he.1, congrArg (List.filter _) he.2⟩

/-- A freeze that can be carried out ends with an image, or with its launch marked. -/
theorem freezeLaunch_ends (hs : getLaunch s l.serial = some l) : Frozen s (freezeLaunch s l dest base) l dest base ∨
    FreezeFailed s (freezeLaunch s l dest base) l := by
  obtain ⟨l', hl, hn⟩ := (steady_stoppedState s l).getLaunch hs
  by_cases hp : l'.poison = none
  · cases hb : (pagesOf (stoppedState s l) l'.vf).find? (meetsBad (stoppedState s l) base) with
    | none => exact .inl (frozen_of_done hs hl hn hp hb)
    | some p => exact .inr (freezeFailed_of_bad hl hn hp hb)
  · exact .inr (freezeFailed_of_poison hl hn hp)

theorem sameTables_imagedState (u : State) (l : Launch) (base : Option Nat) : SameTables u (imagedState u l base) :=
  ⟨rfl, rfl, rfl, rfl, rfl, fun _ => rfl, fun _ => rfl, fun _ _ => rfl⟩

/-- A launch that holds nothing on the device is frozen as it stands, its node at status 5, unless a page to record is bad. -/
theorem freezeLaunch_idle (hs : getLaunch s l.serial = some l) (hp : l.poison = none) (hr : residents s l.serial = []) (hc : l.cores = [])
    (hg : staging l = false) :
    ((pagesOf s l.vf).any (meetsBad s base) = false → Frozen s (freezeLaunch s l dest base) l dest base ∧ statusIs s (freezeLaunch s l dest base) l.vf l.addr 5) ∧
      ((pagesOf s l.vf).any (meetsBad s base) = true → FreezeFailed s (freezeLaunch s l dest base) l) := by
  have hk := stoppedState_idle hr hc hg
  have hl : getLaunch (stoppedState s l) l.serial = some l := by rw [hk]; exact hs
  refine ⟨fun hb => ?_, fun hb => ?_⟩
  · have hn : (pagesOf (stoppedState s l) l.vf).find? (meetsBad (stoppedState s l) base) = none := by
      rw [hk, List.find?_eq_none]
      simpa only [List.any_eq_false] using hb
    refine ⟨frozen_of_done hs hl rfl hp hn, ?_⟩
    rw [freezeLaunch_done hl hp hn, hk]
    exact (statusIs_writeStatus (sameTables_imagedState s l base) l.vf l.addr 5).congr (.refl s) fun _ => rfl
  · obtain ⟨p, hf⟩ := Option.ne_none_iff_exists'.mp fun hn : (pagesOf (stoppedState s l) l.vf).find? (meetsBad (stoppedState s l) base) = none => by
      obtain ⟨x, hx, hm⟩ := List.any_eq_true.mp hb
      rw [hk] at hn
      exact List.find?_eq_none.mp hn x hx hm
    exact freezeFailed_of_bad hl rfl hp hf

end Ends

/-! ### The event -/

section Event

variable {s : State} {lsn dest : Nat} {base : Option Nat} {l : Launch}

theorem exec_freeze_none (h : s.launches.find? (fun l => l.lsn.toNat == lsn) = none) : exec (.freeze lsn dest base) s = .next s := by
  change execFreeze lsn dest base s = _
  simp only [execFreeze, h]

theorem exec_freeze_some (h : s.launches.find? (fun l => l.lsn.toNat == lsn) = some l) : exec (.freeze lsn dest base) s = .next (
    if l.poison.isSome then send s (.freezeFailed l.vf l.serial)
    else if freezeReady s l.serial then freezeLaunch s l dest base
    else if l.node.paired then (residents s l.serial).foldl (fun s e => endGroups s e.1 e.2) s
    else s) := by
  change execFreeze lsn dest base s = _
  simp only [execFreeze, h]

theorem exec_freeze_poisoned (h : s.launches.find? (fun l => l.lsn.toNat == lsn) = some l) (hp : l.poison ≠ none) :
    exec (.freeze lsn dest base) s = .next (told s (.freezeFailed l.vf l.serial)) := by
  rw [exec_freeze_some h, if_pos (Option.isSome_iff_ne_none.mpr hp)]
  rfl

theorem exec_freeze_early (h : s.launches.find? (fun l => l.lsn.toNat == lsn) = some l) (hp : l.poison = none) (hn : l.node.paired = false)
    (hr : freezeReady s l.serial = false) : exec (.freeze lsn dest base) s = .next s := by
  simp only [exec_freeze_some h, hp, hn, hr, Option.isSome_none, Bool.false_eq_true, if_false]

theorem exec_freeze_ready (h : s.launches.find? (fun l => l.lsn.toNat == lsn) = some l) (hp : l.poison = none) (hr : freezeReady s l.serial = true) :
    exec (.freeze lsn dest base) s = .next (freezeLaunch s l dest base) := by
  simp only [exec_freeze_some h, hp, hr, Option.isSome_none, Bool.false_eq_true, if_false, if_true]

end Event

/-! ## Resume (R120 to R122) -/

section Resume

variable {s : State} {id v p : Nat} {vf : BitVec 8} {m : Image}

theorem exec_resume_unbound (h : (getVf s vf.toNat).state = 0) : exec (.resume id vf) s = .next s := by
  change execResume id vf s = _
  simp [execResume, h]

theorem exec_resume_suspended (h : (getVf s vf.toNat).state = 2) :
    exec (.resume id vf) s = .next (onVf s vf.toNat (fun x => { x with heldResumes := x.heldResumes ++ [id] })) := by
  change execResume id vf s = _
  simp only [execResume, h, if_true]

theorem exec_resume_bound (h : (getVf s vf.toNat).state = 1) : exec (.resume id vf) s = .next (tryResume s vf.toNat id) := by
  change execResume id vf s = _
  simp [execResume, h]

theorem tryResume_refused (hm : s.images.find? (fun m => m.id == id) = some m) (h : resumeStatus s v m ≠ 0) :
    tryResume s v id = told s (.resumed (resumeStatus s v m)) := by
  simp only [tryResume, hm, h, if_false]
  split <;> rfl

theorem tryResume_accepted (hm : s.images.find? (fun m => m.id == id) = some m) (h : resumeStatus s v m = 0) (hp : resumePart s v m.node = some p) :
    tryResume s v id = send (resumeLaunch s v m p) (.resumed 0) := by
  simp only [tryResume, hm, h, hp, if_true]

/-! ### The checks in order (R120) -/

theorem wellFormed_eq_false (h : (∃ x ∈ m.table, x.spare ≠ 0) ∨ m.table ≠ placedSections m ∨ (∃ b ∈ m.spare, b ≠ 0#8) ∨ bits m.node.raw 15 1 ≠ 0) :
    wellFormed m = false := by
  refine Bool.eq_false_iff.mpr fun hw => ?_
  simp only [wellFormed, reservedZero, Bool.and_eq_true, List.all_eq_true, beq_iff_eq] at hw
  obtain ⟨⟨⟨⟨⟨⟨⟨hb, hx⟩, hn⟩, -⟩, -⟩, -⟩, -⟩, ht⟩ := hw
  rcases h with ⟨x, hm, h⟩ | h | ⟨b, hm, h⟩ | h
  · exact h (hx x hm)
  · exact h ht
  · exact h (hb b hm)
  · exact h hn

theorem resumeStatus_malformed (h : wellFormed m = false) : resumeStatus s v m = 1 := by
  simp only [resumeStatus, h, Bool.not_false, if_true]

theorem resumeStatus_altered (hw : wellFormed m = true) (h : m.digest ≠ Config.shake512 (imageInput m)) : resumeStatus s v m = 2 := by
  rw [resumeStatus, if_neg (by rw [hw]; exact Bool.false_ne_true), if_pos (bne_iff_ne.mpr h)]

/-- A key that this device trusts. -/
def Trusted (s : State) (k : List Byte) : Prop := k = Config.identityKey ∨ k ∈ s.mgmt.trust

/-- The signature of an image is by a trusted key. -/
def signedBy (s : State) (m : Image) : Bool := (Config.identityKey :: s.mgmt.trust).any (fun k => Config.verifies k m.digest m.sig)

theorem signedBy_iff : signedBy s m = true ↔ ∃ k, Trusted s k ∧ Config.verifies k m.digest m.sig = true := by
  simp only [signedBy, List.any_eq_true, List.mem_cons, Trusted]

/-- The checks that follow digest and layout. -/
theorem resumeStatus_whole (hw : wellFormed m = true) (hd : m.digest = Config.shake512 (imageInput m)) : resumeStatus s v m =
    if m.signed && !signedBy s m then 3 else if m.cls != deviceClass then 4 else if m.dirtyOnly && m.base != (getVf s v).lastImage then 5
    else if !m.pages.all (pageMapped s v) then 6 else if !residencyFits s v m then 7 else 0 := by
  have hb : (m.digest != Config.shake512 (imageInput m)) = false := by rw [← hd]; exact bne_self_eq_false _
  simp only [resumeStatus, hw, hb, Bool.not_true, Bool.false_eq_true, if_false, signedBy] <;> rfl

theorem resumeStatus_untrusted (hw : wellFormed m = true) (hd : m.digest = Config.shake512 (imageInput m)) (hs : m.signed = true)
    (h : ∀ k, Trusted s k → Config.verifies k m.digest m.sig = false) : resumeStatus s v m = 3 := by
  have hb : signedBy s m = false := Bool.eq_false_iff.mpr fun hb => by
    obtain ⟨k, hk, hv⟩ := signedBy_iff.mp hb
    rw [h k hk] at hv
    exact Bool.false_ne_true hv
  simp only [resumeStatus_whole hw hd, hs, hb, Bool.not_false, Bool.and_self, if_true]

/-- The checks that follow the signature. -/
theorem resumeStatus_trusted (hw : wellFormed m = true) (hd : m.digest = Config.shake512 (imageInput m))
    (h : m.signed = true → ∃ k, Trusted s k ∧ Config.verifies k m.digest m.sig = true) : resumeStatus s v m =
    if m.cls != deviceClass then 4 else if m.dirtyOnly && m.base != (getVf s v).lastImage then 5
    else if !m.pages.all (pageMapped s v) then 6 else if !residencyFits s v m then 7 else 0 := by
  rw [resumeStatus_whole hw hd, if_neg]
  simp only [Bool.and_eq_true, Bool.not_eq_true', not_and, Bool.not_eq_false]
  exact fun hs => signedBy_iff.mpr (h hs)

/-- The checks of an image of this device's class whose base is the one it needs. -/
theorem resumeStatus_fitting (hw : wellFormed m = true) (hd : m.digest = Config.shake512 (imageInput m))
    (h : m.signed = true → ∃ k, Trusted s k ∧ Config.verifies k m.digest m.sig = true) (hc : m.cls = deviceClass)
    (hb : m.dirtyOnly = true → m.base = (getVf s v).lastImage) :
    resumeStatus s v m = if !m.pages.all (pageMapped s v) then 6 else if !residencyFits s v m then 7 else 0 := by
  rw [resumeStatus_trusted hw hd h, if_neg (by rw [hc, bne_self_eq_false]; exact Bool.false_ne_true), if_neg]
  simp only [Bool.and_eq_true, bne_iff_ne, not_and, not_not]
  exact hb

/-! ### What a resume leaves (R122) -/

theorem onlyMem_bytes (s : State) (m : List Host.Cell) (b d : NatSet) : OnlyMem s { s with mem := m, bad := b, dirty := d } := rfl

theorem onlyMem_writePartAt (s : State) (p : ImgPage) (i : Nat) (r : Except Nat Leaf) : OnlyMem s (writePartAt s p i r) := by
  cases r with
  | error e => exact .refl s
  | ok l =>
    unfold writePartAt
    exact (OnlyMem.foldl onlyMem_scrubGranule s).trans (onlyMem_bytes _ _ _ _)

theorem onlyMem_writePart (s : State) (vf : Nat) (p : ImgPage) (i : Nat) : OnlyMem s (writePart s vf p i) := onlyMem_writePartAt s p i _

theorem onlyMem_writePage (vf : Nat) (s : State) (p : ImgPage) : OnlyMem s (writePage vf s p) := by
  unfold writePage
  split
  · exact .refl s
  · exact OnlyMem.foldl (fun t i => onlyMem_writePart t vf p i) s

theorem placeWindows_spec (vf serial : Nat) (vs : List Saved) (s : State) :
    { (placeWindows vf serial vs s).2 with seq := 0 } = { s with seq := 0 } ∧ (placeWindows vf serial vs s).1.length = vs.length := by
  induction vs generalizing s with
  | nil => exact ⟨rfl, rfl⟩
  | cons v r ih =>
    obtain ⟨h1, h2⟩ := ih (nextSeq s).2
    exact ⟨h1, congrArg (· + 1) h2⟩

/-- The copies that an image's saved instances stand for: of a paired launch the trailing ones are formed from the leading (20 R410). -/
def savedCopies (m : Image) : List Saved := if m.paired then m.saved.flatMap (fun v => [v, trailOf v]) else m.saved

/-- The memory of an image written, and windows given to its instances. -/
def restoredState (s : State) (v : Nat) (m : Image) : List Saved × State :=
  placeWindows v (m.pages.foldl (writePage v) s).nextLsn (savedCopies m) (m.pages.foldl (writePage v) s)

/-- The launch that a resumed image becomes. -/
def resumedLaunch (s : State) (v : Nat) (m : Image) (p : Nat) : Launch :=
  let t := (restoredState s v m).2
  { serial := t.nextLsn, lsn := m.lsn, vf := v, part := p, addr := m.nodeAddr, node := m.node, header := m.header, readyAt := t.now, seq := t.seq,
    next := m.next, ended := m.ended, saved := (restoredState s v m).1, cores := [], names := [], ncore := m.ncore, requeues := 0, staged := [], blocks := [],
    freed := [], early := true, poison := none, poisons := [], freezeBad := false }

/-- The machine once a resumed launch is listed, before its node's status. -/
def listedState (s : State) (v : Nat) (m : Image) (p : Nat) : State :=
  let t := (restoredState s v m).2
  onVf { t with seq := t.seq + 1, nextLsn := t.nextLsn + 1, launches := t.launches ++ [resumedLaunch s v m p] } v (fun x => { x with lastImage := some m.id })

theorem resumeLaunch_eq (s : State) (v : Nat) (m : Image) (p : Nat) : resumeLaunch s v m p = writeStatus (listedState s v m p) v m.nodeAddr 2 := rfl

/-- What memory and windows leave as it was. -/
theorem restoredState_spec (s : State) (v : Nat) (m : Image) : (restoredState s v m).2.out = s.out ∧ (restoredState s v m).2.launches = s.launches ∧
    (restoredState s v m).2.nextLsn = s.nextLsn ∧ (restoredState s v m).1.length = (savedCopies m).length := by
  have hm : OnlyMem s (m.pages.foldl (writePage v) s) := OnlyMem.foldl (onlyMem_writePage v) s
  obtain ⟨h1, h2⟩ := placeWindows_spec v (m.pages.foldl (writePage v) s).nextLsn (savedCopies m) (m.pages.foldl (writePage v) s)
  exact ⟨(congrArg State.out h1 :).trans (hm.field State.out), (congrArg State.launches h1 :).trans (hm.field State.launches),
    (congrArg State.nextLsn h1 :).trans (hm.field State.nextLsn), h2⟩

theorem resumeLaunch_spec (s : State) (v : Nat) (m : Image) (p : Nat) : (resumeLaunch s v m p).out = s.out ∧
    (resumeLaunch s v m p).launches = s.launches ++ [resumedLaunch s v m p] ∧ (resumeLaunch s v m p).nextLsn = s.nextLsn + 1 ∧
    (getVf (resumeLaunch s v m p) v).lastImage = some m.id ∧ (resumedLaunch s v m p).serial = s.nextLsn ∧
    (m.paired = false → (resumedLaunch s v m p).saved.length = m.saved.length) := by
  obtain ⟨h1, h2, h3, h4⟩ := restoredState_spec s v m
  have ho := onlyMem_writeStatus (listedState s v m p) v m.nodeAddr 2
  rw [resumeLaunch_eq]
  refine ⟨(ho.field State.out).trans h1, (ho.field State.launches).trans (congrArg (· ++ [_]) h2), (ho.field State.nextLsn).trans (congrArg (· + 1) h3), ?_, h3,
    fun hp => ?_⟩
  · rw [ho.field (getVf · v), listedState, getVf_onVf_self]
  · have hc : savedCopies m = m.saved := by simp only [savedCopies, hp, Bool.false_eq_true, if_false]
    rw [← hc]
    exact h4

end Resume

/-- Settles O60: stopping a launch keeps its name and removes its copies, and the image is laid out, digested and signed from what is left; a resume's
status is the first check that fails. -/
theorem freezeResume : Obligations.FreezeResume := by
  unfold Obligations.FreezeResume
  refine ⟨fun s lsn dest base l h hl => ⟨exec_freeze_poisoned h, exec_freeze_early h, fun hp hr => ?_⟩, fun s lsn dest base => exec_freeze_none,
    fun s id vf => ⟨exec_resume_unbound, exec_resume_suspended, fun m hb hm => ?_⟩⟩
  · have hx := exec_freeze_ready (dest := dest) (base := base) h hp hr
    refine ⟨⟨_, hx, freezeLaunch_ends hl⟩, fun hv hc hs => ?_⟩
    obtain ⟨h1, h2⟩ := freezeLaunch_idle (dest := dest) (base := base) hl hp hv hc hs
    exact ⟨fun hb => ⟨_, hx, h1 hb⟩, fun hb => ⟨_, hx, h2 hb⟩⟩
  · have hx := exec_resume_bound (id := id) hb
    refine ⟨fun h => by rw [hx, tryResume_refused hm h], resumeStatus_malformed, wellFormed_eq_false, resumeStatus_altered, fun hw hd => ?_, fun p h hp => ?_⟩
    · refine ⟨resumeStatus_untrusted hw hd, fun hs => ?_⟩
      refine ⟨fun h => ?_, fun h h1 h2 => ?_, fun h h1 => ⟨fun ⟨y, hy, h2⟩ => ?_, fun h2 => ?_⟩⟩
      · rw [resumeStatus_trusted hw hd hs]
        exact if_pos (bne_iff_ne.mpr h)
      · have hc : (m.cls != deviceClass) = false := by rw [h]; rfl
        have hb : (m.dirtyOnly && m.base != (getVf s vf.toNat).lastImage) = true := by rw [h1, Bool.true_and]; exact bne_iff_ne.mpr h2
        rw [resumeStatus_trusted hw hd hs, hc, hb, if_neg Bool.false_ne_true, if_pos rfl]
      · have ha : m.pages.all (pageMapped s vf.toNat) = false := List.all_eq_false.mpr ⟨y, hy, by rw [h2]; exact Bool.false_ne_true⟩
        rw [resumeStatus_fitting hw hd hs h h1, ha]
        rfl
      · have ha : m.pages.all (pageMapped s vf.toNat) = true := List.all_eq_true.mpr h2
        rw [resumeStatus_fitting hw hd hs h h1, ha]
        cases residencyFits s vf.toNat m <;> rfl
    · rw [tryResume_accepted hm h hp] at hx
      obtain ⟨r1, r2, r3, r4, r5, r6⟩ := resumeLaunch_spec s vf.toNat m p
      exact ⟨_, resumedLaunch s vf.toNat m p, hx, congrArg (· ++ [_]) r1, r2, r5, rfl, rfl, rfl, rfl, rfl, rfl, rfl, rfl, rfl, rfl, r3, r4, r6⟩

end Sys2Proof.Machine

/-!
# Transfers of a weave's threads

`nop`, `bra`, `call`, `brx`, `ret` and `switch` on their turn (06 R126 to R131, R150): one group of threads for each place they go to.
-/

namespace Sys2Proof.Machine

open Sys2Proof

/-! ## Offsets in words (R126, R131) -/

theorem signExtend_words {n : Nat} (x : BitVec n) : (x.signExtend 64 : Double) <<< 2 = BitVec.ofInt 64 (4 * x.toInt) := by
  have h4 : BitVec.twoPow 64 2 = BitVec.ofInt 64 4 := by decide
  rw [BitVec.shiftLeft_eq_mul_twoPow, h4, BitVec.mul_comm, BitVec.signExtend, ← BitVec.ofInt_mul]

theorem branchTarget_eq (e : Entry) (f : Branch) : branchTarget e f = branchTo e f := by
  rw [branchTarget, branchTo, signExtend_words]

/-! ## The virtual function of an agent -/

section Function

variable {s t : State} {a : Agent}

/-- The agents of a core work for the instances that its weaves, its handler slot and its queues name. -/
theorem agentInst_congr (hw : (getCore t (coreOf a)).weaves = (getCore s (coreOf a)).weaves)
    (hh : (getCore t (coreOf a)).handler = (getCore s (coreOf a)).handler)
    (hq : (getCore t (coreOf a)).queues = (getCore s (coreOf a)).queues) : agentInst t a = agentInst s a := by
  cases a with
  | weave c k => simp only [coreOf] at hw; simp only [agentInst, getWeave, hw]
  | steer c k => rfl
  | handler c => simp only [coreOf] at hw hh hq; simp only [agentInst, getWeave, hw, hh, hq]

theorem agentLaunch_congr (ha : agentInst t a = agentInst s a) (hi : ∀ i, getInst t (coreOf a) i = getInst s (coreOf a) i)
    (hl : t.launches = s.launches) : agentLaunch t a = agentLaunch s a := by
  have hg : getLaunch t = getLaunch s := by funext n; simp only [getLaunch, hl]
  simp only [agentLaunch, ha, hi, hg]

theorem agentVf_congr (ha : agentLaunch t a = agentLaunch s a) (hl : (getCore t (coreOf a)).loan = (getCore s (coreOf a)).loan)
    (hv : t.vfs = s.vfs) : agentVf t a = agentVf s a := by
  simp only [agentVf, ha, ownerOf, hl, hv]

/-- A lane instruction's own effect leaves its weave in its instance, and so in its virtual function. -/
theorem Kept.agentVf {c k : Nat} {w w' : Weave} (h : Kept s t c k) (hs : getWeave s c k = some w) (ht : getWeave t c k = some w')
    (hi : w'.inst = w.inst) : agentVf t (.weave c k) = agentVf s (.weave c k) := by
  refine agentVf_congr (agentLaunch_congr ?_ h.insts h.launches) (congrArg Core.loan h.core :) (congrArg State.vfs h.rest :)
  simp only [agentInst, hs, ht, Option.map_some, hi]

theorem Looked.agentVf {c : Nat} (h : Looked s t c) (hc : coreOf a = c) : agentVf t a = agentVf s a := by
  subst hc
  have hi : (getCore t (coreOf a)).insts = (getCore s (coreOf a)).insts := (congrArg Core.insts h.core :)
  refine agentVf_congr (agentLaunch_congr (agentInst_congr (congrArg Core.weaves h.core :) (congrArg Core.handler h.core :)
    (congrArg Core.queues h.core :)) (fun i => ?_) (congrArg State.launches h.rest :)) (congrArg Core.loan h.core :) (congrArg State.vfs h.rest :)
  simp only [getInst, hi]

end Function

/-! ## Threads that take a conditional transfer (R126) -/

theorem getLsbD_takenMask (w : Weave) (f : Branch) (m : Mask) (u : Nat) : (takenMask w f m).getLsbD u = (m.getLsbD u && taken w f u) := by
  rw [takenMask, getLsbD_maskOf _ (fun x hx => threadsOf_lt (List.mem_filter.mp hx).1)]
  rw [Bool.eq_iff_iff]
  simp only [decide_eq_true_eq, List.mem_filter, mem_threadsOf, taken, Bool.and_eq_true]
  exact ⟨fun ⟨⟨_, hm⟩, ht⟩ => ⟨hm, ht⟩, fun ⟨hm, ht⟩ => ⟨⟨BitVec.lt_of_getLsbD hm, hm⟩, ht⟩⟩

section Turn

variable {s : State} {c k : Nat} {e : Entry} {w : Weave}

/-- A group whose target is no second word goes there, whatever the instruction did to its weave. -/
theorem landGroup_of {t : State} {w1 : Weave} (hk : Kept (laneState s c k w) t c k) (hw : getWeave t c k = some w1) (hi : w1.inst = w.inst)
    {pc : Double} (hl : lands s c (vfAt s c k w) pc) (m : Mask) (prio : Half) : landGroup t (.weave c k) m pc prio = (m, .to pc prio) := by
  have hv : agentVf t (.weave c k) = vfAt s c k w := hk.agentVf (getWeave_laneState s c k w) hw hi
  simp only [landGroup, coreOf, isHandler, hv, landing_of ((kept_laneState s c k w).trans hk) hl]

/-- A conditional transfer: the threads that take it stand at its target, the others at the next instruction. -/
theorem laneIssue_branch (h : LaneTurn s c k e w) (hl : illegalHere w e 8 false false [] = false) (hf : w.fits e 2) {f : Branch}
    (hland : lands s c (vfAt s c k w) (branchTo e f)) (body : State → Nat → Nat → Weave → Entry → Mask → Done) {d : Done}
    (hb : body (laneState s c k w) c k w e e.mask = d) (hd : d.wait = none) (hk : Kept (laneState s c k w) d.s c k) {w1 : Weave}
    (hw : getWeave d.s c k = some w1) (hfr : w1.frontier = w.frontier) (hi : w1.inst = w.inst) {prio : Half}
    (hg : d.gs = [landGroup d.s (.weave c k) (takenMask w f e.mask) (branchTarget e f) prio]) :
    ∃ t, laneIssue s (twoWord []) body = .next t ∧
      LaneDone s t c k e w w1 (fun u => if taken w f u then (.ready, branchTo e f) else (.ready, e.pc + 8#64)) := by
  rw [branchTarget_eq, landGroup_of hk hw hi hland] at hg
  refine laneIssue_moves h (twoWord []) hl body (by rw [← hb]; simp only [twoWord, activeMask_noGuard]) hd hk hw hfr ?_ ?_ _ fun u hu => ?_
  · rw [hg]; simp [Go.moves]
  · have := occupied_le (groupsOf e.mask d.gs)
    rw [hg] at this ⊢
    simp only [groupsOf, List.cons_append, List.nil_append, List.length_cons, List.length_nil, Weave.fits] at this hf ⊢
    omega
  · rw [hg]
    by_cases ht : taken w f u = true
    · exact ⟨takenMask w f e.mask, .to (branchTo e f) prio, List.mem_append_left _ (List.mem_singleton_self _),
        by rw [getLsbD_takenMask, hu, ht]; rfl, by rw [if_pos ht]; rfl⟩
    · refine ⟨_, .next, groupsOf_next _ _, ?_, by rw [if_neg ht]; rfl⟩
      rw [rest_getLsbD _ _ _ (BitVec.lt_of_getLsbD hu), hu]
      simp [getLsbD_takenMask, ht]

theorem exec_nop (h : LaneTurn s c k e w) (hl : illegalHere w e 4 false false [] = false) :
    ∃ t, exec .nop s = .next t ∧ LaneDone s t c k e w w (onward e 4) := by
  obtain ⟨t, h1, h2⟩ := laneIssue_onward h (oneWord []) hl (fun s _ _ _ _ act => moved s [] (countOf act)) rfl rfl rfl
    (getWeave_laneState s c k w) rfl
  exact ⟨t, h1, h2.since (kept_laneState s c k w)⟩

theorem exec_bra (h : LaneTurn s c k e w) (hl : illegalHere w e 8 false false [] = false) (hf : w.fits e 2) {f : Branch}
    (hland : lands s c (vfAt s c k w) (branchTo e f)) : ∃ t, exec (.bra f) s = .next t ∧
      LaneDone s t c k e w w (fun u => if taken w f u then (.ready, branchTo e f) else (.ready, e.pc + 8#64)) :=
  laneIssue_branch h hl hf hland _ rfl rfl (.refl _ _ _) (getWeave_laneState s c k w) rfl rfl rfl

/-! ## The link of a call (R126) -/

/-- A pair written for some threads, and nothing else. -/
theorem foldl_writeVD {l : List Nat} (hl : ∀ t ∈ l, t < 32) (d : Nat) (x : Double) (w : Weave) :
    let w1 := l.foldl (fun w t => writeVD w t d x) w
    { w1 with v := w.v, vbad := w.vbad } = w ∧
      ∀ u r, u < 32 → readV w1 u r = if u ∈ l then (pairAt d x r).getD (readV w u r) else readV w u r := by
  induction l generalizing w with
  | nil => exact ⟨rfl, fun _ _ _ => rfl⟩
  | cons t l ih =>
    have ht := hl t List.mem_cons_self
    obtain ⟨i1, i2⟩ := ih (fun y hy => hl y (List.mem_cons_of_mem _ hy)) (writeVD w t d x)
    refine ⟨congrArg (fun y : Weave => { y with v := w.v, vbad := w.vbad }) i1, fun u r hu => (i2 u r hu).trans ?_⟩
    have hr : readV (writeVD w t d x) u r = if u = t then (pairAt d x r).getD (readV w u r) else readV w u r := by
      simp only [writeVD, readV_writeV _ _ _ _ ht hu, pairAt]
      by_cases h1 : u = t
      · by_cases h2 : r = d
        · subst h2; simp [h1]
        · by_cases h3 : r = d + 1 <;> simp [h1, h2, h3]
      · simp [h1]
    rw [hr]
    by_cases h1 : u = t
    · subst h1
      cases hp : pairAt d x r <;> simp
    · simp [h1]

theorem exec_call (h : LaneTurn s c k e w) (hl : illegalHere w e 8 false false [] = false) (hf : w.fits e 2) {f : Branch}
    (hland : lands s c (vfAt s c k w) (branchTo e f)) : ∃ t w1, exec (.call f) s = .next t ∧
      w.sets w1 (fun u r => if e.mask.getLsbD u && taken w f u then pairAt 14 (e.pc + 8#64) r else none) ∧
      LaneDone s t c k e w w1 (fun u => if taken w f u then (.ready, branchTo e f) else (.ready, e.pc + 8#64)) := by
  let l := threadsOf (takenMask w f e.mask)
  obtain ⟨h1, h2⟩ := foldl_writeVD (l := l) (fun u hu => threadsOf_lt hu) 14 (e.pc + 8#64) w
  generalize hw1 : l.foldl (fun w t => writeVD w t 14 (e.pc + 8#64)) w = w1 at h1 h2
  let s1 := putWeave (laneState s c k w) c k w1
  have hd : ∃ t, exec (.call f) s = .next t ∧
      LaneDone s t c k e w w1 (fun u => if taken w f u then (.ready, branchTo e f) else (.ready, e.pc + 8#64)) :=
    laneIssue_branch (d := { moved s1 [landGroup s1 (.weave c k) (takenMask w f e.mask) (branchTarget e f) (callPrio e f)] (countOf e.mask) with
        wv := if takenMask w f e.mask = 0#32 then [] else [14, 15] }) h hl hf hland _ (by subst hw1; rfl) rfl (kept_putWeave _ c k w1)
      (getWeave_putWeave_self _ _ _ _) (congrArg Weave.frontier h1 :) (congrArg Weave.inst h1 :) rfl
  obtain ⟨t, h3, h4⟩ := hd
  refine ⟨t, w1, h3, ⟨h1, fun u r hu => ?_⟩, h4⟩
  rw [h2 u r hu]
  simp only [l, mem_threadsOf, getLsbD_takenMask, hu, true_and]
  split <;> rfl

/-! ## Transfers that send each thread to a place of its own (R127, R128, R131) -/

theorem nodup_eraseDups {α : Type} [BEq α] [LawfulBEq α] : ∀ l : List α, l.eraseDups.Nodup
  | [] => List.nodup_nil
  | x :: r => by
    rw [List.eraseDups_cons, List.nodup_cons, List.mem_eraseDups]
    exact ⟨by simp, nodup_eraseDups (r.filter (fun y => !y == x))⟩
termination_by l => l.length
decreasing_by simp only [List.length_cons]; exact Nat.lt_succ_of_le (List.length_filter_le _ _)

/-- Threads each of which goes to a place of its own. -/
def goesTo (l : List Nat) (x : Nat → Double × Half) : Goes := l.map (fun u => (u, .ok (x u)))

/-- One group for each place. -/
theorem goGroups_goesTo {t : State} {a : Agent} {l : List Nat} {x : Nat → Double × Half}
    (hl : ∀ u ∈ l, landing t (coreOf a) (agentVf t a) (x u).1 (x u).2 (isHandler a) = .to (x u).1 (x u).2) :
    goGroups t a (goesTo l x) = (l.map x).eraseDups.map (fun y => (maskOf (l.filter (fun u => x u == y)), .to y.1 y.2)) := by
  have h1 : goTargets (goesTo l x) = (l.map x).eraseDups := by
    simp only [goTargets, goesTo, List.filterMap_map, Function.comp_def, List.filterMap_eq_map']
  have h2 : (goesTo l x).filterMap (fun r => match r.2 with | .error e => some (maskOf [r.1], Go.park e 0#64) | .ok _ => none) = [] := by
    simp only [goesTo, List.filterMap_map, Function.comp_def, List.filterMap_none]
  simp only [goGroups, h1]
  refine (congrArg (· ++ _) h2).trans (List.map_congr_left fun y hy => ?_)
  obtain ⟨u, hu, rfl⟩ := List.mem_map.mp (List.mem_eraseDups.mp hy)
  simp only [landGroup, hl u hu, goesTo, List.filter_map, List.map_map, Function.comp_def, List.map_id']

/-- Every thread of the entry goes to a place of its own among those of a list. -/
theorem laneIssue_each (h : LaneTurn s c k e w) (q : LaneReq) (hq : q.guard = noGuard)
    (hl : illegalHere w e q.size q.chain q.elig q.regs = false) (body : State → Nat → Nat → Weave → Entry → Mask → Done) {t : State} {n : Nat}
    {x : Nat → Double × Half} {D : List (Double × Half)} (hf : w.fits e D.length)
    (hb : body (laneState s c k w) c k w e e.mask = moved t (goGroups t (.weave c k) (goesTo (threadsOf e.mask) x)) n)
    (hw : getWeave t c k = some w) (hx : ∀ u, e.mask.getLsbD u = true → x u ∈ D ∧ lands t c (agentVf t (.weave c k)) (x u).1) :
    ∃ t', laneIssue s q body = .next t' ∧ LaneDone t t' c k e w w (fun u => (.ready, (x u).1)) := by
  let l := threadsOf e.mask
  have hin : ∀ {u}, u ∈ l ↔ e.mask.getLsbD u = true := fun {u} => mem_threadsOf.trans ⟨And.right, fun hu => ⟨BitVec.lt_of_getLsbD hu, hu⟩⟩
  have hg : goGroups t (.weave c k) (goesTo l x) = (l.map x).eraseDups.map (fun y => (maskOf (l.filter (fun u => x u == y)), .to y.1 y.2)) :=
    goGroups_goesTo fun u hu => landing_of (.refl t c k) (hx u (hin.mp hu)).2 _
  have hbit : ∀ y u, (maskOf (l.filter (fun u => x u == y))).getLsbD u = true ↔ u ∈ l ∧ x u = y := fun y u => by
    rw [getLsbD_maskOf _ (fun z hz => threadsOf_lt (List.mem_filter.mp hz).1), decide_eq_true_eq, List.mem_filter, beq_iff_eq]
  have hmem : ∀ u, e.mask.getLsbD u = true → (maskOf (l.filter (fun v => x v == x u)), Go.to (x u).1 (x u).2) ∈ goGroups t (.weave c k) (goesTo l x) :=
    fun u hu => hg ▸ List.mem_map.mpr ⟨x u, List.mem_eraseDups.mpr (List.mem_map_of_mem (hin.mpr hu)), rfl⟩
  generalize hG : goGroups t (.weave c k) (goesTo l x) = G at hg hmem
  have hrest : G.foldl (fun m g => m &&& ~~~g.1) e.mask = 0#32 := by
    apply BitVec.eq_of_getLsbD_eq
    intro u hu
    rw [rest_getLsbD _ _ _ hu, BitVec.getLsbD_zero, Bool.and_eq_false_iff]
    by_cases hm : e.mask.getLsbD u = true
    · exact .inr (List.all_eq_false.mpr ⟨_, hmem u hm, by simp [(hbit (x u) u).mpr ⟨hin.mpr hm, rfl⟩]⟩)
    · exact .inl (by simpa using hm)
  have hlen : occupied (groupsOf e.mask G) ≤ D.length := by
    have h1 : occupied (groupsOf e.mask G) = occupied G := by simp [groupsOf, hrest, occupied, List.filter_append]
    have h2 : G.length = (l.map x).eraseDups.length := by rw [hg, List.length_map]
    have h3 : (l.map x).eraseDups.length ≤ D.length := (nodup_eraseDups _).length_le_of_subset fun y hy => by
      obtain ⟨u, hu, rfl⟩ := List.mem_map.mp (List.mem_eraseDups.mp hy)
      exact (hx u (hin.mp hu)).1
    have := occupied_le G
    omega
  have hall : ∀ g ∈ groupsOf e.mask G, g.2.moves = true := fun g hm => by
    simp only [groupsOf, hg, List.mem_append, List.mem_map, List.mem_singleton] at hm
    rcases hm with ⟨y, -, rfl⟩ | rfl <;> rfl
  have hcov : ∀ u, e.mask.getLsbD u = true → ∃ m g, (m, g) ∈ groupsOf e.mask G ∧ m.getLsbD u = true ∧ g.place e q.size = some (.ready, (x u).1) :=
    fun u hu => ⟨_, _, List.mem_append_left _ (hmem u hu), (hbit (x u) u).mpr ⟨hin.mpr hu, rfl⟩, rfl⟩
  refine laneIssue_goes (d := moved t G n) h q hl body (by rw [hq, activeMask_noGuard, hb, ← hG]) rfl hw rfl (moves_of h.live hall ?_ ?_) _ hcov
  · simp only [Weave.fits] at hf ⊢; exact (Nat.add_le_add_left hlen _).trans hf
  · exact fun u hu => let ⟨m, g, h1, h2, _⟩ := hcov u hu; ⟨m, g, h1, h2⟩

/-- A lane instruction that reads a place for each thread. -/
theorem laneIssue_pairs (h : LaneTurn s c k e w) (q : LaneReq) (hq : q.guard = noGuard)
    (hl : illegalHere w e q.size q.chain q.elig q.regs = false) {body : State → Nat → Nat → Weave → Entry → Mask → Done}
    {go : Nat → Except Nat (Double × Half)} {n : Nat} {x : Nat → Double} {D : List Double} (hf : w.fits e D.length)
    (hb : body (laneState s c k w) c k w e e.mask =
      moved (laneState s c k w) (goGroups (laneState s c k w) (.weave c k) ((threadsOf e.mask).map (fun u => (u, go u)))) n)
    (hx : ∀ u, e.mask.getLsbD u = true → go u = .ok (x u, e.prio) ∧ x u ∈ D ∧ lands s c (vfAt s c k w) (x u)) :
    ∃ t, laneIssue s q body = .next t ∧ LaneDone s t c k e w w (fun u => (.ready, x u)) := by
  have hgo : (threadsOf e.mask).map (fun u => (u, go u)) = goesTo (threadsOf e.mask) (fun u => (x u, e.prio)) :=
    List.map_congr_left fun u hu => by rw [(hx u (mem_threadsOf.mp hu).2).1]
  have hland : ∀ u, e.mask.getLsbD u = true → lands (laneState s c k w) c (agentVf (laneState s c k w) (.weave c k)) (x u) := fun u hu => by
    obtain ⟨p1, p2, p3⟩ := (hx u hu).2.2
    refine ⟨p1, p2, fun y t hy => p3 y (fetchWord s c (vfAt s c k w) (x u).toNat false).2 (Prod.ext ?_ rfl)⟩
    rw [← fetchWord_kept (kept_laneState s c k w), vfAt, hy]
  obtain ⟨t, h1, h2⟩ := laneIssue_each (x := fun u => (x u, e.prio)) (D := D.map (·, e.prio)) h q hq hl body (by rwa [List.length_map])
    (by rw [hb, hgo]) (getWeave_laneState s c k w) fun u hu => ⟨List.mem_map_of_mem (hx u hu).2.1, hland u hu⟩
  exact ⟨t, h1, h2.since (kept_laneState s c k w)⟩

theorem gatherWith_oks {α : Type} (a b : Double) (f : List Double → Except Nat α) : gatherWith [.ok a, .ok b] f = f [a, b] := rfl

theorem exec_brx (h : LaneTurn s c k e w) {a b : LSrc} {p : BitVec 28} {va vb : Nat → Double} {D : List Double} (hf : w.fits e D.length)
    (hl : illegalHere w e 8 false false (lsrcRegs a 2 ++ lsrcRegs b 1) = false)
    (ha : ∀ u, e.mask.getLsbD u = true → readLSrc (laneCore s c k w) w u a true 0#64 = .ok (va u))
    (hb : ∀ u, e.mask.getLsbD u = true → readLSrc (laneCore s c k w) w u b false (litValue .w32 p) = .ok (vb u) ∧
      offsetBy (va u) (vb u) ∈ D ∧ lands s c (vfAt s c k w) (offsetBy (va u) (vb u))) :
    ∃ t, exec (.brx a b p) s = .next t ∧ LaneDone s t c k e w w (fun u => (.ready, offsetBy (va u) (vb u))) :=
  laneIssue_pairs h (twoWord _) rfl hl hf rfl fun u hu => by
    obtain ⟨h1, h2, h3⟩ := hb u hu
    refine ⟨?_, h2, h3⟩
    have h4 := ha u hu
    simp only [laneCore] at h1 h4
    rw [h1, h4, gatherWith_oks]
    rfl

theorem exec_ret (h : LaneTurn s c k e w) {a : LSrc} {va : Nat → Double} {D : List Double} (hf : w.fits e D.length)
    (hl : illegalHere w e 4 false false (lsrcRegs a 2) = false)
    (ha : ∀ u, e.mask.getLsbD u = true → readLSrc (laneCore s c k w) w u a true 0#64 = .ok (va u))
    (hx : ∀ u, e.mask.getLsbD u = true → va u ≠ 0#64 ∧ va u ∈ D ∧ lands s c (vfAt s c k w) (va u)) :
    ∃ t, exec (.ret a) s = .next t ∧ LaneDone s t c k e w w (fun u => (.ready, va u)) :=
  laneIssue_pairs h (oneWord _) rfl hl hf rfl fun u hu => by
    obtain ⟨h1, h2, h3⟩ := hx u hu
    refine ⟨?_, h2, h3⟩
    have h4 := ha u hu
    simp only [laneCore] at h4
    rw [h4]
    exact if_neg h1

/-! ## `switch` (R71, R130, R131) -/

theorem looked_fetchFour (t : State) (c vf : Nat) (pc : Double) : Looked t (fetchFour t c vf pc).2 c := by
  have hstep : ∀ (l : List Nat) (acc : Except Nat (List Word) × State), Looked t acc.2 c → Looked t (l.foldl (fun acc i =>
      match fetchWord acc.2 c vf (pc + BitVec.ofNat 64 (4 * i)).toNat false, acc.1 with
      | (.ok w, s), .ok ws => (.ok (ws ++ [w]), s)
      | (.ok _, s), .error e => (.error e, s)
      | (.error e, s), .ok _ => (.error e, s)
      | (.error e, s), .error e' => (.error (min e e'), s)) acc).2 c := by
    intro l
    induction l with
    | nil => exact fun _ h => h
    | cons i l ih =>
      intro acc h
      refine ih _ ?_
      have hf := h.trans (looked_fetchWord acc.2 c vf (pc + BitVec.ofNat 64 (4 * i)).toNat false)
      beta_reduce
      split <;> (rename_i heq _; rw [heq] at hf; exact hf)
  exact hstep _ _ (.refl t c)

theorem looked_readCases (t : State) (c vf : Nat) (pc : Double) (n : Nat) : Looked t (readCases t c vf pc n).2 c := by
  have hstep : ∀ (l : List Nat) (acc : Except (Nat × Double) (List Case) × State), Looked t acc.2 c → Looked t (l.foldl (fun acc i =>
      let addr := pc + BitVec.ofNat 64 (8 + 16 * i)
      match fetchFour acc.2 c vf addr with
      | (r, s) =>
        let y : Except Nat Case := match r with | .ok ws => caseOf ws (i == n) | .error e => .error e
        match y, acc.1 with
        | .ok x, .ok xs => (.ok (xs ++ [x]), s)
        | .ok _, .error e => (.error e, s)
        | .error e, .ok _ => (.error (e, addr), s)
        | .error e, .error e' => (.error (if e < e'.1 then (e, addr) else e'), s)) acc).2 c := by
    intro l
    induction l with
    | nil => exact fun _ h => h
    | cons i l ih =>
      intro acc h
      refine ih _ ?_
      have hf := h.trans (looked_fetchFour acc.2 c vf (pc + BitVec.ofNat 64 (8 + 16 * i)))
      dsimp only
      split <;> exact hf
  exact hstep _ _ (.refl t c)

/-- The record that a value takes in a table (R131). -/
def hitCase (cs : List Case) (n : Nat) (v : Word) : Case := ((cs.take n).find? (fun x => x.imm == v)).getD (cs.getD n default)

theorem caseFor_eq (cs : List Case) (n : Nat) (v : Word) : caseFor cs n v = hitCase cs n v := by
  unfold caseFor hitCase
  cases (cs.take n).find? (fun x => x.imm == v) <;> rfl

/-- A source reads a core's lanes and value store only. -/
theorem readLSrc_congr {x y : Core} (hl : y.lanes = x.lanes) (hs : y.store = x.store) (w : Weave) (u : Nat) (a : LSrc) (wide : Bool) (lit : Double) :
    readLSrc y w u a wide lit = readLSrc x w u a wide lit := by
  cases a with
  | v n =>
    have ht : tagBad y = tagBad x := funext fun n => by simp only [tagBad, hs]
    simp only [readLSrc, readReg, vPoisoned, ht]
    rfl
  | latch n => simp only [readLSrc, hl]
  | zero => rfl
  | lit => rfl
  | tid => rfl

theorem exec_switch (h : LaneTurn s c k e w) {a : LSrc} {n : BitVec 4} {cs : List Case} {s2 : State} {v : Nat → Double}
    {D : List (Double × Half)} (hf : w.fits e D.length) (hl : illegalHere w e 8 false false (lsrcRegs a 1) = false)
    (hr : readCases (laneState s c k w) c (vfAt s c k w) e.pc n.toNat = (.ok cs, s2))
    (hx : ∀ u, e.mask.getLsbD u = true → readLSrc (laneCore s c k w) w u a false 0#64 = .ok (v u) ∧
      (e.pc + BitVec.ofInt 64 (4 * (hitCase cs n.toNat ((v u).setWidth 32)).off.toInt), (hitCase cs n.toNat ((v u).setWidth 32)).prio) ∈ D ∧
      lands s2 c (vfAt s c k w) (e.pc + BitVec.ofInt 64 (4 * (hitCase cs n.toNat ((v u).setWidth 32)).off.toInt))) :
    Looked (laneState s c k w) s2 c ∧ ∃ t, exec (.switch a n) s = .next t ∧
      LaneDone s2 t c k e w w (fun u => (.ready, e.pc + BitVec.ofInt 64 (4 * (hitCase cs n.toNat ((v u).setWidth 32)).off.toInt))) := by
  have hk : Looked (laneState s c k w) s2 c := by
    have := looked_readCases (laneState s c k w) c (vfAt s c k w) e.pc n.toNat
    rwa [hr] at this
  have hw : getWeave s2 c k = some w := by
    have : (getCore s2 c).weaves = (getCore (laneState s c k w) c).weaves := (congrArg Core.weaves hk.core :)
    rw [getWeave, this]
    exact getWeave_laneState s c k w
  have hv : agentVf s2 (.weave c k) = vfAt s c k w := hk.agentVf rfl
  refine ⟨hk, laneIssue_each (n := countOf e.mask) (x := fun u =>
    (e.pc + BitVec.ofInt 64 (4 * (hitCase cs n.toNat ((v u).setWidth 32)).off.toInt), (hitCase cs n.toNat ((v u).setWidth 32)).prio)) h (twoWord _) rfl hl _ hf ?_ hw fun u hu => by rw [hv]; exact (hx u hu).2⟩
  have hgo : ∀ u ∈ threadsOf e.mask, (u, match readLSrc (getCore s2 c) w u a false 0#64 with
      | .error e => .error e
      | .ok v => .ok (e.pc + (((caseFor cs n.toNat (v.setWidth 32)).off.signExtend 64 : Double) <<< 2), (caseFor cs n.toNat (v.setWidth 32)).prio)) =
      ((u, .ok (e.pc + BitVec.ofInt 64 (4 * (hitCase cs n.toNat ((v u).setWidth 32)).off.toInt), (hitCase cs n.toNat ((v u).setWidth 32)).prio)) :
        Nat × Except Nat (Double × Half)) := fun u hu => by
    have hval := (hx u (mem_threadsOf.mp hu).2).1
    rw [laneCore] at hval
    have hlane : (getCore s2 c).lanes = (getCore (laneState s c k w) c).lanes := (congrArg Core.lanes hk.core :)
    have hstore : (getCore s2 c).store = (getCore (laneState s c k w) c).store := (congrArg Core.store hk.core :)
    rw [readLSrc_congr hlane hstore, hval]
    simp only [caseFor_eq, signExtend_words]
  simp only [goesTo, ← List.map_congr_left hgo]
  rw [vfAt] at hr
  simp only [hr] <;> rfl

end Turn

/-- Settles O1: each group of threads goes to its place, which is no second word; `call` leaves its link, `switch` looks its records up. -/
theorem laneTransfers : Obligations.LaneTransfers := by
  unfold Obligations.LaneTransfers
  refine ⟨fun s c k e w f h => ⟨fun hl => exec_nop h hl, fun hl hf hland => ⟨exec_bra h hl hf hland, exec_call h hl hf hland⟩⟩,
    fun s c k e w a b p va vb D h hf ha => ⟨fun hl hb => exec_brx h hf hl ha hb, fun hl hx => exec_ret h hf hl ha hx⟩,
    fun s c k e w a n cs s2 v D h hf hl hr => ?_⟩
  intro hit dest hx
  exact exec_switch h hf hl hr hx

end Sys2Proof.Machine

/-!
# Lane traps and waits

`rcb` on its turn where an entry without threads waits at it (06 R135; 04 R65, R72): a state that the statement does not exclude.
-/

namespace Sys2Proof.Machine

open Sys2Proof

/-- An entry at the address 0, in an order of its own. -/
def rcbEntry (m : Mask) (st : EntryState) : Entry := { (default : Entry) with mask := m, state := st }

/-- A weave of one thread about to issue a `rcb`, at which an entry waits that holds no thread. -/
def hollowWeave : Weave := { (default : Weave) with frontier := [rcbEntry 1#32 .ready, rcbEntry 0#32 .atRcb] }

/-- The machine at reset but for that weave in focus. -/
def hollowState : State :=
  { State.reset with cores := [(0, { Core.blank with weaves := [(0, hollowWeave)] })], focus := .weave 0 0 }

theorem hollowState_turn : LaneTurn hollowState 0 0 (rcbEntry 1#32 .ready) hollowWeave where
  focus := rfl
  issues := by decide +kernel
  weave := by decide +kernel
  live := by decide
  inCore := by decide +kernel
  room := by decide +kernel

/-- The machine after the `rcb`. -/
def hollowNext : State := match exec .rcb hollowState with | .next t => t | _ => hollowState

/-- The entry without threads left with those that passed. -/
theorem hollowNext_frontier : (getWeave hollowNext 0 0).all (fun w => w.frontier.all (fun y => y.state != .atRcb)) = true := by decide +kernel

/-- Refutes O2: nothing waits any more at a `rcb` once the entry passes, so an entry without threads that waited there is gone, while the
statement has every entry disjoint from the threads that pass, and so this one, stand where it stood. -/
theorem not_laneTrapsWaits : ¬ Obligations.LaneTrapsWaits := by
  unfold Obligations.LaneTrapsWaits
  rintro ⟨-, h⟩
  obtain ⟨hrcb, -⟩ := h hollowState 0 0 (rcbEntry 1#32 .ready) hollowWeave hollowState_turn
  obtain ⟨t, hx, -, w', hw, -, -, hothers⟩ := hrcb (by decide +kernel)
  have ht : hollowNext = t := by rw [hollowNext, hx]
  obtain ⟨y, hy, -, -, hst⟩ := hothers (rcbEntry 0#32 .atRcb) (by decide +kernel) (by decide +kernel)
  have hall := hollowNext_frontier
  rw [ht, hw] at hall
  have hne := List.all_eq_true.mp hall y hy
  rw [hst] at hne
  exact absurd hne (by decide)

end Sys2Proof.Machine

/-!
# The decisions of an instance

`dpop` on its turn where a core's list of instances is not in the order of its keys (06 R144): a state that the statement does not exclude.
-/

namespace Sys2Proof.Machine

open Sys2Proof

/-- An entry of one thread at the address 0. -/
def dpopEntry : Entry := { (default : Entry) with mask := 1#32, state := .ready }

/-- A weave of one thread that can name all registers. -/
def dpopWeave : Weave := { (default : Weave) with frontier := [dpopEntry], allot := 128 }

/-- A core that lists instance 1 before instance 0, the weave's own; both have no decision and no steer thread. -/
def turnedCore : Core := { Core.blank with insts := [(1, default), (0, default)], weaves := [(0, dpopWeave)] }

/-- The machine at reset but for that core, its weave in focus. -/
def turnedState : State := { State.reset with cores := [(0, turnedCore)], focus := .weave 0 0 }

theorem turnedState_turn : LaneTurn turnedState 0 0 dpopEntry dpopWeave where
  focus := rfl
  issues := by decide +kernel
  weave := by decide +kernel
  live := by decide
  inCore := by decide +kernel
  room := by decide +kernel

theorem turnedState_ok : uniOk (begin turnedState (.weave 0 0) dpopEntry) (.weave 0 0) dpopEntry 4 .weave := by
  unfold uniOk
  decide +kernel

/-- The machine after the `dpop`. -/
noncomputable def turnedNext : State := match exec (.dpop (.s 0#6) false) turnedState with | .next t => t | _ => turnedState

/-- Taking the decision put instance 0 in front, where the list had none of a lower number. -/
theorem turnedNext_insts :
    ((getCore turnedNext 0).insts.map (·.1), (getCore (begin turnedState (.weave 0 0) dpopEntry) 0).insts.map (·.1)) = ([0, 1, 0], [1, 0]) := by
  decide +kernel

/-- Refutes O26: `dpop` writes the weave's instance back to the core's list, once its steer thread has ended too. In a list that is not in
order it enters a second time, and the core is not as it was. -/
theorem not_uniformTransfers : ¬ Obligations.UniformTransfers := by
  unfold Obligations.UniformTransfers
  rintro ⟨-, h⟩
  obtain ⟨hpop, -⟩ := h turnedState 0 0 dpopEntry dpopWeave default turnedState_turn ⟨rfl, rfl, rfl⟩ (by decide +kernel) turnedState_ok
  obtain ⟨-, hended, -⟩ := hpop 0#6 false (by decide +kernel)
  obtain ⟨t, f, hx, ⟨⟨hkept, -⟩, -, -, -⟩, -⟩ := hended rfl rfl
  have ht : turnedNext = t := by rw [turnedNext, hx]
  have hinsts : (getCore t 0).insts = (getCore (begin turnedState (.weave 0 0) dpopEntry) 0).insts := (congrArg Core.insts hkept.core :)
  have hkeys := turnedNext_insts
  rw [ht, hinsts] at hkeys
  obtain ⟨h1, h2⟩ := Prod.mk.inj hkeys
  exact absurd (h1.symm.trans h2) (by decide)

end Sys2Proof.Machine

/-!
# A wait for a counter in a paired steer thread

The stores of a paired steer thread stand in its groups (20 R405), outside its store queue, until they are performed; its own reads find
them there. A state in which such a store reaches the count that the thread waits for (08 R181).
-/

namespace Sys2Proof.Machine

open Sys2Proof

/-- The steer thread waits until the counter at the address of the code is 1. -/
def pairedEntry : Entry :=
  { (default : Entry) with mask := 1#32, state := .waiting (.waitc (BitVec.ofNat 64 bootVa) 1) }

/-- A store of 1 to the counter. -/
def countStore : StoreReq :=
  { (default : StoreReq) with
    writes := [{ circle := false, va := bootVa, key := memKey State.reset.device bootVa, data := bytesLE 8 1, full := false, bits := [] }],
    width := 8 }

/-- The steer thread, one of two copies, with the store in its open group and nothing in its store queue. -/
def pairedSteer : Steer :=
  { (default : Steer) with entry := some pairedEntry, pair := some { (default : Pair) with open_ := [.stores countStore] } }

/-- The machine at reset but for tables, a virtual function and a launch on core 0, whose instance has that steer thread. -/
def pairedState : State :=
  { writableTables State.reset with
    vfs := [(0, bootVf)], launches := [bootLaunch 1],
    cores := [(0, { Core.blank with insts := [(0, { (default : Inst) with serial := 1, steer := pairedSteer })] })] }

/-- The page of the counter. -/
def countLeaf : Leaf :=
  { vf := 0, va := 0, size := 30, state := .priv, r := true, w := true, x := false, h := false, p := false, home := 0, frame := 0 }

theorem pairedState_reaches : Reaches pairedState (.steer 0 0) bootVa 8 .load countLeaf where
  aligned := by decide
  inside := by decide
  walks := by
    have hw : (walk pairedState (agentVf pairedState (.steer 0 0)) bootVa).toOption = some countLeaf := by decide +kernel
    cases h : walk pairedState (agentVf pairedState (.steer 0 0)) bootVa with
    | error n => rw [h] at hw; cases hw
    | ok l => rw [h] at hw; exact congrArg _ (Option.some.inj hw)
  held := fun y hy => by
    have h1 : (getCore pairedState 0).tlb = [] := by decide +kernel
    have h2 : (getPart pairedState (partOf 0)).tlb2 = [] := by decide +kernel
    simp only [coreOf, h1, h2, List.not_mem_nil, or_self] at hy
  allowed := by decide +kernel
  free := fun _ => by decide +kernel

theorem pairedState_l1 : (getCore pairedState 0).l1 = [] := by decide +kernel

theorem pairedState_slice : sliceOf pairedState 0 = [] := by decide +kernel

theorem pairedState_sound : sound pairedState 0 (leafKey pairedState countLeaf bootVa) := by
  refine ⟨fun l hl => ?_, by decide +kernel⟩
  rw [pairedState_l1, pairedState_slice] at hl
  rcases hl with hl | hl <;> cases hl

theorem pairedState_caches : CachesOk pairedState 0 := by
  rw [CachesOk, pairedState_l1, pairedState_slice]
  exact ⟨linesOk_nil, linesOk_nil⟩

/-- The machine after the event. -/
noncomputable def pairedNext : State := match exec (.waitcComplete (.steer 0 0)) pairedState with | .next t => t | _ => pairedState

/-- The thread waits no more. -/
theorem pairedNext_ended : waitingOf pairedNext (.steer 0 0) isWaitc = none := by decide +kernel

/-- Refutes O43: a steer thread's queue may be empty while its store groups hold stores. Its read of the counter finds a 1 there and the
wait ends, while the bytes at the counter's home are still 0, with which the statement has it go on. -/
theorem not_waitsEnd : ¬ Obligations.WaitsEnd := by
  unfold Obligations.WaitsEnd
  rintro ⟨h, -⟩
  obtain ⟨-, hstays⟩ := h pairedState (.steer 0 0) pairedEntry (BitVec.ofNat 64 bootVa) 1 countLeaf (by decide +kernel)
    ⟨nofun, by decide +kernel⟩ ⟨by decide +kernel, nofun⟩ pairedState_reaches pairedState_sound pairedState_caches
  obtain ⟨t, hx, -, hwaits⟩ := hstays (by decide +kernel) (by decide +kernel)
  have ht : pairedNext = t := by rw [pairedNext, hx]
  have hended := pairedNext_ended
  rw [ht, hwaits] at hended
  cases hended

end Sys2Proof.Machine

/-!
# `nodeput` and `waitn`

A node's address is looked up, its status read at home, the core's stores written to memory (06 R146, R147): accesses that leave their
agent as it stood. What the agent does next is read off from the machine they leave.
-/

namespace Sys2Proof.Machine

open Sys2Proof

/-! ## Accesses that write nothing -/

section Access

variable {s t u : State} {a : Agent} {c : Nat}

theorem Accessed.trans (h : Accessed s t a still) (g : Accessed t u a still) : Accessed s u a still where
  rest := g.rest.trans h.rest
  parts p := (g.parts p).trans (h.parts p)
  slices p hp := (g.slices p hp).trans (h.slices p hp)
  cores d hd := (g.cores d hd).trans (h.cores d hd)
  core := g.core.trans h.core
  weaves j hj := (g.weaves j hj).trans (h.weaves j hj)
  insts j hj := (g.insts j hj).trans (h.insts j hj)
  handler hh := (g.handler hh).trans (h.handler hh)
  bytes k := by rw [g.bytes, h.bytes]; rfl

theorem homeByte_congr (hl : (getCore t c).l1 = (getCore s c).l1) (hs : sliceOf t c = sliceOf s c) (hm : t.mem = s.mem)
    (hu : t.unscrubbed = s.unscrubbed) (k : Nat) : homeByte t c k = homeByte s c k := by
  simp only [homeByte, lowByte, memByte, hl, hs, hm, hu]

/-- A translation through the TLBs. -/
theorem accessed_of_looked (h : Looked s t (coreOf a)) (hi : (getCore t (coreOf a)).icache = (getCore s (coreOf a)).icache) :
    Accessed s t a still := by
  have hparts : ∀ p, (getPart t p).l2 = (getPart s p).l2 := fun p => (congrArg Part.l2 (h.parts p) :)
  have hcore : { getCore t (coreOf a) with tlb := [] } = { getCore s (coreOf a) with tlb := [] } :=
    calc { getCore t (coreOf a) with tlb := [] }
      _ = { { getCore t (coreOf a) with tlb := [], icache := [] } with icache := (getCore s (coreOf a)).icache } := by rw [← hi]
      _ = { getCore s (coreOf a) with tlb := [] } := by rw [h.core]
  have hw : (getCore t (coreOf a)).weaves = (getCore s (coreOf a)).weaves := (congrArg Core.weaves hcore :)
  have hx : (getCore t (coreOf a)).insts = (getCore s (coreOf a)).insts := (congrArg Core.insts hcore :)
  exact {
    rest := (congrArg (fun x : State => { x with seq := 0, mem := [], bad := [], unscrubbed := [], dirty := [] }) h.rest :)
    parts := fun p => (congrArg (fun x : Part => { x with traces := [], l2 := [] }) (h.parts p) :)
    slices := fun p _ => hparts p
    cores := h.cores
    core := (congrArg Core.quiet hcore :)
    weaves := fun j _ => by rw [getWeave, hw]; rfl
    insts := fun j _ => by rw [getInst, hx]; rfl
    handler := fun _ => (congrArg Core.handler hcore :)
    bytes := homeByte_congr (congrArg Core.l1 hcore :) (hparts _) (congrArg State.mem h.rest :) (congrArg State.unscrubbed h.rest :) }

/-- A change of a core in what an access of one of its agents may change, its caches apart. -/
theorem accessed_of_core (hr : { t with cores := [], seq := 0 } = { s with cores := [], seq := 0 }) (hc : ∀ d, d ≠ coreOf a → getCore t d = getCore s d)
    (hq : (getCore t (coreOf a)).quiet = (getCore s (coreOf a)).quiet) (hl : (getCore t (coreOf a)).l1 = (getCore s (coreOf a)).l1)
    (hw : ∀ j, a ≠ .weave (coreOf a) j → getWeave t (coreOf a) j = getWeave s (coreOf a) j)
    (hi : ∀ j, a ≠ .steer (coreOf a) j → getInst t (coreOf a) j = getInst s (coreOf a) j)
    (hh : a ≠ .handler (coreOf a) → (getCore t (coreOf a)).handler = (getCore s (coreOf a)).handler) : Accessed s t a still := by
  have hp : t.parts = s.parts := (congrArg State.parts hr :)
  have hg : ∀ p, getPart t p = getPart s p := fun p => by rw [getPart, hp]; rfl
  exact {
    rest := (congrArg (fun x : State => { x with parts := [], marks := [], mem := [], bad := [], unscrubbed := [], dirty := [] }) hr :)
    parts := fun p => by rw [hg]
    slices := fun p _ => by rw [hg]
    cores := hc
    core := hq
    weaves := hw
    insts := hi
    handler := hh
    bytes := homeByte_congr hl (congrArg Part.l2 (hg _)) (congrArg State.mem hr :) (congrArg State.unscrubbed hr :) }

/-- A change of an agent's place and file. -/
theorem accessed_of_keptUni (h : KeptUni s t a) : Accessed s t a still := by
  cases a with
  | weave c k =>
    obtain ⟨hk, -⟩ := h
    exact accessed_of_core hk.rest hk.cores (congrArg Core.quiet hk.core :) (congrArg Core.l1 hk.core :)
      (fun j hj => hk.weaves j fun e => hj (e ▸ rfl)) (fun j _ => hk.insts j) fun _ => (congrArg Core.handler hk.core :)
  | steer c k =>
    obtain ⟨hr, hc, hs, hh, hi, -⟩ := h
    have hw : (getCore t c).weaves = (getCore s c).weaves := (congrArg Core.weaves hs :)
    exact accessed_of_core hr hc (congrArg Core.quiet hs :) (congrArg Core.l1 hs :) (fun j _ => by rw [coreOf, getWeave, hw]; rfl)
      (fun j hj => hi j fun e => hj (e ▸ rfl)) fun _ => hh
  | handler c =>
    obtain ⟨hr, hc, hs, hi, -⟩ := h
    have hw : (getCore t c).weaves = (getCore s c).weaves := (congrArg Core.weaves hs :)
    exact accessed_of_core hr hc (congrArg Core.quiet hs :) (congrArg Core.l1 hs :) (fun j _ => by rw [coreOf, getWeave, hw]; rfl)
      (fun j _ => by rw [coreOf, getInst, hi]; rfl) fun hh => absurd rfl hh

/-- A core's clock runs on through its accesses (R14). -/
theorem coreCycles_accessed (h : Accessed s t a still) : coreCycles t (coreOf a) = coreCycles s (coreOf a) := by
  have hn : t.now = s.now := (congrArg State.now h.rest :)
  have h1 : (getCore t (coreOf a)).ran = (getCore s (coreOf a)).ran := (congrArg Core.ran h.core :)
  have h2 : (getCore t (coreOf a)).since = (getCore s (coreOf a)).since := (congrArg Core.since h.core :)
  have h3 : (getCore t (coreOf a)).clock = (getCore s (coreOf a)).clock := (congrArg Core.clock h.core :)
  simp only [coreCycles, hn, h1, h2, h3]

/-! ## Moves of lines that leave every byte -/

theorem cacheStep_dropLines (l : List Nat) (ho : CachesOk s c) : CacheStep s (l.foldl (fun s u => dropLine s c u) s) c (fun _ b => b) := by
  induction l generalizing s with
  | nil => exact .refl ho
  | cons x r ih => exact (cacheStep_dropLine ho x).trans (ih (cacheStep_dropLine ho x).ok)

theorem cacheStep_dropCore (ho : CachesOk s c) : CacheStep s (dropCore s c) c (fun _ b => b) := by
  obtain ⟨h, hc⟩ := cacheStep_flushCore ho
  have hl : (getCore (dropCore s c) c).l1 = [] := by rw [dropCore, getCore_onCore_self]
  refine ⟨h.moved.trans (linesMoved_onL1 _ c fun _ => []), ⟨hl ▸ linesOk_nil, h.ok.2⟩, fun k => ?_⟩
  rw [homeByte_eq, hl, overTable_none (t := []) rfl, ← h.home k, homeByte_eq, hc.over]
  rfl

theorem cacheStep_dropPart (ho : CachesOk s c) : CacheStep s (dropPart s (partOf c)) c (fun _ b => b) := by
  obtain ⟨h, hc⟩ := cacheStep_flushPart ho
  have hl : sliceOf (dropPart s (partOf c)) c = [] := by rw [dropPart, sliceOf_onPart (f := fun _ => [])]
  refine ⟨h.moved.trans (linesMoved_onL2 _ c fun _ => []), ⟨h.ok.1, hl ▸ linesOk_nil⟩, fun k => ?_⟩
  rw [homeByte_eq, lowByte_eq, hl, overTable_none (t := []) rfl, ← h.home k, homeByte_eq, lowByte_eq, hc.over]
  rfl

theorem cacheStep_dropL1 (ho : CachesOk s c) : CacheStep s (dropL1 s c) c (fun _ b => b) :=
  (cacheStep_dropCore ho).trans (cacheStep_dropPart (cacheStep_dropCore ho).ok)

end Access

/-! ## Accesses that leave their agent as it stood -/

/-- From `s` to `t` agent `a` read and wrote nothing: it stands as it stood, and its core's caches are in their form. -/
structure Aside (s t : State) (a : Agent) : Prop where
  access : Accessed s t a still
  weave : ∀ c k, a = .weave c k → getWeave t c k = getWeave s c k
  steer : ∀ c k, a = .steer c k → getInst t c k = getInst s c k
  handler : (getCore t (coreOf a)).handler = (getCore s (coreOf a)).handler
  launches : t.launches = s.launches
  form : CachesOk t (coreOf a)

section Aside

variable {s t u : State} {a : Agent}

theorem Aside.refl (h : CachesOk s (coreOf a)) : Aside s s a := ⟨.refl s a, fun _ _ _ => rfl, fun _ _ _ => rfl, rfl, rfl, h⟩

theorem Aside.trans (h : Aside s t a) (g : Aside t u a) : Aside s u a where
  access := h.access.trans g.access
  weave c k ha := (g.weave c k ha).trans (h.weave c k ha)
  steer c k ha := (g.steer c k ha).trans (h.steer c k ha)
  handler := g.handler.trans h.handler
  launches := g.launches.trans h.launches
  form := g.form

theorem Aside.cacheStep (h : Aside s t a) (g : CacheStep t u (coreOf a) (fun _ b => b)) : Aside s u a where
  access := h.access.cacheStep g fun _ _ => rfl
  weave c k ha := by subst ha; exact (g.moved.weaves k).trans (h.weave c k rfl)
  steer c k ha := by subst ha; exact (g.moved.insts k).trans (h.steer c k rfl)
  handler := (congrArg Core.handler g.moved.core :).trans h.handler
  launches := g.moved.launches.trans h.launches
  form := g.ok

theorem Aside.translate (h : Aside s t a) (vf va : Nat) (acc : Acc) (b : Bool) : Aside s (translate t (coreOf a) vf va acc b).2 a := by
  have hl := looked_translate t (coreOf a) vf va acc b
  have hi := icache_translate t (coreOf a) vf va acc b
  generalize (Machine.translate t (coreOf a) vf va acc b).2 = u at hl hi
  have hw : (getCore u (coreOf a)).weaves = (getCore t (coreOf a)).weaves := (congrArg Core.weaves hl.core :)
  have hx : (getCore u (coreOf a)).insts = (getCore t (coreOf a)).insts := (congrArg Core.insts hl.core :)
  have h1 : (getCore u (coreOf a)).l1 = (getCore t (coreOf a)).l1 := (congrArg Core.l1 hl.core :)
  have h2 : sliceOf u (coreOf a) = sliceOf t (coreOf a) := (congrArg Part.l2 (hl.parts _) :)
  refine h.trans ⟨accessed_of_looked hl hi, fun c k ha => ?_, fun c k ha => ?_, (congrArg Core.handler hl.core :), (congrArg State.launches hl.rest :), ?_⟩
  · subst ha; simp only [getWeave]; rw [show (getCore u c).weaves = (getCore t c).weaves from hw]
  · subst ha; simp only [getInst]; rw [show (getCore u c).insts = (getCore t c).insts from hx]
  · rw [CachesOk, h1, h2]; exact h.form

theorem Aside.nodeSite (h : Aside s t a) (addr : Double) : Aside s (nodeSite t a addr).2 a := by
  have ht := h.translate (agentVf t a) addr.toNat .load (isHandler a)
  unfold Machine.nodeSite
  split
  · rename_i heq; rw [heq] at ht; exact ht
  · rename_i heq; rw [heq] at ht; split <;> exact ht

theorem Aside.readNodeStatus (h : Aside s t a) (addr : Double) : Aside s (readNodeStatus t a addr).2 a := by
  have ht := h.nodeSite addr
  unfold Machine.readNodeStatus
  split
  · rename_i heq; rw [heq] at ht; exact ht
  · rename_i k v heq
    rw [heq] at ht
    have hr := ht.cacheStep (cacheStep_dropLines (unitsOf (k + 18) 2) ht.form)
    split <;> (rename_i hx; exact (congrArg (fun y => y.2.2) hx : _ = _) ▸ hr)

theorem Aside.of_nodeSite (h : Aside s t a) {addr : Double} {r : Except Nat Nat} (hu : Machine.nodeSite t a addr = (r, u)) : Aside s u a := by
  have := h.nodeSite addr
  rwa [hu] at this

theorem Aside.of_readNodeStatus (h : Aside s t a) {addr : Double} {r : Except Nat Nat} (hu : Machine.readNodeStatus t a addr = (r, u)) :
    Aside s u a := by
  have := h.readNodeStatus addr
  rwa [hu] at this

/-- A weave put back as it is. -/
theorem Aside.putWeave {c k : Nat} {w : Weave} (h : Aside s t (.weave c k)) (hw : getWeave t c k = some w) : Aside s (putWeave t c k w) (.weave c k) := by
  refine h.trans ⟨accessed_of_keptUni (keptUni_weave hw rfl), fun c' k' hc => ?_, fun _ _ hc => (by cases hc), ?_, rfl, ?_⟩
  · cases hc; rw [getWeave_putWeave_self, hw]
  · exact (congrArg Core.handler (kept_putWeave t c k w).core :)
  · have hl : (getCore (Machine.putWeave t c k w) c).l1 = (getCore t c).l1 := (congrArg Core.l1 (kept_putWeave t c k w).core :)
    exact ⟨by rw [coreOf, hl]; exact h.form.1, h.form.2⟩

/-- An instance put back as it is. -/
theorem Aside.putInst {c k : Nat} {i : Inst} (h : Aside s t (.steer c k)) (hi : getInst t c k = some i) : Aside s (putInst t c k i) (.steer c k) := by
  have hk : KeptUni t (Machine.putInst t c k i) (.steer c k) := keptUni_steer hi rfl
  refine h.trans ⟨accessed_of_keptUni hk, fun _ _ hc => (by cases hc), fun c' k' hc => ?_, ?_, rfl, ?_⟩
  · cases hc; rw [getInst_putInst_self, hi]
  · obtain ⟨-, -, -, hh, -⟩ := hk; exact hh
  · obtain ⟨-, -, hs, -⟩ := hk
    have hl : (getCore (Machine.putInst t c k i) c).l1 = (getCore t c).l1 := (congrArg Core.l1 hs :)
    exact ⟨by rw [coreOf, hl]; exact h.form.1, h.form.2⟩

/-! ### What the machine left says of the agent -/

theorem Aside.getFile (h : Aside s t a) : getFile t a = getFile s a := by
  cases a with
  | weave c k => simp only [Machine.getFile, h.weave c k rfl]
  | steer c k => simp only [Machine.getFile, h.steer c k rfl]
  | handler c => exact congrArg handlerFile h.handler

theorem Aside.flagsOf (h : Aside s t a) (v : Nat) : flagsOf t a v = flagsOf s a v := by
  cases a with
  | weave c k => simp only [Machine.flagsOf, h.weave c k rfl]
  | steer c k => rfl
  | handler c => rfl

theorem Aside.pairOf (h : Aside s t a) : pairOf t a = pairOf s a := by
  cases a with
  | weave c k => simp only [Machine.pairOf, h.weave c k rfl]
  | steer c k => simp only [Machine.pairOf, h.steer c k rfl]
  | handler c => rfl

theorem Aside.agentLaunch (h : Aside s t a) (hn : isHandler a = false) : agentLaunch t a = agentLaunch s a := by
  have hl : getLaunch t = getLaunch s := by funext n; simp only [getLaunch, h.launches]
  cases a with
  | weave c k =>
    have hi : ∀ j, getInst t c j = getInst s c j := fun j => h.access.insts j (by simp)
    simp only [Machine.agentLaunch, agentInst, h.weave c k rfl, coreOf, hi, hl]
  | steer c k => simp only [Machine.agentLaunch, agentInst, coreOf, h.steer c k rfl, hl]
  | handler c => cases hn

end Aside

/-! ## A destination of an agent's file written -/

/-- An agent's own file and its threads' flags took the result `x` of a form with destination `d`, and nothing else changed. -/
structure Wrote (s t : State) (a : Agent) (m : Mask) (d : UDest) (x : Double) : Prop where
  effect : Effect s t a
  agent : KeptAgent s t a
  regs : ∀ r, readS (getFile t a) r = d.writes x r (readS (getFile s a) r)
  preds : (getFile t a).q = (getFile s a).q
  mode : (getFile t a).mode = d.mode x (getFile s a).mode
  flags : ∀ u, u < 32 → ∀ c k, a = .weave c k → flagsOf t a u = if m.getLsbD u then d.flags x 0#6 (flagsOf s a u) else flagsOf s a u

section Wrote

variable {s t u : State} {a : Agent} {m : Mask} {d : UDest} {x : Double}

theorem keptAgent_putFile (h : Present s a) (f : UFile) : KeptAgent s (putFile s a f) a := by
  cases a with
  | weave c k =>
    obtain ⟨w, hw⟩ := h.1 c k rfl
    simp only [putFile, onWeave_some hw]
    exact ⟨w, _, hw, getWeave_putWeave_self _ _ _ _, rfl⟩
  | steer c k =>
    obtain ⟨i, hi⟩ := h.2 c k rfl
    simp only [putFile, onInst_some hi]
    exact ⟨i, _, hi, getInst_putInst_self _ _ _ _, rfl, rfl⟩
  | handler c => simp only [KeptAgent, putFile, getCore_onCore_self]; rfl

/-- A file written that raises no flag. -/
theorem wrote_putFile (h : Present s a) {f : UFile} (hg : f.gen = (getFile s a).gen) (hr : ∀ r, readS f r = d.writes x r (readS (getFile s a) r))
    (hq : f.q = (getFile s a).q) (hm : f.mode = d.mode x (getFile s a).mode) (hf : ∀ o, d.flags x 0#6 o = o) :
    Wrote s (putFile s a f) a m d x := by
  have hgen : ∀ c k, a = .weave c k → f.gen = 1#64 := fun c k ha => by
    subst ha
    obtain ⟨w, hw⟩ := h.1 c k rfl
    simp only [hg, getFile, hw, weaveFile]
  obtain ⟨h1, h2, h3⟩ := putFile_spec h f hgen
  refine ⟨h1, keptAgent_putFile h f, fun r => by rw [h2, hr], by rw [h2, hq], by rw [h2, hm], fun v _ c k _ => ?_⟩
  rw [(h3 v).1, hf]
  exact (ite_self _).symm

theorem wrote_writeUDst (h : Present s a) (m : Mask) (d : UDst) (x : Double) : Wrote s (writeUDst s a m d false x) a m (.reg d false) x := by
  cases d with
  | s n =>
    refine wrote_putFile h rfl (fun r => ?_) rfl rfl fun o => BitVec.or_zero
    simp only [Bool.false_eq_true, if_false, readS_writeS, UDest.writes, Bool.false_and]
  | mode => exact wrote_putFile h rfl (fun _ => rfl) rfl rfl fun o => BitVec.or_zero
  | flags =>
    obtain ⟨h1, h2, -, h4⟩ := foldFlags_spec h m (fun _ => flagsWrite (x.setWidth 32)) (fun _ => rfl) (writeUDst s a m .flags false x)
      (fun c k w ha hw => by subst ha; simp only [writeUDst, onWeave_some hw])
      (fun ha => by cases a with | weave c k => exact absurd rfl (ha c k) | steer c k => rfl | handler c => rfl)
    refine ⟨h1, ?_, fun r => by rw [h2]; rfl, by rw [h2], by rw [h2]; rfl, h4⟩
    cases a with
    | weave c k =>
      obtain ⟨w, hw⟩ := h.1 c k rfl
      obtain ⟨b1, -⟩ := foldFlags (fun _ => flagsWrite (x.setWidth 32)) (threadsOf m) w
      simp only [writeUDst, onWeave_some hw]
      exact ⟨w, _, hw, getWeave_putWeave_self _ _ _ _,
        congrArg (fun y : Weave => { y.body with s := [], q := 0#4, mode := 0#32, sbad := [], inflight := [], storeq := [] }) b1⟩
    | steer c k =>
      obtain ⟨i, hi⟩ := h.2 c k rfl
      exact ⟨i, i, hi, hi, rfl, rfl⟩
    | handler c => rfl

end Wrote

/-! ## The end of a uniform instruction after an access -/

section Turn

variable {s t u : State} {a : Agent} {e : Entry}

theorem uniIssue_turn (h : UniTurn s a e) {q : UniReq} (hl : uniCause (begin s a e) a e q = none) (body : State → Agent → Entry → Done) :
    uniIssue s q body = .next (uniEnd a e q.size q.chain (body (begin s a e) a e)) := by
  simp only [uniIssue, h.focus, h.issues, uniBody, hl]

theorem weaveFile_body {w w' : Weave} (h : w'.body = w.body) : weaveFile w' = weaveFile w :=
  (congrArg weaveFile h : weaveFile w'.body = weaveFile w.body)

theorem UniTurn.present (h : UniTurn s a e) (ht : Aside (begin s a e) t a) : Present t a := by
  obtain ⟨hw, hi⟩ := (uniTurn_ok h).1
  exact ⟨fun c k ha => by rw [ht.weave c k ha]; exact hw c k ha, fun c k ha => by rw [ht.steer c k ha]; exact hi c k ha⟩

theorem UniTurn.endOk (h : UniTurn s a e) (ht : Aside (begin s a e) t a) (hu : Effect t u a) : EndOk u a e := by
  obtain ⟨hp, hok⟩ := uniTurn_ok h
  refine ⟨fun c k ha => ?_, hu.steer⟩
  obtain ⟨w, hw, hm, hr⟩ := (hok _ (.refl hp)).weave c k ha
  obtain ⟨w1, w2, h1, h2, h3⟩ := hu.weave c k ha
  obtain rfl : w1 = w := Option.some.inj (h1.symm.trans ((ht.weave c k ha).trans hw))
  exact ⟨w2, h2, hm, h3 ▸ hr⟩

/-- The agent waits at the instruction. -/
theorem uniEnd_waits (h : UniTurn s a e) (hn : isHandler a = false) (ht : Aside (begin s a e) t a) (size : Nat) (ch : Bool) (v : Wait) :
    UniWaits t (uniEnd a e size ch (waits t (.waiting v))) a e v := by
  cases a with
  | weave c k =>
    obtain ⟨w, hw⟩ := h.weave c k rfl
    have hg : getWeave t c k = some w := by rw [ht.weave c k rfl, begin_turn hw, getWeave_putWeave_self]
    obtain ⟨w', h1, h2, h3, h4, h5⟩ := holdEntry_spec hg hw.inIt hw.live (.waiting v)
    refine ⟨⟨h3, w, w', hg, h1, by rw [h2]⟩, ?_, w, w', hg, h1, h4, h5⟩
    simp only [uniEnd, waits, getFile, h1, hg, weaveFile_body h2]
  | steer c k =>
    obtain ⟨i, hi⟩ := (h.present ht).2 c k rfl
    let x : Steer := { i.steer with entry := some { e with state := .waiting v } }
    have hx : uniEnd (.steer c k) e size ch (waits t (.waiting v)) = putInst t c k { i with steer := x } := by
      simp only [uniEnd, waits, steerMove, onInst_some hi, x]
    have hg := getInst_putInst_self t c k { i with steer := x }
    rw [hx]
    refine ⟨keptUni_steer hi rfl, ?_, _, _, hg, rfl, rfl, rfl⟩
    simp only [getFile, hg, hi]
    rfl
  | handler c => cases hn

theorem KeptAgent.trans (h : KeptAgent s t a) (g : KeptAgent t u a) : KeptAgent s u a := by
  cases a with
  | weave c k =>
    obtain ⟨w, w1, h1, h2, h3⟩ := h
    obtain ⟨w1', w2, g1, g2, g3⟩ := g
    obtain rfl := Option.some.inj (h2.symm.trans g1)
    exact ⟨w, w2, h1, g2, g3.trans h3⟩
  | steer c k =>
    obtain ⟨i, i1, h1, h2, h3, h4⟩ := h
    obtain ⟨i1', i2, g1, g2, g3, g4⟩ := g
    obtain rfl := Option.some.inj (h2.symm.trans g1)
    exact ⟨i, i2, h1, g2, (congrArg (fun y : Inst => { y with steer := i.steer }) g3).trans h3, g4.trans h4⟩
  | handler c => exact (id g : _ = _).trans h

theorem Aside.keptAgent (h : Aside s t a) (hp : Present s a) : KeptAgent s t a := by
  cases a with
  | weave c k => obtain ⟨w, hw⟩ := hp.1 c k rfl; exact ⟨w, w, hw, (h.weave c k rfl).trans hw, rfl⟩
  | steer c k => obtain ⟨i, hi⟩ := hp.2 c k rfl; exact ⟨i, i, hi, (h.steer c k rfl).trans hi, rfl, rfl⟩
  | handler c => exact congrArg (fun y : Handler => { y.rest with inflight := [], storeq := [] }) h.handler

theorem keptAgent_uniEnd {size : Nat} {ch : Bool} {d : Done} (hd : d.wait = none) (hg : d.gs = []) (ok : EndOk d.s a e) :
    KeptAgent d.s (uniEnd a e size ch d) a := by
  obtain ⟨-, -, hk, -⟩ := uniEnd_spec (size := size) (ch := ch) hd hg ok
  cases a with
  | weave c k =>
    obtain ⟨w, hw, hm, hr⟩ := ok.weave c k rfl
    obtain ⟨w1, h1, b1, f1, -⟩ := untag_spec ((getWeave_count d.s c k 0x002 1).trans hw) d.wv d.ws
    obtain ⟨w2, h2, b2, -⟩ := retire_next h1 hm (by rw [f1]; exact hr) size ch
    refine ⟨w, w2, hw, ?_, by rw [b2.trans b1]⟩
    simp only [uniEnd, hd, hg, coreOf, h2, getWeave_putWeave_self]
  | steer c k =>
    obtain ⟨-, -, -, -, -, i, i', h1, h2, h3, h4⟩ := hk
    exact ⟨i, i', h1, h2, h4, congrArg (fun y : Steer => { y with inflight := [], storeq := [] }) h3⟩
  | handler c =>
    obtain ⟨-, -, -, -, h⟩ := hk
    exact congrArg (fun y : Handler => { y with inflight := [], storeq := [] }) h

/-! ### Results on their way -/

/-- No result of the agent is on its way. -/
def Arrived (s : State) : Agent → Prop
  | .weave c k => ∀ w, getWeave s c k = some w → w.inflight = []
  | .steer c k => ∀ i, getInst s c k = some i → i.steer.inflight = []
  | .handler c => (getCore s c).handler.inflight = []

/-- A turn begins when the agent's results have arrived (R62). -/
theorem UniTurn.arrived (h : UniTurn s a e) (hn : isHandler a = false) : Arrived (begin s a e) a := by
  cases a with
  | weave c k =>
    obtain ⟨w, hw⟩ := h.weave c k rfl
    obtain ⟨w0, -, hc⟩ := hw.before
    intro x hx
    rw [begin_turn hw, getWeave_putWeave_self, ← hc] at hx
    exact Option.some.inj hx ▸ rfl
  | steer c k =>
    obtain ⟨i, hi⟩ := h.steer c k rfl
    intro x hx
    simp only [begin, commitAgent, onInst_some hi, getInst_putInst_self] at hx
    exact Option.some.inj hx ▸ rfl
  | handler c => cases hn

theorem Aside.arrived (h : Aside s t a) (g : Arrived s a) : Arrived t a := by
  cases a with
  | weave c k => intro w hw; exact g w ((h.weave c k rfl).symm.trans hw)
  | steer c k => intro i hi; exact g i ((h.steer c k rfl).symm.trans hi)
  | handler c => exact (congrArg Handler.inflight h.handler).trans g

theorem Arrived.keptUni (h : Arrived s a) (g : KeptUni s t a) : Arrived t a := by
  cases a with
  | weave c k =>
    obtain ⟨-, w, w', h1, h2, h3⟩ := g
    intro x hx
    obtain rfl := Option.some.inj (h2.symm.trans hx)
    exact (congrArg Weave.inflight h3 :).trans (h w h1)
  | steer c k =>
    obtain ⟨-, -, -, -, -, i, i', h1, h2, h3, -⟩ := g
    intro x hx
    obtain rfl := Option.some.inj (h2.symm.trans hx)
    exact (congrArg Steer.inflight h3 :).trans (h i h1)
  | handler c =>
    obtain ⟨-, -, -, -, h3⟩ := g
    exact (congrArg Handler.inflight h3 :).trans h

theorem afterArrival_arrived (h : Arrived s a) (hp : Present s a) : afterArrival s a = getFile s a := by
  cases a with
  | weave c k =>
    obtain ⟨w, hw⟩ := hp.1 c k rfl
    have hc : commitWeave w = { w with inflight := [] } := by rw [commitWeave, h w hw]; rfl
    simp only [afterArrival, commitAgent, onWeave_some hw, getFile, getWeave_putWeave_self, hw, hc]
    rfl
  | steer c k =>
    obtain ⟨i, hi⟩ := hp.2 c k rfl
    simp only [afterArrival, commitAgent, onInst_some hi, getFile, getInst_putInst_self, hi, h i hi]
    rfl
  | handler c =>
    have hc : (getCore s c).handler.inflight = [] := h
    simp only [afterArrival, commitAgent, getFile, getCore_onCore_self, hc]
    rfl

/-! ### The agent goes on with a result -/

theorem KeptUni.caches (h : KeptUni s t a) : (getCore t (coreOf a)).l1 = (getCore s (coreOf a)).l1 ∧ sliceOf t (coreOf a) = sliceOf s (coreOf a) := by
  cases a with
  | weave c k =>
    obtain ⟨hk, -⟩ := h
    exact ⟨(congrArg Core.l1 hk.core :), (congrArg (sliceOf · c) hk.rest :)⟩
  | steer c k =>
    obtain ⟨hr, -, hs, -⟩ := h
    exact ⟨(congrArg Core.l1 hs :), (congrArg (sliceOf · c) hr :)⟩
  | handler c =>
    obtain ⟨hr, -, hs, -⟩ := h
    exact ⟨(congrArg Core.l1 hs :), (congrArg (sliceOf · c) hr :)⟩

/-- An instruction whose accesses left its agent as it stood writes its result and goes on. -/
theorem uniEnd_writes (h : UniTurn s a e) (hn : isHandler a = false) (ht : Aside (begin s a e) t a) (size : Nat) (ch : Bool) (d : UDst) (x : Double)
    (ws : List Nat) {u : State} (hu : uniEnd a e size ch { moved (writeUDst t a e.mask d false x) [] 1 with ws := ws } = u) :
    UniAccess (begin s a e) u a e size still ∧ UniGot (begin s a e) u a e (.reg d false) x ∧
      (getCore u (coreOf a)).l1 = (getCore t (coreOf a)).l1 ∧ sliceOf u (coreOf a) = sliceOf t (coreOf a) := by
  have hw := wrote_writeUDst (h.present ht) e.mask d x
  generalize writeUDst t a e.mask d false x = v at hu hw
  have hok := h.endOk ht hw.effect
  obtain ⟨g1, g2, g3, g4, -⟩ := uniEnd_spec (size := size) (ch := ch) (d := { moved v [] 1 with ws := ws }) rfl rfl hok
  have ha := keptAgent_uniEnd (size := size) (ch := ch) (d := { moved v [] 1 with ws := ws }) rfl rfl hok
  rw [hu] at g1 g2 g3 g4 ha
  have hk : KeptUni t u a := hw.effect.kept.trans g3
  have hp : Present u a := by
    refine ⟨fun c k hc => ?_, fun c k hc => ?_⟩
    · subst hc; obtain ⟨-, _, w, -, hw, -⟩ := hk; exact ⟨w, hw⟩
    · subst hc; obtain ⟨-, -, -, -, -, _, i, -, hi, -⟩ := hk; exact ⟨i, hi⟩
  have hf : afterArrival u a = getFile v a := (afterArrival_arrived ((ht.arrived (h.arrived hn)).keptUni hk) hp).trans g2
  refine ⟨⟨?_, ?_, ?_⟩, ⟨fun r => ?_, ?_, ?_, fun y hy c k hc => ?_⟩, ?_⟩
  · exact ht.access.trans (accessed_of_keptUni hk)
  · exact (ht.keptAgent (uniTurn_ok h).1).trans (hw.agent.trans ha)
  · refine goesOn_trans (fun c k hc => ?_) (fun c hc => by subst hc; cases hn) g1
    obtain ⟨w, w', h1, h2, h3⟩ := hw.effect.weave c k hc
    exact ⟨w, w', (ht.weave c k hc).symm.trans h1, h2, h3⟩
  · rw [hf, hw.regs, ht.getFile]
  · rw [hf, hw.preds, ht.getFile]
  · rw [hf, hw.mode, ht.getFile]
  · rw [(g4 y).1, ← ht.flagsOf]
    exact hw.flags y hy c k hc
  · exact KeptUni.caches hk

/-! ## What a node's address and its status are read from -/

theorem Aside.closeAgent (ht : Aside s t a) (hp : Present s a) (hs : settled s a) (hn : isHandler a = false) : Aside s (closeAgent t a) a := by
  cases a with
  | weave c k =>
    obtain ⟨w, hw⟩ := hp.1 c k rfl
    have hplain := hs.2 c k w rfl hw
    have hg : getWeave t c k = some w := (ht.weave c k rfl).trans hw
    rw [Machine.closeAgent, closeFor_idle hg hplain.idle, ← hplain.closed]
    exact ht.putWeave hg
  | steer c k =>
    obtain ⟨i, hi⟩ := hp.2 c k rfl
    have hg : getInst t c k = some i := (ht.steer c k rfl).trans hi
    have hq : i.steer.storeq = [] := by simpa only [Machine.queueOf, hi] using hs.1
    have hc : Machine.closeAgent t (.steer c k) = Machine.putInst t c k i := drainAll_steer hg hq
    exact hc ▸ ht.putInst hg
  | handler c => cases hn

theorem commitEarly_direct (ht : Aside s t a) (hd : direct s a) (hn : isHandler a = false) : commitEarly t a = t := by
  rw [commitEarly, ht.agentLaunch hn]
  split
  · rename_i l hl
    rw [(hd l hl).1]
    rfl
  · rfl

/-- The agent's stores are in memory before the checks of a `nodeput` (R146). -/
theorem Aside.nodeRelease (ht : Aside s t a) (hp : Present s a) (hs : settled s a) (hd : direct s a) (hn : isHandler a = false) :
    Aside s (nodeRelease t a) a ∧ ∀ j, memByte (nodeRelease t a) j = homeByte s (coreOf a) j := by
  have hc := ht.closeAgent hp hs hn
  obtain ⟨hf, hclean⟩ := cacheStep_flushL1 hc.form
  have hr := hc.cacheStep hf
  rw [Machine.nodeRelease, commitEarly_direct hr hd hn]
  exact ⟨hr, fun j => (hclean.memByte j).trans (hr.access.bytes j)⟩

theorem isHandler_of_weaveSteer {size : Nat} (h : uniOk s a e size .weaveSteer) : isHandler a = false := by
  cases a with
  | weave c k => rfl
  | steer c k => rfl
  | handler c =>
    simp only [uniOk, uniCause, placeOk] at h
    split at h <;> cases h

theorem pairOf_none (h : isPaired s a = false) : pairOf s a = none := by
  simpa only [isPaired, Option.isSome_eq_false_iff, Option.isNone_iff_eq_none] using h

theorem coreCycles_begin (h : UniTurn s a e) (hn : isHandler a = false) : coreCycles (begin s a e) (coreOf a) = coreCycles s (coreOf a) := by
  cases a with
  | weave c k =>
    obtain ⟨w, hw⟩ := h.weave c k rfl
    simp only [begin_turn hw, coreOf, coreCycles, putWeave, getCore_onCore_self]
    rfl
  | steer c k =>
    obtain ⟨i, hi⟩ := h.steer c k rfl
    simp only [begin, commitAgent, onInst_some hi, coreOf, coreCycles, putInst, getCore_onCore_self]
    rfl
  | handler c => cases hn

theorem statusEnds_iff (n : Nat) : statusEnds n = true ↔ n = 3 ∨ n = 4 ∨ n = 5 := by
  simp only [statusEnds, Bool.or_eq_true, beq_iff_eq, or_assoc]

/-! ## `nodeput` and `waitn` on their turn -/

variable {addr : Double} {key : Nat} {s2 s3 : State}

theorem exec_nodeput (h : UniTurn s a e) (hs : settled (begin s a e) a) (hd : direct (begin s a e) a) (hc : CachesOk (begin s a e) (coreOf a))
    (hok : uniOk (begin s a e) a e 4 .weaveSteer) {x : USrc} (hx : readUSrc (begin s a e) a x true 0#64 = .ok addr)
    (hsite : nodeSite (begin s a e) a addr = (.ok key, s2)) (d : UDst) :
    ∃ t s3, exec (.nodeput d x) s = .next t ∧ Accessed (begin s a e) s3 a still ∧
      (∀ j, memByte s3 j = homeByte (begin s a e) (coreOf a) j) ∧ UniWaits s3 t a e (.nodeput d addr) := by
  have hn := isHandler_of_weaveSteer hok
  have h2 : Aside (begin s a e) s2 a := (Aside.refl hc).of_nodeSite hsite
  obtain ⟨h3, hmem⟩ := h2.nodeRelease (uniTurn_ok h).1 hs hd hn
  have hsolo : isPaired (nodeRelease s2 a) a = false := by rw [isPaired, h3.pairOf]; exact h.solo
  have ht : exec (.nodeput d x) s = .next (uniEnd a e 4 false (waits (nodeRelease s2 a) (.waiting (.nodeput d addr)))) := by
    refine (uniIssue_turn h (q := uniAt 4 .weaveSteer) hok _).trans ?_
    simp only [hx, hsite, hsolo, Bool.false_eq_true, if_false, uniAt]
  exact ⟨_, _, ht, h3.access, hmem, uniEnd_waits h hn h3 4 false _⟩

/-- A `waitn` of an agent that is no paired copy reads the status itself. -/
theorem tryWaitn_solo (hp : pairOf s2 a = none) (hp3 : pairOf s3 a = none) {n : Nat} (hr : readNodeStatus s2 a addr = (.ok n, s3)) (e : Entry) (d : UDst)
    (lim : Nat) : tryWaitn s2 a e d addr lim =
      if statusEnds n then { moved (waitnWrite s3 a e d n) [] 1 with ws := udstRegs d false }
      else waits s3 (.waiting (.waitn d addr (if lim = 0 then none else some (coreCycles s3 (coreOf a) + 1024 * lim)))) := by
  simp only [tryWaitn, takeValue, hp, hr, giveValue, hp3]

section Waitn

variable {n : Nat} {x y : USrc} {p : BitVec 28} {vy : Double}

/-- What a `waitn` finds on its turn: its operands, the status at its node's home, read with the agent left as it stood. -/
structure WaitnTurn (s : State) (a : Agent) (e : Entry) (x y : USrc) (p : BitVec 28) (addr vy : Double) (n : Nat) (s2 s3 : State) : Prop where
  turn : UniTurn s a e
  legal : uniOk (begin s a e) a e 8 .weaveSteer
  direct : direct (begin s a e) a
  form : CachesOk (begin s a e) (coreOf a)
  node : readUSrc (begin s a e) a x true 0#64 = .ok addr
  limit : readUSrc (begin s a e) a y false (litValue .w32 p) = .ok vy
  site : ∃ key, nodeSite (begin s a e) a addr = (.ok key, s2)
  status : readNodeStatus s2 a addr = (.ok n, s3)

theorem WaitnTurn.found (h : WaitnTurn s a e x y p addr vy n s2 s3) : Aside (begin s a e) s2 a ∧ Aside (begin s a e) s3 a := by
  obtain ⟨key, hsite⟩ := h.site
  have h2 : Aside (begin s a e) s2 a := (Aside.refl h.form).of_nodeSite hsite
  exact ⟨h2, h2.of_readNodeStatus h.status⟩

theorem WaitnTurn.issue (h : WaitnTurn s a e x y p addr vy n s2 s3) (d : UDst) : exec (.waitn d x y p) s = .next (uniEnd a e 8 false
    (if statusEnds n then { moved (waitnWrite s3 a e d n) [] 1 with ws := udstRegs d false }
    else waits s3 (.waiting (.waitn d addr (if vy.toNat % 2 ^ 32 = 0 then none
      else some (coreCycles s (coreOf a) + 1024 * (vy.toNat % 2 ^ 32))))))) := by
  obtain ⟨h2, h3⟩ := h.found
  obtain ⟨key, hsite⟩ := h.site
  have hn := isHandler_of_weaveSteer h.legal
  have hp := pairOf_none h.turn.solo
  have hcycles : coreCycles s3 (coreOf a) = coreCycles s (coreOf a) := (coreCycles_accessed h3.access).trans (coreCycles_begin h.turn hn)
  refine (uniIssue_turn h.turn (q := uniAt 8 .weaveSteer) h.legal _).trans ?_
  simp only [h.node, h.limit, gather_ok₂, List.getD_cons_zero, List.getD_cons_succ, hsite, commitEarly_direct h2 h.direct hn,
    tryWaitn_solo (h2.pairOf.trans hp) (h3.pairOf.trans hp) h.status, hcycles, lowWord, BitVec.toNat_setWidth, uniAt]

theorem WaitnTurn.ends (h : WaitnTurn s a e x y p addr vy n s2 s3) (he : n = 3 ∨ n = 4 ∨ n = 5) (d : UDst) :
    ∃ t, exec (.waitn d x y p) s = .next t ∧ UniAccess (begin s a e) t a e 8 still ∧
      UniGot (begin s a e) t a e (.reg d false) (BitVec.ofNat 64 n) ∧ (n = 3 → (getCore t (coreOf a)).l1 = [] ∧ sliceOf t (coreOf a) = []) := by
  let u := if n = 3 then dropL1 s3 (coreOf a) else s3
  have hu : Aside (begin s a e) u a := by
    obtain ⟨-, h3⟩ := h.found
    by_cases h0 : n = 3
    · simp only [u, h0, if_true]; exact h3.cacheStep (cacheStep_dropL1 h3.form)
    · simp only [u, h0, if_false]; exact h3
  have hx := h.issue d
  rw [if_pos ((statusEnds_iff n).mpr he)] at hx
  obtain ⟨hacc, hgot, hl1, hl2⟩ := uniEnd_writes h.turn (isHandler_of_weaveSteer h.legal) hu 8 false d (BitVec.ofNat 64 n) (udstRegs d false) rfl
  refine ⟨_, hx, hacc, hgot, fun h0 => ?_⟩
  have h1 : u = dropL1 s3 (coreOf a) := if_pos h0
  exact ⟨hl1.trans (h1 ▸ l1_dropL1 _ _), hl2.trans (h1 ▸ sliceOf_dropL1 _ _)⟩

theorem WaitnTurn.stays (h : WaitnTurn s a e x y p addr vy n s2 s3) (he : ¬ (n = 3 ∨ n = 4 ∨ n = 5)) (d : UDst) :
    ∃ t, exec (.waitn d x y p) s = .next t ∧ Accessed (begin s a e) s3 a still ∧
      UniWaits s3 t a e (.waitn d addr (if vy.toNat % 2 ^ 32 = 0 then none else some (coreCycles s (coreOf a) + 1024 * (vy.toNat % 2 ^ 32)))) := by
  obtain ⟨-, h3⟩ := h.found
  have hx := h.issue d
  rw [if_neg (mt (statusEnds_iff n).mp he)] at hx
  exact ⟨_, hx, h3.access, uniEnd_waits h.turn (isHandler_of_weaveSteer h.legal) h3 8 false _⟩

end Waitn

end Turn

/-- Settles O38: the accesses of `nodeput` and `waitn` leave their agent as it stood; it waits, or goes on with the status. -/
theorem nodeForms : Obligations.NodeForms := by
  unfold Obligations.NodeForms
  intro s a e d x y p addr vy key s2 h s1 hs hd hc hx hsite
  refine ⟨fun hok => exec_nodeput h hs hd hc hok hx hsite d, fun n s3 hok hy hr => ?_⟩
  have ht : WaitnTurn s a e x y p addr vy n s2 s3 := ⟨h, hok, hd, hc, hx, hy, ⟨key, hsite⟩, hr⟩
  exact ⟨fun he => ht.ends he d, fun h3 h4 h5 => ht.stays (by rintro (he | he | he) <;> contradiction) d⟩

end Sys2Proof.Machine
